-- ==== Sys2Proof/Word.lean ====
section
/-! DEFINITION. The words of the GL-640's host side: bytes, 16-bit half-words and 32-bit words (R199). -/

namespace Sys2Proof

/-- One byte of exchange memory. -/
abbrev Byte := BitVec 8

/-- A half-word: one host access (R185), one register (12.1). -/
abbrev Half := BitVec 16

/-- A 32-bit word: a mirror word, an argument or result word of a slot (R199). -/
abbrev Word := BitVec 32

end Sys2Proof
end

