-- ==== Sys2Proof/Syntax.lean ====
section
/-! DEFINITION. The commands of the GL-640: one constructor per row of spec/opcode_table.json. -/

namespace Sys2Proof

/-- The 16-bit host tag of a slot (R187). -/
abbrev HostTag := Half

/-- The bolt contact that a sample belongs to (R125). -/
inductive BoltContact where
  | boltIn
  | boltOut
  deriving DecidableEq, Repr

/-- The two timers of the show runner whose whole seconds stand in visitor mirror word 4 (R172). -/
inductive ShowTimer where
  | step
  | duration
  deriving DecidableEq, Repr

/-- The register accesses of R185 that have no effect on the block: writes to IDENT and STATE, a write of a value
that is neither code to CONTROL, and reads of IDENT, NUDGE and CONTROL. -/
inductive RegisterAccess where
  | writeIdent (v : Half)
  | writeState (v : Half)
  | writeControl (v : Half)
  | readIdent
  | readNudge
  | readControl
  deriving DecidableEq, Repr

/-- A host access of exchange memory other than a lower-half read (R186): a write of the half-word at byte offset
2·hw, or a read of the upper half of the 32-bit word at byte offset 4·word. -/
inductive MemAccess where
  | write (hw : Fin 16384) (v : Half)
  | readUpper (word : Fin 8192)
  deriving DecidableEq, Repr

/-- The commands. A request carries its host tag and its argument words (12.1); a sample carries its input and its
level; an expiry names its item where several can run; see INVENTORY.md, Instructions. -/
inductive Instr where
  | detectorSample (input : Fin 256) (occupied : Bool)
  | axleHeadSample (head : Fin 32) (first second : Bool)
  | discrepancyTimerExpiry (sec : Fin 256)
  | disableSection (tag : HostTag) (sec : Word)
  | enableSection (tag : HostTag) (sec : Word)
  | resetSection (tag : HostTag) (sec : Word)
  | lostHoldExpiry (t : Fin 64)
  | labelTag (tag : HostTag) (t label : Word)
  | loadSections (tag : HostTag) (offset length count : Word)
  | loadRoutes (tag : HostTag) (offset length count : Word)
  | loadPoints (tag : HostTag) (offset length count : Word)
  | loadSignals (tag : HostTag) (offset length count : Word)
  | loadTable (tag : HostTag) (offset length count : Word)
  | loadShows (tag : HostTag) (offset length count : Word)
  | loadLamps (tag : HostTag) (offset length count : Word)
  | loadRecord
  | setParameters (tag : HostTag) (group offset count : Word)
  | start (tag : HostTag)
  | layoutReset (tag : HostTag)
  | setRoute (tag : HostTag) (route originator options : Word)
  | stackEntryExpiry (route : Fin 512)
  | cancelRoute (tag : HostTag) (route : Word)
  | overlapTimerExpiry (entry : Fin 48)
  | approachTimerExpiry (entry : Fin 48)
  | pointContactSample (input : Fin 256) (closed : Bool)
  | lossTimerExpiry (point : Fin 128)
  | pulseTimerExpiry
  | windowTimerExpiry (point : Fin 128)
  | rechargeTimerExpiry
  | travelTimerExpiry (point : Fin 128)
  | movePoint (tag : HostTag) (point lie : Word)
  | restorePoint (tag : HostTag) (point : Word)
  | stopPinSample (active : Bool)
  | allStop (tag : HostTag)
  | resume (tag : HostTag)
  | boltContactSample (contact : BoltContact) (closed : Bool)
  | boltTimerExpiry
  | settleTimerExpiry
  | stepBoundary (index : Bool)
  | homingSearchLimit (index : Bool)
  | legEnd (index : Bool)
  | stopComplete (index : Bool)
  | turnTable (tag : HostTag) (road deckEnd : Word)
  | homeTable (tag : HostTag) (road deckEnd : Word)
  | stopTable (tag : HostTag)
  | jogHoldTimerExpiry
  | buttonSample (button : Fin 18) (pressed : Bool)
  | stepTimerExpiry
  | durationTimerExpiry
  | coolDownExpiry (show_ : Fin 32)
  | runShow (tag : HostTag) (show_ : Word)
  | visitorSuspend (tag : HostTag)
  | visitorResume (tag : HostTag)
  | flashPhaseChange
  | idleTimerExpiry
  | nudge (value : Half)
  | pollTimerExpiry
  | stateRead
  | fullReset (profileHigh : Bool)
  | controlLayoutReset
  | registerWriteIgnored (access : RegisterAccess)
  | halfWordLatchRead (word : Fin 8192)
  | initialReset (profileHigh : Bool)
  | hostMemoryAccess (access : MemAccess)
  | stepOutputActive
  | jogHoldRemainingChange
  | wholeSecondRemainingChange (timer : ShowTimer)
  deriving DecidableEq, Repr

end Sys2Proof
end

