-- ==== Sys2Proof/Decode.lean ====
section
/-! DEFINITION. The command that a word spells by the bits of spec/opcode_table.json. No row of that table gives bits
(every row's "fields" is empty), so no word spells a command (log 33). -/

namespace Sys2Proof

/-- The command of a table word: none, because no row gives bits (log 33). -/
def decodeTableWord (_nbits _w : Nat) : Option Instr := none

end Sys2Proof
end

