-- ==== Sys2Proof/Config.lean ====
section
/-! DEFINITION. What the spec fixes for every GL-640 (the numbers of 00_scope.md and the areas of R184), and the
values it leaves open: opaque constants that no proof can see. -/

namespace Sys2Proof.Config

/-- The revision number in bits 12–15 of IDENT (12.1 names the field and gives no value): log 31. -/
opaque revision : BitVec 4

/-- FREE VALUE: the level read at the INDEX pin when the deck enters HOMING inside another event's handling
(R131 compares it, no command of the table delivers it): log 6. -/
opaque indexReading : Nat → Bool

/-- FREE VALUE: the 32-bit "time from start to arrival" (R101) of an order that arrived without having started
(R95 ends it at once, with no drive; the spec states no start time for it): log 7. -/
opaque unstartedMs : Nat → Nat

/-- FREE VALUE: the 16-bit half of a POINT_MOVED report that would have to carry more than 65,535 ms: log 7. -/
opaque longMs : Nat → Nat

/-- Exchange memory, in bytes: 32 KiB (00, Numbers used throughout). -/
def memBytes : Nat := 0x8000
/-- The mirrors' offsets (00, Exchange memory at a glance). -/
def sectionMirror : Nat := 0x0100
def pointMirror : Nat := 0x0500
def signalMirror : Nat := 0x0700
def activeMirror : Nat := 0x0A00
def stackMirror : Nat := 0x0AC0
def tagMirror : Nat := 0x0B00
def headMirror : Nat := 0x0C00
def tableMirror : Nat := 0x0C80
def visitorMirror : Nat := 0x0CC0
def lampMirror : Nat := 0x0D00
/-- The request list (R184): slot n at 0x1000 + 32·n. -/
def slotBase : Nat := 0x1000
/-- The report log (R184): entry n at 0x1400 + 16·n. -/
def logBase : Nat := 0x1400
/-- The data area (R184). -/
def dataBase : Nat := 0x3400

def numSlots : Nat := 32
def numLog : Nat := 512
def numTags : Nat := 64
def numActive : Nat := 48
def numStack : Nat := 16
def numQueue : Nat := 64
def poolEntries : Nat := 6144
def visitorQueue : Nat := 8

/-- The layout clock counts 0 to 4,294,967,295 and wraps (R190). -/
def clockMod : Nat := 4294967296

end Sys2Proof.Config
end

