-- ==== Sys2Proof/Machine/Table.lean ====
section
/-! DEFINITION. Tables: lists of (number, entry) in rising order of the number, each number once. Every numbered
table of the spec (sections, points, routes, tags, memory cells, ...) is one of these. -/

namespace Sys2Proof.Machine

/-- A table: (number, entry) pairs, numbers strictly rising. -/
abbrev Tbl (α : Type) := List (Nat × α)

/-- The entry of a number, if it has one. -/
def Tbl.find {α : Type} : Tbl α → Nat → Option α
  | [], _ => none
  | (k, v) :: t, n => if n = k then some v else Tbl.find t n

/-- The entry of a number, or the given one where it has none. -/
def Tbl.getD {α : Type} (t : Tbl α) (n : Nat) (d : α) : α := (Tbl.find t n).getD d

/-- Whether a number has an entry. -/
def Tbl.has {α : Type} (t : Tbl α) (n : Nat) : Bool := (Tbl.find t n).isSome

/-- The table with the entry of a number set, in its place. -/
def Tbl.insert {α : Type} : Tbl α → Nat → α → Tbl α
  | [], n, v => [(n, v)]
  | (k, w) :: t, n, v =>
    if n < k then (n, v) :: (k, w) :: t
    else if n = k then (n, v) :: t
    else (k, w) :: Tbl.insert t n v

/-- The table without the entry of a number. -/
def Tbl.erase {α : Type} : Tbl α → Nat → Tbl α
  | [], _ => []
  | (k, w) :: t, n => if n = k then t else (k, w) :: Tbl.erase t n

/-- The table with one entry changed, where the number has one. -/
def Tbl.modify {α : Type} (t : Tbl α) (n : Nat) (f : α → α) : Tbl α :=
  match Tbl.find t n with
  | none => t
  | some v => Tbl.insert t n (f v)

/-- Set an entry of a table whose missing entries stand for the value `d`: the entry `d` itself is not listed. -/
def Tbl.put {α : Type} [DecidableEq α] (d : α) (t : Tbl α) (n : Nat) (v : α) : Tbl α :=
  if v = d then Tbl.erase t n else Tbl.insert t n v

/-- The numbers that have an entry, rising. -/
def Tbl.keys {α : Type} (t : Tbl α) : List Nat := t.map Prod.fst

/-- The numbers are strictly rising. -/
def Tbl.sorted {α : Type} : Tbl α → Bool
  | [] => true
  | [_] => true
  | (k, _) :: (m, w) :: t => decide (k < m) && Tbl.sorted ((m, w) :: t)

/-- The lowest number below `n`, from `k` up, that has no entry. -/
def Tbl.lowestFree {α : Type} (t : Tbl α) : Nat → Nat → Option Nat
  | 0, _ => none
  | n + 1, k => if Tbl.has t k then Tbl.lowestFree t n (k + 1) else some k

end Sys2Proof.Machine
end

