-- ==== Sys2Proof/Machine/State.lean ====
section
/-! DEFINITION. The state of the GL-640: one structure per block of 00_scope.md ("Each block owns its own state"),
all plain data, and the machine right after initial reset. Times are in layout-clock milliseconds unless a field
says seconds; a timer is none while stopped and holds its remaining milliseconds while it runs. -/

namespace Sys2Proof.Machine

/-! ## Detection (chapter 1) -/

/-- Occupancy states (R11 to R13). -/
inductive SectionState where
  | clear | occupied | uncertain | sweeping | disabled
  deriving DecidableEq, Repr

/-- How a section is detected (R1). -/
inductive Detection where
  | current | axle | both
  deriving DecidableEq, Repr

/-- The setting of a point (00, Terms). -/
inductive Lie where
  | normal | reverse
  deriving DecidableEq, Repr

/-- A window filter (R3, R4): previous sample, most recent counted level (R5), reported level, and the open run: its
window count with the time that its window uses (R5: a new record changes only the next window). -/
structure Filter where
  prev : Bool
  counted : Bool
  level : Bool
  run : Option (Nat × Nat)
  deriving DecidableEq, Repr

/-- A filter at initial reset (R5, R114, R154): log 10 for `counted`. -/
def Filter.init : Filter := { prev := false, counted := false, level := false, run := none }

/-- A contact filter (R90): noise rejection only. -/
structure Contact where
  prev : Bool
  level : Bool
  deriving DecidableEq, Repr

/-- A contact at initial reset: OPEN (R105, R141). -/
def Contact.init : Contact := { prev := false, level := false }

/-- A neighbour entry (R23). -/
structure Neighbour where
  sec : Nat
  cond : Option (Nat × Lie)
  deriving DecidableEq, Repr

/-- A SECTION record (R1, R23, R158); times in ms. -/
structure SectionRec where
  detection : Detection
  input : Option Nat
  pickUp : Nat
  dropOut : Nat
  discrepancy : Nat
  isPublic : Bool
  neighbours : List Neighbour
  deriving DecidableEq, Repr

/-- The occupancy part of a loaded section (R10 to R14). -/
structure Occupancy where
  state : SectionState
  count : Nat
  discTimer : Option Nat
  discFlag : Bool
  deriving DecidableEq, Repr

/-- A section whose state has not been taken by START (log 15). -/
def Occupancy.init : Occupancy := { state := .clear, count := 0, discTimer := none, discFlag := false }

/-- Passage phases (R7). -/
inductive Phase where
  | idle | aEntered | aCentre | aLeaving | bEntered | bCentre | bLeaving | waitIdle
  deriving DecidableEq, Repr

/-- An axle head: its record (R1) and its state (R6). -/
structure Head where
  aSide : Option Nat
  bSide : Option Nat
  invert : Bool
  suspect : Bool
  phase : Phase
  totalAB : Nat
  totalBA : Nat
  deriving DecidableEq, Repr

/-- The occupancy unit, with the last physical pair of each head's channels (R6). -/
structure OccUnit where
  filters : Tbl Filter
  recs : Tbl SectionRec
  secs : Tbl Occupancy
  heads : Tbl Head
  pairs : Tbl (Bool × Bool)
  deriving DecidableEq, Repr

/-! ## Train tags (chapter 2) -/

/-- Tag states (R25). -/
inductive TagState where
  | free | active | lost
  deriving DecidableEq, Repr

/-- A tag record (R25). The head section is the last holder. -/
structure Tag where
  state : TagState
  label : Nat
  holders : List Nat
  last : Option Nat
  timer : Option Nat
  deriving DecidableEq, Repr

/-- A FREE tag (R38). -/
def Tag.init : Tag := { state := .free, label := 0, holders := [], last := none, timer := none }

/-- The train tag unit: tag table, tag field of each section, lost-hold time (ms, R34). -/
structure TagUnit where
  table : Tbl Tag
  fields : Tbl Nat
  lostHold : Nat
  deriving DecidableEq, Repr

/-- The rule that gave an arrival its tag (R27). -/
inductive ArrivalRule where
  | route | neighbour | reclaim | new
  deriving DecidableEq, Repr

/-- The outcome of an arrival, handed to the interlocking and the aspect unit (R27); `sources` are the neighbour
sections that held the tag, or the route's candidate section (R112). -/
structure Arrival where
  tag : Option Nat
  rule : Option ArrivalRule
  sources : List Nat
  deriving DecidableEq, Repr

/-! ## Routes (chapters 3 and 4) -/

/-- Route classes (R39). -/
inductive RouteClass where
  | main | callOn | shunt
  deriving DecidableEq, Repr

/-- The ends of the deck. -/
inductive DeckEnd where
  | a | b
  deriving DecidableEq, Repr

/-- A road and an end (R199). -/
structure RoadEnd where
  road : Nat
  deckEnd : DeckEnd
  deriving DecidableEq, Repr

/-- An element of a route (R39). -/
inductive Element where
  | sec (n : Nat)
  | point (p : Nat) (lie : Lie)
  deriving DecidableEq, Repr

/-- A route record (R39); release times in s. -/
structure RouteRec where
  cls : RouteClass
  entry : Nat
  exit : Option Nat
  visitor : Bool
  approachTime : Nat
  overlapTime : Nat
  table : Option RoadEnd
  elements : List Element
  flank : List (Nat × Lie)
  overlap : List Nat
  approach : List Nat
  deriving DecidableEq, Repr

/-- Who asked for a route (R43). -/
inductive Originator where
  | operator (panel : Nat)
  | automation
  | visitor
  deriving DecidableEq, Repr

/-- Where a route request came from (R53, R64). -/
inductive Source where
  | slot (n : Nat)
  | show_ (n : Nat)
  deriving DecidableEq, Repr

/-- States of an active route (R64). -/
inductive RouteState where
  | setting | set | held | running | approachLocked | cancelling
  deriving DecidableEq, Repr

/-- Overlap states (R64). -/
inductive OverlapState where
  | locked | timing | released
  deriving DecidableEq, Repr

/-- Endings of a route (R85). -/
inductive Ending where
  | normal | cancelled | approachExpired | failed
  deriving DecidableEq, Repr

/-- An entry of the active route table (R64); `ending` is the ending a CANCELLING route entered with (R83). -/
structure Active where
  route : Nat
  state : RouteState
  originator : Originator
  slot : Option Nat
  show_ : Option Nat
  tag : Option Nat
  orders : List Nat
  passed : List Bool
  releasePos : Nat
  overlapState : OverlapState
  overlapPos : Nat
  timer : Option Nat
  ending : Ending
  deriving DecidableEq, Repr

/-- The result codes (R189, 12.4). -/
inductive Result where
  | ok | unknownRequest | wrongState | badArgument | invalidRecord | loading | invalidConfig | aborted
  | sectionDisabled | sectionLocked | wrongSectionState | tagNotInUse | notLoaded | routeActive | routeStacked
  | entryBusy | allStop | visitorBarred | routeTableFull | sectionOccupied | pointFailed | pointLocked
  | pointOccupied | tableNotAligned | stackFull | expired | cancelled | routeRunning | routeNotActive | pointBusy
  | stopPinActive | tableFault | tableBusy | tableLocked | straddle | showBusy | queueFull
  deriving DecidableEq, Repr

/-- A route stack entry (R53). -/
structure StackEntry where
  route : Nat
  originator : Originator
  source : Source
  arrival : Nat
  expiry : Option Nat
  reason : Result
  item : Nat
  deriving DecidableEq, Repr

/-- A point's holder list with its shared lie (R63). -/
structure Holders where
  routes : List Nat
  shared : Option Lie
  deriving DecidableEq, Repr

/-- No holders (R87). -/
def Holders.none : Holders := { routes := [], shared := Option.none }

/-- The interlocking unit; stack timeout in s (R53), visitor quota (R45). -/
structure Interlocking where
  routes : Tbl RouteRec
  active : Tbl Active
  stack : List StackEntry
  locks : Tbl Nat
  holders : Tbl Holders
  stackTimeout : Nat
  quota : Nat
  deriving DecidableEq, Repr

/-! ## Points (chapter 5) -/

/-- Motors (R88). -/
inductive Motor where
  | solenoid | slow
  deriving DecidableEq, Repr

/-- Feedback of a point: a pair of contact inputs (normal, reverse), or none (R88). -/
inductive Feedback where
  | pair (normalIn reverseIn : Nat)
  | none
  deriving DecidableEq, Repr

/-- A point record (R88); travel timeout in ms. -/
structure PointRec where
  sec : Nat
  motor : Motor
  feedback : Feedback
  travel : Nat
  deriving DecidableEq, Repr

/-- Detected lies (R90). -/
inductive DetLie where
  | normal | reverse | moving | lost | failed
  deriving DecidableEq, Repr

/-- Causes of a point's failure (R103). -/
inductive PointCause where
  | noArrival | travelTimeout | wrongLie
  deriving DecidableEq, Repr

/-- A loaded point (R90 to R93). -/
structure PointState where
  failed : Option PointCause
  lie : DetLie
  assumed : Option Lie
  loss : Option Nat
  deriving DecidableEq, Repr

/-- Phases of a move order (R94). -/
inductive OrderPhase where
  | queued | pulse | window | retry | travel
  deriving DecidableEq, Repr

/-- Origins of a move order (R94): a route by its active entry, or a MOVE_POINT slot. -/
inductive OrderOrigin where
  | route (entry : Nat)
  | slot (n : Nat)
  deriving DecidableEq, Repr

/-- A move order (R94) with its window or travel timer. -/
structure Order where
  point : Nat
  lie : Lie
  origin : OrderOrigin
  phase : OrderPhase
  startTime : Option Nat
  retried : Bool
  timer : Option Nat
  deriving DecidableEq, Repr

/-- States of the discharge unit (R96). -/
inductive Discharge where
  | ready | pulsing | recharging
  deriving DecidableEq, Repr

/-- The point controller; times in ms (R96). -/
structure PointUnit where
  recs : Tbl PointRec
  contacts : Tbl Contact
  state : Tbl PointState
  queue : List Order
  overflow : List Order
  unit : Discharge
  pulseTimer : Option Nat
  rechargeTimer : Option Nat
  coil : Option (Nat × Lie)
  drives : Tbl Lie
  pulseTime : Nat
  rechargeTime : Nat
  window : Nat
  slowLimit : Nat
  deriving DecidableEq, Repr

/-! ## Signals and layout stop (chapter 6) -/

/-- Signal kinds (R107). -/
inductive SignalKind where
  | threeAspect | twoAspect | distant | shunt
  deriving DecidableEq, Repr

/-- A signal record (R107). -/
structure SignalRec where
  kind : SignalKind
  approach : Option Nat
  protect : Option Nat
  home : Option Nat
  deriving DecidableEq, Repr

/-- Aspects (00, Terms). -/
inductive Aspect where
  | danger | caution | proceed | callOn | shuntOff
  deriving DecidableEq, Repr

/-- A loaded signal: its aspect in the output image and its overrun count (R107, R113). -/
structure SignalState where
  aspect : Aspect
  overruns : Nat
  deriving DecidableEq, Repr

/-- The layout run condition (R115). -/
inductive RunCondition where
  | running | allStop
  deriving DecidableEq, Repr

/-- Causes of ALL STOP (R115). -/
inductive StopCause where
  | request
  | pin
  | overrun (signal : Nat)
  deriving DecidableEq, Repr

/-- The overrun response (R113). -/
inductive Response where
  | report | allStop
  deriving DecidableEq, Repr

/-- The aspect unit. `state` lists the loaded signals; every other place of the output image shows DANGER (`outputAspect`;
R107, R120). -/
structure AspectUnit where
  recs : Tbl SignalRec
  state : Tbl SignalState
  cond : RunCondition
  cause : Option StopCause
  power : Bool
  stopFilter : Filter
  response : Response
  deriving DecidableEq, Repr

/-! ## The turntable (chapters 7 and 8) -/

/-- A DECK record (R121); `stop` is the stop mark of a BOUNDED deck and none on a CONTINUOUS one; rates in steps/s,
times in ms. -/
structure DeckRec where
  c : Nat
  stop : Option Nat
  indexOffset : Nat
  rising : Bool
  backlash : Nat
  v0 : Nat
  vmax : Nat
  ramp : Nat
  jog : Nat
  bolt : Bool
  boltTime : Nat
  settleTime : Nat
  snap : Nat
  sec : Nat
  deriving DecidableEq, Repr

/-- A ROAD record (R122); `reversed` is the polarity for end A. -/
structure Road where
  position : Nat
  sec : Nat
  reversed : Bool
  deriving DecidableEq, Repr

/-- Deck states (R124). -/
inductive DeckState where
  | unreferenced | homing | unbolting | moving | returning | settling | bolting | aligned | jogging | stopping
  | halted | fault
  deriving DecidableEq, Repr

/-- Fault causes of the deck (R124). -/
inductive FaultCause where
  | indexNotFound | boltStuckOut | boltStuckIn
  deriving DecidableEq, Repr

/-- Requesters of the deck (R124). -/
inductive Requester where
  | none
  | slot (n : Nat)
  | show_ (n : Nat)
  | jog
  deriving DecidableEq, Repr

/-- The step generator while it steps (R150): the rate of the step in progress, its prescaler and reload value, the
counter (log 35) and whether the step is in its second half. -/
structure Generator where
  rate : Nat
  div : Nat
  reload : Nat
  counter : Nat
  second : Bool
  deriving DecidableEq, Repr

/-- The turntable controller (R124, R125) with its step generator (R150). -/
structure Turntable where
  deck : Option DeckRec
  roads : Tbl Road
  state : DeckState
  pos : Option Nat
  align : Option RoadEnd
  target : Option RoadEnd
  legCw : Bool
  legSteps : Nat
  legDone : Nat
  returnSteps : Nat
  requester : Requester
  fault : Option FaultCause
  jogCw : Bool
  jogHold : Option Nat
  jogReleased : Bool
  halting : Bool
  search : Nat
  boltTimer : Option Nat
  settleTimer : Option Nat
  turns : Nat
  boltOut : Bool
  feed : Bool
  polReversed : Bool
  dirAcw : Bool
  stepOut : Bool
  boltIn : Contact
  boltOutC : Contact
  lastIndex : Bool
  gen : Option Generator
  jogPermitted : Bool
  deriving DecidableEq, Repr

/-! ## Visitors (chapter 9) -/

/-- A step of a show (R157); times in s. -/
inductive ShowStep where
  | setRoute (route limit : Nat)
  | cancelRoute (route : Nat)
  | turn (target : RoadEnd)
  | waitSection (sec : Nat) (occupied : Bool) (limit : Nat)
  | pause (time : Nat)
  deriving DecidableEq, Repr

/-- A show record (R157); times in s. -/
structure ShowRec where
  button : Option Nat
  coolDown : Nat
  maxDuration : Nat
  steps : List ShowStep
  deriving DecidableEq, Repr

/-- The source of a queued show (R159). -/
inductive ShowSource where
  | button (n : Nat)
  | host
  deriving DecidableEq, Repr

/-- Step phases of the runner (R161). -/
inductive StepPhase where
  | none | waitRoute | waitTable | waitSection | pause
  deriving DecidableEq, Repr

/-- The show runner while it runs a show (R161). -/
structure Runner where
  show_ : Nat
  step : Nat
  phase : StepPhase
  stepTimer : Option Nat
  durTimer : Option Nat
  routes : List Nat
  deriving DecidableEq, Repr

/-- Outcomes of a show (R167, R171). -/
inductive ShowOutcome where
  | completed | stepRefused | stepFailed | waitLimit | maxDuration | allStop | suspended | layoutReset
  deriving DecidableEq, Repr

/-- Lamp modes (R174). -/
inductive Mode where
  | off | steady | slowFlash | fastFlash
  deriving DecidableEq, Repr

/-- The visitor unit. -/
structure VisitorUnit where
  filters : Tbl Filter
  shows : Tbl ShowRec
  cool : Tbl Nat
  queue : List (Nat × ShowSource)
  runner : Option Runner
  suspended : Bool
  busy : Nat
  last : Option (Nat × ShowOutcome)
  lamps : Tbl Mode
  deriving DecidableEq, Repr

/-! ## Mimic display (chapter 10) -/

/-- Lamp sources with their index and value (R175). -/
inductive LampSource where
  | none
  | sectionOccupied (sec : Nat)
  | sectionRouted (sec : Nat)
  | signalAspect (sig : Nat) (a : Aspect)
  | pointLie (p : Nat) (l : DetLie)
  | tableAtRoad (r : RoadEnd)
  | showRunning (n : Nat)
  | tagPresent (sec : Nat)
  deriving DecidableEq, Repr

/-- A lamp binding (R174). -/
structure Lamp where
  source : LampSource
  onMode : Mode
  offMode : Mode
  deriving DecidableEq, Repr

/-- A lamp that has never been bound (R175). -/
def Lamp.init : Lamp := { source := .none, onMode := .off, offMode := .off }

/-- Panel power states (R180). -/
inductive Panel where
  | awake | dim | sleep | dark
  deriving DecidableEq, Repr

/-- The display driver; idle times in s (R182), `idleRun` the one that the running timer was loaded with; levels of
mimic lamps at keys 0–383, of button lamps at 384 + button. -/
structure Display where
  bind : Tbl Lamp
  shown : Tbl Mode
  levels : Tbl Nat
  flash : Nat
  panel : Panel
  idleTimer : Option Nat
  idleRun : Nat
  idle1 : Nat
  idle2 : Nat
  idle3 : Nat
  deriving DecidableEq, Repr

/-! ## Exchange memory, requests and reports (chapters 11 and 12) -/

/-- Run states (R190). -/
inductive RunState where
  | initializing | configuring | running
  deriving DecidableEq, Repr

/-- Profiles (R198). -/
inductive Profile where
  | club | exhibition
  deriving DecidableEq, Repr

/-- The kinds of LOAD request (R191). -/
inductive LoadKind where
  | sections | points | signals | routes | table | shows | lamps
  deriving DecidableEq, Repr

/-- A LOAD that is reading or waiting (R191): its slot, the offset of its next record, the end of its bytes, its
record count and the number of records taken. -/
structure Load where
  kind : LoadKind
  slot : Nat
  cursor : Nat
  limit : Nat
  count : Nat
  taken : Nat
  deriving DecidableEq, Repr

/-- The attention enable set last read from the header (R197). -/
structure Enable where
  reports : Bool
  done : Bool
  stop : Bool
  deriving DecidableEq, Repr

/-- The exchange controller. `inHand` holds a slot's in-hand mark with the host tag read at taking (R187, R189). -/
structure Exchange where
  mem : List Host.Cell
  latchVal : Half
  latchOff : Nat
  paired : Bool
  bus : Half
  inHand : Tbl HostTag
  reading : Option Load
  loads : List Load
  w : Nat
  missed : BitVec 64
  takePos : Nat
  pollTimer : Option Nat
  reports : Bool
  done : Bool
  stop : Bool
  enable : Enable
  attn : Bool
  runState : RunState
  profile : Profile
  deriving DecidableEq, Repr

/-! ## The machine -/

/-- The way a step of the running show has ended inside the handling in hand (R161, R162). -/
inductive StepEnd where
  | success
  | failure (outcome : ShowOutcome) (reason : Nat) (word : Nat)
  deriving DecidableEq, Repr

/-- The MODEL's own record of what the handling in hand has still to hand on at its end (convention 13, log 11):
a dispatcher pass (R95), a stack re-examination (R54), the aspects (R111), the mimic lamps (R176), and a
show step that has ended. -/
structure Work where
  pass : Bool
  reexam : Bool
  aspects : Bool
  lamps : Bool
  step : Option StepEnd
  deriving DecidableEq, Repr

/-- No work in hand. -/
def Work.none : Work :=
  { pass := false, reexam := false, aspects := false, lamps := false, step := Option.none }

/-- The machine's state: its blocks (00_scope.md), the layout clock (R190), and the model's own `free`, `work` and
`pending` (log 6, log 11, log 1). -/
structure State where
  occ : OccUnit
  tags : TagUnit
  ilk : Interlocking
  pts : PointUnit
  asp : AspectUnit
  tt : Turntable
  vis : VisitorUnit
  disp : Display
  exch : Exchange
  clock : Nat
  free : Nat
  work : Work
  pending : List Instr
  deriving DecidableEq, Repr

/-- Faults. -/
inductive Fault where
  /-- Raised by the meaning of REGISTER_WRITE_IGNORED alone, for a command that is not well formed: it spells a
  CONTROL code that is the row FULL_RESET or CONTROL_LAYOUT_RESET (WellFormed.lean, log 32). Safe: the model stops
  where no such command exists. -/
  | illFormed
  deriving DecidableEq, Repr

/-- Refusals. -/
inductive Refusal where
  /-- Raised by an arm of exec whose command has no meaning yet; no arm of this model does. Safe. -/
  | notModelled (mnemonic : String)
  deriving DecidableEq, Repr

/-- The occupancy unit at initial reset (R5, R22). -/
def OccUnit.init : OccUnit := { filters := [], recs := [], secs := [], heads := [], pairs := [] }

/-- The train tag unit at initial reset (R38, R34). -/
def TagUnit.init : TagUnit := { table := [], fields := [], lostHold := 4000 }

/-- The interlocking unit at initial reset under a profile (R61, R87). -/
def Interlocking.init (p : Profile) : Interlocking :=
  { routes := [], active := [], stack := [], locks := [], holders := [], stackTimeout := 120,
    quota := match p with
      | .exhibition => 4
      | .club => 0 }

/-- The point controller at initial reset (R96, R105). -/
def PointUnit.init : PointUnit :=
  { recs := [], contacts := [], state := [], queue := [], overflow := [], unit := .recharging, pulseTimer := none,
    rechargeTimer := some 400, coil := none, drives := [], pulseTime := 50, rechargeTime := 400, window := 300,
    slowLimit := 4 }

/-- The aspect unit at initial reset (R114, R120). -/
def AspectUnit.init : AspectUnit :=
  { recs := [], state := [], cond := .running, cause := none, power := false, stopFilter := Filter.init,
    response := .report }

/-- The turntable controller at initial reset under a profile (R135, R141, R150). -/
def Turntable.init (p : Profile) : Turntable :=
  { deck := none, roads := [], state := .unreferenced, pos := none, align := none, target := none, legCw := true,
    legSteps := 0, legDone := 0, returnSteps := 0, requester := .none, fault := none, jogCw := true, jogHold := none,
    jogReleased := false, halting := false, search := 0, boltTimer := none, settleTimer := none, turns := 0,
    boltOut := false, feed := false, polReversed := false, dirAcw := false, stepOut := false, boltIn := Contact.init,
    boltOutC := Contact.init, lastIndex := false, gen := none,
    jogPermitted := match p with
      | .exhibition => true
      | .club => false }

/-- The visitor unit at initial reset (R154, R173). -/
def VisitorUnit.init : VisitorUnit :=
  { filters := [], shows := [], cool := [], queue := [], runner := none, suspended := false, busy := 6, last := none,
    lamps := [] }

/-- The display driver at initial reset under a profile (R182, R183). -/
def Display.init (p : Profile) : Display :=
  { bind := [], shown := [], levels := [], flash := 0, panel := .awake,
    idleTimer := match p with
      | .exhibition => some 60000
      | .club => some 30000,
    idleRun := match p with
      | .exhibition => 60
      | .club => 30,
    idle1 := match p with
      | .exhibition => 60
      | .club => 30,
    idle2 := match p with
      | .exhibition => 300
      | .club => 120,
    idle3 := match p with
      | .exhibition => 1800
      | .club => 600 }

/-- Exchange memory after initial reset under the EXHIBITION profile (R184, R198, R199): the header fields that are
not 0, and the LAYOUT_STATE report with cause INITIAL at entry 0 of the log. -/
def resetMem : List Host.Cell :=
  [(0x00, 1#8), (0x04, 1#8), (0x06, 0xE0#8), (0x07, 0x01#8), (0x10, 10#8), (0x12, 7#8), (0x16, 2#8),
   (0x1A, 0xFF#8), (0x1B, 0xFF#8), (0x1E, 3#8), (0x1F, 2#8), (0x20, 1#8), (0x21, 64#8),
   (0x1400, 1#8), (0x1401, 1#8), (0x1408, 2#8), (0x140C, 5#8)]

/-- The exchange controller after initial reset under the EXHIBITION profile (R184, R188, R197, R198): log 9 for the
REPORTS cause and the line, log 10 for the latch and the bus. -/
def Exchange.init : Exchange :=
  { mem := resetMem, latchVal := 0#16, latchOff := 0, paired := false, bus := 0#16, inHand := [], reading := none,
    loads := [], w := 1, missed := 0#64, takePos := 0, pollTimer := some 10, reports := true, done := false,
    stop := false, enable := { reports := true, done := true, stop := true }, attn := true, runState := .configuring,
    profile := .exhibition }

/-- The machine right after initial reset (R198), with the PROFILE pin high (log 8): CONFIGURING, nothing loaded, no
command waiting. -/
def State.reset : State :=
  { occ := OccUnit.init, tags := TagUnit.init, ilk := Interlocking.init .exhibition, pts := PointUnit.init,
    asp := AspectUnit.init, tt := Turntable.init .exhibition, vis := VisitorUnit.init,
    disp := Display.init .exhibition, exch := Exchange.init, clock := 0, free := 0, work := Work.none,
    pending := [] }

end Sys2Proof.Machine
end

