-- ==== Sys2Proof/Machine/Filters.lean ====
section
/-! DEFINITION. The window filter of detector inputs, visitor buttons and the STOP pin (R3, R4, R114, R154). -/

namespace Sys2Proof.Machine

/-- A contrary counted sample `x`: it opens the run at 0 with the time for its level, or advances it by 1 ms, and the
level changes when the window count reaches the time of the run (R4, log 17). -/
def Filter.contrary (time : Nat) (x : Bool) (f : Filter) : Filter :=
  let run := match f.run with
    | none => (0, time)
    | some (n, t) => (n + 1, t)
  if run.2 ≤ run.1 then { f with level := x, run := none } else { f with run := some run }

/-- One sample: it counts only if it equals the sample before it (R3); a counted sample equal to the reported level
closes the run (R4). -/
def Filter.sample (time : Nat) (x : Bool) (f : Filter) : Filter :=
  let g := { f with prev := x }
  if x = f.prev then
    let h := { g with counted := x }
    if x = f.level then { h with run := none } else h.contrary time x
  else g

/-- START sets the reported level to the most recent counted level and closes any run (R5). -/
def Filter.atStart (f : Filter) : Filter := { f with level := f.counted, run := none }

end Sys2Proof.Machine
end

