-- ==== Sys2Proof/Machine/Motion.lean ====
section
/-! DEFINITION. Turntable motion arithmetic (chapter 8): positions, targets, legs, rates, the prescaler, stops and the
snap choice. All quantities are whole numbers. -/

namespace Sys2Proof.Machine

/-- (a − b) mod C: the clockwise steps from b to a (R142). -/
def cwSteps (c a b : Nat) : Nat := (a + c - b) % c

/-- One step from a position (R142). -/
def stepFrom (c : Nat) (cw : Bool) (p : Nat) : Nat := if cw then (p + 1) % c else (p + c - 1) % c

/-- The target position of a road's position and an end (R143). -/
def targetOf (c r : Nat) : DeckEnd → Nat
  | .a => r % c
  | .b => (r + c / 2) % c

/-- Direction and length of a move: clockwise or not, and L; length 0 where the deck stands on t (R144, R145). -/
def direction (d : DeckRec) (p t : Nat) : Bool × Nat :=
  let e := cwSteps d.c t p
  let shorter := if e ≤ d.c / 2 then (true, e) else (false, d.c - e)
  match d.stop with
  | none => shorter
  | some m =>
    if e = 0 || m = p || m = t then shorter
    else if 1 ≤ cwSteps d.c m p && cwSteps d.c m p < e then (false, d.c - e)
    else (true, e)

/-- The overshoot b' of an anticlockwise move (R146). -/
def overshoot (d : DeckRec) (t : Nat) : Nat :=
  match d.stop with
  | none => d.backlash
  | some m =>
    let e := cwSteps d.c t m
    if e = 0 then 0 else if e ≤ d.backlash then e - 1 else d.backlash

/-- The legs of a move: direction and steps of the main leg, and steps of the clockwise return leg (R146). -/
def legs (d : DeckRec) (p t : Nat) : Bool × Nat × Nat :=
  match direction d p t with
  | (true, l) => (true, l, 0)
  | (false, l) => (false, l + overshoot d t, overshoot d t)

/-- The rate of step k of a leg of n steps (R147). -/
def legRate (d : DeckRec) (n k : Nat) : Nat := min d.vmax (min (d.v0 + k * d.ramp) (d.v0 + (n - 1 - k) * d.ramp))

/-- The rate of step k of a jog (R136). -/
def jogRate (d : DeckRec) (k : Nat) : Nat := min d.jog (d.v0 + k * d.ramp)

/-- The rate of the step of a stop after a step at v (R151). -/
def stopRate (d : DeckRec) (v : Nat) : Nat := max d.v0 (v - d.ramp)

/-- The stop length from rate v: the step in progress and the ceil((v − v0)/Δ) after it (R151). -/
def stopLength (d : DeckRec) (v : Nat) : Nat := 1 + (v - d.v0 + d.ramp - 1) / d.ramp

/-- round(8,000,000 / (2 · div · v)), halves up (R148). -/
def quotient (div v : Nat) : Nat := (8000000 + div * v) / (2 * div * v)

/-- The prescaler and the reload value of a rate (R148). -/
def prescale (v : Nat) : Nat × Nat :=
  let div := if quotient 1 v ≤ 65536 then 1 else if quotient 8 v ≤ 65536 then 8 else 64
  (div, quotient div v - 1)

/-- The step generator as a step at rate v begins (R149). -/
def beginStep (v : Nat) : Generator :=
  { rate := v, div := (prescale v).1, reload := (prescale v).2, counter := (prescale v).2, second := false }

/-- The period of a step in ticks of the 8 MHz timebase (R149). -/
def periodTicks (g : Generator) : Nat := 2 * g.div * (g.reload + 1)

/-- The steps from a position to the stop mark in a direction, a count of 0 read as C (R136); none on a CONTINUOUS
deck. -/
def stepsToStop (d : DeckRec) (cw : Bool) (p : Nat) : Option Nat :=
  d.stop.map fun m =>
    let n := if cw then cwSteps d.c m p else cwSteps d.c p m
    if n = 0 then d.c else n

/-- The search limit of HOMING (R131). -/
def searchLimit (d : DeckRec) : Nat := if d.stop.isSome then d.c else d.c + d.c / 4

/-- The distance from a position to a target (R152). -/
def distance (c p t : Nat) : Nat := min (cwSteps c t p) (c - cwSteps c t p)

/-- Every target of the loaded roads in tie order: road number, then end A before end B (R153). -/
def snapTargets (d : DeckRec) (roads : Tbl Road) : List (RoadEnd × Nat) :=
  roads.flatMap fun x =>
    [({ road := x.1, deckEnd := .a }, targetOf d.c x.2.position .a),
     ({ road := x.1, deckEnd := .b }, targetOf d.c x.2.position .b)]

/-- The nearer of the best so far and a target; the earlier one on a tie (R153). -/
def nearer (d : DeckRec) (p : Nat) (best : Option (RoadEnd × Nat)) (x : RoadEnd × Nat) : Option (RoadEnd × Nat) :=
  if distance d.c p x.2 ≤ d.snap then
    match best with
    | none => some x
    | some b => if distance d.c p x.2 < distance d.c p b.2 then some x else best
  else best

/-- The snap choice: a road and end with its target position, if one is within the window (R153). -/
def snapChoice (d : DeckRec) (roads : Tbl Road) (p : Nat) : Option (RoadEnd × Nat) :=
  (snapTargets d roads).foldl (nearer d p) none

end Sys2Proof.Machine
end

