-- ==== Sys2Proof/Machine/Codes.lean ====
section
/-! DEFINITION. The numeric codes of 12.4 and the packing of fields into words (R199). -/

namespace Sys2Proof.Machine

/-! ## Packing -/

/-- A field of `width` bits at bit `at_` of a word, as a number. -/
def fld (v width at_ : Nat) : Nat := (v % 2 ^ width) * 2 ^ at_

/-- A one-bit field. -/
def bit (b : Bool) (at_ : Nat) : Nat := if b then 2 ^ at_ else 0

/-- A word from its lower and upper half-word. -/
def halves (lo hi : Nat) : Nat := fld lo 16 0 + fld hi 16 16

/-- The bits `lo .. lo+width-1` of a number. -/
def bitsOf (v lo width : Nat) : Nat := v / 2 ^ lo % 2 ^ width

/-- A 16-bit number field that holds none reads 65,535 (R199). -/
def orNone16 : Option Nat → Nat
  | none => 65535
  | some n => n

/-! ## Codes of state values -/

def RunState.code : RunState → Nat
  | .initializing => 1
  | .configuring => 2
  | .running => 3

def RunCondition.code : RunCondition → Nat
  | .running => 0
  | .allStop => 1

/-- Stop causes, 0 none (12.4 "cause"). -/
def stopCauseCode : Option StopCause → Nat
  | none => 0
  | some .request => 1
  | some .pin => 2
  | some (.overrun _) => 3

/-- The signal of an OVERRUN cause (R115). -/
def stopCauseSignal : Option StopCause → Option Nat
  | some (.overrun x) => some x
  | _ => none

def Discharge.code : Discharge → Nat
  | .ready => 1
  | .pulsing => 2
  | .recharging => 3

def Profile.code : Profile → Nat
  | .club => 1
  | .exhibition => 2

def Panel.code : Panel → Nat
  | .awake => 1
  | .dim => 2
  | .sleep => 3
  | .dark => 4

def SectionState.code : SectionState → Nat
  | .clear => 1
  | .occupied => 2
  | .uncertain => 3
  | .sweeping => 4
  | .disabled => 5

def TagState.code : TagState → Nat
  | .free => 0
  | .active => 1
  | .lost => 2

def Lie.code : Lie → Nat
  | .normal => 1
  | .reverse => 2

def sharedCode : Option Lie → Nat
  | none => 0
  | some l => l.code

def DetLie.code : DetLie → Nat
  | .normal => 1
  | .reverse => 2
  | .moving => 3
  | .lost => 4
  | .failed => 5

def SignalKind.code : SignalKind → Nat
  | .threeAspect => 1
  | .twoAspect => 2
  | .distant => 3
  | .shunt => 4

def Aspect.code : Aspect → Nat
  | .danger => 1
  | .caution => 2
  | .proceed => 3
  | .callOn => 4
  | .shuntOff => 5

def RouteState.code : RouteState → Nat
  | .setting => 1
  | .set => 2
  | .held => 3
  | .running => 4
  | .approachLocked => 5
  | .cancelling => 6

def Originator.code : Originator → Nat
  | .operator _ => 1
  | .automation => 2
  | .visitor => 3

/-- The panel field is 0 unless the originator is OPERATOR (12.2). -/
def Originator.panel : Originator → Nat
  | .operator p => p
  | .automation => 0
  | .visitor => 0

def OverlapState.code : OverlapState → Nat
  | .locked => 1
  | .timing => 2
  | .released => 3

def Ending.code : Ending → Nat
  | .normal => 1
  | .cancelled => 2
  | .approachExpired => 3
  | .failed => 4

def DeckState.code : DeckState → Nat
  | .unreferenced => 1
  | .homing => 2
  | .unbolting => 3
  | .moving => 4
  | .returning => 5
  | .settling => 6
  | .bolting => 7
  | .aligned => 8
  | .jogging => 9
  | .stopping => 10
  | .halted => 11
  | .fault => 12

def FaultCause.code : FaultCause → Nat
  | .indexNotFound => 1
  | .boltStuckOut => 2
  | .boltStuckIn => 3

def faultCode : Option FaultCause → Nat
  | none => 0
  | some c => c.code

def Requester.code : Requester → Nat
  | .none => 0
  | .slot _ => 1
  | .show_ _ => 2
  | .jog => 3

/-- The slot or show number of a requester (R140); 0 for JOG and NONE, which have neither (DESIGN CHOICE, log 58). -/
def Requester.number : Requester → Nat
  | .none => 0
  | .slot n => n
  | .show_ n => n
  | .jog => 0

def StepPhase.code : StepPhase → Nat
  | .none => 0
  | .waitRoute => 1
  | .waitTable => 2
  | .waitSection => 3
  | .pause => 4

def ShowOutcome.code : ShowOutcome → Nat
  | .completed => 1
  | .stepRefused => 2
  | .stepFailed => 3
  | .waitLimit => 4
  | .maxDuration => 5
  | .allStop => 6
  | .suspended => 7
  | .layoutReset => 8

def Mode.code : Mode → Nat
  | .off => 0
  | .steady => 1
  | .slowFlash => 2
  | .fastFlash => 3

def PointCause.code : PointCause → Nat
  | .noArrival => 1
  | .travelTimeout => 2
  | .wrongLie => 3

def Result.code : Result → Nat
  | .ok => 0
  | .unknownRequest => 1
  | .wrongState => 2
  | .badArgument => 3
  | .invalidRecord => 4
  | .loading => 5
  | .invalidConfig => 6
  | .aborted => 7
  | .sectionDisabled => 8
  | .sectionLocked => 9
  | .wrongSectionState => 10
  | .tagNotInUse => 11
  | .notLoaded => 12
  | .routeActive => 13
  | .routeStacked => 14
  | .entryBusy => 15
  | .allStop => 16
  | .visitorBarred => 17
  | .routeTableFull => 18
  | .sectionOccupied => 19
  | .pointFailed => 20
  | .pointLocked => 21
  | .pointOccupied => 22
  | .tableNotAligned => 23
  | .stackFull => 24
  | .expired => 25
  | .cancelled => 26
  | .routeRunning => 27
  | .routeNotActive => 28
  | .pointBusy => 29
  | .stopPinActive => 30
  | .tableFault => 31
  | .tableBusy => 32
  | .tableLocked => 33
  | .straddle => 34
  | .showBusy => 35
  | .queueFull => 36

/-- The order state of a point's mirror word (R104) from its order's phase and whether it is in the overflow list. -/
def OrderPhase.code : OrderPhase → Bool → Nat
  | .queued, false => 1
  | .queued, true => 2
  | .pulse, _ => 3
  | .window, _ => 4
  | .retry, _ => 5
  | .travel, _ => 6

/-- Report kinds (12.4). -/
inductive ReportKind where
  | layoutState | sectionChanged | headSuspect | detectionDisagrees | tagNew | tagLost | tagReclaimed | tagFreed
  | tagAmbiguous | tagExhausted | routeSet | routeHeld | routeRunning | routeApproachLocked | routeReleased
  | routeFailed | pointMoved | pointLost | pointFailed | signalAspect | signalOverrun | tableState | visitorPress
  | showStarted | showEnded | panelPower | resync
  deriving DecidableEq, Repr

def ReportKind.code : ReportKind → Nat
  | .layoutState => 1
  | .sectionChanged => 2
  | .headSuspect => 3
  | .detectionDisagrees => 4
  | .tagNew => 5
  | .tagLost => 6
  | .tagReclaimed => 7
  | .tagFreed => 8
  | .tagAmbiguous => 9
  | .tagExhausted => 10
  | .routeSet => 11
  | .routeHeld => 12
  | .routeRunning => 13
  | .routeApproachLocked => 14
  | .routeReleased => 15
  | .routeFailed => 16
  | .pointMoved => 17
  | .pointLost => 18
  | .pointFailed => 19
  | .signalAspect => 20
  | .signalOverrun => 21
  | .tableState => 22
  | .visitorPress => 23
  | .showStarted => 24
  | .showEnded => 25
  | .panelPower => 26
  | .resync => 27

/-- The LOW kinds of R195; every other kind is HIGH. -/
def ReportKind.low : ReportKind → Bool
  | .sectionChanged | .signalAspect | .visitorPress | .panelPower => true
  | _ => false

/-- A road and an end in one byte (R199): road in bits 0–5, end in bit 6, bit 7 set where one is present. -/
def roadEndByte : Option RoadEnd → Nat
  | none => 0
  | some r => fld r.road 6 0 + bit (r.deckEnd == .b) 6 + bit true 7

/-- The road and end of such a byte, read without its bit 7 (log 22). -/
def roadEndOf (b : Nat) : RoadEnd :=
  { road := b % 64, deckEnd := if bitsOf b 6 1 = 1 then .b else .a }

/-- A lie coded 1 NORMAL, 2 REVERSE. -/
def lieOf : Nat → Option Lie
  | 1 => some .normal
  | 2 => some .reverse
  | _ => none

/-- A lamp mode by its code. -/
def modeOf : Nat → Option Mode
  | 0 => some .off
  | 1 => some .steady
  | 2 => some .slowFlash
  | 3 => some .fastFlash
  | _ => none

/-- The detected lie that a lie is (R90). -/
def Lie.det : Lie → DetLie
  | .normal => .normal
  | .reverse => .reverse

end Sys2Proof.Machine
end

