-- ==== Sys2Proof/Machine/Ops.lean ====
section
/-! DEFINITION. The shared operations of the exchange controller: exchange memory in its canonical form, the header,
the report appender (R195, R196), the attention line (R197) and the completion of slots (R189). -/

namespace Sys2Proof.Machine

/-! ## Exchange memory (R184, R199) -/

namespace Mem

/-- What a byte that is not listed reads as: every byte is zeroed at initial reset (R198). -/
def unlisted : Byte := 0#8

/-- One byte of memory. -/
def read8 (m : List Host.Cell) (a : Nat) : Byte := Tbl.getD m a unlisted

/-- Write one byte; a byte that becomes what an unlisted address reads as is not listed. -/
def write8 (m : List Host.Cell) (a : Nat) (v : Byte) : List Host.Cell := Tbl.put unlisted m a v

/-- A half-word: lower byte first (R199). -/
def read16 (m : List Host.Cell) (a : Nat) : Half := read8 m (a + 1) ++ read8 m a

/-- Write a half-word. -/
def write16 (m : List Host.Cell) (a : Nat) (v : Half) : List Host.Cell :=
  write8 (write8 m a (v.extractLsb' 0 8)) (a + 1) (v.extractLsb' 8 8)

/-- A word: lower half first (R199). -/
def read32 (m : List Host.Cell) (a : Nat) : Word := read16 m (a + 2) ++ read16 m a

/-- Write a word. -/
def write32 (m : List Host.Cell) (a : Nat) (v : Word) : List Host.Cell :=
  write16 (write16 m a (v.extractLsb' 0 16)) (a + 2) (v.extractLsb' 16 16)

/-- Every listed byte differs from what an unlisted address reads as and lies inside exchange memory. -/
def cellsOk : List Host.Cell → Bool
  | [] => true
  | (a, v) :: t => decide (v ≠ unlisted) && decide (a < Config.memBytes) && cellsOk t

/-- The canonical form: offsets strictly rising, no cell that reads as an unlisted one, none outside the 32 KiB. -/
def wf (m : List Host.Cell) : Bool := Tbl.sorted m && cellsOk m

end Mem

/-- The state with another exchange memory. -/
def State.withMem (s : State) (m : List Host.Cell) : State := { s with exch := { s.exch with mem := m } }

def State.read8 (s : State) (a : Nat) : Nat := (Mem.read8 s.exch.mem a).toNat
def State.read16 (s : State) (a : Nat) : Nat := (Mem.read16 s.exch.mem a).toNat
def State.read32 (s : State) (a : Nat) : Nat := (Mem.read32 s.exch.mem a).toNat

/-- The part writes a byte, a half-word or a word, given as a number. Memory holds no byte outside its 32 KiB. -/
def State.write8 (a v : Nat) (s : State) : State :=
  if a < Config.memBytes then s.withMem (Mem.write8 s.exch.mem a (BitVec.ofNat 8 v)) else s

def State.write16 (a v : Nat) (s : State) : State :=
  if a + 1 < Config.memBytes then s.withMem (Mem.write16 s.exch.mem a (BitVec.ofNat 16 v)) else s

def State.write32 (a v : Nat) (s : State) : State :=
  if a + 3 < Config.memBytes then s.withMem (Mem.write32 s.exch.mem a (BitVec.ofNat 32 v)) else s

/-! ## The part's header fields (R184, 12.1) -/

def State.running (s : State) : Bool := s.exch.runState == .running

/-- The run state, in the header as in the STATE register (R190). -/
def setRunState (r : RunState) (s : State) : State :=
  ({ s with exch := { s.exch with runState := r } } : State).write16 0x16 r.code

/-- Run condition, stop cause and overrun signal (R115). -/
def setRunCondition (c : RunCondition) (cause : Option StopCause) (s : State) : State :=
  (({ s with asp := { s.asp with cond := c, cause := cause } } : State).write8 0x18 c.code
    |>.write8 0x19 (stopCauseCode cause)).write16 0x1A (orNone16 (stopCauseSignal cause))

/-- Track power (R118). -/
def setPower (on : Bool) (s : State) : State :=
  ({ s with asp := { s.asp with power := on } } : State).write8 0x1D (bit on 0)

/-- The discharge unit's state (R96). -/
def setUnit (u : Discharge) (s : State) : State :=
  ({ s with pts := { s.pts with unit := u } } : State).write8 0x1E u.code

/-- The panel brightness level, floor(64 × percent / 100) (R179). -/
def Panel.level : Panel → Nat
  | .awake => 64 * 100 / 100
  | .dim => 64 * 50 / 100
  | .sleep => 64 * 15 / 100
  | .dark => 64 * 0 / 100

/-- The panel state with its brightness level in the header (R180). -/
def setPanelState (p : Panel) (s : State) : State :=
  (({ s with disp := { s.disp with panel := p } } : State).write8 0x20 p.code).write8 0x21 p.level

/-! ## Attention (R197) -/

/-- The line is asserted while an active cause has its mark in the enable set. -/
def attention (e : Exchange) : Bool :=
  (e.reports && e.enable.reports) || (e.done && e.enable.done) || (e.stop && e.enable.stop)

/-- Evaluate the line again. -/
def evalLine (s : State) : State := { s with exch := { s.exch with attn := attention s.exch } }

/-- The STOP cause: ALL STOP or a deck in FAULT. -/
def stopCauseActive (s : State) : Bool := s.asp.cond == .allStop || s.tt.state == .fault

/-- The STOP cause and the line evaluated again, as entries and exits are handed on (R115, R117, R134). -/
def evalStop (s : State) : State :=
  evalLine { s with exch := { s.exch with stop := stopCauseActive s } }

/-! ## The report log (R195, R196) -/

/-- Unread entries, U = (W − Rd) mod 512. -/
def unread (w rd : Nat) : Nat := (w + Config.numLog - rd % Config.numLog) % Config.numLog

/-- The notify level, clamped to 1–511. -/
def clampNotify (v : Nat) : Nat := min (max v 1) 511

/-- The almost-full level, clamped to 1–511 and to at least the notify level. -/
def clampAlmost (v notify : Nat) : Nat := max (min (max v 1) 511) notify

/-- Rd, as read: modulo 512 (R196). -/
def State.rd (s : State) : Nat := s.read16 0x02 % Config.numLog
def State.notify (s : State) : Nat := clampNotify (s.read16 0x04)
def State.almost (s : State) : Nat := clampAlmost (s.read16 0x06) s.notify

/-- The REPORTS cause evaluated with the levels as they stand, and the line with it. -/
def evalReports (s : State) : State :=
  evalLine { s with exch := { s.exch with reports := decide (s.notify ≤ unread s.exch.w s.rd) } }

/-- The enable set of the header (12.1). -/
def enableOf (v : Nat) : Enable :=
  { reports := bitsOf v 0 1 == 1, done := bitsOf v 1 1 == 1, stop := bitsOf v 2 1 == 1 }

/-- One reading of Rd, the levels and the enable set: the clamped levels are written back and REPORTS is evaluated
(R196, R197; log 19). -/
def readLevels (s : State) : State :=
  let n := s.notify
  let a := s.almost
  let s := (s.write16 0x04 n).write16 0x06 a
  evalReports { s with exch := { s.exch with enable := enableOf (s.read16 0x12) } }

/-- The missed-kinds set of the header, rewritten (R184). -/
def setMissed (m : BitVec 64) (s : State) : State :=
  (({ s with exch := { s.exch with missed := m } } : State).write32 0x08 (m.toNat % 2 ^ 32)).write32 0x0C
    (m.toNat / 2 ^ 32)

/-- One entry written whole at W (12.1); W then advances and REPORTS is evaluated again (R196). -/
def writeEntry (k : ReportKind) (subject v1 v2 : Nat) (s : State) : State :=
  let a := Config.logBase + 16 * (s.exch.w % Config.numLog)
  let w := (s.exch.w + 1) % Config.numLog
  let s := s.write32 a (fld k.code 8 0 + fld (if k.low then 0 else 1) 8 8 + fld subject 16 16)
  let s := s.write32 (a + 4) s.clock
  let s := (s.write32 (a + 8) v1).write32 (a + 12) v2
  evalReports (({ s with exch := { s.exch with w := w } } : State).write16 0x00 w)

/-- The report's limit: the almost-full level for LOW, 511 for HIGH (R195). -/
def reportLimit (k : ReportKind) (s : State) : Nat := if k.low then s.almost else 511

/-- Append a report, or add its kind to the missed-kinds set (R195). -/
def report (k : ReportKind) (subject v1 v2 : Nat) (s : State) : State :=
  let s := readLevels s
  let u := unread s.exch.w s.rd
  if s.exch.missed = 0#64 then
    if u < reportLimit k s then writeEntry k subject v1 v2 s
    else setMissed (s.exch.missed ||| (1#64 <<< k.code)) s
  else if u + 1 < reportLimit k s then
    let m := s.exch.missed.toNat
    writeEntry k subject v1 v2 (setMissed 0#64 (writeEntry .resync 0 (m % 2 ^ 32) (m / 2 ^ 32) s))
  else setMissed (s.exch.missed ||| (1#64 <<< k.code)) s

/-! ## Slots (R187, R189) -/

/-- The offset of slot n. -/
def slotAt (n : Nat) : Nat := Config.slotBase + 32 * n

/-- Complete a slot in hand: result code and words, the tag read at taking, DONE; the mark is cleared and the DONE
cause latched (R189). -/
def complete (n : Nat) (r : Result) (w0 w1 : Nat) (s : State) : State :=
  match (if n < Config.numSlots then Tbl.find s.exch.inHand n else none) with
  | none => s
  | some tag =>
    let s := ((s.write16 (slotAt n + 6) r.code).write32 (slotAt n + 0x18) w0).write32 (slotAt n + 0x1C) w1
    let s := (s.write16 (slotAt n + 4) tag.toNat).write16 (slotAt n) 3
    evalLine { s with exch := { s.exch with inHand := Tbl.erase s.exch.inHand n, done := true } }

/-! ## Free values (log 6, log 7) -/

/-- The next free value is used. -/
def useFree (s : State) : State := { s with free := s.free + 1 }

/-- The layout-clock milliseconds from `t` to now, modulo the clock's wrap (R190). -/
def since (s : State) (t : Nat) : Nat := (s.clock + Config.clockMod - t) % Config.clockMod

end Sys2Proof.Machine
end

