-- ==== Sys2Proof/Machine/Mirror.lean ====
section
/-! DEFINITION. Reading the blocks' tables, and the mirror words of 12.2 with the operations that write them. A block
writes a mirror word by calling the operation below after it has changed a field of the word (R19, R26, R60, R86,
R104, R119, R140, R172, R177). -/

namespace Sys2Proof.Machine

/-- A function applied for each number of a list, in order. -/
def eachDo (l : List Nat) (f : Nat → State → State) (s : State) : State := l.foldl (fun t n => f n t) s

/-! ## Reading the tables -/

/-- The occupancy of a section (a section that is not loaded reads as one that START has not reached, log 36). -/
def occOf (s : State) (n : Nat) : Occupancy := Tbl.getD s.occ.secs n Occupancy.init

def secState (s : State) (n : Nat) : SectionState := (occOf s n).state

/-- CLEAR is the one state that R11 calls clear. -/
def secClear (s : State) (n : Nat) : Bool := secState s n == .clear

/-- The reported level of the detector that a section record names; CLEAR for an AXLE section (R19). -/
def detLevel (s : State) (r : SectionRec) : Bool :=
  match r.input with
  | none => false
  | some i => (Tbl.getD s.occ.filters i Filter.init).level

/-- The tag field of a section (R25). -/
def tagOf (s : State) (n : Nat) : Option Nat := Tbl.find s.tags.fields n

/-- A tag record; a tag not listed is FREE (R38). -/
def tagRec (s : State) (t : Nat) : Tag := Tbl.getD s.tags.table t Tag.init

/-- The route that holds a section's lock (R62). -/
def lockOf (s : State) (n : Nat) : Option Nat := Tbl.find s.ilk.locks n

/-- A point's holder list and shared lie (R63). -/
def holdersOf (s : State) (p : Nat) : Holders := Tbl.getD s.ilk.holders p Holders.none

/-- The move order for a point, with whether it stands in the overflow list (R94). -/
def orderOf (s : State) (p : Nat) : Option (Order × Bool) :=
  match s.pts.queue.find? (fun o => o.point == p) with
  | some o => some (o, false)
  | none =>
    match s.pts.overflow.find? (fun o => o.point == p) with
    | some o => some (o, true)
    | none => none

/-- In flight: PULSE, WINDOW, RETRY or TRAVEL (R94). -/
def OrderPhase.inFlight : OrderPhase → Bool
  | .queued => false
  | .pulse | .window | .retry | .travel => true

/-- Whether an order for the point is in flight. -/
def pointInFlight (s : State) (p : Nat) : Bool :=
  match orderOf s p with
  | some (o, _) => o.phase.inFlight
  | none => false

/-- The counted level of a contact input (R90). -/
def contactLevel (s : State) (i : Nat) : Bool := (Tbl.getD s.pts.contacts i Contact.init).level

/-- The counted levels of a point's two contacts; both OPEN for feedback NONE (R104). -/
def pointContacts (s : State) (r : PointRec) : Bool × Bool :=
  match r.feedback with
  | .pair n v => (contactLevel s n, contactLevel s v)
  | .none => (false, false)

/-- The detected lie that the point controller holds (R90); log 36 for a point that is not loaded. -/
def detLie (s : State) (p : Nat) : DetLie :=
  match Tbl.find s.pts.state p with
  | some st => st.lie
  | none => .lost

/-- The aspect at a signal's place in the output image: a signal that is not loaded shows DANGER there (R107, R120). -/
def outputAspect (s : State) (x : Nat) : Aspect :=
  match Tbl.find s.asp.state x with
  | some st => st.aspect
  | none => .danger

/-- Whether a point has a slow motor (R88). -/
def isSlow (s : State) (p : Nat) : Bool :=
  match Tbl.find s.pts.recs p with
  | some r => r.motor == .slow
  | none => false

/-- Whether a point has feedback contacts (R88). -/
def hasContacts (s : State) (p : Nat) : Bool :=
  match Tbl.find s.pts.recs p with
  | some r => r.feedback != .none
  | none => false

/-- The section that contains a point (R88). -/
def pointSec (s : State) (p : Nat) : Nat :=
  match Tbl.find s.pts.recs p with
  | some r => r.sec
  | none => 0

/-- A neighbour condition holds while its point is detected in its lie (R29). -/
def condMet (s : State) : Option (Nat × Lie) → Bool
  | none => true
  | some (p, l) => detLie s p == l.det

/-- The active entry of a route, if it has one (R64). -/
def entryOf (s : State) (r : Nat) : Option (Nat × Active) := s.ilk.active.find? (fun e => e.2.route == r)

/-- The active entry whose route begins at a signal (at most one, R44). -/
def entryAt (s : State) (x : Nat) : Option (Nat × Active) :=
  s.ilk.active.find? fun e =>
    match Tbl.find s.ilk.routes e.2.route with
    | some r => r.entry == x
    | none => false

/-- The element sections of a route, in element-list order. -/
def elementSections (r : RouteRec) : List Nat :=
  r.elements.filterMap fun
    | .sec n => some n
    | .point _ _ => none

/-- The element points with their lies, in element-list order. -/
def elementPoints (r : RouteRec) : List (Nat × Lie) :=
  r.elements.filterMap fun
    | .sec _ => none
    | .point p l => some (p, l)

/-- The route's sequence: element sections, then overlap sections (R28, 4.6). -/
def sequence (r : RouteRec) : List Nat := elementSections r ++ r.overlap

/-- Every element and flank point with its required lie, element points first (R48). -/
def routePoints (r : RouteRec) : List (Nat × Lie) := elementPoints r ++ r.flank

/-! ## Mirror words -/

/-- Word k of a mirror of so many words at an offset, written. A mirror has no word for a greater number (00, Exchange
memory at a glance). -/
def State.writeWord (base words k v : Nat) (s : State) : State := if k < words then s.write32 (base + 4 * k) v else s

/-- The section mirror word (12.2). -/
def sectionWord (s : State) (n : Nat) (r : SectionRec) : Nat :=
  let o := occOf s n
  let t := tagOf s n
  let l := lockOf s n
  fld o.state.code 3 0 + bit (detLevel s r) 3 + bit o.discFlag 4 + bit t.isSome 5 + bit l.isSome 6 + fld o.count 8 8
    + fld (t.getD 0) 6 16 + fld (l.getD 0) 9 22

/-- Write a loaded section's mirror word; in CONFIGURING it is not written (R19). -/
def mirrorSection (n : Nat) (s : State) : State :=
  match Tbl.find s.occ.recs n with
  | none => s
  | some r => if s.running then s.writeWord Config.sectionMirror 256 n (sectionWord s n r) else s

/-- The head mirror word: both totals (R20). -/
def mirrorHead (h : Nat) (s : State) : State :=
  match Tbl.find s.occ.heads h with
  | none => s
  | some r => s.writeWord Config.headMirror 32 h (halves r.totalAB r.totalBA)

/-- The tag mirror word (R26): the head section while ACTIVE, the last section while LOST, 0 while FREE. -/
def tagWord (t : Tag) : Nat :=
  let sec := match t.state with
    | .free => 0
    | .active => t.holders.getLast?.getD 0
    | .lost => t.last.getD 0
  fld t.state.code 2 0 + fld t.label 8 8 + fld sec 8 16 + fld (min t.holders.length 255) 8 24

/-- Write a tag's mirror word. -/
def mirrorTag (t : Nat) (s : State) : State := s.writeWord Config.tagMirror Config.numTags t (tagWord (tagRec s t))

/-- The active route mirror word (R86, 12.2); a free entry's word is 0. -/
def activeWord : Option Active → Nat
  | none => 0
  | some a =>
    fld a.route 9 0 + fld a.state.code 3 9 + fld a.originator.code 2 12 + fld a.originator.panel 4 14
      + fld a.releasePos 5 18 + fld a.overlapState.code 2 23 + fld (a.tag.getD 0) 6 25 + bit a.tag.isSome 31

/-- Write an active entry's mirror word. -/
def mirrorActive (e : Nat) (s : State) : State :=
  s.writeWord Config.activeMirror Config.numActive e (activeWord (Tbl.find s.ilk.active e))

/-- The number of a source, and whether it is a show (R60). -/
def Source.number : Source → Nat
  | .slot n => n
  | .show_ n => n

def Source.isShow : Source → Bool
  | .slot _ => false
  | .show_ _ => true

/-- The stack mirror word (R60, 12.2); an empty position's word is 0. -/
def stackWord : Option StackEntry → Nat
  | none => 0
  | some e =>
    fld e.route 9 0 + fld e.originator.code 2 9 + fld e.originator.panel 4 11 + fld e.source.number 5 15
      + bit e.source.isShow 20 + fld e.reason.code 6 21

/-- The stack mirror rewritten from position `k` upward, `n` positions. -/
def mirrorStackFrom : Nat → Nat → State → State
  | 0, _, s => s
  | n + 1, k, s =>
    mirrorStackFrom n (k + 1) (s.writeWord Config.stackMirror Config.numStack k (stackWord s.ilk.stack[k]?))

/-- The whole stack mirror rewritten (R60). -/
def mirrorStack (s : State) : State := mirrorStackFrom Config.numStack 0 s

/-- The point mirror word (R104, 12.2); the order lie is 0 while the point has no order (DESIGN CHOICE, log 59). -/
def pointWord (s : State) (p : Nat) (r : PointRec) : Nat :=
  let h := holdersOf s p
  let c := pointContacts s r
  let o := orderOf s p
  let oState := match o with
    | none => 0
    | some (x, ovf) => x.phase.code ovf
  let oLie := match o with
    | some (x, _) => bit (x.lie == .reverse) 8
    | none => 0
  fld (detLie s p).code 3 0 + bit c.1 3 + bit c.2 4 + fld oState 3 5 + oLie + fld h.routes.length 3 9
    + fld (sharedCode h.shared) 2 12 + bit (h.routes.head?.isSome) 14 + fld (h.routes.head?.getD 0) 9 16

/-- Write a loaded point's mirror word, whatever the run state (layout reset, START: R104). -/
def mirrorPointNow (p : Nat) (s : State) : State :=
  match Tbl.find s.pts.recs p with
  | none => s
  | some r => s.writeWord Config.pointMirror 128 p (pointWord s p r)

/-- Write a loaded point's mirror word on a change: not in CONFIGURING (R104). -/
def mirrorPoint (p : Nat) (s : State) : State := if s.running then mirrorPointNow p s else s

/-- The signal mirror word (R119, 12.2). -/
def signalWord (s : State) (x : Nat) (r : SignalRec) (st : SignalState) : Nat :=
  let e := entryAt s x
  fld r.kind.code 3 0 + fld st.aspect.code 3 3 + bit e.isSome 6 + fld st.overruns 8 8
    + fld ((e.map fun y => y.2.route).getD 0) 9 16

/-- Write a loaded signal's mirror word, whatever the run state (layout reset, START: R120). -/
def mirrorSignalNow (x : Nat) (s : State) : State :=
  match Tbl.find s.asp.recs x, Tbl.find s.asp.state x with
  | some r, some st => s.writeWord Config.signalMirror 192 x (signalWord s x r st)
  | _, _ => s

/-- Write a loaded signal's mirror word on a change: not in CONFIGURING (R119). -/
def mirrorSignal (x : Nat) (s : State) : State := if s.running then mirrorSignalNow x s else s

/-- The turntable mirror words of a loaded deck; words 8 to 15 are 0 (R140, 12.2). -/
def tableWord (s : State) (d : DeckRec) : Nat → Nat
  | 0 => fld s.tt.state.code 4 0 + fld (faultCode s.tt.fault) 2 4 + bit s.tt.pos.isSome 6
  | 1 => halves (orNone16 s.tt.pos) d.c
  | 2 => fld (roadEndByte s.tt.align) 8 0 + fld (roadEndByte s.tt.target) 8 8
  | 3 => bit s.tt.boltOut 0 + bit s.tt.feed 1 + bit s.tt.polReversed 2 + bit s.tt.dirAcw 3 + bit s.tt.boltIn.level 4
      + bit s.tt.boltOutC.level 5 + bit s.tt.lastIndex 6
  | 4 => fld ((s.tt.gen.map Generator.rate).getD 0) 16 0 + fld s.tt.requester.code 2 16
      + fld s.tt.requester.number 5 24
  | 5 => halves s.tt.legSteps s.tt.returnSteps
  | 6 => halves (if s.tt.state == .homing then s.tt.search else 0) (s.tt.jogHold.getD 0)
  | 7 => halves s.tt.turns 0
  | _ => 0

/-- A word of the turntable mirror as it stands: with no DECK record loaded the whole mirror is 0 (R140). -/
def tableMirrorWord (s : State) (k : Nat) : Nat :=
  match s.tt.deck with
  | none => 0
  | some d => tableWord s d k

/-- All 16 turntable mirror words written. -/
def writeTable (word : Nat → Nat) (s : State) : State :=
  eachDo (List.range 16) (fun k t => t.writeWord Config.tableMirror 16 k (word k)) s

/-- The turntable mirror written whole, words 8 to 15 as 0, and every word as 0 with no DECK record loaded (R140, log 34). -/
def mirrorTable (s : State) : State :=
  match s.tt.deck with
  | none => writeTable (fun _ => 0) s
  | some d => writeTable (tableWord s d) s

/-- Whole seconds, rounded up, of a running timer, 0 of a stopped one (R172). -/
def wholeSeconds : Option Nat → Nat
  | none => 0
  | some ms => (ms + 999) / 1000

/-- The show number in a queue place, 0 at or beyond the queue length (12.2). -/
def queuePlace (s : State) (k : Nat) : Nat := ((s.vis.queue[k]?).map Prod.fst).getD 0

/-- A word with one bit per number that satisfies `f`, numbers below `n`. -/
def maskOf (f : Nat → Bool) : Nat → Nat
  | 0 => 0
  | n + 1 => maskOf f n + bit (f n) n

/-- A word of 2-bit modes, numbers below `n`. -/
def modesOf (f : Nat → Mode) : Nat → Nat
  | 0 => 0
  | n + 1 => modesOf f n + fld (f n).code 2 (2 * n)

/-- The shown mode of button lamp b (16 and 17 are CW and ACW). -/
def buttonMode (s : State) (b : Nat) : Mode := Tbl.getD s.vis.lamps b .off

/-- The visitor mirror words; words 10 to 15 are 0 (R172, 12.2). While the runner is IDLE the whole of word 0 is 0: 12.2 says so
of its show, and the 0 of its step index is the model's choice (DESIGN CHOICE, log 53). -/
def visitorWord (s : State) : Nat → Nat
  | 0 => match s.vis.runner with
    | none => 0
    | some r => 1 + fld r.show_ 8 8 + fld r.step 8 16 + fld r.phase.code 8 24
  | 1 => fld s.vis.queue.length 8 0 + fld s.vis.busy 8 8 + bit s.vis.suspended 16 + bit s.tt.jogPermitted 24
  | 2 => fld (queuePlace s 0) 8 0 + fld (queuePlace s 1) 8 8 + fld (queuePlace s 2) 8 16 + fld (queuePlace s 3) 8 24
  | 3 => fld (queuePlace s 4) 8 0 + fld (queuePlace s 5) 8 8 + fld (queuePlace s 6) 8 16 + fld (queuePlace s 7) 8 24
  | 4 => halves (wholeSeconds (s.vis.runner.bind Runner.stepTimer)) (wholeSeconds (s.vis.runner.bind Runner.durTimer))
  | 5 => fld ((s.vis.runner.map fun r => r.routes.length).getD 0) 8 0
      + fld ((s.vis.last.map Prod.fst).getD 0) 8 8
      + fld ((s.vis.last.map fun l => l.2.code).getD 0) 8 16
  | 6 => maskOf (fun n => Tbl.has s.vis.cool n) 32
  | 7 => modesOf (fun n => buttonMode s n) 16
  | 8 => modesOf (fun n => buttonMode s (16 + n)) 2
  | 9 => maskOf (fun n => (Tbl.getD s.vis.filters n Filter.init).level) 18
  | _ => 0

/-- One visitor mirror word written. -/
def mirrorVisitorWord (k : Nat) (s : State) : State :=
  s.writeWord Config.visitorMirror 16 k (visitorWord s k)

/-- The visitor mirror written whole, words 10 to 15 as 0 (R172, R173). -/
def mirrorVisitor (s : State) : State := eachDo (List.range 16) mirrorVisitorWord s

/-- The lamp mirror word w: lamps 16·w to 16·w + 15 (R177). -/
def lampWord (s : State) (w : Nat) : Nat := modesOf (fun i => Tbl.getD s.disp.shown (16 * w + i) .off) 16

/-- The lamp mirror word that holds a lamp, written. -/
def mirrorLampWord (w : Nat) (s : State) : State := s.writeWord Config.lampMirror 24 w (lampWord s w)

/-- The whole lamp mirror, words below `n`, written (R183). -/
def mirrorLamps : Nat → State → State
  | 0, s => s
  | n + 1, s => mirrorLampWord n (mirrorLamps n s)

end Sys2Proof.Machine
end

