-- ==== Sys2Proof/Machine/Handback.lean ====
section
/-! DEFINITION. What the interlocking and the turntable controller hand back to the show runner (R162, R164, R166).
A hand-back that ends the waiting step is taken at once (the phase becomes NONE and the step timer stops); the runner
goes on from it at its next turn in the same handling (log 13). -/

namespace Sys2Proof.Machine

/-- The runner set. -/
def setRunner (r : Option Runner) (s : State) : State := { s with vis := { s.vis with runner := r } }

/-- The waiting step of the running show ends. -/
def stepEnds (r : Runner) (e : StepEnd) (s : State) : State :=
  let s := setRunner (some { r with phase := .none, stepTimer := none }) s
  { s with work := { s.work with step := some e } }

/-- The step that the runner is at. -/
def currentStep (s : State) (r : Runner) : Option ShowStep :=
  (Tbl.find s.vis.shows r.show_).bind fun w => w.steps[r.step]?

/-- The runner of show `sh`, if it waits for this route (R162). -/
def waitingForRoute (s : State) (sh route : Nat) : Option Runner :=
  match s.vis.runner with
  | none => none
  | some r =>
    match r.phase, currentStep s r with
    | .waitRoute, some (.setRoute x _) => if r.show_ = sh && x = route then some r else none
    | _, _ => none

/-- The route has reached SET (R162, R166). -/
def showRouteSet (sh route : Nat) (s : State) : State :=
  match waitingForRoute s sh route with
  | some r => stepEnds r .success s
  | none => s

/-- The route or its request was given up with a reason (R162). -/
def showRouteFailed (sh route : Nat) (why : Result) (word : Nat) (s : State) : State :=
  match waitingForRoute s sh route with
  | some r => stepEnds r (.failure .stepFailed why.code word) s
  | none => s

/-- The route was accepted: it joins the run route list (R162). -/
def showRouteAccepted (sh route : Nat) (s : State) : State :=
  match s.vis.runner with
  | some r => if r.show_ = sh && !r.routes.contains route then setRunner (some { r with routes := r.routes ++ [route] }) s
              else s
  | none => s

/-- The route was released: it leaves the run route list (R166). -/
def showRouteReleased (sh route : Nat) (s : State) : State :=
  match s.vis.runner with
  | some r => if r.show_ = sh then setRunner (some { r with routes := r.routes.erase route }) s else s
  | none => s

/-- The outcome of the turn of a show's TURN step (R164). -/
def showTurnAnswer (sh : Nat) (res : Result) (word : Nat) (s : State) : State :=
  match s.vis.runner with
  | none => s
  | some r =>
    if r.show_ = sh && r.phase == .waitTable then
      stepEnds r (if res = .ok then .success else .failure .stepFailed res.code word) s
    else s

end Sys2Proof.Machine
end

