-- ==== Sys2Proof/Machine/Orders.lean ====
section
/-! DEFINITION. Points below the interlocking (chapter 5): the detected lie of a point (R90, R91), the loss timer
(R93), giving, removing and withdrawing move orders (R94, R100). -/

namespace Sys2Proof.Machine

/-- The phase of the point's order, if it has one. -/
def orderPhase (s : State) (p : Nat) : Option OrderPhase := (orderOf s p).map fun o => o.1.phase

/-- The lie that two contact levels show, if one alone is closed (R90). -/
def contactLie : Bool × Bool → Option Lie
  | (true, false) => some .normal
  | (false, true) => some .reverse
  | (false, false) => none
  | (true, true) => none

/-- The detected lie that the table of R90, or R91 for feedback NONE, gives. -/
def derivedLie (s : State) (p : Nat) (r : PointRec) (st : PointState) : DetLie :=
  if st.failed.isSome then .failed
  else
    match r.feedback with
    | .none =>
      if pointInFlight s p then .moving
      else match st.assumed with
        | some l => l.det
        | none => .lost
    | .pair _ _ =>
      if orderPhase s p = some .pulse then .moving
      else match contactLie (pointContacts s r) with
        | some l => l.det
        | none => if pointContacts s r == (false, false) && pointInFlight s p then .moving else .lost

/-- The contacts show the lie (an arrival, R97 to R99). -/
def contactsShow (s : State) (r : PointRec) (l : Lie) : Bool := contactLie (pointContacts s r) == some l

/-- The state of a loaded point changed. -/
def setPoint (p : Nat) (f : PointState → PointState) (s : State) : State :=
  { s with pts := { s.pts with state := Tbl.modify s.pts.state p f }, work := { s.work with lamps := true } }

/-- The lie other than the shared one (R92, R93). -/
def wrongLie (h : Holders) (l : DetLie) : Bool :=
  match h.shared, l with
  | some .normal, .reverse => true
  | some .reverse, .normal => true
  | _, _ => false

/-- The three conditions under which the loss timer runs (R93), at a point that has contacts: a point with feedback NONE
never becomes FAILED while it rests (R91). -/
def lossHolds (s : State) (p : Nat) : Bool :=
  hasContacts s p && !(holdersOf s p).routes.isEmpty && (orderOf s p).isNone && wrongLie (holdersOf s p) (detLie s p)

/-- The loss timer after a change of one of its conditions: it starts when they begin to hold together and is stopped
when one ends (R93). -/
def updateLoss (p : Nat) (s : State) : State :=
  let run := lossHolds s p
  { s with pts := { s.pts with state := Tbl.modify s.pts.state p fun st =>
      { st with loss := if run then some (st.loss.getD s.pts.window) else none } } }

/-- After any change to a point, its order or its holders: the loss timer and the mirror word (R93, R104). -/
def touchPoint (p : Nat) (s : State) : State := mirrorPoint p (updateLoss p s)

/-- The order lists set. -/
def setOrders (q o : List Order) (s : State) : State := { s with pts := { s.pts with queue := q, overflow := o } }

/-- A dispatcher pass follows the handling (R95). -/
def wantPass (s : State) : State := { s with work := { s.work with pass := true } }

/-- A stack re-examination follows the handling (R54). -/
def wantReexam (s : State) : State := { s with work := { s.work with reexam := true } }

/-- An order is given: it joins the tail of the queue, or the overflow list while every place is taken (R94). -/
def giveOrder (o : Order) (s : State) : State :=
  if s.pts.queue.length < Config.numQueue then
    touchPoint o.point (wantPass (setOrders (s.pts.queue ++ [o]) s.pts.overflow s))
  else touchPoint o.point (setOrders s.pts.queue (s.pts.overflow ++ [o]) s)

/-- Places given up are taken by the oldest orders of the overflow list, at the tail (R94, R100). -/
def fillQueue (s : State) : State :=
  let k := Config.numQueue - s.pts.queue.length
  let up := s.pts.overflow.take k
  if up = [] then s
  else
    eachDo (up.map Order.point) touchPoint (wantPass (setOrders (s.pts.queue ++ up) (s.pts.overflow.drop k) s))

/-- The order of a point leaves its place (R100). -/
def removeOrder (p : Nat) (s : State) : State :=
  fillQueue (setOrders (s.pts.queue.filter fun o => o.point != p) (s.pts.overflow.filter fun o => o.point != p) s)

/-- The order of a point changed in its place. -/
def changeOrder (p : Nat) (f : Order → Order) (s : State) : State :=
  setOrders (s.pts.queue.map fun o => if o.point = p then f o else o) s.pts.overflow s

/-- The queued orders of a route (R100): those that a withdrawal removes. -/
def isQueuedOf (e : Nat) (o : Order) : Bool := o.phase == .queued && o.origin == .route e

/-- The points whose orders a withdrawal for active entry `e` removes. -/
def queuedPoints (s : State) (e : Nat) : List Nat :=
  ((s.pts.queue ++ s.pts.overflow).filter (isQueuedOf e)).map Order.point

/-- Withdrawal (R100): every queued order of the route leaves the queue and the overflow list and the route's order
list; each point keeps its lie and its mirror word is written with no order. It is an end of the order, so a dispatcher
pass follows that of a slow order (R95).

DEDUCED, unsafe (log 61): a PAIR point that the withdrawal leaves held and in the wrong lie, its route in CANCELLING or
RUNNING, has its loss timer started by R93's words, and becomes FAILED with cause WRONG_LIE when it expires, although the
worked sequence of chapter 5 has point 22 keep its REVERSE lie while its route is in CANCELLING. -/
def withdraw (e : Nat) (s : State) : State :=
  let gone := queuedPoints s e
  let s := { s with work := { s.work with pass := s.work.pass || gone.any (isSlow s) } }
  let s := setOrders (s.pts.queue.filter fun o => !isQueuedOf e o) (s.pts.overflow.filter fun o => !isQueuedOf e o) s
  let s := eachDo gone touchPoint (fillQueue s)
  { s with ilk := { s.ilk with active := Tbl.modify s.ilk.active e fun a =>
      { a with orders := a.orders.filter fun p => !gone.contains p } } }

end Sys2Proof.Machine
end

