-- ==== Sys2Proof/Machine/Routes.lean ====
section
/-! DEFINITION. The life of a route (chapter 4): locks and holder lists (R62, R63), becoming SET (R67, R71, R74), HELD
(R70), entered (R69, R73), sequential release (R75 to R77), the overlap (R78, R79), release whole (R65), failure
(R68), ALL STOP and RESUME (R72). -/

namespace Sys2Proof.Machine

/-! ## Locks and entries -/

/-- A section's lock field set or cleared, with its mirror word (R62); a release is a cause of re-examination (R54). -/
def setLock (n : Nat) (r : Option Nat) (s : State) : State :=
  let l := match r with
    | none => Tbl.erase s.ilk.locks n
    | some k => Tbl.insert s.ilk.locks n k
  let s := { s with ilk := { s.ilk with locks := l }, work := { s.work with lamps := true } }
  mirrorSection n (if r.isNone then wantReexam s else s)

/-- The holder list and shared lie of a point set, with the loss timer and the mirror word (R63, R93). -/
def setHolders (p : Nat) (h : Holders) (s : State) : State :=
  touchPoint p { s with ilk := { s.ilk with holders := Tbl.put Holders.none s.ilk.holders p h } }

/-- A route joins a point's holder list (R63). -/
def addHolder (p : Nat) (l : Lie) (r : Nat) (s : State) : State :=
  let h := holdersOf s p
  setHolders p { routes := h.routes ++ [r], shared := if h.routes = [] then some l else h.shared } s

/-- A route leaves a point's holder list; with the last one the shared lie becomes none (R63, R54). -/
def removeHolder (p r : Nat) (s : State) : State :=
  let h := holdersOf s p
  if h.routes.contains r then
    let rest := h.routes.erase r
    wantReexam (setHolders p { routes := rest, shared := if rest = [] then none else h.shared } s)
  else s

/-- An active entry set. -/
def putActive (e : Nat) (a : Active) (s : State) : State :=
  { s with ilk := { s.ilk with active := Tbl.insert s.ilk.active e a } }

/-- An active entry set, with its mirror word (R86). -/
def setActive (e : Nat) (a : Active) (s : State) : State := mirrorActive e (putActive e a s)

/-- The aspects are recomputed at the end of the handling (R111). -/
def wantAspects (s : State) : State := { s with work := { s.work with aspects := true } }

/-- The request slot of a route completes, and its slot field is cleared (R64). -/
def answerSlot (e : Nat) (res : Result) (w0 w1 : Nat) (s : State) : State :=
  match Tbl.find s.ilk.active e with
  | some a =>
    match a.slot with
    | some n => complete n res w0 w1 (setActive e { a with slot := none } s)
    | none => s
  | none => s

/-- What is handed to the show of a route, if it has one. -/
def tellShow (a : Active) (f : Nat → Nat → State → State) (s : State) : State :=
  match a.show_ with
  | some sh => f sh a.route s
  | none => s

/-! ## Release whole (R65) -/

/-- A route released whole leaves the table: locks, holder lists, timer and entry are given up, ROUTE_RELEASED is
made, and the aspect unit and a show are told (R65). -/
def releaseWhole (e : Nat) (why : Ending) (s : State) : State :=
  match Tbl.find s.ilk.active e with
  | none => s
  | some a =>
    let secs := (s.ilk.locks.filter fun x => x.2 == a.route).map Prod.fst
    let points := (s.ilk.holders.filter fun x => x.2.routes.contains a.route).map Prod.fst
    let s := eachDo secs (fun n => setLock n none) s
    let s := eachDo points (fun p => removeHolder p a.route) s
    let s := mirrorActive e { s with ilk := { s.ilk with active := Tbl.erase s.ilk.active e } }
    let s := report .routeReleased a.route (halves e why.code) (orNone16 a.tag) s
    let s := match Tbl.find s.ilk.routes a.route with
      | some r => mirrorSignal r.entry s
      | none => s
    wantAspects (wantReexam (tellShow a showRouteReleased s))

/-- A RUNNING route whose berth and overlap are released and whose order list is empty ends (R77). -/
def endIfDone (e : Nat) (s : State) : State :=
  match Tbl.find s.ilk.active e with
  | none => s
  | some a =>
    match Tbl.find s.ilk.routes a.route with
    | none => s
    | some r =>
      if a.state = .running && a.releasePos = (elementSections r).length && a.overlapState = .released && a.orders = []
      then releaseWhole e .normal s else s

/-! ## The overlap (R78, R79) -/

/-- Every overlap section is released together (R79). -/
def releaseOverlap (e : Nat) (s : State) : State :=
  match Tbl.find s.ilk.active e with
  | none => s
  | some a =>
    match Tbl.find s.ilk.routes a.route with
    | none => s
    | some r =>
      let s := eachDo (r.overlap.filter fun n => lockOf s n == some a.route) (fun n => setLock n none) s
      endIfDone e (wantReexam (setActive e
        { a with overlapPos := r.overlap.length, overlapState := .released, timer := none } s))

/-- The overlap timer starts where the overlap is LOCKED and its first section is not marked (R78); a release time
of 0 expires in the same handling. -/
def startOverlap (e : Nat) (s : State) : State :=
  match Tbl.find s.ilk.active e with
  | none => s
  | some a =>
    match Tbl.find s.ilk.routes a.route with
    | none => s
    | some r =>
      if a.overlapState = .locked && a.passed[(elementSections r).length]? == some false then
        if r.overlapTime = 0 then releaseOverlap e s
        else setActive e { a with overlapState := .timing, timer := some (1000 * r.overlapTime) } s
      else s

/-- The berth is the last element section (R77). -/
def berth (r : RouteRec) : Option Nat := (elementSections r).getLast?

/-- The overlap timer starts at an entry that finds the berth not CLEAR (R73, R74). -/
def startOverlapAtEntry (e : Nat) (r : RouteRec) (s : State) : State :=
  match berth r with
  | some b => if secClear s b then s else startOverlap e s
  | none => s

/-! ## Sequential release (R75 to R77) -/

/-- The points whose POINT entries follow a section's entry in an element list (R76). -/
def pointsAfter : List Element → List Nat
  | .point p _ :: l => p :: pointsAfter l
  | _ => []

/-- The points of a section of the route. -/
def pointsOfSection : List Element → Nat → List Nat
  | [], _ => []
  | .sec m :: l, n => if m = n then pointsAfter l else pointsOfSection l n
  | .point _ _ :: l, n => pointsOfSection l n

/-- The points leave the route's holdings, those with an order of the route in flight apart (R76, R77). -/
def releasePoints (a : Active) (ps : List Nat) (s : State) : State :=
  eachDo (ps.filter fun p => !(a.orders.contains p && pointInFlight s p)) (fun p => removeHolder p a.route) s

/-- Release of one section of the sequence, at index i (R76, R77, R79). -/
def releaseSection (e : Nat) (r : RouteRec) (n i : Nat) (s : State) : State :=
  match Tbl.find s.ilk.active e with
  | none => s
  | some a =>
    let k := (elementSections r).length
    let s := setLock n none s
    if i < k then
      let s := releasePoints a (pointsOfSection r.elements n) s
      let s := if i + 1 = k then releasePoints a (r.flank.map Prod.fst) s else s
      putActive e { a with releasePos := i + 1 } s
    else
      let pos := i + 1 - k
      let o := if pos = r.overlap.length then OverlapState.released else a.overlapState
      putActive e { a with overlapPos := pos, overlapState := o } s

/-- The walk over the sections not yet released, with their indices: each that is marked passed and CLEAR is
released, and the first that is not ends the walk (R76). -/
def walkFrom (e : Nat) (r : RouteRec) : List (Nat × Nat) → State → State
  | [], s => s
  | (n, i) :: rest, s =>
    match Tbl.find s.ilk.active e with
    | none => s
    | some a =>
      if a.passed[i]? == some true && secClear s n then walkFrom e r rest (releaseSection e r n i s) else s

/-- The sections of the sequence not yet released, with their indices: an overlap that its timer has released is left
out, for its sections are the route's no longer (R79). -/
def unreleased (r : RouteRec) (a : Active) : List (Nat × Nat) :=
  let k := (elementSections r).length
  let secs := if a.overlapState = .released then elementSections r else sequence r
  (secs.zipIdx).drop (if a.releasePos < k then a.releasePos else k + a.overlapPos)

/-- Sequential release of a RUNNING route, and its end (R76, R77). -/
def walk (e : Nat) (s : State) : State :=
  match Tbl.find s.ilk.active e with
  | none => s
  | some a =>
    match Tbl.find s.ilk.routes a.route with
    | none => s
    | some r =>
      if a.state = .running then endIfDone e (mirrorActive e (walkFrom e r (unreleased r a) s)) else s

/-- The first n + 1 marks set (R75: every earlier section is marked with a section). -/
def markTo (i : Nat) (l : List Bool) : List Bool := l.mapIdx fun j b => b || decide (j ≤ i)

/-- Marks set; where the first overlap section comes to be marked while the overlap is LOCKED or TIMING, the timer is
stopped and the overlap is LOCKED (R75, R79). -/
def markPassed (r : RouteRec) (a : Active) (i : Nat) : Active :=
  let p := markTo i a.passed
  if i < (elementSections r).length || a.overlapState = .released then { a with passed := p }
  else { a with passed := p, overlapState := .locked, timer := none }

/-! ## Proved, SET and HELD -/

/-- The occupancy states that the class table of 3.2 allows for a section of the route. -/
def classAllows (r : RouteRec) (n : Nat) (st : SectionState) : Bool :=
  match r.cls with
  | .main => st == .clear
  | .callOn => if berth r = some n then st == .clear || st == .occupied || st == .uncertain else st == .clear
  | .shunt => st != .disabled

/-- A route is proved: every point in its required lie, every section in a state its class allows (R67, R71). -/
def proved (s : State) (r : RouteRec) : Bool :=
  (routePoints r).all (fun x => detLie s x.1 == x.2.det) && (sequence r).all (fun n => classAllows r n (secState s n))

/-- A ROUTE_RUNNING report (R85). -/
def reportRunning (e : Nat) (a : Active) (left : RouteState) (s : State) : State :=
  report .routeRunning a.route (halves e left.code) (orNone16 a.tag) s

/-- The highest index of the sequence whose section is not CLEAR (R74). -/
def lastNotClear (s : State) (r : RouteRec) : Nat :=
  (((sequence r).zipIdx).foldl (fun acc x => if secClear s x.1 then acc else x.2) 0)

/-- R74: a route that reaches SET with its first element not CLEAR is entered in the same handling. -/
def immediateEntry (e : Nat) (s : State) : State :=
  match Tbl.find s.ilk.active e with
  | none => s
  | some a =>
    match Tbl.find s.ilk.routes a.route with
    | none => s
    | some r =>
      match (elementSections r).head? with
      | none => s
      | some f =>
        if secClear s f then s
        else
          let a := markPassed r { a with state := .running, tag := tagOf s f } (lastNotClear s r)
          walk e (startOverlapAtEntry e r (reportRunning e a .set (setActive e a s)))

/-- A proved route becomes SET: ROUTE_SET, the slot's OK, the show and the aspect unit (R67, R71), then R74. -/
def becomeSet (e : Nat) (left : RouteState) (s : State) : State :=
  match Tbl.find s.ilk.active e with
  | none => s
  | some a =>
    let s := setActive e { a with state := .set } s
    let s := report .routeSet a.route (halves e left.code) (halves a.originator.code a.originator.panel) s
    let s := answerSlot e .ok e 0 s
    immediateEntry e (wantAspects (tellShow a showRouteSet s))

/-- The test of a SETTING or HELD route: proved and not in ALL STOP, it becomes SET (R67, R71). -/
def testProved (e : Nat) (s : State) : State :=
  match Tbl.find s.ilk.active e with
  | none => s
  | some a =>
    match Tbl.find s.ilk.routes a.route with
    | none => s
    | some r =>
      if (a.state = .setting || a.state = .held) && s.asp.cond = .running && proved s r then becomeSet e a.state s
      else s

/-- Causes of ROUTE_HELD (12.4). -/
inductive HeldCause where
  | point | sec | allStop
  deriving DecidableEq, Repr

def HeldCause.code : HeldCause → Nat
  | .point => 1
  | .sec => 2
  | .allStop => 3

/-- A SET route becomes HELD (R70, R72). -/
def holdRoute (e : Nat) (why : HeldCause) (item : Nat) (s : State) : State :=
  match Tbl.find s.ilk.active e with
  | none => s
  | some a =>
    if a.state = .set then
      wantAspects (report .routeHeld a.route (halves e why.code) item (setActive e { a with state := .held } s))
    else s

/-- The active entries, in ascending order, whose route holds a point. -/
def entriesHolding (s : State) (p : Nat) : List Nat :=
  (s.ilk.active.filter fun x => (holdersOf s p).routes.contains x.2.route).map Prod.fst

/-- A point's detection is lost: its SET routes become HELD (R70). -/
def pointLost (p : Nat) (s : State) : State := eachDo (entriesHolding s p) (fun e => holdRoute e .point p) s

/-- A change of a detected lie: its SETTING and HELD routes are tested (R66, R67, R71). -/
def pointTested (p : Nat) (s : State) : State := eachDo (entriesHolding s p) testProved s

/-! ## Failure and the end of orders -/

/-- R68 for one route: its queued orders are withdrawn, ROUTE_FAILED, its slot completes, and it is released whole or
waits in CANCELLING. -/
def failRoute (p e : Nat) (s : State) : State :=
  match Tbl.find s.ilk.active e with
  | none => s
  | some a =>
    if a.state = .setting then
      let s := withdraw e s
      let s := report .routeFailed a.route (halves e 0) p s
      let s := answerSlot e .pointFailed p 0 s
      let s := tellShow a (fun sh r => showRouteFailed sh r .pointFailed p) s
      match Tbl.find s.ilk.active e with
      | none => s
      | some a =>
        if a.orders = [] then releaseWhole e .failed s
        else wantAspects (setActive e { a with state := .cancelling, ending := .failed } s)
    else s

/-- A FAILED point fails every SETTING route in its holder list (R68). -/
def failRoutes (p : Nat) (s : State) : State := eachDo (entriesHolding s p) (failRoute p) s

/-- Sequential release has passed the point: its section, or the berth for a flank point, is released (R69). -/
def releasePassed (r : RouteRec) (a : Active) (p : Nat) : Bool :=
  let secs := elementSections r
  if (r.flank.map Prod.fst).contains p then a.releasePos == secs.length
  else (secs.take a.releasePos).any fun n => (pointsOfSection r.elements n).contains p

/-- An order of a route has ended: it leaves the order list, and the route acts by its state (R66, R69, R83). -/
def routeOrderEnded (e p : Nat) (s : State) : State :=
  match Tbl.find s.ilk.active e with
  | none => s
  | some a =>
    let a := { a with orders := a.orders.erase p }
    let s := setActive e a s
    match a.state with
    | .setting => testProved e s
    | .cancelling => if a.orders = [] then releaseWhole e a.ending s else s
    | .running =>
      match Tbl.find s.ilk.routes a.route with
      | none => s
      | some r => endIfDone e (if releasePassed r a p then removeHolder p a.route s else s)
    | .set | .held | .approachLocked => s

/-! ## Entry and section changes -/

/-- A route entered by its first element becoming OCCUPIED (R69, R73): from SETTING its queued orders are withdrawn
and its slot completes with ROUTE_RUNNING. -/
def enterRoute (e : Nat) (tag : Option Nat) (s : State) : State :=
  match Tbl.find s.ilk.active e with
  | none => s
  | some before =>
    match Tbl.find s.ilk.routes before.route with
    | none => s
    | some r =>
      let s := if before.state = .setting then withdraw e s else s
      match Tbl.find s.ilk.active e with
      | none => s
      | some a =>
        let a := { markPassed r a 0 with state := .running, tag := tag, timer := none }
        let s := reportRunning e a before.state (setActive e a s)
        let s :=
          if before.state = .setting then
            tellShow before (fun sh x => showRouteFailed sh x .routeRunning e) (answerSlot e .routeRunning e 0 s)
          else s
        wantAspects (walk e (startOverlapAtEntry e r s))

/-- R75 for a section of a RUNNING route's sequence that becomes OCCUPIED, at index i, with the tag it took. -/
def markOccupied (r : RouteRec) (a : Active) (i : Nat) (took : Option Nat) : Active :=
  match a.tag, took with
  | some t, some u => if t = u then markPassed r a i else a
  | some _, none => a
  | none, some u => markPassed r { a with tag := some u } i
  | none, none => markPassed r a i

/-- A section of the sequence is an overlap section of a route whose overlap is RELEASED: the train that reaches it marks nothing
(R79). -/
def overlapGone (r : RouteRec) (a : Active) (n : Nat) : Bool :=
  a.overlapState == .released && !(elementSections r).contains n

/-- A RUNNING route and a change of one of its sections (R75 to R79). -/
def runningSection (e n : Nat) (r : RouteRec) (new : SectionState) (took : Option Nat) (s : State) : State :=
  match Tbl.find s.ilk.active e with
  | none => s
  | some a =>
    if new = .occupied then
      if overlapGone r a n then s else
      let s := setActive e (markOccupied r a ((sequence r).idxOf n) took) s
      walk e (if berth r = some n then startOverlap e s else s)
    else if new = .clear then walk e s
    else s

/-- An entry handed to the aspect unit: the entry signal, the route, and the state the route left (R69, R73). -/
structure EntryNote where
  signal : Nat
  route : Nat
  left : RouteState
  deriving DecidableEq, Repr

/-- One active route and a change of a section of its sequence (R69, R70, R73, R75, R82). -/
def routeSection (n : Nat) (new : SectionState) (took : Option Nat) (acc : State × List EntryNote) (e : Nat) :
    State × List EntryNote :=
  let (s, notes) := acc
  match Tbl.find s.ilk.active e with
  | none => acc
  | some a =>
    match Tbl.find s.ilk.routes a.route with
    | none => acc
    | some r =>
      if !(sequence r).contains n then acc
      else
        let entered := new = .occupied && (elementSections r).head? = some n
        let enter := (enterRoute e took s, notes ++ [{ signal := r.entry, route := a.route, left := a.state }])
        match a.state with
        | .setting | .held => if entered then enter else (testProved e s, notes)
        | .set =>
          if entered then enter
          else if classAllows r n new then acc
          else (holdRoute e .sec n s, notes)
        | .approachLocked => if entered then enter else acc
        | .running => (runningSection e n r new took s, notes)
        | .cancelling => acc

/-- A section change at the interlocking, active routes in ascending entry order; the entries are handed on. -/
def routesSectionChange (n : Nat) (new : SectionState) (took : Option Nat) (s : State) : State × List EntryNote :=
  (Tbl.keys s.ilk.active).foldl (routeSection n new took) (s, [])

/-! ## ALL STOP and RESUME (R72) -/

/-- Entry into ALL STOP: SET routes become HELD, in ascending entry order. -/
def routesAllStop (s : State) : State := eachDo (Tbl.keys s.ilk.active) (fun e => holdRoute e .allStop 0) s

/-- RESUME: proved HELD and SETTING routes become SET, in ascending entry order. -/
def routesResume (s : State) : State := eachDo (Tbl.keys s.ilk.active) testProved s

end Sys2Proof.Machine
end

