-- ==== Sys2Proof/Machine/Points.lean ====
section
/-! DEFINITION. The point controller above its interlocking (chapter 5): changes of a detected lie (R92), the end of an
order (R100), solenoid and slow orders (R97 to R99), the dispatcher (R95), contact samples, timer expiries, MOVE_POINT
(R101) and RESTORE_POINT (R102). -/

namespace Sys2Proof.Machine

/-! ## Reports of R103 -/

/-- The origin of an order as its code and its number (12.3, 12.4). -/
def OrderOrigin.fields : OrderOrigin → Nat × Nat
  | .route e => (1, e)
  | .slot n => (2, n)

/-- An origin packed: its code below its number (POINT_FAILED in 12.1; POINT_BUSY by log 24). -/
def OrderOrigin.packed (o : OrderOrigin) : Nat := fld o.fields.1 8 0 + fld o.fields.2 8 8

/-- POINT_MOVED from the field or from RESTORE_POINT: both value halves of word 2 are 0 (12.1). -/
def reportMoved (p : Nat) (l : DetLie) (origin : Nat) (s : State) : State :=
  report .pointMoved p (fld l.code 16 0 + fld origin 8 16) 0 s

/-- Milliseconds from an order's start to now; a free value for an order that never started (log 7). -/
def elapsed (s : State) (o : Order) : Nat :=
  match o.startTime with
  | some t => since s t
  | none => Config.unstartedMs s.free % Config.clockMod

/-- The same in the 16 bits of a report; a free value where they do not hold it (log 7). -/
def elapsed16 (s : State) (o : Order) : Nat :=
  if elapsed s o < 65536 then elapsed s o else Config.longMs s.free % 65536

/-- POINT_LOST (R92, R103). -/
def reportLost (p : Nat) (l : DetLie) (s : State) : State :=
  let h := holdersOf s p
  report .pointLost p (halves l.code (sharedCode h.shared)) (orNone16 h.routes.head?) s

/-! ## A change of the detected lie (R92) -/

/-- A change of lie of a RUNNING layout, already stored: mirror, report with no order in flight, and what the
interlocking does with it (R66, R67, R70, R71). -/
def lieChanged (p : Nat) (new : DetLie) (s : State) : State :=
  let s := touchPoint p s
  let loss := new == .lost || wrongLie (holdersOf s p) new
  let found := new == .normal || new == .reverse
  let s :=
    if pointInFlight s p then s
    else if loss then pointLost p (reportLost p new s)
    else if found then reportMoved p new 3 s
    else s
  pointTested p (if found then wantReexam s else s)

/-- The lie derived afresh (R90, R91); outside RUNNING it is only held. -/
def rederive (p : Nat) (s : State) : State :=
  match Tbl.find s.pts.recs p, Tbl.find s.pts.state p with
  | some r, some st =>
    let l := derivedLie s p r st
    if l = st.lie then touchPoint p s
    else
      let s := setPoint p (fun st => { st with lie := l }) s
      if s.running then lieChanged p l s else s
  | _, _ => s

/-! ## The end of an order (R100) -/

/-- The order leaves its place and its drive is removed; the end is a cause of re-examination, and of a dispatcher
pass for a slow order (R99, R100, R54, R95). -/
def endOrder (p : Nat) (s : State) : State :=
  let s := removeOrder p { s with pts := { s.pts with drives := Tbl.erase s.pts.drives p } }
  wantReexam (if isSlow s p then wantPass s else s)

/-- End by arrival (R100). -/
def orderArrived (p : Nat) (s : State) : State :=
  match orderOf s p, Tbl.find s.pts.recs p with
  | some (o, _), some r =>
    let ms := elapsed s o
    let ms16 := elapsed16 s o
    let s := if o.startTime.isNone || 65535 < ms then useFree s else s
    let s := endOrder p s
    let s := setPoint p (fun st => { st with assumed := if r.feedback = .none then some o.lie else st.assumed }) s
    let s := setPoint p (fun st => { st with lie := derivedLie s p r st }) s
    let s := touchPoint p s
    let s := report .pointMoved p (fld (detLie s p).code 16 0 + fld o.origin.fields.1 8 16 + fld o.origin.fields.2 8 24)
      (halves ms16 (bit o.retried 0)) s
    let s := match o.origin with
      | .route e => routeOrderEnded e p s
      | .slot n => complete n .ok p ms s
    pointTested p s
  | _, _ => s

/-- The point becomes FAILED with a cause (R93, R100). -/
def failPoint (p : Nat) (c : PointCause) (s : State) : State :=
  touchPoint p (setPoint p (fun st => { st with failed := some c, lie := .failed }) s)

/-- End by failure (R100). -/
def orderFailed (p : Nat) (c : PointCause) (s : State) : State :=
  match orderOf s p with
  | some (o, _) =>
    let s := failPoint p c (endOrder p s)
    let s := report .pointFailed p (halves c.code 0) o.origin.packed s
    let s := match o.origin with
      | .route e => routeOrderEnded e p s
      | .slot n => complete n .pointFailed p c.code s
    failRoutes p s
  | none => s

/-- The end of a MOVE_POINT order whose section is not CLEAR when the dispatcher reaches it (R95, R101). -/
def orderOccupied (p n : Nat) (s : State) : State :=
  complete n .pointOccupied p (secState s (pointSec s p)).code (touchPoint p (endOrder p s))

/-! ## Starting (R97 to R99) -/

/-- A pulse begins: at a start (R97) or at a retry, which sets the retried mark (R98). -/
def startPulse (p : Nat) (o : Order) (s : State) : State :=
  let s := { s with pts := { s.pts with coil := some (p, o.lie), pulseTimer := some s.pts.pulseTime } }
  let s := setUnit .pulsing s
  rederive p (changeOrder p (fun o =>
    { o with phase := .pulse, startTime := some (o.startTime.getD s.clock), retried := o.retried || o.phase == .retry,
             timer := none }) s)

/-- A slow motor is driven (R99). -/
def startTravel (p : Nat) (o : Order) (r : PointRec) (s : State) : State :=
  let s := { s with pts := { s.pts with drives := Tbl.insert s.pts.drives p o.lie } }
  rederive p (changeOrder p (fun o =>
    { o with phase := .travel, startTime := some (o.startTime.getD s.clock), timer := some r.travel }) s)

/-- The number of slow orders in TRAVEL. -/
def travelling (s : State) : Nat := (s.pts.queue.filter fun o => o.phase == .travel).length

/-- A QUEUED order that the pass reaches outside ALL STOP (R95). -/
def dispatchQueued (p : Nat) (o : Order) (r : PointRec) (s : State) : State :=
  if detLie s p == o.lie.det then orderArrived p s
  else if !secClear s r.sec then
    match o.origin with
    | .route _ => s
    | .slot n => orderOccupied p n s
  else
    match r.motor with
    | .solenoid => if s.pts.unit = .ready then startPulse p o s else s
    | .slow => if travelling s < s.pts.slowLimit then startTravel p o r s else s

/-- One order of a pass (R95). -/
def dispatchOne (p : Nat) (s : State) : State :=
  match s.pts.queue.find? (fun o => o.point == p), Tbl.find s.pts.recs p with
  | some o, some r =>
    match o.phase with
    | .retry => if s.pts.unit = .ready then startPulse p o s else s
    | .queued => if s.asp.cond = .allStop then s else dispatchQueued p o r s
    | .pulse | .window | .travel => s
  | _, _ => s

/-- The dispatcher's pass over the queue, head to tail, each order as the pass comes to it (R95). The walk is over the
queue as it stood when the pass began: an order that joins the tail from the overflow list meanwhile is left to the next
pass (DESIGN CHOICE, log 50). -/
def dispatcherPass (s : State) : State := eachDo (s.pts.queue.map Order.point) dispatchOne s

/-! ## Contacts (R90) -/

/-- The points whose record names a contact input. -/
def pointsOfContact (s : State) (i : Nat) : List Nat :=
  (s.pts.recs.filter fun x =>
    match x.2.feedback with
    | .pair n r => n == i || r == i
    | .none => false).map Prod.fst

/-- The order of a PAIR point that awaits its contacts arrives when they show its lie (R97 to R99). -/
def awaitsContacts (s : State) (p : Nat) : Bool :=
  match orderOf s p, Tbl.find s.pts.recs p with
  | some (o, _), some r =>
    (o.phase == .window || o.phase == .retry || o.phase == .travel) && r.feedback != .none && contactsShow s r o.lie
  | _, _ => false

/-- A change of a counted level at a point. -/
def contactChanged (p : Nat) (s : State) : State := if awaitsContacts s p then orderArrived p s else rederive p s

/-- The noise rejection of a contact: a sample counts only if it equals the one before it (R90, R125). -/
def Contact.sample (c : Contact) (closed : Bool) : Contact :=
  { prev := closed, level := if closed = c.prev then closed else c.level }

/-- One sample of one contact input. -/
def contactSample (i : Nat) (closed : Bool) (s : State) : State :=
  let c := Tbl.getD s.pts.contacts i Contact.init
  let d := c.sample closed
  let s := { s with pts := { s.pts with contacts := Tbl.put Contact.init s.pts.contacts i d } }
  if d.level = c.level then s else eachDo (pointsOfContact s i) contactChanged s

/-! ## Expiries -/

/-- The discharge unit begins to recharge (R96). -/
def startRecharge (s : State) : State :=
  setUnit .recharging { s with pts := { s.pts with coil := none, pulseTimer := none,
                                                   rechargeTimer := some s.pts.rechargeTime } }

/-- The pulse has ended at the point that was pulsed (R97). -/
def pulseEnded (p : Nat) (s : State) : State :=
  match orderOf s p, Tbl.find s.pts.recs p with
  | some (o, _), some r =>
    if r.feedback = .none || contactsShow s r o.lie then orderArrived p s
    else rederive p (changeOrder p (fun o => { o with phase := .window, timer := some s.pts.window }) s)
  | _, _ => s

/-- The pulse timer expires (R97). -/
def pulseExpires (s : State) : State :=
  match s.pts.pulseTimer with
  | none => s
  | some _ =>
    match s.pts.coil with
    | some (p, _) => pulseEnded p (startRecharge s)
    | none => startRecharge s

/-- The order of a point moved to the head of the queue (R98). -/
def moveToHead (p : Nat) (s : State) : State :=
  setOrders ((s.pts.queue.filter fun o => o.point == p) ++ (s.pts.queue.filter fun o => o.point != p)) s.pts.overflow s

/-- The window timer of a point's order expires: a miss (R98). -/
def windowExpires (p : Nat) (s : State) : State :=
  match orderOf s p with
  | some (o, _) =>
    if o.phase != .window then s
    else if o.retried then orderFailed p .noArrival s
    else rederive p (moveToHead p (changeOrder p (fun o => { o with phase := .retry, timer := none }) s))
  | none => s

/-- The recharge timer expires (R96); the dispatcher makes a pass (R95). -/
def rechargeExpires (s : State) : State :=
  match s.pts.rechargeTimer with
  | none => s
  | some _ => wantPass (setUnit .ready { s with pts := { s.pts with rechargeTimer := none } })

/-- The travel timer of a point's order expires (R99). -/
def travelExpires (p : Nat) (s : State) : State :=
  match orderOf s p, Tbl.find s.pts.recs p with
  | some (o, _), some r =>
    if o.phase != .travel then s
    else if r.feedback = .none then orderArrived p s
    else orderFailed p .travelTimeout s
  | _, _ => s

/-- A loss timer expires: the point becomes FAILED with cause WRONG_LIE (R93). -/
def lossExpires (p : Nat) (s : State) : State :=
  match (Tbl.find s.pts.state p).bind PointState.loss with
  | none => s
  | some _ =>
    failRoutes p (report .pointFailed p (halves PointCause.wrongLie.code 0) (orNone16 none) (failPoint p .wrongLie s))

/-! ## Requests -/

/-- The two result words with a result. -/
structure Answer where
  result : Result
  w0 : Nat
  w1 : Nat
  deriving DecidableEq, Repr

/-- The checks of MOVE_POINT, in order (R101). -/
def moveRefusal (p lie : Nat) (s : State) : Option Answer :=
  match (if p < 128 then Tbl.find s.pts.recs p else none), lieOf lie with
  | some r, some _ =>
    if detLie s p == .failed then some ⟨.pointFailed, p, 0⟩
    else
      match (holdersOf s p).routes with
      | h :: _ => some ⟨.pointLocked, p, h⟩
      | [] =>
        match orderOf s p with
        | some (o, _) => some ⟨.pointBusy, p, o.origin.packed⟩
        | none => if secClear s r.sec then none else some ⟨.pointOccupied, p, (secState s r.sec).code⟩
  | _, _ => some ⟨.badArgument, p, 0⟩

/-- MOVE_POINT in slot n (R101). -/
def movePoint (n p lie : Nat) (s : State) : State :=
  match moveRefusal p lie s, lieOf lie with
  | some a, _ => complete n a.result a.w0 a.w1 s
  | none, some l =>
    if detLie s p == l.det then complete n .ok p 0 s
    else
      giveOrder { point := p, lie := l, origin := .slot n, phase := .queued, startTime := none, retried := false,
                  timer := none } s
  | none, none => s

/-- A FAILED point leaves FAILED (R102). -/
def restore (p : Nat) (s : State) : State :=
  match Tbl.find s.pts.recs p with
  | none => s
  | some r =>
    let s := setPoint p (fun st => { st with failed := none }) s
    let s := setPoint p (fun st => { st with lie := derivedLie s p r st }) s
    let s := touchPoint p s
    let l := detLie s p
    pointTested p (reportMoved p l 4 (if l = .normal || l = .reverse then wantReexam s else s))

/-- RESTORE_POINT in slot n (R102). -/
def restorePoint (n p : Nat) (s : State) : State :=
  match (if p < 128 then Tbl.find s.pts.state p else none) with
  | none => complete n .badArgument 0 0 s
  | some st =>
    if st.failed.isNone then complete n .ok 0 0 s
    else
      let s := restore p s
      complete n .ok (detLie s p).code 0 s

end Sys2Proof.Machine
end

