-- ==== Sys2Proof/Machine/RouteRequests.lean ====
section
/-! DEFINITION. SET_ROUTE (R43 to R51), the route stack (R52 to R60), CANCEL_ROUTE (R80 to R83), and the expiries of
stack entries and of the two route timers (R58, R79, R82). -/

namespace Sys2Proof.Machine

/-! ## The eight checks -/

def Originator.isVisitor : Originator → Bool
  | .visitor => true
  | .operator _ => false
  | .automation => false

/-- The visitor routes, active and stacked; at re-examination the entry being checked is left out (R45). -/
def visitorCount (s : State) (route : Nat) (again : Bool) : Nat :=
  (s.ilk.active.filter fun x => x.2.originator.isVisitor).length
    + (s.ilk.stack.filter fun x => x.originator.isVisitor && !(again && x.route == route)).length

/-- The fourth check (R45). -/
def visitorRefusal (s : State) (r : RouteRec) (route : Nat) (o : Originator) (again : Bool) : Option Answer :=
  let n := visitorCount s route again
  if o.isVisitor && !(r.visitor && !s.vis.suspended && decide (n < s.ilk.quota)) then some ⟨.visitorBarred, route, n⟩
  else none

/-- The first four checks and the fifth, in R44's order (R44 to R46). ENTRY_BUSY, a transient reason, is found before
ALL_STOP and VISITOR_BARRED, so that an entry whose entry signal is busy stays stacked in ALL STOP, although R57's example
has ALL STOP remove every entry (DEDUCED, log 49). -/
def wholeRefusal (s : State) (r : RouteRec) (route : Nat) (o : Originator) (again : Bool) : Option Answer :=
  match entryOf s route with
  | some (e, _) => some ⟨.routeActive, route, e⟩
  | none =>
    match if again then none else s.ilk.stack.findIdx? (fun x => x.route == route) with
    | some k => some ⟨.routeStacked, route, k⟩
    | none =>
      match entryAt s r.entry with
      | some (_, a) => some ⟨.entryBusy, r.entry, a.route⟩
      | none =>
        if s.asp.cond = .allStop then some ⟨.allStop, 0, 0⟩
        else
          match visitorRefusal s r route o again with
          | some a => some a
          | none => if (Tbl.lowestFree s.ilk.active Config.numActive 0).isNone then some ⟨.routeTableFull, 0, 0⟩ else none

/-- The sixth check: three passes over the sequence (R47). -/
def sectionRefusal (s : State) (r : RouteRec) : Option Answer :=
  match (sequence r).find? fun n => secState s n == .disabled with
  | some n => some ⟨.sectionDisabled, n, 0⟩
  | none =>
    match (sequence r).find? fun n => (lockOf s n).isSome with
    | some n => some ⟨.sectionLocked, n, (lockOf s n).getD 0⟩
    | none =>
      match (sequence r).find? fun n => !classAllows r n (secState s n) with
      | some n => some ⟨.sectionOccupied, n, (secState s n).code⟩
      | none => none

/-- A lock in a lie is compatible with a holder list (R48). -/
def lockCompatible (h : Holders) (l : Lie) : Bool :=
  h.routes.isEmpty || (h.shared == some l && decide (h.routes.length < 4))

/-- A point needs moving (R48). -/
def needsMoving (s : State) (x : Nat × Lie) : Bool := detLie s x.1 != x.2.det || (orderOf s x.1).isSome

/-- A point is free to move (R48). -/
def freeToMove (s : State) (p : Nat) : Bool :=
  (holdersOf s p).routes.isEmpty && (orderOf s p).isNone && secClear s (pointSec s p)

/-- The seventh check: three passes over the points (R48). -/
def pointRefusal (s : State) (r : RouteRec) : Option Answer :=
  match (routePoints r).find? fun x => detLie s x.1 == .failed with
  | some x => some ⟨.pointFailed, x.1, 0⟩
  | none =>
    match (routePoints r).find? fun x => !lockCompatible (holdersOf s x.1) x.2 with
    | some x => some ⟨.pointLocked, x.1, (holdersOf s x.1).routes.head?.getD 0⟩
    | none =>
      match (routePoints r).find? fun x => needsMoving s x && !freeToMove s x.1 with
      | some x => some ⟨.pointOccupied, x.1, (detLie s x.1).code⟩
      | none => none

/-- The eighth check (R49). -/
def tableRefusal (s : State) (r : RouteRec) : Option Answer :=
  match r.table with
  | none => none
  | some x =>
    if s.tt.state = .aligned && s.tt.align = some x then none
    else some ⟨.tableNotAligned, roadEndByte (some x), s.tt.state.code⟩

/-- The eight checks in order: the first that fails, with its result words (R44 to R49, R51). -/
def routeRefusal (s : State) (route : Nat) (o : Originator) (again : Bool) : Option Answer :=
  match Tbl.find s.ilk.routes route with
  | none => some ⟨.notLoaded, route, 0⟩
  | some r =>
    (wholeRefusal s r route o again).or ((sectionRefusal s r).or ((pointRefusal s r).or (tableRefusal s r)))

/-- The transient reasons (R52). -/
def Result.transient : Result → Bool
  | .entryBusy | .sectionLocked | .sectionOccupied | .pointLocked | .pointOccupied | .tableNotAligned
  | .routeTableFull => true
  | _ => false

/-! ## Acceptance (R50, R66) -/

def Source.slot? : Source → Option Nat
  | .slot n => some n
  | .show_ _ => none

def Source.show? : Source → Option Nat
  | .slot _ => none
  | .show_ n => some n

/-- The entry of a route at acceptance (R66). -/
def acceptedEntry (route : Nat) (r : RouteRec) (o : Originator) (src : Source) (orders : List Nat) : Active :=
  { route := route, state := .setting, originator := o, slot := src.slot?, show_ := src.show?, tag := none,
    orders := orders, passed := List.replicate (sequence r).length false, releasePos := 0,
    overlapState := if r.overlap = [] then .released else .locked, overlapPos := 0, timer := none,
    ending := .cancelled }

/-- A move order of a route (R50). -/
def routeOrder (e : Nat) (x : Nat × Lie) : Order :=
  { point := x.1, lie := x.2, origin := .route e, phase := .queued, startTime := none, retried := false, timer := none }

/-- A route that passed its checks is accepted: entry, locks, orders; proved at once, it becomes SET (R50, R66, R67). -/
def acceptRoute (route : Nat) (o : Originator) (src : Source) (s : State) : State :=
  match Tbl.find s.ilk.routes route, Tbl.lowestFree s.ilk.active Config.numActive 0 with
  | some r, some e =>
    let moves := (routePoints r).filter (needsMoving s)
    let s := putActive e (acceptedEntry route r o src (moves.map Prod.fst)) s
    let s := eachDo (sequence r) (fun n => setLock n (some route)) s
    let s := (routePoints r).foldl (fun t x => addHolder x.1 x.2 route t) s
    let s := moves.foldl (fun t x => giveOrder (routeOrder e x) t) s
    let s := mirrorSignal r.entry (mirrorActive e s)
    let s := match src with
      | .slot _ => s
      | .show_ n => showRouteAccepted n route s
    testProved e s
  | _, _ => s

/-! ## The stack (R52, R53) -/

/-- The stack set, with its whole mirror (R60). -/
def setStack (l : List StackEntry) (s : State) : State := mirrorStack { s with ilk := { s.ilk with stack := l } }

/-- An entry placed after every entry of its own class and before those of later classes (R53). -/
def placeEntry (x : StackEntry) : List StackEntry → List StackEntry
  | [] => [x]
  | y :: l => if x.originator.code < y.originator.code then x :: y :: l else y :: placeEntry x l

/-- A request joins the stack with the reason and item of its check (R52, R53). -/
def joinStack (route : Nat) (o : Originator) (src : Source) (a : Answer) (s : State) : State :=
  let x : StackEntry :=
    { route := route, originator := o, source := src, arrival := s.clock,
      expiry := if s.ilk.stackTimeout = 0 then none else some (1000 * s.ilk.stackTimeout), reason := a.result,
      item := a.w0 }
  setStack (placeEntry x s.ilk.stack) s

/-- The entry of a route leaves the stack. -/
def leaveStack (route : Nat) (s : State) : State := setStack (s.ilk.stack.filter fun x => x.route != route) s

/-- SET_ROUTE for a slot or a show: accepted, stacked, or the refusal that is the answer (R43 to R52). A VISITOR request whose
first failing check is ENTRY_BUSY is stacked without the visitor check, although R45 says that visitor routes never exceed the
quota: the model follows the check order (DEDUCED, log 48). -/
def requestRoute (route : Nat) (o : Originator) (stack : Bool) (src : Source) (s : State) : State × Option Answer :=
  match routeRefusal s route o false with
  | none => (acceptRoute route o src s, none)
  | some a =>
    if !(stack && a.result.transient) then (s, some a)
    else if s.ilk.stack.length < Config.numStack then (joinStack route o src a s, none)
    else (s, some ⟨.stackFull, a.result.code, a.w0⟩)

/-- The originator of a SET_ROUTE's argument word 1 (R43, 12.1, log 23). -/
def originatorOf (w : Nat) : Option Originator :=
  match bitsOf w 0 8 with
  | 1 => if bitsOf w 8 8 ≤ 15 then some (.operator (bitsOf w 8 8)) else none
  | 2 => some .automation
  | _ => none

/-- SET_ROUTE in slot n (R43). -/
def setRoute (n route w1 w2 : Nat) (s : State) : State :=
  match originatorOf w1 with
  | none => complete n .badArgument 0 0 s
  | some o =>
    if 511 < route then complete n .badArgument 0 0 s
    else
      match requestRoute route o (bitsOf w2 0 1 == 1) (.slot n) s with
      | (s, none) => s
      | (s, some a) => complete n a.result a.w0 a.w1 s

/-- A stacked request's answer goes to its slot or to its show (R57 to R59). -/
def answerStacked (x : StackEntry) (a : Answer) (s : State) : State :=
  match x.source with
  | .slot n => complete n a.result a.w0 a.w1 s
  | .show_ sh => showRouteFailed sh x.route a.result a.w0 s

/-- An entry that stays, with the reason and item of this check; the mirror is rewritten if they changed (R55). -/
def keepStacked (x : StackEntry) (a : Answer) (s : State) : State :=
  if x.reason = a.result && x.item = a.w0 then s
  else setStack (s.ilk.stack.map fun y => if y.route = x.route then { y with reason := a.result, item := a.w0 } else y) s

/-- One entry of a re-examination (R55 to R57). -/
def reexamineOne (route : Nat) (s : State) : State :=
  match s.ilk.stack.find? fun x => x.route == route with
  | none => s
  | some x =>
    match routeRefusal s route x.originator true with
    | none => acceptRoute route x.originator x.source (leaveStack route s)
    | some a => if a.result.transient then keepStacked x a s else answerStacked x a (leaveStack route s)

/-- One re-examination; it does not start another (R54, R55). -/
def reexamine (s : State) : State :=
  let s := eachDo (s.ilk.stack.map StackEntry.route) reexamineOne s
  { s with work := { s.work with reexam := false } }

/-- An entry's expiry time is reached (R58). -/
def stackExpires (route : Nat) (s : State) : State :=
  match s.ilk.stack.find? fun x => x.route == route with
  | none => s
  | some x =>
    match x.expiry with
    | none => s
    | some _ => answerStacked x ⟨.expired, x.reason.code, x.item⟩ (leaveStack route s)

/-- The stacked entries of an aborted show are removed, with nothing handed back (R59). -/
def removeShowEntries (sh : Nat) (s : State) : State :=
  if s.ilk.stack.any fun x => x.source == .show_ sh then setStack (s.ilk.stack.filter fun x => x.source != .show_ sh) s
  else s

/-! ## CANCEL_ROUTE (R80 to R83) -/

/-- A SETTING route cancelled (R83). -/
def cancelSetting (e : Nat) (a : Active) (s : State) : State :=
  let s := withdraw e s
  let s := answerSlot e .cancelled 0 0 s
  let s := tellShow a (fun sh r => showRouteFailed sh r .cancelled 0) s
  match Tbl.find s.ilk.active e with
  | none => s
  | some a =>
    if a.orders = [] then releaseWhole e .cancelled s
    else wantAspects (setActive e { a with state := .cancelling, ending := .cancelled } s)

/-- A SET, HELD or APPROACH_LOCKED route given up: released whole where its order list is empty (R65, R81, R82). Orders
still queued are withdrawn first, and CANCELLING waits for one in flight (R84, log 42). -/
def giveUp (e : Nat) (why : Ending) (s : State) : State :=
  match Tbl.find s.ilk.active e with
  | none => s
  | some a =>
    if a.orders = [] then releaseWhole e why s
    else
      let s := withdraw e s
      match Tbl.find s.ilk.active e with
      | none => s
      | some a =>
        if a.orders = [] then releaseWhole e why s
        else wantAspects (setActive e { a with state := .cancelling, timer := none, ending := why } s)

/-- A SET or HELD route cancelled (R81). -/
def cancelSet (e : Nat) (a : Active) (s : State) : State :=
  match Tbl.find s.ilk.routes a.route with
  | none => s
  | some r =>
    match r.approach.find? fun n => !secClear s n with
    | none => giveUp e .cancelled s
    | some n =>
      if r.approachTime = 0 then giveUp e .cancelled s
      else
        wantAspects (report .routeApproachLocked a.route (halves e r.approachTime) n
          (setActive e { a with state := .approachLocked, timer := some (1000 * r.approachTime) } s))

/-- A route given up: the new state and the answer (R59, R80). -/
def cancelRoute (route : Nat) (byShow : Bool) (s : State) : State × Answer :=
  if 511 < route then (s, ⟨.badArgument, 0, 0⟩)
  else
    match s.ilk.stack.find? fun x => x.route == route with
    | some x =>
      if byShow && !x.originator.isVisitor then (s, ⟨.visitorBarred, 0, 0⟩)
      else (answerStacked x ⟨.cancelled, 0, 0⟩ (leaveStack route s), ⟨.ok, 7, 0⟩)
    | none =>
      match entryOf s route with
      | none => (s, ⟨.routeNotActive, 0, 0⟩)
      | some (e, a) =>
        if byShow && !a.originator.isVisitor then (s, ⟨.visitorBarred, 0, 0⟩)
        else
          match a.state with
          | .setting => (cancelSetting e a s, ⟨.ok, a.state.code, e⟩)
          | .set | .held => (cancelSet e a s, ⟨.ok, a.state.code, e⟩)
          | .running => (s, ⟨.routeRunning, 0, 0⟩)
          | .approachLocked | .cancelling => (s, ⟨.ok, a.state.code, e⟩)

/-- CANCEL_ROUTE in slot n (R80). -/
def cancelRequest (n route : Nat) (s : State) : State :=
  match cancelRoute route false s with
  | (s, a) => complete n a.result a.w0 a.w1 s

/-! ## Route timers -/

/-- The overlap timer of an entry expires (R79). -/
def overlapExpires (e : Nat) (s : State) : State :=
  match Tbl.find s.ilk.active e with
  | none => s
  | some a => if a.overlapState = .timing && a.timer.isSome then releaseOverlap e s else s

/-- The approach timer of an entry expires (R82). -/
def approachExpires (e : Nat) (s : State) : State :=
  match Tbl.find s.ilk.active e with
  | none => s
  | some a => if a.state = .approachLocked && a.timer.isSome then giveUp e .approachExpired s else s

end Sys2Proof.Machine
end

