-- ==== Sys2Proof/Machine/Turntable.lean ====
section
/-! DEFINITION. The turntable controller (chapter 7): deck states, bolt, stepping, TURN_TABLE, HOME_TABLE, STOP_TABLE,
FAULT, jogging and snap, ALL STOP. With no DECK record loaded nothing here changes the deck. -/

namespace Sys2Proof.Machine

/-! ## Outputs, reports, answers -/

/-- The deck changed, with its mirror and, at the end of the handling, the lamps (R140, R175). -/
def setDeck (f : Turntable → Turntable) (s : State) : State :=
  mirrorTable { s with tt := f s.tt, work := { s.work with lamps := true } }

/-- The feed relay (R125). -/
def feedOn (s : State) : Bool := s.tt.state == .aligned && s.running && s.asp.cond == .running

/-- The feed set afresh. -/
def updateFeed (s : State) : State := setDeck (fun t => { t with feed := feedOn s }) s

/-- The upper half of a TABLE_STATE report's second word (R139); 0 where there is no target (log 45). -/
def tableStateUpper (t : Turntable) : Nat :=
  match t.state with
  | .aligned => roadEndByte t.align
  | .fault => faultCode t.fault
  | _ => roadEndByte t.target

/-- A change of deck state: the feed, the STOP cause and one TABLE_STATE report (R125, R134, R139). -/
def enterDeck (new : DeckState) (s : State) : State :=
  let old := s.tt.state
  let s := updateFeed { s with tt := { s.tt with state := new } }
  let s := if old = .fault || new = .fault then evalStop s else s
  report .tableState 0 (halves old.code new.code) (halves (orNone16 s.tt.pos) (tableStateUpper s.tt)) s

/-- The requester becomes NONE and is given its answer (R129). -/
def answerRequester (res : Result) (w0 w1 : Nat) (s : State) : State :=
  let q := s.tt.requester
  let s := setDeck (fun t => { t with requester := .none }) s
  match q with
  | .slot n => complete n res w0 w1 s
  | .show_ n => showTurnAnswer n res w0 s
  | .jog | .none => s

/-- No leg, no jog and no timer in hand. -/
def Turntable.quiet (t : Turntable) : Turntable :=
  { t with legSteps := 0, legDone := 0, returnSteps := 0, jogHold := none, jogReleased := false, halting := false,
           search := 0, boltTimer := none, settleTimer := none, gen := none, stepOut := false }

/-! ## FAULT, HALTED, ALIGNED -/

/-- Entry into FAULT (R134). -/
def enterFault (c : FaultCause) (s : State) : State :=
  let s := setDeck (fun t => { t.quiet with boltOut := false, fault := some c, align := none, target := none }) s
  answerRequester .tableFault 0 c.code (enterDeck .fault s)

/-- Entry into HALTED. -/
def enterHalted (s : State) : State :=
  enterDeck .halted (setDeck (fun t => { t.quiet with target := none, requester := .none }) s)

/-- Entry into UNREFERENCED with the bolt output de-energized (R138). -/
def enterUnreferenced (s : State) : State :=
  enterDeck .unreferenced
    (setDeck (fun t => { t.quiet with target := none, requester := .none, boltOut := false, pos := none }) s)

/-- The polarity for an alignment: end A the road's, end B the opposite (R125). -/
def polarityFor (t : Turntable) (x : RoadEnd) : Bool :=
  match Tbl.find t.roads x.road with
  | none => t.polReversed
  | some r => match x.deckEnd with
    | .a => r.reversed
    | .b => !r.reversed

/-- The alignment taken, with the polarity and the completed turns (R124, R125). -/
def takeAlignment (x : RoadEnd) (s : State) : State :=
  setDeck (fun t => { t with align := some x, target := none, polReversed := polarityFor t x,
                             turns := (t.turns + 1) % 65536 }) s

/-- Entry into ALIGNED with the target as alignment (R129). -/
def enterAligned (s : State) : State :=
  match s.tt.target with
  | none => enterHalted s
  | some x =>
    let s := setDeck (fun t => t.quiet) s
    let s := enterDeck .aligned (takeAlignment x s)
    wantReexam (answerRequester .ok (s.tt.pos.getD 0) (roadEndByte (some x)) s)

/-! ## Bolt and settling (R126, R127) -/

/-- The bolt is withdrawn or engaged (R125). -/
def withdrawn (t : Turntable) : Bool := t.boltOutC.level && !t.boltIn.level
def engaged (t : Turntable) : Bool := t.boltIn.level && !t.boltOutC.level

/-- Entry into BOLTING (R126). -/
def enterBolting (d : DeckRec) (s : State) : State :=
  let s := setDeck (fun t => { t with settleTimer := none, boltOut := if d.bolt then false else t.boltOut }) s
  let s := enterDeck .bolting s
  if !d.bolt || engaged s.tt then enterAligned s
  else if d.boltTime = 0 then enterFault .boltStuckOut s
  else setDeck (fun t => { t with boltTimer := some d.boltTime }) s

/-- Entry into SETTLING (R127). -/
def enterSettling (d : DeckRec) (s : State) : State :=
  let s := enterDeck .settling (setDeck (fun t => t.quiet) s)
  if d.settleTime = 0 then enterBolting d s else setDeck (fun t => { t with settleTimer := some d.settleTime }) s

/-! ## Moves -/

/-- The legs of a move to a target position taken from where the deck stands (R129, R146). -/
def planMove (d : DeckRec) (goal : Nat) (s : State) : State :=
  match s.tt.pos with
  | none => s
  | some p =>
    let (cw, n, back) := legs d p goal
    setDeck (fun t => { t with legCw := cw, legSteps := n, legDone := 0, returnSteps := back }) s

/-- A leg begins: the direction output and the first step (R125, R150). -/
def beginLeg (d : DeckRec) (s : State) : State :=
  setDeck (fun t => { t with dirAcw := !t.legCw, gen := some (beginStep (legRate d t.legSteps 0)), stepOut := false }) s

/-- Entry into MOVING on the planned legs. -/
def enterMoving (d : DeckRec) (s : State) : State := enterDeck .moving (beginLeg d s)

/-- The target position of a road and end (R143). -/
def targetPos (d : DeckRec) (s : State) (x : RoadEnd) : Nat :=
  match Tbl.find s.tt.roads x.road with
  | none => 0
  | some r => targetOf d.c r.position x.deckEnd

/-- The snap decision (R137, R153). -/
def snapDecision (d : DeckRec) (s : State) : State :=
  let s := setDeck (fun t => t.quiet) s
  match s.tt.pos with
  | none => enterHalted s
  | some p =>
    match snapChoice d s.tt.roads p with
    | none => enterHalted s
    | some (x, goal) =>
      let s := setDeck (fun t => { t with target := some x }) s
      if goal = p then enterSettling d s else enterMoving d (planMove d goal s)

/-- A stop begins from the step in progress (R151); a jog stop on a BOUNDED deck ends with the step that reaches
S. -/
def enterStopping (d : DeckRec) (s : State) : State :=
  let v := (s.tt.gen.map Generator.rate).getD d.v0
  let n := stopLength d v
  let n := if s.tt.requester = .jog then
      match s.tt.pos.bind (stepsToStop d s.tt.legCw) with
      | some k => min n k
      | none => n
    else n
  enterDeck .stopping (setDeck (fun t => { t with legSteps := n, returnSteps := 0, jogHold := none }) s)

/-- The stop limit of a BOUNDED deck from the rate of the next step (R136). -/
def stopLimit (d : DeckRec) (t : Turntable) (v : Nat) : Bool :=
  match t.pos.bind (stepsToStop d t.jogCw) with
  | some k => decide (k ≤ stopLength d v)
  | none => false

/-- Entry into JOGGING; a release at entry makes no step (R136, log 28). -/
def enterJogging (d : DeckRec) (s : State) : State :=
  let s := enterDeck .jogging
    (setDeck (fun t => { t with legCw := t.jogCw, legSteps := 0, legDone := 0, returnSteps := 0 }) s)
  if stopLimit d s.tt (jogRate d 0) then snapDecision d s
  else
    setDeck (fun t => { t with dirAcw := !t.jogCw, gen := some (beginStep (jogRate d 0)), stepOut := false }) s

/-- Entry into HOMING: the index is read (log 6) and the search begins (R131). -/
def enterHoming (d : DeckRec) (s : State) : State :=
  let level := Config.indexReading s.free
  enterDeck .homing (setDeck (fun t =>
    { t with lastIndex := level, search := 0, legCw := true, dirAcw := false, gen := some (beginStep d.v0),
             stepOut := false }) (useFree s))

/-- UNBOLTING ends with the bolt withdrawn. -/
def endUnbolting (d : DeckRec) (s : State) : State :=
  let s := setDeck (fun t => { t with boltTimer := none }) s
  if s.tt.halting then (if s.tt.pos.isSome then enterHalted s else enterUnreferenced s)
  else if s.tt.requester = .jog then (if s.tt.jogReleased then snapDecision d s else enterJogging d s)
  else if s.tt.pos.isNone then enterHoming d s
  else enterMoving d s

/-- Entry into UNBOLTING (R126). -/
def enterUnbolting (d : DeckRec) (s : State) : State :=
  let s := setDeck (fun t => { t with align := none, boltOut := if d.bolt then true else t.boltOut }) s
  let s := enterDeck .unbolting s
  if !d.bolt || withdrawn s.tt then endUnbolting d s
  else if d.boltTime = 0 then enterFault .boltStuckIn s
  else setDeck (fun t => { t with boltTimer := some d.boltTime }) s

/-! ## Requests -/

/-- OCCUPIED or UNCERTAIN (R128). -/
def standing (s : State) (n : Nat) : Bool := secState s n == .occupied || secState s n == .uncertain

/-- The section of the lowest-numbered road that faces an end of the deck and stands occupied (R128, log 27). -/
def facingOccupied (d : DeckRec) (s : State) (p : Nat) : Option Nat :=
  (s.tt.roads.find? fun x =>
    (x.2.position == p || x.2.position == (p + d.c / 2) % d.c) && standing s x.2.sec).map fun x => x.2.sec

/-- The straddle test of R128 and R130: the section and its state. -/
def straddle (d : DeckRec) (s : State) : Option Answer :=
  if standing s d.sec then
    match s.tt.pos with
    | none => some ⟨.straddle, d.sec, (secState s d.sec).code⟩
    | some p => (facingOccupied d s p).map fun n => ⟨.straddle, n, (secState s n).code⟩
  else none

/-- The road and end of a request that are valid (R128). -/
def requestTarget (s : State) (road deckEnd : Nat) : Option RoadEnd :=
  if road < 36 && (Tbl.find s.tt.roads road).isSome then
    match deckEnd with
    | 0 => some { road := road, deckEnd := .a }
    | 1 => some { road := road, deckEnd := .b }
    | _ => none
  else none

/-- The lock of the deck section and the straddle of a TURN_TABLE, with their words (R128). -/
def deckLockedOrStraddled (d : DeckRec) (s : State) : Option Answer :=
  match lockOf s d.sec with
  | some r => some ⟨.tableLocked, d.sec, r⟩
  | none => straddle d s

/-- An accepted TURN_TABLE, with its answer where it ends at once (R129). -/
def turnAccepted (d : DeckRec) (q : Requester) (x : RoadEnd) (s : State) : State × Option Answer :=
  let goal := targetPos d s x
  if s.tt.pos = some goal && s.tt.state = .aligned then
    let s := updateFeed (takeAlignment x s)
    let s := report .tableState 0 (halves s.tt.state.code s.tt.state.code)
      (halves (orNone16 s.tt.pos) (tableStateUpper s.tt)) s
    (wantReexam s, some ⟨.ok, s.tt.pos.getD 0, roadEndByte (some x)⟩)
  else
    let s := planMove d goal (setDeck (fun t => { t with requester := q, target := some x }) s)
    if s.tt.state = .aligned then (enterUnbolting d s, none)
    else if s.tt.pos = some goal then (enterBolting d s, none)
    else (enterMoving d s, none)

/-- TURN_TABLE for a slot or a show: the answer, or none while the turn is in hand (R128, R129). -/
def turnRequest (q : Requester) (road deckEnd : Nat) (s : State) : State × Option Answer :=
  match s.tt.deck, requestTarget s road deckEnd with
  | some d, some x =>
    if s.asp.cond = .allStop then (s, some ⟨.allStop, 0, 0⟩)
    else if s.tt.state = .fault then (s, some ⟨.tableFault, 0, faultCode s.tt.fault⟩)
    else if s.tt.state != .aligned && s.tt.state != .halted then (s, some ⟨.tableBusy, 0, s.tt.state.code⟩)
    else if s.tt.state = .aligned && s.tt.align = some x then (s, some ⟨.ok, 0, 0⟩)
    else
      match deckLockedOrStraddled d s with
      | some a => (s, some a)
      | none => turnAccepted d q x s
  | _, _ => (s, some ⟨.badArgument, 0, 0⟩)

/-- TURN_TABLE in slot n. -/
def turnTable (n road deckEnd : Nat) (s : State) : State :=
  match turnRequest (.slot n) road deckEnd s with
  | (s, none) => s
  | (s, some a) => complete n a.result a.w0 a.w1 s

/-- An accepted HOME_TABLE (R130). -/
def homeAccepted (d : DeckRec) (n : Nat) (x : RoadEnd) (s : State) : State :=
  let halted := s.tt.state = .halted
  let s := setDeck (fun t =>
    { t with requester := .slot n, target := some x, fault := none, pos := none, align := none }) s
  if halted then enterHoming d s else enterUnbolting d s

/-- HOME_TABLE in slot n (R130); R130 gives TABLE_BUSY and TABLE_LOCKED no words, so both are 0 (R189, log 44). -/
def homeTable (n road deckEnd : Nat) (s : State) : State :=
  match s.tt.deck, requestTarget s road deckEnd with
  | some d, some x =>
    if s.asp.cond = .allStop then complete n .allStop 0 0 s
    else if s.tt.state != .unreferenced && s.tt.state != .halted && s.tt.state != .aligned && s.tt.state != .fault then
      complete n .tableBusy 0 0 s
    else if (lockOf s d.sec).isSome then complete n .tableLocked 0 0 s
    else
      match straddle d s with
      | some a => complete n a.result a.w0 a.w1 s
      | none => homeAccepted d n x s
  | _, _ => complete n .badArgument 0 0 s

/-- STOP_TABLE in slot n (R132, R133). -/
def stopTable (n : Nat) (s : State) : State :=
  let found := s.tt.state
  let s :=
    match s.tt.deck with
    | none => s
    | some d =>
      if (found = .moving || found = .returning) && !s.tt.halting then
        let q := s.tt.requester
        let s := enterStopping d (setDeck (fun t => { t with requester := .none, target := none }) s)
        answerRequester .cancelled 0 0 (setDeck (fun t => { t with requester := q }) s)
      else s
  complete n .ok found.code 0 s

/-! ## Step boundaries (R127, R131, R136, R150, R151) -/

/-- The next step of the present stepping begins. -/
def nextStep (v : Nat) (s : State) : State :=
  setDeck (fun t => { t with gen := some (beginStep v), stepOut := false }) s

/-- The index edge of the loaded polarity (R131). -/
def indexEdge (d : DeckRec) (before now : Bool) : Bool :=
  if d.rising then !before && now else before && !now

/-- The end of a leg (R127). -/
def legEnds (d : DeckRec) (s : State) : State :=
  if s.tt.state = .moving && 0 < s.tt.returnSteps then
    enterDeck .returning (beginLeg d (setDeck (fun t =>
      { t with legCw := true, legSteps := t.returnSteps, legDone := 0, returnSteps := 0 }) s))
  else enterSettling d s

/-- A boundary in MOVING or RETURNING. -/
def legBoundary (d : DeckRec) (s : State) : State :=
  let s := setDeck (fun t => { t with legSteps := t.legSteps - 1, legDone := t.legDone + 1 }) s
  if s.tt.legSteps = 0 then legEnds d s
  else nextStep (legRate d (s.tt.legDone + s.tt.legSteps) s.tt.legDone) s

/-- A boundary in STOPPING (R133, R136). -/
def stopBoundary (d : DeckRec) (v : Nat) (s : State) : State :=
  let s := setDeck (fun t => { t with legSteps := t.legSteps - 1 }) s
  if s.tt.legSteps = 0 then (if s.tt.requester = .jog then snapDecision d s else enterHalted s)
  else nextStep (stopRate d v) s

/-- A boundary in JOGGING, with the stop limit (R136). -/
def jogBoundary (d : DeckRec) (s : State) : State :=
  let s := setDeck (fun t => { t with legDone := t.legDone + 1 }) s
  let v := jogRate d s.tt.legDone
  let s := nextStep v s
  if stopLimit d s.tt v then enterStopping d s else s

/-- A boundary in HOMING, with the reading before it (R131). -/
def homingBoundary (d : DeckRec) (before now : Bool) (s : State) : State :=
  let s := setDeck (fun t => { t with search := t.search + 1 }) s
  if indexEdge d before now then
    let s := setDeck (fun t => { t.quiet with pos := some d.indexOffset }) s
    match s.tt.target with
    | none => enterHalted s
    | some x =>
      let goal := targetPos d s x
      if goal = d.indexOffset then enterSettling d s else enterMoving d (planMove d goal s)
  else if searchLimit d ≤ s.tt.search then enterFault .indexNotFound s
  else nextStep d.v0 s

/-- The step boundary of the step in progress, with the index level read at it (R127, R150). -/
def boundary (index : Bool) (s : State) : State :=
  match s.tt.deck, s.tt.gen with
  | some d, some g =>
    let before := s.tt.lastIndex
    let s := setDeck (fun t =>
      { t with lastIndex := index, stepOut := false, pos := t.pos.map (stepFrom d.c t.legCw) }) s
    match s.tt.state with
    | .moving | .returning => if s.tt.halting then enterHalted s else legBoundary d s
    | .stopping => if s.tt.halting then enterHalted s else stopBoundary d g.rate s
    | .jogging => if s.tt.halting then enterHalted s else jogBoundary d s
    | .homing => if s.tt.halting then enterUnreferenced s else homingBoundary d before index s
    | .unreferenced | .unbolting | .settling | .bolting | .aligned | .halted | .fault => s
  | _, _ => s

/-- The boundary that ends the last step of a leg (log 5). -/
def atLegEnd (t : Turntable) : Bool :=
  (t.state == .moving || t.state == .returning) && t.legSteps == 1 && !t.halting

/-- The boundary that ends the last step of a stop (log 5). -/
def atStopEnd (t : Turntable) : Bool := t.state == .stopping && t.legSteps == 1 && !t.halting

/-- The boundary at which the search count reaches its limit (log 5). -/
def atSearchLimit (t : Turntable) : Bool :=
  match t.deck with
  | none => false
  | some d => t.state == .homing && t.search + 1 == searchLimit d && !t.halting

/-- The first underflow of a step: the step output becomes active (R149). -/
def stepActive (s : State) : State :=
  match s.tt.gen with
  | none => s
  | some g =>
    if g.second then s
    else mirrorTable { s with tt := { s.tt with gen := some { g with second := true, counter := g.reload },
                                                stepOut := true } }

/-! ## Contacts and timers -/

/-- A counted contact level has changed: the tests of R126. -/
def boltContactChanged (s : State) : State :=
  match s.tt.deck with
  | none => s
  | some d =>
    if !d.bolt then s
    else if s.tt.state = .unbolting && withdrawn s.tt then endUnbolting d s
    else if s.tt.state = .bolting && engaged s.tt then enterAligned s
    else s

/-- One sample of a bolt contact (R125). -/
def boltSample (c : BoltContact) (closed : Bool) (s : State) : State :=
  let old := s.tt
  let s := setDeck (fun t => match c with
    | .boltIn => { t with boltIn := t.boltIn.sample closed }
    | .boltOut => { t with boltOutC := t.boltOutC.sample closed }) s
  if s.tt.boltIn.level = old.boltIn.level && s.tt.boltOutC.level = old.boltOutC.level then s
  else boltContactChanged s

/-- The bolt timer expires (R126). -/
def boltExpires (s : State) : State :=
  match s.tt.boltTimer with
  | none => s
  | some _ => enterFault (if s.tt.state = .unbolting then .boltStuckIn else .boltStuckOut) s

/-- The settle timer expires (R127). -/
def settleExpires (s : State) : State :=
  match s.tt.settleTimer, s.tt.deck with
  | some _, some d => enterBolting d s
  | _, _ => s

/-! ## Jogging (R135, R136) -/

/-- The conditions of a jog press (R135). -/
def jogAllowed (d : DeckRec) (s : State) : Bool :=
  s.running && s.asp.cond == .running && s.tt.jogPermitted && s.vis.runner.isNone
    && (s.tt.state == .aligned || s.tt.state == .halted) && s.tt.requester == .none && secClear s d.sec
    && (lockOf s d.sec).isNone

/-- A jog press handed on by the visitor unit (R135). -/
def jogPress (cw : Bool) (s : State) : State :=
  match s.tt.deck with
  | none => s
  | some d =>
    if jogAllowed d s then
      let s := setDeck (fun t => { t with requester := .jog, jogCw := cw, jogHold := some 20000, jogReleased := false }) s
      if s.tt.state = .aligned then enterUnbolting d s else enterJogging d s
    else s

/-- The jog in hand is released (R136). -/
def releaseJog (s : State) : State :=
  match s.tt.deck with
  | none => s
  | some d =>
    if s.tt.requester = .jog && !s.tt.halting then
      if s.tt.state = .unbolting then setDeck (fun t => { t with jogReleased := true, jogHold := none }) s
      else if s.tt.state = .jogging then enterStopping d s
      else s
    else s

/-- The release of a jog button (R136). -/
def jogButtonReleased (cw : Bool) (s : State) : State := if s.tt.jogCw = cw then releaseJog s else s

/-- The jog hold timer expires (R136). -/
def jogHoldExpires (s : State) : State :=
  match s.tt.jogHold with
  | none => s
  | some _ => releaseJog s

/-- The deck section has left CLEAR (R136). -/
def deckSectionLeft (n : Nat) (s : State) : State :=
  match s.tt.deck with
  | none => s
  | some d => if d.sec = n then releaseJog s else s

/-! ## ALL STOP (R138) -/

/-- The stepping states and UNBOLTING, in which an entry into ALL STOP gives up the work. -/
def DeckState.givesUp : DeckState → Bool
  | .moving | .returning | .stopping | .jogging | .homing | .unbolting => true
  | .unreferenced | .settling | .bolting | .aligned | .halted | .fault => false

/-- Entry into ALL STOP at the deck. -/
def deckAllStop (s : State) : State :=
  if s.tt.state.givesUp then
    answerRequester .allStop 0 0
      (setDeck (fun t => { t with halting := true, target := none, jogHold := none }) s)
  else updateFeed s

end Sys2Proof.Machine
end

