-- ==== Sys2Proof/Machine/Visitors.lean ====
section
/-! DEFINITION. The visitor unit (chapter 9): buttons, the queue, the show runner, abort and cool-down, suspension; and
the panel power state that the display driver keeps (R180, R181). -/

namespace Sys2Proof.Machine

/-- The visitor unit changed; the button lamps and the visitor mirror follow at the end of the handling (R170, R172). -/
def setVisitors (f : VisitorUnit → VisitorUnit) (s : State) : State := { s with vis := f s.vis }

/-! ## Panel power (R180 to R182) -/

/-- The idle timer loaded with an idle time in s; loaded with 0 it is stopped (R180). -/
def loadIdle (t : Nat) (s : State) : State :=
  { s with disp := { s.disp with idleTimer := if t = 0 then none else some (1000 * t), idleRun := t } }

/-- The idle timer stopped. -/
def stopIdle (s : State) : State := { s with disp := { s.disp with idleTimer := none } }

/-- A change of panel state with its report: cause 1 IDLE, 2 PRESS, 3 SHOW_START (R182, 12.4). -/
def changePanel (p : Panel) (cause item : Nat) (s : State) : State :=
  let old := s.disp.panel
  if old = p then s
  else
    report .panelPower 0 (halves old.code p.code) (halves cause item) (setPanelState p s)

/-- The idle timer expires (R180). -/
def idleExpires (s : State) : State :=
  match s.disp.idleTimer with
  | none => s
  | some _ =>
    let t := s.disp.idleRun
    match s.disp.panel with
    | .awake => loadIdle s.disp.idle2 (changePanel .dim 1 t s)
    | .dim => loadIdle s.disp.idle3 (changePanel .sleep 1 t s)
    | .sleep => stopIdle (changePanel .dark 1 t s)
    | .dark => stopIdle s

/-- A press handed to the display driver (R181). -/
def wakeByPress (b : Nat) (s : State) : State :=
  let s := changePanel .awake 2 b s
  if s.vis.runner.isSome then stopIdle s else loadIdle s.disp.idle1 s

/-! ## The end of a show (R166 to R168) -/

/-- The cool-down of a show starts; 0 starts no timer (R168). A timer that still runs at the end of a run of RUN_SHOW starts
afresh; where the show was reloaded meanwhile with a cool-down of 0 (R157), R168 does not say whether it goes on: the model
starts no timer and lets the old one run (DESIGN CHOICE, log 52). -/
def startCoolDown (sh : Nat) (s : State) : State :=
  match Tbl.find s.vis.shows sh with
  | none => s
  | some w => if w.coolDown = 0 then s else setVisitors (fun v => { v with cool := Tbl.insert v.cool sh (1000 * w.coolDown) }) s

/-- The runner is IDLE: the outcome is kept for the mirror, and the panel's idle time starts (R166, R172, R181). -/
def runnerIdle (sh : Nat) (o : ShowOutcome) (s : State) : State :=
  let s := setVisitors (fun v => { v with runner := none, last := some (sh, o) }) s
  loadIdle s.disp.idle1 { s with work := { s.work with lamps := true, step := none } }

/-- SHOW_ENDED with the reason and the first result word of the failing answer (R171, 12.1). -/
def reportEnded (r : Runner) (o : ShowOutcome) (reason word : Nat) (s : State) : State :=
  report .showEnded r.show_ (halves o.code r.step) (halves reason word) s

/-- The show ends normally (R166). -/
def endShow (r : Runner) (s : State) : State :=
  runnerIdle r.show_ .completed (reportEnded r .completed 0 0 (startCoolDown r.show_ s))

/-- One route of the run route list at an abort: cancelled where it is SETTING, SET or HELD (R167). -/
def abortRoute (route : Nat) (s : State) : State :=
  match entryOf s route with
  | none => s
  | some (_, a) =>
    if a.state = .setting || a.state = .set || a.state = .held then (cancelRoute route true s).1 else s

/-- The show is aborted (R167); for LAYOUT_RESET with no cancels and no report. -/
def abortShow (o : ShowOutcome) (reason word : Nat) (s : State) : State :=
  match s.vis.runner with
  | none => s
  | some r =>
    let s := setRunner none { s with work := { s.work with step := none } }
    let s := if o = .layoutReset then s else removeShowEntries r.show_ (eachDo r.routes abortRoute s)
    let s := startCoolDown r.show_ s
    runnerIdle r.show_ o (if o = .layoutReset then s else reportEnded r o reason word s)

/-! ## Steps (R161 to R165) -/

/-- The runner enters a waiting phase with its step timer; a limit of 0 s starts none. -/
def enterWait (r : Runner) (p : StepPhase) (limit : Nat) (s : State) : State :=
  setRunner (some { r with phase := p, stepTimer := if limit = 0 then none else some (1000 * limit) }) s

/-- The step in hand ends, whatever phase the runner is in. -/
def endStep (e : StepEnd) (s : State) : State :=
  match s.vis.runner with
  | none => s
  | some r => stepEnds r e s

/-- A refusal of the step's request (R162 to R165). -/
def refuseStep (a : Answer) (s : State) : State := endStep (.failure .stepRefused a.result.code a.w0) s

/-- The section state that a WAIT_SECTION condition names (R165). -/
def conditionState (occupied : Bool) : SectionState := if occupied then .occupied else .clear

/-- A WAIT_SECTION step begins (R165). -/
def beginWaitSection (r : Runner) (n : Nat) (occupied : Bool) (limit : Nat) (s : State) : State :=
  match Tbl.find s.occ.recs n with
  | none => refuseStep ⟨.badArgument, 0, 0⟩ s
  | some x =>
    if !x.isPublic then refuseStep ⟨.badArgument, 0, 0⟩ s
    else if secState s n = conditionState occupied then endStep .success s
    else enterWait r .waitSection limit s

/-- The answer to a CANCEL_ROUTE step (R163). -/
def cancelStepEnds (a : Answer) (s : State) : State :=
  if a.result = .ok || a.result = .routeNotActive then endStep .success s else refuseStep a s

/-- A CANCEL_ROUTE step (R163). A step that names a route that is not loaded is refused (R157); that its answer is BAD_ARGUMENT,
which R163 lists and R189 gives for an item that is not loaded, with result word 0, is DEDUCED (log 56). -/
def cancelStep (route : Nat) (s : State) : State :=
  if Tbl.has s.ilk.routes route then
    match cancelRoute route true s with
    | (s, a) => cancelStepEnds a s
  else refuseStep ⟨.badArgument, 0, 0⟩ s

/-- The step at the runner's index begins (R161 to R165). -/
def beginStepOf (r : Runner) (s : State) : State :=
  match currentStep s r with
  | none => s
  | some (.setRoute route limit) =>
    match requestRoute route .visitor true (.show_ r.show_) (enterWait r .waitRoute limit s) with
    | (s, none) => s
    | (s, some a) => refuseStep a s
  | some (.cancelRoute route) => cancelStep route s
  | some (.turn x) =>
    match turnRequest (.show_ r.show_) x.road (if x.deckEnd = .a then 0 else 1) (enterWait r .waitTable 0 s) with
    | (s, none) => s
    | (s, some a) => if a.result = .ok then endStep .success s else refuseStep a s
  | some (.waitSection n occupied limit) => beginWaitSection r n occupied limit s
  | some (.pause time) => enterWait r .pause time s

/-- The number of steps of the runner's show. -/
def stepCount (s : State) (r : Runner) : Nat :=
  match Tbl.find s.vis.shows r.show_ with
  | none => 0
  | some w => w.steps.length

/-- A step has ended: the next begins, the show ends, or it is aborted (R161, R166, R167). -/
def afterStep (e : StepEnd) (s : State) : State :=
  let s := { s with work := { s.work with step := none } }
  match s.vis.runner with
  | none => s
  | some r =>
    match e with
    | .failure o reason word => abortShow o reason word s
    | .success =>
      if r.step + 1 < stepCount s r then
        let r := { r with step := r.step + 1, phase := .none, stepTimer := none }
        beginStepOf r (setRunner (some r) s)
      else endShow r s

/-- The runner goes on until it reaches a step that waits, or the end of the show (R161); at most 12 steps end. -/
def runSteps : Nat → State → State
  | 0, s => s
  | n + 1, s =>
    match s.work.step with
    | none => s
    | some e => runSteps n (afterStep e s)

/-- The runner's turn in a handling. -/
def runVisitor (s : State) : State := runSteps 16 s

/-! ## The queue (R159 to R161) -/

def ShowSource.fields : ShowSource → Nat × Nat
  | .button b => (1, b)
  | .host => (2, 0)

/-- The conditions under which the runner takes the queue head (R161). -/
def mayTakeHead (s : State) : Bool :=
  s.vis.runner.isNone && s.running && s.asp.cond == .running && s.tt.requester != .jog

/-- The runner takes a show (R161). -/
def takeShow (sh : Nat) (src : ShowSource) (rest : List (Nat × ShowSource)) (s : State) : State :=
  let limit := match Tbl.find s.vis.shows sh with
    | some w => w.maxDuration
    | none => 0
  let r : Runner :=
    { show_ := sh, step := 0, phase := .none, stepTimer := none,
      durTimer := if limit = 0 then none else some (1000 * limit), routes := [] }
  let s := setVisitors (fun v => { v with queue := rest, runner := some r }) s
  let s := report .showStarted sh (halves src.fields.1 src.fields.2) rest.length s
  let s := stopIdle (changePanel .awake 3 sh { s with work := { s.work with lamps := true } })
  runVisitor (beginStepOf r s)

/-- The runner tests the queue head: one show at each test (R161). -/
def testHead (s : State) : State :=
  match s.vis.queue with
  | [] => s
  | (sh, src) :: rest => if mayTakeHead s then takeShow sh src rest s else s

/-- A show that ends at once leaves the runner IDLE, which is a cause of the next test (R161); the queue holds at most
8. -/
def testHeads : Nat → State → State
  | 0, s => s
  | n + 1, s => if s.vis.queue.isEmpty || !mayTakeHead s then s else testHeads n (testHead s)

/-- A show joins the tail of the queue (R159). -/
def joinQueue (sh : Nat) (src : ShowSource) (s : State) : State :=
  setVisitors (fun v => { v with queue := v.queue ++ [(sh, src)] }) s

/-! ## Buttons (R154 to R156) -/

/-- The show bound to a button (R154). -/
def boundShow (s : State) (b : Nat) : Option Nat :=
  (s.vis.shows.find? fun x => x.2.button == some b).map Prod.fst

/-- Press outcomes by their codes (12.4). -/
inductive PressOutcome where
  | queued | notRunning | wakeOnly | noShow | suspended | running | queuedAlready | cooling | busy | handed
  deriving DecidableEq, Repr

def PressOutcome.code : PressOutcome → Nat
  | .queued => 1
  | .notRunning => 2
  | .wakeOnly => 3
  | .noShow => 4
  | .suspended => 5
  | .running => 6
  | .queuedAlready => 7
  | .cooling => 8
  | .busy => 9
  | .handed => 10

def isQueued (s : State) (sh : Nat) : Bool := s.vis.queue.any fun x => x.1 == sh

def isRunning (s : State) (sh : Nat) : Bool :=
  match s.vis.runner with
  | some r => r.show_ == sh
  | none => false

/-- The tests of a show button press (R155). -/
def pressOutcome (s : State) (b : Nat) : PressOutcome :=
  if !s.running then .notRunning
  else if s.disp.panel = .dark then .wakeOnly
  else
    match boundShow s b with
    | none => .noShow
    | some sh =>
      if s.vis.suspended then .suspended
      else if isRunning s sh then .running
      else if isQueued s sh then .queuedAlready
      else if Tbl.has s.vis.cool sh then .cooling
      else if s.vis.busy ≤ s.vis.queue.length then .busy
      else .queued

/-- VISITOR_PRESS (R155, R156, log 29). -/
def reportPress (b : Nat) (o : PressOutcome) (sh : Option Nat) (s : State) : State :=
  report .visitorPress b (halves o.code (orNone16 sh)) s.vis.queue.length s

/-- A press of a show button (R155). -/
def showPress (b : Nat) (s : State) : State :=
  let o := pressOutcome s b
  let sh := boundShow s b
  let s := match o, sh with
    | .queued, some n => joinQueue n (.button b) s
    | _, _ => s
  wakeByPress b (reportPress b o sh s)

/-- The tests of a jog press (R156). -/
def jogOutcome (s : State) : PressOutcome :=
  if !s.running then .notRunning
  else if s.disp.panel = .dark then .wakeOnly
  else if s.vis.suspended then .suspended
  else .handed

/-- A press of a jog button: 16 is CW, 17 ACW (R156). -/
def jogButtonPress (b : Nat) (s : State) : State :=
  let o := jogOutcome s
  let s := wakeByPress b (reportPress b o none s)
  if o = .handed then jogPress (b = 16) s else s

/-- A change of a button's reported level. -/
def buttonChanged (b : Nat) (pressed : Bool) (s : State) : State :=
  if pressed then (if b < 16 then showPress b s else jogButtonPress b s)
  else if b < 16 then s
  else jogButtonReleased (b = 16) s

/-- The window of a button filter and of the STOP pin (R114, R154). -/
def buttonWindow : Nat := 20

/-- One sample of a button (R154). -/
def buttonSampled (b : Nat) (pressed : Bool) (s : State) : State :=
  let f := Tbl.getD s.vis.filters b Filter.init
  let g := f.sample buttonWindow pressed
  let s := { s with vis := { s.vis with filters := Tbl.put Filter.init s.vis.filters b g } }
  if g.level = f.level then s else buttonChanged b g.level s

/-! ## Timers -/

/-- The step timer expires (R162, R165). -/
def stepTimerExpires (s : State) : State :=
  match s.vis.runner with
  | none => s
  | some r =>
    match r.stepTimer with
    | none => s
    | some _ => stepEnds r (if r.phase = .pause then .success else .failure .waitLimit 0 0) s

/-- The duration timer expires (R166, R167). -/
def durationExpires (s : State) : State :=
  match s.vis.runner.bind Runner.durTimer with
  | none => s
  | some _ => abortShow .maxDuration 0 0 s

/-- A cool-down timer expires (R168). -/
def coolDownExpires (sh : Nat) (s : State) : State :=
  if Tbl.has s.vis.cool sh then setVisitors (fun v => { v with cool := Tbl.erase v.cool sh }) s else s

/-- A change of a section, handed to a WAIT_SECTION step (R165). -/
def visitorSection (n : Nat) (new : SectionState) (s : State) : State :=
  match s.vis.runner with
  | none => s
  | some r =>
    match r.phase, currentStep s r with
    | .waitSection, some (.waitSection m occupied _) =>
      if m = n && new = conditionState occupied then stepEnds r .success s else s
    | _, _ => s

/-! ## Requests (R160, R169) -/

/-- RUN_SHOW in slot n (R160). -/
def runShow (n sh : Nat) (s : State) : State :=
  if !(sh < 32 && Tbl.has s.vis.shows sh) then complete n .badArgument 0 0 s
  else if s.vis.suspended then complete n .visitorBarred 0 0 s
  else if isQueued s sh then complete n .showBusy 0 1 s
  else if isRunning s sh then complete n .showBusy 0 2 s
  else if Config.visitorQueue ≤ s.vis.queue.length then complete n .queueFull 0 0 s
  else complete n .ok s.vis.queue.length (s.vis.queue.length + 1) (joinQueue sh .host s)

/-- VISITOR_SUSPEND in slot n (R169, log 25). -/
def suspendVisitors (n : Nat) (s : State) : State :=
  if s.vis.suspended then complete n .ok 0 0 s
  else
    let aborted := s.vis.runner.map Runner.show_
    let removed := s.vis.queue.length
    let s := abortShow .suspended 0 0 (setVisitors (fun v => { v with suspended := true }) s)
    complete n .ok removed (orNone16 aborted) (setVisitors (fun v => { v with queue := [] }) s)

/-- VISITOR_RESUME in slot n (R169). -/
def resumeVisitors (n : Nat) (s : State) : State :=
  complete n .ok (bit s.vis.suspended 0) 0 (setVisitors (fun v => { v with suspended := false }) s)

end Sys2Proof.Machine
end

