-- ==== Sys2Proof/Machine/Signals.lean ====
section
/-! DEFINITION. The aspect unit (chapter 6): aspects (R109 to R111), overruns (R112, R113), ALL STOP and RESUME (R115 to
R118), the STOP pin (R114). -/

namespace Sys2Proof.Machine

/-! ## Aspects -/

/-- The SET route that begins at a signal (R109). -/
def setRouteAt (s : State) (x : Nat) : Option RouteRec :=
  match entryAt s x with
  | none => none
  | some (_, a) => if a.state = .set then Tbl.find s.ilk.routes a.route else none

/-- The aspect of a signal that is not a DISTANT (R109). -/
def mainAspect (s : State) (x : Nat) (k : SignalKind) : Aspect :=
  if s.asp.cond = .allStop then .danger
  else
    match setRouteAt s x with
    | none => .danger
    | some r =>
      match r.cls with
      | .shunt => .shuntOff
      | .callOn => .callOn
      | .main =>
        if k = .twoAspect then .proceed
        else
          match r.exit.bind (setRouteAt s) with
          | some q => if q.cls = .main then .proceed else .caution
          | none => .caution

/-- The aspect of a loaded signal (R109, R110). -/
def aspectOf (s : State) (x : Nat) (r : SignalRec) : Aspect :=
  if r.kind = .distant then
    match r.home with
    | none => .caution
    | some h =>
      match Tbl.find s.asp.recs h with
      | none => .caution
      | some q => if q.kind != .distant && mainAspect s h q.kind == .proceed then .proceed else .caution
  else mainAspect s x r.kind

/-- The aspect outside RUNNING and at START (R107, R120). -/
def restAspect (r : SignalRec) : Aspect := if r.kind = .distant then .caution else .danger

/-- The state of a loaded signal set. -/
def setSignal (x : Nat) (f : SignalState → SignalState) (s : State) : State :=
  { s with asp := { s.asp with state := Tbl.modify s.asp.state x f }, work := { s.work with lamps := true } }

/-- One signal of a recomputation: a changed aspect is taken, mirrored and reported (R111). -/
def recomputeOne (x : Nat) (s : State) : State :=
  match Tbl.find s.asp.recs x, Tbl.find s.asp.state x with
  | some r, some st =>
    let a := aspectOf s x r
    if a = st.aspect then s
    else
      let s := mirrorSignal x (setSignal x (fun st => { st with aspect := a }) s)
      report .signalAspect x (halves st.aspect.code a.code) (orNone16 ((entryAt s x).map fun e => e.2.route)) s
  | _, _ => s

/-- The recomputation at the end of a handling in which it was asked for, in ascending signal order (R111). -/
def recomputeAspects (s : State) : State :=
  if s.work.aspects && s.running then
    eachDo (Tbl.keys s.asp.recs) recomputeOne { s with work := { s.work with aspects := false } }
  else { s with work := { s.work with aspects := false } }

/-! ## ALL STOP and RESUME -/

/-- LAYOUT_STATE (R115, R117, R193, R194): the states as they stand, a cause code and its item. -/
def reportLayout (cause item : Nat) (s : State) : State :=
  report .layoutState 0 (halves s.exch.runState.code s.asp.cond.code) (halves cause item) s

/-- The signal of an OVERRUN cause, 0 for any other (12.1). -/
def causeItem (c : Option StopCause) : Nat := (stopCauseSignal c).getD 0

/-- Entry into ALL STOP (R115). The runner has its turn before the visitor unit is handed the entry (log 13). -/
def enterAllStop (c : StopCause) (s : State) : State :=
  if s.asp.cond = .allStop then s
  else
    let s := setPower false (setRunCondition .allStop (some c) s)
    let s := reportLayout (stopCauseCode (some c)) (causeItem (some c)) s
    let s := deckAllStop (routesAllStop s)
    let s := abortShow .allStop 0 0 (runVisitor s)
    wantAspects (evalStop s)

/-- ALL_STOP in slot n (R116). -/
def allStopRequest (n : Nat) (s : State) : State :=
  let found := s.asp.cond
  complete n .ok found.code 0 (enterAllStop .request s)

/-- The layout resumes (R117); its dispatcher pass follows the handling (R95, log 11). -/
def resumeLayout (s : State) : State :=
  let held := s.asp.cause
  let s := setPower true (setRunCondition .running none s)
  let s := reportLayout (stopCauseCode held) (causeItem held) s
  let s := updateFeed (wantPass (routesResume s))
  wantAspects (evalStop s)

/-- RESUME in slot n (R117). -/
def resumeRequest (n : Nat) (s : State) : State :=
  if s.asp.stopFilter.level then complete n .stopPinActive 0 0 s
  else
    match s.asp.cond with
    | .running => complete n .ok RunCondition.running.code 0 s
    | .allStop => complete n .ok RunCondition.allStop.code 0 (resumeLayout s)

/-- One sample of the STOP pin (R114). -/
def stopPinSampled (active : Bool) (s : State) : State :=
  let f := s.asp.stopFilter
  let g := f.sample buttonWindow active
  let s := { s with asp := { s.asp with stopFilter := g } }
  if g.level = f.level then s
  else
    let s := s.write8 0x1C (bit g.level 0)
    if g.level && s.running then enterAllStop .pin s else s

/-! ## Overrun (R112, R113) -/

/-- The entry that the interlocking handed for signal X with a state left in which X was at DANGER. -/
def entryNote (notes : List EntryNote) (x : Nat) : Option EntryNote :=
  notes.find? fun e => e.signal == x && (e.left == .setting || e.left == .held || e.left == .approachLocked)

/-- Signal X has been overrun by an arrival at S; the stored aspect is the one of the start of the handling (R112). -/
def isOverrun (n : Nat) (arr : Arrival) (notes : List EntryNote) (s : State) (x : Nat) : Bool :=
  match Tbl.find s.asp.recs x, Tbl.find s.asp.state x with
  | some r, some _ =>
    r.kind != .distant && r.protect == some n && outputAspect s x == .danger
      && ((entryNote notes x).isSome || (match r.approach with
            | some a => arr.sources.contains a
            | none => false))
  | _, _ => false

/-- One overrun signal: its count, its mirror word and SIGNAL_OVERRUN (R113). -/
def overrunOne (n : Nat) (arr : Arrival) (notes : List EntryNote) (x : Nat) (s : State) : State :=
  let s := mirrorSignal x (setSignal x (fun st => { st with overruns := min 255 (st.overruns + 1) }) s)
  let w := match entryNote notes x with
    | some e => halves e.route e.left.code
    | none => halves (orNone16 none) 0
  report .signalOverrun x (halves n (orNone16 arr.tag)) w s

/-- The overrun test of an arrival and the response (R112, R113). -/
def overrunTest (n : Nat) (arr : Option Arrival) (notes : List EntryNote) (s : State) : State :=
  match arr with
  | none => s
  | some a =>
    match (Tbl.keys s.asp.recs).filter (isOverrun n a notes s) with
    | [] => s
    | x :: more =>
      let s := eachDo (x :: more) (overrunOne n a notes) s
      if s.asp.response = .allStop then enterAllStop (.overrun x) s else s

end Sys2Proof.Machine
end

