-- ==== Sys2Proof/Machine/Tags.lean ====
section
/-! DEFINITION. The train tag unit (chapter 2): arrivals (R27 to R32), departures (R33), the lost-hold timer (R34). -/

namespace Sys2Proof.Machine

/-- A tag record set, with its mirror word (R26); a FREE tag with nothing kept is not listed (R38). -/
def setTag (t : Nat) (v : Tag) (s : State) : State :=
  mirrorTag t { s with tags := { s.tags with table := Tbl.put Tag.init s.tags.table t v } }

/-- A section's tag field set, with the section's mirror word; the lamps are settled at the end (R26, R175). -/
def setTagField (n : Nat) (t : Option Nat) (s : State) : State :=
  let f := match t with
    | none => Tbl.erase s.tags.fields n
    | some k => Tbl.insert s.tags.fields n k
  mirrorSection n { s with tags := { s.tags with fields := f }, work := { s.work with lamps := true } }

/-- Section S takes tag T: S joins the holder list and becomes the head section, the tag word before the section
word (R26, R27). -/
def takeTag (n t : Nat) (s : State) : State :=
  let r := tagRec s t
  setTagField n (some t)
    (setTag t { r with state := .active, holders := r.holders ++ [n], last := none, timer := none } s)

/-- The route candidate of R28: the section before S in the sequence of the RUNNING route that locks S, where its tag
field holds the route's recorded tag. -/
def routeCandidate (s : State) (n : Nat) : Option (Nat × Nat) :=
  match (lockOf s n).bind (entryOf s) with
  | none => none
  | some (_, a) =>
    match a.state, Tbl.find s.ilk.routes a.route, a.tag with
    | .running, some r, some t =>
      match (sequence r).idxOf n with
      | 0 => none
      | k + 1 =>
        match (sequence r)[k]? with
        | none => none
        | some c => if k + 1 < (sequence r).length && tagOf s c == some t then some (t, c) else none
    | _, _, _ => none

/-- A neighbour entry qualifies: its section is OCCUPIED or UNCERTAIN and holds a tag, and its condition is absent or
met (R29). -/
def qualifies (s : State) (b : Neighbour) : Bool :=
  (secState s b.sec == .occupied || secState s b.sec == .uncertain) && (tagOf s b.sec).isSome && condMet s b.cond

/-- A number joins a rising list without repeats. -/
def addRising (x : Nat) : List Nat → List Nat
  | [] => [x]
  | y :: l => if x < y then x :: y :: l else if x = y then y :: l else y :: addRising x l

/-- The distinct tags gathered from qualifying entries, rising (R29). -/
def gathered (s : State) (l : List Neighbour) : List Nat :=
  ((l.filter (qualifies s)).filterMap fun b => tagOf s b.sec).foldl (fun acc t => addRising t acc) []

/-- The lowest LOST tag whose last section is S or a neighbour whose condition is absent or met (R31). -/
def reclaimable (s : State) (n : Nat) (l : List Neighbour) : Option Nat :=
  let secs := n :: (l.filter fun b => condMet s b.cond).map Neighbour.sec
  (s.tags.table.find? fun e =>
    e.2.state == .lost && (match e.2.last with
      | some x => secs.contains x
      | none => false)).map Prod.fst

/-- The lowest FREE tag (R32). -/
def freeTag (s : State) : Option Nat := (List.range Config.numTags).find? fun t => (tagRec s t).state == .free

/-- The number of LOST tags (R32). -/
def lostCount (s : State) : Nat := (s.tags.table.filter fun e => e.2.state == .lost).length

/-- Rules 4 and 5 of an arrival: reclaim (R31), then allocation or exhaustion (R32). -/
def reclaimOrAllocate (n : Nat) (l : List Neighbour) (s : State) : State × Arrival :=
  match reclaimable s n l with
  | some t =>
    let label := (tagRec s t).label
    (report .tagReclaimed t n label (takeTag n t s), { tag := some t, rule := some .reclaim, sources := [] })
  | none =>
    match freeTag s with
    | some t =>
      (report .tagNew t n 0 (takeTag n t (setTag t Tag.init s)), { tag := some t, rule := some .new, sources := [] })
    | none => (report .tagExhausted n (lostCount s) 0 s, { tag := none, rule := none, sources := [] })

/-- The arrival search: the first of the five rules that gives an answer ends it (2.3). For NEIGHBOUR the sections handed
on are those of the entries that qualify (R27, R29; log 43). -/
def arrive (n : Nat) (s : State) : State × Arrival :=
  let l := match Tbl.find s.occ.recs n with
    | some r => r.neighbours
    | none => []
  match routeCandidate s n with
  | some (t, c) => (takeTag n t s, { tag := some t, rule := some .route, sources := [c] })
  | none =>
    match gathered s l with
    | [] => reclaimOrAllocate n l s
    | [t] =>
      (takeTag n t s,
        { tag := some t, rule := some .neighbour, sources := (l.filter (qualifies s)).map Neighbour.sec })
    | t :: u :: more =>
      (report .tagAmbiguous n (2 + more.length) (halves t u) s, { tag := none, rule := none, sources := [] })

/-- A LOST tag becomes FREE with TAG_FREED (R34). -/
def freeLostTag (t : Nat) (s : State) : State :=
  let r := tagRec s t
  report .tagFreed t (r.last.getD 0) r.label (setTag t Tag.init s)

/-- Departure: S loses its tag, which becomes LOST when no section holds it (R33); a lost-hold time of 0 frees it in
the same handling (R34). -/
def depart (n : Nat) (s : State) : State :=
  match tagOf s n with
  | none => s
  | some t =>
    let r := tagRec s t
    let rest := r.holders.erase n
    if rest = [] then
      let v := { r with state := .lost, holders := [], last := some n, timer := some s.tags.lostHold }
      let s := report .tagLost t n r.label (setTagField n none (setTag t v s))
      if s.tags.lostHold = 0 then freeLostTag t s else s
    else setTagField n none (setTag t { r with holders := rest } s)

/-- What a section change means to the tag unit: an arrival (R27), a departure (R33), or neither. -/
def tagSectionChange (n : Nat) (old new : SectionState) (s : State) : State × Option Arrival :=
  match new with
  | .occupied =>
    if old = .occupied then (s, none)
    else
      let (s, a) := arrive n s
      (s, some a)
  | .clear | .sweeping | .disabled => (depart n s, none)
  | .uncertain => (s, none)

end Sys2Proof.Machine
end

