-- ==== Sys2Proof/Machine/Sections.lean ====
section
/-! DEFINITION. The occupancy unit (chapter 1): detector filters, axle heads, occupancy states, the discrepancy check,
the handing-on of a change (R15), and the section requests; with LABEL_TAG (R36) and the lost-hold timer (R34). -/

namespace Sys2Proof.Machine

/-! ## Derivation and the discrepancy check -/

/-- The state that the sources give (R11). -/
def derivedState (r : SectionRec) (level : Bool) (count : Nat) : SectionState :=
  match r.detection with
  | .current => if level then .occupied else .clear
  | .axle => if 0 < count then .occupied else .clear
  | .both => if level || decide (0 < count) then .occupied else .clear

/-- The derivation, made while a section is CLEAR or OCCUPIED (R11). -/
def derive (r : SectionRec) (level : Bool) (o : Occupancy) : Occupancy :=
  match o.state with
  | .clear | .occupied => { o with state := derivedState r level o.count }
  | .uncertain | .sweeping | .disabled => o

/-- The discrepancy check runs (R14). -/
def checked (r : SectionRec) (o : Occupancy) : Bool :=
  r.detection == .both && r.discrepancy != 0 && (o.state == .clear || o.state == .occupied)

/-- The sources disagree (R14). -/
def disagrees (level : Bool) (o : Occupancy) : Bool := level != decide (0 < o.count)

/-- The discrepancy timer and flag after a change of level, count or state (R14). -/
def updateDiscrepancy (r : SectionRec) (level : Bool) (o : Occupancy) : Occupancy :=
  if checked r o && disagrees level o then
    if o.discTimer.isSome || o.discFlag then o else { o with discTimer := some r.discrepancy }
  else { o with discTimer := none, discFlag := false }

/-! ## A change of state, handed on (R15) -/

/-- The causes of re-examination and of a dispatcher pass that a section change is (R54, R95). -/
def sectionWork (old new : SectionState) (w : Work) : Work :=
  { w with lamps := true, reexam := w.reexam || new == .clear || (old == .sweeping && new == .occupied),
           pass := w.pass || new == .clear }

/-- A change of occupancy state, already stored: mirror, SECTION_CHANGED, and the blocks in the order of R15. -/
def sectionChanged (n : Nat) (old : SectionState) (s : State) : State :=
  let new := secState s n
  let s := report .sectionChanged n (halves old.code new.code) (halves (occOf s n).count 0) (mirrorSection n s)
  let s := { s with work := sectionWork old new s.work }
  let (s, arr) := tagSectionChange n old new s
  let (s, notes) := routesSectionChange n new (arr.bind Arrival.tag) s
  let s := overrunTest n arr notes (runVisitor s)
  let s := if old = .clear then deckSectionLeft n s else s
  visitorSection n new s

/-- The occupancy of a loaded section changed, with the discrepancy check and what follows from the change. -/
def updateSection (n : Nat) (f : Occupancy → Occupancy) (s : State) : State :=
  match Tbl.find s.occ.recs n, Tbl.find s.occ.secs n with
  | some r, some o =>
    let p := updateDiscrepancy r (detLevel s r) (f o)
    let s := { s with occ := { s.occ with secs := Tbl.insert s.occ.secs n p } }
    if p.state = o.state then mirrorSection n s else sectionChanged n o.state s
  | _, _ => s

/-! ## Detectors (R3, R4) -/

/-- The lowest-numbered section that names a detector input (R4, log 16). -/
def sectionOfInput (s : State) (i : Nat) : Option (Nat × SectionRec) :=
  s.occ.recs.find? fun x => x.2.input == some i

/-- The time for a change of an input to a level (R4). -/
def inputTime (s : State) (i : Nat) (x : Bool) : Nat :=
  match sectionOfInput s i with
  | none => 0
  | some (_, r) => if x then r.pickUp else r.dropOut

/-- One sample of a detector input (R3, R4, R11). -/
def detectorSampled (i : Nat) (x : Bool) (s : State) : State :=
  let f := Tbl.getD s.occ.filters i Filter.init
  let g := f.sample (inputTime s i x) x
  let s := { s with occ := { s.occ with filters := Tbl.put Filter.init s.occ.filters i g } }
  if g.level = f.level || !s.running then s
  else
    match sectionOfInput s i with
    | none => s
    | some (n, r) => updateSection n (derive r g.level) s

/-! ## Axle counts (R9, R10, R13) -/

/-- An increment (R10, R13). -/
def increment (r : SectionRec) (level : Bool) (o : Occupancy) : Occupancy :=
  match o.state with
  | .disabled => o
  | .sweeping => { o with count := o.count + 1, state := derivedState r level (o.count + 1) }
  | .clear | .occupied | .uncertain =>
    if o.count < 255 then derive r level { o with count := o.count + 1 } else { o with state := .uncertain }

/-- A decrement (R10, R13). -/
def decrement (r : SectionRec) (level : Bool) (o : Occupancy) : Occupancy :=
  match o.state with
  | .disabled => o
  | .clear | .occupied | .uncertain | .sweeping =>
    if 0 < o.count then derive r level { o with count := o.count - 1 } else { o with state := .uncertain }

/-- An axle into or out of a side section (R9). -/
def axleIn (side : Option Nat) (s : State) : State :=
  match side with
  | none => s
  | some n =>
    match Tbl.find s.occ.recs n with
    | none => s
    | some r => updateSection n (increment r (detLevel s r)) s

def axleOut (side : Option Nat) (s : State) : State :=
  match side with
  | none => s
  | some n =>
    match Tbl.find s.occ.recs n with
    | none => s
    | some r => updateSection n (decrement r (detLevel s r)) s

/-! ## Axle heads (R6 to R9) -/

/-- Passage recognition: the next phase, and the passage completed, true for A→B (R7). A pair that the table does not
list for the phase leaves it. -/
def recognise : Phase → Bool × Bool → Phase × Option Bool
  | .idle, (true, false) => (.aEntered, none)
  | .idle, (false, true) => (.bEntered, none)
  | .aEntered, (true, true) => (.aCentre, none)
  | .aEntered, (false, false) => (.idle, none)
  | .aCentre, (false, true) => (.aLeaving, none)
  | .aCentre, (true, false) => (.aEntered, none)
  | .aLeaving, (false, false) => (.idle, some true)
  | .aLeaving, (true, true) => (.aCentre, none)
  | .bEntered, (true, true) => (.bCentre, none)
  | .bEntered, (false, false) => (.idle, none)
  | .bCentre, (true, false) => (.bLeaving, none)
  | .bCentre, (false, true) => (.bEntered, none)
  | .bLeaving, (false, false) => (.idle, some false)
  | .bLeaving, (true, true) => (.bCentre, none)
  | .waitIdle, (false, false) => (.idle, none)
  | p, _ => (p, none)

/-- The pair as A-side and B-side channels (R6). -/
def sidePair (h : Head) (p : Bool × Bool) : Bool × Bool := if h.invert then (p.2, p.1) else p

/-- A pair in a report: the A-side channel in the lower bit (12.1). -/
def pairCode (p : Bool × Bool) : Nat := bit p.1 0 + bit p.2 1

/-- A head's record and state set. -/
def setHead (k : Nat) (h : Head) (s : State) : State :=
  { s with occ := { s.occ with heads := Tbl.insert s.occ.heads k h } }

/-- A section made UNCERTAIN by a sequence error, unless DISABLED (R8). -/
def doubt (side : Option Nat) (s : State) : State :=
  match side with
  | none => s
  | some n => updateSection n (fun o => if o.state = .disabled then o else { o with state := .uncertain }) s

/-- A sequence error (R8). -/
def sequenceError (k : Nat) (h : Head) (old new : Bool × Bool) (s : State) : State :=
  let s := setHead k { h with phase := .waitIdle, suspect := true } s
  let s := if h.suspect then s
    else report .headSuspect k (halves 2 0) (pairCode old + 4 * pairCode new) s
  if s.running then doubt h.bSide (doubt h.aSide s) else s

/-- A completed passage: its total and the head's mirror word, then one axle between the side sections in RUNNING,
A side first (R9, R15, log 14). -/
def passage (k : Nat) (h : Head) (ab : Bool) (s : State) : State :=
  let h := if ab then { h with totalAB := (h.totalAB + 1) % 65536 } else { h with totalBA := (h.totalBA + 1) % 65536 }
  let s := mirrorHead k (setHead k h s)
  if !s.running then s
  else if ab then axleIn h.bSide (axleOut h.aSide s)
  else axleOut h.bSide (axleIn h.aSide s)

/-- One fast sample pair of a loaded head. -/
def headPair (k : Nat) (h : Head) (old new : Bool × Bool) (s : State) : State :=
  if old.1 != new.1 && old.2 != new.2 then sequenceError k h old new s
  else if old = new then s
  else
    match recognise h.phase new with
    | (p, none) => setHead k { h with phase := p } s
    | (p, some ab) => passage k { h with phase := p } ab s

/-- One fast sample pair of a head's channels (R6, R7). -/
def headSampled (k : Nat) (pair : Bool × Bool) (s : State) : State :=
  let old := Tbl.getD s.occ.pairs k (false, false)
  let s := { s with occ := { s.occ with pairs := Tbl.put (false, false) s.occ.pairs k pair } }
  match Tbl.find s.occ.heads k with
  | none => s
  | some h => headPair k h (sidePair h old) (sidePair h pair) s

/-! ## Timers -/

/-- A discrepancy timer expires (R14). -/
def discrepancyExpires (n : Nat) (s : State) : State :=
  match Tbl.find s.occ.recs n, Tbl.find s.occ.secs n with
  | some r, some o =>
    match o.discTimer with
    | none => s
    | some _ =>
      let s := { s with occ := { s.occ with secs := Tbl.insert s.occ.secs n { o with discTimer := none, discFlag := true } } }
      report .detectionDisagrees n (halves (bit (detLevel s r) 0) 0) (halves o.count 0) (mirrorSection n s)
  | _, _ => s

/-- A tag's lost-hold timer expires (R34). -/
def lostHoldExpires (t : Nat) (s : State) : State :=
  let r := tagRec s t
  if r.state = .lost && r.timer.isSome then freeLostTag t s else s

/-! ## Requests (R16 to R18, R36) -/

/-- A loaded section by its argument. -/
def loadedSection (s : State) (n : Nat) : Option SectionRec := if n < 256 then Tbl.find s.occ.recs n else none

/-- The heads that name a section as a side. -/
def boundingHeads (s : State) (n : Nat) : List (Nat × Head) :=
  s.occ.heads.filter fun x => x.2.aSide == some n || x.2.bSide == some n

/-- Any bounding head is SUSPECT. -/
def boundSuspect (s : State) (n : Nat) : Bool := (boundingHeads s n).any fun x => x.2.suspect

/-- DISABLE_SECTION in slot k (R16). -/
def disableSection (k n : Nat) (s : State) : State :=
  match loadedSection s n with
  | none => complete k .badArgument 0 0 s
  | some _ =>
    if (lockOf s n).isSome then complete k .sectionLocked 0 0 s
    else complete k .ok 0 0 (updateSection n (fun o =>
      if o.state = .disabled then o else { o with state := .disabled, count := 0 }) s)

/-- The state taken afresh at ENABLE_SECTION and START (R17, R21). -/
def freshState (s : State) (n : Nat) (r : SectionRec) : SectionState :=
  match r.detection with
  | .current => if detLevel s r then .occupied else .clear
  | .axle | .both => if boundSuspect s n then .uncertain else .sweeping

/-- ENABLE_SECTION in slot k (R17). -/
def enableSection (k n : Nat) (s : State) : State :=
  match loadedSection s n with
  | none => complete k .badArgument 0 0 s
  | some r =>
    let new := freshState s n r
    complete k .ok 0 0 (updateSection n (fun o =>
      if o.state = .disabled then { o with state := new, count := 0 } else o) s)

/-- A SUSPECT head returns to NORMAL (R18). -/
def headNormal (k : Nat) (s : State) : State :=
  match Tbl.find s.occ.heads k with
  | none => s
  | some h => if h.suspect then report .headSuspect k (halves 1 0) 0 (setHead k { h with suspect := false } s) else s

/-- RESET_SECTION in slot k (R18). R18 gives no order among several heads that return to NORMAL: the model takes them, and makes
their HEAD_SUSPECT reports, in ascending head number (DESIGN CHOICE, log 47). -/
def resetSection (k n : Nat) (s : State) : State :=
  match loadedSection s n with
  | none => complete k .badArgument 0 0 s
  | some r =>
    if r.detection = .current then complete k .badArgument 0 0 s
    else
      match secState s n with
      | .disabled => complete k .sectionDisabled 0 0 s
      | .clear | .sweeping => complete k .wrongSectionState 0 0 s
      | .uncertain | .occupied =>
        if (lockOf s n).isSome then complete k .sectionLocked 0 0 s
        else
          let s := updateSection n (fun o => { o with state := .sweeping, count := 0 }) s
          complete k .ok 0 0 (eachDo ((boundingHeads s n).map Prod.fst) headNormal s)

/-- LABEL_TAG in slot k (R36); a number out of range is answered before a FREE tag (log 54). -/
def labelTag (k t label : Nat) (s : State) : State :=
  if 63 < t || 255 < label then complete k .badArgument 0 0 s
  else
    let r := tagRec s t
    if r.state = .free then complete k .tagNotInUse 0 0 s
    else complete k .ok 0 0 (setTag t { r with label := label } s)

end Sys2Proof.Machine
end

