-- ==== Sys2Proof/Machine/Display.lean ====
section
/-! DEFINITION. The display driver (chapter 10) and the modes of the button lamps (R170): conditions, shown modes, levels
and the flash count. -/

namespace Sys2Proof.Machine

/-- A lamp's condition holds; an item that is not loaded gives a condition that does not hold (R174, R175). -/
def lampCondition (s : State) : LampSource → Bool
  | .none => false
  | .sectionOccupied n => Tbl.has s.occ.recs n && (secState s n == .occupied || secState s n == .uncertain)
  | .sectionRouted n => (lockOf s n).isSome
  | .signalAspect x a =>
    match Tbl.find s.asp.state x with
    | some st => st.aspect == a
    | none => false
  | .pointLie p l =>
    match Tbl.find s.pts.state p with
    | some st => st.lie == l
    | none => false
  | .tableAtRoad x => s.tt.state == .aligned && s.tt.align == some x
  | .showRunning n => isRunning s n
  | .tagPresent n => (tagOf s n).isSome

/-- The shown mode that a binding gives (R176). -/
def lampMode (s : State) (l : Lamp) : Mode :=
  if !s.running then .off else if lampCondition s l.source then l.onMode else l.offMode

/-- A lamp's shown mode settled; its mirror word is written where it changed (R176, R177). -/
def settleOne (i : Nat) (s : State) : State :=
  match Tbl.find s.disp.bind i with
  | none => s
  | some l =>
    let m := lampMode s l
    if m = Tbl.getD s.disp.shown i .off then s
    else mirrorLampWord (i / 16) { s with disp := { s.disp with shown := Tbl.put .off s.disp.shown i m } }

/-- The shown modes settled at the end of a handling (R175, R176). -/
def settleLamps (s : State) : State :=
  if s.work.lamps then eachDo (Tbl.keys s.disp.bind) settleOne { s with work := { s.work with lamps := false } } else s

/-- The mode of a show button's lamp (R170). -/
def showLampMode (s : State) (b : Nat) : Mode :=
  if !s.running || s.disp.panel == .dark then .off
  else
    match boundShow s b with
    | none => .off
    | some sh =>
      if isRunning s sh then .fastFlash
      else if isQueued s sh then .slowFlash
      else if Tbl.has s.vis.cool sh || s.vis.suspended || decide (s.vis.busy ≤ s.vis.queue.length) then .off
      else .steady

/-- The mode of both jog button lamps (R170). -/
def jogLampMode (s : State) : Mode :=
  if !s.running || s.disp.panel == .dark then .off
  else if s.tt.requester = .jog then .fastFlash
  else if s.tt.jogPermitted && s.asp.cond == .running && !s.vis.suspended && s.vis.runner.isNone
      && (s.tt.state == .aligned || s.tt.state == .halted) && s.tt.requester == .none then .steady
  else .off

/-- The mode of button lamp b: 16 and 17 are CW and ACW (R170). -/
def buttonLampMode (s : State) (b : Nat) : Mode := if b < 16 then showLampMode s b else jogLampMode s

/-- One button lamp worked out afresh. -/
def settleButton (b : Nat) (s : State) : State :=
  { s with vis := { s.vis with lamps := Tbl.put .off s.vis.lamps b (buttonLampMode s b) } }

/-- The button lamps worked out afresh (R170). -/
def settleButtons (s : State) : State := eachDo (List.range 18) settleButton s

/-- A visitor mirror word written where any of its fields differs from what it was before the handling (R172). -/
def settleVisitorWord (before : State) (k : Nat) (s : State) : State :=
  if visitorWord before k = visitorWord s k then s else mirrorVisitorWord k s

/-- The button lamps and the visitor mirror at the end of a handling that began at `before` (R170, R172). -/
def settleVisitors (before s : State) : State := eachDo (List.range 10) (settleVisitorWord before) (settleButtons s)

/-- A mode is in its lit half at a flash count (R178). -/
def lit (flash : Nat) : Mode → Bool
  | .off => false
  | .steady => true
  | .slowFlash => decide (flash < 500)
  | .fastFlash => decide (flash % 250 < 125)

/-- The level of a lamp (R179). -/
def lampLevel (s : State) (m : Mode) : Nat := if lit s.disp.flash m then s.disp.panel.level else 0

/-- The levels of the output image, as the modes, the flash count and the panel give them; levels of 0 are not listed
(R179). -/
def refreshLevels (s : State) : State :=
  let mimic := s.disp.shown.map fun x => (x.1, lampLevel s x.2)
  let buttons := s.vis.lamps.map fun x => (384 + x.1, lampLevel s x.2)
  { s with disp := { s.disp with levels := (mimic ++ buttons).filter fun x => x.2 != 0 } }

/-- The flash count moved on by one; where it crosses into or out of a lit half the levels follow (R178, R179). -/
def tickFlash (s : State) : State :=
  let n := (s.disp.flash + 1) % 1000
  let s := { s with disp := { s.disp with flash := n } }
  if n % 125 = 0 then refreshLevels s else s

end Sys2Proof.Machine
end

