-- ==== Sys2Proof/Machine/Finish.lean ====
section
/-! DEFINITION. The end of a handling (convention 13, log 11): the show runner's turns, the aspects, the lamps, the
visitor mirror and the STOP cause; then the dispatcher pass (R95) and the stack re-examination (R54) that follow it. -/

namespace Sys2Proof.Machine

/-- What the blocks do at the end of a handling that began at `before`, in order. -/
def endHandling (before s : State) : State :=
  let s := testHeads 16 (runVisitor s)
  evalStop (refreshLevels (settleVisitors before (settleLamps (recomputeAspects s))))

/-- What follows a handling: a dispatcher pass, then a re-examination, each with an end of its own, until neither is
asked for (log 11, which names R117's other order; the bound is log 12). -/
def afterWork : Nat → State → State
  | 0, s => s
  | n + 1, s =>
    if s.work.pass then
      afterWork n (endHandling s (dispatcherPass { s with work := { s.work with pass := false } }))
    else if s.work.reexam then afterWork n (endHandling s (reexamine s))
    else s

/-- The end of a handling that began at `before`, and what follows it; no work stays in hand. -/
def finish (before s : State) : State := { afterWork 4096 (endHandling before s) with work := Work.none }

end Sys2Proof.Machine
end

