-- ==== Sys2Proof/Machine/Records.lean ====
section
/-! DEFINITION. The records of the data area (R200): their lengths, their fields with presence marks and defaults, and
the tests by which a record is refused with INVALID_RECORD (R1, R23, R39, R40, R88, R107, R121, R122, R157, R174). Each
reader takes the record's offset; a byte is read at that offset plus its place in the record. -/

namespace Sys2Proof.Machine

/-- A flag byte: 0 or 1, anything else is refused (log 21). -/
def flagOf : Nat → Option Bool
  | 0 => some false
  | 1 => some true
  | _ => none

/-- A number that must not be above a bound. -/
def upTo (bound n : Nat) : Option Nat := if n ≤ bound then some n else none

/-- A number within a range. -/
def within (low high n : Nat) : Option Nat := if low ≤ n && n ≤ high then some n else none

/-- A presence mark of a marks byte. -/
def mark (marks k : Nat) : Bool := bitsOf marks k 1 == 1

/-- A field read where its mark is set (R200). -/
def marked (marks k v : Nat) : Option Nat := if mark marks k then some v else none

/-- No number stands twice in a list. -/
def distinct (l : List Nat) : Bool := decide l.Nodup

/-! ## SECTION and HEAD -/

def detectionOf : Nat → Option Detection
  | 1 => some .current
  | 2 => some .axle
  | 3 => some .both
  | _ => none

/-- A neighbour entry (R23). -/
def readNeighbour (s : State) (a : Nat) : Option Neighbour := do
  let present ← flagOf (s.read8 (a + 1))
  if present then
    let p ← upTo 127 (s.read8 (a + 2))
    let l ← lieOf (s.read8 (a + 3))
    some { sec := s.read8 a, cond := some (p, l) }
  else some { sec := s.read8 a, cond := none }

/-- The entries of a list of `n` entries of `size` bytes from an offset. -/
def readEntries {α : Type} (f : Nat → Option α) (size : Nat) : Nat → Nat → Option (List α)
  | 0, _ => some []
  | n + 1, a => do
    let x ← f a
    let l ← readEntries f size n (a + size)
    some (x :: l)

/-- The presence of the detector input and the discrepancy time that a detection allows (R1, R200). -/
def sectionMarksOk (d : Detection) (marks : Nat) : Bool :=
  match d with
  | .current => mark marks 2 && !mark marks 3
  | .axle => !mark marks 2 && !mark marks 3
  | .both => mark marks 2

/-- A SECTION record: number and fields (R1, R23, R158, R200). -/
def readSection (s : State) (a len : Nat) : Option (Nat × SectionRec) := do
  let marks := s.read8 (a + 3)
  let number := s.read8 (a + 4)
  let d ← detectionOf (s.read8 (a + 5))
  let pub ← if mark marks 4 then flagOf (s.read8 (a + 10)) else some false
  let count ← upTo 4 (s.read8 (a + 11))
  let l ← if len = 12 + 4 * count then readEntries (readNeighbour s) 4 count (a + 12) else none
  if sectionMarksOk d marks && distinct (l.map Neighbour.sec) && !(l.map Neighbour.sec).contains number then
    some (number, {
      detection := d, input := marked marks 2 (s.read8 (a + 6)),
      pickUp := (marked marks 0 (s.read8 (a + 7))).getD 20,
      dropOut := ((marked marks 1 (s.read8 (a + 8))).map (· * 10)).getD 500,
      discrepancy := ((marked marks 3 (s.read8 (a + 9))).map (· * 100)).getD 0,
      isPublic := pub, neighbours := l })
  else none

/-- A HEAD record: number, sides and invert flag (R1, R200). -/
def readHead (s : State) (a len : Nat) : Option (Nat × Head) := do
  let marks := s.read8 (a + 3)
  let number ← upTo 31 (s.read8 (a + 4))
  let invert ← flagOf (s.read8 (a + 7))
  let x := marked marks 0 (s.read8 (a + 5))
  let y := marked marks 1 (s.read8 (a + 6))
  if len = 8 && x != y then
    some (number, { aSide := x, bSide := y, invert := invert, suspect := false, phase := .waitIdle, totalAB := 0,
                    totalBA := 0 })
  else none

/-! ## ROUTE -/

def classOf : Nat → Option RouteClass
  | 1 => some .main
  | 2 => some .callOn
  | 3 => some .shunt
  | _ => none

/-- An element entry (R39, 12.3). -/
def readElement (s : State) (a : Nat) : Option Element := do
  let b := s.read8 a
  let n := s.read8 (a + 1)
  match bitsOf b 0 2 with
  | 1 => some (.sec n)
  | 2 => do
    let p ← upTo 127 n
    let l ← lieOf (bitsOf b 2 2)
    some (.point p l)
  | _ => none

/-- A flank entry: its lie, then its point (12.3). -/
def readFlank (s : State) (a : Nat) : Option (Nat × Lie) := do
  let l ← lieOf (s.read8 a)
  let p ← upTo 127 (s.read8 (a + 1))
  some (p, l)

/-- An overlap or approach entry: its section (12.3). -/
def readListSection (s : State) (a : Nat) : Option Nat := some (s.read8 (a + 1))

/-- A table condition's road and end; bit 7 is not read (log 22). -/
def readTableCondition (s : State) (a flags : Nat) : Option (Option RoadEnd) :=
  if mark flags 2 then do
    let _ ← upTo 35 (s.read8 a % 64)
    some (some (roadEndOf (s.read8 a)))
  else some none

/-- A route's exit signal. -/
def readExit (s : State) (a flags : Nat) : Option (Option Nat) :=
  if mark flags 1 then do
    let x ← upTo 191 (s.read8 a)
    some (some x)
  else some none

/-- The conditions of R40 on a route as a whole. -/
def routeOk (r : RouteRec) : Bool :=
  let secs := sequence r
  (match r.elements with
    | .sec _ :: _ => true
    | _ => false)
  && distinct secs && r.approach.all (fun n => !secs.contains n) && distinct ((routePoints r).map Prod.fst)
  && !(r.cls == .shunt && !r.overlap.isEmpty) && r.exit != some r.entry

/-- A ROUTE record: number and fields (R39, R40, 12.3). -/
def readRoute (s : State) (a len : Nat) : Option (Nat × RouteRec) := do
  let number ← upTo 511 (s.read16 (a + 2))
  let cls ← classOf (s.read8 (a + 4))
  let flags := s.read8 (a + 5)
  let entry ← upTo 191 (s.read8 (a + 6))
  let exit ← readExit s (a + 7) flags
  let table ← readTableCondition s (a + 10) flags
  let ne ← within 1 24 (s.read8 (a + 11))
  let nf ← upTo 8 (s.read8 (a + 12))
  let no ← upTo 4 (s.read8 (a + 13))
  let na ← upTo 3 (s.read8 (a + 14))
  let _ ← if len = 16 + 2 * (ne + nf + no + na) then some () else none
  let elements ← readEntries (readElement s) 2 ne (a + 16)
  let flank ← readEntries (readFlank s) 2 nf (a + 16 + 2 * ne)
  let overlap ← readEntries (readListSection s) 2 no (a + 16 + 2 * (ne + nf))
  let approach ← readEntries (readListSection s) 2 na (a + 16 + 2 * (ne + nf + no))
  let r : RouteRec :=
    { cls := cls, entry := entry, exit := exit, visitor := mark flags 0, approachTime := s.read8 (a + 8),
      overlapTime := s.read8 (a + 9), table := table, elements := elements, flank := flank, overlap := overlap,
      approach := approach }
  if routeOk r then some (number, r) else none

/-- The pool entries of a record (R41). -/
def poolOf (r : RouteRec) : Nat := r.elements.length + r.flank.length + r.overlap.length + r.approach.length

/-- The pool entries in use (R41). -/
def poolInUse (t : Tbl RouteRec) : Nat := (t.map fun x => poolOf x.2).sum

/-! ## POINT and SIGNAL -/

def motorOf : Nat → Option Motor
  | 1 => some .solenoid
  | 2 => some .slow
  | _ => none

/-- The feedback of a POINT record: both contact inputs for PAIR, different, and none for NONE (R88). -/
def readFeedback (s : State) (a marks : Nat) : Option Feedback :=
  match s.read8 (a + 6) with
  | 1 =>
    if mark marks 0 && mark marks 1 && s.read8 (a + 7) != s.read8 (a + 8) then
      some (.pair (s.read8 (a + 7)) (s.read8 (a + 8)))
    else none
  | 2 => if mark marks 0 || mark marks 1 then none else some .none
  | _ => none

/-- The slow travel timeout: for SLOW only, 3,000 ms where omitted (R88). -/
def readTravel (s : State) (a marks : Nat) (m : Motor) : Option Nat :=
  if mark marks 2 then (if m = .slow then within 500 10000 (s.read16 (a + 10)) else none) else some 3000

/-- A POINT record: number and fields (R88, 12.3). -/
def readPoint (s : State) (a len : Nat) : Option (Nat × PointRec) := do
  let marks := s.read8 (a + 2)
  let number ← upTo 127 (s.read8 (a + 3))
  let m ← motorOf (s.read8 (a + 5))
  let f ← readFeedback s a marks
  let t ← readTravel s a marks m
  if len = 12 then some (number, { sec := s.read8 (a + 4), motor := m, feedback := f, travel := t }) else none

def signalKindOf : Nat → Option SignalKind
  | 1 => some .threeAspect
  | 2 => some .twoAspect
  | 3 => some .distant
  | 4 => some .shunt
  | _ => none

/-- The fields that a signal's kind requires and forbids (R107). -/
def signalOk (number : Nat) (r : SignalRec) : Bool :=
  if r.kind = .distant then r.approach.isNone && r.protect.isNone && r.home.isSome && r.home != some number
  else r.protect.isSome && r.home.isNone && r.approach != r.protect

/-- A SIGNAL record: number and fields (R107, 12.3). -/
def readSignal (s : State) (a len : Nat) : Option (Nat × SignalRec) := do
  let marks := s.read8 (a + 2)
  let number ← upTo 191 (s.read8 (a + 3))
  let k ← signalKindOf (s.read8 (a + 4))
  let _ ← if mark marks 2 then upTo 191 (s.read8 (a + 7)) else some 0
  let r : SignalRec :=
    { kind := k, approach := marked marks 0 (s.read8 (a + 5)), protect := marked marks 1 (s.read8 (a + 6)),
      home := marked marks 2 (s.read8 (a + 7)) }
  if len = 8 && signalOk number r then some (number, r) else none

/-! ## DECK and ROAD -/

/-- A value brought into a range. -/
def clamp (low high n : Nat) : Nat := min (max n low) high

/-- The clamps of a deck's rates (R121). -/
def clampRates (d : DeckRec) : DeckRec :=
  let vmax := clamp 1 20000 d.vmax
  let v0 := min (clamp 1 20000 d.v0) vmax
  { d with v0 := v0, vmax := vmax, ramp := clamp 1 2000 d.ramp, jog := clamp v0 vmax d.jog }

/-- The stop mark: none for CONTINUOUS, below C and equal to the index offset for BOUNDED (R121). -/
def readStop (s : State) (a c index : Nat) : Option (Option Nat) :=
  match s.read8 (a + 3) with
  | 1 => some none
  | 2 => if s.read16 (a + 6) < c && s.read16 (a + 6) = index then some (some (s.read16 (a + 6))) else none
  | _ => none

/-- The index edge polarity: true for RISING. -/
def polarityOf : Nat → Option Bool
  | 1 => some true
  | 2 => some false
  | _ => none

/-- A DECK record (R121, 12.3); the snap window is tested against C/4 rounded down (log 38). -/
def readDeck (s : State) (a len : Nat) : Option DeckRec := do
  let c ← within 400 51200 (s.read16 (a + 4))
  let index := s.read16 (a + 8)
  let stop ← readStop s a c index
  let rising ← polarityOf (s.read8 (a + 20))
  let bolt ← flagOf (s.read8 (a + 22))
  let snap ← upTo (c / 4) (s.read16 (a + 18))
  if len = 26 && c % 2 = 0 && index < c then
    some (clampRates {
      c := c, stop := stop, indexOffset := index, rising := rising, backlash := s.read8 (a + 21),
      v0 := s.read16 (a + 10), vmax := s.read16 (a + 12), ramp := s.read16 (a + 14), jog := s.read16 (a + 16),
      bolt := bolt, boltTime := 10 * s.read8 (a + 23), settleTime := 10 * s.read8 (a + 24), snap := snap,
      sec := s.read8 (a + 25) })
  else none

/-- The polarity for end A: true for REVERSED. -/
def reversedOf : Nat → Option Bool
  | 1 => some false
  | 2 => some true
  | _ => none

/-- A ROAD record against the loaded deck and roads (R122). -/
def readRoad (s : State) (a len : Nat) : Option (Nat × Road) := do
  let d ← s.tt.deck
  let number ← upTo 35 (s.read8 (a + 3))
  let rev ← reversedOf (s.read8 (a + 7))
  let p := s.read16 (a + 4)
  let n := s.read8 (a + 6)
  if len = 8 && p < d.c && n != d.sec && !(s.tt.roads.any fun x => x.1 != number && x.2.position == p) then
    some (number, { position := p, sec := n, reversed := rev })
  else none

/-! ## SHOW and LAMP -/

/-- One step of a SHOW record (R157, 12.3). -/
def readStep (s : State) (a : Nat) : Option ShowStep :=
  let number := s.read16 (a + 2)
  let time := s.read16 (a + 4)
  match s.read8 a with
  | 1 => do
    let r ← upTo 511 number
    let t ← upTo 600 time
    some (.setRoute r t)
  | 2 => do
    let r ← upTo 511 number
    some (.cancelRoute r)
  | 3 => do
    let _ ← upTo 35 (s.read8 (a + 1) % 64)
    some (.turn (roadEndOf (s.read8 (a + 1))))
  | 4 => do
    let occupied ← match s.read8 (a + 1) with
      | 1 => some true
      | 2 => some false
      | _ => none
    let n ← upTo 255 number
    let t ← within 1 600 time
    some (.waitSection n occupied t)
  | 5 => do
    let t ← within 1 600 time
    some (.pause t)
  | _ => none

/-- A show's button: 0–15, or 255 for NONE. -/
def readButton (b : Nat) : Option (Option Nat) :=
  if b ≤ 15 then some (some b) else if b = 255 then some none else none

/-- A SHOW record: number and fields (R157, 12.3). -/
def readShow (s : State) (a len : Nat) : Option (Nat × ShowRec) := do
  let number ← upTo 31 (s.read8 (a + 2))
  let button ← readButton (s.read8 (a + 3))
  let cool ← upTo 600 (s.read16 (a + 4))
  let dur ← upTo 3600 (s.read16 (a + 6))
  let count ← within 1 12 (s.read8 (a + 8))
  let steps ← if len = 10 + 6 * count then readEntries (readStep s) 6 count (a + 10) else none
  let taken := button.isSome && s.vis.shows.any fun x => x.1 != number && x.2.button == button
  if taken then none else some (number, { button := button, coolDown := cool, maxDuration := dur, steps := steps })

def aspectCode : Nat → Option Aspect
  | 1 => some .danger
  | 2 => some .caution
  | 3 => some .proceed
  | 4 => some .callOn
  | 5 => some .shuntOff
  | _ => none

def detLieOf : Nat → Option DetLie
  | 1 => some .normal
  | 2 => some .reverse
  | 3 => some .moving
  | 4 => some .lost
  | 5 => some .failed
  | _ => none

/-- A lamp's source from its kind, and its index and value where their marks are set (R174, R175). -/
def readSource (kind : Nat) : Option Nat → Option Nat → Option LampSource
  | none, none => if kind = 0 then some .none else none
  | some i, none =>
    match kind with
    | 1 => some (.sectionOccupied i)
    | 2 => some (.sectionRouted i)
    | 6 => if i ≤ 31 then some (.showRunning i) else none
    | 7 => some (.tagPresent i)
    | _ => none
  | some i, some v =>
    match kind with
    | 3 => if i ≤ 191 then (aspectCode v).map (LampSource.signalAspect i) else none
    | 4 => if i ≤ 127 then (detLieOf v).map (LampSource.pointLie i) else none
    | 5 =>
      if i ≤ 35 then (flagOf v).map fun b => LampSource.tableAtRoad { road := i, deckEnd := if b then .b else .a }
      else none
    | _ => none
  | none, some _ => none

/-- A LAMP record: number and binding (R174, 12.3). -/
def readLamp (s : State) (a len : Nat) : Option (Nat × Lamp) := do
  let number ← upTo 383 (s.read16 (a + 2))
  let marks := s.read8 (a + 5)
  let src ← readSource (s.read8 (a + 4)) (marked marks 0 (s.read8 (a + 6))) (marked marks 1 (s.read8 (a + 7)))
  let on ← modeOf (s.read8 (a + 8))
  let offM ← modeOf (s.read8 (a + 9))
  if len = 10 then some (number, { source := src, onMode := on, offMode := offM }) else none

end Sys2Proof.Machine
end

