-- ==== Sys2Proof/Machine/Loads.lean ====
section
/-! DEFINITION. LOAD requests (R191): what a block does with a record that it takes, the reading of one record, the load
list; and SET_PARAMETERS (R192). -/

namespace Sys2Proof.Machine

/-! ## What the blocks do with a record they take -/

/-- A SECTION record taken: DISABLED is kept from a record that it replaces (R1, R22, log 15). -/
def takeSection (n : Nat) (r : SectionRec) (s : State) : State :=
  { s with occ := { s.occ with recs := Tbl.insert s.occ.recs n r,
                               secs := Tbl.insert s.occ.secs n (occOf s n) } }

/-- A HEAD record taken: the condition is kept from a record that it replaces (R1, R6, R20). -/
def takeHead (k : Nat) (h : Head) (s : State) : State :=
  let kept := match Tbl.find s.occ.heads k with
    | some x => x.suspect
    | none => false
  mirrorHead k (setHead k { h with suspect := kept } s)

/-- The pool count of the header (R41). -/
def writePool (s : State) : State := s.write16 0x22 (poolInUse s.ilk.routes)

/-- A ROUTE record taken, unless the pool would be exceeded (R41). -/
def takeRoute (n : Nat) (r : RouteRec) (s : State) : Option State :=
  let t := Tbl.insert s.ilk.routes n r
  if Config.poolEntries < poolInUse t then none
  else some (writePool { s with ilk := { s.ilk with routes := t } })

/-- A POINT record taken: no FAILED condition, no assumed lie, loss timer stopped (R105). -/
def takePoint (p : Nat) (r : PointRec) (s : State) : State :=
  let st : PointState := { failed := none, lie := .lost, assumed := none, loss := none }
  let s := { s with pts := { s.pts with recs := Tbl.insert s.pts.recs p r, state := Tbl.insert s.pts.state p st } }
  setPoint p (fun st => { st with lie := derivedLie s p r st }) s

/-- A SIGNAL record taken: its place shows DANGER, or CAUTION for a DISTANT (R107); a new signal has an overrun count of 0, and a
replaced one keeps its own, until START (log 55). -/
def takeSignal (x : Nat) (r : SignalRec) (s : State) : State :=
  let n := match Tbl.find s.asp.state x with
    | some st => st.overruns
    | none => 0
  { s with asp := { s.asp with recs := Tbl.insert s.asp.recs x r,
                               state := Tbl.insert s.asp.state x { aspect := restAspect r, overruns := n } } }

/-- Each record that a LOAD_TABLE takes makes the deck UNREFERENCED (R122); a change of state is reported (R139). -/
def unreference (s : State) : State :=
  let s := setDeck (fun t => { t.quiet with pos := none, align := none, target := none, fault := none, boltOut := false,
                                            requester := .none }) s
  if s.tt.state = .unreferenced then s else enterDeck .unreferenced s

/-- A DECK record taken: every road is removed and the completed turns become 0 (R121, R122). -/
def takeDeck (d : DeckRec) (s : State) : State :=
  unreference (setDeck (fun t => { t with deck := some d, roads := [], turns := 0, pos := none }) s)

/-- A ROAD record taken (R122). -/
def takeRoad (n : Nat) (r : Road) (s : State) : State :=
  unreference (setDeck (fun t => { t with roads := Tbl.insert t.roads n r }) s)

/-- A valid SHOW record taken, unless its show is run or queued (R157, log 51). -/
def takeShowRecord (n : Nat) (w : ShowRec) (s : State) : Option State :=
  if isRunning s n || isQueued s n then none
  else some (setVisitors (fun v => { v with shows := Tbl.insert v.shows n w }) s)

/-- A LAMP record taken; its mode is settled at the end of the handling (R174). R176's note has the mirror word written when the
lamp is bound and does not say whether in CONFIGURING too, where every shown mode stays OFF: the model writes it at a bind in
RUNNING only (DESIGN CHOICE, log 60). -/
def takeLamp (i : Nat) (l : Lamp) (s : State) : State :=
  let s := { s with disp := { s.disp with bind := Tbl.insert s.disp.bind i l }, work := { s.work with lamps := true } }
  if s.running then mirrorLampWord (i / 16) s else s

/-! ## Reading one record (R191, R200) -/

/-- A record of a kind at an offset with its stated length: the state that takes it, or the reason of its refusal. R157 gives no
order between its two refusals: a SHOW record that is both invalid and for a running or queued show is refused with
INVALID_RECORD (DESIGN CHOICE, log 51). -/
def takeRecord (k : LoadKind) (a len : Nat) (s : State) : Except Result State :=
  let orInvalid (x : Option State) : Except Result State := match x with
    | some t => .ok t
    | none => .error .invalidRecord
  match k with
  | .sections =>
    match s.read8 (a + 2) with
    | 1 => orInvalid ((readSection s a len).map fun x => takeSection x.1 x.2 s)
    | 2 => orInvalid ((readHead s a len).map fun x => takeHead x.1 x.2 s)
    | _ => .error .invalidRecord
  | .points => orInvalid ((readPoint s a len).map fun x => takePoint x.1 x.2 s)
  | .signals => orInvalid ((readSignal s a len).map fun x => takeSignal x.1 x.2 s)
  | .routes => orInvalid ((readRoute s a len).bind fun x => takeRoute x.1 x.2 s)
  | .table =>
    match s.read8 (a + 2) with
    | 1 => orInvalid ((readDeck s a len).map fun d => takeDeck d s)
    | 2 => orInvalid ((readRoad s a len).map fun x => takeRoad x.1 x.2 s)
    | _ => .error .invalidRecord
  | .shows =>
    match readShow s a len with
    | none => .error .invalidRecord
    | some x =>
      match takeShowRecord x.1 x.2 s with
      | some t => .ok t
      | none => .error .showBusy
  | .lamps => orInvalid ((readLamp s a len).map fun x => takeLamp x.1 x.2 s)

/-- The place and width in bytes of a record's item number; none where its type is unknown (R200). -/
def itemPlace (k : LoadKind) (type : Nat) : Option (Nat × Nat) :=
  match k with
  | .sections => if type = 1 || type = 2 then some (4, 1) else none
  | .points => some (3, 1)
  | .signals => some (3, 1)
  | .routes => some (2, 2)
  | .table => if type = 2 then some (3, 1) else none
  | .shows => some (2, 1)
  | .lamps => some (2, 2)

/-- The item number of a record of which `avail` bytes can be read, 65,535 where it cannot (R191, log 20); a DECK
record's is 0. -/
def itemNumber (k : LoadKind) (a avail : Nat) (s : State) : Nat :=
  let type := if 3 ≤ avail then s.read8 (a + 2) else 0
  if k = .table && type = 1 then 0
  else
    match itemPlace k type with
    | none => 65535
    | some (o, w) => if o + w ≤ avail then (if w = 2 then s.read16 (a + o) else s.read8 (a + o)) else 65535

/-- The bytes of a load that are left at its cursor. -/
def Load.left (l : Load) : Nat := l.limit - l.cursor

/-- The stated length of the record at the cursor, 0 where not even the length field is left. -/
def statedLength (l : Load) (s : State) : Nat := if 2 ≤ l.left then s.read16 l.cursor else 0

/-- The next record of a load: the state that takes it, or the reason of its refusal (R191). -/
def readRecord (l : Load) (s : State) : Except Result State :=
  let len := statedLength l s
  if l.left < len || len < 8 then .error .invalidRecord else takeRecord l.kind l.cursor len s

/-! ## The load list (R191) -/

/-- The load that reads, and those that wait. -/
def setLoads (r : Option Load) (l : List Load) (s : State) : State :=
  { s with exch := { s.exch with reading := r, loads := l } }

/-- The first load of a list begins reading; one with a count of 0 reads nothing and completes. -/
def beginLoads : List Load → State → State
  | [], s => setLoads none [] s
  | l :: more, s => if l.count = 0 then beginLoads more (complete l.slot .ok 0 0 s) else setLoads (some l) more s

/-- The reading load takes its next record, or ends (R191). -/
def loadNext (s : State) : State :=
  match s.exch.reading with
  | none => s
  | some l =>
    match readRecord l s with
    | .error r =>
      let item := itemNumber l.kind l.cursor (min l.left (statedLength l s)) s
      beginLoads s.exch.loads (complete l.slot r (halves l.taken item) l.cursor s)
    | .ok t =>
      let m := { l with cursor := l.cursor + statedLength l s, taken := l.taken + 1 }
      if m.taken = m.count then beginLoads s.exch.loads (complete l.slot .ok m.taken 0 t)
      else setLoads (some m) s.exch.loads t

/-- The range test of a data-area offset (R191, R192). -/
def offsetOk (offset : Nat) : Bool := offset % 2 == 0 && decide (Config.dataBase ≤ offset && offset ≤ 0x7FFF)

/-- A LOAD request in slot n (R191). -/
def loadRequest (k : LoadKind) (n offset length count : Nat) (s : State) : State :=
  if !(offsetOk offset && decide (offset + length ≤ Config.memBytes)) then complete n .badArgument 0 0 s
  else
    let l : Load := { kind := k, slot := n, cursor := offset, limit := offset + length, count := count, taken := 0 }
    match s.exch.reading with
    | some _ => setLoads s.exch.reading (s.exch.loads ++ [l]) s
    | none => beginLoads [l] s

/-! ## SET_PARAMETERS (R192) -/

/-- The parameter groups (12.4). -/
inductive Group where
  | track | visitor
  deriving DecidableEq, Repr

def groupOf : Nat → Option Group
  | 1 => some .track
  | 2 => some .visitor
  | _ => none

def setPts (f : PointUnit → PointUnit) (s : State) : State := { s with pts := f s.pts }

/-- The overrun response of a value: REPORT unless it is ALL_STOP (R113). -/
def responseOf (v : Nat) : Response := if v = 2 then .allStop else .report

/-- One TRACK parameter set: the new state and whether the value was clamped (R34, R53, R96, R113). -/
def setTrack (code v : Nat) (s : State) : Option (State × Bool) :=
  match code with
  | 1 => let c := clamp 0 255 v; some ({ s with tags := { s.tags with lostHold := 100 * c } }, c != v)
  | 2 => let c := clamp 0 600 v; some ({ s with ilk := { s.ilk with stackTimeout := c } }, c != v)
  | 3 => let c := clamp 20 200 v; some (setPts (fun p => { p with pulseTime := c }) s, c != v)
  | 4 => let c := clamp 100 2000 v; some (setPts (fun p => { p with rechargeTime := c }) s, c != v)
  | 5 => let c := clamp 100 2000 v; some (setPts (fun p => { p with window := c }) s, c != v)
  | 6 => let c := clamp 1 8 v; some (setPts (fun p => { p with slowLimit := c }) s, c != v)
  | 7 => some ({ s with asp := { s.asp with response := responseOf v } }, v != 1 && v != 2)
  | _ => none

def setDisp (f : Display → Display) (s : State) : State := { s with disp := f s.disp }

/-- One VISITOR parameter set: the new state and whether the value was clamped (R45, R135, R159, R182). -/
def setVisitorParameter (code v : Nat) (s : State) : Option (State × Bool) :=
  match code with
  | 17 => let c := clamp 0 8 v; some ({ s with ilk := { s.ilk with quota := c } }, c != v)
  | 18 => some ({ s with tt := { s.tt with jogPermitted := v = 1 } }, v != 0 && v != 1)
  | 19 => let c := clamp 1 8 v; some (setVisitors (fun x => { x with busy := c }) s, c != v)
  | 20 => let c := clamp 0 3600 v; some (setDisp (fun d => { d with idle1 := c }) s, c != v)
  | 21 => let c := clamp 0 3600 v; some (setDisp (fun d => { d with idle2 := c }) s, c != v)
  | 22 => let c := clamp 0 3600 v; some (setDisp (fun d => { d with idle3 := c }) s, c != v)
  | _ => none

def setParameter (g : Group) (code v : Nat) (s : State) : Option (State × Bool) :=
  match g with
  | .track => setTrack code v s
  | .visitor => setVisitorParameter code v s

/-- The entries applied in order, `left` still to come, `done` applied and `clamped` of them clamped (R192). -/
def applyEntries (g : Group) (n : Nat) : Nat → Nat → Nat → Nat → State → State
  | 0, _, done, clamped, s => complete n .ok done clamped s
  | left + 1, a, done, clamped, s =>
    match setParameter g (s.read16 a) (s.read16 (a + 2)) s with
    | none => complete n .invalidRecord (halves done (s.read16 a)) a s
    | some (t, c) => applyEntries g n left (a + 4) (done + 1) (clamped + if c then 1 else 0) t

/-- SET_PARAMETERS in slot n (R190, R192). -/
def setParameters (n group offset count : Nat) (s : State) : State :=
  match groupOf group with
  | none => complete n .badArgument 0 0 s
  | some g =>
    if g = .track && s.running then complete n .wrongState s.exch.runState.code 0 s
    else if !offsetOk offset || decide (64 < count) || decide (Config.memBytes < offset + 4 * count) then
      complete n .badArgument 0 0 s
    else applyEntries g n count offset 0 0 s

end Sys2Proof.Machine
end

