-- ==== Sys2Proof/Machine/Start.lean ====
section
/-! DEFINITION. START (R193): its checks (R2, R24, R89, R108, R123, R42) and what each block does when they pass (R5, R21,
R37, R61, R87, R106, R120, R141, R173, R183). -/

namespace Sys2Proof.Machine

/-! ## Checks -/

/-- The item kinds of INVALID_CONFIG (12.4). -/
inductive ItemKind where
  | sec | head | point | signal | route | table | road
  deriving DecidableEq, Repr

def ItemKind.code : ItemKind → Nat
  | .sec => 1
  | .head => 2
  | .point => 3
  | .signal => 4
  | .route => 5
  | .table => 6
  | .road => 7

/-- The number of the first entry of a table that fails a test. -/
def firstFailing {α : Type} (t : Tbl α) (bad : Nat → α → Bool) : Option Nat := (t.find? fun x => bad x.1 x.2).map Prod.fst

def secLoaded (s : State) (n : Nat) : Bool := Tbl.has s.occ.recs n

/-- An optional number that is absent, or loaded. -/
def loadedOpt (f : Nat → Bool) : Option Nat → Bool
  | none => true
  | some n => f n

/-- A section fails R2: an AXLE or BOTH section is a side of no head, or its detector input is named twice (log 30). -/
def sectionFails (s : State) (n : Nat) (r : SectionRec) : Bool :=
  (r.detection != .current && (boundingHeads s n).isEmpty)
    || (r.input.isSome && s.occ.recs.any fun x => x.1 != n && x.2.input == r.input)

/-- A side section is loaded and axle-counted (R2). -/
def sideOk (s : State) (n : Nat) : Bool :=
  match Tbl.find s.occ.recs n with
  | some r => r.detection != .current
  | none => false

def headFails (s : State) (_ : Nat) (h : Head) : Bool := !(loadedOpt (sideOk s) h.aSide && loadedOpt (sideOk s) h.bSide)

/-- A section fails R24: a neighbour, or the point of a condition, is not loaded. -/
def neighboursFail (s : State) (_ : Nat) (r : SectionRec) : Bool :=
  r.neighbours.any fun b => !(secLoaded s b.sec && loadedOpt (Tbl.has s.pts.recs) (b.cond.map Prod.fst))

/-- The contact inputs that a point record names. -/
def contactInputs (r : PointRec) : List Nat :=
  match r.feedback with
  | .pair n v => [n, v]
  | .none => []

/-- A point fails R89. -/
def pointFails (s : State) (p : Nat) (r : PointRec) : Bool :=
  !secLoaded s r.sec
    || s.pts.recs.any fun x => decide (x.1 < p) && (contactInputs x.2).any fun i => (contactInputs r).contains i

/-- A DISTANT is an entry or exit of a loaded route (R108). -/
def distantUsed (s : State) (x : Nat) : Bool := s.ilk.routes.any fun r => r.2.entry == x || r.2.exit == some x

/-- A SHUNT signal is the entry of a loaded MAIN or CALL_ON route (R108). -/
def shuntMisused (s : State) (x : Nat) : Bool := s.ilk.routes.any fun r => r.2.entry == x && r.2.cls != .shunt

/-- The home of a DISTANT is loaded and is not a DISTANT (R108). -/
def homeOk (s : State) (h : Nat) : Bool :=
  match Tbl.find s.asp.recs h with
  | some q => q.kind != .distant
  | none => false

/-- A signal fails R108. -/
def signalFails (s : State) (x : Nat) (r : SignalRec) : Bool :=
  !(loadedOpt (secLoaded s) r.approach && loadedOpt (secLoaded s) r.protect)
    || (r.kind == .distant && (!loadedOpt (homeOk s) r.home || distantUsed s x))
    || (r.kind == .shunt && shuntMisused s x)

/-- The first failing item of the turntable (R123). -/
def tableFails (s : State) : Option (ItemKind × Nat) :=
  match s.tt.deck with
  | none => none
  | some d =>
    if !secLoaded s d.sec || s.tt.roads.isEmpty then some (.table, 0)
    else (firstFailing s.tt.roads fun _ r => !secLoaded s r.sec).map fun n => (.road, n)

/-- Each POINT entry follows the SECTION entry of the section that its point record names (R42, R40). -/
def pointsInPlace (s : State) : Option Nat → List Element → Bool
  | _, [] => true
  | _, .sec n :: l => pointsInPlace s (some n) l
  | at_, .point p _ :: l => at_ == some (pointSec s p) && pointsInPlace s at_ l

/-- Every item that a route names is loaded (R42). -/
def routeLoaded (s : State) (r : RouteRec) : Bool :=
  (sequence r ++ r.approach).all (secLoaded s) && (routePoints r).all (fun x => Tbl.has s.pts.recs x.1)
    && Tbl.has s.asp.recs r.entry && loadedOpt (Tbl.has s.asp.recs) r.exit

/-- The entry signal's protected section is the first element section (R42). -/
def entryProtects (s : State) (r : RouteRec) : Bool :=
  match Tbl.find s.asp.recs r.entry with
  | some x => x.protect.isSome && x.protect == (elementSections r).head?
  | none => false

/-- The deck conditions of R42. -/
def deckConditionOk (s : State) (r : RouteRec) : Bool :=
  match r.table, s.tt.deck with
  | some x, some d => Tbl.has s.tt.roads x.road && (elementSections r).contains d.sec
  | some _, none => false
  | none, some d => !(sequence r).contains d.sec
  | none, none => true

/-- A route fails R42. -/
def routeFails (s : State) (_ : Nat) (r : RouteRec) : Bool :=
  !(routeLoaded s r && entryProtects s r && pointsInPlace s none r.elements && deckConditionOk s r)

/-- The first failing item of START, in the order of R193. -/
def configFault (s : State) : Option (ItemKind × Nat) :=
  let tag := fun k (x : Option Nat) => x.map fun n => (k, n)
  (tag ItemKind.sec (firstFailing s.occ.recs (sectionFails s))).or <|
  (tag ItemKind.head (firstFailing s.occ.heads (headFails s))).or <|
  (tag ItemKind.sec (firstFailing s.occ.recs (neighboursFail s))).or <|
  (tag ItemKind.point (firstFailing s.pts.recs (pointFails s))).or <|
  (tag ItemKind.signal (firstFailing s.asp.recs (signalFails s))).or <|
  (tableFails s).or <|
  tag ItemKind.route (firstFailing s.ilk.routes (routeFails s))

/-! ## The blocks take their state afresh -/

/-- Filters at START; one that stands as at initial reset is not listed (R5). -/
def filtersAtStart (t : Tbl Filter) : Tbl Filter :=
  (t.map fun x => (x.1, x.2.atStart)).filter fun x => x.2 != Filter.init

/-- A loaded section's occupancy at START (R21). -/
def sectionAtStart (s : State) (n : Nat) (r : SectionRec) : Occupancy :=
  let st := if secState s n = .disabled then SectionState.disabled else freshState s n r
  { state := st, count := 0, discTimer := none, discFlag := false }

/-- The sections at START, with their mirror (R5, R21). -/
def startSections (s : State) : State :=
  let s := { s with occ := { s.occ with filters := filtersAtStart s.occ.filters } }
  let s := { s with occ := { s.occ with secs := s.occ.recs.map fun x => (x.1, sectionAtStart s x.1 x.2) } }
  eachDo (Tbl.keys s.occ.recs) mirrorSection s

/-- The tag mirror rewritten with all 64 tags. -/
def mirrorTags (s : State) : State := eachDo (List.range Config.numTags) mirrorTag s

/-- Tags at START, and the arrivals in sections that START makes OCCUPIED (R21, R37). -/
def startTags (s : State) : State :=
  let s := mirrorTags { s with tags := { s.tags with table := [], fields := [] } }
  eachDo ((Tbl.keys s.occ.recs).filter fun n => secState s n == .occupied) (fun n t => (arrive n t).1) s

/-- A point's lie derived afresh with no order and no loss timer, and its mirror word (R106). -/
def freshPoint (p : Nat) (s : State) : State :=
  match Tbl.find s.pts.recs p with
  | none => s
  | some r => mirrorPointNow p (setPoint p (fun st => { st with lie := derivedLie s p r st, loss := none }) s)

/-- Points at START (R106). -/
def startPoints (s : State) : State := eachDo (Tbl.keys s.pts.recs) freshPoint (setOrders [] [] s)

/-- The active route mirror rewritten. -/
def mirrorActives (s : State) : State := eachDo (List.range Config.numActive) mirrorActive s

/-- The stack and the active route table at START: empty (R61, R87). -/
def startRoutes (s : State) : State :=
  mirrorActives (setStack [] { s with ilk := { s.ilk with active := [] } })

/-- Every signal at its aspect with no active route, with its mirror word (R120). -/
def restSignal (x : Nat) (s : State) : State :=
  match Tbl.find s.asp.recs x with
  | none => s
  | some r => mirrorSignalNow x (setSignal x (fun st => { st with aspect := restAspect r }) s)

/-- An overrun count becomes 0 (R120). -/
def zeroOverruns (x : Nat) (s : State) : State := setSignal x (fun st => { st with overruns := 0 }) s

/-- Signals and track power at START (R120). -/
def startSignals (s : State) : State :=
  let s := eachDo (Tbl.keys s.asp.recs) restSignal (eachDo (Tbl.keys s.asp.recs) zeroOverruns s)
  if s.asp.stopFilter.level then enterAllStop .pin s else setPower true s

/-- The turntable at START (R141). -/
def startTable (s : State) : State :=
  let s := match s.tt.state, s.tt.align with
    | .aligned, some x => setDeck (fun t => { t with polReversed := polarityFor t x }) s
    | _, _ => s
  updateFeed s

/-- The visitor unit and the display at START (R173, R183). -/
def startPanel (s : State) : State :=
  let s := setVisitors (fun v => { v with queue := [], runner := none }) s
  mirrorVisitor (settleButtons (mirrorLamps 24 (settleLamps { s with work := { s.work with lamps := true } })))

/-- START passes (R193). -/
def startLayout (s : State) : State :=
  let s := setRunState .running { s with clock := 0, disp := { s.disp with flash := 0 } }
  let s := reportLayout 4 0 s
  startPanel (startTable (startSignals (startRoutes (startPoints (startTags (startSections s))))))

/-- START in slot n (R193). -/
def startRequest (n : Nat) (s : State) : State :=
  if s.exch.reading.isSome || !s.exch.loads.isEmpty then complete n .loading 0 0 s
  else
    match configFault s with
    | some (k, i) => complete n .invalidConfig k.code i s
    | none => complete n .ok 0 0 (startLayout s)

end Sys2Proof.Machine
end

