-- ==== Sys2Proof/Machine/Resets.lean ====
section
/-! DEFINITION. Layout reset (R194; R22, R38, R61, R87, R106, R120, R141, R173, R183) and initial reset (R198). -/

namespace Sys2Proof.Machine

/-! ## Layout reset -/

/-- The states and counts of sections other than DISABLED ones are given up (R22, log 15). -/
def resetSections (s : State) : State :=
  let f := fun o : Occupancy =>
    if o.state = .disabled then { o with discTimer := none, discFlag := false } else Occupancy.init
  { s with occ := { s.occ with secs := s.occ.secs.map fun x => (x.1, f x.2) } }

/-- Every tag becomes FREE and every tag field empty (R38). -/
def resetTags (s : State) : State := mirrorTags { s with tags := { s.tags with table := [], fields := [] } }

/-- The stack, the active route table, the locks and the holder lists are emptied (R61, R87). -/
def resetRoutes (s : State) : State :=
  mirrorActives (setStack [] { s with ilk := { s.ilk with active := [], locks := [], holders := [] } })

/-- A point leaves FAILED; one with feedback NONE loses its assumed lie where an order was cut in flight (R106). -/
def unfailPoint (cut : List Nat) (p : Nat) (s : State) : State :=
  setPoint p (fun st => { st with failed := none, assumed := if cut.contains p then none else st.assumed }) s

/-- Points at layout reset (R106). -/
def resetPoints (s : State) : State :=
  let cut := (s.pts.queue.filter fun o => o.phase.inFlight).map Order.point
  let s := if s.pts.coil.isSome then startRecharge s else s
  let s := setOrders [] [] { s with pts := { s.pts with drives := [] } }
  eachDo (Tbl.keys s.pts.recs) freshPoint (eachDo (Tbl.keys s.pts.recs) (unfailPoint cut) s)

/-- Signals, run condition and track power at layout reset (R120). -/
def resetSignals (s : State) : State :=
  eachDo (Tbl.keys s.asp.recs) restSignal (setPower false (setRunCondition .running none s))

/-- The deck states that a layout reset keeps (R141). -/
def DeckState.kept : DeckState → Bool
  | .aligned | .halted | .fault => true
  | _ => false

/-- The turntable at layout reset (R141). -/
def resetTable (s : State) : State :=
  if s.tt.state.kept then setDeck (fun t => { t with requester := .none, target := none }) s
  else
    setDeck (fun t => { t.quiet with state := .unreferenced, pos := none, boltOut := false, requester := .none,
                                     target := none }) s

/-- The visitor unit at layout reset (R173). -/
def resetVisitors (s : State) : State := setVisitors (fun v => { v with queue := [] }) (abortShow .layoutReset 0 0 s)

/-- The display at layout reset (R183). -/
def resetDisplay (s : State) : State :=
  let s := loadIdle s.disp.idle1 (setPanelState .awake s)
  mirrorLamps 24 { s with disp := { s.disp with shown := [] } }

/-- The slots in hand, that of the LAYOUT_RESET request left out, completed ABORTED (R194). -/
def abortSlots (own : Option Nat) (s : State) : State × Nat :=
  let l := (Tbl.keys s.exch.inHand).filter fun n => own != some n
  (eachDo l (fun n t => complete n .aborted 0 0 t) s, l.length)

/-- Layout reset, for a slot or by CONTROL (R194). -/
def layoutReset (own : Option Nat) (s : State) : State :=
  let s := resetSignals (resetPoints (resetRoutes (resetTags (resetSections s))))
  let s := resetDisplay (resetVisitors (resetTable s))
  let s := updateFeed (setRunState .configuring (setLoads none [] s))
  let s := mirrorVisitor (settleButtons s)
  let (s, n) := abortSlots own s
  match own with
  | some k => complete k .ok n 0 (reportLayout 1 k s)
  | none => reportLayout 6 0 s

/-! ## Initial reset (R198) -/

/-- The exchange controller while the part is INITIALIZING: memory zeroed, marks, lists and causes cleared. -/
def blankExchange (p : Profile) : Exchange :=
  { Exchange.init with mem := [], w := 0, reports := false, attn := false, pollTimer := none, profile := p,
                       runState := .initializing }

/-- The blocks at their initial values under a profile; the model's own queue and free-value counter are kept. -/
def blankState (p : Profile) (s : State) : State :=
  { occ := OccUnit.init, tags := TagUnit.init, ilk := Interlocking.init p, pts := PointUnit.init,
    asp := AspectUnit.init, tt := Turntable.init p, vis := VisitorUnit.init, disp := Display.init p,
    exch := blankExchange p, clock := 0, free := s.free, work := Work.none, pending := s.pending }

/-- The header's initial values (R184, 12.1). -/
def initHeader (p : Profile) (s : State) : State :=
  let s := (s.write16 0x04 1).write16 0x06 480
  let s := (s.write16 0x10 10).write16 0x12 7
  let s := (setRunCondition .running none s).write8 0x1C 0
  setPanelState .awake ((setUnit .recharging (setPower false s)).write8 0x1F p.code)

/-- Initial reset with the PROFILE pin as sampled (R198), whole inside one command (log 46). -/
def initialReset (p : Profile) (s : State) : State :=
  let s := setRunState .configuring (initHeader p (blankState p s))
  reportLayout 5 0 { s with exch := { s.exch with pollTimer := some 10 } }

/-- The profile of the pin's level (R198). -/
def profileOf (high : Bool) : Profile := if high then .exhibition else .club

end Sys2Proof.Machine
end

