-- ==== Sys2Proof/Machine/Intake.lean ====
section
/-! DEFINITION. The intake (R187 to R190): posting, taking and serving a slot; the examination that NUDGE and the poll
timer start (R188); and the host port (R185, R186, R197). -/

namespace Sys2Proof.Machine

/-! ## Slots -/

/-- A request as it stands in a slot: its kind, its host tag and argument words 0 to 2 (12.1). -/
structure Request where
  kind : Nat
  tag : HostTag
  w0 : Word
  w1 : Word
  w2 : Word
  deriving DecidableEq, Repr

/-- The host writes a request into a slot, the state POSTED last (R187); the accesses break the latch's pairing (R186). What a
request command leaves in the argument words that its row does not name is the model's choice (DESIGN CHOICE, log 4): 0 in words
0 to 2, which the record carries, and in word 3, at slot + 0x14, which no request reads (12.1), what stood there. -/
def postSlot (n : Nat) (r : Request) (s : State) : State :=
  let a := slotAt n
  let s := ((s.write16 (a + 2) r.kind).write16 (a + 4) r.tag.toNat).write32 (a + 8) r.w0.toNat
  let s := ((s.write32 (a + 12) r.w1.toNat).write32 (a + 16) r.w2.toNat).write16 a 1
  { s with exch := { s.exch with paired := false } }

/-- The record that a slot holds, as it is read at taking (R188). -/
def slotRequest (n : Nat) (s : State) : Request :=
  let a := slotAt n
  { kind := s.read16 (a + 2), tag := Mem.read16 s.exch.mem (a + 4), w0 := Mem.read32 s.exch.mem (a + 8),
    w1 := Mem.read32 s.exch.mem (a + 12), w2 := Mem.read32 s.exch.mem (a + 16) }

/-- The intake may take a slot: its in-hand mark is clear, and the part is not INITIALIZING (R188, R190). -/
def mayTake (n : Nat) (s : State) : Bool := s.exch.runState != .initializing && !Tbl.has s.exch.inHand n

/-- A slot is taken: TAKEN, its mark set with the tag read, and the take position advances (R188). -/
def takeSlot (n : Nat) (tag : HostTag) (s : State) : State :=
  let next := (n + 1) % Config.numSlots
  let s := s.write16 (slotAt n) 2
  ({ s with exch := { s.exch with inHand := Tbl.insert s.exch.inHand n tag, takePos := next } } : State).write16 0x14 next

/-- The run states that R190 allows a request in. -/
inductive Allowed where
  | configuring | running | both
  deriving DecidableEq, Repr

def Allowed.ok : Allowed → RunState → Bool
  | .configuring, r => r == .configuring
  | .running, r => r == .running
  | .both, r => r != .initializing

/-- The check of R189 for a known kind, then its block. -/
def serve (a : Allowed) (f : Nat → State → State) (n : Nat) (s : State) : State :=
  if a.ok s.exch.runState then f n s else complete n .wrongState s.exch.runState.code 0 s

/-- A request command: the host posts the record in the slot at the take position, and the intake takes it where it may
(log 4). The taking is one handling. -/
def requestCommand (a : Allowed) (f : Nat → State → State) (r : Request) (s : State) : State :=
  let n := s.exch.takePos
  let t := postSlot n r s
  if mayTake n t then finish s (serve a f n (takeSlot n r.tag t)) else t

/-! ## Requests by kind (12.4) -/

/-- Request kinds 1 to 26 with the run states that allow them and the block that carries them out, on the record's
argument words; none for any other kind. -/
def blockOf (r : Request) : Option (Allowed × (Nat → State → State)) :=
  let a := r.w0.toNat
  let b := r.w1.toNat
  let c := r.w2.toNat
  match r.kind with
  | 1 => some (.configuring, fun n => loadRequest .sections n a b c)
  | 2 => some (.configuring, fun n => loadRequest .points n a b c)
  | 3 => some (.configuring, fun n => loadRequest .signals n a b c)
  | 4 => some (.configuring, fun n => loadRequest .routes n a b c)
  | 5 => some (.configuring, fun n => loadRequest .table n a b c)
  | 6 => some (.both, fun n => loadRequest .shows n a b c)
  | 7 => some (.both, fun n => loadRequest .lamps n a b c)
  | 8 => some (.both, fun n => setParameters n a b c)
  | 9 => some (.configuring, startRequest)
  | 10 => some (.both, fun n => layoutReset (some n))
  | 11 => some (.running, fun n => disableSection n a)
  | 12 => some (.running, fun n => enableSection n a)
  | 13 => some (.running, fun n => resetSection n a)
  | 14 => some (.running, fun n => labelTag n a b)
  | 15 => some (.running, fun n => setRoute n a b c)
  | 16 => some (.running, fun n => cancelRequest n a)
  | 17 => some (.running, fun n => movePoint n a b)
  | 18 => some (.running, fun n => restorePoint n a)
  | 19 => some (.running, allStopRequest)
  | 20 => some (.running, resumeRequest)
  | 21 => some (.running, fun n => turnTable n a b)
  | 22 => some (.running, fun n => homeTable n a b)
  | 23 => some (.running, stopTable)
  | 24 => some (.running, fun n => runShow n a)
  | 25 => some (.running, suspendVisitors)
  | 26 => some (.running, resumeVisitors)
  | _ => none

/-- A taken slot checked and passed on (R189). -/
def serveSlot (n : Nat) (r : Request) (s : State) : State :=
  match blockOf r with
  | none => complete n .unknownRequest 0 0 s
  | some (a, f) => serve a f n s

/-! ## The examination (R188) -/

/-- The slot at the take position reads POSTED and may be taken. -/
def nextPosted (s : State) : Bool := s.read16 (slotAt s.exch.takePos) == 1 && mayTake s.exch.takePos s

/-- Slots are taken, each handled whole before the next, until one is not taken; at most 32 (R188). -/
def takeSlots : Nat → State → State
  | 0, s => s
  | k + 1, s =>
    if nextPosted s then
      let n := s.exch.takePos
      let r := slotRequest n s
      takeSlots k (finish s (serveSlot n r (takeSlot n r.tag s)))
    else s

/-- An examination: the poll interval and the levels are read, the slots are taken, the poll timer starts (R188). -/
def examine (s : State) : State :=
  let p := min (s.read16 0x10) 255
  let s := takeSlots Config.numSlots (readLevels (s.write16 0x10 p))
  { s with exch := { s.exch with pollTimer := if p = 0 then none else some p } }

/-! ## The host port (R185, R186, R197) -/

/-- Any access other than a lower-half read breaks the latch's pairing (R186). -/
def breakPairing (s : State) : State := { s with exch := { s.exch with paired := false } }

/-- The value driven on the data pins. -/
def drive (v : Half) (s : State) : State := { s with exch := { s.exch with bus := v } }

/-- A write to NUDGE; ignored in INITIALIZING (R185, R188). -/
def nudged (s : State) : State :=
  let s := breakPairing s
  if s.exch.runState = .initializing then s else examine s

/-- The poll timer expires (R188). -/
def pollExpires (s : State) : State :=
  match s.exch.pollTimer with
  | none => s
  | some _ => examine s

/-- The STATE register (12.1). -/
def stateRegister (e : Exchange) : Half :=
  BitVec.ofNat 16 (e.runState.code + bit e.reports 4 + bit e.done 5 + bit e.stop 6)

/-- A read of STATE clears the DONE cause (R197). -/
def readState (s : State) : State :=
  let s := drive (stateRegister s.exch) (breakPairing s)
  evalLine { s with exch := { s.exch with done := false } }

/-- The IDENT register: part code 640 and the revision (12.1, log 31). -/
def identRegister : Half := BitVec.ofNat 16 (640 + 4096 * Config.revision.toNat)

/-- The register accesses that have no effect (R185). -/
def registerIgnored (a : RegisterAccess) (s : State) : State :=
  let s := breakPairing s
  match a with
  | .writeIdent _ | .writeState _ | .writeControl _ => s
  | .readIdent => drive identRegister s
  | .readNudge | .readControl => drive 0#16 s

/-- A lower-half read: the upper half is latched (R186). -/
def readLower (word : Fin 8192) (s : State) : State :=
  let a := 4 * word.val
  { s with exch := { s.exch with bus := Mem.read16 s.exch.mem a, latchVal := Mem.read16 s.exch.mem (a + 2),
                                 latchOff := a, paired := true } }

/-- A host write, or an upper-half read: from the latch where it follows the lower-half read of its word (R186). -/
def memoryAccess (m : MemAccess) (s : State) : State :=
  match m with
  | .write hw v => (breakPairing s).write16 (2 * hw.val) v.toNat
  | .readUpper word =>
    let a := 4 * word.val
    let v := if s.exch.paired && s.exch.latchOff == a then s.exch.latchVal else Mem.read16 s.exch.mem (a + 2)
    drive v (breakPairing s)

end Sys2Proof.Machine
end

