-- ==== Sys2Proof/Machine/Clock.lean ====
section
/-! DEFINITION. The passing of one layout-clock millisecond, which is what step does on an empty queue (R190, log 2),
and the three commands that name a part of it (R140, R172, R179, log 39). -/

namespace Sys2Proof.Machine

/-- A running timer has one millisecond less; its expiry is a command (log 3). -/
def less : Option Nat → Option Nat := Option.map fun n => n - 1

/-- The timers of the occupancy unit and the tag unit. -/
def tickOcc (o : OccUnit) : OccUnit :=
  { o with secs := o.secs.map fun x => (x.1, { x.2 with discTimer := less x.2.discTimer }) }

def tickTags (t : TagUnit) : TagUnit :=
  { t with table := t.table.map fun x => (x.1, { x.2 with timer := less x.2.timer }) }

/-- The timers of the interlocking. -/
def tickIlk (i : Interlocking) : Interlocking :=
  { i with active := i.active.map fun x => (x.1, { x.2 with timer := less x.2.timer }),
           stack := i.stack.map fun x => { x with expiry := less x.expiry } }

/-- The timers of the point controller. -/
def tickPts (p : PointUnit) : PointUnit :=
  { p with state := p.state.map fun x => (x.1, { x.2 with loss := less x.2.loss }),
           queue := p.queue.map fun o => { o with timer := less o.timer },
           pulseTimer := less p.pulseTimer, rechargeTimer := less p.rechargeTimer }

/-- The timers of the turntable controller. -/
def tickTable (t : Turntable) : Turntable :=
  { t with jogHold := less t.jogHold, boltTimer := less t.boltTimer, settleTimer := less t.settleTimer }

/-- The timers of the visitor unit. -/
def tickVisitors (v : VisitorUnit) : VisitorUnit :=
  { v with cool := v.cool.map fun x => (x.1, x.2 - 1),
           runner := v.runner.map fun r => { r with stepTimer := less r.stepTimer, durTimer := less r.durTimer } }

/-- Turntable mirror word 6 rewritten (R140). -/
def mirrorJogHold (s : State) : State :=
  s.writeWord Config.tableMirror 16 6 (tableMirrorWord s 6)

/-- One millisecond of the layout clock: the clock, the flash count, and every running timer (R190, R178, log 2). -/
def tick (s : State) : State :=
  let before := s
  let s := { s with occ := tickOcc s.occ, tags := tickTags s.tags, ilk := tickIlk s.ilk, pts := tickPts s.pts,
                    tt := tickTable s.tt, vis := tickVisitors s.vis,
                    disp := { s.disp with idleTimer := less s.disp.idleTimer },
                    exch := { s.exch with pollTimer := less s.exch.pollTimer },
                    clock := (s.clock + 1) % Config.clockMod }
  let s := if before.tt.jogHold.isSome then mirrorJogHold s else s
  settleVisitorWord before 4 (tickFlash s)

/-- One millisecond of the jog hold timer (R140). -/
def jogHoldPasses (s : State) : State :=
  match s.tt.jogHold with
  | none => s
  | some n => mirrorJogHold { s with tt := { s.tt with jogHold := some (n - 1) } }

/-- The remaining time at which the whole seconds of a timer, rounded up, become one less (R172). -/
def nextSecond (ms : Nat) : Nat := 1000 * ((ms + 999) / 1000 - 1)

/-- A timer of the runner moved to its next whole second. -/
def timerPasses (t : ShowTimer) (r : Runner) : Runner :=
  match t with
  | .step => { r with stepTimer := r.stepTimer.map nextSecond }
  | .duration => { r with durTimer := r.durTimer.map nextSecond }

/-- The whole seconds remaining of a timer of the runner change, and word 4 is rewritten (R172). -/
def secondPasses (t : ShowTimer) (s : State) : State :=
  match s.vis.runner with
  | none => s
  | some r => mirrorVisitorWord 4 { s with vis := { s.vis with runner := some (timerPasses t r) } }

/-- The flash count comes to the next multiple of 125 ms, and the levels follow (R178, R179). -/
def flashPasses (s : State) : State :=
  refreshLevels { s with disp := { s.disp with flash := (s.disp.flash / 125 + 1) * 125 % 1000 } }

end Sys2Proof.Machine
end

