-- ==== Sys2Proof/WellFormed.lean ====
section
/-! DEFINITION. Which commands are well formed: the one check that the operand types do not make already (numbers of
items are bounded by their Fin types, and half-words by R185). -/

namespace Sys2Proof

/-- CONTROL's two codes (12.1): FULL_RESET 101 and LAYOUT_RESET 102 are rows of their own, so a write of either is
not a REGISTER_WRITE_IGNORED. -/
def RegisterAccess.wf : RegisterAccess → Bool
  | .writeControl v => v ≠ 101#16 && v ≠ 102#16
  | .writeIdent _ | .writeState _ | .readIdent | .readNudge | .readControl => true

/-- A command is well formed. -/
def Instr.wf : Instr → Bool
  | .detectorSample _ _ => true
  | .axleHeadSample _ _ _ => true
  | .discrepancyTimerExpiry _ => true
  | .disableSection _ _ => true
  | .enableSection _ _ => true
  | .resetSection _ _ => true
  | .lostHoldExpiry _ => true
  | .labelTag _ _ _ => true
  | .loadSections _ _ _ _ => true
  | .loadRoutes _ _ _ _ => true
  | .loadPoints _ _ _ _ => true
  | .loadSignals _ _ _ _ => true
  | .loadTable _ _ _ _ => true
  | .loadShows _ _ _ _ => true
  | .loadLamps _ _ _ _ => true
  | .loadRecord => true
  | .setParameters _ _ _ _ => true
  | .start _ => true
  | .layoutReset _ => true
  | .setRoute _ _ _ _ => true
  | .stackEntryExpiry _ => true
  | .cancelRoute _ _ => true
  | .overlapTimerExpiry _ => true
  | .approachTimerExpiry _ => true
  | .pointContactSample _ _ => true
  | .lossTimerExpiry _ => true
  | .pulseTimerExpiry => true
  | .windowTimerExpiry _ => true
  | .rechargeTimerExpiry => true
  | .travelTimerExpiry _ => true
  | .movePoint _ _ _ => true
  | .restorePoint _ _ => true
  | .stopPinSample _ => true
  | .allStop _ => true
  | .resume _ => true
  | .boltContactSample _ _ => true
  | .boltTimerExpiry => true
  | .settleTimerExpiry => true
  | .stepBoundary _ => true
  | .homingSearchLimit _ => true
  | .legEnd _ => true
  | .stopComplete _ => true
  | .turnTable _ _ _ => true
  | .homeTable _ _ _ => true
  | .stopTable _ => true
  | .jogHoldTimerExpiry => true
  | .buttonSample _ _ => true
  | .stepTimerExpiry => true
  | .durationTimerExpiry => true
  | .coolDownExpiry _ => true
  | .runShow _ _ => true
  | .visitorSuspend _ => true
  | .visitorResume _ => true
  | .flashPhaseChange => true
  | .idleTimerExpiry => true
  | .nudge _ => true
  | .pollTimerExpiry => true
  | .stateRead => true
  | .fullReset _ => true
  | .controlLayoutReset => true
  | .registerWriteIgnored a => a.wf
  | .halfWordLatchRead _ => true
  | .initialReset _ => true
  | .hostMemoryAccess _ => true
  | .stepOutputActive => true
  | .jogHoldRemainingChange => true
  | .wholeSecondRemainingChange _ => true

end Sys2Proof
end

