-- ==== Sys2Proof/Machine/HostCommands.lean ====
section
/-! DEFINITION. The meanings of the commands of the host port and the intake (chapter 11). -/

namespace Sys2Proof.Machine

/-- NUDGE (R188). -/
def execNudge (_value : Half) (s : State) : Host.Outcome State Fault Refusal :=
  .next (nudged s)

/-- POLL_TIMER_EXPIRY (R188). -/
def execPollTimerExpiry (s : State) : Host.Outcome State Fault Refusal :=
  .next (pollExpires s)

/-- STATE_READ (R197). -/
def execStateRead (s : State) : Host.Outcome State Fault Refusal :=
  .next (readState s)

/-- HALF_WORD_LATCH_READ (R186). -/
def execHalfWordLatchRead (word : Fin 8192) (s : State) : Host.Outcome State Fault Refusal :=
  .next (readLower word s)

/-- HOST_MEMORY_ACCESS (R186). -/
def execHostMemoryAccess (access : MemAccess) (s : State) : Host.Outcome State Fault Refusal :=
  .next (memoryAccess access s)

/-- REGISTER_WRITE_IGNORED (R185): no effect beyond the port's data and the latch's pairing; a CONTROL code of another
row is not this command (log 32). -/
def execRegisterWriteIgnored (access : RegisterAccess) (s : State) : Host.Outcome State Fault Refusal :=
  if access.wf then .next (registerIgnored access s) else .fault .illFormed

end Sys2Proof.Machine
end

