-- ==== Sys2Proof/Machine/LoadCommands.lean ====
section
/-! DEFINITION. The meanings of the commands of loading and parameters (chapter 11). -/

namespace Sys2Proof.Machine

/-- LOAD_SECTIONS (R1, R23, R191). -/
def execLoadSections (tag : HostTag) (offset length count : Word) (s : State) : Host.Outcome State Fault Refusal :=
  .next (requestCommand .configuring (fun n => loadRequest .sections n offset.toNat length.toNat count.toNat) ⟨1, tag, offset, length, count⟩ s)

/-- LOAD_ROUTES (R39 to R41, R191). -/
def execLoadRoutes (tag : HostTag) (offset length count : Word) (s : State) : Host.Outcome State Fault Refusal :=
  .next (requestCommand .configuring (fun n => loadRequest .routes n offset.toNat length.toNat count.toNat) ⟨4, tag, offset, length, count⟩ s)

/-- LOAD_POINTS (R88, R191). -/
def execLoadPoints (tag : HostTag) (offset length count : Word) (s : State) : Host.Outcome State Fault Refusal :=
  .next (requestCommand .configuring (fun n => loadRequest .points n offset.toNat length.toNat count.toNat) ⟨2, tag, offset, length, count⟩ s)

/-- LOAD_SIGNALS (R107, R191). -/
def execLoadSignals (tag : HostTag) (offset length count : Word) (s : State) : Host.Outcome State Fault Refusal :=
  .next (requestCommand .configuring (fun n => loadRequest .signals n offset.toNat length.toNat count.toNat) ⟨3, tag, offset, length, count⟩ s)

/-- LOAD_TABLE (R121, R122, R191). -/
def execLoadTable (tag : HostTag) (offset length count : Word) (s : State) : Host.Outcome State Fault Refusal :=
  .next (requestCommand .configuring (fun n => loadRequest .table n offset.toNat length.toNat count.toNat) ⟨5, tag, offset, length, count⟩ s)

/-- LOAD_SHOWS (R157, R191). -/
def execLoadShows (tag : HostTag) (offset length count : Word) (s : State) : Host.Outcome State Fault Refusal :=
  .next (requestCommand .both (fun n => loadRequest .shows n offset.toNat length.toNat count.toNat) ⟨6, tag, offset, length, count⟩ s)

/-- LOAD_LAMPS (R174, R191). -/
def execLoadLamps (tag : HostTag) (offset length count : Word) (s : State) : Host.Outcome State Fault Refusal :=
  .next (requestCommand .both (fun n => loadRequest .lamps n offset.toNat length.toNat count.toNat) ⟨7, tag, offset, length, count⟩ s)

/-- LOAD_RECORD: the reading LOAD takes its next record (R191). -/
def execLoadRecord (s : State) : Host.Outcome State Fault Refusal :=
  .next (finish s (loadNext s))

/-- SET_PARAMETERS (R192). -/
def execSetParameters (tag : HostTag) (group offset count : Word) (s : State) : Host.Outcome State Fault Refusal :=
  .next (requestCommand .both (fun n => setParameters n group.toNat offset.toNat count.toNat) ⟨8, tag, group, offset, count⟩ s)

end Sys2Proof.Machine
end

