-- ==== Sys2Proof/Machine/PanelCommands.lean ====
section
/-! DEFINITION. The meanings of the commands of the visitor panel and the display (chapters 9 and 10). -/

namespace Sys2Proof.Machine

/-- BUTTON_SAMPLE (R154 to R156). -/
def execButtonSample (button : Fin 18) (pressed : Bool) (s : State) : Host.Outcome State Fault Refusal :=
  .next (finish s (buttonSampled button.val pressed s))

/-- STEP_TIMER_EXPIRY (R162, R165). -/
def execStepTimerExpiry (s : State) : Host.Outcome State Fault Refusal :=
  .next (finish s (stepTimerExpires s))

/-- DURATION_TIMER_EXPIRY (R166). -/
def execDurationTimerExpiry (s : State) : Host.Outcome State Fault Refusal :=
  .next (finish s (durationExpires s))

/-- COOL_DOWN_EXPIRY (R168). -/
def execCoolDownExpiry (show_ : Fin 32) (s : State) : Host.Outcome State Fault Refusal :=
  .next (finish s (coolDownExpires show_.val s))

/-- RUN_SHOW (R160). -/
def execRunShow (tag : HostTag) (show_ : Word) (s : State) : Host.Outcome State Fault Refusal :=
  .next (requestCommand .running (fun n => runShow n show_.toNat) ⟨24, tag, show_, 0#32, 0#32⟩ s)

/-- VISITOR_SUSPEND (R169). -/
def execVisitorSuspend (tag : HostTag) (s : State) : Host.Outcome State Fault Refusal :=
  .next (requestCommand .running suspendVisitors ⟨25, tag, 0#32, 0#32, 0#32⟩ s)

/-- VISITOR_RESUME (R169). -/
def execVisitorResume (tag : HostTag) (s : State) : Host.Outcome State Fault Refusal :=
  .next (requestCommand .running resumeVisitors ⟨26, tag, 0#32, 0#32, 0#32⟩ s)

/-- WHOLE_SECOND_REMAINING_CHANGE (R172, log 39). -/
def execWholeSecondRemainingChange (timer : ShowTimer) (s : State) : Host.Outcome State Fault Refusal :=
  .next (secondPasses timer s)

/-- FLASH_PHASE_CHANGE (R178, R179, log 39). -/
def execFlashPhaseChange (s : State) : Host.Outcome State Fault Refusal :=
  .next (flashPasses s)

/-- IDLE_TIMER_EXPIRY (R180). -/
def execIdleTimerExpiry (s : State) : Host.Outcome State Fault Refusal :=
  .next (finish s (idleExpires s))

end Sys2Proof.Machine
end

