-- ==== Sys2Proof/Machine/PointCommands.lean ====
section
/-! DEFINITION. The meanings of the commands of points (chapter 5). -/

namespace Sys2Proof.Machine

/-- POINT_CONTACT_SAMPLE (R90). -/
def execPointContactSample (input : Fin 256) (closed : Bool) (s : State) : Host.Outcome State Fault Refusal :=
  .next (finish s (contactSample input.val closed s))

/-- LOSS_TIMER_EXPIRY (R93). -/
def execLossTimerExpiry (point : Fin 128) (s : State) : Host.Outcome State Fault Refusal :=
  .next (finish s (lossExpires point.val s))

/-- PULSE_TIMER_EXPIRY (R97). -/
def execPulseTimerExpiry (s : State) : Host.Outcome State Fault Refusal :=
  .next (finish s (pulseExpires s))

/-- WINDOW_TIMER_EXPIRY (R98). -/
def execWindowTimerExpiry (point : Fin 128) (s : State) : Host.Outcome State Fault Refusal :=
  .next (finish s (windowExpires point.val s))

/-- RECHARGE_TIMER_EXPIRY (R96). -/
def execRechargeTimerExpiry (s : State) : Host.Outcome State Fault Refusal :=
  .next (finish s (rechargeExpires s))

/-- TRAVEL_TIMER_EXPIRY (R99). -/
def execTravelTimerExpiry (point : Fin 128) (s : State) : Host.Outcome State Fault Refusal :=
  .next (finish s (travelExpires point.val s))

/-- MOVE_POINT (R101). -/
def execMovePoint (tag : HostTag) (point lie : Word) (s : State) : Host.Outcome State Fault Refusal :=
  .next (requestCommand .running (fun n => movePoint n point.toNat lie.toNat) ⟨17, tag, point, lie, 0#32⟩ s)

/-- RESTORE_POINT (R102). -/
def execRestorePoint (tag : HostTag) (point : Word) (s : State) : Host.Outcome State Fault Refusal :=
  .next (requestCommand .running (fun n => restorePoint n point.toNat) ⟨18, tag, point, 0#32, 0#32⟩ s)

end Sys2Proof.Machine
end

