-- ==== Sys2Proof/Machine/RouteCommands.lean ====
section
/-! DEFINITION. The meanings of the commands of routes (chapters 3 and 4). -/

namespace Sys2Proof.Machine

/-- SET_ROUTE (R43 to R52). -/
def execSetRoute (tag : HostTag) (route originator options : Word) (s : State) : Host.Outcome State Fault Refusal :=
  .next (requestCommand .running (fun n => setRoute n route.toNat originator.toNat options.toNat) ⟨15, tag, route, originator, options⟩ s)

/-- STACK_ENTRY_EXPIRY (R58). -/
def execStackEntryExpiry (route : Fin 512) (s : State) : Host.Outcome State Fault Refusal :=
  .next (finish s (stackExpires route.val s))

/-- CANCEL_ROUTE (R80). -/
def execCancelRoute (tag : HostTag) (route : Word) (s : State) : Host.Outcome State Fault Refusal :=
  .next (requestCommand .running (fun n => cancelRequest n route.toNat) ⟨16, tag, route, 0#32, 0#32⟩ s)

/-- OVERLAP_TIMER_EXPIRY (R79). -/
def execOverlapTimerExpiry (entry : Fin 48) (s : State) : Host.Outcome State Fault Refusal :=
  .next (finish s (overlapExpires entry.val s))

/-- APPROACH_TIMER_EXPIRY (R82). -/
def execApproachTimerExpiry (entry : Fin 48) (s : State) : Host.Outcome State Fault Refusal :=
  .next (finish s (approachExpires entry.val s))

end Sys2Proof.Machine
end

