-- ==== Sys2Proof/Machine/RunStateCommands.lean ====
section
/-! DEFINITION. The meanings of the commands of START and the resets (chapter 11). -/

namespace Sys2Proof.Machine

/-- START (R193). -/
def execStart (tag : HostTag) (s : State) : Host.Outcome State Fault Refusal :=
  .next (requestCommand .configuring startRequest ⟨9, tag, 0#32, 0#32, 0#32⟩ s)

/-- LAYOUT_RESET (R194). -/
def execLayoutReset (tag : HostTag) (s : State) : Host.Outcome State Fault Refusal :=
  .next (requestCommand .both (fun n => layoutReset (some n)) ⟨10, tag, 0#32, 0#32, 0#32⟩ s)

/-- CONTROL_LAYOUT_RESET: the LAYOUT_RESET code written to CONTROL; ignored in INITIALIZING (R185, R194). -/
def execControlLayoutReset (s : State) : Host.Outcome State Fault Refusal :=
  .next (if s.exch.runState = .initializing then breakPairing s else finish s (layoutReset none (breakPairing s)))

/-- FULL_RESET: the FULL_RESET code written to CONTROL (R185, R198). -/
def execFullReset (profileHigh : Bool) (s : State) : Host.Outcome State Fault Refusal :=
  .next (initialReset (profileOf profileHigh) s)

/-- INITIAL_RESET: power-on or the reset pin (R198). -/
def execInitialReset (profileHigh : Bool) (s : State) : Host.Outcome State Fault Refusal :=
  .next (initialReset (profileOf profileHigh) s)

end Sys2Proof.Machine
end

