-- ==== Sys2Proof/Machine/StopCommands.lean ====
section
/-! DEFINITION. The meanings of the commands of the layout stop (chapter 6). -/

namespace Sys2Proof.Machine

/-- STOP_PIN_SAMPLE (R114). -/
def execStopPinSample (active : Bool) (s : State) : Host.Outcome State Fault Refusal :=
  .next (finish s (stopPinSampled active s))

/-- ALL_STOP (R116). -/
def execAllStop (tag : HostTag) (s : State) : Host.Outcome State Fault Refusal :=
  .next (requestCommand .running allStopRequest ⟨19, tag, 0#32, 0#32, 0#32⟩ s)

/-- RESUME (R117). -/
def execResume (tag : HostTag) (s : State) : Host.Outcome State Fault Refusal :=
  .next (requestCommand .running resumeRequest ⟨20, tag, 0#32, 0#32, 0#32⟩ s)

end Sys2Proof.Machine
end

