-- ==== Sys2Proof/Machine/TableCommands.lean ====
section
/-! DEFINITION. The meanings of the commands of the turntable (chapters 7 and 8). -/

namespace Sys2Proof.Machine

/-- BOLT_CONTACT_SAMPLE (R125, R126). -/
def execBoltContactSample (contact : BoltContact) (closed : Bool) (s : State) : Host.Outcome State Fault Refusal :=
  .next (finish s (boltSample contact closed s))

/-- BOLT_TIMER_EXPIRY (R126). -/
def execBoltTimerExpiry (s : State) : Host.Outcome State Fault Refusal :=
  .next (finish s (boltExpires s))

/-- SETTLE_TIMER_EXPIRY (R127). -/
def execSettleTimerExpiry (s : State) : Host.Outcome State Fault Refusal :=
  .next (finish s (settleExpires s))

/-- STEP_BOUNDARY: the step in progress ends, with the index level read at the boundary (R127, R150). -/
def execStepBoundary (index : Bool) (s : State) : Host.Outcome State Fault Refusal :=
  .next (finish s (boundary index s))

/-- HOMING_SEARCH_LIMIT: the boundary that brings the search count to its limit (R131, log 5). -/
def execHomingSearchLimit (index : Bool) (s : State) : Host.Outcome State Fault Refusal :=
  .next (finish s (if atSearchLimit s.tt then boundary index s else s))

/-- LEG_END: the boundary of the last step of a leg (R127, log 5). -/
def execLegEnd (index : Bool) (s : State) : Host.Outcome State Fault Refusal :=
  .next (finish s (if atLegEnd s.tt then boundary index s else s))

/-- STOP_COMPLETE: the boundary of the last step of a stop (R133, R136, log 5). -/
def execStopComplete (index : Bool) (s : State) : Host.Outcome State Fault Refusal :=
  .next (finish s (if atStopEnd s.tt then boundary index s else s))

/-- TURN_TABLE (R128, R129). -/
def execTurnTable (tag : HostTag) (road deckEnd : Word) (s : State) : Host.Outcome State Fault Refusal :=
  .next (requestCommand .running (fun n => turnTable n road.toNat deckEnd.toNat) ⟨21, tag, road, deckEnd, 0#32⟩ s)

/-- HOME_TABLE (R130). -/
def execHomeTable (tag : HostTag) (road deckEnd : Word) (s : State) : Host.Outcome State Fault Refusal :=
  .next (requestCommand .running (fun n => homeTable n road.toNat deckEnd.toNat) ⟨22, tag, road, deckEnd, 0#32⟩ s)

/-- STOP_TABLE (R132, R133). -/
def execStopTable (tag : HostTag) (s : State) : Host.Outcome State Fault Refusal :=
  .next (requestCommand .running stopTable ⟨23, tag, 0#32, 0#32, 0#32⟩ s)

/-- JOG_HOLD_TIMER_EXPIRY (R136). -/
def execJogHoldTimerExpiry (s : State) : Host.Outcome State Fault Refusal :=
  .next (finish s (jogHoldExpires s))

/-- STEP_OUTPUT_ACTIVE: the first underflow of a step (R149). -/
def execStepOutputActive (s : State) : Host.Outcome State Fault Refusal :=
  .next (stepActive s)

/-- JOG_HOLD_REMAINING_CHANGE (R140, log 39). -/
def execJogHoldRemainingChange (s : State) : Host.Outcome State Fault Refusal :=
  .next (jogHoldPasses s)

end Sys2Proof.Machine
end

