-- ==== Sys2Proof/Machine/TrackCommands.lean ====
section
/-! DEFINITION. The meanings of the commands of detection and tags (chapters 1 and 2). -/

namespace Sys2Proof.Machine

/-- DETECTOR_SAMPLE: one 1 ms sample of one detector input (R3, R4, R11). -/
def execDetectorSample (input : Fin 256) (occupied : Bool) (s : State) : Host.Outcome State Fault Refusal :=
  .next (finish s (detectorSampled input.val occupied s))

/-- AXLE_HEAD_SAMPLE: one fast sample pair of one head's two physical channels (R6 to R9). -/
def execAxleHeadSample (head : Fin 32) (first second : Bool) (s : State) : Host.Outcome State Fault Refusal :=
  .next (finish s (headSampled head.val (first, second) s))

/-- DISCREPANCY_TIMER_EXPIRY (R14). -/
def execDiscrepancyTimerExpiry (sec : Fin 256) (s : State) : Host.Outcome State Fault Refusal :=
  .next (finish s (discrepancyExpires sec.val s))

/-- LOST_HOLD_EXPIRY (R34). -/
def execLostHoldExpiry (t : Fin 64) (s : State) : Host.Outcome State Fault Refusal :=
  .next (finish s (lostHoldExpires t.val s))

/-- DISABLE_SECTION (R16). -/
def execDisableSection (tag : HostTag) (sec : Word) (s : State) : Host.Outcome State Fault Refusal :=
  .next (requestCommand .running (fun n => disableSection n sec.toNat) ⟨11, tag, sec, 0#32, 0#32⟩ s)

/-- ENABLE_SECTION (R17). -/
def execEnableSection (tag : HostTag) (sec : Word) (s : State) : Host.Outcome State Fault Refusal :=
  .next (requestCommand .running (fun n => enableSection n sec.toNat) ⟨12, tag, sec, 0#32, 0#32⟩ s)

/-- RESET_SECTION (R18). -/
def execResetSection (tag : HostTag) (sec : Word) (s : State) : Host.Outcome State Fault Refusal :=
  .next (requestCommand .running (fun n => resetSection n sec.toNat) ⟨13, tag, sec, 0#32, 0#32⟩ s)

/-- LABEL_TAG (R36). -/
def execLabelTag (tag : HostTag) (t label : Word) (s : State) : Host.Outcome State Fault Refusal :=
  .next (requestCommand .running (fun n => labelTag n t.toNat label.toNat) ⟨14, tag, t, label, 0#32⟩ s)

end Sys2Proof.Machine
end

