-- ==== Sys2Proof/Machine/Dispatch.lean ====
section
/-! DEFINITION. The dispatch of commands to their meanings: one arm per constructor of Instr. -/

namespace Sys2Proof.Machine

def exec (i : Instr) (s : State) : Host.Outcome State Fault Refusal :=
  match i with
  | .detectorSample input occupied => Sys2Proof.Machine.execDetectorSample input occupied s
  | .axleHeadSample head first second => Sys2Proof.Machine.execAxleHeadSample head first second s
  | .discrepancyTimerExpiry sec => Sys2Proof.Machine.execDiscrepancyTimerExpiry sec s
  | .disableSection tag sec => Sys2Proof.Machine.execDisableSection tag sec s
  | .enableSection tag sec => Sys2Proof.Machine.execEnableSection tag sec s
  | .resetSection tag sec => Sys2Proof.Machine.execResetSection tag sec s
  | .lostHoldExpiry t => Sys2Proof.Machine.execLostHoldExpiry t s
  | .labelTag tag t label => Sys2Proof.Machine.execLabelTag tag t label s
  | .loadSections tag offset length count => Sys2Proof.Machine.execLoadSections tag offset length count s
  | .loadRoutes tag offset length count => Sys2Proof.Machine.execLoadRoutes tag offset length count s
  | .loadPoints tag offset length count => Sys2Proof.Machine.execLoadPoints tag offset length count s
  | .loadSignals tag offset length count => Sys2Proof.Machine.execLoadSignals tag offset length count s
  | .loadTable tag offset length count => Sys2Proof.Machine.execLoadTable tag offset length count s
  | .loadShows tag offset length count => Sys2Proof.Machine.execLoadShows tag offset length count s
  | .loadLamps tag offset length count => Sys2Proof.Machine.execLoadLamps tag offset length count s
  | .loadRecord => Sys2Proof.Machine.execLoadRecord s
  | .setParameters tag group offset count => Sys2Proof.Machine.execSetParameters tag group offset count s
  | .start tag => Sys2Proof.Machine.execStart tag s
  | .layoutReset tag => Sys2Proof.Machine.execLayoutReset tag s
  | .setRoute tag route originator options => Sys2Proof.Machine.execSetRoute tag route originator options s
  | .stackEntryExpiry route => Sys2Proof.Machine.execStackEntryExpiry route s
  | .cancelRoute tag route => Sys2Proof.Machine.execCancelRoute tag route s
  | .overlapTimerExpiry entry => Sys2Proof.Machine.execOverlapTimerExpiry entry s
  | .approachTimerExpiry entry => Sys2Proof.Machine.execApproachTimerExpiry entry s
  | .pointContactSample input closed => Sys2Proof.Machine.execPointContactSample input closed s
  | .lossTimerExpiry point => Sys2Proof.Machine.execLossTimerExpiry point s
  | .pulseTimerExpiry => Sys2Proof.Machine.execPulseTimerExpiry s
  | .windowTimerExpiry point => Sys2Proof.Machine.execWindowTimerExpiry point s
  | .rechargeTimerExpiry => Sys2Proof.Machine.execRechargeTimerExpiry s
  | .travelTimerExpiry point => Sys2Proof.Machine.execTravelTimerExpiry point s
  | .movePoint tag point lie => Sys2Proof.Machine.execMovePoint tag point lie s
  | .restorePoint tag point => Sys2Proof.Machine.execRestorePoint tag point s
  | .stopPinSample active => Sys2Proof.Machine.execStopPinSample active s
  | .allStop tag => Sys2Proof.Machine.execAllStop tag s
  | .resume tag => Sys2Proof.Machine.execResume tag s
  | .boltContactSample contact closed => Sys2Proof.Machine.execBoltContactSample contact closed s
  | .boltTimerExpiry => Sys2Proof.Machine.execBoltTimerExpiry s
  | .settleTimerExpiry => Sys2Proof.Machine.execSettleTimerExpiry s
  | .stepBoundary index => Sys2Proof.Machine.execStepBoundary index s
  | .homingSearchLimit index => Sys2Proof.Machine.execHomingSearchLimit index s
  | .legEnd index => Sys2Proof.Machine.execLegEnd index s
  | .stopComplete index => Sys2Proof.Machine.execStopComplete index s
  | .turnTable tag road deckEnd => Sys2Proof.Machine.execTurnTable tag road deckEnd s
  | .homeTable tag road deckEnd => Sys2Proof.Machine.execHomeTable tag road deckEnd s
  | .stopTable tag => Sys2Proof.Machine.execStopTable tag s
  | .jogHoldTimerExpiry => Sys2Proof.Machine.execJogHoldTimerExpiry s
  | .buttonSample button pressed => Sys2Proof.Machine.execButtonSample button pressed s
  | .stepTimerExpiry => Sys2Proof.Machine.execStepTimerExpiry s
  | .durationTimerExpiry => Sys2Proof.Machine.execDurationTimerExpiry s
  | .coolDownExpiry show_ => Sys2Proof.Machine.execCoolDownExpiry show_ s
  | .runShow tag show_ => Sys2Proof.Machine.execRunShow tag show_ s
  | .visitorSuspend tag => Sys2Proof.Machine.execVisitorSuspend tag s
  | .visitorResume tag => Sys2Proof.Machine.execVisitorResume tag s
  | .flashPhaseChange => Sys2Proof.Machine.execFlashPhaseChange s
  | .idleTimerExpiry => Sys2Proof.Machine.execIdleTimerExpiry s
  | .nudge value => Sys2Proof.Machine.execNudge value s
  | .pollTimerExpiry => Sys2Proof.Machine.execPollTimerExpiry s
  | .stateRead => Sys2Proof.Machine.execStateRead s
  | .fullReset profileHigh => Sys2Proof.Machine.execFullReset profileHigh s
  | .controlLayoutReset => Sys2Proof.Machine.execControlLayoutReset s
  | .registerWriteIgnored access => Sys2Proof.Machine.execRegisterWriteIgnored access s
  | .halfWordLatchRead word => Sys2Proof.Machine.execHalfWordLatchRead word s
  | .initialReset profileHigh => Sys2Proof.Machine.execInitialReset profileHigh s
  | .hostMemoryAccess access => Sys2Proof.Machine.execHostMemoryAccess access s
  | .stepOutputActive => Sys2Proof.Machine.execStepOutputActive s
  | .jogHoldRemainingChange => Sys2Proof.Machine.execJogHoldRemainingChange s
  | .wholeSecondRemainingChange timer => Sys2Proof.Machine.execWholeSecondRemainingChange timer s

end Sys2Proof.Machine
end

