-- ==== Sys2Proof/Machine/RecordBytes.lean ====
section
/-! DEFINITION. The bytes of a record as R200 lays them out: what a host writes into the data area to load an item. The
readers of Records.lean stand on the other side, and the statements say that LOAD_RECORD takes from these bytes the item
they spell. Every byte of a field whose presence mark is clear holds `fill`, for such a field is not read; `full` sets the
mark of a field that holds its default, which may also be left out. -/

namespace Sys2Proof.Machine

/-- A 16-bit field, lower byte first (R199). -/
def half (n : Nat) : List Nat := [n % 256, n / 256]

def Detection.code : Detection → Nat
  | .current => 1
  | .axle => 2
  | .both => 3

/-- A neighbour of a SECTION record: section, condition present, point, lie. -/
def neighbourBytes (b : Neighbour) : List Nat :=
  match b.cond with
  | none => [b.sec, 0, 0, 0]
  | some (p, l) => [b.sec, 1, p, l.code]

def sectionBytes (full : Bool) (fill n : Nat) (r : SectionRec) : List Nat :=
  let up := full || r.pickUp != 20
  let down := full || r.dropOut != 500
  let pub := full || r.isPublic
  half (12 + 4 * r.neighbours.length)
    ++ [1, bit up 0 + bit down 1 + bit r.input.isSome 2 + bit (r.discrepancy != 0) 3 + bit pub 4, n, r.detection.code,
        r.input.getD fill, if up then r.pickUp else fill, if down then r.dropOut / 10 else fill,
        if r.discrepancy = 0 then fill else r.discrepancy / 100, if pub then bit r.isPublic 0 else fill,
        r.neighbours.length]
    ++ r.neighbours.flatMap neighbourBytes

/-- The sides and the invert flag of a HEAD record. -/
def headBytes (fill k : Nat) (a b : Option Nat) (invert : Bool) : List Nat :=
  half 8 ++ [2, bit a.isSome 0 + bit b.isSome 1, k, a.getD fill, b.getD fill, bit invert 0]

def RouteClass.code : RouteClass → Nat
  | .main => 1
  | .callOn => 2
  | .shunt => 3

def elementBytes : Element → List Nat
  | .sec n => [1, n]
  | .point p l => [2 + 4 * l.code, p]

def routeBytes (fill n : Nat) (r : RouteRec) : List Nat :=
  half (16 + 2 * (r.elements.length + r.flank.length + r.overlap.length + r.approach.length)) ++ half n
    ++ [r.cls.code, bit r.visitor 0 + bit r.exit.isSome 1 + bit r.table.isSome 2, r.entry, r.exit.getD fill,
        r.approachTime, r.overlapTime, if r.table.isSome then roadEndByte r.table else fill, r.elements.length,
        r.flank.length, r.overlap.length, r.approach.length, 0]
    ++ r.elements.flatMap elementBytes ++ r.flank.flatMap (fun x => [x.2.code, x.1])
    ++ r.overlap.flatMap (fun m => [0, m]) ++ r.approach.flatMap (fun m => [0, m])

/-- The two contact inputs of a point, where its feedback has them. -/
def Feedback.inputs : Feedback → Option (Nat × Nat)
  | .pair a b => some (a, b)
  | .none => Option.none

def pointBytes (full : Bool) (fill p : Nat) (r : PointRec) : List Nat :=
  let pair := r.feedback.inputs
  let timed := r.motor == .slow && (full || r.travel != 3000)
  half 12
    ++ [bit pair.isSome 0 + bit pair.isSome 1 + bit timed 2, p, r.sec, if r.motor = .slow then 2 else 1,
        if pair.isSome then 1 else 2, (pair.map Prod.fst).getD fill, (pair.map Prod.snd).getD fill, 0]
    ++ (if timed then half r.travel else [fill, fill])

def signalBytes (fill x : Nat) (r : SignalRec) : List Nat :=
  half 8
    ++ [bit r.approach.isSome 0 + bit r.protect.isSome 1 + bit r.home.isSome 2, x, r.kind.code, r.approach.getD fill,
        r.protect.getD fill, r.home.getD fill]

def deckBytes (fill : Nat) (d : DeckRec) : List Nat :=
  half 26 ++ [1, if d.stop.isSome then 2 else 1] ++ half d.c
    ++ (match d.stop with
        | some m => half m
        | none => [fill, fill])
    ++ half d.indexOffset ++ half d.v0 ++ half d.vmax ++ half d.ramp ++ half d.jog ++ half d.snap
    ++ [if d.rising then 1 else 2, d.backlash, bit d.bolt 0, d.boltTime / 10, d.settleTime / 10, d.sec]

def roadBytes (n : Nat) (q : Road) : List Nat :=
  half 8 ++ [2, n] ++ half q.position ++ [q.sec, if q.reversed then 2 else 1]

def stepBytes : ShowStep → List Nat
  | .setRoute r t => [1, 0] ++ half r ++ half t
  | .cancelRoute r => [2, 0] ++ half r ++ half 0
  | .turn x => [3, roadEndByte (some x)] ++ half 0 ++ half 0
  | .waitSection n occupied t => [4, if occupied then 1 else 2] ++ half n ++ half t
  | .pause t => [5, 0] ++ half 0 ++ half t

def showBytes (n : Nat) (w : ShowRec) : List Nat :=
  half (10 + 6 * w.steps.length) ++ [n, w.button.getD 255] ++ half w.coolDown ++ half w.maxDuration
    ++ [w.steps.length, 0] ++ w.steps.flatMap stepBytes

/-- The kind, the index and the value of a lamp source (R175, 12.4). -/
def LampSource.fields : LampSource → Nat × Option Nat × Option Nat
  | .none => (0, Option.none, Option.none)
  | .sectionOccupied n => (1, some n, Option.none)
  | .sectionRouted n => (2, some n, Option.none)
  | .signalAspect x a => (3, some x, some a.code)
  | .pointLie p l => (4, some p, some l.code)
  | .tableAtRoad x => (5, some x.road, some (bit (x.deckEnd == .b) 0))
  | .showRunning n => (6, some n, Option.none)
  | .tagPresent n => (7, some n, Option.none)

def lampBytes (fill i : Nat) (l : Lamp) : List Nat :=
  let f := l.source.fields
  half 10 ++ half i
    ++ [f.1, bit f.2.1.isSome 0 + bit f.2.2.isSome 1, f.2.1.getD fill, f.2.2.getD fill, l.onMode.code, l.offMode.code]

/-- The length that a record's own type and counts give it (R200), by its bytes; none for a type that its kind has not. -/
def countedLength (k : LoadKind) (byte : Nat → Nat) : Option Nat :=
  match k with
  | .sections => if byte 2 = 1 then some (12 + 4 * byte 11) else if byte 2 = 2 then some 8 else none
  | .points => some 12
  | .signals => some 8
  | .routes => some (16 + 2 * (byte 11 + byte 12 + byte 13 + byte 14))
  | .table => if byte 2 = 1 then some 26 else if byte 2 = 2 then some 8 else none
  | .shows => some (10 + 6 * byte 8)
  | .lamps => some 10

end Sys2Proof.Machine
end

