-- ==== Sys2Proof/Safety.lean ====
section
/-! DEFINITION. What a well-kept GL-640 is, in the terms the statements use: the invariant `Sound`, a machine at rest, a
slot ready to be taken, an answered slot, and the parts of the state that a command leaves as they were. -/

namespace Sys2Proof.Machine

/-! ## The invariant -/

/-- Exchange memory is in its canonical form: a decidable condition on plain data. -/
abbrev State.memOk (s : State) : Prop := Mem.wf s.exch.mem = true

/-- The deck record and the deck position agree: the index offset and the position lie in 0 to C − 1 (R121, R142). -/
def deckSound (t : Turntable) : Prop :=
  ∀ d, t.deck = some d → d.indexOffset < d.c ∧ ∀ p, t.pos = some p → p < d.c

/-- The pointers, counters and lists are within their bounds: the log pointer and the take position (R184, R188), the
layout clock and the flash count (R190, R178), the places of the route stack, the move queue and the visitor queue (R53,
R94, R159), and the deck position; and the attention line is asserted just while an active cause has its mark in the
enable set (R197). -/
structure Limits (s : State) : Prop where
  logPointer : s.exch.w < Config.numLog
  takePos : s.exch.takePos < Config.numSlots
  clock : s.clock < Config.clockMod
  flash : s.disp.flash < 1000
  stack : s.ilk.stack.length ≤ Config.numStack
  queue : s.pts.queue.length ≤ Config.numQueue
  shows : s.vis.queue.length ≤ Config.visitorQueue
  busy : s.vis.busy ≤ Config.visitorQueue
  deck : deckSound s.tt
  line : s.exch.attn = attention s.exch

/-- The invariant: exchange memory is canonical, and everything is within its bounds. -/
structure Sound (s : State) : Prop where
  mem : s.memOk
  limits : Limits s

/-- Who holds a point (R63): each route in a point's holder list is loaded and lists the point, with the point's shared lie,
among its own points. With it stands what keeps it so: outside RUNNING no point is held, no request is stacked and no show runs
(R61, R87, R173), and in RUNNING only shows and lamps load (R191). -/
structure HoldersFit (s : State) : Prop where
  sorted : Tbl.sorted s.ilk.holders = true
  listed : ∀ p n, n ∈ (holdersOf s p).routes →
    ∃ r l, Tbl.find s.ilk.routes n = some r ∧ (holdersOf s p).shared = some l ∧ (p, l) ∈ routePoints r
  idle : s.exch.runState ≠ .running → s.ilk.holders = [] ∧ s.ilk.stack = [] ∧ s.vis.runner = none
  loads : s.exch.runState = .running → ∀ l, s.exch.reading = some l ∨ l ∈ s.exch.loads → l.kind = .shows ∨ l.kind = .lamps

/-! ## Where a command finds the machine -/

/-- Nothing waits and nothing is in hand: no show is queued, no route request is stacked, no point is being moved. -/
structure AtRest (s : State) : Prop where
  work : s.work = Work.none
  shows : s.vis.queue = []
  stack : s.ilk.stack = []
  orders : s.pts.queue = []
  overflow : s.pts.overflow = []

/-- The next slot can be taken in a run state (R188, R189): its in-hand mark is clear. -/
structure Ready (r : RunState) (s : State) : Prop where
  sound : Sound s
  state : s.exch.runState = r
  mark : Tbl.find s.exch.inHand s.exch.takePos = none

/-- At rest, and no block will act on a change of a section beyond the section and its tags: no route is active, no show
runs, no jog is in hand, and an overrun is only reported (R113). -/
structure Quiet (s : State) : Prop where
  rest : AtRest s
  routes : s.ilk.active = []
  runner : s.vis.runner = none
  jog : s.tt.requester ≠ .jog
  response : s.asp.response = .report

/-! ## The request commands -/

/-- The record that a request command posts (12.1, 12.4), with the run states that allow its kind (R190); none for a command
that is no request. -/
def requestOf : Instr → Option (Allowed × Request)
  | .detectorSample _ _ => none
  | .axleHeadSample _ _ _ => none
  | .discrepancyTimerExpiry _ => none
  | .disableSection tag sec => some (.running, ⟨11, tag, sec, 0#32, 0#32⟩)
  | .enableSection tag sec => some (.running, ⟨12, tag, sec, 0#32, 0#32⟩)
  | .resetSection tag sec => some (.running, ⟨13, tag, sec, 0#32, 0#32⟩)
  | .lostHoldExpiry _ => none
  | .labelTag tag t label => some (.running, ⟨14, tag, t, label, 0#32⟩)
  | .loadSections tag offset length count => some (.configuring, ⟨1, tag, offset, length, count⟩)
  | .loadRoutes tag offset length count => some (.configuring, ⟨4, tag, offset, length, count⟩)
  | .loadPoints tag offset length count => some (.configuring, ⟨2, tag, offset, length, count⟩)
  | .loadSignals tag offset length count => some (.configuring, ⟨3, tag, offset, length, count⟩)
  | .loadTable tag offset length count => some (.configuring, ⟨5, tag, offset, length, count⟩)
  | .loadShows tag offset length count => some (.both, ⟨6, tag, offset, length, count⟩)
  | .loadLamps tag offset length count => some (.both, ⟨7, tag, offset, length, count⟩)
  | .loadRecord => none
  | .setParameters tag group offset count => some (.both, ⟨8, tag, group, offset, count⟩)
  | .start tag => some (.configuring, ⟨9, tag, 0#32, 0#32, 0#32⟩)
  | .layoutReset tag => some (.both, ⟨10, tag, 0#32, 0#32, 0#32⟩)
  | .setRoute tag route originator options => some (.running, ⟨15, tag, route, originator, options⟩)
  | .stackEntryExpiry _ => none
  | .cancelRoute tag route => some (.running, ⟨16, tag, route, 0#32, 0#32⟩)
  | .overlapTimerExpiry _ => none
  | .approachTimerExpiry _ => none
  | .pointContactSample _ _ => none
  | .lossTimerExpiry _ => none
  | .pulseTimerExpiry => none
  | .windowTimerExpiry _ => none
  | .rechargeTimerExpiry => none
  | .travelTimerExpiry _ => none
  | .movePoint tag point lie => some (.running, ⟨17, tag, point, lie, 0#32⟩)
  | .restorePoint tag point => some (.running, ⟨18, tag, point, 0#32, 0#32⟩)
  | .stopPinSample _ => none
  | .allStop tag => some (.running, ⟨19, tag, 0#32, 0#32, 0#32⟩)
  | .resume tag => some (.running, ⟨20, tag, 0#32, 0#32, 0#32⟩)
  | .boltContactSample _ _ => none
  | .boltTimerExpiry => none
  | .settleTimerExpiry => none
  | .stepBoundary _ => none
  | .homingSearchLimit _ => none
  | .legEnd _ => none
  | .stopComplete _ => none
  | .turnTable tag road deckEnd => some (.running, ⟨21, tag, road, deckEnd, 0#32⟩)
  | .homeTable tag road deckEnd => some (.running, ⟨22, tag, road, deckEnd, 0#32⟩)
  | .stopTable tag => some (.running, ⟨23, tag, 0#32, 0#32, 0#32⟩)
  | .jogHoldTimerExpiry => none
  | .buttonSample _ _ => none
  | .stepTimerExpiry => none
  | .durationTimerExpiry => none
  | .coolDownExpiry _ => none
  | .runShow tag show_ => some (.running, ⟨24, tag, show_, 0#32, 0#32⟩)
  | .visitorSuspend tag => some (.running, ⟨25, tag, 0#32, 0#32, 0#32⟩)
  | .visitorResume tag => some (.running, ⟨26, tag, 0#32, 0#32, 0#32⟩)
  | .flashPhaseChange => none
  | .idleTimerExpiry => none
  | .nudge _ => none
  | .pollTimerExpiry => none
  | .stateRead => none
  | .fullReset _ => none
  | .controlLayoutReset => none
  | .registerWriteIgnored _ => none
  | .halfWordLatchRead _ => none
  | .initialReset _ => none
  | .hostMemoryAccess _ => none
  | .stepOutputActive => none
  | .jogHoldRemainingChange => none
  | .wholeSecondRemainingChange _ => none

/-- No slot can be taken: the one at the take position is not POSTED, or its in-hand mark is set (R188). -/
def NothingPosted (s : State) : Prop :=
  s.read16 (slotAt s.exch.takePos) ≠ 1 ∨ Tbl.find s.exch.inHand s.exch.takePos ≠ none

/-- The poll timer as an examination leaves it (R188): loaded with the interval of the header, at most 255 ms, or stopped at
an interval of 0. -/
def loadedPoll (s : State) : Option Nat := if s.read16 0x10 = 0 then none else some (min (s.read16 0x10) 255)

/-- The header fields that an examination reads, clamps and writes back (R188, R196, R197), and the enable set it takes. -/
structure ExaminedHeader (s t : State) : Prop where
  interval : t.read16 0x10 = min (s.read16 0x10) 255
  notify : t.read16 0x04 = min (max (s.read16 0x04) 1) 511
  almost : t.read16 0x06 = max (min (max (s.read16 0x06) 1) 511) (min (max (s.read16 0x04) 1) 511)
  enable : t.exch.enable
    = { reports := s.read16 0x12 % 2 == 1, done := s.read16 0x12 / 2 % 2 == 1, stop := s.read16 0x12 / 4 % 2 == 1 }

/-! ## What the host finds -/

/-- Slot n holds a completed request (R187, R189): DONE, the host tag, the result code and the two result words; its mark
is clear. -/
structure SlotDone (n : Nat) (tag : HostTag) (r : Result) (w0 w1 : Nat) (s : State) : Prop where
  state : s.read16 (slotAt n) = 3
  tag : s.read16 (slotAt n + 4) = tag.toNat
  code : s.read16 (slotAt n + 6) = r.code
  word0 : s.read32 (slotAt n + 0x18) = w0 % 2 ^ 32
  word1 : s.read32 (slotAt n + 0x1C) = w1 % 2 ^ 32
  mark : Tbl.find s.exch.inHand n = none

/-- The bytes that only the host writes (R184, R187): the data area, and the kind and the argument words of each slot. -/
def hostOwned (a : Nat) : Prop :=
  Config.dataBase ≤ a
    ∨ ∃ n, n < Config.numSlots ∧ (slotAt n + 2 ≤ a ∧ a < slotAt n + 4 ∨ slotAt n + 8 ≤ a ∧ a < slotAt n + 0x18)

/-- A byte of slot n. -/
def inSlot (n a : Nat) : Prop := slotAt n ≤ a ∧ a < slotAt n + 32

/-- From s to t memory keeps every byte that only the host writes, and every byte of each slot that is not in hand, but
for the bytes of one slot, if one is named. The bytes left are the part's own: header, mirrors and log. -/
structure MemoryKept (but : Option Nat) (s t : State) : Prop where
  host : ∀ a, hostOwned a → (∀ n, but = some n → ¬ inSlot n a) → t.read8 a = s.read8 a
  idle : ∀ n a, n < Config.numSlots → but ≠ some n → Tbl.find s.exch.inHand n = none → inSlot n a →
    t.read8 a = s.read8 a

/-- A section's occupancy with count 0 and no discrepancy (R14, R16 to R18). -/
def plainOccupancy (st : SectionState) : Occupancy := { state := st, count := 0, discTimer := none, discFlag := false }

/-! ## What a command makes of the machine -/

/-- What stands inside the part: a state with its outputs blanked. The outputs are exchange memory, the log pointer and the
missed-kinds set (R195, R196), the attention causes with the enable set and the line (R197), the aspects with the overrun
counts (R107), the shown modes, the button lamps and the levels (R170, R176, R179); the model's own work field goes with
them. -/
def inside (s : State) : State :=
  { s with
    exch := { s.exch with mem := [], w := 0, missed := 0#64, reports := false, done := false, stop := false,
                          enable := { reports := false, done := false, stop := false }, attn := false }
    disp := { s.disp with shown := [], levels := [] }
    vis := { s.vis with lamps := [] }
    asp := { s.asp with state := [] }
    work := Work.none }

/-- The command answers a next state that holds inside what u holds; memory changes only where the part owns it. Every
field of the state that u takes from s as it is (all but those it names) is unchanged, the outputs apart. -/
def Makes (c : Instr) (s u : State) : Prop :=
  ∃ t, exec c s = .next t ∧ inside t = inside u ∧ MemoryKept none s t

/-- The port after a request was taken from the slot at the take position (R188): the take position has advanced, and the
host's accesses broke the half-word latch's pairing (R186). -/
def State.served (s : State) : State :=
  { s with exch := { s.exch with takePos := (s.exch.takePos + 1) % Config.numSlots, paired := false } }

/-- The request command is taken and answered: its slot is done with this result and these words (R189), and the next state
holds inside what u holds once its request is served. -/
def Replies (c : Instr) (s u : State) (tag : HostTag) (r : Result) (w0 w1 : Nat) : Prop :=
  ∃ t, exec c s = .next t ∧ SlotDone s.exch.takePos tag r w0 w1 t ∧ inside t = inside u.served
    ∧ MemoryKept (some s.exch.takePos) s t

/-- The same, with the in-hand mark of the slot at the take position set (R188). -/
def State.inHand (tag : HostTag) (s : State) : State :=
  { s with exch := { s.exch with inHand := Tbl.insert s.exch.inHand s.exch.takePos tag } }

/-- The request command is taken and stays in hand (R188): its slot reads TAKEN. -/
def Pends (c : Instr) (s u : State) (tag : HostTag) : Prop :=
  ∃ t, exec c s = .next t ∧ t.read16 (slotAt s.exch.takePos) = 2 ∧ inside t = inside (u.inHand tag).served
    ∧ MemoryKept (some s.exch.takePos) s t

/-! ## Orders -/

/-- A move order that waits (R94). -/
def queuedOrder (p : Nat) (l : Lie) (o : OrderOrigin) : Order :=
  { point := p, lie := l, origin := o, phase := .queued, startTime := none, retried := false, timer := none }

/-- The table of R90: the lie that the counted levels of the normal and the reverse contact give a point with no order. -/
def lieOfContacts : Bool → Bool → DetLie
  | true, false => .normal
  | false, true => .reverse
  | true, true => .lost
  | false, false => .lost

/-- One order alone is in hand, from the MOVE_POINT in slot n (R101); no route is active or holds its point, no show runs or
waits, and nothing else is in hand. -/
structure OneOrder (o : Order) (n : Nat) (tag : HostTag) (r : PointRec) (st : PointState) (s : State) : Prop where
  work : s.work = Work.none
  shows : s.vis.queue = []
  stack : s.ilk.stack = []
  routes : s.ilk.active = []
  queue : s.pts.queue = [o]
  overflow : s.pts.overflow = []
  origin : o.origin = .slot n
  slot : n < Config.numSlots
  marks : Tbl.sorted s.exch.inHand = true
  mark : Tbl.find s.exch.inHand n = some tag
  record : Tbl.find s.pts.recs o.point = some r
  state : Tbl.find s.pts.state o.point = some st
  sound : Sound s
  intact : st.failed = none
  holders : (holdersOf s o.point).routes = []

/-! ## A change of a section -/

/-- In RUNNING, the sample x of input i changes the level of the input, and with it the CURRENT section n between CLEAR and
OCCUPIED (R4, R11); nothing waits or is in hand, no show runs and no jog is in hand. -/
structure Changes (i : Fin 256) (x : Bool) (n : Nat) (s : State) : Prop where
  rest : AtRest s
  runState : s.exch.runState = .running
  runner : s.vis.runner = none
  jog : s.tt.requester ≠ .jog
  moves : ∃ r o, sectionOfInput s i.val = some (n, r) ∧ Tbl.find s.occ.recs n = some r ∧ Tbl.find s.occ.secs n = some o ∧
    r.detection = .current ∧ o.state = if x then .clear else .occupied
  before : (Tbl.getD s.occ.filters i.val Filter.init).level = !x
  after : ((Tbl.getD s.occ.filters i.val Filter.init).sample (inputTime s i.val x) x).level = x

/-- An axle enters a side section (R9 to R11, R13): a DISABLED section keeps its count; a count of 255 stays and the section is
UNCERTAIN; else the count rises by one, and the section is OCCUPIED but where it was UNCERTAIN. -/
def AxleEnters (o p : Occupancy) : Prop :=
  if o.state = .disabled then p.count = o.count ∧ p.state = .disabled
  else if o.count = 255 then p.count = 255 ∧ p.state = .uncertain
  else p.count = o.count + 1 ∧ p.state = if o.state = .uncertain then .uncertain else .occupied

/-- An axle leaves a side section, whose detector reports OCCUPIED just where `level` is true (R9 to R11, R13): a DISABLED
section keeps its count; a count of 0 stays and the section is UNCERTAIN; else the count falls by one, and the section is
UNCERTAIN where it was, CLEAR where the last axle has left and no detector of a BOTH section holds it, and OCCUPIED else. -/
def AxleLeaves (r : SectionRec) (level : Bool) (o p : Occupancy) : Prop :=
  if o.state = .disabled then p.count = o.count ∧ p.state = .disabled
  else if o.count = 0 then p.count = 0 ∧ p.state = .uncertain
  else p.count = o.count - 1 ∧ p.state =
    if o.state = .uncertain then .uncertain
    else if o.count = 1 ∧ ¬ (r.detection = .both ∧ level = true) then .clear
    else .occupied

/-! ## The deck and the roads about it -/

/-- A section that is OCCUPIED or UNCERTAIN (R128). -/
def Stands (s : State) (n : Nat) : Prop := secState s n = .occupied ∨ secState s n = .uncertain

/-- A road faces end A or end B of a deck at position p (R128). -/
def Faces (d : DeckRec) (p : Nat) (q : Road) : Prop := q.position = p ∨ q.position = (p + d.c / 2) % d.c

/-- There is a straddle: stock stands on the deck section and on the section of a road that faces it (R128); where the deck's
position is unknown, it is enough that stock stands on the deck section (R130). -/
def Straddled (d : DeckRec) (s : State) : Prop :=
  Stands s d.sec ∧ ∀ p, s.tt.pos = some p → ∃ y ∈ s.tt.roads, Faces d p y.2 ∧ Stands s y.2.sec

/-- The deck as an entry into ALL STOP leaves it in a stepping state or UNBOLTING (R138). -/
def Turntable.halted (t : Turntable) : Turntable :=
  { t with halting := true, target := none, jogHold := none, requester := .none }

/-! ## What a route leaves behind -/

/-- A route that was at entry e has been released whole (R65): its entry is free, every section that it locked is unlocked and
it is in no holder list; every other entry, lock and holder is as it was. -/
structure ReleasedWhole (e route : Nat) (s t : State) : Prop where
  entry : Tbl.find t.ilk.active e = none
  others : ∀ k, k ≠ e → Tbl.find t.ilk.active k = Tbl.find s.ilk.active k
  locks : ∀ n, lockOf t n = if lockOf s n = some route then none else lockOf s n
  holders : ∀ p, (holdersOf t p).routes = (holdersOf s p).routes.erase route

/-- The tables of the interlocking are in rising order, and e is the entry of an active route that no show asked for. -/
structure EntryOf (e : Nat) (a : Active) (s : State) : Prop where
  active : Tbl.sorted s.ilk.active = true
  locks : Tbl.sorted s.ilk.locks = true
  holders : Tbl.sorted s.ilk.holders = true
  entry : Tbl.find s.ilk.active e = some a
  first : entryOf s a.route = some (e, a)
  noShow : a.show_ = none

/-- What a layout reset leaves (R194): CONFIGURING, the layout empty, power off, and the loaded records as they were. A DISABLED
section stays DISABLED, any other reads CLEAR with count 0 (log 15), and the heads and detector filters are not touched (R22). A
deck that is ALIGNED, HALTED or in FAULT stays so, any other is UNREFERENCED with its stepping cut, its bolt output de-energized
and its timers stopped (R141). -/
structure Cleared (s t : State) : Prop where
  runState : t.exch.runState = .configuring ∧ t.read16 0x16 = 2
  routes : t.ilk.active = [] ∧ t.ilk.stack = [] ∧ t.ilk.locks = [] ∧ t.ilk.holders = []
  orders : t.pts.queue = [] ∧ t.pts.overflow = [] ∧ t.pts.coil = none ∧ t.pts.drives = []
  tags : t.tags.table = [] ∧ t.tags.fields = []
  shows : t.vis.queue = [] ∧ t.vis.runner = none
  loads : t.exch.reading = none ∧ t.exch.loads = [] ∧ t.exch.inHand = []
  stop : t.asp.cond = .running ∧ t.asp.cause = none ∧ t.asp.power = false
  panel : t.disp.panel = .awake
  sections : ∀ n o, Tbl.find s.occ.secs n = some o → Tbl.find t.occ.secs n = some
    { state := if o.state = .disabled then .disabled else .clear, count := if o.state = .disabled then o.count else 0,
      discTimer := none, discFlag := false }
  detection : t.occ.heads = s.occ.heads ∧ t.occ.filters = s.occ.filters
  deck : t.tt.requester = .none ∧ t.tt.target = none ∧ t.tt.feed = false ∧ t.tt.turns = s.tt.turns
    ∧ t.tt.jogPermitted = s.tt.jogPermitted
  deckState : if s.tt.state ∈ [.aligned, .halted, .fault]
    then t.tt.state = s.tt.state ∧ t.tt.pos = s.tt.pos ∧ t.tt.align = s.tt.align ∧ t.tt.fault = s.tt.fault
    else t.tt.state = .unreferenced ∧ t.tt.pos = none ∧ t.tt.boltOut = false ∧ t.tt.gen = none ∧ t.tt.stepOut = false
      ∧ t.tt.boltTimer = none ∧ t.tt.settleTimer = none ∧ t.tt.jogHold = none
  records : t.occ.recs = s.occ.recs ∧ t.ilk.routes = s.ilk.routes ∧ t.pts.recs = s.pts.recs ∧ t.asp.recs = s.asp.recs
    ∧ t.tt.deck = s.tt.deck ∧ t.tt.roads = s.tt.roads ∧ t.vis.shows = s.vis.shows ∧ t.disp.bind = s.disp.bind

/-! ## What is shown -/

/-- In RUNNING what the part shows agrees with its tables: each aspect, each shown mode and each button lamp is what its rule
gives (R109, R110, R170, R176), each level what its lamp's mode and the panel give (R179), and each mirror word is its
item's, packed as 12.2 says (R19, R20, R26, R60, R86, R104, R119, R140, R172, R177). -/
structure Shown (s : State) : Prop where
  aspects : ∀ x r, Tbl.find s.asp.recs x = some r → (Tbl.find s.asp.state x).map SignalState.aspect = some (aspectOf s x r)
  lamps : ∀ i l, Tbl.find s.disp.bind i = some l → Tbl.getD s.disp.shown i .off = lampMode s l
  buttons : ∀ b, b < 18 → Tbl.getD s.vis.lamps b .off = buttonLampMode s b
  levels : s.disp.levels = (refreshLevels s).disp.levels
  sections : ∀ n r, Tbl.find s.occ.recs n = some r → s.read32 (Config.sectionMirror + 4 * n) = sectionWord s n r
  heads : ∀ k h, Tbl.find s.occ.heads k = some h → s.read32 (Config.headMirror + 4 * k) = halves h.totalAB h.totalBA
  tags : ∀ g, g < 64 → s.read32 (Config.tagMirror + 4 * g) = tagWord (tagRec s g)
  active : ∀ e, e < 48 → s.read32 (Config.activeMirror + 4 * e) = activeWord (Tbl.find s.ilk.active e)
  stack : ∀ k, k < 16 → s.read32 (Config.stackMirror + 4 * k) = stackWord s.ilk.stack[k]?
  points : ∀ p r, Tbl.find s.pts.recs p = some r → s.read32 (Config.pointMirror + 4 * p) = pointWord s p r
  signals : ∀ x r st, Tbl.find s.asp.recs x = some r → Tbl.find s.asp.state x = some st →
    s.read32 (Config.signalMirror + 4 * x) = signalWord s x r st
  table : ∀ k, k < 16 → s.read32 (Config.tableMirror + 4 * k) = tableMirrorWord s k
  visitors : ∀ k, k < 16 → s.read32 (Config.visitorMirror + 4 * k) = visitorWord s k
  lampWords : ∀ w, w < 24 → s.read32 (Config.lampMirror + 4 * w) = lampWord s w

/-- The invariant of what is shown: nothing is in hand, each loaded item has a number that its mirror has a word for and its
state beside its record, the tables that hold a number once do, each head's mirror word stands whatever the run state (R20), no
tag stands in a section outside RUNNING (R38), and in RUNNING the layout is one that START passes (R193), only shows and lamps
load (R191), and what is shown agrees with the tables. -/
structure Settled (s : State) : Prop where
  work : s.work = Work.none
  sections : Tbl.sorted s.occ.recs = true ∧ Tbl.sorted s.occ.filters = true ∧
    ∀ n r, Tbl.find s.occ.recs n = some r → n < 256 ∧ ∃ o, Tbl.find s.occ.secs n = some o
  heads : ∀ k h, Tbl.find s.occ.heads k = some h →
    k < 32 ∧ s.read32 (Config.headMirror + 4 * k) = halves h.totalAB h.totalBA
  points : Tbl.sorted s.pts.recs = true ∧ Tbl.sorted s.pts.contacts = true ∧
    ∀ p r, Tbl.find s.pts.recs p = some r → p < 128 ∧ ∃ st, Tbl.find s.pts.state p = some st
  signals : ∀ x r, Tbl.find s.asp.recs x = some r → x < 192 ∧ ∃ st, Tbl.find s.asp.state x = some st
  routes : Tbl.sorted s.ilk.active = true
  panel : Tbl.sorted s.vis.filters = true ∧ Tbl.sorted s.vis.lamps = true ∧ Tbl.sorted s.disp.shown = true ∧
    ∀ i l, Tbl.find s.disp.bind i = some l → i < 384
  tags : s.exch.runState ≠ .running → s.tags.fields = []
  running : s.exch.runState = .running → Shown s ∧ configFault s = none ∧
    ∀ l, s.exch.reading = some l ∨ l ∈ s.exch.loads → l.kind = .shows ∨ l.kind = .lamps

/-! ## Checks -/

/-- y is the first member of a list that fails a test. -/
def FirstWith {α : Type} (bad : α → Prop) (l : List α) (y : α) : Prop :=
  ∃ a b, l = a ++ y :: b ∧ bad y ∧ ∀ x ∈ a, ¬ bad x

/-- A section fails R2: axle-counted with no head at it, or its detector input is another section's too. -/
def badSection (s : State) (x : Nat × SectionRec) : Prop :=
  (x.2.detection ≠ .current ∧ ∀ h ∈ s.occ.heads, h.2.aSide ≠ some x.1 ∧ h.2.bSide ≠ some x.1)
    ∨ ∃ i, x.2.input = some i ∧ ∃ y ∈ s.occ.recs, y.1 ≠ x.1 ∧ y.2.input = some i

/-- A head fails R2: a side section is not loaded, or is detected by current alone. -/
def badHead (s : State) (x : Nat × Head) : Prop :=
  ∃ n, (x.2.aSide = some n ∨ x.2.bSide = some n) ∧ ∀ r, Tbl.find s.occ.recs n = some r → r.detection = .current

/-- A section fails R24: a neighbour, or the point of its condition, is not loaded. -/
def badNeighbours (s : State) (x : Nat × SectionRec) : Prop :=
  ∃ b ∈ x.2.neighbours, Tbl.find s.occ.recs b.sec = none ∨ ∃ c, b.cond = some c ∧ Tbl.find s.pts.recs c.1 = none

/-- A point fails R89: its section is not loaded, or a lower point names one of its contact inputs. -/
def badPoint (s : State) (x : Nat × PointRec) : Prop :=
  Tbl.find s.occ.recs x.2.sec = none ∨
    ∃ i, i ∈ contactInputs x.2 ∧ ∃ y ∈ s.pts.recs, y.1 < x.1 ∧ i ∈ contactInputs y.2

/-- A signal fails R108. -/
def badSignal (s : State) (x : Nat × SignalRec) : Prop :=
  (∃ n, (x.2.approach = some n ∨ x.2.protect = some n) ∧ Tbl.find s.occ.recs n = none)
    ∨ (x.2.kind = .distant ∧
        ((∃ h, x.2.home = some h ∧ ∀ q, Tbl.find s.asp.recs h = some q → q.kind = .distant)
          ∨ ∃ y ∈ s.ilk.routes, y.2.entry = x.1 ∨ y.2.exit = some x.1))
    ∨ (x.2.kind = .shunt ∧ ∃ y ∈ s.ilk.routes, y.2.entry = x.1 ∧ y.2.cls ≠ .shunt)

/-- A route fails R42: an item that it names is not loaded; its entry signal does not protect its first element; a POINT entry
does not follow its own section's; or its table condition does not fit the deck. -/
def badRoute (s : State) (x : Nat × RouteRec) : Prop :=
  let r := x.2
  (∃ n ∈ sequence r ++ r.approach, Tbl.find s.occ.recs n = none)
    ∨ (∃ p ∈ routePoints r, Tbl.find s.pts.recs p.1 = none)
    ∨ Tbl.find s.asp.recs r.entry = none ∨ (∃ y, r.exit = some y ∧ Tbl.find s.asp.recs y = none)
    ∨ (∀ q, Tbl.find s.asp.recs r.entry = some q → q.protect = none ∨ q.protect ≠ (elementSections r).head?)
    ∨ (∃ a p l b, r.elements = a ++ .point p l :: b ∧
        (elementSections { r with elements := a }).getLast? ≠ some (pointSec s p))
    ∨ (∃ y, r.table = some y ∧ ∀ d, s.tt.deck = some d → Tbl.find s.tt.roads y.road = none ∨ d.sec ∉ elementSections r)
    ∨ (r.table = none ∧ ∃ d, s.tt.deck = some d ∧ d.sec ∈ sequence r)

/-! ## Records -/

/-- Exchange memory holds these bytes from an offset. -/
def Holds (s : State) (a : Nat) (bytes : List Nat) : Prop := ∀ k b, bytes[k]? = some b → s.read8 (a + k) = b

/-- The load that reads is at its next record and nothing else is in hand; no load that waits has a count of 0. -/
structure Loading (l : Load) (tag : HostTag) (s : State) : Prop where
  rest : AtRest s
  sound : Sound s
  reading : s.exch.reading = some l
  slot : l.slot < Config.numSlots
  marks : Tbl.sorted s.exch.inHand = true
  mark : Tbl.find s.exch.inHand l.slot = some tag
  next : ∀ m, s.exch.loads.head? = some m → m.count ≠ 0

/-- The reading load has taken a record of so many bytes (R191): it goes on with the next record, or it ends OK with its count
and the next waiting load begins. -/
structure TookRecord (l : Load) (tag : HostTag) (len : Nat) (s t : State) : Prop where
  more : l.taken + 1 ≠ l.count → t.exch.reading = some { l with cursor := l.cursor + len, taken := l.taken + 1 } ∧
    t.exch.loads = s.exch.loads ∧ Tbl.find t.exch.inHand l.slot = some tag
  last : l.taken + 1 = l.count → SlotDone l.slot tag .ok l.count 0 t ∧ t.exch.reading = s.exch.loads.head? ∧
    t.exch.loads = s.exch.loads.tail
  memory : MemoryKept none s t

/-- The load list and the marks of t with all else of s: what a LOAD_RECORD that takes an item leaves of the port. -/
def State.loadsOf (t s : State) : State :=
  { s with exch := { s.exch with reading := t.exch.reading, loads := t.exch.loads, inHand := t.exch.inHand } }

/-- LOAD_RECORD takes a record of so many bytes, and the next state holds inside what u holds, but for the load list. -/
def Takes (l : Load) (tag : HostTag) (len : Nat) (s u : State) : Prop :=
  ∃ t, exec .loadRecord s = .next t ∧ inside t = inside (t.loadsOf u) ∧ TookRecord l tag len s t

/-- LOAD_RECORD ends the reading load at this record with a result: its slot is answered with the number of records taken,
the item's number (log 20) and the record's offset, and the next waiting load begins (R191). -/
def EndsLoad (l : Load) (tag : HostTag) (r : Result) (s : State) : Prop :=
  ∃ t, exec .loadRecord s = .next t ∧ MemoryKept none s t ∧
    SlotDone l.slot tag r (halves l.taken (itemNumber l.kind l.cursor (min l.left (statedLength l s)) s)) l.cursor t ∧
    inside t = inside { s with exch := { s.exch with
      reading := s.exch.loads.head?, loads := s.exch.loads.tail, inHand := Tbl.erase s.exch.inHand l.slot } }

/-- The deck as a LOAD_TABLE record leaves it (R122): UNREFERENCED, with its position unknown and nothing in hand. -/
def Turntable.unreferenced (t : Turntable) : Turntable :=
  { t.quiet with state := .unreferenced, pos := none, align := none, target := none, fault := none, boltOut := false,
                 requester := .none, feed := if t.state = .unreferenced then t.feed else false }

/-- A SECTION record that can be loaded (R1, R23). -/
structure SectionFits (n : Nat) (r : SectionRec) : Prop where
  number : n < 256
  pickUp : r.pickUp < 256
  dropOut : ∃ k, k < 256 ∧ r.dropOut = 10 * k
  discrepancy : ∃ k, k < 256 ∧ r.discrepancy = 100 * k
  input : ∀ i, r.input = some i → i < 256
  marks : match r.detection with
    | .current => r.input.isSome ∧ r.discrepancy = 0
    | .axle => r.input = none ∧ r.discrepancy = 0
    | .both => r.input.isSome
  few : r.neighbours.length ≤ 4
  neighbours : ∀ b ∈ r.neighbours, b.sec < 256 ∧ b.sec ≠ n ∧ ∀ c, b.cond = some c → c.1 < 128
  distinct : (r.neighbours.map Neighbour.sec).Nodup

/-- A ROUTE record that can be loaded (R39, R40). -/
structure RouteFits (n : Nat) (r : RouteRec) : Prop where
  numbers : n < 512 ∧ r.entry < 192 ∧ (∀ y, r.exit = some y → y < 192 ∧ y ≠ r.entry) ∧ r.approachTime < 256 ∧
    r.overlapTime < 256 ∧ ∀ y, r.table = some y → y.road < 36
  counts : r.elements.length ≤ 24 ∧ r.flank.length ≤ 8 ∧ r.overlap.length ≤ 4 ∧ r.approach.length ≤ 3
  items : (∀ m ∈ sequence r ++ r.approach, m < 256) ∧ ∀ x ∈ routePoints r, x.1 < 128
  first : ∃ m l, r.elements = .sec m :: l
  distinct : (sequence r).Nodup ∧ ((routePoints r).map Prod.fst).Nodup ∧ ∀ m ∈ r.approach, m ∉ sequence r
  shunt : r.cls = .shunt → r.overlap = []

/-- A POINT record that can be loaded (R88); the travel timeout of a SOLENOID point is the default. -/
structure PointFits (p : Nat) (r : PointRec) : Prop where
  numbers : p < 128 ∧ r.sec < 256
  inputs : ∀ a b, r.feedback = .pair a b → a < 256 ∧ b < 256 ∧ a ≠ b
  travel : match r.motor with
    | .solenoid => r.travel = 3000
    | .slow => 500 ≤ r.travel ∧ r.travel ≤ 10000

/-- A SIGNAL record that can be loaded (R107). -/
structure SignalFits (x : Nat) (r : SignalRec) : Prop where
  numbers : x < 192 ∧ (∀ n, r.approach = some n ∨ r.protect = some n → n < 256) ∧ ∀ h, r.home = some h → h < 192
  fields : if r.kind = .distant then r.approach = none ∧ r.protect = none ∧ r.home ≠ none ∧ r.home ≠ some x
    else r.protect ≠ none ∧ r.home = none ∧ r.approach ≠ r.protect

/-- A DECK record that can be loaded and that its clamps leave as it is (R121). -/
structure DeckFits (d : DeckRec) : Prop where
  counts : 400 ≤ d.c ∧ d.c ≤ 51200 ∧ d.c % 2 = 0 ∧ d.indexOffset < d.c ∧ (∀ m, d.stop = some m → m = d.indexOffset) ∧
    d.snap ≤ d.c / 4
  rates : 1 ≤ d.v0 ∧ d.v0 ≤ d.jog ∧ d.jog ≤ d.vmax ∧ d.vmax ≤ 20000 ∧ 1 ≤ d.ramp ∧ d.ramp ≤ 2000
  times : (∃ k, k < 256 ∧ d.boltTime = 10 * k) ∧ (∃ k, k < 256 ∧ d.settleTime = 10 * k) ∧ d.backlash < 256 ∧ d.sec < 256

/-- A SHOW record that can be loaded (R157). -/
structure ShowFits (n : Nat) (w : ShowRec) : Prop where
  numbers : n < 32 ∧ (∀ b, w.button = some b → b < 16) ∧ w.coolDown ≤ 600 ∧ w.maxDuration ≤ 3600
  steps : 1 ≤ w.steps.length ∧ w.steps.length ≤ 12 ∧ ∀ x ∈ w.steps, match x with
    | .setRoute r t => r < 512 ∧ t ≤ 600
    | .cancelRoute r => r < 512
    | .turn y => y.road < 36
    | .waitSection m _ t => m < 256 ∧ 1 ≤ t ∧ t ≤ 600
    | .pause t => 1 ≤ t ∧ t ≤ 600

/-- A LAMP record that can be loaded (R174, R175). -/
def LampFits (i : Nat) (l : Lamp) : Prop :=
  i < 384 ∧ match l.source with
    | .none => True
    | .sectionOccupied n | .sectionRouted n | .tagPresent n => n < 256
    | .signalAspect x _ => x < 192
    | .pointLie p _ => p < 128
    | .tableAtRoad x => x.road < 36
    | .showRunning n => n < 32

end Sys2Proof.Machine
end

