-- ==== Sys2Proof/Certificates/Slice0/Obligations.lean ====
section
/-! DEFINITION. The statements about the GL-640, for the provers. `Makes`, `Replies` and `Pends` (Safety.lean) say that a
command answers a next state, what it changes, and that it changes nothing else but the outputs. -/

open Sys2Proof Sys2Proof.Machine

/-! ## Steps, time and reset -/

/-- One step takes the command at the front of the queue and is that command's effect with the queue's rest. -/
def Obligations.StepRunsTheFrontCommand : Prop :=
  ∀ (s : State) (c : Instr) (rest : List Instr), s.pending = c :: rest → step s = exec c { s with pending := rest }

/-- The model's choice (log 2): on an empty queue a step is one millisecond of the layout clock. The clock counts modulo its
wrap (R190), the flash count modulo 1000 (R178), every running timer has one millisecond less, and nothing else changes inside.
-/
def Obligations.EmptyQueuePassesOneMillisecond : Prop :=
  ∀ s : State, s.pending = [] →
    ∃ t, step s = .next t ∧ MemoryKept none s t ∧
      inside t = inside { s with
        clock := (s.clock + 1) % 4294967296
        occ := { s.occ with secs := s.occ.secs.map fun x =>
          (x.1, { x.2 with discTimer := x.2.discTimer.map (· - 1) }) }
        tags := { s.tags with table := s.tags.table.map fun x => (x.1, { x.2 with timer := x.2.timer.map (· - 1) }) }
        ilk := { s.ilk with active := s.ilk.active.map (fun x => (x.1, { x.2 with timer := x.2.timer.map (· - 1) })),
                            stack := s.ilk.stack.map fun x => { x with expiry := x.expiry.map (· - 1) } }
        pts := { s.pts with state := s.pts.state.map (fun x => (x.1, { x.2 with loss := x.2.loss.map (· - 1) })),
                            queue := s.pts.queue.map (fun o => { o with timer := o.timer.map (· - 1) }),
                            pulseTimer := s.pts.pulseTimer.map (· - 1),
                            rechargeTimer := s.pts.rechargeTimer.map (· - 1) }
        tt := { s.tt with jogHold := s.tt.jogHold.map (· - 1), boltTimer := s.tt.boltTimer.map (· - 1),
                          settleTimer := s.tt.settleTimer.map (· - 1) }
        vis := { s.vis with cool := s.vis.cool.map (fun x => (x.1, x.2 - 1)),
                            runner := s.vis.runner.map fun r =>
                              { r with stepTimer := r.stepTimer.map (· - 1), durTimer := r.durTimer.map (· - 1) } }
        disp := { s.disp with idleTimer := s.disp.idleTimer.map (· - 1), flash := (s.disp.flash + 1) % 1000 }
        exch := { s.exch with pollTimer := s.exch.pollTimer.map (· - 1) } }

/-- The header after initial reset (R184, 12.1), the LAYOUT_STATE report with cause INITIAL as entry 0 of the log, and a part in
which nothing is loaded, active, queued or in hand. The EXHIBITION profile is the model's choice (log 8). -/
def Obligations.ResetHeaderAndEmptyPart : Prop :=
  let s := State.reset
  s.read16 0x00 = 1 ∧ s.read16 0x02 = 0 ∧ s.read16 0x04 = 1 ∧ s.read16 0x06 = 480 ∧ s.read32 0x08 = 0 ∧ s.read32 0x0C = 0
    ∧ s.read16 0x10 = 10 ∧ s.read16 0x12 = 7 ∧ s.read16 0x14 = 0 ∧ s.read16 0x16 = 2 ∧ s.read8 0x18 = 0
    ∧ s.read8 0x19 = 0 ∧ s.read16 0x1A = 65535 ∧ s.read8 0x1C = 0 ∧ s.read8 0x1D = 0 ∧ s.read8 0x1E = 3
    ∧ s.read8 0x1F = 2 ∧ s.read8 0x20 = 1 ∧ s.read8 0x21 = 64 ∧ s.read16 0x22 = 0
    ∧ s.read32 0x1400 = 0x0101 ∧ s.read32 0x1404 = 0 ∧ s.read32 0x1408 = 2 ∧ s.read32 0x140C = 5
    ∧ s.exch.runState = .configuring ∧ s.occ.recs = [] ∧ s.occ.heads = [] ∧ s.ilk.routes = [] ∧ s.pts.recs = []
    ∧ s.asp.recs = [] ∧ s.tt.deck = none ∧ s.tt.roads = [] ∧ s.vis.shows = [] ∧ s.disp.bind = [] ∧ s.tags.table = []
    ∧ s.ilk.active = [] ∧ s.ilk.stack = [] ∧ s.pts.queue = [] ∧ s.vis.queue = [] ∧ s.vis.runner = none
    ∧ s.exch.inHand = [] ∧ s.exch.reading = none ∧ s.exch.loads = [] ∧ s.exch.pollTimer = some 10
    ∧ s.asp.cond = .running ∧ s.asp.power = false ∧ s.pts.unit = .recharging ∧ s.tt.state = .unreferenced

/-- The machine after reset is well kept: it meets the two invariants that every step keeps, and the invariant of what is shown.
-/
def Obligations.ResetIsSound : Prop := Sound State.reset ∧ HoldersFit State.reset ∧ Settled State.reset

/-- Initial reset and the FULL_RESET code of CONTROL have one effect (R198), whatever the state: the reset state, with the
profile that the PROFILE pin gives. The model's own queue and free-value counter are not the part's. The reset runs whole inside
one command, so the part is CONFIGURING at its end (log 46); it ends with the REPORTS cause active and the line asserted (log
9); the reset values that the spec does not give are the model's (log 10), and the reset state is the one of the EXHIBITION
profile (log 8). -/
def Obligations.ResetCommandsGiveTheResetState : Prop :=
  (∀ s : State, exec (.initialReset true) s = .next { State.reset with free := s.free, pending := s.pending }) ∧
  (∀ s : State, exec (.initialReset false) s = .next { State.reset with
    free := s.free, pending := s.pending
    ilk := { State.reset.ilk with quota := 0 }
    tt := { State.reset.tt with jogPermitted := false }
    disp := { State.reset.disp with idleTimer := some 30000, idleRun := 30, idle1 := 30, idle2 := 120, idle3 := 600 }
    exch := { State.reset.exch with profile := .club, mem := Mem.write8 State.reset.exch.mem 0x1F 1#8 } }) ∧
  ∀ (s : State) (high : Bool), exec (.fullReset high) s = exec (.initialReset high) s

/-! ## What every command keeps -/

/-- Every step keeps the invariant: exchange memory in its canonical form, every pointer, counter and list within its bounds,
the deck position on the deck, and the attention line equal to what its causes and marks give (R197). Every step keeps the
invariant of who holds a point (R63): each route in a point's holder list is loaded and lists the point, with the lie that the
holders share, among its own points; with it, outside RUNNING no point is held, no request is stacked and no show runs, and in
RUNNING only shows and lamps load. -/
def Obligations.EveryStepKeepsSound : Prop :=
  (∀ s t : State, Sound s → step s = .next t → Sound t) ∧
  ∀ s t : State, HoldersFit s → step s = .next t → HoldersFit t

/-- The part never writes the data area, nor the kind or the argument words of a slot (R184, R187): only a host write, a request
(in the slot at the take position) and the two full resets change those bytes. -/
def Obligations.OnlyTheHostWritesItsBytes : Prop :=
  ∀ (c : Instr) (s t : State), Sound s → exec c s = .next t →
    (∀ high, c ≠ .fullReset high ∧ c ≠ .initialReset high) → (∀ hw v, c ≠ .hostMemoryAccess (.write hw v)) →
    ∀ a, hostOwned a → ((requestOf c).isSome → ¬ inSlot s.exch.takePos a) → t.read8 a = s.read8 a

/-- What stands for the layout changes only by its own commands. The loaded records, a head by its sides and its inversion,
change only where a reading load takes a record (R191), the run state only at START, at a layout reset (R190, R193, R194) or in
an examination, which may take a slot that asks for one, and the profile not at all; initial reset and FULL_RESET (R198) apart.
-/
def Obligations.LayoutChangesOnlyByItsCommands : Prop :=
  ∀ (c : Instr) (s t : State), exec c s = .next t → (∀ high, c ≠ .fullReset high ∧ c ≠ .initialReset high) →
    t.exch.profile = s.exch.profile ∧
    (c ≠ .loadRecord →
      t.occ.recs = s.occ.recs ∧ t.ilk.routes = s.ilk.routes ∧ t.pts.recs = s.pts.recs ∧ t.asp.recs = s.asp.recs
        ∧ t.tt.deck = s.tt.deck ∧ t.tt.roads = s.tt.roads ∧ t.vis.shows = s.vis.shows ∧ t.disp.bind = s.disp.bind
        ∧ ∀ k, (Tbl.find t.occ.heads k).map (fun h => (h.aSide, h.bSide, h.invert))
            = (Tbl.find s.occ.heads k).map (fun h => (h.aSide, h.bSide, h.invert))) ∧
    ((∀ tag, c ≠ .start tag ∧ c ≠ .layoutReset tag) → c ≠ .controlLayoutReset → (∀ v, c ≠ .nudge v) →
      c ≠ .pollTimerExpiry → t.exch.runState = s.exch.runState)

/-! ## The host port -/

/-- STATE_READ: the data pins carry the run state in bits 0 and 1 and the causes REPORTS, DONE and STOP in bits 4, 5 and 6
(12.1); the read clears the DONE cause and the line follows (R197); any half-word latched is no longer paired (R186); nothing
else changes. -/
def Obligations.StateReadReturnsAndClears : Prop :=
  ∀ s : State, exec .stateRead s = .next { s with exch := { s.exch with
    paired := false
    bus := BitVec.ofNat 16 (s.exch.runState.code + (if s.exch.reports then 16 else 0) + (if s.exch.done then 32 else 0)
      + (if s.exch.stop then 64 else 0))
    done := false
    attn := s.exch.reports && s.exch.enable.reports || s.exch.stop && s.exch.enable.stop } }

/-- HALF_WORD_LATCH_READ and the upper-half read of HOST_MEMORY_ACCESS: a lower-half read latches the upper half of its word; an
upper-half read that follows it returns the latched value whatever memory holds by then, and any other upper-half read returns
memory; nothing else changes. Any host access in between, of memory or of a register, breaks the pairing and leaves the latch's
value (R186). -/
def Obligations.LowerHalfReadLatchesTheWord : Prop :=
  (∀ (s : State) (w : Fin 8192), exec (.halfWordLatchRead w) s = .next { s with exch := { s.exch with
    bus := Mem.read16 s.exch.mem (4 * w.val), latchVal := Mem.read16 s.exch.mem (4 * w.val + 2), latchOff := 4 * w.val,
    paired := true } }) ∧
  (∀ (s : State) (w : Fin 8192), s.exch.paired = true → s.exch.latchOff = 4 * w.val →
    exec (.hostMemoryAccess (.readUpper w)) s
      = .next { s with exch := { s.exch with bus := s.exch.latchVal, paired := false } }) ∧
  (∀ (s : State) (w : Fin 8192), ¬ (s.exch.paired = true ∧ s.exch.latchOff = 4 * w.val) →
    exec (.hostMemoryAccess (.readUpper w)) s
      = .next { s with exch := { s.exch with bus := Mem.read16 s.exch.mem (4 * w.val + 2), paired := false } }) ∧
  ∀ (c : Instr) (s t : State), c = .stateRead ∨ (∃ v, c = .nudge v) ∨ (∃ hw v, c = .hostMemoryAccess (.write hw v)) ∨
      (∃ a, c = .registerWriteIgnored a) ∨ c = .controlLayoutReset ∨ (requestOf c).isSome →
    exec c s = .next t → t.exch.paired = false ∧ t.exch.latchVal = s.exch.latchVal ∧ t.exch.latchOff = s.exch.latchOff

/-- The write of HOST_MEMORY_ACCESS stores one half-word, its lower byte at the lower offset (R199), and changes no other byte
and no other field but the latch's pairing (R186). -/
def Obligations.HostWriteStoresOneHalfWord : Prop :=
  ∀ (s : State) (hw : Fin 16384) (v : Half), s.memOk →
    ∃ t, exec (.hostMemoryAccess (.write hw v)) s = .next t ∧
      t.read8 (2 * hw.val) = v.toNat % 256 ∧ t.read8 (2 * hw.val + 1) = v.toNat / 256 ∧
      (∀ a, a ≠ 2 * hw.val → a ≠ 2 * hw.val + 1 → t.read8 a = s.read8 a) ∧
      t = { s with exch := { s.exch with mem := t.exch.mem, paired := false } }

/-- REGISTER_WRITE_IGNORED: writes to IDENT and STATE, and of other values to CONTROL, change nothing but the latch's pairing; a
read of IDENT drives part code 640 below the revision, and a read of NUDGE or CONTROL drives 0 (R185, 12.1). A CONTROL code that
is a row of its own is not this command (log 32): the model's fault. -/
def Obligations.IgnoredAccessesHaveNoEffect : Prop :=
  (∀ (s : State) (v : Half), exec (.registerWriteIgnored (.writeIdent v)) s = .next { s with exch := { s.exch with paired := false } }
    ∧ exec (.registerWriteIgnored (.writeState v)) s = .next { s with exch := { s.exch with paired := false } }
    ∧ (v ≠ 101#16 → v ≠ 102#16 →
      exec (.registerWriteIgnored (.writeControl v)) s = .next { s with exch := { s.exch with paired := false } })) ∧
  (∀ s : State, ∃ id : Half, id.extractLsb' 0 12 = 640#12 ∧
    exec (.registerWriteIgnored .readIdent) s = .next { s with exch := { s.exch with paired := false, bus := id } }) ∧
  (∀ s : State, exec (.registerWriteIgnored .readNudge) s = .next { s with exch := { s.exch with paired := false, bus := 0#16 } }
    ∧ exec (.registerWriteIgnored .readControl) s = .next { s with exch := { s.exch with paired := false, bus := 0#16 } }) ∧
  ∀ s : State, exec (.registerWriteIgnored (.writeControl 101#16)) s = .fault .illFormed
    ∧ exec (.registerWriteIgnored (.writeControl 102#16)) s = .fault .illFormed

/-! ## The intake and the log -/

/-- NUDGE and POLL_TIMER_EXPIRY with nothing posted (R188, R196, R197): the examination reads the poll interval, clamped to at
most 255 and written back, both levels, clamped and written back, and the attention enable set, and it loads the poll timer, or
leaves it stopped at an interval of 0. A NUDGE in INITIALIZING (R185) and an expiry of a stopped timer examine nothing. -/
def Obligations.ExaminationOfNothingPosted : Prop :=
  (∀ (s : State) (v : Half), Sound s → s.exch.runState ≠ .initializing → NothingPosted s →
    ∃ t, exec (.nudge v) s = .next t ∧ ExaminedHeader s t ∧ MemoryKept none s t ∧
      inside t = inside { s with exch := { s.exch with paired := false, pollTimer := loadedPoll s } }) ∧
  (∀ (s : State) (n : Nat), Sound s → s.exch.pollTimer = some n → NothingPosted s →
    ∃ t, exec .pollTimerExpiry s = .next t ∧ ExaminedHeader s t ∧ MemoryKept none s t ∧
      inside t = inside { s with exch := { s.exch with pollTimer := loadedPoll s } }) ∧
  (∀ (s : State) (v : Half), s.exch.runState = .initializing →
    exec (.nudge v) s = .next { s with exch := { s.exch with paired := false } }) ∧
  ∀ s : State, s.exch.pollTimer = none → exec .pollTimerExpiry s = .next s

/-- An examination takes the posted slot at the take position (R188); a record of an unknown kind is answered UNKNOWN_REQUEST
with its own host tag (R189), the take position advances, and the next slot, which is not posted, is left. -/
def Obligations.ExaminationAnswersAnUnknownKind : Prop :=
  ∀ (s : State) (v : Half) (tag : HostTag), Sound s → AtRest s → s.exch.runState ≠ .initializing →
    s.read16 (slotAt s.exch.takePos) = 1 → Tbl.find s.exch.inHand s.exch.takePos = none →
    (s.read16 (slotAt s.exch.takePos + 2) = 0 ∨ 26 < s.read16 (slotAt s.exch.takePos + 2)) →
    s.read16 (slotAt s.exch.takePos + 4) = tag.toNat →
    s.read16 (slotAt ((s.exch.takePos + 1) % 32)) ≠ 1 → Tbl.find s.exch.inHand ((s.exch.takePos + 1) % 32) = none →
    ∃ t, exec (.nudge v) s = .next t ∧ SlotDone s.exch.takePos tag .unknownRequest 0 0 t ∧
      t.exch.takePos = (s.exch.takePos + 1) % 32 ∧ t.read16 0x14 = (s.exch.takePos + 1) % 32 ∧
      t.exch.done = true ∧ MemoryKept (some s.exch.takePos) s t

/-- A report with room and no missed kind is appended whole at W (R195, R196): kind, priority, item, the layout clock and both
value words, in that layout (12.1); W advances modulo 512; no other byte changes but W, the clamped levels and the entry (so Rd
keeps what the host wrote: log 19). LOW kinds have room below the almost-full level, HIGH kinds below 511. -/
def Obligations.ReportIsAppendedWhole : Prop :=
  ∀ (k : ReportKind) (x v1 v2 : Nat) (s : State), Sound s → s.exch.missed = 0#64 →
    unread s.exch.w s.rd < (if k.low then s.almost else 511) →
    let t := report k x v1 v2 s
    let a := 0x1400 + 16 * s.exch.w
    t.read8 a = k.code ∧ t.read8 (a + 1) = (if k.low then 0 else 1) ∧ t.read16 (a + 2) = x % 65536
      ∧ t.read32 (a + 4) = s.clock ∧ t.read32 (a + 8) = v1 % 4294967296 ∧ t.read32 (a + 12) = v2 % 4294967296
      ∧ t.exch.w = (s.exch.w + 1) % 512 ∧ t.read16 0x00 = (s.exch.w + 1) % 512 ∧ t.exch.missed = 0#64
      ∧ (∀ b, ¬ (a ≤ b ∧ b < a + 16) → 8 ≤ b ∨ b = 2 ∨ b = 3 → t.read8 b = s.read8 b) ∧ inside t = inside s

/-- A report without room adds its kind to the missed-kinds set and writes no entry; while kinds are missed, a report is
appended only where it and a RESYNC both have room, after a RESYNC that carries the set, which then is empty (R195). -/
def Obligations.ReportWithoutRoomIsMissed : Prop :=
  ∀ (k : ReportKind) (x v1 v2 : Nat) (s : State), Sound s →
    let t := report k x v1 v2 s
    let limit := if k.low then s.almost else 511
    let m := s.exch.missed
    ((if m = 0#64 then limit ≤ unread s.exch.w s.rd else limit ≤ unread s.exch.w s.rd + 1) →
      t.exch.missed = m ||| (1#64 <<< k.code) ∧ t.exch.w = s.exch.w ∧ (∀ b, 16 ≤ b → t.read8 b = s.read8 b)
        ∧ t.read32 0x08 = t.exch.missed.toNat % 2 ^ 32 ∧ t.read32 0x0C = t.exch.missed.toNat / 2 ^ 32) ∧
    (m ≠ 0#64 → unread s.exch.w s.rd + 1 < limit →
      t.exch.missed = 0#64 ∧ t.exch.w = (s.exch.w + 2) % 512
        ∧ t.read8 (0x1400 + 16 * s.exch.w) = 27
        ∧ t.read32 (0x1400 + 16 * s.exch.w + 8) = m.toNat % 2 ^ 32
        ∧ t.read32 (0x1400 + 16 * s.exch.w + 12) = m.toNat / 2 ^ 32
        ∧ t.read8 (0x1400 + 16 * ((s.exch.w + 1) % 512)) = k.code
        ∧ t.read32 (0x1400 + 16 * ((s.exch.w + 1) % 512) + 8) = v1 % 2 ^ 32
        ∧ t.read32 0x08 = 0 ∧ t.read32 0x0C = 0)

/-- Completing a slot in hand writes its result code, result words and host tag and then DONE, clears its mark and latches the
DONE cause (R189, R197), with the line asserted where DONE is enabled; no other slot is written. A slot that is not in hand is
not completed. -/
def Obligations.CompletionFillsTheSlot : Prop :=
  ∀ (n : Nat) (tag : HostTag) (r : Result) (w0 w1 : Nat) (s : State), n < 32 → s.memOk → Tbl.sorted s.exch.inHand = true →
    (Tbl.find s.exch.inHand n = some tag →
      let t := complete n r w0 w1 s
      SlotDone n tag r w0 w1 t ∧ t.exch.done = true ∧ (s.exch.enable.done = true → t.exch.attn = true)
        ∧ (∀ a, ¬ inSlot n a → t.read8 a = s.read8 a)) ∧
    (Tbl.find s.exch.inHand n = none → complete n r w0 w1 s = s)

/-! ## Requests in general -/

/-- A request whose kind the run state does not allow is answered WRONG_STATE with the run state in word 0, and nothing else is
done (R189, R190). SET_PARAMETERS of the TRACK group in RUNNING is one of them. -/
def Obligations.WrongRunStateIsAnswered : Prop :=
  (∀ (c : Instr) (al : Allowed) (q : Request) (r : RunState) (s : State), requestOf c = some (al, q) → Ready r s →
    r ≠ .initializing → AtRest s → al.ok r = false → Replies c s s q.tag .wrongState r.code 0) ∧
  ∀ (tag : HostTag) (offset count : Word) (s : State), Ready .running s → AtRest s →
    Replies (.setParameters tag 1#32 offset count) s s tag .wrongState 3 0

/-- A request posted in a slot whose in-hand mark is still set, or in INITIALIZING, stays POSTED: it is not taken (R187, R188,
R190; the command's form is log 4). Only the slot is written. -/
def Obligations.HeldSlotStaysPosted : Prop :=
  ∀ (c : Instr) (al : Allowed) (q : Request) (s : State), requestOf c = some (al, q) → Sound s →
    (Tbl.find s.exch.inHand s.exch.takePos ≠ none ∨ s.exch.runState = .initializing) →
    ∃ t, exec c s = .next t ∧ t = { s with exch := { s.exch with mem := t.exch.mem, paired := false } } ∧
      t.read16 (slotAt s.exch.takePos) = 1 ∧ t.read16 (slotAt s.exch.takePos + 2) = q.kind ∧
      t.read16 (slotAt s.exch.takePos + 4) = q.tag.toNat ∧ t.read32 (slotAt s.exch.takePos + 8) = q.w0.toNat ∧
      t.read32 (slotAt s.exch.takePos + 12) = q.w1.toNat ∧ t.read32 (slotAt s.exch.takePos + 16) = q.w2.toNat ∧
      ∀ a, ¬ inSlot s.exch.takePos a → t.read8 a = s.read8 a


/-! ## Detection and tags -/

/-- DETECTOR_SAMPLE: a sample counts only if it equals the one before it (R3); a counted sample equal to the reported level
closes the run, a contrary one opens it at 0 or advances it by 1 ms, and the level changes when the window count reaches the
time of the run (R4). No other input's filter changes. The model's choices: an open run keeps the time it opened with (log 17),
and the time of an input that several sections name is the lowest section's (log 16, in `inputTime`). -/
def Obligations.DetectorSamplesAreFiltered : Prop :=
  ∀ (s : State) (i : Fin 256) (x : Bool), Tbl.sorted s.occ.filters = true →
    let f := Tbl.getD s.occ.filters i.val Filter.init
    ∃ t g, exec (.detectorSample i x) s = .next t ∧ Tbl.getD t.occ.filters i.val Filter.init = g ∧ g.prev = x ∧
        (x ≠ f.prev → g = { f with prev := x }) ∧
        (x = f.prev → x = f.level → g = { f with counted := x, run := none }) ∧
        (x = f.prev → x ≠ f.level → f.run = none → 0 < inputTime s i.val x →
          g = { f with counted := x, run := some (0, inputTime s i.val x) }) ∧
        (x = f.prev → x ≠ f.level → f.run = none → inputTime s i.val x = 0 →
          g = { f with counted := x, level := x, run := none }) ∧
        (x = f.prev → x ≠ f.level → ∀ n m, f.run = some (n, m) → n + 1 < m →
          g = { f with counted := x, run := some (n + 1, m) }) ∧
        (x = f.prev → x ≠ f.level → ∀ n m, f.run = some (n, m) → m ≤ n + 1 →
          g = { f with counted := x, level := x, run := none }) ∧
      ∀ j, j ≠ i.val → Tbl.getD t.occ.filters j Filter.init = Tbl.getD s.occ.filters j Filter.init

/-- DETECTOR_SAMPLE: in RUNNING a changed level derives the state of the section that names the input, while that section is
CLEAR or OCCUPIED: from the level alone, from the count alone, or from either, by its detection (R11). No other section's
occupancy changes. -/
def Obligations.DetectorLevelMovesItsSection : Prop :=
  ∀ (s : State) (i : Fin 256) (x : Bool) (n : Nat) (r : SectionRec) (o : Occupancy), s.exch.runState = .running →
    sectionOfInput s i.val = some (n, r) → Tbl.find s.occ.recs n = some r → Tbl.find s.occ.secs n = some o →
    ((Tbl.getD s.occ.filters i.val Filter.init).sample (inputTime s i.val x) x).level
      ≠ (Tbl.getD s.occ.filters i.val Filter.init).level →
    ∃ t p, exec (.detectorSample i x) s = .next t ∧ Tbl.find t.occ.secs n = some p ∧ p.count = o.count ∧
      (o.state = .clear ∨ o.state = .occupied →
        p.state = match r.detection with
          | .current => if x then .occupied else .clear
          | .axle => if 0 < o.count then .occupied else .clear
          | .both => if x = true ∨ 0 < o.count then .occupied else .clear) ∧
      (o.state ≠ .clear → o.state ≠ .occupied → p.state = o.state) ∧
      ∀ m, m ≠ n → Tbl.find t.occ.secs m = Tbl.find s.occ.secs m

/-- The frame of DETECTOR_SAMPLE, AXLE_HEAD_SAMPLE and DISCREPANCY_TIMER_EXPIRY: in a quiet machine they change the occupancy
unit and the tags, and nothing else inside. -/
def Obligations.TrackCommandsChangeTrackAlone : Prop :=
  ∀ (c : Instr) (s : State), Quiet s →
    ((∃ i x, c = .detectorSample i x) ∨ (∃ h a b, c = .axleHeadSample h a b) ∨ ∃ n, c = .discrepancyTimerExpiry n) →
    ∃ o g, Makes c s { s with occ := o, tags := g }

/-- AXLE_HEAD_SAMPLE: the transitions of R7 that complete no passage. `a` and `b` are the A-side and the B-side channels (R6); a
pair that changes one channel moves the phase as the table of R7 says, or leaves it, and nothing else changes inside. -/
def Obligations.HeadPhasesFollowTheTable : Prop :=
  ∀ (s : State) (k : Fin 32) (h : Head) (a b a' b' : Bool) (p : Phase), AtRest s → Tbl.find s.occ.heads k.val = some h →
    sidePair h (Tbl.getD s.occ.pairs k.val (false, false)) = (a, b) → (a = a' ∧ b ≠ b' ∨ a ≠ a' ∧ b = b') →
    (h.phase, a', b', p) ∈
      [(.idle, true, false, .aEntered), (.idle, false, true, .bEntered), (.idle, true, true, .idle),
       (.idle, false, false, .idle),
       (.aEntered, true, true, .aCentre), (.aEntered, false, false, .idle),
       (.aCentre, false, true, .aLeaving), (.aCentre, true, false, .aEntered), (.aLeaving, true, true, .aCentre),
       (.bEntered, true, true, .bCentre), (.bEntered, false, false, .idle),
       (.bCentre, true, false, .bLeaving), (.bCentre, false, true, .bEntered), (.bLeaving, true, true, .bCentre),
       (.waitIdle, false, false, .idle), (.waitIdle, true, false, .waitIdle), (.waitIdle, false, true, .waitIdle),
       (.waitIdle, true, true, .waitIdle)] →
    let pair := if h.invert then (b', a') else (a', b')
    Makes (.axleHeadSample k pair.1 pair.2) s { s with occ := { s.occ with
      heads := Tbl.insert s.occ.heads k.val { h with phase := p }
      pairs := Tbl.put (false, false) s.occ.pairs k.val pair } }

/-- AXLE_HEAD_SAMPLE that completes a passage in RUNNING (R7, R9): the passage total counts on by one, modulo 65,536, and one
axle leaves the side section behind and enters the one ahead, in any of their states and with any count up to 255 (R10, R11,
R13): an AXLE or BOTH section that it enters is OCCUPIED, or UNCERTAIN where it was or where its count stood at 255; one that it
leaves is CLEAR with the last axle, unless its detector holds it, or UNCERTAIN where it was or where its count stood at 0. A
side that is NONE is left out, and no other section changes. -/
def Obligations.PassageMovesOneAxle : Prop :=
  ∀ (s : State) (k : Fin 32) (h : Head) (ab : Bool),
    s.exch.runState = .running → Tbl.find s.occ.heads k.val = some h → (∀ n, h.aSide = some n → h.bSide ≠ some n) →
    h.phase = (if ab then .aLeaving else .bLeaving) →
    sidePair h (Tbl.getD s.occ.pairs k.val (false, false)) = (!ab, ab) →
    (∀ n, h.aSide = some n ∨ h.bSide = some n → ∃ r o, Tbl.find s.occ.recs n = some r ∧ Tbl.find s.occ.secs n = some o ∧
      r.detection ≠ .current ∧ o.count ≤ 255 ∧ (o.state = .sweeping → o.count = 0)) →
    ∃ t, exec (.axleHeadSample k false false) s = .next t ∧
      (∀ n r o, (if ab then h.aSide else h.bSide) = some n → Tbl.find s.occ.recs n = some r → Tbl.find s.occ.secs n = some o →
        ∃ p, Tbl.find t.occ.secs n = some p ∧ AxleLeaves r (detLevel s r) o p) ∧
      (∀ n o, (if ab then h.bSide else h.aSide) = some n → Tbl.find s.occ.secs n = some o →
        ∃ p, Tbl.find t.occ.secs n = some p ∧ AxleEnters o p) ∧
      Tbl.find t.occ.heads k.val = some { h with
        phase := .idle
        totalAB := if ab then (h.totalAB + 1) % 65536 else h.totalAB
        totalBA := if ab then h.totalBA else (h.totalBA + 1) % 65536 } ∧
      ∀ j, h.aSide ≠ some j → h.bSide ≠ some j → Tbl.find t.occ.secs j = Tbl.find s.occ.secs j

/-- AXLE_HEAD_SAMPLE with both channels changed (R8): the head waits for idle and is SUSPECT, and in RUNNING each side section
that is not DISABLED becomes UNCERTAIN and keeps its count; in CONFIGURING no section changes. -/
def Obligations.SequenceErrorDoubtsBothSides : Prop :=
  ∀ (s : State) (k : Fin 32) (h : Head) (a b : Bool), Tbl.find s.occ.heads k.val = some h →
    sidePair h (Tbl.getD s.occ.pairs k.val (false, false)) = (a, b) →
    let pair := if h.invert then (!b, !a) else (!a, !b)
    ∃ t, exec (.axleHeadSample k pair.1 pair.2) s = .next t ∧
      Tbl.find t.occ.heads k.val = some { h with phase := .waitIdle, suspect := true } ∧
      (s.exch.runState ≠ .running → t.occ.secs = s.occ.secs) ∧
      (s.exch.runState = .running → ∀ (n : Nat) (r : SectionRec) (o : Occupancy), Tbl.find s.occ.recs n = some r →
        Tbl.find s.occ.secs n = some o →
        ∃ p, Tbl.find t.occ.secs n = some p ∧ p.count = o.count ∧
          (h.aSide = some n ∨ h.bSide = some n → o.state ≠ .disabled → p.state = .uncertain) ∧
          (h.aSide = some n ∨ h.bSide = some n → o.state = .disabled → p.state = .disabled) ∧
          (h.aSide ≠ some n → h.bSide ≠ some n → p = o))

/-- DISABLE_SECTION and ENABLE_SECTION (R16, R17): the refusals in their order; a section made DISABLED with count 0; a DISABLED
section taken afresh, from its detector (CURRENT) or as SWEEPING, or as UNCERTAIN where a head that bounds it is SUSPECT, with
count 0. Only the section and the tags change. -/
def Obligations.SectionsAreDisabledAndEnabled : Prop :=
  ∀ (s : State) (tag : HostTag) (n : Word), Ready .running s → AtRest s →
    (256 ≤ n.toNat ∨ Tbl.find s.occ.recs n.toNat = none →
      Replies (.disableSection tag n) s s tag .badArgument 0 0 ∧ Replies (.enableSection tag n) s s tag .badArgument 0 0) ∧
    (n.toNat < 256 → ∀ r o, Tbl.find s.occ.recs n.toNat = some r → Tbl.find s.occ.secs n.toNat = some o →
      (∀ k, Tbl.find s.ilk.locks n.toNat = some k → Replies (.disableSection tag n) s s tag .sectionLocked 0 0) ∧
      (Tbl.find s.ilk.locks n.toNat = none → Quiet s → o.state ≠ .disabled →
        ∃ g, Replies (.disableSection tag n) s { s with
          occ := { s.occ with secs := Tbl.insert s.occ.secs n.toNat (plainOccupancy .disabled) }
          tags := g } tag .ok 0 0) ∧
      (Quiet s → o.state = .disabled →
        let st := match r.detection with
          | .current => if detLevel s r then SectionState.occupied else .clear
          | .axle | .both =>
            if s.occ.heads.any (fun x => (x.2.aSide == some n.toNat || x.2.bSide == some n.toNat) && x.2.suspect)
            then .uncertain else .sweeping
        ∃ g, Replies (.enableSection tag n) s { s with
          occ := { s.occ with secs := Tbl.insert s.occ.secs n.toNat (plainOccupancy st) }
          tags := g } tag .ok 0 0))

/-- RESET_SECTION (R18): its refusals in their order; else the section is SWEEPING with count 0 and every SUSPECT head that
bounds it is NORMAL. -/
def Obligations.ResetSectionSweeps : Prop :=
  ∀ (s : State) (tag : HostTag) (n : Word), Ready .running s → AtRest s →
    (256 ≤ n.toNat ∨ Tbl.find s.occ.recs n.toNat = none → Replies (.resetSection tag n) s s tag .badArgument 0 0) ∧
    (n.toNat < 256 → ∀ r o, Tbl.find s.occ.recs n.toNat = some r → Tbl.find s.occ.secs n.toNat = some o →
      (r.detection = .current → Replies (.resetSection tag n) s s tag .badArgument 0 0) ∧
      (r.detection ≠ .current →
        (o.state = .disabled → Replies (.resetSection tag n) s s tag .sectionDisabled 0 0) ∧
        (o.state = .clear ∨ o.state = .sweeping → Replies (.resetSection tag n) s s tag .wrongSectionState 0 0) ∧
        (o.state = .uncertain ∨ o.state = .occupied →
          (∀ k, Tbl.find s.ilk.locks n.toNat = some k → Replies (.resetSection tag n) s s tag .sectionLocked 0 0) ∧
          (Tbl.find s.ilk.locks n.toNat = none → Quiet s → Tbl.sorted s.occ.heads = true →
            ∃ g, Replies (.resetSection tag n) s { s with
              occ := { s.occ with
                secs := Tbl.insert s.occ.secs n.toNat (plainOccupancy .sweeping)
                heads := s.occ.heads.map fun x =>
                  (x.1, if x.2.aSide = some n.toNat ∨ x.2.bSide = some n.toNat then { x.2 with suspect := false } else x.2) }
              tags := g } tag .ok 0 0))))

/-- DISCREPANCY_TIMER_EXPIRY, LOST_HOLD_EXPIRY and LABEL_TAG. A running discrepancy timer stops and sets the discrepancy flag;
the state and the count stay (R14); a section whose timer is stopped, or that is not loaded, is left as it is (log 3). A LOST
tag whose lost-hold timer runs becomes FREE, any other tag is left (R34); a label of a tag that is not FREE is set, after the
checks of the tag and the label (R36; BAD_ARGUMENT comes before TAG_NOT_IN_USE: log 54). -/
def Obligations.TrackTimersAndLabels : Prop :=
  (∀ (s : State) (n : Fin 256), AtRest s →
    (∀ r o k, Tbl.find s.occ.recs n.val = some r → Tbl.find s.occ.secs n.val = some o → o.discTimer = some k →
      Makes (.discrepancyTimerExpiry n) s { s with occ := { s.occ with
        secs := Tbl.insert s.occ.secs n.val { o with discTimer := none, discFlag := true } } }) ∧
    ((∀ o, Tbl.find s.occ.secs n.val = some o → o.discTimer = none) → Makes (.discrepancyTimerExpiry n) s s)) ∧
  (∀ (s : State) (t : Fin 64), AtRest s →
    ((tagRec s t.val).state = .lost → (tagRec s t.val).timer ≠ none →
      Makes (.lostHoldExpiry t) s { s with tags := { s.tags with table := Tbl.erase s.tags.table t.val } }) ∧
    ((tagRec s t.val).state ≠ .lost ∨ (tagRec s t.val).timer = none → Makes (.lostHoldExpiry t) s s)) ∧
  ∀ (s : State) (tag : HostTag) (t label : Word), Ready .running s → AtRest s →
    (63 < t.toNat ∨ 255 < label.toNat → Replies (.labelTag tag t label) s s tag .badArgument 0 0) ∧
    (t.toNat ≤ 63 → label.toNat ≤ 255 →
      ((tagRec s t.toNat).state = .free → Replies (.labelTag tag t label) s s tag .tagNotInUse 0 0) ∧
      ((tagRec s t.toNat).state ≠ .free → Replies (.labelTag tag t label) s { s with tags := { s.tags with
        table := Tbl.insert s.tags.table t.toNat { tagRec s t.toNat with label := label.toNat } } } tag .ok 0 0))

/-- Arrivals and departures, made by a DETECTOR_SAMPLE. An arrival (R27): from a neighbour that alone holds a tag the section
takes that tag as its newest holder (R29); with no neighbour and no LOST tag left in it the section takes the lowest FREE tag,
ACTIVE and unlabelled (R32); with all 64 tags in use it takes none, and stays OCCUPIED. A departure (R33): the last holder of a
tag clears, the tag becomes LOST there and its lost-hold timer starts (R34), and the section's tag field is empty; with another
holder left, the tag only loses the section. In the sequence of the RUNNING route that locks it a section takes the route's tag
from the section before it (R28); from two neighbours with different tags it takes none (R30); with no tag gathered it takes
back the lowest LOST tag left in it, with its label (R31). An arrival from the approach section of a signal that shows DANGER
and protects the section is an overrun: the signal's count rises by 1, up to 255 (R112, R113), and ALL STOP is entered where the
response is ALL_STOP; past any other aspect, or from elsewhere, the count stays. -/
def Obligations.TagsArriveAndDepart : Prop :=
  (∀ (s : State) (i : Fin 256) (n : Nat) (r : SectionRec) (o : Occupancy), Quiet s → s.exch.runState = .running →
    sectionOfInput s i.val = some (n, r) → Tbl.find s.occ.recs n = some r → Tbl.find s.occ.secs n = some o →
    r.detection = .current → o.state = .clear → (Tbl.getD s.occ.filters i.val Filter.init).level = false →
    ((Tbl.getD s.occ.filters i.val Filter.init).sample (inputTime s i.val true) true).level = true →
    (∀ m k, r.neighbours = [{ sec := m, cond := none }] → m ≠ n → secState s m = .occupied → tagOf s m = some k →
      ∃ t, exec (.detectorSample i true) s = .next t ∧ tagOf t n = some k ∧
        (tagRec t k).state = .active ∧ (tagRec t k).holders = (tagRec s k).holders ++ [n] ∧
        (tagRec t k).label = (tagRec s k).label ∧ (tagRec t k).timer = none ∧
        (∀ j, j ≠ k → tagRec t j = tagRec s j) ∧ ∀ j, j ≠ n → tagOf t j = tagOf s j) ∧
    (∀ k, r.neighbours = [] → (∀ e ∈ s.tags.table, e.2.state = .lost → e.2.last ≠ some n) → k < 64 →
      Tbl.find s.tags.table k = none → (∀ j, j < k → (tagRec s j).state ≠ .free) →
      ∃ t, exec (.detectorSample i true) s = .next t ∧ tagOf t n = some k ∧
        tagRec t k = { state := .active, label := 0, holders := [n], last := none, timer := none } ∧
        (∀ j, j ≠ k → tagRec t j = tagRec s j) ∧ ∀ j, j ≠ n → tagOf t j = tagOf s j) ∧
    (r.neighbours = [] → (∀ e ∈ s.tags.table, e.2.state = .lost → e.2.last ≠ some n) →
      (∀ j, j < 64 → (tagRec s j).state ≠ .free) →
      ∃ t, exec (.detectorSample i true) s = .next t ∧ t.tags = s.tags ∧ secState t n = .occupied)) ∧
  (∀ (s : State) (i : Fin 256) (n k : Nat) (r : SectionRec) (o : Occupancy), Quiet s → s.exch.runState = .running →
    sectionOfInput s i.val = some (n, r) → Tbl.find s.occ.recs n = some r → Tbl.find s.occ.secs n = some o →
    r.detection = .current → o.state = .occupied → (Tbl.getD s.occ.filters i.val Filter.init).level = true →
    ((Tbl.getD s.occ.filters i.val Filter.init).sample (inputTime s i.val false) false).level = false →
    tagOf s n = some k → (tagRec s k).state = .active → Tbl.sorted s.tags.fields = true → s.tags.lostHold ≠ 0 →
    ∃ t, exec (.detectorSample i false) s = .next t ∧ tagOf t n = none ∧
      (∀ j, j ≠ k → tagRec t j = tagRec s j) ∧ (∀ j, j ≠ n → tagOf t j = tagOf s j) ∧
      ((tagRec s k).holders = [n] → tagRec t k = { tagRec s k with
        state := .lost, holders := [], last := some n, timer := some s.tags.lostHold }) ∧
      (∀ a b, (tagRec s k).holders = [a, b] → a ≠ b → (a = n ∨ b = n) → tagRec t k = { tagRec s k with
        holders := [if a = n then b else a] })) ∧
  (∀ (s : State) (i : Fin 256) (n c k e : Nat) (a : Active) (q : RouteRec) (xs ys : List Nat), Changes i true n s →
    s.asp.response = .report → s.ilk.active = [(e, a)] → Tbl.find s.ilk.routes a.route = some q → lockOf s n = some a.route →
    a.state = .running → a.tag = some k → sequence q = xs ++ c :: n :: ys → n ∉ xs → n ≠ c → tagOf s c = some k →
    ∃ t, exec (.detectorSample i true) s = .next t ∧ tagOf t n = some k ∧
      tagRec t k = { tagRec s k with
        state := .active, holders := (tagRec s k).holders ++ [n], last := none, timer := none } ∧
      (∀ j, j ≠ k → tagRec t j = tagRec s j) ∧ ∀ j, j ≠ n → tagOf t j = tagOf s j) ∧
  (∀ (s : State) (i : Fin 256) (n m₁ m₂ k₁ k₂ : Nat), Changes i true n s → s.ilk.active = [] →
    (Tbl.find s.occ.recs n).map SectionRec.neighbours = some [{ sec := m₁, cond := none }, { sec := m₂, cond := none }] →
    secState s m₁ = .occupied → secState s m₂ = .occupied → m₁ ≠ n → m₂ ≠ n → tagOf s m₁ = some k₁ → tagOf s m₂ = some k₂ →
    k₁ ≠ k₂ →
    ∃ t, exec (.detectorSample i true) s = .next t ∧ t.tags = s.tags ∧ secState t n = .occupied) ∧
  (∀ (s : State) (i : Fin 256) (n k : Nat) (v : Tag), Changes i true n s → s.ilk.active = [] →
    (Tbl.find s.occ.recs n).map SectionRec.neighbours = some [] → Tbl.sorted s.tags.table = true →
    Tbl.find s.tags.table k = some v → v.state = .lost → v.last = some n →
    (∀ e ∈ s.tags.table, e.1 < k → e.2.state = .lost → e.2.last ≠ some n) →
    ∃ t, exec (.detectorSample i true) s = .next t ∧ tagOf t n = some k ∧
      tagRec t k = { v with state := .active, holders := v.holders ++ [n], last := none, timer := none } ∧
      (∀ j, j ≠ k → tagRec t j = tagRec s j) ∧ ∀ j, j ≠ n → tagOf t j = tagOf s j) ∧
  ∀ (s : State) (i : Fin 256) (n m k x : Nat) (r : SignalRec) (st : SignalState), Changes i true n s → s.ilk.active = [] →
    (Tbl.find s.occ.recs n).map SectionRec.neighbours = some [{ sec := m, cond := none }] → secState s m = .occupied →
    m ≠ n → tagOf s m = some k → Tbl.sorted s.asp.recs = true → Tbl.find s.asp.recs x = some r →
    Tbl.find s.asp.state x = some st → r.kind ≠ .distant → r.protect = some n →
    (s.asp.response = .report → ∃ t, exec (.detectorSample i true) s = .next t ∧
      (Tbl.find t.asp.state x).map SignalState.overruns
        = some (if st.aspect = .danger ∧ r.approach = some m then min 255 (st.overruns + 1) else st.overruns)) ∧
    (s.asp.response = .allStop → s.asp.cond = .running → st.aspect = .danger → r.approach = some m →
      (∀ y q, Tbl.find s.asp.recs y = some q → y < x → q.protect ≠ some n) →
      ∃ t, exec (.detectorSample i true) s = .next t ∧ t.asp.cond = .allStop ∧ t.asp.cause = some (.overrun x) ∧
        t.asp.power = false)

/-! ## Routes -/

/-- SET_ROUTE that passes the eight checks (R44 to R49), with every point already detected in its required lie and every section
of its sequence CLEAR: the route takes the lowest free entry (R50, R66), locks each section of its sequence, joins the holder
list of each of its points (R62, R63) and is SET in the same handling; the slot is answered OK with the entry (R67). Inside,
only the interlocking and the points' own states change. -/
def Obligations.SetRouteBecomesSet : Prop :=
  ∀ (s : State) (tag : HostTag) (route w1 w2 : Word) (o : Originator) (r : RouteRec) (e : Nat), Ready .running s → AtRest s →
    route.toNat ≤ 511 → originatorOf w1.toNat = some o → Tbl.find s.ilk.routes route.toNat = some r →
    routeRefusal s route.toNat o false = none → Tbl.lowestFree s.ilk.active 48 0 = some e →
    (∀ x ∈ routePoints r, detLie s x.1 = x.2.det) → (∀ n ∈ sequence r, secState s n = .clear) →
    ∃ t, exec (.setRoute tag route w1 w2) s = .next t ∧ SlotDone s.exch.takePos tag .ok e 0 t ∧
      Tbl.find t.ilk.active e = some
        { route := route.toNat, state := .set, originator := o, slot := none, show_ := none, tag := none, orders := [],
          passed := List.replicate (sequence r).length false, releasePos := 0,
          overlapState := if r.overlap = [] then .released else .locked, overlapPos := 0, timer := none,
          ending := .cancelled } ∧
      (∀ k, k ≠ e → Tbl.find t.ilk.active k = Tbl.find s.ilk.active k) ∧
      (∀ n ∈ sequence r, lockOf t n = some route.toNat) ∧ (∀ n, n ∉ sequence r → lockOf t n = lockOf s n) ∧
      (∀ x ∈ routePoints r, route.toNat ∈ (holdersOf t x.1).routes) ∧
      (∀ p, (∀ x ∈ routePoints r, x.1 ≠ p) → holdersOf t p = holdersOf s p) ∧
      inside t = inside ({ s with
        ilk := { s.ilk with active := t.ilk.active, locks := t.ilk.locks, holders := t.ilk.holders }
        pts := { s.pts with state := t.pts.state } } : State).served ∧
      MemoryKept (some s.exch.takePos) s t

/-- SET_ROUTE that fails: an originator or a route number that is not valid is answered BAD_ARGUMENT; the first check that fails
is answered with its two words (R43, R51), unless the request asked to be stacked and the reason is transient (R52): then, with
fewer than 16 entries on the stack, it is placed after those of its own and of earlier classes, with its reason and item, and
its slot stays TAKEN (R53); with 16 it is answered STACK_FULL with the reason and its item. Then the eight checks one by one,
each with its two words (R44 to R49, R51), for a request (`again` false) and for a stacked entry at re-examination, which does
not count as itself stacked (R55). -/
def Obligations.SetRouteIsRefusedOrStacked : Prop :=
  (∀ (s : State) (tag : HostTag) (route w1 w2 : Word), Ready .running s → s.work = Work.none → s.vis.queue = [] →
    (originatorOf w1.toNat = none ∨ 511 < route.toNat →
      Replies (.setRoute tag route w1 w2) s s tag .badArgument 0 0) ∧
    ∀ (o : Originator) (a : Answer), originatorOf w1.toNat = some o → route.toNat ≤ 511 →
      routeRefusal s route.toNat o false = some a →
      (w2.toNat % 2 = 0 ∨
          a.result ∉ [.entryBusy, .sectionLocked, .sectionOccupied, .pointLocked, .pointOccupied, .tableNotAligned,
            .routeTableFull] →
        Replies (.setRoute tag route w1 w2) s s tag a.result a.w0 a.w1) ∧
      (w2.toNat % 2 = 1 →
          a.result ∈ [.entryBusy, .sectionLocked, .sectionOccupied, .pointLocked, .pointOccupied, .tableNotAligned,
            .routeTableFull] →
        let x : StackEntry :=
          { route := route.toNat, originator := o, source := .slot s.exch.takePos, arrival := s.clock,
            expiry := if s.ilk.stackTimeout = 0 then none else some (1000 * s.ilk.stackTimeout), reason := a.result,
            item := a.w0 }
        let earlier (y : StackEntry) : Bool := decide (y.originator.code ≤ o.code)
        (s.ilk.stack.length < 16 → Pends (.setRoute tag route w1 w2) s { s with ilk := { s.ilk with
          stack := s.ilk.stack.takeWhile earlier ++ x :: s.ilk.stack.dropWhile earlier } } tag) ∧
        (s.ilk.stack.length = 16 →
          Replies (.setRoute tag route w1 w2) s s tag .stackFull a.result.code a.w0))) ∧
  ∀ (s : State) (route : Nat) (o : Originator) (again : Bool),
    let answer (c : Result) (w0 w1 : Nat) : Prop := routeRefusal s route o again = some ⟨c, w0, w1⟩
    (Tbl.find s.ilk.routes route = none → answer .notLoaded route 0) ∧
    ∀ r, Tbl.find s.ilk.routes route = some r →
      let visitors := (s.ilk.active.filter fun x => x.2.originator == .visitor).length
        + (s.ilk.stack.filter fun x => x.originator == .visitor && !(again && x.route == route)).length
      let barred (n : Nat) : Prop := ¬ match r.cls with
        | .main => secState s n = .clear
        | .callOn => secState s n = .clear ∨
            (elementSections r).getLast? = some n ∧ (secState s n = .occupied ∨ secState s n = .uncertain)
        | .shunt => secState s n ≠ .disabled
      let incompatible (x : Nat × Lie) : Prop := (holdersOf s x.1).routes ≠ [] ∧
        ((holdersOf s x.1).shared ≠ some x.2 ∨ 4 ≤ (holdersOf s x.1).routes.length)
      let stuck (x : Nat × Lie) : Prop := (detLie s x.1 ≠ x.2.det ∨ orderOf s x.1 ≠ none) ∧
        ((holdersOf s x.1).routes ≠ [] ∨ orderOf s x.1 ≠ none ∨ secState s (pointSec s x.1) ≠ .clear)
      let p1 := entryOf s route = none
      let p2 := p1 ∧ (again = true ∨ ∀ x ∈ s.ilk.stack, x.route ≠ route)
      let p3 := p2 ∧ entryAt s r.entry = none
      let p4 := p3 ∧ s.asp.cond = .running
      let p5 := p4 ∧ (o ≠ .visitor ∨ r.visitor = true ∧ s.vis.suspended = false ∧ visitors < s.ilk.quota)
      let p6 := p5 ∧ Tbl.lowestFree s.ilk.active 48 0 ≠ none
      let p7 := p6 ∧ ∀ n ∈ sequence r, secState s n ≠ .disabled
      let p8 := p7 ∧ ∀ n ∈ sequence r, lockOf s n = none
      let p9 := p8 ∧ ∀ n ∈ sequence r, ¬ barred n
      let p10 := p9 ∧ ∀ x ∈ routePoints r, detLie s x.1 ≠ .failed
      let p11 := p10 ∧ ∀ x ∈ routePoints r, ¬ incompatible x
      let p12 := p11 ∧ ∀ x ∈ routePoints r, ¬ stuck x
      (∀ e a, entryOf s route = some (e, a) → answer .routeActive route e) ∧
      (∀ k, p1 → again = false → s.ilk.stack.findIdx? (fun x => x.route == route) = some k → answer .routeStacked route k) ∧
      (∀ e a, p2 → entryAt s r.entry = some (e, a) → answer .entryBusy r.entry a.route) ∧
      (p3 → s.asp.cond = .allStop → answer .allStop 0 0) ∧
      (p4 → o = .visitor → r.visitor = false ∨ s.vis.suspended = true ∨ s.ilk.quota ≤ visitors →
        answer .visitorBarred route visitors) ∧
      (p5 → Tbl.lowestFree s.ilk.active 48 0 = none → answer .routeTableFull 0 0) ∧
      (∀ n, p6 → FirstWith (fun n => secState s n = .disabled) (sequence r) n → answer .sectionDisabled n 0) ∧
      (∀ n k, p7 → FirstWith (fun n => lockOf s n ≠ none) (sequence r) n → lockOf s n = some k →
        answer .sectionLocked n k) ∧
      (∀ n, p8 → FirstWith barred (sequence r) n → answer .sectionOccupied n (secState s n).code) ∧
      (∀ x, p9 → FirstWith (fun x => detLie s x.1 = .failed) (routePoints r) x → answer .pointFailed x.1 0) ∧
      (∀ x h more, p10 → FirstWith incompatible (routePoints r) x → (holdersOf s x.1).routes = h :: more →
        answer .pointLocked x.1 h) ∧
      (∀ x, p11 → FirstWith stuck (routePoints r) x → answer .pointOccupied x.1 (detLie s x.1).code) ∧
      (∀ y, p12 → r.table = some y → ¬ (s.tt.state = .aligned ∧ s.tt.align = some y) →
        answer .tableNotAligned (roadEndByte (some y)) s.tt.state.code) ∧
      (p12 → (∀ y, r.table = some y → s.tt.state = .aligned ∧ s.tt.align = some y) →
        routeRefusal s route o again = none)

/-- SET_ROUTE for a route with one point, a solenoid that needs moving, while the discharge unit is not READY: the route is
SETTING with the point in its order list, and the point's order waits QUEUED (R50, R66, R94, R95). -/
def Obligations.SetRouteOrdersItsPoint : Prop :=
  ∀ (s : State) (tag : HostTag) (route w1 w2 : Word) (o : Originator) (r : RouteRec) (e p : Nat) (l : Lie) (q : PointRec),
    Ready .running s → AtRest s → route.toNat ≤ 511 → originatorOf w1.toNat = some o →
    Tbl.find s.ilk.routes route.toNat = some r → routeRefusal s route.toNat o false = none →
    Tbl.lowestFree s.ilk.active 48 0 = some e → routePoints r = [(p, l)] → detLie s p ≠ l.det →
    Tbl.find s.pts.recs p = some q → q.motor = .solenoid → s.pts.unit ≠ .ready →
    ∃ t a, exec (.setRoute tag route w1 w2) s = .next t ∧ Tbl.find t.ilk.active e = some a ∧ a.route = route.toNat ∧
      a.state = .setting ∧ a.slot = some s.exch.takePos ∧ a.orders = [p] ∧
      t.pts.queue = [queuedOrder p l (.route e)] ∧
      t.pts.overflow = [] ∧ holdersOf t p = { routes := [route.toNat], shared := some l } ∧
      (∀ n ∈ sequence r, lockOf t n = some route.toNat) ∧ t.pts.unit = s.pts.unit ∧
      Tbl.find t.exch.inHand s.exch.takePos = some tag

/-- The route stack. A request is placed after every entry of its own class and of earlier classes and before those of later
ones, and the stack stays in class order: OPERATOR, AUTOMATION, VISITOR (R53). STACK_ENTRY_EXPIRY of the only entry, from a
slot: the entry leaves the stack and its slot is answered EXPIRED with the reason and item it held (R58). A route with no entry,
or with one that has no expiry time, changes nothing (log 3). A section that an ENABLE_SECTION makes CLEAR is a cause of
re-examination (R54): an entry that fails with a transient reason stays with the reason and item of this check (R55), one that
fails with a permanent reason leaves the stack and its slot is answered with it (R57), and one that passes is set, and takes its
slot with it (R56). -/
def Obligations.StackOrderAndExpiry : Prop :=
  (∀ (x : StackEntry) (l : List StackEntry), l.Pairwise (fun y z => y.originator.code ≤ z.originator.code) →
    (placeEntry x l).Pairwise (fun y z => y.originator.code ≤ z.originator.code) ∧
      ∃ a b, l = a ++ b ∧ placeEntry x l = a ++ x :: b ∧ (∀ y ∈ a, y.originator.code ≤ x.originator.code) ∧
        ∀ y ∈ b, x.originator.code < y.originator.code) ∧
  (∀ (s : State) (route : Fin 512) (x : StackEntry) (k n : Nat) (tag : HostTag), Sound s → s.work = Work.none →
    s.vis.queue = [] → s.ilk.stack = [x] → x.route = route.val → x.expiry = some k → x.source = .slot n → n < 32 →
    Tbl.sorted s.exch.inHand = true → Tbl.find s.exch.inHand n = some tag →
    ∃ t, exec (.stackEntryExpiry route) s = .next t ∧ SlotDone n tag .expired x.reason.code x.item t ∧
      MemoryKept none s t ∧ inside t = inside { s with
        ilk := { s.ilk with stack := [] }
        exch := { s.exch with inHand := Tbl.erase s.exch.inHand n } }) ∧
  (∀ (s : State) (route : Fin 512), s.work = Work.none → s.vis.queue = [] →
    (∀ x ∈ s.ilk.stack, x.route = route.val → x.expiry = none) → Makes (.stackEntryExpiry route) s s) ∧
  ∀ (s : State) (tag other : HostTag) (n : Word) (r : SectionRec) (o : Occupancy) (x : StackEntry) (k : Nat),
    Ready .running s → s.work = Work.none → s.vis.queue = [] → s.vis.runner = none → s.tt.requester ≠ .jog →
    s.pts.queue = [] → s.pts.overflow = [] → s.ilk.active = [] → s.ilk.stack = [x] → x.source = .slot k → k < 32 →
    k ≠ s.exch.takePos → Tbl.sorted s.exch.inHand = true → Tbl.find s.exch.inHand k = some other → n.toNat < 256 →
    Tbl.find s.occ.recs n.toNat = some r → Tbl.find s.occ.secs n.toNat = some o → r.detection = .current →
    detLevel s r = false → o.state = .disabled → tagOf s n.toNat = none →
    let u : State := { s with occ := { s.occ with secs := Tbl.insert s.occ.secs n.toNat (plainOccupancy .clear) } }
    (∀ a, routeRefusal u x.route x.originator true = some a → a.result.transient = true →
      Replies (.enableSection tag n) s { u with ilk := { u.ilk with stack := [{ x with reason := a.result, item := a.w0 }] } }
        tag .ok 0 0) ∧
    (∀ a, routeRefusal u x.route x.originator true = some a → a.result.transient = false →
      ∃ t, exec (.enableSection tag n) s = .next t ∧ SlotDone s.exch.takePos tag .ok 0 0 t ∧
        SlotDone k other a.result a.w0 a.w1 t ∧ MemoryKept (some s.exch.takePos) s t ∧
        inside t = inside ({ u with
          ilk := { u.ilk with stack := [] }
          exch := { u.exch with inHand := Tbl.erase u.exch.inHand k } } : State).served) ∧
    ∀ q, routeRefusal u x.route x.originator true = none → Tbl.find s.ilk.routes x.route = some q →
      (∀ y ∈ routePoints q, detLie s y.1 = y.2.det) → (∀ m ∈ sequence q, secState u m = .clear) →
      ∃ t a, exec (.enableSection tag n) s = .next t ∧ SlotDone s.exch.takePos tag .ok 0 0 t ∧ SlotDone k other .ok 0 0 t ∧
        t.ilk.stack = [] ∧ Tbl.find t.ilk.active 0 = some a ∧ a.route = x.route ∧ a.originator = x.originator ∧
        a.state = .set ∧ ∀ m ∈ sequence q, lockOf t m = some x.route

/-- CANCEL_ROUTE of a route that is not stacked (R80 to R82): a SET or HELD route with no order in hand is released whole where
its approach sections are all CLEAR or its approach time is 0, and a SET or HELD route is else APPROACH_LOCKED with the approach
timer running; RUNNING is answered ROUTE_RUNNING, APPROACH_LOCKED and CANCELLING stay, and a route that is not active is
answered ROUTE_NOT_ACTIVE. A SETTING route's slot is answered CANCELLED; the route is released whole, its queued order
withdrawn, or waits in CANCELLING for an order in flight (R83, R100). A stacked request leaves the stack, its slot answered
CANCELLED (R59). -/
def Obligations.CancelReleasesOrLocks : Prop :=
  (∀ (s : State) (tag : HostTag) (route : Word), Ready .running s → AtRest s →
    (511 < route.toNat → Replies (.cancelRoute tag route) s s tag .badArgument 0 0) ∧
    (route.toNat ≤ 511 → entryOf s route.toNat = none → Replies (.cancelRoute tag route) s s tag .routeNotActive 0 0) ∧
    ∀ (e : Nat) (a : Active) (r : RouteRec), route.toNat ≤ 511 → EntryOf e a s → a.route = route.toNat →
      Tbl.find s.ilk.routes a.route = some r →
      (a.state = .running → Replies (.cancelRoute tag route) s s tag .routeRunning 0 0) ∧
      (a.state = .approachLocked ∨ a.state = .cancelling → Replies (.cancelRoute tag route) s s tag .ok a.state.code e) ∧
      (a.state = .set ∨ a.state = .held →
        (a.orders = [] → (∀ n ∈ r.approach, secState s n = .clear) ∨ r.approachTime = 0 →
          ∃ t, exec (.cancelRoute tag route) s = .next t ∧ SlotDone s.exch.takePos tag .ok a.state.code e t ∧
            ReleasedWhole e a.route s t ∧ t.occ = s.occ ∧ t.tags = s.tags ∧ t.tt = s.tt ∧
            MemoryKept (some s.exch.takePos) s t) ∧
        ((∃ n ∈ r.approach, secState s n ≠ .clear) → r.approachTime ≠ 0 →
          let b : Active := { a with state := .approachLocked, timer := some (1000 * r.approachTime) }
          Replies (.cancelRoute tag route) s { s with ilk := { s.ilk with active := Tbl.insert s.ilk.active e b } } tag .ok
            a.state.code e))) ∧
  (∀ (s : State) (tag other : HostTag) (route : Word) (e n : Nat) (a : Active), Ready .running s → s.work = Work.none →
    s.vis.queue = [] → s.ilk.stack = [] → s.pts.overflow = [] → route.toNat ≤ 511 → EntryOf e a s → a.route = route.toNat →
    a.state = .setting → a.slot = some n → n < 32 → n ≠ s.exch.takePos → Tbl.sorted s.exch.inHand = true →
    Tbl.find s.exch.inHand n = some other →
    (∀ o, s.pts.queue = [] ∧ a.orders = [] ∨
        s.pts.queue = [o] ∧ o.origin = .route e ∧ o.phase = .queued ∧ a.orders = [o.point] →
      ∃ t, exec (.cancelRoute tag route) s = .next t ∧ SlotDone s.exch.takePos tag .ok 1 e t ∧
        SlotDone n other .cancelled 0 0 t ∧ ReleasedWhole e a.route s t ∧ t.pts.queue = [] ∧ t.occ = s.occ ∧
        t.tags = s.tags ∧ t.tt = s.tt ∧ MemoryKept (some s.exch.takePos) s t) ∧
    (∀ o, s.pts.queue = [o] → o.origin = .route e → o.phase ≠ .queued → a.orders = [o.point] →
      ∃ t, exec (.cancelRoute tag route) s = .next t ∧ SlotDone s.exch.takePos tag .ok 1 e t ∧
        SlotDone n other .cancelled 0 0 t ∧ t.pts.queue = [o] ∧ t.ilk.locks = s.ilk.locks ∧ t.ilk.holders = s.ilk.holders ∧
        Tbl.find t.ilk.active e = some { a with state := .cancelling, slot := none, ending := .cancelled } ∧
        MemoryKept (some s.exch.takePos) s t)) ∧
  ∀ (s : State) (tag other : HostTag) (route : Word) (n : Nat) (x : StackEntry), Ready .running s → s.work = Work.none →
    s.vis.queue = [] → s.ilk.stack = [x] → x.route = route.toNat → route.toNat ≤ 511 → x.source = .slot n → n < 32 →
    n ≠ s.exch.takePos → Tbl.sorted s.exch.inHand = true → Tbl.find s.exch.inHand n = some other →
    ∃ t, exec (.cancelRoute tag route) s = .next t ∧ SlotDone s.exch.takePos tag .ok 7 0 t ∧
      SlotDone n other .cancelled 0 0 t ∧ MemoryKept (some s.exch.takePos) s t ∧
      inside t = inside ({ s with
        ilk := { s.ilk with stack := [] }
        exch := { s.exch with inHand := Tbl.erase s.exch.inHand n } } : State).served

/-- APPROACH_TIMER_EXPIRY releases an APPROACH_LOCKED route with no order in hand whole (R82). OVERLAP_TIMER_EXPIRY releases the
overlap of a route whose overlap is TIMING: its sections are unlocked together and the overlap is RELEASED; a route with element
sections still to release goes on (R79). In any other state, or with the timer stopped, the command changes nothing (log 3).
Behind them stand the changes of a section, made by a DETECTOR_SAMPLE, that move a route on. Its first element OCCUPIED: a SET,
HELD or APPROACH_LOCKED route is RUNNING with the tag the section took, that element marked (R73), and a SETTING one too, its
slot answered ROUTE_RUNNING (R69). A marked element CLEAR at the release position: it is unlocked, the route leaves the holder
lists of its points, and the release position rises (R75, R76); with the berth and no overlap left the route ends (R77). Another
section of a SET MAIN route OCCUPIED: it is HELD (R70), and SET again when it is proved (R71). An overlap section of a RUNNING
route OCCUPIED after the overlap was RELEASED changes nothing of the route (R79). -/
def Obligations.RouteTimersRelease : Prop :=
  (∀ (s : State) (e : Fin 48) (a : Active), AtRest s → EntryOf e.val a s →
    (a.state = .approachLocked → a.timer ≠ none → a.orders = [] →
      ∃ t, exec (.approachTimerExpiry e) s = .next t ∧ ReleasedWhole e.val a.route s t ∧ t.occ = s.occ ∧ t.tags = s.tags ∧
        t.tt = s.tt ∧ MemoryKept none s t) ∧
    (a.state ≠ .approachLocked ∨ a.timer = none → Makes (.approachTimerExpiry e) s s)) ∧
  (∀ (s : State) (e : Fin 48) (a : Active) (r : RouteRec), AtRest s → EntryOf e.val a s →
    Tbl.find s.ilk.routes a.route = some r →
    (a.overlapState = .timing → a.timer ≠ none → a.releasePos < (elementSections r).length →
      ∃ t, exec (.overlapTimerExpiry e) s = .next t ∧
        Tbl.find t.ilk.active e.val
          = some { a with overlapPos := r.overlap.length, overlapState := .released, timer := none } ∧
        (∀ n, lockOf t n = if n ∈ r.overlap ∧ lockOf s n = some a.route then none else lockOf s n) ∧
        inside t = inside { s with ilk := { s.ilk with active := t.ilk.active, locks := t.ilk.locks } } ∧
        MemoryKept none s t) ∧
    (a.overlapState ≠ .timing ∨ a.timer = none → Makes (.overlapTimerExpiry e) s s)) ∧
  (∀ (s : State) (e : Fin 48), AtRest s → Tbl.find s.ilk.active e.val = none →
    Makes (.approachTimerExpiry e) s s ∧ Makes (.overlapTimerExpiry e) s s) ∧
  (∀ (s : State) (i : Fin 256) (n m e : Nat) (rest : List Nat) (a : Active) (r : RouteRec), Changes i true n s →
    s.asp.response = .report → s.ilk.active = [(e, a)] → Tbl.find s.ilk.routes a.route = some r →
    elementSections r = n :: m :: rest → (sequence r).Nodup → (∀ j ∈ sequence r, secState s j = .clear) →
    tagOf s n = none → a.orders = [] → a.show_ = none → a.releasePos = 0 →
    a.passed = List.replicate (sequence r).length false →
    let b (g : Option Nat) : Active := { a with
      state := .running, slot := none, tag := g, timer := none,
      passed := true :: List.replicate ((sequence r).length - 1) false }
    (a.state = .set ∨ a.state = .held ∨ a.state = .approachLocked → a.slot = none →
      ∃ t, exec (.detectorSample i true) s = .next t ∧ secState t n = .occupied ∧
        Tbl.find t.ilk.active e = some (b (tagOf t n)) ∧ t.ilk.locks = s.ilk.locks ∧ t.ilk.holders = s.ilk.holders) ∧
    (∀ (k : Nat) (other : HostTag), a.state = .setting → Sound s → a.slot = some k → k < 32 →
      Tbl.sorted s.exch.inHand = true → Tbl.find s.exch.inHand k = some other →
      ∃ t, exec (.detectorSample i true) s = .next t ∧ secState t n = .occupied ∧
        Tbl.find t.ilk.active e = some (b (tagOf t n)) ∧ SlotDone k other .routeRunning e 0 t)) ∧
  (∀ (s : State) (i : Fin 256) (n e : Nat) (a : Active) (r : RouteRec), Changes i false n s → EntryOf e a s →
    s.ilk.active = [(e, a)] → Tbl.find s.ilk.routes a.route = some r → (sequence r).Nodup →
    ((routePoints r).map Prod.fst).Nodup → (∀ p, (holdersOf s p).routes.Nodup) → a.state = .running → a.orders = [] →
    a.releasePos = 0 → a.passed[0]? = some true → lockOf s n = some a.route →
    (∀ m rest, elementSections r = n :: m :: rest → secState s m ≠ .clear ∨ a.passed[1]? ≠ some true →
      ∃ t, exec (.detectorSample i false) s = .next t ∧ Tbl.find t.ilk.active e = some { a with releasePos := 1 } ∧
        (∀ j, lockOf t j = if j = n then none else lockOf s j) ∧
        ∀ p, (holdersOf t p).routes = if p ∈ pointsOfSection r.elements n then (holdersOf s p).routes.erase a.route
          else (holdersOf s p).routes) ∧
    (elementSections r = [n] → a.overlapState = .released →
      ∃ t, exec (.detectorSample i false) s = .next t ∧ ReleasedWhole e a.route s t)) ∧
  (∀ (s : State) (i : Fin 256) (n e : Nat) (a : Active) (r : RouteRec), Changes i true n s → s.asp.response = .report →
    s.ilk.active = [(e, a)] → Tbl.find s.ilk.routes a.route = some r → a.state = .running → a.overlapState = .released →
    n ∈ r.overlap → n ∉ elementSections r →
    ∃ t, exec (.detectorSample i true) s = .next t ∧ secState t n = .occupied ∧ t.ilk.active = [(e, a)] ∧
      t.ilk.locks = s.ilk.locks ∧ t.ilk.holders = s.ilk.holders) ∧
  ∀ (s : State) (i : Fin 256) (n e f : Nat) (x : Bool) (a : Active) (r : RouteRec), Changes i x n s →
    s.asp.response = .report → s.ilk.active = [(e, a)] → Tbl.find s.ilk.routes a.route = some r → r.cls = .main →
    n ∈ sequence r → (elementSections r).head? = some f → f ≠ n → a.slot = none → a.show_ = none →
    (x = true → a.state = .set →
      ∃ t, exec (.detectorSample i x) s = .next t ∧ Tbl.find t.ilk.active e = some { a with state := .held } ∧
        t.ilk.locks = s.ilk.locks ∧ t.ilk.holders = s.ilk.holders) ∧
    (x = false → a.state = .held → s.asp.cond = .running → (∀ y ∈ routePoints r, detLie s y.1 = y.2.det) →
      (∀ j ∈ sequence r, j ≠ n → secState s j = .clear) →
      ∃ t, exec (.detectorSample i x) s = .next t ∧ Tbl.find t.ilk.active e = some { a with state := .set } ∧
        t.ilk.locks = s.ilk.locks ∧ t.ilk.holders = s.ilk.holders)

/-! ## Points -/

/-- POINT_CONTACT_SAMPLE (R90): a sample counts only if it equals the one before it, and a counted sample is the level; no other
input changes. A sample that leaves the level changes nothing else inside; in RUNNING a changed level of a PAIR point with no
order gives it the lie of the table of R90. Where a route holds the point, a lie that leaves the one required makes a SET route
HELD (R70, R92), with the loss timer running where the other lie shows (R93); the required lie back makes a HELD route that is
proved SET again (R71). That the holding route lists the point with the required lie is a premise: `HoldersFit`, which every step
keeps (`Obligations.EveryStepKeepsSound`), gives it. -/
def Obligations.ContactSamplesGiveTheLie : Prop :=
  (∀ (s : State) (i : Fin 256) (x : Bool), Tbl.sorted s.pts.contacts = true →
    let c := Tbl.getD s.pts.contacts i.val Contact.init
    ∃ t, exec (.pointContactSample i x) s = .next t ∧
      Tbl.getD t.pts.contacts i.val Contact.init = { prev := x, level := if x = c.prev then x else c.level } ∧
      ∀ j, j ≠ i.val → Tbl.getD t.pts.contacts j Contact.init = Tbl.getD s.pts.contacts j Contact.init) ∧
  (∀ (s : State) (i : Fin 256) (x : Bool), AtRest s →
    let c := Tbl.getD s.pts.contacts i.val Contact.init
    x = c.level ∨ x ≠ c.prev →
    let cs := Tbl.put Contact.init s.pts.contacts i.val { prev := x, level := c.level }
    Makes (.pointContactSample i x) s { s with pts := { s.pts with contacts := cs } }) ∧
  (∀ (s : State) (i : Fin 256) (p a b : Nat) (r : PointRec) (st : PointState), AtRest s → s.exch.runState = .running →
    Tbl.sorted s.pts.contacts = true → pointsOfContact s i.val = [p] → Tbl.find s.pts.recs p = some r →
    r.feedback = .pair a b → a ≠ b → Tbl.find s.pts.state p = some st → st.failed = none → (holdersOf s p).routes = [] →
    let c := Tbl.getD s.pts.contacts i.val Contact.init
    ∀ x, x = c.prev → x ≠ c.level →
      let cs := Tbl.put Contact.init s.pts.contacts i.val { prev := x, level := x }
      Makes (.pointContactSample i x) s { s with pts := { s.pts with
        contacts := cs
        state := Tbl.insert s.pts.state p { st with
          lie := lieOfContacts (Tbl.getD cs a Contact.init).level (Tbl.getD cs b Contact.init).level, loss := none } } }) ∧
  ∀ (s : State) (i : Fin 256) (p a b e : Nat) (q : PointRec) (st : PointState) (l : Lie) (v : Active) (r : RouteRec),
    AtRest s → s.exch.runState = .running → Tbl.sorted s.pts.contacts = true → pointsOfContact s i.val = [p] →
    Tbl.find s.pts.recs p = some q → q.feedback = .pair a b → a ≠ b → Tbl.find s.pts.state p = some st → st.failed = none →
    st.loss = none → s.ilk.active = [(e, v)] → Tbl.find s.ilk.routes v.route = some r →
    holdersOf s p = { routes := [v.route], shared := some l } → (p, l) ∈ routePoints r →
    let c := Tbl.getD s.pts.contacts i.val Contact.init
    ∀ x, x = c.prev → x ≠ c.level →
      let cs := Tbl.put Contact.init s.pts.contacts i.val { prev := x, level := x }
      let new := lieOfContacts (Tbl.getD cs a Contact.init).level (Tbl.getD cs b Contact.init).level
      let u (state : RouteState) : State := { s with
        ilk := { s.ilk with active := [(e, { v with state := state })] }
        pts := { s.pts with
          contacts := cs
          state := Tbl.insert s.pts.state p { st with
            lie := new, loss := if new ≠ l.det ∧ new ≠ .lost then some s.pts.window else none } } }
      (v.state = .set → st.lie = l.det → new ≠ l.det → Makes (.pointContactSample i x) s (u .held)) ∧
      (v.state = .held → st.lie ≠ l.det → new = l.det → s.asp.cond = .running → v.slot = none → v.show_ = none →
        (∀ y ∈ routePoints r, y = (p, l) ∨ y.1 ≠ p ∧ detLie s y.1 = y.2.det) → elementSections r ≠ [] →
        (∀ n ∈ sequence r, secState s n = .clear) → Makes (.pointContactSample i x) s (u .set))

/-- MOVE_POINT (R101): its refusals in their order, with the point's argument as the first word; a point that has an order,
queued, in flight or on the overflow list, is answered POINT_BUSY with the order's origin, its code in byte 0 and its number in
byte 1 (log 24 for both words); a point already detected in the lie is answered OK; else its order is given, and waits QUEUED
while the discharge unit is not READY (R95), or starts at once: a solenoid's pulse (R97), with the unit PULSING and the point
MOVING, or a slow motor's drive (R99). -/
def Obligations.MovePointOrdersTheMove : Prop :=
  (∀ (s : State) (tag : HostTag) (point lie : Word) (r : PointRec) (st : PointState) (l : Lie) (x : Order),
    Ready .running s → s.work = Work.none → s.vis.queue = [] → point.toNat < 128 → Tbl.find s.pts.recs point.toNat = some r →
    Tbl.find s.pts.state point.toNat = some st → lie.toNat = l.code → st.lie ≠ .failed →
    (holdersOf s point.toNat).routes = [] → x ∈ s.pts.queue ++ s.pts.overflow → x.point = point.toNat →
    (∀ y ∈ s.pts.queue ++ s.pts.overflow, y.point = point.toNat → y = x) →
    (∀ e, x.origin = .route e → e < 48 → Replies (.movePoint tag point lie) s s tag .pointBusy point.toNat (1 + 256 * e)) ∧
    (∀ n, x.origin = .slot n → n < 32 → Replies (.movePoint tag point lie) s s tag .pointBusy point.toNat (2 + 256 * n))) ∧
  ∀ (s : State) (tag : HostTag) (point lie : Word), Ready .running s → AtRest s →
    (128 ≤ point.toNat ∨ Tbl.find s.pts.recs point.toNat = none ∨ (lie.toNat ≠ 1 ∧ lie.toNat ≠ 2) →
      Replies (.movePoint tag point lie) s s tag .badArgument point.toNat 0) ∧
    ∀ (r : PointRec) (st : PointState) (l : Lie), point.toNat < 128 → Tbl.find s.pts.recs point.toNat = some r →
      Tbl.find s.pts.state point.toNat = some st → lie.toNat = l.code →
      (st.lie = .failed → Replies (.movePoint tag point lie) s s tag .pointFailed point.toNat 0) ∧
      (st.lie ≠ .failed →
        (∀ h more, (holdersOf s point.toNat).routes = h :: more →
          Replies (.movePoint tag point lie) s s tag .pointLocked point.toNat h) ∧
        ((holdersOf s point.toNat).routes = [] →
          (secState s r.sec ≠ .clear →
            Replies (.movePoint tag point lie) s s tag .pointOccupied point.toNat (secState s r.sec).code) ∧
          (secState s r.sec = .clear →
            (st.lie = l.det → Replies (.movePoint tag point lie) s s tag .ok point.toNat 0) ∧
            (st.lie ≠ l.det →
              (r.motor = .solenoid → s.pts.unit ≠ .ready →
                ∃ x, (∀ k, (Tbl.find x k).map PointState.lie = (Tbl.find s.pts.state k).map PointState.lie) ∧
                  Pends (.movePoint tag point lie) s { s with pts := { s.pts with
                    queue := [queuedOrder point.toNat l (.slot s.exch.takePos)], state := x } } tag) ∧
              (r.motor = .solenoid → s.pts.unit = .ready → s.asp.cond = .running → st.failed = none →
                ∃ t, exec (.movePoint tag point lie) s = .next t ∧ detLie t point.toNat = .moving ∧
                  t.pts.queue = [{ queuedOrder point.toNat l (.slot s.exch.takePos) with
                    phase := .pulse, startTime := some s.clock }] ∧
                  t.pts.coil = some (point.toNat, l) ∧ t.pts.pulseTimer = some s.pts.pulseTime ∧ t.pts.unit = .pulsing ∧
                  t.read8 0x1E = 2 ∧ Tbl.find t.exch.inHand s.exch.takePos = some tag) ∧
              (r.motor = .slow → 0 < s.pts.slowLimit → s.asp.cond = .running →
                ∃ t, exec (.movePoint tag point lie) s = .next t ∧
                  t.pts.queue = [{ queuedOrder point.toNat l (.slot s.exch.takePos) with
                    phase := .travel, startTime := some s.clock, timer := some r.travel }] ∧
                  Tbl.find t.pts.drives point.toNat = some l ∧ t.pts.unit = s.pts.unit ∧
                  Tbl.find t.exch.inHand s.exch.takePos = some tag)))))

/-- RESTORE_POINT (R102): a point that is not loaded is answered BAD_ARGUMENT, one that is not FAILED is answered OK; a FAILED
PAIR point, held by no route, is no longer FAILED and takes the lie of the table of R90, which is its answer. -/
def Obligations.RestorePointLeavesFailed : Prop :=
  ∀ (s : State) (tag : HostTag) (point : Word), Ready .running s → AtRest s →
    (128 ≤ point.toNat ∨ Tbl.find s.pts.state point.toNat = none →
      Replies (.restorePoint tag point) s s tag .badArgument 0 0) ∧
    ∀ st, point.toNat < 128 → Tbl.find s.pts.state point.toNat = some st →
      (st.failed = none → Replies (.restorePoint tag point) s s tag .ok 0 0) ∧
      ∀ r a b, st.failed ≠ none → Tbl.find s.pts.recs point.toNat = some r → r.feedback = .pair a b →
        (holdersOf s point.toNat).routes = [] →
        let lie := lieOfContacts (contactLevel s a) (contactLevel s b)
        Replies (.restorePoint tag point) s { s with pts := { s.pts with
          state := Tbl.insert s.pts.state point.toNat { st with failed := none, lie := lie, loss := none } } } tag .ok
          lie.code 0

/-- LOSS_TIMER_EXPIRY and RECHARGE_TIMER_EXPIRY: a point whose loss timer runs becomes FAILED (R93), and nothing else changes
inside while no route that holds it is SETTING. A SETTING route that holds it, with no order left in its order list, fails: its
slot is answered POINT_FAILED with the point, and it is released whole (R68). The discharge unit whose recharge timer runs
becomes READY (R96), in the header too. A stopped timer changes nothing (log 3). -/
def Obligations.LossFailsAndRechargeReadies : Prop :=
  (∀ (s : State) (p : Fin 128), AtRest s →
    (∀ st k, Tbl.find s.pts.state p.val = some st → st.loss = some k → Tbl.sorted s.ilk.active = true →
      (∀ x ∈ s.ilk.active, x.2.route ∈ (holdersOf s p.val).routes → x.2.state ≠ .setting) →
      Makes (.lossTimerExpiry p) s { s with pts := { s.pts with
        state := Tbl.insert s.pts.state p.val { st with failed := some .wrongLie, lie := .failed, loss := none } } }) ∧
    (∀ st k e a n tag, Tbl.find s.pts.state p.val = some st → st.loss = some k → Sound s → EntryOf e a s →
      a.state = .setting → a.orders = [] → a.route ∈ (holdersOf s p.val).routes →
      (∀ x ∈ s.ilk.active, x.1 ≠ e → x.2.state ≠ .setting) → a.slot = some n → n < 32 →
      Tbl.sorted s.exch.inHand = true → Tbl.find s.exch.inHand n = some tag →
      ∃ t, exec (.lossTimerExpiry p) s = .next t ∧ SlotDone n tag .pointFailed p.val 0 t ∧ ReleasedWhole e a.route s t ∧
        detLie t p.val = .failed ∧ t.occ = s.occ ∧ t.tags = s.tags ∧ t.tt = s.tt ∧ MemoryKept none s t) ∧
    ((∀ st, Tbl.find s.pts.state p.val = some st → st.loss = none) → Makes (.lossTimerExpiry p) s s)) ∧
  ∀ s : State, AtRest s →
    (∀ k, s.pts.rechargeTimer = some k →
      Makes .rechargeTimerExpiry s { s with pts := { s.pts with unit := .ready, rechargeTimer := none } } ∧
      (Sound s → ∃ t, exec .rechargeTimerExpiry s = .next t ∧ t.read8 0x1E = 1)) ∧
    (s.pts.rechargeTimer = none → Makes .rechargeTimerExpiry s s)

/-- PULSE_TIMER_EXPIRY (R96, R97): the discharge unit recharges; a point that shows the lie of its order, or has no feedback,
has arrived: its order ends, its lie is the order's and the slot is answered OK with the point and the milliseconds since the
start (R101); any other point waits in its WINDOW. A stopped timer changes nothing (log 3). -/
def Obligations.PulseEndsInArrivalOrWindow : Prop :=
  (∀ (s : State) (o : Order) (n t0 : Nat) (tag : HostTag) (r : PointRec) (st : PointState), OneOrder o n tag r st s →
    o.phase = .pulse → s.pts.coil = some (o.point, o.lie) → s.pts.pulseTimer ≠ none → o.startTime = some t0 →
    ∃ t, exec .pulseTimerExpiry s = .next t ∧ t.pts.unit = .recharging ∧ t.pts.coil = none ∧ t.pts.pulseTimer = none ∧
      t.pts.rechargeTimer = some s.pts.rechargeTime ∧ t.occ = s.occ ∧ t.tags = s.tags ∧ t.ilk = s.ilk ∧ t.tt = s.tt ∧
      MemoryKept none s t ∧
      (r.feedback = .none ∨ contactsShow s r o.lie = true →
        SlotDone n tag .ok o.point ((s.clock + 4294967296 - t0) % 4294967296) t ∧ t.pts.queue = [] ∧
          detLie t o.point = o.lie.det) ∧
      (r.feedback ≠ .none → contactsShow s r o.lie = false →
        t.pts.queue = [{ o with phase := .window, timer := some s.pts.window }] ∧ Tbl.find t.exch.inHand n = some tag)) ∧
  ∀ s : State, AtRest s → s.pts.pulseTimer = none → Makes .pulseTimerExpiry s s

/-- WINDOW_TIMER_EXPIRY and TRAVEL_TIMER_EXPIRY (R98, R99, R100): a first miss waits for a RETRY, whatever the discharge unit's
state, READY included (the model's choice, log 18: a later pass starts it); a second one fails the point with NO_ARRIVAL; a slow
point with contacts fails with TRAVEL_TIMEOUT, one without feedback has arrived. A failed point's order ends and its slot is
answered POINT_FAILED with the point and the cause. An expiry in another phase, or with no order, changes nothing (log 3). -/
def Obligations.MissedMovesRetryOrFail : Prop :=
  (∀ (s : State) (p : Fin 128) (o : Order) (n t0 : Nat) (tag : HostTag) (r : PointRec) (st : PointState),
    OneOrder o n tag r st s → o.point = p.val → o.startTime = some t0 →
    (o.phase = .window → o.retried = false →
      ∃ x, Makes (.windowTimerExpiry p) s { s with pts := { s.pts with
        queue := [{ o with phase := .retry, timer := none }], state := x } }) ∧
    (o.phase = .window → o.retried = true →
      ∃ t, exec (.windowTimerExpiry p) s = .next t ∧ SlotDone n tag .pointFailed p.val 1 t ∧ t.pts.queue = [] ∧
        detLie t p.val = .failed ∧ MemoryKept none s t ∧ t.pts.unit = s.pts.unit ∧ t.ilk = s.ilk ∧ t.occ = s.occ) ∧
    (o.phase = .travel → r.feedback ≠ .none →
      ∃ t, exec (.travelTimerExpiry p) s = .next t ∧ SlotDone n tag .pointFailed p.val 2 t ∧ t.pts.queue = [] ∧
        detLie t p.val = .failed ∧ t.pts.drives = Tbl.erase s.pts.drives p.val ∧
        MemoryKept none s t ∧ t.ilk = s.ilk ∧ t.occ = s.occ) ∧
    (o.phase = .travel → r.feedback = .none →
      ∃ t, exec (.travelTimerExpiry p) s = .next t ∧
        SlotDone n tag .ok p.val ((s.clock + 4294967296 - t0) % 4294967296) t ∧ t.pts.queue = [] ∧
        detLie t p.val = o.lie.det ∧ MemoryKept none s t ∧ t.ilk = s.ilk ∧ t.occ = s.occ) ∧
    (o.phase ≠ .window → Makes (.windowTimerExpiry p) s s) ∧ (o.phase ≠ .travel → Makes (.travelTimerExpiry p) s s)) ∧
  ∀ (s : State) (p : Fin 128), AtRest s → Makes (.windowTimerExpiry p) s s ∧ Makes (.travelTimerExpiry p) s s

/-! ## The layout stop and the aspects -/

/-- STOP_PIN_SAMPLE (R114): the pin's filter alone changes while its reported level stays, and outside RUNNING; a pin that is
reported ACTIVE in RUNNING is an entry into ALL STOP with cause PIN: track power off, the feed off (R115, R118). The level
stands in the header. -/
def Obligations.StopPinStopsTheLayout : Prop :=
  ∀ (s : State) (x : Bool), Quiet s → Sound s →
    let f := s.asp.stopFilter
    let g := f.sample 20 x
    (g.level = f.level → Makes (.stopPinSample x) s { s with asp := { s.asp with stopFilter := g } }) ∧
    (g.level ≠ f.level → s.exch.runState ≠ .running ∨ g.level = false →
      Makes (.stopPinSample x) s { s with asp := { s.asp with stopFilter := g } } ∧
        ∃ t, exec (.stopPinSample x) s = .next t ∧ t.read8 0x1C = if g.level then 1 else 0) ∧
    (g.level = true → f.level = false → s.exch.runState = .running → s.asp.cond = .running → s.tt.state.givesUp = false →
      Makes (.stopPinSample x) s { s with
        asp := { s.asp with stopFilter := g, cond := .allStop, cause := some .pin, power := false }
        tt := { s.tt with feed := false } })

/-- ALL_STOP and RESUME (R115 to R118): ALL_STOP answers with the condition it found, and takes track power and the feed away
with cause REQUEST; RESUME is refused while the STOP pin is reported ACTIVE, answers with the condition it found, and gives
power back, and the feed to a deck that is ALIGNED. An ALL_STOP that is an entry shows every loaded signal at DANGER, a DISTANT
at CAUTION (R109, R110), and raises the STOP cause (R197). At that entry a SET route becomes HELD and a HELD one stays; at
RESUME a HELD route is SET again where its points show their required lies and its sections are CLEAR, and stays HELD where a
point does not or a section is DISABLED (R72). A deck in a stepping state or UNBOLTING gives its work up: its requester's slot
is answered ALL_STOP, and the target and the jog hold timer are gone (R138). -/
def Obligations.AllStopAndResume : Prop :=
  (∀ (s : State) (tag : HostTag), Ready .running s → Quiet s → s.tt.state.givesUp = false →
    (s.asp.cond = .allStop → Replies (.allStop tag) s s tag .ok 1 0) ∧
    (s.asp.cond = .running → Replies (.allStop tag) s { s with
      asp := { s.asp with cond := .allStop, cause := some .request, power := false }
      tt := { s.tt with feed := false } } tag .ok 0 0) ∧
    (s.asp.stopFilter.level = true → Replies (.resume tag) s s tag .stopPinActive 0 0) ∧
    (s.asp.stopFilter.level = false → s.asp.cond = .running → Replies (.resume tag) s s tag .ok 0 0) ∧
    (s.asp.stopFilter.level = false → s.asp.cond = .allStop → Replies (.resume tag) s { s with
      asp := { s.asp with cond := .running, cause := none, power := true }
      tt := { s.tt with feed := s.tt.state == .aligned } } tag .ok 1 0) ∧
    (s.asp.cond = .running →
      ∃ t, exec (.allStop tag) s = .next t ∧ t.exch.stop = true ∧
        ∀ x r st, Tbl.find s.asp.recs x = some r → Tbl.find s.asp.state x = some st →
          ∃ u, Tbl.find t.asp.state x = some u ∧ u.overruns = st.overruns ∧
            u.aspect = if r.kind = .distant then .caution else .danger)) ∧
  (∀ (s : State) (tag : HostTag) (e : Nat) (a : Active), Ready .running s → AtRest s → s.vis.runner = none →
    s.ilk.active = [(e, a)] → s.tt.state.givesUp = false →
    let stopped (st : RouteState) : State := { s with
      ilk := { s.ilk with active := [(e, { a with state := st })] }
      asp := { s.asp with cond := .allStop, cause := some .request, power := false }
      tt := { s.tt with feed := false } }
    let resumed (st : RouteState) : State := { s with
      ilk := { s.ilk with active := [(e, { a with state := st })] }
      asp := { s.asp with cond := .running, cause := none, power := true }
      tt := { s.tt with feed := s.tt.state == .aligned } }
    (s.asp.cond = .running → a.state = .set → Replies (.allStop tag) s (stopped .held) tag .ok 0 0) ∧
    (s.asp.cond = .running → a.state = .held → Replies (.allStop tag) s (stopped .held) tag .ok 0 0) ∧
    ∀ r, s.asp.stopFilter.level = false → s.asp.cond = .allStop → a.state = .held → Tbl.find s.ilk.routes a.route = some r →
      ((∀ x ∈ routePoints r, detLie s x.1 = x.2.det) → (∀ n ∈ sequence r, secState s n = .clear) → a.slot = none →
        a.show_ = none → Replies (.resume tag) s (resumed .set) tag .ok 1 0) ∧
      ((∃ x ∈ routePoints r, detLie s x.1 ≠ x.2.det) ∨ (∃ n ∈ sequence r, secState s n = .disabled) →
        Replies (.resume tag) s (resumed .held) tag .ok 1 0)) ∧
  ∀ (s : State) (tag : HostTag), Ready .running s → AtRest s → s.vis.runner = none → s.ilk.active = [] →
    s.asp.cond = .running → s.tt.state ∈ [.moving, .returning, .stopping, .jogging, .homing, .unbolting] →
    let u : State := { s with
      asp := { s.asp with cond := .allStop, cause := some .request, power := false }
      tt := s.tt.halted }
    ((∀ n, s.tt.requester ≠ .slot n) → Replies (.allStop tag) s u tag .ok 0 0) ∧
    ∀ (n : Nat) (other : HostTag), s.tt.requester = .slot n → n < 32 → n ≠ s.exch.takePos → Tbl.sorted s.exch.inHand = true →
      Tbl.find s.exch.inHand n = some other →
      ∃ t, exec (.allStop tag) s = .next t ∧ SlotDone s.exch.takePos tag .ok 0 0 t ∧ SlotDone n other .allStop 0 0 t ∧
        MemoryKept (some s.exch.takePos) s t ∧ inside t = inside ({ u with
          exch := { u.exch with inHand := Tbl.erase u.exch.inHand n } } : State).served

/-- The aspect table of R109 and R110: DANGER with no SET route beginning at the signal, and in ALL STOP; SHUNT_OFF and CALL_ON
by the route's class; for a MAIN route PROCEED at a two-aspect signal, and at a three-aspect signal PROCEED where a MAIN route
that begins at the exit signal is SET and CAUTION otherwise; a DISTANT shows PROCEED while its home shows PROCEED, and CAUTION
otherwise. Every step that answers a next state keeps the invariant of what is shown (only the mirrors are not to be written by
the host): in RUNNING each loaded signal shows its aspect (R111), each lamp and each button lamp its mode and its level (R170,
R176, R179), and each mirror word in exchange memory is its item's, packed (with nothing to show: the step index, log 53, the
requester's number, log 58, the order lie, log 59; R19, R20, R26, R60, R86, R104, R119, R140, R172, R177). -/
def Obligations.AspectsFollowTheSetRoute : Prop :=
  (∀ (s : State) (x : Nat) (k : SignalKind),
    (s.asp.cond = .allStop → mainAspect s x k = .danger) ∧
    (entryAt s x = none → mainAspect s x k = .danger) ∧
    ∀ (e : Nat) (a : Active) (r : RouteRec), s.asp.cond = .running → entryAt s x = some (e, a) →
      Tbl.find s.ilk.routes a.route = some r →
      (a.state ≠ .set → mainAspect s x k = .danger) ∧
      (a.state = .set → r.cls = .shunt → mainAspect s x k = .shuntOff) ∧
      (a.state = .set → r.cls = .callOn → mainAspect s x k = .callOn) ∧
      (a.state = .set → r.cls = .main → k = .twoAspect → mainAspect s x k = .proceed) ∧
      (a.state = .set → r.cls = .main → k = .threeAspect →
        (r.exit = none → mainAspect s x k = .caution) ∧
        ∀ y, r.exit = some y →
          (entryAt s y = none → mainAspect s x k = .caution) ∧
          ∀ e2 b q, entryAt s y = some (e2, b) → Tbl.find s.ilk.routes b.route = some q →
            mainAspect s x k = if b.state = .set ∧ q.cls = .main then .proceed else .caution)) ∧
  (∀ (s : State) (x : Nat) (r : SignalRec),
    (r.kind ≠ .distant → aspectOf s x r = mainAspect s x r.kind) ∧
    ∀ h q, r.kind = .distant → r.home = some h → Tbl.find s.asp.recs h = some q → q.kind ≠ .distant →
      aspectOf s x r = if mainAspect s h q.kind = .proceed then .proceed else .caution) ∧
  ∀ s t : State, Sound s → Settled s → step s = .next t →
    (∀ hw v rest, s.pending = .hostMemoryAccess (.write hw v) :: rest → 2 * hw.val < 0x0100 ∨ 0x0D60 ≤ 2 * hw.val) →
    Settled t

/-! ## The turntable -/

/-- STEP_OUTPUT_ACTIVE, JOG_HOLD_REMAINING_CHANGE, WHOLE_SECOND_REMAINING_CHANGE and JOG_HOLD_TIMER_EXPIRY. The first underflow
of a step makes the step output active (R149); with no step in progress, or with the output of the step active already,
STEP_OUTPUT_ACTIVE changes nothing (log 5). The next two pass time of their own, which is the model's choice (log 39): the jog
hold timer has one millisecond less, and a timer of the show runner comes to its next whole second; with the timer stopped they
change nothing. The expiry of the jog hold timer stops a jog in JOGGING (R136); that of a stopped timer changes nothing (log 3).
-/
def Obligations.DeckAndRunnerTimersPass : Prop :=
  (∀ s : State,
    (∀ g, s.tt.gen = some g → g.second = false → Makes .stepOutputActive s { s with tt := { s.tt with
      stepOut := true, gen := some { g with second := true, counter := g.reload } } }) ∧
    (∀ g, s.tt.gen = some g → g.second = true → exec .stepOutputActive s = .next s) ∧
    (s.tt.gen = none → exec .stepOutputActive s = .next s)) ∧
  (∀ s : State,
    (∀ n, s.tt.jogHold = some n → Makes .jogHoldRemainingChange s { s with tt := { s.tt with jogHold := some (n - 1) } }) ∧
    (s.tt.jogHold = none → exec .jogHoldRemainingChange s = .next s)) ∧
  (∀ (s : State) (k : ShowTimer),
    (∀ r, s.vis.runner = some r →
      let next : Option Nat → Option Nat := Option.map fun ms => 1000 * ((ms + 999) / 1000 - 1)
      let q : Runner := match k with
        | .step => { r with stepTimer := next r.stepTimer }
        | .duration => { r with durTimer := next r.durTimer }
      Makes (.wholeSecondRemainingChange k) s { s with vis := { s.vis with runner := some q } }) ∧
    (s.vis.runner = none → exec (.wholeSecondRemainingChange k) s = .next s)) ∧
  ∀ s : State, AtRest s →
    (s.tt.jogHold = none → Makes .jogHoldTimerExpiry s s) ∧
    ∀ (n : Nat) (d : DeckRec) (g : Generator), s.tt.jogHold = some n → s.tt.deck = some d → s.tt.state = .jogging →
      s.tt.requester = .jog → s.tt.halting = false → s.tt.gen = some g → d.stop = none →
      Makes .jogHoldTimerExpiry s { s with tt := { s.tt with
        state := .stopping, legSteps := 1 + (g.rate - d.v0 + d.ramp - 1) / d.ramp, returnSteps := 0, jogHold := none,
        feed := false } }

/-- STEP_BOUNDARY inside a leg, a stop, a jog or a search (R127, R131, R136, R142, R147, R151): the step output ends, the
position moves one step in the direction of the leg, modulo C, the index reading is kept, and the next step begins at its rate.
A boundary is taken whether or not the output was active in the step, and with no step in progress it changes nothing (log 5). A
deck that is halting for ALL STOP (R138) ends its stepping at this boundary: HALTED, or from HOMING UNREFERENCED with its
position unknown and the bolt output de-energized. -/
def Obligations.StepBoundaryMovesTheDeck : Prop :=
  ∀ (s : State) (index : Bool), AtRest s →
    (s.tt.gen = none → Makes (.stepBoundary index) s s) ∧
    (∀ (d : DeckRec) (g : Generator), s.tt.deck = some d → s.tt.gen = some g → s.tt.halting = true →
      (s.tt.state ∈ [.moving, .returning, .stopping, .jogging] →
        Makes (.stepBoundary index) s { s with tt := { s.tt.quiet with
          lastIndex := index, pos := s.tt.pos.map fun p => if s.tt.legCw then (p + 1) % d.c else (p + d.c - 1) % d.c,
          state := .halted, feed := false, target := none, requester := .none } }) ∧
      (s.tt.state = .homing → Makes (.stepBoundary index) s { s with tt := { s.tt.quiet with
          lastIndex := index, pos := none, state := .unreferenced, feed := false, target := none, requester := .none,
          boltOut := false } })) ∧
    ∀ (d : DeckRec) (g : Generator), s.tt.deck = some d → s.tt.gen = some g → s.tt.halting = false →
      let next := s.tt.pos.map fun p => if s.tt.legCw then (p + 1) % d.c else (p + d.c - 1) % d.c
      (s.tt.state = .moving ∨ s.tt.state = .returning → 2 ≤ s.tt.legSteps →
        Makes (.stepBoundary index) s { s with tt := { s.tt with
          lastIndex := index, stepOut := false, pos := next, legSteps := s.tt.legSteps - 1, legDone := s.tt.legDone + 1,
          gen := some (beginStep (min d.vmax (min (d.v0 + (s.tt.legDone + 1) * d.ramp)
            (d.v0 + (s.tt.legSteps - 2) * d.ramp)))) } }) ∧
      (s.tt.state = .stopping → 2 ≤ s.tt.legSteps →
        Makes (.stepBoundary index) s { s with tt := { s.tt with
          lastIndex := index, stepOut := false, pos := next, legSteps := s.tt.legSteps - 1,
          gen := some (beginStep (max d.v0 (g.rate - d.ramp))) } }) ∧
      (s.tt.state = .jogging → d.stop = none →
        Makes (.stepBoundary index) s { s with tt := { s.tt with
          lastIndex := index, stepOut := false, pos := next, legDone := s.tt.legDone + 1,
          gen := some (beginStep (min d.jog (d.v0 + (s.tt.legDone + 1) * d.ramp))) } }) ∧
      (s.tt.state = .homing → s.tt.pos = none → (if d.rising then index = false ∨ s.tt.lastIndex = true
          else index = true ∨ s.tt.lastIndex = false) →
        s.tt.search + 1 < (if d.stop = none then d.c + d.c / 4 else d.c) →
        Makes (.stepBoundary index) s { s with tt := { s.tt with
          lastIndex := index, stepOut := false, search := s.tt.search + 1, gen := some (beginStep d.v0) } })

/-- LEG_END and STOP_COMPLETE (R127, R133): the last step of an only leg is followed by SETTLING with the settle timer running,
the last step of an anticlockwise leg with an overshoot by RETURNING clockwise; the last step of a stop that no jog began ends
HALTED with neither target nor requester. The stop of a jog ends in the snap (R137, R152, R153): where every road's targets are
farther than the snap window, the shorter way round, HALTED; else the nearest target is taken, by the lower road and end A first
where two are as near, and the deck goes to SETTLING if it stands there, and on the legs of the move if not. Away from such a
step the commands change nothing (log 5). -/
def Obligations.LegsAndStopsEnd : Prop :=
  ∀ (s : State) (index : Bool), AtRest s →
    (¬ ((s.tt.state = .moving ∨ s.tt.state = .returning) ∧ s.tt.legSteps = 1 ∧ s.tt.halting = false) →
      Makes (.legEnd index) s s) ∧
    (¬ (s.tt.state = .stopping ∧ s.tt.legSteps = 1 ∧ s.tt.halting = false) → Makes (.stopComplete index) s s) ∧
    ∀ (d : DeckRec) (g : Generator), s.tt.deck = some d → s.tt.gen = some g → s.tt.halting = false → s.tt.legSteps = 1 →
      let next := s.tt.pos.map fun p => if s.tt.legCw then (p + 1) % d.c else (p + d.c - 1) % d.c
      (s.tt.state = .returning ∨ s.tt.state = .moving ∧ s.tt.returnSteps = 0 → d.settleTime ≠ 0 →
        Makes (.legEnd index) s { s with tt := { s.tt.quiet with
          lastIndex := index, pos := next, state := .settling, feed := false, settleTimer := some d.settleTime } }) ∧
      (s.tt.state = .moving → s.tt.returnSteps ≠ 0 →
        Makes (.legEnd index) s { s with tt := { s.tt with
          lastIndex := index, pos := next, state := .returning, feed := false, legCw := true, dirAcw := false,
          legSteps := s.tt.returnSteps, legDone := 0, returnSteps := 0, stepOut := false,
          gen := some (beginStep (min d.vmax (min d.v0 (d.v0 + (s.tt.returnSteps - 1) * d.ramp)))) } }) ∧
      (s.tt.state = .stopping → s.tt.requester ≠ .jog →
        Makes (.stopComplete index) s { s with tt := { s.tt.quiet with
          lastIndex := index, pos := next, state := .halted, feed := false, target := none, requester := .none } }) ∧
      ∀ m, s.tt.state = .stopping → s.tt.requester = .jog → next = some m →
        let target (q : Road) : DeckEnd → Nat
          | .a => q.position % d.c
          | .b => (q.position + d.c / 2) % d.c
        let far (y : Nat) := min ((y + d.c - m) % d.c) (d.c - (y + d.c - m) % d.c)
        ((∀ x ∈ s.tt.roads, ∀ e, d.snap < far (target x.2 e)) →
          Makes (.stopComplete index) s { s with tt := { s.tt.quiet with
            lastIndex := index, pos := next, state := .halted, feed := false, target := none, requester := .none } }) ∧
        ∀ n q e, Tbl.sorted s.tt.roads = true → (n, q) ∈ s.tt.roads → far (target q e) ≤ d.snap →
          (∀ x ∈ s.tt.roads, ∀ f, far (target q e) < far (target x.2 f) ∨ far (target q e) = far (target x.2 f) ∧
            (n < x.1 ∨ n = x.1 ∧ (e = .a ∨ f = .b))) →
          (target q e = m → d.settleTime ≠ 0 →
            Makes (.stopComplete index) s { s with tt := { s.tt.quiet with
              lastIndex := index, pos := next, state := .settling, feed := false, settleTimer := some d.settleTime,
              target := some { road := n, deckEnd := e } } }) ∧
          (target q e ≠ m →
            let l := legs d m (target q e)
            Makes (.stopComplete index) s { s with tt := { s.tt.quiet with
              lastIndex := index, pos := next, state := .moving, feed := false, target := some { road := n, deckEnd := e },
              legCw := l.1, dirAcw := !l.1, legSteps := l.2.1, returnSteps := l.2.2,
              gen := some (beginStep (min d.vmax d.v0)) } })

/-- HOMING_SEARCH_LIMIT (R131, R134): the boundary that brings the search count to its limit without an index edge faults the
deck with INDEX_NOT_FOUND, and the requesting slot is answered TABLE_FAULT with that cause; with the edge the deck is referenced
at the index offset. The limit of a CONTINUOUS deck is C + C/4, rounded down (the model's choice, log 38). Away from the limit
the command changes nothing (log 5). -/
def Obligations.HomingEndsAtItsLimit : Prop :=
  ∀ (s : State) (index : Bool), AtRest s →
    (∀ d, s.tt.deck = some d → ¬ (s.tt.state = .homing ∧ s.tt.search + 1 = (if d.stop = none then d.c + d.c / 4 else d.c)
        ∧ s.tt.halting = false) → Makes (.homingSearchLimit index) s s) ∧
    (s.tt.deck = none → Makes (.homingSearchLimit index) s s) ∧
    ∀ (d : DeckRec) (g : Generator) (n : Nat) (tag : HostTag), Sound s → s.tt.deck = some d → s.tt.gen = some g →
      s.tt.halting = false → s.tt.state = .homing → s.tt.search + 1 = (if d.stop = none then d.c + d.c / 4 else d.c) →
      s.tt.requester = .slot n → n < 32 → Tbl.sorted s.exch.inHand = true → Tbl.find s.exch.inHand n = some tag →
      (index = s.tt.lastIndex →
        ∃ t, exec (.homingSearchLimit index) s = .next t ∧ SlotDone n tag .tableFault 0 1 t ∧ t.tt.state = .fault ∧
          t.tt.fault = some .indexNotFound ∧ t.tt.requester = .none ∧ t.tt.target = none ∧ t.tt.boltOut = false ∧
          t.tt.gen = none ∧ t.exch.stop = true ∧ MemoryKept none s t) ∧
      (index = d.rising → s.tt.lastIndex = !d.rising → s.tt.target ≠ none → d.settleTime ≠ 0 →
        ∃ t, exec (.homingSearchLimit index) s = .next t ∧ t.tt.pos = some d.indexOffset ∧ t.tt.requester = .slot n ∧
          (t.tt.state = .settling ∨ t.tt.state = .moving))

/-- BOLT_CONTACT_SAMPLE, BOLT_TIMER_EXPIRY and SETTLE_TIMER_EXPIRY (R125, R126, R127): noise rejection; a deck that is SETTLING
comes to BOLTING with its bolt timer; the bolt that engages in BOLTING aligns the deck with its target and its polarity, and
answers the requester OK with the position and the road and end; the bolt that has not moved in its time faults the deck. The
bolt withdrawn ends UNBOLTING: a deck whose position is known begins its move (R129), one whose position is unknown its homing
(R131; the index reading is free, log 6), and one that a visitor jogs its jog (R135, R136); one that is halting for ALL STOP is
HALTED, or UNREFERENCED with the bolt output de-energized where its position is unknown (R138). -/
def Obligations.BoltEngagesOrFaults : Prop :=
  (∀ (s : State) (x : Bool), AtRest s → x = s.tt.boltIn.level ∨ x ≠ s.tt.boltIn.prev →
    Makes (.boltContactSample .boltIn x) s { s with tt := { s.tt with
      boltIn := { prev := x, level := s.tt.boltIn.level } } }) ∧
  (∀ (s : State) (x : Bool), AtRest s → x = s.tt.boltOutC.level ∨ x ≠ s.tt.boltOutC.prev →
    Makes (.boltContactSample .boltOut x) s { s with tt := { s.tt with
      boltOutC := { prev := x, level := s.tt.boltOutC.level } } }) ∧
  (∀ (s : State) (d : DeckRec) (n p : Nat) (tag : HostTag) (x : RoadEnd), AtRest s → Sound s → s.exch.runState = .running →
    s.asp.cond = .running → s.tt.deck = some d → d.bolt = true → s.tt.state = .bolting → s.tt.boltIn.prev = true →
    s.tt.boltIn.level = false → s.tt.boltOutC.level = false → s.tt.target = some x → s.tt.pos = some p →
    s.tt.requester = .slot n → n < 32 → Tbl.sorted s.exch.inHand = true → Tbl.find s.exch.inHand n = some tag →
    ∃ t, exec (.boltContactSample .boltIn true) s = .next t ∧ SlotDone n tag .ok p (roadEndByte (some x)) t ∧
      t.tt.state = .aligned ∧ t.tt.align = some x ∧ t.tt.target = none ∧ t.tt.feed = true ∧ t.tt.requester = .none ∧
      t.tt.boltTimer = none ∧ t.tt.turns = (s.tt.turns + 1) % 65536 ∧
      (∀ r, Tbl.find s.tt.roads x.road = some r → t.tt.polReversed = if x.deckEnd = .a then r.reversed else !r.reversed) ∧
      MemoryKept none s t) ∧
  (∀ (s : State) (d : DeckRec), AtRest s → s.tt.deck = some d → d.bolt = true → s.tt.state = .unbolting →
    s.tt.halting = true → s.tt.boltOutC.prev = true → s.tt.boltOutC.level = false → s.tt.boltIn.level = false →
    let u : Turntable := { s.tt.quiet with boltOutC := { prev := true, level := true }, feed := false, target := none,
                                           requester := .none }
    ((∃ p, s.tt.pos = some p) → Makes (.boltContactSample .boltOut true) s { s with tt := { u with state := .halted } }) ∧
    (s.tt.pos = none →
      Makes (.boltContactSample .boltOut true) s { s with tt := { u with state := .unreferenced, boltOut := false } })) ∧
  (∀ (s : State) (d : DeckRec), AtRest s → s.tt.deck = some d → d.bolt = true → s.tt.state = .unbolting →
    s.tt.halting = false → s.tt.boltOutC.prev = true → s.tt.boltOutC.level = false → s.tt.boltIn.level = false →
    let u : Turntable := { s.tt with boltOutC := { prev := true, level := true }, boltTimer := none, feed := false,
                                     stepOut := false }
    (∀ p, s.tt.requester ≠ .jog → s.tt.pos = some p →
      Makes (.boltContactSample .boltOut true) s { s with tt := { u with
        state := .moving, dirAcw := !s.tt.legCw, gen := some (beginStep (min d.vmax d.v0)) } }) ∧
    (s.tt.requester ≠ .jog → s.tt.pos = none →
      ∃ level, Makes (.boltContactSample .boltOut true) s { s with
        free := s.free + 1
        tt := { u with state := .homing, lastIndex := level, search := 0, legCw := true, dirAcw := false,
                       gen := some (beginStep d.v0) } }) ∧
    (s.tt.requester = .jog → s.tt.jogReleased = false → d.stop = none →
      Makes (.boltContactSample .boltOut true) s { s with tt := { u with
        state := .jogging, legCw := s.tt.jogCw, dirAcw := !s.tt.jogCw, legSteps := 0, legDone := 0, returnSteps := 0,
        gen := some (beginStep (min d.jog d.v0)) } })) ∧
  (∀ (s : State) (n k : Nat) (tag : HostTag), AtRest s → Sound s → s.tt.boltTimer = some k → s.tt.requester = .slot n →
    n < 32 → Tbl.sorted s.exch.inHand = true → Tbl.find s.exch.inHand n = some tag →
    ∃ t, exec .boltTimerExpiry s = .next t ∧ t.tt.state = .fault ∧ t.tt.boltOut = false ∧ t.tt.boltTimer = none ∧
      t.tt.requester = .none ∧ t.exch.stop = true ∧
      (if s.tt.state = .unbolting then t.tt.fault = some .boltStuckIn ∧ SlotDone n tag .tableFault 0 3 t
        else t.tt.fault = some .boltStuckOut ∧ SlotDone n tag .tableFault 0 2 t)) ∧
  (∀ s : State, AtRest s → s.tt.boltTimer = none → Makes .boltTimerExpiry s s) ∧
  (∀ (s : State) (d : DeckRec) (k : Nat), AtRest s → s.tt.deck = some d → s.tt.settleTimer = some k → d.bolt = true →
    d.boltTime ≠ 0 → ¬ (s.tt.boltIn.level = true ∧ s.tt.boltOutC.level = false) →
    Makes .settleTimerExpiry s { s with tt := { s.tt with
      state := .bolting, settleTimer := none, boltOut := false, boltTimer := some d.boltTime, feed := false } }) ∧
  ∀ s : State, AtRest s → s.tt.settleTimer = none → Makes .settleTimerExpiry s s

/-- TURN_TABLE, HOME_TABLE and STOP_TABLE (R128 to R133). The refusals of the first two in their order, each with its words:
BAD_ARGUMENT, ALL_STOP, TABLE_FAULT of a TURN_TABLE, TABLE_BUSY, TABLE_LOCKED and STRADDLE, which names the road section found
(of several, that of the lowest-numbered road: log 27) and its state, or the deck section where the position is unknown; the
words of HOME_TABLE's TABLE_BUSY and TABLE_LOCKED are 0 (log 44). A turn to the alignment that stands is answered OK (words 0:
log 26), and one to another alignment at the same position takes it at once (its words: log 26). An accepted turn from a bolted
ALIGNED deck begins UNBOLTING, with the legs of its move already planned (log 27), one from HALTED begins MOVING with no
unbolting, or BOLTING where the deck stands on its target. An accepted homing of a HALTED deck begins HOMING, one of an
UNREFERENCED, ALIGNED or FAULT deck UNBOLTING, with the position unknown and a fault cause cleared. A stop of a moving deck
begins STOPPING and answers the turn's slot CANCELLED; any other stop is answered with the state alone. -/
def Obligations.DeckRequests : Prop :=
  ∀ (s : State) (tag : HostTag) (road deckEnd : Word), Ready .running s → AtRest s →
    (s.tt.deck = none ∨ 36 ≤ road.toNat ∨ Tbl.find s.tt.roads road.toNat = none ∨ 2 ≤ deckEnd.toNat →
      Replies (.turnTable tag road deckEnd) s s tag .badArgument 0 0 ∧
      Replies (.homeTable tag road deckEnd) s s tag .badArgument 0 0) ∧
    (s.tt.deck = none → Replies (.stopTable tag) s s tag .ok s.tt.state.code 0) ∧
    ∀ (d : DeckRec) (q : Road), s.tt.deck = some d → road.toNat < 36 → Tbl.find s.tt.roads road.toNat = some q →
      deckEnd.toNat < 2 →
      let x : RoadEnd := { road := road.toNat, deckEnd := if deckEnd.toNat = 0 then .a else .b }
      let goal := targetOf d.c q.position x.deckEnd
      let mayTurn : Prop := s.tt.state = .aligned ∧ s.tt.align ≠ some x ∨ s.tt.state = .halted
      let mayHome : Prop := s.tt.state ∈ [.unreferenced, .halted, .aligned, .fault]
      let free : Prop := Tbl.find s.ilk.locks d.sec = none
      let found (y : Nat × Road) : Prop := ∃ p, s.tt.pos = some p ∧ Stands s d.sec ∧
        ∃ a b, s.tt.roads = a ++ y :: b ∧ Faces d p y.2 ∧ Stands s y.2.sec ∧ ∀ z ∈ a, ¬ (Faces d p z.2 ∧ Stands s z.2.sec)
      (s.asp.cond = .allStop → Replies (.turnTable tag road deckEnd) s s tag .allStop 0 0 ∧
        Replies (.homeTable tag road deckEnd) s s tag .allStop 0 0) ∧
      (s.asp.cond = .running →
        (s.tt.state = .fault → Replies (.turnTable tag road deckEnd) s s tag .tableFault 0 (faultCode s.tt.fault)) ∧
        (s.tt.state ∉ [.fault, .aligned, .halted] →
          Replies (.turnTable tag road deckEnd) s s tag .tableBusy 0 s.tt.state.code) ∧
        (¬ mayHome → Replies (.homeTable tag road deckEnd) s s tag .tableBusy 0 0) ∧
        (s.tt.state = .aligned → s.tt.align = some x → Replies (.turnTable tag road deckEnd) s s tag .ok 0 0) ∧
        (∀ k, Tbl.find s.ilk.locks d.sec = some k →
          (mayTurn → Replies (.turnTable tag road deckEnd) s s tag .tableLocked d.sec k) ∧
          (mayHome → Replies (.homeTable tag road deckEnd) s s tag .tableLocked 0 0)) ∧
        (∀ y, free → found y →
          (mayTurn → Replies (.turnTable tag road deckEnd) s s tag .straddle y.2.sec (secState s y.2.sec).code) ∧
          (mayHome → Replies (.homeTable tag road deckEnd) s s tag .straddle y.2.sec (secState s y.2.sec).code)) ∧
        (free → s.tt.pos = none → Stands s d.sec →
          (mayTurn → Replies (.turnTable tag road deckEnd) s s tag .straddle d.sec (secState s d.sec).code) ∧
          (mayHome → Replies (.homeTable tag road deckEnd) s s tag .straddle d.sec (secState s d.sec).code)) ∧
        (∀ p, free → ¬ Straddled d s → s.tt.pos = some p →
          let l := legs d p goal
          let u : Turntable := { s.tt with
            requester := .slot s.exch.takePos, target := some x, feed := false, legCw := l.1, legSteps := l.2.1, legDone := 0,
            returnSteps := l.2.2 }
          (s.tt.state = .aligned → s.tt.align ≠ some x → p = goal →
            Replies (.turnTable tag road deckEnd) s { s with tt := { s.tt with
              align := some x, target := none, polReversed := if x.deckEnd = .a then q.reversed else !q.reversed,
              turns := (s.tt.turns + 1) % 65536, feed := true } } tag .ok p (roadEndByte (some x))) ∧
          (s.tt.state = .aligned → s.tt.align ≠ some x → p ≠ goal → d.bolt = true → d.boltTime ≠ 0 →
            ¬ (s.tt.boltOutC.level = true ∧ s.tt.boltIn.level = false) →
            Pends (.turnTable tag road deckEnd) s { s with tt := { u with
              state := .unbolting, align := none, boltOut := true, boltTimer := some d.boltTime } } tag) ∧
          (s.tt.state = .halted → p ≠ goal →
            Pends (.turnTable tag road deckEnd) s { s with tt := { u with
              state := .moving, dirAcw := !l.1, gen := some (beginStep (min d.vmax d.v0)), stepOut := false } } tag) ∧
          (s.tt.state = .halted → p = goal → d.bolt = true → d.boltTime ≠ 0 →
            ¬ (s.tt.boltIn.level = true ∧ s.tt.boltOutC.level = false) →
            Pends (.turnTable tag road deckEnd) s { s with tt := { u with
              state := .bolting, settleTimer := none, boltOut := false, boltTimer := some d.boltTime } } tag)) ∧
        (free → ¬ Straddled d s →
          (s.tt.state = .halted → ∃ t, exec (.homeTable tag road deckEnd) s = .next t ∧ t.tt.state = .homing ∧
            t.tt.pos = none ∧ t.tt.target = some x ∧ t.tt.requester = .slot s.exch.takePos ∧ t.tt.legCw = true ∧
            t.tt.dirAcw = false ∧ t.tt.search = 0 ∧ t.tt.gen = some (beginStep d.v0) ∧
            Tbl.find t.exch.inHand s.exch.takePos = some tag ∧ t.occ = s.occ ∧ t.ilk = s.ilk ∧ t.pts = s.pts) ∧
          (s.tt.state ∈ [.unreferenced, .aligned, .fault] → d.bolt = true → d.boltTime ≠ 0 →
            ¬ (s.tt.boltOutC.level = true ∧ s.tt.boltIn.level = false) →
            Pends (.homeTable tag road deckEnd) s { s with tt := { s.tt with
              state := .unbolting, requester := .slot s.exch.takePos, target := some x, fault := none, pos := none,
              align := none, boltOut := true, boltTimer := some d.boltTime, feed := false } } tag))) ∧
      (s.tt.state ≠ .moving → s.tt.state ≠ .returning → Replies (.stopTable tag) s s tag .ok s.tt.state.code 0) ∧
      (s.tt.state = .moving ∨ s.tt.state = .returning → s.tt.halting = true →
        Replies (.stopTable tag) s s tag .ok s.tt.state.code 0) ∧
      (s.tt.state = .moving ∨ s.tt.state = .returning → s.tt.halting = false →
        ∀ (g : Generator) (n : Nat) (other : HostTag), s.tt.gen = some g → s.tt.requester = .slot n → n < 32 →
          n ≠ s.exch.takePos → Tbl.sorted s.exch.inHand = true → Tbl.find s.exch.inHand n = some other →
          ∃ t, exec (.stopTable tag) s = .next t ∧ SlotDone s.exch.takePos tag .ok s.tt.state.code 0 t ∧
            SlotDone n other .cancelled 0 0 t ∧ t.tt.state = .stopping ∧ t.tt.requester = .none ∧ t.tt.target = none ∧
            t.tt.legSteps = 1 + (g.rate - d.v0 + d.ramp - 1) / d.ramp ∧ t.tt.pos = s.tt.pos ∧ t.occ = s.occ)

/-- Motion arithmetic. The legs of a move end at its target (R146): from p, the main leg in its direction and the clockwise
return leg bring the deck to t, step by step modulo C. On a CONTINUOUS deck (R144), with d the clockwise steps from p to t, a
move of d 0 has no steps, one of d up to C/2 goes clockwise d steps, and any other goes anticlockwise C − d steps and over the
backlash and back. On a BOUNDED deck (R145) the move turns away from the stop mark that lies inside the clockwise sweep, takes
the shorter way where it begins or ends at the mark, and no main leg comes to the mark before its last step. A step at rate v
has the prescaler of its rate band and the reload value q − 1 (R148), and it lasts 2 · div · q ticks (R149). -/
def Obligations.LegsAndRatesOfTheDeck : Prop :=
  (∀ (d : DeckRec) (p t : Nat), 0 < d.c → p < d.c → t < d.c → d.backlash < d.c → (∀ m, d.stop = some m → m < d.c) →
    let l := legs d p t
    Nat.iterate (stepFrom d.c true) l.2.2 (Nat.iterate (stepFrom d.c l.1) l.2.1 p) = t ∧ (l.1 = true → l.2.2 = 0)) ∧
  (∀ (d : DeckRec) (p t : Nat), p < d.c → t < d.c → d.stop = none → d.c % 2 = 0 →
    let e := (t + d.c - p) % d.c
    (e = 0 → legs d p t = (true, 0, 0)) ∧
    (1 ≤ e → e ≤ d.c / 2 → legs d p t = (true, e, 0)) ∧
    (d.c / 2 < e → legs d p t = (false, d.c - e + d.backlash, d.backlash) ∧ d.c - e ≤ d.c / 2 - 1)) ∧
  (∀ (d : DeckRec) (p t m : Nat), p < d.c → t < d.c → m < d.c → d.stop = some m → d.c % 2 = 0 →
    let e := (t + d.c - p) % d.c
    let k := (m + d.c - p) % d.c
    (e = 0 → legs d p t = (true, 0, 0)) ∧
    (m ≠ p → m ≠ t → e ≠ 0 → direction d p t = if 1 ≤ k ∧ k < e then (false, d.c - e) else (true, e)) ∧
    (m = p ∨ m = t → e ≠ 0 → direction d p t = if e ≤ d.c / 2 then (true, e) else (false, d.c - e)) ∧
    ∀ j, 1 ≤ j → j < (legs d p t).2.1 → Nat.iterate (stepFrom d.c (legs d p t).1) j p ≠ m) ∧
  ∀ v, 1 ≤ v → v ≤ 20000 →
    let div := if 62 ≤ v then 1 else if 8 ≤ v then 8 else 64
    let q := (8000000 + div * v) / (2 * div * v)
    beginStep v = { rate := v, div := div, reload := q - 1, counter := q - 1, second := false } ∧
      1 ≤ q ∧ q ≤ 65536 ∧ periodTicks (beginStep v) = 2 * div * q ∧
      ∀ k ∈ [1, 8, 64], k < div → 65536 < (8000000 + k * v) / (2 * k * v)

/-! ## Visitors and the panel -/

/-- BUTTON_SAMPLE (R154, R155, R181): a sample that leaves the reported level, or a release of a show button, changes the filter
alone; a press outside RUNNING wakes the panel and starts its idle time; a press of a button whose show may be queued, while
another show runs, joins the tail of the queue, wakes the panel and leaves its idle timer stopped. A press of a jog button
(R135, R156) wakes the panel and, where the deck may be jogged, takes the deck in its direction: a HALTED deck into JOGGING, an
ALIGNED one into UNBOLTING. The release of the button that began the jog ends it (R136): a JOGGING deck makes a stop, an
UNBOLTING one no step, its hold timer stopped (the model's choice, log 28); any other release does nothing. -/
def Obligations.ButtonPressesQueueShows : Prop :=
  ∀ (s : State) (b : Fin 18) (x : Bool), AtRest s →
    let f := Tbl.getD s.vis.filters b.val Filter.init
    let g := f.sample 20 x
    let fs := Tbl.put Filter.init s.vis.filters b.val g
    (g.level = f.level ∨ (g.level = false ∧ b.val < 16) →
      Makes (.buttonSample b x) s { s with vis := { s.vis with filters := fs } }) ∧
    (g.level = true → f.level = false → s.exch.runState ≠ .running → s.vis.runner = none → s.disp.idle1 ≠ 0 →
      Makes (.buttonSample b x) s { s with
        vis := { s.vis with filters := fs }
        disp := { s.disp with panel := .awake, idleTimer := some (1000 * s.disp.idle1), idleRun := s.disp.idle1 } }) ∧
    (∀ d, s.tt.deck = some d → g.level = true → f.level = false → 16 ≤ b.val → s.exch.runState = .running →
      s.disp.panel ≠ .dark → s.vis.suspended = false → s.vis.runner = none → s.disp.idle1 ≠ 0 →
      let cw := b.val == 16
      let may := s.asp.cond = .running ∧ s.tt.jogPermitted = true ∧ (s.tt.state = .aligned ∨ s.tt.state = .halted) ∧
        s.tt.requester = .none ∧ secState s d.sec = .clear ∧ lockOf s d.sec = none
      let u (t : Turntable) : State := { s with
        vis := { s.vis with filters := fs }
        disp := { s.disp with panel := .awake, idleTimer := some (1000 * s.disp.idle1), idleRun := s.disp.idle1 }
        tt := t }
      let jog : Turntable := { s.tt with requester := .jog, jogCw := cw, jogHold := some 20000, jogReleased := false,
                                         feed := false }
      (¬ may → Makes (.buttonSample b x) s (u s.tt)) ∧
      (may → s.tt.state = .halted → d.stop = none →
        Makes (.buttonSample b x) s (u { jog with
          state := .jogging, legCw := cw, dirAcw := !cw, legSteps := 0, legDone := 0, returnSteps := 0, stepOut := false,
          gen := some (beginStep (min d.jog d.v0)) })) ∧
      (may → s.tt.state = .aligned → d.bolt = true → d.boltTime ≠ 0 →
        ¬ (s.tt.boltOutC.level = true ∧ s.tt.boltIn.level = false) →
        Makes (.buttonSample b x) s (u { jog with
          state := .unbolting, align := none, boltOut := true, boltTimer := some d.boltTime }))) ∧
    (∀ d, s.tt.deck = some d → g.level = false → f.level = true → 16 ≤ b.val →
      let u (t : Turntable) : State := { s with vis := { s.vis with filters := fs }, tt := t }
      let mine := s.tt.jogCw = (b.val == 16) ∧ s.tt.requester = .jog ∧ s.tt.halting = false
      (¬ (mine ∧ (s.tt.state = .unbolting ∨ s.tt.state = .jogging)) → Makes (.buttonSample b x) s (u s.tt)) ∧
      (mine → s.tt.state = .unbolting →
        Makes (.buttonSample b x) s (u { s.tt with jogReleased := true, jogHold := none })) ∧
      ∀ gen, mine → s.tt.state = .jogging → s.tt.gen = some gen → d.stop = none →
        Makes (.buttonSample b x) s (u { s.tt with
          state := .stopping, legSteps := 1 + (gen.rate - d.v0 + d.ramp - 1) / d.ramp, returnSteps := 0, jogHold := none,
          feed := false })) ∧
    ∀ (sh : Nat) (r : Runner), g.level = true → f.level = false → b.val < 16 → s.exch.runState = .running →
      s.disp.panel ≠ .dark → boundShow s b.val = some sh → s.vis.suspended = false → s.vis.runner = some r → r.show_ ≠ sh →
      Tbl.find s.vis.cool sh = none → 0 < s.vis.busy →
      Makes (.buttonSample b x) s { s with
        vis := { s.vis with filters := fs, queue := [(sh, .button b.val)] }
        disp := { s.disp with panel := .awake, idleTimer := none } }

/-- RUN_SHOW (R160, R161): its refusals in their order, SHOW_BUSY for a show that waits or runs, QUEUE_FULL with 8 shows
waiting; while the head is not taken (another show runs, ALL STOP or a jog) a show joins the tail and is answered with its place
and the queue's length; with the runner free it is taken at once, and a first step PAUSE waits with its step timer and the
show's duration timer running. A show whose one step is CANCEL_ROUTE ends in the same handling where the route is not active:
the step of a route that is not loaded is refused and the show aborted (R157, R167; that its answer is BAD_ARGUMENT is the
model's, DEDUCED, log 56), a loaded route's step ends with success and the show with it (R163, R166). VISITOR_SUSPEND and VISITOR_RESUME (R169): suspension empties the queue, with the number of shows
removed and the show aborted as its answer, "none" where none ran (log 25); the abort frees the runner, takes the show's entries
off the route stack, starts its cool-down (with a cool-down of 0 a timer that still runs goes on: log 52) and the panel's idle
time, and is the last outcome shown (R167, R168, R181); a second one changes nothing; resumption answers whether visitors were
suspended. -/
def Obligations.ShowsRunOnRequest : Prop :=
  (∀ (s : State) (tag : HostTag) (n : Word), Ready .running s → AtRest s →
    (32 ≤ n.toNat ∨ Tbl.find s.vis.shows n.toNat = none → Replies (.runShow tag n) s s tag .badArgument 0 0) ∧
    ∀ w, n.toNat < 32 → Tbl.find s.vis.shows n.toNat = some w →
      (s.vis.suspended = true → Replies (.runShow tag n) s s tag .visitorBarred 0 0) ∧
      (s.vis.suspended = false →
        (∀ r, s.vis.runner = some r →
          (r.show_ = n.toNat → Replies (.runShow tag n) s s tag .showBusy 0 2) ∧
          (r.show_ ≠ n.toNat → Replies (.runShow tag n) s { s with vis := { s.vis with queue := [(n.toNat, .host)] } } tag
            .ok 0 1)) ∧
        (∀ time more, s.vis.runner = none → s.asp.cond = .running → s.tt.requester ≠ .jog → w.steps = .pause time :: more →
          time ≠ 0 →
          ∃ t, exec (.runShow tag n) s = .next t ∧ SlotDone s.exch.takePos tag .ok 0 1 t ∧ t.vis.queue = [] ∧
            t.vis.runner = some { show_ := n.toNat, step := 0, phase := .pause, stepTimer := some (1000 * time),
                                  durTimer := if w.maxDuration = 0 then none else some (1000 * w.maxDuration),
                                  routes := [] } ∧
            t.disp.panel = .awake ∧ t.disp.idleTimer = none ∧ t.occ = s.occ ∧ t.ilk = s.ilk ∧ t.tt = s.tt ∧
            MemoryKept (some s.exch.takePos) s t) ∧
        ∀ m, s.vis.runner = none → s.asp.cond = .running → s.tt.requester ≠ .jog → w.steps = [.cancelRoute m] → m < 512 →
          entryOf s m = none →
          Replies (.runShow tag n) s { s with
            vis := { s.vis with
              last := some (n.toNat, if Tbl.find s.ilk.routes m = none then .stepRefused else .completed)
              cool := if w.coolDown = 0 then s.vis.cool else Tbl.insert s.vis.cool n.toNat (1000 * w.coolDown) }
            disp := { s.disp with
              panel := .awake
              idleTimer := if s.disp.idle1 = 0 then none else some (1000 * s.disp.idle1), idleRun := s.disp.idle1 } } tag
            .ok 0 1)) ∧
  (∀ (s : State) (tag : HostTag) (n : Word) (w : ShowRec), Ready .running s → s.work = Work.none →
    s.vis.runner ≠ none ∨ s.asp.cond = .allStop ∨ s.tt.requester = .jog → n.toNat < 32 →
    Tbl.find s.vis.shows n.toNat = some w → s.vis.suspended = false →
    ((∃ src, (n.toNat, src) ∈ s.vis.queue) → Replies (.runShow tag n) s s tag .showBusy 0 1) ∧
    ((∀ src, (n.toNat, src) ∉ s.vis.queue) →
      ((∃ r, s.vis.runner = some r ∧ r.show_ = n.toNat) → Replies (.runShow tag n) s s tag .showBusy 0 2) ∧
      ((∀ r, s.vis.runner = some r → r.show_ ≠ n.toNat) →
        (s.vis.queue.length = 8 → Replies (.runShow tag n) s s tag .queueFull 0 0) ∧
        (s.vis.queue.length < 8 →
          Replies (.runShow tag n) s { s with vis := { s.vis with queue := s.vis.queue ++ [(n.toNat, .host)] } } tag .ok
            s.vis.queue.length (s.vis.queue.length + 1))))) ∧
  (∀ (s : State) (tag : HostTag), Ready .running s → s.work = Work.none → s.vis.queue.length ≤ 8 →
    (s.vis.suspended = true → s.vis.queue = [] → Replies (.visitorSuspend tag) s s tag .ok 0 0) ∧
    (s.vis.suspended = false → s.vis.runner = none →
      Replies (.visitorSuspend tag) s { s with vis := { s.vis with suspended := true, queue := [] } } tag .ok
        s.vis.queue.length 65535) ∧
    ∀ r w, s.vis.suspended = false → s.vis.runner = some r → r.routes = [] → Tbl.find s.vis.shows r.show_ = some w →
      Replies (.visitorSuspend tag) s { s with
        vis := { s.vis with
          suspended := true, queue := [], runner := none, last := some (r.show_, .suspended),
          cool := if w.coolDown = 0 then s.vis.cool else Tbl.insert s.vis.cool r.show_ (1000 * w.coolDown) }
        ilk := { s.ilk with stack := s.ilk.stack.filter fun x => x.source != .show_ r.show_ }
        disp := { s.disp with
          idleTimer := if s.disp.idle1 = 0 then none else some (1000 * s.disp.idle1), idleRun := s.disp.idle1 } } tag .ok
        s.vis.queue.length r.show_) ∧
  ∀ (s : State) (tag : HostTag), Ready .running s → AtRest s →
    Replies (.visitorResume tag) s { s with vis := { s.vis with suspended := false } } tag .ok
      (if s.vis.suspended then 1 else 0) 0

/-- STEP_TIMER_EXPIRY, DURATION_TIMER_EXPIRY and COOL_DOWN_EXPIRY (R162, R165 to R168): a PAUSE that was the last step ends the
show COMPLETED; the duration timer aborts the show with MAX_DURATION; either way the runner is free, the show's cool-down runs
where it has one, and the panel's idle time starts (R181); a cool-down that has run out is over. A timer that does not run
changes nothing (log 3). -/
def Obligations.ShowTimersEndShows : Prop :=
  (∀ (s : State) (r : Runner) (w : ShowRec) (k : Nat), AtRest s → s.vis.runner = some r →
    Tbl.find s.vis.shows r.show_ = some w → w.coolDown ≠ 0 → s.disp.idle1 ≠ 0 →
    (r.stepTimer = some k → r.phase = .pause → r.step + 1 = w.steps.length →
      Makes .stepTimerExpiry s { s with
        vis := { s.vis with
          runner := none, last := some (r.show_, .completed), cool := Tbl.insert s.vis.cool r.show_ (1000 * w.coolDown) }
        disp := { s.disp with idleTimer := some (1000 * s.disp.idle1), idleRun := s.disp.idle1 } }) ∧
    (r.durTimer = some k → r.routes = [] →
      Makes .durationTimerExpiry s { s with
        vis := { s.vis with
          runner := none, last := some (r.show_, .maxDuration), cool := Tbl.insert s.vis.cool r.show_ (1000 * w.coolDown) }
        disp := { s.disp with idleTimer := some (1000 * s.disp.idle1), idleRun := s.disp.idle1 } })) ∧
  (∀ s : State, AtRest s → (∀ r, s.vis.runner = some r → r.stepTimer = none) → Makes .stepTimerExpiry s s) ∧
  (∀ s : State, AtRest s → (∀ r, s.vis.runner = some r → r.durTimer = none) → Makes .durationTimerExpiry s s) ∧
  ∀ (s : State) (n : Fin 32), AtRest s →
    (∀ k, Tbl.find s.vis.cool n.val = some k →
      Makes (.coolDownExpiry n) s { s with vis := { s.vis with cool := Tbl.erase s.vis.cool n.val } }) ∧
    (Tbl.find s.vis.cool n.val = none → Makes (.coolDownExpiry n) s s)

/-- IDLE_TIMER_EXPIRY (R180): the panel goes from AWAKE to DIM, from DIM to SLEEP, from SLEEP to DARK, with the next idle time,
none at DARK or where it is 0; the level in the header follows (R179). FLASH_PHASE_CHANGE (R178, R179): the flash count comes to
its next multiple of 125 ms, modulo 1000 (log 39), and the levels of the output image are the panel's brightness for each lamp
that is lit, and 0, not listed, for any other: STEADY always, SLOW_FLASH below 500, FAST_FLASH in the first 125 ms of each 250;
nothing else changes. The modes: a lamp shows, in RUNNING, the mode of its binding for a condition that holds or the one for a
condition that does not (R175, R176); the lamp of a show's button flashes fast while the show runs, slowly while it waits, is
steady while a press would queue it and off otherwise, and the jog lamps flash during a jog and are steady while a press would
begin one (R170); OFF outside RUNNING, and a button lamp with a DARK panel too. -/
def Obligations.PanelDimsAndLampsFlash : Prop :=
  (∀ (s : State) (k : Nat), AtRest s → s.disp.idleTimer = some k →
    (s.disp.panel = .awake → Makes .idleTimerExpiry s { s with disp := { s.disp with
      panel := .dim, idleTimer := if s.disp.idle2 = 0 then none else some (1000 * s.disp.idle2),
      idleRun := s.disp.idle2 } } ∧ (Sound s → ∃ t, exec .idleTimerExpiry s = .next t ∧ t.read8 0x20 = 2 ∧ t.read8 0x21 = 32)) ∧
    (s.disp.panel = .dim → Makes .idleTimerExpiry s { s with disp := { s.disp with
      panel := .sleep, idleTimer := if s.disp.idle3 = 0 then none else some (1000 * s.disp.idle3),
      idleRun := s.disp.idle3 } } ∧ (Sound s → ∃ t, exec .idleTimerExpiry s = .next t ∧ t.read8 0x20 = 3 ∧ t.read8 0x21 = 9)) ∧
    (s.disp.panel = .sleep → Makes .idleTimerExpiry s { s with disp := { s.disp with panel := .dark, idleTimer := none } } ∧
      (Sound s → ∃ t, exec .idleTimerExpiry s = .next t ∧ t.read8 0x20 = 4 ∧ t.read8 0x21 = 0))) ∧
  (∀ (s : State) (l : Lamp),
    let holds : Prop := match l.source with
      | .none => False
      | .sectionOccupied n => Tbl.find s.occ.recs n ≠ none ∧ (secState s n = .occupied ∨ secState s n = .uncertain)
      | .sectionRouted n => lockOf s n ≠ none
      | .signalAspect x a => (Tbl.find s.asp.state x).map SignalState.aspect = some a
      | .pointLie p y => (Tbl.find s.pts.state p).map PointState.lie = some y
      | .tableAtRoad x => s.tt.state = .aligned ∧ s.tt.align = some x
      | .showRunning n => s.vis.runner.map Runner.show_ = some n
      | .tagPresent n => tagOf s n ≠ none
    (s.exch.runState ≠ .running → lampMode s l = .off) ∧
    (s.exch.runState = .running → holds → lampMode s l = l.onMode) ∧
    (s.exch.runState = .running → ¬ holds → lampMode s l = l.offMode)) ∧
  (∀ (s : State) (b : Nat),
    (s.exch.runState ≠ .running ∨ s.disp.panel = .dark → buttonLampMode s b = .off) ∧
    (s.exch.runState = .running → s.disp.panel ≠ .dark → b < 16 →
      ((∀ x ∈ s.vis.shows, x.2.button ≠ some b) → buttonLampMode s b = .off) ∧
      ∀ y, FirstWith (fun x => x.2.button = some b) s.vis.shows y →
        let runs := s.vis.runner.map Runner.show_ = some y.1
        let waits := ∃ src, (y.1, src) ∈ s.vis.queue
        let refused := Tbl.find s.vis.cool y.1 ≠ none ∨ s.vis.suspended = true ∨ s.vis.busy ≤ s.vis.queue.length
        (runs → buttonLampMode s b = .fastFlash) ∧
        (¬ runs → waits → buttonLampMode s b = .slowFlash) ∧
        (¬ runs → ¬ waits → refused → buttonLampMode s b = .off) ∧
        (¬ runs → ¬ waits → ¬ refused → buttonLampMode s b = .steady)) ∧
    (s.exch.runState = .running → s.disp.panel ≠ .dark → 16 ≤ b →
      let may := s.tt.jogPermitted = true ∧ s.asp.cond = .running ∧ s.vis.suspended = false ∧ s.vis.runner = none ∧
        (s.tt.state = .aligned ∨ s.tt.state = .halted) ∧ s.tt.requester = .none
      (s.tt.requester = .jog → buttonLampMode s b = .fastFlash) ∧
      (s.tt.requester ≠ .jog → may → buttonLampMode s b = .steady) ∧
      (s.tt.requester ≠ .jog → ¬ may → buttonLampMode s b = .off))) ∧
  ∀ s : State, ∃ t, exec .flashPhaseChange s = .next t ∧
    t = { s with disp := { s.disp with flash := (s.disp.flash / 125 + 1) * 125 % 1000, levels := t.disp.levels } } ∧
    ∀ i l, (i, l) ∈ t.disp.levels ↔
      l = (match s.disp.panel with
        | .awake => 64
        | .dim => 32
        | .sleep => 9
        | .dark => 0) ∧ l ≠ 0 ∧
      ∃ m, ((i, m) ∈ s.disp.shown ∨ ∃ b, (b, m) ∈ s.vis.lamps ∧ i = 384 + b) ∧
        (m = .steady ∨ (m = .slowFlash ∧ t.disp.flash < 500) ∨ (m = .fastFlash ∧ t.disp.flash % 250 < 125))

/-! ## Loading, parameters, START and layout reset -/

/-- The seven LOAD requests (R191): bytes outside the data area, or at an odd offset, are answered BAD_ARGUMENT; a count of 0 is
answered OK at once; else the load begins to read its records, or joins the tail of the waiting loads, and its slot stays TAKEN.
-/
def Obligations.LoadsBeginOrWait : Prop :=
  ∀ (s : State) (tag : HostTag) (offset length count : Word) (rs : RunState) (c : Instr) (k : LoadKind), Ready rs s →
    s.work = Work.none → s.vis.queue = [] →
    (c, k, rs) ∈
      [(.loadSections tag offset length count, LoadKind.sections, RunState.configuring),
       (.loadRoutes tag offset length count, .routes, .configuring), (.loadPoints tag offset length count, .points, .configuring),
       (.loadSignals tag offset length count, .signals, .configuring), (.loadTable tag offset length count, .table, .configuring),
       (.loadShows tag offset length count, .shows, .configuring), (.loadShows tag offset length count, .shows, .running),
       (.loadLamps tag offset length count, .lamps, .configuring), (.loadLamps tag offset length count, .lamps, .running)] →
    let good := offset.toNat % 2 = 0 ∧ 0x3400 ≤ offset.toNat ∧ offset.toNat ≤ 0x7FFF ∧ offset.toNat + length.toNat ≤ 0x8000
    let l : Load := { kind := k, slot := s.exch.takePos, cursor := offset.toNat, limit := offset.toNat + length.toNat,
                      count := count.toNat, taken := 0 }
    (¬ good → ∃ t, exec c s = .next t ∧ SlotDone s.exch.takePos tag .badArgument 0 0 t ∧ inside t = inside s.served ∧
      MemoryKept (some s.exch.takePos) s t) ∧
    (good → s.exch.reading = none → s.exch.loads = [] → count.toNat = 0 →
      ∃ t, exec c s = .next t ∧ SlotDone s.exch.takePos tag .ok 0 0 t ∧ inside t = inside s.served ∧
        MemoryKept (some s.exch.takePos) s t) ∧
    (good → s.exch.reading = none → s.exch.loads = [] → count.toNat ≠ 0 →
      Pends c s { s with exch := { s.exch with reading := some l } } tag) ∧
    (good → ∀ m, s.exch.reading = some m → Pends c s { s with exch := { s.exch with loads := s.exch.loads ++ [l] } } tag)

/-- LOAD_RECORD (R191): with no load reading it changes nothing (log 57). A record whose stated length is not whole in the load,
is below 8, or is not the one its own type and counts give it (R200) ends the load INVALID_RECORD with the number of records
taken, the item's number (log 20) and the record's offset, and the next waiting load begins. A record of each type that spells
an item in the bytes of R200 is taken as that item, and the load goes on with the next record, or ends OK with its count and the
next waiting load begins: SECTION (R1, R23; meanwhile a new section reads CLEAR with count 0, and a replaced one keeps what it
holds: log 15), HEAD (R1, R20), ROUTE within the pool (R39 to R41), POINT (R88, R105), SIGNAL (R107), DECK and ROAD (R121,
R122), SHOW, unless it runs (R157), and LAMP (R174). Nothing else changes inside. -/
def Obligations.LoadRecordTakesOneRecord : Prop :=
  (∀ s : State, AtRest s → s.exch.reading = none → Makes .loadRecord s s) ∧
  ∀ (s : State) (l : Load) (tag : HostTag), Loading l tag s →
    let len := s.read16 l.cursor
    let fits (bytes : List Nat) : Prop := Holds s l.cursor bytes ∧ l.cursor + bytes.length ≤ l.limit
    (l.limit < l.cursor + 2 ∨ len < 8 ∨ l.limit < l.cursor + len ∨
        countedLength l.kind (fun k => s.read8 (l.cursor + k)) ≠ some len → EndsLoad l tag .invalidRecord s) ∧
    (l.kind = .sections → ∀ full fill n r, SectionFits n r → fits (sectionBytes full fill n r) →
      Takes l tag (sectionBytes full fill n r).length s { s with occ := { s.occ with
        recs := Tbl.insert s.occ.recs n r, secs := Tbl.insert s.occ.secs n (occOf s n) } }) ∧
    (l.kind = .sections → ∀ fill k a b invert, k < 32 → a ≠ b → fits (headBytes fill k a b invert) →
      let h : Head := { aSide := a, bSide := b, invert := invert, phase := .waitIdle, totalAB := 0, totalBA := 0,
                        suspect := ((Tbl.find s.occ.heads k).map Head.suspect).getD false }
      Takes l tag 8 s { s with occ := { s.occ with heads := Tbl.insert s.occ.heads k h } }) ∧
    (l.kind = .routes → ∀ fill n r, RouteFits n r → fits (routeBytes fill n r) →
      let rs := Tbl.insert s.ilk.routes n r
      (poolInUse rs ≤ Config.poolEntries →
        Takes l tag (routeBytes fill n r).length s { s with ilk := { s.ilk with routes := rs } } ∧
        ∃ t, exec .loadRecord s = .next t ∧ t.read16 0x22 = poolInUse rs) ∧
      (Config.poolEntries < poolInUse rs → EndsLoad l tag .invalidRecord s)) ∧
    (l.kind = .points → ∀ full fill p r, PointFits p r → fits (pointBytes full fill p r) →
      let lie := match r.feedback with
        | .none => DetLie.lost
        | .pair a b => lieOfContacts (contactLevel s a) (contactLevel s b)
      Takes l tag 12 s { s with pts := { s.pts with
        recs := Tbl.insert s.pts.recs p r
        state := Tbl.insert s.pts.state p { failed := none, lie := lie, assumed := none, loss := none } } }) ∧
    (l.kind = .signals → ∀ fill x r, SignalFits x r → fits (signalBytes fill x r) →
      Takes l tag 8 s { s with asp := { s.asp with recs := Tbl.insert s.asp.recs x r } } ∧
      ∃ t st, exec .loadRecord s = .next t ∧ Tbl.find t.asp.state x = some st ∧
        (s.exch.runState = .configuring → st.aspect = if r.kind = .distant then .caution else .danger)) ∧
    (l.kind = .table → ∀ fill d, DeckFits d → fits (deckBytes fill d) →
      Takes l tag 26 s { s with tt := { s.tt.unreferenced with deck := some d, roads := [], turns := 0 } }) ∧
    (l.kind = .table → ∀ d n q, s.tt.deck = some d → n < 36 → q.position < d.c → q.sec ≠ d.sec →
      (∀ x ∈ s.tt.roads, x.1 ≠ n → x.2.position ≠ q.position) → fits (roadBytes n q) →
      Takes l tag 8 s { s with tt := { s.tt.unreferenced with roads := Tbl.insert s.tt.roads n q } }) ∧
    (l.kind = .shows → ∀ n w, ShowFits n w → fits (showBytes n w) →
      (∀ x ∈ s.vis.shows, x.1 ≠ n → w.button = none ∨ x.2.button ≠ w.button) →
      (s.vis.runner.map Runner.show_ = some n → EndsLoad l tag .showBusy s) ∧
      (s.vis.runner.map Runner.show_ ≠ some n →
        Takes l tag (showBytes n w).length s { s with vis := { s.vis with shows := Tbl.insert s.vis.shows n w } })) ∧
    (l.kind = .lamps → ∀ fill i b, LampFits i b → fits (lampBytes fill i b) →
      Takes l tag 10 s { s with disp := { s.disp with bind := Tbl.insert s.disp.bind i b } })

/-- SET_PARAMETERS (R192): a group other than TRACK and VISITOR, a count above 64, and bytes at an odd offset or outside the
data area are answered BAD_ARGUMENT. Each entry's parameter takes its value, clamped to its range in its unit (R34, R45, R53,
R96, R113, R135, R159, R182), and the answer counts the entries applied and those clamped; a code that the group has not ends
the request INVALID_RECORD with the number of entries applied, the code and the entry's offset, and the entries before it stand.
An overrun response that is neither value is REPORT, a jog permission that is neither is OFF, each counted as clamped. A TRACK
group is set in CONFIGURING. -/
def Obligations.ParametersAreClamped : Prop :=
  (∀ (s : State) (tag : HostTag) (offset : Word) (code v : Nat), Ready .configuring s → AtRest s → offset.toNat % 2 = 0 →
    0x3400 ≤ offset.toNat → offset.toNat ≤ 0x7FFC → s.read16 offset.toNat = code → s.read16 (offset.toNat + 2) = v →
    let c (lo hi : Nat) := max lo (min v hi)
    let put (group : Word) (u : State) (clamped : Bool) : Prop :=
      Replies (.setParameters tag group offset 1#32) s u tag .ok 1 (if clamped then 1 else 0)
    (code = 1 → put 1#32 { s with tags := { s.tags with lostHold := 100 * c 0 255 } } (c 0 255 != v)) ∧
    (code = 2 → put 1#32 { s with ilk := { s.ilk with stackTimeout := c 0 600 } } (c 0 600 != v)) ∧
    (code = 3 → put 1#32 { s with pts := { s.pts with pulseTime := c 20 200 } } (c 20 200 != v)) ∧
    (code = 4 → put 1#32 { s with pts := { s.pts with rechargeTime := c 100 2000 } } (c 100 2000 != v)) ∧
    (code = 5 → put 1#32 { s with pts := { s.pts with window := c 100 2000 } } (c 100 2000 != v)) ∧
    (code = 6 → put 1#32 { s with pts := { s.pts with slowLimit := c 1 8 } } (c 1 8 != v)) ∧
    (code = 17 → put 2#32 { s with ilk := { s.ilk with quota := c 0 8 } } (c 0 8 != v)) ∧
    (code = 19 → put 2#32 { s with vis := { s.vis with busy := c 1 8 } } (c 1 8 != v)) ∧
    (code = 20 → put 2#32 { s with disp := { s.disp with idle1 := c 0 3600 } } (c 0 3600 != v)) ∧
    (code = 21 → put 2#32 { s with disp := { s.disp with idle2 := c 0 3600 } } (c 0 3600 != v)) ∧
    (code = 22 → put 2#32 { s with disp := { s.disp with idle3 := c 0 3600 } } (c 0 3600 != v)) ∧
    (code = 7 → put 1#32 { s with asp := { s.asp with response := if v = 2 then .allStop else .report } }
      (v != 1 && v != 2)) ∧
    (code = 18 → put 2#32 { s with tt := { s.tt with jogPermitted := v == 1 } } (v != 0 && v != 1)) ∧
    (code ∉ [1, 2, 3, 4, 5, 6, 7] →
      Replies (.setParameters tag 1#32 offset 1#32) s s tag .invalidRecord (halves 0 code) offset.toNat) ∧
    (code ∉ [17, 18, 19, 20, 21, 22] →
      Replies (.setParameters tag 2#32 offset 1#32) s s tag .invalidRecord (halves 0 code) offset.toNat)) ∧
  (∀ (s : State) (tag : HostTag) (group offset count : Word), Ready .configuring s → AtRest s →
    (group ≠ 1#32 ∧ group ≠ 2#32 ∨ offset.toNat % 2 = 1 ∨ offset.toNat < 0x3400 ∨ 0x7FFF < offset.toNat ∨
        64 < count.toNat ∨ 0x8000 < offset.toNat + 4 * count.toNat →
      Replies (.setParameters tag group offset count) s s tag .badArgument 0 0) ∧
    (group = 1#32 ∨ group = 2#32 → offset.toNat % 2 = 0 → 0x3400 ≤ offset.toNat → offset.toNat ≤ 0x7FFF → count = 0#32 →
      Replies (.setParameters tag group offset count) s s tag .ok 0 0)) ∧
  ∀ (s : State) (tag : HostTag) (offset : Word) (second v w : Nat), Ready .configuring s → AtRest s → offset.toNat % 2 = 0 →
    0x3400 ≤ offset.toNat → offset.toNat ≤ 0x7FF8 → s.read16 offset.toNat = 3 → s.read16 (offset.toNat + 2) = v →
    s.read16 (offset.toNat + 4) = second → s.read16 (offset.toNat + 6) = w →
    let p := max 20 (min v 200)
    let q := max 100 (min w 2000)
    (second = 5 → Replies (.setParameters tag 1#32 offset 2#32) s { s with pts := { s.pts with pulseTime := p, window := q } }
      tag .ok 2 ((if p = v then 0 else 1) + if q = w then 0 else 1)) ∧
    (second ∉ [1, 2, 3, 4, 5, 6, 7] →
      Replies (.setParameters tag 1#32 offset 2#32) s { s with pts := { s.pts with pulseTime := p } } tag .invalidRecord
        (halves 1 second) (offset.toNat + 4))

/-- START (R193): it is answered LOADING while a load reads or waits, and INVALID_CONFIG with the kind and the number of the
first item that fails, by the checks in their order, each spelled: sections and heads (R2; a detector input that two sections
name fails both, the model's choice, log 30), neighbours (R24), points (R89), signals (R108), the deck and its roads (R123),
routes (R42); else the part is RUNNING with the layout clock at 0 (R190), each section that was not DISABLED taken afresh with
count 0 (R21), no route active and none stacked, no order and no show, and track power on (R120), unless the STOP pin is
reported ACTIVE: then ALL STOP with cause PIN stands (R114). -/
def Obligations.StartBeginsRunning : Prop :=
  (∀ (s : State) (tag : HostTag), Ready .configuring s → AtRest s →
    (s.exch.reading ≠ none ∨ s.exch.loads ≠ [] → Replies (.start tag) s s tag .loading 0 0) ∧
    (s.exch.reading = none → s.exch.loads = [] →
      (∀ k i, configFault s = some (k, i) → Replies (.start tag) s s tag .invalidConfig k.code i) ∧
      (configFault s = none → s.asp.cond = .running → s.vis.runner = none → s.ilk.active = [] → s.tt.state.givesUp = false →
        ∃ t, exec (.start tag) s = .next t ∧ SlotDone s.exch.takePos tag .ok 0 0 t ∧ t.exch.runState = .running ∧
          t.read16 0x16 = 3 ∧ t.clock = 0 ∧ t.disp.flash = 0 ∧ t.ilk.active = [] ∧ t.ilk.stack = [] ∧ t.pts.queue = [] ∧
          t.vis.queue = [] ∧ t.vis.runner = none ∧ t.occ.recs = s.occ.recs ∧
          (Tbl.sorted s.occ.recs = true → Tbl.sorted s.occ.filters = true → ∀ n r, Tbl.find s.occ.recs n = some r →
            ∃ o, Tbl.find t.occ.secs n = some o ∧ o.count = 0 ∧
              o.state = (if secState s n = .disabled then .disabled
                else match r.detection with
                  | .current => if (match r.input with
                      | none => false
                      | some i => (Tbl.getD s.occ.filters i Filter.init).counted) then .occupied else .clear
                  | .axle | .both => if boundSuspect s n then .uncertain else .sweeping)) ∧
          (s.asp.stopFilter.level = false → t.asp.cond = .running ∧ t.asp.power = true) ∧
          (s.asp.stopFilter.level = true → t.asp.cond = .allStop ∧ t.asp.cause = some .pin ∧ t.asp.power = false) ∧
          MemoryKept (some s.exch.takePos) s t))) ∧
  ∀ s : State,
    let first (k : ItemKind) (n : Nat) : Prop := configFault s = some (k, n)
    let c1 := ∀ x ∈ s.occ.recs, ¬ badSection s x
    let c2 := c1 ∧ ∀ x ∈ s.occ.heads, ¬ badHead s x
    let c3 := c2 ∧ ∀ x ∈ s.occ.recs, ¬ badNeighbours s x
    let c4 := c3 ∧ ∀ x ∈ s.pts.recs, ¬ badPoint s x
    let c5 := c4 ∧ ∀ x ∈ s.asp.recs, ¬ badSignal s x
    let deckless := fun d : DeckRec => Tbl.find s.occ.recs d.sec = none ∨ s.tt.roads = []
    let roadless := fun x : Nat × Road => Tbl.find s.occ.recs x.2.sec = none
    let c6 := c5 ∧ ∀ d, s.tt.deck = some d → ¬ deckless d ∧ ∀ x ∈ s.tt.roads, ¬ roadless x
    (∀ x, FirstWith (badSection s) s.occ.recs x → first .sec x.1) ∧
    (∀ x, c1 → FirstWith (badHead s) s.occ.heads x → first .head x.1) ∧
    (∀ x, c2 → FirstWith (badNeighbours s) s.occ.recs x → first .sec x.1) ∧
    (∀ x, c3 → FirstWith (badPoint s) s.pts.recs x → first .point x.1) ∧
    (∀ x, c4 → FirstWith (badSignal s) s.asp.recs x → first .signal x.1) ∧
    (∀ d, c5 → s.tt.deck = some d → deckless d → first .table 0) ∧
    (∀ d x, c5 → s.tt.deck = some d → ¬ deckless d → FirstWith roadless s.tt.roads x → first .road x.1) ∧
    (∀ x, c6 → FirstWith (badRoute s) s.ilk.routes x → first .route x.1) ∧
    (c6 → (∀ x ∈ s.ilk.routes, ¬ badRoute s x) → configFault s = none)

/-- LAYOUT_RESET and CONTROL_LAYOUT_RESET (R194; R22, R38, R61, R87, R106, R120, R141, R173): the part is CONFIGURING; routes,
locks, orders, tags, loads and shows are gone; track power is off; the loaded records stay, as do the heads, the detector
filters and the DISABLED state of sections, the others reading CLEAR with count 0 (log 15); the deck stays ALIGNED, HALTED or in
FAULT, or is UNREFERENCED, with neither requester nor target and its feed off. Every other slot in hand is completed ABORTED,
and the request is answered with their number. CONTROL's code is ignored in INITIALIZING (R185). -/
def Obligations.LayoutResetClearsTheLayout : Prop :=
  (∀ (s : State) (tag : HostTag) (rs : RunState), Ready rs s → rs ≠ .initializing → s.work = Work.none →
    Tbl.sorted s.exch.inHand = true → (∀ n g, (n, g) ∈ s.exch.inHand → n < 32) →
    ∃ t, exec (.layoutReset tag) s = .next t ∧
      SlotDone s.exch.takePos tag .ok (s.exch.inHand.filter fun x => x.1 != s.exch.takePos).length 0 t ∧ Cleared s t ∧
      (∀ n g, Tbl.find s.exch.inHand n = some g → SlotDone n g .aborted 0 0 t) ∧ MemoryKept (some s.exch.takePos) s t) ∧
  (∀ s : State, s.exch.runState ≠ .initializing → s.work = Work.none → Sound s → Tbl.sorted s.exch.inHand = true →
    (∀ n g, (n, g) ∈ s.exch.inHand → n < 32) →
    ∃ t, exec .controlLayoutReset s = .next t ∧ Cleared s t ∧
      (∀ n g, Tbl.find s.exch.inHand n = some g → SlotDone n g .aborted 0 0 t) ∧ MemoryKept none s t) ∧
  ∀ s : State, s.exch.runState = .initializing →
    exec .controlLayoutReset s = .next { s with exch := { s.exch with paired := false } }
end

