-- ==== Sys2Proof/Laws/State.lean ====
section
/-! SUPPORT. One lemma per field per update. The operations that write exchange memory, the report log and the attention
line change nothing else (one lemma per operation for `body`, and from it one per field); the setters of the blocks
change their own block. -/

namespace Sys2Proof.Machine

/-- A state with exchange memory, the report log's pointer and set, and the attention causes blanked: what a write to
memory or a report leaves alone. -/
def body (s : State) : State :=
  { s with exch := { s.exch with mem := [], w := 0, missed := 0#64, reports := false, done := false, stop := false,
                                 enable := { reports := false, done := false, stop := false }, attn := false } }

@[simp] theorem body_withMem (s : State) (m : List Host.Cell) : body (s.withMem m) = body s := rfl

@[simp] theorem body_write8 (a v : Nat) (s : State) : body (s.write8 a v) = body s := by
  unfold State.write8; split <;> simp

@[simp] theorem body_write16 (a v : Nat) (s : State) : body (s.write16 a v) = body s := by
  unfold State.write16; split <;> simp

@[simp] theorem body_write32 (a v : Nat) (s : State) : body (s.write32 a v) = body s := by
  unfold State.write32; split <;> simp

@[simp] theorem body_writeWord (b n k v : Nat) (s : State) : body (s.writeWord b n k v) = body s := by
  unfold State.writeWord; split <;> simp

@[simp] theorem body_evalLine (s : State) : body (evalLine s) = body s := rfl

@[simp] theorem body_evalStop (s : State) : body (evalStop s) = body s := rfl

@[simp] theorem body_evalReports (s : State) : body (evalReports s) = body s := rfl

@[simp] theorem body_readLevels (s : State) : body (readLevels s) = body s := by
  unfold readLevels; rw [body_evalReports]; exact (body_write16 _ _ _).trans (body_write16 _ _ _)

@[simp] theorem body_setMissed (m : BitVec 64) (s : State) : body (setMissed m s) = body s := by
  unfold setMissed; rw [body_write32, body_write32]; rfl

@[simp] theorem body_writeEntry (k : ReportKind) (x v1 v2 : Nat) (s : State) :
    body (writeEntry k x v1 v2 s) = body s := by
  unfold writeEntry
  simp only [body_evalReports, body_write16]
  exact (body_write32 _ _ _).trans ((body_write32 _ _ _).trans ((body_write32 _ _ _).trans (body_write32 _ _ _)))

@[simp] theorem body_report (k : ReportKind) (x v1 v2 : Nat) (s : State) : body (report k x v1 v2 s) = body s := by
  unfold report
  dsimp only
  repeat' split
  all_goals simp

@[simp] theorem body_mirrorSection (n : Nat) (s : State) : body (mirrorSection n s) = body s := by
  unfold mirrorSection; split
  · rfl
  · split <;> simp

@[simp] theorem body_mirrorHead (n : Nat) (s : State) : body (mirrorHead n s) = body s := by
  unfold mirrorHead; split <;> simp

theorem body_eachDo (l : List Nat) (f : Nat → State → State) (s : State) (h : ∀ n t, body (f n t) = body t) :
    body (eachDo l f s) = body s := by
  unfold eachDo
  induction l generalizing s with
  | nil => rfl
  | cons n l ih => rw [List.foldl_cons, ih, h]

@[simp] theorem body_mirrorTag (n : Nat) (s : State) : body (mirrorTag n s) = body s := by
  unfold mirrorTag; simp

@[simp] theorem body_mirrorActive (n : Nat) (s : State) : body (mirrorActive n s) = body s := by
  unfold mirrorActive; simp

@[simp] theorem body_mirrorStackFrom (n k : Nat) (s : State) : body (mirrorStackFrom n k s) = body s := by
  induction n generalizing k s with
  | zero => rfl
  | succ n ih => unfold mirrorStackFrom; simp [ih]

@[simp] theorem body_mirrorStack (s : State) : body (mirrorStack s) = body s := by unfold mirrorStack; simp

@[simp] theorem body_mirrorPointNow (n : Nat) (s : State) : body (mirrorPointNow n s) = body s := by
  unfold mirrorPointNow; split <;> simp

@[simp] theorem body_mirrorPoint (n : Nat) (s : State) : body (mirrorPoint n s) = body s := by
  unfold mirrorPoint; split <;> simp

@[simp] theorem body_mirrorSignalNow (n : Nat) (s : State) : body (mirrorSignalNow n s) = body s := by
  unfold mirrorSignalNow; split <;> simp

@[simp] theorem body_mirrorSignal (n : Nat) (s : State) : body (mirrorSignal n s) = body s := by
  unfold mirrorSignal; split <;> simp

@[simp] theorem body_writeTable (w : Nat → Nat) (s : State) : body (writeTable w s) = body s := by
  unfold writeTable; exact body_eachDo _ _ _ fun n t => by simp

@[simp] theorem body_mirrorTable (s : State) : body (mirrorTable s) = body s := by
  unfold mirrorTable; split <;> simp

@[simp] theorem body_mirrorVisitorWord (k : Nat) (s : State) : body (mirrorVisitorWord k s) = body s := by
  unfold mirrorVisitorWord; simp

@[simp] theorem body_mirrorVisitor (s : State) : body (mirrorVisitor s) = body s := by
  unfold mirrorVisitor; exact body_eachDo _ _ _ body_mirrorVisitorWord

@[simp] theorem body_mirrorLampWord (k : Nat) (s : State) : body (mirrorLampWord k s) = body s := by
  unfold mirrorLampWord; simp

@[simp] theorem body_mirrorLamps (n : Nat) (s : State) : body (mirrorLamps n s) = body s := by
  induction n with
  | zero => rfl
  | succ n ih => unfold mirrorLamps; simp [ih]

@[simp] theorem body_settleVisitorWord (b : State) (k : Nat) (s : State) : body (settleVisitorWord b k s) = body s := by
  unfold settleVisitorWord; split <;> simp

/-- A slot's completion changes, of the body, only the in-hand marks. -/
theorem body_complete (n : Nat) (r : Result) (w0 w1 : Nat) (s : State) :
    body (complete n r w0 w1 s)
      = { body s with exch := { (body s).exch with inHand := (complete n r w0 w1 s).exch.inHand } } := by
  unfold complete
  split
  · rfl
  · rename_i tag _
    rw [body_evalLine]
    generalize hv : (((s.write16 (slotAt n + 6) r.code).write32 (slotAt n + 0x18) w0).write32 (slotAt n + 0x1C) w1) = u
    have hu : body u = body s := by subst hv; simp
    have hv : body ((u.write16 (slotAt n + 4) tag.toNat).write16 (slotAt n) 3) = body s := by simp [hu]
    have h : ∀ (x y : State) (i : Tbl HostTag), body x = body y →
        body { x with exch := { x.exch with inHand := i, done := true } }
          = { body y with exch := { (body y).exch with inHand := i } } := by
      intro x y i hxy; rw [← hxy]; rfl
    exact h _ s _ hv

theorem occ_of_body {s t : State} (h : body s = body t) : s.occ = t.occ := by
  have g := congrArg State.occ h; exact g

theorem tags_of_body {s t : State} (h : body s = body t) : s.tags = t.tags := by
  have g := congrArg State.tags h; exact g

theorem ilk_of_body {s t : State} (h : body s = body t) : s.ilk = t.ilk := by
  have g := congrArg State.ilk h; exact g

theorem pts_of_body {s t : State} (h : body s = body t) : s.pts = t.pts := by
  have g := congrArg State.pts h; exact g

theorem asp_of_body {s t : State} (h : body s = body t) : s.asp = t.asp := by
  have g := congrArg State.asp h; exact g

theorem tt_of_body {s t : State} (h : body s = body t) : s.tt = t.tt := by
  have g := congrArg State.tt h; exact g

theorem vis_of_body {s t : State} (h : body s = body t) : s.vis = t.vis := by
  have g := congrArg State.vis h; exact g

theorem disp_of_body {s t : State} (h : body s = body t) : s.disp = t.disp := by
  have g := congrArg State.disp h; exact g

theorem clock_of_body {s t : State} (h : body s = body t) : s.clock = t.clock := by
  have g := congrArg State.clock h; exact g

theorem free_of_body {s t : State} (h : body s = body t) : s.free = t.free := by
  have g := congrArg State.free h; exact g

theorem work_of_body {s t : State} (h : body s = body t) : s.work = t.work := by
  have g := congrArg State.work h; exact g

theorem pending_of_body {s t : State} (h : body s = body t) : s.pending = t.pending := by
  have g := congrArg State.pending h; exact g

theorem latchVal_of_body {s t : State} (h : body s = body t) : s.exch.latchVal = t.exch.latchVal := by
  have g := congrArg (fun u : State => u.exch.latchVal) h; exact g

theorem latchOff_of_body {s t : State} (h : body s = body t) : s.exch.latchOff = t.exch.latchOff := by
  have g := congrArg (fun u : State => u.exch.latchOff) h; exact g

theorem paired_of_body {s t : State} (h : body s = body t) : s.exch.paired = t.exch.paired := by
  have g := congrArg (fun u : State => u.exch.paired) h; exact g

theorem bus_of_body {s t : State} (h : body s = body t) : s.exch.bus = t.exch.bus := by
  have g := congrArg (fun u : State => u.exch.bus) h; exact g

theorem inHand_of_body {s t : State} (h : body s = body t) : s.exch.inHand = t.exch.inHand := by
  have g := congrArg (fun u : State => u.exch.inHand) h; exact g

theorem reading_of_body {s t : State} (h : body s = body t) : s.exch.reading = t.exch.reading := by
  have g := congrArg (fun u : State => u.exch.reading) h; exact g

theorem loads_of_body {s t : State} (h : body s = body t) : s.exch.loads = t.exch.loads := by
  have g := congrArg (fun u : State => u.exch.loads) h; exact g

theorem takePos_of_body {s t : State} (h : body s = body t) : s.exch.takePos = t.exch.takePos := by
  have g := congrArg (fun u : State => u.exch.takePos) h; exact g

theorem pollTimer_of_body {s t : State} (h : body s = body t) : s.exch.pollTimer = t.exch.pollTimer := by
  have g := congrArg (fun u : State => u.exch.pollTimer) h; exact g

theorem runState_of_body {s t : State} (h : body s = body t) : s.exch.runState = t.exch.runState := by
  have g := congrArg (fun u : State => u.exch.runState) h; exact g

theorem profile_of_body {s t : State} (h : body s = body t) : s.exch.profile = t.exch.profile := by
  have g := congrArg (fun u : State => u.exch.profile) h; exact g

/-! ## State.withMem -/

@[simp] theorem State.withMem_occ (s : State) (m : List Host.Cell) :
    (s.withMem m).occ = s.occ := occ_of_body (body_withMem s m)

@[simp] theorem State.withMem_tags (s : State) (m : List Host.Cell) :
    (s.withMem m).tags = s.tags := tags_of_body (body_withMem s m)

@[simp] theorem State.withMem_ilk (s : State) (m : List Host.Cell) :
    (s.withMem m).ilk = s.ilk := ilk_of_body (body_withMem s m)

@[simp] theorem State.withMem_pts (s : State) (m : List Host.Cell) :
    (s.withMem m).pts = s.pts := pts_of_body (body_withMem s m)

@[simp] theorem State.withMem_asp (s : State) (m : List Host.Cell) :
    (s.withMem m).asp = s.asp := asp_of_body (body_withMem s m)

@[simp] theorem State.withMem_tt (s : State) (m : List Host.Cell) :
    (s.withMem m).tt = s.tt := tt_of_body (body_withMem s m)

@[simp] theorem State.withMem_vis (s : State) (m : List Host.Cell) :
    (s.withMem m).vis = s.vis := vis_of_body (body_withMem s m)

@[simp] theorem State.withMem_disp (s : State) (m : List Host.Cell) :
    (s.withMem m).disp = s.disp := disp_of_body (body_withMem s m)

@[simp] theorem State.withMem_clock (s : State) (m : List Host.Cell) :
    (s.withMem m).clock = s.clock := clock_of_body (body_withMem s m)

@[simp] theorem State.withMem_free (s : State) (m : List Host.Cell) :
    (s.withMem m).free = s.free := free_of_body (body_withMem s m)

@[simp] theorem State.withMem_work (s : State) (m : List Host.Cell) :
    (s.withMem m).work = s.work := work_of_body (body_withMem s m)

@[simp] theorem State.withMem_pending (s : State) (m : List Host.Cell) :
    (s.withMem m).pending = s.pending := pending_of_body (body_withMem s m)

@[simp] theorem State.withMem_latchVal (s : State) (m : List Host.Cell) :
    (s.withMem m).exch.latchVal = s.exch.latchVal := latchVal_of_body (body_withMem s m)

@[simp] theorem State.withMem_latchOff (s : State) (m : List Host.Cell) :
    (s.withMem m).exch.latchOff = s.exch.latchOff := latchOff_of_body (body_withMem s m)

@[simp] theorem State.withMem_paired (s : State) (m : List Host.Cell) :
    (s.withMem m).exch.paired = s.exch.paired := paired_of_body (body_withMem s m)

@[simp] theorem State.withMem_bus (s : State) (m : List Host.Cell) :
    (s.withMem m).exch.bus = s.exch.bus := bus_of_body (body_withMem s m)

@[simp] theorem State.withMem_inHand (s : State) (m : List Host.Cell) :
    (s.withMem m).exch.inHand = s.exch.inHand := inHand_of_body (body_withMem s m)

@[simp] theorem State.withMem_reading (s : State) (m : List Host.Cell) :
    (s.withMem m).exch.reading = s.exch.reading := reading_of_body (body_withMem s m)

@[simp] theorem State.withMem_loads (s : State) (m : List Host.Cell) :
    (s.withMem m).exch.loads = s.exch.loads := loads_of_body (body_withMem s m)

@[simp] theorem State.withMem_takePos (s : State) (m : List Host.Cell) :
    (s.withMem m).exch.takePos = s.exch.takePos := takePos_of_body (body_withMem s m)

@[simp] theorem State.withMem_pollTimer (s : State) (m : List Host.Cell) :
    (s.withMem m).exch.pollTimer = s.exch.pollTimer := pollTimer_of_body (body_withMem s m)

@[simp] theorem State.withMem_runState (s : State) (m : List Host.Cell) :
    (s.withMem m).exch.runState = s.exch.runState := runState_of_body (body_withMem s m)

@[simp] theorem State.withMem_profile (s : State) (m : List Host.Cell) :
    (s.withMem m).exch.profile = s.exch.profile := profile_of_body (body_withMem s m)

/-! ## State.write8 -/

@[simp] theorem State.write8_occ (a v : Nat) (s : State) :
    (s.write8 a v).occ = s.occ := occ_of_body (body_write8 a v s)

@[simp] theorem State.write8_tags (a v : Nat) (s : State) :
    (s.write8 a v).tags = s.tags := tags_of_body (body_write8 a v s)

@[simp] theorem State.write8_ilk (a v : Nat) (s : State) :
    (s.write8 a v).ilk = s.ilk := ilk_of_body (body_write8 a v s)

@[simp] theorem State.write8_pts (a v : Nat) (s : State) :
    (s.write8 a v).pts = s.pts := pts_of_body (body_write8 a v s)

@[simp] theorem State.write8_asp (a v : Nat) (s : State) :
    (s.write8 a v).asp = s.asp := asp_of_body (body_write8 a v s)

@[simp] theorem State.write8_tt (a v : Nat) (s : State) :
    (s.write8 a v).tt = s.tt := tt_of_body (body_write8 a v s)

@[simp] theorem State.write8_vis (a v : Nat) (s : State) :
    (s.write8 a v).vis = s.vis := vis_of_body (body_write8 a v s)

@[simp] theorem State.write8_disp (a v : Nat) (s : State) :
    (s.write8 a v).disp = s.disp := disp_of_body (body_write8 a v s)

@[simp] theorem State.write8_clock (a v : Nat) (s : State) :
    (s.write8 a v).clock = s.clock := clock_of_body (body_write8 a v s)

@[simp] theorem State.write8_free (a v : Nat) (s : State) :
    (s.write8 a v).free = s.free := free_of_body (body_write8 a v s)

@[simp] theorem State.write8_work (a v : Nat) (s : State) :
    (s.write8 a v).work = s.work := work_of_body (body_write8 a v s)

@[simp] theorem State.write8_pending (a v : Nat) (s : State) :
    (s.write8 a v).pending = s.pending := pending_of_body (body_write8 a v s)

@[simp] theorem State.write8_latchVal (a v : Nat) (s : State) :
    (s.write8 a v).exch.latchVal = s.exch.latchVal := latchVal_of_body (body_write8 a v s)

@[simp] theorem State.write8_latchOff (a v : Nat) (s : State) :
    (s.write8 a v).exch.latchOff = s.exch.latchOff := latchOff_of_body (body_write8 a v s)

@[simp] theorem State.write8_paired (a v : Nat) (s : State) :
    (s.write8 a v).exch.paired = s.exch.paired := paired_of_body (body_write8 a v s)

@[simp] theorem State.write8_bus (a v : Nat) (s : State) :
    (s.write8 a v).exch.bus = s.exch.bus := bus_of_body (body_write8 a v s)

@[simp] theorem State.write8_inHand (a v : Nat) (s : State) :
    (s.write8 a v).exch.inHand = s.exch.inHand := inHand_of_body (body_write8 a v s)

@[simp] theorem State.write8_reading (a v : Nat) (s : State) :
    (s.write8 a v).exch.reading = s.exch.reading := reading_of_body (body_write8 a v s)

@[simp] theorem State.write8_loads (a v : Nat) (s : State) :
    (s.write8 a v).exch.loads = s.exch.loads := loads_of_body (body_write8 a v s)

@[simp] theorem State.write8_takePos (a v : Nat) (s : State) :
    (s.write8 a v).exch.takePos = s.exch.takePos := takePos_of_body (body_write8 a v s)

@[simp] theorem State.write8_pollTimer (a v : Nat) (s : State) :
    (s.write8 a v).exch.pollTimer = s.exch.pollTimer := pollTimer_of_body (body_write8 a v s)

@[simp] theorem State.write8_runState (a v : Nat) (s : State) :
    (s.write8 a v).exch.runState = s.exch.runState := runState_of_body (body_write8 a v s)

@[simp] theorem State.write8_profile (a v : Nat) (s : State) :
    (s.write8 a v).exch.profile = s.exch.profile := profile_of_body (body_write8 a v s)

/-! ## State.write16 -/

@[simp] theorem State.write16_occ (a v : Nat) (s : State) :
    (s.write16 a v).occ = s.occ := occ_of_body (body_write16 a v s)

@[simp] theorem State.write16_tags (a v : Nat) (s : State) :
    (s.write16 a v).tags = s.tags := tags_of_body (body_write16 a v s)

@[simp] theorem State.write16_ilk (a v : Nat) (s : State) :
    (s.write16 a v).ilk = s.ilk := ilk_of_body (body_write16 a v s)

@[simp] theorem State.write16_pts (a v : Nat) (s : State) :
    (s.write16 a v).pts = s.pts := pts_of_body (body_write16 a v s)

@[simp] theorem State.write16_asp (a v : Nat) (s : State) :
    (s.write16 a v).asp = s.asp := asp_of_body (body_write16 a v s)

@[simp] theorem State.write16_tt (a v : Nat) (s : State) :
    (s.write16 a v).tt = s.tt := tt_of_body (body_write16 a v s)

@[simp] theorem State.write16_vis (a v : Nat) (s : State) :
    (s.write16 a v).vis = s.vis := vis_of_body (body_write16 a v s)

@[simp] theorem State.write16_disp (a v : Nat) (s : State) :
    (s.write16 a v).disp = s.disp := disp_of_body (body_write16 a v s)

@[simp] theorem State.write16_clock (a v : Nat) (s : State) :
    (s.write16 a v).clock = s.clock := clock_of_body (body_write16 a v s)

@[simp] theorem State.write16_free (a v : Nat) (s : State) :
    (s.write16 a v).free = s.free := free_of_body (body_write16 a v s)

@[simp] theorem State.write16_work (a v : Nat) (s : State) :
    (s.write16 a v).work = s.work := work_of_body (body_write16 a v s)

@[simp] theorem State.write16_pending (a v : Nat) (s : State) :
    (s.write16 a v).pending = s.pending := pending_of_body (body_write16 a v s)

@[simp] theorem State.write16_latchVal (a v : Nat) (s : State) :
    (s.write16 a v).exch.latchVal = s.exch.latchVal := latchVal_of_body (body_write16 a v s)

@[simp] theorem State.write16_latchOff (a v : Nat) (s : State) :
    (s.write16 a v).exch.latchOff = s.exch.latchOff := latchOff_of_body (body_write16 a v s)

@[simp] theorem State.write16_paired (a v : Nat) (s : State) :
    (s.write16 a v).exch.paired = s.exch.paired := paired_of_body (body_write16 a v s)

@[simp] theorem State.write16_bus (a v : Nat) (s : State) :
    (s.write16 a v).exch.bus = s.exch.bus := bus_of_body (body_write16 a v s)

@[simp] theorem State.write16_inHand (a v : Nat) (s : State) :
    (s.write16 a v).exch.inHand = s.exch.inHand := inHand_of_body (body_write16 a v s)

@[simp] theorem State.write16_reading (a v : Nat) (s : State) :
    (s.write16 a v).exch.reading = s.exch.reading := reading_of_body (body_write16 a v s)

@[simp] theorem State.write16_loads (a v : Nat) (s : State) :
    (s.write16 a v).exch.loads = s.exch.loads := loads_of_body (body_write16 a v s)

@[simp] theorem State.write16_takePos (a v : Nat) (s : State) :
    (s.write16 a v).exch.takePos = s.exch.takePos := takePos_of_body (body_write16 a v s)

@[simp] theorem State.write16_pollTimer (a v : Nat) (s : State) :
    (s.write16 a v).exch.pollTimer = s.exch.pollTimer := pollTimer_of_body (body_write16 a v s)

@[simp] theorem State.write16_runState (a v : Nat) (s : State) :
    (s.write16 a v).exch.runState = s.exch.runState := runState_of_body (body_write16 a v s)

@[simp] theorem State.write16_profile (a v : Nat) (s : State) :
    (s.write16 a v).exch.profile = s.exch.profile := profile_of_body (body_write16 a v s)

/-! ## State.write32 -/

@[simp] theorem State.write32_occ (a v : Nat) (s : State) :
    (s.write32 a v).occ = s.occ := occ_of_body (body_write32 a v s)

@[simp] theorem State.write32_tags (a v : Nat) (s : State) :
    (s.write32 a v).tags = s.tags := tags_of_body (body_write32 a v s)

@[simp] theorem State.write32_ilk (a v : Nat) (s : State) :
    (s.write32 a v).ilk = s.ilk := ilk_of_body (body_write32 a v s)

@[simp] theorem State.write32_pts (a v : Nat) (s : State) :
    (s.write32 a v).pts = s.pts := pts_of_body (body_write32 a v s)

@[simp] theorem State.write32_asp (a v : Nat) (s : State) :
    (s.write32 a v).asp = s.asp := asp_of_body (body_write32 a v s)

@[simp] theorem State.write32_tt (a v : Nat) (s : State) :
    (s.write32 a v).tt = s.tt := tt_of_body (body_write32 a v s)

@[simp] theorem State.write32_vis (a v : Nat) (s : State) :
    (s.write32 a v).vis = s.vis := vis_of_body (body_write32 a v s)

@[simp] theorem State.write32_disp (a v : Nat) (s : State) :
    (s.write32 a v).disp = s.disp := disp_of_body (body_write32 a v s)

@[simp] theorem State.write32_clock (a v : Nat) (s : State) :
    (s.write32 a v).clock = s.clock := clock_of_body (body_write32 a v s)

@[simp] theorem State.write32_free (a v : Nat) (s : State) :
    (s.write32 a v).free = s.free := free_of_body (body_write32 a v s)

@[simp] theorem State.write32_work (a v : Nat) (s : State) :
    (s.write32 a v).work = s.work := work_of_body (body_write32 a v s)

@[simp] theorem State.write32_pending (a v : Nat) (s : State) :
    (s.write32 a v).pending = s.pending := pending_of_body (body_write32 a v s)

@[simp] theorem State.write32_latchVal (a v : Nat) (s : State) :
    (s.write32 a v).exch.latchVal = s.exch.latchVal := latchVal_of_body (body_write32 a v s)

@[simp] theorem State.write32_latchOff (a v : Nat) (s : State) :
    (s.write32 a v).exch.latchOff = s.exch.latchOff := latchOff_of_body (body_write32 a v s)

@[simp] theorem State.write32_paired (a v : Nat) (s : State) :
    (s.write32 a v).exch.paired = s.exch.paired := paired_of_body (body_write32 a v s)

@[simp] theorem State.write32_bus (a v : Nat) (s : State) :
    (s.write32 a v).exch.bus = s.exch.bus := bus_of_body (body_write32 a v s)

@[simp] theorem State.write32_inHand (a v : Nat) (s : State) :
    (s.write32 a v).exch.inHand = s.exch.inHand := inHand_of_body (body_write32 a v s)

@[simp] theorem State.write32_reading (a v : Nat) (s : State) :
    (s.write32 a v).exch.reading = s.exch.reading := reading_of_body (body_write32 a v s)

@[simp] theorem State.write32_loads (a v : Nat) (s : State) :
    (s.write32 a v).exch.loads = s.exch.loads := loads_of_body (body_write32 a v s)

@[simp] theorem State.write32_takePos (a v : Nat) (s : State) :
    (s.write32 a v).exch.takePos = s.exch.takePos := takePos_of_body (body_write32 a v s)

@[simp] theorem State.write32_pollTimer (a v : Nat) (s : State) :
    (s.write32 a v).exch.pollTimer = s.exch.pollTimer := pollTimer_of_body (body_write32 a v s)

@[simp] theorem State.write32_runState (a v : Nat) (s : State) :
    (s.write32 a v).exch.runState = s.exch.runState := runState_of_body (body_write32 a v s)

@[simp] theorem State.write32_profile (a v : Nat) (s : State) :
    (s.write32 a v).exch.profile = s.exch.profile := profile_of_body (body_write32 a v s)

/-! ## State.writeWord -/

@[simp] theorem State.writeWord_occ (b n k v : Nat) (s : State) :
    (s.writeWord b n k v).occ = s.occ := occ_of_body (body_writeWord b n k v s)

@[simp] theorem State.writeWord_tags (b n k v : Nat) (s : State) :
    (s.writeWord b n k v).tags = s.tags := tags_of_body (body_writeWord b n k v s)

@[simp] theorem State.writeWord_ilk (b n k v : Nat) (s : State) :
    (s.writeWord b n k v).ilk = s.ilk := ilk_of_body (body_writeWord b n k v s)

@[simp] theorem State.writeWord_pts (b n k v : Nat) (s : State) :
    (s.writeWord b n k v).pts = s.pts := pts_of_body (body_writeWord b n k v s)

@[simp] theorem State.writeWord_asp (b n k v : Nat) (s : State) :
    (s.writeWord b n k v).asp = s.asp := asp_of_body (body_writeWord b n k v s)

@[simp] theorem State.writeWord_tt (b n k v : Nat) (s : State) :
    (s.writeWord b n k v).tt = s.tt := tt_of_body (body_writeWord b n k v s)

@[simp] theorem State.writeWord_vis (b n k v : Nat) (s : State) :
    (s.writeWord b n k v).vis = s.vis := vis_of_body (body_writeWord b n k v s)

@[simp] theorem State.writeWord_disp (b n k v : Nat) (s : State) :
    (s.writeWord b n k v).disp = s.disp := disp_of_body (body_writeWord b n k v s)

@[simp] theorem State.writeWord_clock (b n k v : Nat) (s : State) :
    (s.writeWord b n k v).clock = s.clock := clock_of_body (body_writeWord b n k v s)

@[simp] theorem State.writeWord_free (b n k v : Nat) (s : State) :
    (s.writeWord b n k v).free = s.free := free_of_body (body_writeWord b n k v s)

@[simp] theorem State.writeWord_work (b n k v : Nat) (s : State) :
    (s.writeWord b n k v).work = s.work := work_of_body (body_writeWord b n k v s)

@[simp] theorem State.writeWord_pending (b n k v : Nat) (s : State) :
    (s.writeWord b n k v).pending = s.pending := pending_of_body (body_writeWord b n k v s)

@[simp] theorem State.writeWord_latchVal (b n k v : Nat) (s : State) :
    (s.writeWord b n k v).exch.latchVal = s.exch.latchVal := latchVal_of_body (body_writeWord b n k v s)

@[simp] theorem State.writeWord_latchOff (b n k v : Nat) (s : State) :
    (s.writeWord b n k v).exch.latchOff = s.exch.latchOff := latchOff_of_body (body_writeWord b n k v s)

@[simp] theorem State.writeWord_paired (b n k v : Nat) (s : State) :
    (s.writeWord b n k v).exch.paired = s.exch.paired := paired_of_body (body_writeWord b n k v s)

@[simp] theorem State.writeWord_bus (b n k v : Nat) (s : State) :
    (s.writeWord b n k v).exch.bus = s.exch.bus := bus_of_body (body_writeWord b n k v s)

@[simp] theorem State.writeWord_inHand (b n k v : Nat) (s : State) :
    (s.writeWord b n k v).exch.inHand = s.exch.inHand := inHand_of_body (body_writeWord b n k v s)

@[simp] theorem State.writeWord_reading (b n k v : Nat) (s : State) :
    (s.writeWord b n k v).exch.reading = s.exch.reading := reading_of_body (body_writeWord b n k v s)

@[simp] theorem State.writeWord_loads (b n k v : Nat) (s : State) :
    (s.writeWord b n k v).exch.loads = s.exch.loads := loads_of_body (body_writeWord b n k v s)

@[simp] theorem State.writeWord_takePos (b n k v : Nat) (s : State) :
    (s.writeWord b n k v).exch.takePos = s.exch.takePos := takePos_of_body (body_writeWord b n k v s)

@[simp] theorem State.writeWord_pollTimer (b n k v : Nat) (s : State) :
    (s.writeWord b n k v).exch.pollTimer = s.exch.pollTimer := pollTimer_of_body (body_writeWord b n k v s)

@[simp] theorem State.writeWord_runState (b n k v : Nat) (s : State) :
    (s.writeWord b n k v).exch.runState = s.exch.runState := runState_of_body (body_writeWord b n k v s)

@[simp] theorem State.writeWord_profile (b n k v : Nat) (s : State) :
    (s.writeWord b n k v).exch.profile = s.exch.profile := profile_of_body (body_writeWord b n k v s)

/-! ## evalLine -/

@[simp] theorem evalLine_occ (s : State) :
    (evalLine s).occ = s.occ := occ_of_body (body_evalLine s)

@[simp] theorem evalLine_tags (s : State) :
    (evalLine s).tags = s.tags := tags_of_body (body_evalLine s)

@[simp] theorem evalLine_ilk (s : State) :
    (evalLine s).ilk = s.ilk := ilk_of_body (body_evalLine s)

@[simp] theorem evalLine_pts (s : State) :
    (evalLine s).pts = s.pts := pts_of_body (body_evalLine s)

@[simp] theorem evalLine_asp (s : State) :
    (evalLine s).asp = s.asp := asp_of_body (body_evalLine s)

@[simp] theorem evalLine_tt (s : State) :
    (evalLine s).tt = s.tt := tt_of_body (body_evalLine s)

@[simp] theorem evalLine_vis (s : State) :
    (evalLine s).vis = s.vis := vis_of_body (body_evalLine s)

@[simp] theorem evalLine_disp (s : State) :
    (evalLine s).disp = s.disp := disp_of_body (body_evalLine s)

@[simp] theorem evalLine_clock (s : State) :
    (evalLine s).clock = s.clock := clock_of_body (body_evalLine s)

@[simp] theorem evalLine_free (s : State) :
    (evalLine s).free = s.free := free_of_body (body_evalLine s)

@[simp] theorem evalLine_work (s : State) :
    (evalLine s).work = s.work := work_of_body (body_evalLine s)

@[simp] theorem evalLine_pending (s : State) :
    (evalLine s).pending = s.pending := pending_of_body (body_evalLine s)

@[simp] theorem evalLine_latchVal (s : State) :
    (evalLine s).exch.latchVal = s.exch.latchVal := latchVal_of_body (body_evalLine s)

@[simp] theorem evalLine_latchOff (s : State) :
    (evalLine s).exch.latchOff = s.exch.latchOff := latchOff_of_body (body_evalLine s)

@[simp] theorem evalLine_paired (s : State) :
    (evalLine s).exch.paired = s.exch.paired := paired_of_body (body_evalLine s)

@[simp] theorem evalLine_bus (s : State) :
    (evalLine s).exch.bus = s.exch.bus := bus_of_body (body_evalLine s)

@[simp] theorem evalLine_inHand (s : State) :
    (evalLine s).exch.inHand = s.exch.inHand := inHand_of_body (body_evalLine s)

@[simp] theorem evalLine_reading (s : State) :
    (evalLine s).exch.reading = s.exch.reading := reading_of_body (body_evalLine s)

@[simp] theorem evalLine_loads (s : State) :
    (evalLine s).exch.loads = s.exch.loads := loads_of_body (body_evalLine s)

@[simp] theorem evalLine_takePos (s : State) :
    (evalLine s).exch.takePos = s.exch.takePos := takePos_of_body (body_evalLine s)

@[simp] theorem evalLine_pollTimer (s : State) :
    (evalLine s).exch.pollTimer = s.exch.pollTimer := pollTimer_of_body (body_evalLine s)

@[simp] theorem evalLine_runState (s : State) :
    (evalLine s).exch.runState = s.exch.runState := runState_of_body (body_evalLine s)

@[simp] theorem evalLine_profile (s : State) :
    (evalLine s).exch.profile = s.exch.profile := profile_of_body (body_evalLine s)

/-! ## evalStop -/

@[simp] theorem evalStop_occ (s : State) :
    (evalStop s).occ = s.occ := occ_of_body (body_evalStop s)

@[simp] theorem evalStop_tags (s : State) :
    (evalStop s).tags = s.tags := tags_of_body (body_evalStop s)

@[simp] theorem evalStop_ilk (s : State) :
    (evalStop s).ilk = s.ilk := ilk_of_body (body_evalStop s)

@[simp] theorem evalStop_pts (s : State) :
    (evalStop s).pts = s.pts := pts_of_body (body_evalStop s)

@[simp] theorem evalStop_asp (s : State) :
    (evalStop s).asp = s.asp := asp_of_body (body_evalStop s)

@[simp] theorem evalStop_tt (s : State) :
    (evalStop s).tt = s.tt := tt_of_body (body_evalStop s)

@[simp] theorem evalStop_vis (s : State) :
    (evalStop s).vis = s.vis := vis_of_body (body_evalStop s)

@[simp] theorem evalStop_disp (s : State) :
    (evalStop s).disp = s.disp := disp_of_body (body_evalStop s)

@[simp] theorem evalStop_clock (s : State) :
    (evalStop s).clock = s.clock := clock_of_body (body_evalStop s)

@[simp] theorem evalStop_free (s : State) :
    (evalStop s).free = s.free := free_of_body (body_evalStop s)

@[simp] theorem evalStop_work (s : State) :
    (evalStop s).work = s.work := work_of_body (body_evalStop s)

@[simp] theorem evalStop_pending (s : State) :
    (evalStop s).pending = s.pending := pending_of_body (body_evalStop s)

@[simp] theorem evalStop_latchVal (s : State) :
    (evalStop s).exch.latchVal = s.exch.latchVal := latchVal_of_body (body_evalStop s)

@[simp] theorem evalStop_latchOff (s : State) :
    (evalStop s).exch.latchOff = s.exch.latchOff := latchOff_of_body (body_evalStop s)

@[simp] theorem evalStop_paired (s : State) :
    (evalStop s).exch.paired = s.exch.paired := paired_of_body (body_evalStop s)

@[simp] theorem evalStop_bus (s : State) :
    (evalStop s).exch.bus = s.exch.bus := bus_of_body (body_evalStop s)

@[simp] theorem evalStop_inHand (s : State) :
    (evalStop s).exch.inHand = s.exch.inHand := inHand_of_body (body_evalStop s)

@[simp] theorem evalStop_reading (s : State) :
    (evalStop s).exch.reading = s.exch.reading := reading_of_body (body_evalStop s)

@[simp] theorem evalStop_loads (s : State) :
    (evalStop s).exch.loads = s.exch.loads := loads_of_body (body_evalStop s)

@[simp] theorem evalStop_takePos (s : State) :
    (evalStop s).exch.takePos = s.exch.takePos := takePos_of_body (body_evalStop s)

@[simp] theorem evalStop_pollTimer (s : State) :
    (evalStop s).exch.pollTimer = s.exch.pollTimer := pollTimer_of_body (body_evalStop s)

@[simp] theorem evalStop_runState (s : State) :
    (evalStop s).exch.runState = s.exch.runState := runState_of_body (body_evalStop s)

@[simp] theorem evalStop_profile (s : State) :
    (evalStop s).exch.profile = s.exch.profile := profile_of_body (body_evalStop s)

/-! ## readLevels -/

@[simp] theorem readLevels_occ (s : State) :
    (readLevels s).occ = s.occ := occ_of_body (body_readLevels s)

@[simp] theorem readLevels_tags (s : State) :
    (readLevels s).tags = s.tags := tags_of_body (body_readLevels s)

@[simp] theorem readLevels_ilk (s : State) :
    (readLevels s).ilk = s.ilk := ilk_of_body (body_readLevels s)

@[simp] theorem readLevels_pts (s : State) :
    (readLevels s).pts = s.pts := pts_of_body (body_readLevels s)

@[simp] theorem readLevels_asp (s : State) :
    (readLevels s).asp = s.asp := asp_of_body (body_readLevels s)

@[simp] theorem readLevels_tt (s : State) :
    (readLevels s).tt = s.tt := tt_of_body (body_readLevels s)

@[simp] theorem readLevels_vis (s : State) :
    (readLevels s).vis = s.vis := vis_of_body (body_readLevels s)

@[simp] theorem readLevels_disp (s : State) :
    (readLevels s).disp = s.disp := disp_of_body (body_readLevels s)

@[simp] theorem readLevels_clock (s : State) :
    (readLevels s).clock = s.clock := clock_of_body (body_readLevels s)

@[simp] theorem readLevels_free (s : State) :
    (readLevels s).free = s.free := free_of_body (body_readLevels s)

@[simp] theorem readLevels_work (s : State) :
    (readLevels s).work = s.work := work_of_body (body_readLevels s)

@[simp] theorem readLevels_pending (s : State) :
    (readLevels s).pending = s.pending := pending_of_body (body_readLevels s)

@[simp] theorem readLevels_latchVal (s : State) :
    (readLevels s).exch.latchVal = s.exch.latchVal := latchVal_of_body (body_readLevels s)

@[simp] theorem readLevels_latchOff (s : State) :
    (readLevels s).exch.latchOff = s.exch.latchOff := latchOff_of_body (body_readLevels s)

@[simp] theorem readLevels_paired (s : State) :
    (readLevels s).exch.paired = s.exch.paired := paired_of_body (body_readLevels s)

@[simp] theorem readLevels_bus (s : State) :
    (readLevels s).exch.bus = s.exch.bus := bus_of_body (body_readLevels s)

@[simp] theorem readLevels_inHand (s : State) :
    (readLevels s).exch.inHand = s.exch.inHand := inHand_of_body (body_readLevels s)

@[simp] theorem readLevels_reading (s : State) :
    (readLevels s).exch.reading = s.exch.reading := reading_of_body (body_readLevels s)

@[simp] theorem readLevels_loads (s : State) :
    (readLevels s).exch.loads = s.exch.loads := loads_of_body (body_readLevels s)

@[simp] theorem readLevels_takePos (s : State) :
    (readLevels s).exch.takePos = s.exch.takePos := takePos_of_body (body_readLevels s)

@[simp] theorem readLevels_pollTimer (s : State) :
    (readLevels s).exch.pollTimer = s.exch.pollTimer := pollTimer_of_body (body_readLevels s)

@[simp] theorem readLevels_runState (s : State) :
    (readLevels s).exch.runState = s.exch.runState := runState_of_body (body_readLevels s)

@[simp] theorem readLevels_profile (s : State) :
    (readLevels s).exch.profile = s.exch.profile := profile_of_body (body_readLevels s)

/-! ## setMissed -/

@[simp] theorem setMissed_occ (m : BitVec 64) (s : State) :
    (setMissed m s).occ = s.occ := occ_of_body (body_setMissed m s)

@[simp] theorem setMissed_tags (m : BitVec 64) (s : State) :
    (setMissed m s).tags = s.tags := tags_of_body (body_setMissed m s)

@[simp] theorem setMissed_ilk (m : BitVec 64) (s : State) :
    (setMissed m s).ilk = s.ilk := ilk_of_body (body_setMissed m s)

@[simp] theorem setMissed_pts (m : BitVec 64) (s : State) :
    (setMissed m s).pts = s.pts := pts_of_body (body_setMissed m s)

@[simp] theorem setMissed_asp (m : BitVec 64) (s : State) :
    (setMissed m s).asp = s.asp := asp_of_body (body_setMissed m s)

@[simp] theorem setMissed_tt (m : BitVec 64) (s : State) :
    (setMissed m s).tt = s.tt := tt_of_body (body_setMissed m s)

@[simp] theorem setMissed_vis (m : BitVec 64) (s : State) :
    (setMissed m s).vis = s.vis := vis_of_body (body_setMissed m s)

@[simp] theorem setMissed_disp (m : BitVec 64) (s : State) :
    (setMissed m s).disp = s.disp := disp_of_body (body_setMissed m s)

@[simp] theorem setMissed_clock (m : BitVec 64) (s : State) :
    (setMissed m s).clock = s.clock := clock_of_body (body_setMissed m s)

@[simp] theorem setMissed_free (m : BitVec 64) (s : State) :
    (setMissed m s).free = s.free := free_of_body (body_setMissed m s)

@[simp] theorem setMissed_work (m : BitVec 64) (s : State) :
    (setMissed m s).work = s.work := work_of_body (body_setMissed m s)

@[simp] theorem setMissed_pending (m : BitVec 64) (s : State) :
    (setMissed m s).pending = s.pending := pending_of_body (body_setMissed m s)

@[simp] theorem setMissed_latchVal (m : BitVec 64) (s : State) :
    (setMissed m s).exch.latchVal = s.exch.latchVal := latchVal_of_body (body_setMissed m s)

@[simp] theorem setMissed_latchOff (m : BitVec 64) (s : State) :
    (setMissed m s).exch.latchOff = s.exch.latchOff := latchOff_of_body (body_setMissed m s)

@[simp] theorem setMissed_paired (m : BitVec 64) (s : State) :
    (setMissed m s).exch.paired = s.exch.paired := paired_of_body (body_setMissed m s)

@[simp] theorem setMissed_bus (m : BitVec 64) (s : State) :
    (setMissed m s).exch.bus = s.exch.bus := bus_of_body (body_setMissed m s)

@[simp] theorem setMissed_inHand (m : BitVec 64) (s : State) :
    (setMissed m s).exch.inHand = s.exch.inHand := inHand_of_body (body_setMissed m s)

@[simp] theorem setMissed_reading (m : BitVec 64) (s : State) :
    (setMissed m s).exch.reading = s.exch.reading := reading_of_body (body_setMissed m s)

@[simp] theorem setMissed_loads (m : BitVec 64) (s : State) :
    (setMissed m s).exch.loads = s.exch.loads := loads_of_body (body_setMissed m s)

@[simp] theorem setMissed_takePos (m : BitVec 64) (s : State) :
    (setMissed m s).exch.takePos = s.exch.takePos := takePos_of_body (body_setMissed m s)

@[simp] theorem setMissed_pollTimer (m : BitVec 64) (s : State) :
    (setMissed m s).exch.pollTimer = s.exch.pollTimer := pollTimer_of_body (body_setMissed m s)

@[simp] theorem setMissed_runState (m : BitVec 64) (s : State) :
    (setMissed m s).exch.runState = s.exch.runState := runState_of_body (body_setMissed m s)

@[simp] theorem setMissed_profile (m : BitVec 64) (s : State) :
    (setMissed m s).exch.profile = s.exch.profile := profile_of_body (body_setMissed m s)

/-! ## writeEntry -/

@[simp] theorem writeEntry_occ (k : ReportKind) (x v1 v2 : Nat) (s : State) :
    (writeEntry k x v1 v2 s).occ = s.occ := occ_of_body (body_writeEntry k x v1 v2 s)

@[simp] theorem writeEntry_tags (k : ReportKind) (x v1 v2 : Nat) (s : State) :
    (writeEntry k x v1 v2 s).tags = s.tags := tags_of_body (body_writeEntry k x v1 v2 s)

@[simp] theorem writeEntry_ilk (k : ReportKind) (x v1 v2 : Nat) (s : State) :
    (writeEntry k x v1 v2 s).ilk = s.ilk := ilk_of_body (body_writeEntry k x v1 v2 s)

@[simp] theorem writeEntry_pts (k : ReportKind) (x v1 v2 : Nat) (s : State) :
    (writeEntry k x v1 v2 s).pts = s.pts := pts_of_body (body_writeEntry k x v1 v2 s)

@[simp] theorem writeEntry_asp (k : ReportKind) (x v1 v2 : Nat) (s : State) :
    (writeEntry k x v1 v2 s).asp = s.asp := asp_of_body (body_writeEntry k x v1 v2 s)

@[simp] theorem writeEntry_tt (k : ReportKind) (x v1 v2 : Nat) (s : State) :
    (writeEntry k x v1 v2 s).tt = s.tt := tt_of_body (body_writeEntry k x v1 v2 s)

@[simp] theorem writeEntry_vis (k : ReportKind) (x v1 v2 : Nat) (s : State) :
    (writeEntry k x v1 v2 s).vis = s.vis := vis_of_body (body_writeEntry k x v1 v2 s)

@[simp] theorem writeEntry_disp (k : ReportKind) (x v1 v2 : Nat) (s : State) :
    (writeEntry k x v1 v2 s).disp = s.disp := disp_of_body (body_writeEntry k x v1 v2 s)

@[simp] theorem writeEntry_clock (k : ReportKind) (x v1 v2 : Nat) (s : State) :
    (writeEntry k x v1 v2 s).clock = s.clock := clock_of_body (body_writeEntry k x v1 v2 s)

@[simp] theorem writeEntry_free (k : ReportKind) (x v1 v2 : Nat) (s : State) :
    (writeEntry k x v1 v2 s).free = s.free := free_of_body (body_writeEntry k x v1 v2 s)

@[simp] theorem writeEntry_work (k : ReportKind) (x v1 v2 : Nat) (s : State) :
    (writeEntry k x v1 v2 s).work = s.work := work_of_body (body_writeEntry k x v1 v2 s)

@[simp] theorem writeEntry_pending (k : ReportKind) (x v1 v2 : Nat) (s : State) :
    (writeEntry k x v1 v2 s).pending = s.pending := pending_of_body (body_writeEntry k x v1 v2 s)

@[simp] theorem writeEntry_latchVal (k : ReportKind) (x v1 v2 : Nat) (s : State) :
    (writeEntry k x v1 v2 s).exch.latchVal = s.exch.latchVal := latchVal_of_body (body_writeEntry k x v1 v2 s)

@[simp] theorem writeEntry_latchOff (k : ReportKind) (x v1 v2 : Nat) (s : State) :
    (writeEntry k x v1 v2 s).exch.latchOff = s.exch.latchOff := latchOff_of_body (body_writeEntry k x v1 v2 s)

@[simp] theorem writeEntry_paired (k : ReportKind) (x v1 v2 : Nat) (s : State) :
    (writeEntry k x v1 v2 s).exch.paired = s.exch.paired := paired_of_body (body_writeEntry k x v1 v2 s)

@[simp] theorem writeEntry_bus (k : ReportKind) (x v1 v2 : Nat) (s : State) :
    (writeEntry k x v1 v2 s).exch.bus = s.exch.bus := bus_of_body (body_writeEntry k x v1 v2 s)

@[simp] theorem writeEntry_inHand (k : ReportKind) (x v1 v2 : Nat) (s : State) :
    (writeEntry k x v1 v2 s).exch.inHand = s.exch.inHand := inHand_of_body (body_writeEntry k x v1 v2 s)

@[simp] theorem writeEntry_reading (k : ReportKind) (x v1 v2 : Nat) (s : State) :
    (writeEntry k x v1 v2 s).exch.reading = s.exch.reading := reading_of_body (body_writeEntry k x v1 v2 s)

@[simp] theorem writeEntry_loads (k : ReportKind) (x v1 v2 : Nat) (s : State) :
    (writeEntry k x v1 v2 s).exch.loads = s.exch.loads := loads_of_body (body_writeEntry k x v1 v2 s)

@[simp] theorem writeEntry_takePos (k : ReportKind) (x v1 v2 : Nat) (s : State) :
    (writeEntry k x v1 v2 s).exch.takePos = s.exch.takePos := takePos_of_body (body_writeEntry k x v1 v2 s)

@[simp] theorem writeEntry_pollTimer (k : ReportKind) (x v1 v2 : Nat) (s : State) :
    (writeEntry k x v1 v2 s).exch.pollTimer = s.exch.pollTimer := pollTimer_of_body (body_writeEntry k x v1 v2 s)

@[simp] theorem writeEntry_runState (k : ReportKind) (x v1 v2 : Nat) (s : State) :
    (writeEntry k x v1 v2 s).exch.runState = s.exch.runState := runState_of_body (body_writeEntry k x v1 v2 s)

@[simp] theorem writeEntry_profile (k : ReportKind) (x v1 v2 : Nat) (s : State) :
    (writeEntry k x v1 v2 s).exch.profile = s.exch.profile := profile_of_body (body_writeEntry k x v1 v2 s)

/-! ## report -/

@[simp] theorem report_occ (k : ReportKind) (x v1 v2 : Nat) (s : State) :
    (report k x v1 v2 s).occ = s.occ := occ_of_body (body_report k x v1 v2 s)

@[simp] theorem report_tags (k : ReportKind) (x v1 v2 : Nat) (s : State) :
    (report k x v1 v2 s).tags = s.tags := tags_of_body (body_report k x v1 v2 s)

@[simp] theorem report_ilk (k : ReportKind) (x v1 v2 : Nat) (s : State) :
    (report k x v1 v2 s).ilk = s.ilk := ilk_of_body (body_report k x v1 v2 s)

@[simp] theorem report_pts (k : ReportKind) (x v1 v2 : Nat) (s : State) :
    (report k x v1 v2 s).pts = s.pts := pts_of_body (body_report k x v1 v2 s)

@[simp] theorem report_asp (k : ReportKind) (x v1 v2 : Nat) (s : State) :
    (report k x v1 v2 s).asp = s.asp := asp_of_body (body_report k x v1 v2 s)

@[simp] theorem report_tt (k : ReportKind) (x v1 v2 : Nat) (s : State) :
    (report k x v1 v2 s).tt = s.tt := tt_of_body (body_report k x v1 v2 s)

@[simp] theorem report_vis (k : ReportKind) (x v1 v2 : Nat) (s : State) :
    (report k x v1 v2 s).vis = s.vis := vis_of_body (body_report k x v1 v2 s)

@[simp] theorem report_disp (k : ReportKind) (x v1 v2 : Nat) (s : State) :
    (report k x v1 v2 s).disp = s.disp := disp_of_body (body_report k x v1 v2 s)

@[simp] theorem report_clock (k : ReportKind) (x v1 v2 : Nat) (s : State) :
    (report k x v1 v2 s).clock = s.clock := clock_of_body (body_report k x v1 v2 s)

@[simp] theorem report_free (k : ReportKind) (x v1 v2 : Nat) (s : State) :
    (report k x v1 v2 s).free = s.free := free_of_body (body_report k x v1 v2 s)

@[simp] theorem report_work (k : ReportKind) (x v1 v2 : Nat) (s : State) :
    (report k x v1 v2 s).work = s.work := work_of_body (body_report k x v1 v2 s)

@[simp] theorem report_pending (k : ReportKind) (x v1 v2 : Nat) (s : State) :
    (report k x v1 v2 s).pending = s.pending := pending_of_body (body_report k x v1 v2 s)

@[simp] theorem report_latchVal (k : ReportKind) (x v1 v2 : Nat) (s : State) :
    (report k x v1 v2 s).exch.latchVal = s.exch.latchVal := latchVal_of_body (body_report k x v1 v2 s)

@[simp] theorem report_latchOff (k : ReportKind) (x v1 v2 : Nat) (s : State) :
    (report k x v1 v2 s).exch.latchOff = s.exch.latchOff := latchOff_of_body (body_report k x v1 v2 s)

@[simp] theorem report_paired (k : ReportKind) (x v1 v2 : Nat) (s : State) :
    (report k x v1 v2 s).exch.paired = s.exch.paired := paired_of_body (body_report k x v1 v2 s)

@[simp] theorem report_bus (k : ReportKind) (x v1 v2 : Nat) (s : State) :
    (report k x v1 v2 s).exch.bus = s.exch.bus := bus_of_body (body_report k x v1 v2 s)

@[simp] theorem report_inHand (k : ReportKind) (x v1 v2 : Nat) (s : State) :
    (report k x v1 v2 s).exch.inHand = s.exch.inHand := inHand_of_body (body_report k x v1 v2 s)

@[simp] theorem report_reading (k : ReportKind) (x v1 v2 : Nat) (s : State) :
    (report k x v1 v2 s).exch.reading = s.exch.reading := reading_of_body (body_report k x v1 v2 s)

@[simp] theorem report_loads (k : ReportKind) (x v1 v2 : Nat) (s : State) :
    (report k x v1 v2 s).exch.loads = s.exch.loads := loads_of_body (body_report k x v1 v2 s)

@[simp] theorem report_takePos (k : ReportKind) (x v1 v2 : Nat) (s : State) :
    (report k x v1 v2 s).exch.takePos = s.exch.takePos := takePos_of_body (body_report k x v1 v2 s)

@[simp] theorem report_pollTimer (k : ReportKind) (x v1 v2 : Nat) (s : State) :
    (report k x v1 v2 s).exch.pollTimer = s.exch.pollTimer := pollTimer_of_body (body_report k x v1 v2 s)

@[simp] theorem report_runState (k : ReportKind) (x v1 v2 : Nat) (s : State) :
    (report k x v1 v2 s).exch.runState = s.exch.runState := runState_of_body (body_report k x v1 v2 s)

@[simp] theorem report_profile (k : ReportKind) (x v1 v2 : Nat) (s : State) :
    (report k x v1 v2 s).exch.profile = s.exch.profile := profile_of_body (body_report k x v1 v2 s)

/-! ## mirrorSection -/

@[simp] theorem mirrorSection_occ (n : Nat) (s : State) :
    (mirrorSection n s).occ = s.occ := occ_of_body (body_mirrorSection n s)

@[simp] theorem mirrorSection_tags (n : Nat) (s : State) :
    (mirrorSection n s).tags = s.tags := tags_of_body (body_mirrorSection n s)

@[simp] theorem mirrorSection_ilk (n : Nat) (s : State) :
    (mirrorSection n s).ilk = s.ilk := ilk_of_body (body_mirrorSection n s)

@[simp] theorem mirrorSection_pts (n : Nat) (s : State) :
    (mirrorSection n s).pts = s.pts := pts_of_body (body_mirrorSection n s)

@[simp] theorem mirrorSection_asp (n : Nat) (s : State) :
    (mirrorSection n s).asp = s.asp := asp_of_body (body_mirrorSection n s)

@[simp] theorem mirrorSection_tt (n : Nat) (s : State) :
    (mirrorSection n s).tt = s.tt := tt_of_body (body_mirrorSection n s)

@[simp] theorem mirrorSection_vis (n : Nat) (s : State) :
    (mirrorSection n s).vis = s.vis := vis_of_body (body_mirrorSection n s)

@[simp] theorem mirrorSection_disp (n : Nat) (s : State) :
    (mirrorSection n s).disp = s.disp := disp_of_body (body_mirrorSection n s)

@[simp] theorem mirrorSection_clock (n : Nat) (s : State) :
    (mirrorSection n s).clock = s.clock := clock_of_body (body_mirrorSection n s)

@[simp] theorem mirrorSection_free (n : Nat) (s : State) :
    (mirrorSection n s).free = s.free := free_of_body (body_mirrorSection n s)

@[simp] theorem mirrorSection_work (n : Nat) (s : State) :
    (mirrorSection n s).work = s.work := work_of_body (body_mirrorSection n s)

@[simp] theorem mirrorSection_pending (n : Nat) (s : State) :
    (mirrorSection n s).pending = s.pending := pending_of_body (body_mirrorSection n s)

@[simp] theorem mirrorSection_latchVal (n : Nat) (s : State) :
    (mirrorSection n s).exch.latchVal = s.exch.latchVal := latchVal_of_body (body_mirrorSection n s)

@[simp] theorem mirrorSection_latchOff (n : Nat) (s : State) :
    (mirrorSection n s).exch.latchOff = s.exch.latchOff := latchOff_of_body (body_mirrorSection n s)

@[simp] theorem mirrorSection_paired (n : Nat) (s : State) :
    (mirrorSection n s).exch.paired = s.exch.paired := paired_of_body (body_mirrorSection n s)

@[simp] theorem mirrorSection_bus (n : Nat) (s : State) :
    (mirrorSection n s).exch.bus = s.exch.bus := bus_of_body (body_mirrorSection n s)

@[simp] theorem mirrorSection_inHand (n : Nat) (s : State) :
    (mirrorSection n s).exch.inHand = s.exch.inHand := inHand_of_body (body_mirrorSection n s)

@[simp] theorem mirrorSection_reading (n : Nat) (s : State) :
    (mirrorSection n s).exch.reading = s.exch.reading := reading_of_body (body_mirrorSection n s)

@[simp] theorem mirrorSection_loads (n : Nat) (s : State) :
    (mirrorSection n s).exch.loads = s.exch.loads := loads_of_body (body_mirrorSection n s)

@[simp] theorem mirrorSection_takePos (n : Nat) (s : State) :
    (mirrorSection n s).exch.takePos = s.exch.takePos := takePos_of_body (body_mirrorSection n s)

@[simp] theorem mirrorSection_pollTimer (n : Nat) (s : State) :
    (mirrorSection n s).exch.pollTimer = s.exch.pollTimer := pollTimer_of_body (body_mirrorSection n s)

@[simp] theorem mirrorSection_runState (n : Nat) (s : State) :
    (mirrorSection n s).exch.runState = s.exch.runState := runState_of_body (body_mirrorSection n s)

@[simp] theorem mirrorSection_profile (n : Nat) (s : State) :
    (mirrorSection n s).exch.profile = s.exch.profile := profile_of_body (body_mirrorSection n s)

/-! ## mirrorHead -/

@[simp] theorem mirrorHead_occ (n : Nat) (s : State) :
    (mirrorHead n s).occ = s.occ := occ_of_body (body_mirrorHead n s)

@[simp] theorem mirrorHead_tags (n : Nat) (s : State) :
    (mirrorHead n s).tags = s.tags := tags_of_body (body_mirrorHead n s)

@[simp] theorem mirrorHead_ilk (n : Nat) (s : State) :
    (mirrorHead n s).ilk = s.ilk := ilk_of_body (body_mirrorHead n s)

@[simp] theorem mirrorHead_pts (n : Nat) (s : State) :
    (mirrorHead n s).pts = s.pts := pts_of_body (body_mirrorHead n s)

@[simp] theorem mirrorHead_asp (n : Nat) (s : State) :
    (mirrorHead n s).asp = s.asp := asp_of_body (body_mirrorHead n s)

@[simp] theorem mirrorHead_tt (n : Nat) (s : State) :
    (mirrorHead n s).tt = s.tt := tt_of_body (body_mirrorHead n s)

@[simp] theorem mirrorHead_vis (n : Nat) (s : State) :
    (mirrorHead n s).vis = s.vis := vis_of_body (body_mirrorHead n s)

@[simp] theorem mirrorHead_disp (n : Nat) (s : State) :
    (mirrorHead n s).disp = s.disp := disp_of_body (body_mirrorHead n s)

@[simp] theorem mirrorHead_clock (n : Nat) (s : State) :
    (mirrorHead n s).clock = s.clock := clock_of_body (body_mirrorHead n s)

@[simp] theorem mirrorHead_free (n : Nat) (s : State) :
    (mirrorHead n s).free = s.free := free_of_body (body_mirrorHead n s)

@[simp] theorem mirrorHead_work (n : Nat) (s : State) :
    (mirrorHead n s).work = s.work := work_of_body (body_mirrorHead n s)

@[simp] theorem mirrorHead_pending (n : Nat) (s : State) :
    (mirrorHead n s).pending = s.pending := pending_of_body (body_mirrorHead n s)

@[simp] theorem mirrorHead_latchVal (n : Nat) (s : State) :
    (mirrorHead n s).exch.latchVal = s.exch.latchVal := latchVal_of_body (body_mirrorHead n s)

@[simp] theorem mirrorHead_latchOff (n : Nat) (s : State) :
    (mirrorHead n s).exch.latchOff = s.exch.latchOff := latchOff_of_body (body_mirrorHead n s)

@[simp] theorem mirrorHead_paired (n : Nat) (s : State) :
    (mirrorHead n s).exch.paired = s.exch.paired := paired_of_body (body_mirrorHead n s)

@[simp] theorem mirrorHead_bus (n : Nat) (s : State) :
    (mirrorHead n s).exch.bus = s.exch.bus := bus_of_body (body_mirrorHead n s)

@[simp] theorem mirrorHead_inHand (n : Nat) (s : State) :
    (mirrorHead n s).exch.inHand = s.exch.inHand := inHand_of_body (body_mirrorHead n s)

@[simp] theorem mirrorHead_reading (n : Nat) (s : State) :
    (mirrorHead n s).exch.reading = s.exch.reading := reading_of_body (body_mirrorHead n s)

@[simp] theorem mirrorHead_loads (n : Nat) (s : State) :
    (mirrorHead n s).exch.loads = s.exch.loads := loads_of_body (body_mirrorHead n s)

@[simp] theorem mirrorHead_takePos (n : Nat) (s : State) :
    (mirrorHead n s).exch.takePos = s.exch.takePos := takePos_of_body (body_mirrorHead n s)

@[simp] theorem mirrorHead_pollTimer (n : Nat) (s : State) :
    (mirrorHead n s).exch.pollTimer = s.exch.pollTimer := pollTimer_of_body (body_mirrorHead n s)

@[simp] theorem mirrorHead_runState (n : Nat) (s : State) :
    (mirrorHead n s).exch.runState = s.exch.runState := runState_of_body (body_mirrorHead n s)

@[simp] theorem mirrorHead_profile (n : Nat) (s : State) :
    (mirrorHead n s).exch.profile = s.exch.profile := profile_of_body (body_mirrorHead n s)

/-! ## mirrorTag -/

@[simp] theorem mirrorTag_occ (n : Nat) (s : State) :
    (mirrorTag n s).occ = s.occ := occ_of_body (body_mirrorTag n s)

@[simp] theorem mirrorTag_tags (n : Nat) (s : State) :
    (mirrorTag n s).tags = s.tags := tags_of_body (body_mirrorTag n s)

@[simp] theorem mirrorTag_ilk (n : Nat) (s : State) :
    (mirrorTag n s).ilk = s.ilk := ilk_of_body (body_mirrorTag n s)

@[simp] theorem mirrorTag_pts (n : Nat) (s : State) :
    (mirrorTag n s).pts = s.pts := pts_of_body (body_mirrorTag n s)

@[simp] theorem mirrorTag_asp (n : Nat) (s : State) :
    (mirrorTag n s).asp = s.asp := asp_of_body (body_mirrorTag n s)

@[simp] theorem mirrorTag_tt (n : Nat) (s : State) :
    (mirrorTag n s).tt = s.tt := tt_of_body (body_mirrorTag n s)

@[simp] theorem mirrorTag_vis (n : Nat) (s : State) :
    (mirrorTag n s).vis = s.vis := vis_of_body (body_mirrorTag n s)

@[simp] theorem mirrorTag_disp (n : Nat) (s : State) :
    (mirrorTag n s).disp = s.disp := disp_of_body (body_mirrorTag n s)

@[simp] theorem mirrorTag_clock (n : Nat) (s : State) :
    (mirrorTag n s).clock = s.clock := clock_of_body (body_mirrorTag n s)

@[simp] theorem mirrorTag_free (n : Nat) (s : State) :
    (mirrorTag n s).free = s.free := free_of_body (body_mirrorTag n s)

@[simp] theorem mirrorTag_work (n : Nat) (s : State) :
    (mirrorTag n s).work = s.work := work_of_body (body_mirrorTag n s)

@[simp] theorem mirrorTag_pending (n : Nat) (s : State) :
    (mirrorTag n s).pending = s.pending := pending_of_body (body_mirrorTag n s)

@[simp] theorem mirrorTag_latchVal (n : Nat) (s : State) :
    (mirrorTag n s).exch.latchVal = s.exch.latchVal := latchVal_of_body (body_mirrorTag n s)

@[simp] theorem mirrorTag_latchOff (n : Nat) (s : State) :
    (mirrorTag n s).exch.latchOff = s.exch.latchOff := latchOff_of_body (body_mirrorTag n s)

@[simp] theorem mirrorTag_paired (n : Nat) (s : State) :
    (mirrorTag n s).exch.paired = s.exch.paired := paired_of_body (body_mirrorTag n s)

@[simp] theorem mirrorTag_bus (n : Nat) (s : State) :
    (mirrorTag n s).exch.bus = s.exch.bus := bus_of_body (body_mirrorTag n s)

@[simp] theorem mirrorTag_inHand (n : Nat) (s : State) :
    (mirrorTag n s).exch.inHand = s.exch.inHand := inHand_of_body (body_mirrorTag n s)

@[simp] theorem mirrorTag_reading (n : Nat) (s : State) :
    (mirrorTag n s).exch.reading = s.exch.reading := reading_of_body (body_mirrorTag n s)

@[simp] theorem mirrorTag_loads (n : Nat) (s : State) :
    (mirrorTag n s).exch.loads = s.exch.loads := loads_of_body (body_mirrorTag n s)

@[simp] theorem mirrorTag_takePos (n : Nat) (s : State) :
    (mirrorTag n s).exch.takePos = s.exch.takePos := takePos_of_body (body_mirrorTag n s)

@[simp] theorem mirrorTag_pollTimer (n : Nat) (s : State) :
    (mirrorTag n s).exch.pollTimer = s.exch.pollTimer := pollTimer_of_body (body_mirrorTag n s)

@[simp] theorem mirrorTag_runState (n : Nat) (s : State) :
    (mirrorTag n s).exch.runState = s.exch.runState := runState_of_body (body_mirrorTag n s)

@[simp] theorem mirrorTag_profile (n : Nat) (s : State) :
    (mirrorTag n s).exch.profile = s.exch.profile := profile_of_body (body_mirrorTag n s)

/-! ## mirrorActive -/

@[simp] theorem mirrorActive_occ (n : Nat) (s : State) :
    (mirrorActive n s).occ = s.occ := occ_of_body (body_mirrorActive n s)

@[simp] theorem mirrorActive_tags (n : Nat) (s : State) :
    (mirrorActive n s).tags = s.tags := tags_of_body (body_mirrorActive n s)

@[simp] theorem mirrorActive_ilk (n : Nat) (s : State) :
    (mirrorActive n s).ilk = s.ilk := ilk_of_body (body_mirrorActive n s)

@[simp] theorem mirrorActive_pts (n : Nat) (s : State) :
    (mirrorActive n s).pts = s.pts := pts_of_body (body_mirrorActive n s)

@[simp] theorem mirrorActive_asp (n : Nat) (s : State) :
    (mirrorActive n s).asp = s.asp := asp_of_body (body_mirrorActive n s)

@[simp] theorem mirrorActive_tt (n : Nat) (s : State) :
    (mirrorActive n s).tt = s.tt := tt_of_body (body_mirrorActive n s)

@[simp] theorem mirrorActive_vis (n : Nat) (s : State) :
    (mirrorActive n s).vis = s.vis := vis_of_body (body_mirrorActive n s)

@[simp] theorem mirrorActive_disp (n : Nat) (s : State) :
    (mirrorActive n s).disp = s.disp := disp_of_body (body_mirrorActive n s)

@[simp] theorem mirrorActive_clock (n : Nat) (s : State) :
    (mirrorActive n s).clock = s.clock := clock_of_body (body_mirrorActive n s)

@[simp] theorem mirrorActive_free (n : Nat) (s : State) :
    (mirrorActive n s).free = s.free := free_of_body (body_mirrorActive n s)

@[simp] theorem mirrorActive_work (n : Nat) (s : State) :
    (mirrorActive n s).work = s.work := work_of_body (body_mirrorActive n s)

@[simp] theorem mirrorActive_pending (n : Nat) (s : State) :
    (mirrorActive n s).pending = s.pending := pending_of_body (body_mirrorActive n s)

@[simp] theorem mirrorActive_latchVal (n : Nat) (s : State) :
    (mirrorActive n s).exch.latchVal = s.exch.latchVal := latchVal_of_body (body_mirrorActive n s)

@[simp] theorem mirrorActive_latchOff (n : Nat) (s : State) :
    (mirrorActive n s).exch.latchOff = s.exch.latchOff := latchOff_of_body (body_mirrorActive n s)

@[simp] theorem mirrorActive_paired (n : Nat) (s : State) :
    (mirrorActive n s).exch.paired = s.exch.paired := paired_of_body (body_mirrorActive n s)

@[simp] theorem mirrorActive_bus (n : Nat) (s : State) :
    (mirrorActive n s).exch.bus = s.exch.bus := bus_of_body (body_mirrorActive n s)

@[simp] theorem mirrorActive_inHand (n : Nat) (s : State) :
    (mirrorActive n s).exch.inHand = s.exch.inHand := inHand_of_body (body_mirrorActive n s)

@[simp] theorem mirrorActive_reading (n : Nat) (s : State) :
    (mirrorActive n s).exch.reading = s.exch.reading := reading_of_body (body_mirrorActive n s)

@[simp] theorem mirrorActive_loads (n : Nat) (s : State) :
    (mirrorActive n s).exch.loads = s.exch.loads := loads_of_body (body_mirrorActive n s)

@[simp] theorem mirrorActive_takePos (n : Nat) (s : State) :
    (mirrorActive n s).exch.takePos = s.exch.takePos := takePos_of_body (body_mirrorActive n s)

@[simp] theorem mirrorActive_pollTimer (n : Nat) (s : State) :
    (mirrorActive n s).exch.pollTimer = s.exch.pollTimer := pollTimer_of_body (body_mirrorActive n s)

@[simp] theorem mirrorActive_runState (n : Nat) (s : State) :
    (mirrorActive n s).exch.runState = s.exch.runState := runState_of_body (body_mirrorActive n s)

@[simp] theorem mirrorActive_profile (n : Nat) (s : State) :
    (mirrorActive n s).exch.profile = s.exch.profile := profile_of_body (body_mirrorActive n s)

/-! ## mirrorStack -/

@[simp] theorem mirrorStack_occ (s : State) :
    (mirrorStack s).occ = s.occ := occ_of_body (body_mirrorStack s)

@[simp] theorem mirrorStack_tags (s : State) :
    (mirrorStack s).tags = s.tags := tags_of_body (body_mirrorStack s)

@[simp] theorem mirrorStack_ilk (s : State) :
    (mirrorStack s).ilk = s.ilk := ilk_of_body (body_mirrorStack s)

@[simp] theorem mirrorStack_pts (s : State) :
    (mirrorStack s).pts = s.pts := pts_of_body (body_mirrorStack s)

@[simp] theorem mirrorStack_asp (s : State) :
    (mirrorStack s).asp = s.asp := asp_of_body (body_mirrorStack s)

@[simp] theorem mirrorStack_tt (s : State) :
    (mirrorStack s).tt = s.tt := tt_of_body (body_mirrorStack s)

@[simp] theorem mirrorStack_vis (s : State) :
    (mirrorStack s).vis = s.vis := vis_of_body (body_mirrorStack s)

@[simp] theorem mirrorStack_disp (s : State) :
    (mirrorStack s).disp = s.disp := disp_of_body (body_mirrorStack s)

@[simp] theorem mirrorStack_clock (s : State) :
    (mirrorStack s).clock = s.clock := clock_of_body (body_mirrorStack s)

@[simp] theorem mirrorStack_free (s : State) :
    (mirrorStack s).free = s.free := free_of_body (body_mirrorStack s)

@[simp] theorem mirrorStack_work (s : State) :
    (mirrorStack s).work = s.work := work_of_body (body_mirrorStack s)

@[simp] theorem mirrorStack_pending (s : State) :
    (mirrorStack s).pending = s.pending := pending_of_body (body_mirrorStack s)

@[simp] theorem mirrorStack_latchVal (s : State) :
    (mirrorStack s).exch.latchVal = s.exch.latchVal := latchVal_of_body (body_mirrorStack s)

@[simp] theorem mirrorStack_latchOff (s : State) :
    (mirrorStack s).exch.latchOff = s.exch.latchOff := latchOff_of_body (body_mirrorStack s)

@[simp] theorem mirrorStack_paired (s : State) :
    (mirrorStack s).exch.paired = s.exch.paired := paired_of_body (body_mirrorStack s)

@[simp] theorem mirrorStack_bus (s : State) :
    (mirrorStack s).exch.bus = s.exch.bus := bus_of_body (body_mirrorStack s)

@[simp] theorem mirrorStack_inHand (s : State) :
    (mirrorStack s).exch.inHand = s.exch.inHand := inHand_of_body (body_mirrorStack s)

@[simp] theorem mirrorStack_reading (s : State) :
    (mirrorStack s).exch.reading = s.exch.reading := reading_of_body (body_mirrorStack s)

@[simp] theorem mirrorStack_loads (s : State) :
    (mirrorStack s).exch.loads = s.exch.loads := loads_of_body (body_mirrorStack s)

@[simp] theorem mirrorStack_takePos (s : State) :
    (mirrorStack s).exch.takePos = s.exch.takePos := takePos_of_body (body_mirrorStack s)

@[simp] theorem mirrorStack_pollTimer (s : State) :
    (mirrorStack s).exch.pollTimer = s.exch.pollTimer := pollTimer_of_body (body_mirrorStack s)

@[simp] theorem mirrorStack_runState (s : State) :
    (mirrorStack s).exch.runState = s.exch.runState := runState_of_body (body_mirrorStack s)

@[simp] theorem mirrorStack_profile (s : State) :
    (mirrorStack s).exch.profile = s.exch.profile := profile_of_body (body_mirrorStack s)

/-! ## mirrorPoint -/

@[simp] theorem mirrorPoint_occ (n : Nat) (s : State) :
    (mirrorPoint n s).occ = s.occ := occ_of_body (body_mirrorPoint n s)

@[simp] theorem mirrorPoint_tags (n : Nat) (s : State) :
    (mirrorPoint n s).tags = s.tags := tags_of_body (body_mirrorPoint n s)

@[simp] theorem mirrorPoint_ilk (n : Nat) (s : State) :
    (mirrorPoint n s).ilk = s.ilk := ilk_of_body (body_mirrorPoint n s)

@[simp] theorem mirrorPoint_pts (n : Nat) (s : State) :
    (mirrorPoint n s).pts = s.pts := pts_of_body (body_mirrorPoint n s)

@[simp] theorem mirrorPoint_asp (n : Nat) (s : State) :
    (mirrorPoint n s).asp = s.asp := asp_of_body (body_mirrorPoint n s)

@[simp] theorem mirrorPoint_tt (n : Nat) (s : State) :
    (mirrorPoint n s).tt = s.tt := tt_of_body (body_mirrorPoint n s)

@[simp] theorem mirrorPoint_vis (n : Nat) (s : State) :
    (mirrorPoint n s).vis = s.vis := vis_of_body (body_mirrorPoint n s)

@[simp] theorem mirrorPoint_disp (n : Nat) (s : State) :
    (mirrorPoint n s).disp = s.disp := disp_of_body (body_mirrorPoint n s)

@[simp] theorem mirrorPoint_clock (n : Nat) (s : State) :
    (mirrorPoint n s).clock = s.clock := clock_of_body (body_mirrorPoint n s)

@[simp] theorem mirrorPoint_free (n : Nat) (s : State) :
    (mirrorPoint n s).free = s.free := free_of_body (body_mirrorPoint n s)

@[simp] theorem mirrorPoint_work (n : Nat) (s : State) :
    (mirrorPoint n s).work = s.work := work_of_body (body_mirrorPoint n s)

@[simp] theorem mirrorPoint_pending (n : Nat) (s : State) :
    (mirrorPoint n s).pending = s.pending := pending_of_body (body_mirrorPoint n s)

@[simp] theorem mirrorPoint_latchVal (n : Nat) (s : State) :
    (mirrorPoint n s).exch.latchVal = s.exch.latchVal := latchVal_of_body (body_mirrorPoint n s)

@[simp] theorem mirrorPoint_latchOff (n : Nat) (s : State) :
    (mirrorPoint n s).exch.latchOff = s.exch.latchOff := latchOff_of_body (body_mirrorPoint n s)

@[simp] theorem mirrorPoint_paired (n : Nat) (s : State) :
    (mirrorPoint n s).exch.paired = s.exch.paired := paired_of_body (body_mirrorPoint n s)

@[simp] theorem mirrorPoint_bus (n : Nat) (s : State) :
    (mirrorPoint n s).exch.bus = s.exch.bus := bus_of_body (body_mirrorPoint n s)

@[simp] theorem mirrorPoint_inHand (n : Nat) (s : State) :
    (mirrorPoint n s).exch.inHand = s.exch.inHand := inHand_of_body (body_mirrorPoint n s)

@[simp] theorem mirrorPoint_reading (n : Nat) (s : State) :
    (mirrorPoint n s).exch.reading = s.exch.reading := reading_of_body (body_mirrorPoint n s)

@[simp] theorem mirrorPoint_loads (n : Nat) (s : State) :
    (mirrorPoint n s).exch.loads = s.exch.loads := loads_of_body (body_mirrorPoint n s)

@[simp] theorem mirrorPoint_takePos (n : Nat) (s : State) :
    (mirrorPoint n s).exch.takePos = s.exch.takePos := takePos_of_body (body_mirrorPoint n s)

@[simp] theorem mirrorPoint_pollTimer (n : Nat) (s : State) :
    (mirrorPoint n s).exch.pollTimer = s.exch.pollTimer := pollTimer_of_body (body_mirrorPoint n s)

@[simp] theorem mirrorPoint_runState (n : Nat) (s : State) :
    (mirrorPoint n s).exch.runState = s.exch.runState := runState_of_body (body_mirrorPoint n s)

@[simp] theorem mirrorPoint_profile (n : Nat) (s : State) :
    (mirrorPoint n s).exch.profile = s.exch.profile := profile_of_body (body_mirrorPoint n s)

/-! ## mirrorPointNow -/

@[simp] theorem mirrorPointNow_occ (n : Nat) (s : State) :
    (mirrorPointNow n s).occ = s.occ := occ_of_body (body_mirrorPointNow n s)

@[simp] theorem mirrorPointNow_tags (n : Nat) (s : State) :
    (mirrorPointNow n s).tags = s.tags := tags_of_body (body_mirrorPointNow n s)

@[simp] theorem mirrorPointNow_ilk (n : Nat) (s : State) :
    (mirrorPointNow n s).ilk = s.ilk := ilk_of_body (body_mirrorPointNow n s)

@[simp] theorem mirrorPointNow_pts (n : Nat) (s : State) :
    (mirrorPointNow n s).pts = s.pts := pts_of_body (body_mirrorPointNow n s)

@[simp] theorem mirrorPointNow_asp (n : Nat) (s : State) :
    (mirrorPointNow n s).asp = s.asp := asp_of_body (body_mirrorPointNow n s)

@[simp] theorem mirrorPointNow_tt (n : Nat) (s : State) :
    (mirrorPointNow n s).tt = s.tt := tt_of_body (body_mirrorPointNow n s)

@[simp] theorem mirrorPointNow_vis (n : Nat) (s : State) :
    (mirrorPointNow n s).vis = s.vis := vis_of_body (body_mirrorPointNow n s)

@[simp] theorem mirrorPointNow_disp (n : Nat) (s : State) :
    (mirrorPointNow n s).disp = s.disp := disp_of_body (body_mirrorPointNow n s)

@[simp] theorem mirrorPointNow_clock (n : Nat) (s : State) :
    (mirrorPointNow n s).clock = s.clock := clock_of_body (body_mirrorPointNow n s)

@[simp] theorem mirrorPointNow_free (n : Nat) (s : State) :
    (mirrorPointNow n s).free = s.free := free_of_body (body_mirrorPointNow n s)

@[simp] theorem mirrorPointNow_work (n : Nat) (s : State) :
    (mirrorPointNow n s).work = s.work := work_of_body (body_mirrorPointNow n s)

@[simp] theorem mirrorPointNow_pending (n : Nat) (s : State) :
    (mirrorPointNow n s).pending = s.pending := pending_of_body (body_mirrorPointNow n s)

@[simp] theorem mirrorPointNow_latchVal (n : Nat) (s : State) :
    (mirrorPointNow n s).exch.latchVal = s.exch.latchVal := latchVal_of_body (body_mirrorPointNow n s)

@[simp] theorem mirrorPointNow_latchOff (n : Nat) (s : State) :
    (mirrorPointNow n s).exch.latchOff = s.exch.latchOff := latchOff_of_body (body_mirrorPointNow n s)

@[simp] theorem mirrorPointNow_paired (n : Nat) (s : State) :
    (mirrorPointNow n s).exch.paired = s.exch.paired := paired_of_body (body_mirrorPointNow n s)

@[simp] theorem mirrorPointNow_bus (n : Nat) (s : State) :
    (mirrorPointNow n s).exch.bus = s.exch.bus := bus_of_body (body_mirrorPointNow n s)

@[simp] theorem mirrorPointNow_inHand (n : Nat) (s : State) :
    (mirrorPointNow n s).exch.inHand = s.exch.inHand := inHand_of_body (body_mirrorPointNow n s)

@[simp] theorem mirrorPointNow_reading (n : Nat) (s : State) :
    (mirrorPointNow n s).exch.reading = s.exch.reading := reading_of_body (body_mirrorPointNow n s)

@[simp] theorem mirrorPointNow_loads (n : Nat) (s : State) :
    (mirrorPointNow n s).exch.loads = s.exch.loads := loads_of_body (body_mirrorPointNow n s)

@[simp] theorem mirrorPointNow_takePos (n : Nat) (s : State) :
    (mirrorPointNow n s).exch.takePos = s.exch.takePos := takePos_of_body (body_mirrorPointNow n s)

@[simp] theorem mirrorPointNow_pollTimer (n : Nat) (s : State) :
    (mirrorPointNow n s).exch.pollTimer = s.exch.pollTimer := pollTimer_of_body (body_mirrorPointNow n s)

@[simp] theorem mirrorPointNow_runState (n : Nat) (s : State) :
    (mirrorPointNow n s).exch.runState = s.exch.runState := runState_of_body (body_mirrorPointNow n s)

@[simp] theorem mirrorPointNow_profile (n : Nat) (s : State) :
    (mirrorPointNow n s).exch.profile = s.exch.profile := profile_of_body (body_mirrorPointNow n s)

/-! ## mirrorSignal -/

@[simp] theorem mirrorSignal_occ (n : Nat) (s : State) :
    (mirrorSignal n s).occ = s.occ := occ_of_body (body_mirrorSignal n s)

@[simp] theorem mirrorSignal_tags (n : Nat) (s : State) :
    (mirrorSignal n s).tags = s.tags := tags_of_body (body_mirrorSignal n s)

@[simp] theorem mirrorSignal_ilk (n : Nat) (s : State) :
    (mirrorSignal n s).ilk = s.ilk := ilk_of_body (body_mirrorSignal n s)

@[simp] theorem mirrorSignal_pts (n : Nat) (s : State) :
    (mirrorSignal n s).pts = s.pts := pts_of_body (body_mirrorSignal n s)

@[simp] theorem mirrorSignal_asp (n : Nat) (s : State) :
    (mirrorSignal n s).asp = s.asp := asp_of_body (body_mirrorSignal n s)

@[simp] theorem mirrorSignal_tt (n : Nat) (s : State) :
    (mirrorSignal n s).tt = s.tt := tt_of_body (body_mirrorSignal n s)

@[simp] theorem mirrorSignal_vis (n : Nat) (s : State) :
    (mirrorSignal n s).vis = s.vis := vis_of_body (body_mirrorSignal n s)

@[simp] theorem mirrorSignal_disp (n : Nat) (s : State) :
    (mirrorSignal n s).disp = s.disp := disp_of_body (body_mirrorSignal n s)

@[simp] theorem mirrorSignal_clock (n : Nat) (s : State) :
    (mirrorSignal n s).clock = s.clock := clock_of_body (body_mirrorSignal n s)

@[simp] theorem mirrorSignal_free (n : Nat) (s : State) :
    (mirrorSignal n s).free = s.free := free_of_body (body_mirrorSignal n s)

@[simp] theorem mirrorSignal_work (n : Nat) (s : State) :
    (mirrorSignal n s).work = s.work := work_of_body (body_mirrorSignal n s)

@[simp] theorem mirrorSignal_pending (n : Nat) (s : State) :
    (mirrorSignal n s).pending = s.pending := pending_of_body (body_mirrorSignal n s)

@[simp] theorem mirrorSignal_latchVal (n : Nat) (s : State) :
    (mirrorSignal n s).exch.latchVal = s.exch.latchVal := latchVal_of_body (body_mirrorSignal n s)

@[simp] theorem mirrorSignal_latchOff (n : Nat) (s : State) :
    (mirrorSignal n s).exch.latchOff = s.exch.latchOff := latchOff_of_body (body_mirrorSignal n s)

@[simp] theorem mirrorSignal_paired (n : Nat) (s : State) :
    (mirrorSignal n s).exch.paired = s.exch.paired := paired_of_body (body_mirrorSignal n s)

@[simp] theorem mirrorSignal_bus (n : Nat) (s : State) :
    (mirrorSignal n s).exch.bus = s.exch.bus := bus_of_body (body_mirrorSignal n s)

@[simp] theorem mirrorSignal_inHand (n : Nat) (s : State) :
    (mirrorSignal n s).exch.inHand = s.exch.inHand := inHand_of_body (body_mirrorSignal n s)

@[simp] theorem mirrorSignal_reading (n : Nat) (s : State) :
    (mirrorSignal n s).exch.reading = s.exch.reading := reading_of_body (body_mirrorSignal n s)

@[simp] theorem mirrorSignal_loads (n : Nat) (s : State) :
    (mirrorSignal n s).exch.loads = s.exch.loads := loads_of_body (body_mirrorSignal n s)

@[simp] theorem mirrorSignal_takePos (n : Nat) (s : State) :
    (mirrorSignal n s).exch.takePos = s.exch.takePos := takePos_of_body (body_mirrorSignal n s)

@[simp] theorem mirrorSignal_pollTimer (n : Nat) (s : State) :
    (mirrorSignal n s).exch.pollTimer = s.exch.pollTimer := pollTimer_of_body (body_mirrorSignal n s)

@[simp] theorem mirrorSignal_runState (n : Nat) (s : State) :
    (mirrorSignal n s).exch.runState = s.exch.runState := runState_of_body (body_mirrorSignal n s)

@[simp] theorem mirrorSignal_profile (n : Nat) (s : State) :
    (mirrorSignal n s).exch.profile = s.exch.profile := profile_of_body (body_mirrorSignal n s)

/-! ## mirrorTable -/

@[simp] theorem mirrorTable_occ (s : State) :
    (mirrorTable s).occ = s.occ := occ_of_body (body_mirrorTable s)

@[simp] theorem mirrorTable_tags (s : State) :
    (mirrorTable s).tags = s.tags := tags_of_body (body_mirrorTable s)

@[simp] theorem mirrorTable_ilk (s : State) :
    (mirrorTable s).ilk = s.ilk := ilk_of_body (body_mirrorTable s)

@[simp] theorem mirrorTable_pts (s : State) :
    (mirrorTable s).pts = s.pts := pts_of_body (body_mirrorTable s)

@[simp] theorem mirrorTable_asp (s : State) :
    (mirrorTable s).asp = s.asp := asp_of_body (body_mirrorTable s)

@[simp] theorem mirrorTable_tt (s : State) :
    (mirrorTable s).tt = s.tt := tt_of_body (body_mirrorTable s)

@[simp] theorem mirrorTable_vis (s : State) :
    (mirrorTable s).vis = s.vis := vis_of_body (body_mirrorTable s)

@[simp] theorem mirrorTable_disp (s : State) :
    (mirrorTable s).disp = s.disp := disp_of_body (body_mirrorTable s)

@[simp] theorem mirrorTable_clock (s : State) :
    (mirrorTable s).clock = s.clock := clock_of_body (body_mirrorTable s)

@[simp] theorem mirrorTable_free (s : State) :
    (mirrorTable s).free = s.free := free_of_body (body_mirrorTable s)

@[simp] theorem mirrorTable_work (s : State) :
    (mirrorTable s).work = s.work := work_of_body (body_mirrorTable s)

@[simp] theorem mirrorTable_pending (s : State) :
    (mirrorTable s).pending = s.pending := pending_of_body (body_mirrorTable s)

@[simp] theorem mirrorTable_latchVal (s : State) :
    (mirrorTable s).exch.latchVal = s.exch.latchVal := latchVal_of_body (body_mirrorTable s)

@[simp] theorem mirrorTable_latchOff (s : State) :
    (mirrorTable s).exch.latchOff = s.exch.latchOff := latchOff_of_body (body_mirrorTable s)

@[simp] theorem mirrorTable_paired (s : State) :
    (mirrorTable s).exch.paired = s.exch.paired := paired_of_body (body_mirrorTable s)

@[simp] theorem mirrorTable_bus (s : State) :
    (mirrorTable s).exch.bus = s.exch.bus := bus_of_body (body_mirrorTable s)

@[simp] theorem mirrorTable_inHand (s : State) :
    (mirrorTable s).exch.inHand = s.exch.inHand := inHand_of_body (body_mirrorTable s)

@[simp] theorem mirrorTable_reading (s : State) :
    (mirrorTable s).exch.reading = s.exch.reading := reading_of_body (body_mirrorTable s)

@[simp] theorem mirrorTable_loads (s : State) :
    (mirrorTable s).exch.loads = s.exch.loads := loads_of_body (body_mirrorTable s)

@[simp] theorem mirrorTable_takePos (s : State) :
    (mirrorTable s).exch.takePos = s.exch.takePos := takePos_of_body (body_mirrorTable s)

@[simp] theorem mirrorTable_pollTimer (s : State) :
    (mirrorTable s).exch.pollTimer = s.exch.pollTimer := pollTimer_of_body (body_mirrorTable s)

@[simp] theorem mirrorTable_runState (s : State) :
    (mirrorTable s).exch.runState = s.exch.runState := runState_of_body (body_mirrorTable s)

@[simp] theorem mirrorTable_profile (s : State) :
    (mirrorTable s).exch.profile = s.exch.profile := profile_of_body (body_mirrorTable s)

/-! ## mirrorVisitorWord -/

@[simp] theorem mirrorVisitorWord_occ (k : Nat) (s : State) :
    (mirrorVisitorWord k s).occ = s.occ := occ_of_body (body_mirrorVisitorWord k s)

@[simp] theorem mirrorVisitorWord_tags (k : Nat) (s : State) :
    (mirrorVisitorWord k s).tags = s.tags := tags_of_body (body_mirrorVisitorWord k s)

@[simp] theorem mirrorVisitorWord_ilk (k : Nat) (s : State) :
    (mirrorVisitorWord k s).ilk = s.ilk := ilk_of_body (body_mirrorVisitorWord k s)

@[simp] theorem mirrorVisitorWord_pts (k : Nat) (s : State) :
    (mirrorVisitorWord k s).pts = s.pts := pts_of_body (body_mirrorVisitorWord k s)

@[simp] theorem mirrorVisitorWord_asp (k : Nat) (s : State) :
    (mirrorVisitorWord k s).asp = s.asp := asp_of_body (body_mirrorVisitorWord k s)

@[simp] theorem mirrorVisitorWord_tt (k : Nat) (s : State) :
    (mirrorVisitorWord k s).tt = s.tt := tt_of_body (body_mirrorVisitorWord k s)

@[simp] theorem mirrorVisitorWord_vis (k : Nat) (s : State) :
    (mirrorVisitorWord k s).vis = s.vis := vis_of_body (body_mirrorVisitorWord k s)

@[simp] theorem mirrorVisitorWord_disp (k : Nat) (s : State) :
    (mirrorVisitorWord k s).disp = s.disp := disp_of_body (body_mirrorVisitorWord k s)

@[simp] theorem mirrorVisitorWord_clock (k : Nat) (s : State) :
    (mirrorVisitorWord k s).clock = s.clock := clock_of_body (body_mirrorVisitorWord k s)

@[simp] theorem mirrorVisitorWord_free (k : Nat) (s : State) :
    (mirrorVisitorWord k s).free = s.free := free_of_body (body_mirrorVisitorWord k s)

@[simp] theorem mirrorVisitorWord_work (k : Nat) (s : State) :
    (mirrorVisitorWord k s).work = s.work := work_of_body (body_mirrorVisitorWord k s)

@[simp] theorem mirrorVisitorWord_pending (k : Nat) (s : State) :
    (mirrorVisitorWord k s).pending = s.pending := pending_of_body (body_mirrorVisitorWord k s)

@[simp] theorem mirrorVisitorWord_latchVal (k : Nat) (s : State) :
    (mirrorVisitorWord k s).exch.latchVal = s.exch.latchVal := latchVal_of_body (body_mirrorVisitorWord k s)

@[simp] theorem mirrorVisitorWord_latchOff (k : Nat) (s : State) :
    (mirrorVisitorWord k s).exch.latchOff = s.exch.latchOff := latchOff_of_body (body_mirrorVisitorWord k s)

@[simp] theorem mirrorVisitorWord_paired (k : Nat) (s : State) :
    (mirrorVisitorWord k s).exch.paired = s.exch.paired := paired_of_body (body_mirrorVisitorWord k s)

@[simp] theorem mirrorVisitorWord_bus (k : Nat) (s : State) :
    (mirrorVisitorWord k s).exch.bus = s.exch.bus := bus_of_body (body_mirrorVisitorWord k s)

@[simp] theorem mirrorVisitorWord_inHand (k : Nat) (s : State) :
    (mirrorVisitorWord k s).exch.inHand = s.exch.inHand := inHand_of_body (body_mirrorVisitorWord k s)

@[simp] theorem mirrorVisitorWord_reading (k : Nat) (s : State) :
    (mirrorVisitorWord k s).exch.reading = s.exch.reading := reading_of_body (body_mirrorVisitorWord k s)

@[simp] theorem mirrorVisitorWord_loads (k : Nat) (s : State) :
    (mirrorVisitorWord k s).exch.loads = s.exch.loads := loads_of_body (body_mirrorVisitorWord k s)

@[simp] theorem mirrorVisitorWord_takePos (k : Nat) (s : State) :
    (mirrorVisitorWord k s).exch.takePos = s.exch.takePos := takePos_of_body (body_mirrorVisitorWord k s)

@[simp] theorem mirrorVisitorWord_pollTimer (k : Nat) (s : State) :
    (mirrorVisitorWord k s).exch.pollTimer = s.exch.pollTimer := pollTimer_of_body (body_mirrorVisitorWord k s)

@[simp] theorem mirrorVisitorWord_runState (k : Nat) (s : State) :
    (mirrorVisitorWord k s).exch.runState = s.exch.runState := runState_of_body (body_mirrorVisitorWord k s)

@[simp] theorem mirrorVisitorWord_profile (k : Nat) (s : State) :
    (mirrorVisitorWord k s).exch.profile = s.exch.profile := profile_of_body (body_mirrorVisitorWord k s)

/-! ## mirrorVisitor -/

@[simp] theorem mirrorVisitor_occ (s : State) :
    (mirrorVisitor s).occ = s.occ := occ_of_body (body_mirrorVisitor s)

@[simp] theorem mirrorVisitor_tags (s : State) :
    (mirrorVisitor s).tags = s.tags := tags_of_body (body_mirrorVisitor s)

@[simp] theorem mirrorVisitor_ilk (s : State) :
    (mirrorVisitor s).ilk = s.ilk := ilk_of_body (body_mirrorVisitor s)

@[simp] theorem mirrorVisitor_pts (s : State) :
    (mirrorVisitor s).pts = s.pts := pts_of_body (body_mirrorVisitor s)

@[simp] theorem mirrorVisitor_asp (s : State) :
    (mirrorVisitor s).asp = s.asp := asp_of_body (body_mirrorVisitor s)

@[simp] theorem mirrorVisitor_tt (s : State) :
    (mirrorVisitor s).tt = s.tt := tt_of_body (body_mirrorVisitor s)

@[simp] theorem mirrorVisitor_vis (s : State) :
    (mirrorVisitor s).vis = s.vis := vis_of_body (body_mirrorVisitor s)

@[simp] theorem mirrorVisitor_disp (s : State) :
    (mirrorVisitor s).disp = s.disp := disp_of_body (body_mirrorVisitor s)

@[simp] theorem mirrorVisitor_clock (s : State) :
    (mirrorVisitor s).clock = s.clock := clock_of_body (body_mirrorVisitor s)

@[simp] theorem mirrorVisitor_free (s : State) :
    (mirrorVisitor s).free = s.free := free_of_body (body_mirrorVisitor s)

@[simp] theorem mirrorVisitor_work (s : State) :
    (mirrorVisitor s).work = s.work := work_of_body (body_mirrorVisitor s)

@[simp] theorem mirrorVisitor_pending (s : State) :
    (mirrorVisitor s).pending = s.pending := pending_of_body (body_mirrorVisitor s)

@[simp] theorem mirrorVisitor_latchVal (s : State) :
    (mirrorVisitor s).exch.latchVal = s.exch.latchVal := latchVal_of_body (body_mirrorVisitor s)

@[simp] theorem mirrorVisitor_latchOff (s : State) :
    (mirrorVisitor s).exch.latchOff = s.exch.latchOff := latchOff_of_body (body_mirrorVisitor s)

@[simp] theorem mirrorVisitor_paired (s : State) :
    (mirrorVisitor s).exch.paired = s.exch.paired := paired_of_body (body_mirrorVisitor s)

@[simp] theorem mirrorVisitor_bus (s : State) :
    (mirrorVisitor s).exch.bus = s.exch.bus := bus_of_body (body_mirrorVisitor s)

@[simp] theorem mirrorVisitor_inHand (s : State) :
    (mirrorVisitor s).exch.inHand = s.exch.inHand := inHand_of_body (body_mirrorVisitor s)

@[simp] theorem mirrorVisitor_reading (s : State) :
    (mirrorVisitor s).exch.reading = s.exch.reading := reading_of_body (body_mirrorVisitor s)

@[simp] theorem mirrorVisitor_loads (s : State) :
    (mirrorVisitor s).exch.loads = s.exch.loads := loads_of_body (body_mirrorVisitor s)

@[simp] theorem mirrorVisitor_takePos (s : State) :
    (mirrorVisitor s).exch.takePos = s.exch.takePos := takePos_of_body (body_mirrorVisitor s)

@[simp] theorem mirrorVisitor_pollTimer (s : State) :
    (mirrorVisitor s).exch.pollTimer = s.exch.pollTimer := pollTimer_of_body (body_mirrorVisitor s)

@[simp] theorem mirrorVisitor_runState (s : State) :
    (mirrorVisitor s).exch.runState = s.exch.runState := runState_of_body (body_mirrorVisitor s)

@[simp] theorem mirrorVisitor_profile (s : State) :
    (mirrorVisitor s).exch.profile = s.exch.profile := profile_of_body (body_mirrorVisitor s)

/-! ## mirrorLampWord -/

@[simp] theorem mirrorLampWord_occ (k : Nat) (s : State) :
    (mirrorLampWord k s).occ = s.occ := occ_of_body (body_mirrorLampWord k s)

@[simp] theorem mirrorLampWord_tags (k : Nat) (s : State) :
    (mirrorLampWord k s).tags = s.tags := tags_of_body (body_mirrorLampWord k s)

@[simp] theorem mirrorLampWord_ilk (k : Nat) (s : State) :
    (mirrorLampWord k s).ilk = s.ilk := ilk_of_body (body_mirrorLampWord k s)

@[simp] theorem mirrorLampWord_pts (k : Nat) (s : State) :
    (mirrorLampWord k s).pts = s.pts := pts_of_body (body_mirrorLampWord k s)

@[simp] theorem mirrorLampWord_asp (k : Nat) (s : State) :
    (mirrorLampWord k s).asp = s.asp := asp_of_body (body_mirrorLampWord k s)

@[simp] theorem mirrorLampWord_tt (k : Nat) (s : State) :
    (mirrorLampWord k s).tt = s.tt := tt_of_body (body_mirrorLampWord k s)

@[simp] theorem mirrorLampWord_vis (k : Nat) (s : State) :
    (mirrorLampWord k s).vis = s.vis := vis_of_body (body_mirrorLampWord k s)

@[simp] theorem mirrorLampWord_disp (k : Nat) (s : State) :
    (mirrorLampWord k s).disp = s.disp := disp_of_body (body_mirrorLampWord k s)

@[simp] theorem mirrorLampWord_clock (k : Nat) (s : State) :
    (mirrorLampWord k s).clock = s.clock := clock_of_body (body_mirrorLampWord k s)

@[simp] theorem mirrorLampWord_free (k : Nat) (s : State) :
    (mirrorLampWord k s).free = s.free := free_of_body (body_mirrorLampWord k s)

@[simp] theorem mirrorLampWord_work (k : Nat) (s : State) :
    (mirrorLampWord k s).work = s.work := work_of_body (body_mirrorLampWord k s)

@[simp] theorem mirrorLampWord_pending (k : Nat) (s : State) :
    (mirrorLampWord k s).pending = s.pending := pending_of_body (body_mirrorLampWord k s)

@[simp] theorem mirrorLampWord_latchVal (k : Nat) (s : State) :
    (mirrorLampWord k s).exch.latchVal = s.exch.latchVal := latchVal_of_body (body_mirrorLampWord k s)

@[simp] theorem mirrorLampWord_latchOff (k : Nat) (s : State) :
    (mirrorLampWord k s).exch.latchOff = s.exch.latchOff := latchOff_of_body (body_mirrorLampWord k s)

@[simp] theorem mirrorLampWord_paired (k : Nat) (s : State) :
    (mirrorLampWord k s).exch.paired = s.exch.paired := paired_of_body (body_mirrorLampWord k s)

@[simp] theorem mirrorLampWord_bus (k : Nat) (s : State) :
    (mirrorLampWord k s).exch.bus = s.exch.bus := bus_of_body (body_mirrorLampWord k s)

@[simp] theorem mirrorLampWord_inHand (k : Nat) (s : State) :
    (mirrorLampWord k s).exch.inHand = s.exch.inHand := inHand_of_body (body_mirrorLampWord k s)

@[simp] theorem mirrorLampWord_reading (k : Nat) (s : State) :
    (mirrorLampWord k s).exch.reading = s.exch.reading := reading_of_body (body_mirrorLampWord k s)

@[simp] theorem mirrorLampWord_loads (k : Nat) (s : State) :
    (mirrorLampWord k s).exch.loads = s.exch.loads := loads_of_body (body_mirrorLampWord k s)

@[simp] theorem mirrorLampWord_takePos (k : Nat) (s : State) :
    (mirrorLampWord k s).exch.takePos = s.exch.takePos := takePos_of_body (body_mirrorLampWord k s)

@[simp] theorem mirrorLampWord_pollTimer (k : Nat) (s : State) :
    (mirrorLampWord k s).exch.pollTimer = s.exch.pollTimer := pollTimer_of_body (body_mirrorLampWord k s)

@[simp] theorem mirrorLampWord_runState (k : Nat) (s : State) :
    (mirrorLampWord k s).exch.runState = s.exch.runState := runState_of_body (body_mirrorLampWord k s)

@[simp] theorem mirrorLampWord_profile (k : Nat) (s : State) :
    (mirrorLampWord k s).exch.profile = s.exch.profile := profile_of_body (body_mirrorLampWord k s)

/-! ## settleVisitorWord -/

@[simp] theorem settleVisitorWord_occ (b : State) (k : Nat) (s : State) :
    (settleVisitorWord b k s).occ = s.occ := occ_of_body (body_settleVisitorWord b k s)

@[simp] theorem settleVisitorWord_tags (b : State) (k : Nat) (s : State) :
    (settleVisitorWord b k s).tags = s.tags := tags_of_body (body_settleVisitorWord b k s)

@[simp] theorem settleVisitorWord_ilk (b : State) (k : Nat) (s : State) :
    (settleVisitorWord b k s).ilk = s.ilk := ilk_of_body (body_settleVisitorWord b k s)

@[simp] theorem settleVisitorWord_pts (b : State) (k : Nat) (s : State) :
    (settleVisitorWord b k s).pts = s.pts := pts_of_body (body_settleVisitorWord b k s)

@[simp] theorem settleVisitorWord_asp (b : State) (k : Nat) (s : State) :
    (settleVisitorWord b k s).asp = s.asp := asp_of_body (body_settleVisitorWord b k s)

@[simp] theorem settleVisitorWord_tt (b : State) (k : Nat) (s : State) :
    (settleVisitorWord b k s).tt = s.tt := tt_of_body (body_settleVisitorWord b k s)

@[simp] theorem settleVisitorWord_vis (b : State) (k : Nat) (s : State) :
    (settleVisitorWord b k s).vis = s.vis := vis_of_body (body_settleVisitorWord b k s)

@[simp] theorem settleVisitorWord_disp (b : State) (k : Nat) (s : State) :
    (settleVisitorWord b k s).disp = s.disp := disp_of_body (body_settleVisitorWord b k s)

@[simp] theorem settleVisitorWord_clock (b : State) (k : Nat) (s : State) :
    (settleVisitorWord b k s).clock = s.clock := clock_of_body (body_settleVisitorWord b k s)

@[simp] theorem settleVisitorWord_free (b : State) (k : Nat) (s : State) :
    (settleVisitorWord b k s).free = s.free := free_of_body (body_settleVisitorWord b k s)

@[simp] theorem settleVisitorWord_work (b : State) (k : Nat) (s : State) :
    (settleVisitorWord b k s).work = s.work := work_of_body (body_settleVisitorWord b k s)

@[simp] theorem settleVisitorWord_pending (b : State) (k : Nat) (s : State) :
    (settleVisitorWord b k s).pending = s.pending := pending_of_body (body_settleVisitorWord b k s)

@[simp] theorem settleVisitorWord_latchVal (b : State) (k : Nat) (s : State) :
    (settleVisitorWord b k s).exch.latchVal = s.exch.latchVal := latchVal_of_body (body_settleVisitorWord b k s)

@[simp] theorem settleVisitorWord_latchOff (b : State) (k : Nat) (s : State) :
    (settleVisitorWord b k s).exch.latchOff = s.exch.latchOff := latchOff_of_body (body_settleVisitorWord b k s)

@[simp] theorem settleVisitorWord_paired (b : State) (k : Nat) (s : State) :
    (settleVisitorWord b k s).exch.paired = s.exch.paired := paired_of_body (body_settleVisitorWord b k s)

@[simp] theorem settleVisitorWord_bus (b : State) (k : Nat) (s : State) :
    (settleVisitorWord b k s).exch.bus = s.exch.bus := bus_of_body (body_settleVisitorWord b k s)

@[simp] theorem settleVisitorWord_inHand (b : State) (k : Nat) (s : State) :
    (settleVisitorWord b k s).exch.inHand = s.exch.inHand := inHand_of_body (body_settleVisitorWord b k s)

@[simp] theorem settleVisitorWord_reading (b : State) (k : Nat) (s : State) :
    (settleVisitorWord b k s).exch.reading = s.exch.reading := reading_of_body (body_settleVisitorWord b k s)

@[simp] theorem settleVisitorWord_loads (b : State) (k : Nat) (s : State) :
    (settleVisitorWord b k s).exch.loads = s.exch.loads := loads_of_body (body_settleVisitorWord b k s)

@[simp] theorem settleVisitorWord_takePos (b : State) (k : Nat) (s : State) :
    (settleVisitorWord b k s).exch.takePos = s.exch.takePos := takePos_of_body (body_settleVisitorWord b k s)

@[simp] theorem settleVisitorWord_pollTimer (b : State) (k : Nat) (s : State) :
    (settleVisitorWord b k s).exch.pollTimer = s.exch.pollTimer := pollTimer_of_body (body_settleVisitorWord b k s)

@[simp] theorem settleVisitorWord_runState (b : State) (k : Nat) (s : State) :
    (settleVisitorWord b k s).exch.runState = s.exch.runState := runState_of_body (body_settleVisitorWord b k s)

@[simp] theorem settleVisitorWord_profile (b : State) (k : Nat) (s : State) :
    (settleVisitorWord b k s).exch.profile = s.exch.profile := profile_of_body (body_settleVisitorWord b k s)

/-! ## complete -/

@[simp] theorem complete_occ (n : Nat) (r : Result) (w0 w1 : Nat) (s : State) :
    (complete n r w0 w1 s).occ = s.occ := by
  have g := congrArg State.occ (body_complete n r w0 w1 s); exact g

@[simp] theorem complete_tags (n : Nat) (r : Result) (w0 w1 : Nat) (s : State) :
    (complete n r w0 w1 s).tags = s.tags := by
  have g := congrArg State.tags (body_complete n r w0 w1 s); exact g

@[simp] theorem complete_ilk (n : Nat) (r : Result) (w0 w1 : Nat) (s : State) :
    (complete n r w0 w1 s).ilk = s.ilk := by
  have g := congrArg State.ilk (body_complete n r w0 w1 s); exact g

@[simp] theorem complete_pts (n : Nat) (r : Result) (w0 w1 : Nat) (s : State) :
    (complete n r w0 w1 s).pts = s.pts := by
  have g := congrArg State.pts (body_complete n r w0 w1 s); exact g

@[simp] theorem complete_asp (n : Nat) (r : Result) (w0 w1 : Nat) (s : State) :
    (complete n r w0 w1 s).asp = s.asp := by
  have g := congrArg State.asp (body_complete n r w0 w1 s); exact g

@[simp] theorem complete_tt (n : Nat) (r : Result) (w0 w1 : Nat) (s : State) :
    (complete n r w0 w1 s).tt = s.tt := by
  have g := congrArg State.tt (body_complete n r w0 w1 s); exact g

@[simp] theorem complete_vis (n : Nat) (r : Result) (w0 w1 : Nat) (s : State) :
    (complete n r w0 w1 s).vis = s.vis := by
  have g := congrArg State.vis (body_complete n r w0 w1 s); exact g

@[simp] theorem complete_disp (n : Nat) (r : Result) (w0 w1 : Nat) (s : State) :
    (complete n r w0 w1 s).disp = s.disp := by
  have g := congrArg State.disp (body_complete n r w0 w1 s); exact g

@[simp] theorem complete_clock (n : Nat) (r : Result) (w0 w1 : Nat) (s : State) :
    (complete n r w0 w1 s).clock = s.clock := by
  have g := congrArg State.clock (body_complete n r w0 w1 s); exact g

@[simp] theorem complete_free (n : Nat) (r : Result) (w0 w1 : Nat) (s : State) :
    (complete n r w0 w1 s).free = s.free := by
  have g := congrArg State.free (body_complete n r w0 w1 s); exact g

@[simp] theorem complete_work (n : Nat) (r : Result) (w0 w1 : Nat) (s : State) :
    (complete n r w0 w1 s).work = s.work := by
  have g := congrArg State.work (body_complete n r w0 w1 s); exact g

@[simp] theorem complete_pending (n : Nat) (r : Result) (w0 w1 : Nat) (s : State) :
    (complete n r w0 w1 s).pending = s.pending := by
  have g := congrArg State.pending (body_complete n r w0 w1 s); exact g

@[simp] theorem complete_latchVal (n : Nat) (r : Result) (w0 w1 : Nat) (s : State) :
    (complete n r w0 w1 s).exch.latchVal = s.exch.latchVal := by
  have g := congrArg (fun u : State => u.exch.latchVal) (body_complete n r w0 w1 s); exact g

@[simp] theorem complete_latchOff (n : Nat) (r : Result) (w0 w1 : Nat) (s : State) :
    (complete n r w0 w1 s).exch.latchOff = s.exch.latchOff := by
  have g := congrArg (fun u : State => u.exch.latchOff) (body_complete n r w0 w1 s); exact g

@[simp] theorem complete_paired (n : Nat) (r : Result) (w0 w1 : Nat) (s : State) :
    (complete n r w0 w1 s).exch.paired = s.exch.paired := by
  have g := congrArg (fun u : State => u.exch.paired) (body_complete n r w0 w1 s); exact g

@[simp] theorem complete_bus (n : Nat) (r : Result) (w0 w1 : Nat) (s : State) :
    (complete n r w0 w1 s).exch.bus = s.exch.bus := by
  have g := congrArg (fun u : State => u.exch.bus) (body_complete n r w0 w1 s); exact g

@[simp] theorem complete_reading (n : Nat) (r : Result) (w0 w1 : Nat) (s : State) :
    (complete n r w0 w1 s).exch.reading = s.exch.reading := by
  have g := congrArg (fun u : State => u.exch.reading) (body_complete n r w0 w1 s); exact g

@[simp] theorem complete_loads (n : Nat) (r : Result) (w0 w1 : Nat) (s : State) :
    (complete n r w0 w1 s).exch.loads = s.exch.loads := by
  have g := congrArg (fun u : State => u.exch.loads) (body_complete n r w0 w1 s); exact g

@[simp] theorem complete_takePos (n : Nat) (r : Result) (w0 w1 : Nat) (s : State) :
    (complete n r w0 w1 s).exch.takePos = s.exch.takePos := by
  have g := congrArg (fun u : State => u.exch.takePos) (body_complete n r w0 w1 s); exact g

@[simp] theorem complete_pollTimer (n : Nat) (r : Result) (w0 w1 : Nat) (s : State) :
    (complete n r w0 w1 s).exch.pollTimer = s.exch.pollTimer := by
  have g := congrArg (fun u : State => u.exch.pollTimer) (body_complete n r w0 w1 s); exact g

@[simp] theorem complete_runState (n : Nat) (r : Result) (w0 w1 : Nat) (s : State) :
    (complete n r w0 w1 s).exch.runState = s.exch.runState := by
  have g := congrArg (fun u : State => u.exch.runState) (body_complete n r w0 w1 s); exact g

@[simp] theorem complete_profile (n : Nat) (r : Result) (w0 w1 : Nat) (s : State) :
    (complete n r w0 w1 s).exch.profile = s.exch.profile := by
  have g := congrArg (fun u : State => u.exch.profile) (body_complete n r w0 w1 s); exact g

/-! ## useFree -/

@[simp] theorem useFree_occ (s : State) :
    (useFree s).occ = s.occ := rfl

@[simp] theorem useFree_tags (s : State) :
    (useFree s).tags = s.tags := rfl

@[simp] theorem useFree_ilk (s : State) :
    (useFree s).ilk = s.ilk := rfl

@[simp] theorem useFree_pts (s : State) :
    (useFree s).pts = s.pts := rfl

@[simp] theorem useFree_asp (s : State) :
    (useFree s).asp = s.asp := rfl

@[simp] theorem useFree_tt (s : State) :
    (useFree s).tt = s.tt := rfl

@[simp] theorem useFree_vis (s : State) :
    (useFree s).vis = s.vis := rfl

@[simp] theorem useFree_disp (s : State) :
    (useFree s).disp = s.disp := rfl

@[simp] theorem useFree_exch (s : State) :
    (useFree s).exch = s.exch := rfl

@[simp] theorem useFree_clock (s : State) :
    (useFree s).clock = s.clock := rfl

@[simp] theorem useFree_free (s : State) :
    (useFree s).free = s.free + 1 := rfl

@[simp] theorem useFree_work (s : State) :
    (useFree s).work = s.work := rfl

@[simp] theorem useFree_pending (s : State) :
    (useFree s).pending = s.pending := rfl

/-! ## setRunState -/

@[simp] theorem setRunState_occ (r : RunState) (s : State) :
    (setRunState r s).occ = s.occ := by simp [setRunState]

@[simp] theorem setRunState_tags (r : RunState) (s : State) :
    (setRunState r s).tags = s.tags := by simp [setRunState]

@[simp] theorem setRunState_ilk (r : RunState) (s : State) :
    (setRunState r s).ilk = s.ilk := by simp [setRunState]

@[simp] theorem setRunState_pts (r : RunState) (s : State) :
    (setRunState r s).pts = s.pts := by simp [setRunState]

@[simp] theorem setRunState_asp (r : RunState) (s : State) :
    (setRunState r s).asp = s.asp := by simp [setRunState]

@[simp] theorem setRunState_tt (r : RunState) (s : State) :
    (setRunState r s).tt = s.tt := by simp [setRunState]

@[simp] theorem setRunState_vis (r : RunState) (s : State) :
    (setRunState r s).vis = s.vis := by simp [setRunState]

@[simp] theorem setRunState_disp (r : RunState) (s : State) :
    (setRunState r s).disp = s.disp := by simp [setRunState]

@[simp] theorem setRunState_clock (r : RunState) (s : State) :
    (setRunState r s).clock = s.clock := by simp [setRunState]

@[simp] theorem setRunState_free (r : RunState) (s : State) :
    (setRunState r s).free = s.free := by simp [setRunState]

@[simp] theorem setRunState_work (r : RunState) (s : State) :
    (setRunState r s).work = s.work := by simp [setRunState]

@[simp] theorem setRunState_pending (r : RunState) (s : State) :
    (setRunState r s).pending = s.pending := by simp [setRunState]

@[simp] theorem setRunState_latchVal (r : RunState) (s : State) :
    (setRunState r s).exch.latchVal = s.exch.latchVal := by simp [setRunState]

@[simp] theorem setRunState_latchOff (r : RunState) (s : State) :
    (setRunState r s).exch.latchOff = s.exch.latchOff := by simp [setRunState]

@[simp] theorem setRunState_paired (r : RunState) (s : State) :
    (setRunState r s).exch.paired = s.exch.paired := by simp [setRunState]

@[simp] theorem setRunState_bus (r : RunState) (s : State) :
    (setRunState r s).exch.bus = s.exch.bus := by simp [setRunState]

@[simp] theorem setRunState_inHand (r : RunState) (s : State) :
    (setRunState r s).exch.inHand = s.exch.inHand := by simp [setRunState]

@[simp] theorem setRunState_reading (r : RunState) (s : State) :
    (setRunState r s).exch.reading = s.exch.reading := by simp [setRunState]

@[simp] theorem setRunState_loads (r : RunState) (s : State) :
    (setRunState r s).exch.loads = s.exch.loads := by simp [setRunState]

@[simp] theorem setRunState_takePos (r : RunState) (s : State) :
    (setRunState r s).exch.takePos = s.exch.takePos := by simp [setRunState]

@[simp] theorem setRunState_pollTimer (r : RunState) (s : State) :
    (setRunState r s).exch.pollTimer = s.exch.pollTimer := by simp [setRunState]

@[simp] theorem setRunState_profile (r : RunState) (s : State) :
    (setRunState r s).exch.profile = s.exch.profile := by simp [setRunState]

/-! ## setRunCondition -/

@[simp] theorem setRunCondition_occ (c : RunCondition) (w : Option StopCause) (s : State) :
    (setRunCondition c w s).occ = s.occ := by simp [setRunCondition]

@[simp] theorem setRunCondition_tags (c : RunCondition) (w : Option StopCause) (s : State) :
    (setRunCondition c w s).tags = s.tags := by simp [setRunCondition]

@[simp] theorem setRunCondition_ilk (c : RunCondition) (w : Option StopCause) (s : State) :
    (setRunCondition c w s).ilk = s.ilk := by simp [setRunCondition]

@[simp] theorem setRunCondition_pts (c : RunCondition) (w : Option StopCause) (s : State) :
    (setRunCondition c w s).pts = s.pts := by simp [setRunCondition]

@[simp] theorem setRunCondition_asp (c : RunCondition) (w : Option StopCause) (s : State) :
    (setRunCondition c w s).asp = { s.asp with cond := c, cause := w } := by simp [setRunCondition]

@[simp] theorem setRunCondition_tt (c : RunCondition) (w : Option StopCause) (s : State) :
    (setRunCondition c w s).tt = s.tt := by simp [setRunCondition]

@[simp] theorem setRunCondition_vis (c : RunCondition) (w : Option StopCause) (s : State) :
    (setRunCondition c w s).vis = s.vis := by simp [setRunCondition]

@[simp] theorem setRunCondition_disp (c : RunCondition) (w : Option StopCause) (s : State) :
    (setRunCondition c w s).disp = s.disp := by simp [setRunCondition]

@[simp] theorem setRunCondition_clock (c : RunCondition) (w : Option StopCause) (s : State) :
    (setRunCondition c w s).clock = s.clock := by simp [setRunCondition]

@[simp] theorem setRunCondition_free (c : RunCondition) (w : Option StopCause) (s : State) :
    (setRunCondition c w s).free = s.free := by simp [setRunCondition]

@[simp] theorem setRunCondition_work (c : RunCondition) (w : Option StopCause) (s : State) :
    (setRunCondition c w s).work = s.work := by simp [setRunCondition]

@[simp] theorem setRunCondition_pending (c : RunCondition) (w : Option StopCause) (s : State) :
    (setRunCondition c w s).pending = s.pending := by simp [setRunCondition]

@[simp] theorem setRunCondition_latchVal (c : RunCondition) (w : Option StopCause) (s : State) :
    (setRunCondition c w s).exch.latchVal = s.exch.latchVal := by simp [setRunCondition]

@[simp] theorem setRunCondition_latchOff (c : RunCondition) (w : Option StopCause) (s : State) :
    (setRunCondition c w s).exch.latchOff = s.exch.latchOff := by simp [setRunCondition]

@[simp] theorem setRunCondition_paired (c : RunCondition) (w : Option StopCause) (s : State) :
    (setRunCondition c w s).exch.paired = s.exch.paired := by simp [setRunCondition]

@[simp] theorem setRunCondition_bus (c : RunCondition) (w : Option StopCause) (s : State) :
    (setRunCondition c w s).exch.bus = s.exch.bus := by simp [setRunCondition]

@[simp] theorem setRunCondition_inHand (c : RunCondition) (w : Option StopCause) (s : State) :
    (setRunCondition c w s).exch.inHand = s.exch.inHand := by simp [setRunCondition]

@[simp] theorem setRunCondition_reading (c : RunCondition) (w : Option StopCause) (s : State) :
    (setRunCondition c w s).exch.reading = s.exch.reading := by simp [setRunCondition]

@[simp] theorem setRunCondition_loads (c : RunCondition) (w : Option StopCause) (s : State) :
    (setRunCondition c w s).exch.loads = s.exch.loads := by simp [setRunCondition]

@[simp] theorem setRunCondition_takePos (c : RunCondition) (w : Option StopCause) (s : State) :
    (setRunCondition c w s).exch.takePos = s.exch.takePos := by simp [setRunCondition]

@[simp] theorem setRunCondition_pollTimer (c : RunCondition) (w : Option StopCause) (s : State) :
    (setRunCondition c w s).exch.pollTimer = s.exch.pollTimer := by simp [setRunCondition]

@[simp] theorem setRunCondition_runState (c : RunCondition) (w : Option StopCause) (s : State) :
    (setRunCondition c w s).exch.runState = s.exch.runState := by simp [setRunCondition]

@[simp] theorem setRunCondition_profile (c : RunCondition) (w : Option StopCause) (s : State) :
    (setRunCondition c w s).exch.profile = s.exch.profile := by simp [setRunCondition]

/-! ## setPower -/

@[simp] theorem setPower_occ (b : Bool) (s : State) :
    (setPower b s).occ = s.occ := by simp [setPower]

@[simp] theorem setPower_tags (b : Bool) (s : State) :
    (setPower b s).tags = s.tags := by simp [setPower]

@[simp] theorem setPower_ilk (b : Bool) (s : State) :
    (setPower b s).ilk = s.ilk := by simp [setPower]

@[simp] theorem setPower_pts (b : Bool) (s : State) :
    (setPower b s).pts = s.pts := by simp [setPower]

@[simp] theorem setPower_asp (b : Bool) (s : State) :
    (setPower b s).asp = { s.asp with power := b } := by simp [setPower]

@[simp] theorem setPower_tt (b : Bool) (s : State) :
    (setPower b s).tt = s.tt := by simp [setPower]

@[simp] theorem setPower_vis (b : Bool) (s : State) :
    (setPower b s).vis = s.vis := by simp [setPower]

@[simp] theorem setPower_disp (b : Bool) (s : State) :
    (setPower b s).disp = s.disp := by simp [setPower]

@[simp] theorem setPower_clock (b : Bool) (s : State) :
    (setPower b s).clock = s.clock := by simp [setPower]

@[simp] theorem setPower_free (b : Bool) (s : State) :
    (setPower b s).free = s.free := by simp [setPower]

@[simp] theorem setPower_work (b : Bool) (s : State) :
    (setPower b s).work = s.work := by simp [setPower]

@[simp] theorem setPower_pending (b : Bool) (s : State) :
    (setPower b s).pending = s.pending := by simp [setPower]

@[simp] theorem setPower_latchVal (b : Bool) (s : State) :
    (setPower b s).exch.latchVal = s.exch.latchVal := by simp [setPower]

@[simp] theorem setPower_latchOff (b : Bool) (s : State) :
    (setPower b s).exch.latchOff = s.exch.latchOff := by simp [setPower]

@[simp] theorem setPower_paired (b : Bool) (s : State) :
    (setPower b s).exch.paired = s.exch.paired := by simp [setPower]

@[simp] theorem setPower_bus (b : Bool) (s : State) :
    (setPower b s).exch.bus = s.exch.bus := by simp [setPower]

@[simp] theorem setPower_inHand (b : Bool) (s : State) :
    (setPower b s).exch.inHand = s.exch.inHand := by simp [setPower]

@[simp] theorem setPower_reading (b : Bool) (s : State) :
    (setPower b s).exch.reading = s.exch.reading := by simp [setPower]

@[simp] theorem setPower_loads (b : Bool) (s : State) :
    (setPower b s).exch.loads = s.exch.loads := by simp [setPower]

@[simp] theorem setPower_takePos (b : Bool) (s : State) :
    (setPower b s).exch.takePos = s.exch.takePos := by simp [setPower]

@[simp] theorem setPower_pollTimer (b : Bool) (s : State) :
    (setPower b s).exch.pollTimer = s.exch.pollTimer := by simp [setPower]

@[simp] theorem setPower_runState (b : Bool) (s : State) :
    (setPower b s).exch.runState = s.exch.runState := by simp [setPower]

@[simp] theorem setPower_profile (b : Bool) (s : State) :
    (setPower b s).exch.profile = s.exch.profile := by simp [setPower]

/-! ## setUnit -/

@[simp] theorem setUnit_occ (u : Discharge) (s : State) :
    (setUnit u s).occ = s.occ := by simp [setUnit]

@[simp] theorem setUnit_tags (u : Discharge) (s : State) :
    (setUnit u s).tags = s.tags := by simp [setUnit]

@[simp] theorem setUnit_ilk (u : Discharge) (s : State) :
    (setUnit u s).ilk = s.ilk := by simp [setUnit]

@[simp] theorem setUnit_pts (u : Discharge) (s : State) :
    (setUnit u s).pts = { s.pts with unit := u } := by simp [setUnit]

@[simp] theorem setUnit_asp (u : Discharge) (s : State) :
    (setUnit u s).asp = s.asp := by simp [setUnit]

@[simp] theorem setUnit_tt (u : Discharge) (s : State) :
    (setUnit u s).tt = s.tt := by simp [setUnit]

@[simp] theorem setUnit_vis (u : Discharge) (s : State) :
    (setUnit u s).vis = s.vis := by simp [setUnit]

@[simp] theorem setUnit_disp (u : Discharge) (s : State) :
    (setUnit u s).disp = s.disp := by simp [setUnit]

@[simp] theorem setUnit_clock (u : Discharge) (s : State) :
    (setUnit u s).clock = s.clock := by simp [setUnit]

@[simp] theorem setUnit_free (u : Discharge) (s : State) :
    (setUnit u s).free = s.free := by simp [setUnit]

@[simp] theorem setUnit_work (u : Discharge) (s : State) :
    (setUnit u s).work = s.work := by simp [setUnit]

@[simp] theorem setUnit_pending (u : Discharge) (s : State) :
    (setUnit u s).pending = s.pending := by simp [setUnit]

@[simp] theorem setUnit_latchVal (u : Discharge) (s : State) :
    (setUnit u s).exch.latchVal = s.exch.latchVal := by simp [setUnit]

@[simp] theorem setUnit_latchOff (u : Discharge) (s : State) :
    (setUnit u s).exch.latchOff = s.exch.latchOff := by simp [setUnit]

@[simp] theorem setUnit_paired (u : Discharge) (s : State) :
    (setUnit u s).exch.paired = s.exch.paired := by simp [setUnit]

@[simp] theorem setUnit_bus (u : Discharge) (s : State) :
    (setUnit u s).exch.bus = s.exch.bus := by simp [setUnit]

@[simp] theorem setUnit_inHand (u : Discharge) (s : State) :
    (setUnit u s).exch.inHand = s.exch.inHand := by simp [setUnit]

@[simp] theorem setUnit_reading (u : Discharge) (s : State) :
    (setUnit u s).exch.reading = s.exch.reading := by simp [setUnit]

@[simp] theorem setUnit_loads (u : Discharge) (s : State) :
    (setUnit u s).exch.loads = s.exch.loads := by simp [setUnit]

@[simp] theorem setUnit_takePos (u : Discharge) (s : State) :
    (setUnit u s).exch.takePos = s.exch.takePos := by simp [setUnit]

@[simp] theorem setUnit_pollTimer (u : Discharge) (s : State) :
    (setUnit u s).exch.pollTimer = s.exch.pollTimer := by simp [setUnit]

@[simp] theorem setUnit_runState (u : Discharge) (s : State) :
    (setUnit u s).exch.runState = s.exch.runState := by simp [setUnit]

@[simp] theorem setUnit_profile (u : Discharge) (s : State) :
    (setUnit u s).exch.profile = s.exch.profile := by simp [setUnit]

/-! ## setPanelState -/

@[simp] theorem setPanelState_occ (p : Panel) (s : State) :
    (setPanelState p s).occ = s.occ := by simp [setPanelState]

@[simp] theorem setPanelState_tags (p : Panel) (s : State) :
    (setPanelState p s).tags = s.tags := by simp [setPanelState]

@[simp] theorem setPanelState_ilk (p : Panel) (s : State) :
    (setPanelState p s).ilk = s.ilk := by simp [setPanelState]

@[simp] theorem setPanelState_pts (p : Panel) (s : State) :
    (setPanelState p s).pts = s.pts := by simp [setPanelState]

@[simp] theorem setPanelState_asp (p : Panel) (s : State) :
    (setPanelState p s).asp = s.asp := by simp [setPanelState]

@[simp] theorem setPanelState_tt (p : Panel) (s : State) :
    (setPanelState p s).tt = s.tt := by simp [setPanelState]

@[simp] theorem setPanelState_vis (p : Panel) (s : State) :
    (setPanelState p s).vis = s.vis := by simp [setPanelState]

@[simp] theorem setPanelState_disp (p : Panel) (s : State) :
    (setPanelState p s).disp = { s.disp with panel := p } := by simp [setPanelState]

@[simp] theorem setPanelState_clock (p : Panel) (s : State) :
    (setPanelState p s).clock = s.clock := by simp [setPanelState]

@[simp] theorem setPanelState_free (p : Panel) (s : State) :
    (setPanelState p s).free = s.free := by simp [setPanelState]

@[simp] theorem setPanelState_work (p : Panel) (s : State) :
    (setPanelState p s).work = s.work := by simp [setPanelState]

@[simp] theorem setPanelState_pending (p : Panel) (s : State) :
    (setPanelState p s).pending = s.pending := by simp [setPanelState]

@[simp] theorem setPanelState_latchVal (p : Panel) (s : State) :
    (setPanelState p s).exch.latchVal = s.exch.latchVal := by simp [setPanelState]

@[simp] theorem setPanelState_latchOff (p : Panel) (s : State) :
    (setPanelState p s).exch.latchOff = s.exch.latchOff := by simp [setPanelState]

@[simp] theorem setPanelState_paired (p : Panel) (s : State) :
    (setPanelState p s).exch.paired = s.exch.paired := by simp [setPanelState]

@[simp] theorem setPanelState_bus (p : Panel) (s : State) :
    (setPanelState p s).exch.bus = s.exch.bus := by simp [setPanelState]

@[simp] theorem setPanelState_inHand (p : Panel) (s : State) :
    (setPanelState p s).exch.inHand = s.exch.inHand := by simp [setPanelState]

@[simp] theorem setPanelState_reading (p : Panel) (s : State) :
    (setPanelState p s).exch.reading = s.exch.reading := by simp [setPanelState]

@[simp] theorem setPanelState_loads (p : Panel) (s : State) :
    (setPanelState p s).exch.loads = s.exch.loads := by simp [setPanelState]

@[simp] theorem setPanelState_takePos (p : Panel) (s : State) :
    (setPanelState p s).exch.takePos = s.exch.takePos := by simp [setPanelState]

@[simp] theorem setPanelState_pollTimer (p : Panel) (s : State) :
    (setPanelState p s).exch.pollTimer = s.exch.pollTimer := by simp [setPanelState]

@[simp] theorem setPanelState_runState (p : Panel) (s : State) :
    (setPanelState p s).exch.runState = s.exch.runState := by simp [setPanelState]

@[simp] theorem setPanelState_profile (p : Panel) (s : State) :
    (setPanelState p s).exch.profile = s.exch.profile := by simp [setPanelState]

/-! ## setRunner -/

@[simp] theorem setRunner_occ (r : Option Runner) (s : State) :
    (setRunner r s).occ = s.occ := rfl

@[simp] theorem setRunner_tags (r : Option Runner) (s : State) :
    (setRunner r s).tags = s.tags := rfl

@[simp] theorem setRunner_ilk (r : Option Runner) (s : State) :
    (setRunner r s).ilk = s.ilk := rfl

@[simp] theorem setRunner_pts (r : Option Runner) (s : State) :
    (setRunner r s).pts = s.pts := rfl

@[simp] theorem setRunner_asp (r : Option Runner) (s : State) :
    (setRunner r s).asp = s.asp := rfl

@[simp] theorem setRunner_tt (r : Option Runner) (s : State) :
    (setRunner r s).tt = s.tt := rfl

@[simp] theorem setRunner_vis (r : Option Runner) (s : State) :
    (setRunner r s).vis = { s.vis with runner := r } := rfl

@[simp] theorem setRunner_disp (r : Option Runner) (s : State) :
    (setRunner r s).disp = s.disp := rfl

@[simp] theorem setRunner_exch (r : Option Runner) (s : State) :
    (setRunner r s).exch = s.exch := rfl

@[simp] theorem setRunner_clock (r : Option Runner) (s : State) :
    (setRunner r s).clock = s.clock := rfl

@[simp] theorem setRunner_free (r : Option Runner) (s : State) :
    (setRunner r s).free = s.free := rfl

@[simp] theorem setRunner_work (r : Option Runner) (s : State) :
    (setRunner r s).work = s.work := rfl

@[simp] theorem setRunner_pending (r : Option Runner) (s : State) :
    (setRunner r s).pending = s.pending := rfl

/-! ## stepEnds -/

@[simp] theorem stepEnds_occ (r : Runner) (e : StepEnd) (s : State) :
    (stepEnds r e s).occ = s.occ := rfl

@[simp] theorem stepEnds_tags (r : Runner) (e : StepEnd) (s : State) :
    (stepEnds r e s).tags = s.tags := rfl

@[simp] theorem stepEnds_ilk (r : Runner) (e : StepEnd) (s : State) :
    (stepEnds r e s).ilk = s.ilk := rfl

@[simp] theorem stepEnds_pts (r : Runner) (e : StepEnd) (s : State) :
    (stepEnds r e s).pts = s.pts := rfl

@[simp] theorem stepEnds_asp (r : Runner) (e : StepEnd) (s : State) :
    (stepEnds r e s).asp = s.asp := rfl

@[simp] theorem stepEnds_tt (r : Runner) (e : StepEnd) (s : State) :
    (stepEnds r e s).tt = s.tt := rfl

@[simp] theorem stepEnds_vis (r : Runner) (e : StepEnd) (s : State) :
    (stepEnds r e s).vis = { s.vis with runner := some { r with phase := .none, stepTimer := none } } := rfl

@[simp] theorem stepEnds_disp (r : Runner) (e : StepEnd) (s : State) :
    (stepEnds r e s).disp = s.disp := rfl

@[simp] theorem stepEnds_exch (r : Runner) (e : StepEnd) (s : State) :
    (stepEnds r e s).exch = s.exch := rfl

@[simp] theorem stepEnds_clock (r : Runner) (e : StepEnd) (s : State) :
    (stepEnds r e s).clock = s.clock := rfl

@[simp] theorem stepEnds_free (r : Runner) (e : StepEnd) (s : State) :
    (stepEnds r e s).free = s.free := rfl

@[simp] theorem stepEnds_work (r : Runner) (e : StepEnd) (s : State) :
    (stepEnds r e s).work = { s.work with step := some e } := rfl

@[simp] theorem stepEnds_pending (r : Runner) (e : StepEnd) (s : State) :
    (stepEnds r e s).pending = s.pending := rfl

/-! ## setPoint -/

@[simp] theorem setPoint_occ (p : Nat) (f : PointState → PointState) (s : State) :
    (setPoint p f s).occ = s.occ := rfl

@[simp] theorem setPoint_tags (p : Nat) (f : PointState → PointState) (s : State) :
    (setPoint p f s).tags = s.tags := rfl

@[simp] theorem setPoint_ilk (p : Nat) (f : PointState → PointState) (s : State) :
    (setPoint p f s).ilk = s.ilk := rfl

@[simp] theorem setPoint_pts (p : Nat) (f : PointState → PointState) (s : State) :
    (setPoint p f s).pts = { s.pts with state := Tbl.modify s.pts.state p f } := rfl

@[simp] theorem setPoint_asp (p : Nat) (f : PointState → PointState) (s : State) :
    (setPoint p f s).asp = s.asp := rfl

@[simp] theorem setPoint_tt (p : Nat) (f : PointState → PointState) (s : State) :
    (setPoint p f s).tt = s.tt := rfl

@[simp] theorem setPoint_vis (p : Nat) (f : PointState → PointState) (s : State) :
    (setPoint p f s).vis = s.vis := rfl

@[simp] theorem setPoint_disp (p : Nat) (f : PointState → PointState) (s : State) :
    (setPoint p f s).disp = s.disp := rfl

@[simp] theorem setPoint_exch (p : Nat) (f : PointState → PointState) (s : State) :
    (setPoint p f s).exch = s.exch := rfl

@[simp] theorem setPoint_clock (p : Nat) (f : PointState → PointState) (s : State) :
    (setPoint p f s).clock = s.clock := rfl

@[simp] theorem setPoint_free (p : Nat) (f : PointState → PointState) (s : State) :
    (setPoint p f s).free = s.free := rfl

@[simp] theorem setPoint_work (p : Nat) (f : PointState → PointState) (s : State) :
    (setPoint p f s).work = { s.work with lamps := true } := rfl

@[simp] theorem setPoint_pending (p : Nat) (f : PointState → PointState) (s : State) :
    (setPoint p f s).pending = s.pending := rfl

/-! ## updateLoss -/

@[simp] theorem updateLoss_occ (p : Nat) (s : State) :
    (updateLoss p s).occ = s.occ := rfl

@[simp] theorem updateLoss_tags (p : Nat) (s : State) :
    (updateLoss p s).tags = s.tags := rfl

@[simp] theorem updateLoss_ilk (p : Nat) (s : State) :
    (updateLoss p s).ilk = s.ilk := rfl

@[simp] theorem updateLoss_asp (p : Nat) (s : State) :
    (updateLoss p s).asp = s.asp := rfl

@[simp] theorem updateLoss_tt (p : Nat) (s : State) :
    (updateLoss p s).tt = s.tt := rfl

@[simp] theorem updateLoss_vis (p : Nat) (s : State) :
    (updateLoss p s).vis = s.vis := rfl

@[simp] theorem updateLoss_disp (p : Nat) (s : State) :
    (updateLoss p s).disp = s.disp := rfl

@[simp] theorem updateLoss_exch (p : Nat) (s : State) :
    (updateLoss p s).exch = s.exch := rfl

@[simp] theorem updateLoss_clock (p : Nat) (s : State) :
    (updateLoss p s).clock = s.clock := rfl

@[simp] theorem updateLoss_free (p : Nat) (s : State) :
    (updateLoss p s).free = s.free := rfl

@[simp] theorem updateLoss_work (p : Nat) (s : State) :
    (updateLoss p s).work = s.work := rfl

@[simp] theorem updateLoss_pending (p : Nat) (s : State) :
    (updateLoss p s).pending = s.pending := rfl

/-! ## touchPoint -/

@[simp] theorem touchPoint_occ (p : Nat) (s : State) :
    (touchPoint p s).occ = s.occ := by simp [touchPoint]

@[simp] theorem touchPoint_tags (p : Nat) (s : State) :
    (touchPoint p s).tags = s.tags := by simp [touchPoint]

@[simp] theorem touchPoint_ilk (p : Nat) (s : State) :
    (touchPoint p s).ilk = s.ilk := by simp [touchPoint]

@[simp] theorem touchPoint_asp (p : Nat) (s : State) :
    (touchPoint p s).asp = s.asp := by simp [touchPoint]

@[simp] theorem touchPoint_tt (p : Nat) (s : State) :
    (touchPoint p s).tt = s.tt := by simp [touchPoint]

@[simp] theorem touchPoint_vis (p : Nat) (s : State) :
    (touchPoint p s).vis = s.vis := by simp [touchPoint]

@[simp] theorem touchPoint_disp (p : Nat) (s : State) :
    (touchPoint p s).disp = s.disp := by simp [touchPoint]

@[simp] theorem touchPoint_clock (p : Nat) (s : State) :
    (touchPoint p s).clock = s.clock := by simp [touchPoint]

@[simp] theorem touchPoint_free (p : Nat) (s : State) :
    (touchPoint p s).free = s.free := by simp [touchPoint]

@[simp] theorem touchPoint_work (p : Nat) (s : State) :
    (touchPoint p s).work = s.work := by simp [touchPoint]

@[simp] theorem touchPoint_pending (p : Nat) (s : State) :
    (touchPoint p s).pending = s.pending := by simp [touchPoint]

@[simp] theorem touchPoint_latchVal (p : Nat) (s : State) :
    (touchPoint p s).exch.latchVal = s.exch.latchVal := by simp [touchPoint]

@[simp] theorem touchPoint_latchOff (p : Nat) (s : State) :
    (touchPoint p s).exch.latchOff = s.exch.latchOff := by simp [touchPoint]

@[simp] theorem touchPoint_paired (p : Nat) (s : State) :
    (touchPoint p s).exch.paired = s.exch.paired := by simp [touchPoint]

@[simp] theorem touchPoint_bus (p : Nat) (s : State) :
    (touchPoint p s).exch.bus = s.exch.bus := by simp [touchPoint]

@[simp] theorem touchPoint_inHand (p : Nat) (s : State) :
    (touchPoint p s).exch.inHand = s.exch.inHand := by simp [touchPoint]

@[simp] theorem touchPoint_reading (p : Nat) (s : State) :
    (touchPoint p s).exch.reading = s.exch.reading := by simp [touchPoint]

@[simp] theorem touchPoint_loads (p : Nat) (s : State) :
    (touchPoint p s).exch.loads = s.exch.loads := by simp [touchPoint]

@[simp] theorem touchPoint_takePos (p : Nat) (s : State) :
    (touchPoint p s).exch.takePos = s.exch.takePos := by simp [touchPoint]

@[simp] theorem touchPoint_pollTimer (p : Nat) (s : State) :
    (touchPoint p s).exch.pollTimer = s.exch.pollTimer := by simp [touchPoint]

@[simp] theorem touchPoint_runState (p : Nat) (s : State) :
    (touchPoint p s).exch.runState = s.exch.runState := by simp [touchPoint]

@[simp] theorem touchPoint_profile (p : Nat) (s : State) :
    (touchPoint p s).exch.profile = s.exch.profile := by simp [touchPoint]

/-! ## setOrders -/

@[simp] theorem setOrders_occ (q o : List Order) (s : State) :
    (setOrders q o s).occ = s.occ := rfl

@[simp] theorem setOrders_tags (q o : List Order) (s : State) :
    (setOrders q o s).tags = s.tags := rfl

@[simp] theorem setOrders_ilk (q o : List Order) (s : State) :
    (setOrders q o s).ilk = s.ilk := rfl

@[simp] theorem setOrders_pts (q o : List Order) (s : State) :
    (setOrders q o s).pts = { s.pts with queue := q, overflow := o } := rfl

@[simp] theorem setOrders_asp (q o : List Order) (s : State) :
    (setOrders q o s).asp = s.asp := rfl

@[simp] theorem setOrders_tt (q o : List Order) (s : State) :
    (setOrders q o s).tt = s.tt := rfl

@[simp] theorem setOrders_vis (q o : List Order) (s : State) :
    (setOrders q o s).vis = s.vis := rfl

@[simp] theorem setOrders_disp (q o : List Order) (s : State) :
    (setOrders q o s).disp = s.disp := rfl

@[simp] theorem setOrders_exch (q o : List Order) (s : State) :
    (setOrders q o s).exch = s.exch := rfl

@[simp] theorem setOrders_clock (q o : List Order) (s : State) :
    (setOrders q o s).clock = s.clock := rfl

@[simp] theorem setOrders_free (q o : List Order) (s : State) :
    (setOrders q o s).free = s.free := rfl

@[simp] theorem setOrders_work (q o : List Order) (s : State) :
    (setOrders q o s).work = s.work := rfl

@[simp] theorem setOrders_pending (q o : List Order) (s : State) :
    (setOrders q o s).pending = s.pending := rfl

/-! ## changeOrder -/

@[simp] theorem changeOrder_occ (p : Nat) (f : Order → Order) (s : State) :
    (changeOrder p f s).occ = s.occ := rfl

@[simp] theorem changeOrder_tags (p : Nat) (f : Order → Order) (s : State) :
    (changeOrder p f s).tags = s.tags := rfl

@[simp] theorem changeOrder_ilk (p : Nat) (f : Order → Order) (s : State) :
    (changeOrder p f s).ilk = s.ilk := rfl

@[simp] theorem changeOrder_asp (p : Nat) (f : Order → Order) (s : State) :
    (changeOrder p f s).asp = s.asp := rfl

@[simp] theorem changeOrder_tt (p : Nat) (f : Order → Order) (s : State) :
    (changeOrder p f s).tt = s.tt := rfl

@[simp] theorem changeOrder_vis (p : Nat) (f : Order → Order) (s : State) :
    (changeOrder p f s).vis = s.vis := rfl

@[simp] theorem changeOrder_disp (p : Nat) (f : Order → Order) (s : State) :
    (changeOrder p f s).disp = s.disp := rfl

@[simp] theorem changeOrder_exch (p : Nat) (f : Order → Order) (s : State) :
    (changeOrder p f s).exch = s.exch := rfl

@[simp] theorem changeOrder_clock (p : Nat) (f : Order → Order) (s : State) :
    (changeOrder p f s).clock = s.clock := rfl

@[simp] theorem changeOrder_free (p : Nat) (f : Order → Order) (s : State) :
    (changeOrder p f s).free = s.free := rfl

@[simp] theorem changeOrder_work (p : Nat) (f : Order → Order) (s : State) :
    (changeOrder p f s).work = s.work := rfl

@[simp] theorem changeOrder_pending (p : Nat) (f : Order → Order) (s : State) :
    (changeOrder p f s).pending = s.pending := rfl

/-! ## wantPass -/

@[simp] theorem wantPass_occ (s : State) :
    (wantPass s).occ = s.occ := rfl

@[simp] theorem wantPass_tags (s : State) :
    (wantPass s).tags = s.tags := rfl

@[simp] theorem wantPass_ilk (s : State) :
    (wantPass s).ilk = s.ilk := rfl

@[simp] theorem wantPass_pts (s : State) :
    (wantPass s).pts = s.pts := rfl

@[simp] theorem wantPass_asp (s : State) :
    (wantPass s).asp = s.asp := rfl

@[simp] theorem wantPass_tt (s : State) :
    (wantPass s).tt = s.tt := rfl

@[simp] theorem wantPass_vis (s : State) :
    (wantPass s).vis = s.vis := rfl

@[simp] theorem wantPass_disp (s : State) :
    (wantPass s).disp = s.disp := rfl

@[simp] theorem wantPass_exch (s : State) :
    (wantPass s).exch = s.exch := rfl

@[simp] theorem wantPass_clock (s : State) :
    (wantPass s).clock = s.clock := rfl

@[simp] theorem wantPass_free (s : State) :
    (wantPass s).free = s.free := rfl

@[simp] theorem wantPass_work (s : State) :
    (wantPass s).work = { s.work with pass := true } := rfl

@[simp] theorem wantPass_pending (s : State) :
    (wantPass s).pending = s.pending := rfl

/-! ## wantReexam -/

@[simp] theorem wantReexam_occ (s : State) :
    (wantReexam s).occ = s.occ := rfl

@[simp] theorem wantReexam_tags (s : State) :
    (wantReexam s).tags = s.tags := rfl

@[simp] theorem wantReexam_ilk (s : State) :
    (wantReexam s).ilk = s.ilk := rfl

@[simp] theorem wantReexam_pts (s : State) :
    (wantReexam s).pts = s.pts := rfl

@[simp] theorem wantReexam_asp (s : State) :
    (wantReexam s).asp = s.asp := rfl

@[simp] theorem wantReexam_tt (s : State) :
    (wantReexam s).tt = s.tt := rfl

@[simp] theorem wantReexam_vis (s : State) :
    (wantReexam s).vis = s.vis := rfl

@[simp] theorem wantReexam_disp (s : State) :
    (wantReexam s).disp = s.disp := rfl

@[simp] theorem wantReexam_exch (s : State) :
    (wantReexam s).exch = s.exch := rfl

@[simp] theorem wantReexam_clock (s : State) :
    (wantReexam s).clock = s.clock := rfl

@[simp] theorem wantReexam_free (s : State) :
    (wantReexam s).free = s.free := rfl

@[simp] theorem wantReexam_work (s : State) :
    (wantReexam s).work = { s.work with reexam := true } := rfl

@[simp] theorem wantReexam_pending (s : State) :
    (wantReexam s).pending = s.pending := rfl

/-! ## wantAspects -/

@[simp] theorem wantAspects_occ (s : State) :
    (wantAspects s).occ = s.occ := rfl

@[simp] theorem wantAspects_tags (s : State) :
    (wantAspects s).tags = s.tags := rfl

@[simp] theorem wantAspects_ilk (s : State) :
    (wantAspects s).ilk = s.ilk := rfl

@[simp] theorem wantAspects_pts (s : State) :
    (wantAspects s).pts = s.pts := rfl

@[simp] theorem wantAspects_asp (s : State) :
    (wantAspects s).asp = s.asp := rfl

@[simp] theorem wantAspects_tt (s : State) :
    (wantAspects s).tt = s.tt := rfl

@[simp] theorem wantAspects_vis (s : State) :
    (wantAspects s).vis = s.vis := rfl

@[simp] theorem wantAspects_disp (s : State) :
    (wantAspects s).disp = s.disp := rfl

@[simp] theorem wantAspects_exch (s : State) :
    (wantAspects s).exch = s.exch := rfl

@[simp] theorem wantAspects_clock (s : State) :
    (wantAspects s).clock = s.clock := rfl

@[simp] theorem wantAspects_free (s : State) :
    (wantAspects s).free = s.free := rfl

@[simp] theorem wantAspects_work (s : State) :
    (wantAspects s).work = { s.work with aspects := true } := rfl

@[simp] theorem wantAspects_pending (s : State) :
    (wantAspects s).pending = s.pending := rfl

/-! ## setDeck -/

@[simp] theorem setDeck_occ (f : Turntable → Turntable) (s : State) :
    (setDeck f s).occ = s.occ := by simp [setDeck]

@[simp] theorem setDeck_tags (f : Turntable → Turntable) (s : State) :
    (setDeck f s).tags = s.tags := by simp [setDeck]

@[simp] theorem setDeck_ilk (f : Turntable → Turntable) (s : State) :
    (setDeck f s).ilk = s.ilk := by simp [setDeck]

@[simp] theorem setDeck_pts (f : Turntable → Turntable) (s : State) :
    (setDeck f s).pts = s.pts := by simp [setDeck]

@[simp] theorem setDeck_asp (f : Turntable → Turntable) (s : State) :
    (setDeck f s).asp = s.asp := by simp [setDeck]

@[simp] theorem setDeck_tt (f : Turntable → Turntable) (s : State) :
    (setDeck f s).tt = f s.tt := by simp [setDeck]

@[simp] theorem setDeck_vis (f : Turntable → Turntable) (s : State) :
    (setDeck f s).vis = s.vis := by simp [setDeck]

@[simp] theorem setDeck_disp (f : Turntable → Turntable) (s : State) :
    (setDeck f s).disp = s.disp := by simp [setDeck]

@[simp] theorem setDeck_clock (f : Turntable → Turntable) (s : State) :
    (setDeck f s).clock = s.clock := by simp [setDeck]

@[simp] theorem setDeck_free (f : Turntable → Turntable) (s : State) :
    (setDeck f s).free = s.free := by simp [setDeck]

@[simp] theorem setDeck_work (f : Turntable → Turntable) (s : State) :
    (setDeck f s).work = { s.work with lamps := true } := by simp [setDeck]

@[simp] theorem setDeck_pending (f : Turntable → Turntable) (s : State) :
    (setDeck f s).pending = s.pending := by simp [setDeck]

@[simp] theorem setDeck_latchVal (f : Turntable → Turntable) (s : State) :
    (setDeck f s).exch.latchVal = s.exch.latchVal := by simp [setDeck]

@[simp] theorem setDeck_latchOff (f : Turntable → Turntable) (s : State) :
    (setDeck f s).exch.latchOff = s.exch.latchOff := by simp [setDeck]

@[simp] theorem setDeck_paired (f : Turntable → Turntable) (s : State) :
    (setDeck f s).exch.paired = s.exch.paired := by simp [setDeck]

@[simp] theorem setDeck_bus (f : Turntable → Turntable) (s : State) :
    (setDeck f s).exch.bus = s.exch.bus := by simp [setDeck]

@[simp] theorem setDeck_inHand (f : Turntable → Turntable) (s : State) :
    (setDeck f s).exch.inHand = s.exch.inHand := by simp [setDeck]

@[simp] theorem setDeck_reading (f : Turntable → Turntable) (s : State) :
    (setDeck f s).exch.reading = s.exch.reading := by simp [setDeck]

@[simp] theorem setDeck_loads (f : Turntable → Turntable) (s : State) :
    (setDeck f s).exch.loads = s.exch.loads := by simp [setDeck]

@[simp] theorem setDeck_takePos (f : Turntable → Turntable) (s : State) :
    (setDeck f s).exch.takePos = s.exch.takePos := by simp [setDeck]

@[simp] theorem setDeck_pollTimer (f : Turntable → Turntable) (s : State) :
    (setDeck f s).exch.pollTimer = s.exch.pollTimer := by simp [setDeck]

@[simp] theorem setDeck_runState (f : Turntable → Turntable) (s : State) :
    (setDeck f s).exch.runState = s.exch.runState := by simp [setDeck]

@[simp] theorem setDeck_profile (f : Turntable → Turntable) (s : State) :
    (setDeck f s).exch.profile = s.exch.profile := by simp [setDeck]

/-! ## setTag -/

@[simp] theorem setTag_occ (t : Nat) (v : Tag) (s : State) :
    (setTag t v s).occ = s.occ := by simp [setTag]

@[simp] theorem setTag_tags (t : Nat) (v : Tag) (s : State) :
    (setTag t v s).tags = { s.tags with table := Tbl.put Tag.init s.tags.table t v } := by simp [setTag]

@[simp] theorem setTag_ilk (t : Nat) (v : Tag) (s : State) :
    (setTag t v s).ilk = s.ilk := by simp [setTag]

@[simp] theorem setTag_pts (t : Nat) (v : Tag) (s : State) :
    (setTag t v s).pts = s.pts := by simp [setTag]

@[simp] theorem setTag_asp (t : Nat) (v : Tag) (s : State) :
    (setTag t v s).asp = s.asp := by simp [setTag]

@[simp] theorem setTag_tt (t : Nat) (v : Tag) (s : State) :
    (setTag t v s).tt = s.tt := by simp [setTag]

@[simp] theorem setTag_vis (t : Nat) (v : Tag) (s : State) :
    (setTag t v s).vis = s.vis := by simp [setTag]

@[simp] theorem setTag_disp (t : Nat) (v : Tag) (s : State) :
    (setTag t v s).disp = s.disp := by simp [setTag]

@[simp] theorem setTag_clock (t : Nat) (v : Tag) (s : State) :
    (setTag t v s).clock = s.clock := by simp [setTag]

@[simp] theorem setTag_free (t : Nat) (v : Tag) (s : State) :
    (setTag t v s).free = s.free := by simp [setTag]

@[simp] theorem setTag_work (t : Nat) (v : Tag) (s : State) :
    (setTag t v s).work = s.work := by simp [setTag]

@[simp] theorem setTag_pending (t : Nat) (v : Tag) (s : State) :
    (setTag t v s).pending = s.pending := by simp [setTag]

@[simp] theorem setTag_latchVal (t : Nat) (v : Tag) (s : State) :
    (setTag t v s).exch.latchVal = s.exch.latchVal := by simp [setTag]

@[simp] theorem setTag_latchOff (t : Nat) (v : Tag) (s : State) :
    (setTag t v s).exch.latchOff = s.exch.latchOff := by simp [setTag]

@[simp] theorem setTag_paired (t : Nat) (v : Tag) (s : State) :
    (setTag t v s).exch.paired = s.exch.paired := by simp [setTag]

@[simp] theorem setTag_bus (t : Nat) (v : Tag) (s : State) :
    (setTag t v s).exch.bus = s.exch.bus := by simp [setTag]

@[simp] theorem setTag_inHand (t : Nat) (v : Tag) (s : State) :
    (setTag t v s).exch.inHand = s.exch.inHand := by simp [setTag]

@[simp] theorem setTag_reading (t : Nat) (v : Tag) (s : State) :
    (setTag t v s).exch.reading = s.exch.reading := by simp [setTag]

@[simp] theorem setTag_loads (t : Nat) (v : Tag) (s : State) :
    (setTag t v s).exch.loads = s.exch.loads := by simp [setTag]

@[simp] theorem setTag_takePos (t : Nat) (v : Tag) (s : State) :
    (setTag t v s).exch.takePos = s.exch.takePos := by simp [setTag]

@[simp] theorem setTag_pollTimer (t : Nat) (v : Tag) (s : State) :
    (setTag t v s).exch.pollTimer = s.exch.pollTimer := by simp [setTag]

@[simp] theorem setTag_runState (t : Nat) (v : Tag) (s : State) :
    (setTag t v s).exch.runState = s.exch.runState := by simp [setTag]

@[simp] theorem setTag_profile (t : Nat) (v : Tag) (s : State) :
    (setTag t v s).exch.profile = s.exch.profile := by simp [setTag]

/-! ## setTagField -/

@[simp] theorem setTagField_occ (n : Nat) (t : Option Nat) (s : State) :
    (setTagField n t s).occ = s.occ := by simp [setTagField]

@[simp] theorem setTagField_ilk (n : Nat) (t : Option Nat) (s : State) :
    (setTagField n t s).ilk = s.ilk := by simp [setTagField]

@[simp] theorem setTagField_pts (n : Nat) (t : Option Nat) (s : State) :
    (setTagField n t s).pts = s.pts := by simp [setTagField]

@[simp] theorem setTagField_asp (n : Nat) (t : Option Nat) (s : State) :
    (setTagField n t s).asp = s.asp := by simp [setTagField]

@[simp] theorem setTagField_tt (n : Nat) (t : Option Nat) (s : State) :
    (setTagField n t s).tt = s.tt := by simp [setTagField]

@[simp] theorem setTagField_vis (n : Nat) (t : Option Nat) (s : State) :
    (setTagField n t s).vis = s.vis := by simp [setTagField]

@[simp] theorem setTagField_disp (n : Nat) (t : Option Nat) (s : State) :
    (setTagField n t s).disp = s.disp := by simp [setTagField]

@[simp] theorem setTagField_clock (n : Nat) (t : Option Nat) (s : State) :
    (setTagField n t s).clock = s.clock := by simp [setTagField]

@[simp] theorem setTagField_free (n : Nat) (t : Option Nat) (s : State) :
    (setTagField n t s).free = s.free := by simp [setTagField]

@[simp] theorem setTagField_work (n : Nat) (t : Option Nat) (s : State) :
    (setTagField n t s).work = { s.work with lamps := true } := by simp [setTagField]

@[simp] theorem setTagField_pending (n : Nat) (t : Option Nat) (s : State) :
    (setTagField n t s).pending = s.pending := by simp [setTagField]

@[simp] theorem setTagField_latchVal (n : Nat) (t : Option Nat) (s : State) :
    (setTagField n t s).exch.latchVal = s.exch.latchVal := by simp [setTagField]

@[simp] theorem setTagField_latchOff (n : Nat) (t : Option Nat) (s : State) :
    (setTagField n t s).exch.latchOff = s.exch.latchOff := by simp [setTagField]

@[simp] theorem setTagField_paired (n : Nat) (t : Option Nat) (s : State) :
    (setTagField n t s).exch.paired = s.exch.paired := by simp [setTagField]

@[simp] theorem setTagField_bus (n : Nat) (t : Option Nat) (s : State) :
    (setTagField n t s).exch.bus = s.exch.bus := by simp [setTagField]

@[simp] theorem setTagField_inHand (n : Nat) (t : Option Nat) (s : State) :
    (setTagField n t s).exch.inHand = s.exch.inHand := by simp [setTagField]

@[simp] theorem setTagField_reading (n : Nat) (t : Option Nat) (s : State) :
    (setTagField n t s).exch.reading = s.exch.reading := by simp [setTagField]

@[simp] theorem setTagField_loads (n : Nat) (t : Option Nat) (s : State) :
    (setTagField n t s).exch.loads = s.exch.loads := by simp [setTagField]

@[simp] theorem setTagField_takePos (n : Nat) (t : Option Nat) (s : State) :
    (setTagField n t s).exch.takePos = s.exch.takePos := by simp [setTagField]

@[simp] theorem setTagField_pollTimer (n : Nat) (t : Option Nat) (s : State) :
    (setTagField n t s).exch.pollTimer = s.exch.pollTimer := by simp [setTagField]

@[simp] theorem setTagField_runState (n : Nat) (t : Option Nat) (s : State) :
    (setTagField n t s).exch.runState = s.exch.runState := by simp [setTagField]

@[simp] theorem setTagField_profile (n : Nat) (t : Option Nat) (s : State) :
    (setTagField n t s).exch.profile = s.exch.profile := by simp [setTagField]

/-! ## putActive -/

@[simp] theorem putActive_occ (e : Nat) (a : Active) (s : State) :
    (putActive e a s).occ = s.occ := rfl

@[simp] theorem putActive_tags (e : Nat) (a : Active) (s : State) :
    (putActive e a s).tags = s.tags := rfl

@[simp] theorem putActive_ilk (e : Nat) (a : Active) (s : State) :
    (putActive e a s).ilk = { s.ilk with active := Tbl.insert s.ilk.active e a } := rfl

@[simp] theorem putActive_pts (e : Nat) (a : Active) (s : State) :
    (putActive e a s).pts = s.pts := rfl

@[simp] theorem putActive_asp (e : Nat) (a : Active) (s : State) :
    (putActive e a s).asp = s.asp := rfl

@[simp] theorem putActive_tt (e : Nat) (a : Active) (s : State) :
    (putActive e a s).tt = s.tt := rfl

@[simp] theorem putActive_vis (e : Nat) (a : Active) (s : State) :
    (putActive e a s).vis = s.vis := rfl

@[simp] theorem putActive_disp (e : Nat) (a : Active) (s : State) :
    (putActive e a s).disp = s.disp := rfl

@[simp] theorem putActive_exch (e : Nat) (a : Active) (s : State) :
    (putActive e a s).exch = s.exch := rfl

@[simp] theorem putActive_clock (e : Nat) (a : Active) (s : State) :
    (putActive e a s).clock = s.clock := rfl

@[simp] theorem putActive_free (e : Nat) (a : Active) (s : State) :
    (putActive e a s).free = s.free := rfl

@[simp] theorem putActive_work (e : Nat) (a : Active) (s : State) :
    (putActive e a s).work = s.work := rfl

@[simp] theorem putActive_pending (e : Nat) (a : Active) (s : State) :
    (putActive e a s).pending = s.pending := rfl

/-! ## setActive -/

@[simp] theorem setActive_occ (e : Nat) (a : Active) (s : State) :
    (setActive e a s).occ = s.occ := by simp [setActive]

@[simp] theorem setActive_tags (e : Nat) (a : Active) (s : State) :
    (setActive e a s).tags = s.tags := by simp [setActive]

@[simp] theorem setActive_ilk (e : Nat) (a : Active) (s : State) :
    (setActive e a s).ilk = { s.ilk with active := Tbl.insert s.ilk.active e a } := by simp [setActive]

@[simp] theorem setActive_pts (e : Nat) (a : Active) (s : State) :
    (setActive e a s).pts = s.pts := by simp [setActive]

@[simp] theorem setActive_asp (e : Nat) (a : Active) (s : State) :
    (setActive e a s).asp = s.asp := by simp [setActive]

@[simp] theorem setActive_tt (e : Nat) (a : Active) (s : State) :
    (setActive e a s).tt = s.tt := by simp [setActive]

@[simp] theorem setActive_vis (e : Nat) (a : Active) (s : State) :
    (setActive e a s).vis = s.vis := by simp [setActive]

@[simp] theorem setActive_disp (e : Nat) (a : Active) (s : State) :
    (setActive e a s).disp = s.disp := by simp [setActive]

@[simp] theorem setActive_clock (e : Nat) (a : Active) (s : State) :
    (setActive e a s).clock = s.clock := by simp [setActive]

@[simp] theorem setActive_free (e : Nat) (a : Active) (s : State) :
    (setActive e a s).free = s.free := by simp [setActive]

@[simp] theorem setActive_work (e : Nat) (a : Active) (s : State) :
    (setActive e a s).work = s.work := by simp [setActive]

@[simp] theorem setActive_pending (e : Nat) (a : Active) (s : State) :
    (setActive e a s).pending = s.pending := by simp [setActive]

@[simp] theorem setActive_latchVal (e : Nat) (a : Active) (s : State) :
    (setActive e a s).exch.latchVal = s.exch.latchVal := by simp [setActive]

@[simp] theorem setActive_latchOff (e : Nat) (a : Active) (s : State) :
    (setActive e a s).exch.latchOff = s.exch.latchOff := by simp [setActive]

@[simp] theorem setActive_paired (e : Nat) (a : Active) (s : State) :
    (setActive e a s).exch.paired = s.exch.paired := by simp [setActive]

@[simp] theorem setActive_bus (e : Nat) (a : Active) (s : State) :
    (setActive e a s).exch.bus = s.exch.bus := by simp [setActive]

@[simp] theorem setActive_inHand (e : Nat) (a : Active) (s : State) :
    (setActive e a s).exch.inHand = s.exch.inHand := by simp [setActive]

@[simp] theorem setActive_reading (e : Nat) (a : Active) (s : State) :
    (setActive e a s).exch.reading = s.exch.reading := by simp [setActive]

@[simp] theorem setActive_loads (e : Nat) (a : Active) (s : State) :
    (setActive e a s).exch.loads = s.exch.loads := by simp [setActive]

@[simp] theorem setActive_takePos (e : Nat) (a : Active) (s : State) :
    (setActive e a s).exch.takePos = s.exch.takePos := by simp [setActive]

@[simp] theorem setActive_pollTimer (e : Nat) (a : Active) (s : State) :
    (setActive e a s).exch.pollTimer = s.exch.pollTimer := by simp [setActive]

@[simp] theorem setActive_runState (e : Nat) (a : Active) (s : State) :
    (setActive e a s).exch.runState = s.exch.runState := by simp [setActive]

@[simp] theorem setActive_profile (e : Nat) (a : Active) (s : State) :
    (setActive e a s).exch.profile = s.exch.profile := by simp [setActive]

/-! ## setStack -/

@[simp] theorem setStack_occ (l : List StackEntry) (s : State) :
    (setStack l s).occ = s.occ := by simp [setStack]

@[simp] theorem setStack_tags (l : List StackEntry) (s : State) :
    (setStack l s).tags = s.tags := by simp [setStack]

@[simp] theorem setStack_ilk (l : List StackEntry) (s : State) :
    (setStack l s).ilk = { s.ilk with stack := l } := by simp [setStack]

@[simp] theorem setStack_pts (l : List StackEntry) (s : State) :
    (setStack l s).pts = s.pts := by simp [setStack]

@[simp] theorem setStack_asp (l : List StackEntry) (s : State) :
    (setStack l s).asp = s.asp := by simp [setStack]

@[simp] theorem setStack_tt (l : List StackEntry) (s : State) :
    (setStack l s).tt = s.tt := by simp [setStack]

@[simp] theorem setStack_vis (l : List StackEntry) (s : State) :
    (setStack l s).vis = s.vis := by simp [setStack]

@[simp] theorem setStack_disp (l : List StackEntry) (s : State) :
    (setStack l s).disp = s.disp := by simp [setStack]

@[simp] theorem setStack_clock (l : List StackEntry) (s : State) :
    (setStack l s).clock = s.clock := by simp [setStack]

@[simp] theorem setStack_free (l : List StackEntry) (s : State) :
    (setStack l s).free = s.free := by simp [setStack]

@[simp] theorem setStack_work (l : List StackEntry) (s : State) :
    (setStack l s).work = s.work := by simp [setStack]

@[simp] theorem setStack_pending (l : List StackEntry) (s : State) :
    (setStack l s).pending = s.pending := by simp [setStack]

@[simp] theorem setStack_latchVal (l : List StackEntry) (s : State) :
    (setStack l s).exch.latchVal = s.exch.latchVal := by simp [setStack]

@[simp] theorem setStack_latchOff (l : List StackEntry) (s : State) :
    (setStack l s).exch.latchOff = s.exch.latchOff := by simp [setStack]

@[simp] theorem setStack_paired (l : List StackEntry) (s : State) :
    (setStack l s).exch.paired = s.exch.paired := by simp [setStack]

@[simp] theorem setStack_bus (l : List StackEntry) (s : State) :
    (setStack l s).exch.bus = s.exch.bus := by simp [setStack]

@[simp] theorem setStack_inHand (l : List StackEntry) (s : State) :
    (setStack l s).exch.inHand = s.exch.inHand := by simp [setStack]

@[simp] theorem setStack_reading (l : List StackEntry) (s : State) :
    (setStack l s).exch.reading = s.exch.reading := by simp [setStack]

@[simp] theorem setStack_loads (l : List StackEntry) (s : State) :
    (setStack l s).exch.loads = s.exch.loads := by simp [setStack]

@[simp] theorem setStack_takePos (l : List StackEntry) (s : State) :
    (setStack l s).exch.takePos = s.exch.takePos := by simp [setStack]

@[simp] theorem setStack_pollTimer (l : List StackEntry) (s : State) :
    (setStack l s).exch.pollTimer = s.exch.pollTimer := by simp [setStack]

@[simp] theorem setStack_runState (l : List StackEntry) (s : State) :
    (setStack l s).exch.runState = s.exch.runState := by simp [setStack]

@[simp] theorem setStack_profile (l : List StackEntry) (s : State) :
    (setStack l s).exch.profile = s.exch.profile := by simp [setStack]

/-! ## setHolders -/

@[simp] theorem setHolders_occ (p : Nat) (h : Holders) (s : State) :
    (setHolders p h s).occ = s.occ := by simp [setHolders]

@[simp] theorem setHolders_tags (p : Nat) (h : Holders) (s : State) :
    (setHolders p h s).tags = s.tags := by simp [setHolders]

@[simp] theorem setHolders_ilk (p : Nat) (h : Holders) (s : State) :
    (setHolders p h s).ilk = { s.ilk with holders := Tbl.put Holders.none s.ilk.holders p h } := by simp [setHolders]

@[simp] theorem setHolders_asp (p : Nat) (h : Holders) (s : State) :
    (setHolders p h s).asp = s.asp := by simp [setHolders]

@[simp] theorem setHolders_tt (p : Nat) (h : Holders) (s : State) :
    (setHolders p h s).tt = s.tt := by simp [setHolders]

@[simp] theorem setHolders_vis (p : Nat) (h : Holders) (s : State) :
    (setHolders p h s).vis = s.vis := by simp [setHolders]

@[simp] theorem setHolders_disp (p : Nat) (h : Holders) (s : State) :
    (setHolders p h s).disp = s.disp := by simp [setHolders]

@[simp] theorem setHolders_clock (p : Nat) (h : Holders) (s : State) :
    (setHolders p h s).clock = s.clock := by simp [setHolders]

@[simp] theorem setHolders_free (p : Nat) (h : Holders) (s : State) :
    (setHolders p h s).free = s.free := by simp [setHolders]

@[simp] theorem setHolders_work (p : Nat) (h : Holders) (s : State) :
    (setHolders p h s).work = s.work := by simp [setHolders]

@[simp] theorem setHolders_pending (p : Nat) (h : Holders) (s : State) :
    (setHolders p h s).pending = s.pending := by simp [setHolders]

@[simp] theorem setHolders_latchVal (p : Nat) (h : Holders) (s : State) :
    (setHolders p h s).exch.latchVal = s.exch.latchVal := by simp [setHolders]

@[simp] theorem setHolders_latchOff (p : Nat) (h : Holders) (s : State) :
    (setHolders p h s).exch.latchOff = s.exch.latchOff := by simp [setHolders]

@[simp] theorem setHolders_paired (p : Nat) (h : Holders) (s : State) :
    (setHolders p h s).exch.paired = s.exch.paired := by simp [setHolders]

@[simp] theorem setHolders_bus (p : Nat) (h : Holders) (s : State) :
    (setHolders p h s).exch.bus = s.exch.bus := by simp [setHolders]

@[simp] theorem setHolders_inHand (p : Nat) (h : Holders) (s : State) :
    (setHolders p h s).exch.inHand = s.exch.inHand := by simp [setHolders]

@[simp] theorem setHolders_reading (p : Nat) (h : Holders) (s : State) :
    (setHolders p h s).exch.reading = s.exch.reading := by simp [setHolders]

@[simp] theorem setHolders_loads (p : Nat) (h : Holders) (s : State) :
    (setHolders p h s).exch.loads = s.exch.loads := by simp [setHolders]

@[simp] theorem setHolders_takePos (p : Nat) (h : Holders) (s : State) :
    (setHolders p h s).exch.takePos = s.exch.takePos := by simp [setHolders]

@[simp] theorem setHolders_pollTimer (p : Nat) (h : Holders) (s : State) :
    (setHolders p h s).exch.pollTimer = s.exch.pollTimer := by simp [setHolders]

@[simp] theorem setHolders_runState (p : Nat) (h : Holders) (s : State) :
    (setHolders p h s).exch.runState = s.exch.runState := by simp [setHolders]

@[simp] theorem setHolders_profile (p : Nat) (h : Holders) (s : State) :
    (setHolders p h s).exch.profile = s.exch.profile := by simp [setHolders]

/-! ## setSignal -/

@[simp] theorem setSignal_occ (x : Nat) (f : SignalState → SignalState) (s : State) :
    (setSignal x f s).occ = s.occ := rfl

@[simp] theorem setSignal_tags (x : Nat) (f : SignalState → SignalState) (s : State) :
    (setSignal x f s).tags = s.tags := rfl

@[simp] theorem setSignal_ilk (x : Nat) (f : SignalState → SignalState) (s : State) :
    (setSignal x f s).ilk = s.ilk := rfl

@[simp] theorem setSignal_pts (x : Nat) (f : SignalState → SignalState) (s : State) :
    (setSignal x f s).pts = s.pts := rfl

@[simp] theorem setSignal_asp (x : Nat) (f : SignalState → SignalState) (s : State) :
    (setSignal x f s).asp = { s.asp with state := Tbl.modify s.asp.state x f } := rfl

@[simp] theorem setSignal_tt (x : Nat) (f : SignalState → SignalState) (s : State) :
    (setSignal x f s).tt = s.tt := rfl

@[simp] theorem setSignal_vis (x : Nat) (f : SignalState → SignalState) (s : State) :
    (setSignal x f s).vis = s.vis := rfl

@[simp] theorem setSignal_disp (x : Nat) (f : SignalState → SignalState) (s : State) :
    (setSignal x f s).disp = s.disp := rfl

@[simp] theorem setSignal_exch (x : Nat) (f : SignalState → SignalState) (s : State) :
    (setSignal x f s).exch = s.exch := rfl

@[simp] theorem setSignal_clock (x : Nat) (f : SignalState → SignalState) (s : State) :
    (setSignal x f s).clock = s.clock := rfl

@[simp] theorem setSignal_free (x : Nat) (f : SignalState → SignalState) (s : State) :
    (setSignal x f s).free = s.free := rfl

@[simp] theorem setSignal_work (x : Nat) (f : SignalState → SignalState) (s : State) :
    (setSignal x f s).work = { s.work with lamps := true } := rfl

@[simp] theorem setSignal_pending (x : Nat) (f : SignalState → SignalState) (s : State) :
    (setSignal x f s).pending = s.pending := rfl

/-! ## setVisitors -/

@[simp] theorem setVisitors_occ (f : VisitorUnit → VisitorUnit) (s : State) :
    (setVisitors f s).occ = s.occ := rfl

@[simp] theorem setVisitors_tags (f : VisitorUnit → VisitorUnit) (s : State) :
    (setVisitors f s).tags = s.tags := rfl

@[simp] theorem setVisitors_ilk (f : VisitorUnit → VisitorUnit) (s : State) :
    (setVisitors f s).ilk = s.ilk := rfl

@[simp] theorem setVisitors_pts (f : VisitorUnit → VisitorUnit) (s : State) :
    (setVisitors f s).pts = s.pts := rfl

@[simp] theorem setVisitors_asp (f : VisitorUnit → VisitorUnit) (s : State) :
    (setVisitors f s).asp = s.asp := rfl

@[simp] theorem setVisitors_tt (f : VisitorUnit → VisitorUnit) (s : State) :
    (setVisitors f s).tt = s.tt := rfl

@[simp] theorem setVisitors_vis (f : VisitorUnit → VisitorUnit) (s : State) :
    (setVisitors f s).vis = f s.vis := rfl

@[simp] theorem setVisitors_disp (f : VisitorUnit → VisitorUnit) (s : State) :
    (setVisitors f s).disp = s.disp := rfl

@[simp] theorem setVisitors_exch (f : VisitorUnit → VisitorUnit) (s : State) :
    (setVisitors f s).exch = s.exch := rfl

@[simp] theorem setVisitors_clock (f : VisitorUnit → VisitorUnit) (s : State) :
    (setVisitors f s).clock = s.clock := rfl

@[simp] theorem setVisitors_free (f : VisitorUnit → VisitorUnit) (s : State) :
    (setVisitors f s).free = s.free := rfl

@[simp] theorem setVisitors_work (f : VisitorUnit → VisitorUnit) (s : State) :
    (setVisitors f s).work = s.work := rfl

@[simp] theorem setVisitors_pending (f : VisitorUnit → VisitorUnit) (s : State) :
    (setVisitors f s).pending = s.pending := rfl

/-! ## loadIdle -/

@[simp] theorem loadIdle_occ (t : Nat) (s : State) :
    (loadIdle t s).occ = s.occ := rfl

@[simp] theorem loadIdle_tags (t : Nat) (s : State) :
    (loadIdle t s).tags = s.tags := rfl

@[simp] theorem loadIdle_ilk (t : Nat) (s : State) :
    (loadIdle t s).ilk = s.ilk := rfl

@[simp] theorem loadIdle_pts (t : Nat) (s : State) :
    (loadIdle t s).pts = s.pts := rfl

@[simp] theorem loadIdle_asp (t : Nat) (s : State) :
    (loadIdle t s).asp = s.asp := rfl

@[simp] theorem loadIdle_tt (t : Nat) (s : State) :
    (loadIdle t s).tt = s.tt := rfl

@[simp] theorem loadIdle_vis (t : Nat) (s : State) :
    (loadIdle t s).vis = s.vis := rfl

@[simp] theorem loadIdle_disp (t : Nat) (s : State) :
    (loadIdle t s).disp = { s.disp with idleTimer := if t = 0 then none else some (1000 * t), idleRun := t } := rfl

@[simp] theorem loadIdle_exch (t : Nat) (s : State) :
    (loadIdle t s).exch = s.exch := rfl

@[simp] theorem loadIdle_clock (t : Nat) (s : State) :
    (loadIdle t s).clock = s.clock := rfl

@[simp] theorem loadIdle_free (t : Nat) (s : State) :
    (loadIdle t s).free = s.free := rfl

@[simp] theorem loadIdle_work (t : Nat) (s : State) :
    (loadIdle t s).work = s.work := rfl

@[simp] theorem loadIdle_pending (t : Nat) (s : State) :
    (loadIdle t s).pending = s.pending := rfl

/-! ## stopIdle -/

@[simp] theorem stopIdle_occ (s : State) :
    (stopIdle s).occ = s.occ := rfl

@[simp] theorem stopIdle_tags (s : State) :
    (stopIdle s).tags = s.tags := rfl

@[simp] theorem stopIdle_ilk (s : State) :
    (stopIdle s).ilk = s.ilk := rfl

@[simp] theorem stopIdle_pts (s : State) :
    (stopIdle s).pts = s.pts := rfl

@[simp] theorem stopIdle_asp (s : State) :
    (stopIdle s).asp = s.asp := rfl

@[simp] theorem stopIdle_tt (s : State) :
    (stopIdle s).tt = s.tt := rfl

@[simp] theorem stopIdle_vis (s : State) :
    (stopIdle s).vis = s.vis := rfl

@[simp] theorem stopIdle_disp (s : State) :
    (stopIdle s).disp = { s.disp with idleTimer := none } := rfl

@[simp] theorem stopIdle_exch (s : State) :
    (stopIdle s).exch = s.exch := rfl

@[simp] theorem stopIdle_clock (s : State) :
    (stopIdle s).clock = s.clock := rfl

@[simp] theorem stopIdle_free (s : State) :
    (stopIdle s).free = s.free := rfl

@[simp] theorem stopIdle_work (s : State) :
    (stopIdle s).work = s.work := rfl

@[simp] theorem stopIdle_pending (s : State) :
    (stopIdle s).pending = s.pending := rfl

/-! ## setHead -/

@[simp] theorem setHead_occ (k : Nat) (h : Head) (s : State) :
    (setHead k h s).occ = { s.occ with heads := Tbl.insert s.occ.heads k h } := rfl

@[simp] theorem setHead_tags (k : Nat) (h : Head) (s : State) :
    (setHead k h s).tags = s.tags := rfl

@[simp] theorem setHead_ilk (k : Nat) (h : Head) (s : State) :
    (setHead k h s).ilk = s.ilk := rfl

@[simp] theorem setHead_pts (k : Nat) (h : Head) (s : State) :
    (setHead k h s).pts = s.pts := rfl

@[simp] theorem setHead_asp (k : Nat) (h : Head) (s : State) :
    (setHead k h s).asp = s.asp := rfl

@[simp] theorem setHead_tt (k : Nat) (h : Head) (s : State) :
    (setHead k h s).tt = s.tt := rfl

@[simp] theorem setHead_vis (k : Nat) (h : Head) (s : State) :
    (setHead k h s).vis = s.vis := rfl

@[simp] theorem setHead_disp (k : Nat) (h : Head) (s : State) :
    (setHead k h s).disp = s.disp := rfl

@[simp] theorem setHead_exch (k : Nat) (h : Head) (s : State) :
    (setHead k h s).exch = s.exch := rfl

@[simp] theorem setHead_clock (k : Nat) (h : Head) (s : State) :
    (setHead k h s).clock = s.clock := rfl

@[simp] theorem setHead_free (k : Nat) (h : Head) (s : State) :
    (setHead k h s).free = s.free := rfl

@[simp] theorem setHead_work (k : Nat) (h : Head) (s : State) :
    (setHead k h s).work = s.work := rfl

@[simp] theorem setHead_pending (k : Nat) (h : Head) (s : State) :
    (setHead k h s).pending = s.pending := rfl

/-! ## takeSlot -/

@[simp] theorem takeSlot_occ (n : Nat) (g : HostTag) (s : State) :
    (takeSlot n g s).occ = s.occ := by simp [takeSlot]

@[simp] theorem takeSlot_tags (n : Nat) (g : HostTag) (s : State) :
    (takeSlot n g s).tags = s.tags := by simp [takeSlot]

@[simp] theorem takeSlot_ilk (n : Nat) (g : HostTag) (s : State) :
    (takeSlot n g s).ilk = s.ilk := by simp [takeSlot]

@[simp] theorem takeSlot_pts (n : Nat) (g : HostTag) (s : State) :
    (takeSlot n g s).pts = s.pts := by simp [takeSlot]

@[simp] theorem takeSlot_asp (n : Nat) (g : HostTag) (s : State) :
    (takeSlot n g s).asp = s.asp := by simp [takeSlot]

@[simp] theorem takeSlot_tt (n : Nat) (g : HostTag) (s : State) :
    (takeSlot n g s).tt = s.tt := by simp [takeSlot]

@[simp] theorem takeSlot_vis (n : Nat) (g : HostTag) (s : State) :
    (takeSlot n g s).vis = s.vis := by simp [takeSlot]

@[simp] theorem takeSlot_disp (n : Nat) (g : HostTag) (s : State) :
    (takeSlot n g s).disp = s.disp := by simp [takeSlot]

@[simp] theorem takeSlot_clock (n : Nat) (g : HostTag) (s : State) :
    (takeSlot n g s).clock = s.clock := by simp [takeSlot]

@[simp] theorem takeSlot_free (n : Nat) (g : HostTag) (s : State) :
    (takeSlot n g s).free = s.free := by simp [takeSlot]

@[simp] theorem takeSlot_work (n : Nat) (g : HostTag) (s : State) :
    (takeSlot n g s).work = s.work := by simp [takeSlot]

@[simp] theorem takeSlot_pending (n : Nat) (g : HostTag) (s : State) :
    (takeSlot n g s).pending = s.pending := by simp [takeSlot]

@[simp] theorem takeSlot_latchVal (n : Nat) (g : HostTag) (s : State) :
    (takeSlot n g s).exch.latchVal = s.exch.latchVal := by simp [takeSlot]

@[simp] theorem takeSlot_latchOff (n : Nat) (g : HostTag) (s : State) :
    (takeSlot n g s).exch.latchOff = s.exch.latchOff := by simp [takeSlot]

@[simp] theorem takeSlot_paired (n : Nat) (g : HostTag) (s : State) :
    (takeSlot n g s).exch.paired = s.exch.paired := by simp [takeSlot]

@[simp] theorem takeSlot_bus (n : Nat) (g : HostTag) (s : State) :
    (takeSlot n g s).exch.bus = s.exch.bus := by simp [takeSlot]

@[simp] theorem takeSlot_reading (n : Nat) (g : HostTag) (s : State) :
    (takeSlot n g s).exch.reading = s.exch.reading := by simp [takeSlot]

@[simp] theorem takeSlot_loads (n : Nat) (g : HostTag) (s : State) :
    (takeSlot n g s).exch.loads = s.exch.loads := by simp [takeSlot]

@[simp] theorem takeSlot_pollTimer (n : Nat) (g : HostTag) (s : State) :
    (takeSlot n g s).exch.pollTimer = s.exch.pollTimer := by simp [takeSlot]

@[simp] theorem takeSlot_runState (n : Nat) (g : HostTag) (s : State) :
    (takeSlot n g s).exch.runState = s.exch.runState := by simp [takeSlot]

@[simp] theorem takeSlot_profile (n : Nat) (g : HostTag) (s : State) :
    (takeSlot n g s).exch.profile = s.exch.profile := by simp [takeSlot]

/-! ## postSlot -/

@[simp] theorem postSlot_occ (n : Nat) (r : Request) (s : State) :
    (postSlot n r s).occ = s.occ := by simp [postSlot]

@[simp] theorem postSlot_tags (n : Nat) (r : Request) (s : State) :
    (postSlot n r s).tags = s.tags := by simp [postSlot]

@[simp] theorem postSlot_ilk (n : Nat) (r : Request) (s : State) :
    (postSlot n r s).ilk = s.ilk := by simp [postSlot]

@[simp] theorem postSlot_pts (n : Nat) (r : Request) (s : State) :
    (postSlot n r s).pts = s.pts := by simp [postSlot]

@[simp] theorem postSlot_asp (n : Nat) (r : Request) (s : State) :
    (postSlot n r s).asp = s.asp := by simp [postSlot]

@[simp] theorem postSlot_tt (n : Nat) (r : Request) (s : State) :
    (postSlot n r s).tt = s.tt := by simp [postSlot]

@[simp] theorem postSlot_vis (n : Nat) (r : Request) (s : State) :
    (postSlot n r s).vis = s.vis := by simp [postSlot]

@[simp] theorem postSlot_disp (n : Nat) (r : Request) (s : State) :
    (postSlot n r s).disp = s.disp := by simp [postSlot]

@[simp] theorem postSlot_clock (n : Nat) (r : Request) (s : State) :
    (postSlot n r s).clock = s.clock := by simp [postSlot]

@[simp] theorem postSlot_free (n : Nat) (r : Request) (s : State) :
    (postSlot n r s).free = s.free := by simp [postSlot]

@[simp] theorem postSlot_work (n : Nat) (r : Request) (s : State) :
    (postSlot n r s).work = s.work := by simp [postSlot]

@[simp] theorem postSlot_pending (n : Nat) (r : Request) (s : State) :
    (postSlot n r s).pending = s.pending := by simp [postSlot]

@[simp] theorem postSlot_latchVal (n : Nat) (r : Request) (s : State) :
    (postSlot n r s).exch.latchVal = s.exch.latchVal := by simp [postSlot]

@[simp] theorem postSlot_latchOff (n : Nat) (r : Request) (s : State) :
    (postSlot n r s).exch.latchOff = s.exch.latchOff := by simp [postSlot]

@[simp] theorem postSlot_bus (n : Nat) (r : Request) (s : State) :
    (postSlot n r s).exch.bus = s.exch.bus := by simp [postSlot]

@[simp] theorem postSlot_inHand (n : Nat) (r : Request) (s : State) :
    (postSlot n r s).exch.inHand = s.exch.inHand := by simp [postSlot]

@[simp] theorem postSlot_reading (n : Nat) (r : Request) (s : State) :
    (postSlot n r s).exch.reading = s.exch.reading := by simp [postSlot]

@[simp] theorem postSlot_loads (n : Nat) (r : Request) (s : State) :
    (postSlot n r s).exch.loads = s.exch.loads := by simp [postSlot]

@[simp] theorem postSlot_takePos (n : Nat) (r : Request) (s : State) :
    (postSlot n r s).exch.takePos = s.exch.takePos := by simp [postSlot]

@[simp] theorem postSlot_pollTimer (n : Nat) (r : Request) (s : State) :
    (postSlot n r s).exch.pollTimer = s.exch.pollTimer := by simp [postSlot]

@[simp] theorem postSlot_runState (n : Nat) (r : Request) (s : State) :
    (postSlot n r s).exch.runState = s.exch.runState := by simp [postSlot]

@[simp] theorem postSlot_profile (n : Nat) (r : Request) (s : State) :
    (postSlot n r s).exch.profile = s.exch.profile := by simp [postSlot]

/-! ## setLoads -/

@[simp] theorem setLoads_occ (r : Option Load) (l : List Load) (s : State) :
    (setLoads r l s).occ = s.occ := rfl

@[simp] theorem setLoads_tags (r : Option Load) (l : List Load) (s : State) :
    (setLoads r l s).tags = s.tags := rfl

@[simp] theorem setLoads_ilk (r : Option Load) (l : List Load) (s : State) :
    (setLoads r l s).ilk = s.ilk := rfl

@[simp] theorem setLoads_pts (r : Option Load) (l : List Load) (s : State) :
    (setLoads r l s).pts = s.pts := rfl

@[simp] theorem setLoads_asp (r : Option Load) (l : List Load) (s : State) :
    (setLoads r l s).asp = s.asp := rfl

@[simp] theorem setLoads_tt (r : Option Load) (l : List Load) (s : State) :
    (setLoads r l s).tt = s.tt := rfl

@[simp] theorem setLoads_vis (r : Option Load) (l : List Load) (s : State) :
    (setLoads r l s).vis = s.vis := rfl

@[simp] theorem setLoads_disp (r : Option Load) (l : List Load) (s : State) :
    (setLoads r l s).disp = s.disp := rfl

@[simp] theorem setLoads_exch (r : Option Load) (l : List Load) (s : State) :
    (setLoads r l s).exch = { s.exch with reading := r, loads := l } := rfl

@[simp] theorem setLoads_clock (r : Option Load) (l : List Load) (s : State) :
    (setLoads r l s).clock = s.clock := rfl

@[simp] theorem setLoads_free (r : Option Load) (l : List Load) (s : State) :
    (setLoads r l s).free = s.free := rfl

@[simp] theorem setLoads_work (r : Option Load) (l : List Load) (s : State) :
    (setLoads r l s).work = s.work := rfl

@[simp] theorem setLoads_pending (r : Option Load) (l : List Load) (s : State) :
    (setLoads r l s).pending = s.pending := rfl

/-! ## breakPairing -/

@[simp] theorem breakPairing_occ (s : State) :
    (breakPairing s).occ = s.occ := rfl

@[simp] theorem breakPairing_tags (s : State) :
    (breakPairing s).tags = s.tags := rfl

@[simp] theorem breakPairing_ilk (s : State) :
    (breakPairing s).ilk = s.ilk := rfl

@[simp] theorem breakPairing_pts (s : State) :
    (breakPairing s).pts = s.pts := rfl

@[simp] theorem breakPairing_asp (s : State) :
    (breakPairing s).asp = s.asp := rfl

@[simp] theorem breakPairing_tt (s : State) :
    (breakPairing s).tt = s.tt := rfl

@[simp] theorem breakPairing_vis (s : State) :
    (breakPairing s).vis = s.vis := rfl

@[simp] theorem breakPairing_disp (s : State) :
    (breakPairing s).disp = s.disp := rfl

@[simp] theorem breakPairing_exch (s : State) :
    (breakPairing s).exch = { s.exch with paired := false } := rfl

@[simp] theorem breakPairing_clock (s : State) :
    (breakPairing s).clock = s.clock := rfl

@[simp] theorem breakPairing_free (s : State) :
    (breakPairing s).free = s.free := rfl

@[simp] theorem breakPairing_work (s : State) :
    (breakPairing s).work = s.work := rfl

@[simp] theorem breakPairing_pending (s : State) :
    (breakPairing s).pending = s.pending := rfl

/-! ## drive -/

@[simp] theorem drive_occ (v : Half) (s : State) :
    (drive v s).occ = s.occ := rfl

@[simp] theorem drive_tags (v : Half) (s : State) :
    (drive v s).tags = s.tags := rfl

@[simp] theorem drive_ilk (v : Half) (s : State) :
    (drive v s).ilk = s.ilk := rfl

@[simp] theorem drive_pts (v : Half) (s : State) :
    (drive v s).pts = s.pts := rfl

@[simp] theorem drive_asp (v : Half) (s : State) :
    (drive v s).asp = s.asp := rfl

@[simp] theorem drive_tt (v : Half) (s : State) :
    (drive v s).tt = s.tt := rfl

@[simp] theorem drive_vis (v : Half) (s : State) :
    (drive v s).vis = s.vis := rfl

@[simp] theorem drive_disp (v : Half) (s : State) :
    (drive v s).disp = s.disp := rfl

@[simp] theorem drive_exch (v : Half) (s : State) :
    (drive v s).exch = { s.exch with bus := v } := rfl

@[simp] theorem drive_clock (v : Half) (s : State) :
    (drive v s).clock = s.clock := rfl

@[simp] theorem drive_free (v : Half) (s : State) :
    (drive v s).free = s.free := rfl

@[simp] theorem drive_work (v : Half) (s : State) :
    (drive v s).work = s.work := rfl

@[simp] theorem drive_pending (v : Half) (s : State) :
    (drive v s).pending = s.pending := rfl

end Sys2Proof.Machine
end

