-- ==== Sys2Proof/Laws/Calm.lean ====
section
/-! SUPPORT. The end of a handling that leaves nothing to do: no show step has ended, no show can be taken, the dispatcher
has no order to act on and the stack is empty. It then changes the outputs alone: exchange memory, the log, the attention
line, the aspects, the lamps and the levels. -/

namespace Sys2Proof.Machine

/-- A state with its outputs blanked. -/
def calm (s : State) : State :=
  { body s with disp := { s.disp with shown := [], levels := [] }, vis := { s.vis with lamps := [] },
                asp := { s.asp with state := [] }, work := { s.work with aspects := false, lamps := false } }

theorem calm_of_body {s t : State} (h : body s = body t) : calm s = calm t := by
  have h1 : calm s = calm (body s) := rfl
  have h2 : calm t = calm (body t) := rfl
  rw [h1, h2, h]

@[simp] theorem calm_evalStop (s : State) : calm (evalStop s) = calm s := rfl

@[simp] theorem calm_report (k : ReportKind) (x v1 v2 : Nat) (s : State) : calm (report k x v1 v2 s) = calm s :=
  calm_of_body (body_report k x v1 v2 s)

@[simp] theorem calm_mirrorSignal (n : Nat) (s : State) : calm (mirrorSignal n s) = calm s :=
  calm_of_body (body_mirrorSignal n s)

@[simp] theorem calm_mirrorLampWord (n : Nat) (s : State) : calm (mirrorLampWord n s) = calm s :=
  calm_of_body (body_mirrorLampWord n s)

@[simp] theorem calm_settleVisitorWord (b : State) (k : Nat) (s : State) : calm (settleVisitorWord b k s) = calm s :=
  calm_of_body (body_settleVisitorWord b k s)

@[simp] theorem calm_setSignal (x : Nat) (f : SignalState → SignalState) (s : State) : calm (setSignal x f s) = calm s :=
  rfl

theorem calm_eachDo (l : List Nat) (f : Nat → State → State) (s : State) (h : ∀ n t, calm (f n t) = calm t) :
    calm (eachDo l f s) = calm s := by
  unfold eachDo
  induction l generalizing s with
  | nil => rfl
  | cons n l ih => rw [List.foldl_cons, ih, h]

@[simp] theorem calm_recomputeOne (x : Nat) (s : State) : calm (recomputeOne x s) = calm s := by
  unfold recomputeOne; split
  · dsimp only; split <;> simp
  · rfl

@[simp] theorem calm_recomputeAspects (s : State) : calm (recomputeAspects s) = calm s := by
  unfold recomputeAspects; split
  · rw [calm_eachDo _ _ _ (by simp)]; rfl
  · rfl

@[simp] theorem calm_settleOne (x : Nat) (s : State) : calm (settleOne x s) = calm s := by
  unfold settleOne; split
  · rfl
  · dsimp only; split
    · rfl
    · rw [calm_mirrorLampWord]; rfl

@[simp] theorem calm_settleLamps (s : State) : calm (settleLamps s) = calm s := by
  unfold settleLamps; split
  · rw [calm_eachDo _ _ _ (by simp)]; rfl
  · rfl

@[simp] theorem calm_settleButton (b : Nat) (s : State) : calm (settleButton b s) = calm s := rfl

@[simp] theorem calm_settleButtons (s : State) : calm (settleButtons s) = calm s := by
  unfold settleButtons; exact calm_eachDo _ _ _ (by simp)

@[simp] theorem calm_settleVisitors (b s : State) : calm (settleVisitors b s) = calm s := by
  unfold settleVisitors; rw [calm_eachDo _ _ _ (by simp)]; simp

@[simp] theorem calm_refreshLevels (s : State) : calm (refreshLevels s) = calm s := rfl

/-- No show can be taken: the queue is empty, or the runner may not take its head (R161). -/
def noHead (s : State) : Bool := s.vis.queue.isEmpty || !mayTakeHead s

theorem runVisitor_idle (s : State) (h : s.work.step = none) : runVisitor s = s := by
  unfold runVisitor runSteps; simp [h]

theorem testHeads_idle (n : Nat) (s : State) (h : noHead s = true) : testHeads n s = s := by
  cases n with
  | zero => rfl
  | succ n => unfold testHeads; unfold noHead at h; simp [h]

theorem calm_endHandling (b s : State) (h1 : s.work.step = none) (h2 : noHead s = true) :
    calm (endHandling b s) = calm s := by
  unfold endHandling
  rw [runVisitor_idle s h1, testHeads_idle 16 s h2]
  simp

/-- An order of the queue that a pass leaves as it is (R95). -/
def staysQueued (s : State) (o : Order) : Bool :=
  match Tbl.find s.pts.recs o.point with
  | none => true
  | some r =>
    match o.phase with
    | .pulse | .window | .travel => true
    | .retry => s.pts.unit != .ready
    | .queued =>
      s.asp.cond == .allStop
        || (detLie s o.point != o.lie.det
          && (if !secClear s r.sec then
                match o.origin with
                | .route _ => true
                | .slot _ => false
              else
                match r.motor with
                | .solenoid => s.pts.unit != .ready
                | .slow => decide (s.pts.slowLimit ≤ travelling s)))

/-- The dispatcher has no order to act on. -/
def dispatchIdle (s : State) : Bool := s.pts.queue.all (staysQueued s)

theorem dispatchOne_stays (p : Nat) (s : State) (h : dispatchIdle s = true) : dispatchOne p s = s := by
  unfold dispatchOne
  split
  · rename_i o r ho hr
    have hp : o.point = p := by have := List.find?_some ho; simpa using this
    have hs : staysQueued s o = true := by
      unfold dispatchIdle at h
      exact (List.all_eq_true.1 h) o (List.mem_of_find?_eq_some ho)
    subst hp
    unfold staysQueued at hs
    rw [hr] at hs
    dsimp only at hs
    split
    · rename_i hph; rw [hph] at hs; simp at hs; simp [hs]
    · rename_i hph
      rw [hph] at hs
      split
      · rfl
      · rename_i hc
        have hc' : (s.asp.cond == RunCondition.allStop) = false := by simpa using hc
        simp only [hc', Bool.false_or, Bool.and_eq_true, bne_iff_ne, ne_eq] at hs
        obtain ⟨h1, h2⟩ := hs
        unfold dispatchQueued
        have h1' : ¬ (detLie s o.point == o.lie.det) = true := by simpa using h1
        rw [if_neg h1']
        split
        · rename_i hsec
          rw [if_pos hsec] at h2
          split
          · rfl
          · rename_i horg; rw [horg] at h2; simp at h2
        · rename_i hsec
          rw [if_neg hsec] at h2
          split
          · rename_i hm; rw [hm] at h2; simp at h2; simp [h2]
          · rename_i hm; rw [hm] at h2; simp at h2; rw [if_neg (by omega)]
    all_goals rfl
  · rfl

theorem dispatcherPass_idle (s : State) (h : dispatchIdle s = true) : dispatcherPass s = s := by
  unfold dispatcherPass eachDo
  generalize s.pts.queue.map Order.point = l
  induction l with
  | nil => rfl
  | cons p l ih => rw [List.foldl_cons, dispatchOne_stays p s h, ih]

theorem noHead_of_calm {s t : State} (h : calm s = calm t) : noHead s = noHead t := by
  have h1 : noHead s = noHead (calm s) := rfl
  have h2 : noHead t = noHead (calm t) := rfl
  rw [h1, h2, h]

theorem dispatchIdle_of_calm {s t : State} (h : calm s = calm t) : dispatchIdle s = dispatchIdle t := by
  have h1 : dispatchIdle s = dispatchIdle (calm s) := rfl
  have h2 : dispatchIdle t = dispatchIdle (calm t) := rfl
  rw [h1, h2, h]

theorem stack_of_calm {s t : State} (h : calm s = calm t) : s.ilk.stack = t.ilk.stack := by
  have g := congrArg (fun u : State => u.ilk.stack) h; exact g

theorem reexamine_empty (s : State) (h : s.ilk.stack = []) :
    reexamine s = { s with work := { s.work with reexam := false } } := by
  unfold reexamine; simp [h, eachDo]

/-- Nothing is left to do at the end of a handling. -/
def quietEnd (s : State) : Bool :=
  s.work.step.isNone && noHead s && (!s.work.pass || dispatchIdle s) && (!s.work.reexam || s.ilk.stack.isEmpty)

/-- `calm` with the pass and the re-examination done. -/
def calmDone (s : State) : State := { calm s with work := { (calm s).work with pass := false, reexam := false } }

theorem quietEnd_of_calm {s t : State} (h : calm s = calm t) : quietEnd s = quietEnd t := by
  have h1 : quietEnd s = quietEnd (calm s) := rfl
  have h2 : quietEnd t = quietEnd (calm t) := rfl
  rw [h1, h2, h]

theorem calmDone_of_calm {s t : State} (h : calm s = calm t) : calmDone s = calmDone t := by
  unfold calmDone; rw [h]

theorem calmDone_afterReexam (n : Nat) (s : State) (h : quietEnd s = true) (hp : s.work.pass = false) :
    calmDone (afterWork (n + 2) s) = calmDone s := by
  unfold afterWork
  rw [hp]
  simp only [Bool.false_eq_true, if_false]
  split
  · rename_i hr
    have hst : s.ilk.stack = [] := by
      unfold quietEnd at h; rw [hr] at h; simp at h; exact h.2
    rw [reexamine_empty s hst]
    have hstep : s.work.step = none := by unfold quietEnd at h; simp at h; exact h.1.1.1
    have hhead : noHead s = true := by unfold quietEnd at h; simp at h; exact h.1.1.2
    have hc := calm_endHandling s { s with work := { s.work with reexam := false } } hstep hhead
    generalize hu : endHandling s { s with work := { s.work with reexam := false } } = u at hc
    have hw : u.work.pass = false ∧ u.work.reexam = false := by
      have g1 := congrArg (fun t : State => t.work.pass) hc
      have g2 := congrArg (fun t : State => t.work.reexam) hc
      exact ⟨g1.trans hp, g2⟩
    unfold afterWork
    rw [hw.1, hw.2]
    simp only [Bool.false_eq_true, if_false]
    rw [calmDone_of_calm hc]; rfl
  · rfl

theorem calmDone_afterWork (n : Nat) (s : State) (h : quietEnd s = true) :
    calmDone (afterWork (n + 3) s) = calmDone s := by
  cases hp : s.work.pass
  · exact calmDone_afterReexam (n + 1) s h hp
  · unfold afterWork
    rw [hp]
    simp only [if_true]
    have hd : dispatchIdle s = true := by unfold quietEnd at h; rw [hp] at h; simp at h; exact h.1.2
    have hd' : dispatchIdle { s with work := { s.work with pass := false } } = true := hd
    rw [dispatcherPass_idle _ hd']
    have hstep : s.work.step = none := by unfold quietEnd at h; simp at h; exact h.1.1.1
    have hhead : noHead s = true := by unfold quietEnd at h; simp at h; exact h.1.1.2
    have hc := calm_endHandling s { s with work := { s.work with pass := false } } hstep hhead
    generalize hu : endHandling s { s with work := { s.work with pass := false } } = u at hc
    have hw : u.work.pass = false := by
      have g1 := congrArg (fun t : State => t.work.pass) hc
      exact g1
    have hq : quietEnd u = true := by
      rw [quietEnd_of_calm hc]
      unfold quietEnd at h ⊢
      simp at h ⊢
      exact ⟨⟨h.1.1.1, h.1.1.2⟩, h.2⟩
    rw [calmDone_afterReexam n u hq hw, calmDone_of_calm hc]
    rfl

/-- The end of a handling that leaves nothing to do changes the outputs alone. -/
theorem calmDone_finish (b s : State) (h : quietEnd s = true) : calmDone (finish b s) = { calm s with work := Work.none } := by
  have hstep : s.work.step = none := by unfold quietEnd at h; simp at h; exact h.1.1.1
  have hhead : noHead s = true := by unfold quietEnd at h; simp at h; exact h.1.1.2
  have hc := calm_endHandling b s hstep hhead
  have hq : quietEnd (endHandling b s) = true := by rw [quietEnd_of_calm hc]; exact h
  have ha : calmDone (afterWork 4096 (endHandling b s)) = calmDone s := by
    rw [calmDone_afterWork 4093 _ hq, calmDone_of_calm hc]
  have h1 : calmDone (finish b s)
      = { calmDone (afterWork 4096 (endHandling b s)) with work := Work.none } := rfl
  rw [h1, ha]
  rfl

end Sys2Proof.Machine
end

