-- ==== Sys2Proof/Laws/Kept.lean ====
section
/-! SUPPORT. What the end of a handling leaves alone: the fields of the state that no block writes while a handling is
brought to its end. -/

namespace Sys2Proof.Machine

/-- The fields that only a command's own block writes. -/
structure Kept where
  occ : OccUnit
  tags : TagUnit
  routes : Tbl RouteRec
  stackTimeout : Nat
  quota : Nat
  pointRecs : Tbl PointRec
  contacts : Tbl Contact
  pulseTime : Nat
  rechargeTime : Nat
  window : Nat
  slowLimit : Nat
  signalRecs : Tbl SignalRec
  cond : RunCondition
  cause : Option StopCause
  power : Bool
  stopFilter : Filter
  response : Response
  deck : Option DeckRec
  roads : Tbl Road
  boltIn : Contact
  boltOutC : Contact
  jogPermitted : Bool
  filters : Tbl Filter
  shows : Tbl ShowRec
  suspended : Bool
  busy : Nat
  bind : Tbl Lamp
  flash : Nat
  idle1 : Nat
  idle2 : Nat
  idle3 : Nat
  runState : RunState
  profile : Profile
  takePos : Nat
  reading : Option Load
  loads : List Load
  latchVal : Half
  latchOff : Nat
  paired : Bool
  bus : Half
  pollTimer : Option Nat
  clock : Nat
  pending : List Instr

/-- Those fields of a state. -/
def kept (s : State) : Kept :=
  { occ := s.occ, tags := s.tags, routes := s.ilk.routes, stackTimeout := s.ilk.stackTimeout, quota := s.ilk.quota,
    pointRecs := s.pts.recs, contacts := s.pts.contacts, pulseTime := s.pts.pulseTime,
    rechargeTime := s.pts.rechargeTime, window := s.pts.window, slowLimit := s.pts.slowLimit,
    signalRecs := s.asp.recs, cond := s.asp.cond, cause := s.asp.cause, power := s.asp.power,
    stopFilter := s.asp.stopFilter, response := s.asp.response, deck := s.tt.deck, roads := s.tt.roads,
    boltIn := s.tt.boltIn, boltOutC := s.tt.boltOutC, jogPermitted := s.tt.jogPermitted, filters := s.vis.filters,
    shows := s.vis.shows, suspended := s.vis.suspended, busy := s.vis.busy, bind := s.disp.bind,
    flash := s.disp.flash, idle1 := s.disp.idle1, idle2 := s.disp.idle2, idle3 := s.disp.idle3,
    runState := s.exch.runState, profile := s.exch.profile, takePos := s.exch.takePos, reading := s.exch.reading,
    loads := s.exch.loads, latchVal := s.exch.latchVal, latchOff := s.exch.latchOff, paired := s.exch.paired,
    bus := s.exch.bus, pollTimer := s.exch.pollTimer, clock := s.clock, pending := s.pending }

/-! ## Reading the fields through `kept` -/

theorem occ_of_kept {s t : State} (h : kept s = kept t) : s.occ = t.occ := congrArg Kept.occ h
theorem tags_of_kept {s t : State} (h : kept s = kept t) : s.tags = t.tags := congrArg Kept.tags h

/-! ## Exchange -/

@[simp] theorem kept_withMem (s : State) (m : List Host.Cell) : kept (s.withMem m) = kept s := rfl

@[simp] theorem kept_work (s : State) (w : Work) : kept { s with work := w } = kept s := rfl

@[simp] theorem kept_write8 (a v : Nat) (s : State) : kept (s.write8 a v) = kept s := by
  unfold State.write8; split <;> simp

@[simp] theorem kept_write16 (a v : Nat) (s : State) : kept (s.write16 a v) = kept s := by
  unfold State.write16; split <;> simp

@[simp] theorem kept_write32 (a v : Nat) (s : State) : kept (s.write32 a v) = kept s := by
  unfold State.write32; split <;> simp

@[simp] theorem kept_writeWord (b n k v : Nat) (s : State) : kept (s.writeWord b n k v) = kept s := by
  unfold State.writeWord; split <;> simp

@[simp] theorem kept_evalLine (s : State) : kept (evalLine s) = kept s := rfl

@[simp] theorem kept_evalStop (s : State) : kept (evalStop s) = kept s := rfl

@[simp] theorem kept_evalReports (s : State) : kept (evalReports s) = kept s := rfl

@[simp] theorem kept_readLevels (s : State) : kept (readLevels s) = kept s := by
  unfold readLevels
  rw [kept_evalReports]
  exact (kept_write16 _ _ _).trans (kept_write16 _ _ _)

@[simp] theorem kept_setMissed (m : BitVec 64) (s : State) : kept (setMissed m s) = kept s := by
  unfold setMissed
  rw [kept_write32, kept_write32]
  rfl

@[simp] theorem kept_writeEntry (k : ReportKind) (x v1 v2 : Nat) (s : State) :
    kept (writeEntry k x v1 v2 s) = kept s := by
  unfold writeEntry
  simp only [kept_evalReports, kept_write16]
  exact (kept_write32 _ _ _).trans ((kept_write32 _ _ _).trans ((kept_write32 _ _ _).trans (kept_write32 _ _ _)))

@[simp] theorem kept_report (k : ReportKind) (x v1 v2 : Nat) (s : State) : kept (report k x v1 v2 s) = kept s := by
  unfold report
  dsimp only
  split
  · split <;> simp
  · split <;> simp

@[simp] theorem kept_complete (n : Nat) (r : Result) (w0 w1 : Nat) (s : State) :
    kept (complete n r w0 w1 s) = kept s := by
  unfold complete
  split
  · rfl
  · rw [kept_evalLine]
    exact (kept_write16 _ _ _).trans ((kept_write16 _ _ _).trans ((kept_write32 _ _ _).trans
      ((kept_write32 _ _ _).trans (kept_write16 _ _ _))))

@[simp] theorem kept_useFree (s : State) : kept (useFree s) = kept s := rfl

@[simp] theorem kept_setUnit (u : Discharge) (s : State) : kept (setUnit u s) = kept s := by
  unfold setUnit; rw [kept_write8]; rfl

@[simp] theorem kept_setPanelState (p : Panel) (s : State) : kept (setPanelState p s) = kept s := by
  unfold setPanelState; rw [kept_write8, kept_write8]; rfl

theorem kept_eachDo (l : List Nat) (f : Nat → State → State) (s : State)
    (h : ∀ n t, kept (f n t) = kept t) : kept (eachDo l f s) = kept s := by
  unfold eachDo
  induction l generalizing s with
  | nil => rfl
  | cons n l ih => rw [List.foldl_cons, ih, h]

theorem kept_foldl {α : Type} (l : List α) (f : State → α → State) (s : State)
    (h : ∀ x t, kept (f t x) = kept t) : kept (l.foldl f s) = kept s := by
  induction l generalizing s with
  | nil => rfl
  | cons n l ih => rw [List.foldl_cons, ih, h]

/-! ## Mirrors -/

@[simp] theorem kept_mirrorSection (n : Nat) (s : State) : kept (mirrorSection n s) = kept s := by
  unfold mirrorSection; split
  · rfl
  · split <;> simp

@[simp] theorem kept_mirrorHead (n : Nat) (s : State) : kept (mirrorHead n s) = kept s := by
  unfold mirrorHead; split <;> simp

@[simp] theorem kept_mirrorTag (n : Nat) (s : State) : kept (mirrorTag n s) = kept s := by
  unfold mirrorTag; simp

@[simp] theorem kept_mirrorActive (n : Nat) (s : State) : kept (mirrorActive n s) = kept s := by
  unfold mirrorActive; simp

@[simp] theorem kept_mirrorStackFrom (n k : Nat) (s : State) : kept (mirrorStackFrom n k s) = kept s := by
  induction n generalizing k s with
  | zero => rfl
  | succ n ih => unfold mirrorStackFrom; simp [ih]

@[simp] theorem kept_mirrorStack (s : State) : kept (mirrorStack s) = kept s := by unfold mirrorStack; simp

@[simp] theorem kept_mirrorPointNow (n : Nat) (s : State) : kept (mirrorPointNow n s) = kept s := by
  unfold mirrorPointNow; split <;> simp

@[simp] theorem kept_mirrorPoint (n : Nat) (s : State) : kept (mirrorPoint n s) = kept s := by
  unfold mirrorPoint; split <;> simp

@[simp] theorem kept_mirrorSignalNow (n : Nat) (s : State) : kept (mirrorSignalNow n s) = kept s := by
  unfold mirrorSignalNow; split <;> simp

@[simp] theorem kept_mirrorSignal (n : Nat) (s : State) : kept (mirrorSignal n s) = kept s := by
  unfold mirrorSignal; split <;> simp

@[simp] theorem kept_writeTable (w : Nat → Nat) (s : State) : kept (writeTable w s) = kept s := by
  unfold writeTable; exact kept_eachDo _ _ _ fun n t => by simp

@[simp] theorem kept_mirrorTable (s : State) : kept (mirrorTable s) = kept s := by
  unfold mirrorTable; split <;> simp

@[simp] theorem kept_mirrorVisitorWord (k : Nat) (s : State) : kept (mirrorVisitorWord k s) = kept s := by
  unfold mirrorVisitorWord; simp

@[simp] theorem kept_mirrorLampWord (k : Nat) (s : State) : kept (mirrorLampWord k s) = kept s := by
  unfold mirrorLampWord; simp

/-! ## Handing back -/

@[simp] theorem kept_setRunner (r : Option Runner) (s : State) : kept (setRunner r s) = kept s := rfl

@[simp] theorem kept_stepEnds (r : Runner) (e : StepEnd) (s : State) : kept (stepEnds r e s) = kept s := rfl

@[simp] theorem kept_showRouteSet (sh r : Nat) (s : State) : kept (showRouteSet sh r s) = kept s := by
  unfold showRouteSet; split <;> simp

@[simp] theorem kept_showRouteFailed (sh r : Nat) (y : Result) (w : Nat) (s : State) :
    kept (showRouteFailed sh r y w s) = kept s := by unfold showRouteFailed; split <;> simp

@[simp] theorem kept_showRouteAccepted (sh r : Nat) (s : State) : kept (showRouteAccepted sh r s) = kept s := by
  unfold showRouteAccepted; split
  · split <;> simp
  · rfl

@[simp] theorem kept_showRouteReleased (sh r : Nat) (s : State) : kept (showRouteReleased sh r s) = kept s := by
  unfold showRouteReleased; split
  · split <;> simp
  · rfl

@[simp] theorem kept_showTurnAnswer (sh : Nat) (r : Result) (w : Nat) (s : State) :
    kept (showTurnAnswer sh r w s) = kept s := by
  unfold showTurnAnswer; split
  · rfl
  · split <;> simp

/-! ## Orders -/

@[simp] theorem kept_setPoint (p : Nat) (f : PointState → PointState) (s : State) : kept (setPoint p f s) = kept s := rfl

@[simp] theorem kept_updateLoss (p : Nat) (s : State) : kept (updateLoss p s) = kept s := rfl

@[simp] theorem kept_touchPoint (p : Nat) (s : State) : kept (touchPoint p s) = kept s := by unfold touchPoint; simp

@[simp] theorem kept_setOrders (q o : List Order) (s : State) : kept (setOrders q o s) = kept s := rfl

@[simp] theorem kept_wantPass (s : State) : kept (wantPass s) = kept s := rfl

@[simp] theorem kept_wantReexam (s : State) : kept (wantReexam s) = kept s := rfl

@[simp] theorem kept_wantAspects (s : State) : kept (wantAspects s) = kept s := rfl

@[simp] theorem kept_giveOrder (o : Order) (s : State) : kept (giveOrder o s) = kept s := by
  unfold giveOrder; split <;> simp

@[simp] theorem kept_fillQueue (s : State) : kept (fillQueue s) = kept s := by
  unfold fillQueue; dsimp only; split
  · rfl
  · rw [kept_eachDo _ _ _ (by simp)]; simp

@[simp] theorem kept_removeOrder (p : Nat) (s : State) : kept (removeOrder p s) = kept s := by unfold removeOrder; simp

@[simp] theorem kept_changeOrder (p : Nat) (f : Order → Order) (s : State) : kept (changeOrder p f s) = kept s := rfl

@[simp] theorem kept_active (s : State) (a : Tbl Active) : kept { s with ilk := { s.ilk with active := a } } = kept s :=
  rfl

@[simp] theorem kept_withdraw (e : Nat) (s : State) : kept (withdraw e s) = kept s := by
  unfold withdraw; dsimp only
  rw [kept_active, kept_eachDo _ _ _ (by simp)]; simp

end Sys2Proof.Machine
end

