-- ==== Sys2Proof/Laws/KeptRoutes.lean ====
section
/-! SUPPORT. The interlocking, the point controller and the turntable leave the kept fields alone. -/

namespace Sys2Proof.Machine

/-! ## Routes -/

@[simp] theorem kept_setLock (n : Nat) (r : Option Nat) (s : State) : kept (setLock n r s) = kept s := by
  unfold setLock; dsimp only; rw [kept_mirrorSection]; split <;> rfl

@[simp] theorem kept_setHolders (p : Nat) (h : Holders) (s : State) : kept (setHolders p h s) = kept s := by
  unfold setHolders; rw [kept_touchPoint]; rfl

@[simp] theorem kept_addHolder (p : Nat) (l : Lie) (r : Nat) (s : State) : kept (addHolder p l r s) = kept s := by
  unfold addHolder; simp

@[simp] theorem kept_removeHolder (p r : Nat) (s : State) : kept (removeHolder p r s) = kept s := by
  unfold removeHolder; dsimp only; split <;> simp

@[simp] theorem kept_putActive (e : Nat) (a : Active) (s : State) : kept (putActive e a s) = kept s := rfl

@[simp] theorem kept_setActive (e : Nat) (a : Active) (s : State) : kept (setActive e a s) = kept s := by
  unfold setActive; simp

@[simp] theorem kept_answerSlot (e : Nat) (r : Result) (w0 w1 : Nat) (s : State) :
    kept (answerSlot e r w0 w1 s) = kept s := by
  unfold answerSlot; split
  · split <;> simp
  · rfl

theorem kept_tellShow (a : Active) (f : Nat → Nat → State → State) (s : State)
    (h : ∀ x y t, kept (f x y t) = kept t) : kept (tellShow a f s) = kept s := by
  unfold tellShow; split <;> simp [h]

@[simp] theorem kept_releaseWhole (e : Nat) (y : Ending) (s : State) : kept (releaseWhole e y s) = kept s := by
  unfold releaseWhole; split
  · rfl
  · dsimp only
    rw [kept_wantAspects, kept_wantReexam, kept_tellShow _ _ _ (by simp)]
    split
    all_goals
      simp only [kept_mirrorSignal, kept_report, kept_mirrorActive, kept_active]
      rw [kept_eachDo _ _ _ (by simp), kept_eachDo _ _ _ (by simp)]

@[simp] theorem kept_endIfDone (e : Nat) (s : State) : kept (endIfDone e s) = kept s := by
  unfold endIfDone; repeat' split
  all_goals simp

@[simp] theorem kept_releaseOverlap (e : Nat) (s : State) : kept (releaseOverlap e s) = kept s := by
  unfold releaseOverlap; repeat' split
  all_goals first
    | rfl
    | (dsimp only; simp only [kept_endIfDone, kept_wantReexam, kept_setActive]; rw [kept_eachDo _ _ _ (by simp)])

@[simp] theorem kept_startOverlap (e : Nat) (s : State) : kept (startOverlap e s) = kept s := by
  unfold startOverlap; repeat' split
  all_goals simp

@[simp] theorem kept_startOverlapAtEntry (e : Nat) (r : RouteRec) (s : State) :
    kept (startOverlapAtEntry e r s) = kept s := by
  unfold startOverlapAtEntry; repeat' split
  all_goals simp

@[simp] theorem kept_releasePoints (a : Active) (l : List Nat) (s : State) : kept (releasePoints a l s) = kept s := by
  unfold releasePoints; exact kept_eachDo _ _ _ (by simp)

@[simp] theorem kept_releaseSection (e : Nat) (r : RouteRec) (n i : Nat) (s : State) :
    kept (releaseSection e r n i s) = kept s := by
  unfold releaseSection; split
  · rfl
  · dsimp only; repeat' split
    all_goals simp

@[simp] theorem kept_walkFrom (e : Nat) (r : RouteRec) (l : List (Nat × Nat)) (s : State) :
    kept (walkFrom e r l s) = kept s := by
  induction l generalizing s with
  | nil => rfl
  | cons x l ih =>
    unfold walkFrom; repeat' split
    all_goals simp [ih]

@[simp] theorem kept_walk (e : Nat) (s : State) : kept (walk e s) = kept s := by
  unfold walk; repeat' split
  all_goals simp

@[simp] theorem kept_reportRunning (e : Nat) (a : Active) (l : RouteState) (s : State) :
    kept (reportRunning e a l s) = kept s := by unfold reportRunning; simp

@[simp] theorem kept_immediateEntry (e : Nat) (s : State) : kept (immediateEntry e s) = kept s := by
  unfold immediateEntry; repeat' split
  all_goals simp

@[simp] theorem kept_becomeSet (e : Nat) (l : RouteState) (s : State) : kept (becomeSet e l s) = kept s := by
  unfold becomeSet; split
  · rfl
  · dsimp only; rw [kept_immediateEntry, kept_wantAspects, kept_tellShow _ _ _ (by simp)]; simp

@[simp] theorem kept_testProved (e : Nat) (s : State) : kept (testProved e s) = kept s := by
  unfold testProved; repeat' split
  all_goals simp

@[simp] theorem kept_holdRoute (e : Nat) (y : HeldCause) (i : Nat) (s : State) : kept (holdRoute e y i s) = kept s := by
  unfold holdRoute; repeat' split
  all_goals simp

@[simp] theorem kept_pointLost (p : Nat) (s : State) : kept (pointLost p s) = kept s := by
  unfold pointLost; exact kept_eachDo _ _ _ (by simp)

@[simp] theorem kept_pointTested (p : Nat) (s : State) : kept (pointTested p s) = kept s := by
  unfold pointTested; exact kept_eachDo _ _ _ (by simp)

@[simp] theorem kept_failRoute (p e : Nat) (s : State) : kept (failRoute p e s) = kept s := by
  unfold failRoute; split
  · rfl
  · split
    · have key : ∀ (a : Active) (t : State), kept (tellShow a (fun sh r => showRouteFailed sh r .pointFailed p) t) = kept t :=
        fun a t => kept_tellShow _ _ _ (by simp)
      dsimp only; repeat' split
      all_goals simp [key]
    · rfl

@[simp] theorem kept_failRoutes (p : Nat) (s : State) : kept (failRoutes p s) = kept s := by
  unfold failRoutes; exact kept_eachDo _ _ _ (by simp)

@[simp] theorem kept_routeOrderEnded (e p : Nat) (s : State) : kept (routeOrderEnded e p s) = kept s := by
  unfold routeOrderEnded; split
  · rfl
  · dsimp only; repeat' split
    all_goals simp

@[simp] theorem kept_enterRoute (e : Nat) (g : Option Nat) (s : State) : kept (enterRoute e g s) = kept s := by
  have key : ∀ (a : Active) (t : State), kept (tellShow a (fun sh x => showRouteFailed sh x .routeRunning e) t) = kept t :=
    fun a t => kept_tellShow _ _ _ (by simp)
  unfold enterRoute; repeat' split
  all_goals first
    | rfl
    | (dsimp only; repeat' split
       all_goals simp [key])

@[simp] theorem kept_runningSection (e n : Nat) (r : RouteRec) (st : SectionState) (g : Option Nat) (s : State) :
    kept (runningSection e n r st g s) = kept s := by
  unfold runningSection; repeat' split
  all_goals simp

theorem kept_routeSection (n : Nat) (st : SectionState) (g : Option Nat) (acc : State × List EntryNote) (e : Nat) :
    kept (routeSection n st g acc e).1 = kept acc.1 := by
  unfold routeSection; dsimp only; repeat' split
  all_goals simp

@[simp] theorem kept_routesSectionChange (n : Nat) (st : SectionState) (g : Option Nat) (s : State) :
    kept (routesSectionChange n st g s).1 = kept s := by
  unfold routesSectionChange
  generalize ([] : List EntryNote) = notes
  generalize Tbl.keys s.ilk.active = l
  suffices h : ∀ acc : State × List EntryNote, kept (l.foldl (routeSection n st g) acc).1 = kept acc.1 from h (s, notes)
  induction l with
  | nil => intro acc; rfl
  | cons x l ih => intro acc; rw [List.foldl_cons, ih, kept_routeSection]

@[simp] theorem kept_routesAllStop (s : State) : kept (routesAllStop s) = kept s := by
  unfold routesAllStop; exact kept_eachDo _ _ _ (by simp)

@[simp] theorem kept_routesResume (s : State) : kept (routesResume s) = kept s := by
  unfold routesResume; exact kept_eachDo _ _ _ (by simp)

/-! ## Points -/

@[simp] theorem kept_reportMoved (p : Nat) (l : DetLie) (o : Nat) (s : State) : kept (reportMoved p l o s) = kept s := by
  unfold reportMoved; simp

@[simp] theorem kept_reportLost (p : Nat) (l : DetLie) (s : State) : kept (reportLost p l s) = kept s := by
  unfold reportLost; simp

@[simp] theorem kept_lieChanged (p : Nat) (l : DetLie) (s : State) : kept (lieChanged p l s) = kept s := by
  unfold lieChanged; dsimp only; rw [kept_pointTested]
  repeat' split
  all_goals simp

@[simp] theorem kept_rederive (p : Nat) (s : State) : kept (rederive p s) = kept s := by
  unfold rederive; split
  · dsimp only; repeat' split
    all_goals simp
  · rfl

@[simp] theorem kept_endOrder (p : Nat) (s : State) : kept (endOrder p s) = kept s := by
  unfold endOrder; dsimp only; rw [kept_wantReexam]
  have h : kept (removeOrder p { s with pts := { s.pts with drives := Tbl.erase s.pts.drives p } }) = kept s := by
    rw [kept_removeOrder]; rfl
  split <;> simp [h]

@[simp] theorem kept_orderArrived (p : Nat) (s : State) : kept (orderArrived p s) = kept s := by
  unfold orderArrived; split
  · dsimp only; rw [kept_pointTested]
    repeat' split
    all_goals simp
  · rfl

@[simp] theorem kept_failPoint (p : Nat) (c : PointCause) (s : State) : kept (failPoint p c s) = kept s := by
  unfold failPoint; simp

@[simp] theorem kept_orderFailed (p : Nat) (c : PointCause) (s : State) : kept (orderFailed p c s) = kept s := by
  unfold orderFailed; split
  · dsimp only; rw [kept_failRoutes]; split <;> simp
  · rfl

@[simp] theorem kept_orderOccupied (p n : Nat) (s : State) : kept (orderOccupied p n s) = kept s := by
  unfold orderOccupied; simp

@[simp] theorem kept_startPulse (p : Nat) (o : Order) (s : State) : kept (startPulse p o s) = kept s := by
  unfold startPulse; simp only [kept_rederive, kept_changeOrder, kept_setUnit]; rfl

@[simp] theorem kept_startTravel (p : Nat) (o : Order) (r : PointRec) (s : State) :
    kept (startTravel p o r s) = kept s := by
  unfold startTravel; simp only [kept_rederive, kept_changeOrder]; rfl

@[simp] theorem kept_dispatchQueued (p : Nat) (o : Order) (r : PointRec) (s : State) :
    kept (dispatchQueued p o r s) = kept s := by
  unfold dispatchQueued; repeat' split
  all_goals simp

@[simp] theorem kept_dispatchOne (p : Nat) (s : State) : kept (dispatchOne p s) = kept s := by
  unfold dispatchOne; repeat' split
  all_goals simp

@[simp] theorem kept_dispatcherPass (s : State) : kept (dispatcherPass s) = kept s := by
  unfold dispatcherPass; exact kept_eachDo _ _ _ (by simp)

@[simp] theorem kept_contactChanged (p : Nat) (s : State) : kept (contactChanged p s) = kept s := by
  unfold contactChanged; split <;> simp

@[simp] theorem kept_startRecharge (s : State) : kept (startRecharge s) = kept s := by
  unfold startRecharge; rw [kept_setUnit]; rfl

@[simp] theorem kept_pulseEnded (p : Nat) (s : State) : kept (pulseEnded p s) = kept s := by
  unfold pulseEnded; repeat' split
  all_goals simp

@[simp] theorem kept_pulseExpires (s : State) : kept (pulseExpires s) = kept s := by
  unfold pulseExpires; repeat' split
  all_goals simp

@[simp] theorem kept_moveToHead (p : Nat) (s : State) : kept (moveToHead p s) = kept s := rfl

@[simp] theorem kept_windowExpires (p : Nat) (s : State) : kept (windowExpires p s) = kept s := by
  unfold windowExpires; repeat' split
  all_goals simp

@[simp] theorem kept_rechargeExpires (s : State) : kept (rechargeExpires s) = kept s := by
  unfold rechargeExpires; split
  · rfl
  · rw [kept_wantPass, kept_setUnit]; rfl

@[simp] theorem kept_travelExpires (p : Nat) (s : State) : kept (travelExpires p s) = kept s := by
  unfold travelExpires; repeat' split
  all_goals simp

@[simp] theorem kept_lossExpires (p : Nat) (s : State) : kept (lossExpires p s) = kept s := by
  unfold lossExpires; split <;> simp

@[simp] theorem kept_movePoint (n p l : Nat) (s : State) : kept (movePoint n p l s) = kept s := by
  unfold movePoint; repeat' split
  all_goals simp

@[simp] theorem kept_restore (p : Nat) (s : State) : kept (restore p s) = kept s := by
  unfold restore; split
  · rfl
  · dsimp only; rw [kept_pointTested, kept_reportMoved]; split <;> simp

@[simp] theorem kept_restorePoint (n p : Nat) (s : State) : kept (restorePoint n p s) = kept s := by
  unfold restorePoint; repeat' split
  all_goals simp

/-! ## Route requests -/

@[simp] theorem kept_acceptRoute (r : Nat) (o : Originator) (src : Source) (s : State) :
    kept (acceptRoute r o src s) = kept s := by
  unfold acceptRoute; split
  · dsimp only; rw [kept_testProved]
    have h : ∀ (x : RouteRec) (e : Nat) (t u : State), kept u = kept t → kept (mirrorSignal x.entry (mirrorActive e
        (((routePoints x).filter (needsMoving s)).foldl (fun t y => giveOrder (routeOrder e y) t)
          ((routePoints x).foldl (fun t y => addHolder y.1 y.2 r t)
            (eachDo (sequence x) (fun n => setLock n (some r)) u))))) = kept t := by
      intro x e t u hu
      rw [kept_mirrorSignal, kept_mirrorActive, kept_foldl _ _ _ (by simp), kept_foldl _ _ _ (by simp),
        kept_eachDo _ _ _ (by simp), hu]
    split
    · exact h _ _ _ _ (by simp)
    · rw [kept_showRouteAccepted]; exact h _ _ _ _ (by simp)
  · rfl

@[simp] theorem kept_setStack (l : List StackEntry) (s : State) : kept (setStack l s) = kept s := by
  unfold setStack; rw [kept_mirrorStack]; rfl

@[simp] theorem kept_joinStack (r : Nat) (o : Originator) (src : Source) (a : Answer) (s : State) :
    kept (joinStack r o src a s) = kept s := by unfold joinStack; simp

@[simp] theorem kept_leaveStack (r : Nat) (s : State) : kept (leaveStack r s) = kept s := by unfold leaveStack; simp

@[simp] theorem kept_requestRoute (r : Nat) (o : Originator) (b : Bool) (src : Source) (s : State) :
    kept (requestRoute r o b src s).1 = kept s := by
  unfold requestRoute; repeat' split
  all_goals simp

@[simp] theorem kept_setRoute (n r w1 w2 : Nat) (s : State) : kept (setRoute n r w1 w2 s) = kept s := by
  unfold setRoute; split
  · simp
  · split
    · simp
    · rename_i o _ _
      have h := kept_requestRoute r o (bitsOf w2 0 1 == 1) (.slot n) s
      split <;> rename_i heq <;> rw [heq] at h
      · exact h
      · rw [kept_complete]; exact h

@[simp] theorem kept_answerStacked (x : StackEntry) (a : Answer) (s : State) : kept (answerStacked x a s) = kept s := by
  unfold answerStacked; split <;> simp

@[simp] theorem kept_keepStacked (x : StackEntry) (a : Answer) (s : State) : kept (keepStacked x a s) = kept s := by
  unfold keepStacked; split <;> simp

@[simp] theorem kept_reexamineOne (r : Nat) (s : State) : kept (reexamineOne r s) = kept s := by
  unfold reexamineOne; repeat' split
  all_goals simp

@[simp] theorem kept_reexamine (s : State) : kept (reexamine s) = kept s := by
  unfold reexamine; dsimp only; rw [kept_work]; exact kept_eachDo _ _ _ (by simp)

@[simp] theorem kept_stackExpires (r : Nat) (s : State) : kept (stackExpires r s) = kept s := by
  unfold stackExpires; repeat' split
  all_goals simp

@[simp] theorem kept_removeShowEntries (sh : Nat) (s : State) : kept (removeShowEntries sh s) = kept s := by
  unfold removeShowEntries; split <;> simp

@[simp] theorem kept_cancelSetting (e : Nat) (a : Active) (s : State) : kept (cancelSetting e a s) = kept s := by
  have key : ∀ (a : Active) (t : State), kept (tellShow a (fun sh r => showRouteFailed sh r .cancelled 0) t) = kept t :=
    fun a t => kept_tellShow _ _ _ (by simp)
  unfold cancelSetting; dsimp only; repeat' split
  all_goals simp [key]

@[simp] theorem kept_giveUp (e : Nat) (w : Ending) (s : State) : kept (giveUp e w s) = kept s := by
  unfold giveUp; dsimp only; repeat' split
  all_goals simp

@[simp] theorem kept_cancelSet (e : Nat) (a : Active) (s : State) : kept (cancelSet e a s) = kept s := by
  unfold cancelSet; repeat' split
  all_goals simp

@[simp] theorem kept_cancelRoute (r : Nat) (b : Bool) (s : State) : kept (cancelRoute r b s).1 = kept s := by
  unfold cancelRoute; repeat' split
  all_goals simp

@[simp] theorem kept_cancelRequest (n r : Nat) (s : State) : kept (cancelRequest n r s) = kept s := by
  unfold cancelRequest
  have h := kept_cancelRoute r false s
  split; rename_i heq; rw [heq] at h; rw [kept_complete]; exact h

@[simp] theorem kept_overlapExpires (e : Nat) (s : State) : kept (overlapExpires e s) = kept s := by
  unfold overlapExpires; repeat' split
  all_goals simp

@[simp] theorem kept_approachExpires (e : Nat) (s : State) : kept (approachExpires e s) = kept s := by
  unfold approachExpires; repeat' split
  all_goals simp

end Sys2Proof.Machine
end

