-- ==== Sys2Proof/Laws/KeptPanel.lean ====
section
/-! SUPPORT. The turntable, the show runner, the aspects, the display and the end of a handling leave the kept fields
alone. -/

namespace Sys2Proof.Machine

/-! ## The turntable -/

/-- A change of the turntable that leaves its kept fields alone. -/
theorem kept_setDeck (f : Turntable → Turntable) (s : State) (h1 : (f s.tt).deck = s.tt.deck)
    (h2 : (f s.tt).roads = s.tt.roads) (h3 : (f s.tt).boltIn = s.tt.boltIn) (h4 : (f s.tt).boltOutC = s.tt.boltOutC)
    (h5 : (f s.tt).jogPermitted = s.tt.jogPermitted) : kept (setDeck f s) = kept s := by
  unfold setDeck; rw [kept_mirrorTable]; simp [kept, h1, h2, h3, h4, h5]

@[simp] theorem kept_updateFeed (s : State) : kept (updateFeed s) = kept s := by
  unfold updateFeed; rw [kept_setDeck] <;> rfl

@[simp] theorem kept_enterDeck (n : DeckState) (s : State) : kept (enterDeck n s) = kept s := by
  have h : kept (updateFeed { s with tt := { s.tt with state := n } }) = kept s := by rw [kept_updateFeed]; rfl
  unfold enterDeck; dsimp only; rw [kept_report]; split <;> simp [h]

@[simp] theorem kept_answerRequester (r : Result) (w0 w1 : Nat) (s : State) :
    kept (answerRequester r w0 w1 s) = kept s := by
  have h : kept (setDeck (fun t => { t with requester := .none }) s) = kept s := by rw [kept_setDeck] <;> rfl
  unfold answerRequester; dsimp only
  split <;> simp [h]

@[simp] theorem kept_enterFault (c : FaultCause) (s : State) : kept (enterFault c s) = kept s := by
  unfold enterFault; dsimp only; rw [kept_answerRequester, kept_enterDeck, kept_setDeck] <;> rfl

@[simp] theorem kept_enterHalted (s : State) : kept (enterHalted s) = kept s := by
  unfold enterHalted; rw [kept_enterDeck, kept_setDeck] <;> rfl

@[simp] theorem kept_enterUnreferenced (s : State) : kept (enterUnreferenced s) = kept s := by
  unfold enterUnreferenced; rw [kept_enterDeck, kept_setDeck] <;> rfl

@[simp] theorem kept_takeAlignment (x : RoadEnd) (s : State) : kept (takeAlignment x s) = kept s := by
  unfold takeAlignment; rw [kept_setDeck] <;> rfl

@[simp] theorem kept_enterAligned (s : State) : kept (enterAligned s) = kept s := by
  unfold enterAligned; split
  · simp
  · dsimp only; rw [kept_wantReexam, kept_answerRequester, kept_enterDeck, kept_takeAlignment, kept_setDeck] <;> rfl

@[simp] theorem kept_enterBolting (d : DeckRec) (s : State) : kept (enterBolting d s) = kept s := by
  unfold enterBolting; dsimp only
  generalize hu : enterDeck .bolting _ = u
  have h : kept u = kept s := by subst hu; rw [kept_enterDeck, kept_setDeck] <;> rfl
  repeat' split
  · rw [kept_enterAligned, h]
  · rw [kept_enterFault, h]
  · rw [kept_setDeck, h] <;> rfl

@[simp] theorem kept_enterSettling (d : DeckRec) (s : State) : kept (enterSettling d s) = kept s := by
  have h : kept (enterDeck .settling (setDeck (fun t => t.quiet) s)) = kept s := by
    rw [kept_enterDeck, kept_setDeck] <;> rfl
  unfold enterSettling; dsimp only; split
  · rw [kept_enterBolting, h]
  · rw [kept_setDeck, h] <;> rfl

@[simp] theorem kept_planMove (d : DeckRec) (g : Nat) (s : State) : kept (planMove d g s) = kept s := by
  unfold planMove; split
  · rfl
  · dsimp only; rw [kept_setDeck] <;> rfl

@[simp] theorem kept_beginLeg (d : DeckRec) (s : State) : kept (beginLeg d s) = kept s := by
  unfold beginLeg; rw [kept_setDeck] <;> rfl

@[simp] theorem kept_enterMoving (d : DeckRec) (s : State) : kept (enterMoving d s) = kept s := by
  unfold enterMoving; simp

@[simp] theorem kept_snapDecision (d : DeckRec) (s : State) : kept (snapDecision d s) = kept s := by
  have h : kept (setDeck (fun t => t.quiet) s) = kept s := by rw [kept_setDeck] <;> rfl
  unfold snapDecision; dsimp only; repeat' split
  all_goals simp only [kept_enterHalted, kept_enterSettling, kept_enterMoving, kept_planMove, h]
  all_goals rw [kept_setDeck, h] <;> rfl

@[simp] theorem kept_enterStopping (d : DeckRec) (s : State) : kept (enterStopping d s) = kept s := by
  unfold enterStopping; dsimp only; rw [kept_enterDeck, kept_setDeck] <;> rfl

@[simp] theorem kept_enterJogging (d : DeckRec) (s : State) : kept (enterJogging d s) = kept s := by
  have h : kept (enterDeck .jogging (setDeck (fun t =>
      { t with legCw := t.jogCw, legSteps := 0, legDone := 0, returnSteps := 0 }) s)) = kept s := by
    rw [kept_enterDeck, kept_setDeck] <;> rfl
  unfold enterJogging; dsimp only; split
  · rw [kept_snapDecision, h]
  · rw [kept_setDeck, h] <;> rfl

@[simp] theorem kept_enterHoming (d : DeckRec) (s : State) : kept (enterHoming d s) = kept s := by
  unfold enterHoming; dsimp only; rw [kept_enterDeck, kept_setDeck, kept_useFree] <;> rfl

@[simp] theorem kept_endUnbolting (d : DeckRec) (s : State) : kept (endUnbolting d s) = kept s := by
  have h : kept (setDeck (fun t => { t with boltTimer := none }) s) = kept s := by rw [kept_setDeck] <;> rfl
  unfold endUnbolting; dsimp only; repeat' split
  all_goals simp [h]

@[simp] theorem kept_enterUnbolting (d : DeckRec) (s : State) : kept (enterUnbolting d s) = kept s := by
  unfold enterUnbolting; dsimp only
  generalize hu : enterDeck .unbolting _ = u
  have h : kept u = kept s := by subst hu; rw [kept_enterDeck, kept_setDeck] <;> rfl
  repeat' split
  · rw [kept_endUnbolting, h]
  · rw [kept_enterFault, h]
  · rw [kept_setDeck, h] <;> rfl

@[simp] theorem kept_turnAccepted (d : DeckRec) (q : Requester) (x : RoadEnd) (s : State) :
    kept (turnAccepted d q x s).1 = kept s := by
  have h : kept (setDeck (fun t => { t with requester := q, target := some x }) s) = kept s := by
    rw [kept_setDeck] <;> rfl
  unfold turnAccepted; dsimp only; repeat' split
  all_goals simp [h]

@[simp] theorem kept_turnRequest (q : Requester) (r e : Nat) (s : State) : kept (turnRequest q r e s).1 = kept s := by
  unfold turnRequest; repeat' split
  all_goals simp

@[simp] theorem kept_turnTable (n r e : Nat) (s : State) : kept (turnTable n r e s) = kept s := by
  have h := kept_turnRequest (.slot n) r e s
  unfold turnTable; split <;> rename_i heq <;> rw [heq] at h
  · exact h
  · rw [kept_complete]; exact h

@[simp] theorem kept_homeAccepted (d : DeckRec) (n : Nat) (x : RoadEnd) (s : State) :
    kept (homeAccepted d n x s) = kept s := by
  unfold homeAccepted; dsimp only; split
  · rw [kept_enterHoming, kept_setDeck] <;> rfl
  · rw [kept_enterUnbolting, kept_setDeck] <;> rfl

@[simp] theorem kept_homeTable (n r e : Nat) (s : State) : kept (homeTable n r e s) = kept s := by
  unfold homeTable; repeat' split
  all_goals simp

@[simp] theorem kept_stopTable (n : Nat) (s : State) : kept (stopTable n s) = kept s := by
  unfold stopTable; dsimp only; rw [kept_complete]; split
  · rfl
  · split
    · rw [kept_answerRequester, kept_setDeck, kept_enterStopping, kept_setDeck] <;> rfl
    · rfl

@[simp] theorem kept_nextStep (v : Nat) (s : State) : kept (nextStep v s) = kept s := by
  unfold nextStep; rw [kept_setDeck] <;> rfl

@[simp] theorem kept_legEnds (d : DeckRec) (s : State) : kept (legEnds d s) = kept s := by
  unfold legEnds; split
  · rw [kept_enterDeck, kept_beginLeg, kept_setDeck] <;> rfl
  · simp

@[simp] theorem kept_legBoundary (d : DeckRec) (s : State) : kept (legBoundary d s) = kept s := by
  have h : kept (setDeck (fun t => { t with legSteps := t.legSteps - 1, legDone := t.legDone + 1 }) s) = kept s := by
    rw [kept_setDeck] <;> rfl
  unfold legBoundary; dsimp only; split <;> simp [h]

@[simp] theorem kept_stopBoundary (d : DeckRec) (v : Nat) (s : State) : kept (stopBoundary d v s) = kept s := by
  have h : kept (setDeck (fun t => { t with legSteps := t.legSteps - 1 }) s) = kept s := by rw [kept_setDeck] <;> rfl
  unfold stopBoundary; dsimp only; repeat' split
  all_goals simp [h]

@[simp] theorem kept_jogBoundary (d : DeckRec) (s : State) : kept (jogBoundary d s) = kept s := by
  have h : kept (setDeck (fun t => { t with legDone := t.legDone + 1 }) s) = kept s := by rw [kept_setDeck] <;> rfl
  unfold jogBoundary; dsimp only; split <;> simp [h]

@[simp] theorem kept_homingBoundary (d : DeckRec) (b i : Bool) (s : State) : kept (homingBoundary d b i s) = kept s := by
  have h : kept (setDeck (fun t => { t with search := t.search + 1 }) s) = kept s := by rw [kept_setDeck] <;> rfl
  have h2 : ∀ u : State, kept (setDeck (fun t => { t.quiet with pos := some d.indexOffset }) u) = kept u := by
    intro u; rw [kept_setDeck] <;> rfl
  unfold homingBoundary; dsimp only; repeat' split
  all_goals simp only [kept_enterHalted, kept_enterSettling, kept_enterMoving, kept_planMove, kept_enterFault,
    kept_nextStep, h, h2]

@[simp] theorem kept_boundary (i : Bool) (s : State) : kept (boundary i s) = kept s := by
  unfold boundary; split
  · rename_i d g _ _
    have h : kept (setDeck (fun t => { t with lastIndex := i, stepOut := false, pos := t.pos.map (stepFrom d.c t.legCw) }) s)
        = kept s := by rw [kept_setDeck] <;> rfl
    dsimp only; repeat' split
    all_goals simp [h]
  · rfl

@[simp] theorem kept_stepActive (s : State) : kept (stepActive s) = kept s := by
  unfold stepActive; split
  · rfl
  · split
    · rfl
    · rw [kept_mirrorTable]; rfl

@[simp] theorem kept_boltContactChanged (s : State) : kept (boltContactChanged s) = kept s := by
  unfold boltContactChanged; repeat' split
  all_goals simp

@[simp] theorem kept_boltExpires (s : State) : kept (boltExpires s) = kept s := by
  unfold boltExpires; split
  · rfl
  · rw [kept_enterFault]

@[simp] theorem kept_settleExpires (s : State) : kept (settleExpires s) = kept s := by
  unfold settleExpires; split <;> simp

@[simp] theorem kept_jogPress (c : Bool) (s : State) : kept (jogPress c s) = kept s := by
  have h : kept (setDeck (fun t => { t with requester := .jog, jogCw := c, jogHold := some 20000, jogReleased := false }) s)
      = kept s := by rw [kept_setDeck] <;> rfl
  unfold jogPress; split
  · rfl
  · dsimp only; repeat' split
    all_goals simp [h]

@[simp] theorem kept_releaseJog (s : State) : kept (releaseJog s) = kept s := by
  unfold releaseJog; repeat' split
  all_goals first
    | rfl
    | (rw [kept_setDeck] <;> rfl)
    | simp

@[simp] theorem kept_jogButtonReleased (c : Bool) (s : State) : kept (jogButtonReleased c s) = kept s := by
  unfold jogButtonReleased; split <;> simp

@[simp] theorem kept_jogHoldExpires (s : State) : kept (jogHoldExpires s) = kept s := by
  unfold jogHoldExpires; split <;> simp

@[simp] theorem kept_deckSectionLeft (n : Nat) (s : State) : kept (deckSectionLeft n s) = kept s := by
  unfold deckSectionLeft; repeat' split
  all_goals simp

@[simp] theorem kept_deckAllStop (s : State) : kept (deckAllStop s) = kept s := by
  unfold deckAllStop; split
  · rw [kept_answerRequester, kept_setDeck] <;> rfl
  · simp

/-! ## Shows -/

@[simp] theorem kept_loadIdle (t : Nat) (s : State) : kept (loadIdle t s) = kept s := rfl

@[simp] theorem kept_stopIdle (s : State) : kept (stopIdle s) = kept s := rfl

@[simp] theorem kept_changePanel (p : Panel) (c i : Nat) (s : State) : kept (changePanel p c i s) = kept s := by
  unfold changePanel; dsimp only; split <;> simp

@[simp] theorem kept_idleExpires (s : State) : kept (idleExpires s) = kept s := by
  unfold idleExpires; split
  · rfl
  · dsimp only; split <;> simp

@[simp] theorem kept_wakeByPress (b : Nat) (s : State) : kept (wakeByPress b s) = kept s := by
  unfold wakeByPress; dsimp only; split <;> simp

@[simp] theorem kept_startCoolDown (n : Nat) (s : State) : kept (startCoolDown n s) = kept s := by
  unfold startCoolDown; repeat' split
  all_goals rfl

@[simp] theorem kept_runnerIdle (n : Nat) (o : ShowOutcome) (s : State) : kept (runnerIdle n o s) = kept s := rfl

@[simp] theorem kept_reportEnded (r : Runner) (o : ShowOutcome) (x w : Nat) (s : State) :
    kept (reportEnded r o x w s) = kept s := by unfold reportEnded; simp

@[simp] theorem kept_endShow (r : Runner) (s : State) : kept (endShow r s) = kept s := by unfold endShow; simp

@[simp] theorem kept_abortRoute (n : Nat) (s : State) : kept (abortRoute n s) = kept s := by
  unfold abortRoute; repeat' split
  all_goals simp

@[simp] theorem kept_abortShow (o : ShowOutcome) (x w : Nat) (s : State) : kept (abortShow o x w s) = kept s := by
  unfold abortShow; split
  · rfl
  · rename_i r _
    have h : kept (eachDo r.routes abortRoute (setRunner none { s with work := { s.work with step := none } })) = kept s := by
      rw [kept_eachDo _ _ _ (by simp)]; rfl
    have h2 : kept (setRunner none { s with work := { s.work with step := none } }) = kept s := rfl
    dsimp only; rw [kept_runnerIdle]; repeat' split
    all_goals simp [h, h2]

@[simp] theorem kept_enterWait (r : Runner) (p : StepPhase) (l : Nat) (s : State) : kept (enterWait r p l s) = kept s :=
  rfl

@[simp] theorem kept_endStep (e : StepEnd) (s : State) : kept (endStep e s) = kept s := by
  unfold endStep; split <;> simp

@[simp] theorem kept_refuseStep (a : Answer) (s : State) : kept (refuseStep a s) = kept s := by unfold refuseStep; simp

@[simp] theorem kept_beginWaitSection (r : Runner) (n : Nat) (o : Bool) (l : Nat) (s : State) :
    kept (beginWaitSection r n o l s) = kept s := by
  unfold beginWaitSection; repeat' split
  all_goals simp

@[simp] theorem kept_cancelStepEnds (a : Answer) (s : State) : kept (cancelStepEnds a s) = kept s := by
  unfold cancelStepEnds; split <;> simp

@[simp] theorem kept_cancelStep (route : Nat) (s : State) : kept (cancelStep route s) = kept s := by
  unfold cancelStep; split
  · exact (kept_cancelStepEnds _ _).trans (kept_cancelRoute route true s)
  · exact kept_refuseStep _ _

@[simp] theorem kept_beginStepOf (r : Runner) (s : State) : kept (beginStepOf r s) = kept s := by
  unfold beginStepOf; split
  · rfl
  · rename_i route limit _
    have h := kept_requestRoute route .visitor true (.show_ r.show_) (enterWait r .waitRoute limit s)
    split <;> rename_i heq <;> rw [heq] at h
    · exact h
    · rw [kept_refuseStep]; exact h
  · simp
  · rename_i x _
    have h := kept_turnRequest (.show_ r.show_) x.road (if x.deckEnd = .a then 0 else 1) (enterWait r .waitTable 0 s)
    split <;> rename_i heq <;> rw [heq] at h
    · exact h
    · split
      · rw [kept_endStep]; exact h
      · rw [kept_refuseStep]; exact h
  · simp
  · simp

@[simp] theorem kept_afterStep (e : StepEnd) (s : State) : kept (afterStep e s) = kept s := by
  unfold afterStep; dsimp only; repeat' split
  all_goals simp

@[simp] theorem kept_runSteps (n : Nat) (s : State) : kept (runSteps n s) = kept s := by
  induction n generalizing s with
  | zero => rfl
  | succ n ih => unfold runSteps; split <;> simp [ih]

@[simp] theorem kept_runVisitor (s : State) : kept (runVisitor s) = kept s := by unfold runVisitor; simp

@[simp] theorem kept_takeShow (n : Nat) (src : ShowSource) (l : List (Nat × ShowSource)) (s : State) :
    kept (takeShow n src l s) = kept s := by
  unfold takeShow; dsimp only
  simp only [kept_runVisitor, kept_beginStepOf, kept_stopIdle, kept_changePanel, kept_work, kept_report]; rfl

@[simp] theorem kept_testHead (s : State) : kept (testHead s) = kept s := by
  unfold testHead; repeat' split
  all_goals simp

@[simp] theorem kept_testHeads (n : Nat) (s : State) : kept (testHeads n s) = kept s := by
  induction n generalizing s with
  | zero => rfl
  | succ n ih => unfold testHeads; split <;> simp [ih]

@[simp] theorem kept_queue (q : List (Nat × ShowSource)) (s : State) :
    kept (setVisitors (fun v => { v with queue := q }) s) = kept s := rfl

@[simp] theorem kept_joinQueue (n : Nat) (src : ShowSource) (s : State) : kept (joinQueue n src s) = kept s := rfl

@[simp] theorem kept_reportPress (b : Nat) (o : PressOutcome) (n : Option Nat) (s : State) :
    kept (reportPress b o n s) = kept s := by unfold reportPress; simp

@[simp] theorem kept_showPress (b : Nat) (s : State) : kept (showPress b s) = kept s := by
  unfold showPress; dsimp only; split <;> simp

@[simp] theorem kept_jogButtonPress (b : Nat) (s : State) : kept (jogButtonPress b s) = kept s := by
  unfold jogButtonPress; dsimp only; split <;> simp

@[simp] theorem kept_buttonChanged (b : Nat) (p : Bool) (s : State) : kept (buttonChanged b p s) = kept s := by
  unfold buttonChanged; repeat' split
  all_goals simp

@[simp] theorem kept_stepTimerExpires (s : State) : kept (stepTimerExpires s) = kept s := by
  unfold stepTimerExpires; repeat' split
  all_goals rfl

@[simp] theorem kept_durationExpires (s : State) : kept (durationExpires s) = kept s := by
  unfold durationExpires; split <;> simp

@[simp] theorem kept_coolDownExpires (n : Nat) (s : State) : kept (coolDownExpires n s) = kept s := by
  unfold coolDownExpires; split <;> rfl

@[simp] theorem kept_visitorSection (n : Nat) (x : SectionState) (s : State) : kept (visitorSection n x s) = kept s := by
  unfold visitorSection; repeat' split
  all_goals rfl

@[simp] theorem kept_runShow (n sh : Nat) (s : State) : kept (runShow n sh s) = kept s := by
  unfold runShow; repeat' split
  all_goals simp

/-! ## The end of a handling -/

@[simp] theorem kept_setSignal (x : Nat) (f : SignalState → SignalState) (s : State) : kept (setSignal x f s) = kept s :=
  rfl

@[simp] theorem kept_recomputeOne (x : Nat) (s : State) : kept (recomputeOne x s) = kept s := by
  unfold recomputeOne; split
  · dsimp only; split <;> simp
  · rfl

@[simp] theorem kept_recomputeAspects (s : State) : kept (recomputeAspects s) = kept s := by
  unfold recomputeAspects; split
  · rw [kept_eachDo _ _ _ (by simp)]; rfl
  · rfl

@[simp] theorem kept_settleOne (x : Nat) (s : State) : kept (settleOne x s) = kept s := by
  unfold settleOne; split
  · rfl
  · dsimp only; split
    · rfl
    · rw [kept_mirrorLampWord]; rfl

@[simp] theorem kept_settleLamps (s : State) : kept (settleLamps s) = kept s := by
  unfold settleLamps; split
  · rw [kept_eachDo _ _ _ (by simp)]; rfl
  · rfl

@[simp] theorem kept_settleButton (b : Nat) (s : State) : kept (settleButton b s) = kept s := rfl

@[simp] theorem kept_settleButtons (s : State) : kept (settleButtons s) = kept s := by
  unfold settleButtons; exact kept_eachDo _ _ _ (by simp)

@[simp] theorem kept_settleVisitorWord (b : State) (k : Nat) (s : State) : kept (settleVisitorWord b k s) = kept s := by
  unfold settleVisitorWord; split <;> simp

@[simp] theorem kept_settleVisitors (b s : State) : kept (settleVisitors b s) = kept s := by
  unfold settleVisitors; rw [kept_eachDo _ _ _ (by simp)]; simp

@[simp] theorem kept_refreshLevels (s : State) : kept (refreshLevels s) = kept s := rfl

@[simp] theorem kept_endHandling (b s : State) : kept (endHandling b s) = kept s := by unfold endHandling; simp

@[simp] theorem kept_afterWork (n : Nat) (s : State) : kept (afterWork n s) = kept s := by
  induction n generalizing s with
  | zero => rfl
  | succ n ih =>
    unfold afterWork; repeat' split
    · rw [ih, kept_endHandling, kept_dispatcherPass]; rfl
    · rw [ih, kept_endHandling, kept_reexamine]
    · rfl

@[simp] theorem kept_finish (b s : State) : kept (finish b s) = kept s := by
  unfold finish; rw [kept_work, kept_afterWork, kept_endHandling]

end Sys2Proof.Machine
end

