-- ==== Sys2Proof/Laws/KeptTrack.lean ====
section
/-! SUPPORT. The layout stop, the tag unit and the occupancy unit: what they change of the kept fields, and what they
leave alone. -/

namespace Sys2Proof.Machine

/-! ## Run state, run condition, track power -/

@[simp] theorem kept_setRunState (r : RunState) (s : State) :
    kept (setRunState r s) = { kept s with runState := r } := by
  unfold setRunState; rw [kept_write16]; rfl

@[simp] theorem kept_setRunCondition (c : RunCondition) (w : Option StopCause) (s : State) :
    kept (setRunCondition c w s) = { kept s with cond := c, cause := w } := by
  unfold setRunCondition; rw [kept_write16, kept_write8, kept_write8]; rfl

@[simp] theorem kept_setPower (b : Bool) (s : State) : kept (setPower b s) = { kept s with power := b } := by
  unfold setPower; rw [kept_write8]; rfl

@[simp] theorem kept_reportLayout (c i : Nat) (s : State) : kept (reportLayout c i s) = kept s := by
  unfold reportLayout; simp

theorem kept_enterAllStop (c : StopCause) (s : State) (h : s.asp.cond = .running) :
    kept (enterAllStop c s) = { kept s with cond := .allStop, cause := some c, power := false } := by
  unfold enterAllStop; simp [h]

theorem enterAllStop_stopped (c : StopCause) (s : State) (h : s.asp.cond = .allStop) : enterAllStop c s = s := by
  unfold enterAllStop; simp [h]

@[simp] theorem kept_resumeLayout (s : State) :
    kept (resumeLayout s) = { kept s with cond := .running, cause := none, power := true } := by
  unfold resumeLayout; simp

/-! ## The fields that a section change can reach -/

/-- The kept fields with those blanked that a section change can write: the tags and the layout stop. -/
def Kept.still (k : Kept) : Kept := { k with tags := TagUnit.init, cond := .running, cause := none, power := false }

@[simp] theorem Kept.still_cond (k : Kept) (c : RunCondition) (w : Option StopCause) (p : Bool) :
    Kept.still { k with cond := c, cause := w, power := p } = k.still := rfl

theorem occ_of_still {s t : State} (h : (kept s).still = (kept t).still) : s.occ = t.occ := congrArg Kept.occ h

@[simp] theorem still_enterAllStop (c : StopCause) (s : State) : (kept (enterAllStop c s)).still = (kept s).still := by
  cases h : s.asp.cond
  · rw [kept_enterAllStop c s h]; rfl
  · rw [enterAllStop_stopped c s h]

/-! ## Tags -/

@[simp] theorem still_setTag (t : Nat) (v : Tag) (s : State) : (kept (setTag t v s)).still = (kept s).still := by
  unfold setTag; rw [kept_mirrorTag]; rfl

@[simp] theorem still_setTagField (n : Nat) (t : Option Nat) (s : State) :
    (kept (setTagField n t s)).still = (kept s).still := by
  unfold setTagField; dsimp only; rw [kept_mirrorSection]; rfl

@[simp] theorem still_takeTag (n t : Nat) (s : State) : (kept (takeTag n t s)).still = (kept s).still := by
  unfold takeTag; simp

@[simp] theorem still_reclaimOrAllocate (n : Nat) (l : List Neighbour) (s : State) :
    (kept (reclaimOrAllocate n l s).1).still = (kept s).still := by
  unfold reclaimOrAllocate; repeat' split
  all_goals simp

@[simp] theorem still_arrive (n : Nat) (s : State) : (kept (arrive n s).1).still = (kept s).still := by
  unfold arrive; dsimp only; repeat' split
  all_goals simp

@[simp] theorem still_freeLostTag (t : Nat) (s : State) : (kept (freeLostTag t s)).still = (kept s).still := by
  unfold freeLostTag; simp

@[simp] theorem still_depart (n : Nat) (s : State) : (kept (depart n s)).still = (kept s).still := by
  unfold depart; split
  · rfl
  · dsimp only; repeat' split
    all_goals simp

@[simp] theorem still_tagSectionChange (n : Nat) (x y : SectionState) (s : State) :
    (kept (tagSectionChange n x y s).1).still = (kept s).still := by
  have h := still_arrive n s
  unfold tagSectionChange; split
  · split
    · rfl
    · dsimp only; exact h
  all_goals simp

/-! ## Sections -/

@[simp] theorem kept_overrunOne (n : Nat) (a : Arrival) (l : List EntryNote) (x : Nat) (s : State) :
    kept (overrunOne n a l x s) = kept s := by unfold overrunOne; simp

@[simp] theorem still_overrunTest (n : Nat) (a : Option Arrival) (l : List EntryNote) (s : State) :
    (kept (overrunTest n a l s)).still = (kept s).still := by
  unfold overrunTest; split
  · rfl
  · rename_i a
    split
    · rfl
    · rename_i x more _
      have h : kept (eachDo (x :: more) (overrunOne n a l) s) = kept s := kept_eachDo _ _ _ (by simp)
      dsimp only; split <;> simp [h]

/-- A section change leaves every kept field alone but the tags and the layout stop. -/
@[simp] theorem still_sectionChanged (n : Nat) (old : SectionState) (s : State) :
    (kept (sectionChanged n old s)).still = (kept s).still := by
  unfold sectionChanged; dsimp only
  rw [kept_visitorSection]
  have h (old new : SectionState) (x v1 v2 : Nat) :
      (kept { report .sectionChanged x v1 v2 (mirrorSection n s) with
        work := sectionWork old new (report .sectionChanged x v1 v2 (mirrorSection n s)).work }).still = (kept s).still :=
    congrArg Kept.still ((kept_report _ _ _ _ _).trans (kept_mirrorSection n s))
  split
  · rw [kept_deckSectionLeft, still_overrunTest, kept_runVisitor, kept_routesSectionChange, still_tagSectionChange, h]
  · rw [still_overrunTest, kept_runVisitor, kept_routesSectionChange, still_tagSectionChange, h]

theorem occ_sectionChanged (n : Nat) (old : SectionState) (s : State) : (sectionChanged n old s).occ = s.occ :=
  occ_of_still (still_sectionChanged n old s)

/-- A loaded section's occupancy after an update. -/
theorem occ_updateSection (n : Nat) (f : Occupancy → Occupancy) (s : State) (r : SectionRec) (o : Occupancy)
    (hr : Tbl.find s.occ.recs n = some r) (ho : Tbl.find s.occ.secs n = some o) :
    (updateSection n f s).occ
      = { s.occ with secs := Tbl.insert s.occ.secs n (updateDiscrepancy r (detLevel s r) (f o)) } := by
  unfold updateSection
  simp only [hr, ho]
  split
  · rw [occ_of_kept (kept_mirrorSection n _)]
  · rw [occ_sectionChanged]

end Sys2Proof.Machine
end

