-- ==== Sys2Proof/Laws/Memory.lean ====
section
/-! SUPPORT. Exchange memory: every write keeps the canonical form; a read after a write to the same place gives the value
written, and a write leaves every other byte alone. -/

namespace Sys2Proof.Machine

/-! ## Tables -/

theorem Tbl.find_insert_self {α : Type} (t : Tbl α) (n : Nat) (v : α) : Tbl.find (Tbl.insert t n v) n = some v := by
  induction t with
  | nil => simp [Tbl.insert, Tbl.find]
  | cons x t ih =>
    obtain ⟨k, w⟩ := x
    unfold Tbl.insert; repeat' split
    · simp [Tbl.find]
    · simp [Tbl.find]
    · rename_i _ h; simp [Tbl.find, h, ih]

theorem Tbl.find_insert_other {α : Type} (t : Tbl α) (n m : Nat) (v : α) (h : m ≠ n) :
    Tbl.find (Tbl.insert t n v) m = Tbl.find t m := by
  induction t with
  | nil => simp [Tbl.insert, Tbl.find, h]
  | cons x t ih =>
    obtain ⟨k, w⟩ := x
    unfold Tbl.insert; repeat' split
    · simp [Tbl.find, h]
    · rename_i _ hk; subst hk; simp [Tbl.find, h]
    · simp [Tbl.find, ih]

theorem Tbl.find_erase_other {α : Type} (t : Tbl α) (n m : Nat) (h : m ≠ n) :
    Tbl.find (Tbl.erase t n) m = Tbl.find t m := by
  induction t with
  | nil => rfl
  | cons x t ih =>
    obtain ⟨k, w⟩ := x
    unfold Tbl.erase; split
    · rename_i hk; subst hk; simp [Tbl.find, h]
    · simp [Tbl.find, ih]

theorem Tbl.sorted_tail {α : Type} {x : Nat × α} {t : Tbl α} (h : Tbl.sorted (x :: t) = true) : Tbl.sorted t = true := by
  cases t with
  | nil => rfl
  | cons y t => obtain ⟨m, w⟩ := y; obtain ⟨k, v⟩ := x; simp [Tbl.sorted] at h; exact h.2

/-- The numbers after the first of a sorted table are greater than it. -/
theorem Tbl.find_of_lt {α : Type} (t : Tbl α) (k : Nat) (v : α) (h : Tbl.sorted ((k, v) :: t) = true) (n : Nat)
    (hn : n ≤ k) : Tbl.find t n = none := by
  induction t generalizing k v with
  | nil => rfl
  | cons y t ih =>
    obtain ⟨m, w⟩ := y
    simp [Tbl.sorted] at h
    have : n ≠ m := by omega
    simp [Tbl.find, this]
    exact ih m w h.2 (by omega)

theorem Tbl.find_erase_self {α : Type} (t : Tbl α) (n : Nat) (h : Tbl.sorted t = true) :
    Tbl.find (Tbl.erase t n) n = none := by
  induction t with
  | nil => rfl
  | cons x t ih =>
    obtain ⟨k, w⟩ := x
    unfold Tbl.erase; split
    · rename_i hk; subst hk; exact Tbl.find_of_lt t n w h n (by omega)
    · rename_i hk; simp [Tbl.find, hk, ih (Tbl.sorted_tail h)]

theorem Tbl.sorted_cons_iff {α : Type} (k : Nat) (v : α) (t : Tbl α) :
    Tbl.sorted ((k, v) :: t) = true ↔ (∀ x ∈ t, k < x.1) ∧ Tbl.sorted t = true := by
  induction t generalizing k v with
  | nil => simp [Tbl.sorted]
  | cons y t ih =>
    obtain ⟨m, w⟩ := y
    have := ih m w
    simp only [Tbl.sorted, Bool.and_eq_true, decide_eq_true_eq, this, List.mem_cons]
    constructor
    · rintro ⟨h1, h2, h3⟩
      refine ⟨?_, h2, h3⟩
      rintro x (rfl | hx)
      · exact h1
      · exact lt_trans h1 (h2 x hx)
    · rintro ⟨h1, h2, h3⟩
      exact ⟨h1 (m, w) (.inl rfl), h2, h3⟩

theorem Tbl.mem_insert {α : Type} {t : Tbl α} {n : Nat} {v : α} {x : Nat × α} (h : x ∈ Tbl.insert t n v) :
    x = (n, v) ∨ x ∈ t := by
  induction t with
  | nil => simp [Tbl.insert] at h; exact .inl h
  | cons y t ih =>
    obtain ⟨k, w⟩ := y
    unfold Tbl.insert at h
    split at h
    · simpa using h
    · split at h
      · simp only [List.mem_cons] at h ⊢; tauto
      · simp only [List.mem_cons] at h ⊢
        rcases h with h | h
        · exact .inr (.inl h)
        · rcases ih h with h | h <;> tauto

theorem Tbl.mem_erase {α : Type} {t : Tbl α} {n : Nat} {x : Nat × α} (h : x ∈ Tbl.erase t n) : x ∈ t := by
  induction t with
  | nil => exact h
  | cons y t ih =>
    obtain ⟨k, w⟩ := y
    unfold Tbl.erase at h
    split at h
    · exact List.mem_cons_of_mem _ h
    · simp only [List.mem_cons] at h ⊢
      rcases h with h | h
      · exact .inl h
      · exact .inr (ih h)

theorem Tbl.sorted_insert {α : Type} (t : Tbl α) (n : Nat) (v : α) (h : Tbl.sorted t = true) :
    Tbl.sorted (Tbl.insert t n v) = true := by
  induction t with
  | nil => rfl
  | cons y t ih =>
    obtain ⟨k, w⟩ := y
    obtain ⟨h1, h2⟩ := (Tbl.sorted_cons_iff k w t).1 h
    unfold Tbl.insert
    split
    · rename_i hlt
      rw [Tbl.sorted_cons_iff]
      refine ⟨?_, h⟩
      intro x hx
      rcases List.mem_cons.1 hx with rfl | hx
      · exact hlt
      · exact lt_trans hlt (h1 x hx)
    · split
      · rename_i he; subst he; exact (Tbl.sorted_cons_iff n v t).2 ⟨h1, h2⟩
      · rename_i hn he
        rw [Tbl.sorted_cons_iff]
        refine ⟨?_, ih h2⟩
        intro x hx
        rcases Tbl.mem_insert hx with rfl | hx
        · show k < n; omega
        · exact h1 x hx

theorem Tbl.sorted_erase {α : Type} (t : Tbl α) (n : Nat) (h : Tbl.sorted t = true) :
    Tbl.sorted (Tbl.erase t n) = true := by
  induction t with
  | nil => rfl
  | cons y t ih =>
    obtain ⟨k, w⟩ := y
    obtain ⟨h1, h2⟩ := (Tbl.sorted_cons_iff k w t).1 h
    unfold Tbl.erase
    split
    · exact h2
    · rw [Tbl.sorted_cons_iff]
      exact ⟨fun x hx => h1 x (Tbl.mem_erase hx), ih h2⟩

/-! ## Bytes -/

namespace Mem

theorem read8_write8_other (m : List Host.Cell) (a b : Nat) (v : Byte) (h : b ≠ a) :
    read8 (write8 m a v) b = read8 m b := by
  unfold read8 write8 Tbl.put Tbl.getD
  split
  · rw [Tbl.find_erase_other _ _ _ h]
  · rw [Tbl.find_insert_other _ _ _ _ h]

theorem read8_write8_self (m : List Host.Cell) (a : Nat) (v : Byte) (h : Tbl.sorted m = true) :
    read8 (write8 m a v) a = v := by
  unfold read8 write8 Tbl.put Tbl.getD
  split
  · rename_i hv; rw [Tbl.find_erase_self _ _ h, hv]; rfl
  · rw [Tbl.find_insert_self]; rfl

theorem cellsOk_iff (m : List Host.Cell) :
    cellsOk m = true ↔ ∀ x ∈ m, x.2 ≠ unlisted ∧ x.1 < Config.memBytes := by
  induction m with
  | nil => simp [cellsOk]
  | cons x m ih =>
    obtain ⟨a, v⟩ := x
    simp only [cellsOk, Bool.and_eq_true, decide_eq_true_eq, ih, List.forall_mem_cons]

/-- A byte written inside exchange memory keeps the canonical form. -/
theorem wf_write8 (m : List Host.Cell) (a : Nat) (v : Byte) (h : wf m = true) (ha : a < Config.memBytes) :
    wf (write8 m a v) = true := by
  unfold wf at *
  simp only [Bool.and_eq_true] at *
  obtain ⟨h1, h2⟩ := h
  rw [cellsOk_iff] at h2
  unfold write8 Tbl.put
  split
  · exact ⟨Tbl.sorted_erase _ _ h1, (cellsOk_iff _).2 fun x hx => h2 x (Tbl.mem_erase hx)⟩
  · rename_i hv
    refine ⟨Tbl.sorted_insert _ _ _ h1, (cellsOk_iff _).2 fun x hx => ?_⟩
    rcases Tbl.mem_insert hx with rfl | hx
    · exact ⟨hv, ha⟩
    · exact h2 x hx

theorem wf_write16 (m : List Host.Cell) (a : Nat) (v : Half) (h : wf m = true) (ha : a + 1 < Config.memBytes) :
    wf (write16 m a v) = true := wf_write8 _ _ _ (wf_write8 _ _ _ h (by omega)) ha

theorem wf_write32 (m : List Host.Cell) (a : Nat) (v : Word) (h : wf m = true) (ha : a + 3 < Config.memBytes) :
    wf (write32 m a v) = true := wf_write16 _ _ _ (wf_write16 _ _ _ h (by omega)) (by omega)

theorem sorted_write8 (m : List Host.Cell) (a : Nat) (v : Byte) (h : Tbl.sorted m = true) :
    Tbl.sorted (write8 m a v) = true := by
  unfold write8 Tbl.put
  split
  · exact Tbl.sorted_erase _ _ h
  · exact Tbl.sorted_insert _ _ _ h

theorem sorted_write16 (m : List Host.Cell) (a : Nat) (v : Half) (h : Tbl.sorted m = true) :
    Tbl.sorted (write16 m a v) = true := sorted_write8 _ _ _ (sorted_write8 _ _ _ h)

theorem read8_write16_other (m : List Host.Cell) (a b : Nat) (v : Half) (h : b < a ∨ a + 1 < b) :
    read8 (write16 m a v) b = read8 m b := by
  unfold write16
  rw [read8_write8_other _ _ _ _ (by omega), read8_write8_other _ _ _ _ (by omega)]

theorem read8_write32_other (m : List Host.Cell) (a b : Nat) (v : Word) (h : b < a ∨ a + 3 < b) :
    read8 (write32 m a v) b = read8 m b := by
  unfold write32
  rw [read8_write16_other _ _ _ _ (by omega), read8_write16_other _ _ _ _ (by omega)]

theorem half_bytes (v : Half) : v.extractLsb' 8 8 ++ v.extractLsb' 0 8 = v := by
  apply BitVec.eq_of_getLsbD_eq
  intro i hi
  rw [BitVec.getLsbD_append, BitVec.getLsbD_extractLsb', BitVec.getLsbD_extractLsb']
  by_cases h : i < 8
  · simp [h]
  · have h2 : i - 8 < 8 := by omega
    have h3 : 8 + (i - 8) = i := by omega
    simp [h, h2, h3]

theorem word_halves (v : Word) : v.extractLsb' 16 16 ++ v.extractLsb' 0 16 = v := by
  apply BitVec.eq_of_getLsbD_eq
  intro i hi
  rw [BitVec.getLsbD_append, BitVec.getLsbD_extractLsb', BitVec.getLsbD_extractLsb']
  by_cases h : i < 16
  · simp [h]
  · have h2 : i - 16 < 16 := by omega
    have h3 : 16 + (i - 16) = i := by omega
    simp [h, h2, h3]

theorem read16_write16_self (m : List Host.Cell) (a : Nat) (v : Half) (h : Tbl.sorted m = true) :
    read16 (write16 m a v) a = v := by
  unfold read16 write16
  rw [read8_write8_self _ _ _ (sorted_write8 _ _ _ h), read8_write8_other _ _ _ _ (by omega), read8_write8_self _ _ _ h]
  exact half_bytes v

theorem read32_write32_self (m : List Host.Cell) (a : Nat) (v : Word) (h : Tbl.sorted m = true) :
    read32 (write32 m a v) a = v := by
  have hlow : read16 (write32 m a v) a = v.extractLsb' 0 16 := by
    unfold write32
    have : ∀ (k : List Host.Cell) (w : Half), read16 (write16 k (a + 2) w) a = read16 k a := by
      intro k w
      unfold read16
      rw [read8_write16_other _ _ _ _ (by omega), read8_write16_other _ _ _ _ (by omega)]
    rw [this, read16_write16_self _ _ _ h]
  have hhigh : read16 (write32 m a v) (a + 2) = v.extractLsb' 16 16 := by
    unfold write32
    exact read16_write16_self _ _ _ (sorted_write16 _ _ _ h)
  unfold read32
  rw [hlow, hhigh]
  exact word_halves v

end Mem

/-! ## The part's writes -/

theorem memOk_of_mem {s t : State} (h : t.exch.mem = s.exch.mem) (hs : s.memOk) : t.memOk := by
  unfold State.memOk at *; rw [h]; exact hs

theorem memOk_write8 (a v : Nat) (s : State) (h : s.memOk) : (s.write8 a v).memOk := by
  unfold State.write8; split
  · exact Mem.wf_write8 _ _ _ h (by assumption)
  · exact h

theorem memOk_write16 (a v : Nat) (s : State) (h : s.memOk) : (s.write16 a v).memOk := by
  unfold State.write16; split
  · exact Mem.wf_write16 _ _ _ h (by assumption)
  · exact h

theorem memOk_write32 (a v : Nat) (s : State) (h : s.memOk) : (s.write32 a v).memOk := by
  unfold State.write32; split
  · exact Mem.wf_write32 _ _ _ h (by assumption)
  · exact h

theorem read8_write8_other (a v b : Nat) (s : State) (h : b ≠ a) : (s.write8 a v).read8 b = s.read8 b := by
  unfold State.write8; split
  · simp [State.read8, State.withMem, Mem.read8_write8_other _ _ _ _ h]
  · rfl

theorem read8_write16_other (a v b : Nat) (s : State) (h : b < a ∨ a + 1 < b) :
    (s.write16 a v).read8 b = s.read8 b := by
  unfold State.write16; split
  · simp [State.read8, State.withMem, Mem.read8_write16_other _ _ _ _ h]
  · rfl

theorem read8_write32_other (a v b : Nat) (s : State) (h : b < a ∨ a + 3 < b) :
    (s.write32 a v).read8 b = s.read8 b := by
  unfold State.write32; split
  · simp [State.read8, State.withMem, Mem.read8_write32_other _ _ _ _ h]
  · rfl

theorem sorted_of_memOk {s : State} (h : s.memOk) : Tbl.sorted s.exch.mem = true := by
  unfold State.memOk Mem.wf at h; simp only [Bool.and_eq_true] at h; exact h.1

theorem read16_write16_self (a v : Nat) (s : State) (h : s.memOk) (ha : a + 1 < Config.memBytes) :
    (s.write16 a v).read16 a = v % 2 ^ 16 := by
  unfold State.write16; rw [if_pos ha]
  simp [State.read16, State.withMem, Mem.read16_write16_self _ _ _ (sorted_of_memOk h)]

theorem read32_write32_self (a v : Nat) (s : State) (h : s.memOk) (ha : a + 3 < Config.memBytes) :
    (s.write32 a v).read32 a = v % 2 ^ 32 := by
  unfold State.write32; rw [if_pos ha]
  simp [State.read32, State.withMem, Mem.read32_write32_self _ _ _ (sorted_of_memOk h)]

end Sys2Proof.Machine
end

