-- ==== Sys2Proof/Laws/Fit.lean ====
section
/-! SUPPORT. Each route in a holder list lists its point: the operations over the log, the header and the slots, and a change
of a block that leaves the fields of `HoldersFit` alone. -/

namespace Sys2Proof.Machine

/-- The fields that `HoldersFit` speaks of. -/
def fitKey (s : State) : Tbl RouteRec × Tbl Holders × List StackEntry × Option Runner × RunState × Option Load × List Load :=
  (s.ilk.routes, s.ilk.holders, s.ilk.stack, s.vis.runner, s.exch.runState, s.exch.reading, s.exch.loads)

theorem fit_same {s t : State} (h : HoldersFit s) (e : fitKey t = fitKey s) : HoldersFit t := by
  unfold fitKey at e
  simp only [Prod.mk.injEq] at e
  obtain ⟨e1, e2, e3, e4, e5, e6, e7⟩ := e
  refine ⟨e2 ▸ h.sorted, fun p n hn => ?_, by rw [e2, e3, e4, e5]; exact h.idle, by rw [e5, e6, e7]; exact h.loads⟩
  unfold holdersOf at hn ⊢
  rw [e2] at hn ⊢
  rw [e1]
  exact h.listed p n hn

/-- Where a request is stacked, a point is held or a show runs, the layout is in RUNNING. -/
theorem HoldersFit.running {s : State} (h : HoldersFit s) (e : s.ilk.holders ≠ [] ∨ s.ilk.stack ≠ [] ∨ s.vis.runner ≠ none) :
    s.exch.runState = .running := by
  by_contra hr
  obtain ⟨e1, e2, e3⟩ := h.idle hr
  rcases e with e | e | e
  · exact e e1
  · exact e e2
  · exact e e3

/-! ## Memory, the log, the slots, the mirrors -/

theorem fit_body {s t : State} (e : body t = body s) (h : HoldersFit s) : HoldersFit t :=
  fit_same h (show fitKey (body t) = fitKey (body s) by rw [e])

@[simp] theorem fit_withMem (s : State) (m : List Host.Cell) (h : HoldersFit s) : HoldersFit (s.withMem m) :=
  fit_body (body_withMem _ _) h

@[simp] theorem fit_write8 (a v : Nat) (s : State) (h : HoldersFit s) : HoldersFit (s.write8 a v) :=
  fit_body (body_write8 _ _ _) h

@[simp] theorem fit_write16 (a v : Nat) (s : State) (h : HoldersFit s) : HoldersFit (s.write16 a v) :=
  fit_body (body_write16 _ _ _) h

@[simp] theorem fit_write32 (a v : Nat) (s : State) (h : HoldersFit s) : HoldersFit (s.write32 a v) :=
  fit_body (body_write32 _ _ _) h

@[simp] theorem fit_writeWord (b n k v : Nat) (s : State) (h : HoldersFit s) : HoldersFit (s.writeWord b n k v) :=
  fit_body (body_writeWord _ _ _ _ _) h

@[simp] theorem fit_evalLine (s : State) (h : HoldersFit s) : HoldersFit (evalLine s) := fit_body (body_evalLine _) h

@[simp] theorem fit_evalStop (s : State) (h : HoldersFit s) : HoldersFit (evalStop s) := fit_body (body_evalStop _) h

@[simp] theorem fit_readLevels (s : State) (h : HoldersFit s) : HoldersFit (readLevels s) := fit_body (body_readLevels _) h

@[simp] theorem fit_report (k : ReportKind) (x v1 v2 : Nat) (s : State) (h : HoldersFit s) : HoldersFit (report k x v1 v2 s) :=
  fit_body (body_report _ _ _ _ _) h

@[simp] theorem fit_mirrorSection (n : Nat) (s : State) (h : HoldersFit s) : HoldersFit (mirrorSection n s) :=
  fit_body (body_mirrorSection _ _) h

@[simp] theorem fit_mirrorHead (n : Nat) (s : State) (h : HoldersFit s) : HoldersFit (mirrorHead n s) :=
  fit_body (body_mirrorHead _ _) h

@[simp] theorem fit_mirrorTag (n : Nat) (s : State) (h : HoldersFit s) : HoldersFit (mirrorTag n s) :=
  fit_body (body_mirrorTag _ _) h

@[simp] theorem fit_mirrorActive (n : Nat) (s : State) (h : HoldersFit s) : HoldersFit (mirrorActive n s) :=
  fit_body (body_mirrorActive _ _) h

@[simp] theorem fit_mirrorStack (s : State) (h : HoldersFit s) : HoldersFit (mirrorStack s) :=
  fit_body (body_mirrorStack _) h

@[simp] theorem fit_mirrorPointNow (n : Nat) (s : State) (h : HoldersFit s) : HoldersFit (mirrorPointNow n s) :=
  fit_body (body_mirrorPointNow _ _) h

@[simp] theorem fit_mirrorPoint (n : Nat) (s : State) (h : HoldersFit s) : HoldersFit (mirrorPoint n s) :=
  fit_body (body_mirrorPoint _ _) h

@[simp] theorem fit_mirrorSignalNow (n : Nat) (s : State) (h : HoldersFit s) : HoldersFit (mirrorSignalNow n s) :=
  fit_body (body_mirrorSignalNow _ _) h

@[simp] theorem fit_mirrorSignal (n : Nat) (s : State) (h : HoldersFit s) : HoldersFit (mirrorSignal n s) :=
  fit_body (body_mirrorSignal _ _) h

@[simp] theorem fit_mirrorTable (s : State) (h : HoldersFit s) : HoldersFit (mirrorTable s) :=
  fit_body (body_mirrorTable _) h

@[simp] theorem fit_mirrorVisitorWord (k : Nat) (s : State) (h : HoldersFit s) : HoldersFit (mirrorVisitorWord k s) :=
  fit_body (body_mirrorVisitorWord _ _) h

@[simp] theorem fit_mirrorVisitor (s : State) (h : HoldersFit s) : HoldersFit (mirrorVisitor s) :=
  fit_body (body_mirrorVisitor _) h

@[simp] theorem fit_mirrorLampWord (k : Nat) (s : State) (h : HoldersFit s) : HoldersFit (mirrorLampWord k s) :=
  fit_body (body_mirrorLampWord _ _) h

@[simp] theorem fit_mirrorLamps (n : Nat) (s : State) (h : HoldersFit s) : HoldersFit (mirrorLamps n s) :=
  fit_body (body_mirrorLamps _ _) h

@[simp] theorem fit_settleVisitorWord (b : State) (k : Nat) (s : State) (h : HoldersFit s) : HoldersFit (settleVisitorWord b k s) :=
  fit_body (body_settleVisitorWord _ _ _) h

@[simp] theorem fit_work (s : State) (w : Work) (h : HoldersFit s) : HoldersFit { s with work := w } := fit_same h rfl

@[simp] theorem fit_complete (n : Nat) (r : Result) (w0 w1 : Nat) (s : State) (h : HoldersFit s) :
    HoldersFit (complete n r w0 w1 s) := by
  unfold complete; split
  · exact h
  · rename_i tag _
    exact fit_same (fit_write16 (slotAt n) 3 _ (fit_write16 (slotAt n + 4) tag.toNat _
      (fit_write32 (slotAt n + 0x1C) w1 _ (fit_write32 (slotAt n + 0x18) w0 _ (fit_write16 (slotAt n + 6) r.code s h))))) rfl

@[simp] theorem fit_useFree (s : State) (h : HoldersFit s) : HoldersFit (useFree s) := fit_same h rfl

@[simp] theorem fit_setUnit (u : Discharge) (s : State) (h : HoldersFit s) : HoldersFit (setUnit u s) := by
  unfold setUnit; apply fit_write8; exact fit_same h rfl

@[simp] theorem fit_setPanelState (p : Panel) (s : State) (h : HoldersFit s) : HoldersFit (setPanelState p s) := by
  unfold setPanelState; apply fit_write8; apply fit_write8; exact fit_same h rfl

@[simp] theorem fit_setRunCondition (c : RunCondition) (w : Option StopCause) (s : State) (h : HoldersFit s) :
    HoldersFit (setRunCondition c w s) := by
  unfold setRunCondition; apply fit_write16; apply fit_write8; apply fit_write8; exact fit_same h rfl

@[simp] theorem fit_setPower (b : Bool) (s : State) (h : HoldersFit s) : HoldersFit (setPower b s) := by
  unfold setPower; apply fit_write8; exact fit_same h rfl

/-! ## Lists -/

@[simp] theorem fit_eachDo (l : List Nat) (f : Nat → State → State) (s : State) (hf : ∀ n t, HoldersFit t → HoldersFit (f n t))
    (h : HoldersFit s) : HoldersFit (eachDo l f s) := by
  unfold eachDo
  induction l generalizing s with
  | nil => exact h
  | cons n l ih => rw [List.foldl_cons]; exact ih _ (hf n s h)

@[simp] theorem fit_foldl {α : Type} (l : List α) (f : State → α → State) (s : State)
    (hf : ∀ x t, HoldersFit t → HoldersFit (f t x)) (h : HoldersFit s) : HoldersFit (l.foldl f s) := by
  induction l generalizing s with
  | nil => exact h
  | cons n l ih => rw [List.foldl_cons]; exact ih _ (hf n s h)

/-! ## A block changed -/

@[simp] theorem fit_occ (s : State) (x : OccUnit) (h : HoldersFit s) : HoldersFit { s with occ := x } := fit_same h rfl

@[simp] theorem fit_tags (s : State) (x : TagUnit) (h : HoldersFit s) : HoldersFit { s with tags := x } := fit_same h rfl

@[simp] theorem fit_pts (s : State) (x : PointUnit) (h : HoldersFit s) : HoldersFit { s with pts := x } := fit_same h rfl

@[simp] theorem fit_asp (s : State) (x : AspectUnit) (h : HoldersFit s) : HoldersFit { s with asp := x } := fit_same h rfl

@[simp] theorem fit_tt (s : State) (x : Turntable) (h : HoldersFit s) : HoldersFit { s with tt := x } := fit_same h rfl

@[simp] theorem fit_disp (s : State) (x : Display) (h : HoldersFit s) : HoldersFit { s with disp := x } := fit_same h rfl

/-- The stack changed: to one with no entry where it had none. -/
theorem fit_stack (s : State) (l : List StackEntry) (hl : s.ilk.stack = [] → l = []) (h : HoldersFit s) :
    HoldersFit { s with ilk := { s.ilk with stack := l } } :=
  ⟨h.sorted, h.listed, fun hr => ⟨(h.idle hr).1, hl (h.idle hr).2.1, (h.idle hr).2.2⟩, h.loads⟩

/-- The visitor unit changed: no show runs after it where none did, or the layout is in RUNNING. -/
theorem fit_vis (s : State) (x : VisitorUnit) (hx : s.exch.runState = .running ∨ (s.vis.runner = none → x.runner = none))
    (h : HoldersFit s) : HoldersFit { s with vis := x } := by
  refine ⟨h.sorted, h.listed, fun hr => ⟨(h.idle hr).1, (h.idle hr).2.1, ?_⟩, h.loads⟩
  rcases hx with hx | hx
  · exact absurd hx hr
  · exact hx (h.idle hr).2.2

end Sys2Proof.Machine
end

