-- ==== Sys2Proof/Laws/FitRoutes.lean ====
section
/-! SUPPORT. Routes, points and their requests keep each route of a holder list among those that list the point. -/

set_option linter.unusedTactic false
set_option linter.unreachableTactic false

namespace Sys2Proof.Machine

/-! ## Handing back -/

/-- The runner set: to one where a show runs, or to none. -/
theorem fit_setRunner (r : Option Runner) (s : State) (hr : s.vis.runner ≠ none ∨ r = none) (hz : HoldersFit s) :
    HoldersFit (setRunner r s) :=
  fit_vis _ _ (.inr fun h => hr.elim (absurd h) id) hz

theorem fit_stepEnds (r : Runner) (e : StepEnd) (s : State) (hr : s.vis.runner ≠ none) (hz : HoldersFit s) :
    HoldersFit (stepEnds r e s) := fit_work _ _ (fit_setRunner _ _ (.inl hr) hz)

theorem waitingForRoute_runs {s : State} {sh route : Nat} {r : Runner} (h : waitingForRoute s sh route = some r) :
    s.vis.runner ≠ none := by
  intro hn; unfold waitingForRoute at h; rw [hn] at h; cases h

@[simp] theorem fit_showRouteSet (sh r : Nat) (s : State) (hz : HoldersFit s) : HoldersFit (showRouteSet sh r s) := by
  unfold showRouteSet; split
  · rename_i h; exact fit_stepEnds _ _ _ (waitingForRoute_runs h) hz
  · exact hz

@[simp] theorem fit_showRouteFailed (sh r : Nat) (y : Result) (w : Nat) (s : State) (hz : HoldersFit s) : HoldersFit (showRouteFailed sh r y w s) := by
  unfold showRouteFailed; split
  · rename_i h; exact fit_stepEnds _ _ _ (waitingForRoute_runs h) hz
  · exact hz

@[simp] theorem fit_showRouteAccepted (sh r : Nat) (s : State) (hz : HoldersFit s) : HoldersFit (showRouteAccepted sh r s) := by
  unfold showRouteAccepted; split
  · rename_i h
    split
    · exact fit_setRunner _ _ (.inl (by simp [h])) hz
    · exact hz
  · exact hz

@[simp] theorem fit_showRouteReleased (sh r : Nat) (s : State) (hz : HoldersFit s) : HoldersFit (showRouteReleased sh r s) := by
  unfold showRouteReleased; split
  · rename_i h
    split
    · exact fit_setRunner _ _ (.inl (by simp [h])) hz
    · exact hz
  · exact hz

@[simp] theorem fit_showTurnAnswer (sh : Nat) (r : Result) (w : Nat) (s : State) (hz : HoldersFit s) :
    HoldersFit (showTurnAnswer sh r w s) := by
  unfold showTurnAnswer; split
  · exact hz
  · rename_i h
    split
    · exact fit_stepEnds _ _ _ (by simp [h]) hz
    · exact hz

/-! ## Orders -/

@[simp] theorem fit_setPoint (p : Nat) (f : PointState → PointState) (s : State) (hz : HoldersFit s) :
    HoldersFit (setPoint p f s) := by
  unfold setPoint; (try dsimp only); repeat' split
  all_goals first
    | (simp (maxDischargeDepth := 60) +contextual [hz]; done)
    | exact fit_same hz rfl

@[simp] theorem fit_updateLoss (p : Nat) (s : State) (hz : HoldersFit s) : HoldersFit (updateLoss p s) := fit_same hz rfl

@[simp] theorem fit_touchPoint (p : Nat) (s : State) (hz : HoldersFit s) :
    HoldersFit (touchPoint p s) := by
  unfold touchPoint; (try dsimp only); repeat' split
  all_goals first
    | (simp (maxDischargeDepth := 60) +contextual [hz]; done)
    | exact fit_same hz rfl

@[simp] theorem fit_setOrders (q o : List Order) (s : State) (hz : HoldersFit s) : HoldersFit (setOrders q o s) := fit_same hz rfl

@[simp] theorem fit_wantPass (s : State) (hz : HoldersFit s) :
    HoldersFit (wantPass s) := by
  unfold wantPass; (try dsimp only); repeat' split
  all_goals first
    | (simp (maxDischargeDepth := 60) +contextual [hz]; done)
    | exact fit_same hz rfl

@[simp] theorem fit_wantReexam (s : State) (hz : HoldersFit s) :
    HoldersFit (wantReexam s) := by
  unfold wantReexam; (try dsimp only); repeat' split
  all_goals first
    | (simp (maxDischargeDepth := 60) +contextual [hz]; done)
    | exact fit_same hz rfl

@[simp] theorem fit_wantAspects (s : State) (hz : HoldersFit s) :
    HoldersFit (wantAspects s) := by
  unfold wantAspects; (try dsimp only); repeat' split
  all_goals first
    | (simp (maxDischargeDepth := 60) +contextual [hz]; done)
    | exact fit_same hz rfl

@[simp] theorem fit_giveOrder (o : Order) (s : State) (hz : HoldersFit s) : HoldersFit (giveOrder o s) := by
  unfold giveOrder; split <;> simp (maxDischargeDepth := 60) [hz]

@[simp] theorem fit_fillQueue (s : State) (hz : HoldersFit s) : HoldersFit (fillQueue s) := by
  unfold fillQueue; dsimp only; split
  · exact hz
  · exact fit_eachDo _ _ _ (fun n t h => fit_touchPoint n t h) (fit_wantPass _ (fit_setOrders _ _ _ hz))

@[simp] theorem fit_removeOrder (p : Nat) (s : State) (hz : HoldersFit s) : HoldersFit (removeOrder p s) := by
  unfold removeOrder; exact fit_fillQueue _ (fit_setOrders _ _ _ hz)

@[simp] theorem fit_changeOrder (p : Nat) (f : Order → Order) (s : State) (hz : HoldersFit s) : HoldersFit (changeOrder p f s) :=
  fit_setOrders _ _ _ hz

@[simp] theorem fit_withdraw (e : Nat) (s : State) (hz : HoldersFit s) : HoldersFit (withdraw e s) := by
  unfold withdraw; dsimp only
  refine fit_same (fit_eachDo (queuedPoints s e) touchPoint _ (fun n t h => fit_touchPoint n t h) ?_) rfl
  exact fit_fillQueue _ (fit_setOrders _ _ _ (fit_work _ _ hz))

/-! ## Routes -/

@[simp] theorem fit_setLock (n : Nat) (r : Option Nat) (s : State) (hz : HoldersFit s) : HoldersFit (setLock n r s) := by
  unfold setLock; dsimp only; apply fit_mirrorSection; split <;> exact fit_same hz rfl

theorem holdersOf_setHolders_self (p : Nat) (h : Holders) (s : State) (hs : Tbl.sorted s.ilk.holders = true) :
    holdersOf (setHolders p h s) p = h := by
  unfold holdersOf; rw [setHolders_ilk]; unfold Tbl.getD Tbl.put
  split
  · rename_i he; subst he; rw [Tbl.find_erase_self _ _ hs]; rfl
  · rw [Tbl.find_insert_self]; rfl

theorem holdersOf_setHolders_other (p m : Nat) (h : Holders) (s : State) (hm : m ≠ p) :
    holdersOf (setHolders p h s) m = holdersOf s m := by
  unfold holdersOf; rw [setHolders_ilk]; unfold Tbl.getD Tbl.put
  split
  · rw [Tbl.find_erase_other _ _ _ hm]
  · rw [Tbl.find_insert_other _ _ _ _ hm]

/-- A point's holder list set, in RUNNING, to one whose every route lists the point with the shared lie. -/
theorem fit_setHolders (p : Nat) (h : Holders) (s : State) (hr : s.exch.runState = .running)
    (hl : ∀ n ∈ h.routes, ∃ r l, Tbl.find s.ilk.routes n = some r ∧ h.shared = some l ∧ (p, l) ∈ routePoints r)
    (hz : HoldersFit s) : HoldersFit (setHolders p h s) := by
  have hx : (setHolders p h s).exch.runState = .running := by
    have := congrArg Kept.runState (kept_setHolders p h s); exact this.trans hr
  refine ⟨?_, fun m n hn => ?_, fun hne => absurd hx hne, fun _ => ?_⟩
  · rw [setHolders_ilk]; unfold Tbl.put; dsimp only
    split
    · exact Tbl.sorted_erase _ _ hz.sorted
    · exact Tbl.sorted_insert _ _ _ hz.sorted
  · rw [show (setHolders p h s).ilk.routes = s.ilk.routes by rw [setHolders_ilk]]
    by_cases hm : m = p
    · subst hm
      rw [holdersOf_setHolders_self _ _ _ hz.sorted] at hn ⊢
      exact hl n hn
    · rw [holdersOf_setHolders_other _ _ _ _ hm] at hn ⊢
      exact hz.listed m n hn
  · rw [show (setHolders p h s).exch.reading = s.exch.reading from congrArg Kept.reading (kept_setHolders p h s),
      show (setHolders p h s).exch.loads = s.exch.loads from congrArg Kept.loads (kept_setHolders p h s)]
    exact hz.loads hr

/-- A loaded route that lists the point joins its holders, whose shared lie it fits (R48). -/
theorem fit_addHolder (p : Nat) (l : Lie) (n : Nat) (r : RouteRec) (s : State) (hr : s.exch.runState = .running)
    (hf : Tbl.find s.ilk.routes n = some r) (hl : (p, l) ∈ routePoints r)
    (hc : (holdersOf s p).routes = [] ∨ n ∈ (holdersOf s p).routes ∨ (holdersOf s p).shared = some l) (hz : HoldersFit s) :
    HoldersFit (addHolder p l n s) := by
  unfold addHolder; dsimp only
  refine fit_setHolders _ _ _ hr ?_ hz
  intro m hm
  rw [List.mem_append, List.mem_singleton] at hm
  by_cases he : (holdersOf s p).routes = []
  · rcases hm with hm | rfl
    · rw [he] at hm; cases hm
    · exact ⟨r, l, hf, by simp [he], hl⟩
  · simp only [he, if_false]
    rcases hm with hm | rfl
    · exact hz.listed p m hm
    · rcases hc with hc | hc | hc
      · exact absurd hc he
      · exact hz.listed p m hc
      · exact ⟨r, l, hf, hc, hl⟩

@[simp] theorem fit_removeHolder (p r : Nat) (s : State) (hz : HoldersFit s) : HoldersFit (removeHolder p r s) := by
  unfold removeHolder; dsimp only; split
  · rename_i hc
    apply fit_wantReexam
    have hne : s.ilk.holders ≠ [] := by
      intro h; simp [holdersOf, h, Tbl.getD, Tbl.find, Holders.none] at hc
    refine fit_setHolders _ _ _ (hz.running (.inl hne)) ?_ hz
    intro m hm
    have hm : m ∈ (holdersOf s p).routes.erase r := hm
    have he : (holdersOf s p).routes.erase r ≠ [] := by intro h; rw [h] at hm; cases hm
    simp only [he, if_false]
    exact hz.listed p m (List.mem_of_mem_erase hm)
  · exact hz

@[simp] theorem fit_putActive (e : Nat) (a : Active) (s : State) (hz : HoldersFit s) :
    HoldersFit (putActive e a s) := by
  unfold putActive; (try dsimp only); repeat' split
  all_goals first
    | (simp (maxDischargeDepth := 60) +contextual [hz]; done)
    | exact fit_same hz rfl

@[simp] theorem fit_setActive (e : Nat) (a : Active) (s : State) (hz : HoldersFit s) :
    HoldersFit (setActive e a s) := by
  unfold setActive; (try dsimp only); repeat' split
  all_goals first
    | (simp (maxDischargeDepth := 60) +contextual [hz]; done)
    | exact fit_same hz rfl

@[simp] theorem fit_answerSlot (e : Nat) (r : Result) (w0 w1 : Nat) (s : State) (hz : HoldersFit s) :
    HoldersFit (answerSlot e r w0 w1 s) := by
  unfold answerSlot; repeat' split
  all_goals simp [hz]

@[simp] theorem fit_tellShow (a : Active) (f : Nat → Nat → State → State) (s : State)
    (hf : ∀ x y t, HoldersFit t → HoldersFit (f x y t)) (hz : HoldersFit s) : HoldersFit (tellShow a f s) := by
  unfold tellShow; split
  · exact hf _ _ _ hz
  · exact hz

@[simp] theorem fit_releaseWhole (e : Nat) (y : Ending) (s : State) (hz : HoldersFit s) : HoldersFit (releaseWhole e y s) := by
  unfold releaseWhole; split
  · exact hz
  · rename_i a _
    dsimp only
    apply fit_wantAspects; apply fit_wantReexam
    refine fit_tellShow _ _ _ (fun x y t h => fit_showRouteReleased x y t h) ?_
    have h1 := fit_eachDo ((s.ilk.locks.filter fun x => x.2 == a.route).map Prod.fst) (fun n => setLock n none) s
      (fun n t h => fit_setLock n none t h) hz
    have h2 := fit_eachDo ((s.ilk.holders.filter fun x => x.2.routes.contains a.route).map Prod.fst)
      (fun p => removeHolder p a.route) _ (fun n t h => fit_removeHolder n a.route t h) h1
    generalize (eachDo ((s.ilk.holders.filter fun x => x.2.routes.contains a.route).map Prod.fst)
      (fun p => removeHolder p a.route) _) = u at h2
    have h3 : HoldersFit (report .routeReleased a.route (halves e y.code) (orNone16 a.tag)
        (mirrorActive e { u with ilk := { u.ilk with active := Tbl.erase u.ilk.active e } })) :=
      fit_report _ _ _ _ _ (fit_mirrorActive _ _ (fit_same h2 rfl))
    split
    · exact fit_mirrorSignal _ _ h3
    · exact h3

@[simp] theorem fit_endIfDone (e : Nat) (s : State) (hz : HoldersFit s) :
    HoldersFit (endIfDone e s) := by
  unfold endIfDone; (try dsimp only); repeat' split
  all_goals first
    | (simp (maxDischargeDepth := 60) +contextual [hz]; done)
    | exact fit_same hz rfl

@[simp] theorem fit_releaseOverlap (e : Nat) (s : State) (hz : HoldersFit s) :
    HoldersFit (releaseOverlap e s) := by
  unfold releaseOverlap; (try dsimp only); repeat' split
  all_goals first
    | (simp (maxDischargeDepth := 60) +contextual [hz]; done)
    | exact fit_same hz rfl

@[simp] theorem fit_startOverlap (e : Nat) (s : State) (hz : HoldersFit s) :
    HoldersFit (startOverlap e s) := by
  unfold startOverlap; (try dsimp only); repeat' split
  all_goals first
    | (simp (maxDischargeDepth := 60) +contextual [hz]; done)
    | exact fit_same hz rfl

@[simp] theorem fit_startOverlapAtEntry (e : Nat) (r : RouteRec) (s : State) (hz : HoldersFit s) :
    HoldersFit (startOverlapAtEntry e r s) := by
  unfold startOverlapAtEntry; (try dsimp only); repeat' split
  all_goals first
    | (simp (maxDischargeDepth := 60) +contextual [hz]; done)
    | exact fit_same hz rfl

@[simp] theorem fit_releasePoints (a : Active) (l : List Nat) (s : State) (hz : HoldersFit s) :
    HoldersFit (releasePoints a l s) := by
  unfold releasePoints; (try dsimp only); repeat' split
  all_goals first
    | (simp (maxDischargeDepth := 60) +contextual [hz]; done)
    | exact fit_same hz rfl

@[simp] theorem fit_releaseSection (e : Nat) (r : RouteRec) (n i : Nat) (s : State) (hz : HoldersFit s) :
    HoldersFit (releaseSection e r n i s) := by
  unfold releaseSection; (try dsimp only); repeat' split
  all_goals first
    | (simp (maxDischargeDepth := 60) +contextual [hz]; done)
    | exact fit_same hz rfl

@[simp] theorem fit_walkFrom (e : Nat) (r : RouteRec) (l : List (Nat × Nat)) (s : State) (hz : HoldersFit s) :
    HoldersFit (walkFrom e r l s) := by
  induction l generalizing s with
  | nil => exact hz
  | cons x l ih =>
    unfold walkFrom; repeat' split
    all_goals simp [hz, ih]

@[simp] theorem fit_walk (e : Nat) (s : State) (hz : HoldersFit s) :
    HoldersFit (walk e s) := by
  unfold walk; (try dsimp only); repeat' split
  all_goals first
    | (simp (maxDischargeDepth := 60) +contextual [hz]; done)
    | exact fit_same hz rfl

@[simp] theorem fit_reportRunning (e : Nat) (a : Active) (l : RouteState) (s : State) (hz : HoldersFit s) :
    HoldersFit (reportRunning e a l s) := by
  unfold reportRunning; (try dsimp only); repeat' split
  all_goals first
    | (simp (maxDischargeDepth := 60) +contextual [hz]; done)
    | exact fit_same hz rfl

@[simp] theorem fit_immediateEntry (e : Nat) (s : State) (hz : HoldersFit s) :
    HoldersFit (immediateEntry e s) := by
  unfold immediateEntry; (try dsimp only); repeat' split
  all_goals first
    | (simp (maxDischargeDepth := 60) +contextual [hz]; done)
    | exact fit_same hz rfl

@[simp] theorem fit_becomeSet (e : Nat) (l : RouteState) (s : State) (hz : HoldersFit s) :
    HoldersFit (becomeSet e l s) := by
  unfold becomeSet; (try dsimp only); repeat' split
  all_goals first
    | (simp (maxDischargeDepth := 60) +contextual [hz]; done)
    | exact fit_same hz rfl

@[simp] theorem fit_testProved (e : Nat) (s : State) (hz : HoldersFit s) :
    HoldersFit (testProved e s) := by
  unfold testProved; (try dsimp only); repeat' split
  all_goals first
    | (simp (maxDischargeDepth := 60) +contextual [hz]; done)
    | exact fit_same hz rfl

@[simp] theorem fit_holdRoute (e : Nat) (y : HeldCause) (i : Nat) (s : State) (hz : HoldersFit s) :
    HoldersFit (holdRoute e y i s) := by
  unfold holdRoute; (try dsimp only); repeat' split
  all_goals first
    | (simp (maxDischargeDepth := 60) +contextual [hz]; done)
    | exact fit_same hz rfl

@[simp] theorem fit_pointLost (p : Nat) (s : State) (hz : HoldersFit s) :
    HoldersFit (pointLost p s) := by
  unfold pointLost; (try dsimp only); repeat' split
  all_goals first
    | (simp (maxDischargeDepth := 60) +contextual [hz]; done)
    | exact fit_same hz rfl

@[simp] theorem fit_pointTested (p : Nat) (s : State) (hz : HoldersFit s) :
    HoldersFit (pointTested p s) := by
  unfold pointTested; (try dsimp only); repeat' split
  all_goals first
    | (simp (maxDischargeDepth := 60) +contextual [hz]; done)
    | exact fit_same hz rfl

@[simp] theorem fit_failRoute (p e : Nat) (s : State) (hz : HoldersFit s) :
    HoldersFit (failRoute p e s) := by
  unfold failRoute; (try dsimp only); repeat' split
  all_goals first
    | (simp (maxDischargeDepth := 60) +contextual [hz]; done)
    | exact fit_same hz rfl

@[simp] theorem fit_failRoutes (p : Nat) (s : State) (hz : HoldersFit s) :
    HoldersFit (failRoutes p s) := by
  unfold failRoutes; (try dsimp only); repeat' split
  all_goals first
    | (simp (maxDischargeDepth := 60) +contextual [hz]; done)
    | exact fit_same hz rfl

@[simp] theorem fit_routeOrderEnded (e p : Nat) (s : State) (hz : HoldersFit s) :
    HoldersFit (routeOrderEnded e p s) := by
  unfold routeOrderEnded; (try dsimp only); repeat' split
  all_goals first
    | (simp (maxDischargeDepth := 60) +contextual [hz]; done)
    | exact fit_same hz rfl

@[simp] theorem fit_enterRoute (e : Nat) (g : Option Nat) (s : State) (hz : HoldersFit s) :
    HoldersFit (enterRoute e g s) := by
  unfold enterRoute; (try dsimp only); repeat' split
  all_goals first
    | (simp (maxDischargeDepth := 60) +contextual [hz]; done)
    | exact fit_same hz rfl

@[simp] theorem fit_runningSection (e n : Nat) (r : RouteRec) (st : SectionState) (g : Option Nat) (s : State) (hz : HoldersFit s) :
    HoldersFit (runningSection e n r st g s) := by
  unfold runningSection; (try dsimp only); repeat' split
  all_goals first
    | (simp (maxDischargeDepth := 60) +contextual [hz]; done)
    | exact fit_same hz rfl

theorem fit_routeSection (n : Nat) (st : SectionState) (g : Option Nat) (acc : State × List EntryNote) (e : Nat)
    (hz : HoldersFit acc.1) : HoldersFit (routeSection n st g acc e).1 := by
  unfold routeSection; dsimp only; repeat' split
  all_goals simp [hz]

@[simp] theorem fit_routesSectionChange (n : Nat) (st : SectionState) (g : Option Nat) (s : State)
    (hz : HoldersFit s) : HoldersFit (routesSectionChange n st g s).1 := by
  unfold routesSectionChange
  generalize ([] : List EntryNote) = notes
  generalize Tbl.keys s.ilk.active = l
  suffices h : ∀ acc : State × List EntryNote, HoldersFit acc.1 → HoldersFit (l.foldl (routeSection n st g) acc).1 from
    h (s, notes) hz
  induction l with
  | nil => intro acc h; exact h
  | cons x l ih => intro acc h; rw [List.foldl_cons]; exact ih _ (fit_routeSection _ _ _ _ _ h)

@[simp] theorem fit_routesAllStop (s : State) (hz : HoldersFit s) :
    HoldersFit (routesAllStop s) := by
  unfold routesAllStop; (try dsimp only); repeat' split
  all_goals first
    | (simp (maxDischargeDepth := 60) +contextual [hz]; done)
    | exact fit_same hz rfl

@[simp] theorem fit_routesResume (s : State) (hz : HoldersFit s) :
    HoldersFit (routesResume s) := by
  unfold routesResume; (try dsimp only); repeat' split
  all_goals first
    | (simp (maxDischargeDepth := 60) +contextual [hz]; done)
    | exact fit_same hz rfl

/-! ## Points -/

@[simp] theorem fit_reportMoved (p : Nat) (l : DetLie) (o : Nat) (s : State) (hz : HoldersFit s) :
    HoldersFit (reportMoved p l o s) := by
  unfold reportMoved; (try dsimp only); repeat' split
  all_goals first
    | (simp (maxDischargeDepth := 60) +contextual [hz]; done)
    | exact fit_same hz rfl

@[simp] theorem fit_reportLost (p : Nat) (l : DetLie) (s : State) (hz : HoldersFit s) :
    HoldersFit (reportLost p l s) := by
  unfold reportLost; (try dsimp only); repeat' split
  all_goals first
    | (simp (maxDischargeDepth := 60) +contextual [hz]; done)
    | exact fit_same hz rfl

@[simp] theorem fit_lieChanged (p : Nat) (l : DetLie) (s : State) (hz : HoldersFit s) : HoldersFit (lieChanged p l s) := by
  unfold lieChanged; dsimp only; apply fit_pointTested; split
  · apply fit_wantReexam
    repeat' split
    all_goals simp (maxDischargeDepth := 60) [hz]
  · repeat' split
    all_goals simp (maxDischargeDepth := 60) [hz]

@[simp] theorem fit_rederive (p : Nat) (s : State) (hz : HoldersFit s) :
    HoldersFit (rederive p s) := by
  unfold rederive; (try dsimp only); repeat' split
  all_goals first
    | (simp (maxDischargeDepth := 60) +contextual [hz]; done)
    | exact fit_same hz rfl

@[simp] theorem fit_endOrder (p : Nat) (s : State) (hz : HoldersFit s) : HoldersFit (endOrder p s) := by
  unfold endOrder; dsimp only; apply fit_wantReexam
  have h : HoldersFit { s with pts := { s.pts with drives := Tbl.erase s.pts.drives p } } := fit_same hz rfl
  split
  · exact fit_wantPass _ (fit_removeOrder _ _ h)
  · exact fit_removeOrder _ _ h

@[simp] theorem fit_orderArrived (p : Nat) (s : State) (hz : HoldersFit s) : HoldersFit (orderArrived p s) := by
  unfold orderArrived; split
  · dsimp only; apply fit_pointTested
    repeat' split
    all_goals simp (maxDischargeDepth := 60) [hz]
  · exact hz

@[simp] theorem fit_failPoint (p : Nat) (c : PointCause) (s : State) (hz : HoldersFit s) :
    HoldersFit (failPoint p c s) := by
  unfold failPoint; (try dsimp only); repeat' split
  all_goals first
    | (simp (maxDischargeDepth := 60) +contextual [hz]; done)
    | exact fit_same hz rfl

@[simp] theorem fit_orderFailed (p : Nat) (c : PointCause) (s : State) (hz : HoldersFit s) : HoldersFit (orderFailed p c s) := by
  unfold orderFailed; split
  · dsimp only; apply fit_failRoutes; split <;> simp (maxDischargeDepth := 60) [hz]
  · exact hz

@[simp] theorem fit_orderOccupied (p n : Nat) (s : State) (hz : HoldersFit s) :
    HoldersFit (orderOccupied p n s) := by
  unfold orderOccupied; (try dsimp only); repeat' split
  all_goals first
    | (simp (maxDischargeDepth := 60) +contextual [hz]; done)
    | exact fit_same hz rfl

@[simp] theorem fit_startPulse (p : Nat) (o : Order) (s : State) (hz : HoldersFit s) : HoldersFit (startPulse p o s) := by
  unfold startPulse; dsimp only; apply fit_rederive; apply fit_changeOrder; apply fit_setUnit; exact fit_same hz rfl

@[simp] theorem fit_startTravel (p : Nat) (o : Order) (r : PointRec) (s : State) (hz : HoldersFit s) :
    HoldersFit (startTravel p o r s) := by
  unfold startTravel; dsimp only; apply fit_rederive; apply fit_changeOrder; exact fit_same hz rfl

@[simp] theorem fit_dispatchQueued (p : Nat) (o : Order) (r : PointRec) (s : State) (hz : HoldersFit s) :
    HoldersFit (dispatchQueued p o r s) := by
  unfold dispatchQueued; (try dsimp only); repeat' split
  all_goals first
    | (simp (maxDischargeDepth := 60) +contextual [hz]; done)
    | exact fit_same hz rfl

@[simp] theorem fit_dispatchOne (p : Nat) (s : State) (hz : HoldersFit s) :
    HoldersFit (dispatchOne p s) := by
  unfold dispatchOne; (try dsimp only); repeat' split
  all_goals first
    | (simp (maxDischargeDepth := 60) +contextual [hz]; done)
    | exact fit_same hz rfl

@[simp] theorem fit_dispatcherPass (s : State) (hz : HoldersFit s) :
    HoldersFit (dispatcherPass s) := by
  unfold dispatcherPass; (try dsimp only); repeat' split
  all_goals first
    | (simp (maxDischargeDepth := 60) +contextual [hz]; done)
    | exact fit_same hz rfl

@[simp] theorem fit_contactChanged (p : Nat) (s : State) (hz : HoldersFit s) :
    HoldersFit (contactChanged p s) := by
  unfold contactChanged; (try dsimp only); repeat' split
  all_goals first
    | (simp (maxDischargeDepth := 60) +contextual [hz]; done)
    | exact fit_same hz rfl

@[simp] theorem fit_startRecharge (s : State) (hz : HoldersFit s) :
    HoldersFit (startRecharge s) := by
  unfold startRecharge; (try dsimp only); repeat' split
  all_goals first
    | (simp (maxDischargeDepth := 60) +contextual [hz]; done)
    | exact fit_same hz rfl

@[simp] theorem fit_pulseEnded (p : Nat) (s : State) (hz : HoldersFit s) :
    HoldersFit (pulseEnded p s) := by
  unfold pulseEnded; (try dsimp only); repeat' split
  all_goals first
    | (simp (maxDischargeDepth := 60) +contextual [hz]; done)
    | exact fit_same hz rfl

@[simp] theorem fit_pulseExpires (s : State) (hz : HoldersFit s) :
    HoldersFit (pulseExpires s) := by
  unfold pulseExpires; (try dsimp only); repeat' split
  all_goals first
    | (simp (maxDischargeDepth := 60) +contextual [hz]; done)
    | exact fit_same hz rfl

@[simp] theorem fit_moveToHead (p : Nat) (s : State) (hz : HoldersFit s) : HoldersFit (moveToHead p s) := fit_setOrders _ _ _ hz

@[simp] theorem fit_windowExpires (p : Nat) (s : State) (hz : HoldersFit s) :
    HoldersFit (windowExpires p s) := by
  unfold windowExpires; (try dsimp only); repeat' split
  all_goals first
    | (simp (maxDischargeDepth := 60) +contextual [hz]; done)
    | exact fit_same hz rfl

@[simp] theorem fit_rechargeExpires (s : State) (hz : HoldersFit s) :
    HoldersFit (rechargeExpires s) := by
  unfold rechargeExpires; (try dsimp only); repeat' split
  all_goals first
    | (simp (maxDischargeDepth := 60) +contextual [hz]; done)
    | exact fit_same hz rfl

@[simp] theorem fit_travelExpires (p : Nat) (s : State) (hz : HoldersFit s) :
    HoldersFit (travelExpires p s) := by
  unfold travelExpires; (try dsimp only); repeat' split
  all_goals first
    | (simp (maxDischargeDepth := 60) +contextual [hz]; done)
    | exact fit_same hz rfl

@[simp] theorem fit_lossExpires (p : Nat) (s : State) (hz : HoldersFit s) :
    HoldersFit (lossExpires p s) := by
  unfold lossExpires; (try dsimp only); repeat' split
  all_goals first
    | (simp (maxDischargeDepth := 60) +contextual [hz]; done)
    | exact fit_same hz rfl

@[simp] theorem fit_movePoint (n p l : Nat) (s : State) (hz : HoldersFit s) :
    HoldersFit (movePoint n p l s) := by
  unfold movePoint; (try dsimp only); repeat' split
  all_goals first
    | (simp (maxDischargeDepth := 60) +contextual [hz]; done)
    | exact fit_same hz rfl

@[simp] theorem fit_restore (p : Nat) (s : State) (hz : HoldersFit s) :
    HoldersFit (restore p s) := by
  unfold restore; (try dsimp only); repeat' split
  all_goals first
    | (simp (maxDischargeDepth := 60) +contextual [hz]; done)
    | exact fit_same hz rfl

@[simp] theorem fit_restorePoint (n p : Nat) (s : State) (hz : HoldersFit s) :
    HoldersFit (restorePoint n p s) := by
  unfold restorePoint; (try dsimp only); repeat' split
  all_goals first
    | (simp (maxDischargeDepth := 60) +contextual [hz]; done)
    | exact fit_same hz rfl

/-! ## Route requests -/

/-- A fold of `addHolder` over points that a loaded route lists. -/
theorem fit_addHolders (n : Nat) (r : RouteRec) (l : List (Nat × Lie)) (s : State) (hr : s.exch.runState = .running)
    (hf : Tbl.find s.ilk.routes n = some r) (hl : ∀ x ∈ l, x ∈ routePoints r)
    (hc : ∀ x ∈ l, (holdersOf s x.1).routes = [] ∨ n ∈ (holdersOf s x.1).routes ∨ (holdersOf s x.1).shared = some x.2)
    (hz : HoldersFit s) : HoldersFit (l.foldl (fun t x => addHolder x.1 x.2 n t) s) := by
  induction l generalizing s with
  | nil => exact hz
  | cons x l ih =>
    rw [List.foldl_cons]
    have hk : kept (addHolder x.1 x.2 n s) = kept s := kept_addHolder _ _ _ _
    have h1 : (addHolder x.1 x.2 n s).exch.runState = .running := (congrArg Kept.runState hk).trans hr
    have h2 : Tbl.find (addHolder x.1 x.2 n s).ilk.routes n = some r := by
      rw [show (addHolder x.1 x.2 n s).ilk.routes = s.ilk.routes from congrArg Kept.routes hk]; exact hf
    refine ih _ h1 h2 (fun y hy => hl y (List.mem_cons_of_mem _ hy)) (fun y hy => ?_)
      (fit_addHolder _ _ _ r _ hr hf (hl x List.mem_cons_self) (hc x List.mem_cons_self) hz)
    by_cases he : y.1 = x.1
    · refine .inr (.inl ?_)
      rw [he]; unfold addHolder
      rw [holdersOf_setHolders_self _ _ _ hz.sorted]; simp
    · unfold addHolder
      rw [holdersOf_setHolders_other _ _ _ _ he]
      exact hc y (List.mem_cons_of_mem _ hy)

theorem setLocks_holders (l : List Nat) (r : Option Nat) (s : State) :
    (eachDo l (fun n => setLock n r) s).ilk.holders = s.ilk.holders := by
  unfold eachDo
  induction l generalizing s with
  | nil => rfl
  | cons n l ih =>
    rw [List.foldl_cons, ih]
    unfold setLock; cases r <;> simp

/-- A route that its points' locks let in is accepted, in RUNNING (R48, R50). -/
theorem fit_acceptRoute (n : Nat) (o : Originator) (src : Source) (s : State) (hr : s.exch.runState = .running)
    (hc : ∀ r, Tbl.find s.ilk.routes n = some r → ∀ x ∈ routePoints r, lockCompatible (holdersOf s x.1) x.2 = true)
    (hz : HoldersFit s) : HoldersFit (acceptRoute n o src s) := by
  unfold acceptRoute; split
  · rename_i r e hf _
    dsimp only
    generalize hq : putActive e (acceptedEntry n r o src (((routePoints r).filter (needsMoving s)).map Prod.fst)) s = q
    have hqf : HoldersFit q := by subst hq; exact fit_same hz rfl
    have hl := setLocks_holders (sequence r) (some n) q
    have hlf : HoldersFit (eachDo (sequence r) (fun m => setLock m (some n)) q) :=
      fit_eachDo _ _ _ (fun m t h => fit_setLock m _ t h) hqf
    have hk : kept (eachDo (sequence r) (fun m => setLock m (some n)) q) = kept q := kept_eachDo _ _ _ (by simp)
    generalize eachDo (sequence r) (fun m => setLock m (some n)) q = u at hl hlf hk
    have hqs : q.ilk.holders = s.ilk.holders ∧ q.ilk.routes = s.ilk.routes ∧ q.exch = s.exch := by
      subst hq; exact ⟨rfl, rfl, rfl⟩
    have h1 : u.exch.runState = .running :=
      (congrArg Kept.runState hk).trans ((congrArg Exchange.runState hqs.2.2).trans hr)
    have h2 : Tbl.find u.ilk.routes n = some r := by
      rw [show u.ilk.routes = q.ilk.routes from congrArg Kept.routes hk, hqs.2.1]; exact hf
    have h3 : ∀ x ∈ routePoints r, (holdersOf u x.1).routes = [] ∨ n ∈ (holdersOf u x.1).routes
        ∨ (holdersOf u x.1).shared = some x.2 := by
      intro x hx
      have := hc r hf x hx
      have hh : holdersOf u x.1 = holdersOf s x.1 := by unfold holdersOf; rw [hl, hqs.1]
      rw [hh]
      unfold lockCompatible at this
      simp only [Bool.or_eq_true, List.isEmpty_iff, Bool.and_eq_true, beq_iff_eq] at this
      exact this.elim .inl fun g => .inr (.inr g.1)
    have h4 := fit_addHolders n r (routePoints r) u h1 h2 (fun x hx => hx) h3 hlf
    generalize (routePoints r).foldl (fun t x => addHolder x.1 x.2 n t) u = v at h4
    have h5 := fit_foldl ((routePoints r).filter (needsMoving s)) (fun t x => giveOrder (routeOrder e x) t) v
      (fun x t h => fit_giveOrder _ t h) h4
    apply fit_testProved
    split
    · exact fit_mirrorSignal _ _ (fit_mirrorActive _ _ h5)
    · exact fit_showRouteAccepted _ _ _ (fit_mirrorSignal _ _ (fit_mirrorActive _ _ h5))
  · exact hz

/-- A request that passes its checks fits the locks of its points (R48). -/
theorem routeRefusal_locks {s : State} {n : Nat} {o : Originator} {b : Bool} (h : routeRefusal s n o b = none) (r : RouteRec)
    (hf : Tbl.find s.ilk.routes n = some r) : ∀ x ∈ routePoints r, lockCompatible (holdersOf s x.1) x.2 = true := by
  unfold routeRefusal at h; rw [hf] at h
  simp only [Option.or_eq_none_iff] at h
  have h := h.2.2.1
  unfold pointRefusal at h
  split at h
  · cases h
  · split at h
    · cases h
    · rename_i _ hn
      intro x hx
      have := List.find?_eq_none.1 hn x hx
      simpa using this

/-- The stack set: to one with no entry where it had none. -/
theorem fit_setStack (l : List StackEntry) (s : State) (hl : s.ilk.stack = [] → l = []) (hz : HoldersFit s) :
    HoldersFit (setStack l s) := fit_mirrorStack _ (fit_stack _ _ hl hz)

/-- The stack set, in RUNNING. -/
theorem fit_setStack_running (l : List StackEntry) (s : State) (hr : s.exch.runState = .running) (hz : HoldersFit s) :
    HoldersFit (setStack l s) :=
  fit_mirrorStack _ ⟨hz.sorted, hz.listed, fun h => absurd hr h, hz.loads⟩

theorem fit_joinStack (r : Nat) (o : Originator) (src : Source) (a : Answer) (s : State) (hr : s.exch.runState = .running)
    (hz : HoldersFit s) : HoldersFit (joinStack r o src a s) := fit_setStack_running _ _ hr hz

@[simp] theorem fit_leaveStack (r : Nat) (s : State) (hz : HoldersFit s) : HoldersFit (leaveStack r s) :=
  fit_setStack _ _ (fun h => by rw [h]; rfl) hz

theorem fit_requestRoute (r : Nat) (o : Originator) (b : Bool) (src : Source) (s : State) (hr : s.exch.runState = .running)
    (hz : HoldersFit s) : HoldersFit (requestRoute r o b src s).1 := by
  unfold requestRoute; split
  · rename_i h; exact fit_acceptRoute _ _ _ _ hr (fun q hq => routeRefusal_locks h q hq) hz
  · repeat' split
    · exact hz
    · exact fit_joinStack _ _ _ _ _ hr hz
    · exact hz

theorem fit_setRoute (n r w1 w2 : Nat) (s : State) (hr : s.exch.runState = .running) (hz : HoldersFit s) :
    HoldersFit (setRoute n r w1 w2 s) := by
  unfold setRoute; split
  · simp [hz]
  · split
    · simp [hz]
    · rename_i o _ _
      have h := fit_requestRoute r o (bitsOf w2 0 1 == 1) (.slot n) s hr hz
      split <;> rename_i heq <;> rw [heq] at h
      · exact h
      · exact fit_complete _ _ _ _ _ h

@[simp] theorem fit_answerStacked (x : StackEntry) (a : Answer) (s : State) (hz : HoldersFit s) :
    HoldersFit (answerStacked x a s) := by
  unfold answerStacked; (try dsimp only); repeat' split
  all_goals first
    | (simp (maxDischargeDepth := 60) +contextual [hz]; done)
    | exact fit_same hz rfl

@[simp] theorem fit_keepStacked (x : StackEntry) (a : Answer) (s : State) (hz : HoldersFit s) : HoldersFit (keepStacked x a s) := by
  unfold keepStacked; split
  · exact hz
  · exact fit_setStack _ _ (fun h => by rw [h]; rfl) hz

@[simp] theorem fit_reexamineOne (r : Nat) (s : State) (hz : HoldersFit s) : HoldersFit (reexamineOne r s) := by
  unfold reexamineOne; split
  · exact hz
  · rename_i x hx
    have hr : s.exch.runState = .running :=
      hz.running (.inr (.inl fun h => by rw [h] at hx; cases hx))
    split
    · rename_i hn
      have hk : kept (leaveStack r s) = kept s := kept_leaveStack r s
      refine fit_acceptRoute _ _ _ _ ((congrArg Kept.runState hk).trans hr) (fun q hq => ?_) (fit_leaveStack _ _ hz)
      rw [show (leaveStack r s).ilk.routes = s.ilk.routes from congrArg Kept.routes hk] at hq
      have hh : (leaveStack r s).ilk.holders = s.ilk.holders := by simp [leaveStack]
      intro y hy
      unfold holdersOf; rw [hh]; exact routeRefusal_locks hn q hq y hy
    · split
      · exact fit_keepStacked _ _ _ hz
      · exact fit_answerStacked _ _ _ (fit_leaveStack _ _ hz)

@[simp] theorem fit_reexamine (s : State) (hz : HoldersFit s) :
    HoldersFit (reexamine s) := by
  unfold reexamine; (try dsimp only); repeat' split
  all_goals first
    | (simp (maxDischargeDepth := 60) +contextual [hz]; done)
    | exact fit_same hz rfl

@[simp] theorem fit_stackExpires (r : Nat) (s : State) (hz : HoldersFit s) :
    HoldersFit (stackExpires r s) := by
  unfold stackExpires; (try dsimp only); repeat' split
  all_goals first
    | (simp (maxDischargeDepth := 60) +contextual [hz]; done)
    | exact fit_same hz rfl

@[simp] theorem fit_removeShowEntries (sh : Nat) (s : State) (hz : HoldersFit s) : HoldersFit (removeShowEntries sh s) := by
  unfold removeShowEntries; split
  · exact fit_setStack _ _ (fun h => by rw [h]; rfl) hz
  · exact hz

@[simp] theorem fit_cancelSetting (e : Nat) (a : Active) (s : State) (hz : HoldersFit s) :
    HoldersFit (cancelSetting e a s) := by
  unfold cancelSetting; (try dsimp only); repeat' split
  all_goals first
    | (simp (maxDischargeDepth := 60) +contextual [hz]; done)
    | exact fit_same hz rfl

@[simp] theorem fit_giveUp (e : Nat) (w : Ending) (s : State) (hz : HoldersFit s) :
    HoldersFit (giveUp e w s) := by
  unfold giveUp; (try dsimp only); repeat' split
  all_goals first
    | (simp (maxDischargeDepth := 60) +contextual [hz]; done)
    | exact fit_same hz rfl

@[simp] theorem fit_cancelSet (e : Nat) (a : Active) (s : State) (hz : HoldersFit s) :
    HoldersFit (cancelSet e a s) := by
  unfold cancelSet; (try dsimp only); repeat' split
  all_goals first
    | (simp (maxDischargeDepth := 60) +contextual [hz]; done)
    | exact fit_same hz rfl

@[simp] theorem fit_cancelRoute (r : Nat) (b : Bool) (s : State) (hz : HoldersFit s) :
    HoldersFit ((cancelRoute r b s).1) := by
  unfold cancelRoute; (try dsimp only); repeat' split
  all_goals first
    | (simp (maxDischargeDepth := 60) +contextual [hz]; done)
    | exact fit_same hz rfl

@[simp] theorem fit_cancelRequest (n r : Nat) (s : State) (hz : HoldersFit s) :
    HoldersFit (cancelRequest n r s) := by
  unfold cancelRequest; (try dsimp only); repeat' split
  all_goals first
    | (simp (maxDischargeDepth := 60) +contextual [hz]; done)
    | exact fit_same hz rfl

@[simp] theorem fit_overlapExpires (e : Nat) (s : State) (hz : HoldersFit s) :
    HoldersFit (overlapExpires e s) := by
  unfold overlapExpires; (try dsimp only); repeat' split
  all_goals first
    | (simp (maxDischargeDepth := 60) +contextual [hz]; done)
    | exact fit_same hz rfl

@[simp] theorem fit_approachExpires (e : Nat) (s : State) (hz : HoldersFit s) :
    HoldersFit (approachExpires e s) := by
  unfold approachExpires; (try dsimp only); repeat' split
  all_goals first
    | (simp (maxDischargeDepth := 60) +contextual [hz]; done)
    | exact fit_same hz rfl

end Sys2Proof.Machine
end

