-- ==== Sys2Proof/Laws/FitPanel.lean ====
section
/-! SUPPORT. The turntable, the shows, the display and the end of a handling keep each route of a holder list
among those that list the point. -/

set_option linter.unusedTactic false
set_option linter.unreachableTactic false

namespace Sys2Proof.Machine

/-! ## The turntable -/

@[simp] theorem fit_setDeck (f : Turntable → Turntable) (s : State) (hz : HoldersFit s) : HoldersFit (setDeck f s) :=
  fit_mirrorTable _ (fit_same hz rfl)

@[simp] theorem fit_updateFeed (s : State) (hz : HoldersFit s) :
    HoldersFit (updateFeed s) := by
  unfold updateFeed; (try dsimp only); repeat' split
  all_goals first
    | (simp (maxDischargeDepth := 60) +contextual [hz]; done)
    | exact fit_same hz rfl

@[simp] theorem fit_enterDeck (n : DeckState) (s : State) (hz : HoldersFit s) : HoldersFit (enterDeck n s) := by
  have h : HoldersFit (updateFeed { s with tt := { s.tt with state := n } }) := fit_updateFeed _ (fit_same hz rfl)
  unfold enterDeck; dsimp only; apply fit_report; split <;> simp [h]

@[simp] theorem fit_answerRequester (r : Result) (w0 w1 : Nat) (s : State) (hz : HoldersFit s) :
    HoldersFit (answerRequester r w0 w1 s) := by
  unfold answerRequester; (try dsimp only); repeat' split
  all_goals first
    | (simp (maxDischargeDepth := 60) +contextual [hz]; done)
    | exact fit_same hz rfl

@[simp] theorem fit_enterFault (c : FaultCause) (s : State) (hz : HoldersFit s) :
    HoldersFit (enterFault c s) := by
  unfold enterFault; (try dsimp only); repeat' split
  all_goals first
    | (simp (maxDischargeDepth := 60) +contextual [hz]; done)
    | exact fit_same hz rfl

@[simp] theorem fit_enterHalted (s : State) (hz : HoldersFit s) :
    HoldersFit (enterHalted s) := by
  unfold enterHalted; (try dsimp only); repeat' split
  all_goals first
    | (simp (maxDischargeDepth := 60) +contextual [hz]; done)
    | exact fit_same hz rfl

@[simp] theorem fit_enterUnreferenced (s : State) (hz : HoldersFit s) :
    HoldersFit (enterUnreferenced s) := by
  unfold enterUnreferenced; (try dsimp only); repeat' split
  all_goals first
    | (simp (maxDischargeDepth := 60) +contextual [hz]; done)
    | exact fit_same hz rfl

@[simp] theorem fit_takeAlignment (x : RoadEnd) (s : State) (hz : HoldersFit s) :
    HoldersFit (takeAlignment x s) := by
  unfold takeAlignment; (try dsimp only); repeat' split
  all_goals first
    | (simp (maxDischargeDepth := 60) +contextual [hz]; done)
    | exact fit_same hz rfl

@[simp] theorem fit_enterAligned (s : State) (hz : HoldersFit s) :
    HoldersFit (enterAligned s) := by
  unfold enterAligned; (try dsimp only); repeat' split
  all_goals first
    | (simp (maxDischargeDepth := 60) +contextual [hz]; done)
    | exact fit_same hz rfl

@[simp] theorem fit_enterBolting (d : DeckRec) (s : State) (hz : HoldersFit s) :
    HoldersFit (enterBolting d s) := by
  unfold enterBolting; (try dsimp only); repeat' split
  all_goals first
    | (simp (maxDischargeDepth := 60) +contextual [hz]; done)
    | exact fit_same hz rfl

@[simp] theorem fit_enterSettling (d : DeckRec) (s : State) (hz : HoldersFit s) :
    HoldersFit (enterSettling d s) := by
  unfold enterSettling; (try dsimp only); repeat' split
  all_goals first
    | (simp (maxDischargeDepth := 60) +contextual [hz]; done)
    | exact fit_same hz rfl

@[simp] theorem fit_planMove (d : DeckRec) (g : Nat) (s : State) (hz : HoldersFit s) :
    HoldersFit (planMove d g s) := by
  unfold planMove; (try dsimp only); repeat' split
  all_goals first
    | (simp (maxDischargeDepth := 60) +contextual [hz]; done)
    | exact fit_same hz rfl

@[simp] theorem fit_beginLeg (d : DeckRec) (s : State) (hz : HoldersFit s) :
    HoldersFit (beginLeg d s) := by
  unfold beginLeg; (try dsimp only); repeat' split
  all_goals first
    | (simp (maxDischargeDepth := 60) +contextual [hz]; done)
    | exact fit_same hz rfl

@[simp] theorem fit_enterMoving (d : DeckRec) (s : State) (hz : HoldersFit s) :
    HoldersFit (enterMoving d s) := by
  unfold enterMoving; (try dsimp only); repeat' split
  all_goals first
    | (simp (maxDischargeDepth := 60) +contextual [hz]; done)
    | exact fit_same hz rfl

@[simp] theorem fit_snapDecision (d : DeckRec) (s : State) (hz : HoldersFit s) :
    HoldersFit (snapDecision d s) := by
  unfold snapDecision; (try dsimp only); repeat' split
  all_goals first
    | (simp (maxDischargeDepth := 60) +contextual [hz]; done)
    | exact fit_same hz rfl

@[simp] theorem fit_enterStopping (d : DeckRec) (s : State) (hz : HoldersFit s) :
    HoldersFit (enterStopping d s) := by
  unfold enterStopping; (try dsimp only); repeat' split
  all_goals first
    | (simp (maxDischargeDepth := 60) +contextual [hz]; done)
    | exact fit_same hz rfl

@[simp] theorem fit_enterJogging (d : DeckRec) (s : State) (hz : HoldersFit s) :
    HoldersFit (enterJogging d s) := by
  unfold enterJogging; (try dsimp only); repeat' split
  all_goals first
    | (simp (maxDischargeDepth := 60) +contextual [hz]; done)
    | exact fit_same hz rfl

@[simp] theorem fit_enterHoming (d : DeckRec) (s : State) (hz : HoldersFit s) :
    HoldersFit (enterHoming d s) := by
  unfold enterHoming; (try dsimp only); repeat' split
  all_goals first
    | (simp (maxDischargeDepth := 60) +contextual [hz]; done)
    | exact fit_same hz rfl

@[simp] theorem fit_endUnbolting (d : DeckRec) (s : State) (hz : HoldersFit s) :
    HoldersFit (endUnbolting d s) := by
  unfold endUnbolting; (try dsimp only); repeat' split
  all_goals first
    | (simp (maxDischargeDepth := 60) +contextual [hz]; done)
    | exact fit_same hz rfl

@[simp] theorem fit_enterUnbolting (d : DeckRec) (s : State) (hz : HoldersFit s) :
    HoldersFit (enterUnbolting d s) := by
  unfold enterUnbolting; (try dsimp only); repeat' split
  all_goals first
    | (simp (maxDischargeDepth := 60) +contextual [hz]; done)
    | exact fit_same hz rfl

@[simp] theorem fit_turnAccepted (d : DeckRec) (q : Requester) (x : RoadEnd) (s : State) (hz : HoldersFit s) :
    HoldersFit ((turnAccepted d q x s).1) := by
  unfold turnAccepted; (try dsimp only); repeat' split
  all_goals first
    | (simp (maxDischargeDepth := 60) +contextual [hz]; done)
    | exact fit_same hz rfl

@[simp] theorem fit_turnRequest (q : Requester) (r e : Nat) (s : State) (hz : HoldersFit s) :
    HoldersFit ((turnRequest q r e s).1) := by
  unfold turnRequest; (try dsimp only); repeat' split
  all_goals first
    | (simp (maxDischargeDepth := 60) +contextual [hz]; done)
    | exact fit_same hz rfl

@[simp] theorem fit_turnTable (n r e : Nat) (s : State) (hz : HoldersFit s) : HoldersFit (turnTable n r e s) := by
  have h := fit_turnRequest (.slot n) r e s hz
  unfold turnTable; split <;> rename_i heq <;> rw [heq] at h
  · exact h
  · exact fit_complete _ _ _ _ _ h

@[simp] theorem fit_homeAccepted (d : DeckRec) (n : Nat) (x : RoadEnd) (s : State) (hz : HoldersFit s) :
    HoldersFit (homeAccepted d n x s) := by
  unfold homeAccepted; (try dsimp only); repeat' split
  all_goals first
    | (simp (maxDischargeDepth := 60) +contextual [hz]; done)
    | exact fit_same hz rfl

@[simp] theorem fit_homeTable (n r e : Nat) (s : State) (hz : HoldersFit s) :
    HoldersFit (homeTable n r e s) := by
  unfold homeTable; (try dsimp only); repeat' split
  all_goals first
    | (simp (maxDischargeDepth := 60) +contextual [hz]; done)
    | exact fit_same hz rfl

@[simp] theorem fit_stopTable (n : Nat) (s : State) (hz : HoldersFit s) :
    HoldersFit (stopTable n s) := by
  unfold stopTable; (try dsimp only); repeat' split
  all_goals first
    | (simp (maxDischargeDepth := 60) +contextual [hz]; done)
    | exact fit_same hz rfl

@[simp] theorem fit_nextStep (v : Nat) (s : State) (hz : HoldersFit s) :
    HoldersFit (nextStep v s) := by
  unfold nextStep; (try dsimp only); repeat' split
  all_goals first
    | (simp (maxDischargeDepth := 60) +contextual [hz]; done)
    | exact fit_same hz rfl

@[simp] theorem fit_legEnds (d : DeckRec) (s : State) (hz : HoldersFit s) :
    HoldersFit (legEnds d s) := by
  unfold legEnds; (try dsimp only); repeat' split
  all_goals first
    | (simp (maxDischargeDepth := 60) +contextual [hz]; done)
    | exact fit_same hz rfl

@[simp] theorem fit_legBoundary (d : DeckRec) (s : State) (hz : HoldersFit s) :
    HoldersFit (legBoundary d s) := by
  unfold legBoundary; (try dsimp only); repeat' split
  all_goals first
    | (simp (maxDischargeDepth := 60) +contextual [hz]; done)
    | exact fit_same hz rfl

@[simp] theorem fit_stopBoundary (d : DeckRec) (v : Nat) (s : State) (hz : HoldersFit s) :
    HoldersFit (stopBoundary d v s) := by
  unfold stopBoundary; (try dsimp only); repeat' split
  all_goals first
    | (simp (maxDischargeDepth := 60) +contextual [hz]; done)
    | exact fit_same hz rfl

@[simp] theorem fit_jogBoundary (d : DeckRec) (s : State) (hz : HoldersFit s) :
    HoldersFit (jogBoundary d s) := by
  unfold jogBoundary; (try dsimp only); repeat' split
  all_goals first
    | (simp (maxDischargeDepth := 60) +contextual [hz]; done)
    | exact fit_same hz rfl

@[simp] theorem fit_homingBoundary (d : DeckRec) (b i : Bool) (s : State) (hz : HoldersFit s) :
    HoldersFit (homingBoundary d b i s) := by
  unfold homingBoundary; (try dsimp only); repeat' split
  all_goals first
    | (simp (maxDischargeDepth := 60) +contextual [hz]; done)
    | exact fit_same hz rfl

@[simp] theorem fit_boundary (i : Bool) (s : State) (hz : HoldersFit s) :
    HoldersFit (boundary i s) := by
  unfold boundary; (try dsimp only); repeat' split
  all_goals first
    | (simp (maxDischargeDepth := 60) +contextual [hz]; done)
    | exact fit_same hz rfl

@[simp] theorem fit_stepActive (s : State) (hz : HoldersFit s) : HoldersFit (stepActive s) := by
  unfold stepActive; repeat' split
  all_goals first
    | exact hz
    | exact fit_mirrorTable _ (fit_same hz rfl)

@[simp] theorem fit_boltContactChanged (s : State) (hz : HoldersFit s) :
    HoldersFit (boltContactChanged s) := by
  unfold boltContactChanged; (try dsimp only); repeat' split
  all_goals first
    | (simp (maxDischargeDepth := 60) +contextual [hz]; done)
    | exact fit_same hz rfl

@[simp] theorem fit_boltExpires (s : State) (hz : HoldersFit s) :
    HoldersFit (boltExpires s) := by
  unfold boltExpires; (try dsimp only); repeat' split
  all_goals first
    | (simp (maxDischargeDepth := 60) +contextual [hz]; done)
    | exact fit_same hz rfl

@[simp] theorem fit_settleExpires (s : State) (hz : HoldersFit s) :
    HoldersFit (settleExpires s) := by
  unfold settleExpires; (try dsimp only); repeat' split
  all_goals first
    | (simp (maxDischargeDepth := 60) +contextual [hz]; done)
    | exact fit_same hz rfl

@[simp] theorem fit_jogPress (c : Bool) (s : State) (hz : HoldersFit s) :
    HoldersFit (jogPress c s) := by
  unfold jogPress; (try dsimp only); repeat' split
  all_goals first
    | (simp (maxDischargeDepth := 60) +contextual [hz]; done)
    | exact fit_same hz rfl

@[simp] theorem fit_releaseJog (s : State) (hz : HoldersFit s) :
    HoldersFit (releaseJog s) := by
  unfold releaseJog; (try dsimp only); repeat' split
  all_goals first
    | (simp (maxDischargeDepth := 60) +contextual [hz]; done)
    | exact fit_same hz rfl

@[simp] theorem fit_jogButtonReleased (c : Bool) (s : State) (hz : HoldersFit s) :
    HoldersFit (jogButtonReleased c s) := by
  unfold jogButtonReleased; (try dsimp only); repeat' split
  all_goals first
    | (simp (maxDischargeDepth := 60) +contextual [hz]; done)
    | exact fit_same hz rfl

@[simp] theorem fit_jogHoldExpires (s : State) (hz : HoldersFit s) :
    HoldersFit (jogHoldExpires s) := by
  unfold jogHoldExpires; (try dsimp only); repeat' split
  all_goals first
    | (simp (maxDischargeDepth := 60) +contextual [hz]; done)
    | exact fit_same hz rfl

@[simp] theorem fit_deckSectionLeft (n : Nat) (s : State) (hz : HoldersFit s) :
    HoldersFit (deckSectionLeft n s) := by
  unfold deckSectionLeft; (try dsimp only); repeat' split
  all_goals first
    | (simp (maxDischargeDepth := 60) +contextual [hz]; done)
    | exact fit_same hz rfl

@[simp] theorem fit_deckAllStop (s : State) (hz : HoldersFit s) :
    HoldersFit (deckAllStop s) := by
  unfold deckAllStop; (try dsimp only); repeat' split
  all_goals first
    | (simp (maxDischargeDepth := 60) +contextual [hz]; done)
    | exact fit_same hz rfl

/-! ## Shows -/

@[simp] theorem fit_loadIdle (t : Nat) (s : State) (hz : HoldersFit s) :
    HoldersFit (loadIdle t s) := by
  unfold loadIdle; (try dsimp only); repeat' split
  all_goals first
    | (simp (maxDischargeDepth := 60) +contextual [hz]; done)
    | exact fit_same hz rfl

@[simp] theorem fit_stopIdle (s : State) (hz : HoldersFit s) :
    HoldersFit (stopIdle s) := by
  unfold stopIdle; (try dsimp only); repeat' split
  all_goals first
    | (simp (maxDischargeDepth := 60) +contextual [hz]; done)
    | exact fit_same hz rfl

@[simp] theorem fit_changePanel (p : Panel) (c i : Nat) (s : State) (hz : HoldersFit s) :
    HoldersFit (changePanel p c i s) := by
  unfold changePanel; (try dsimp only); repeat' split
  all_goals first
    | (simp (maxDischargeDepth := 60) +contextual [hz]; done)
    | exact fit_same hz rfl

@[simp] theorem fit_idleExpires (s : State) (hz : HoldersFit s) :
    HoldersFit (idleExpires s) := by
  unfold idleExpires; (try dsimp only); repeat' split
  all_goals first
    | (simp (maxDischargeDepth := 60) +contextual [hz]; done)
    | exact fit_same hz rfl

@[simp] theorem fit_wakeByPress (b : Nat) (s : State) (hz : HoldersFit s) :
    HoldersFit (wakeByPress b s) := by
  unfold wakeByPress; (try dsimp only); repeat' split
  all_goals first
    | (simp (maxDischargeDepth := 60) +contextual [hz]; done)
    | exact fit_same hz rfl

@[simp] theorem fit_startCoolDown (n : Nat) (s : State) (hz : HoldersFit s) : HoldersFit (startCoolDown n s) := by
  unfold startCoolDown; split
  · exact hz
  · split
    · exact hz
    · exact fit_vis _ _ (.inr id) hz

@[simp] theorem fit_runnerIdle (n : Nat) (o : ShowOutcome) (s : State) (hz : HoldersFit s) : HoldersFit (runnerIdle n o s) := by
  unfold runnerIdle; dsimp only
  exact fit_loadIdle _ _ (fit_work _ _ (fit_vis _ _ (.inr fun _ => rfl) hz))

@[simp] theorem fit_reportEnded (r : Runner) (o : ShowOutcome) (x w : Nat) (s : State) (hz : HoldersFit s) :
    HoldersFit (reportEnded r o x w s) := by
  unfold reportEnded; (try dsimp only); repeat' split
  all_goals first
    | (simp (maxDischargeDepth := 60) +contextual [hz]; done)
    | exact fit_same hz rfl

@[simp] theorem fit_endShow (r : Runner) (s : State) (hz : HoldersFit s) :
    HoldersFit (endShow r s) := by
  unfold endShow; (try dsimp only); repeat' split
  all_goals first
    | (simp (maxDischargeDepth := 60) +contextual [hz]; done)
    | exact fit_same hz rfl

@[simp] theorem fit_abortRoute (n : Nat) (s : State) (hz : HoldersFit s) :
    HoldersFit (abortRoute n s) := by
  unfold abortRoute; (try dsimp only); repeat' split
  all_goals first
    | (simp (maxDischargeDepth := 60) +contextual [hz]; done)
    | exact fit_same hz rfl

@[simp] theorem fit_abortShow (o : ShowOutcome) (x w : Nat) (s : State) (hz : HoldersFit s) : HoldersFit (abortShow o x w s) := by
  unfold abortShow; split
  · exact hz
  · rename_i r _
    dsimp only
    have h1 : HoldersFit (setRunner none { s with work := { s.work with step := none } }) :=
      fit_setRunner _ _ (.inr rfl) (fit_work _ _ hz)
    apply fit_runnerIdle
    split
    · exact fit_startCoolDown _ _ h1
    · exact fit_reportEnded _ _ _ _ _ (fit_startCoolDown _ _ (fit_removeShowEntries _ _
        (fit_eachDo _ _ _ (fun n t h => fit_abortRoute n t h) h1)))

theorem fit_enterWait (r : Runner) (p : StepPhase) (l : Nat) (s : State) (hr : s.vis.runner ≠ none) (hz : HoldersFit s) :
    HoldersFit (enterWait r p l s) := fit_setRunner _ _ (.inl hr) hz

@[simp] theorem fit_endStep (e : StepEnd) (s : State) (hz : HoldersFit s) : HoldersFit (endStep e s) := by
  unfold endStep; split
  · exact hz
  · rename_i h; exact fit_stepEnds _ _ _ (by simp [h]) hz

@[simp] theorem fit_refuseStep (a : Answer) (s : State) (hz : HoldersFit s) :
    HoldersFit (refuseStep a s) := by
  unfold refuseStep; (try dsimp only); repeat' split
  all_goals first
    | (simp (maxDischargeDepth := 60) +contextual [hz]; done)
    | exact fit_same hz rfl

theorem fit_beginWaitSection (r : Runner) (n : Nat) (o : Bool) (l : Nat) (s : State) (hr : s.vis.runner ≠ none)
    (hz : HoldersFit s) : HoldersFit (beginWaitSection r n o l s) := by
  unfold beginWaitSection; repeat' split
  · exact fit_refuseStep _ _ hz
  · exact fit_refuseStep _ _ hz
  · exact fit_endStep _ _ hz
  · exact fit_enterWait _ _ _ _ hr hz

@[simp] theorem fit_cancelStepEnds (a : Answer) (s : State) (hz : HoldersFit s) :
    HoldersFit (cancelStepEnds a s) := by
  unfold cancelStepEnds; (try dsimp only); repeat' split
  all_goals first
    | (simp (maxDischargeDepth := 60) +contextual [hz]; done)
    | exact fit_same hz rfl

@[simp] theorem fit_cancelStep (route : Nat) (s : State) (hz : HoldersFit s) : HoldersFit (cancelStep route s) := by
  unfold cancelStep; split
  · exact fit_cancelStepEnds _ _ (fit_cancelRoute route true s hz)
  · exact fit_refuseStep _ _ hz

theorem fit_beginStepOf (r : Runner) (s : State) (hr : s.vis.runner ≠ none) (hz : HoldersFit s) :
    HoldersFit (beginStepOf r s) := by
  unfold beginStepOf; split
  · exact hz
  · rename_i route limit _
    have h := fit_requestRoute route .visitor true (.show_ r.show_) (enterWait r .waitRoute limit s)
      (hz.running (.inr (.inr hr))) (fit_enterWait r .waitRoute limit s hr hz)
    split <;> rename_i heq <;> rw [heq] at h
    · exact h
    · exact fit_refuseStep _ _ h
  · exact fit_cancelStep _ _ hz
  · rename_i x _
    have h := fit_turnRequest (.show_ r.show_) x.road (if x.deckEnd = .a then 0 else 1) _
      (fit_enterWait r .waitTable 0 s hr hz)
    split <;> rename_i heq <;> rw [heq] at h
    · exact h
    · split
      · exact fit_endStep _ _ h
      · exact fit_refuseStep _ _ h
  · exact fit_beginWaitSection _ _ _ _ _ hr hz
  · exact fit_enterWait _ _ _ _ hr hz

@[simp] theorem fit_afterStep (e : StepEnd) (s : State) (hz : HoldersFit s) : HoldersFit (afterStep e s) := by
  unfold afterStep; dsimp only; split
  · exact fit_work _ _ hz
  · rename_i r hr
    split
    · exact fit_abortShow _ _ _ _ (fit_work _ _ hz)
    · split
      · refine fit_beginStepOf _ _ (by simp [setRunner]) (fit_setRunner _ _ (.inl ?_) (fit_work _ _ hz))
        rw [hr]; simp
      · exact fit_endShow _ _ (fit_work _ _ hz)

@[simp] theorem fit_runSteps (n : Nat) (s : State) (hz : HoldersFit s) : HoldersFit (runSteps n s) := by
  induction n generalizing s with
  | zero => exact hz
  | succ n ih => unfold runSteps; split <;> simp [ih, hz]

@[simp] theorem fit_runVisitor (s : State) (hz : HoldersFit s) :
    HoldersFit (runVisitor s) := by
  unfold runVisitor; (try dsimp only); repeat' split
  all_goals first
    | (simp (maxDischargeDepth := 60) +contextual [hz]; done)
    | exact fit_same hz rfl

theorem fit_takeShow (n : Nat) (src : ShowSource) (l : List (Nat × ShowSource)) (s : State)
    (hr : s.exch.runState = .running) (hz : HoldersFit s) : HoldersFit (takeShow n src l s) := by
  unfold takeShow; dsimp only
  apply fit_runVisitor
  refine fit_beginStepOf _ _ ?_ ?_
  · simp [changePanel]; split <;> simp
  · apply fit_stopIdle; apply fit_changePanel; apply fit_work; apply fit_report
    exact fit_vis _ _ (.inl hr) hz

@[simp] theorem fit_testHead (s : State) (hz : HoldersFit s) : HoldersFit (testHead s) := by
  unfold testHead; split
  · exact hz
  · split
    · rename_i h
      refine fit_takeShow _ _ _ _ ?_ hz
      simp only [mayTakeHead, State.running, Bool.and_eq_true, beq_iff_eq] at h
      exact h.1.1.2
    · exact hz

@[simp] theorem fit_testHeads (n : Nat) (s : State) (hz : HoldersFit s) : HoldersFit (testHeads n s) := by
  induction n generalizing s with
  | zero => exact hz
  | succ n ih => unfold testHeads; split <;> simp [ih, hz]

@[simp] theorem fit_joinQueue (n : Nat) (src : ShowSource) (s : State) (hz : HoldersFit s) : HoldersFit (joinQueue n src s) :=
  fit_vis _ _ (.inr id) hz

@[simp] theorem fit_reportPress (b : Nat) (o : PressOutcome) (n : Option Nat) (s : State) (hz : HoldersFit s) :
    HoldersFit (reportPress b o n s) := by
  unfold reportPress; (try dsimp only); repeat' split
  all_goals first
    | (simp (maxDischargeDepth := 60) +contextual [hz]; done)
    | exact fit_same hz rfl

@[simp] theorem fit_showPress (b : Nat) (s : State) (hz : HoldersFit s) :
    HoldersFit (showPress b s) := by
  unfold showPress; (try dsimp only); repeat' split
  all_goals first
    | (simp (maxDischargeDepth := 60) +contextual [hz]; done)
    | exact fit_same hz rfl

@[simp] theorem fit_jogButtonPress (b : Nat) (s : State) (hz : HoldersFit s) :
    HoldersFit (jogButtonPress b s) := by
  unfold jogButtonPress; (try dsimp only); repeat' split
  all_goals first
    | (simp (maxDischargeDepth := 60) +contextual [hz]; done)
    | exact fit_same hz rfl

@[simp] theorem fit_buttonChanged (b : Nat) (p : Bool) (s : State) (hz : HoldersFit s) :
    HoldersFit (buttonChanged b p s) := by
  unfold buttonChanged; (try dsimp only); repeat' split
  all_goals first
    | (simp (maxDischargeDepth := 60) +contextual [hz]; done)
    | exact fit_same hz rfl

@[simp] theorem fit_stepTimerExpires (s : State) (hz : HoldersFit s) : HoldersFit (stepTimerExpires s) := by
  unfold stepTimerExpires; split
  · exact hz
  · rename_i h
    split
    · exact hz
    · exact fit_stepEnds _ _ _ (by simp [h]) hz

@[simp] theorem fit_durationExpires (s : State) (hz : HoldersFit s) :
    HoldersFit (durationExpires s) := by
  unfold durationExpires; (try dsimp only); repeat' split
  all_goals first
    | (simp (maxDischargeDepth := 60) +contextual [hz]; done)
    | exact fit_same hz rfl

@[simp] theorem fit_coolDownExpires (n : Nat) (s : State) (hz : HoldersFit s) : HoldersFit (coolDownExpires n s) := by
  unfold coolDownExpires; split
  · exact fit_vis _ _ (.inr id) hz
  · exact hz

@[simp] theorem fit_visitorSection (n : Nat) (x : SectionState) (s : State) (hz : HoldersFit s) :
    HoldersFit (visitorSection n x s) := by
  unfold visitorSection; split
  · exact hz
  · rename_i h
    split
    · split
      · exact fit_stepEnds _ _ _ (by simp [h]) hz
      · exact hz
    · exact hz

@[simp] theorem fit_runShow (n sh : Nat) (s : State) (hz : HoldersFit s) : HoldersFit (runShow n sh s) := by
  unfold runShow; repeat' split
  all_goals simp [hz]

/-! ## The end of a handling -/

@[simp] theorem fit_setSignal (x : Nat) (f : SignalState → SignalState) (s : State) (hz : HoldersFit s) :
    HoldersFit (setSignal x f s) := by
  unfold setSignal; (try dsimp only); repeat' split
  all_goals first
    | (simp (maxDischargeDepth := 60) +contextual [hz]; done)
    | exact fit_same hz rfl

@[simp] theorem fit_recomputeOne (x : Nat) (s : State) (hz : HoldersFit s) :
    HoldersFit (recomputeOne x s) := by
  unfold recomputeOne; (try dsimp only); repeat' split
  all_goals first
    | (simp (maxDischargeDepth := 60) +contextual [hz]; done)
    | exact fit_same hz rfl

@[simp] theorem fit_recomputeAspects (s : State) (hz : HoldersFit s) :
    HoldersFit (recomputeAspects s) := by
  unfold recomputeAspects; (try dsimp only); repeat' split
  all_goals first
    | (simp (maxDischargeDepth := 60) +contextual [hz]; done)
    | exact fit_same hz rfl

@[simp] theorem fit_settleOne (x : Nat) (s : State) (hz : HoldersFit s) : HoldersFit (settleOne x s) := by
  unfold settleOne; split
  · exact hz
  · dsimp only; split
    · exact hz
    · apply fit_mirrorLampWord; exact fit_same hz rfl

@[simp] theorem fit_settleLamps (s : State) (hz : HoldersFit s) :
    HoldersFit (settleLamps s) := by
  unfold settleLamps; (try dsimp only); repeat' split
  all_goals first
    | (simp (maxDischargeDepth := 60) +contextual [hz]; done)
    | exact fit_same hz rfl

@[simp] theorem fit_settleButton (b : Nat) (s : State) (hz : HoldersFit s) : HoldersFit (settleButton b s) :=
  fit_vis _ _ (.inr id) hz

@[simp] theorem fit_settleButtons (s : State) (hz : HoldersFit s) :
    HoldersFit (settleButtons s) := by
  unfold settleButtons; (try dsimp only); repeat' split
  all_goals first
    | (simp (maxDischargeDepth := 60) +contextual [hz]; done)
    | exact fit_same hz rfl

@[simp] theorem fit_settleVisitors (b s : State) (hz : HoldersFit s) :
    HoldersFit (settleVisitors b s) := by
  unfold settleVisitors; (try dsimp only); repeat' split
  all_goals first
    | (simp (maxDischargeDepth := 60) +contextual [hz]; done)
    | exact fit_same hz rfl

@[simp] theorem fit_refreshLevels (s : State) (hz : HoldersFit s) :
    HoldersFit (refreshLevels s) := by
  unfold refreshLevels; (try dsimp only); repeat' split
  all_goals first
    | (simp (maxDischargeDepth := 60) +contextual [hz]; done)
    | exact fit_same hz rfl

@[simp] theorem fit_endHandling (b s : State) (hz : HoldersFit s) :
    HoldersFit (endHandling b s) := by
  unfold endHandling; (try dsimp only); repeat' split
  all_goals first
    | (simp (maxDischargeDepth := 60) +contextual [hz]; done)
    | exact fit_same hz rfl

@[simp] theorem fit_afterWork (n : Nat) (s : State) (hz : HoldersFit s) : HoldersFit (afterWork n s) := by
  induction n generalizing s with
  | zero => exact hz
  | succ n ih =>
    unfold afterWork; repeat' split
    · exact ih _ (fit_endHandling _ _ (fit_dispatcherPass _ (fit_work _ _ hz)))
    · exact ih _ (fit_endHandling _ _ (fit_reexamine _ hz))
    · exact hz

@[simp] theorem fit_finish (b s : State) (hz : HoldersFit s) :
    HoldersFit (finish b s) := by
  unfold finish; (try dsimp only); repeat' split
  all_goals first
    | (simp (maxDischargeDepth := 60) +contextual [hz]; done)
    | exact fit_same hz rfl

end Sys2Proof.Machine
end

