-- ==== Sys2Proof/Laws/FitTrack.lean ====
section
/-! SUPPORT. The layout stop, tags and sections keep each route of a holder list among those that list the point. -/

set_option linter.unusedTactic false
set_option linter.unreachableTactic false

namespace Sys2Proof.Machine

/-! ## Run state, run condition, track power -/

@[simp] theorem fit_reportLayout (c i : Nat) (s : State) (hz : HoldersFit s) :
    HoldersFit (reportLayout c i s) := by
  unfold reportLayout; (try dsimp only); repeat' split
  all_goals first
    | (simp (maxDischargeDepth := 60) +contextual [hz]; done)
    | exact fit_same hz rfl

@[simp] theorem fit_enterAllStop (c : StopCause) (s : State) (hz : HoldersFit s) :
    HoldersFit (enterAllStop c s) := by
  unfold enterAllStop; (try dsimp only); repeat' split
  all_goals first
    | (simp (maxDischargeDepth := 60) +contextual [hz]; done)
    | exact fit_same hz rfl

@[simp] theorem fit_resumeLayout (s : State) (hz : HoldersFit s) :
    HoldersFit (resumeLayout s) := by
  unfold resumeLayout; (try dsimp only); repeat' split
  all_goals first
    | (simp (maxDischargeDepth := 60) +contextual [hz]; done)
    | exact fit_same hz rfl

/-! ## Tags -/

@[simp] theorem fit_setTag (t : Nat) (v : Tag) (s : State) (hz : HoldersFit s) :
    HoldersFit (setTag t v s) := by
  unfold setTag; (try dsimp only); repeat' split
  all_goals first
    | (simp (maxDischargeDepth := 60) +contextual [hz]; done)
    | exact fit_same hz rfl

@[simp] theorem fit_setTagField (n : Nat) (t : Option Nat) (s : State) (hz : HoldersFit s) :
    HoldersFit (setTagField n t s) := by
  unfold setTagField; exact fit_mirrorSection _ _ (fit_same hz rfl)

@[simp] theorem fit_takeTag (n t : Nat) (s : State) (hz : HoldersFit s) :
    HoldersFit (takeTag n t s) := by
  unfold takeTag; (try dsimp only); repeat' split
  all_goals first
    | (simp (maxDischargeDepth := 60) +contextual [hz]; done)
    | exact fit_same hz rfl

@[simp] theorem fit_reclaimOrAllocate (n : Nat) (l : List Neighbour) (s : State) (hz : HoldersFit s) :
    HoldersFit ((reclaimOrAllocate n l s).1) := by
  unfold reclaimOrAllocate; (try dsimp only); repeat' split
  all_goals first
    | (simp (maxDischargeDepth := 60) +contextual [hz]; done)
    | exact fit_same hz rfl

@[simp] theorem fit_arrive (n : Nat) (s : State) (hz : HoldersFit s) :
    HoldersFit ((arrive n s).1) := by
  unfold arrive; (try dsimp only); repeat' split
  all_goals first
    | (simp (maxDischargeDepth := 60) +contextual [hz]; done)
    | exact fit_same hz rfl

@[simp] theorem fit_freeLostTag (t : Nat) (s : State) (hz : HoldersFit s) :
    HoldersFit (freeLostTag t s) := by
  unfold freeLostTag; (try dsimp only); repeat' split
  all_goals first
    | (simp (maxDischargeDepth := 60) +contextual [hz]; done)
    | exact fit_same hz rfl

@[simp] theorem fit_depart (n : Nat) (s : State) (hz : HoldersFit s) :
    HoldersFit (depart n s) := by
  unfold depart; (try dsimp only); repeat' split
  all_goals first
    | (simp (maxDischargeDepth := 60) +contextual [hz]; done)
    | exact fit_same hz rfl

@[simp] theorem fit_tagSectionChange (n : Nat) (x y : SectionState) (s : State) (hz : HoldersFit s) :
    HoldersFit ((tagSectionChange n x y s).1) := by
  unfold tagSectionChange; (try dsimp only); repeat' split
  all_goals first
    | (simp (maxDischargeDepth := 60) +contextual [hz]; done)
    | exact fit_same hz rfl

/-! ## Sections -/

@[simp] theorem fit_overrunOne (n : Nat) (a : Arrival) (l : List EntryNote) (x : Nat) (s : State) (hz : HoldersFit s) :
    HoldersFit (overrunOne n a l x s) := by
  unfold overrunOne; (try dsimp only); repeat' split
  all_goals first
    | (simp (maxDischargeDepth := 60) +contextual [hz]; done)
    | exact fit_same hz rfl

@[simp] theorem fit_overrunTest (n : Nat) (a : Option Arrival) (l : List EntryNote) (s : State) (hz : HoldersFit s) :
    HoldersFit (overrunTest n a l s) := by
  unfold overrunTest; (try dsimp only); repeat' split
  all_goals first
    | (simp (maxDischargeDepth := 60) +contextual [hz]; done)
    | exact fit_same hz rfl

@[simp] theorem fit_sectionChanged (n : Nat) (old : SectionState) (s : State) (hz : HoldersFit s) :
    HoldersFit (sectionChanged n old s) := by
  unfold sectionChanged
  dsimp only
  apply fit_visitorSection
  split
  · apply fit_deckSectionLeft
    exact fit_overrunTest _ _ _ _ (fit_runVisitor _ (fit_routesSectionChange _ _ _ _
      (fit_tagSectionChange _ _ _ _ (fit_same (fit_report _ _ _ _ _ (fit_mirrorSection _ _ hz)) rfl))))
  · exact fit_overrunTest _ _ _ _ (fit_runVisitor _ (fit_routesSectionChange _ _ _ _
      (fit_tagSectionChange _ _ _ _ (fit_same (fit_report _ _ _ _ _ (fit_mirrorSection _ _ hz)) rfl))))

end Sys2Proof.Machine
end

