-- ==== Sys2Proof/Laws/FitCommands.lean ====
section
/-! SUPPORT. The commands' own work, START, layout reset and the clock keep each route of a holder list among
those that list the point. -/

set_option linter.unusedTactic false
set_option linter.unreachableTactic false

namespace Sys2Proof.Machine

/-! ## Sections -/

@[simp] theorem fit_updateSection (n : Nat) (f : Occupancy → Occupancy) (s : State) (hz : HoldersFit s) :
    HoldersFit (updateSection n f s) := by
  unfold updateSection; (try dsimp only); repeat' split
  all_goals first
    | (simp (maxDischargeDepth := 60) +contextual [hz]; done)
    | exact fit_same hz rfl

@[simp] theorem fit_detectorSampled (i : Nat) (x : Bool) (s : State) (hz : HoldersFit s) :
    HoldersFit (detectorSampled i x s) := by
  unfold detectorSampled; (try dsimp only); repeat' split
  all_goals first
    | (simp (maxDischargeDepth := 60) +contextual [hz]; done)
    | exact fit_same hz rfl

@[simp] theorem fit_axleIn (x : Option Nat) (s : State) (hz : HoldersFit s) :
    HoldersFit (axleIn x s) := by
  unfold axleIn; (try dsimp only); repeat' split
  all_goals first
    | (simp (maxDischargeDepth := 60) +contextual [hz]; done)
    | exact fit_same hz rfl

@[simp] theorem fit_axleOut (x : Option Nat) (s : State) (hz : HoldersFit s) :
    HoldersFit (axleOut x s) := by
  unfold axleOut; (try dsimp only); repeat' split
  all_goals first
    | (simp (maxDischargeDepth := 60) +contextual [hz]; done)
    | exact fit_same hz rfl

@[simp] theorem fit_setHead (k : Nat) (h : Head) (s : State) (hz : HoldersFit s) :
    HoldersFit (setHead k h s) := by
  unfold setHead; (try dsimp only); repeat' split
  all_goals first
    | (simp (maxDischargeDepth := 60) +contextual [hz]; done)
    | exact fit_same hz rfl

@[simp] theorem fit_doubt (x : Option Nat) (s : State) (hz : HoldersFit s) :
    HoldersFit (doubt x s) := by
  unfold doubt; (try dsimp only); repeat' split
  all_goals first
    | (simp (maxDischargeDepth := 60) +contextual [hz]; done)
    | exact fit_same hz rfl

@[simp] theorem fit_sequenceError (k : Nat) (h : Head) (x y : Bool × Bool) (s : State) (hz : HoldersFit s) :
    HoldersFit (sequenceError k h x y s) := by
  unfold sequenceError; (try dsimp only); repeat' split
  all_goals first
    | (simp (maxDischargeDepth := 60) +contextual [hz]; done)
    | exact fit_same hz rfl

@[simp] theorem fit_passage (k : Nat) (h : Head) (x : Bool) (s : State) (hz : HoldersFit s) :
    HoldersFit (passage k h x s) := by
  unfold passage; (try dsimp only); repeat' split
  all_goals first
    | (simp (maxDischargeDepth := 60) +contextual [hz]; done)
    | exact fit_same hz rfl

@[simp] theorem fit_headPair (k : Nat) (h : Head) (x y : Bool × Bool) (s : State) (hz : HoldersFit s) :
    HoldersFit (headPair k h x y s) := by
  unfold headPair; (try dsimp only); repeat' split
  all_goals first
    | (simp (maxDischargeDepth := 60) +contextual [hz]; done)
    | exact fit_same hz rfl

@[simp] theorem fit_headSampled (k : Nat) (x : Bool × Bool) (s : State) (hz : HoldersFit s) :
    HoldersFit (headSampled k x s) := by
  unfold headSampled; (try dsimp only); repeat' split
  all_goals first
    | (simp (maxDischargeDepth := 60) +contextual [hz]; done)
    | exact fit_same hz rfl

@[simp] theorem fit_discrepancyExpires (n : Nat) (s : State) (hz : HoldersFit s) :
    HoldersFit (discrepancyExpires n s) := by
  unfold discrepancyExpires; (try dsimp only); repeat' split
  all_goals first
    | (simp (maxDischargeDepth := 60) +contextual [hz]; done)
    | exact fit_same hz rfl

@[simp] theorem fit_lostHoldExpires (n : Nat) (s : State) (hz : HoldersFit s) :
    HoldersFit (lostHoldExpires n s) := by
  unfold lostHoldExpires; (try dsimp only); repeat' split
  all_goals first
    | (simp (maxDischargeDepth := 60) +contextual [hz]; done)
    | exact fit_same hz rfl

@[simp] theorem fit_disableSection (k n : Nat) (s : State) (hz : HoldersFit s) :
    HoldersFit (disableSection k n s) := by
  unfold disableSection; (try dsimp only); repeat' split
  all_goals first
    | (simp (maxDischargeDepth := 60) +contextual [hz]; done)
    | exact fit_same hz rfl

@[simp] theorem fit_enableSection (k n : Nat) (s : State) (hz : HoldersFit s) :
    HoldersFit (enableSection k n s) := by
  unfold enableSection; (try dsimp only); repeat' split
  all_goals first
    | (simp (maxDischargeDepth := 60) +contextual [hz]; done)
    | exact fit_same hz rfl

@[simp] theorem fit_headNormal (k : Nat) (s : State) (hz : HoldersFit s) :
    HoldersFit (headNormal k s) := by
  unfold headNormal; (try dsimp only); repeat' split
  all_goals first
    | (simp (maxDischargeDepth := 60) +contextual [hz]; done)
    | exact fit_same hz rfl

@[simp] theorem fit_resetSection (k n : Nat) (s : State) (hz : HoldersFit s) :
    HoldersFit (resetSection k n s) := by
  unfold resetSection; (try dsimp only); repeat' split
  all_goals first
    | (simp (maxDischargeDepth := 60) +contextual [hz]; done)
    | exact fit_same hz rfl

@[simp] theorem fit_labelTag (k t l : Nat) (s : State) (hz : HoldersFit s) :
    HoldersFit (labelTag k t l s) := by
  unfold labelTag; (try dsimp only); repeat' split
  all_goals first
    | (simp (maxDischargeDepth := 60) +contextual [hz]; done)
    | exact fit_same hz rfl

/-! ## Stop pin, buttons, visitor requests, contacts -/

@[simp] theorem fit_contactSample (i : Nat) (x : Bool) (s : State) (hz : HoldersFit s) : HoldersFit (contactSample i x s) := by
  unfold contactSample; dsimp only; split
  · exact fit_same hz rfl
  · exact fit_eachDo _ _ _ (fun n t h => fit_contactChanged n t h) (fit_same hz rfl)

@[simp] theorem fit_boltSample (c : BoltContact) (x : Bool) (s : State) (hz : HoldersFit s) :
    HoldersFit (boltSample c x s) := by
  unfold boltSample; (try dsimp only); repeat' split
  all_goals first
    | (simp (maxDischargeDepth := 60) +contextual [hz]; done)
    | exact fit_same hz rfl

@[simp] theorem fit_stopPinSampled (x : Bool) (s : State) (hz : HoldersFit s) : HoldersFit (stopPinSampled x s) := by
  unfold stopPinSampled; dsimp only; split
  · exact fit_same hz rfl
  · split
    · apply fit_enterAllStop; apply fit_write8; exact fit_same hz rfl
    · apply fit_write8; exact fit_same hz rfl

@[simp] theorem fit_allStopRequest (n : Nat) (s : State) (hz : HoldersFit s) :
    HoldersFit (allStopRequest n s) := by
  unfold allStopRequest; (try dsimp only); repeat' split
  all_goals first
    | (simp (maxDischargeDepth := 60) +contextual [hz]; done)
    | exact fit_same hz rfl

@[simp] theorem fit_resumeRequest (n : Nat) (s : State) (hz : HoldersFit s) :
    HoldersFit (resumeRequest n s) := by
  unfold resumeRequest; (try dsimp only); repeat' split
  all_goals first
    | (simp (maxDischargeDepth := 60) +contextual [hz]; done)
    | exact fit_same hz rfl

@[simp] theorem fit_buttonSampled (b : Nat) (x : Bool) (s : State) (hz : HoldersFit s) : HoldersFit (buttonSampled b x s) := by
  unfold buttonSampled; dsimp only; split
  · exact fit_vis _ _ (.inr id) hz
  · exact fit_buttonChanged _ _ _ (fit_vis _ _ (.inr id) hz)

/-- The visitor unit changed: no show runs after it where none did. -/
theorem fit_setVisitors (f : VisitorUnit → VisitorUnit) (s : State) (h1 : s.vis.runner = none → (f s.vis).runner = none)
    (hz : HoldersFit s) : HoldersFit (setVisitors f s) := fit_vis _ _ (.inr h1) hz

@[simp] theorem fit_suspendVisitors (n : Nat) (s : State) (hz : HoldersFit s) : HoldersFit (suspendVisitors n s) := by
  unfold suspendVisitors; dsimp only; split
  · exact fit_complete _ _ _ _ _ hz
  · exact fit_complete _ _ _ _ _ (fit_setVisitors _ _ id (fit_abortShow _ _ _ _ (fit_setVisitors _ _ id hz)))

@[simp] theorem fit_resumeVisitors (n : Nat) (s : State) (hz : HoldersFit s) : HoldersFit (resumeVisitors n s) := by
  unfold resumeVisitors; exact fit_complete _ _ _ _ _ (fit_setVisitors _ _ id hz)

/-! ## Loading -/

@[simp] theorem fit_takeSection (n : Nat) (r : SectionRec) (s : State) (hz : HoldersFit s) :
    HoldersFit (takeSection n r s) := by
  unfold takeSection; (try dsimp only); repeat' split
  all_goals first
    | (simp (maxDischargeDepth := 60) +contextual [hz]; done)
    | exact fit_same hz rfl

@[simp] theorem fit_takeHead (n : Nat) (r : Head) (s : State) (hz : HoldersFit s) :
    HoldersFit (takeHead n r s) := by
  unfold takeHead; (try dsimp only); repeat' split
  all_goals first
    | (simp (maxDischargeDepth := 60) +contextual [hz]; done)
    | exact fit_same hz rfl

@[simp] theorem fit_writePool (s : State) (hz : HoldersFit s) :
    HoldersFit (writePool s) := by
  unfold writePool; (try dsimp only); repeat' split
  all_goals first
    | (simp (maxDischargeDepth := 60) +contextual [hz]; done)
    | exact fit_same hz rfl

@[simp] theorem fit_takePoint (n : Nat) (r : PointRec) (s : State) (hz : HoldersFit s) :
    HoldersFit (takePoint n r s) := by
  unfold takePoint; (try dsimp only); repeat' split
  all_goals first
    | (simp (maxDischargeDepth := 60) +contextual [hz]; done)
    | exact fit_same hz rfl

@[simp] theorem fit_takeSignal (n : Nat) (r : SignalRec) (s : State) (hz : HoldersFit s) :
    HoldersFit (takeSignal n r s) := by
  unfold takeSignal; (try dsimp only); repeat' split
  all_goals first
    | (simp (maxDischargeDepth := 60) +contextual [hz]; done)
    | exact fit_same hz rfl

@[simp] theorem fit_unreference (s : State) (hz : HoldersFit s) :
    HoldersFit (unreference s) := by
  unfold unreference; (try dsimp only); repeat' split
  all_goals first
    | (simp (maxDischargeDepth := 60) +contextual [hz]; done)
    | exact fit_same hz rfl

@[simp] theorem fit_takeDeck (d : DeckRec) (s : State) (hz : HoldersFit s) :
    HoldersFit (takeDeck d s) := by
  unfold takeDeck; (try dsimp only); repeat' split
  all_goals first
    | (simp (maxDischargeDepth := 60) +contextual [hz]; done)
    | exact fit_same hz rfl

@[simp] theorem fit_takeRoad (n : Nat) (r : Road) (s : State) (hz : HoldersFit s) :
    HoldersFit (takeRoad n r s) := by
  unfold takeRoad; (try dsimp only); repeat' split
  all_goals first
    | (simp (maxDischargeDepth := 60) +contextual [hz]; done)
    | exact fit_same hz rfl

@[simp] theorem fit_takeLamp (n : Nat) (r : Lamp) (s : State) (hz : HoldersFit s) : HoldersFit (takeLamp n r s) := by
  unfold takeLamp; dsimp only; split
  · apply fit_mirrorLampWord; exact fit_same hz rfl
  · exact fit_same hz rfl

/-- The run state and the load list are the same. -/
def SameLoads (s t : State) : Prop :=
  t.exch.runState = s.exch.runState ∧ t.exch.reading = s.exch.reading ∧ t.exch.loads = s.exch.loads

theorem SameLoads.trans {s t u : State} (h : SameLoads s t) (g : SameLoads t u) : SameLoads s u :=
  ⟨g.1.trans h.1, g.2.1.trans h.2.1, g.2.2.trans h.2.2⟩

theorem SameLoads.of_kept {s t : State} (h : kept t = kept s) : SameLoads s t :=
  ⟨congrArg Kept.runState h, congrArg Kept.reading h, congrArg Kept.loads h⟩

theorem sameLoads_setDeck (f : Turntable → Turntable) (s : State) : SameLoads s (setDeck f s) := by simp [SameLoads, setDeck]

theorem sameLoads_unreference (s : State) : SameLoads s (unreference s) := by
  unfold unreference; dsimp only
  split
  · exact sameLoads_setDeck _ _
  · exact (sameLoads_setDeck _ _).trans (SameLoads.of_kept (kept_enterDeck _ _))

/-- Whatever record a block takes, the holder lists still fit: a ROUTE record is taken where no point is held. The run state and
the load list stay. -/
theorem fit_takeRecord (k : LoadKind) (a len : Nat) (s t : State)
    (hk : s.exch.runState = .running → k = .shows ∨ k = .lamps) (hz : HoldersFit s)
    (h : takeRecord k a len s = .ok t) :
    HoldersFit t ∧ SameLoads s t := by
  let P (u : State) : Prop := HoldersFit u ∧ SameLoads s u
  unfold takeRecord at h
  dsimp only at h
  have orI : ∀ x : Option State, (∀ u, x = some u → P u) →
      (match x with | some t => Except.ok t | none => Except.error Result.invalidRecord) = .ok t → P t := by
    intro x hx hh
    cases x with
    | none => cases hh
    | some u => cases hh; exact hx _ rfl
  have orM : ∀ {α : Type} (x : Option α) (f : α → State), (∀ y, P (f y)) → ∀ u, x.map f = some u → P u := by
    intro α x f hf u hu
    cases x with
    | none => cases hu
    | some y => cases hu; exact hf y
  have hex : ∀ {u : State}, SameLoads s u → HoldersFit u → P u := fun e hu => ⟨hu, e⟩
  split at h
  · split at h
    · exact orI _ (orM _ _ fun y => hex (by simp [SameLoads, takeSection]) (by simp [hz])) h
    · exact orI _ (orM _ _ fun y => hex (by simp [SameLoads, takeHead]) (by simp [hz])) h
    · cases h
  · exact orI _ (orM _ _ fun y => hex (by simp [SameLoads, takePoint]) (by simp [hz])) h
  · exact orI _ (orM _ _ fun y => hex (by simp [SameLoads, takeSignal]) (by simp [hz])) h
  · refine orI _ ?_ h
    intro u hu
    cases hx : readRoute s a len with
    | none => rw [hx] at hu; cases hu
    | some x =>
      rw [hx] at hu
      simp only [Option.bind_some] at hu
      unfold takeRoute at hu
      dsimp only at hu
      split at hu
      · cases hu
      · cases hu
        have hr : s.exch.runState ≠ .running := fun hr => by rcases hk hr with e | e <;> cases e
        obtain ⟨e1, e2, e3⟩ := hz.idle hr
        refine hex (by simp [SameLoads, writePool]) (fit_writePool _ ⟨hz.sorted, fun p n hn => ?_, hz.idle, hz.loads⟩)
        simp [holdersOf, e1, Tbl.getD, Tbl.find, Holders.none] at hn
  · split at h
    · exact orI _ (orM _ _ fun y => hex ((sameLoads_setDeck _ _).trans (sameLoads_unreference _)) (by simp [hz])) h
    · exact orI _ (orM _ _ fun y => hex ((sameLoads_setDeck _ _).trans (sameLoads_unreference _)) (by simp [hz])) h
    · cases h
  · split at h
    · cases h
    · split at h
      · rename_i u hu
        cases h
        unfold takeShowRecord at hu
        split at hu
        · cases hu
        · cases hu; exact hex (by simp [SameLoads]) (fit_setVisitors _ _ id hz)
      · cases h
  · exact orI _ (orM _ _ fun y => hex (by unfold SameLoads takeLamp; dsimp only; split <;> simp) (by simp [hz])) h

/-- The load list set: to loads that the run state allows (R190). -/
theorem fit_setLoads (r : Option Load) (l : List Load) (s : State)
    (hl : s.exch.runState = .running → ∀ m, r = some m ∨ m ∈ l → m.kind = .shows ∨ m.kind = .lamps) (hz : HoldersFit s) :
    HoldersFit (setLoads r l s) := ⟨hz.sorted, hz.listed, hz.idle, hl⟩

theorem fit_beginLoads (l : List Load) (s : State)
    (hl : s.exch.runState = .running → ∀ m ∈ l, m.kind = .shows ∨ m.kind = .lamps) (hz : HoldersFit s) :
    HoldersFit (beginLoads l s) := by
  induction l generalizing s with
  | nil => exact fit_setLoads _ _ _ (fun _ m hm => by simp at hm) hz
  | cons x l ih =>
    unfold beginLoads; split
    · refine ih _ (fun hr m hm => hl ?_ m (List.mem_cons_of_mem _ hm)) (fit_complete _ _ _ _ _ hz)
      rw [← hr]; exact (congrArg Kept.runState (kept_complete _ _ _ _ s)).symm
    · refine fit_setLoads _ _ _ (fun hr m hm => hl hr m ?_) hz
      rcases hm with hm | hm
      · cases hm; exact List.mem_cons_self
      · exact List.mem_cons_of_mem _ hm

@[simp] theorem fit_loadNext (s : State) (hz : HoldersFit s) : HoldersFit (loadNext s) := by
  unfold loadNext; split
  · exact hz
  · rename_i l hl
    have hw : s.exch.runState = .running → ∀ m ∈ s.exch.loads, m.kind = .shows ∨ m.kind = .lamps :=
      fun hr m hm => hz.loads hr m (.inr hm)
    have hc : ∀ (n : Nat) (r : Result) (w0 w1 : Nat) (u : State), (complete n r w0 w1 u).exch.runState = u.exch.runState :=
      fun n r w0 w1 u => congrArg Kept.runState (kept_complete n r w0 w1 u)
    split
    · exact fit_beginLoads _ _ (fun hr => hw ((hc _ _ _ _ _).symm.trans hr)) (fit_complete _ _ _ _ _ hz)
    · rename_i t ht
      have h : HoldersFit t ∧ SameLoads s t := by
        unfold readRecord at ht
        dsimp only at ht
        split at ht
        · cases ht
        · exact fit_takeRecord _ _ _ _ _ (fun hr => hz.loads hr l (.inl hl)) hz ht
      obtain ⟨h, e1, e2, e3⟩ := h
      dsimp only; split
      · exact fit_beginLoads _ _ (fun hr => hw (by rw [← e1, ← hc]; exact hr)) (fit_complete _ _ _ _ _ h)
      · refine fit_setLoads _ _ _ (fun hr m hm => ?_) h
        rw [e1] at hr
        rcases hm with hm | hm
        · cases hm; exact hz.loads hr l (.inl hl)
        · exact hw hr m hm

theorem fit_loadRequest (k : LoadKind) (n o l c : Nat) (s : State)
    (hk : s.exch.runState = .running → k = .shows ∨ k = .lamps) (hz : HoldersFit s) : HoldersFit (loadRequest k n o l c s) := by
  unfold loadRequest; split
  · exact fit_complete _ _ _ _ _ hz
  · dsimp only; split
    · rename_i x hx
      refine fit_setLoads _ _ _ (fun hr m hm => ?_) hz
      rcases hm with hm | hm
      · exact hz.loads hr m (.inl hm)
      · rw [List.mem_append, List.mem_singleton] at hm
        rcases hm with hm | rfl
        · exact hz.loads hr m (.inr hm)
        · exact hk hr
    · refine fit_beginLoads _ _ (fun hr m hm => ?_) hz
      rw [List.mem_singleton] at hm; subst hm; exact hk hr

theorem fit_setParameter (g : Group) (c v : Nat) (s : State) (x : State × Bool) (hz : HoldersFit s)
    (h : setParameter g c v s = some x) : HoldersFit x.1 := by
  unfold setParameter at h
  split at h
  · unfold setTrack at h
    split at h
    all_goals first
      | (cases h; done)
      | (cases h; exact fit_same hz rfl)
  · unfold setVisitorParameter at h
    split at h
    all_goals first
      | (cases h; done)
      | (cases h; exact fit_same hz rfl)

@[simp] theorem fit_applyEntries (g : Group) (n l a d c : Nat) (s : State) (hz : HoldersFit s) :
    HoldersFit (applyEntries g n l a d c s) := by
  induction l generalizing a d c s with
  | zero => exact fit_complete _ _ _ _ _ hz
  | succ l ih =>
    unfold applyEntries; split
    · exact fit_complete _ _ _ _ _ hz
    · rename_i heq; exact ih _ _ _ _ (fit_setParameter _ _ _ _ _ hz heq)

@[simp] theorem fit_setParameters (n g o c : Nat) (s : State) (hz : HoldersFit s) :
    HoldersFit (setParameters n g o c s) := by
  unfold setParameters; (try dsimp only); repeat' split
  all_goals first
    | (simp (maxDischargeDepth := 60) +contextual [hz]; done)
    | exact fit_same hz rfl

/-! ## START and the resets -/

@[simp] theorem fit_startSections (s : State) (hz : HoldersFit s) :
    HoldersFit (startSections s) := by
  unfold startSections; (try dsimp only); repeat' split
  all_goals first
    | (simp (maxDischargeDepth := 60) +contextual [hz]; done)
    | exact fit_same hz rfl

@[simp] theorem fit_mirrorTags (s : State) (hz : HoldersFit s) :
    HoldersFit (mirrorTags s) := by
  unfold mirrorTags; (try dsimp only); repeat' split
  all_goals first
    | (simp (maxDischargeDepth := 60) +contextual [hz]; done)
    | exact fit_same hz rfl

@[simp] theorem fit_startTags (s : State) (hz : HoldersFit s) :
    HoldersFit (startTags s) := by
  unfold startTags; (try dsimp only); repeat' split
  all_goals first
    | (simp (maxDischargeDepth := 60) +contextual [hz]; done)
    | exact fit_same hz rfl

@[simp] theorem fit_freshPoint (p : Nat) (s : State) (hz : HoldersFit s) :
    HoldersFit (freshPoint p s) := by
  unfold freshPoint; (try dsimp only); repeat' split
  all_goals first
    | (simp (maxDischargeDepth := 60) +contextual [hz]; done)
    | exact fit_same hz rfl

@[simp] theorem fit_startPoints (s : State) (hz : HoldersFit s) : HoldersFit (startPoints s) := by
  unfold startPoints
  exact fit_eachDo _ _ _ (fun n t h => fit_freshPoint n t h) (fit_setOrders _ _ _ hz)

@[simp] theorem fit_mirrorActives (s : State) (hz : HoldersFit s) :
    HoldersFit (mirrorActives s) := by
  unfold mirrorActives; (try dsimp only); repeat' split
  all_goals first
    | (simp (maxDischargeDepth := 60) +contextual [hz]; done)
    | exact fit_same hz rfl

@[simp] theorem fit_startRoutes (s : State) (hz : HoldersFit s) : HoldersFit (startRoutes s) := by
  unfold startRoutes; exact fit_mirrorActives _ (fit_setStack _ _ (fun _ => rfl) (fit_same hz rfl))

@[simp] theorem fit_restSignal (x : Nat) (s : State) (hz : HoldersFit s) :
    HoldersFit (restSignal x s) := by
  unfold restSignal; (try dsimp only); repeat' split
  all_goals first
    | (simp (maxDischargeDepth := 60) +contextual [hz]; done)
    | exact fit_same hz rfl

@[simp] theorem fit_zeroOverruns (x : Nat) (s : State) (hz : HoldersFit s) :
    HoldersFit (zeroOverruns x s) := by
  unfold zeroOverruns; (try dsimp only); repeat' split
  all_goals first
    | (simp (maxDischargeDepth := 60) +contextual [hz]; done)
    | exact fit_same hz rfl

@[simp] theorem fit_startSignals (s : State) (hz : HoldersFit s) :
    HoldersFit (startSignals s) := by
  unfold startSignals; (try dsimp only); repeat' split
  all_goals first
    | (simp (maxDischargeDepth := 60) +contextual [hz]; done)
    | exact fit_same hz rfl

@[simp] theorem fit_startTable (s : State) (hz : HoldersFit s) :
    HoldersFit (startTable s) := by
  unfold startTable; (try dsimp only); repeat' split
  all_goals first
    | (simp (maxDischargeDepth := 60) +contextual [hz]; done)
    | exact fit_same hz rfl

@[simp] theorem fit_startPanel (s : State) (hz : HoldersFit s) : HoldersFit (startPanel s) := by
  unfold startPanel; dsimp only
  apply fit_mirrorVisitor; apply fit_settleButtons; apply fit_mirrorLamps; apply fit_settleLamps; apply fit_work
  exact fit_setVisitors _ _ (fun _ => rfl) hz

/-- START with no load in hand (R193). -/
theorem fit_startLayout (s : State) (hn : s.exch.reading = none) (hl : s.exch.loads = []) (hz : HoldersFit s) :
    HoldersFit (startLayout s) := by
  unfold startLayout; dsimp only
  apply fit_startPanel
  apply fit_startTable
  apply fit_startSignals
  apply fit_startRoutes
  apply fit_startPoints
  apply fit_startTags
  apply fit_startSections
  apply fit_reportLayout
  unfold setRunState; apply fit_write16
  refine ⟨hz.sorted, hz.listed, fun h => absurd rfl h, fun _ m hm => ?_⟩
  have hm : s.exch.reading = some m ∨ m ∈ s.exch.loads := hm
  rw [hn, hl] at hm
  simp at hm

@[simp] theorem fit_startRequest (n : Nat) (s : State) (hz : HoldersFit s) : HoldersFit (startRequest n s) := by
  unfold startRequest; split
  · exact fit_complete _ _ _ _ _ hz
  · rename_i h
    simp only [Bool.or_eq_true, not_or, Option.not_isSome_iff_eq_none, Bool.not_eq_true', List.isEmpty_eq_false_iff,
      ne_eq, not_not] at h
    split
    · exact fit_complete _ _ _ _ _ hz
    · exact fit_complete _ _ _ _ _ (fit_startLayout _ h.1 h.2 hz)

@[simp] theorem fit_resetSections (s : State) (hz : HoldersFit s) :
    HoldersFit (resetSections s) := by
  unfold resetSections; (try dsimp only); repeat' split
  all_goals first
    | (simp (maxDischargeDepth := 60) +contextual [hz]; done)
    | exact fit_same hz rfl

@[simp] theorem fit_resetTags (s : State) (hz : HoldersFit s) :
    HoldersFit (resetTags s) := by
  unfold resetTags; (try dsimp only); repeat' split
  all_goals first
    | (simp (maxDischargeDepth := 60) +contextual [hz]; done)
    | exact fit_same hz rfl

@[simp] theorem fit_resetRoutes (s : State) (hz : HoldersFit s) : HoldersFit (resetRoutes s) := by
  unfold resetRoutes
  refine fit_mirrorActives _ (fit_setStack _ _ (fun _ => rfl) ⟨rfl, fun p n hn => ?_, fun hr => ?_, hz.loads⟩)
  · simp [holdersOf, Tbl.getD, Tbl.find, Holders.none] at hn
  · exact ⟨rfl, (hz.idle hr).2⟩

@[simp] theorem fit_unfailPoint (l : List Nat) (p : Nat) (s : State) (hz : HoldersFit s) :
    HoldersFit (unfailPoint l p s) := by
  unfold unfailPoint; (try dsimp only); repeat' split
  all_goals first
    | (simp (maxDischargeDepth := 60) +contextual [hz]; done)
    | exact fit_same hz rfl

@[simp] theorem fit_resetPoints (s : State) (hz : HoldersFit s) : HoldersFit (resetPoints s) := by
  unfold resetPoints; dsimp only
  refine fit_eachDo _ _ _ (fun n t h => fit_freshPoint n t h) ?_
  refine fit_eachDo _ _ _ (fun n t h => fit_unfailPoint _ n t h) ?_
  apply fit_setOrders
  split
  · exact fit_same (fit_startRecharge _ hz) rfl
  · exact fit_same hz rfl

@[simp] theorem fit_resetSignals (s : State) (hz : HoldersFit s) :
    HoldersFit (resetSignals s) := by
  unfold resetSignals; (try dsimp only); repeat' split
  all_goals first
    | (simp (maxDischargeDepth := 60) +contextual [hz]; done)
    | exact fit_same hz rfl

@[simp] theorem fit_resetTable (s : State) (hz : HoldersFit s) : HoldersFit (resetTable s) := by
  unfold resetTable; split <;> exact fit_setDeck _ _ hz

@[simp] theorem fit_resetVisitors (s : State) (hz : HoldersFit s) : HoldersFit (resetVisitors s) := by
  unfold resetVisitors; exact fit_setVisitors _ _ id (fit_abortShow _ _ _ _ hz)

@[simp] theorem fit_resetDisplay (s : State) (hz : HoldersFit s) : HoldersFit (resetDisplay s) := by
  unfold resetDisplay; dsimp only
  apply fit_mirrorLamps
  exact fit_same (fit_loadIdle s.disp.idle1 _ (fit_setPanelState .awake s hz)) rfl

@[simp] theorem fit_abortSlots (o : Option Nat) (s : State) (hz : HoldersFit s) :
    HoldersFit ((abortSlots o s).1) := by
  unfold abortSlots; (try dsimp only); repeat' split
  all_goals first
    | (simp (maxDischargeDepth := 60) +contextual [hz]; done)
    | exact fit_same hz rfl

/-- What a layout reset has given up when it leaves RUNNING: no point is held, no request is stacked, no show runs. -/
theorem reset_idle (s : State) :
    let t := resetDisplay (resetVisitors (resetTable (resetSignals (resetPoints (resetRoutes s)))))
    t.ilk.holders = [] ∧ t.ilk.stack = [] ∧ t.vis.runner = none := by
  have each : ∀ (l : List Nat) (f : Nat → State → State) (u : State), (∀ n v, (f n v).ilk = v.ilk) → (eachDo l f u).ilk = u.ilk := by
    intro l f u hf
    unfold eachDo
    induction l generalizing u with
    | nil => rfl
    | cons n l ih => rw [List.foldl_cons, ih, hf]
  have h1 : ∀ u, (resetRoutes u).ilk.holders = [] ∧ (resetRoutes u).ilk.stack = [] := by
    intro u; unfold resetRoutes mirrorActives
    rw [each _ _ _ (by simp)]; simp
  have h2 : ∀ u, (resetPoints u).ilk = u.ilk := by
    intro u; unfold resetPoints; dsimp only
    rw [each _ _ _ (fun n v => by unfold freshPoint; split <;> simp), each _ _ _ (fun n v => by simp [unfailPoint])]
    split <;> simp [startRecharge]
  have h3 : ∀ u, (resetSignals u).ilk = u.ilk := by
    intro u; unfold resetSignals
    rw [each _ _ _ (fun n v => by
      unfold restSignal; split
      · rfl
      · exact (ilk_of_body (body_mirrorSignalNow _ _)).trans (setSignal_ilk _ _ _))]
    simp
  have h4 : ∀ u, (resetTable u).ilk = u.ilk := by
    intro u; unfold resetTable; split <;> simp
  have h5 : ∀ u, (resetVisitors u).ilk = u.ilk ∧ (resetVisitors u).vis.runner = none := by
    intro u; unfold resetVisitors abortShow startCoolDown runnerIdle; dsimp only
    split
    · rename_i h; simp [h]
    · repeat' split
      all_goals simp_all
  dsimp only
  unfold resetDisplay; dsimp only
  rw [ilk_of_body (body_mirrorLamps _ _), vis_of_body (body_mirrorLamps _ _)]
  simp [h1, h2, h3, h4, h5]

@[simp] theorem fit_layoutReset (o : Option Nat) (s : State) (hz : HoldersFit s) : HoldersFit (layoutReset o s) := by
  unfold layoutReset; dsimp only
  have h0 := reset_idle (resetTags (resetSections s))
  dsimp only at h0
  have h1 : HoldersFit (resetDisplay (resetVisitors (resetTable (resetSignals (resetPoints (resetRoutes (resetTags
      (resetSections s)))))))) := by simp (maxDischargeDepth := 60) [hz]
  generalize resetDisplay (resetVisitors (resetTable (resetSignals (resetPoints (resetRoutes (resetTags
      (resetSections s))))))) = u at h0 h1
  have h2 : HoldersFit (setRunState .configuring (setLoads none [] u)) := by
    unfold setRunState; apply fit_write16
    exact ⟨h1.sorted, h1.listed, fun _ => h0, fun h => by cases h⟩
  have h3 := fit_abortSlots o _ (fit_mirrorVisitor _ (fit_settleButtons _ (fit_updateFeed _ h2)))
  split
  · exact fit_complete _ _ _ _ _ (fit_reportLayout _ _ _ h3)
  · exact fit_reportLayout _ _ _ h3

/-! ## The clock -/

@[simp] theorem fit_tickFlash (s : State) (hz : HoldersFit s) : HoldersFit (tickFlash s) := by
  unfold tickFlash; dsimp only; split
  · exact fit_refreshLevels _ (fit_same hz rfl)
  · exact fit_same hz rfl

@[simp] theorem fit_mirrorJogHold (s : State) (hz : HoldersFit s) :
    HoldersFit (mirrorJogHold s) := by
  unfold mirrorJogHold; exact fit_writeWord _ _ _ _ _ hz

@[simp] theorem fit_tick (s : State) (hz : HoldersFit s) : HoldersFit (tick s) := by
  unfold tick; dsimp only
  apply fit_settleVisitorWord
  apply fit_tickFlash
  have h : HoldersFit { s with occ := tickOcc s.occ, tags := tickTags s.tags, ilk := tickIlk s.ilk, pts := tickPts s.pts,
                               tt := tickTable s.tt, vis := tickVisitors s.vis,
                               disp := { s.disp with idleTimer := less s.disp.idleTimer },
                               exch := { s.exch with pollTimer := less s.exch.pollTimer },
                               clock := (s.clock + 1) % Config.clockMod } := by
    refine ⟨hz.sorted, hz.listed, fun hr => ?_, hz.loads⟩
    obtain ⟨e1, e2, e3⟩ := hz.idle hr
    exact ⟨e1, by simp [tickIlk, e2], by simp [tickVisitors, e3]⟩
  split
  · exact fit_mirrorJogHold _ h
  · exact h

@[simp] theorem fit_jogHoldPasses (s : State) (hz : HoldersFit s) : HoldersFit (jogHoldPasses s) := by
  unfold jogHoldPasses; split
  · exact hz
  · apply fit_mirrorJogHold; exact fit_same hz rfl

@[simp] theorem fit_secondPasses (t : ShowTimer) (s : State) (hz : HoldersFit s) : HoldersFit (secondPasses t s) := by
  unfold secondPasses; split
  · exact hz
  · rename_i h
    exact fit_mirrorVisitorWord _ _ (fit_vis _ _ (.inr fun hn => by rw [h] at hn; cases hn) hz)

@[simp] theorem fit_flashPasses (s : State) (hz : HoldersFit s) : HoldersFit (flashPasses s) := by
  unfold flashPasses; exact fit_refreshLevels _ (fit_same hz rfl)

end Sys2Proof.Machine
end

