-- ==== Sys2Proof/Laws/Limits.lean ====
section
/-! SUPPORT. Everything stays within its bounds: the operations over the log, the header and the slots, and a change of a
block that leaves the bounded fields alone. -/

namespace Sys2Proof.Machine

/-- The fields that `Limits` speaks of. -/
def limitKey (s : State) :
    Nat × Nat × Nat × Nat × Nat × Nat × Nat × Nat × Option DeckRec × Option Nat × Bool × Bool :=
  (s.exch.w, s.exch.takePos, s.clock, s.disp.flash, s.ilk.stack.length, s.pts.queue.length, s.vis.queue.length,
    s.vis.busy, s.tt.deck, s.tt.pos, s.exch.attn, attention s.exch)

theorem lim_same {s t : State} (h : Limits s) (e : limitKey t = limitKey s) : Limits t := by
  unfold limitKey at e
  simp only [Prod.mk.injEq] at e
  obtain ⟨e1, e2, e3, e4, e5, e6, e7, e8, e9, e10, e11, e12⟩ := e
  refine ⟨e1 ▸ h.logPointer, e2 ▸ h.takePos, e3 ▸ h.clock, e4 ▸ h.flash, e5 ▸ h.stack, e6 ▸ h.queue, e7 ▸ h.shows,
    e8 ▸ h.busy, ?_, by rw [e11, e12]; exact h.line⟩
  unfold deckSound; rw [e9, e10]; exact h.deck

/-! ## Memory, the log, the slots -/

@[simp] theorem lim_withMem (s : State) (m : List Host.Cell) (h : Limits s) : Limits (s.withMem m) := lim_same h rfl

@[simp] theorem lim_write8 (a v : Nat) (s : State) (h : Limits s) : Limits (s.write8 a v) := by
  unfold State.write8; split <;> simp [h]

@[simp] theorem lim_write16 (a v : Nat) (s : State) (h : Limits s) : Limits (s.write16 a v) := by
  unfold State.write16; split <;> simp [h]

@[simp] theorem lim_write32 (a v : Nat) (s : State) (h : Limits s) : Limits (s.write32 a v) := by
  unfold State.write32; split <;> simp [h]

@[simp] theorem lim_writeWord (b n k v : Nat) (s : State) (h : Limits s) : Limits (s.writeWord b n k v) := by
  unfold State.writeWord; split <;> simp [h]

@[simp] theorem lim_work (s : State) (w : Work) (h : Limits s) : Limits { s with work := w } := lim_same h rfl

/-- The causes, the enable set and the line of another record of the exchange. -/
abbrev Exchange.withCausesOf (x y : Exchange) : Exchange :=
  { x with attn := y.attn, reports := y.reports, done := y.done, stop := y.stop, enable := y.enable }

/-- Whatever the causes and the enable set were, the line is right once it is evaluated. -/
theorem lim_line {s t : State} (h : Limits s)
    (e : limitKey { t with exch := (t.exch.withCausesOf s.exch) } = limitKey s) : Limits (evalLine t) := by
  have g := lim_same h e
  exact ⟨g.logPointer, g.takePos, g.clock, g.flash, g.stack, g.queue, g.shows, g.busy, g.deck, rfl⟩

@[simp] theorem lim_evalLine (s : State) (h : Limits s) : Limits (evalLine s) := lim_line h rfl

@[simp] theorem lim_evalStop (s : State) (h : Limits s) : Limits (evalStop s) := lim_line h rfl

@[simp] theorem lim_evalReports (s : State) (h : Limits s) : Limits (evalReports s) := lim_line h rfl

@[simp] theorem lim_readLevels (s : State) (h : Limits s) : Limits (readLevels s) := by
  have h2 := lim_write16 0x06 s.almost _ (lim_write16 0x04 s.notify s h)
  unfold readLevels evalReports; exact lim_line h2 rfl

@[simp] theorem lim_setMissed (m : BitVec 64) (s : State) (h : Limits s) : Limits (setMissed m s) := by
  unfold setMissed; apply lim_write32; apply lim_write32; exact lim_same h rfl

theorem lim_logPointer (s : State) (w : Nat) (hw : w < Config.numLog) (h : Limits s) :
    Limits { s with exch := { s.exch with w := w } } :=
  ⟨hw, h.takePos, h.clock, h.flash, h.stack, h.queue, h.shows, h.busy, h.deck, h.line⟩

@[simp] theorem lim_writeEntry (k : ReportKind) (x v1 v2 : Nat) (s : State) (h : Limits s) :
    Limits (writeEntry k x v1 v2 s) := by
  unfold writeEntry
  apply lim_evalReports
  apply lim_write16
  apply lim_logPointer _ _ (Nat.mod_lt _ (by decide))
  apply lim_write32; apply lim_write32; apply lim_write32; apply lim_write32; exact h

@[simp] theorem lim_report (k : ReportKind) (x v1 v2 : Nat) (s : State) (h : Limits s) :
    Limits (report k x v1 v2 s) := by
  have h1 := lim_readLevels s h
  unfold report; dsimp only; repeat' split
  · exact lim_writeEntry _ _ _ _ _ h1
  · exact lim_setMissed _ _ h1
  · exact lim_writeEntry _ _ _ _ _ (lim_setMissed _ _ (lim_writeEntry _ _ _ _ _ h1))
  · exact lim_setMissed _ _ h1

@[simp] theorem lim_complete (n : Nat) (r : Result) (w0 w1 : Nat) (s : State) (h : Limits s) :
    Limits (complete n r w0 w1 s) := by
  unfold complete; split
  · exact h
  · rename_i tag _
    have h2 := lim_write16 (slotAt n) 3 _ (lim_write16 (slotAt n + 4) tag.toNat _
      (lim_write32 (slotAt n + 0x1C) w1 _ (lim_write32 (slotAt n + 0x18) w0 _ (lim_write16 (slotAt n + 6) r.code s h))))
    exact lim_line h2 rfl

@[simp] theorem lim_useFree (s : State) (h : Limits s) : Limits (useFree s) := lim_same h rfl

@[simp] theorem lim_setUnit (u : Discharge) (s : State) (h : Limits s) : Limits (setUnit u s) := by
  unfold setUnit; apply lim_write8; exact lim_same h rfl

@[simp] theorem lim_setPanelState (p : Panel) (s : State) (h : Limits s) : Limits (setPanelState p s) := by
  unfold setPanelState; apply lim_write8; apply lim_write8; exact lim_same h rfl

@[simp] theorem lim_setRunState (r : RunState) (s : State) (h : Limits s) : Limits (setRunState r s) := by
  unfold setRunState; apply lim_write16; exact lim_same h rfl

@[simp] theorem lim_setRunCondition (c : RunCondition) (w : Option StopCause) (s : State) (h : Limits s) :
    Limits (setRunCondition c w s) := by
  unfold setRunCondition; apply lim_write16; apply lim_write8; apply lim_write8; exact lim_same h rfl

@[simp] theorem lim_setPower (b : Bool) (s : State) (h : Limits s) : Limits (setPower b s) := by
  unfold setPower; apply lim_write8; exact lim_same h rfl

/-! ## Lists -/

@[simp] theorem lim_eachDo (l : List Nat) (f : Nat → State → State) (s : State) (hf : ∀ n t, Limits t → Limits (f n t))
    (h : Limits s) : Limits (eachDo l f s) := by
  unfold eachDo
  induction l generalizing s with
  | nil => exact h
  | cons n l ih => rw [List.foldl_cons]; exact ih _ (hf n s h)

@[simp] theorem lim_foldl {α : Type} (l : List α) (f : State → α → State) (s : State)
    (hf : ∀ x t, Limits t → Limits (f t x)) (h : Limits s) : Limits (l.foldl f s) := by
  induction l generalizing s with
  | nil => exact h
  | cons n l ih => rw [List.foldl_cons]; exact ih _ (hf n s h)

/-! ## A block changed -/

@[simp] theorem lim_occ (s : State) (x : OccUnit) (h : Limits s) : Limits { s with occ := x } := lim_same h rfl

@[simp] theorem lim_tags (s : State) (x : TagUnit) (h : Limits s) : Limits { s with tags := x } := lim_same h rfl

@[simp] theorem lim_asp (s : State) (x : AspectUnit) (h : Limits s) : Limits { s with asp := x } := lim_same h rfl

theorem lim_ilk (s : State) (x : Interlocking) (hx : x.stack.length ≤ Config.numStack) (h : Limits s) :
    Limits { s with ilk := x } :=
  ⟨h.logPointer, h.takePos, h.clock, h.flash, hx, h.queue, h.shows, h.busy, h.deck, h.line⟩

theorem lim_pts (s : State) (x : PointUnit) (hx : x.queue.length ≤ Config.numQueue) (h : Limits s) :
    Limits { s with pts := x } :=
  ⟨h.logPointer, h.takePos, h.clock, h.flash, h.stack, hx, h.shows, h.busy, h.deck, h.line⟩

theorem lim_vis (s : State) (x : VisitorUnit) (hx : x.queue.length ≤ Config.visitorQueue)
    (hb : x.busy ≤ Config.visitorQueue) (h : Limits s) : Limits { s with vis := x } :=
  ⟨h.logPointer, h.takePos, h.clock, h.flash, h.stack, h.queue, hx, hb, h.deck, h.line⟩

theorem lim_tt (s : State) (x : Turntable) (hx : deckSound x) (h : Limits s) : Limits { s with tt := x } :=
  ⟨h.logPointer, h.takePos, h.clock, h.flash, h.stack, h.queue, h.shows, h.busy, hx, h.line⟩

end Sys2Proof.Machine
end

