-- ==== Sys2Proof/Laws/LimitsRoutes.lean ====
section
/-! SUPPORT. Routes, points and their requests keep everything within its bounds. -/

set_option linter.unusedTactic false
set_option linter.unreachableTactic false

namespace Sys2Proof.Machine

/-! ## Mirrors -/

@[simp] theorem lim_mirrorSection (n : Nat) (s : State) (hz : Limits s) :
    Limits (mirrorSection n s) := by
  unfold mirrorSection; (try dsimp only); repeat' split
  all_goals first
    | (simp (maxDischargeDepth := 60) +contextual [hz]; done)
    | exact lim_same hz rfl

@[simp] theorem lim_mirrorHead (n : Nat) (s : State) (hz : Limits s) :
    Limits (mirrorHead n s) := by
  unfold mirrorHead; (try dsimp only); repeat' split
  all_goals first
    | (simp (maxDischargeDepth := 60) +contextual [hz]; done)
    | exact lim_same hz rfl

@[simp] theorem lim_mirrorTag (n : Nat) (s : State) (hz : Limits s) :
    Limits (mirrorTag n s) := by
  unfold mirrorTag; (try dsimp only); repeat' split
  all_goals first
    | (simp (maxDischargeDepth := 60) +contextual [hz]; done)
    | exact lim_same hz rfl

@[simp] theorem lim_mirrorActive (n : Nat) (s : State) (hz : Limits s) :
    Limits (mirrorActive n s) := by
  unfold mirrorActive; (try dsimp only); repeat' split
  all_goals first
    | (simp (maxDischargeDepth := 60) +contextual [hz]; done)
    | exact lim_same hz rfl

@[simp] theorem lim_mirrorStackFrom (n k : Nat) (s : State) (hz : Limits s) : Limits (mirrorStackFrom n k s) := by
  induction n generalizing k s with
  | zero => exact hz
  | succ n ih => unfold mirrorStackFrom; exact ih _ _ (lim_writeWord _ _ _ _ _ hz)

@[simp] theorem lim_mirrorStack (s : State) (hz : Limits s) :
    Limits (mirrorStack s) := by
  unfold mirrorStack; (try dsimp only); repeat' split
  all_goals first
    | (simp (maxDischargeDepth := 60) +contextual [hz]; done)
    | exact lim_same hz rfl

@[simp] theorem lim_mirrorPointNow (n : Nat) (s : State) (hz : Limits s) :
    Limits (mirrorPointNow n s) := by
  unfold mirrorPointNow; (try dsimp only); repeat' split
  all_goals first
    | (simp (maxDischargeDepth := 60) +contextual [hz]; done)
    | exact lim_same hz rfl

@[simp] theorem lim_mirrorPoint (n : Nat) (s : State) (hz : Limits s) :
    Limits (mirrorPoint n s) := by
  unfold mirrorPoint; (try dsimp only); repeat' split
  all_goals first
    | (simp (maxDischargeDepth := 60) +contextual [hz]; done)
    | exact lim_same hz rfl

@[simp] theorem lim_mirrorSignalNow (n : Nat) (s : State) (hz : Limits s) :
    Limits (mirrorSignalNow n s) := by
  unfold mirrorSignalNow; (try dsimp only); repeat' split
  all_goals first
    | (simp (maxDischargeDepth := 60) +contextual [hz]; done)
    | exact lim_same hz rfl

@[simp] theorem lim_mirrorSignal (n : Nat) (s : State) (hz : Limits s) :
    Limits (mirrorSignal n s) := by
  unfold mirrorSignal; (try dsimp only); repeat' split
  all_goals first
    | (simp (maxDischargeDepth := 60) +contextual [hz]; done)
    | exact lim_same hz rfl

@[simp] theorem lim_writeTable (w : Nat → Nat) (s : State) (hz : Limits s) :
    Limits (writeTable w s) := by
  unfold writeTable; exact lim_eachDo _ _ _ (fun k t h => lim_writeWord _ _ _ _ t h) hz

@[simp] theorem lim_mirrorTable (s : State) (hz : Limits s) :
    Limits (mirrorTable s) := by
  unfold mirrorTable; split <;> exact lim_writeTable _ _ hz

@[simp] theorem lim_mirrorVisitorWord (k : Nat) (s : State) (hz : Limits s) :
    Limits (mirrorVisitorWord k s) := by
  unfold mirrorVisitorWord; (try dsimp only); repeat' split
  all_goals first
    | (simp (maxDischargeDepth := 60) +contextual [hz]; done)
    | exact lim_same hz rfl

@[simp] theorem lim_mirrorLampWord (k : Nat) (s : State) (hz : Limits s) :
    Limits (mirrorLampWord k s) := by
  unfold mirrorLampWord; (try dsimp only); repeat' split
  all_goals first
    | (simp (maxDischargeDepth := 60) +contextual [hz]; done)
    | exact lim_same hz rfl

/-! ## Handing back -/

@[simp] theorem lim_setRunner (r : Option Runner) (s : State) (hz : Limits s) :
    Limits (setRunner r s) := by
  unfold setRunner; (try dsimp only); repeat' split
  all_goals first
    | (simp (maxDischargeDepth := 60) +contextual [hz]; done)
    | exact lim_same hz rfl

@[simp] theorem lim_stepEnds (r : Runner) (e : StepEnd) (s : State) (hz : Limits s) :
    Limits (stepEnds r e s) := by
  unfold stepEnds; (try dsimp only); repeat' split
  all_goals first
    | (simp (maxDischargeDepth := 60) +contextual [hz]; done)
    | exact lim_same hz rfl

@[simp] theorem lim_showRouteSet (sh r : Nat) (s : State) (hz : Limits s) :
    Limits (showRouteSet sh r s) := by
  unfold showRouteSet; (try dsimp only); repeat' split
  all_goals first
    | (simp (maxDischargeDepth := 60) +contextual [hz]; done)
    | exact lim_same hz rfl

@[simp] theorem lim_showRouteFailed (sh r : Nat) (y : Result) (w : Nat) (s : State) (hz : Limits s) :
    Limits (showRouteFailed sh r y w s) := by
  unfold showRouteFailed; (try dsimp only); repeat' split
  all_goals first
    | (simp (maxDischargeDepth := 60) +contextual [hz]; done)
    | exact lim_same hz rfl

@[simp] theorem lim_showRouteAccepted (sh r : Nat) (s : State) (hz : Limits s) :
    Limits (showRouteAccepted sh r s) := by
  unfold showRouteAccepted; (try dsimp only); repeat' split
  all_goals first
    | (simp (maxDischargeDepth := 60) +contextual [hz]; done)
    | exact lim_same hz rfl

@[simp] theorem lim_showRouteReleased (sh r : Nat) (s : State) (hz : Limits s) :
    Limits (showRouteReleased sh r s) := by
  unfold showRouteReleased; (try dsimp only); repeat' split
  all_goals first
    | (simp (maxDischargeDepth := 60) +contextual [hz]; done)
    | exact lim_same hz rfl

@[simp] theorem lim_showTurnAnswer (sh : Nat) (r : Result) (w : Nat) (s : State) (hz : Limits s) :
    Limits (showTurnAnswer sh r w s) := by
  unfold showTurnAnswer; (try dsimp only); repeat' split
  all_goals first
    | (simp (maxDischargeDepth := 60) +contextual [hz]; done)
    | exact lim_same hz rfl

/-! ## Orders -/

@[simp] theorem lim_setPoint (p : Nat) (f : PointState → PointState) (s : State) (hz : Limits s) :
    Limits (setPoint p f s) := by
  unfold setPoint; (try dsimp only); repeat' split
  all_goals first
    | (simp (maxDischargeDepth := 60) +contextual [hz]; done)
    | exact lim_same hz rfl

@[simp] theorem lim_updateLoss (p : Nat) (s : State) (hz : Limits s) : Limits (updateLoss p s) := lim_same hz rfl

@[simp] theorem lim_touchPoint (p : Nat) (s : State) (hz : Limits s) :
    Limits (touchPoint p s) := by
  unfold touchPoint; (try dsimp only); repeat' split
  all_goals first
    | (simp (maxDischargeDepth := 60) +contextual [hz]; done)
    | exact lim_same hz rfl

/-- The orders set to a queue that has a place for each. -/
theorem lim_setOrders (q o : List Order) (s : State) (hq : q.length ≤ Config.numQueue) (hz : Limits s) :
    Limits (setOrders q o s) := lim_pts _ _ hq hz

@[simp] theorem lim_wantPass (s : State) (hz : Limits s) :
    Limits (wantPass s) := by
  unfold wantPass; (try dsimp only); repeat' split
  all_goals first
    | (simp (maxDischargeDepth := 60) +contextual [hz]; done)
    | exact lim_same hz rfl

@[simp] theorem lim_wantReexam (s : State) (hz : Limits s) :
    Limits (wantReexam s) := by
  unfold wantReexam; (try dsimp only); repeat' split
  all_goals first
    | (simp (maxDischargeDepth := 60) +contextual [hz]; done)
    | exact lim_same hz rfl

@[simp] theorem lim_wantAspects (s : State) (hz : Limits s) :
    Limits (wantAspects s) := by
  unfold wantAspects; (try dsimp only); repeat' split
  all_goals first
    | (simp (maxDischargeDepth := 60) +contextual [hz]; done)
    | exact lim_same hz rfl

@[simp] theorem lim_giveOrder (o : Order) (s : State) (hz : Limits s) : Limits (giveOrder o s) := by
  unfold giveOrder; split
  · apply lim_touchPoint; apply lim_wantPass
    exact lim_setOrders _ _ _ (by simp; omega) hz
  · apply lim_touchPoint; exact lim_setOrders _ _ _ hz.queue hz

@[simp] theorem lim_fillQueue (s : State) (hz : Limits s) : Limits (fillQueue s) := by
  unfold fillQueue; dsimp only; split
  · exact hz
  · refine lim_eachDo _ _ _ (fun n t h => lim_touchPoint n t h) ?_
    apply lim_wantPass
    refine lim_setOrders _ _ _ ?_ hz
    have := hz.queue
    simp only [List.length_append, List.length_take]; omega

@[simp] theorem lim_removeOrder (p : Nat) (s : State) (hz : Limits s) : Limits (removeOrder p s) := by
  unfold removeOrder; apply lim_fillQueue
  exact lim_setOrders _ _ _ (le_trans (List.length_filter_le _ _) hz.queue) hz

@[simp] theorem lim_changeOrder (p : Nat) (f : Order → Order) (s : State) (hz : Limits s) : Limits (changeOrder p f s) := by
  unfold changeOrder; exact lim_setOrders _ _ _ (by simpa using hz.queue) hz

@[simp] theorem lim_withdraw (e : Nat) (s : State) (hz : Limits s) : Limits (withdraw e s) := by
  have key : ∀ (t : State) (x : Tbl Active), Limits t → Limits { t with ilk := { t.ilk with active := x } } :=
    fun t x h => lim_ilk _ _ h.stack h
  unfold withdraw; dsimp only
  apply key
  refine lim_eachDo _ _ _ (fun n t h => lim_touchPoint n t h) ?_
  apply lim_fillQueue
  exact lim_setOrders _ _ _ (le_trans (List.length_filter_le _ _) hz.queue) (lim_same hz rfl)

/-! ## Routes -/

@[simp] theorem lim_setLock (n : Nat) (r : Option Nat) (s : State) (hz : Limits s) : Limits (setLock n r s) := by
  unfold setLock; dsimp only; apply lim_mirrorSection; split <;> exact lim_same hz rfl

@[simp] theorem lim_setHolders (p : Nat) (h : Holders) (s : State) (hz : Limits s) : Limits (setHolders p h s) := by
  unfold setHolders; apply lim_touchPoint; exact lim_same hz rfl

@[simp] theorem lim_addHolder (p : Nat) (l : Lie) (r : Nat) (s : State) (hz : Limits s) :
    Limits (addHolder p l r s) := by
  unfold addHolder; (try dsimp only); repeat' split
  all_goals first
    | (simp (maxDischargeDepth := 60) +contextual [hz]; done)
    | exact lim_same hz rfl

@[simp] theorem lim_removeHolder (p r : Nat) (s : State) (hz : Limits s) :
    Limits (removeHolder p r s) := by
  unfold removeHolder; (try dsimp only); repeat' split
  all_goals first
    | (simp (maxDischargeDepth := 60) +contextual [hz]; done)
    | exact lim_same hz rfl

@[simp] theorem lim_putActive (e : Nat) (a : Active) (s : State) (hz : Limits s) :
    Limits (putActive e a s) := by
  unfold putActive; (try dsimp only); repeat' split
  all_goals first
    | (simp (maxDischargeDepth := 60) +contextual [hz]; done)
    | exact lim_same hz rfl

@[simp] theorem lim_setActive (e : Nat) (a : Active) (s : State) (hz : Limits s) :
    Limits (setActive e a s) := by
  unfold setActive; (try dsimp only); repeat' split
  all_goals first
    | (simp (maxDischargeDepth := 60) +contextual [hz]; done)
    | exact lim_same hz rfl

@[simp] theorem lim_answerSlot (e : Nat) (r : Result) (w0 w1 : Nat) (s : State) (hz : Limits s) :
    Limits (answerSlot e r w0 w1 s) := by
  unfold answerSlot; repeat' split
  all_goals simp [hz]

@[simp] theorem lim_tellShow (a : Active) (f : Nat → Nat → State → State) (s : State)
    (hf : ∀ x y t, Limits t → Limits (f x y t)) (hz : Limits s) : Limits (tellShow a f s) := by
  unfold tellShow; split
  · exact hf _ _ _ hz
  · exact hz

@[simp] theorem lim_releaseWhole (e : Nat) (y : Ending) (s : State) (hz : Limits s) : Limits (releaseWhole e y s) := by
  unfold releaseWhole; split
  · exact hz
  · rename_i a _
    dsimp only
    apply lim_wantAspects; apply lim_wantReexam
    refine lim_tellShow _ _ _ (fun x y t h => lim_showRouteReleased x y t h) ?_
    have h1 := lim_eachDo ((s.ilk.locks.filter fun x => x.2 == a.route).map Prod.fst) (fun n => setLock n none) s
      (fun n t h => lim_setLock n none t h) hz
    have h2 := lim_eachDo ((s.ilk.holders.filter fun x => x.2.routes.contains a.route).map Prod.fst)
      (fun p => removeHolder p a.route) _ (fun n t h => lim_removeHolder n a.route t h) h1
    generalize (eachDo ((s.ilk.holders.filter fun x => x.2.routes.contains a.route).map Prod.fst)
      (fun p => removeHolder p a.route) _) = u at h2
    have h3 : Limits (report .routeReleased a.route (halves e y.code) (orNone16 a.tag)
        (mirrorActive e { u with ilk := { u.ilk with active := Tbl.erase u.ilk.active e } })) :=
      lim_report _ _ _ _ _ (lim_mirrorActive _ _ (lim_same h2 rfl))
    split
    · exact lim_mirrorSignal _ _ h3
    · exact h3

@[simp] theorem lim_endIfDone (e : Nat) (s : State) (hz : Limits s) :
    Limits (endIfDone e s) := by
  unfold endIfDone; (try dsimp only); repeat' split
  all_goals first
    | (simp (maxDischargeDepth := 60) +contextual [hz]; done)
    | exact lim_same hz rfl

@[simp] theorem lim_releaseOverlap (e : Nat) (s : State) (hz : Limits s) :
    Limits (releaseOverlap e s) := by
  unfold releaseOverlap; (try dsimp only); repeat' split
  all_goals first
    | (simp (maxDischargeDepth := 60) +contextual [hz]; done)
    | exact lim_same hz rfl

@[simp] theorem lim_startOverlap (e : Nat) (s : State) (hz : Limits s) :
    Limits (startOverlap e s) := by
  unfold startOverlap; (try dsimp only); repeat' split
  all_goals first
    | (simp (maxDischargeDepth := 60) +contextual [hz]; done)
    | exact lim_same hz rfl

@[simp] theorem lim_startOverlapAtEntry (e : Nat) (r : RouteRec) (s : State) (hz : Limits s) :
    Limits (startOverlapAtEntry e r s) := by
  unfold startOverlapAtEntry; (try dsimp only); repeat' split
  all_goals first
    | (simp (maxDischargeDepth := 60) +contextual [hz]; done)
    | exact lim_same hz rfl

@[simp] theorem lim_releasePoints (a : Active) (l : List Nat) (s : State) (hz : Limits s) :
    Limits (releasePoints a l s) := by
  unfold releasePoints; (try dsimp only); repeat' split
  all_goals first
    | (simp (maxDischargeDepth := 60) +contextual [hz]; done)
    | exact lim_same hz rfl

@[simp] theorem lim_releaseSection (e : Nat) (r : RouteRec) (n i : Nat) (s : State) (hz : Limits s) :
    Limits (releaseSection e r n i s) := by
  unfold releaseSection; (try dsimp only); repeat' split
  all_goals first
    | (simp (maxDischargeDepth := 60) +contextual [hz]; done)
    | exact lim_same hz rfl

@[simp] theorem lim_walkFrom (e : Nat) (r : RouteRec) (l : List (Nat × Nat)) (s : State) (hz : Limits s) :
    Limits (walkFrom e r l s) := by
  induction l generalizing s with
  | nil => exact hz
  | cons x l ih =>
    unfold walkFrom; repeat' split
    all_goals simp [hz, ih]

@[simp] theorem lim_walk (e : Nat) (s : State) (hz : Limits s) :
    Limits (walk e s) := by
  unfold walk; (try dsimp only); repeat' split
  all_goals first
    | (simp (maxDischargeDepth := 60) +contextual [hz]; done)
    | exact lim_same hz rfl

@[simp] theorem lim_reportRunning (e : Nat) (a : Active) (l : RouteState) (s : State) (hz : Limits s) :
    Limits (reportRunning e a l s) := by
  unfold reportRunning; (try dsimp only); repeat' split
  all_goals first
    | (simp (maxDischargeDepth := 60) +contextual [hz]; done)
    | exact lim_same hz rfl

@[simp] theorem lim_immediateEntry (e : Nat) (s : State) (hz : Limits s) :
    Limits (immediateEntry e s) := by
  unfold immediateEntry; (try dsimp only); repeat' split
  all_goals first
    | (simp (maxDischargeDepth := 60) +contextual [hz]; done)
    | exact lim_same hz rfl

@[simp] theorem lim_becomeSet (e : Nat) (l : RouteState) (s : State) (hz : Limits s) :
    Limits (becomeSet e l s) := by
  unfold becomeSet; (try dsimp only); repeat' split
  all_goals first
    | (simp (maxDischargeDepth := 60) +contextual [hz]; done)
    | exact lim_same hz rfl

@[simp] theorem lim_testProved (e : Nat) (s : State) (hz : Limits s) :
    Limits (testProved e s) := by
  unfold testProved; (try dsimp only); repeat' split
  all_goals first
    | (simp (maxDischargeDepth := 60) +contextual [hz]; done)
    | exact lim_same hz rfl

@[simp] theorem lim_holdRoute (e : Nat) (y : HeldCause) (i : Nat) (s : State) (hz : Limits s) :
    Limits (holdRoute e y i s) := by
  unfold holdRoute; (try dsimp only); repeat' split
  all_goals first
    | (simp (maxDischargeDepth := 60) +contextual [hz]; done)
    | exact lim_same hz rfl

@[simp] theorem lim_pointLost (p : Nat) (s : State) (hz : Limits s) :
    Limits (pointLost p s) := by
  unfold pointLost; (try dsimp only); repeat' split
  all_goals first
    | (simp (maxDischargeDepth := 60) +contextual [hz]; done)
    | exact lim_same hz rfl

@[simp] theorem lim_pointTested (p : Nat) (s : State) (hz : Limits s) :
    Limits (pointTested p s) := by
  unfold pointTested; (try dsimp only); repeat' split
  all_goals first
    | (simp (maxDischargeDepth := 60) +contextual [hz]; done)
    | exact lim_same hz rfl

@[simp] theorem lim_failRoute (p e : Nat) (s : State) (hz : Limits s) :
    Limits (failRoute p e s) := by
  unfold failRoute; (try dsimp only); repeat' split
  all_goals first
    | (simp (maxDischargeDepth := 60) +contextual [hz]; done)
    | exact lim_same hz rfl

@[simp] theorem lim_failRoutes (p : Nat) (s : State) (hz : Limits s) :
    Limits (failRoutes p s) := by
  unfold failRoutes; (try dsimp only); repeat' split
  all_goals first
    | (simp (maxDischargeDepth := 60) +contextual [hz]; done)
    | exact lim_same hz rfl

@[simp] theorem lim_routeOrderEnded (e p : Nat) (s : State) (hz : Limits s) :
    Limits (routeOrderEnded e p s) := by
  unfold routeOrderEnded; (try dsimp only); repeat' split
  all_goals first
    | (simp (maxDischargeDepth := 60) +contextual [hz]; done)
    | exact lim_same hz rfl

@[simp] theorem lim_enterRoute (e : Nat) (g : Option Nat) (s : State) (hz : Limits s) :
    Limits (enterRoute e g s) := by
  unfold enterRoute; (try dsimp only); repeat' split
  all_goals first
    | (simp (maxDischargeDepth := 60) +contextual [hz]; done)
    | exact lim_same hz rfl

@[simp] theorem lim_runningSection (e n : Nat) (r : RouteRec) (st : SectionState) (g : Option Nat) (s : State) (hz : Limits s) :
    Limits (runningSection e n r st g s) := by
  unfold runningSection; (try dsimp only); repeat' split
  all_goals first
    | (simp (maxDischargeDepth := 60) +contextual [hz]; done)
    | exact lim_same hz rfl

theorem lim_routeSection (n : Nat) (st : SectionState) (g : Option Nat) (acc : State × List EntryNote) (e : Nat)
    (hz : Limits acc.1) : Limits (routeSection n st g acc e).1 := by
  unfold routeSection; dsimp only; repeat' split
  all_goals simp [hz]

@[simp] theorem lim_routesSectionChange (n : Nat) (st : SectionState) (g : Option Nat) (s : State)
    (hz : Limits s) : Limits (routesSectionChange n st g s).1 := by
  unfold routesSectionChange
  generalize ([] : List EntryNote) = notes
  generalize Tbl.keys s.ilk.active = l
  suffices h : ∀ acc : State × List EntryNote, Limits acc.1 → Limits (l.foldl (routeSection n st g) acc).1 from
    h (s, notes) hz
  induction l with
  | nil => intro acc h; exact h
  | cons x l ih => intro acc h; rw [List.foldl_cons]; exact ih _ (lim_routeSection _ _ _ _ _ h)

@[simp] theorem lim_routesAllStop (s : State) (hz : Limits s) :
    Limits (routesAllStop s) := by
  unfold routesAllStop; (try dsimp only); repeat' split
  all_goals first
    | (simp (maxDischargeDepth := 60) +contextual [hz]; done)
    | exact lim_same hz rfl

@[simp] theorem lim_routesResume (s : State) (hz : Limits s) :
    Limits (routesResume s) := by
  unfold routesResume; (try dsimp only); repeat' split
  all_goals first
    | (simp (maxDischargeDepth := 60) +contextual [hz]; done)
    | exact lim_same hz rfl

/-! ## Points -/

@[simp] theorem lim_reportMoved (p : Nat) (l : DetLie) (o : Nat) (s : State) (hz : Limits s) :
    Limits (reportMoved p l o s) := by
  unfold reportMoved; (try dsimp only); repeat' split
  all_goals first
    | (simp (maxDischargeDepth := 60) +contextual [hz]; done)
    | exact lim_same hz rfl

@[simp] theorem lim_reportLost (p : Nat) (l : DetLie) (s : State) (hz : Limits s) :
    Limits (reportLost p l s) := by
  unfold reportLost; (try dsimp only); repeat' split
  all_goals first
    | (simp (maxDischargeDepth := 60) +contextual [hz]; done)
    | exact lim_same hz rfl

@[simp] theorem lim_lieChanged (p : Nat) (l : DetLie) (s : State) (hz : Limits s) : Limits (lieChanged p l s) := by
  unfold lieChanged; dsimp only; apply lim_pointTested; split
  · apply lim_wantReexam
    repeat' split
    all_goals simp (maxDischargeDepth := 60) [hz]
  · repeat' split
    all_goals simp (maxDischargeDepth := 60) [hz]

@[simp] theorem lim_rederive (p : Nat) (s : State) (hz : Limits s) :
    Limits (rederive p s) := by
  unfold rederive; (try dsimp only); repeat' split
  all_goals first
    | (simp (maxDischargeDepth := 60) +contextual [hz]; done)
    | exact lim_same hz rfl

@[simp] theorem lim_endOrder (p : Nat) (s : State) (hz : Limits s) : Limits (endOrder p s) := by
  unfold endOrder; dsimp only; apply lim_wantReexam
  have h : Limits { s with pts := { s.pts with drives := Tbl.erase s.pts.drives p } } := lim_same hz rfl
  split
  · exact lim_wantPass _ (lim_removeOrder _ _ h)
  · exact lim_removeOrder _ _ h

@[simp] theorem lim_orderArrived (p : Nat) (s : State) (hz : Limits s) : Limits (orderArrived p s) := by
  unfold orderArrived; split
  · dsimp only; apply lim_pointTested
    repeat' split
    all_goals simp (maxDischargeDepth := 60) [hz]
  · exact hz

@[simp] theorem lim_failPoint (p : Nat) (c : PointCause) (s : State) (hz : Limits s) :
    Limits (failPoint p c s) := by
  unfold failPoint; (try dsimp only); repeat' split
  all_goals first
    | (simp (maxDischargeDepth := 60) +contextual [hz]; done)
    | exact lim_same hz rfl

@[simp] theorem lim_orderFailed (p : Nat) (c : PointCause) (s : State) (hz : Limits s) : Limits (orderFailed p c s) := by
  unfold orderFailed; split
  · dsimp only; apply lim_failRoutes; split <;> simp (maxDischargeDepth := 60) [hz]
  · exact hz

@[simp] theorem lim_orderOccupied (p n : Nat) (s : State) (hz : Limits s) :
    Limits (orderOccupied p n s) := by
  unfold orderOccupied; (try dsimp only); repeat' split
  all_goals first
    | (simp (maxDischargeDepth := 60) +contextual [hz]; done)
    | exact lim_same hz rfl

@[simp] theorem lim_startPulse (p : Nat) (o : Order) (s : State) (hz : Limits s) : Limits (startPulse p o s) := by
  unfold startPulse; dsimp only; apply lim_rederive; apply lim_changeOrder; apply lim_setUnit; exact lim_same hz rfl

@[simp] theorem lim_startTravel (p : Nat) (o : Order) (r : PointRec) (s : State) (hz : Limits s) :
    Limits (startTravel p o r s) := by
  unfold startTravel; dsimp only; apply lim_rederive; apply lim_changeOrder; exact lim_same hz rfl

@[simp] theorem lim_dispatchQueued (p : Nat) (o : Order) (r : PointRec) (s : State) (hz : Limits s) :
    Limits (dispatchQueued p o r s) := by
  unfold dispatchQueued; (try dsimp only); repeat' split
  all_goals first
    | (simp (maxDischargeDepth := 60) +contextual [hz]; done)
    | exact lim_same hz rfl

@[simp] theorem lim_dispatchOne (p : Nat) (s : State) (hz : Limits s) :
    Limits (dispatchOne p s) := by
  unfold dispatchOne; (try dsimp only); repeat' split
  all_goals first
    | (simp (maxDischargeDepth := 60) +contextual [hz]; done)
    | exact lim_same hz rfl

@[simp] theorem lim_dispatcherPass (s : State) (hz : Limits s) :
    Limits (dispatcherPass s) := by
  unfold dispatcherPass; (try dsimp only); repeat' split
  all_goals first
    | (simp (maxDischargeDepth := 60) +contextual [hz]; done)
    | exact lim_same hz rfl

@[simp] theorem lim_contactChanged (p : Nat) (s : State) (hz : Limits s) :
    Limits (contactChanged p s) := by
  unfold contactChanged; (try dsimp only); repeat' split
  all_goals first
    | (simp (maxDischargeDepth := 60) +contextual [hz]; done)
    | exact lim_same hz rfl

@[simp] theorem lim_startRecharge (s : State) (hz : Limits s) :
    Limits (startRecharge s) := by
  unfold startRecharge; (try dsimp only); repeat' split
  all_goals first
    | (simp (maxDischargeDepth := 60) +contextual [hz]; done)
    | exact lim_same hz rfl

@[simp] theorem lim_pulseEnded (p : Nat) (s : State) (hz : Limits s) :
    Limits (pulseEnded p s) := by
  unfold pulseEnded; (try dsimp only); repeat' split
  all_goals first
    | (simp (maxDischargeDepth := 60) +contextual [hz]; done)
    | exact lim_same hz rfl

@[simp] theorem lim_pulseExpires (s : State) (hz : Limits s) :
    Limits (pulseExpires s) := by
  unfold pulseExpires; (try dsimp only); repeat' split
  all_goals first
    | (simp (maxDischargeDepth := 60) +contextual [hz]; done)
    | exact lim_same hz rfl

@[simp] theorem lim_moveToHead (p : Nat) (s : State) (hz : Limits s) : Limits (moveToHead p s) := by
  have h : ∀ l : List Order, ((l.filter fun o => o.point == p) ++ (l.filter fun o => o.point != p)).length = l.length := by
    intro l
    induction l with
    | nil => rfl
    | cons x l ih =>
      simp only [List.length_append] at ih ⊢
      by_cases hx : x.point = p
      · simp [hx] at ih ⊢; omega
      · simp [hx] at ih ⊢; omega
  unfold moveToHead; exact lim_setOrders _ _ _ (by rw [h]; exact hz.queue) hz

@[simp] theorem lim_windowExpires (p : Nat) (s : State) (hz : Limits s) :
    Limits (windowExpires p s) := by
  unfold windowExpires; (try dsimp only); repeat' split
  all_goals first
    | (simp (maxDischargeDepth := 60) +contextual [hz]; done)
    | exact lim_same hz rfl

@[simp] theorem lim_rechargeExpires (s : State) (hz : Limits s) :
    Limits (rechargeExpires s) := by
  unfold rechargeExpires; (try dsimp only); repeat' split
  all_goals first
    | (simp (maxDischargeDepth := 60) +contextual [hz]; done)
    | exact lim_same hz rfl

@[simp] theorem lim_travelExpires (p : Nat) (s : State) (hz : Limits s) :
    Limits (travelExpires p s) := by
  unfold travelExpires; (try dsimp only); repeat' split
  all_goals first
    | (simp (maxDischargeDepth := 60) +contextual [hz]; done)
    | exact lim_same hz rfl

@[simp] theorem lim_lossExpires (p : Nat) (s : State) (hz : Limits s) :
    Limits (lossExpires p s) := by
  unfold lossExpires; (try dsimp only); repeat' split
  all_goals first
    | (simp (maxDischargeDepth := 60) +contextual [hz]; done)
    | exact lim_same hz rfl

@[simp] theorem lim_movePoint (n p l : Nat) (s : State) (hz : Limits s) :
    Limits (movePoint n p l s) := by
  unfold movePoint; (try dsimp only); repeat' split
  all_goals first
    | (simp (maxDischargeDepth := 60) +contextual [hz]; done)
    | exact lim_same hz rfl

@[simp] theorem lim_restore (p : Nat) (s : State) (hz : Limits s) :
    Limits (restore p s) := by
  unfold restore; (try dsimp only); repeat' split
  all_goals first
    | (simp (maxDischargeDepth := 60) +contextual [hz]; done)
    | exact lim_same hz rfl

@[simp] theorem lim_restorePoint (n p : Nat) (s : State) (hz : Limits s) :
    Limits (restorePoint n p s) := by
  unfold restorePoint; (try dsimp only); repeat' split
  all_goals first
    | (simp (maxDischargeDepth := 60) +contextual [hz]; done)
    | exact lim_same hz rfl

/-! ## Route requests -/

@[simp] theorem lim_acceptRoute (r : Nat) (o : Originator) (src : Source) (s : State) (hz : Limits s) :
    Limits (acceptRoute r o src s) := by
  unfold acceptRoute; (try dsimp only); repeat' split
  all_goals first
    | (simp (maxDischargeDepth := 60) +contextual [hz]; done)
    | exact lim_same hz rfl

/-- The stack set to one that has a place for each entry. -/
theorem lim_setStack (l : List StackEntry) (s : State) (hl : l.length ≤ Config.numStack) (hz : Limits s) :
    Limits (setStack l s) := by
  unfold setStack; apply lim_mirrorStack; exact lim_ilk _ _ hl hz

theorem placeEntry_length (x : StackEntry) (l : List StackEntry) : (placeEntry x l).length = l.length + 1 := by
  induction l with
  | nil => rfl
  | cons y l ih => unfold placeEntry; split <;> simp [ih]

theorem lim_joinStack (r : Nat) (o : Originator) (src : Source) (a : Answer) (s : State)
    (hl : s.ilk.stack.length < Config.numStack) (hz : Limits s) : Limits (joinStack r o src a s) := by
  unfold joinStack; dsimp only; exact lim_setStack _ _ (by rw [placeEntry_length]; omega) hz

@[simp] theorem lim_leaveStack (r : Nat) (s : State) (hz : Limits s) : Limits (leaveStack r s) := by
  unfold leaveStack; exact lim_setStack _ _ (le_trans (List.length_filter_le _ _) hz.stack) hz

@[simp] theorem lim_requestRoute (r : Nat) (o : Originator) (b : Bool) (src : Source) (s : State) (hz : Limits s) :
    Limits (requestRoute r o b src s).1 := by
  unfold requestRoute; repeat' split
  · simp [hz]
  · exact hz
  · exact lim_joinStack _ _ _ _ _ (by assumption) hz
  · exact hz

@[simp] theorem lim_setRoute (n r w1 w2 : Nat) (s : State) (hz : Limits s) : Limits (setRoute n r w1 w2 s) := by
  unfold setRoute; split
  · simp [hz]
  · split
    · simp [hz]
    · rename_i o _ _
      have h := lim_requestRoute r o (bitsOf w2 0 1 == 1) (.slot n) s hz
      split <;> rename_i heq <;> rw [heq] at h
      · exact h
      · exact lim_complete _ _ _ _ _ h

@[simp] theorem lim_answerStacked (x : StackEntry) (a : Answer) (s : State) (hz : Limits s) :
    Limits (answerStacked x a s) := by
  unfold answerStacked; (try dsimp only); repeat' split
  all_goals first
    | (simp (maxDischargeDepth := 60) +contextual [hz]; done)
    | exact lim_same hz rfl

@[simp] theorem lim_keepStacked (x : StackEntry) (a : Answer) (s : State) (hz : Limits s) : Limits (keepStacked x a s) := by
  unfold keepStacked; split
  · exact hz
  · exact lim_setStack _ _ (by simpa using hz.stack) hz

@[simp] theorem lim_reexamineOne (r : Nat) (s : State) (hz : Limits s) :
    Limits (reexamineOne r s) := by
  unfold reexamineOne; (try dsimp only); repeat' split
  all_goals first
    | (simp (maxDischargeDepth := 60) +contextual [hz]; done)
    | exact lim_same hz rfl

@[simp] theorem lim_reexamine (s : State) (hz : Limits s) :
    Limits (reexamine s) := by
  unfold reexamine; (try dsimp only); repeat' split
  all_goals first
    | (simp (maxDischargeDepth := 60) +contextual [hz]; done)
    | exact lim_same hz rfl

@[simp] theorem lim_stackExpires (r : Nat) (s : State) (hz : Limits s) :
    Limits (stackExpires r s) := by
  unfold stackExpires; (try dsimp only); repeat' split
  all_goals first
    | (simp (maxDischargeDepth := 60) +contextual [hz]; done)
    | exact lim_same hz rfl

@[simp] theorem lim_removeShowEntries (sh : Nat) (s : State) (hz : Limits s) : Limits (removeShowEntries sh s) := by
  unfold removeShowEntries; split
  · exact lim_setStack _ _ (le_trans (List.length_filter_le _ _) hz.stack) hz
  · exact hz

@[simp] theorem lim_cancelSetting (e : Nat) (a : Active) (s : State) (hz : Limits s) :
    Limits (cancelSetting e a s) := by
  unfold cancelSetting; (try dsimp only); repeat' split
  all_goals first
    | (simp (maxDischargeDepth := 60) +contextual [hz]; done)
    | exact lim_same hz rfl

@[simp] theorem lim_giveUp (e : Nat) (w : Ending) (s : State) (hz : Limits s) :
    Limits (giveUp e w s) := by
  unfold giveUp; (try dsimp only); repeat' split
  all_goals first
    | (simp (maxDischargeDepth := 60) +contextual [hz]; done)
    | exact lim_same hz rfl

@[simp] theorem lim_cancelSet (e : Nat) (a : Active) (s : State) (hz : Limits s) :
    Limits (cancelSet e a s) := by
  unfold cancelSet; (try dsimp only); repeat' split
  all_goals first
    | (simp (maxDischargeDepth := 60) +contextual [hz]; done)
    | exact lim_same hz rfl

@[simp] theorem lim_cancelRoute (r : Nat) (b : Bool) (s : State) (hz : Limits s) :
    Limits ((cancelRoute r b s).1) := by
  unfold cancelRoute; (try dsimp only); repeat' split
  all_goals first
    | (simp (maxDischargeDepth := 60) +contextual [hz]; done)
    | exact lim_same hz rfl

@[simp] theorem lim_cancelRequest (n r : Nat) (s : State) (hz : Limits s) :
    Limits (cancelRequest n r s) := by
  unfold cancelRequest; (try dsimp only); repeat' split
  all_goals first
    | (simp (maxDischargeDepth := 60) +contextual [hz]; done)
    | exact lim_same hz rfl

@[simp] theorem lim_overlapExpires (e : Nat) (s : State) (hz : Limits s) :
    Limits (overlapExpires e s) := by
  unfold overlapExpires; (try dsimp only); repeat' split
  all_goals first
    | (simp (maxDischargeDepth := 60) +contextual [hz]; done)
    | exact lim_same hz rfl

@[simp] theorem lim_approachExpires (e : Nat) (s : State) (hz : Limits s) :
    Limits (approachExpires e s) := by
  unfold approachExpires; (try dsimp only); repeat' split
  all_goals first
    | (simp (maxDischargeDepth := 60) +contextual [hz]; done)
    | exact lim_same hz rfl

end Sys2Proof.Machine
end

