-- ==== Sys2Proof/Laws/LimitsPanel.lean ====
section
/-! SUPPORT. The turntable, the shows, the display and the end of a handling keep everything within its bounds. -/

set_option linter.unusedTactic false
set_option linter.unreachableTactic false

namespace Sys2Proof.Machine

/-! ## The turntable -/

@[simp] theorem quiet_deck (t : Turntable) : t.quiet.deck = t.deck := rfl

@[simp] theorem quiet_pos (t : Turntable) : t.quiet.pos = t.pos := rfl

/-- The deck changed, its position still within its counts. -/
theorem lim_deck (f : Turntable → Turntable) (s : State) (hf : deckSound (f s.tt)) (hz : Limits s) :
    Limits (setDeck f s) := by
  unfold setDeck; apply lim_mirrorTable; exact lim_same (lim_tt s (f s.tt) hf hz) rfl

@[simp] theorem lim_setDeck (f : Turntable → Turntable) (s : State) (h1 : (f s.tt).deck = s.tt.deck)
    (h2 : (f s.tt).pos = s.tt.pos) (hz : Limits s) : Limits (setDeck f s) := by
  refine lim_deck f s ?_ hz
  unfold deckSound; rw [h1, h2]; exact hz.deck

@[simp] theorem lim_quiet (s : State) (hz : Limits s) : Limits (setDeck (fun t => t.quiet) s) :=
  lim_setDeck _ _ rfl rfl hz

/-- The position given up. -/
theorem lim_noPos (f : Turntable → Turntable) (s : State) (h1 : (f s.tt).deck = s.tt.deck)
    (h2 : (f s.tt).pos = none) (hz : Limits s) : Limits (setDeck f s) := by
  refine lim_deck f s ?_ hz
  unfold deckSound; rw [h1, h2]
  exact fun d hd => ⟨(hz.deck d hd).1, fun p hp => by cases hp⟩

@[simp] theorem lim_updateFeed (s : State) (hz : Limits s) :
    Limits (updateFeed s) := by
  unfold updateFeed; (try dsimp only); repeat' split
  all_goals first
    | (simp (maxDischargeDepth := 60) +contextual [hz]; done)
    | exact lim_same hz rfl

@[simp] theorem lim_enterDeck (n : DeckState) (s : State) (hz : Limits s) : Limits (enterDeck n s) := by
  have h : Limits (updateFeed { s with tt := { s.tt with state := n } }) := lim_updateFeed _ (lim_same hz rfl)
  unfold enterDeck; dsimp only; apply lim_report; split <;> simp [h]

@[simp] theorem lim_answerRequester (r : Result) (w0 w1 : Nat) (s : State) (hz : Limits s) :
    Limits (answerRequester r w0 w1 s) := by
  unfold answerRequester; (try dsimp only); repeat' split
  all_goals first
    | (simp (maxDischargeDepth := 60) +contextual [hz]; done)
    | exact lim_same hz rfl

@[simp] theorem lim_enterFault (c : FaultCause) (s : State) (hz : Limits s) :
    Limits (enterFault c s) := by
  unfold enterFault; (try dsimp only); repeat' split
  all_goals first
    | (simp (maxDischargeDepth := 60) +contextual [hz]; done)
    | exact lim_same hz rfl

@[simp] theorem lim_enterHalted (s : State) (hz : Limits s) :
    Limits (enterHalted s) := by
  unfold enterHalted; (try dsimp only); repeat' split
  all_goals first
    | (simp (maxDischargeDepth := 60) +contextual [hz]; done)
    | exact lim_same hz rfl

@[simp] theorem lim_enterUnreferenced (s : State) (hz : Limits s) : Limits (enterUnreferenced s) := by
  unfold enterUnreferenced; apply lim_enterDeck; exact lim_noPos _ _ rfl rfl hz

@[simp] theorem lim_takeAlignment (x : RoadEnd) (s : State) (hz : Limits s) :
    Limits (takeAlignment x s) := by
  unfold takeAlignment; (try dsimp only); repeat' split
  all_goals first
    | (simp (maxDischargeDepth := 60) +contextual [hz]; done)
    | exact lim_same hz rfl

@[simp] theorem lim_enterAligned (s : State) (hz : Limits s) :
    Limits (enterAligned s) := by
  unfold enterAligned; (try dsimp only); repeat' split
  all_goals first
    | (simp (maxDischargeDepth := 60) +contextual [hz]; done)
    | exact lim_same hz rfl

@[simp] theorem lim_enterBolting (d : DeckRec) (s : State) (hz : Limits s) :
    Limits (enterBolting d s) := by
  unfold enterBolting; (try dsimp only); repeat' split
  all_goals first
    | (simp (maxDischargeDepth := 60) +contextual [hz]; done)
    | exact lim_same hz rfl

@[simp] theorem lim_enterSettling (d : DeckRec) (s : State) (hz : Limits s) :
    Limits (enterSettling d s) := by
  unfold enterSettling; (try dsimp only); repeat' split
  all_goals first
    | (simp (maxDischargeDepth := 60) +contextual [hz]; done)
    | exact lim_same hz rfl

@[simp] theorem lim_planMove (d : DeckRec) (g : Nat) (s : State) (hz : Limits s) :
    Limits (planMove d g s) := by
  unfold planMove; (try dsimp only); repeat' split
  all_goals first
    | (simp (maxDischargeDepth := 60) +contextual [hz]; done)
    | exact lim_same hz rfl

@[simp] theorem lim_beginLeg (d : DeckRec) (s : State) (hz : Limits s) :
    Limits (beginLeg d s) := by
  unfold beginLeg; (try dsimp only); repeat' split
  all_goals first
    | (simp (maxDischargeDepth := 60) +contextual [hz]; done)
    | exact lim_same hz rfl

@[simp] theorem lim_enterMoving (d : DeckRec) (s : State) (hz : Limits s) :
    Limits (enterMoving d s) := by
  unfold enterMoving; (try dsimp only); repeat' split
  all_goals first
    | (simp (maxDischargeDepth := 60) +contextual [hz]; done)
    | exact lim_same hz rfl

@[simp] theorem lim_snapDecision (d : DeckRec) (s : State) (hz : Limits s) :
    Limits (snapDecision d s) := by
  unfold snapDecision; (try dsimp only); repeat' split
  all_goals first
    | (simp (maxDischargeDepth := 60) +contextual [hz]; done)
    | exact lim_same hz rfl

@[simp] theorem lim_enterStopping (d : DeckRec) (s : State) (hz : Limits s) :
    Limits (enterStopping d s) := by
  unfold enterStopping; (try dsimp only); repeat' split
  all_goals first
    | (simp (maxDischargeDepth := 60) +contextual [hz]; done)
    | exact lim_same hz rfl

@[simp] theorem lim_enterJogging (d : DeckRec) (s : State) (hz : Limits s) :
    Limits (enterJogging d s) := by
  unfold enterJogging; (try dsimp only); repeat' split
  all_goals first
    | (simp (maxDischargeDepth := 60) +contextual [hz]; done)
    | exact lim_same hz rfl

@[simp] theorem lim_enterHoming (d : DeckRec) (s : State) (hz : Limits s) :
    Limits (enterHoming d s) := by
  unfold enterHoming
  exact lim_enterDeck _ _ (lim_setDeck _ _ rfl rfl (lim_useFree _ hz))

@[simp] theorem lim_endUnbolting (d : DeckRec) (s : State) (hz : Limits s) :
    Limits (endUnbolting d s) := by
  unfold endUnbolting; (try dsimp only); repeat' split
  all_goals first
    | (simp (maxDischargeDepth := 60) +contextual [hz]; done)
    | exact lim_same hz rfl

@[simp] theorem lim_enterUnbolting (d : DeckRec) (s : State) (hz : Limits s) :
    Limits (enterUnbolting d s) := by
  unfold enterUnbolting; (try dsimp only); repeat' split
  all_goals first
    | (simp (maxDischargeDepth := 60) +contextual [hz]; done)
    | exact lim_same hz rfl

@[simp] theorem lim_turnAccepted (d : DeckRec) (q : Requester) (x : RoadEnd) (s : State) (hz : Limits s) :
    Limits ((turnAccepted d q x s).1) := by
  unfold turnAccepted; (try dsimp only); repeat' split
  all_goals first
    | (simp (maxDischargeDepth := 60) +contextual [hz]; done)
    | exact lim_same hz rfl

@[simp] theorem lim_turnRequest (q : Requester) (r e : Nat) (s : State) (hz : Limits s) :
    Limits ((turnRequest q r e s).1) := by
  unfold turnRequest; (try dsimp only); repeat' split
  all_goals first
    | (simp (maxDischargeDepth := 60) +contextual [hz]; done)
    | exact lim_same hz rfl

@[simp] theorem lim_turnTable (n r e : Nat) (s : State) (hz : Limits s) : Limits (turnTable n r e s) := by
  have h := lim_turnRequest (.slot n) r e s hz
  unfold turnTable; split <;> rename_i heq <;> rw [heq] at h
  · exact h
  · exact lim_complete _ _ _ _ _ h

@[simp] theorem lim_homeAccepted (d : DeckRec) (n : Nat) (x : RoadEnd) (s : State) (hz : Limits s) :
    Limits (homeAccepted d n x s) := by
  unfold homeAccepted; dsimp only; split
  · apply lim_enterHoming; exact lim_noPos _ _ rfl rfl hz
  · apply lim_enterUnbolting; exact lim_noPos _ _ rfl rfl hz

@[simp] theorem lim_homeTable (n r e : Nat) (s : State) (hz : Limits s) :
    Limits (homeTable n r e s) := by
  unfold homeTable; (try dsimp only); repeat' split
  all_goals first
    | (simp (maxDischargeDepth := 60) +contextual [hz]; done)
    | exact lim_same hz rfl

@[simp] theorem lim_stopTable (n : Nat) (s : State) (hz : Limits s) :
    Limits (stopTable n s) := by
  unfold stopTable; (try dsimp only); repeat' split
  all_goals first
    | (simp (maxDischargeDepth := 60) +contextual [hz]; done)
    | exact lim_same hz rfl

@[simp] theorem lim_nextStep (v : Nat) (s : State) (hz : Limits s) :
    Limits (nextStep v s) := by
  unfold nextStep; (try dsimp only); repeat' split
  all_goals first
    | (simp (maxDischargeDepth := 60) +contextual [hz]; done)
    | exact lim_same hz rfl

@[simp] theorem lim_legEnds (d : DeckRec) (s : State) (hz : Limits s) :
    Limits (legEnds d s) := by
  unfold legEnds; (try dsimp only); repeat' split
  all_goals first
    | (simp (maxDischargeDepth := 60) +contextual [hz]; done)
    | exact lim_same hz rfl

@[simp] theorem lim_legBoundary (d : DeckRec) (s : State) (hz : Limits s) :
    Limits (legBoundary d s) := by
  unfold legBoundary; (try dsimp only); repeat' split
  all_goals first
    | (simp (maxDischargeDepth := 60) +contextual [hz]; done)
    | exact lim_same hz rfl

@[simp] theorem lim_stopBoundary (d : DeckRec) (v : Nat) (s : State) (hz : Limits s) :
    Limits (stopBoundary d v s) := by
  unfold stopBoundary; (try dsimp only); repeat' split
  all_goals first
    | (simp (maxDischargeDepth := 60) +contextual [hz]; done)
    | exact lim_same hz rfl

@[simp] theorem lim_jogBoundary (d : DeckRec) (s : State) (hz : Limits s) :
    Limits (jogBoundary d s) := by
  unfold jogBoundary; (try dsimp only); repeat' split
  all_goals first
    | (simp (maxDischargeDepth := 60) +contextual [hz]; done)
    | exact lim_same hz rfl

theorem setDeck_deck (f : Turntable → Turntable) (s : State) : (setDeck f s).tt = f s.tt := by
  have hw : ∀ (b n k v : Nat) (u : State), (u.writeWord b n k v).tt = u.tt := by
    intro b n k v u; unfold State.writeWord State.write32; split
    · split <;> rfl
    · rfl
  have hm : ∀ u : State, (mirrorTable u).tt = u.tt := by
    intro u; unfold mirrorTable; split <;> simp [writeTable, eachDo, List.range, List.range.loop, hw]
  unfold setDeck; rw [hm]

@[simp] theorem lim_homingBoundary (d : DeckRec) (b i : Bool) (s : State) (hd : s.tt.deck = some d) (hz : Limits s) :
    Limits (homingBoundary d b i s) := by
  have h1 : Limits (setDeck (fun t => { t with search := t.search + 1 }) s) := lim_setDeck _ _ rfl rfl hz
  have e1 : (setDeck (fun t => { t with search := t.search + 1 }) s).tt.deck = some d := by
    rw [setDeck_deck]; exact hd
  unfold homingBoundary; dsimp only
  generalize (setDeck (fun t => { t with search := t.search + 1 }) s) = u at h1 e1
  split
  · have h2 : Limits (setDeck (fun t => { t.quiet with pos := some d.indexOffset }) u) := by
      refine lim_deck _ _ ?_ h1
      intro d' hd'
      have hd2 : u.tt.deck = some d' := hd'
      obtain ⟨g1, _⟩ := h1.deck d' hd2
      rw [e1] at hd2; cases hd2
      exact ⟨g1, fun p hp => by cases hp; exact g1⟩
    generalize setDeck (fun t => { t.quiet with pos := some d.indexOffset }) u = v at h2 ⊢
    repeat' split
    all_goals simp [h2]
  · split
    · simp [h1]
    · simp [h1]

@[simp] theorem lim_boundary (i : Bool) (s : State) (hz : Limits s) : Limits (boundary i s) := by
  unfold boundary; split
  · rename_i d g hd _
    have h : Limits (setDeck (fun t =>
        { t with lastIndex := i, stepOut := false, pos := t.pos.map (stepFrom d.c t.legCw) }) s) := by
      refine lim_deck _ _ ?_ hz
      intro d' hd'
      have hd2 : s.tt.deck = some d' := hd'
      obtain ⟨g1, _⟩ := hz.deck d' hd2
      rw [hd] at hd2; cases hd2
      refine ⟨g1, fun p hp => ?_⟩
      have hp2 : s.tt.pos.map (stepFrom d.c s.tt.legCw) = some p := hp
      cases hq : s.tt.pos with
      | none => rw [hq] at hp2; cases hp2
      | some q =>
        rw [hq] at hp2; cases hp2
        unfold stepFrom; split <;> exact Nat.mod_lt _ (by omega)
    have e : (setDeck (fun t =>
        { t with lastIndex := i, stepOut := false, pos := t.pos.map (stepFrom d.c t.legCw) }) s).tt.deck = some d := by
      rw [setDeck_deck]; exact hd
    dsimp only; repeat' split
    all_goals first
      | exact lim_homingBoundary _ _ _ _ e h
      | simp [h]
  · exact hz

@[simp] theorem lim_stepActive (s : State) (hz : Limits s) :
    Limits (stepActive s) := by
  unfold stepActive; (try dsimp only); repeat' split
  all_goals first
    | exact lim_mirrorTable _ (lim_same hz rfl)
    | exact hz

@[simp] theorem lim_boltContactChanged (s : State) (hz : Limits s) :
    Limits (boltContactChanged s) := by
  unfold boltContactChanged; (try dsimp only); repeat' split
  all_goals first
    | (simp (maxDischargeDepth := 60) +contextual [hz]; done)
    | exact lim_same hz rfl

@[simp] theorem lim_boltExpires (s : State) (hz : Limits s) :
    Limits (boltExpires s) := by
  unfold boltExpires; (try dsimp only); repeat' split
  all_goals first
    | (simp (maxDischargeDepth := 60) +contextual [hz]; done)
    | exact lim_same hz rfl

@[simp] theorem lim_settleExpires (s : State) (hz : Limits s) :
    Limits (settleExpires s) := by
  unfold settleExpires; (try dsimp only); repeat' split
  all_goals first
    | (simp (maxDischargeDepth := 60) +contextual [hz]; done)
    | exact lim_same hz rfl

@[simp] theorem lim_jogPress (c : Bool) (s : State) (hz : Limits s) :
    Limits (jogPress c s) := by
  unfold jogPress; (try dsimp only); repeat' split
  all_goals first
    | (simp (maxDischargeDepth := 60) +contextual [hz]; done)
    | exact lim_same hz rfl

@[simp] theorem lim_releaseJog (s : State) (hz : Limits s) :
    Limits (releaseJog s) := by
  unfold releaseJog; (try dsimp only); repeat' split
  all_goals first
    | (simp (maxDischargeDepth := 60) +contextual [hz]; done)
    | exact lim_same hz rfl

@[simp] theorem lim_jogButtonReleased (c : Bool) (s : State) (hz : Limits s) :
    Limits (jogButtonReleased c s) := by
  unfold jogButtonReleased; (try dsimp only); repeat' split
  all_goals first
    | (simp (maxDischargeDepth := 60) +contextual [hz]; done)
    | exact lim_same hz rfl

@[simp] theorem lim_jogHoldExpires (s : State) (hz : Limits s) :
    Limits (jogHoldExpires s) := by
  unfold jogHoldExpires; (try dsimp only); repeat' split
  all_goals first
    | (simp (maxDischargeDepth := 60) +contextual [hz]; done)
    | exact lim_same hz rfl

@[simp] theorem lim_deckSectionLeft (n : Nat) (s : State) (hz : Limits s) :
    Limits (deckSectionLeft n s) := by
  unfold deckSectionLeft; (try dsimp only); repeat' split
  all_goals first
    | (simp (maxDischargeDepth := 60) +contextual [hz]; done)
    | exact lim_same hz rfl

@[simp] theorem lim_deckAllStop (s : State) (hz : Limits s) :
    Limits (deckAllStop s) := by
  unfold deckAllStop; (try dsimp only); repeat' split
  all_goals first
    | (simp (maxDischargeDepth := 60) +contextual [hz]; done)
    | exact lim_same hz rfl

/-! ## Shows -/

@[simp] theorem lim_loadIdle (t : Nat) (s : State) (hz : Limits s) :
    Limits (loadIdle t s) := by
  unfold loadIdle; (try dsimp only); repeat' split
  all_goals first
    | (simp (maxDischargeDepth := 60) +contextual [hz]; done)
    | exact lim_same hz rfl

@[simp] theorem lim_stopIdle (s : State) (hz : Limits s) :
    Limits (stopIdle s) := by
  unfold stopIdle; (try dsimp only); repeat' split
  all_goals first
    | (simp (maxDischargeDepth := 60) +contextual [hz]; done)
    | exact lim_same hz rfl

@[simp] theorem lim_changePanel (p : Panel) (c i : Nat) (s : State) (hz : Limits s) :
    Limits (changePanel p c i s) := by
  unfold changePanel; (try dsimp only); repeat' split
  all_goals first
    | (simp (maxDischargeDepth := 60) +contextual [hz]; done)
    | exact lim_same hz rfl

@[simp] theorem lim_idleExpires (s : State) (hz : Limits s) :
    Limits (idleExpires s) := by
  unfold idleExpires; (try dsimp only); repeat' split
  all_goals first
    | (simp (maxDischargeDepth := 60) +contextual [hz]; done)
    | exact lim_same hz rfl

@[simp] theorem lim_wakeByPress (b : Nat) (s : State) (hz : Limits s) :
    Limits (wakeByPress b s) := by
  unfold wakeByPress; (try dsimp only); repeat' split
  all_goals first
    | (simp (maxDischargeDepth := 60) +contextual [hz]; done)
    | exact lim_same hz rfl

@[simp] theorem lim_startCoolDown (n : Nat) (s : State) (hz : Limits s) :
    Limits (startCoolDown n s) := by
  unfold startCoolDown; (try dsimp only); repeat' split
  all_goals first
    | (simp (maxDischargeDepth := 60) +contextual [hz]; done)
    | exact lim_same hz rfl

@[simp] theorem lim_runnerIdle (n : Nat) (o : ShowOutcome) (s : State) (hz : Limits s) :
    Limits (runnerIdle n o s) := by
  unfold runnerIdle; (try dsimp only); repeat' split
  all_goals first
    | (simp (maxDischargeDepth := 60) +contextual [hz]; done)
    | exact lim_same hz rfl

@[simp] theorem lim_reportEnded (r : Runner) (o : ShowOutcome) (x w : Nat) (s : State) (hz : Limits s) :
    Limits (reportEnded r o x w s) := by
  unfold reportEnded; (try dsimp only); repeat' split
  all_goals first
    | (simp (maxDischargeDepth := 60) +contextual [hz]; done)
    | exact lim_same hz rfl

@[simp] theorem lim_endShow (r : Runner) (s : State) (hz : Limits s) :
    Limits (endShow r s) := by
  unfold endShow; (try dsimp only); repeat' split
  all_goals first
    | (simp (maxDischargeDepth := 60) +contextual [hz]; done)
    | exact lim_same hz rfl

@[simp] theorem lim_abortRoute (n : Nat) (s : State) (hz : Limits s) :
    Limits (abortRoute n s) := by
  unfold abortRoute; (try dsimp only); repeat' split
  all_goals first
    | (simp (maxDischargeDepth := 60) +contextual [hz]; done)
    | exact lim_same hz rfl

@[simp] theorem lim_abortShow (o : ShowOutcome) (x w : Nat) (s : State) (hz : Limits s) :
    Limits (abortShow o x w s) := by
  unfold abortShow; (try dsimp only); repeat' split
  all_goals first
    | (simp (maxDischargeDepth := 60) +contextual [hz]; done)
    | exact lim_same hz rfl

@[simp] theorem lim_enterWait (r : Runner) (p : StepPhase) (l : Nat) (s : State) (hz : Limits s) :
    Limits (enterWait r p l s) := by
  unfold enterWait; (try dsimp only); repeat' split
  all_goals first
    | (simp (maxDischargeDepth := 60) +contextual [hz]; done)
    | exact lim_same hz rfl

@[simp] theorem lim_endStep (e : StepEnd) (s : State) (hz : Limits s) :
    Limits (endStep e s) := by
  unfold endStep; (try dsimp only); repeat' split
  all_goals first
    | (simp (maxDischargeDepth := 60) +contextual [hz]; done)
    | exact lim_same hz rfl

@[simp] theorem lim_refuseStep (a : Answer) (s : State) (hz : Limits s) :
    Limits (refuseStep a s) := by
  unfold refuseStep; (try dsimp only); repeat' split
  all_goals first
    | (simp (maxDischargeDepth := 60) +contextual [hz]; done)
    | exact lim_same hz rfl

@[simp] theorem lim_beginWaitSection (r : Runner) (n : Nat) (o : Bool) (l : Nat) (s : State) (hz : Limits s) :
    Limits (beginWaitSection r n o l s) := by
  unfold beginWaitSection; (try dsimp only); repeat' split
  all_goals first
    | (simp (maxDischargeDepth := 60) +contextual [hz]; done)
    | exact lim_same hz rfl

@[simp] theorem lim_cancelStepEnds (a : Answer) (s : State) (hz : Limits s) :
    Limits (cancelStepEnds a s) := by
  unfold cancelStepEnds; (try dsimp only); repeat' split
  all_goals first
    | (simp (maxDischargeDepth := 60) +contextual [hz]; done)
    | exact lim_same hz rfl

@[simp] theorem lim_cancelStep (route : Nat) (s : State) (hz : Limits s) : Limits (cancelStep route s) := by
  unfold cancelStep; split
  · exact lim_cancelStepEnds _ _ (lim_cancelRoute route true s hz)
  · exact lim_refuseStep _ _ hz

@[simp] theorem lim_beginStepOf (r : Runner) (s : State) (hz : Limits s) : Limits (beginStepOf r s) := by
  unfold beginStepOf; split
  · exact hz
  · rename_i route limit _
    have h := lim_requestRoute route .visitor true (.show_ r.show_) _ (lim_enterWait r .waitRoute limit s hz)
    split <;> rename_i heq <;> rw [heq] at h
    · exact h
    · exact lim_refuseStep _ _ h
  · exact lim_cancelStep _ _ hz
  · rename_i x _
    have h := lim_turnRequest (.show_ r.show_) x.road (if x.deckEnd = .a then 0 else 1) _
      (lim_enterWait r .waitTable 0 s hz)
    split <;> rename_i heq <;> rw [heq] at h
    · exact h
    · split
      · exact lim_endStep _ _ h
      · exact lim_refuseStep _ _ h
  · exact lim_beginWaitSection _ _ _ _ _ hz
  · exact lim_enterWait _ _ _ _ hz

@[simp] theorem lim_afterStep (e : StepEnd) (s : State) (hz : Limits s) :
    Limits (afterStep e s) := by
  unfold afterStep; (try dsimp only); repeat' split
  all_goals first
    | (simp (maxDischargeDepth := 60) +contextual [hz]; done)
    | exact lim_same hz rfl

@[simp] theorem lim_runSteps (n : Nat) (s : State) (hz : Limits s) : Limits (runSteps n s) := by
  induction n generalizing s with
  | zero => exact hz
  | succ n ih => unfold runSteps; split <;> simp [ih, hz]

@[simp] theorem lim_runVisitor (s : State) (hz : Limits s) :
    Limits (runVisitor s) := by
  unfold runVisitor; (try dsimp only); repeat' split
  all_goals first
    | (simp (maxDischargeDepth := 60) +contextual [hz]; done)
    | exact lim_same hz rfl

theorem lim_takeShow (n : Nat) (src : ShowSource) (l : List (Nat × ShowSource)) (s : State)
    (hl : l.length ≤ Config.visitorQueue) (hz : Limits s) : Limits (takeShow n src l s) := by
  unfold takeShow; dsimp only
  apply lim_runVisitor
  apply lim_beginStepOf
  apply lim_stopIdle
  apply lim_changePanel
  apply lim_work
  apply lim_report
  exact lim_vis _ _ hl hz.busy hz

@[simp] theorem lim_testHead (s : State) (hz : Limits s) : Limits (testHead s) := by
  unfold testHead; split
  · exact hz
  · rename_i sh src rest hq
    split
    · have := hz.shows
      rw [hq] at this
      exact lim_takeShow _ _ _ _ (by simp at this; omega) hz
    · exact hz

@[simp] theorem lim_testHeads (n : Nat) (s : State) (hz : Limits s) : Limits (testHeads n s) := by
  induction n generalizing s with
  | zero => exact hz
  | succ n ih => unfold testHeads; split <;> simp [ih, hz]

theorem lim_joinQueue (n : Nat) (src : ShowSource) (s : State) (hl : s.vis.queue.length < Config.visitorQueue)
    (hz : Limits s) : Limits (joinQueue n src s) := by
  unfold joinQueue setVisitors; exact lim_vis _ _ (by simp; omega) hz.busy hz

@[simp] theorem lim_reportPress (b : Nat) (o : PressOutcome) (n : Option Nat) (s : State) (hz : Limits s) :
    Limits (reportPress b o n s) := by
  unfold reportPress; (try dsimp only); repeat' split
  all_goals first
    | (simp (maxDischargeDepth := 60) +contextual [hz]; done)
    | exact lim_same hz rfl

@[simp] theorem lim_showPress (b : Nat) (s : State) (hz : Limits s) : Limits (showPress b s) := by
  unfold showPress; dsimp only; apply lim_wakeByPress; apply lim_reportPress; split
  · rename_i hq _
    refine lim_joinQueue _ _ _ ?_ hz
    have hb := hz.busy
    unfold pressOutcome at hq
    repeat' split at hq
    all_goals first
      | (cases hq; done)
      | omega
  · exact hz

@[simp] theorem lim_jogButtonPress (b : Nat) (s : State) (hz : Limits s) :
    Limits (jogButtonPress b s) := by
  unfold jogButtonPress; (try dsimp only); repeat' split
  all_goals first
    | (simp (maxDischargeDepth := 60) +contextual [hz]; done)
    | exact lim_same hz rfl

@[simp] theorem lim_buttonChanged (b : Nat) (p : Bool) (s : State) (hz : Limits s) :
    Limits (buttonChanged b p s) := by
  unfold buttonChanged; (try dsimp only); repeat' split
  all_goals first
    | (simp (maxDischargeDepth := 60) +contextual [hz]; done)
    | exact lim_same hz rfl

@[simp] theorem lim_stepTimerExpires (s : State) (hz : Limits s) :
    Limits (stepTimerExpires s) := by
  unfold stepTimerExpires; (try dsimp only); repeat' split
  all_goals first
    | (simp (maxDischargeDepth := 60) +contextual [hz]; done)
    | exact lim_same hz rfl

@[simp] theorem lim_durationExpires (s : State) (hz : Limits s) :
    Limits (durationExpires s) := by
  unfold durationExpires; (try dsimp only); repeat' split
  all_goals first
    | (simp (maxDischargeDepth := 60) +contextual [hz]; done)
    | exact lim_same hz rfl

@[simp] theorem lim_coolDownExpires (n : Nat) (s : State) (hz : Limits s) :
    Limits (coolDownExpires n s) := by
  unfold coolDownExpires; (try dsimp only); repeat' split
  all_goals first
    | (simp (maxDischargeDepth := 60) +contextual [hz]; done)
    | exact lim_same hz rfl

@[simp] theorem lim_visitorSection (n : Nat) (x : SectionState) (s : State) (hz : Limits s) :
    Limits (visitorSection n x s) := by
  unfold visitorSection; (try dsimp only); repeat' split
  all_goals first
    | (simp (maxDischargeDepth := 60) +contextual [hz]; done)
    | exact lim_same hz rfl

@[simp] theorem lim_runShow (n sh : Nat) (s : State) (hz : Limits s) : Limits (runShow n sh s) := by
  unfold runShow; repeat' split
  all_goals first
    | (simp [hz]; done)
    | exact lim_complete _ _ _ _ _ (lim_joinQueue _ _ _ (by omega) hz)

/-! ## The end of a handling -/

@[simp] theorem lim_setSignal (x : Nat) (f : SignalState → SignalState) (s : State) (hz : Limits s) :
    Limits (setSignal x f s) := by
  unfold setSignal; (try dsimp only); repeat' split
  all_goals first
    | (simp (maxDischargeDepth := 60) +contextual [hz]; done)
    | exact lim_same hz rfl

@[simp] theorem lim_recomputeOne (x : Nat) (s : State) (hz : Limits s) :
    Limits (recomputeOne x s) := by
  unfold recomputeOne; (try dsimp only); repeat' split
  all_goals first
    | (simp (maxDischargeDepth := 60) +contextual [hz]; done)
    | exact lim_same hz rfl

@[simp] theorem lim_recomputeAspects (s : State) (hz : Limits s) :
    Limits (recomputeAspects s) := by
  unfold recomputeAspects; (try dsimp only); repeat' split
  all_goals first
    | (simp (maxDischargeDepth := 60) +contextual [hz]; done)
    | exact lim_same hz rfl

@[simp] theorem lim_settleOne (x : Nat) (s : State) (hz : Limits s) : Limits (settleOne x s) := by
  unfold settleOne; split
  · exact hz
  · dsimp only; split
    · exact hz
    · apply lim_mirrorLampWord; exact lim_same hz rfl

@[simp] theorem lim_settleLamps (s : State) (hz : Limits s) :
    Limits (settleLamps s) := by
  unfold settleLamps; (try dsimp only); repeat' split
  all_goals first
    | (simp (maxDischargeDepth := 60) +contextual [hz]; done)
    | exact lim_same hz rfl

@[simp] theorem lim_settleButton (b : Nat) (s : State) (hz : Limits s) :
    Limits (settleButton b s) := by
  unfold settleButton; (try dsimp only); repeat' split
  all_goals first
    | (simp (maxDischargeDepth := 60) +contextual [hz]; done)
    | exact lim_same hz rfl

@[simp] theorem lim_settleButtons (s : State) (hz : Limits s) :
    Limits (settleButtons s) := by
  unfold settleButtons; (try dsimp only); repeat' split
  all_goals first
    | (simp (maxDischargeDepth := 60) +contextual [hz]; done)
    | exact lim_same hz rfl

@[simp] theorem lim_settleVisitorWord (b : State) (k : Nat) (s : State) (hz : Limits s) :
    Limits (settleVisitorWord b k s) := by
  unfold settleVisitorWord; (try dsimp only); repeat' split
  all_goals first
    | (simp (maxDischargeDepth := 60) +contextual [hz]; done)
    | exact lim_same hz rfl

@[simp] theorem lim_settleVisitors (b s : State) (hz : Limits s) :
    Limits (settleVisitors b s) := by
  unfold settleVisitors; (try dsimp only); repeat' split
  all_goals first
    | (simp (maxDischargeDepth := 60) +contextual [hz]; done)
    | exact lim_same hz rfl

@[simp] theorem lim_refreshLevels (s : State) (hz : Limits s) :
    Limits (refreshLevels s) := by
  unfold refreshLevels; (try dsimp only); repeat' split
  all_goals first
    | (simp (maxDischargeDepth := 60) +contextual [hz]; done)
    | exact lim_same hz rfl

@[simp] theorem lim_endHandling (b s : State) (hz : Limits s) :
    Limits (endHandling b s) := by
  unfold endHandling; (try dsimp only); repeat' split
  all_goals first
    | (simp (maxDischargeDepth := 60) +contextual [hz]; done)
    | exact lim_same hz rfl

@[simp] theorem lim_afterWork (n : Nat) (s : State) (hz : Limits s) : Limits (afterWork n s) := by
  induction n generalizing s with
  | zero => exact hz
  | succ n ih =>
    unfold afterWork; repeat' split
    · exact ih _ (lim_endHandling _ _ (lim_dispatcherPass _ (lim_work _ _ hz)))
    · exact ih _ (lim_endHandling _ _ (lim_reexamine _ hz))
    · exact hz

@[simp] theorem lim_finish (b s : State) (hz : Limits s) :
    Limits (finish b s) := by
  unfold finish; (try dsimp only); repeat' split
  all_goals first
    | (simp (maxDischargeDepth := 60) +contextual [hz]; done)
    | exact lim_same hz rfl

end Sys2Proof.Machine
end

