-- ==== Sys2Proof/Laws/LimitsTrack.lean ====
section
/-! SUPPORT. The layout stop, tags and sections keep everything within their bounds. -/

set_option linter.unusedTactic false
set_option linter.unreachableTactic false

namespace Sys2Proof.Machine

/-! ## Run state, run condition, track power -/

@[simp] theorem lim_reportLayout (c i : Nat) (s : State) (hz : Limits s) :
    Limits (reportLayout c i s) := by
  unfold reportLayout; (try dsimp only); repeat' split
  all_goals first
    | (simp (maxDischargeDepth := 60) +contextual [hz]; done)
    | exact lim_same hz rfl

@[simp] theorem lim_enterAllStop (c : StopCause) (s : State) (hz : Limits s) :
    Limits (enterAllStop c s) := by
  unfold enterAllStop; (try dsimp only); repeat' split
  all_goals first
    | (simp (maxDischargeDepth := 60) +contextual [hz]; done)
    | exact lim_same hz rfl

@[simp] theorem lim_resumeLayout (s : State) (hz : Limits s) :
    Limits (resumeLayout s) := by
  unfold resumeLayout; (try dsimp only); repeat' split
  all_goals first
    | (simp (maxDischargeDepth := 60) +contextual [hz]; done)
    | exact lim_same hz rfl

/-! ## The fields that a section change can reach -/

/-! ## Tags -/

@[simp] theorem lim_setTag (t : Nat) (v : Tag) (s : State) (hz : Limits s) :
    Limits (setTag t v s) := by
  unfold setTag; (try dsimp only); repeat' split
  all_goals first
    | (simp (maxDischargeDepth := 60) +contextual [hz]; done)
    | exact lim_same hz rfl

@[simp] theorem lim_setTagField (n : Nat) (t : Option Nat) (s : State) (hz : Limits s) :
    Limits (setTagField n t s) := by
  unfold setTagField; exact lim_mirrorSection _ _ (lim_same hz rfl)

@[simp] theorem lim_takeTag (n t : Nat) (s : State) (hz : Limits s) :
    Limits (takeTag n t s) := by
  unfold takeTag; (try dsimp only); repeat' split
  all_goals first
    | (simp (maxDischargeDepth := 60) +contextual [hz]; done)
    | exact lim_same hz rfl

@[simp] theorem lim_reclaimOrAllocate (n : Nat) (l : List Neighbour) (s : State) (hz : Limits s) :
    Limits ((reclaimOrAllocate n l s).1) := by
  unfold reclaimOrAllocate; (try dsimp only); repeat' split
  all_goals first
    | (simp (maxDischargeDepth := 60) +contextual [hz]; done)
    | exact lim_same hz rfl

@[simp] theorem lim_arrive (n : Nat) (s : State) (hz : Limits s) :
    Limits ((arrive n s).1) := by
  unfold arrive; (try dsimp only); repeat' split
  all_goals first
    | (simp (maxDischargeDepth := 60) +contextual [hz]; done)
    | exact lim_same hz rfl

@[simp] theorem lim_freeLostTag (t : Nat) (s : State) (hz : Limits s) :
    Limits (freeLostTag t s) := by
  unfold freeLostTag; (try dsimp only); repeat' split
  all_goals first
    | (simp (maxDischargeDepth := 60) +contextual [hz]; done)
    | exact lim_same hz rfl

@[simp] theorem lim_depart (n : Nat) (s : State) (hz : Limits s) :
    Limits (depart n s) := by
  unfold depart; (try dsimp only); repeat' split
  all_goals first
    | (simp (maxDischargeDepth := 60) +contextual [hz]; done)
    | exact lim_same hz rfl

@[simp] theorem lim_tagSectionChange (n : Nat) (x y : SectionState) (s : State) (hz : Limits s) :
    Limits ((tagSectionChange n x y s).1) := by
  unfold tagSectionChange; (try dsimp only); repeat' split
  all_goals first
    | (simp (maxDischargeDepth := 60) +contextual [hz]; done)
    | exact lim_same hz rfl

/-! ## Sections -/

@[simp] theorem lim_overrunOne (n : Nat) (a : Arrival) (l : List EntryNote) (x : Nat) (s : State) (hz : Limits s) :
    Limits (overrunOne n a l x s) := by
  unfold overrunOne; (try dsimp only); repeat' split
  all_goals first
    | (simp (maxDischargeDepth := 60) +contextual [hz]; done)
    | exact lim_same hz rfl

@[simp] theorem lim_overrunTest (n : Nat) (a : Option Arrival) (l : List EntryNote) (s : State) (hz : Limits s) :
    Limits (overrunTest n a l s) := by
  unfold overrunTest; (try dsimp only); repeat' split
  all_goals first
    | (simp (maxDischargeDepth := 60) +contextual [hz]; done)
    | exact lim_same hz rfl

@[simp] theorem lim_sectionChanged (n : Nat) (old : SectionState) (s : State) (hz : Limits s) :
    Limits (sectionChanged n old s) := by
  unfold sectionChanged
  dsimp only
  apply lim_visitorSection
  split
  · apply lim_deckSectionLeft
    exact lim_overrunTest _ _ _ _ (lim_runVisitor _ (lim_routesSectionChange _ _ _ _
      (lim_tagSectionChange _ _ _ _ (lim_same (lim_report _ _ _ _ _ (lim_mirrorSection _ _ hz)) rfl))))
  · exact lim_overrunTest _ _ _ _ (lim_runVisitor _ (lim_routesSectionChange _ _ _ _
      (lim_tagSectionChange _ _ _ _ (lim_same (lim_report _ _ _ _ _ (lim_mirrorSection _ _ hz)) rfl))))

end Sys2Proof.Machine
end

