-- ==== Sys2Proof/Laws/LimitsCommands.lean ====
section
/-! SUPPORT. The commands' own work, START, the resets and the clock keep everything within its bounds. -/

set_option linter.unusedTactic false
set_option linter.unreachableTactic false

namespace Sys2Proof.Machine

/-! ## Sections -/

@[simp] theorem lim_updateSection (n : Nat) (f : Occupancy → Occupancy) (s : State) (hz : Limits s) :
    Limits (updateSection n f s) := by
  unfold updateSection; (try dsimp only); repeat' split
  all_goals first
    | (simp (maxDischargeDepth := 60) +contextual [hz]; done)
    | exact lim_same hz rfl

@[simp] theorem lim_detectorSampled (i : Nat) (x : Bool) (s : State) (hz : Limits s) :
    Limits (detectorSampled i x s) := by
  unfold detectorSampled; (try dsimp only); repeat' split
  all_goals first
    | (simp (maxDischargeDepth := 60) +contextual [hz]; done)
    | exact lim_same hz rfl

@[simp] theorem lim_axleIn (x : Option Nat) (s : State) (hz : Limits s) :
    Limits (axleIn x s) := by
  unfold axleIn; (try dsimp only); repeat' split
  all_goals first
    | (simp (maxDischargeDepth := 60) +contextual [hz]; done)
    | exact lim_same hz rfl

@[simp] theorem lim_axleOut (x : Option Nat) (s : State) (hz : Limits s) :
    Limits (axleOut x s) := by
  unfold axleOut; (try dsimp only); repeat' split
  all_goals first
    | (simp (maxDischargeDepth := 60) +contextual [hz]; done)
    | exact lim_same hz rfl

@[simp] theorem lim_setHead (k : Nat) (h : Head) (s : State) (hz : Limits s) :
    Limits (setHead k h s) := by
  unfold setHead; (try dsimp only); repeat' split
  all_goals first
    | (simp (maxDischargeDepth := 60) +contextual [hz]; done)
    | exact lim_same hz rfl

@[simp] theorem lim_doubt (x : Option Nat) (s : State) (hz : Limits s) :
    Limits (doubt x s) := by
  unfold doubt; (try dsimp only); repeat' split
  all_goals first
    | (simp (maxDischargeDepth := 60) +contextual [hz]; done)
    | exact lim_same hz rfl

@[simp] theorem lim_sequenceError (k : Nat) (h : Head) (x y : Bool × Bool) (s : State) (hz : Limits s) :
    Limits (sequenceError k h x y s) := by
  unfold sequenceError; (try dsimp only); repeat' split
  all_goals first
    | (simp (maxDischargeDepth := 60) +contextual [hz]; done)
    | exact lim_same hz rfl

@[simp] theorem lim_passage (k : Nat) (h : Head) (x : Bool) (s : State) (hz : Limits s) :
    Limits (passage k h x s) := by
  unfold passage; (try dsimp only); repeat' split
  all_goals first
    | (simp (maxDischargeDepth := 60) +contextual [hz]; done)
    | exact lim_same hz rfl

@[simp] theorem lim_headPair (k : Nat) (h : Head) (x y : Bool × Bool) (s : State) (hz : Limits s) :
    Limits (headPair k h x y s) := by
  unfold headPair; (try dsimp only); repeat' split
  all_goals first
    | (simp (maxDischargeDepth := 60) +contextual [hz]; done)
    | exact lim_same hz rfl

@[simp] theorem lim_headSampled (k : Nat) (x : Bool × Bool) (s : State) (hz : Limits s) :
    Limits (headSampled k x s) := by
  unfold headSampled; (try dsimp only); repeat' split
  all_goals first
    | (simp (maxDischargeDepth := 60) +contextual [hz]; done)
    | exact lim_same hz rfl

@[simp] theorem lim_discrepancyExpires (n : Nat) (s : State) (hz : Limits s) :
    Limits (discrepancyExpires n s) := by
  unfold discrepancyExpires; (try dsimp only); repeat' split
  all_goals first
    | (simp (maxDischargeDepth := 60) +contextual [hz]; done)
    | exact lim_same hz rfl

@[simp] theorem lim_lostHoldExpires (n : Nat) (s : State) (hz : Limits s) :
    Limits (lostHoldExpires n s) := by
  unfold lostHoldExpires; (try dsimp only); repeat' split
  all_goals first
    | (simp (maxDischargeDepth := 60) +contextual [hz]; done)
    | exact lim_same hz rfl

@[simp] theorem lim_disableSection (k n : Nat) (s : State) (hz : Limits s) :
    Limits (disableSection k n s) := by
  unfold disableSection; (try dsimp only); repeat' split
  all_goals first
    | (simp (maxDischargeDepth := 60) +contextual [hz]; done)
    | exact lim_same hz rfl

@[simp] theorem lim_enableSection (k n : Nat) (s : State) (hz : Limits s) :
    Limits (enableSection k n s) := by
  unfold enableSection; (try dsimp only); repeat' split
  all_goals first
    | (simp (maxDischargeDepth := 60) +contextual [hz]; done)
    | exact lim_same hz rfl

@[simp] theorem lim_headNormal (k : Nat) (s : State) (hz : Limits s) :
    Limits (headNormal k s) := by
  unfold headNormal; (try dsimp only); repeat' split
  all_goals first
    | (simp (maxDischargeDepth := 60) +contextual [hz]; done)
    | exact lim_same hz rfl

@[simp] theorem lim_resetSection (k n : Nat) (s : State) (hz : Limits s) :
    Limits (resetSection k n s) := by
  unfold resetSection; (try dsimp only); repeat' split
  all_goals first
    | (simp (maxDischargeDepth := 60) +contextual [hz]; done)
    | exact lim_same hz rfl

@[simp] theorem lim_labelTag (k t l : Nat) (s : State) (hz : Limits s) :
    Limits (labelTag k t l s) := by
  unfold labelTag; (try dsimp only); repeat' split
  all_goals first
    | (simp (maxDischargeDepth := 60) +contextual [hz]; done)
    | exact lim_same hz rfl

/-! ## Stop pin, buttons, visitor requests, contacts -/

@[simp] theorem lim_contactSample (i : Nat) (x : Bool) (s : State) (hz : Limits s) : Limits (contactSample i x s) := by
  unfold contactSample; dsimp only; split
  · exact lim_same hz rfl
  · exact lim_eachDo _ _ _ (fun n t h => lim_contactChanged n t h) (lim_same hz rfl)

@[simp] theorem lim_boltSample (c : BoltContact) (x : Bool) (s : State) (hz : Limits s) :
    Limits (boltSample c x s) := by
  unfold boltSample; (try dsimp only); repeat' split
  all_goals first
    | (simp (maxDischargeDepth := 60) +contextual [hz]; done)
    | exact lim_same hz rfl

@[simp] theorem lim_stopPinSampled (x : Bool) (s : State) (hz : Limits s) : Limits (stopPinSampled x s) := by
  unfold stopPinSampled; dsimp only; split
  · exact lim_same hz rfl
  · split
    · apply lim_enterAllStop; apply lim_write8; exact lim_same hz rfl
    · apply lim_write8; exact lim_same hz rfl

@[simp] theorem lim_allStopRequest (n : Nat) (s : State) (hz : Limits s) :
    Limits (allStopRequest n s) := by
  unfold allStopRequest; (try dsimp only); repeat' split
  all_goals first
    | (simp (maxDischargeDepth := 60) +contextual [hz]; done)
    | exact lim_same hz rfl

@[simp] theorem lim_resumeRequest (n : Nat) (s : State) (hz : Limits s) :
    Limits (resumeRequest n s) := by
  unfold resumeRequest; (try dsimp only); repeat' split
  all_goals first
    | (simp (maxDischargeDepth := 60) +contextual [hz]; done)
    | exact lim_same hz rfl

@[simp] theorem lim_buttonSampled (b : Nat) (x : Bool) (s : State) (hz : Limits s) : Limits (buttonSampled b x s) := by
  unfold buttonSampled; dsimp only; split
  · exact lim_same hz rfl
  · exact lim_buttonChanged _ _ _ (lim_same hz rfl)

theorem lim_setVisitors (f : VisitorUnit → VisitorUnit) (s : State) (h1 : (f s.vis).queue.length ≤ Config.visitorQueue)
    (h2 : (f s.vis).busy = s.vis.busy) (hz : Limits s) : Limits (setVisitors f s) :=
  lim_vis _ _ h1 (h2 ▸ hz.busy) hz

@[simp] theorem lim_suspendVisitors (n : Nat) (s : State) (hz : Limits s) : Limits (suspendVisitors n s) := by
  unfold suspendVisitors; dsimp only; split
  · exact lim_complete _ _ _ _ _ hz
  · apply lim_complete
    refine lim_setVisitors _ _ (by simp) rfl ?_
    apply lim_abortShow
    exact lim_setVisitors _ _ hz.shows rfl hz

@[simp] theorem lim_resumeVisitors (n : Nat) (s : State) (hz : Limits s) : Limits (resumeVisitors n s) := by
  unfold resumeVisitors; apply lim_complete; exact lim_setVisitors _ _ hz.shows rfl hz

/-! ## Loading -/

@[simp] theorem lim_takeSection (n : Nat) (r : SectionRec) (s : State) (hz : Limits s) :
    Limits (takeSection n r s) := by
  unfold takeSection; (try dsimp only); repeat' split
  all_goals first
    | (simp (maxDischargeDepth := 60) +contextual [hz]; done)
    | exact lim_same hz rfl

@[simp] theorem lim_takeHead (n : Nat) (r : Head) (s : State) (hz : Limits s) :
    Limits (takeHead n r s) := by
  unfold takeHead; (try dsimp only); repeat' split
  all_goals first
    | (simp (maxDischargeDepth := 60) +contextual [hz]; done)
    | exact lim_same hz rfl

@[simp] theorem lim_writePool (s : State) (hz : Limits s) :
    Limits (writePool s) := by
  unfold writePool; (try dsimp only); repeat' split
  all_goals first
    | (simp (maxDischargeDepth := 60) +contextual [hz]; done)
    | exact lim_same hz rfl

@[simp] theorem lim_takePoint (n : Nat) (r : PointRec) (s : State) (hz : Limits s) :
    Limits (takePoint n r s) := by
  unfold takePoint; (try dsimp only); repeat' split
  all_goals first
    | (simp (maxDischargeDepth := 60) +contextual [hz]; done)
    | exact lim_same hz rfl

@[simp] theorem lim_takeSignal (n : Nat) (r : SignalRec) (s : State) (hz : Limits s) :
    Limits (takeSignal n r s) := by
  unfold takeSignal; (try dsimp only); repeat' split
  all_goals first
    | (simp (maxDischargeDepth := 60) +contextual [hz]; done)
    | exact lim_same hz rfl

@[simp] theorem lim_unreference (s : State) (hz : Limits s) : Limits (unreference s) := by
  unfold unreference; dsimp only
  have h : Limits (setDeck (fun t => { t.quiet with pos := none, align := none, target := none, fault := none,
                                                    boltOut := false, requester := .none }) s) :=
    lim_noPos _ _ rfl rfl hz
  split
  · exact h
  · exact lim_enterDeck _ _ h

theorem lim_takeDeck (d : DeckRec) (s : State) (hd : d.indexOffset < d.c) (hz : Limits s) : Limits (takeDeck d s) := by
  unfold takeDeck; apply lim_unreference
  refine lim_deck _ _ ?_ hz
  intro d' h; cases h
  exact ⟨hd, fun p hp => by cases hp⟩

@[simp] theorem lim_takeRoad (n : Nat) (r : Road) (s : State) (hz : Limits s) :
    Limits (takeRoad n r s) := by
  unfold takeRoad; (try dsimp only); repeat' split
  all_goals first
    | (simp (maxDischargeDepth := 60) +contextual [hz]; done)
    | exact lim_same hz rfl

@[simp] theorem lim_takeLamp (n : Nat) (r : Lamp) (s : State) (hz : Limits s) : Limits (takeLamp n r s) := by
  unfold takeLamp; dsimp only; split
  · apply lim_mirrorLampWord; exact lim_same hz rfl
  · exact lim_same hz rfl

/-- A deck record that the part takes has its index offset below C (R121). -/
theorem readDeck_sound (s : State) (a len : Nat) (d : DeckRec) (h : readDeck s a len = some d) : d.indexOffset < d.c := by
  unfold readDeck at h
  simp only [Option.bind_eq_bind, Option.bind_eq_some_iff] at h
  obtain ⟨c, _, stop, _, rising, _, bolt, _, snap, _, h⟩ := h
  split at h
  · rename_i hc
    cases h
    simp only [Bool.and_eq_true, decide_eq_true_eq] at hc
    exact hc.2
  · cases h

/-- Whatever record a block takes, everything stays within its bounds. -/
theorem lim_takeRecord (k : LoadKind) (a len : Nat) (s t : State) (hz : Limits s)
    (h : takeRecord k a len s = .ok t) : Limits t := by
  unfold takeRecord at h
  dsimp only at h
  have orI : ∀ x : Option State, (∀ u, x = some u → Limits u) →
      (match x with | some t => Except.ok t | none => Except.error Result.invalidRecord) = .ok t → Limits t := by
    intro x hx hh
    cases x with
    | none => cases hh
    | some u => cases hh; exact hx _ rfl
  have orM : ∀ {α : Type} (x : Option α) (f : α → State), (∀ y, x = some y → Limits (f y)) →
      ∀ u, x.map f = some u → Limits u := by
    intro α x f hf u hu
    cases x with
    | none => cases hu
    | some y => cases hu; exact hf y rfl
  split at h
  · split at h
    · exact orI _ (orM _ _ fun y _ => lim_takeSection _ _ _ hz) h
    · exact orI _ (orM _ _ fun y _ => lim_takeHead _ _ _ hz) h
    · cases h
  · exact orI _ (orM _ _ fun y _ => lim_takePoint _ _ _ hz) h
  · exact orI _ (orM _ _ fun y _ => lim_takeSignal _ _ _ hz) h
  · refine orI _ ?_ h
    intro u hu
    cases hx : readRoute s a len with
    | none => rw [hx] at hu; cases hu
    | some x =>
      rw [hx] at hu
      simp only [Option.bind_some] at hu
      unfold takeRoute at hu
      dsimp only at hu
      split at hu
      · cases hu
      · cases hu; exact lim_writePool _ (lim_same hz rfl)
  · split at h
    · exact orI _ (orM _ _ fun y hy => lim_takeDeck _ _ (readDeck_sound _ _ _ _ hy) hz) h
    · exact orI _ (orM _ _ fun y _ => lim_takeRoad _ _ _ hz) h
    · cases h
  · split at h
    · cases h
    · split at h
      · rename_i u hu
        cases h
        unfold takeShowRecord at hu
        split at hu
        · cases hu
        · cases hu; exact lim_vis _ _ hz.shows hz.busy hz
      · cases h
  · exact orI _ (orM _ _ fun y _ => lim_takeLamp _ _ _ hz) h

@[simp] theorem lim_setLoads (r : Option Load) (l : List Load) (s : State) (hz : Limits s) :
    Limits (setLoads r l s) := by
  unfold setLoads; (try dsimp only); repeat' split
  all_goals first
    | (simp (maxDischargeDepth := 60) +contextual [hz]; done)
    | exact lim_same hz rfl

@[simp] theorem lim_beginLoads (l : List Load) (s : State) (hz : Limits s) : Limits (beginLoads l s) := by
  induction l generalizing s with
  | nil => exact lim_setLoads _ _ _ hz
  | cons x l ih =>
    unfold beginLoads; split
    · exact ih _ (lim_complete _ _ _ _ _ hz)
    · exact lim_setLoads _ _ _ hz

@[simp] theorem lim_loadNext (s : State) (hz : Limits s) : Limits (loadNext s) := by
  unfold loadNext; split
  · exact hz
  · split
    · exact lim_beginLoads _ _ (lim_complete _ _ _ _ _ hz)
    · rename_i t ht
      have h : Limits t := by
        unfold readRecord at ht
        dsimp only at ht
        split at ht
        · cases ht
        · exact lim_takeRecord _ _ _ _ _ hz ht
      dsimp only; split
      · exact lim_beginLoads _ _ (lim_complete _ _ _ _ _ h)
      · exact lim_setLoads _ _ _ h

@[simp] theorem lim_loadRequest (k : LoadKind) (n o l c : Nat) (s : State) (hz : Limits s) :
    Limits (loadRequest k n o l c s) := by
  unfold loadRequest; (try dsimp only); repeat' split
  all_goals first
    | (simp (maxDischargeDepth := 60) +contextual [hz]; done)
    | exact lim_same hz rfl

theorem lim_setParameter (g : Group) (c v : Nat) (s : State) (x : State × Bool) (hz : Limits s)
    (h : setParameter g c v s = some x) : Limits x.1 := by
  unfold setParameter at h
  split at h
  · unfold setTrack at h
    split at h
    all_goals first
      | (cases h; done)
      | (cases h; exact lim_same hz rfl)
  · unfold setVisitorParameter at h
    split at h
    all_goals first
      | (cases h; done)
      | (cases h; exact lim_same hz rfl)
      | (cases h; refine lim_vis _ _ hz.shows ?_ hz
         show min (max v 1) 8 ≤ 8; omega)

@[simp] theorem lim_applyEntries (g : Group) (n l a d c : Nat) (s : State) (hz : Limits s) :
    Limits (applyEntries g n l a d c s) := by
  induction l generalizing a d c s with
  | zero => exact lim_complete _ _ _ _ _ hz
  | succ l ih =>
    unfold applyEntries; split
    · exact lim_complete _ _ _ _ _ hz
    · rename_i heq; exact ih _ _ _ _ (lim_setParameter _ _ _ _ _ hz heq)

@[simp] theorem lim_setParameters (n g o c : Nat) (s : State) (hz : Limits s) :
    Limits (setParameters n g o c s) := by
  unfold setParameters; (try dsimp only); repeat' split
  all_goals first
    | (simp (maxDischargeDepth := 60) +contextual [hz]; done)
    | exact lim_same hz rfl

/-! ## START and the resets -/

@[simp] theorem lim_startSections (s : State) (hz : Limits s) :
    Limits (startSections s) := by
  unfold startSections; (try dsimp only); repeat' split
  all_goals first
    | (simp (maxDischargeDepth := 60) +contextual [hz]; done)
    | exact lim_same hz rfl

@[simp] theorem lim_mirrorTags (s : State) (hz : Limits s) :
    Limits (mirrorTags s) := by
  unfold mirrorTags; (try dsimp only); repeat' split
  all_goals first
    | (simp (maxDischargeDepth := 60) +contextual [hz]; done)
    | exact lim_same hz rfl

@[simp] theorem lim_startTags (s : State) (hz : Limits s) :
    Limits (startTags s) := by
  unfold startTags; (try dsimp only); repeat' split
  all_goals first
    | (simp (maxDischargeDepth := 60) +contextual [hz]; done)
    | exact lim_same hz rfl

@[simp] theorem lim_freshPoint (p : Nat) (s : State) (hz : Limits s) :
    Limits (freshPoint p s) := by
  unfold freshPoint; (try dsimp only); repeat' split
  all_goals first
    | (simp (maxDischargeDepth := 60) +contextual [hz]; done)
    | exact lim_same hz rfl

@[simp] theorem lim_startPoints (s : State) (hz : Limits s) : Limits (startPoints s) := by
  unfold startPoints
  exact lim_eachDo _ _ _ (fun n t h => lim_freshPoint n t h) (lim_setOrders _ _ _ (by simp) hz)

@[simp] theorem lim_mirrorActives (s : State) (hz : Limits s) :
    Limits (mirrorActives s) := by
  unfold mirrorActives; (try dsimp only); repeat' split
  all_goals first
    | (simp (maxDischargeDepth := 60) +contextual [hz]; done)
    | exact lim_same hz rfl

@[simp] theorem lim_startRoutes (s : State) (hz : Limits s) : Limits (startRoutes s) := by
  unfold startRoutes; apply lim_mirrorActives; refine lim_setStack _ _ (by simp) ?_; exact lim_same hz rfl

@[simp] theorem lim_restSignal (x : Nat) (s : State) (hz : Limits s) :
    Limits (restSignal x s) := by
  unfold restSignal; (try dsimp only); repeat' split
  all_goals first
    | (simp (maxDischargeDepth := 60) +contextual [hz]; done)
    | exact lim_same hz rfl

@[simp] theorem lim_zeroOverruns (x : Nat) (s : State) (hz : Limits s) :
    Limits (zeroOverruns x s) := by
  unfold zeroOverruns; (try dsimp only); repeat' split
  all_goals first
    | (simp (maxDischargeDepth := 60) +contextual [hz]; done)
    | exact lim_same hz rfl

@[simp] theorem lim_startSignals (s : State) (hz : Limits s) :
    Limits (startSignals s) := by
  unfold startSignals; (try dsimp only); repeat' split
  all_goals first
    | (simp (maxDischargeDepth := 60) +contextual [hz]; done)
    | exact lim_same hz rfl

@[simp] theorem lim_startTable (s : State) (hz : Limits s) :
    Limits (startTable s) := by
  unfold startTable; (try dsimp only); repeat' split
  all_goals first
    | (simp (maxDischargeDepth := 60) +contextual [hz]; done)
    | exact lim_same hz rfl

@[simp] theorem lim_mirrorVisitor (s : State) (hz : Limits s) :
    Limits (mirrorVisitor s) := by
  unfold mirrorVisitor; (try dsimp only); repeat' split
  all_goals first
    | (simp (maxDischargeDepth := 60) +contextual [hz]; done)
    | exact lim_same hz rfl

@[simp] theorem lim_mirrorLamps (n : Nat) (s : State) (hz : Limits s) : Limits (mirrorLamps n s) := by
  induction n generalizing s with
  | zero => exact hz
  | succ n ih => unfold mirrorLamps; exact lim_mirrorLampWord _ _ (ih _ hz)

@[simp] theorem lim_startPanel (s : State) (hz : Limits s) : Limits (startPanel s) := by
  unfold startPanel; dsimp only
  apply lim_mirrorVisitor; apply lim_settleButtons; apply lim_mirrorLamps; apply lim_settleLamps; apply lim_work
  exact lim_setVisitors _ _ (by simp) rfl hz

@[simp] theorem lim_startLayout (s : State) (hz : Limits s) : Limits (startLayout s) := by
  unfold startLayout; dsimp only
  apply lim_startPanel
  apply lim_startTable
  apply lim_startSignals
  apply lim_startRoutes
  apply lim_startPoints
  apply lim_startTags
  apply lim_startSections
  apply lim_reportLayout
  apply lim_setRunState
  exact ⟨hz.logPointer, hz.takePos, (by decide : 0 < Config.clockMod), (by decide : 0 < 1000), hz.stack, hz.queue, hz.shows, hz.busy, hz.deck, hz.line⟩

@[simp] theorem lim_startRequest (n : Nat) (s : State) (hz : Limits s) :
    Limits (startRequest n s) := by
  unfold startRequest; (try dsimp only); repeat' split
  all_goals first
    | (simp (maxDischargeDepth := 60) +contextual [hz]; done)
    | exact lim_same hz rfl

@[simp] theorem lim_resetSections (s : State) (hz : Limits s) :
    Limits (resetSections s) := by
  unfold resetSections; (try dsimp only); repeat' split
  all_goals first
    | (simp (maxDischargeDepth := 60) +contextual [hz]; done)
    | exact lim_same hz rfl

@[simp] theorem lim_resetTags (s : State) (hz : Limits s) :
    Limits (resetTags s) := by
  unfold resetTags; (try dsimp only); repeat' split
  all_goals first
    | (simp (maxDischargeDepth := 60) +contextual [hz]; done)
    | exact lim_same hz rfl

@[simp] theorem lim_resetRoutes (s : State) (hz : Limits s) : Limits (resetRoutes s) := by
  unfold resetRoutes; apply lim_mirrorActives; refine lim_setStack _ _ (by simp) ?_; exact lim_same hz rfl

@[simp] theorem lim_unfailPoint (l : List Nat) (p : Nat) (s : State) (hz : Limits s) :
    Limits (unfailPoint l p s) := by
  unfold unfailPoint; (try dsimp only); repeat' split
  all_goals first
    | (simp (maxDischargeDepth := 60) +contextual [hz]; done)
    | exact lim_same hz rfl

@[simp] theorem lim_resetPoints (s : State) (hz : Limits s) : Limits (resetPoints s) := by
  unfold resetPoints; dsimp only
  refine lim_eachDo _ _ _ (fun n t h => lim_freshPoint n t h) ?_
  refine lim_eachDo _ _ _ (fun n t h => lim_unfailPoint _ n t h) ?_
  refine lim_setOrders _ _ _ (by simp) ?_
  split
  · exact lim_same (lim_startRecharge _ hz) rfl
  · exact lim_same hz rfl

@[simp] theorem lim_resetSignals (s : State) (hz : Limits s) :
    Limits (resetSignals s) := by
  unfold resetSignals; (try dsimp only); repeat' split
  all_goals first
    | (simp (maxDischargeDepth := 60) +contextual [hz]; done)
    | exact lim_same hz rfl

@[simp] theorem lim_resetTable (s : State) (hz : Limits s) : Limits (resetTable s) := by
  unfold resetTable; split
  · exact lim_setDeck _ _ rfl rfl hz
  · exact lim_noPos _ _ rfl rfl hz

@[simp] theorem lim_resetVisitors (s : State) (hz : Limits s) : Limits (resetVisitors s) := by
  unfold resetVisitors; exact lim_setVisitors _ _ (by simp) rfl (lim_abortShow _ _ _ _ hz)

@[simp] theorem lim_resetDisplay (s : State) (hz : Limits s) : Limits (resetDisplay s) := by
  unfold resetDisplay; dsimp only
  apply lim_mirrorLamps
  exact lim_same (lim_loadIdle s.disp.idle1 _ (lim_setPanelState .awake s hz)) rfl

@[simp] theorem lim_abortSlots (o : Option Nat) (s : State) (hz : Limits s) :
    Limits ((abortSlots o s).1) := by
  unfold abortSlots; (try dsimp only); repeat' split
  all_goals first
    | (simp (maxDischargeDepth := 60) +contextual [hz]; done)
    | exact lim_same hz rfl

@[simp] theorem lim_layoutReset (o : Option Nat) (s : State) (hz : Limits s) :
    Limits (layoutReset o s) := by
  unfold layoutReset; (try dsimp only); repeat' split
  all_goals first
    | (simp (maxDischargeDepth := 60) +contextual [hz]; done)
    | exact lim_same hz rfl

/-! ## The clock -/

@[simp] theorem lim_tickFlash (s : State) (hz : Limits s) : Limits (tickFlash s) := by
  have h : Limits { s with disp := { s.disp with flash := (s.disp.flash + 1) % 1000 } } :=
    ⟨hz.logPointer, hz.takePos, hz.clock, Nat.mod_lt _ (by decide), hz.stack, hz.queue, hz.shows, hz.busy, hz.deck, hz.line⟩
  unfold tickFlash; dsimp only; split
  · exact lim_refreshLevels _ h
  · exact h

@[simp] theorem lim_mirrorJogHold (s : State) (hz : Limits s) :
    Limits (mirrorJogHold s) := by
  unfold mirrorJogHold; exact lim_writeWord _ _ _ _ _ hz

@[simp] theorem lim_tick (s : State) (hz : Limits s) : Limits (tick s) := by
  unfold tick; dsimp only
  apply lim_settleVisitorWord
  apply lim_tickFlash
  have h : Limits { s with occ := tickOcc s.occ, tags := tickTags s.tags, ilk := tickIlk s.ilk, pts := tickPts s.pts,
                           tt := tickTable s.tt, vis := tickVisitors s.vis,
                           disp := { s.disp with idleTimer := less s.disp.idleTimer },
                           exch := { s.exch with pollTimer := less s.exch.pollTimer },
                           clock := (s.clock + 1) % Config.clockMod } :=
    ⟨hz.logPointer, hz.takePos, Nat.mod_lt _ (by decide), hz.flash, by simpa [tickIlk] using hz.stack,
      by simpa [tickPts] using hz.queue, hz.shows, hz.busy, hz.deck, hz.line⟩
  split
  · exact lim_mirrorJogHold _ h
  · exact h

@[simp] theorem lim_jogHoldPasses (s : State) (hz : Limits s) : Limits (jogHoldPasses s) := by
  unfold jogHoldPasses; split
  · exact hz
  · apply lim_mirrorJogHold; exact lim_same hz rfl

@[simp] theorem lim_secondPasses (t : ShowTimer) (s : State) (hz : Limits s) :
    Limits (secondPasses t s) := by
  unfold secondPasses; (try dsimp only); repeat' split
  all_goals first
    | (simp (maxDischargeDepth := 60) +contextual [hz]; done)
    | exact lim_same hz rfl

@[simp] theorem lim_flashPasses (s : State) (hz : Limits s) : Limits (flashPasses s) := by
  unfold flashPasses; apply lim_refreshLevels
  exact ⟨hz.logPointer, hz.takePos, hz.clock, Nat.mod_lt _ (by decide), hz.stack, hz.queue, hz.shows, hz.busy, hz.deck, hz.line⟩

end Sys2Proof.Machine
end

