-- ==== Sys2Proof/Laws/Own.lean ====
section
/-! SUPPORT. What the part's own writes do to exchange memory: they keep its canonical form, they leave every byte that
only the host writes, and they leave every slot that is not in hand. -/

namespace Sys2Proof.Machine

/-- From `s` to `t` the part has written only what is its own. -/
structure Own (s t : State) : Prop where
  mem : s.memOk → t.memOk
  host : ∀ a, hostOwned a → t.read8 a = s.read8 a
  idle : ∀ n, n < Config.numSlots → Tbl.find s.exch.inHand n = none →
    Tbl.find t.exch.inHand n = none ∧ ∀ a, inSlot n a → t.read8 a = s.read8 a

theorem Own.refl (s : State) : Own s s := ⟨id, fun _ _ => rfl, fun _ _ h => ⟨h, fun _ _ => rfl⟩⟩

theorem Own.trans {s t u : State} (h1 : Own s t) (h2 : Own t u) : Own s u where
  mem h := h2.mem (h1.mem h)
  host a ha := (h2.host a ha).trans (h1.host a ha)
  idle n hn h := by
    obtain ⟨g1, g2⟩ := h1.idle n hn h
    obtain ⟨k1, k2⟩ := h2.idle n hn g1
    exact ⟨k1, fun a ha => (k2 a ha).trans (g2 a ha)⟩

/-- A state that differs outside exchange memory and the in-hand marks. -/
theorem own_same {a s t : State} (h : Own a s) (hm : t.exch.mem = s.exch.mem) (hi : t.exch.inHand = s.exch.inHand) :
    Own a t := by
  refine h.trans ⟨fun g => ?_, fun x _ => ?_, fun n _ g => ⟨?_, fun x _ => ?_⟩⟩
  · unfold State.memOk; rw [hm]; exact g
  · unfold State.read8; rw [hm]
  · rw [hi]; exact g
  · unfold State.read8; rw [hm]

/-- A byte that the part may write without a slot in hand. -/
def partByte (a : Nat) : Prop := a < Config.slotBase ∨ Config.logBase ≤ a ∧ a < Config.dataBase

theorem not_host_of_part {x a : Nat} (hx : partByte x) (ha : hostOwned a) : a ≠ x := by
  rintro rfl
  unfold partByte Config.slotBase Config.logBase Config.dataBase at hx
  unfold hostOwned Config.dataBase Config.numSlots at ha
  rcases ha with ha | ⟨n, hn, ha⟩
  · omega
  · unfold slotAt Config.slotBase at ha; omega

theorem not_slot_of_part {x a n : Nat} (hn : n < Config.numSlots) (hx : partByte x) (ha : inSlot n a) : a ≠ x := by
  rintro rfl
  unfold partByte Config.slotBase Config.logBase Config.dataBase at hx
  unfold inSlot slotAt Config.slotBase at ha
  unfold Config.numSlots at hn
  omega

theorem own_write8 {a s : State} (h : Own a s) (x v : Nat) (hx : partByte x) : Own a (s.write8 x v) := by
  refine h.trans ⟨memOk_write8 x v s, fun b hb => read8_write8_other x v b s (not_host_of_part hx hb), fun n hn g =>
    ⟨?_, fun b hb => read8_write8_other x v b s (not_slot_of_part hn hx hb)⟩⟩
  unfold State.write8; split <;> exact g

theorem own_write16 {a s : State} (h : Own a s) (x v : Nat) (h0 : partByte x) (h1 : partByte (x + 1)) :
    Own a (s.write16 x v) := by
  have key : ∀ b, b ≠ x → b ≠ x + 1 → (s.write16 x v).read8 b = s.read8 b :=
    fun b g0 g1 => read8_write16_other x v b s (by omega)
  refine h.trans ⟨memOk_write16 x v s, fun b hb => key b (not_host_of_part h0 hb) (not_host_of_part h1 hb), fun n hn g =>
    ⟨?_, fun b hb => key b (not_slot_of_part hn h0 hb) (not_slot_of_part hn h1 hb)⟩⟩
  unfold State.write16; split <;> exact g

theorem own_write32 {a s : State} (h : Own a s) (x v : Nat) (h0 : partByte x) (h1 : partByte (x + 1))
    (h2 : partByte (x + 2)) (h3 : partByte (x + 3)) : Own a (s.write32 x v) := by
  have key : ∀ b, b ≠ x → b ≠ x + 1 → b ≠ x + 2 → b ≠ x + 3 → (s.write32 x v).read8 b = s.read8 b :=
    fun b g0 g1 g2 g3 => read8_write32_other x v b s (by omega)
  refine h.trans ⟨memOk_write32 x v s,
    fun b hb => key b (not_host_of_part h0 hb) (not_host_of_part h1 hb) (not_host_of_part h2 hb) (not_host_of_part h3 hb),
    fun n hn g => ⟨?_, fun b hb => key b (not_slot_of_part hn h0 hb) (not_slot_of_part hn h1 hb)
      (not_slot_of_part hn h2 hb) (not_slot_of_part hn h3 hb)⟩⟩
  unfold State.write32; split <;> exact g

/-- A mirror lies below the request list. -/
theorem own_writeWord {a s : State} (h : Own a s) (base words k v : Nat) (hb : base + 4 * words ≤ Config.slotBase) :
    Own a (s.writeWord base words k v) := by
  unfold State.writeWord; split
  · apply own_write32 h <;> left <;> unfold Config.slotBase at * <;> omega
  · exact h

/-! ## The log and the header -/

@[simp] theorem own_work {a s : State} (h : Own a s) (w : Work) : Own a { s with work := w } := own_same h rfl rfl

@[simp] theorem own_evalLine {a s : State} (h : Own a s) : Own a (evalLine s) := own_same h rfl rfl

@[simp] theorem own_evalStop {a s : State} (h : Own a s) : Own a (evalStop s) := own_same h rfl rfl

@[simp] theorem own_evalReports {a s : State} (h : Own a s) : Own a (evalReports s) := own_same h rfl rfl

/-- A half-word of the header. -/
theorem own_header16 {a s : State} (h : Own a s) (x v : Nat) (hx : x < 0x100) : Own a (s.write16 x v) := by
  apply own_write16 h <;> left <;> unfold Config.slotBase <;> omega

theorem own_header8 {a s : State} (h : Own a s) (x v : Nat) (hx : x < 0x100) : Own a (s.write8 x v) := by
  apply own_write8 h; left; unfold Config.slotBase; omega

theorem own_header32 {a s : State} (h : Own a s) (x v : Nat) (hx : x < 0x100) : Own a (s.write32 x v) := by
  apply own_write32 h <;> left <;> unfold Config.slotBase <;> omega

@[simp] theorem own_readLevels {a s : State} (h : Own a s) : Own a (readLevels s) := by
  unfold readLevels
  apply own_evalReports
  exact own_same (own_header16 (own_header16 h 0x04 _ (by decide)) 0x06 _ (by decide)) rfl rfl

@[simp] theorem own_setMissed {a s : State} (h : Own a s) (m : BitVec 64) : Own a (setMissed m s) := by
  unfold setMissed
  apply own_header32 _ _ _ (by decide)
  apply own_header32 _ _ _ (by decide)
  exact own_same h rfl rfl

/-- A word of the report log. -/
theorem own_log32 {a s : State} (h : Own a s) (w o v : Nat) (ho : o ≤ 12) :
    Own a (s.write32 (Config.logBase + 16 * (w % Config.numLog) + o) v) := by
  have hw : w % Config.numLog < Config.numLog := Nat.mod_lt _ (by decide)
  unfold Config.numLog at hw
  apply own_write32 h <;> right <;> unfold Config.logBase Config.dataBase Config.numLog <;> omega

theorem own_logPointer {a s : State} (h : Own a s) (w : Nat) : Own a { s with exch := { s.exch with w := w } } :=
  own_same h rfl rfl

@[simp] theorem own_writeEntry {a s : State} (h : Own a s) (k : ReportKind) (x v1 v2 : Nat) :
    Own a (writeEntry k x v1 v2 s) := by
  unfold writeEntry
  apply own_evalReports
  apply own_header16 _ _ _ (by decide)
  apply own_logPointer
  have h1 := own_log32 h s.exch.w 0 (fld k.code 8 0 + fld (if k.low then 0 else 1) 8 8 + fld x 16 16) (by decide)
  exact own_log32 (own_log32 (own_log32 h1 s.exch.w 4 _ (by decide)) s.exch.w 8 v1 (by decide)) s.exch.w 12 v2 (by decide)

@[simp] theorem own_report {a s : State} (h : Own a s) (k : ReportKind) (x v1 v2 : Nat) :
    Own a (report k x v1 v2 s) := by
  unfold report
  dsimp only
  have h1 := own_readLevels h
  repeat' split
  · exact own_writeEntry h1 _ _ _ _
  · exact own_setMissed h1 _
  · exact own_writeEntry (own_setMissed (own_writeEntry h1 _ _ _ _) _) _ _ _ _
  · exact own_setMissed h1 _

/-! ## Slots -/

theorem slot_apart {n m a : Nat} (h : n ≠ m) (ha : inSlot n a) : ¬ inSlot m a := by
  unfold inSlot slotAt at *; omega

@[simp] theorem own_complete {a s : State} (h : Own a s) (n : Nat) (r : Result) (w0 w1 : Nat) :
    Own a (complete n r w0 w1 s) := by
  unfold complete
  split
  · exact h
  · rename_i tag hf
    have hn : n < Config.numSlots := by by_contra hc; rw [if_neg hc] at hf; cases hf
    rw [if_pos hn] at hf
    have hn' : n < 32 := hn
    refine h.trans ⟨fun g => ?_, fun b hb => ?_, fun m hm g => ⟨?_, fun b hb => ?_⟩⟩
    · exact memOk_write16 _ _ _ (memOk_write16 _ _ _ (memOk_write32 _ _ _ (memOk_write32 _ _ _ (memOk_write16 _ _ _ g))))
    · have e : ∀ k, n ≠ k ∨ n = k := fun k => by omega
      have hb' : b < slotAt n ∨ slotAt n + 32 ≤ b ∨ slotAt n + 2 ≤ b ∧ b < slotAt n + 4
          ∨ slotAt n + 8 ≤ b ∧ b < slotAt n + 0x18 := by
        unfold hostOwned Config.dataBase Config.numSlots at hb
        unfold slotAt Config.slotBase at *
        rcases hb with hb | ⟨k, hk, hb⟩
        · omega
        · rcases e k with hne | rfl <;> omega
      show ((((_ : State).write16 _ _).write16 _ _).read8 b) = _
      rw [read8_write16_other _ _ _ _ (by omega), read8_write16_other _ _ _ _ (by omega),
        read8_write32_other _ _ _ _ (by omega), read8_write32_other _ _ _ _ (by omega),
        read8_write16_other _ _ _ _ (by omega)]
    · have hmn : m ≠ n := by rintro rfl; rw [hf] at g; cases g
      show Tbl.find (Tbl.erase _ n) m = none
      rw [Tbl.find_erase_other _ _ _ hmn]
      have e : ∀ (x y : Nat) (t : State), (t.write16 x y).exch.inHand = t.exch.inHand := by
        intro x y t; unfold State.write16; split <;> rfl
      have e2 : ∀ (x y : Nat) (t : State), (t.write32 x y).exch.inHand = t.exch.inHand := by
        intro x y t; unfold State.write32; split <;> rfl
      rw [e, e, e2, e2, e]; exact g
    · have hmn : m ≠ n := by rintro rfl; rw [hf] at g; cases g
      have hb' : b < slotAt n ∨ slotAt n + 32 ≤ b := by unfold inSlot slotAt at *; omega
      show ((((_ : State).write16 _ _).write16 _ _).read8 b) = _
      rw [read8_write16_other _ _ _ _ (by omega), read8_write16_other _ _ _ _ (by omega),
        read8_write32_other _ _ _ _ (by omega), read8_write32_other _ _ _ _ (by omega),
        read8_write16_other _ _ _ _ (by omega)]

@[simp] theorem own_useFree {a s : State} (h : Own a s) : Own a (useFree s) := own_same h rfl rfl

@[simp] theorem own_setUnit {a s : State} (h : Own a s) (u : Discharge) : Own a (setUnit u s) := by
  unfold setUnit
  apply own_header8 _ _ _ (by decide)
  exact own_same h rfl rfl

@[simp] theorem own_setPanelState {a s : State} (h : Own a s) (p : Panel) : Own a (setPanelState p s) := by
  unfold setPanelState
  apply own_header8 _ _ _ (by decide)
  apply own_header8 _ _ _ (by decide)
  exact own_same h rfl rfl

@[simp] theorem own_setRunState {a s : State} (h : Own a s) (r : RunState) : Own a (setRunState r s) := by
  unfold setRunState
  apply own_header16 _ _ _ (by decide)
  exact own_same h rfl rfl

@[simp] theorem own_setRunCondition {a s : State} (h : Own a s) (c : RunCondition) (w : Option StopCause) :
    Own a (setRunCondition c w s) := by
  unfold setRunCondition
  apply own_header16 _ _ _ (by decide)
  apply own_header8 _ _ _ (by decide)
  apply own_header8 _ _ _ (by decide)
  exact own_same h rfl rfl

@[simp] theorem own_setPower {a s : State} (h : Own a s) (b : Bool) : Own a (setPower b s) := by
  unfold setPower
  apply own_header8 _ _ _ (by decide)
  exact own_same h rfl rfl

/-! ## A block changed -/

@[simp] theorem own_refl (s : State) : Own s s := Own.refl s

@[simp] theorem own_occ {a s : State} (h : Own a s) (x : OccUnit) : Own a { s with occ := x } := own_same h rfl rfl

@[simp] theorem own_tags {a s : State} (h : Own a s) (x : TagUnit) : Own a { s with tags := x } := own_same h rfl rfl

@[simp] theorem own_ilk {a s : State} (h : Own a s) (x : Interlocking) : Own a { s with ilk := x } := own_same h rfl rfl

@[simp] theorem own_pts {a s : State} (h : Own a s) (x : PointUnit) : Own a { s with pts := x } := own_same h rfl rfl

@[simp] theorem own_asp {a s : State} (h : Own a s) (x : AspectUnit) : Own a { s with asp := x } := own_same h rfl rfl

@[simp] theorem own_tt {a s : State} (h : Own a s) (x : Turntable) : Own a { s with tt := x } := own_same h rfl rfl

@[simp] theorem own_vis {a s : State} (h : Own a s) (x : VisitorUnit) : Own a { s with vis := x } := own_same h rfl rfl

@[simp] theorem own_disp {a s : State} (h : Own a s) (x : Display) : Own a { s with disp := x } := own_same h rfl rfl

/-! ## Lists -/

@[simp] theorem own_eachDo (l : List Nat) (f : Nat → State → State) {a s : State} (h : Own a s)
    (hf : ∀ n t, Own t (f n t)) : Own a (eachDo l f s) := by
  unfold eachDo
  induction l generalizing s with
  | nil => exact h
  | cons n l ih => rw [List.foldl_cons]; exact ih (h.trans (hf n s))

@[simp] theorem own_foldl {α : Type} (l : List α) (f : State → α → State) {a s : State} (h : Own a s)
    (hf : ∀ x t, Own t (f t x)) : Own a (l.foldl f s) := by
  induction l generalizing s with
  | nil => exact h
  | cons n l ih => rw [List.foldl_cons]; exact ih (h.trans (hf n s))

end Sys2Proof.Machine
end

