-- ==== Sys2Proof/Laws/OwnRoutes.lean ====
section
/-! SUPPORT. The mirrors, the interlocking and the point controller write only what is the part's own. -/

set_option linter.unusedTactic false
set_option linter.unreachableTactic false

namespace Sys2Proof.Machine

/-! ## Mirrors -/

@[simp] theorem own_mirrorSection {z : State} (n : Nat) (s : State) (h : Own z s) : Own z (mirrorSection n s) := by
  unfold mirrorSection; repeat' split
  all_goals first
    | exact h
    | exact own_writeWord h _ _ _ _ (by decide)

@[simp] theorem own_mirrorHead {z : State} (n : Nat) (s : State) (h : Own z s) : Own z (mirrorHead n s) := by
  unfold mirrorHead; repeat' split
  all_goals first
    | exact h
    | exact own_writeWord h _ _ _ _ (by decide)

@[simp] theorem own_mirrorTag {z : State} (n : Nat) (s : State) (h : Own z s) : Own z (mirrorTag n s) := by
  unfold mirrorTag; exact own_writeWord h _ _ _ _ (by decide)

@[simp] theorem own_mirrorActive {z : State} (n : Nat) (s : State) (h : Own z s) : Own z (mirrorActive n s) := by
  unfold mirrorActive; exact own_writeWord h _ _ _ _ (by decide)

@[simp] theorem own_mirrorStackFrom {z : State} (n k : Nat) (s : State) (h : Own z s) :
    Own z (mirrorStackFrom n k s) := by
  induction n generalizing k s with
  | zero => exact h
  | succ n ih => unfold mirrorStackFrom; exact ih _ _ (own_writeWord h _ _ _ _ (by decide))

@[simp] theorem own_mirrorStack {z : State} (s : State) (hz : Own z s) :
    Own z (mirrorStack s) := by
  unfold mirrorStack; (try dsimp only); repeat' split
  all_goals first
    | (simp (maxDischargeDepth := 60) [hz]; done)
    | exact own_same hz rfl rfl

@[simp] theorem own_mirrorPointNow {z : State} (n : Nat) (s : State) (h : Own z s) : Own z (mirrorPointNow n s) := by
  unfold mirrorPointNow; repeat' split
  all_goals first
    | exact h
    | exact own_writeWord h _ _ _ _ (by decide)

@[simp] theorem own_mirrorPoint {z : State} (n : Nat) (s : State) (hz : Own z s) :
    Own z (mirrorPoint n s) := by
  unfold mirrorPoint; (try dsimp only); repeat' split
  all_goals first
    | (simp (maxDischargeDepth := 60) [hz]; done)
    | exact own_same hz rfl rfl

@[simp] theorem own_mirrorSignalNow {z : State} (n : Nat) (s : State) (h : Own z s) : Own z (mirrorSignalNow n s) := by
  unfold mirrorSignalNow; repeat' split
  all_goals first
    | exact h
    | exact own_writeWord h _ _ _ _ (by decide)

@[simp] theorem own_mirrorSignal {z : State} (n : Nat) (s : State) (hz : Own z s) :
    Own z (mirrorSignal n s) := by
  unfold mirrorSignal; (try dsimp only); repeat' split
  all_goals first
    | (simp (maxDischargeDepth := 60) [hz]; done)
    | exact own_same hz rfl rfl

@[simp] theorem own_writeTable {z : State} (w : Nat → Nat) (s : State) (h : Own z s) : Own z (writeTable w s) := by
  unfold writeTable; exact own_eachDo _ _ h fun n t => own_writeWord (own_refl t) _ _ _ _ (by decide)

@[simp] theorem own_mirrorTable {z : State} (s : State) (h : Own z s) : Own z (mirrorTable s) := by
  unfold mirrorTable; split <;> exact own_writeTable _ _ h

@[simp] theorem own_mirrorVisitorWord {z : State} (n : Nat) (s : State) (h : Own z s) : Own z (mirrorVisitorWord n s) := by
  unfold mirrorVisitorWord; exact own_writeWord h _ _ _ _ (by decide)

@[simp] theorem own_mirrorLampWord {z : State} (n : Nat) (s : State) (h : Own z s) : Own z (mirrorLampWord n s) := by
  unfold mirrorLampWord; exact own_writeWord h _ _ _ _ (by decide)

/-! ## Handing back -/

@[simp] theorem own_setRunner {z : State} (r : Option Runner) (s : State) (hz : Own z s) :
    Own z (setRunner r s) := by
  unfold setRunner; (try dsimp only); repeat' split
  all_goals first
    | (simp (maxDischargeDepth := 60) [hz]; done)
    | exact own_same hz rfl rfl

@[simp] theorem own_stepEnds {z : State} (r : Runner) (e : StepEnd) (s : State) (hz : Own z s) :
    Own z (stepEnds r e s) := by
  unfold stepEnds; (try dsimp only); repeat' split
  all_goals first
    | (simp (maxDischargeDepth := 60) [hz]; done)
    | exact own_same hz rfl rfl

@[simp] theorem own_showRouteSet {z : State} (sh r : Nat) (s : State) (hz : Own z s) :
    Own z (showRouteSet sh r s) := by
  unfold showRouteSet; (try dsimp only); repeat' split
  all_goals first
    | (simp (maxDischargeDepth := 60) [hz]; done)
    | exact own_same hz rfl rfl

@[simp] theorem own_showRouteFailed {z : State} (sh r : Nat) (y : Result) (w : Nat) (s : State) (hz : Own z s) :
    Own z (showRouteFailed sh r y w s) := by
  unfold showRouteFailed; (try dsimp only); repeat' split
  all_goals first
    | (simp (maxDischargeDepth := 60) [hz]; done)
    | exact own_same hz rfl rfl

@[simp] theorem own_showRouteAccepted {z : State} (sh r : Nat) (s : State) (hz : Own z s) :
    Own z (showRouteAccepted sh r s) := by
  unfold showRouteAccepted; (try dsimp only); repeat' split
  all_goals first
    | (simp (maxDischargeDepth := 60) [hz]; done)
    | exact own_same hz rfl rfl

@[simp] theorem own_showRouteReleased {z : State} (sh r : Nat) (s : State) (hz : Own z s) :
    Own z (showRouteReleased sh r s) := by
  unfold showRouteReleased; (try dsimp only); repeat' split
  all_goals first
    | (simp (maxDischargeDepth := 60) [hz]; done)
    | exact own_same hz rfl rfl

@[simp] theorem own_showTurnAnswer {z : State} (sh : Nat) (r : Result) (w : Nat) (s : State) (hz : Own z s) :
    Own z (showTurnAnswer sh r w s) := by
  unfold showTurnAnswer; (try dsimp only); repeat' split
  all_goals first
    | (simp (maxDischargeDepth := 60) [hz]; done)
    | exact own_same hz rfl rfl

/-! ## Orders -/

@[simp] theorem own_setPoint {z : State} (p : Nat) (f : PointState → PointState) (s : State) (hz : Own z s) :
    Own z (setPoint p f s) := by
  unfold setPoint; (try dsimp only); repeat' split
  all_goals first
    | (simp (maxDischargeDepth := 60) [hz]; done)
    | exact own_same hz rfl rfl

@[simp] theorem own_updateLoss {z : State} (p : Nat) (s : State) (hz : Own z s) :
    Own z (updateLoss p s) := by
  unfold updateLoss; (try dsimp only); repeat' split
  all_goals first
    | (simp (maxDischargeDepth := 60) [hz]; done)
    | exact own_same hz rfl rfl

@[simp] theorem own_touchPoint {z : State} (p : Nat) (s : State) (hz : Own z s) :
    Own z (touchPoint p s) := by
  unfold touchPoint; (try dsimp only); repeat' split
  all_goals first
    | (simp (maxDischargeDepth := 60) [hz]; done)
    | exact own_same hz rfl rfl

@[simp] theorem own_setOrders {z : State} (q o : List Order) (s : State) (hz : Own z s) :
    Own z (setOrders q o s) := by
  unfold setOrders; (try dsimp only); repeat' split
  all_goals first
    | (simp (maxDischargeDepth := 60) [hz]; done)
    | exact own_same hz rfl rfl

@[simp] theorem own_wantPass {z : State} (s : State) (hz : Own z s) :
    Own z (wantPass s) := by
  unfold wantPass; (try dsimp only); repeat' split
  all_goals first
    | (simp (maxDischargeDepth := 60) [hz]; done)
    | exact own_same hz rfl rfl

@[simp] theorem own_wantReexam {z : State} (s : State) (hz : Own z s) :
    Own z (wantReexam s) := by
  unfold wantReexam; (try dsimp only); repeat' split
  all_goals first
    | (simp (maxDischargeDepth := 60) [hz]; done)
    | exact own_same hz rfl rfl

@[simp] theorem own_wantAspects {z : State} (s : State) (hz : Own z s) :
    Own z (wantAspects s) := by
  unfold wantAspects; (try dsimp only); repeat' split
  all_goals first
    | (simp (maxDischargeDepth := 60) [hz]; done)
    | exact own_same hz rfl rfl

@[simp] theorem own_giveOrder {z : State} (o : Order) (s : State) (hz : Own z s) :
    Own z (giveOrder o s) := by
  unfold giveOrder; (try dsimp only); repeat' split
  all_goals first
    | (simp (maxDischargeDepth := 60) [hz]; done)
    | exact own_same hz rfl rfl

@[simp] theorem own_fillQueue {z : State} (s : State) (hz : Own z s) :
    Own z (fillQueue s) := by
  unfold fillQueue; (try dsimp only); repeat' split
  all_goals first
    | (simp (maxDischargeDepth := 60) [hz]; done)
    | exact own_same hz rfl rfl

@[simp] theorem own_removeOrder {z : State} (p : Nat) (s : State) (hz : Own z s) :
    Own z (removeOrder p s) := by
  unfold removeOrder; (try dsimp only); repeat' split
  all_goals first
    | (simp (maxDischargeDepth := 60) [hz]; done)
    | exact own_same hz rfl rfl

@[simp] theorem own_changeOrder {z : State} (p : Nat) (f : Order → Order) (s : State) (hz : Own z s) :
    Own z (changeOrder p f s) := by
  unfold changeOrder; (try dsimp only); repeat' split
  all_goals first
    | (simp (maxDischargeDepth := 60) [hz]; done)
    | exact own_same hz rfl rfl

@[simp] theorem own_withdraw {z : State} (e : Nat) (s : State) (hz : Own z s) :
    Own z (withdraw e s) := by
  unfold withdraw; (try dsimp only); repeat' split
  all_goals first
    | (simp (maxDischargeDepth := 60) [hz]; done)
    | exact own_same hz rfl rfl

/-! ## Routes -/

@[simp] theorem own_setLock {z : State} (n : Nat) (r : Option Nat) (s : State) (hz : Own z s) :
    Own z (setLock n r s) := by
  unfold setLock; dsimp only; apply own_mirrorSection; split <;> exact own_same hz rfl rfl

@[simp] theorem own_setHolders {z : State} (p : Nat) (h : Holders) (s : State) (hz : Own z s) :
    Own z (setHolders p h s) := by
  unfold setHolders; (try dsimp only); repeat' split
  all_goals first
    | (simp (maxDischargeDepth := 60) [hz]; done)
    | exact own_same hz rfl rfl

@[simp] theorem own_addHolder {z : State} (p : Nat) (l : Lie) (r : Nat) (s : State) (hz : Own z s) :
    Own z (addHolder p l r s) := by
  unfold addHolder; (try dsimp only); repeat' split
  all_goals first
    | (simp (maxDischargeDepth := 60) [hz]; done)
    | exact own_same hz rfl rfl

@[simp] theorem own_removeHolder {z : State} (p r : Nat) (s : State) (hz : Own z s) :
    Own z (removeHolder p r s) := by
  unfold removeHolder; (try dsimp only); repeat' split
  all_goals first
    | (simp (maxDischargeDepth := 60) [hz]; done)
    | exact own_same hz rfl rfl

@[simp] theorem own_putActive {z : State} (e : Nat) (a : Active) (s : State) (hz : Own z s) :
    Own z (putActive e a s) := by
  unfold putActive; (try dsimp only); repeat' split
  all_goals first
    | (simp (maxDischargeDepth := 60) [hz]; done)
    | exact own_same hz rfl rfl

@[simp] theorem own_setActive {z : State} (e : Nat) (a : Active) (s : State) (hz : Own z s) :
    Own z (setActive e a s) := by
  unfold setActive; (try dsimp only); repeat' split
  all_goals first
    | (simp (maxDischargeDepth := 60) [hz]; done)
    | exact own_same hz rfl rfl

@[simp] theorem own_answerSlot {z : State} (e : Nat) (r : Result) (w0 w1 : Nat) (s : State) (hz : Own z s) :
    Own z (answerSlot e r w0 w1 s) := by
  unfold answerSlot; repeat' split
  all_goals simp [hz]

@[simp] theorem own_tellShow {z : State} (a : Active) (f : Nat → Nat → State → State) (s : State) (hz : Own z s)
    (hf : ∀ x y t, Own t (f x y t)) : Own z (tellShow a f s) := by
  unfold tellShow; split
  · exact hz.trans (hf _ _ _)
  · exact hz

@[simp] theorem own_releaseWhole {z : State} (e : Nat) (y : Ending) (s : State) (hz : Own z s) :
    Own z (releaseWhole e y s) := by
  unfold releaseWhole; (try dsimp only); repeat' split
  all_goals first
    | (simp (maxDischargeDepth := 60) [hz]; done)
    | exact own_same hz rfl rfl

@[simp] theorem own_endIfDone {z : State} (e : Nat) (s : State) (hz : Own z s) :
    Own z (endIfDone e s) := by
  unfold endIfDone; (try dsimp only); repeat' split
  all_goals first
    | (simp (maxDischargeDepth := 60) [hz]; done)
    | exact own_same hz rfl rfl

@[simp] theorem own_releaseOverlap {z : State} (e : Nat) (s : State) (hz : Own z s) :
    Own z (releaseOverlap e s) := by
  unfold releaseOverlap; (try dsimp only); repeat' split
  all_goals first
    | (simp (maxDischargeDepth := 60) [hz]; done)
    | exact own_same hz rfl rfl

@[simp] theorem own_startOverlap {z : State} (e : Nat) (s : State) (hz : Own z s) :
    Own z (startOverlap e s) := by
  unfold startOverlap; (try dsimp only); repeat' split
  all_goals first
    | (simp (maxDischargeDepth := 60) [hz]; done)
    | exact own_same hz rfl rfl

@[simp] theorem own_startOverlapAtEntry {z : State} (e : Nat) (r : RouteRec) (s : State) (hz : Own z s) :
    Own z (startOverlapAtEntry e r s) := by
  unfold startOverlapAtEntry; (try dsimp only); repeat' split
  all_goals first
    | (simp (maxDischargeDepth := 60) [hz]; done)
    | exact own_same hz rfl rfl

@[simp] theorem own_releasePoints {z : State} (a : Active) (l : List Nat) (s : State) (hz : Own z s) :
    Own z (releasePoints a l s) := by
  unfold releasePoints; (try dsimp only); repeat' split
  all_goals first
    | (simp (maxDischargeDepth := 60) [hz]; done)
    | exact own_same hz rfl rfl

@[simp] theorem own_releaseSection {z : State} (e : Nat) (r : RouteRec) (n i : Nat) (s : State) (hz : Own z s) :
    Own z (releaseSection e r n i s) := by
  unfold releaseSection; (try dsimp only); repeat' split
  all_goals first
    | (simp (maxDischargeDepth := 60) [hz]; done)
    | exact own_same hz rfl rfl

@[simp] theorem own_walkFrom {z : State} (e : Nat) (r : RouteRec) (l : List (Nat × Nat)) (s : State) (hz : Own z s) :
    Own z (walkFrom e r l s) := by
  induction l generalizing s with
  | nil => exact hz
  | cons x l ih =>
    unfold walkFrom; repeat' split
    all_goals simp [hz, ih]

@[simp] theorem own_walk {z : State} (e : Nat) (s : State) (hz : Own z s) :
    Own z (walk e s) := by
  unfold walk; (try dsimp only); repeat' split
  all_goals first
    | (simp (maxDischargeDepth := 60) [hz]; done)
    | exact own_same hz rfl rfl

@[simp] theorem own_reportRunning {z : State} (e : Nat) (a : Active) (l : RouteState) (s : State) (hz : Own z s) :
    Own z (reportRunning e a l s) := by
  unfold reportRunning; (try dsimp only); repeat' split
  all_goals first
    | (simp (maxDischargeDepth := 60) [hz]; done)
    | exact own_same hz rfl rfl

@[simp] theorem own_immediateEntry {z : State} (e : Nat) (s : State) (hz : Own z s) :
    Own z (immediateEntry e s) := by
  unfold immediateEntry; (try dsimp only); repeat' split
  all_goals first
    | (simp (maxDischargeDepth := 60) [hz]; done)
    | exact own_same hz rfl rfl

@[simp] theorem own_becomeSet {z : State} (e : Nat) (l : RouteState) (s : State) (hz : Own z s) :
    Own z (becomeSet e l s) := by
  unfold becomeSet; (try dsimp only); repeat' split
  all_goals first
    | (simp (maxDischargeDepth := 60) [hz]; done)
    | exact own_same hz rfl rfl

@[simp] theorem own_testProved {z : State} (e : Nat) (s : State) (hz : Own z s) :
    Own z (testProved e s) := by
  unfold testProved; (try dsimp only); repeat' split
  all_goals first
    | (simp (maxDischargeDepth := 60) [hz]; done)
    | exact own_same hz rfl rfl

@[simp] theorem own_holdRoute {z : State} (e : Nat) (y : HeldCause) (i : Nat) (s : State) (hz : Own z s) :
    Own z (holdRoute e y i s) := by
  unfold holdRoute; (try dsimp only); repeat' split
  all_goals first
    | (simp (maxDischargeDepth := 60) [hz]; done)
    | exact own_same hz rfl rfl

@[simp] theorem own_pointLost {z : State} (p : Nat) (s : State) (hz : Own z s) :
    Own z (pointLost p s) := by
  unfold pointLost; (try dsimp only); repeat' split
  all_goals first
    | (simp (maxDischargeDepth := 60) [hz]; done)
    | exact own_same hz rfl rfl

@[simp] theorem own_pointTested {z : State} (p : Nat) (s : State) (hz : Own z s) :
    Own z (pointTested p s) := by
  unfold pointTested; (try dsimp only); repeat' split
  all_goals first
    | (simp (maxDischargeDepth := 60) [hz]; done)
    | exact own_same hz rfl rfl

@[simp] theorem own_failRoute {z : State} (p e : Nat) (s : State) (hz : Own z s) :
    Own z (failRoute p e s) := by
  unfold failRoute; (try dsimp only); repeat' split
  all_goals first
    | (simp (maxDischargeDepth := 60) [hz]; done)
    | exact own_same hz rfl rfl

@[simp] theorem own_failRoutes {z : State} (p : Nat) (s : State) (hz : Own z s) :
    Own z (failRoutes p s) := by
  unfold failRoutes; (try dsimp only); repeat' split
  all_goals first
    | (simp (maxDischargeDepth := 60) [hz]; done)
    | exact own_same hz rfl rfl

@[simp] theorem own_routeOrderEnded {z : State} (e p : Nat) (s : State) (hz : Own z s) :
    Own z (routeOrderEnded e p s) := by
  unfold routeOrderEnded; (try dsimp only); repeat' split
  all_goals first
    | (simp (maxDischargeDepth := 60) [hz]; done)
    | exact own_same hz rfl rfl

@[simp] theorem own_enterRoute {z : State} (e : Nat) (g : Option Nat) (s : State) (hz : Own z s) :
    Own z (enterRoute e g s) := by
  unfold enterRoute; (try dsimp only); repeat' split
  all_goals first
    | (simp (maxDischargeDepth := 60) [hz]; done)
    | exact own_same hz rfl rfl

@[simp] theorem own_runningSection {z : State} (e n : Nat) (r : RouteRec) (st : SectionState) (g : Option Nat) (s : State) (hz : Own z s) :
    Own z (runningSection e n r st g s) := by
  unfold runningSection; (try dsimp only); repeat' split
  all_goals first
    | (simp (maxDischargeDepth := 60) [hz]; done)
    | exact own_same hz rfl rfl

theorem own_routeSection {z : State} (n : Nat) (st : SectionState) (g : Option Nat) (acc : State × List EntryNote) (e : Nat)
    (hz : Own z acc.1) : Own z (routeSection n st g acc e).1 := by
  unfold routeSection; dsimp only; repeat' split
  all_goals simp [hz]

@[simp] theorem own_routesSectionChange {z : State} (n : Nat) (st : SectionState) (g : Option Nat) (s : State)
    (hz : Own z s) : Own z (routesSectionChange n st g s).1 := by
  unfold routesSectionChange
  generalize ([] : List EntryNote) = notes
  generalize Tbl.keys s.ilk.active = l
  suffices h : ∀ acc : State × List EntryNote, Own z acc.1 → Own z (l.foldl (routeSection n st g) acc).1 from
    h (s, notes) hz
  induction l with
  | nil => intro acc h; exact h
  | cons x l ih => intro acc h; rw [List.foldl_cons]; exact ih _ (own_routeSection _ _ _ _ _ h)

@[simp] theorem own_routesAllStop {z : State} (s : State) (hz : Own z s) :
    Own z (routesAllStop s) := by
  unfold routesAllStop; (try dsimp only); repeat' split
  all_goals first
    | (simp (maxDischargeDepth := 60) [hz]; done)
    | exact own_same hz rfl rfl

@[simp] theorem own_routesResume {z : State} (s : State) (hz : Own z s) :
    Own z (routesResume s) := by
  unfold routesResume; (try dsimp only); repeat' split
  all_goals first
    | (simp (maxDischargeDepth := 60) [hz]; done)
    | exact own_same hz rfl rfl

/-! ## Points -/

@[simp] theorem own_reportMoved {z : State} (p : Nat) (l : DetLie) (o : Nat) (s : State) (hz : Own z s) :
    Own z (reportMoved p l o s) := by
  unfold reportMoved; (try dsimp only); repeat' split
  all_goals first
    | (simp (maxDischargeDepth := 60) [hz]; done)
    | exact own_same hz rfl rfl

@[simp] theorem own_reportLost {z : State} (p : Nat) (l : DetLie) (s : State) (hz : Own z s) :
    Own z (reportLost p l s) := by
  unfold reportLost; (try dsimp only); repeat' split
  all_goals first
    | (simp (maxDischargeDepth := 60) [hz]; done)
    | exact own_same hz rfl rfl

@[simp] theorem own_lieChanged {z : State} (p : Nat) (l : DetLie) (s : State) (hz : Own z s) :
    Own z (lieChanged p l s) := by
  unfold lieChanged; dsimp only; apply own_pointTested; split
  · apply own_wantReexam
    repeat' split
    all_goals simp (maxDischargeDepth := 60) [hz]
  · repeat' split
    all_goals simp (maxDischargeDepth := 60) [hz]

@[simp] theorem own_rederive {z : State} (p : Nat) (s : State) (hz : Own z s) :
    Own z (rederive p s) := by
  unfold rederive; (try dsimp only); repeat' split
  all_goals first
    | (simp (maxDischargeDepth := 60) [hz]; done)
    | exact own_same hz rfl rfl

@[simp] theorem own_endOrder {z : State} (p : Nat) (s : State) (hz : Own z s) :
    Own z (endOrder p s) := by
  unfold endOrder; (try dsimp only); repeat' split
  all_goals first
    | (simp (maxDischargeDepth := 60) [hz]; done)
    | exact own_same hz rfl rfl

@[simp] theorem own_orderArrived {z : State} (p : Nat) (s : State) (hz : Own z s) : Own z (orderArrived p s) := by
  unfold orderArrived; split
  · dsimp only; apply own_pointTested
    repeat' split
    all_goals simp (maxDischargeDepth := 60) [hz]
  · exact hz

@[simp] theorem own_failPoint {z : State} (p : Nat) (c : PointCause) (s : State) (hz : Own z s) :
    Own z (failPoint p c s) := by
  unfold failPoint; (try dsimp only); repeat' split
  all_goals first
    | (simp (maxDischargeDepth := 60) [hz]; done)
    | exact own_same hz rfl rfl

@[simp] theorem own_orderFailed {z : State} (p : Nat) (c : PointCause) (s : State) (hz : Own z s) :
    Own z (orderFailed p c s) := by
  unfold orderFailed; split
  · dsimp only; apply own_failRoutes; split <;> simp (maxDischargeDepth := 60) [hz]
  · exact hz

@[simp] theorem own_orderOccupied {z : State} (p n : Nat) (s : State) (hz : Own z s) :
    Own z (orderOccupied p n s) := by
  unfold orderOccupied; (try dsimp only); repeat' split
  all_goals first
    | (simp (maxDischargeDepth := 60) [hz]; done)
    | exact own_same hz rfl rfl

@[simp] theorem own_startPulse {z : State} (p : Nat) (o : Order) (s : State) (hz : Own z s) :
    Own z (startPulse p o s) := by
  unfold startPulse; (try dsimp only); repeat' split
  all_goals first
    | (simp (maxDischargeDepth := 60) [hz]; done)
    | exact own_same hz rfl rfl

@[simp] theorem own_startTravel {z : State} (p : Nat) (o : Order) (r : PointRec) (s : State) (hz : Own z s) :
    Own z (startTravel p o r s) := by
  unfold startTravel; (try dsimp only); repeat' split
  all_goals first
    | (simp (maxDischargeDepth := 60) [hz]; done)
    | exact own_same hz rfl rfl

@[simp] theorem own_dispatchQueued {z : State} (p : Nat) (o : Order) (r : PointRec) (s : State) (hz : Own z s) :
    Own z (dispatchQueued p o r s) := by
  unfold dispatchQueued; (try dsimp only); repeat' split
  all_goals first
    | (simp (maxDischargeDepth := 60) [hz]; done)
    | exact own_same hz rfl rfl

@[simp] theorem own_dispatchOne {z : State} (p : Nat) (s : State) (hz : Own z s) :
    Own z (dispatchOne p s) := by
  unfold dispatchOne; (try dsimp only); repeat' split
  all_goals first
    | (simp (maxDischargeDepth := 60) [hz]; done)
    | exact own_same hz rfl rfl

@[simp] theorem own_dispatcherPass {z : State} (s : State) (hz : Own z s) :
    Own z (dispatcherPass s) := by
  unfold dispatcherPass; (try dsimp only); repeat' split
  all_goals first
    | (simp (maxDischargeDepth := 60) [hz]; done)
    | exact own_same hz rfl rfl

@[simp] theorem own_contactChanged {z : State} (p : Nat) (s : State) (hz : Own z s) :
    Own z (contactChanged p s) := by
  unfold contactChanged; (try dsimp only); repeat' split
  all_goals first
    | (simp (maxDischargeDepth := 60) [hz]; done)
    | exact own_same hz rfl rfl

@[simp] theorem own_startRecharge {z : State} (s : State) (hz : Own z s) :
    Own z (startRecharge s) := by
  unfold startRecharge; (try dsimp only); repeat' split
  all_goals first
    | (simp (maxDischargeDepth := 60) [hz]; done)
    | exact own_same hz rfl rfl

@[simp] theorem own_pulseEnded {z : State} (p : Nat) (s : State) (hz : Own z s) :
    Own z (pulseEnded p s) := by
  unfold pulseEnded; (try dsimp only); repeat' split
  all_goals first
    | (simp (maxDischargeDepth := 60) [hz]; done)
    | exact own_same hz rfl rfl

@[simp] theorem own_pulseExpires {z : State} (s : State) (hz : Own z s) :
    Own z (pulseExpires s) := by
  unfold pulseExpires; (try dsimp only); repeat' split
  all_goals first
    | (simp (maxDischargeDepth := 60) [hz]; done)
    | exact own_same hz rfl rfl

@[simp] theorem own_moveToHead {z : State} (p : Nat) (s : State) (hz : Own z s) :
    Own z (moveToHead p s) := by
  unfold moveToHead; (try dsimp only); repeat' split
  all_goals first
    | (simp (maxDischargeDepth := 60) [hz]; done)
    | exact own_same hz rfl rfl

@[simp] theorem own_windowExpires {z : State} (p : Nat) (s : State) (hz : Own z s) :
    Own z (windowExpires p s) := by
  unfold windowExpires; (try dsimp only); repeat' split
  all_goals first
    | (simp (maxDischargeDepth := 60) [hz]; done)
    | exact own_same hz rfl rfl

@[simp] theorem own_rechargeExpires {z : State} (s : State) (hz : Own z s) :
    Own z (rechargeExpires s) := by
  unfold rechargeExpires; (try dsimp only); repeat' split
  all_goals first
    | (simp (maxDischargeDepth := 60) [hz]; done)
    | exact own_same hz rfl rfl

@[simp] theorem own_travelExpires {z : State} (p : Nat) (s : State) (hz : Own z s) :
    Own z (travelExpires p s) := by
  unfold travelExpires; (try dsimp only); repeat' split
  all_goals first
    | (simp (maxDischargeDepth := 60) [hz]; done)
    | exact own_same hz rfl rfl

@[simp] theorem own_lossExpires {z : State} (p : Nat) (s : State) (hz : Own z s) :
    Own z (lossExpires p s) := by
  unfold lossExpires; (try dsimp only); repeat' split
  all_goals first
    | (simp (maxDischargeDepth := 60) [hz]; done)
    | exact own_same hz rfl rfl

@[simp] theorem own_movePoint {z : State} (n p l : Nat) (s : State) (hz : Own z s) :
    Own z (movePoint n p l s) := by
  unfold movePoint; (try dsimp only); repeat' split
  all_goals first
    | (simp (maxDischargeDepth := 60) [hz]; done)
    | exact own_same hz rfl rfl

@[simp] theorem own_restore {z : State} (p : Nat) (s : State) (hz : Own z s) :
    Own z (restore p s) := by
  unfold restore; (try dsimp only); repeat' split
  all_goals first
    | (simp (maxDischargeDepth := 60) [hz]; done)
    | exact own_same hz rfl rfl

@[simp] theorem own_restorePoint {z : State} (n p : Nat) (s : State) (hz : Own z s) :
    Own z (restorePoint n p s) := by
  unfold restorePoint; (try dsimp only); repeat' split
  all_goals first
    | (simp (maxDischargeDepth := 60) [hz]; done)
    | exact own_same hz rfl rfl

/-! ## Route requests -/

@[simp] theorem own_acceptRoute {z : State} (r : Nat) (o : Originator) (src : Source) (s : State) (hz : Own z s) :
    Own z (acceptRoute r o src s) := by
  unfold acceptRoute; (try dsimp only); repeat' split
  all_goals first
    | (simp (maxDischargeDepth := 60) [hz]; done)
    | exact own_same hz rfl rfl

@[simp] theorem own_setStack {z : State} (l : List StackEntry) (s : State) (hz : Own z s) :
    Own z (setStack l s) := by
  unfold setStack; (try dsimp only); repeat' split
  all_goals first
    | (simp (maxDischargeDepth := 60) [hz]; done)
    | exact own_same hz rfl rfl

@[simp] theorem own_joinStack {z : State} (r : Nat) (o : Originator) (src : Source) (a : Answer) (s : State) (hz : Own z s) :
    Own z (joinStack r o src a s) := by
  unfold joinStack; (try dsimp only); repeat' split
  all_goals first
    | (simp (maxDischargeDepth := 60) [hz]; done)
    | exact own_same hz rfl rfl

@[simp] theorem own_leaveStack {z : State} (r : Nat) (s : State) (hz : Own z s) :
    Own z (leaveStack r s) := by
  unfold leaveStack; (try dsimp only); repeat' split
  all_goals first
    | (simp (maxDischargeDepth := 60) [hz]; done)
    | exact own_same hz rfl rfl

@[simp] theorem own_requestRoute {z : State} (r : Nat) (o : Originator) (b : Bool) (src : Source) (s : State) (hz : Own z s) :
    Own z (requestRoute r o b src s).1 := by
  unfold requestRoute; (try dsimp only); repeat' split
  all_goals first
    | (simp (maxDischargeDepth := 60) [hz]; done)
    | exact own_same hz rfl rfl

@[simp] theorem own_setRoute {z : State} (n r w1 w2 : Nat) (s : State) (hz : Own z s) :
    Own z (setRoute n r w1 w2 s) := by
  unfold setRoute; split
  · simp [hz]
  · split
    · simp [hz]
    · rename_i o _ _
      have h := own_requestRoute r o (bitsOf w2 0 1 == 1) (.slot n) s hz
      split <;> rename_i heq <;> rw [heq] at h
      · exact h
      · exact own_complete h _ _ _ _

@[simp] theorem own_answerStacked {z : State} (x : StackEntry) (a : Answer) (s : State) (hz : Own z s) :
    Own z (answerStacked x a s) := by
  unfold answerStacked; (try dsimp only); repeat' split
  all_goals first
    | (simp (maxDischargeDepth := 60) [hz]; done)
    | exact own_same hz rfl rfl

@[simp] theorem own_keepStacked {z : State} (x : StackEntry) (a : Answer) (s : State) (hz : Own z s) :
    Own z (keepStacked x a s) := by
  unfold keepStacked; (try dsimp only); repeat' split
  all_goals first
    | (simp (maxDischargeDepth := 60) [hz]; done)
    | exact own_same hz rfl rfl

@[simp] theorem own_reexamineOne {z : State} (r : Nat) (s : State) (hz : Own z s) :
    Own z (reexamineOne r s) := by
  unfold reexamineOne; (try dsimp only); repeat' split
  all_goals first
    | (simp (maxDischargeDepth := 60) [hz]; done)
    | exact own_same hz rfl rfl

@[simp] theorem own_reexamine {z : State} (s : State) (hz : Own z s) :
    Own z (reexamine s) := by
  unfold reexamine; (try dsimp only); repeat' split
  all_goals first
    | (simp (maxDischargeDepth := 60) [hz]; done)
    | exact own_same hz rfl rfl

@[simp] theorem own_stackExpires {z : State} (r : Nat) (s : State) (hz : Own z s) :
    Own z (stackExpires r s) := by
  unfold stackExpires; (try dsimp only); repeat' split
  all_goals first
    | (simp (maxDischargeDepth := 60) [hz]; done)
    | exact own_same hz rfl rfl

@[simp] theorem own_removeShowEntries {z : State} (sh : Nat) (s : State) (hz : Own z s) :
    Own z (removeShowEntries sh s) := by
  unfold removeShowEntries; (try dsimp only); repeat' split
  all_goals first
    | (simp (maxDischargeDepth := 60) [hz]; done)
    | exact own_same hz rfl rfl

@[simp] theorem own_cancelSetting {z : State} (e : Nat) (a : Active) (s : State) (hz : Own z s) :
    Own z (cancelSetting e a s) := by
  unfold cancelSetting; (try dsimp only); repeat' split
  all_goals first
    | (simp (maxDischargeDepth := 60) [hz]; done)
    | exact own_same hz rfl rfl

@[simp] theorem own_giveUp {z : State} (e : Nat) (w : Ending) (s : State) (hz : Own z s) :
    Own z (giveUp e w s) := by
  unfold giveUp; (try dsimp only); repeat' split
  all_goals first
    | (simp (maxDischargeDepth := 60) [hz]; done)
    | exact own_same hz rfl rfl

@[simp] theorem own_cancelSet {z : State} (e : Nat) (a : Active) (s : State) (hz : Own z s) :
    Own z (cancelSet e a s) := by
  unfold cancelSet; (try dsimp only); repeat' split
  all_goals first
    | (simp (maxDischargeDepth := 60) [hz]; done)
    | exact own_same hz rfl rfl

@[simp] theorem own_cancelRoute {z : State} (r : Nat) (b : Bool) (s : State) (hz : Own z s) :
    Own z (cancelRoute r b s).1 := by
  unfold cancelRoute; (try dsimp only); repeat' split
  all_goals first
    | (simp (maxDischargeDepth := 60) [hz]; done)
    | exact own_same hz rfl rfl

@[simp] theorem own_cancelRequest {z : State} (n r : Nat) (s : State) (hz : Own z s) :
    Own z (cancelRequest n r s) := by
  unfold cancelRequest; (try dsimp only); repeat' split
  all_goals first
    | (simp (maxDischargeDepth := 60) [hz]; done)
    | exact own_same hz rfl rfl

@[simp] theorem own_overlapExpires {z : State} (e : Nat) (s : State) (hz : Own z s) :
    Own z (overlapExpires e s) := by
  unfold overlapExpires; (try dsimp only); repeat' split
  all_goals first
    | (simp (maxDischargeDepth := 60) [hz]; done)
    | exact own_same hz rfl rfl

@[simp] theorem own_approachExpires {z : State} (e : Nat) (s : State) (hz : Own z s) :
    Own z (approachExpires e s) := by
  unfold approachExpires; (try dsimp only); repeat' split
  all_goals first
    | (simp (maxDischargeDepth := 60) [hz]; done)
    | exact own_same hz rfl rfl

end Sys2Proof.Machine
end

