-- ==== Sys2Proof/Laws/OwnPanel.lean ====
section
/-! SUPPORT. The turntable, the show runner, the display and the end of a handling write only what is the part's own. -/

set_option linter.unusedTactic false
set_option linter.unreachableTactic false

namespace Sys2Proof.Machine

/-! ## The turntable -/

@[simp] theorem own_setDeck {z : State} (f : Turntable → Turntable) (s : State) (hz : Own z s) : Own z (setDeck f s) := by
  unfold setDeck; exact own_mirrorTable _ (own_same hz rfl rfl)

@[simp] theorem own_updateFeed {z : State} (s : State) (hz : Own z s) :
    Own z (updateFeed s) := by
  unfold updateFeed; (try dsimp only); repeat' split
  all_goals first
    | (simp (maxDischargeDepth := 60) [hz]; done)
    | exact own_same hz rfl rfl

@[simp] theorem own_enterDeck {z : State} (n : DeckState) (s : State) (hz : Own z s) :
    Own z (enterDeck n s) := by
  unfold enterDeck; (try dsimp only); repeat' split
  all_goals first
    | (simp (maxDischargeDepth := 60) [hz]; done)
    | exact own_same hz rfl rfl

@[simp] theorem own_answerRequester {z : State} (r : Result) (w0 w1 : Nat) (s : State) (hz : Own z s) :
    Own z (answerRequester r w0 w1 s) := by
  unfold answerRequester; (try dsimp only); repeat' split
  all_goals first
    | (simp (maxDischargeDepth := 60) [hz]; done)
    | exact own_same hz rfl rfl

@[simp] theorem own_enterFault {z : State} (c : FaultCause) (s : State) (hz : Own z s) :
    Own z (enterFault c s) := by
  unfold enterFault; (try dsimp only); repeat' split
  all_goals first
    | (simp (maxDischargeDepth := 60) [hz]; done)
    | exact own_same hz rfl rfl

@[simp] theorem own_enterHalted {z : State} (s : State) (hz : Own z s) :
    Own z (enterHalted s) := by
  unfold enterHalted; (try dsimp only); repeat' split
  all_goals first
    | (simp (maxDischargeDepth := 60) [hz]; done)
    | exact own_same hz rfl rfl

@[simp] theorem own_enterUnreferenced {z : State} (s : State) (hz : Own z s) :
    Own z (enterUnreferenced s) := by
  unfold enterUnreferenced; (try dsimp only); repeat' split
  all_goals first
    | (simp (maxDischargeDepth := 60) [hz]; done)
    | exact own_same hz rfl rfl

@[simp] theorem own_takeAlignment {z : State} (x : RoadEnd) (s : State) (hz : Own z s) :
    Own z (takeAlignment x s) := by
  unfold takeAlignment; (try dsimp only); repeat' split
  all_goals first
    | (simp (maxDischargeDepth := 60) [hz]; done)
    | exact own_same hz rfl rfl

@[simp] theorem own_enterAligned {z : State} (s : State) (hz : Own z s) :
    Own z (enterAligned s) := by
  unfold enterAligned; (try dsimp only); repeat' split
  all_goals first
    | (simp (maxDischargeDepth := 60) [hz]; done)
    | exact own_same hz rfl rfl

@[simp] theorem own_enterBolting {z : State} (d : DeckRec) (s : State) (hz : Own z s) :
    Own z (enterBolting d s) := by
  unfold enterBolting; (try dsimp only); repeat' split
  all_goals first
    | (simp (maxDischargeDepth := 60) [hz]; done)
    | exact own_same hz rfl rfl

@[simp] theorem own_enterSettling {z : State} (d : DeckRec) (s : State) (hz : Own z s) :
    Own z (enterSettling d s) := by
  unfold enterSettling; (try dsimp only); repeat' split
  all_goals first
    | (simp (maxDischargeDepth := 60) [hz]; done)
    | exact own_same hz rfl rfl

@[simp] theorem own_planMove {z : State} (d : DeckRec) (g : Nat) (s : State) (hz : Own z s) :
    Own z (planMove d g s) := by
  unfold planMove; (try dsimp only); repeat' split
  all_goals first
    | (simp (maxDischargeDepth := 60) [hz]; done)
    | exact own_same hz rfl rfl

@[simp] theorem own_beginLeg {z : State} (d : DeckRec) (s : State) (hz : Own z s) :
    Own z (beginLeg d s) := by
  unfold beginLeg; (try dsimp only); repeat' split
  all_goals first
    | (simp (maxDischargeDepth := 60) [hz]; done)
    | exact own_same hz rfl rfl

@[simp] theorem own_enterMoving {z : State} (d : DeckRec) (s : State) (hz : Own z s) :
    Own z (enterMoving d s) := by
  unfold enterMoving; (try dsimp only); repeat' split
  all_goals first
    | (simp (maxDischargeDepth := 60) [hz]; done)
    | exact own_same hz rfl rfl

@[simp] theorem own_snapDecision {z : State} (d : DeckRec) (s : State) (hz : Own z s) :
    Own z (snapDecision d s) := by
  unfold snapDecision; (try dsimp only); repeat' split
  all_goals first
    | (simp (maxDischargeDepth := 60) [hz]; done)
    | exact own_same hz rfl rfl

@[simp] theorem own_enterStopping {z : State} (d : DeckRec) (s : State) (hz : Own z s) :
    Own z (enterStopping d s) := by
  unfold enterStopping; (try dsimp only); repeat' split
  all_goals first
    | (simp (maxDischargeDepth := 60) [hz]; done)
    | exact own_same hz rfl rfl

@[simp] theorem own_enterJogging {z : State} (d : DeckRec) (s : State) (hz : Own z s) :
    Own z (enterJogging d s) := by
  unfold enterJogging; (try dsimp only); repeat' split
  all_goals first
    | (simp (maxDischargeDepth := 60) [hz]; done)
    | exact own_same hz rfl rfl

@[simp] theorem own_enterHoming {z : State} (d : DeckRec) (s : State) (hz : Own z s) :
    Own z (enterHoming d s) := by
  unfold enterHoming; (try dsimp only); repeat' split
  all_goals first
    | (simp (maxDischargeDepth := 60) [hz]; done)
    | exact own_same hz rfl rfl

@[simp] theorem own_endUnbolting {z : State} (d : DeckRec) (s : State) (hz : Own z s) :
    Own z (endUnbolting d s) := by
  unfold endUnbolting; (try dsimp only); repeat' split
  all_goals first
    | (simp (maxDischargeDepth := 60) [hz]; done)
    | exact own_same hz rfl rfl

@[simp] theorem own_enterUnbolting {z : State} (d : DeckRec) (s : State) (hz : Own z s) :
    Own z (enterUnbolting d s) := by
  unfold enterUnbolting; (try dsimp only); repeat' split
  all_goals first
    | (simp (maxDischargeDepth := 60) [hz]; done)
    | exact own_same hz rfl rfl

@[simp] theorem own_turnAccepted {z : State} (d : DeckRec) (q : Requester) (x : RoadEnd) (s : State) (hz : Own z s) :
    Own z (turnAccepted d q x s).1 := by
  unfold turnAccepted; (try dsimp only); repeat' split
  all_goals first
    | (simp (maxDischargeDepth := 60) [hz]; done)
    | exact own_same hz rfl rfl

@[simp] theorem own_turnRequest {z : State} (q : Requester) (r e : Nat) (s : State) (hz : Own z s) :
    Own z (turnRequest q r e s).1 := by
  unfold turnRequest; (try dsimp only); repeat' split
  all_goals first
    | (simp (maxDischargeDepth := 60) [hz]; done)
    | exact own_same hz rfl rfl

@[simp] theorem own_turnTable {z : State} (n r e : Nat) (s : State) (hz : Own z s) : Own z (turnTable n r e s) := by
  have h := own_turnRequest (.slot n) r e s hz
  unfold turnTable; split <;> rename_i heq <;> rw [heq] at h
  · exact h
  · exact own_complete h _ _ _ _

@[simp] theorem own_homeAccepted {z : State} (d : DeckRec) (n : Nat) (x : RoadEnd) (s : State) (hz : Own z s) :
    Own z (homeAccepted d n x s) := by
  unfold homeAccepted; (try dsimp only); repeat' split
  all_goals first
    | (simp (maxDischargeDepth := 60) [hz]; done)
    | exact own_same hz rfl rfl

@[simp] theorem own_homeTable {z : State} (n r e : Nat) (s : State) (hz : Own z s) :
    Own z (homeTable n r e s) := by
  unfold homeTable; (try dsimp only); repeat' split
  all_goals first
    | (simp (maxDischargeDepth := 60) [hz]; done)
    | exact own_same hz rfl rfl

@[simp] theorem own_stopTable {z : State} (n : Nat) (s : State) (hz : Own z s) :
    Own z (stopTable n s) := by
  unfold stopTable; (try dsimp only); repeat' split
  all_goals first
    | (simp (maxDischargeDepth := 60) [hz]; done)
    | exact own_same hz rfl rfl

@[simp] theorem own_nextStep {z : State} (v : Nat) (s : State) (hz : Own z s) :
    Own z (nextStep v s) := by
  unfold nextStep; (try dsimp only); repeat' split
  all_goals first
    | (simp (maxDischargeDepth := 60) [hz]; done)
    | exact own_same hz rfl rfl

@[simp] theorem own_legEnds {z : State} (d : DeckRec) (s : State) (hz : Own z s) :
    Own z (legEnds d s) := by
  unfold legEnds; (try dsimp only); repeat' split
  all_goals first
    | (simp (maxDischargeDepth := 60) [hz]; done)
    | exact own_same hz rfl rfl

@[simp] theorem own_legBoundary {z : State} (d : DeckRec) (s : State) (hz : Own z s) :
    Own z (legBoundary d s) := by
  unfold legBoundary; (try dsimp only); repeat' split
  all_goals first
    | (simp (maxDischargeDepth := 60) [hz]; done)
    | exact own_same hz rfl rfl

@[simp] theorem own_stopBoundary {z : State} (d : DeckRec) (v : Nat) (s : State) (hz : Own z s) :
    Own z (stopBoundary d v s) := by
  unfold stopBoundary; (try dsimp only); repeat' split
  all_goals first
    | (simp (maxDischargeDepth := 60) [hz]; done)
    | exact own_same hz rfl rfl

@[simp] theorem own_jogBoundary {z : State} (d : DeckRec) (s : State) (hz : Own z s) :
    Own z (jogBoundary d s) := by
  unfold jogBoundary; (try dsimp only); repeat' split
  all_goals first
    | (simp (maxDischargeDepth := 60) [hz]; done)
    | exact own_same hz rfl rfl

@[simp] theorem own_homingBoundary {z : State} (d : DeckRec) (b i : Bool) (s : State) (hz : Own z s) :
    Own z (homingBoundary d b i s) := by
  unfold homingBoundary; (try dsimp only); repeat' split
  all_goals first
    | (simp (maxDischargeDepth := 60) [hz]; done)
    | exact own_same hz rfl rfl

@[simp] theorem own_boundary {z : State} (i : Bool) (s : State) (hz : Own z s) :
    Own z (boundary i s) := by
  unfold boundary; (try dsimp only); repeat' split
  all_goals first
    | (simp (maxDischargeDepth := 60) [hz]; done)
    | exact own_same hz rfl rfl

@[simp] theorem own_stepActive {z : State} (s : State) (hz : Own z s) :
    Own z (stepActive s) := by
  unfold stepActive; (try dsimp only); repeat' split
  all_goals first
    | (simp (maxDischargeDepth := 60) [hz]; done)
    | exact own_same hz rfl rfl

@[simp] theorem own_boltContactChanged {z : State} (s : State) (hz : Own z s) :
    Own z (boltContactChanged s) := by
  unfold boltContactChanged; (try dsimp only); repeat' split
  all_goals first
    | (simp (maxDischargeDepth := 60) [hz]; done)
    | exact own_same hz rfl rfl

@[simp] theorem own_boltExpires {z : State} (s : State) (hz : Own z s) :
    Own z (boltExpires s) := by
  unfold boltExpires; (try dsimp only); repeat' split
  all_goals first
    | (simp (maxDischargeDepth := 60) [hz]; done)
    | exact own_same hz rfl rfl

@[simp] theorem own_settleExpires {z : State} (s : State) (hz : Own z s) :
    Own z (settleExpires s) := by
  unfold settleExpires; (try dsimp only); repeat' split
  all_goals first
    | (simp (maxDischargeDepth := 60) [hz]; done)
    | exact own_same hz rfl rfl

@[simp] theorem own_jogPress {z : State} (c : Bool) (s : State) (hz : Own z s) :
    Own z (jogPress c s) := by
  unfold jogPress; (try dsimp only); repeat' split
  all_goals first
    | (simp (maxDischargeDepth := 60) [hz]; done)
    | exact own_same hz rfl rfl

@[simp] theorem own_releaseJog {z : State} (s : State) (hz : Own z s) :
    Own z (releaseJog s) := by
  unfold releaseJog; (try dsimp only); repeat' split
  all_goals first
    | (simp (maxDischargeDepth := 60) [hz]; done)
    | exact own_same hz rfl rfl

@[simp] theorem own_jogButtonReleased {z : State} (c : Bool) (s : State) (hz : Own z s) :
    Own z (jogButtonReleased c s) := by
  unfold jogButtonReleased; (try dsimp only); repeat' split
  all_goals first
    | (simp (maxDischargeDepth := 60) [hz]; done)
    | exact own_same hz rfl rfl

@[simp] theorem own_jogHoldExpires {z : State} (s : State) (hz : Own z s) :
    Own z (jogHoldExpires s) := by
  unfold jogHoldExpires; (try dsimp only); repeat' split
  all_goals first
    | (simp (maxDischargeDepth := 60) [hz]; done)
    | exact own_same hz rfl rfl

@[simp] theorem own_deckSectionLeft {z : State} (n : Nat) (s : State) (hz : Own z s) :
    Own z (deckSectionLeft n s) := by
  unfold deckSectionLeft; (try dsimp only); repeat' split
  all_goals first
    | (simp (maxDischargeDepth := 60) [hz]; done)
    | exact own_same hz rfl rfl

@[simp] theorem own_deckAllStop {z : State} (s : State) (hz : Own z s) :
    Own z (deckAllStop s) := by
  unfold deckAllStop; (try dsimp only); repeat' split
  all_goals first
    | (simp (maxDischargeDepth := 60) [hz]; done)
    | exact own_same hz rfl rfl

/-! ## Shows -/

@[simp] theorem own_loadIdle {z : State} (t : Nat) (s : State) (hz : Own z s) :
    Own z (loadIdle t s) := by
  unfold loadIdle; (try dsimp only); repeat' split
  all_goals first
    | (simp (maxDischargeDepth := 60) [hz]; done)
    | exact own_same hz rfl rfl

@[simp] theorem own_stopIdle {z : State} (s : State) (hz : Own z s) :
    Own z (stopIdle s) := by
  unfold stopIdle; (try dsimp only); repeat' split
  all_goals first
    | (simp (maxDischargeDepth := 60) [hz]; done)
    | exact own_same hz rfl rfl

@[simp] theorem own_changePanel {z : State} (p : Panel) (c i : Nat) (s : State) (hz : Own z s) :
    Own z (changePanel p c i s) := by
  unfold changePanel; (try dsimp only); repeat' split
  all_goals first
    | (simp (maxDischargeDepth := 60) [hz]; done)
    | exact own_same hz rfl rfl

@[simp] theorem own_idleExpires {z : State} (s : State) (hz : Own z s) :
    Own z (idleExpires s) := by
  unfold idleExpires; (try dsimp only); repeat' split
  all_goals first
    | (simp (maxDischargeDepth := 60) [hz]; done)
    | exact own_same hz rfl rfl

@[simp] theorem own_wakeByPress {z : State} (b : Nat) (s : State) (hz : Own z s) :
    Own z (wakeByPress b s) := by
  unfold wakeByPress; (try dsimp only); repeat' split
  all_goals first
    | (simp (maxDischargeDepth := 60) [hz]; done)
    | exact own_same hz rfl rfl

@[simp] theorem own_startCoolDown {z : State} (n : Nat) (s : State) (hz : Own z s) :
    Own z (startCoolDown n s) := by
  unfold startCoolDown; (try dsimp only); repeat' split
  all_goals first
    | (simp (maxDischargeDepth := 60) [hz]; done)
    | exact own_same hz rfl rfl

@[simp] theorem own_runnerIdle {z : State} (n : Nat) (o : ShowOutcome) (s : State) (hz : Own z s) :
    Own z (runnerIdle n o s) := by
  unfold runnerIdle; (try dsimp only); repeat' split
  all_goals first
    | (simp (maxDischargeDepth := 60) [hz]; done)
    | exact own_same hz rfl rfl

@[simp] theorem own_reportEnded {z : State} (r : Runner) (o : ShowOutcome) (x w : Nat) (s : State) (hz : Own z s) :
    Own z (reportEnded r o x w s) := by
  unfold reportEnded; (try dsimp only); repeat' split
  all_goals first
    | (simp (maxDischargeDepth := 60) [hz]; done)
    | exact own_same hz rfl rfl

@[simp] theorem own_endShow {z : State} (r : Runner) (s : State) (hz : Own z s) :
    Own z (endShow r s) := by
  unfold endShow; (try dsimp only); repeat' split
  all_goals first
    | (simp (maxDischargeDepth := 60) [hz]; done)
    | exact own_same hz rfl rfl

@[simp] theorem own_abortRoute {z : State} (n : Nat) (s : State) (hz : Own z s) :
    Own z (abortRoute n s) := by
  unfold abortRoute; (try dsimp only); repeat' split
  all_goals first
    | (simp (maxDischargeDepth := 60) [hz]; done)
    | exact own_same hz rfl rfl

@[simp] theorem own_abortShow {z : State} (o : ShowOutcome) (x w : Nat) (s : State) (hz : Own z s) :
    Own z (abortShow o x w s) := by
  unfold abortShow; (try dsimp only); repeat' split
  all_goals first
    | (simp (maxDischargeDepth := 60) [hz]; done)
    | exact own_same hz rfl rfl

@[simp] theorem own_enterWait {z : State} (r : Runner) (p : StepPhase) (l : Nat) (s : State) (hz : Own z s) :
    Own z (enterWait r p l s) := by
  unfold enterWait; (try dsimp only); repeat' split
  all_goals first
    | (simp (maxDischargeDepth := 60) [hz]; done)
    | exact own_same hz rfl rfl

@[simp] theorem own_endStep {z : State} (e : StepEnd) (s : State) (hz : Own z s) :
    Own z (endStep e s) := by
  unfold endStep; (try dsimp only); repeat' split
  all_goals first
    | (simp (maxDischargeDepth := 60) [hz]; done)
    | exact own_same hz rfl rfl

@[simp] theorem own_refuseStep {z : State} (a : Answer) (s : State) (hz : Own z s) :
    Own z (refuseStep a s) := by
  unfold refuseStep; (try dsimp only); repeat' split
  all_goals first
    | (simp (maxDischargeDepth := 60) [hz]; done)
    | exact own_same hz rfl rfl

@[simp] theorem own_beginWaitSection {z : State} (r : Runner) (n : Nat) (o : Bool) (l : Nat) (s : State) (hz : Own z s) :
    Own z (beginWaitSection r n o l s) := by
  unfold beginWaitSection; (try dsimp only); repeat' split
  all_goals first
    | (simp (maxDischargeDepth := 60) [hz]; done)
    | exact own_same hz rfl rfl

@[simp] theorem own_cancelStepEnds {z : State} (a : Answer) (s : State) (hz : Own z s) :
    Own z (cancelStepEnds a s) := by
  unfold cancelStepEnds; (try dsimp only); repeat' split
  all_goals first
    | (simp (maxDischargeDepth := 60) [hz]; done)
    | exact own_same hz rfl rfl

@[simp] theorem own_cancelStep {z : State} (route : Nat) (s : State) (hz : Own z s) : Own z (cancelStep route s) := by
  unfold cancelStep; split
  · exact own_cancelStepEnds _ _ (own_cancelRoute route true s hz)
  · exact own_refuseStep _ _ hz

@[simp] theorem own_beginStepOf {z : State} (r : Runner) (s : State) (hz : Own z s) : Own z (beginStepOf r s) := by
  unfold beginStepOf; split
  · exact hz
  · rename_i route limit _
    have h := own_requestRoute route .visitor true (.show_ r.show_) _ (own_enterWait r .waitRoute limit s hz)
    split <;> rename_i heq <;> rw [heq] at h
    · exact h
    · exact own_refuseStep _ _ h
  · exact own_cancelStep _ _ hz
  · rename_i x _
    have h := own_turnRequest (.show_ r.show_) x.road (if x.deckEnd = .a then 0 else 1) _
      (own_enterWait r .waitTable 0 s hz)
    split <;> rename_i heq <;> rw [heq] at h
    · exact h
    · split
      · exact own_endStep _ _ h
      · exact own_refuseStep _ _ h
  · exact own_beginWaitSection _ _ _ _ _ hz
  · exact own_enterWait _ _ _ _ hz

@[simp] theorem own_afterStep {z : State} (e : StepEnd) (s : State) (hz : Own z s) :
    Own z (afterStep e s) := by
  unfold afterStep; (try dsimp only); repeat' split
  all_goals first
    | (simp (maxDischargeDepth := 60) [hz]; done)
    | exact own_same hz rfl rfl

@[simp] theorem own_runSteps {z : State} (n : Nat) (s : State) (hz : Own z s) : Own z (runSteps n s) := by
  induction n generalizing s with
  | zero => exact hz
  | succ n ih => unfold runSteps; split <;> simp [ih, hz]

@[simp] theorem own_runVisitor {z : State} (s : State) (hz : Own z s) :
    Own z (runVisitor s) := by
  unfold runVisitor; (try dsimp only); repeat' split
  all_goals first
    | (simp (maxDischargeDepth := 60) [hz]; done)
    | exact own_same hz rfl rfl

@[simp] theorem own_takeShow {z : State} (n : Nat) (src : ShowSource) (l : List (Nat × ShowSource)) (s : State)
    (hz : Own z s) : Own z (takeShow n src l s) := by
  unfold takeShow; dsimp only
  apply own_runVisitor
  apply own_beginStepOf
  apply own_stopIdle
  apply own_changePanel
  apply own_work
  apply own_report
  exact own_same hz rfl rfl

@[simp] theorem own_testHead {z : State} (s : State) (hz : Own z s) :
    Own z (testHead s) := by
  unfold testHead; (try dsimp only); repeat' split
  all_goals first
    | (simp (maxDischargeDepth := 60) [hz]; done)
    | exact own_same hz rfl rfl

@[simp] theorem own_testHeads {z : State} (n : Nat) (s : State) (hz : Own z s) : Own z (testHeads n s) := by
  induction n generalizing s with
  | zero => exact hz
  | succ n ih => unfold testHeads; split <;> simp [ih, hz]

@[simp] theorem own_joinQueue {z : State} (n : Nat) (src : ShowSource) (s : State) (hz : Own z s) :
    Own z (joinQueue n src s) := by
  unfold joinQueue; (try dsimp only); repeat' split
  all_goals first
    | (simp (maxDischargeDepth := 60) [hz]; done)
    | exact own_same hz rfl rfl

@[simp] theorem own_reportPress {z : State} (b : Nat) (o : PressOutcome) (n : Option Nat) (s : State) (hz : Own z s) :
    Own z (reportPress b o n s) := by
  unfold reportPress; (try dsimp only); repeat' split
  all_goals first
    | (simp (maxDischargeDepth := 60) [hz]; done)
    | exact own_same hz rfl rfl

@[simp] theorem own_showPress {z : State} (b : Nat) (s : State) (hz : Own z s) :
    Own z (showPress b s) := by
  unfold showPress; (try dsimp only); repeat' split
  all_goals first
    | (simp (maxDischargeDepth := 60) [hz]; done)
    | exact own_same hz rfl rfl

@[simp] theorem own_jogButtonPress {z : State} (b : Nat) (s : State) (hz : Own z s) :
    Own z (jogButtonPress b s) := by
  unfold jogButtonPress; (try dsimp only); repeat' split
  all_goals first
    | (simp (maxDischargeDepth := 60) [hz]; done)
    | exact own_same hz rfl rfl

@[simp] theorem own_buttonChanged {z : State} (b : Nat) (p : Bool) (s : State) (hz : Own z s) :
    Own z (buttonChanged b p s) := by
  unfold buttonChanged; (try dsimp only); repeat' split
  all_goals first
    | (simp (maxDischargeDepth := 60) [hz]; done)
    | exact own_same hz rfl rfl

@[simp] theorem own_stepTimerExpires {z : State} (s : State) (hz : Own z s) :
    Own z (stepTimerExpires s) := by
  unfold stepTimerExpires; (try dsimp only); repeat' split
  all_goals first
    | (simp (maxDischargeDepth := 60) [hz]; done)
    | exact own_same hz rfl rfl

@[simp] theorem own_durationExpires {z : State} (s : State) (hz : Own z s) :
    Own z (durationExpires s) := by
  unfold durationExpires; (try dsimp only); repeat' split
  all_goals first
    | (simp (maxDischargeDepth := 60) [hz]; done)
    | exact own_same hz rfl rfl

@[simp] theorem own_coolDownExpires {z : State} (n : Nat) (s : State) (hz : Own z s) :
    Own z (coolDownExpires n s) := by
  unfold coolDownExpires; (try dsimp only); repeat' split
  all_goals first
    | (simp (maxDischargeDepth := 60) [hz]; done)
    | exact own_same hz rfl rfl

@[simp] theorem own_visitorSection {z : State} (n : Nat) (x : SectionState) (s : State) (hz : Own z s) :
    Own z (visitorSection n x s) := by
  unfold visitorSection; (try dsimp only); repeat' split
  all_goals first
    | (simp (maxDischargeDepth := 60) [hz]; done)
    | exact own_same hz rfl rfl

@[simp] theorem own_runShow {z : State} (n sh : Nat) (s : State) (hz : Own z s) :
    Own z (runShow n sh s) := by
  unfold runShow; (try dsimp only); repeat' split
  all_goals first
    | (simp (maxDischargeDepth := 60) [hz]; done)
    | exact own_same hz rfl rfl

/-! ## The end of a handling -/

@[simp] theorem own_setSignal {z : State} (x : Nat) (f : SignalState → SignalState) (s : State) (hz : Own z s) :
    Own z (setSignal x f s) := by
  unfold setSignal; (try dsimp only); repeat' split
  all_goals first
    | (simp (maxDischargeDepth := 60) [hz]; done)
    | exact own_same hz rfl rfl

@[simp] theorem own_recomputeOne {z : State} (x : Nat) (s : State) (hz : Own z s) :
    Own z (recomputeOne x s) := by
  unfold recomputeOne; (try dsimp only); repeat' split
  all_goals first
    | (simp (maxDischargeDepth := 60) [hz]; done)
    | exact own_same hz rfl rfl

@[simp] theorem own_recomputeAspects {z : State} (s : State) (hz : Own z s) :
    Own z (recomputeAspects s) := by
  unfold recomputeAspects; (try dsimp only); repeat' split
  all_goals first
    | (simp (maxDischargeDepth := 60) [hz]; done)
    | exact own_same hz rfl rfl

@[simp] theorem own_settleOne {z : State} (x : Nat) (s : State) (hz : Own z s) :
    Own z (settleOne x s) := by
  unfold settleOne; (try dsimp only); repeat' split
  all_goals first
    | (simp (maxDischargeDepth := 60) [hz]; done)
    | exact own_same hz rfl rfl

@[simp] theorem own_settleLamps {z : State} (s : State) (hz : Own z s) :
    Own z (settleLamps s) := by
  unfold settleLamps; (try dsimp only); repeat' split
  all_goals first
    | (simp (maxDischargeDepth := 60) [hz]; done)
    | exact own_same hz rfl rfl

@[simp] theorem own_settleButton {z : State} (b : Nat) (s : State) (hz : Own z s) :
    Own z (settleButton b s) := by
  unfold settleButton; (try dsimp only); repeat' split
  all_goals first
    | (simp (maxDischargeDepth := 60) [hz]; done)
    | exact own_same hz rfl rfl

@[simp] theorem own_settleButtons {z : State} (s : State) (hz : Own z s) :
    Own z (settleButtons s) := by
  unfold settleButtons; (try dsimp only); repeat' split
  all_goals first
    | (simp (maxDischargeDepth := 60) [hz]; done)
    | exact own_same hz rfl rfl

@[simp] theorem own_settleVisitorWord {z : State} (b : State) (k : Nat) (s : State) (hz : Own z s) :
    Own z (settleVisitorWord b k s) := by
  unfold settleVisitorWord; (try dsimp only); repeat' split
  all_goals first
    | (simp (maxDischargeDepth := 60) [hz]; done)
    | exact own_same hz rfl rfl

@[simp] theorem own_settleVisitors {z : State} (b s : State) (hz : Own z s) :
    Own z (settleVisitors b s) := by
  unfold settleVisitors; (try dsimp only); repeat' split
  all_goals first
    | (simp (maxDischargeDepth := 60) [hz]; done)
    | exact own_same hz rfl rfl

@[simp] theorem own_refreshLevels {z : State} (s : State) (hz : Own z s) :
    Own z (refreshLevels s) := by
  unfold refreshLevels; (try dsimp only); repeat' split
  all_goals first
    | (simp (maxDischargeDepth := 60) [hz]; done)
    | exact own_same hz rfl rfl

@[simp] theorem own_endHandling {z : State} (b s : State) (hz : Own z s) :
    Own z (endHandling b s) := by
  unfold endHandling; (try dsimp only); repeat' split
  all_goals first
    | (simp (maxDischargeDepth := 60) [hz]; done)
    | exact own_same hz rfl rfl

@[simp] theorem own_afterWork {z : State} (n : Nat) (s : State) (hz : Own z s) : Own z (afterWork n s) := by
  induction n generalizing s with
  | zero => exact hz
  | succ n ih =>
    unfold afterWork; repeat' split
    · exact ih _ (own_endHandling _ _ (own_dispatcherPass _ (own_work hz _)))
    · exact ih _ (own_endHandling _ _ (own_reexamine _ hz))
    · exact hz

@[simp] theorem own_finish {z : State} (b s : State) (hz : Own z s) :
    Own z (finish b s) := by
  unfold finish; (try dsimp only); repeat' split
  all_goals first
    | (simp (maxDischargeDepth := 60) [hz]; done)
    | exact own_same hz rfl rfl

end Sys2Proof.Machine
end

