-- ==== Sys2Proof/Laws/OwnTrack.lean ====
section
/-! SUPPORT. The layout stop, the tag unit and the occupancy unit write only what is the part's own. -/

set_option linter.unusedTactic false
set_option linter.unreachableTactic false

namespace Sys2Proof.Machine

/-! ## Run state, run condition, track power -/

@[simp] theorem own_reportLayout {z : State} (c i : Nat) (s : State) (hz : Own z s) :
    Own z (reportLayout c i s) := by
  unfold reportLayout; (try dsimp only); repeat' split
  all_goals first
    | (simp (maxDischargeDepth := 60) [hz]; done)
    | exact own_same hz rfl rfl

@[simp] theorem own_enterAllStop {z : State} (c : StopCause) (s : State) (hz : Own z s) :
    Own z (enterAllStop c s) := by
  unfold enterAllStop; (try dsimp only); repeat' split
  all_goals first
    | (simp (maxDischargeDepth := 60) [hz]; done)
    | exact own_same hz rfl rfl

@[simp] theorem own_resumeLayout {z : State} (s : State) (hz : Own z s) :
    Own z (resumeLayout s) := by
  unfold resumeLayout; (try dsimp only); repeat' split
  all_goals first
    | (simp (maxDischargeDepth := 60) [hz]; done)
    | exact own_same hz rfl rfl

/-! ## The fields that a section change can reach -/

/-! ## Tags -/

@[simp] theorem own_setTag {z : State} (t : Nat) (v : Tag) (s : State) (hz : Own z s) :
    Own z (setTag t v s) := by
  unfold setTag; (try dsimp only); repeat' split
  all_goals first
    | (simp (maxDischargeDepth := 60) [hz]; done)
    | exact own_same hz rfl rfl

@[simp] theorem own_setTagField {z : State} (n : Nat) (t : Option Nat) (s : State) (hz : Own z s) :
    Own z (setTagField n t s) := by
  unfold setTagField; exact own_mirrorSection _ _ (own_same hz rfl rfl)

@[simp] theorem own_takeTag {z : State} (n t : Nat) (s : State) (hz : Own z s) :
    Own z (takeTag n t s) := by
  unfold takeTag; (try dsimp only); repeat' split
  all_goals first
    | (simp (maxDischargeDepth := 60) [hz]; done)
    | exact own_same hz rfl rfl

@[simp] theorem own_reclaimOrAllocate {z : State} (n : Nat) (l : List Neighbour) (s : State) (hz : Own z s) :
    Own z (reclaimOrAllocate n l s).1 := by
  unfold reclaimOrAllocate; (try dsimp only); repeat' split
  all_goals first
    | (simp (maxDischargeDepth := 60) [hz]; done)
    | exact own_same hz rfl rfl

@[simp] theorem own_arrive {z : State} (n : Nat) (s : State) (hz : Own z s) :
    Own z (arrive n s).1 := by
  unfold arrive; (try dsimp only); repeat' split
  all_goals first
    | (simp (maxDischargeDepth := 60) [hz]; done)
    | exact own_same hz rfl rfl

@[simp] theorem own_freeLostTag {z : State} (t : Nat) (s : State) (hz : Own z s) :
    Own z (freeLostTag t s) := by
  unfold freeLostTag; (try dsimp only); repeat' split
  all_goals first
    | (simp (maxDischargeDepth := 60) [hz]; done)
    | exact own_same hz rfl rfl

@[simp] theorem own_depart {z : State} (n : Nat) (s : State) (hz : Own z s) :
    Own z (depart n s) := by
  unfold depart; (try dsimp only); repeat' split
  all_goals first
    | (simp (maxDischargeDepth := 60) [hz]; done)
    | exact own_same hz rfl rfl

@[simp] theorem own_tagSectionChange {z : State} (n : Nat) (x y : SectionState) (s : State) (hz : Own z s) :
    Own z (tagSectionChange n x y s).1 := by
  unfold tagSectionChange; (try dsimp only); repeat' split
  all_goals first
    | (simp (maxDischargeDepth := 60) [hz]; done)
    | exact own_same hz rfl rfl

/-! ## Sections -/

@[simp] theorem own_overrunOne {z : State} (n : Nat) (a : Arrival) (l : List EntryNote) (x : Nat) (s : State) (hz : Own z s) :
    Own z (overrunOne n a l x s) := by
  unfold overrunOne; (try dsimp only); repeat' split
  all_goals first
    | (simp (maxDischargeDepth := 60) [hz]; done)
    | exact own_same hz rfl rfl

@[simp] theorem own_overrunTest {z : State} (n : Nat) (a : Option Arrival) (l : List EntryNote) (s : State) (hz : Own z s) :
    Own z (overrunTest n a l s) := by
  unfold overrunTest; (try dsimp only); repeat' split
  all_goals first
    | (simp (maxDischargeDepth := 60) [hz]; done)
    | exact own_same hz rfl rfl

@[simp] theorem own_sectionChanged {z : State} (n : Nat) (old : SectionState) (s : State) (hz : Own z s) :
    Own z (sectionChanged n old s) := by
  unfold sectionChanged
  dsimp only
  apply own_visitorSection
  split
  · apply own_deckSectionLeft
    exact own_overrunTest _ _ _ _ (own_runVisitor _ (own_routesSectionChange _ _ _ _
      (own_tagSectionChange _ _ _ _ (own_same (own_report (own_mirrorSection _ _ hz) _ _ _ _) rfl rfl))))
  · exact own_overrunTest _ _ _ _ (own_runVisitor _ (own_routesSectionChange _ _ _ _
      (own_tagSectionChange _ _ _ _ (own_same (own_report (own_mirrorSection _ _ hz) _ _ _ _) rfl rfl))))

end Sys2Proof.Machine
end

