-- ==== Sys2Proof/Laws/OwnCommands.lean ====
section
/-! SUPPORT. The commands' own work, START, the resets and the clock write only what is the part's own. -/

set_option linter.unusedTactic false
set_option linter.unreachableTactic false

namespace Sys2Proof.Machine

/-! ## Sections -/

@[simp] theorem own_updateSection {z : State} (n : Nat) (f : Occupancy → Occupancy) (s : State) (hz : Own z s) :
    Own z (updateSection n f s) := by
  unfold updateSection; (try dsimp only); repeat' split
  all_goals first
    | (simp (maxDischargeDepth := 60) [hz]; done)
    | exact own_same hz rfl rfl

@[simp] theorem own_detectorSampled {z : State} (i : Nat) (x : Bool) (s : State) (hz : Own z s) :
    Own z (detectorSampled i x s) := by
  unfold detectorSampled; (try dsimp only); repeat' split
  all_goals first
    | (simp (maxDischargeDepth := 60) [hz]; done)
    | exact own_same hz rfl rfl

@[simp] theorem own_axleIn {z : State} (x : Option Nat) (s : State) (hz : Own z s) :
    Own z (axleIn x s) := by
  unfold axleIn; (try dsimp only); repeat' split
  all_goals first
    | (simp (maxDischargeDepth := 60) [hz]; done)
    | exact own_same hz rfl rfl

@[simp] theorem own_axleOut {z : State} (x : Option Nat) (s : State) (hz : Own z s) :
    Own z (axleOut x s) := by
  unfold axleOut; (try dsimp only); repeat' split
  all_goals first
    | (simp (maxDischargeDepth := 60) [hz]; done)
    | exact own_same hz rfl rfl

@[simp] theorem own_setHead {z : State} (k : Nat) (h : Head) (s : State) (hz : Own z s) :
    Own z (setHead k h s) := by
  unfold setHead; (try dsimp only); repeat' split
  all_goals first
    | (simp (maxDischargeDepth := 60) [hz]; done)
    | exact own_same hz rfl rfl

@[simp] theorem own_doubt {z : State} (x : Option Nat) (s : State) (hz : Own z s) :
    Own z (doubt x s) := by
  unfold doubt; (try dsimp only); repeat' split
  all_goals first
    | (simp (maxDischargeDepth := 60) [hz]; done)
    | exact own_same hz rfl rfl

@[simp] theorem own_sequenceError {z : State} (k : Nat) (h : Head) (x y : Bool × Bool) (s : State) (hz : Own z s) :
    Own z (sequenceError k h x y s) := by
  unfold sequenceError; (try dsimp only); repeat' split
  all_goals first
    | (simp (maxDischargeDepth := 60) [hz]; done)
    | exact own_same hz rfl rfl

@[simp] theorem own_passage {z : State} (k : Nat) (h : Head) (x : Bool) (s : State) (hz : Own z s) :
    Own z (passage k h x s) := by
  unfold passage; (try dsimp only); repeat' split
  all_goals first
    | (simp (maxDischargeDepth := 60) [hz]; done)
    | exact own_same hz rfl rfl

@[simp] theorem own_headPair {z : State} (k : Nat) (h : Head) (x y : Bool × Bool) (s : State) (hz : Own z s) :
    Own z (headPair k h x y s) := by
  unfold headPair; (try dsimp only); repeat' split
  all_goals first
    | (simp (maxDischargeDepth := 60) [hz]; done)
    | exact own_same hz rfl rfl

@[simp] theorem own_headSampled {z : State} (k : Nat) (x : Bool × Bool) (s : State) (hz : Own z s) :
    Own z (headSampled k x s) := by
  unfold headSampled; (try dsimp only); repeat' split
  all_goals first
    | (simp (maxDischargeDepth := 60) [hz]; done)
    | exact own_same hz rfl rfl

@[simp] theorem own_discrepancyExpires {z : State} (n : Nat) (s : State) (hz : Own z s) :
    Own z (discrepancyExpires n s) := by
  unfold discrepancyExpires; (try dsimp only); repeat' split
  all_goals first
    | (simp (maxDischargeDepth := 60) [hz]; done)
    | exact own_same hz rfl rfl

@[simp] theorem own_lostHoldExpires {z : State} (n : Nat) (s : State) (hz : Own z s) :
    Own z (lostHoldExpires n s) := by
  unfold lostHoldExpires; (try dsimp only); repeat' split
  all_goals first
    | (simp (maxDischargeDepth := 60) [hz]; done)
    | exact own_same hz rfl rfl

@[simp] theorem own_disableSection {z : State} (k n : Nat) (s : State) (hz : Own z s) :
    Own z (disableSection k n s) := by
  unfold disableSection; (try dsimp only); repeat' split
  all_goals first
    | (simp (maxDischargeDepth := 60) [hz]; done)
    | exact own_same hz rfl rfl

@[simp] theorem own_enableSection {z : State} (k n : Nat) (s : State) (hz : Own z s) :
    Own z (enableSection k n s) := by
  unfold enableSection; (try dsimp only); repeat' split
  all_goals first
    | (simp (maxDischargeDepth := 60) [hz]; done)
    | exact own_same hz rfl rfl

@[simp] theorem own_headNormal {z : State} (k : Nat) (s : State) (hz : Own z s) :
    Own z (headNormal k s) := by
  unfold headNormal; (try dsimp only); repeat' split
  all_goals first
    | (simp (maxDischargeDepth := 60) [hz]; done)
    | exact own_same hz rfl rfl

@[simp] theorem own_resetSection {z : State} (k n : Nat) (s : State) (hz : Own z s) :
    Own z (resetSection k n s) := by
  unfold resetSection; (try dsimp only); repeat' split
  all_goals first
    | (simp (maxDischargeDepth := 60) [hz]; done)
    | exact own_same hz rfl rfl

@[simp] theorem own_labelTag {z : State} (k t l : Nat) (s : State) (hz : Own z s) :
    Own z (labelTag k t l s) := by
  unfold labelTag; (try dsimp only); repeat' split
  all_goals first
    | (simp (maxDischargeDepth := 60) [hz]; done)
    | exact own_same hz rfl rfl

/-! ## Stop pin, buttons, visitor requests, contacts -/

@[simp] theorem own_contactSample {z : State} (i : Nat) (x : Bool) (s : State) (hz : Own z s) :
    Own z (contactSample i x s) := by
  unfold contactSample; (try dsimp only); repeat' split
  all_goals first
    | (simp (maxDischargeDepth := 60) [hz]; done)
    | exact own_same hz rfl rfl

@[simp] theorem own_boltSample {z : State} (c : BoltContact) (x : Bool) (s : State) (hz : Own z s) :
    Own z (boltSample c x s) := by
  unfold boltSample; (try dsimp only); repeat' split
  all_goals first
    | (simp (maxDischargeDepth := 60) [hz]; done)
    | exact own_same hz rfl rfl

@[simp] theorem own_stopPinSampled {z : State} (x : Bool) (s : State) (hz : Own z s) : Own z (stopPinSampled x s) := by
  unfold stopPinSampled; dsimp only; split
  · exact own_same hz rfl rfl
  · split
    · apply own_enterAllStop
      apply own_header8 _ _ _ (by decide)
      exact own_same hz rfl rfl
    · apply own_header8 _ _ _ (by decide)
      exact own_same hz rfl rfl

@[simp] theorem own_allStopRequest {z : State} (n : Nat) (s : State) (hz : Own z s) :
    Own z (allStopRequest n s) := by
  unfold allStopRequest; (try dsimp only); repeat' split
  all_goals first
    | (simp (maxDischargeDepth := 60) [hz]; done)
    | exact own_same hz rfl rfl

@[simp] theorem own_resumeRequest {z : State} (n : Nat) (s : State) (hz : Own z s) :
    Own z (resumeRequest n s) := by
  unfold resumeRequest; (try dsimp only); repeat' split
  all_goals first
    | (simp (maxDischargeDepth := 60) [hz]; done)
    | exact own_same hz rfl rfl

@[simp] theorem own_buttonSampled {z : State} (b : Nat) (x : Bool) (s : State) (hz : Own z s) :
    Own z (buttonSampled b x s) := by
  unfold buttonSampled; (try dsimp only); repeat' split
  all_goals first
    | (simp (maxDischargeDepth := 60) [hz]; done)
    | exact own_same hz rfl rfl

@[simp] theorem own_setVisitors {z : State} (f : VisitorUnit → VisitorUnit) (s : State) (hz : Own z s) :
    Own z (setVisitors f s) := by
  unfold setVisitors; (try dsimp only); repeat' split
  all_goals first
    | (simp (maxDischargeDepth := 60) [hz]; done)
    | exact own_same hz rfl rfl

@[simp] theorem own_suspendVisitors {z : State} (n : Nat) (s : State) (hz : Own z s) :
    Own z (suspendVisitors n s) := by
  unfold suspendVisitors; (try dsimp only); repeat' split
  all_goals first
    | (simp (maxDischargeDepth := 60) [hz]; done)
    | exact own_same hz rfl rfl

@[simp] theorem own_resumeVisitors {z : State} (n : Nat) (s : State) (hz : Own z s) :
    Own z (resumeVisitors n s) := by
  unfold resumeVisitors; (try dsimp only); repeat' split
  all_goals first
    | (simp (maxDischargeDepth := 60) [hz]; done)
    | exact own_same hz rfl rfl

/-! ## Loading -/

@[simp] theorem own_takeSection {z : State} (n : Nat) (r : SectionRec) (s : State) (hz : Own z s) :
    Own z (takeSection n r s) := by
  unfold takeSection; (try dsimp only); repeat' split
  all_goals first
    | (simp (maxDischargeDepth := 60) [hz]; done)
    | exact own_same hz rfl rfl

@[simp] theorem own_takeHead {z : State} (n : Nat) (r : Head) (s : State) (hz : Own z s) :
    Own z (takeHead n r s) := by
  unfold takeHead; (try dsimp only); repeat' split
  all_goals first
    | (simp (maxDischargeDepth := 60) [hz]; done)
    | exact own_same hz rfl rfl

@[simp] theorem own_writePool {z : State} (s : State) (hz : Own z s) : Own z (writePool s) := by
  unfold writePool; exact own_header16 hz _ _ (by decide)

@[simp] theorem own_takePoint {z : State} (n : Nat) (r : PointRec) (s : State) (hz : Own z s) :
    Own z (takePoint n r s) := by
  unfold takePoint; (try dsimp only); repeat' split
  all_goals first
    | (simp (maxDischargeDepth := 60) [hz]; done)
    | exact own_same hz rfl rfl

@[simp] theorem own_takeSignal {z : State} (n : Nat) (r : SignalRec) (s : State) (hz : Own z s) :
    Own z (takeSignal n r s) := by
  unfold takeSignal; (try dsimp only); repeat' split
  all_goals first
    | (simp (maxDischargeDepth := 60) [hz]; done)
    | exact own_same hz rfl rfl

@[simp] theorem own_unreference {z : State} (s : State) (hz : Own z s) :
    Own z (unreference s) := by
  unfold unreference; (try dsimp only); repeat' split
  all_goals first
    | (simp (maxDischargeDepth := 60) [hz]; done)
    | exact own_same hz rfl rfl

@[simp] theorem own_takeDeck {z : State} (d : DeckRec) (s : State) (hz : Own z s) :
    Own z (takeDeck d s) := by
  unfold takeDeck; (try dsimp only); repeat' split
  all_goals first
    | (simp (maxDischargeDepth := 60) [hz]; done)
    | exact own_same hz rfl rfl

@[simp] theorem own_takeRoad {z : State} (n : Nat) (r : Road) (s : State) (hz : Own z s) :
    Own z (takeRoad n r s) := by
  unfold takeRoad; (try dsimp only); repeat' split
  all_goals first
    | (simp (maxDischargeDepth := 60) [hz]; done)
    | exact own_same hz rfl rfl

@[simp] theorem own_takeLamp {z : State} (n : Nat) (r : Lamp) (s : State) (hz : Own z s) : Own z (takeLamp n r s) := by
  unfold takeLamp; dsimp only; split
  · apply own_mirrorLampWord; exact own_same hz rfl rfl
  · exact own_same hz rfl rfl

/-- Whatever record a block takes, it writes only what is the part's own. -/
theorem own_takeRecord {z : State} (k : LoadKind) (a len : Nat) (s t : State) (hz : Own z s)
    (h : takeRecord k a len s = .ok t) : Own z t := by
  unfold takeRecord at h
  dsimp only at h
  have orI : ∀ x : Option State, (∀ u, x = some u → Own z u) →
      (match x with | some t => Except.ok t | none => Except.error Result.invalidRecord) = .ok t → Own z t := by
    intro x hx hh
    cases x with
    | none => cases hh
    | some u => cases hh; exact hx _ rfl
  have orM : ∀ {α : Type} (x : Option α) (f : α → State), (∀ y, Own z (f y)) → ∀ u, x.map f = some u → Own z u := by
    intro α x f hf u hu
    cases x with
    | none => cases hu
    | some y => cases hu; exact hf y
  split at h
  · split at h
    · exact orI _ (orM _ _ fun y => own_takeSection _ _ _ hz) h
    · exact orI _ (orM _ _ fun y => own_takeHead _ _ _ hz) h
    · cases h
  · exact orI _ (orM _ _ fun y => own_takePoint _ _ _ hz) h
  · exact orI _ (orM _ _ fun y => own_takeSignal _ _ _ hz) h
  · refine orI _ ?_ h
    intro u hu
    cases hx : readRoute s a len with
    | none => rw [hx] at hu; cases hu
    | some x =>
      rw [hx] at hu
      simp only [Option.bind_some] at hu
      unfold takeRoute at hu
      dsimp only at hu
      split at hu
      · cases hu
      · cases hu; exact own_writePool _ (own_same hz rfl rfl)
  · split at h
    · exact orI _ (orM _ _ fun y => own_takeDeck _ _ hz) h
    · exact orI _ (orM _ _ fun y => own_takeRoad _ _ _ hz) h
    · cases h
  · split at h
    · cases h
    · split at h
      · rename_i u hu
        cases h
        unfold takeShowRecord at hu
        split at hu
        · cases hu
        · cases hu; exact own_setVisitors _ _ hz
      · cases h
  · exact orI _ (orM _ _ fun y => own_takeLamp _ _ _ hz) h

@[simp] theorem own_setLoads {z : State} (r : Option Load) (l : List Load) (s : State) (hz : Own z s) :
    Own z (setLoads r l s) := by
  unfold setLoads; (try dsimp only); repeat' split
  all_goals first
    | (simp (maxDischargeDepth := 60) [hz]; done)
    | exact own_same hz rfl rfl

@[simp] theorem own_beginLoads {z : State} (l : List Load) (s : State) (hz : Own z s) : Own z (beginLoads l s) := by
  induction l generalizing s with
  | nil => exact own_setLoads _ _ _ hz
  | cons x l ih =>
    unfold beginLoads; split
    · exact ih _ (own_complete hz _ _ _ _)
    · exact own_setLoads _ _ _ hz

@[simp] theorem own_loadNext {z : State} (s : State) (hz : Own z s) : Own z (loadNext s) := by
  unfold loadNext; split
  · exact hz
  · split
    · exact own_beginLoads _ _ (own_complete hz _ _ _ _)
    · rename_i t ht
      have h : Own z t := by
        unfold readRecord at ht
        dsimp only at ht
        split at ht
        · cases ht
        · exact own_takeRecord _ _ _ _ _ hz ht
      dsimp only; split
      · exact own_beginLoads _ _ (own_complete h _ _ _ _)
      · exact own_setLoads _ _ _ h

@[simp] theorem own_loadRequest {z : State} (k : LoadKind) (n o l c : Nat) (s : State) (hz : Own z s) :
    Own z (loadRequest k n o l c s) := by
  unfold loadRequest; (try dsimp only); repeat' split
  all_goals first
    | (simp (maxDischargeDepth := 60) [hz]; done)
    | exact own_same hz rfl rfl

theorem own_setParameter {z : State} (g : Group) (c v : Nat) (s : State) (x : State × Bool) (hz : Own z s)
    (h : setParameter g c v s = some x) : Own z x.1 := by
  unfold setParameter at h
  split at h
  · unfold setTrack at h
    split at h
    all_goals first
      | (cases h; done)
      | (cases h; exact own_same hz rfl rfl)
  · unfold setVisitorParameter at h
    split at h
    all_goals first
      | (cases h; done)
      | (cases h; exact own_same hz rfl rfl)

@[simp] theorem own_applyEntries {z : State} (g : Group) (n l a d c : Nat) (s : State) (hz : Own z s) :
    Own z (applyEntries g n l a d c s) := by
  induction l generalizing a d c s with
  | zero => exact own_complete hz _ _ _ _
  | succ l ih =>
    unfold applyEntries; split
    · exact own_complete hz _ _ _ _
    · rename_i heq; exact ih _ _ _ _ (own_setParameter _ _ _ _ _ hz heq)

@[simp] theorem own_setParameters {z : State} (n g o c : Nat) (s : State) (hz : Own z s) :
    Own z (setParameters n g o c s) := by
  unfold setParameters; (try dsimp only); repeat' split
  all_goals first
    | (simp (maxDischargeDepth := 60) [hz]; done)
    | exact own_same hz rfl rfl

/-! ## START and the resets -/

@[simp] theorem own_startSections {z : State} (s : State) (hz : Own z s) :
    Own z (startSections s) := by
  unfold startSections; (try dsimp only); repeat' split
  all_goals first
    | (simp (maxDischargeDepth := 60) [hz]; done)
    | exact own_same hz rfl rfl

@[simp] theorem own_mirrorTags {z : State} (s : State) (hz : Own z s) :
    Own z (mirrorTags s) := by
  unfold mirrorTags; (try dsimp only); repeat' split
  all_goals first
    | (simp (maxDischargeDepth := 60) [hz]; done)
    | exact own_same hz rfl rfl

@[simp] theorem own_startTags {z : State} (s : State) (hz : Own z s) :
    Own z (startTags s) := by
  unfold startTags; (try dsimp only); repeat' split
  all_goals first
    | (simp (maxDischargeDepth := 60) [hz]; done)
    | exact own_same hz rfl rfl

@[simp] theorem own_freshPoint {z : State} (p : Nat) (s : State) (hz : Own z s) :
    Own z (freshPoint p s) := by
  unfold freshPoint; (try dsimp only); repeat' split
  all_goals first
    | (simp (maxDischargeDepth := 60) [hz]; done)
    | exact own_same hz rfl rfl

@[simp] theorem own_startPoints {z : State} (s : State) (hz : Own z s) :
    Own z (startPoints s) := by
  unfold startPoints; (try dsimp only); repeat' split
  all_goals first
    | (simp (maxDischargeDepth := 60) [hz]; done)
    | exact own_same hz rfl rfl

@[simp] theorem own_mirrorActives {z : State} (s : State) (hz : Own z s) :
    Own z (mirrorActives s) := by
  unfold mirrorActives; (try dsimp only); repeat' split
  all_goals first
    | (simp (maxDischargeDepth := 60) [hz]; done)
    | exact own_same hz rfl rfl

@[simp] theorem own_startRoutes {z : State} (s : State) (hz : Own z s) :
    Own z (startRoutes s) := by
  unfold startRoutes; (try dsimp only); repeat' split
  all_goals first
    | (simp (maxDischargeDepth := 60) [hz]; done)
    | exact own_same hz rfl rfl

@[simp] theorem own_restSignal {z : State} (x : Nat) (s : State) (hz : Own z s) :
    Own z (restSignal x s) := by
  unfold restSignal; (try dsimp only); repeat' split
  all_goals first
    | (simp (maxDischargeDepth := 60) [hz]; done)
    | exact own_same hz rfl rfl

@[simp] theorem own_zeroOverruns {z : State} (x : Nat) (s : State) (hz : Own z s) :
    Own z (zeroOverruns x s) := by
  unfold zeroOverruns; (try dsimp only); repeat' split
  all_goals first
    | (simp (maxDischargeDepth := 60) [hz]; done)
    | exact own_same hz rfl rfl

@[simp] theorem own_startSignals {z : State} (s : State) (hz : Own z s) :
    Own z (startSignals s) := by
  unfold startSignals; (try dsimp only); repeat' split
  all_goals first
    | (simp (maxDischargeDepth := 60) [hz]; done)
    | exact own_same hz rfl rfl

@[simp] theorem own_startTable {z : State} (s : State) (hz : Own z s) :
    Own z (startTable s) := by
  unfold startTable; (try dsimp only); repeat' split
  all_goals first
    | (simp (maxDischargeDepth := 60) [hz]; done)
    | exact own_same hz rfl rfl

@[simp] theorem own_mirrorVisitor {z : State} (s : State) (hz : Own z s) :
    Own z (mirrorVisitor s) := by
  unfold mirrorVisitor; (try dsimp only); repeat' split
  all_goals first
    | (simp (maxDischargeDepth := 60) [hz]; done)
    | exact own_same hz rfl rfl

@[simp] theorem own_mirrorLamps {z : State} (n : Nat) (s : State) (hz : Own z s) : Own z (mirrorLamps n s) := by
  induction n generalizing s with
  | zero => exact hz
  | succ n ih => unfold mirrorLamps; exact own_mirrorLampWord _ _ (ih _ hz)

@[simp] theorem own_startPanel {z : State} (s : State) (hz : Own z s) :
    Own z (startPanel s) := by
  unfold startPanel
  exact own_mirrorVisitor _ (own_settleButtons _ (own_mirrorLamps _ _ (own_settleLamps _
    (own_same hz rfl rfl))))

@[simp] theorem own_startLayout {z : State} (s : State) (hz : Own z s) : Own z (startLayout s) := by
  unfold startLayout; dsimp only
  apply own_startPanel
  apply own_startTable
  apply own_startSignals
  apply own_startRoutes
  apply own_startPoints
  apply own_startTags
  apply own_startSections
  apply own_reportLayout
  apply own_setRunState
  exact own_same hz rfl rfl

@[simp] theorem own_startRequest {z : State} (n : Nat) (s : State) (hz : Own z s) :
    Own z (startRequest n s) := by
  unfold startRequest; (try dsimp only); repeat' split
  all_goals first
    | (simp (maxDischargeDepth := 60) [hz]; done)
    | exact own_same hz rfl rfl

@[simp] theorem own_resetSections {z : State} (s : State) (hz : Own z s) :
    Own z (resetSections s) := by
  unfold resetSections; (try dsimp only); repeat' split
  all_goals first
    | (simp (maxDischargeDepth := 60) [hz]; done)
    | exact own_same hz rfl rfl

@[simp] theorem own_resetTags {z : State} (s : State) (hz : Own z s) :
    Own z (resetTags s) := by
  unfold resetTags; (try dsimp only); repeat' split
  all_goals first
    | (simp (maxDischargeDepth := 60) [hz]; done)
    | exact own_same hz rfl rfl

@[simp] theorem own_resetRoutes {z : State} (s : State) (hz : Own z s) :
    Own z (resetRoutes s) := by
  unfold resetRoutes; (try dsimp only); repeat' split
  all_goals first
    | (simp (maxDischargeDepth := 60) [hz]; done)
    | exact own_same hz rfl rfl

@[simp] theorem own_unfailPoint {z : State} (l : List Nat) (p : Nat) (s : State) (hz : Own z s) :
    Own z (unfailPoint l p s) := by
  unfold unfailPoint; (try dsimp only); repeat' split
  all_goals first
    | (simp (maxDischargeDepth := 60) [hz]; done)
    | exact own_same hz rfl rfl

@[simp] theorem own_resetPoints {z : State} (s : State) (hz : Own z s) :
    Own z (resetPoints s) := by
  unfold resetPoints; (try dsimp only); repeat' split
  all_goals first
    | (simp (maxDischargeDepth := 60) [hz]; done)
    | exact own_same hz rfl rfl

@[simp] theorem own_resetSignals {z : State} (s : State) (hz : Own z s) :
    Own z (resetSignals s) := by
  unfold resetSignals; (try dsimp only); repeat' split
  all_goals first
    | (simp (maxDischargeDepth := 60) [hz]; done)
    | exact own_same hz rfl rfl

@[simp] theorem own_resetTable {z : State} (s : State) (hz : Own z s) :
    Own z (resetTable s) := by
  unfold resetTable; (try dsimp only); repeat' split
  all_goals first
    | (simp (maxDischargeDepth := 60) [hz]; done)
    | exact own_same hz rfl rfl

@[simp] theorem own_resetVisitors {z : State} (s : State) (hz : Own z s) :
    Own z (resetVisitors s) := by
  unfold resetVisitors; (try dsimp only); repeat' split
  all_goals first
    | (simp (maxDischargeDepth := 60) [hz]; done)
    | exact own_same hz rfl rfl

@[simp] theorem own_resetDisplay {z : State} (s : State) (hz : Own z s) :
    Own z (resetDisplay s) := by
  unfold resetDisplay
  exact own_mirrorLamps _ _ (own_same (own_loadIdle s.disp.idle1 _ (own_setPanelState hz .awake)) rfl rfl)

@[simp] theorem own_abortSlots {z : State} (o : Option Nat) (s : State) (hz : Own z s) :
    Own z ((abortSlots o s).1) := by
  unfold abortSlots; (try dsimp only); repeat' split
  all_goals first
    | (simp (maxDischargeDepth := 60) [hz]; done)
    | exact own_same hz rfl rfl

@[simp] theorem own_layoutReset {z : State} (o : Option Nat) (s : State) (hz : Own z s) :
    Own z (layoutReset o s) := by
  unfold layoutReset; (try dsimp only); repeat' split
  all_goals first
    | (simp (maxDischargeDepth := 60) [hz]; done)
    | exact own_same hz rfl rfl

/-! ## The clock -/

@[simp] theorem own_tickFlash {z : State} (s : State) (hz : Own z s) :
    Own z (tickFlash s) := by
  unfold tickFlash; (try dsimp only); repeat' split
  all_goals first
    | (simp (maxDischargeDepth := 60) [hz]; done)
    | exact own_same hz rfl rfl

@[simp] theorem own_mirrorJogHold {z : State} (s : State) (hz : Own z s) : Own z (mirrorJogHold s) := by
  unfold mirrorJogHold; exact own_writeWord hz _ _ _ _ (by decide)

@[simp] theorem own_tick {z : State} (s : State) (hz : Own z s) : Own z (tick s) := by
  unfold tick; dsimp only
  apply own_settleVisitorWord
  apply own_tickFlash
  split
  · exact own_mirrorJogHold _ (own_same hz rfl rfl)
  · exact own_same hz rfl rfl

@[simp] theorem own_jogHoldPasses {z : State} (s : State) (hz : Own z s) :
    Own z (jogHoldPasses s) := by
  unfold jogHoldPasses; (try dsimp only); repeat' split
  all_goals first
    | (simp (maxDischargeDepth := 60) [hz]; done)
    | exact own_same hz rfl rfl

@[simp] theorem own_secondPasses {z : State} (t : ShowTimer) (s : State) (hz : Own z s) :
    Own z (secondPasses t s) := by
  unfold secondPasses; (try dsimp only); repeat' split
  all_goals first
    | (simp (maxDischargeDepth := 60) [hz]; done)
    | exact own_same hz rfl rfl

@[simp] theorem own_flashPasses {z : State} (s : State) (hz : Own z s) :
    Own z (flashPasses s) := by
  unfold flashPasses; (try dsimp only); repeat' split
  all_goals first
    | (simp (maxDischargeDepth := 60) [hz]; done)
    | exact own_same hz rfl rfl

end Sys2Proof.Machine
end

