-- ==== Sys2Proof/Laws/Intake.lean ====
section
/-! SUPPORT. Posting, taking and serving a slot, and the examination: the canonical form of exchange memory, the bounds, and
the bytes that only the host writes. -/

namespace Sys2Proof.Machine

/-! ## Posting and taking -/

theorem memOk_postSlot (n : Nat) (r : Request) (s : State) (h : s.memOk) : (postSlot n r s).memOk := by
  unfold postSlot
  exact memOk_of_mem (by rfl) (memOk_write16 _ _ _ (memOk_write32 _ _ _ (memOk_write32 _ _ _ (memOk_write32 _ _ _
    (memOk_write16 _ _ _ (memOk_write16 _ _ _ h))))))

theorem lim_postSlot (n : Nat) (r : Request) (s : State) (h : Limits s) : Limits (postSlot n r s) := by
  unfold postSlot
  exact lim_same (lim_write16 _ _ _ (lim_write32 _ _ _ (lim_write32 _ _ _ (lim_write32 _ _ _
    (lim_write16 _ _ _ (lim_write16 _ _ _ h)))))) rfl

/-- Posting in a slot writes in that slot alone. -/
theorem read8_postSlot (n a : Nat) (r : Request) (s : State) (h : ¬ inSlot n a) :
    (postSlot n r s).read8 a = s.read8 a := by
  unfold inSlot at h
  unfold postSlot
  show ((((((_ : State).write16 _ _).write16 _ _).write32 _ _).write32 _ _).write32 _ _ |>.write16 _ _).read8 a = _
  rw [read8_write16_other _ _ _ _ (by omega), read8_write32_other _ _ _ _ (by omega),
    read8_write32_other _ _ _ _ (by omega), read8_write32_other _ _ _ _ (by omega),
    read8_write16_other _ _ _ _ (by omega), read8_write16_other _ _ _ _ (by omega)]

theorem memOk_takeSlot (n : Nat) (g : HostTag) (s : State) (h : s.memOk) : (takeSlot n g s).memOk := by
  unfold takeSlot; dsimp only
  apply memOk_write16
  exact memOk_of_mem (by rfl) (memOk_write16 (slotAt n) 2 s h)

theorem lim_takeSlot (n : Nat) (g : HostTag) (s : State) (h : Limits s) : Limits (takeSlot n g s) := by
  unfold takeSlot; dsimp only
  apply lim_write16
  have h2 := lim_write16 (slotAt n) 2 s h
  exact ⟨h2.logPointer, Nat.mod_lt _ (by decide), h2.clock, h2.flash, h2.stack, h2.queue, h2.shows, h2.busy, h2.deck, h2.line⟩

/-- Taking a slot writes its state and the take position of the header. -/
theorem read8_takeSlot (n a : Nat) (g : HostTag) (s : State) (h1 : a ≠ slotAt n) (h2 : a ≠ slotAt n + 1)
    (h3 : a ≠ 0x14) (h4 : a ≠ 0x15) : (takeSlot n g s).read8 a = s.read8 a := by
  unfold takeSlot; dsimp only
  rw [read8_write16_other _ _ _ _ (by omega)]
  show ((_ : State).write16 _ _).read8 a = _
  rw [read8_write16_other _ _ _ _ (by omega)]

theorem host_takeSlot (n : Nat) (g : HostTag) (s : State) (hn : n < Config.numSlots) (a : Nat) (ha : hostOwned a) :
    (takeSlot n g s).read8 a = s.read8 a := by
  unfold hostOwned Config.dataBase Config.numSlots at ha
  unfold Config.numSlots at hn
  unfold slotAt Config.slotBase at ha
  rcases ha with ha | ⟨k, hk, ha⟩ <;>
    exact read8_takeSlot n a g s (by unfold slotAt Config.slotBase; omega) (by unfold slotAt Config.slotBase; omega)
      (by omega) (by omega)

/-! ## Serving -/

theorem own_serve {z : State} (al : Allowed) (f : Nat → State → State) (n : Nat) (s : State)
    (hf : ∀ t, Own t (f n t)) (hz : Own z s) : Own z (serve al f n s) := by
  unfold serve; split
  · exact hz.trans (hf s)
  · exact own_complete hz _ _ _ _

theorem lim_serve (al : Allowed) (f : Nat → State → State) (n : Nat) (s : State)
    (hf : ∀ t, Limits t → Limits (f n t)) (hz : Limits s) : Limits (serve al f n s) := by
  unfold serve; split
  · exact hf s hz
  · exact lim_complete _ _ _ _ _ hz

/-- Whatever block a request kind belongs to, it writes only what is the part's own. -/
theorem own_block (r : Request) (al : Allowed) (f : Nat → State → State) (h : blockOf r = some (al, f)) (n : Nat)
    (t : State) : Own t (f n t) := by
  unfold blockOf at h; dsimp only at h
  split at h
  all_goals first
    | (cases h; simp; done)
    | cases h

theorem lim_block (r : Request) (al : Allowed) (f : Nat → State → State) (h : blockOf r = some (al, f)) (n : Nat)
    (t : State) (ht : Limits t) : Limits (f n t) := by
  unfold blockOf at h; dsimp only at h
  split at h
  all_goals first
    | (cases h; simp [ht]; done)
    | cases h

theorem own_serveSlot {z : State} (n : Nat) (r : Request) (s : State) (hz : Own z s) : Own z (serveSlot n r s) := by
  unfold serveSlot; split
  · exact own_complete hz _ _ _ _
  · rename_i heq; exact own_serve _ _ _ _ (own_block _ _ _ heq _) hz

theorem lim_serveSlot (n : Nat) (r : Request) (s : State) (hz : Limits s) : Limits (serveSlot n r s) := by
  unfold serveSlot; split
  · exact lim_complete _ _ _ _ _ hz
  · rename_i heq; exact lim_serve _ _ _ _ (lim_block _ _ _ heq _) hz

/-! ## The examination -/

/-- What an examination keeps: the canonical form, the bounds, the host's own bytes. -/
structure Examined (s t : State) : Prop where
  sound : Sound s → Sound t
  host : Limits s → ∀ a, hostOwned a → t.read8 a = s.read8 a

theorem Examined.refl (s : State) : Examined s s := ⟨id, fun _ _ _ => rfl⟩

theorem examined_takeSlots (k : Nat) (s : State) : Examined s (takeSlots k s) := by
  induction k generalizing s with
  | zero => exact Examined.refl s
  | succ k ih =>
    unfold takeSlots
    dsimp only
    split
    · generalize hr : slotRequest s.exch.takePos s = r
      have ho : Own (takeSlot s.exch.takePos r.tag s) (finish s (serveSlot s.exch.takePos r (takeSlot s.exch.takePos r.tag s))) :=
        own_finish _ _ (own_serveSlot _ _ _ (Own.refl _))
      have hl : Limits s → Limits (finish s (serveSlot s.exch.takePos r (takeSlot s.exch.takePos r.tag s))) :=
        fun h => lim_finish _ _ (lim_serveSlot _ _ _ (lim_takeSlot _ _ _ h))
      have h := ih (finish s (serveSlot s.exch.takePos r (takeSlot s.exch.takePos r.tag s)))
      refine ⟨fun hs => h.sound ⟨ho.mem (memOk_takeSlot _ _ _ hs.mem), hl hs.limits⟩, fun hs a ha => ?_⟩
      rw [h.host (hl hs) a ha, ho.host a ha, host_takeSlot _ _ _ hs.takePos a ha]
    · exact Examined.refl s

theorem examined_examine (s : State) : Examined s (examine s) := by
  unfold examine; dsimp only
  have h0 : Own s (readLevels (s.write16 0x10 (min (s.read16 0x10) 255))) :=
    own_readLevels (own_header16 (Own.refl s) _ _ (by decide))
  have l0 : Limits s → Limits (readLevels (s.write16 0x10 (min (s.read16 0x10) 255))) :=
    fun h => lim_readLevels _ (lim_write16 _ _ _ h)
  have h1 := examined_takeSlots Config.numSlots (readLevels (s.write16 0x10 (min (s.read16 0x10) 255)))
  refine ⟨fun h => ?_, fun h a ha => ?_⟩
  · have g := h1.sound ⟨h0.mem h.mem, l0 h.limits⟩
    exact ⟨memOk_of_mem (by rfl) g.mem, lim_same g.limits rfl⟩
  · exact (h1.host (l0 h) a ha).trans (h0.host a ha)

end Sys2Proof.Machine
end

