-- ==== Sys2Proof/Laws/FitIntake.lean ====
section
/-! SUPPORT. Posting, taking and serving a slot, the examination, the host port and initial reset keep each route of a holder
list among those that list the point. -/

namespace Sys2Proof.Machine

/-! ## Posting and taking -/

theorem fit_postSlot (n : Nat) (r : Request) (s : State) (h : HoldersFit s) : HoldersFit (postSlot n r s) := by
  unfold postSlot
  exact fit_same (fit_write16 _ _ _ (fit_write32 _ _ _ (fit_write32 _ _ _ (fit_write32 _ _ _
    (fit_write16 _ _ _ (fit_write16 _ _ _ h)))))) rfl

theorem fit_takeSlot (n : Nat) (g : HostTag) (s : State) (h : HoldersFit s) : HoldersFit (takeSlot n g s) := by
  unfold takeSlot; dsimp only
  exact fit_write16 _ _ _ (fit_same (fit_write16 (slotAt n) 2 s h) rfl)

/-! ## Serving -/

/-- A block is reached only in a run state that allows its request (R189). -/
theorem fit_serve (al : Allowed) (f : Nat → State → State) (n : Nat) (s : State)
    (hf : al.ok s.exch.runState = true → HoldersFit s → HoldersFit (f n s)) (hz : HoldersFit s) : HoldersFit (serve al f n s) := by
  unfold serve; split
  · rename_i h; exact hf h hz
  · exact fit_complete _ _ _ _ _ hz

/-- Each block, in a run state that R190 allows it in. -/
theorem fit_block (r : Request) (al : Allowed) (f : Nat → State → State) (h : blockOf r = some (al, f)) (n : Nat) (t : State)
    (hr : al.ok t.exch.runState = true) (ht : HoldersFit t) : HoldersFit (f n t) := by
  unfold blockOf at h; dsimp only at h
  split at h
  all_goals first
    | (cases h; simp [ht]; done)
    | (cases h; exact fit_setRoute _ _ _ _ _ (of_decide_eq_true hr) ht)
    | (cases h; exact fit_loadRequest _ _ _ _ _ _ (fun _ => .inl rfl) ht)
    | (cases h; exact fit_loadRequest _ _ _ _ _ _ (fun _ => .inr rfl) ht)
    | (cases h; refine fit_loadRequest _ _ _ _ _ _ (fun e => ?_) ht; rw [e] at hr; cases hr)
    | cases h

theorem fit_serveSlot (n : Nat) (r : Request) (s : State) (hz : HoldersFit s) : HoldersFit (serveSlot n r s) := by
  unfold serveSlot; split
  · exact fit_complete _ _ _ _ _ hz
  · rename_i heq; exact fit_serve _ _ _ _ (fit_block _ _ _ heq _ _) hz

/-- A request command: posted, and taken where the intake may take it. -/
theorem fit_requestCommand (al : Allowed) (f : Nat → State → State) (r : Request) (s : State)
    (hf : ∀ n t, al.ok t.exch.runState = true → HoldersFit t → HoldersFit (f n t)) (hz : HoldersFit s) :
    HoldersFit (requestCommand al f r s) := by
  unfold requestCommand; dsimp only
  have h := fit_postSlot s.exch.takePos r s hz
  split
  · exact fit_finish _ _ (fit_serve _ _ _ _ (hf _ _) (fit_takeSlot _ _ _ h))
  · exact h

/-! ## The examination and the host port -/

theorem fit_takeSlots (k : Nat) (s : State) (hz : HoldersFit s) : HoldersFit (takeSlots k s) := by
  induction k generalizing s with
  | zero => exact hz
  | succ k ih =>
    unfold takeSlots; dsimp only; split
    · exact ih _ (fit_finish _ _ (fit_serveSlot _ _ _ (fit_takeSlot _ _ _ hz)))
    · exact hz

theorem fit_examine (s : State) (hz : HoldersFit s) : HoldersFit (examine s) := by
  unfold examine; dsimp only
  exact fit_same (fit_takeSlots Config.numSlots _ (fit_readLevels _ (fit_write16 0x10 _ _ hz))) rfl

@[simp] theorem fit_breakPairing (s : State) (hz : HoldersFit s) : HoldersFit (breakPairing s) := fit_same hz rfl

@[simp] theorem fit_nudged (s : State) (hz : HoldersFit s) : HoldersFit (nudged s) := by
  have h := fit_breakPairing s hz
  unfold nudged; dsimp only; split
  · exact h
  · exact fit_examine _ h

@[simp] theorem fit_pollExpires (s : State) (hz : HoldersFit s) : HoldersFit (pollExpires s) := by
  unfold pollExpires; split
  · exact hz
  · exact fit_examine _ hz

@[simp] theorem fit_readState (s : State) (hz : HoldersFit s) : HoldersFit (readState s) := by
  unfold readState; exact fit_evalLine _ (fit_same hz rfl)

@[simp] theorem fit_registerIgnored (a : RegisterAccess) (s : State) (hz : HoldersFit s) : HoldersFit (registerIgnored a s) := by
  cases a <;> exact fit_same hz rfl

@[simp] theorem fit_readLower (w : Fin 8192) (s : State) (hz : HoldersFit s) : HoldersFit (readLower w s) := fit_same hz rfl

@[simp] theorem fit_memoryAccess (m : MemAccess) (s : State) (hz : HoldersFit s) : HoldersFit (memoryAccess m s) := by
  cases m with
  | write hw v => exact fit_write16 _ _ _ (fit_same hz rfl)
  | readUpper w => exact fit_same hz rfl

/-! ## Initial reset -/

@[simp] theorem fit_initHeader (p : Profile) (s : State) (hz : HoldersFit s) : HoldersFit (initHeader p s) := by
  unfold initHeader; dsimp only
  simp (maxDischargeDepth := 60) [hz]

/-- The blocks as initial reset leaves them hold no point, stack no request and run no show. -/
theorem fit_blankState (p : Profile) (s : State) : HoldersFit (blankState p s) :=
  ⟨rfl, fun _ _ hn => by
    simp [blankState, holdersOf, Interlocking.init, Tbl.find, Tbl.getD, Holders.none] at hn,
    fun _ => ⟨rfl, rfl, rfl⟩, fun h => by cases h⟩

theorem runState_initHeader (p : Profile) (s : State) : (initHeader p s).exch.runState = s.exch.runState := by
  unfold initHeader setPanelState setUnit setPower setRunCondition; simp

/-- The run state set where no point is held, no request is stacked and no show runs: CONFIGURING (R191, R198). -/
theorem fit_setConfiguring (s : State) (hr : s.exch.runState ≠ .running) (hz : HoldersFit s) :
    HoldersFit (setRunState .configuring s) := by
  unfold setRunState; apply fit_write16
  exact ⟨hz.sorted, hz.listed, fun _ => hz.idle hr, fun h => by cases h⟩

@[simp] theorem fit_initialReset (p : Profile) (s : State) : HoldersFit (initialReset p s) := by
  unfold initialReset; dsimp only
  have h := fit_setConfiguring _ (by rw [runState_initHeader]; exact RunState.noConfusion) (fit_initHeader p _ (fit_blankState p s))
  generalize setRunState .configuring (initHeader p (blankState p s)) = u at h
  exact fit_reportLayout _ _ _ (fit_same h rfl)

end Sys2Proof.Machine
end

