-- ==== Sys2Proof/Laws/Outcome.lean ====
section
/-! SUPPORT. What a command makes of the machine: from the end of a handling that leaves nothing to do to `Makes`,
`Replies` and `Pends`. -/

namespace Sys2Proof.Machine

theorem inside_calm (s : State) : inside (calm s) = inside s := by
  simp only [inside, calm, body]

theorem inside_of_calm {s t : State} (h : calm s = calm t) : inside s = inside t :=
  (inside_calm s).symm.trans ((congrArg inside h).trans (inside_calm t))

theorem inside_calmDone (s : State) : inside (calmDone s) = inside s := by
  simp only [inside, calmDone, calm, body]

/-- The end of a handling that leaves nothing to do changes nothing inside. -/
theorem inside_finish (b s : State) (h : quietEnd s = true) : inside (finish b s) = inside s := by
  rw [← inside_calmDone, calmDone_finish b s h]
  simp only [inside, calm, body]

theorem memoryKept_of_own {s t : State} (h : Own s t) : MemoryKept none s t :=
  ⟨fun a ha _ => h.host a ha, fun n a hn _ g ha => (h.idle n hn g).2 a ha⟩

/-- A command that is one handling. -/
theorem makes_finish {c : Instr} {s u v : State} (e : exec c s = .next (finish s v)) (q : quietEnd v = true)
    (hi : inside v = inside u) (ho : Own s v) : Makes c s u :=
  ⟨_, e, (inside_finish s v q).trans hi, memoryKept_of_own (own_finish s v ho)⟩

/-- Nothing is left to do where nothing was asked for and no show waits. -/
theorem quietEnd_of_none (s : State) (h : s.work = Work.none) (hv : s.vis.queue = []) : quietEnd s = true := by
  unfold quietEnd noHead; simp [h, hv, Work.none]

/-- Nothing is left to do where nothing waits. -/
theorem quietEnd_of_empty (s : State) (h : s.work.step = none) (hv : s.vis.queue = []) (hq : s.pts.queue = [])
    (hs : s.ilk.stack = []) : quietEnd s = true := by
  unfold quietEnd noHead dispatchIdle; simp [h, hv, hq, hs]

/-! ## A slot taken -/

/-- The state in which a request's block begins its work: the record is posted and the slot is taken. -/
def taken (r : Request) (s : State) : State := takeSlot s.exch.takePos r.tag (postSlot s.exch.takePos r s)

/-- A state is another one with its own memory, where they agree on all but memory. -/
theorem eq_withMem {s t : State} (h : s.withMem [] = t.withMem []) : s = t.withMem s.exch.mem := by
  have h1 : s = (s.withMem []).withMem s.exch.mem := rfl
  rw [h] at h1
  exact h1

theorem inHand_of_blank {s t : State} (h : s.withMem [] = t.withMem []) : s.exch.inHand = t.exch.inHand := by
  have g := congrArg (fun u : State => u.exch.inHand) h
  exact g

theorem runState_of_blank {s t : State} (h : s.withMem [] = t.withMem []) : s.exch.runState = t.exch.runState := by
  have g := congrArg (fun u : State => u.exch.runState) h
  exact g

@[simp] theorem blank_write16 (a v : Nat) (s : State) : (s.write16 a v).withMem [] = s.withMem [] := by
  unfold State.write16; split <;> rfl

@[simp] theorem blank_write32 (a v : Nat) (s : State) : (s.write32 a v).withMem [] = s.withMem [] := by
  unfold State.write32; split <;> rfl

/-- The pairing broken, on a state without its memory. -/
theorem blank_paired {s t : State} (h : s.withMem [] = t.withMem []) :
    ({ s with exch := { s.exch with paired := false } } : State).withMem []
      = ({ t with exch := { t.exch with paired := false } } : State).withMem [] :=
  congrArg (fun u : State => ({ u with exch := { u.exch with paired := false } } : State)) h

theorem blank_postSlot (n : Nat) (r : Request) (s : State) :
    (postSlot n r s).withMem [] = ({ s with exch := { s.exch with paired := false } } : State).withMem [] := by
  unfold postSlot
  exact blank_paired (by simp)

theorem blank_takeSlot (n : Nat) (g : HostTag) (s : State) :
    (takeSlot n g s).withMem []
      = ({ s with exch := { s.exch with inHand := Tbl.insert s.exch.inHand n g, takePos := (n + 1) % Config.numSlots } } : State).withMem [] := by
  unfold takeSlot
  dsimp only
  rw [blank_write16]
  exact congrArg (fun u : State => ({ u with exch := { u.exch with
    inHand := Tbl.insert u.exch.inHand n g, takePos := (n + 1) % Config.numSlots } } : State)) (blank_write16 (slotAt n) 2 s)

/-- Posting and taking change memory, the mark, the take position and the latch's pairing alone. -/
theorem taken_shape (r : Request) (s : State) :
    taken r s = ((s.inHand r.tag).served).withMem (taken r s).exch.mem := by
  apply eq_withMem
  unfold taken
  rw [blank_takeSlot]
  exact congrArg (fun u : State => ({ u with exch := { u.exch with
    inHand := Tbl.insert u.exch.inHand s.exch.takePos r.tag,
    takePos := (s.exch.takePos + 1) % Config.numSlots } } : State)) (blank_postSlot s.exch.takePos r s)

theorem mem_taken (r : Request) (s : State) (h : s.memOk) : (taken r s).memOk :=
  memOk_takeSlot _ _ _ (memOk_postSlot _ _ _ h)

/-- Posting and taking write in the slot and in the take position of the header. -/
theorem read8_taken (r : Request) (s : State) (a : Nat) (h1 : ¬ inSlot s.exch.takePos a) (h2 : a ≠ 0x14)
    (h3 : a ≠ 0x15) : (taken r s).read8 a = s.read8 a := by
  have h1' := h1
  unfold inSlot at h1
  unfold taken
  rw [read8_takeSlot _ _ _ _ (by omega) (by omega) h2 h3, read8_postSlot _ _ _ _ h1']

/-- What is the part's own after the taking of a slot is what is its own, but for that slot. -/
theorem memoryKept_taken {s t : State} {r : Request} (h : Own (taken r s) t) :
    MemoryKept (some s.exch.takePos) s t := by
  have far : ∀ a, 0x1000 ≤ a → a ≠ 0x14 ∧ a ≠ 0x15 := fun a h => ⟨by omega, by omega⟩
  refine ⟨fun a ha hb => ?_, fun n a hm hb g ha => ?_⟩
  · have hf : 0x1000 ≤ a := by
      unfold hostOwned Config.dataBase slotAt Config.slotBase at ha; omega
    rw [h.host a ha, read8_taken r s a (hb _ rfl) (far a hf).1 (far a hf).2]
  · have hne : n ≠ s.exch.takePos := fun e => hb (e ▸ rfl)
    have hf : 0x1000 ≤ a := by unfold inSlot slotAt Config.slotBase at ha; omega
    have hi : ¬ inSlot s.exch.takePos a := by
      unfold inSlot slotAt Config.slotBase at ha ⊢; omega
    have g2 : Tbl.find (taken r s).exch.inHand n = none := by
      rw [taken_shape]
      exact (Tbl.find_insert_other _ _ _ _ hne).trans g
    rw [(h.idle n hm g2).2 a ha, read8_taken r s a hi (far a hf).1 (far a hf).2]

/-! ## A slot completed -/

/-- A new entry erased leaves the table. -/
theorem Tbl.erase_insert {α : Type} (t : Tbl α) (n : Nat) (v : α) (h : Tbl.find t n = none) :
    Tbl.erase (Tbl.insert t n v) n = t := by
  induction t with
  | nil => simp [Tbl.insert, Tbl.erase]
  | cons x t ih =>
    obtain ⟨k, w⟩ := x
    have hk : n ≠ k := by rintro rfl; simp [Tbl.find] at h
    simp only [Tbl.find, if_neg hk] at h
    simp only [Tbl.insert, if_neg hk]
    split
    · simp [Tbl.erase]
    · simp [Tbl.erase, if_neg hk, ih h]

theorem read16_of_read8 {s t : State} {a : Nat} (h0 : t.read8 a = s.read8 a) (h1 : t.read8 (a + 1) = s.read8 (a + 1)) :
    t.read16 a = s.read16 a := by
  unfold State.read8 at h0 h1
  have e0 := BitVec.eq_of_toNat_eq h0
  have e1 := BitVec.eq_of_toNat_eq h1
  unfold State.read16 Mem.read16; rw [e0, e1]

theorem read32_of_read8 {s t : State} {a : Nat} (h : ∀ k, k < 4 → t.read8 (a + k) = s.read8 (a + k)) :
    t.read32 a = s.read32 a := by
  unfold State.read8 at h
  have e0 := BitVec.eq_of_toNat_eq (h 0 (by omega))
  have e1 := BitVec.eq_of_toNat_eq (h 1 (by omega))
  have e2 := BitVec.eq_of_toNat_eq (h 2 (by omega))
  have e3 := BitVec.eq_of_toNat_eq (h 3 (by omega))
  unfold State.read32 Mem.read32 Mem.read16
  simp only [Nat.add_assoc, Nat.reduceAdd, Nat.add_zero] at *
  rw [e0, e1, e2, e3]

theorem read16_write16_other (a v b : Nat) (s : State) (h : b + 1 < a ∨ a + 1 < b) :
    (s.write16 a v).read16 b = s.read16 b :=
  read16_of_read8 (read8_write16_other _ _ _ _ (by omega)) (read8_write16_other _ _ _ _ (by omega))

theorem read16_write32_other (a v b : Nat) (s : State) (h : b + 1 < a ∨ a + 3 < b) :
    (s.write32 a v).read16 b = s.read16 b :=
  read16_of_read8 (read8_write32_other _ _ _ _ (by omega)) (read8_write32_other _ _ _ _ (by omega))

theorem read32_write16_other (a v b : Nat) (s : State) (h : b + 3 < a ∨ a + 1 < b) :
    (s.write16 a v).read32 b = s.read32 b :=
  read32_of_read8 fun _ _ => read8_write16_other _ _ _ _ (by omega)

theorem read32_write32_other (a v b : Nat) (s : State) (h : b + 3 < a ∨ a + 3 < b) :
    (s.write32 a v).read32 b = s.read32 b :=
  read32_of_read8 fun _ _ => read8_write32_other _ _ _ _ (by omega)

theorem code_small (r : Result) : r.code % 2 ^ 16 = r.code := by cases r <;> rfl

/-- Completing a slot in hand fills it in (R189). The marks are a table in rising order. -/
theorem slotDone_complete (n : Nat) (tag : HostTag) (r : Result) (w0 w1 : Nat) (s : State) (hn : n < Config.numSlots)
    (hm : s.memOk) (hs : Tbl.find s.exch.inHand n = some tag)
    (he : Tbl.find (Tbl.erase s.exch.inHand n) n = none) : SlotDone n tag r w0 w1 (complete n r w0 w1 s) := by
  unfold complete
  rw [if_pos hn, hs]
  dsimp only
  have ha : slotAt n + 31 < Config.memBytes := by
    unfold Config.numSlots at hn; unfold slotAt Config.slotBase Config.memBytes; omega
  generalize ea : slotAt n = a at *
  have m1 := memOk_write16 (a + 6) r.code s hm
  have m2 := memOk_write32 (a + 0x18) w0 _ m1
  have m3 := memOk_write32 (a + 0x1C) w1 _ m2
  have m4 := memOk_write16 (a + 4) tag.toNat _ m3
  generalize ht : ((((s.write16 (a + 6) r.code).write32 (a + 0x18) w0).write32 (a + 0x1C) w1).write16 (a + 4)
    tag.toNat).write16 a 3 = t
  have hsame : t.exch.inHand = s.exch.inHand := inHand_of_blank (by subst ht; simp)
  have f0 : t.read16 a = 3 := by
    subst ht; exact read16_write16_self a 3 _ m4 (by omega)
  have f1 : t.read16 (a + 4) = tag.toNat := by
    subst ht
    rw [read16_write16_other _ _ _ _ (by omega), read16_write16_self _ _ _ m3 (by omega)]
    exact Nat.mod_eq_of_lt tag.isLt
  have f2 : t.read16 (a + 6) = r.code := by
    subst ht
    rw [read16_write16_other _ _ _ _ (by omega), read16_write16_other _ _ _ _ (by omega),
      read16_write32_other _ _ _ _ (by omega), read16_write32_other _ _ _ _ (by omega),
      read16_write16_self _ _ _ hm (by omega), code_small]
  have f3 : t.read32 (a + 0x18) = w0 % 2 ^ 32 := by
    subst ht
    rw [read32_write16_other _ _ _ _ (by omega), read32_write16_other _ _ _ _ (by omega),
      read32_write32_other _ _ _ _ (by omega), read32_write32_self _ _ _ m1 (by omega)]
  have f4 : t.read32 (a + 0x1C) = w1 % 2 ^ 32 := by
    subst ht
    rw [read32_write16_other _ _ _ _ (by omega), read32_write16_other _ _ _ _ (by omega),
      read32_write32_self _ _ _ m2 (by omega)]
  refine ⟨?_, ?_, ?_, ?_, ?_, by rw [← hsame] at he; exact he⟩ <;> rw [ea]
  · exact f0
  · exact f1
  · exact f2
  · exact f3
  · exact f4

/-- A completed slot stays as it is. -/
theorem SlotDone.own {n : Nat} {tag : HostTag} {r : Result} {w0 w1 : Nat} {s t : State} (h : SlotDone n tag r w0 w1 s)
    (hn : n < Config.numSlots) (ho : Own s t) : SlotDone n tag r w0 w1 t := by
  obtain ⟨g1, g2⟩ := ho.idle n hn h.mark
  have k : ∀ d, d < 32 → t.read8 (slotAt n + d) = s.read8 (slotAt n + d) := fun d hd => g2 _ ⟨by omega, by omega⟩
  refine ⟨?_, ?_, ?_, ?_, ?_, g1⟩
  · rw [← h.state]; exact read16_of_read8 (k 0 (by omega)) (k 1 (by omega))
  · rw [← h.tag]; exact read16_of_read8 (k 4 (by omega)) (k 5 (by omega))
  · rw [← h.code]; exact read16_of_read8 (k 6 (by omega)) (k 7 (by omega))
  · rw [← h.word0]; exact read32_of_read8 fun d _ => by rw [Nat.add_assoc]; exact k _ (by omega)
  · rw [← h.word1]; exact read32_of_read8 fun d _ => by rw [Nat.add_assoc]; exact k _ (by omega)

/-! ## Requests -/

/-- A completion changes the marks and outputs alone. -/
theorem calm_complete (n : Nat) (r : Result) (w0 w1 : Nat) (s : State) (hn : n < Config.numSlots)
    (hs : (Tbl.find s.exch.inHand n).isSome) :
    calm (complete n r w0 w1 s)
      = calm { s with exch := { s.exch with inHand := Tbl.erase s.exch.inHand n } } := by
  obtain ⟨tag, hs⟩ := Option.isSome_iff_exists.1 hs
  unfold complete
  rw [if_pos hn, hs]
  dsimp only
  generalize ht : ((((s.write16 (slotAt n + 6) r.code).write32 (slotAt n + 0x18) w0).write32 (slotAt n + 0x1C)
    w1).write16 (slotAt n + 4) tag.toNat).write16 (slotAt n) 3 = t
  have e : t.withMem [] = s.withMem [] := by subst ht; simp
  rw [eq_withMem e]
  rfl

/-- A request whose block goes on in hand, or that is answered in the same handling. -/
theorem request_next {al : Allowed} {f : Nat → State → State} {q : Request} {s : State} {rs : RunState}
    (h : Ready rs s) (hal : al.ok rs = true) (hrs : rs ≠ .initializing) :
    requestCommand al f q s = finish s (f s.exch.takePos (taken q s)) := by
  have hr : (postSlot s.exch.takePos q s).exch.runState = s.exch.runState :=
    (runState_of_blank (blank_postSlot s.exch.takePos q s)).trans rfl
  have hi : (postSlot s.exch.takePos q s).exch.inHand = s.exch.inHand :=
    (inHand_of_blank (blank_postSlot s.exch.takePos q s)).trans rfl
  have ht : (taken q s).exch.runState = s.exch.runState := by rw [taken_shape]; rfl
  unfold requestCommand
  dsimp only
  have hm : mayTake s.exch.takePos (postSlot s.exch.takePos q s) = true := by
    unfold mayTake Tbl.has
    rw [hr, hi, h.state, h.mark]
    cases rs <;> simp_all
  rw [if_pos hm]
  show finish s (serve al f s.exch.takePos (taken q s)) = _
  unfold serve
  rw [ht, h.state, if_pos hal]

/-- The run state is not one that allows the request (R189, R190). -/
theorem request_wrong {al : Allowed} {f : Nat → State → State} {q : Request} {s : State} {rs : RunState}
    (h : Ready rs s) (hal : al.ok rs = false) (hrs : rs ≠ .initializing) :
    requestCommand al f q s = finish s (complete s.exch.takePos .wrongState rs.code 0 (taken q s)) := by
  have hr : (postSlot s.exch.takePos q s).exch.runState = s.exch.runState :=
    (runState_of_blank (blank_postSlot s.exch.takePos q s)).trans rfl
  have hi : (postSlot s.exch.takePos q s).exch.inHand = s.exch.inHand :=
    (inHand_of_blank (blank_postSlot s.exch.takePos q s)).trans rfl
  have ht : (taken q s).exch.runState = s.exch.runState := by rw [taken_shape]; rfl
  unfold requestCommand
  dsimp only
  have hm : mayTake s.exch.takePos (postSlot s.exch.takePos q s) = true := by
    unfold mayTake Tbl.has
    rw [hr, hi, h.state, h.mark]
    cases rs <;> simp_all
  rw [if_pos hm]
  show finish s (serve al f s.exch.takePos (taken q s)) = _
  unfold serve
  rw [ht, h.state, if_neg (by simp [hal])]

theorem taken_mark (q : Request) (s : State) :
    (taken q s).exch.inHand = Tbl.insert s.exch.inHand s.exch.takePos q.tag := by rw [taken_shape]; rfl

/-- The end of a request that completes its own slot last. -/
theorem quietEnd_complete (n : Nat) (r : Result) (w0 w1 : Nat) (s : State) (hn : n < Config.numSlots)
    (hs : (Tbl.find s.exch.inHand n).isSome) : quietEnd (complete n r w0 w1 s) = quietEnd s := by
  rw [quietEnd_of_calm (calm_complete n r w0 w1 s hn hs)]
  rfl

/-- From the block's last act, a completion of its own slot, to the reply. `v` is what the block has made of the machine
before the completion. -/
theorem replies_of {c : Instr} {s u v : State} {q : Request} {r : Result} {w0 w1 : Nat} {al : Allowed}
    {f : Nat → State → State} {rs : RunState} (e : exec c s = .next (requestCommand al f q s)) (h : Ready rs s)
    (hal : al.ok rs = true) (hrs : rs ≠ .initializing) (hf : f s.exch.takePos (taken q s) = complete s.exch.takePos r w0 w1 v)
    (ho : Own (taken q s) v) (hv : inside v = inside (u.inHand q.tag).served)
    (hu : u.exch.takePos = s.exch.takePos ∧ u.exch.inHand = s.exch.inHand) (hq : quietEnd v = true) :
    Replies c s u q.tag r w0 w1 := by
  have hn : s.exch.takePos < Config.numSlots := h.sound.limits.takePos
  have hvi : v.exch.inHand = Tbl.insert s.exch.inHand s.exch.takePos q.tag := by
    have g := congrArg (fun x : State => x.exch.inHand) hv
    have g2 : v.exch.inHand = Tbl.insert u.exch.inHand u.exch.takePos q.tag := g
    rw [g2, hu.1, hu.2]
  have hfind : Tbl.find v.exch.inHand s.exch.takePos = some q.tag := by rw [hvi]; exact Tbl.find_insert_self _ _ _
  have herase : Tbl.erase v.exch.inHand s.exch.takePos = s.exch.inHand := by
    rw [hvi]; exact Tbl.erase_insert _ _ _ h.mark
  have hmem : v.memOk := ho.mem (mem_taken q s h.sound.mem)
  have hd := slotDone_complete s.exch.takePos q.tag r w0 w1 v hn hmem hfind (by rw [herase]; exact h.mark)
  have hcc : inside (complete s.exch.takePos r w0 w1 v) = inside u.served := by
    rw [inside_of_calm (calm_complete _ _ _ _ _ hn (by rw [hfind]; rfl)), herase, ← hu.2]
    have g := congrArg (fun x : State => ({ x with exch := { x.exch with inHand := u.exch.inHand } } : State)) hv
    exact g
  have hqe : quietEnd (complete s.exch.takePos r w0 w1 v) = true := by
    rw [quietEnd_complete _ _ _ _ _ hn (by rw [hfind]; rfl)]; exact hq
  refine ⟨_, e, ?_⟩
  rw [request_next h hal hrs, hf]
  refine ⟨hd.own hn (own_finish _ _ (Own.refl _)), ?_, ?_⟩
  · rw [inside_finish _ _ hqe]; exact hcc
  · exact memoryKept_taken (own_finish _ _ (own_complete ho _ _ _ _))

theorem inside_taken (q : Request) (s : State) : inside (taken q s) = inside (s.inHand q.tag).served := by
  rw [taken_shape]; rfl

theorem quietEnd_taken (q : Request) (s : State) : quietEnd (taken q s) = quietEnd s := by
  rw [taken_shape]; rfl

/-- A request that is answered with nothing else done. -/
theorem replies_same {c : Instr} {s : State} {q : Request} {r : Result} {w0 w1 : Nat} {al : Allowed}
    {f : Nat → State → State} {rs : RunState} (e : exec c s = .next (requestCommand al f q s)) (h : Ready rs s)
    (hal : al.ok rs = true) (hrs : rs ≠ .initializing)
    (hf : f s.exch.takePos (taken q s) = complete s.exch.takePos r w0 w1 (taken q s)) (hr : AtRest s) :
    Replies c s s q.tag r w0 w1 := by
  refine replies_of e h hal hrs hf (Own.refl _) (inside_taken q s) ⟨rfl, rfl⟩ ?_
  rw [quietEnd_taken]
  exact quietEnd_of_none s hr.work hr.shows

/-- A request that stays in hand. -/
theorem pends_of {c : Instr} {s u v : State} {q : Request} {al : Allowed} {f : Nat → State → State} {rs : RunState}
    (e : exec c s = .next (requestCommand al f q s)) (h : Ready rs s) (hal : al.ok rs = true) (hrs : rs ≠ .initializing)
    (hf : f s.exch.takePos (taken q s) = v) (ho : Own (taken q s) v) (hv : inside v = inside (u.inHand q.tag).served)
    (hq : quietEnd v = true) (hs : (finish s v).read16 (slotAt s.exch.takePos) = 2) : Pends c s u q.tag := by
  refine ⟨_, e, ?_⟩
  rw [request_next h hal hrs, hf]
  exact ⟨hs, (inside_finish _ _ hq).trans hv, memoryKept_taken (own_finish _ _ ho)⟩

end Sys2Proof.Machine
end

