-- ==== Sys2Proof/Laws/PerInstr.lean ====
section
/-! SUPPORT. The family `Requests`, one lemma per command: a command that posts a record posts one whose kind the intake
knows, with the run states that the intake allows it (12.4, R189, R190). -/

open Sys2Proof Sys2Proof.Machine

namespace Sys2Proof.Laws

/-- A command's record, where it posts one, is of a kind of 12.4, and its run states are those of the intake. -/
def Requests.Statement (i : Instr) : Prop :=
  ∀ al q, requestOf i = some (al, q) → 1 ≤ q.kind ∧ q.kind ≤ 26 ∧ ∃ f, blockOf q = some (al, f)

theorem Requests.detectorSample (input : Fin 256) (occupied : Bool) : Requests.Statement (.detectorSample input occupied) :=
  fun _ _ h => by cases h
theorem Requests.axleHeadSample (head : Fin 32) (first second : Bool) : Requests.Statement (.axleHeadSample head first second) :=
  fun _ _ h => by cases h
theorem Requests.discrepancyTimerExpiry (sec : Fin 256) : Requests.Statement (.discrepancyTimerExpiry sec) :=
  fun _ _ h => by cases h
theorem Requests.disableSection (tag : HostTag) (sec : Word) : Requests.Statement (.disableSection tag sec) :=
  fun _ _ h => by cases h; exact ⟨by simp, by simp, _, rfl⟩
theorem Requests.enableSection (tag : HostTag) (sec : Word) : Requests.Statement (.enableSection tag sec) :=
  fun _ _ h => by cases h; exact ⟨by simp, by simp, _, rfl⟩
theorem Requests.resetSection (tag : HostTag) (sec : Word) : Requests.Statement (.resetSection tag sec) :=
  fun _ _ h => by cases h; exact ⟨by simp, by simp, _, rfl⟩
theorem Requests.lostHoldExpiry (t : Fin 64) : Requests.Statement (.lostHoldExpiry t) :=
  fun _ _ h => by cases h
theorem Requests.labelTag (tag : HostTag) (t label : Word) : Requests.Statement (.labelTag tag t label) :=
  fun _ _ h => by cases h; exact ⟨by simp, by simp, _, rfl⟩
theorem Requests.loadSections (tag : HostTag) (offset length count : Word) : Requests.Statement (.loadSections tag offset length count) :=
  fun _ _ h => by cases h; exact ⟨by simp, by simp, _, rfl⟩
theorem Requests.loadRoutes (tag : HostTag) (offset length count : Word) : Requests.Statement (.loadRoutes tag offset length count) :=
  fun _ _ h => by cases h; exact ⟨by simp, by simp, _, rfl⟩
theorem Requests.loadPoints (tag : HostTag) (offset length count : Word) : Requests.Statement (.loadPoints tag offset length count) :=
  fun _ _ h => by cases h; exact ⟨by simp, by simp, _, rfl⟩
theorem Requests.loadSignals (tag : HostTag) (offset length count : Word) : Requests.Statement (.loadSignals tag offset length count) :=
  fun _ _ h => by cases h; exact ⟨by simp, by simp, _, rfl⟩
theorem Requests.loadTable (tag : HostTag) (offset length count : Word) : Requests.Statement (.loadTable tag offset length count) :=
  fun _ _ h => by cases h; exact ⟨by simp, by simp, _, rfl⟩
theorem Requests.loadShows (tag : HostTag) (offset length count : Word) : Requests.Statement (.loadShows tag offset length count) :=
  fun _ _ h => by cases h; exact ⟨by simp, by simp, _, rfl⟩
theorem Requests.loadLamps (tag : HostTag) (offset length count : Word) : Requests.Statement (.loadLamps tag offset length count) :=
  fun _ _ h => by cases h; exact ⟨by simp, by simp, _, rfl⟩
theorem Requests.loadRecord : Requests.Statement .loadRecord :=
  fun _ _ h => by cases h
theorem Requests.setParameters (tag : HostTag) (group offset count : Word) : Requests.Statement (.setParameters tag group offset count) :=
  fun _ _ h => by cases h; exact ⟨by simp, by simp, _, rfl⟩
theorem Requests.start (tag : HostTag) : Requests.Statement (.start tag) :=
  fun _ _ h => by cases h; exact ⟨by simp, by simp, _, rfl⟩
theorem Requests.layoutReset (tag : HostTag) : Requests.Statement (.layoutReset tag) :=
  fun _ _ h => by cases h; exact ⟨by simp, by simp, _, rfl⟩
theorem Requests.setRoute (tag : HostTag) (route originator options : Word) : Requests.Statement (.setRoute tag route originator options) :=
  fun _ _ h => by cases h; exact ⟨by simp, by simp, _, rfl⟩
theorem Requests.stackEntryExpiry (route : Fin 512) : Requests.Statement (.stackEntryExpiry route) :=
  fun _ _ h => by cases h
theorem Requests.cancelRoute (tag : HostTag) (route : Word) : Requests.Statement (.cancelRoute tag route) :=
  fun _ _ h => by cases h; exact ⟨by simp, by simp, _, rfl⟩
theorem Requests.overlapTimerExpiry (entry : Fin 48) : Requests.Statement (.overlapTimerExpiry entry) :=
  fun _ _ h => by cases h
theorem Requests.approachTimerExpiry (entry : Fin 48) : Requests.Statement (.approachTimerExpiry entry) :=
  fun _ _ h => by cases h
theorem Requests.pointContactSample (input : Fin 256) (closed : Bool) : Requests.Statement (.pointContactSample input closed) :=
  fun _ _ h => by cases h
theorem Requests.lossTimerExpiry (point : Fin 128) : Requests.Statement (.lossTimerExpiry point) :=
  fun _ _ h => by cases h
theorem Requests.pulseTimerExpiry : Requests.Statement .pulseTimerExpiry :=
  fun _ _ h => by cases h
theorem Requests.windowTimerExpiry (point : Fin 128) : Requests.Statement (.windowTimerExpiry point) :=
  fun _ _ h => by cases h
theorem Requests.rechargeTimerExpiry : Requests.Statement .rechargeTimerExpiry :=
  fun _ _ h => by cases h
theorem Requests.travelTimerExpiry (point : Fin 128) : Requests.Statement (.travelTimerExpiry point) :=
  fun _ _ h => by cases h
theorem Requests.movePoint (tag : HostTag) (point lie : Word) : Requests.Statement (.movePoint tag point lie) :=
  fun _ _ h => by cases h; exact ⟨by simp, by simp, _, rfl⟩
theorem Requests.restorePoint (tag : HostTag) (point : Word) : Requests.Statement (.restorePoint tag point) :=
  fun _ _ h => by cases h; exact ⟨by simp, by simp, _, rfl⟩
theorem Requests.stopPinSample (active : Bool) : Requests.Statement (.stopPinSample active) :=
  fun _ _ h => by cases h
theorem Requests.allStop (tag : HostTag) : Requests.Statement (.allStop tag) :=
  fun _ _ h => by cases h; exact ⟨by simp, by simp, _, rfl⟩
theorem Requests.resume (tag : HostTag) : Requests.Statement (.resume tag) :=
  fun _ _ h => by cases h; exact ⟨by simp, by simp, _, rfl⟩
theorem Requests.boltContactSample (contact : BoltContact) (closed : Bool) : Requests.Statement (.boltContactSample contact closed) :=
  fun _ _ h => by cases h
theorem Requests.boltTimerExpiry : Requests.Statement .boltTimerExpiry :=
  fun _ _ h => by cases h
theorem Requests.settleTimerExpiry : Requests.Statement .settleTimerExpiry :=
  fun _ _ h => by cases h
theorem Requests.stepBoundary (index : Bool) : Requests.Statement (.stepBoundary index) :=
  fun _ _ h => by cases h
theorem Requests.homingSearchLimit (index : Bool) : Requests.Statement (.homingSearchLimit index) :=
  fun _ _ h => by cases h
theorem Requests.legEnd (index : Bool) : Requests.Statement (.legEnd index) :=
  fun _ _ h => by cases h
theorem Requests.stopComplete (index : Bool) : Requests.Statement (.stopComplete index) :=
  fun _ _ h => by cases h
theorem Requests.turnTable (tag : HostTag) (road deckEnd : Word) : Requests.Statement (.turnTable tag road deckEnd) :=
  fun _ _ h => by cases h; exact ⟨by simp, by simp, _, rfl⟩
theorem Requests.homeTable (tag : HostTag) (road deckEnd : Word) : Requests.Statement (.homeTable tag road deckEnd) :=
  fun _ _ h => by cases h; exact ⟨by simp, by simp, _, rfl⟩
theorem Requests.stopTable (tag : HostTag) : Requests.Statement (.stopTable tag) :=
  fun _ _ h => by cases h; exact ⟨by simp, by simp, _, rfl⟩
theorem Requests.jogHoldTimerExpiry : Requests.Statement .jogHoldTimerExpiry :=
  fun _ _ h => by cases h
theorem Requests.buttonSample (button : Fin 18) (pressed : Bool) : Requests.Statement (.buttonSample button pressed) :=
  fun _ _ h => by cases h
theorem Requests.stepTimerExpiry : Requests.Statement .stepTimerExpiry :=
  fun _ _ h => by cases h
theorem Requests.durationTimerExpiry : Requests.Statement .durationTimerExpiry :=
  fun _ _ h => by cases h
theorem Requests.coolDownExpiry (show_ : Fin 32) : Requests.Statement (.coolDownExpiry show_) :=
  fun _ _ h => by cases h
theorem Requests.runShow (tag : HostTag) (show_ : Word) : Requests.Statement (.runShow tag show_) :=
  fun _ _ h => by cases h; exact ⟨by simp, by simp, _, rfl⟩
theorem Requests.visitorSuspend (tag : HostTag) : Requests.Statement (.visitorSuspend tag) :=
  fun _ _ h => by cases h; exact ⟨by simp, by simp, _, rfl⟩
theorem Requests.visitorResume (tag : HostTag) : Requests.Statement (.visitorResume tag) :=
  fun _ _ h => by cases h; exact ⟨by simp, by simp, _, rfl⟩
theorem Requests.flashPhaseChange : Requests.Statement .flashPhaseChange :=
  fun _ _ h => by cases h
theorem Requests.idleTimerExpiry : Requests.Statement .idleTimerExpiry :=
  fun _ _ h => by cases h
theorem Requests.nudge (value : Half) : Requests.Statement (.nudge value) :=
  fun _ _ h => by cases h
theorem Requests.pollTimerExpiry : Requests.Statement .pollTimerExpiry :=
  fun _ _ h => by cases h
theorem Requests.stateRead : Requests.Statement .stateRead :=
  fun _ _ h => by cases h
theorem Requests.fullReset (profileHigh : Bool) : Requests.Statement (.fullReset profileHigh) :=
  fun _ _ h => by cases h
theorem Requests.controlLayoutReset : Requests.Statement .controlLayoutReset :=
  fun _ _ h => by cases h
theorem Requests.registerWriteIgnored (access : RegisterAccess) : Requests.Statement (.registerWriteIgnored access) :=
  fun _ _ h => by cases h
theorem Requests.halfWordLatchRead (word : Fin 8192) : Requests.Statement (.halfWordLatchRead word) :=
  fun _ _ h => by cases h
theorem Requests.initialReset (profileHigh : Bool) : Requests.Statement (.initialReset profileHigh) :=
  fun _ _ h => by cases h
theorem Requests.hostMemoryAccess (access : MemAccess) : Requests.Statement (.hostMemoryAccess access) :=
  fun _ _ h => by cases h
theorem Requests.stepOutputActive : Requests.Statement .stepOutputActive :=
  fun _ _ h => by cases h
theorem Requests.jogHoldRemainingChange : Requests.Statement .jogHoldRemainingChange :=
  fun _ _ h => by cases h
theorem Requests.wholeSecondRemainingChange (timer : ShowTimer) : Requests.Statement (.wholeSecondRemainingChange timer) :=
  fun _ _ h => by cases h

end Sys2Proof.Laws
end

