-- ==== Sys2Proof/Laws/Quiet.lean ====
section
/-! SUPPORT. A change of a section in a quiet machine: inside, it changes the section and the tags alone. -/

namespace Sys2Proof.Machine

/-- What stands inside the part, with the tag unit blanked. -/
def sansTags (s : State) : State := inside { s with tags := TagUnit.init }

theorem st_body {s t : State} (h : body s = body t) : sansTags s = sansTags t := by
  have g := congrArg (fun u : State => ({ u with tags := TagUnit.init } : State)) (inside_of_calm (calm_of_body h))
  exact g

@[simp] theorem st_report (k : ReportKind) (x v1 v2 : Nat) (s : State) : sansTags (report k x v1 v2 s) = sansTags s :=
  st_body (body_report k x v1 v2 s)

@[simp] theorem st_mirrorTag (n : Nat) (s : State) : sansTags (mirrorTag n s) = sansTags s := st_body (body_mirrorTag n s)

@[simp] theorem st_mirrorSection (n : Nat) (s : State) : sansTags (mirrorSection n s) = sansTags s := st_body (body_mirrorSection n s)

@[simp] theorem st_mirrorSignal (n : Nat) (s : State) : sansTags (mirrorSignal n s) = sansTags s := st_body (body_mirrorSignal n s)

@[simp] theorem st_setTag (t : Nat) (v : Tag) (s : State) : sansTags (setTag t v s) = sansTags s := by
  unfold setTag; rw [st_mirrorTag]; rfl

@[simp] theorem st_setTagField (n : Nat) (t : Option Nat) (s : State) : sansTags (setTagField n t s) = sansTags s := by
  unfold setTagField; dsimp only; rw [st_mirrorSection]; rfl

@[simp] theorem st_takeTag (n t : Nat) (s : State) : sansTags (takeTag n t s) = sansTags s := by
  unfold takeTag; dsimp only; rw [st_setTagField, st_setTag]

@[simp] theorem st_reclaimOrAllocate (n : Nat) (l : List Neighbour) (s : State) :
    sansTags (reclaimOrAllocate n l s).1 = sansTags s := by
  unfold reclaimOrAllocate; split
  · simp
  · split <;> simp

@[simp] theorem st_arrive (n : Nat) (s : State) : sansTags (arrive n s).1 = sansTags s := by
  unfold arrive; dsimp only; split
  · simp
  · split <;> simp

@[simp] theorem st_freeLostTag (t : Nat) (s : State) : sansTags (freeLostTag t s) = sansTags s := by
  unfold freeLostTag; simp

@[simp] theorem st_depart (n : Nat) (s : State) : sansTags (depart n s) = sansTags s := by
  unfold depart; split
  · rfl
  · dsimp only; split
    · split <;> simp
    · simp

@[simp] theorem st_tagSectionChange (n : Nat) (x y : SectionState) (s : State) :
    sansTags (tagSectionChange n x y s).1 = sansTags s := by
  unfold tagSectionChange; split
  · split
    · rfl
    · simp
  all_goals first | rfl | simp
/-- A field that is no output and no tag. -/
theorem st_field {α : Type} (f : State → α) (hf : ∀ u, f (sansTags u) = f u) {s t : State}
    (h : sansTags s = sansTags t) : f s = f t := by
  rw [← hf s, ← hf t, h]
/-- The tag unit ends no step of a show. -/
theorem step_tags : ∀ (n : Nat) (x y : SectionState) (s : State),
    (tagSectionChange n x y s).1.work.step = s.work.step := by
  intro n x y s
  unfold tagSectionChange arrive depart reclaimOrAllocate freeLostTag takeTag setTag setTagField
  dsimp only
  repeat' split
  all_goals simp

@[simp] theorem st_overrunOne (n : Nat) (a : Arrival) (l : List EntryNote) (x : Nat) (s : State) : sansTags (overrunOne n a l x s) = sansTags s := by
  unfold overrunOne; simp; rfl

theorem st_eachDo (l : List Nat) (f : Nat → State → State) (s : State) (h : ∀ n t, sansTags (f n t) = sansTags t) :
    sansTags (eachDo l f s) = sansTags s := by
  unfold eachDo
  induction l generalizing s with
  | nil => rfl
  | cons n l ih => rw [List.foldl_cons, ih, h]

theorem st_overrunTest (n : Nat) (a : Option Arrival) (l : List EntryNote) (s : State) (h : s.asp.response = .report) :
    sansTags (overrunTest n a l s) = sansTags s := by
  unfold overrunTest; split
  · rfl
  · rename_i a
    split
    · rfl
    · rename_i x more _
      dsimp only
      have e : sansTags (eachDo (x :: more) (overrunOne n a l) s) = sansTags s :=
        st_eachDo _ _ s (fun m t => st_overrunOne n a l m t)
      have hr : (eachDo (x :: more) (overrunOne n a l) s).asp.response = .report :=
        (st_field (fun u => u.asp.response) (fun _ => rfl) e).trans h
      rw [if_neg (by rw [hr]; decide)]
      exact e

theorem st_sectionChanged (n : Nat) (old : SectionState) (s : State) (h : Quiet s) : sansTags (sectionChanged n old s) = sansTags s := by
  unfold sectionChanged
  dsimp only
  generalize hu : (report ReportKind.sectionChanged n (halves old.code (secState s n).code) (halves (occOf s n).count 0) (mirrorSection n s)) = u
  have hu1 : sansTags u = sansTags s := by rw [← hu]; simp
  have hus : u.work = s.work := by rw [← hu]; simp
  generalize hv : ({ u with work := sectionWork old (secState s n) u.work } : State) = v
  have hv1 : sansTags v = sansTags s := by rw [← hv, ← hu1]; rfl
  have hvs : v.work.step = none := by rw [← hv]; show u.work.step = none; rw [hus, h.rest.work]; rfl
  generalize htc : tagSectionChange n old (secState s n) v = tc
  have t1 : sansTags tc.1 = sansTags s := by rw [← htc, st_tagSectionChange, hv1]
  have ts : tc.1.work.step = none := by rw [← htc, step_tags, hvs]
  obtain ⟨w, arr⟩ := tc
  dsimp only at t1 ts ⊢
  have wa : w.ilk.active = [] := (st_field (fun u => u.ilk.active) (fun _ => rfl) t1).trans h.routes
  have hr : routesSectionChange n (secState s n) (arr.bind Arrival.tag) w = (w, []) := by
    unfold routesSectionChange; rw [wa]; rfl
  rw [hr]
  dsimp only
  rw [runVisitor_idle w ts]
  have wr : w.asp.response = .report := (st_field (fun u => u.asp.response) (fun _ => rfl) t1).trans h.response
  have t2 := (st_overrunTest n arr [] w wr).trans t1
  generalize overrunTest n arr [] w = x at t2
  have t3 : sansTags (if old = .clear then deckSectionLeft n x else x) = sansTags s := by
    have hj : x.tt.requester ≠ .jog := by
      rw [st_field (fun u => u.tt.requester) (fun _ => rfl) t2]; exact h.jog
    split
    · unfold deckSectionLeft releaseJog; split
      · exact t2
      · split
        · simp [hj]; exact t2
        · exact t2
    · exact t2
  generalize (if old = .clear then deckSectionLeft n x else x) = y at t3
  unfold visitorSection
  rw [st_field (fun u => u.vis.runner) (fun _ => rfl) t3, h.runner]
  exact t3
theorem st_updateSection (n : Nat) (f : Occupancy → Occupancy) (s : State) (r : SectionRec) (o : Occupancy) (h : Quiet s)
    (hr : Tbl.find s.occ.recs n = some r) (ho : Tbl.find s.occ.secs n = some o) :
    sansTags (updateSection n f s) = sansTags { s with occ := { s.occ with
      secs := Tbl.insert s.occ.secs n (updateDiscrepancy r (detLevel s r) (f o)) } } := by
  unfold updateSection; rw [hr, ho]; dsimp only
  split
  · exact st_mirrorSection _ _
  · exact st_sectionChanged n _ _ ⟨⟨h.rest.work, h.rest.shows, h.rest.stack, h.rest.orders, h.rest.overflow⟩, h.routes,
      h.runner, h.jog, h.response⟩

/-- Inside, the change of a section is its occupancy and the tags. -/
theorem inside_updateSection (n : Nat) (f : Occupancy → Occupancy) (s : State) (r : SectionRec) (o : Occupancy)
    (h : Quiet s) (hr : Tbl.find s.occ.recs n = some r) (ho : Tbl.find s.occ.secs n = some o) :
    inside (updateSection n f s) = inside { s with
      occ := { s.occ with secs := Tbl.insert s.occ.secs n (updateDiscrepancy r (detLevel s r) (f o)) }
      tags := (updateSection n f s).tags } := by
  have g := congrArg (fun u : State => ({ u with tags := (updateSection n f s).tags } : State))
    (st_updateSection n f s r o h hr ho)
  exact g

end Sys2Proof.Machine
end

