-- ==== Sys2Proof/Laws/Start.lean ====
section
/-! SUPPORT. The checks of START (R193) said once: each Boolean test of Start.lean holds just where the failure that
Safety.lean spells holds, and the first member of a list that fails is the one that `firstFailing` finds. -/

namespace Sys2Proof.Machine

theorem firstFailing_none {α : Type} {t : Tbl α} {bad : Nat → α → Bool} {p : Nat × α → Prop}
    (hp : ∀ x, bad x.1 x.2 = true ↔ p x) (h : ∀ x ∈ t, ¬ p x) : firstFailing t bad = none := by
  unfold firstFailing
  rw [List.find?_eq_none.2 (by intro x hx; simpa [hp] using h x hx)]
  rfl

theorem firstFailing_first {α : Type} {t : Tbl α} {bad : Nat → α → Bool} {p : Nat × α → Prop}
    (hp : ∀ x, bad x.1 x.2 = true ↔ p x) {x : Nat × α} (h : FirstWith p t x) : firstFailing t bad = some x.1 := by
  obtain ⟨a, b, rfl, h1, h2⟩ := h
  unfold firstFailing
  rw [List.find?_append, List.find?_eq_none.2 (by intro y hy; simpa [hp] using h2 y hy)]
  simp [(hp x).2 h1]

theorem loadedOpt_eq_false (f : Nat → Bool) (o : Option Nat) : loadedOpt f o = false ↔ ∃ n, o = some n ∧ f n = false := by
  cases o <;> simp [loadedOpt]

theorem secLoaded_eq_false (s : State) (n : Nat) : secLoaded s n = false ↔ Tbl.find s.occ.recs n = none := by
  simp [secLoaded, Tbl.has]

theorem has_eq_false {α : Type} (t : Tbl α) (n : Nat) : Tbl.has t n = false ↔ Tbl.find t n = none := by simp [Tbl.has]

theorem sectionFails_iff (s : State) (x : Nat × SectionRec) : sectionFails s x.1 x.2 = true ↔ badSection s x := by
  obtain ⟨n, r⟩ := x
  unfold sectionFails badSection
  simp only [Bool.or_eq_true, Bool.and_eq_true, bne_iff_ne, ne_eq, List.isEmpty_iff, List.any_eq_true, beq_iff_eq]
  refine or_congr (and_congr Iff.rfl ?_) ?_
  · simp [boundingHeads, List.filter_eq_nil_iff]
  · cases r.input <;> simp

theorem headFails_iff (s : State) (x : Nat × Head) : headFails s x.1 x.2 = true ↔ badHead s x := by
  obtain ⟨n, r⟩ := x
  have h (n : Nat) : sideOk s n = false ↔ ∀ r, Tbl.find s.occ.recs n = some r → r.detection = .current := by
    unfold sideOk
    cases Tbl.find s.occ.recs n <;> simp
  unfold headFails badHead
  simp only [Bool.not_eq_true', Bool.and_eq_false_iff, loadedOpt_eq_false, h]
  grind

theorem neighboursFail_iff (s : State) (x : Nat × SectionRec) : neighboursFail s x.1 x.2 = true ↔ badNeighbours s x := by
  obtain ⟨n, r⟩ := x
  unfold neighboursFail badNeighbours
  simp only [List.any_eq_true, Bool.not_eq_true', Bool.and_eq_false_iff, secLoaded_eq_false, loadedOpt_eq_false, has_eq_false]
  refine exists_congr fun b => and_congr Iff.rfl (or_congr Iff.rfl ?_)
  cases b.cond <;> simp

theorem pointFails_iff (s : State) (x : Nat × PointRec) : pointFails s x.1 x.2 = true ↔ badPoint s x := by
  obtain ⟨n, r⟩ := x
  unfold pointFails badPoint
  simp only [List.any_eq_true, Bool.not_eq_true', Bool.and_eq_true, Bool.or_eq_true, secLoaded_eq_false, decide_eq_true_eq,
    List.contains_iff_mem]
  refine or_congr Iff.rfl ⟨?_, ?_⟩
  · rintro ⟨y, h1, h2, i, h3, h4⟩
    exact ⟨i, h4, y, h1, h2, h3⟩
  · rintro ⟨i, h4, y, h1, h2, h3⟩
    exact ⟨y, h1, h2, i, h3, h4⟩

theorem homeOk_eq_false (s : State) (h : Nat) :
    homeOk s h = false ↔ ∀ q, Tbl.find s.asp.recs h = some q → q.kind = .distant := by
  unfold homeOk
  cases Tbl.find s.asp.recs h <;> simp

theorem signalFails_iff (s : State) (x : Nat × SignalRec) : signalFails s x.1 x.2 = true ↔ badSignal s x := by
  obtain ⟨n, r⟩ := x
  unfold signalFails badSignal
  simp only [Bool.or_eq_true, Bool.and_eq_true, Bool.not_eq_true', Bool.and_eq_false_iff, loadedOpt_eq_false,
    secLoaded_eq_false, homeOk_eq_false, beq_iff_eq, distantUsed, shuntMisused, List.any_eq_true, bne_iff_ne, ne_eq]
  rw [or_assoc]
  refine or_congr ?_ Iff.rfl
  grind

/-- The sections of an element list. -/
theorem elementSections_cons_sec (r : RouteRec) (n : Nat) (l : List Element) :
    elementSections { r with elements := .sec n :: l } = n :: elementSections { r with elements := l } := rfl

theorem elementSections_cons_point (r : RouteRec) (p : Nat) (y : Lie) (l : List Element) :
    elementSections { r with elements := .point p y :: l } = elementSections { r with elements := l } := rfl

theorem pointsInPlace_eq_false (s : State) (r : RouteRec) (l : List Element) (n : Option Nat) :
    pointsInPlace s n l = false ↔ ∃ a p y b, l = a ++ .point p y :: b ∧
      (elementSections { r with elements := a }).getLast?.or n ≠ some (pointSec s p) := by
  induction l generalizing n with
  | nil => simp [pointsInPlace]
  | cons e l ih =>
    cases e with
    | sec m =>
      rw [pointsInPlace, ih]
      constructor
      · rintro ⟨a, p, y, b, rfl, h⟩
        refine ⟨.sec m :: a, p, y, b, rfl, ?_⟩
        rw [elementSections_cons_sec, List.getLast?_cons]
        cases h2 : (elementSections { r with elements := a }).getLast? <;> simpa [h2] using h
      · rintro ⟨a, p, y, b, h1, h⟩
        match a, h1 with
        | e :: a, h1 =>
          simp only [List.cons_append, List.cons.injEq] at h1
          obtain ⟨rfl, rfl⟩ := h1
          refine ⟨a, p, y, b, rfl, ?_⟩
          rw [elementSections_cons_sec, List.getLast?_cons] at h
          cases h2 : (elementSections { r with elements := a }).getLast? <;> simpa [h2] using h
    | point q z =>
      rw [pointsInPlace, Bool.and_eq_false_iff, ih]
      constructor
      · rintro (h | ⟨a, p, y, b, rfl, h⟩)
        · exact ⟨[], q, z, l, rfl, by simpa [elementSections] using h⟩
        · exact ⟨.point q z :: a, p, y, b, rfl, by rwa [elementSections_cons_point]⟩
      · rintro ⟨a, p, y, b, h1, h⟩
        match a, h1 with
        | [], h1 =>
          simp only [List.nil_append, List.cons.injEq, Element.point.injEq] at h1
          obtain ⟨⟨rfl, rfl⟩, rfl⟩ := h1
          exact .inl (by simpa [elementSections] using h)
        | e :: a, h1 =>
          simp only [List.cons_append, List.cons.injEq] at h1
          obtain ⟨rfl, rfl⟩ := h1
          exact .inr ⟨a, p, y, b, rfl, by rwa [elementSections_cons_point] at h⟩

theorem routeLoaded_eq_false (s : State) (r : RouteRec) :
    routeLoaded s r = false ↔ (∃ n ∈ sequence r ++ r.approach, Tbl.find s.occ.recs n = none)
      ∨ (∃ p ∈ routePoints r, Tbl.find s.pts.recs p.1 = none)
      ∨ Tbl.find s.asp.recs r.entry = none ∨ ∃ y, r.exit = some y ∧ Tbl.find s.asp.recs y = none := by
  simp only [routeLoaded, Bool.and_eq_false_iff, List.all_eq_false, Bool.not_eq_true, secLoaded_eq_false, has_eq_false,
    loadedOpt_eq_false, or_assoc]

theorem entryProtects_eq_false (s : State) (r : RouteRec) : entryProtects s r = false ↔
    ∀ q, Tbl.find s.asp.recs r.entry = some q → q.protect = none ∨ q.protect ≠ (elementSections r).head? := by
  unfold entryProtects
  cases Tbl.find s.asp.recs r.entry with
  | none => simp
  | some q => cases h : q.protect <;> simp [h]

theorem deckConditionOk_eq_false (s : State) (r : RouteRec) : deckConditionOk s r = false ↔
    (∃ y, r.table = some y ∧ ∀ d, s.tt.deck = some d → Tbl.find s.tt.roads y.road = none ∨ d.sec ∉ elementSections r)
      ∨ (r.table = none ∧ ∃ d, s.tt.deck = some d ∧ d.sec ∈ sequence r) := by
  unfold deckConditionOk
  cases r.table with
  | none => cases s.tt.deck <;> simp
  | some y => cases s.tt.deck <;> cases h : Tbl.find s.tt.roads y.road <;> simp [Tbl.has, h]

theorem routeFails_iff (s : State) (x : Nat × RouteRec) : routeFails s x.1 x.2 = true ↔ badRoute s x := by
  unfold routeFails badRoute
  simp only [Bool.not_eq_true', Bool.and_eq_false_iff, routeLoaded_eq_false, entryProtects_eq_false,
    pointsInPlace_eq_false s x.2, deckConditionOk_eq_false, or_assoc, Option.or_none]

end Sys2Proof.Machine
end

