-- ==== Sys2Proof/Tests/Slice0.lean ====
section
/-! SUPPORT. Tests: the well-formedness smoke, a few small steps whose results the spec gives, and for each statement with
hypotheses the named theorem that meets them, one instance for each of its clauses. -/

open Sys2Proof Sys2Proof.Machine

namespace Sys2Proof.Tests

set_option Elab.async false

/-! ## Decidable forms of the hypotheses -/

def deckSoundB (t : Turntable) : Bool :=
  match t.deck with
  | none => true
  | some d => decide (d.indexOffset < d.c) && (match t.pos with
    | none => true
    | some p => decide (p < d.c))

theorem deckSound_of {t : Turntable} (h : deckSoundB t = true) : deckSound t := by
  intro d hd
  unfold deckSoundB at h
  rw [hd] at h
  simp only [Bool.and_eq_true, decide_eq_true_eq] at h
  refine ⟨h.1, fun p hp => ?_⟩
  rw [hp] at h
  simpa using h.2

def soundB (s : State) : Bool :=
  Mem.wf s.exch.mem && decide (s.exch.w < Config.numLog) && decide (s.exch.takePos < Config.numSlots)
    && decide (s.clock < Config.clockMod) && decide (s.disp.flash < 1000) && decide (s.ilk.stack.length ≤ Config.numStack)
    && decide (s.pts.queue.length ≤ Config.numQueue) && decide (s.vis.queue.length ≤ Config.visitorQueue)
    && decide (s.vis.busy ≤ Config.visitorQueue) && deckSoundB s.tt && s.exch.attn == attention s.exch

theorem sound_of {s : State} (h : soundB s = true) : Sound s := by
  unfold soundB at h
  simp only [Bool.and_eq_true, decide_eq_true_eq, beq_iff_eq] at h
  obtain ⟨⟨⟨⟨⟨⟨⟨⟨⟨⟨h1, h2⟩, h3⟩, h4⟩, h5⟩, h6⟩, h7⟩, h8⟩, h9⟩, h10⟩, h11⟩ := h
  exact ⟨h1, ⟨h2, h3, h4, h5, h6, h7, h8, h9, deckSound_of h10, h11⟩⟩

def atRestB (s : State) : Bool :=
  s.work == Work.none && s.vis.queue == [] && s.ilk.stack == [] && s.pts.queue == [] && s.pts.overflow == []

theorem atRest_of {s : State} (h : atRestB s = true) : AtRest s := by
  unfold atRestB at h
  simp only [Bool.and_eq_true, beq_iff_eq] at h
  obtain ⟨⟨⟨⟨h1, h2⟩, h3⟩, h4⟩, h5⟩ := h
  exact ⟨h1, h2, h3, h4, h5⟩

def quietB (s : State) : Bool :=
  atRestB s && s.ilk.active == [] && s.vis.runner == none && s.tt.requester != .jog && s.asp.response == .report

theorem quiet_of {s : State} (h : quietB s = true) : Quiet s := by
  unfold quietB at h
  simp only [Bool.and_eq_true, beq_iff_eq, bne_iff_ne, ne_eq] at h
  obtain ⟨⟨⟨⟨h1, h2⟩, h3⟩, h4⟩, h5⟩ := h
  exact ⟨atRest_of h1, h2, h3, h4, h5⟩

def readyB (r : RunState) (s : State) : Bool :=
  soundB s && s.exch.runState == r && Tbl.find s.exch.inHand s.exch.takePos == none

theorem ready_of {r : RunState} {s : State} (h : readyB r s = true) : Ready r s := by
  unfold readyB at h
  simp only [Bool.and_eq_true, beq_iff_eq] at h
  obtain ⟨⟨h1, h2⟩, h3⟩ := h
  exact ⟨sound_of h1, h2, h3⟩

/-- Ready in a run state, and at rest. -/
theorem readyRest_of {r : RunState} {s : State} (h : (readyB r s && atRestB s) = true) : Ready r s ∧ AtRest s := by
  simp only [Bool.and_eq_true] at h
  exact ⟨ready_of h.1, atRest_of h.2⟩

/-- Ready in a run state, and quiet. -/
theorem readyQuiet_of {r : RunState} {s : State} (h : (readyB r s && quietB s) = true) : Ready r s ∧ Quiet s := by
  simp only [Bool.and_eq_true] at h
  exact ⟨ready_of h.1, quiet_of h.2⟩

def entryOfB (e : Nat) (a : Active) (s : State) : Bool :=
  Tbl.sorted s.ilk.active && Tbl.sorted s.ilk.locks && Tbl.sorted s.ilk.holders && Tbl.find s.ilk.active e == some a
    && entryOf s a.route == some (e, a) && a.show_ == none

theorem entryOf_of {e : Nat} {a : Active} {s : State} (h : entryOfB e a s = true) : EntryOf e a s := by
  unfold entryOfB at h
  simp only [Bool.and_eq_true, beq_iff_eq] at h
  obtain ⟨⟨⟨⟨⟨h1, h2⟩, h3⟩, h4⟩, h5⟩, h6⟩ := h
  exact ⟨h1, h2, h3, h4, h5, h6⟩

def oneOrderB (o : Order) (n : Nat) (tag : HostTag) (r : PointRec) (st : PointState) (s : State) : Bool :=
  s.work == Work.none && s.vis.queue == [] && s.ilk.stack == [] && s.ilk.active == [] && s.pts.queue == [o]
    && s.pts.overflow == [] && o.origin == .slot n && decide (n < Config.numSlots) && Tbl.sorted s.exch.inHand
    && Tbl.find s.exch.inHand n == some tag && Tbl.find s.pts.recs o.point == some r
    && Tbl.find s.pts.state o.point == some st && soundB s && st.failed == none && (holdersOf s o.point).routes == []

theorem oneOrder_of {o : Order} {n : Nat} {tag : HostTag} {r : PointRec} {st : PointState} {s : State}
    (h : oneOrderB o n tag r st s = true) : OneOrder o n tag r st s := by
  unfold oneOrderB at h
  simp only [Bool.and_eq_true, beq_iff_eq, decide_eq_true_eq] at h
  obtain ⟨⟨⟨⟨⟨⟨⟨⟨⟨⟨⟨⟨⟨⟨h1, h2⟩, h3⟩, h4⟩, h5⟩, h6⟩, h7⟩, h8⟩, h9⟩, h10⟩, h11⟩, h12⟩, h13⟩, h14⟩, h15⟩ := h
  exact ⟨h1, h2, h3, h4, h5, h6, h7, h8, h9, h10, h11, h12, sound_of h13, h14, h15⟩

def changesB (i : Fin 256) (x : Bool) (n : Nat) (r : SectionRec) (o : Occupancy) (s : State) : Bool :=
  atRestB s && s.exch.runState == .running && s.vis.runner == none && s.tt.requester != .jog
    && sectionOfInput s i.val == some (n, r) && Tbl.find s.occ.recs n == some r && Tbl.find s.occ.secs n == some o
    && r.detection == .current && o.state == (if x then .clear else .occupied)
    && (Tbl.getD s.occ.filters i.val Filter.init).level == !x
    && ((Tbl.getD s.occ.filters i.val Filter.init).sample (inputTime s i.val x) x).level == x

theorem changes_of {i : Fin 256} {x : Bool} {n : Nat} (r : SectionRec) (o : Occupancy) {s : State}
    (h : changesB i x n r o s = true) : Changes i x n s := by
  unfold changesB at h
  simp only [Bool.and_eq_true, beq_iff_eq, bne_iff_ne, ne_eq] at h
  obtain ⟨⟨⟨⟨⟨⟨⟨⟨⟨⟨h1, h2⟩, h3⟩, h4⟩, h5⟩, h6⟩, h7⟩, h8⟩, h9⟩, h10⟩, h11⟩ := h
  exact ⟨atRest_of h1, h2, h3, h4, ⟨r, o, h5, h6, h7, h8, h9⟩, h10, h11⟩

theorem firstWith_of {α : Type} {bad : α → Prop} {y : α} (a b : List α) (hy : bad y) (ha : ∀ x ∈ a, ¬ bad x) :
    FirstWith bad (a ++ y :: b) y := ⟨a, b, rfl, hy, ha⟩

/-! ## Small states -/

/-- The reset state in RUNNING. -/
def running : State := { State.reset with exch := { State.reset.exch with runState := .running } }

/-- A state with other occupancy and tags. -/
def withTrack (o : OccUnit) (g : TagUnit) (s : State) : State := { s with occ := o, tags := g }

/-- A section detected by current at an input, without pick-up or drop-out time. -/
def byCurrent (i : Nat) (l : List Neighbour) : SectionRec :=
  { detection := .current, input := some i, pickUp := 0, dropOut := 0, discrepancy := 0, isPublic := true, neighbours := l }

/-- A section detected by axle counting. -/
def byAxles : SectionRec :=
  { detection := .axle, input := none, pickUp := 0, dropOut := 0, discrepancy := 0, isPublic := true, neighbours := [] }

/-- An occupancy without discrepancy. -/
def occ (st : SectionState) (n : Nat) : Occupancy := { state := st, count := n, discTimer := none, discFlag := false }

/-- A filter whose next contrary sample changes its level. -/
def ripe (level : Bool) : Filter := { prev := !level, counted := !level, level := level, run := some (5, 6) }

/-- An axle head between sections 2 and 5. -/
def headAt (p : Phase) : Head :=
  { aSide := some 2, bSide := some 5, invert := false, suspect := false, phase := p, totalAB := 7, totalBA := 9 }

/-- Sections 1 and 6 (current), 2 and 5 (axles), 7 (current, DISABLED), 8 (current and axles, with its discrepancy timer
running); head 0 between 2 and 5; tag 4 in section 2. -/
def track : State :=
  withTrack
    { filters := [(3, ripe false), (4, ripe true)]
      recs := [(1, byCurrent 3 [{ sec := 2, cond := none }]), (2, byAxles), (5, byAxles), (6, byCurrent 4 []),
        (7, byCurrent 9 []), (8, { byCurrent 10 [] with detection := .both, discrepancy := 100 })]
      secs := [(1, occ .clear 0), (2, occ .occupied 3), (5, occ .clear 0), (6, occ .occupied 0), (7, occ .disabled 0),
        (8, { occ .clear 1 with discTimer := some 40 })]
      heads := [(0, headAt .aLeaving)]
      pairs := [(0, (false, true))] }
    { table := [(4, { state := .active, label := 1, holders := [2], last := none, timer := none })]
      fields := [(2, 4)], lostHold := 4000 } running

/-- A route over section 1, to signal 2, with point 3 in it. -/
def routeA : RouteRec :=
  { cls := .main, entry := 1, exit := some 2, visitor := true, approachTime := 0, overlapTime := 5, table := none,
    elements := [.sec 1, .point 3 .normal], flank := [], overlap := [5], approach := [6] }

/-- Point 3, a solenoid with contacts 20 and 21, in section 1. -/
def pointA : PointRec := { sec := 1, motor := .solenoid, feedback := .pair 20 21, travel := 0 }

/-- A point state with a lie. -/
def lieState (l : DetLie) : PointState := { failed := none, lie := l, assumed := none, loss := none }

/-- The track with route 9 and point 3 loaded; section 1 CLEAR, section 5 CLEAR, section 6 OCCUPIED. -/
def routes : State :=
  { track with
    ilk := { track.ilk with routes := [(9, routeA)] }
    pts := { track.pts with recs := [(3, pointA)], state := [(3, lieState .normal)], contacts := [(20, { prev := true, level := true })] }
    asp := { track.asp with recs := [(1, { kind := .threeAspect, approach := some 6, protect := some 1, home := none })],
                            state := [(1, { aspect := .danger, overruns := 0 })] } }

/-- The route of `routes` at entry 0 in a state. -/
def active (st : RouteState) : Active :=
  { route := 9, state := st, originator := .automation, slot := none, show_ := none, tag := none, orders := [],
    passed := [false, false], releasePos := 0, overlapState := .locked, overlapPos := 0, timer := none,
    ending := .cancelled }

/-- `routes` with route 9 active at entry 0. -/
def withActive (a : Active) : State :=
  { routes with ilk := { routes.ilk with active := [(0, a)], locks := [(1, 9), (5, 9)],
                                         holders := [(3, { routes := [9], shared := some .normal })] } }

/-- A deck of 400 steps at position 10, with road 2 at position 100. -/
def deckA : DeckRec :=
  { c := 400, stop := none, indexOffset := 7, rising := true, backlash := 4, v0 := 50, vmax := 200, ramp := 20, jog := 80,
    bolt := true, boltTime := 500, settleTime := 30, snap := 5, sec := 5 }

/-- The track with the deck in a state. -/
def deck (f : Turntable → Turntable) : State :=
  { track with tt := f { track.tt with deck := some deckA, roads := [(2, { position := 100, sec := 1, reversed := false })],
                                       pos := some 10, state := .aligned, align := some { road := 1, deckEnd := .a } } }

/-- The machine with slot 5 in hand under tag 77. -/
def hand (s : State) : State := { s with exch := { s.exch with inHand := [(5, 77#16)] } }

/-- A step in progress. -/
def stepping : Generator := beginStep 90

/-- Show 1: a pause of 3 s; button 0. -/
def showA : ShowRec := { button := some 0, coolDown := 9, maxDuration := 60, steps := [.pause 3] }

/-- The track with show 1 loaded, and with a runner. -/
def shows (r : Option Runner) : State := { track with vis := { track.vis with shows := [(1, showA)], runner := r } }

/-- The runner of a show in its pause. -/
def pausing (n : Nat) : Runner :=
  { show_ := n, step := 0, phase := .pause, stepTimer := some 2500, durTimer := some 59000, routes := [] }


/-! ## States that meet the hypotheses -/

/-- A slot with a state, a kind and a host tag. -/
def withSlot (n st kind tag : Nat) (s : State) : State :=
  { s with exch := { s.exch with mem := Mem.write16 (Mem.write16 (Mem.write16 s.exch.mem (slotAt n) (BitVec.ofNat 16 st))
    (slotAt n + 2) (BitVec.ofNat 16 kind)) (slotAt n + 4) (BitVec.ofNat 16 tag) } }

/-- The log full up to a number of unread entries, with missed kinds. -/
def withLog (w : Nat) (missed : BitVec 64) : State :=
  { running with exch := { running.exch with w := w, missed := missed } }

/-- The state with its run state changed. -/
def inState (r : RunState) (s : State) : State := { s with exch := { s.exch with runState := r } }

theorem running_ready : Ready .running running ∧ AtRest running := readyRest_of (by decide +kernel)
theorem track_ready : Ready .running track ∧ Quiet track := readyQuiet_of (by decide +kernel)
theorem routes_ready : Ready .running routes ∧ AtRest routes := readyRest_of (by decide +kernel)
theorem reset_ready : Ready .configuring State.reset ∧ AtRest State.reset := readyRest_of (by decide +kernel)

theorem witness_StepRunsTheFrontCommand :
    ({ running with pending := [.stateRead, .pollTimerExpiry] } : State).pending = .stateRead :: [.pollTimerExpiry] := rfl

theorem witness_EmptyQueuePassesOneMillisecond : running.pending = [] := rfl

/-- Where one point alone is held, by one route that lists it, in RUNNING with no load in hand, every holder fits. -/
theorem holdersFit_of {s : State} {p n : Nat} {l : Lie} {r : RouteRec}
    (h : s.ilk.holders = [(p, { routes := [n], shared := some l })] ∧ Tbl.find s.ilk.routes n = some r ∧ (p, l) ∈ routePoints r ∧
      s.exch.runState = .running ∧ s.exch.reading = none ∧ s.exch.loads = []) : HoldersFit s := by
  obtain ⟨h1, h2, h3, h4, h5, h6⟩ := h
  refine ⟨by rw [h1]; rfl, fun q m hm => ?_, fun hr => (hr h4).elim, fun _ x hx => by simp [h5, h6] at hx⟩
  unfold holdersOf at hm ⊢
  rw [h1] at hm ⊢
  by_cases e : p = q
  · subst e
    have hd : Tbl.getD [(p, ({ routes := [n], shared := some l } : Holders))] p Holders.none = { routes := [n], shared := some l } := by
      simp [Tbl.getD, Tbl.find]
    rw [hd] at hm ⊢
    rw [List.mem_singleton] at hm; subst hm
    exact ⟨r, l, h2, rfl, h3⟩
  · simp [Tbl.getD, Tbl.find, Ne.symm e, Holders.none] at hm

theorem witness_EveryStepKeepsSound :
    (let s : State := { running with pending := [.detectorSample 255 true] }
     Sound s ∧ ∃ t, step s = .next t) ∧
    (let s : State := { withActive (active .set) with pending := [.cancelRoute 7#16 9#32] }
     HoldersFit s ∧ (holdersOf s 3).routes ≠ [] ∧ ∃ t, step s = .next t) :=
  ⟨⟨sound_of (by decide +kernel), _, rfl⟩, holdersFit_of (p := 3) (n := 9) (l := .normal) (r := routeA) (by decide), by decide, _, rfl⟩

theorem witness_OnlyTheHostWritesItsBytes :
    (let c : Instr := .movePoint 7#16 0#32 1#32
     Sound running ∧ (∃ t, exec c running = .next t) ∧ (∀ high, c ≠ .fullReset high ∧ c ≠ .initialReset high) ∧
      (∀ hw v, c ≠ .hostMemoryAccess (.write hw v)) ∧ hostOwned 0x3400 ∧
      ((requestOf c).isSome → ¬ inSlot running.exch.takePos 0x3400)) ∧
    hostOwned (slotAt 31 + 2) :=
  ⟨⟨sound_of (by decide +kernel), ⟨_, rfl⟩, by simp, by simp, .inl (by decide), fun _ => by unfold inSlot; decide⟩,
    .inr ⟨31, by decide, .inl (by decide)⟩⟩

theorem witness_LayoutChangesOnlyByItsCommands :
    (let c : Instr := .detectorSample 0 true
     (∃ t, exec c running = .next t) ∧ (∀ high, c ≠ .fullReset high ∧ c ≠ .initialReset high) ∧ c ≠ .loadRecord ∧
      (∀ tag, c ≠ .start tag ∧ c ≠ .layoutReset tag) ∧ c ≠ .controlLayoutReset ∧ (∀ v, c ≠ .nudge v) ∧
      c ≠ .pollTimerExpiry) := ⟨⟨_, rfl⟩, by simp, by simp, by simp, by simp, by simp, by simp⟩

theorem witness_LowerHalfReadLatchesTheWord :
    (let s : State := { running with exch := { running.exch with paired := true, latchOff := 4 * 8191 } }
     s.exch.paired = true ∧ s.exch.latchOff = 4 * (8191 : Fin 8192).val) ∧
    ¬ (running.exch.paired = true ∧ running.exch.latchOff = 4 * (8191 : Fin 8192).val) ∧
    ((∃ t, exec .stateRead running = .next t) ∧ (∃ t, exec (.nudge 0#16) running = .next t) ∧
      (∃ t, exec (.hostMemoryAccess (.write 16383 1#16)) running = .next t) ∧
      (∃ t, exec (.registerWriteIgnored .readIdent) running = .next t) ∧ (∃ t, exec .controlLayoutReset running = .next t) ∧
      (requestOf (.resume 7#16)).isSome = true ∧ ∃ t, exec (.resume 7#16) running = .next t) :=
  ⟨by decide, by decide, ⟨_, rfl⟩, ⟨_, rfl⟩, ⟨_, rfl⟩, ⟨_, rfl⟩, ⟨_, rfl⟩, rfl, _, rfl⟩

theorem witness_HostWriteStoresOneHalfWord : State.reset.memOk := by unfold State.memOk; decide +kernel

theorem witness_IgnoredAccessesHaveNoEffect : (103#16 : Half) ≠ 101#16 ∧ (103#16 : Half) ≠ 102#16 := by decide

theorem witness_ExaminationOfNothingPosted :
    (Sound running ∧ running.exch.runState ≠ .initializing ∧ NothingPosted running) ∧
    (Sound running ∧ running.exch.pollTimer = some 10 ∧ NothingPosted running) ∧
    (inState .initializing running).exch.runState = .initializing ∧
    ({ running with exch := { running.exch with pollTimer := none } } : State).exch.pollTimer = none :=
  ⟨⟨sound_of (by decide +kernel), by decide, .inl (by decide +kernel)⟩,
    ⟨sound_of (by decide +kernel), rfl, .inl (by decide +kernel)⟩, rfl, rfl⟩

theorem witness_ExaminationAnswersAnUnknownKind :
    (let s := withSlot 0 1 27 7 running
     Sound s ∧ AtRest s ∧ s.exch.runState ≠ .initializing ∧ s.read16 (slotAt s.exch.takePos) = 1 ∧
      Tbl.find s.exch.inHand s.exch.takePos = none ∧ 26 < s.read16 (slotAt s.exch.takePos + 2) ∧
      s.read16 (slotAt s.exch.takePos + 4) = (7#16 : HostTag).toNat ∧
      s.read16 (slotAt ((s.exch.takePos + 1) % 32)) ≠ 1 ∧ Tbl.find s.exch.inHand ((s.exch.takePos + 1) % 32) = none) ∧
    (withSlot 0 1 0 7 running).read16 (slotAt 0 + 2) = 0 :=
  ⟨⟨sound_of (by decide +kernel), atRest_of (by decide +kernel), by decide +kernel⟩, by decide +kernel⟩

theorem witness_ReportIsAppendedWhole :
    (Sound running ∧ running.exch.missed = 0#64 ∧ unread running.exch.w running.rd < running.almost) ∧
    (let s := withLog 479 0#64
     Sound s ∧ s.exch.missed = 0#64 ∧ unread s.exch.w s.rd < s.almost) ∧
    (let s := withLog 510 0#64
     Sound s ∧ s.exch.missed = 0#64 ∧ unread s.exch.w s.rd < 511) :=
  ⟨⟨sound_of (by decide +kernel), by decide +kernel⟩, ⟨sound_of (by decide +kernel), by decide +kernel⟩,
    ⟨sound_of (by decide +kernel), by decide +kernel⟩⟩

theorem witness_ReportWithoutRoomIsMissed :
    (let s := withLog 480 0#64
     Sound s ∧ s.exch.missed = 0#64 ∧ s.almost ≤ unread s.exch.w s.rd) ∧
    (let s := withLog 510 1#64
     Sound s ∧ s.exch.missed ≠ 0#64 ∧ 511 ≤ unread s.exch.w s.rd + 1) ∧
    (let s := withLog 509 1#64
     Sound s ∧ s.exch.missed ≠ 0#64 ∧ unread s.exch.w s.rd + 1 < 511) :=
  ⟨⟨sound_of (by decide +kernel), by decide +kernel⟩, ⟨sound_of (by decide +kernel), by decide +kernel⟩,
    ⟨sound_of (by decide +kernel), by decide +kernel⟩⟩

theorem witness_CompletionFillsTheSlot :
    (5 < 32 ∧ (hand running).memOk ∧ Tbl.sorted (hand running).exch.inHand = true ∧
      Tbl.find (hand running).exch.inHand 5 = some 77#16) ∧
    Tbl.find (hand running).exch.inHand 31 = none := by unfold State.memOk; decide +kernel

theorem witness_WrongRunStateIsAnswered :
    (requestOf (.start 7#16) = some (.configuring, ⟨9, 7#16, 0#32, 0#32, 0#32⟩) ∧ Ready .running running ∧
      RunState.running ≠ .initializing ∧ AtRest running ∧ Allowed.configuring.ok .running = false) ∧
    (Ready .running running ∧ AtRest running) :=
  ⟨⟨rfl, running_ready.1, by decide, running_ready.2, rfl⟩, running_ready⟩

theorem witness_HeldSlotStaysPosted :
    (let s : State := { running with exch := { running.exch with inHand := [(0, 77#16)] } }
     requestOf (.resume 7#16) = some (.running, ⟨20, 7#16, 0#32, 0#32, 0#32⟩) ∧ Sound s ∧
      Tbl.find s.exch.inHand s.exch.takePos ≠ none) ∧
    (Sound (inState .initializing running) ∧ (inState .initializing running).exch.runState = .initializing) :=
  ⟨⟨rfl, sound_of (by decide +kernel), by decide⟩, sound_of (by decide +kernel), rfl⟩

/-! ### Track -/

/-- The track with one filter at input 3, whose section has a pick-up time. -/
def filt (f : Filter) (pickUp : Nat) : State :=
  withTrack { track.occ with filters := [(3, f)], recs := [(1, { byCurrent 3 [] with pickUp := pickUp })] } track.tags running

theorem witness_DetectorSamplesAreFiltered :
    let ok (f : Filter) (pickUp : Nat) (x : Bool) := Tbl.sorted (filt f pickUp).occ.filters = true ∧
      inputTime (filt f pickUp) 3 x = (if x then pickUp else 0)
    (∃ f, ok f 0 true ∧ true ≠ f.prev) ∧
    (∃ f, ok f 0 true ∧ true = f.prev ∧ true = f.level) ∧
    (∃ f, ok f 7 true ∧ true = f.prev ∧ true ≠ f.level ∧ f.run = none ∧ 0 < inputTime (filt f 7) 3 true) ∧
    (∃ f, ok f 0 true ∧ true = f.prev ∧ true ≠ f.level ∧ f.run = none ∧ inputTime (filt f 0) 3 true = 0) ∧
    (∃ f, ok f 0 true ∧ true = f.prev ∧ true ≠ f.level ∧ f.run = some (4, 6)) ∧
    (∃ f, ok f 0 true ∧ true = f.prev ∧ true ≠ f.level ∧ f.run = some (5, 6)) :=
  ⟨⟨Filter.init, by decide⟩, ⟨⟨true, true, true, none⟩, by decide⟩, ⟨⟨true, true, false, none⟩, by decide⟩,
    ⟨⟨true, true, false, none⟩, by decide⟩, ⟨⟨true, true, false, some (4, 6)⟩, by decide⟩, ⟨ripe false, by decide⟩⟩

theorem witness_DetectorLevelMovesItsSection :
    (track.exch.runState = .running ∧ sectionOfInput track 3 = some (1, byCurrent 3 [{ sec := 2, cond := none }]) ∧
      Tbl.find track.occ.recs 1 = some (byCurrent 3 [{ sec := 2, cond := none }]) ∧
      Tbl.find track.occ.secs 1 = some (occ .clear 0) ∧
      ((Tbl.getD track.occ.filters 3 Filter.init).sample (inputTime track 3 true) true).level
        ≠ (Tbl.getD track.occ.filters 3 Filter.init).level) ∧
    (let s := withTrack { track.occ with secs := [(1, occ .disabled 0)] } track.tags running
     sectionOfInput s 3 = some (1, byCurrent 3 [{ sec := 2, cond := none }]) ∧
      Tbl.find s.occ.secs 1 = some (occ .disabled 0) ∧ (occ .disabled 0).state ≠ .clear ∧
      (occ .disabled 0).state ≠ .occupied) := by decide

theorem witness_TrackCommandsChangeTrackAlone : Quiet track := track_ready.2

theorem witness_HeadPhasesFollowTheTable :
    AtRest track ∧ Tbl.find track.occ.heads 0 = some (headAt .aLeaving) ∧
    sidePair (headAt .aLeaving) (Tbl.getD track.occ.pairs 0 (false, false)) = (false, true) ∧ false ≠ true ∧
    (headAt .aLeaving).phase = Phase.aLeaving :=
  ⟨track_ready.2.rest, by decide⟩

/-- The machine with head 0, its channel pair, and the side sections 2 and 5, detected as given. -/
def headed (h : Head) (pair : Bool × Bool) (det : Detection) (a b : Occupancy) : State :=
  withTrack { track.occ with heads := [(0, h)], pairs := [(0, pair)], secs := [(2, a), (5, b)],
                             recs := [(2, { byAxles with detection := det }), (5, { byAxles with detection := det })] }
    track.tags running

/-- The hypotheses of `PassageMovesOneAxle` on head 0. -/
def Passage (ab : Bool) (h : Head) (s : State) : Prop :=
  s.exch.runState = .running ∧ Tbl.find s.occ.heads 0 = some h ∧ (∀ n, h.aSide = some n → h.bSide ≠ some n) ∧
  h.phase = (if ab then .aLeaving else .bLeaving) ∧
  sidePair h (Tbl.getD s.occ.pairs 0 (false, false)) = (!ab, ab) ∧
  (∀ n, h.aSide = some n ∨ h.bSide = some n → ∃ r o, Tbl.find s.occ.recs n = some r ∧ Tbl.find s.occ.secs n = some o ∧
    r.detection ≠ .current ∧ o.count ≤ 255 ∧ (o.state = .sweeping → o.count = 0))

def sideB (s : State) (side : Option Nat) : Bool :=
  match side with
  | none => true
  | some n => match Tbl.find s.occ.recs n, Tbl.find s.occ.secs n with
    | some r, some o => r.detection != .current && decide (o.count ≤ 255) && (o.state != .sweeping || o.count == 0)
    | _, _ => false

def passageB (ab : Bool) (h : Head) (s : State) : Bool :=
  s.exch.runState == .running && Tbl.find s.occ.heads 0 == some h && (h.aSide.isNone || h.bSide != h.aSide)
    && h.phase == (if ab then .aLeaving else .bLeaving)
    && sidePair h (Tbl.getD s.occ.pairs 0 (false, false)) == (!ab, ab) && sideB s h.aSide && sideB s h.bSide

theorem side_of {s : State} {side : Option Nat} (h : sideB s side = true) {n : Nat} (hn : side = some n) :
    ∃ r o, Tbl.find s.occ.recs n = some r ∧ Tbl.find s.occ.secs n = some o ∧ r.detection ≠ .current ∧ o.count ≤ 255 ∧
      (o.state = .sweeping → o.count = 0) := by
  subst hn
  unfold sideB at h
  dsimp only at h
  split at h
  · next r o hr ho =>
    simp only [Bool.and_eq_true, Bool.or_eq_true, bne_iff_ne, ne_eq, decide_eq_true_eq, beq_iff_eq] at h
    exact ⟨r, o, hr, ho, h.1.1, h.1.2, fun hs => h.2.resolve_left fun hne => hne hs⟩
  · exact absurd h (by decide)

theorem passage_of {ab : Bool} {h : Head} {s : State} (w : passageB ab h s = true) : Passage ab h s := by
  unfold passageB at w
  simp only [Bool.and_eq_true, Bool.or_eq_true, bne_iff_ne, ne_eq, beq_iff_eq] at w
  obtain ⟨⟨⟨⟨⟨⟨h1, h2⟩, h3⟩, h4⟩, h5⟩, h6⟩, h7⟩ := w
  refine ⟨h1, h2, fun n ha hb => ?_, h4, h5, fun n hn => hn.elim (side_of h6) (side_of h7)⟩
  rcases h3 with h3 | h3
  · simp [ha] at h3
  · exact h3 (hb.trans ha.symm)

theorem witness_PassageMovesOneAxle :
    (Passage true (headAt .aLeaving) track ∧ Tbl.find track.occ.secs 2 = some (occ .occupied 3) ∧
      Tbl.find track.occ.secs 5 = some (occ .clear 0)) ∧
    Passage false (headAt .bLeaving) (headed (headAt .bLeaving) (true, false) .axle (occ .occupied 254) (occ .occupied 1)) ∧
    Passage true (headAt .aLeaving) (headed (headAt .aLeaving) (false, true) .axle (occ .occupied 0) (occ .occupied 255)) ∧
    Passage true (headAt .aLeaving) (headed (headAt .aLeaving) (false, true) .both (occ .occupied 1) (occ .sweeping 0)) ∧
    Passage true (headAt .aLeaving) (headed (headAt .aLeaving) (false, true) .both (occ .disabled 4) (occ .uncertain 2)) ∧
    (let h : Head := { headAt .bLeaving with bSide := none }
     Passage false h (headed h (true, false) .axle (occ .clear 0) (occ .clear 0))) ∧
    (let h : Head := { headAt .aLeaving with aSide := none, bSide := none }
     Passage true h (headed h (false, true) .axle (occ .clear 0) (occ .clear 0))) :=
  ⟨⟨passage_of (by decide +kernel), by decide⟩, passage_of (by decide +kernel), passage_of (by decide +kernel),
    passage_of (by decide +kernel), passage_of (by decide +kernel), passage_of (by decide +kernel),
    passage_of (by decide +kernel)⟩

theorem witness_SequenceErrorDoubtsBothSides :
    (Tbl.find track.occ.heads 0 = some (headAt .aLeaving) ∧
      sidePair (headAt .aLeaving) (Tbl.getD track.occ.pairs 0 (false, false)) = (false, true) ∧
      track.exch.runState = .running ∧ Tbl.find track.occ.recs 2 = some byAxles ∧
      Tbl.find track.occ.secs 2 = some (occ .occupied 3)) ∧
    (inState .configuring track).exch.runState ≠ .running := by decide

/-- The track with a lock, a DISABLED axle section and section 2 taken. -/
def guarded : State := { track with ilk := { track.ilk with locks := [(1, 9), (2, 9)] },
                                    occ := { track.occ with secs := [(1, occ .clear 0), (2, occ .occupied 3), (5, occ .disabled 0)] } }

theorem guarded_ready : Ready .running guarded ∧ Quiet guarded := readyQuiet_of (by decide +kernel)

theorem witness_SectionsAreDisabledAndEnabled :
    (Ready .running track ∧ AtRest track) ∧ 256 ≤ (256#32 : Word).toNat ∧
    (Ready .running guarded ∧ AtRest guarded ∧ Tbl.find guarded.occ.secs 1 = some (occ .clear 0) ∧
      Tbl.find guarded.ilk.locks 1 = some 9) ∧
    (Quiet track ∧ Tbl.find track.occ.secs 1 = some (occ .clear 0) ∧ Tbl.find track.ilk.locks 1 = none) ∧
    (Quiet track ∧ Tbl.find track.occ.recs 7 = some (byCurrent 9 []) ∧
      Tbl.find track.occ.secs 7 = some (occ .disabled 0)) ∧
    (Quiet guarded ∧ Tbl.find guarded.occ.recs 5 = some byAxles ∧ Tbl.find guarded.occ.secs 5 = some (occ .disabled 0)) :=
  ⟨⟨track_ready.1, track_ready.2.rest⟩, by decide, ⟨guarded_ready.1, guarded_ready.2.rest, by decide⟩,
    ⟨track_ready.2, by decide⟩, ⟨track_ready.2, by decide⟩, guarded_ready.2, by decide⟩

theorem witness_ResetSectionSweeps :
    (Ready .running track ∧ AtRest track) ∧ 256 ≤ (256#32 : Word).toNat ∧
    (Tbl.find track.occ.recs 1 = some (byCurrent 3 [{ sec := 2, cond := none }]) ∧
      Tbl.find track.occ.secs 1 = some (occ .clear 0)) ∧
    (Ready .running guarded ∧ AtRest guarded ∧ Tbl.find guarded.occ.recs 5 = some byAxles ∧
      Tbl.find guarded.occ.secs 5 = some (occ .disabled 0)) ∧
    (Tbl.find track.occ.recs 5 = some byAxles ∧ Tbl.find track.occ.secs 5 = some (occ .clear 0)) ∧
    (Tbl.find guarded.occ.secs 2 = some (occ .occupied 3) ∧ Tbl.find guarded.ilk.locks 2 = some 9) ∧
    (Quiet track ∧ Tbl.find track.occ.recs 2 = some byAxles ∧ Tbl.find track.occ.secs 2 = some (occ .occupied 3) ∧
      Tbl.find track.ilk.locks 2 = none ∧ Tbl.sorted track.occ.heads = true) :=
  ⟨⟨track_ready.1, track_ready.2.rest⟩, by decide, by decide, ⟨guarded_ready.1, guarded_ready.2.rest, by decide⟩,
    by decide, by decide, track_ready.2, by decide⟩

/-- The track with tag 5 LOST in section 6. -/
def lost : State := withTrack track.occ { track.tags with table :=
  [(5, { state := .lost, label := 0, holders := [], last := some 6, timer := some 40 })] } running

theorem witness_TrackTimersAndLabels :
    (AtRest track ∧ Tbl.find track.occ.recs 8 = some { byCurrent 10 [] with detection := .both, discrepancy := 100 } ∧
      Tbl.find track.occ.secs 8 = some { occ .clear 1 with discTimer := some 40 }) ∧
    (∀ o, Tbl.find track.occ.secs 255 = some o → o.discTimer = none) ∧
    (AtRest lost ∧ (tagRec lost 5).state = .lost ∧ (tagRec lost 5).timer ≠ none) ∧
    (AtRest track ∧ (tagRec track 4).state ≠ .lost) ∧
    (Ready .running track ∧ AtRest track ∧ 63 < (64#32 : Word).toNat ∧ 255 < (256#32 : Word).toNat ∧
      (63#32 : Word).toNat ≤ 63 ∧ (255#32 : Word).toNat ≤ 255 ∧ (tagRec track 63).state = .free ∧
      (tagRec track 4).state ≠ .free) :=
  ⟨⟨track_ready.2.rest, by decide⟩, by simp [track, withTrack, Tbl.find], ⟨atRest_of (by decide +kernel), by decide⟩,
    ⟨track_ready.2.rest, by decide⟩, track_ready.1, track_ready.2.rest, by decide⟩

/-- The track with section 6 holding tag 9, alone or with section 2, and tag 0 in use. -/
def tagged (holders : List Nat) : State :=
  withTrack { track.occ with recs := [(1, byCurrent 3 []), (2, byAxles), (6, byCurrent 4 [])] }
    { table := [(0, { state := .active, label := 0, holders := [5], last := none, timer := none }),
        (9, { state := .active, label := 3, holders := holders, last := none, timer := none })],
      fields := [(2, 9), (5, 0), (6, 9)], lostHold := 4000 } running

theorem witness_TagsArriveAndDepart :
    (let r := byCurrent 3 [{ sec := 2, cond := none }]
     Quiet track ∧ track.exch.runState = .running ∧ sectionOfInput track 3 = some (1, r) ∧
      Tbl.find track.occ.recs 1 = some r ∧ Tbl.find track.occ.secs 1 = some (occ .clear 0) ∧ r.detection = .current ∧
      (Tbl.getD track.occ.filters 3 Filter.init).level = false ∧
      ((Tbl.getD track.occ.filters 3 Filter.init).sample (inputTime track 3 true) true).level = true ∧
      secState track 2 = .occupied ∧ tagOf track 2 = some 4) ∧
    (let s := tagged [6]
     Quiet s ∧ sectionOfInput s 3 = some (1, byCurrent 3 []) ∧ Tbl.find s.occ.recs 1 = some (byCurrent 3 []) ∧
      Tbl.find s.occ.secs 1 = some (occ .clear 0) ∧
      ((Tbl.getD s.occ.filters 3 Filter.init).sample (inputTime s 3 true) true).level = true ∧
      (∀ e ∈ s.tags.table, e.2.state = .lost → e.2.last ≠ some 1) ∧ Tbl.find s.tags.table 1 = none ∧
      (∀ j, j < 1 → (tagRec s j).state ≠ .free)) ∧
    (let s := tagged [6]
     Quiet s ∧ sectionOfInput s 4 = some (6, byCurrent 4 []) ∧ Tbl.find s.occ.recs 6 = some (byCurrent 4 []) ∧
      Tbl.find s.occ.secs 6 = some (occ .occupied 0) ∧ (Tbl.getD s.occ.filters 4 Filter.init).level = true ∧
      ((Tbl.getD s.occ.filters 4 Filter.init).sample (inputTime s 4 false) false).level = false ∧
      tagOf s 6 = some 9 ∧ (tagRec s 9).state = .active ∧ Tbl.sorted s.tags.fields = true ∧ s.tags.lostHold ≠ 0 ∧
      (tagRec s 9).holders = [6]) ∧
    (Quiet (tagged [2, 6]) ∧ (tagRec (tagged [2, 6]) 9).holders = [2, 6]) :=
  ⟨⟨track_ready.2, by decide⟩, ⟨quiet_of (by decide +kernel), by decide⟩, ⟨quiet_of (by decide +kernel), by decide⟩,
    quiet_of (by decide +kernel), by decide⟩

/-- The track with all 64 tags in use. -/
def taggedFull : State :=
  { tagged [6] with tags := { (tagged [6]).tags with
      table := (List.range 64).map fun k => (k, { state := .active, label := 0, holders := [2], last := none, timer := none }) } }

theorem witness_TagsArriveAndDepart_exhausted :
    Quiet taggedFull ∧ taggedFull.exch.runState = .running ∧ sectionOfInput taggedFull 3 = some (1, byCurrent 3 []) ∧
    Tbl.find taggedFull.occ.recs 1 = some (byCurrent 3 []) ∧ Tbl.find taggedFull.occ.secs 1 = some (occ .clear 0) ∧
    (byCurrent 3 []).neighbours = [] ∧ (Tbl.getD taggedFull.occ.filters 3 Filter.init).level = false ∧
    ((Tbl.getD taggedFull.occ.filters 3 Filter.init).sample (inputTime taggedFull 3 true) true).level = true ∧
    (∀ e ∈ taggedFull.tags.table, e.2.state = .lost → e.2.last ≠ some 1) ∧
    (∀ j, j < 64 → (tagRec taggedFull j).state ≠ .free) :=
  ⟨quiet_of (by decide +kernel), by decide +kernel⟩

/-! ### Routes -/

/-- `routes` with point 3 at a lie and a discharge unit. -/
def pointed (l : DetLie) (u : Discharge) : State :=
  { routes with pts := { routes.pts with state := [(3, lieState l)], unit := u } }

/-- `routes` with section 1 locked by another route. -/
def lockedOut : State := { routes with ilk := { routes.ilk with locks := [(1, 8)] } }

theorem witness_SetRouteBecomesSet :
    Ready .running routes ∧ AtRest routes ∧ (9#32 : Word).toNat ≤ 511 ∧ originatorOf (2#32 : Word).toNat = some .automation ∧
    Tbl.find routes.ilk.routes 9 = some routeA ∧ routeRefusal routes 9 .automation false = none ∧
    Tbl.lowestFree routes.ilk.active 48 0 = some 0 ∧ (∀ x ∈ routePoints routeA, detLie routes x.1 = x.2.det) ∧
    (∀ n ∈ sequence routeA, secState routes n = .clear) :=
  ⟨routes_ready.1, routes_ready.2, by decide⟩

theorem witness_SetRouteIsRefusedOrStacked :
    (Ready .running routes ∧ AtRest routes) ∧ originatorOf (0#32 : Word).toNat = none ∧ 511 < (512#32 : Word).toNat ∧
    (∃ a, Ready .running lockedOut ∧ AtRest lockedOut ∧ originatorOf (2#32 : Word).toNat = some .automation ∧
      routeRefusal lockedOut 9 .automation false = some a ∧ (0#32 : Word).toNat % 2 = 0 ∧ (1#32 : Word).toNat % 2 = 1 ∧
      a.result ∈ [.entryBusy, .sectionLocked, .sectionOccupied, .pointLocked, .pointOccupied, .tableNotAligned,
        .routeTableFull]) ∧
    (∃ a, routeRefusal routes 511 .automation false = some a ∧ a.result ∉ [.entryBusy, .sectionLocked, .sectionOccupied,
      .pointLocked, .pointOccupied, .tableNotAligned, .routeTableFull]) := by
  refine ⟨routes_ready, by decide, by decide, ⟨{ result := .sectionLocked, w0 := 1, w1 := 8 }, ?_, ?_, by decide⟩, ?_⟩
  · exact (readyRest_of (by decide +kernel) : Ready .running lockedOut ∧ AtRest lockedOut).1
  · exact (readyRest_of (by decide +kernel) : Ready .running lockedOut ∧ AtRest lockedOut).2
  · exact ⟨_, rfl, by decide⟩

theorem witness_SetRouteOrdersItsPoint :
    let s := pointed .reverse .recharging
    Ready .running s ∧ AtRest s ∧ (9#32 : Word).toNat ≤ 511 ∧ originatorOf (2#32 : Word).toNat = some .automation ∧
    Tbl.find s.ilk.routes 9 = some routeA ∧ routeRefusal s 9 .automation false = none ∧
    Tbl.lowestFree s.ilk.active 48 0 = some 0 ∧ routePoints routeA = [(3, .normal)] ∧ detLie s 3 ≠ Lie.normal.det ∧
    Tbl.find s.pts.recs 3 = some pointA ∧ pointA.motor = .solenoid ∧ s.pts.unit ≠ .ready :=
  ⟨ready_of (by decide +kernel), atRest_of (by decide +kernel), by decide⟩

/-- A stacked request for route 9 from slot 5. -/
def waiting (o : Originator) : StackEntry :=
  { route := 9, originator := o, source := .slot 5, arrival := 0, expiry := some 300, reason := .sectionLocked, item := 1 }

/-- The machine with one stacked request. -/
def stacked : State := { hand routes with ilk := { routes.ilk with stack := [waiting .automation] } }

/-- `lockedOut` with a stack of n requests for another route. -/
def lockedOutBehind (n : Nat) : State :=
  { lockedOut with ilk := { lockedOut.ilk with stack := List.replicate n { waiting .automation with route := 8 } } }

theorem witness_SetRouteIsRefusedOrStacked_full :
    ∀ n ∈ [15, 16], readyB .running (lockedOutBehind n) = true ∧ (lockedOutBehind n).work = Work.none ∧
      (lockedOutBehind n).vis.queue = [] ∧ (lockedOutBehind n).ilk.stack.length = n ∧
      routeRefusal (lockedOutBehind n) 9 .automation false = some { result := .sectionLocked, w0 := 1, w1 := 8 } := by
  decide +kernel

theorem witness_StackOrderAndExpiry :
    ([waiting (.operator 15), waiting .visitor].Pairwise (fun y z => y.originator.code ≤ z.originator.code)) ∧
    (Sound stacked ∧ stacked.work = Work.none ∧ stacked.vis.queue = [] ∧ stacked.ilk.stack = [waiting .automation] ∧
      (waiting .automation).route = (9 : Fin 512).val ∧ (waiting .automation).expiry = some 300 ∧
      (waiting .automation).source = .slot 5 ∧ 5 < 32 ∧ Tbl.sorted stacked.exch.inHand = true ∧
      Tbl.find stacked.exch.inHand 5 = some 77#16) ∧
    (running.work = Work.none ∧ running.vis.queue = [] ∧
      ∀ x ∈ stacked.ilk.stack, x.route = (511 : Fin 512).val → x.expiry = none) :=
  ⟨by decide, ⟨sound_of (by decide +kernel), by decide⟩, by decide⟩

/-- A route record with an approach time. -/
def approached : State :=
  { withActive (active .set) with ilk := { (withActive (active .set)).ilk with
      routes := [(9, { routeA with approachTime := 30 })] } }

theorem active_ready {a : Active} (h : entryOfB 0 a (withActive a) && readyB .running (withActive a)
    && atRestB (withActive a) = true) : EntryOf 0 a (withActive a) ∧ Ready .running (withActive a) ∧ AtRest (withActive a) := by
  simp only [Bool.and_eq_true] at h
  exact ⟨entryOf_of h.1.1, ready_of h.1.2, atRest_of h.2⟩

theorem witness_CancelReleasesOrLocks :
    (Ready .running routes ∧ AtRest routes ∧ 511 < (512#32 : Word).toNat ∧ entryOf routes (511#32 : Word).toNat = none) ∧
    (∀ st ∈ [RouteState.running, .approachLocked, .cancelling, .set, .held],
      EntryOf 0 (active st) (withActive (active st)) ∧ Ready .running (withActive (active st)) ∧
        AtRest (withActive (active st)) ∧ (active st).route = (9#32 : Word).toNat ∧ (active st).state = st ∧
        Tbl.find (withActive (active st)).ilk.routes 9 = some routeA ∧ routeA.approachTime = 0 ∧ (active st).orders = []) ∧
    (EntryOf 0 (active .set) approached ∧ Ready .running approached ∧ AtRest approached ∧
      (∃ n ∈ routeA.approach, secState approached n ≠ .clear) ∧ ({ routeA with approachTime := 30 } : RouteRec).approachTime ≠ 0) := by
  refine ⟨⟨routes_ready.1, routes_ready.2, by decide⟩, ?_, entryOf_of (by decide +kernel), ready_of (by decide +kernel),
    atRest_of (by decide +kernel), by decide⟩
  simp only [List.forall_mem_cons]
  have h (st : RouteState) (h1 : entryOfB 0 (active st) (withActive (active st)) && readyB .running (withActive (active st))
      && atRestB (withActive (active st)) = true) := active_ready h1
  exact ⟨⟨(h _ (by decide +kernel)).1, (h _ (by decide +kernel)).2.1, (h _ (by decide +kernel)).2.2, by decide⟩,
    ⟨(h _ (by decide +kernel)).1, (h _ (by decide +kernel)).2.1, (h _ (by decide +kernel)).2.2, by decide⟩,
    ⟨(h _ (by decide +kernel)).1, (h _ (by decide +kernel)).2.1, (h _ (by decide +kernel)).2.2, by decide⟩,
    ⟨(h _ (by decide +kernel)).1, (h _ (by decide +kernel)).2.1, (h _ (by decide +kernel)).2.2, by decide⟩,
    ⟨(h _ (by decide +kernel)).1, (h _ (by decide +kernel)).2.1, (h _ (by decide +kernel)).2.2, by decide⟩, by simp⟩

theorem witness_RouteTimersRelease :
    (let a : Active := { active .approachLocked with timer := some 400 }
     AtRest (withActive a) ∧ EntryOf 0 a (withActive a) ∧ a.state = .approachLocked ∧ a.timer ≠ none ∧ a.orders = []) ∧
    (EntryOf 0 (active .set) (withActive (active .set)) ∧ (active .set).state ≠ .approachLocked ∧
      (active .set).overlapState ≠ .timing) ∧
    (let a : Active := { active .running with overlapState := .timing, timer := some 400 }
     AtRest (withActive a) ∧ EntryOf 0 a (withActive a) ∧ Tbl.find (withActive a).ilk.routes a.route = some routeA ∧
      a.overlapState = .timing ∧ a.timer ≠ none ∧ a.releasePos < (elementSections routeA).length) ∧
    (AtRest routes ∧ Tbl.find routes.ilk.active 47 = none) :=
  ⟨⟨atRest_of (by decide +kernel), entryOf_of (by decide +kernel), by decide⟩, ⟨entryOf_of (by decide +kernel), by decide⟩,
    ⟨atRest_of (by decide +kernel), entryOf_of (by decide +kernel), by decide⟩, routes_ready.2, by decide⟩

/-! ### Points -/

theorem witness_ContactSamplesGiveTheLie :
    Tbl.sorted routes.pts.contacts = true ∧
    (AtRest routes ∧ true = (Tbl.getD routes.pts.contacts 20 Contact.init).level) ∧
    true ≠ (Tbl.getD routes.pts.contacts 255 Contact.init).prev ∧
    (AtRest routes ∧ routes.exch.runState = .running ∧ pointsOfContact routes 21 = [3] ∧
      Tbl.find routes.pts.recs 3 = some pointA ∧ pointA.feedback = .pair 20 21 ∧
      Tbl.find routes.pts.state 3 = some (lieState .normal) ∧ (lieState .normal).failed = none ∧
      (holdersOf routes 3).routes = []) ∧
    (let s : State := { routes with pts := { routes.pts with contacts := [(21, { prev := true, level := false })] } }
     pointsOfContact s 21 = [3] ∧ true = (Tbl.getD s.pts.contacts 21 Contact.init).prev ∧
      true ≠ (Tbl.getD s.pts.contacts 21 Contact.init).level) :=
  ⟨by decide, ⟨routes_ready.2, by decide⟩, by decide, ⟨routes_ready.2, by decide⟩, by decide⟩

/-- A slow point without contacts. -/
def slowPoint : PointRec := { sec := 1, motor := .slow, feedback := .none, travel := 3000 }

theorem witness_MovePointOrdersTheMove :
    (Ready .running routes ∧ AtRest routes) ∧ 128 ≤ (128#32 : Word).toNat ∧ ((0#32 : Word).toNat ≠ 1 ∧ (0#32 : Word).toNat ≠ 2) ∧
    (Tbl.find routes.pts.recs 3 = some pointA ∧ Tbl.find routes.pts.state 3 = some (lieState .normal) ∧
      (1#32 : Word).toNat = Lie.normal.code ∧ (2#32 : Word).toNat = Lie.reverse.code ∧
      (lieState .normal).lie ≠ .failed ∧ (holdersOf routes 3).routes = [] ∧ secState routes pointA.sec = .clear ∧
      (lieState .normal).lie = Lie.normal.det ∧ (lieState .normal).lie ≠ Lie.reverse.det ∧ pointA.motor = .solenoid ∧
      routes.pts.unit ≠ .ready) ∧
    (let s := pointed .failed .ready
     Ready .running s ∧ AtRest s ∧ Tbl.find s.pts.state 3 = some (lieState .failed)) ∧
    (let s := withActive (active .set)
     Ready .running s ∧ AtRest s ∧ (holdersOf s 3).routes = [9]) ∧
    (let s : State := { routes with occ := { routes.occ with secs := [(1, occ .occupied 0)] } }
     Ready .running s ∧ AtRest s ∧ (holdersOf s 3).routes = [] ∧ secState s pointA.sec ≠ .clear) ∧
    (let s := pointed .normal .ready
     Ready .running s ∧ AtRest s ∧ s.pts.unit = .ready ∧ s.asp.cond = .running ∧ (lieState .normal).failed = none) ∧
    (let s : State := { routes with pts := { routes.pts with recs := [(3, slowPoint)] } }
     Ready .running s ∧ AtRest s ∧ Tbl.find s.pts.recs 3 = some slowPoint ∧ slowPoint.motor = .slow ∧
      0 < s.pts.slowLimit ∧ s.asp.cond = .running) :=
  ⟨routes_ready, by decide, by decide, by decide, ⟨ready_of (by decide +kernel), atRest_of (by decide +kernel), by decide⟩,
    ⟨ready_of (by decide +kernel), atRest_of (by decide +kernel), by decide⟩,
    ⟨ready_of (by decide +kernel), atRest_of (by decide +kernel), by decide⟩,
    ⟨ready_of (by decide +kernel), atRest_of (by decide +kernel), by decide⟩,
    ⟨ready_of (by decide +kernel), atRest_of (by decide +kernel), by decide⟩⟩

/-- `routes` with orders in the queue and on the overflow list, and point 3 REVERSE. -/
def ordering (q overflow : List Order) : State :=
  { routes with pts := { routes.pts with queue := q, overflow := overflow, state := [(3, lieState .reverse)] } }

theorem witness_MovePointOrdersTheMove_busy :
    ∀ origin ∈ [OrderOrigin.route 47, .slot 31],
      let x := queuedOrder 3 .normal origin
      let other := queuedOrder 4 .reverse (.slot 5)
      ∀ s ∈ [ordering [other, x] [], ordering [other] [x]],
        readyB .running s = true ∧ s.work = Work.none ∧ s.vis.queue = [] ∧ Tbl.find s.pts.recs 3 = some pointA ∧
        Tbl.find s.pts.state 3 = some (lieState .reverse) ∧ (lieState .reverse).lie ≠ .failed ∧
        (holdersOf s 3).routes = [] ∧ x ∈ s.pts.queue ++ s.pts.overflow ∧ x.point = 3 ∧
        ∀ y ∈ s.pts.queue ++ s.pts.overflow, y.point = 3 → y = x := by decide +kernel

/-- `routes` with point 3 FAILED. -/
def failedPoint : State :=
  { routes with pts := { routes.pts with state := [(3, { lieState .failed with failed := some .wrongLie })] } }

theorem witness_RestorePointLeavesFailed :
    (Ready .running routes ∧ AtRest routes) ∧ 128 ≤ (128#32 : Word).toNat ∧
    Tbl.find routes.pts.state (127#32 : Word).toNat = none ∧
    Tbl.find routes.pts.state (3#32 : Word).toNat = some (lieState .normal) ∧ (lieState .normal).failed = none ∧
    (Ready .running failedPoint ∧ AtRest failedPoint ∧
      Tbl.find failedPoint.pts.state 3 = some { lieState .failed with failed := some .wrongLie } ∧
      Tbl.find failedPoint.pts.recs 3 = some pointA ∧ pointA.feedback = .pair 20 21 ∧ (holdersOf failedPoint 3).routes = []) :=
  ⟨routes_ready, by decide, by decide, by decide, by decide, ready_of (by decide +kernel), atRest_of (by decide +kernel),
    by decide⟩

theorem witness_LossFailsAndRechargeReadies :
    (let s : State := { routes with pts := { routes.pts with state := [(3, { lieState .lost with loss := some 90 })] } }
     AtRest s ∧ Tbl.find s.pts.state 3 = some { lieState .lost with loss := some 90 } ∧ s.ilk.active = []) ∧
    (AtRest routes ∧ ∀ st, Tbl.find routes.pts.state 127 = some st → st.loss = none) ∧
    (let s : State := { routes with pts := { routes.pts with rechargeTimer := some 1 } }
     AtRest s ∧ Sound s ∧ s.pts.rechargeTimer = some 1) ∧
    (let s : State := { routes with pts := { routes.pts with rechargeTimer := none } }
     AtRest s ∧ s.pts.rechargeTimer = none) :=
  ⟨⟨atRest_of (by decide +kernel), by decide⟩, ⟨routes_ready.2, by simp [routes, Tbl.find]⟩,
    ⟨atRest_of (by decide +kernel), sound_of (by decide +kernel), rfl⟩, atRest_of (by decide +kernel), rfl⟩

/-- An order for point 3 from slot 5. -/
def order (p : OrderPhase) (retried : Bool) : Order :=
  { point := 3, lie := .reverse, origin := .slot 5, phase := p, startTime := some 0, retried := retried, timer := some 6 }

/-- `routes` with one order in hand, its point's record and its contact levels. -/
def ordered (o : Order) (r : PointRec) (reverse : Bool) : State :=
  { hand routes with pts := { routes.pts with
      recs := [(3, r)], state := [(3, lieState .moving)], queue := [o],
      contacts := [(21, { prev := reverse, level := reverse })],
      coil := if o.phase = .pulse then some (3, .reverse) else none
      pulseTimer := if o.phase = .pulse then some 1 else none } }

theorem witness_PulseEndsInArrivalOrWindow :
    (let o := order .pulse false
     OneOrder o 5 77#16 pointA (lieState .moving) (ordered o pointA true) ∧ o.phase = .pulse ∧
      (ordered o pointA true).pts.coil = some (o.point, o.lie) ∧ (ordered o pointA true).pts.pulseTimer ≠ none ∧
      o.startTime = some 0 ∧ contactsShow (ordered o pointA true) pointA o.lie = true) ∧
    (let o := order .pulse false
     OneOrder o 5 77#16 pointA (lieState .moving) (ordered o pointA false) ∧ pointA.feedback ≠ .none ∧
      contactsShow (ordered o pointA false) pointA o.lie = false) ∧
    (AtRest routes ∧ routes.pts.pulseTimer = none) :=
  ⟨⟨oneOrder_of (by decide +kernel), by decide⟩, ⟨oneOrder_of (by decide +kernel), by decide⟩, routes_ready.2, by decide⟩

theorem witness_MissedMovesRetryOrFail :
    (∀ x ∈ [(order .window false, pointA), (order .window true, pointA), (order .travel false, { slowPoint with feedback := .pair 20 21 }),
        (order .travel false, slowPoint)],
      oneOrderB x.1 5 77#16 x.2 (lieState .moving) (ordered x.1 x.2 false) = true ∧ x.1.point = (3 : Fin 128).val ∧
        x.1.startTime = some 0) ∧ AtRest routes :=
  ⟨by decide +kernel, routes_ready.2⟩

/-! ### Stop, aspects and deck -/

/-- The track with the STOP pin's filter and the run condition given. -/
def stopPin (f : Filter) (c : RunCondition) : State := { track with asp := { track.asp with stopFilter := f, cond := c } }

/-- A pin filter whose next contrary sample changes its level. -/
def ripePin (level : Bool) : Filter := { prev := !level, counted := !level, level := level, run := some (19, 20) }

theorem witness_StopPinStopsTheLayout :
    (Quiet track ∧ Sound track ∧ (track.asp.stopFilter.sample 20 false).level = track.asp.stopFilter.level) ∧
    (let s := stopPin (ripePin true) .running
     Quiet s ∧ Sound s ∧ (s.asp.stopFilter.sample 20 false).level = false ∧ s.asp.stopFilter.level = true) ∧
    (let s := stopPin (ripePin false) .running
     Quiet s ∧ Sound s ∧ (s.asp.stopFilter.sample 20 true).level = true ∧ s.asp.stopFilter.level = false ∧
      s.exch.runState = .running ∧ s.asp.cond = .running ∧ s.tt.state.givesUp = false) :=
  ⟨⟨track_ready.2, track_ready.1.sound, by decide⟩, ⟨quiet_of (by decide +kernel), sound_of (by decide +kernel), by decide⟩,
    quiet_of (by decide +kernel), sound_of (by decide +kernel), by decide⟩

theorem witness_AllStopAndResume :
    (Ready .running track ∧ Quiet track ∧ track.tt.state.givesUp = false ∧ track.asp.cond = .running ∧
      track.asp.stopFilter.level = false) ∧
    (let s := stopPin Filter.init .allStop
     Ready .running s ∧ Quiet s ∧ s.tt.state.givesUp = false ∧ s.asp.cond = .allStop ∧ s.asp.stopFilter.level = false) ∧
    (let s := stopPin (ripePin true) .allStop
     Ready .running s ∧ Quiet s ∧ s.asp.stopFilter.level = true) :=
  ⟨⟨track_ready.1, track_ready.2, by decide⟩, ⟨ready_of (by decide +kernel), quiet_of (by decide +kernel), by decide⟩,
    ready_of (by decide +kernel), quiet_of (by decide +kernel), by decide⟩

theorem witness_AspectsFollowTheSetRoute :
    entryAt routes 1 = none ∧ (stopPin Filter.init .allStop).asp.cond = .allStop ∧
    (let s := withActive (active .set)
     s.asp.cond = .running ∧ entryAt s 1 = some (0, active .set) ∧ Tbl.find s.ilk.routes 9 = some routeA ∧
      (active .set).state = .set ∧ routeA.cls = .main ∧ routeA.exit = some 2 ∧ entryAt s 2 = none) ∧
    (entryAt (withActive (active .held)) 1 = some (0, active .held) ∧ (active .held).state ≠ .set) := by decide

/-- `deck` with the deck in a state, and slot 5 its requester. -/
def deckIn (st : DeckState) (f : Turntable → Turntable) : State :=
  hand (deck fun t => f { t with state := st, align := none, target := some { road := 2, deckEnd := .a }, requester := .slot 5,
                                 gen := some stepping, legCw := true, legSteps := 3, legDone := 2 })

/-- A state in ALL STOP. -/
def inAllStop (s : State) : State := { s with asp := { s.asp with cond := .allStop, cause := some .pin } }

theorem witness_AllStopAndResume_held :
    (∀ st ∈ [RouteState.set, .held],
      let s := withActive (active st)
      (readyB .running s && atRestB s) = true ∧ s.vis.runner = none ∧ s.ilk.active = [(0, active st)] ∧
      s.tt.state.givesUp = false ∧ s.asp.cond = .running ∧ (active st).state = st) ∧
    (let a := active .held
     let s := inAllStop (withActive a)
     (readyB .running s && atRestB s) = true ∧ s.vis.runner = none ∧ s.ilk.active = [(0, a)] ∧
      s.tt.state.givesUp = false ∧ s.asp.stopFilter.level = false ∧ s.asp.cond = .allStop ∧ a.state = .held ∧
      Tbl.find s.ilk.routes a.route = some routeA ∧ (∀ x ∈ routePoints routeA, detLie s x.1 = x.2.det) ∧
      (∀ n ∈ sequence routeA, secState s n = .clear) ∧ a.slot = none ∧ a.show_ = none) ∧
    (let s := inAllStop (withActive (active .held))
     let t : State := { s with pts := { s.pts with state := [(3, lieState .lost)] } }
     (readyB .running t && atRestB t) = true ∧ ∃ x ∈ routePoints routeA, detLie t x.1 ≠ x.2.det) ∧
    (let s := inAllStop (withActive (active .held))
     let t : State := { s with occ := { s.occ with secs := [(1, occ .disabled 0), (5, occ .clear 0)] } }
     (readyB .running t && atRestB t) = true ∧ ∃ n ∈ sequence routeA, secState t n = .disabled) := by decide +kernel

theorem witness_AllStopAndResume_deck :
    ∀ st ∈ [DeckState.moving, .returning, .stopping, .jogging, .homing, .unbolting],
      (let s := deckIn st fun t => { t with requester := .jog, jogHold := some 1 }
       (readyB .running s && atRestB s) = true ∧ s.vis.runner = none ∧ s.ilk.active = [] ∧ s.asp.cond = .running ∧
        s.tt.state = st ∧ s.tt.requester = .jog) ∧
      (let s := deckIn st id
       (readyB .running s && atRestB s) = true ∧ s.vis.runner = none ∧ s.ilk.active = [] ∧ s.asp.cond = .running ∧
        s.tt.state = st ∧ s.tt.requester = .slot 5 ∧ 5 ≠ s.exch.takePos ∧ Tbl.sorted s.exch.inHand = true ∧
        Tbl.find s.exch.inHand 5 = some 77#16) := by decide +kernel

theorem witness_DeckAndRunnerTimersPass :
    (deckIn .moving id).tt.gen = some stepping ∧ stepping.second = false ∧
    (deckIn .moving (fun t => { t with gen := some { stepping with second := true } })).tt.gen
      = some { stepping with second := true } ∧
    running.tt.gen = none ∧ running.tt.jogHold = none ∧ running.vis.runner = none ∧ AtRest running ∧
    (shows (some (pausing 1))).vis.runner = some (pausing 1) ∧
    (let s := deckIn .jogging (fun t => { t with requester := .jog, target := none, jogHold := some 1 })
     AtRest s ∧ s.tt.jogHold = some 1 ∧ s.tt.deck = some deckA ∧ s.tt.state = .jogging ∧ s.tt.requester = .jog ∧
      s.tt.halting = false ∧ s.tt.gen = some stepping ∧ deckA.stop = none) :=
  ⟨rfl, rfl, rfl, rfl, rfl, rfl, running_ready.2, rfl, atRest_of (by decide +kernel), by decide⟩

theorem witness_StepBoundaryMovesTheDeck :
    (AtRest running ∧ running.tt.gen = none) ∧
    (∀ st ∈ [DeckState.moving, .returning, .stopping, .jogging],
      atRestB (deckIn st id) = true ∧ (deckIn st id).tt.deck = some deckA ∧ (deckIn st id).tt.gen = some stepping ∧
        (deckIn st id).tt.halting = false ∧ (deckIn st id).tt.state = st ∧ 2 ≤ (deckIn st id).tt.legSteps ∧
        deckA.stop = none) ∧
    (let s := deckIn .homing fun t => { t with pos := none, search := 498 }
     AtRest s ∧ s.tt.state = .homing ∧ s.tt.pos = none ∧ s.tt.search + 1 < deckA.c + deckA.c / 4) :=
  ⟨⟨running_ready.2, rfl⟩, by decide +kernel, atRest_of (by decide +kernel), by decide⟩

theorem witness_StepBoundaryMovesTheDeck_halting :
    (∀ st ∈ [DeckState.moving, .returning, .stopping, .jogging],
      let s := deckIn st fun t => { t with halting := true, pos := some 399 }
      atRestB s = true ∧ s.tt.deck = some deckA ∧ s.tt.gen = some stepping ∧ s.tt.halting = true ∧ s.tt.state = st) ∧
    (let s := deckIn .homing fun t => { t with halting := true, pos := none }
     atRestB s = true ∧ s.tt.deck = some deckA ∧ s.tt.gen = some stepping ∧ s.tt.halting = true ∧ s.tt.state = .homing) := by
  decide +kernel

theorem witness_LegsAndStopsEnd :
    (AtRest running ∧ ¬ ((running.tt.state = .moving ∨ running.tt.state = .returning) ∧ running.tt.legSteps = 1 ∧
      running.tt.halting = false) ∧ ¬ (running.tt.state = .stopping ∧ running.tt.legSteps = 1 ∧ running.tt.halting = false)) ∧
    (∀ st ∈ [DeckState.moving, .returning, .stopping],
      let s := deckIn st fun t => { t with legSteps := 1 }
      atRestB s = true ∧ s.tt.deck = some deckA ∧ s.tt.gen = some stepping ∧ s.tt.halting = false ∧ s.tt.legSteps = 1 ∧
        s.tt.state = st ∧ s.tt.returnSteps = 0 ∧ deckA.settleTime ≠ 0 ∧ s.tt.requester ≠ .jog) ∧
    (let s := deckIn .moving fun t => { t with legSteps := 1, legCw := false, returnSteps := 4 }
     AtRest s ∧ s.tt.state = .moving ∧ s.tt.returnSteps ≠ 0) :=
  ⟨⟨running_ready.2, by decide⟩, by decide +kernel, atRest_of (by decide +kernel), by decide⟩

theorem witness_HomingEndsAtItsLimit :
    (AtRest (deckIn .moving id) ∧ ∀ d, (deckIn .moving id).tt.deck = some d →
      ¬ ((deckIn .moving id).tt.state = .homing ∧
        (deckIn .moving id).tt.search + 1 = (if d.stop = none then d.c + d.c / 4 else d.c) ∧
        (deckIn .moving id).tt.halting = false)) ∧
    (AtRest running ∧ running.tt.deck = none) ∧
    (let s := deckIn .homing fun t => { t with pos := none, search := 499, lastIndex := false }
     AtRest s ∧ Sound s ∧ s.tt.deck = some deckA ∧ s.tt.gen = some stepping ∧ s.tt.halting = false ∧ s.tt.state = .homing ∧
      s.tt.search + 1 = (if deckA.stop = none then deckA.c + deckA.c / 4 else deckA.c) ∧ s.tt.requester = .slot 5 ∧ 5 < 32 ∧
      Tbl.sorted s.exch.inHand = true ∧ Tbl.find s.exch.inHand 5 = some 77#16 ∧ false = s.tt.lastIndex ∧
      true = deckA.rising ∧ s.tt.lastIndex = (!deckA.rising) ∧ s.tt.target ≠ none ∧ deckA.settleTime ≠ 0) := by
  refine ⟨⟨atRest_of (by decide +kernel), fun d _ h => ?_⟩, ⟨running_ready.2, rfl⟩, atRest_of (by decide +kernel),
    sound_of (by decide +kernel), by decide⟩
  exact absurd h.1 (by decide)

theorem witness_BoltEngagesOrFaults :
    (AtRest running ∧ false = running.tt.boltIn.level ∧ true ≠ running.tt.boltOutC.prev) ∧
    (let s := deckIn .bolting fun t => { t with gen := none, boltIn := { prev := true, level := false }, boltTimer := some 1 }
     AtRest s ∧ Sound s ∧ s.exch.runState = .running ∧ s.asp.cond = .running ∧ s.tt.deck = some deckA ∧ deckA.bolt = true ∧
      s.tt.state = .bolting ∧ s.tt.boltIn.prev = true ∧ s.tt.boltIn.level = false ∧ s.tt.boltOutC.level = false ∧
      s.tt.target = some { road := 2, deckEnd := .a } ∧ s.tt.pos = some 10 ∧ s.tt.requester = .slot 5 ∧ 5 < 32 ∧
      Tbl.sorted s.exch.inHand = true ∧ Tbl.find s.exch.inHand 5 = some 77#16 ∧ s.tt.boltTimer = some 1 ∧
      Tbl.find s.tt.roads 2 = some { position := 100, sec := 1, reversed := false }) ∧
    (let s := deckIn .unbolting fun t => { t with gen := none, boltTimer := some 1 }
     AtRest s ∧ Sound s ∧ s.tt.state = .unbolting ∧ s.tt.boltTimer = some 1) ∧
    (AtRest running ∧ running.tt.boltTimer = none ∧ running.tt.settleTimer = none) ∧
    (let s := deckIn .settling fun t => { t with gen := none, settleTimer := some 1 }
     AtRest s ∧ s.tt.deck = some deckA ∧ s.tt.settleTimer = some 1 ∧ deckA.bolt = true ∧ deckA.boltTime ≠ 0 ∧
      ¬ (s.tt.boltIn.level = true ∧ s.tt.boltOutC.level = false)) :=
  ⟨⟨running_ready.2, by decide⟩, ⟨atRest_of (by decide +kernel), sound_of (by decide +kernel), by decide⟩,
    ⟨atRest_of (by decide +kernel), sound_of (by decide +kernel), by decide⟩, ⟨running_ready.2, by decide⟩,
    atRest_of (by decide +kernel), by decide⟩

theorem witness_BoltEngagesOrFaults_halting :
    ∀ pos ∈ [some 10, none],
      let s := deckIn .unbolting fun t => { t with
        gen := none, halting := true, pos := pos, boltOutC := { prev := true, level := false }, boltTimer := some 1 }
      atRestB s = true ∧ s.tt.deck = some deckA ∧ deckA.bolt = true ∧ s.tt.state = .unbolting ∧ s.tt.halting = true ∧
        s.tt.boltOutC.prev = true ∧ s.tt.boltOutC.level = false ∧ s.tt.boltIn.level = false ∧ s.tt.pos = pos := by
  decide +kernel

theorem witness_DeckRequests :
    (Ready .running running ∧ AtRest running ∧ running.tt.deck = none) ∧
    (let s := deck id
     Ready .running s ∧ AtRest s ∧ s.tt.deck = some deckA ∧ 36 ≤ (36#32 : Word).toNat ∧ 2 ≤ (2#32 : Word).toNat ∧
      (2#32 : Word).toNat < 36 ∧ Tbl.find s.tt.roads 35 = none ∧
      Tbl.find s.tt.roads 2 = some { position := 100, sec := 1, reversed := false } ∧ (1#32 : Word).toNat < 2 ∧
      s.asp.cond = .running ∧ s.tt.state = .aligned ∧ s.tt.align ≠ some { road := 2, deckEnd := .b } ∧
      Tbl.find s.ilk.locks deckA.sec = none ∧ secState s deckA.sec = .clear ∧ deckA.bolt = true ∧ deckA.boltTime ≠ 0 ∧
      ¬ (s.tt.boltOutC.level = true ∧ s.tt.boltIn.level = false) ∧ s.tt.pos = some 10 ∧
      10 ≠ targetOf deckA.c 100 .b ∧ s.tt.state ≠ .moving ∧ s.tt.state ≠ .returning) ∧
    (let s : State := { deck id with asp := { (deck id).asp with cond := .allStop } }
     Ready .running s ∧ AtRest s ∧ s.asp.cond = .allStop) ∧
    (∀ st ∈ [DeckState.fault, .moving, .halted],
      let s := deck fun t => { t with state := st }
      (readyB .running s && atRestB s) = true ∧ s.tt.state = st) ∧
    (let s := deck fun t => { t with align := some { road := 2, deckEnd := .a } }
     Ready .running s ∧ AtRest s ∧ s.tt.state = .aligned ∧ s.tt.align = some { road := 2, deckEnd := .a }) ∧
    (let s : State := { deck id with ilk := { (deck id).ilk with locks := [(5, 9)] } }
     Ready .running s ∧ AtRest s ∧ Tbl.find s.ilk.locks deckA.sec = some 9) ∧
    (let s := deckIn .returning id
     Ready .running s ∧ AtRest s ∧ s.tt.halting = false ∧ s.tt.gen = some stepping ∧ s.tt.requester = .slot 5 ∧ 5 < 32 ∧
      5 ≠ s.exch.takePos ∧ Tbl.sorted s.exch.inHand = true ∧ Tbl.find s.exch.inHand 5 = some 77#16) :=
  ⟨⟨running_ready.1, running_ready.2, rfl⟩, ⟨ready_of (by decide +kernel), atRest_of (by decide +kernel), by decide⟩,
    ⟨ready_of (by decide +kernel), atRest_of (by decide +kernel), by decide⟩, by decide +kernel,
    ⟨ready_of (by decide +kernel), atRest_of (by decide +kernel), by decide⟩,
    ⟨ready_of (by decide +kernel), atRest_of (by decide +kernel), by decide⟩,
    ready_of (by decide +kernel), atRest_of (by decide +kernel), by decide⟩

/-- Road 2 of `deck`. -/
def roadA : Road := { position := 100, sec := 1, reversed := false }

/-- `deck` with stock on the deck section and on section 1, and the deck in a state at a position: road 2 faces end A at 100,
road 1 lies elsewhere. -/
def straddling (st : DeckState) (pos : Option Nat) : State :=
  let s := deck fun t => { t with state := st, pos := pos, roads := [(1, { roadA with position := 0 }), (2, roadA)] }
  { s with occ := { s.occ with secs := [(1, occ .occupied 1), (5, occ .uncertain 1)] } }

/-- The states in which a HOME_TABLE is accepted. -/
def homeFrom : List DeckState := [.unreferenced, .halted, .aligned, .fault]

theorem witness_DeckRequests_straddle :
    (∀ st ∈ homeFrom, ∀ pos ∈ [some 100, none], let s := straddling st pos
      (readyB .running s && atRestB s) = true ∧ s.tt.deck = some deckA ∧ Tbl.find s.tt.roads 2 = some roadA ∧
        s.asp.cond = .running ∧ Tbl.find s.ilk.locks deckA.sec = none ∧ s.tt.state = st ∧ s.tt.pos = pos ∧
        s.tt.align ≠ some { road := 2, deckEnd := .a }) ∧
    (∀ st, let s := straddling st (some 100)
      ∃ p, s.tt.pos = some p ∧ Stands s deckA.sec ∧ ∃ a b, s.tt.roads = a ++ (2, roadA) :: b ∧ Faces deckA p roadA ∧
        Stands s roadA.sec ∧ ∀ z ∈ a, ¬ (Faces deckA p z.2 ∧ Stands s z.2.sec)) ∧
    (∀ st, (straddling st none).tt.pos = none ∧ Stands (straddling st none) deckA.sec) := by
  refine ⟨by decide +kernel, fun st => ⟨100, rfl, .inr rfl, [(1, { roadA with position := 0 })], [], rfl, .inl rfl, .inl rfl,
    ?_⟩, fun st => ⟨rfl, .inr rfl⟩⟩
  intro z hz h
  rw [List.mem_singleton.mp hz] at h
  exact absurd h.1 (by unfold Faces; decide)

theorem witness_DeckRequests_moves :
    (∀ st ∈ homeFrom, let s : State := { deck fun t => { t with state := st } with ilk := { track.ilk with locks := [(5, 9)] } }
      (readyB .running s && atRestB s) = true ∧ s.tt.state = st ∧ Tbl.find s.ilk.locks deckA.sec = some 9) ∧
    (∀ st ∈ homeFrom, ∀ pos ∈ [10, 100], let s := deck fun t => { t with state := st, pos := some pos }
      (readyB .running s && atRestB s) = true ∧ s.tt.deck = some deckA ∧ Tbl.find s.tt.roads 2 = some roadA ∧
        s.asp.cond = .running ∧ Tbl.find s.ilk.locks deckA.sec = none ∧ s.tt.state = st ∧ s.tt.pos = some pos ∧
        s.tt.align ≠ some { road := 2, deckEnd := .a } ∧ deckA.bolt = true ∧ deckA.boltTime ≠ 0 ∧
        ¬ (s.tt.boltOutC.level = true ∧ s.tt.boltIn.level = false) ∧
        ¬ (s.tt.boltIn.level = true ∧ s.tt.boltOutC.level = false)) ∧
    (100 = targetOf deckA.c roadA.position .a ∧ 10 ≠ targetOf deckA.c roadA.position .a) ∧
    (∀ st pos, ¬ Straddled deckA (deck fun t => { t with state := st, pos := some pos })) ∧
    (let s := deckIn .moving fun t => { t with halting := true }
     (readyB .running s && atRestB s) = true ∧ s.tt.state = .moving ∧ s.tt.halting = true) := by
  refine ⟨by decide +kernel, by decide +kernel, by decide, fun st pos h => ?_, by decide +kernel⟩
  exact h.1.elim (fun h => SectionState.noConfusion h) (fun h => SectionState.noConfusion h)

theorem witness_LegsAndRatesOfTheDeck :
    (0 < deckA.c ∧ 399 < deckA.c ∧ 0 < deckA.c ∧ deckA.backlash < deckA.c ∧ ∀ m, deckA.stop = some m → m < deckA.c) ∧
    (∀ m, ({ deckA with stop := some 399 } : DeckRec).stop = some m → m < deckA.c) ∧
    (deckA.stop = none ∧ deckA.c % 2 = 0 ∧ (399 + deckA.c - 399) % deckA.c = 0 ∧ (210 + deckA.c - 10) % deckA.c = deckA.c / 2 ∧
      (211 + deckA.c - 10) % deckA.c = deckA.c / 2 + 1) ∧
    1 ≤ 1 ∧ 20000 ≤ 20000 := by
  refine ⟨⟨by decide, by decide, by decide, by decide, fun m h => by cases h⟩, fun m h => ?_, by decide, by decide, by decide⟩
  injection h with h
  subst h
  decide

/-! ### Visitors, panel, loads and the life of the part -/

/-- The track with button 0's filter, a runner and the run state given; show 1 is bound to button 0. -/
def button (f : Filter) (r : Option Runner) (st : RunState) : State :=
  inState st { shows r with
    vis := { (shows r).vis with filters := [(0, f)], shows := [(1, showA), (2, { showA with button := none })] } }

theorem witness_ButtonPressesQueueShows :
    (AtRest running ∧ ((Tbl.getD running.vis.filters 17 Filter.init).sample 20 false).level
      = (Tbl.getD running.vis.filters 17 Filter.init).level) ∧
    (let s := button (ripePin true) none .running
     AtRest s ∧ ((Tbl.getD s.vis.filters 0 Filter.init).sample 20 false).level = false ∧ (0 : Fin 18).val < 16) ∧
    (let s := button (ripePin false) none .configuring
     AtRest s ∧ ((Tbl.getD s.vis.filters 0 Filter.init).sample 20 true).level = true ∧
      (Tbl.getD s.vis.filters 0 Filter.init).level = false ∧ s.exch.runState ≠ .running ∧ s.vis.runner = none ∧
      s.disp.idle1 ≠ 0) ∧
    (let s := button (ripePin false) (some (pausing 2)) .running
     AtRest s ∧ ((Tbl.getD s.vis.filters 0 Filter.init).sample 20 true).level = true ∧
      (Tbl.getD s.vis.filters 0 Filter.init).level = false ∧ s.exch.runState = .running ∧ s.disp.panel ≠ .dark ∧
      boundShow s 0 = some 1 ∧ s.vis.suspended = false ∧ s.vis.runner = some (pausing 2) ∧ (pausing 2).show_ ≠ 1 ∧
      Tbl.find s.vis.cool 1 = none ∧ 0 < s.vis.busy) :=
  ⟨⟨running_ready.2, by decide⟩, ⟨atRest_of (by decide +kernel), by decide⟩, ⟨atRest_of (by decide +kernel), by decide⟩,
    atRest_of (by decide +kernel), by decide⟩

/-- The machine of shows with visitors suspended or not and a queue. -/
def visitors (suspended : Bool) (q : List (Nat × ShowSource)) : State :=
  { shows none with vis := { (shows none).vis with suspended := suspended, queue := q } }

theorem witness_ShowsRunOnRequest :
    (Ready .running (shows none) ∧ AtRest (shows none) ∧ 32 ≤ (32#32 : Word).toNat ∧
      Tbl.find (shows none).vis.shows (31#32 : Word).toNat = none ∧ Tbl.find (shows none).vis.shows 1 = some showA ∧
      (shows none).vis.suspended = false ∧ (shows none).vis.runner = none ∧ (shows none).asp.cond = .running ∧
      (shows none).tt.requester ≠ .jog ∧ showA.steps = .pause 3 :: [] ∧ 3 ≠ 0) ∧
    (Ready .running (visitors true []) ∧ AtRest (visitors true []) ∧ (visitors true []).vis.suspended = true ∧
      (visitors true []).vis.queue = []) ∧
    (∀ n ∈ [1, 2], readyB .running (shows (some (pausing n))) && atRestB (shows (some (pausing n))) = true) ∧
    (let s := visitors false [(1, .host), (1, .button 0)]
     Ready .running s ∧ s.work = Work.none ∧ s.vis.queue.length ≤ 8 ∧ s.vis.suspended = false ∧ s.vis.runner = none) :=
  ⟨⟨ready_of (by decide +kernel), atRest_of (by decide +kernel), by decide⟩,
    ⟨ready_of (by decide +kernel), atRest_of (by decide +kernel), by decide⟩, by decide +kernel, ready_of (by decide +kernel),
    by decide⟩

/-- A running show 1 with n waiting requests for a show. -/
def showsBehind (waiting n : Nat) (r : Runner) : State :=
  let s := shows (some r)
  { s with vis := { s.vis with shows := [(1, showA), (2, showA), (3, { showA with coolDown := 0 })]
                               queue := List.replicate n (waiting, .button 0) } }

theorem witness_ShowsRunOnRequest_queue :
    (∀ n ∈ [7, 8], let s := showsBehind 2 n (pausing 1)
      readyB .running s = true ∧ s.work = Work.none ∧ s.vis.runner = some (pausing 1) ∧ (pausing 1).show_ = 1 ∧
        Tbl.find s.vis.shows 1 = some showA ∧ Tbl.find s.vis.shows 3 = some { showA with coolDown := 0 } ∧
        s.vis.suspended = false ∧ (2, .button 0) ∈ s.vis.queue ∧ (∀ x ∈ s.vis.queue, x.1 ≠ 1 ∧ x.1 ≠ 3) ∧
        s.vis.queue.length = n ∧ (pausing 1).routes = []) ∧
    (let s := showsBehind 2 8 (pausing 3)
     readyB .running s = true ∧ s.vis.runner = some (pausing 3) ∧ (pausing 3).routes = [] ∧
      Tbl.find s.vis.shows 3 = some { showA with coolDown := 0 }) ∧
    (let s := inAllStop (visitors false [(1, .host)])
     readyB .running s = true ∧ s.vis.runner = none ∧ s.asp.cond = .allStop ∧ (1, .host) ∈ s.vis.queue) := by decide +kernel

/-- The routes with show 1, whose one step cancels a route. -/
def cancelling (m cool : Nat) : State :=
  { routes with vis := { routes.vis with shows := [(1, { showA with coolDown := cool, steps := [.cancelRoute m] })] } }

theorem witness_ShowsRunOnRequest_cancel :
    ∀ x ∈ [(9, true), (511, false)], let s := cancelling x.1 9
      (readyB .running s && atRestB s) = true ∧ s.vis.suspended = false ∧ s.vis.runner = none ∧ s.asp.cond = .running ∧
        s.tt.requester ≠ .jog ∧ x.1 < 512 ∧ entryOf s x.1 = none ∧ (Tbl.find s.ilk.routes x.1).isSome = x.2 := by decide +kernel

theorem witness_ShowTimersEndShows :
    (let s := shows (some (pausing 1))
     AtRest s ∧ s.vis.runner = some (pausing 1) ∧ Tbl.find s.vis.shows (pausing 1).show_ = some showA ∧ showA.coolDown ≠ 0 ∧
      s.disp.idle1 ≠ 0 ∧ (pausing 1).stepTimer = some 2500 ∧ (pausing 1).phase = .pause ∧
      (pausing 1).step + 1 = showA.steps.length ∧ (pausing 1).durTimer = some 59000 ∧ (pausing 1).routes = []) ∧
    (AtRest running ∧ (∀ r, running.vis.runner = some r → r.stepTimer = none) ∧
      (∀ r, running.vis.runner = some r → r.durTimer = none) ∧ Tbl.find running.vis.cool 31 = none) ∧
    (let s : State := { shows none with vis := { (shows none).vis with cool := [(31, 4)] } }
     AtRest s ∧ Tbl.find s.vis.cool 31 = some 4) :=
  ⟨⟨atRest_of (by decide +kernel), by decide⟩, ⟨running_ready.2, by simp [running, State.reset, VisitorUnit.init], by simp [running, State.reset, VisitorUnit.init], by decide⟩,
    atRest_of (by decide +kernel), by decide⟩

theorem witness_PanelDimsAndLampsFlash :
    ∀ p ∈ [Panel.awake, .dim, .sleep],
      let s : State := { running with disp := { running.disp with panel := p, idleTimer := some 1 } }
      (atRestB s && soundB s) = true ∧ s.disp.idleTimer = some 1 ∧ s.disp.panel = p := by decide +kernel

/-- The reset state with a load reading signals, at rest, and slot 5 in hand; the data area holds one SIGNAL record. -/
def loading (l : Load) : State :=
  hand { State.reset with exch := { State.reset.exch with
    reading := some l, mem := Mem.write16 (Mem.write16 (Mem.write16 (Mem.write16 State.reset.exch.mem 0x7FF8 8#16) 0x7FFA 0xBF02#16) 0x7FFC 1#16)
      0x7FFE 4#16 } }

/-- A load at the top of the data area. -/
def signalLoad (cursor count : Nat) : Load :=
  { kind := .signals, slot := 5, cursor := cursor, limit := 0x8000, count := count, taken := 0 }

theorem witness_LoadsBeginOrWait :
    (Ready .configuring State.reset ∧ State.reset.work = Work.none ∧ State.reset.vis.queue = [] ∧
      State.reset.exch.reading = none ∧ State.reset.exch.loads = []) ∧
    (Ready .running running) ∧
    (let good (offset length : Word) := offset.toNat % 2 = 0 ∧ 0x3400 ≤ offset.toNat ∧ offset.toNat ≤ 0x7FFF ∧
       offset.toNat + length.toNat ≤ 0x8000
     good 0x3400#32 0x4C00#32 ∧ good 0x7FFE#32 2#32 ∧ ¬ good 0x33FE#32 2#32 ∧ ¬ good 0x3401#32 2#32 ∧
      ¬ good 0x7FFE#32 3#32) ∧
    (let s := loading (signalLoad 0x7FF8 1)
     Ready .configuring s ∧ s.work = Work.none ∧ s.vis.queue = [] ∧ s.exch.reading = some (signalLoad 0x7FF8 1)) :=
  ⟨⟨reset_ready.1, by decide⟩, running_ready.1, by decide, ready_of (by decide +kernel), by decide⟩

theorem witness_LoadRecordTakesOneRecord : AtRest State.reset ∧ State.reset.exch.reading = none := ⟨reset_ready.2, rfl⟩

/-- The reset state with one parameter in the data area. -/
def parameter (code v : Nat) : State :=
  { State.reset with exch := { State.reset.exch with
    mem := Mem.write16 (Mem.write16 State.reset.exch.mem 0x7FFC (BitVec.ofNat 16 code)) 0x7FFE (BitVec.ofNat 16 v) } }

theorem witness_ParametersAreClamped :
    ∀ x ∈ [(1, 255), (2, 601), (3, 19), (4, 100), (5, 2001), (6, 0), (7, 2), (17, 9), (18, 1), (19, 0), (20, 3600), (21, 3601),
        (22, 0), (8, 5)],
      (readyB .configuring (parameter x.1 x.2) && atRestB (parameter x.1 x.2)) = true ∧
        (parameter x.1 x.2).read16 0x7FFC = x.1 ∧ (parameter x.1 x.2).read16 0x7FFE = x.2 := by decide +kernel

/-- The track in CONFIGURING. -/
def configured : State := inState .configuring track

theorem witness_StartBeginsRunning :
    (Ready .configuring configured ∧ AtRest configured ∧ configured.exch.reading = none ∧ configured.exch.loads = []) ∧
    (let s := loading (signalLoad 0x7FF8 1)
     Ready .configuring s ∧ AtRest s ∧ s.exch.reading ≠ none) ∧
    (∃ k i, configFault configured = some (k, i)) ∧
    (let s := inState .configuring { track with occ := { track.occ with
        recs := [(6, byCurrent 4 [])], heads := [], pairs := [] } }
     Ready .configuring s ∧ AtRest s ∧ configFault s = none ∧ s.asp.cond = .running ∧ s.vis.runner = none ∧
      s.ilk.active = [] ∧ s.tt.state.givesUp = false ∧ Tbl.sorted s.occ.recs = true ∧ Tbl.sorted s.occ.filters = true ∧
      Tbl.find s.occ.recs 6 = some (byCurrent 4 []) ∧ s.asp.stopFilter.level = false) :=
  ⟨⟨ready_of (by decide +kernel), atRest_of (by decide +kernel), by decide⟩,
    ⟨ready_of (by decide +kernel), atRest_of (by decide +kernel), by decide⟩, ⟨.sec, 8, by decide⟩,
    ready_of (by decide +kernel), atRest_of (by decide +kernel), by decide⟩

theorem witness_LayoutResetClearsTheLayout :
    (let s := { hand (withActive (active .set)) with work := Work.none }
     Ready .running s ∧ RunState.running ≠ .initializing ∧ s.work = Work.none ∧ Tbl.sorted s.exch.inHand = true ∧
      (∀ n g, (n, g) ∈ s.exch.inHand → n < 32) ∧ Tbl.find s.exch.inHand 5 = some 77#16 ∧ Sound s ∧
      s.exch.runState ≠ .initializing) ∧
    (inState .initializing running).exch.runState = .initializing := by
  refine ⟨⟨ready_of (by decide +kernel), by decide, by decide, by decide, fun n g h => ?_, by decide, sound_of (by decide +kernel),
    by decide⟩, rfl⟩
  simp only [hand, List.mem_singleton, Prod.mk.injEq] at h
  omega

theorem witness_LayoutResetClearsTheLayout_deck :
    ∀ st ∈ [DeckState.aligned, .halted, .fault, .moving, .returning, .stopping, .jogging, .homing, .unbolting, .settling,
        .bolting, .unreferenced],
      let s := deckIn st fun t => { t with boltTimer := some 5, settleTimer := some 6 }
      readyB .running s = true ∧ s.work = Work.none ∧ Tbl.sorted s.exch.inHand = true ∧ s.exch.inHand = [(5, 77#16)] ∧
        s.tt.state = st ∧ s.tt.requester = .slot 5 ∧ s.tt.target ≠ none ∧ s.tt.pos = some 10 ∧
        Tbl.find s.occ.secs 7 = some (occ .disabled 0) ∧ Tbl.find s.occ.secs 2 = some (occ .occupied 3) := by decide +kernel

/-! ### More on tracks and routes -/

/-- The track with the neighbours of section 1 given, and other states of sections and tags. -/
def beside (l : List Nat) (secs : Tbl Occupancy) (g : TagUnit) : State :=
  withTrack { track.occ with
    recs := [(1, byCurrent 3 (l.map fun m => { sec := m, cond := none })), (2, byAxles), (5, byAxles), (6, byCurrent 4 [])]
    secs := secs } g running

/-- A route whose sections are given, without points and overlap. -/
def along (l : List Nat) : RouteRec := { routeA with elements := l.map .sec, overlap := [] }

/-- A state with route 9 so, active at entry 0, holding section 1. -/
def onRoute (r : RouteRec) (a : Active) (s : State) : State :=
  { s with ilk := { s.ilk with routes := [(9, r)], active := [(0, a)], locks := [(1, 9)] } }

/-- A signal that section 2 approaches and that protects section 1. -/
def guard : SignalRec := { kind := .twoAspect, approach := some 2, protect := some 1, home := none }

/-- The track with that signal in an aspect, and a response to an overrun. -/
def guardedBy (a : Aspect) (p : Response) : State :=
  { track with asp := { track.asp with recs := [(191, guard)], state := [(191, { aspect := a, overruns := 255 })],
                                       response := p } }

theorem witness_TagsArriveAndDepart_candidates :
    (let a : Active := { active .running with tag := some 4 }
     let s := onRoute (along [2, 1]) a track
     Changes 3 true 1 s ∧ s.asp.response = .report ∧ s.ilk.active = [(0, a)] ∧
      Tbl.find s.ilk.routes a.route = some (along [2, 1]) ∧ lockOf s 1 = some a.route ∧ a.state = .running ∧ a.tag = some 4 ∧
      sequence (along [2, 1]) = [] ++ 2 :: 1 :: [] ∧ 1 ∉ ([] : List Nat) ∧ 1 ≠ 2 ∧ tagOf s 2 = some 4) ∧
    (let s := beside [2, 5] [(1, occ .clear 0), (2, occ .occupied 3), (5, occ .occupied 1)]
        { track.tags with fields := [(2, 4), (5, 63)] }
     Changes 3 true 1 s ∧ s.ilk.active = [] ∧ (Tbl.find s.occ.recs 1).map SectionRec.neighbours
        = some [{ sec := 2, cond := none }, { sec := 5, cond := none }] ∧
      secState s 2 = .occupied ∧ secState s 5 = .occupied ∧ 2 ≠ 1 ∧ 5 ≠ 1 ∧ tagOf s 2 = some 4 ∧ tagOf s 5 = some 63 ∧
      4 ≠ 63) ∧
    (let v : Tag := { state := .lost, label := 7, holders := [], last := some 1, timer := some 40 }
     let s := beside [] track.occ.secs { track.tags with table := [(5, { v with last := some 6 }), (63, v)] }
     Changes 3 true 1 s ∧ s.ilk.active = [] ∧ (Tbl.find s.occ.recs 1).map SectionRec.neighbours = some [] ∧
      Tbl.sorted s.tags.table = true ∧ Tbl.find s.tags.table 63 = some v ∧ v.state = .lost ∧ v.last = some 1 ∧
      ∀ e ∈ s.tags.table, e.1 < 63 → e.2.state = .lost → e.2.last ≠ some 1) ∧
    (∀ a ∈ [Aspect.danger, .proceed], ∀ p ∈ [Response.report, .allStop],
      let s := guardedBy a p
      changesB 3 true 1 (byCurrent 3 [{ sec := 2, cond := none }]) (occ .clear 0) s = true ∧ s.ilk.active = [] ∧
      (Tbl.find s.occ.recs 1).map SectionRec.neighbours = some [{ sec := 2, cond := none }] ∧ secState s 2 = .occupied ∧
      2 ≠ 1 ∧ tagOf s 2 = some 4 ∧ Tbl.sorted s.asp.recs = true ∧ Tbl.find s.asp.recs 191 = some guard ∧
      Tbl.find s.asp.state 191 = some { aspect := a, overruns := 255 } ∧ guard.kind ≠ .distant ∧ guard.protect = some 1 ∧
      s.asp.response = p ∧ s.asp.cond = .running ∧ guard.approach = some 2) :=
  ⟨⟨changes_of (byCurrent 3 [{ sec := 2, cond := none }]) (occ .clear 0) (by decide +kernel), by decide⟩,
    ⟨changes_of (byCurrent 3 [{ sec := 2, cond := none }, { sec := 5, cond := none }]) (occ .clear 0) (by decide +kernel),
      by decide⟩,
    ⟨changes_of (byCurrent 3 []) (occ .clear 0) (by decide +kernel), by decide⟩, by decide +kernel⟩

theorem witness_TagsArriveAndDepart_overrun :
    ∀ y q, Tbl.find (guardedBy .danger .allStop).asp.recs y = some q → y < 191 → q.protect ≠ some 1 := by
  intro y q h hy
  simp only [guardedBy, Tbl.find] at h
  split at h
  · omega
  · cases h

/-- What the checks up to the twelfth ask of a MAIN route's request that is not a visitor's (R44 to R48), in their order. -/
def checks (s : State) (r : RouteRec) : List Bool :=
  [entryOf s 9 == none, s.ilk.stack.all (fun x => x.route != 9), entryAt s r.entry == none, s.asp.cond == .running, true,
    Tbl.lowestFree s.ilk.active 48 0 != none, (sequence r).all fun n => secState s n != .disabled,
    (sequence r).all fun n => lockOf s n == none, (sequence r).all fun n => secState s n == .clear,
    (routePoints r).all fun x => detLie s x.1 != .failed, (routePoints r).all fun x => (holdersOf s x.1).routes == [],
    (routePoints r).all fun x => detLie s x.1 == x.2.det && orderOf s x.1 == none]

/-- `routes` with other sections, interlocking, points or signals. -/
def routesWith (f : Interlocking → Interlocking) : State := { routes with ilk := f routes.ilk }

/-- The first k checks hold, for the route record of number 9. -/
def passes (k : Nat) (s : State) (r : RouteRec) : Prop :=
  Tbl.find s.ilk.routes 9 = some r ∧ ((checks s r).take k).all id = true

theorem witness_SetRouteIsRefusedOrStacked_checks :
    Tbl.find routes.ilk.routes 511 = none ∧
    (entryOf (withActive (active .set)) 9 = some (0, active .set) ∧ Tbl.find (withActive (active .set)).ilk.routes 9 = some routeA) ∧
    (passes 1 stacked routeA ∧ stacked.ilk.stack.findIdx? (fun x => x.route == 9) = some 0) ∧
    (let a : Active := { active .set with route := 511 }
     let s := routesWith fun q => { q with routes := [(9, routeA), (511, routeA)], active := [(47, a)] }
     passes 2 s routeA ∧ entryAt s routeA.entry = some (47, a)) ∧
    (let s : State := { routes with asp := { routes.asp with cond := .allStop } }
     passes 3 s routeA ∧ s.asp.cond = .allStop) ∧
    (passes 4 (routesWith fun q => { q with quota := 0 }) routeA ∧ (routesWith fun q => { q with quota := 0 }).ilk.quota ≤ 0) ∧
    (let s := routesWith fun q => { q with active := (List.range 48).map fun e => (e, { active .set with route := 100 + e }) }
     passes 5 s routeA ∧ Tbl.lowestFree s.ilk.active 48 0 = none) ∧
    (let s : State := { routes with occ := { routes.occ with secs := [(1, occ .clear 0), (5, occ .disabled 0)] } }
     passes 6 s routeA ∧ FirstWith (fun n => secState s n = .disabled) (sequence routeA) 5) ∧
    (passes 7 lockedOut routeA ∧ FirstWith (fun n => lockOf lockedOut n ≠ none) (sequence routeA) 1 ∧
      lockOf lockedOut 1 = some 8) ∧
    (let s : State := { routes with occ := { routes.occ with secs := [(1, occ .clear 0), (5, occ .occupied 0)] } }
     passes 8 s routeA ∧ routeA.cls = .main ∧ FirstWith (fun n => ¬ secState s n = .clear) (sequence routeA) 5) ∧
    (passes 9 (pointed .failed .ready) routeA ∧
      FirstWith (fun x : Nat × Lie => detLie (pointed .failed .ready) x.1 = .failed) (routePoints routeA) (3, .normal)) ∧
    (let s := routesWith fun q => { q with holders := [(3, { routes := [8], shared := some .reverse })] }
     passes 10 s routeA ∧ FirstWith (fun x : Nat × Lie => (holdersOf s x.1).routes ≠ [] ∧
        ((holdersOf s x.1).shared ≠ some x.2 ∨ 4 ≤ (holdersOf s x.1).routes.length)) (routePoints routeA) (3, .normal) ∧
      (holdersOf s 3).routes = 8 :: []) ∧
    (let s : State := { routes with pts := { routes.pts with queue := [queuedOrder 3 .normal (.slot 5)] } }
     passes 11 s routeA ∧ FirstWith (fun x : Nat × Lie => (detLie s x.1 ≠ x.2.det ∨ orderOf s x.1 ≠ none) ∧
        ((holdersOf s x.1).routes ≠ [] ∨ orderOf s x.1 ≠ none ∨ secState s (pointSec s x.1) ≠ .clear))
        (routePoints routeA) (3, .normal)) ∧
    (let r : RouteRec := { routeA with table := some { road := 35, deckEnd := .b } }
     let s := routesWith fun q => { q with routes := [(9, r)] }
     passes 12 s r ∧ r.table = some { road := 35, deckEnd := .b } ∧
      ¬ (s.tt.state = .aligned ∧ s.tt.align = some { road := 35, deckEnd := .b })) ∧
    (passes 12 routes routeA ∧ routeA.table = none) := by
  unfold passes
  exact ⟨by decide, by decide, by decide, by decide, by decide, by decide, by decide +kernel,
    ⟨by decide, firstWith_of [1] [] (by decide) (by decide)⟩, ⟨by decide, firstWith_of [] [5] (by decide) (by decide), by decide⟩,
    ⟨by decide, rfl, firstWith_of [1] [] (by decide) (by decide)⟩, ⟨by decide, firstWith_of [] [] (by decide) (by decide)⟩,
    ⟨by decide, firstWith_of [] [] (by decide) (by decide), by decide⟩,
    ⟨by decide, firstWith_of [] [] (by decide) (by decide)⟩, by decide, by decide⟩

/-- One request stacked from slot 5 for a route, section 7 being DISABLED. -/
def stackedFor (route : Nat) (f : Interlocking → Interlocking) : State :=
  { hand routes with ilk := f { routes.ilk with stack := [{ waiting .automation with route := route }] } }

theorem witness_StackOrderAndExpiry_examined :
    ∀ x ∈ [(9, [(1, 8)]), (511, []), (9, [])],
      let s := stackedFor x.1 fun q => { q with locks := x.2 }
      let y : StackEntry := { waiting .automation with route := x.1 }
      let u : State := { s with occ := { s.occ with secs := Tbl.insert s.occ.secs 7 (plainOccupancy .clear) } }
      readyB .running s = true ∧ s.work = Work.none ∧ s.vis.queue = [] ∧ s.vis.runner = none ∧ s.tt.requester ≠ .jog ∧
      s.pts.queue = [] ∧ s.pts.overflow = [] ∧ s.ilk.active = [] ∧ s.ilk.stack = [y] ∧ y.source = .slot 5 ∧ 5 < 32 ∧
      5 ≠ s.exch.takePos ∧ Tbl.sorted s.exch.inHand = true ∧ Tbl.find s.exch.inHand 5 = some 77#16 ∧ (7#32 : Word).toNat < 256 ∧
      Tbl.find s.occ.recs 7 = some (byCurrent 9 []) ∧ Tbl.find s.occ.secs 7 = some (occ .disabled 0) ∧
      detLevel s (byCurrent 9 []) = false ∧ tagOf s 7 = none ∧
      (routeRefusal u y.route y.originator true).map (fun a => a.result.transient)
        = (if x.2 = [] then (if x.1 = 9 then none else some false) else some true) ∧
      (x = (9, []) → Tbl.find s.ilk.routes y.route = some routeA ∧ (∀ z ∈ routePoints routeA, detLie s z.1 = z.2.det) ∧
        ∀ m ∈ sequence routeA, secState u m = .clear) := by decide +kernel

/-- `withActive` with a SETTING route of slot 5 that waits for orders in hand. -/
def settingWith (q : List Order) : Active := { active .setting with slot := some 5, orders := q.map Order.point }

def settingState (q : List Order) : State :=
  { hand (withActive (settingWith q)) with pts := { (withActive (settingWith q)).pts with queue := q } }

/-- An order of the route at entry 0. -/
def routeOrder (p : OrderPhase) : Order := { queuedOrder 3 .normal (.route 0) with phase := p }

theorem witness_CancelReleasesOrLocks_setting :
    (∀ q ∈ [[], [routeOrder .queued], [routeOrder .travel]],
      let s := settingState q
      let a := settingWith q
      readyB .running s = true ∧ s.work = Work.none ∧ s.vis.queue = [] ∧ s.ilk.stack = [] ∧ s.pts.overflow = [] ∧
      (9#32 : Word).toNat ≤ 511 ∧ entryOfB 0 a s = true ∧ a.route = (9#32 : Word).toNat ∧ a.state = .setting ∧
      a.slot = some 5 ∧ 5 < 32 ∧ 5 ≠ s.exch.takePos ∧ Tbl.sorted s.exch.inHand = true ∧
      Tbl.find s.exch.inHand 5 = some 77#16 ∧ s.pts.queue = q ∧ a.orders = q.map Order.point) ∧
    (let s := stacked
     let x := waiting .automation
     Ready .running s ∧ s.work = Work.none ∧ s.vis.queue = [] ∧ s.ilk.stack = [x] ∧ x.route = (9#32 : Word).toNat ∧
      x.source = .slot 5 ∧ 5 ≠ s.exch.takePos ∧ Tbl.sorted s.exch.inHand = true ∧ Tbl.find s.exch.inHand 5 = some 77#16) :=
  ⟨by decide +kernel, ready_of (by decide +kernel), by decide⟩

/-- The track with route 9 along sections, active at entry 0; its filters and point are those of `routes`. -/
def routed (l : List Nat) (a : Active) : State := hand (onRoute (along l) a routes)

theorem witness_RouteTimersRelease_entered :
    ∀ st ∈ [RouteState.set, .held, .approachLocked, .setting],
      let a : Active := { active st with slot := if st = .setting then some 5 else none }
      let s := routed [1, 5] a
      changesB 3 true 1 (byCurrent 3 [{ sec := 2, cond := none }]) (occ .clear 0) s = true ∧ soundB s = true ∧
      s.asp.response = .report ∧ s.ilk.active = [(0, a)] ∧ Tbl.find s.ilk.routes a.route = some (along [1, 5]) ∧
      elementSections (along [1, 5]) = 1 :: 5 :: [] ∧ (sequence (along [1, 5])).Nodup ∧
      (∀ j ∈ sequence (along [1, 5]), secState s j = .clear) ∧ tagOf s 1 = none ∧ a.orders = [] ∧ a.show_ = none ∧
      a.releasePos = 0 ∧ a.passed = List.replicate (sequence (along [1, 5])).length false ∧ a.state = st ∧
      Tbl.sorted s.exch.inHand = true ∧ Tbl.find s.exch.inHand 5 = some 77#16 := by decide +kernel

/-- A RUNNING route whose first section is marked. -/
def passing : Active := { active .running with passed := [true, false], overlapState := .released }

theorem witness_RouteTimersRelease_released :
    ∀ l ∈ [[6, 1], [6]],
      let s := onRoute (along l) passing { routes with ilk := { routes.ilk with holders := [(3, { routes := [8], shared := none })] } }
      let s : State := { s with ilk := { s.ilk with locks := [(6, 9)] } }
      changesB 4 false 6 (byCurrent 4 []) (occ .occupied 0) s = true ∧ entryOfB 0 passing s = true ∧
      s.ilk.active = [(0, passing)] ∧ Tbl.find s.ilk.routes passing.route = some (along l) ∧ (sequence (along l)).Nodup ∧
      ((routePoints (along l)).map Prod.fst).Nodup ∧ passing.state = .running ∧ passing.orders = [] ∧ passing.releasePos = 0 ∧
      passing.passed[0]? = some true ∧ lockOf s 6 = some passing.route ∧ passing.passed[1]? ≠ some true ∧
      passing.overlapState = .released ∧ elementSections (along l) = l := by decide +kernel

theorem witness_RouteTimersRelease_holders (p : Nat) :
    (holdersOf (onRoute (along [6]) passing routes) p).routes.Nodup := by
  simp [holdersOf, onRoute, routes, track, withTrack, running, State.reset, Interlocking.init, Tbl.getD, Tbl.find, Holders.none]

theorem witness_RouteTimersRelease_held :
    (let s := onRoute (along [5, 1]) (active .set) routes
     Changes 3 true 1 s ∧ s.asp.response = .report ∧ s.ilk.active = [(0, active .set)] ∧
      Tbl.find s.ilk.routes (active .set).route = some (along [5, 1]) ∧ (along [5, 1]).cls = .main ∧ 1 ∈ sequence (along [5, 1]) ∧
      (elementSections (along [5, 1])).head? = some 5 ∧ 5 ≠ 1 ∧ (active .set).slot = none ∧ (active .set).show_ = none ∧
      (active .set).state = .set) ∧
    (let s := onRoute (along [5, 6]) (active .held) routes
     Changes 4 false 6 s ∧ (active .held).state = .held ∧ s.asp.cond = .running ∧
      (∀ y ∈ routePoints (along [5, 6]), detLie s y.1 = y.2.det) ∧
      (∀ j ∈ sequence (along [5, 6]), j ≠ 6 → secState s j = .clear) ∧ 6 ∈ sequence (along [5, 6]) ∧
      (elementSections (along [5, 6])).head? = some 5) :=
  ⟨⟨changes_of (byCurrent 3 [{ sec := 2, cond := none }]) (occ .clear 0) (by decide +kernel), by decide⟩,
    changes_of (byCurrent 4 []) (occ .occupied 0) (by decide +kernel), by decide⟩

/-- Route 9 over section 5 with section 1 as an overlap that its timer has released, and the route RUNNING without a tag. -/
def ranOn : State :=
  onRoute { routeA with elements := [.sec 5], overlap := [1] }
    { active .running with overlapState := .released, overlapPos := 1 } routes

theorem witness_RouteTimersRelease_overlap :
    Changes 3 true 1 ranOn ∧ ranOn.asp.response = .report ∧
    ranOn.ilk.active = [(0, { active .running with overlapState := .released, overlapPos := 1 })] ∧
    Tbl.find ranOn.ilk.routes 9 = some { routeA with elements := [.sec 5], overlap := [1] } ∧ 1 ∈ [1] ∧
    1 ∉ elementSections { routeA with elements := [.sec 5], overlap := [1] } :=
  ⟨changes_of (byCurrent 3 [{ sec := 2, cond := none }]) (occ .clear 0) (by decide +kernel), by decide⟩

/-- Route 9 over section 1 and point 3, active, the point at a lie and its two contacts as given. -/
def heldPoint (st : RouteState) (l : DetLie) (cs : Tbl Contact) : State :=
  let s := withActive (active st)
  { s with pts := { s.pts with state := [(3, lieState l)], contacts := cs } }

theorem witness_ContactSamplesGiveTheLie_held :
    ∀ x ∈ [(RouteState.set, DetLie.normal, ([(20, { prev := false, level := true }), (21, { prev := true, level := true })] : Tbl Contact), false),
        (.set, .normal, [(20, { prev := false, level := true })], false), (.held, .lost, [(20, { prev := true, level := false })], true)],
      let s := heldPoint x.1 x.2.1 x.2.2.1
      let c := Tbl.getD s.pts.contacts 20 Contact.init
      let new := lieOfContacts x.2.2.2 (Tbl.getD s.pts.contacts 21 Contact.init).level
      atRestB s = true ∧ s.exch.runState = .running ∧ Tbl.sorted s.pts.contacts = true ∧ pointsOfContact s 20 = [3] ∧
      Tbl.find s.pts.recs 3 = some pointA ∧ pointA.feedback = .pair 20 21 ∧ 20 ≠ 21 ∧
      Tbl.find s.pts.state 3 = some (lieState x.2.1) ∧ (lieState x.2.1).failed = none ∧ (lieState x.2.1).loss = none ∧
      s.ilk.active = [(0, active x.1)] ∧ Tbl.find s.ilk.routes (active x.1).route = some routeA ∧
      holdersOf s 3 = { routes := [(active x.1).route], shared := some .normal } ∧
      (3, Lie.normal) ∈ routePoints routeA ∧ x.2.2.2 = c.prev ∧ x.2.2.2 ≠ c.level ∧
      (if x.1 = .set then x.2.1 = Lie.normal.det ∧ new ≠ Lie.normal.det else x.2.1 ≠ Lie.normal.det ∧ new = Lie.normal.det) ∧
      s.asp.cond = .running ∧ (active x.1).slot = none ∧ (active x.1).show_ = none ∧ routePoints routeA = [(3, .normal)] ∧
      elementSections routeA ≠ [] ∧ ∀ n ∈ sequence routeA, secState s n = .clear := by decide +kernel

/-- The loss timer of point 3 running under route 9, which holds it. -/
def losing (a : Active) : State :=
  let s := withActive a
  hand { s with pts := { s.pts with state := [(3, { lieState .reverse with loss := some 90 })] } }

theorem witness_LossFailsAndRechargeReadies_held :
    (let s := losing (active .held)
     AtRest s ∧ Tbl.find s.pts.state (3 : Fin 128).val = some { lieState .reverse with loss := some 90 } ∧
      Tbl.sorted s.ilk.active = true ∧ (active .held).route ∈ (holdersOf s 3).routes ∧
      ∀ x ∈ s.ilk.active, x.2.route ∈ (holdersOf s 3).routes → x.2.state ≠ .setting) ∧
    (let a : Active := { active .setting with slot := some 5 }
     let s := losing a
     AtRest s ∧ Sound s ∧ EntryOf 0 a s ∧ a.state = .setting ∧ a.orders = [] ∧ a.route ∈ (holdersOf s 3).routes ∧
      (∀ x ∈ s.ilk.active, x.1 ≠ 0 → x.2.state ≠ .setting) ∧ a.slot = some 5 ∧ 5 < 32 ∧ Tbl.sorted s.exch.inHand = true ∧
      Tbl.find s.exch.inHand 5 = some 77#16) :=
  ⟨⟨atRest_of (by decide +kernel), by decide⟩, atRest_of (by decide +kernel), sound_of (by decide +kernel),
    entryOf_of (by decide +kernel), by decide⟩

/-! ### What is shown -/

theorem mem_of_find {α : Type} {t : Tbl α} {n : Nat} {v : α} (h : Tbl.find t n = some v) : (n, v) ∈ t := by
  induction t with
  | nil => cases h
  | cons x t ih =>
    obtain ⟨k, w⟩ := x
    unfold Tbl.find at h
    split at h
    · simp_all
    · exact List.mem_cons_of_mem _ (ih h)

/-- Section 6 OCCUPIED, and nothing else loaded, in RUNNING, with the two mirror words that are not 0. -/
def shownTrack : State :=
  let s := withTrack { track.occ with recs := [(6, byCurrent 4 [])], heads := [], pairs := [] } State.reset.tags running
  (s.write32 (Config.sectionMirror + 4 * 6) (sectionWord s 6 (byCurrent 4 []))).write32 (Config.visitorMirror + 4) (visitorWord s 1)

theorem shownTrack_shown : Shown shownTrack where
  aspects x r h := by cases h
  lamps i l h := by cases h
  buttons := by decide +kernel
  levels := by decide +kernel
  sections n r h := by
    have h : (n, r) ∈ [(6, byCurrent 4 [])] := mem_of_find h
    simp only [List.mem_singleton, Prod.mk.injEq] at h
    obtain ⟨rfl, rfl⟩ := h
    decide +kernel
  heads k h hk := by cases hk
  tags := by decide +kernel
  active := by decide +kernel
  stack := by decide +kernel
  points p r h := by cases h
  signals x r st h := by cases h
  table := by decide +kernel
  visitors := by decide +kernel
  lampWords := by decide +kernel

theorem shownTrack_settled : Settled shownTrack where
  work := by decide +kernel
  sections := ⟨by decide +kernel, by decide +kernel, fun n r h => by
    have h : (n, r) ∈ [(6, byCurrent 4 [])] := mem_of_find h
    simp only [List.mem_singleton, Prod.mk.injEq] at h
    obtain ⟨rfl, rfl⟩ := h
    exact ⟨by decide, occ .occupied 0, by decide +kernel⟩⟩
  heads k h hk := by cases hk
  points := ⟨by decide +kernel, by decide +kernel, fun p r h => by cases h⟩
  signals x r h := by cases h
  routes := by decide +kernel
  panel := ⟨by decide +kernel, by decide +kernel, by decide +kernel, fun i l h => by cases h⟩
  tags h := by cases h rfl
  running _ := ⟨shownTrack_shown, by decide +kernel, fun l h => by
    rcases h with h | h
    · cases h
    · cases h⟩

theorem witness_AspectsFollowTheSetRoute_kept :
    (let s : State := { shownTrack with pending := [.hostMemoryAccess (.write 0x6B0 1#16)] }
     Sound s ∧ Settled s ∧ (∃ t, step s = .next t) ∧
      ∀ hw v rest, s.pending = .hostMemoryAccess (.write hw v) :: rest → 2 * hw.val < 0x0100 ∨ 0x0D60 ≤ 2 * hw.val) ∧
    (let s : State := { shownTrack with pending := [.detectorSample 4 false] }
     Sound s ∧ Settled s ∧ (∃ t, step s = .next t) ∧
      ∀ hw v rest, s.pending ≠ .hostMemoryAccess (.write hw v) :: rest) := by
  refine ⟨⟨sound_of (by decide +kernel), ?_, ⟨_, rfl⟩, fun hw v rest h => ?_⟩, sound_of (by decide +kernel), ?_, ⟨_, rfl⟩, ?_⟩
  · exact { shownTrack_settled with running := fun h => ⟨{ shownTrack_shown with }, (shownTrack_settled.running h).2⟩ }
  · simp only [List.cons.injEq, Instr.hostMemoryAccess.injEq, MemAccess.write.injEq] at h
    obtain ⟨⟨rfl, rfl⟩, rfl⟩ := h
    decide
  · exact { shownTrack_settled with running := fun h => ⟨{ shownTrack_shown with }, (shownTrack_settled.running h).2⟩ }
  · simp

/-! ### More on the deck -/

/-- A deck at the last step of a jog's stop, with two roads. -/
def snapping (p1 p2 : Nat) : State :=
  deckIn .stopping fun t => { t with
    legSteps := 1, requester := .jog, target := none
    roads := [(1, { position := p1, sec := 1, reversed := false }), (35, { position := p2, sec := 1, reversed := false })] }

/-- The steps the shorter way round from position 11 to y. -/
def stepsAway (y : Nat) : Nat := min ((y + 400 - 11) % 400) (400 - (y + 400 - 11) % 400)

/-- The two targets of a road. -/
def targets (q : Road) : List Nat := [q.position % 400, (q.position + 200) % 400]

/-- End A of road n, at y, is the nearest of all targets, and the first of them where others are as near. -/
def nearest (s : State) (n y : Nat) : Bool :=
  s.tt.roads.all fun x => (targets x.2).all fun z =>
    decide (stepsAway y < stepsAway z ∨ stepsAway y = stepsAway z ∧ n ≤ x.1)

theorem witness_LegsAndStopsEnd_snap :
    (∀ x ∈ [(100, 217), (100, 16), (11, 17), (16, 6)],
      let s := snapping x.1 x.2
      atRestB s = true ∧ s.tt.deck = some deckA ∧ s.tt.gen = some stepping ∧ s.tt.halting = false ∧ s.tt.legSteps = 1 ∧
      s.tt.state = .stopping ∧ s.tt.requester = .jog ∧ s.tt.legCw = true ∧ s.tt.pos = some 10 ∧
      Tbl.sorted s.tt.roads = true ∧ deckA.settleTime ≠ 0) ∧
    ((snapping 100 217).tt.roads.all fun x => (targets x.2).all fun y => deckA.snap < stepsAway y) = true ∧
    (stepsAway 16 = deckA.snap ∧ nearest (snapping 100 16) 35 16 = true) ∧
    (stepsAway 11 = 0 ∧ nearest (snapping 11 17) 1 11 = true) ∧
    (stepsAway 16 = stepsAway 6 ∧ nearest (snapping 16 6) 1 16 = true) := by decide +kernel

theorem witness_BoltEngagesOrFaults_withdrawn :
    ∀ x ∈ [(some 399, Requester.slot 5), (none, .slot 5), (some 0, .jog)],
      let s := deckIn .unbolting fun t => { t with
        gen := none, pos := x.1, requester := x.2, boltOutC := { prev := true, level := false }, boltTimer := some 1 }
      atRestB s = true ∧ s.tt.deck = some deckA ∧ deckA.bolt = true ∧ s.tt.state = .unbolting ∧ s.tt.halting = false ∧
      s.tt.boltOutC.prev = true ∧ s.tt.boltOutC.level = false ∧ s.tt.boltIn.level = false ∧ s.tt.requester = x.2 ∧
      s.tt.pos = x.1 ∧ s.tt.jogReleased = false ∧ deckA.stop = none := by decide +kernel

theorem witness_LegsAndRatesOfTheDeck_bounded :
    ∀ x ∈ [(6, 8), (8, 6), (7, 207), (208, 7), (399, 399)],
      let d : DeckRec := { deckA with stop := some 7 }
      x.1 < d.c ∧ x.2 < d.c ∧ 7 < d.c ∧ d.stop = some 7 ∧ d.c % 2 = 0 ∧
      (x = (6, 8) → 7 ≠ x.1 ∧ 7 ≠ x.2 ∧ (x.2 + d.c - x.1) % d.c ≠ 0) ∧
      (x = (8, 6) → 7 ≠ x.1 ∧ 7 ≠ x.2 ∧ (x.2 + d.c - x.1) % d.c ≠ 0 ∧ 1 ≤ 1 ∧ 1 < (legs d x.1 x.2).2.1) ∧
      (x = (7, 207) → 7 = x.1 ∧ (x.2 + d.c - x.1) % d.c = d.c / 2) ∧
      (x = (208, 7) → 7 = x.2 ∧ (x.2 + d.c - x.1) % d.c = d.c / 2 - 1) ∧
      (x = (399, 399) → (x.2 + d.c - x.1) % d.c = 0) := by decide +kernel

/-! ### Jogging and lamps -/

/-- The deck with the filter of a jog button. -/
def jogButton (b : Nat) (f : Filter) (g : Turntable → Turntable) : State :=
  let s := deck g
  { s with vis := { s.vis with filters := [(b, f)] } }

theorem witness_ButtonPressesQueueShows_jog :
    (∀ st ∈ [DeckState.halted, .aligned, .moving],
      let s := jogButton 16 (ripePin false) fun t => { t with state := st }
      atRestB s = true ∧ s.tt.deck = some deckA ∧
      ((Tbl.getD s.vis.filters (16 : Fin 18).val Filter.init).sample 20 true).level = true ∧
      (Tbl.getD s.vis.filters 16 Filter.init).level = false ∧ 16 ≤ (16 : Fin 18).val ∧ s.exch.runState = .running ∧
      s.disp.panel ≠ .dark ∧ s.vis.suspended = false ∧ s.vis.runner = none ∧ s.disp.idle1 ≠ 0 ∧ deckA.stop = none ∧
      deckA.bolt = true ∧ deckA.boltTime ≠ 0 ∧ ¬ (s.tt.boltOutC.level = true ∧ s.tt.boltIn.level = false) ∧
      ((s.asp.cond = .running ∧ s.tt.jogPermitted = true ∧ (s.tt.state = .aligned ∨ s.tt.state = .halted) ∧
        s.tt.requester = .none ∧ secState s deckA.sec = .clear ∧ lockOf s deckA.sec = none) ↔ st ≠ .moving)) ∧
    (∀ st ∈ [DeckState.unbolting, .jogging, .stopping],
      let s := jogButton 17 (ripePin true) fun t => { t with
        state := st, requester := .jog, jogCw := false, gen := some stepping, jogHold := some 9 }
      atRestB s = true ∧ s.tt.deck = some deckA ∧
      ((Tbl.getD s.vis.filters (17 : Fin 18).val Filter.init).sample 20 false).level = false ∧
      (Tbl.getD s.vis.filters 17 Filter.init).level = true ∧ 16 ≤ (17 : Fin 18).val ∧ s.tt.jogCw = ((17 : Fin 18).val == 16) ∧
      s.tt.requester = .jog ∧ s.tt.halting = false ∧ s.tt.gen = some stepping ∧ deckA.stop = none ∧
      ((s.tt.state = .unbolting ∨ s.tt.state = .jogging) ↔ st ≠ .stopping)) := by decide +kernel

theorem witness_PanelDimsAndLampsFlash_modes :
    (let s := routes
     s.exch.runState = .running ∧ (Tbl.find s.occ.recs 6 ≠ none ∧ secState s 6 = .occupied) ∧ lockOf s 255 = none ∧
      (Tbl.find s.asp.state 1).map SignalState.aspect = some .danger ∧
      (Tbl.find s.pts.state 3).map PointState.lie = some .normal ∧ tagOf s 2 ≠ none ∧ s.disp.panel ≠ .dark) ∧
    (inState .configuring routes).exch.runState ≠ .running ∧
    (∀ x ∈ (shows none).vis.shows, x.2.button ≠ some 15) ∧
    FirstWith (fun x : Nat × ShowRec => x.2.button = some 0) (shows none).vis.shows (1, showA) ∧
    (shows (some (pausing 1))).vis.runner.map Runner.show_ = some 1 ∧
    (let s := visitors false [(1, .host)]
     (1, .host) ∈ s.vis.queue ∧ s.vis.runner.map Runner.show_ ≠ some 1) ∧
    ((visitors true []).vis.suspended = true ∧ (visitors true []).vis.runner = none ∧ (visitors true []).vis.queue = []) ∧
    (let s := shows none
     s.vis.runner = none ∧ s.vis.queue = [] ∧ Tbl.find s.vis.cool 1 = none ∧ s.vis.suspended = false ∧
      ¬ s.vis.busy ≤ s.vis.queue.length) ∧
    ((deck id).tt.jogPermitted = true ∧ (deck id).asp.cond = .running ∧ (deck id).vis.suspended = false ∧
      (deck id).vis.runner = none ∧ (deck id).tt.state = .aligned ∧ (deck id).tt.requester = .none ∧ 16 ≤ 17) ∧
    (deck fun t => { t with requester := .jog }).tt.requester = .jog ∧
    (running.tt.requester ≠ .jog ∧ ¬ (running.tt.state = .aligned ∨ running.tt.state = .halted)) :=
  ⟨by decide, by decide, by decide, firstWith_of [] [] rfl (by simp), by decide⟩

/-! ### Records -/

/-- A load whose next record is these bytes, at the bottom of the data area. -/
def loadOf (k : LoadKind) (bytes : List Nat) : Load :=
  { kind := k, slot := 5, cursor := 0x3400, limit := 0x3400 + bytes.length, count := 2, taken := 1 }

/-- A state with that load reading, and its bytes in the data area. -/
def reading (k : LoadKind) (bytes : List Nat) (s : State) : State :=
  hand { s with exch := { s.exch with
    reading := some (loadOf k bytes)
    mem := bytes.zipIdx.foldl (fun m x => Mem.write8 m (0x3400 + x.2) (BitVec.ofNat 8 x.1)) s.exch.mem } }

def holdsB (s : State) (a : Nat) (bytes : List Nat) : Bool := bytes.zipIdx.all fun x => s.read8 (a + x.2) == x.1

theorem holds_of {s : State} {a : Nat} {bytes : List Nat} (h : holdsB s a bytes = true) : Holds s a bytes := by
  intro k b hb
  have := List.all_eq_true.1 h (b, k) (List.mk_mem_zipIdx_iff_getElem?.2 hb)
  simpa using this

def loadingB (l : Load) (tag : HostTag) (s : State) : Bool :=
  atRestB s && soundB s && s.exch.reading == some l && decide (l.slot < Config.numSlots) && Tbl.sorted s.exch.inHand
    && Tbl.find s.exch.inHand l.slot == some tag && s.exch.loads == []

theorem loading_of {l : Load} {tag : HostTag} {s : State} (h : loadingB l tag s = true) : Loading l tag s := by
  unfold loadingB at h
  simp only [Bool.and_eq_true, beq_iff_eq, decide_eq_true_eq] at h
  obtain ⟨⟨⟨⟨⟨⟨h1, h2⟩, h3⟩, h4⟩, h5⟩, h6⟩, h7⟩ := h
  exact ⟨atRest_of h1, sound_of h2, h3, h4, h5, h6, by simp [h7]⟩

/-- A load of these bytes is at its record in a state. -/
def Reads (k : LoadKind) (bytes : List Nat) (s : State) : Prop :=
  Loading (loadOf k bytes) 77#16 (reading k bytes s) ∧ Holds (reading k bytes s) (loadOf k bytes).cursor bytes ∧
    (loadOf k bytes).cursor + bytes.length ≤ (loadOf k bytes).limit ∧ (loadOf k bytes).taken + 1 = (loadOf k bytes).count

theorem reads_of {k : LoadKind} {bytes : List Nat} {s : State}
    (h : (loadingB (loadOf k bytes) 77#16 (reading k bytes s) && holdsB (reading k bytes s) 0x3400 bytes) = true) :
    Reads k bytes s := by
  simp only [Bool.and_eq_true] at h
  exact ⟨loading_of h.1, holds_of h.2, Nat.le_refl _, rfl⟩

/-- Section 255, detected by both, with a neighbour under a condition. -/
def sectionZ : SectionRec :=
  { detection := .both, input := some 255, pickUp := 255, dropOut := 2550, discrepancy := 25500, isPublic := true,
    neighbours := [{ sec := 0, cond := some (127, .reverse) }] }

def routeZ : RouteRec := { routeA with exit := some 191, approachTime := 255, flank := [(127, .reverse)], approach := [255] }

def pointZ : PointRec := { sec := 255, motor := .slow, feedback := .pair 0 255, travel := 10000 }

def distantZ : SignalRec := { kind := .distant, approach := none, protect := none, home := some 0 }

def showZ : ShowRec :=
  { button := some 15, coolDown := 600, maxDuration := 3600,
    steps := [.setRoute 511 600, .turn { road := 35, deckEnd := .b }, .waitSection 255 true 1, .pause 600] }

def lampZ : Lamp := { source := .signalAspect 191 .shuntOff, onMode := .fastFlash, offMode := .slowFlash }

theorem fits_section : SectionFits 255 sectionZ where
  number := by decide
  pickUp := by decide
  dropOut := ⟨255, by decide, rfl⟩
  discrepancy := ⟨255, by decide, rfl⟩
  input i h := by cases h; decide
  marks := rfl
  few := by decide
  neighbours b h := by
    simp only [sectionZ, List.mem_singleton] at h
    subst h
    exact ⟨by decide, by decide, fun c h => by cases h; decide⟩
  distinct := by decide

theorem fits_route : RouteFits 511 routeZ where
  numbers := ⟨by decide, by decide, fun y h => by cases h; decide, by decide, by decide, fun y h => by cases h⟩
  counts := by decide
  items := by decide
  first := ⟨1, _, rfl⟩
  distinct := by decide
  shunt := by decide

theorem fits_point : PointFits 127 pointZ where
  numbers := by decide
  inputs a b h := by cases h; decide
  travel := show 500 ≤ 10000 ∧ 10000 ≤ 10000 by decide

theorem fits_signal : SignalFits 191 distantZ where
  numbers := ⟨by decide, fun n h => by simp [distantZ] at h, fun h e => by cases e; decide⟩
  fields := by decide

theorem fits_deck : DeckFits deckA where
  counts := ⟨by decide, by decide, by decide, by decide, (fun m h => by cases h), by decide⟩
  rates := by decide
  times := ⟨⟨50, by decide, rfl⟩, ⟨3, by decide, rfl⟩, by decide, by decide⟩

theorem fits_show : ShowFits 31 showZ where
  numbers := ⟨by decide, fun b h => by cases h; decide, by decide, by decide⟩
  steps := by
    refine ⟨by decide, by decide, fun x h => ?_⟩
    simp only [showZ, List.mem_cons, List.not_mem_nil, or_false] at h
    rcases h with rfl | rfl | rfl | rfl <;> decide

theorem witness_LoadRecordTakesOneRecord_types :
    (SectionFits 255 sectionZ ∧ Reads .sections (sectionBytes true 9 255 sectionZ) State.reset ∧
      Reads .sections (headBytes 9 31 none (some 255) true) State.reset ∧ (none : Option Nat) ≠ some 255) ∧
    (RouteFits 511 routeZ ∧ Reads .routes (routeBytes 9 511 routeZ) State.reset ∧
      poolInUse (Tbl.insert State.reset.ilk.routes 511 routeZ) ≤ Config.poolEntries) ∧
    (PointFits 127 pointZ ∧ Reads .points (pointBytes false 9 127 pointZ) State.reset) ∧
    (SignalFits 191 distantZ ∧ Reads .signals (signalBytes 9 191 distantZ) State.reset ∧
      State.reset.exch.runState = .configuring) ∧
    (DeckFits deckA ∧ Reads .table (deckBytes 9 deckA) State.reset) ∧
    (let q : Road := { position := 399, sec := 1, reversed := true }
     let s := inState .configuring (deck id)
     Reads .table (roadBytes 35 q) s ∧ s.tt.deck = some deckA ∧ q.position < deckA.c ∧ q.sec ≠ deckA.sec ∧
      ∀ x ∈ s.tt.roads, x.1 ≠ 35 → x.2.position ≠ q.position) ∧
    (ShowFits 31 showZ ∧ Reads .shows (showBytes 31 showZ) (shows none) ∧
      Reads .shows (showBytes 31 showZ) (shows (some (pausing 31))) ∧ (shows (some (pausing 31))).vis.runner.map Runner.show_ = some 31 ∧
      ∀ x ∈ (shows none).vis.shows, x.1 ≠ 31 → showZ.button = none ∨ x.2.button ≠ showZ.button) ∧
    (LampFits 383 lampZ ∧ Reads .lamps (lampBytes 9 383 lampZ) running) :=
  ⟨⟨fits_section, reads_of (by decide +kernel), reads_of (by decide +kernel), by decide⟩,
    ⟨fits_route, reads_of (by decide +kernel), by decide⟩, ⟨fits_point, reads_of (by decide +kernel)⟩,
    ⟨fits_signal, reads_of (by decide +kernel), rfl⟩, ⟨fits_deck, reads_of (by decide +kernel)⟩,
    ⟨reads_of (by decide +kernel), by decide⟩,
    ⟨fits_show, reads_of (by decide +kernel), reads_of (by decide +kernel), by decide⟩,
    ⟨by decide, show 191 < 192 by decide⟩, reads_of (by decide +kernel)⟩

/-- Routes of 24 elements, more than the pool holds with one more. -/
def fullPool : Tbl RouteRec :=
  (List.range 256).map fun n => (n, { routeA with elements := List.replicate 24 (.sec 1), flank := [], overlap := [], approach := [] })

theorem witness_LoadRecordTakesOneRecord_refused :
    (let s : State := { State.reset with ilk := { State.reset.ilk with routes := fullPool } }
     Reads .routes (routeBytes 9 511 routeZ) s ∧ Config.poolEntries < poolInUse (Tbl.insert s.ilk.routes 511 routeZ)) ∧
    (let l := signalLoad 0x7FFF 1
     Loading l 77#16 (loading l) ∧ l.limit < l.cursor + 2) ∧
    (let l := signalLoad 0x7FFE 1
     Loading l 77#16 (loading l) ∧ (loading l).read16 l.cursor < 8) ∧
    (let l := { signalLoad 0x7FF8 1 with limit := 0x7FFF }
     Loading l 77#16 (loading l) ∧ l.limit < l.cursor + (loading l).read16 l.cursor) ∧
    (let l := { signalLoad 0x7FF8 1 with kind := .lamps }
     Loading l 77#16 (loading l) ∧
      countedLength l.kind (fun k => (loading l).read8 (l.cursor + k)) ≠ some ((loading l).read16 l.cursor)) ∧
    (let l := signalLoad 0x7FFF 1
     let m := { l with kind := .lamps, slot := 6 }
     let s : State := { loading l with exch := { (loading l).exch with loads := [m] } }
     Loading l 77#16 s ∧ s.exch.loads.head? = some m ∧ m.count ≠ 0) :=
  ⟨⟨reads_of (by decide +kernel), by decide +kernel⟩, ⟨loading_of (by decide +kernel), by decide⟩,
    ⟨loading_of (by decide +kernel), by decide +kernel⟩, ⟨loading_of (by decide +kernel), by decide +kernel⟩,
    ⟨loading_of (by decide +kernel), by decide +kernel⟩,
    ⟨atRest_of (by decide +kernel), sound_of (by decide +kernel), rfl, by decide, by decide, by decide,
      fun m h => by cases h; decide⟩, rfl, by decide⟩

theorem witness_ParametersAreClamped_refused :
    (Ready .configuring State.reset ∧ AtRest State.reset) ∧
    ((3#32 : Word) ≠ 1#32 ∧ (3#32 : Word) ≠ 2#32) ∧ (0x3401#32 : Word).toNat % 2 = 1 ∧ (0x33FE#32 : Word).toNat < 0x3400 ∧
    0x7FFF < (0x8000#32 : Word).toNat ∧ 64 < (65#32 : Word).toNat ∧ 0x8000 < (0x7FFE#32 : Word).toNat + 4 * (1#32 : Word).toNat ∧
    ((0x7FFE#32 : Word).toNat % 2 = 0 ∧ 0x3400 ≤ (0x7FFE#32 : Word).toNat ∧ (0x7FFE#32 : Word).toNat ≤ 0x7FFF) :=
  ⟨reset_ready, by decide⟩

/-- The reset state with two parameters at the top of the data area. -/
def parameters (v second w : Nat) : State :=
  let s := parameter second w
  { s with exch := { s.exch with
    mem := Mem.write16 (Mem.write16 s.exch.mem 0x7FF8 3#16) 0x7FFA (BitVec.ofNat 16 v) } }

theorem witness_ParametersAreClamped_two :
    ∀ x ∈ [(19, 5, 2001), (200, 5, 100), (0, 8, 1), (21, 0, 0)],
      let s := parameters x.1 x.2.1 x.2.2
      (readyB .configuring s && atRestB s) = true ∧ s.read16 0x7FF8 = 3 ∧ s.read16 (0x7FF8 + 2) = x.1 ∧
      s.read16 (0x7FF8 + 4) = x.2.1 ∧ s.read16 (0x7FF8 + 6) = x.2.2 := by decide +kernel

theorem witness_ParametersAreClamped_modes :
    ∀ x ∈ [(7, 1), (7, 3), (18, 0), (18, 2)],
      (readyB .configuring (parameter x.1 x.2) && atRestB (parameter x.1 x.2)) = true ∧
        (parameter x.1 x.2).read16 0x7FFC = x.1 ∧ (parameter x.1 x.2).read16 0x7FFE = x.2 := by decide +kernel

/-! ### The checks of START -/

theorem passes_of {α : Type} {t : Tbl α} {bad : Nat → α → Bool} {p : Nat × α → Prop}
    (hp : ∀ x, bad x.1 x.2 = true ↔ p x) (h : (t.all fun x => !bad x.1 x.2) = true) : ∀ x ∈ t, ¬ p x := fun x hx => by
  simpa [← hp] using List.all_eq_true.1 h x hx

/-- The last entry of a table is the first that fails. -/
theorem fails_of {α : Type} {t : Tbl α} {x : Nat × α} {bad : Nat → α → Bool} {p : Nat × α → Prop}
    (hp : ∀ x, bad x.1 x.2 = true ↔ p x) (h : (t.all fun x => !bad x.1 x.2) = true) (hx : bad x.1 x.2 = true) :
    FirstWith p (t ++ [x]) x := ⟨t, [], rfl, (hp x).1 hx, passes_of hp h⟩

/-- A layout that passes every check: sections 1 and 5, point 3 in 1, signals 1 and 2, route 9. -/
def layout : State :=
  { State.reset with
    occ := { State.reset.occ with recs := [(1, byCurrent 3 []), (5, byCurrent 4 []), (6, byCurrent 5 [])] }
    pts := { State.reset.pts with recs := [(3, pointA)] }
    asp := { State.reset.asp with
      recs := [(1, { guard with approach := some 6 }), (2, { guard with approach := none, protect := some 5 })] }
    ilk := { State.reset.ilk with routes := [(9, routeA)] } }

/-- Sections, heads, neighbours, points, signals and routes of a state pass, by the checks in their order up to the k-th. -/
def passed (k : Nat) (s : State) : Bool :=
  ([s.occ.recs.all fun x => !sectionFails s x.1 x.2, s.occ.heads.all fun x => !headFails s x.1 x.2,
    s.occ.recs.all fun x => !neighboursFail s x.1 x.2, s.pts.recs.all fun x => !pointFails s x.1 x.2,
    s.asp.recs.all fun x => !signalFails s x.1 x.2].take k).all id

theorem witness_StartBeginsRunning_checks :
    (∀ x ∈ layout.occ.recs, ¬ badSection layout x) ∧ (∀ x ∈ layout.occ.heads, ¬ badHead layout x) ∧
    (∀ x ∈ layout.occ.recs, ¬ badNeighbours layout x) ∧ (∀ x ∈ layout.pts.recs, ¬ badPoint layout x) ∧
    (∀ x ∈ layout.asp.recs, ¬ badSignal layout x) ∧ layout.tt.deck = none ∧ (∀ x ∈ layout.ilk.routes, ¬ badRoute layout x) :=
  ⟨passes_of (sectionFails_iff _) (by decide), passes_of (headFails_iff _) (by decide),
    passes_of (neighboursFail_iff _) (by decide), passes_of (pointFails_iff _) (by decide),
    passes_of (signalFails_iff _) (by decide), rfl, passes_of (routeFails_iff _) (by decide)⟩

theorem witness_StartBeginsRunning_failing :
    (let s : State := { layout with occ := { layout.occ with recs := [(1, byCurrent 3 [])] ++ [(2, byAxles)] } }
     FirstWith (badSection s) s.occ.recs (2, byAxles)) ∧
    (let h : Head := { headAt .idle with aSide := none, bSide := some 1 }
     let s : State := { layout with occ := { layout.occ with heads := [] ++ [(31, h)] } }
     passed 1 s = true ∧ FirstWith (badHead s) s.occ.heads (31, h)) ∧
    (let s : State := { layout with occ := { layout.occ with
        recs := [(1, byCurrent 3 [])] ++ [(5, byCurrent 4 [{ sec := 1, cond := some (127, .normal) }])] } }
     passed 2 s = true ∧ FirstWith (badNeighbours s) s.occ.recs (5, byCurrent 4 [{ sec := 1, cond := some (127, .normal) }])) ∧
    (let s : State := { layout with pts := { layout.pts with recs := [(3, pointA)] ++ [(4, { pointA with feedback := .pair 22 21 })] } }
     passed 3 s = true ∧ FirstWith (badPoint s) s.pts.recs (4, { pointA with feedback := .pair 22 21 })) ∧
    (let s : State := { layout with asp := { layout.asp with recs := layout.asp.recs ++ [(191, { distantZ with home := some 191 })] } }
     passed 4 s = true ∧ FirstWith (badSignal s) s.asp.recs (191, { distantZ with home := some 191 })) ∧
    (let s : State := { layout with tt := { layout.tt with deck := some deckA } }
     passed 5 s = true ∧ s.tt.deck = some deckA ∧ (Tbl.find s.occ.recs deckA.sec = none ∨ s.tt.roads = [])) ∧
    (let q : Road := { position := 0, sec := 255, reversed := false }
     let s : State := { layout with tt := { layout.tt with deck := some deckA, roads := [] ++ [(35, q)] } }
     passed 5 s = true ∧ s.tt.deck = some deckA ∧ ¬ (Tbl.find s.occ.recs deckA.sec = none ∨ s.tt.roads = []) ∧
      FirstWith (fun x : Nat × Road => Tbl.find s.occ.recs x.2.sec = none) s.tt.roads (35, q)) ∧
    (let s : State := { layout with ilk := { layout.ilk with routes := [(9, routeA)] ++ [(511, { routeA with exit := some 3 })] } }
     passed 5 s = true ∧ s.tt.deck = none ∧ FirstWith (badRoute s) s.ilk.routes (511, { routeA with exit := some 3 })) :=
  ⟨fails_of (sectionFails_iff _) (by decide) (by decide), ⟨by decide, fails_of (headFails_iff _) (by decide) (by decide)⟩,
    ⟨by decide, fails_of (neighboursFail_iff _) (by decide) (by decide)⟩,
    ⟨by decide, fails_of (pointFails_iff _) (by decide) (by decide)⟩,
    ⟨by decide, fails_of (signalFails_iff _) (by decide) (by decide)⟩, by decide,
    ⟨by decide, rfl, by decide, firstWith_of [] [] (by decide) (by simp)⟩,
    ⟨by decide, rfl, fails_of (routeFails_iff _) (by decide) (by decide)⟩⟩

/-! ## Well-formedness smoke -/

/-- The codes of CONTROL are rows of their own (12.1). -/
theorem test_wf_refuses_control_codes :
    (Instr.registerWriteIgnored (.writeControl 101#16)).wf = false ∧
    (Instr.registerWriteIgnored (.writeControl 102#16)).wf = false := by decide

theorem test_wf_takes_other_control_values :
    (Instr.registerWriteIgnored (.writeControl 0#16)).wf = true ∧
    (Instr.registerWriteIgnored (.writeControl 103#16)).wf = true := by decide

theorem test_ill_formed_faults : exec (.registerWriteIgnored (.writeControl 101#16)) State.reset = .fault .illFormed := rfl

theorem test_no_word_spells_a_command : decodeTableWord 16 0x1234 = none ∧ State.reset.withFetchWord 16 0 = State.reset :=
  ⟨rfl, rfl⟩

theorem test_core_starts_at_reset : Sys2Proof.core.reset = State.reset := rfl

/-! ## Small steps, with what the spec gives for them -/

/-- The next state of a command, if it answers one. -/
def after (c : Instr) (s : State) : Option State :=
  match exec c s with
  | .next t => some t
  | .fault _ => none
  | .refused _ => none

/-- R107, R120: a place of the output image without a signal shows DANGER. -/
theorem test_unloaded_signal_shows_danger : outputAspect State.reset 191 = .danger := by decide

/-- R198: initial reset of a part that is reset leaves it so. -/
theorem test_initial_reset : after (.initialReset true) State.reset = some State.reset := by decide +kernel

/-- 12.1, R197: CONFIGURING is 2, REPORTS is bit 4. -/
theorem test_state_read : (after .stateRead State.reset).map (·.exch.bus) = some 18#16 := by decide +kernel

/-- R186: the half-word after the latched one comes from the latch. -/
theorem test_latch_pairs :
    ((after (.halfWordLatchRead 0) State.reset).bind (after (.hostMemoryAccess (.write 1 0xBEEF#16)))).map (·.exch.paired)
      = some false := by decide +kernel

/-- R199: the lower byte lies at the lower offset. -/
theorem test_write_bytes :
    (after (.hostMemoryAccess (.write 16383 0xBEEF#16)) State.reset).map (fun t => (t.read8 0x7FFE, t.read8 0x7FFF))
      = some (0xEF, 0xBE) := by decide +kernel

/-- R188, R197: an enable set of 0 in the header takes the line away at the next examination. -/
theorem test_nudge_reads_enable :
    ((after (.hostMemoryAccess (.write 9 0#16)) State.reset).bind (after (.nudge 0#16))).map (·.exch.attn) = some false := by
  decide +kernel

/-- R184: FULL_RESET with the PROFILE pin at CLUB writes 1 into the header. -/
theorem test_full_reset_profile : (after (.fullReset false) running).map (·.read8 0x1F) = some 1 := by decide +kernel

/-- R189, R190: START in RUNNING is answered WRONG_STATE (2) with the run state (3). -/
theorem test_start_wrong_state :
    (after (.start 7#16) running).map (fun t => (t.read16 (slotAt 0), t.read16 (slotAt 0 + 4), t.read16 (slotAt 0 + 6),
      t.read32 (slotAt 0 + 0x18))) = some (3, 7, Result.wrongState.code, 3) := by decide +kernel

/-- R4, R11: the sample that completes the run makes section 1 OCCUPIED. -/
theorem test_detector_occupies : (after (.detectorSample 3 true) track).map (secState · 1) = some .occupied := by decide +kernel

/-- R7, R9: the passage A to B takes one axle from section 2 to section 5. -/
theorem test_passage_counts :
    (after (.axleHeadSample 0 false false) track).map (fun t =>
      ((Tbl.find t.occ.secs 2).map Occupancy.count, (Tbl.find t.occ.secs 5).map Occupancy.count)) = some (some 2, some 1) := by
  decide +kernel

/-- R14: the discrepancy flag. -/
theorem test_discrepancy :
    (after (.discrepancyTimerExpiry 8) track).map (fun t => (Tbl.find t.occ.secs 8).map Occupancy.discFlag)
      = some (some true) := by decide +kernel

/-- R16: DISABLE_SECTION. -/
theorem test_disable : (after (.disableSection 7#16 6#32) track).map (secState · 6) = some .disabled := by decide +kernel

/-- R34: the lost-hold time over. -/
theorem test_lost_hold : (after (.lostHoldExpiry 5) lost).map (fun t => (tagRec t 5).state) = some .free := by decide +kernel

/-- R50, R66: a route whose points lie right is SET at entry 0. -/
theorem test_route_is_set :
    (after (.setRoute 7#16 9#32 2#32 0#32) routes).map (fun t => (Tbl.find t.ilk.active 0).map Active.state)
      = some (some .set) := by decide +kernel

/-- R109: a MAIN route from a three-aspect signal whose exit signal is at DANGER shows CAUTION. -/
theorem test_route_aspect :
    (after (.setRoute 7#16 9#32 2#32 0#32) routes).map (fun t => (Tbl.find t.asp.state 1).map SignalState.aspect)
      = some (some .caution) := by decide +kernel

/-- R81, R65: cancelled with no approach time, the route is gone and its sections are unlocked. -/
theorem test_cancel_releases :
    (after (.cancelRoute 7#16 9#32) (withActive (active .set))).map (fun t => (t.ilk.active.length, t.ilk.locks)) = some (0, []) := by
  decide +kernel

/-- R97: the pulse starts with the unit READY. -/
theorem test_move_pulses :
    (after (.movePoint 7#16 3#32 2#32) (pointed .normal .ready)).map (fun t => (t.pts.coil, t.pts.unit))
      = some (some (3, .reverse), .pulsing) := by decide +kernel

/-- R96: the unit recharges after the pulse. -/
theorem test_pulse_recharges :
    (after .pulseTimerExpiry (ordered (order .pulse false) pointA true)).map (·.pts.unit) = some .recharging := by decide +kernel

/-- R98: a second miss fails the point. -/
theorem test_second_miss_fails :
    (after (.windowTimerExpiry 3) (ordered (order .window true) pointA false)).map (detLie · 3) = some .failed := by
  decide +kernel

/-- R115: ALL_STOP takes track power away. -/
theorem test_all_stop_power : (after (.allStop 7#16) track).map (·.asp.power) = some false := by decide +kernel

/-- R115, R118: RESUME gives it back. -/
theorem test_resume_power : (after (.resume 7#16) (stopPin Filter.init .allStop)).map (·.asp.power) = some true := by decide +kernel

/-- R142: an anticlockwise step from 0 comes to C − 1. -/
theorem test_step_wraps :
    (after (.stepBoundary false) (deckIn .moving fun t => { t with legCw := false, pos := some 0 })).map (·.tt.pos)
      = some (some 399) := by decide +kernel

/-- R131: no index within the search limit. -/
theorem test_homing_limit :
    (after (.homingSearchLimit false) (deckIn .homing fun t => { t with pos := none, search := 499 })).map (·.tt.fault)
      = some (some .indexNotFound) := by decide +kernel

/-- R79: the train that reaches the overlap after its timer expired marks nothing. -/
theorem test_released_overlap_unmarked :
    (after (.detectorSample 3 true) ranOn).map (fun t => (secState t 1, (Tbl.find t.ilk.active 0).map (·.passed)))
      = some (.occupied, some [false, false]) := by decide +kernel

/-- R129: a turn of a bolted deck draws the bolt first. -/
theorem test_turn_unbolts :
    (after (.turnTable 7#16 2#32 0#32) (deck id)).map (fun t => (t.tt.state, t.tt.boltOut)) = some (.unbolting, true) := by
  decide +kernel

/-- R130, R189: HOME_TABLE of a moving deck is TABLE_BUSY, and no word is given: both are 0. -/
theorem test_home_busy_words :
    (after (.homeTable 7#16 2#32 0#32) (deckIn .moving id)).map (fun t => (t.read16 (slotAt 0 + 6),
      t.read32 (slotAt 0 + 0x18), t.read32 (slotAt 0 + 0x1C))) = some (Result.tableBusy.code, 0, 0) := by decide +kernel

/-- R161, R162: a show taken at once runs its first step. -/
theorem test_show_runs :
    (after (.runShow 7#16 1#32) (shows none)).map (fun t => t.vis.runner.map Runner.stepTimer) = some (some (some 3000)) := by
  decide +kernel

/-- R157, R163: a CANCEL_ROUTE step on a route that is not loaded aborts the show; on a loaded one it ends with success. -/
theorem test_cancel_step :
    [8, 9].map (fun m => (after (.runShow 7#16 1#32) (cancelling m 0)).map (·.vis.last))
      = [some (some (1, .stepRefused)), some (some (1, .completed))] := by decide +kernel

/-- R180: the panel dims. -/
theorem test_panel_dims :
    (after .idleTimerExpiry { running with disp := { running.disp with idleTimer := some 1 } }).map (·.read8 0x20)
      = some 2 := by decide +kernel

/-- R191: a record beyond the data area is refused. -/
theorem test_load_bounds :
    (after (.loadSections 7#16 0x7FFE#32 3#32 1#32) State.reset).map (fun t => t.read16 (slotAt 0 + 6))
      = some Result.badArgument.code := by decide +kernel

/-- R191: the SIGNAL record at the top of the data area is taken. -/
theorem test_load_signal :
    (after .loadRecord (loading (signalLoad 0x7FF8 1))).map (fun t => t.asp.recs.map Prod.fst) = some [191] := by decide +kernel

/-- R192: a parameter above its range is clamped. -/
theorem test_parameter_clamps :
    (after (.setParameters 7#16 1#32 0x7FFC#32 1#32) (parameter 2 601)).map (·.ilk.stackTimeout) = some 600 := by decide +kernel

/-- R140: a layout reset writes the turntable mirror whole, over what the host wrote, with a deck and without. -/
theorem test_table_mirror_whole :
    (after (.layoutReset 7#16) ((deck id).write32 (Config.tableMirror + 60) 5)).map (·.read32 (Config.tableMirror + 60)) = some 0 ∧
    (after (.layoutReset 7#16) (track.write32 Config.tableMirror 5)).map (·.read32 Config.tableMirror) = some 0 := by
  decide +kernel

/-- R194: layout reset. -/
theorem test_layout_reset : (after (.layoutReset 7#16) track).map (·.read16 0x16) = some 2 := by decide +kernel

/-- R79: the overlap section 84 that the timer has released is not walked over again when the berth 83 is left. -/
theorem test_released_overlap :
    let r : RouteRec := { cls := .main, entry := 40, exit := some 41, visitor := false, approachTime := 60, overlapTime := 30,
                          table := none, elements := [.sec 81, .sec 82, .sec 83], flank := [], overlap := [84], approach := [80] }
    unreleased r { acceptedEntry 22 r .automation (.slot 6) [] with
      state := .running, releasePos := 2, overlapState := .released, overlapPos := 1 } = [(83, 2)] := by decide

end Sys2Proof.Tests
end

