-- ==== Sys2Proof/Proofs/MotionArithmetic.lean ====
section
/-! Turntable motion arithmetic (chapter 8): what single steps, directions and legs do to a deck position, the bands of the
prescaler, and from them O51. -/

namespace Sys2Proof.MotionArithmetic

open Sys2Proof.Machine

/-! ### Positions and steps (R142) -/

theorem mod_of_lt_twice {c x : Nat} (hx : x < 2 * c) : x % c = if x < c then x else x - c := by
  split
  case isTrue h => exact Nat.mod_eq_of_lt h
  case isFalse h => rw [Nat.mod_eq_sub_mod (by omega), Nat.mod_eq_of_lt (by omega)]

theorem cwSteps_of_lt {c a b : Nat} (ha : a < c) (hb : b < c) :
    cwSteps c a b = if b ≤ a then a - b else a + c - b := by
  rw [cwSteps, mod_of_lt_twice (by omega)]
  split <;> split <;> omega

theorem cwSteps_lt {c : Nat} (hc : 0 < c) (a b : Nat) : cwSteps c a b < c := Nat.mod_lt _ hc

@[simp] theorem cwSteps_self (c p : Nat) : cwSteps c p p = 0 := by simp [cwSteps]

theorem stepFrom_lt {c : Nat} (hc : 0 < c) (cw : Bool) (p : Nat) : stepFrom c cw p < c := by
  cases cw <;> exact Nat.mod_lt _ hc

theorem iterate_stepFrom_lt {c p : Nat} (hp : p < c) (cw : Bool) (n : Nat) : (stepFrom c cw)^[n] p < c := by
  cases n with
  | zero => exact hp
  | succ n => rw [Function.iterate_succ_apply']; exact stepFrom_lt (by omega) cw _

theorem iterate_stepFrom_cw {c p : Nat} (hp : p < c) (n : Nat) : (stepFrom c true)^[n] p = (p + n) % c := by
  induction n with
  | zero => exact (Nat.mod_eq_of_lt hp).symm
  | succ n ih => rw [Function.iterate_succ_apply', ih]; simp [stepFrom, Nat.add_assoc]

theorem iterate_stepFrom_acw {c p n : Nat} (hp : p < c) (hn : n ≤ c) :
    (stepFrom c false)^[n] p = (p + c - n) % c := by
  induction n with
  | zero => simp [Nat.mod_eq_of_lt hp]
  | succ n ih =>
    rw [Function.iterate_succ_apply', ih (by omega)]
    show ((p + c - n) % c + c - 1) % c = (p + c - (n + 1)) % c
    have hlt : (p + c - n) % c < c := Nat.mod_lt _ (by omega)
    rw [mod_of_lt_twice (by omega), mod_of_lt_twice (by omega), mod_of_lt_twice (by omega)]
    split <;> split <;> split <;> omega

theorem stepFrom_cw_acw {c p : Nat} (hp : p < c) : stepFrom c true (stepFrom c false p) = p := by
  have hacw : stepFrom c false p = if p + c - 1 < c then p + c - 1 else p + c - 1 - c :=
    mod_of_lt_twice (by omega)
  show (stepFrom c false p + 1) % c = p
  rw [hacw, mod_of_lt_twice (by split <;> omega)]
  split <;> split <;> omega

/-- The return leg of R146 retraces the overshoot. -/
theorem iterate_stepFrom_cw_acw {c p : Nat} (hp : p < c) (n : Nat) :
    (stepFrom c true)^[n] ((stepFrom c false)^[n] p) = p := by
  induction n with
  | zero => rfl
  | succ n ih =>
    rw [Function.iterate_succ_apply, Function.iterate_succ_apply',
      stepFrom_cw_acw (iterate_stepFrom_lt hp false n), ih]

/-- A clockwise sweep of as many steps as there are from p to t ends at t. -/
theorem iterate_cwSteps {c p t : Nat} (hp : p < c) (ht : t < c) : (stepFrom c true)^[cwSteps c t p] p = t := by
  rw [iterate_stepFrom_cw hp, cwSteps_of_lt ht hp]
  split <;> (rw [mod_of_lt_twice (by omega)]; split <;> omega)

/-- The anticlockwise sweep of the other C − d steps ends at t too. -/
theorem iterate_sub_cwSteps {c p t : Nat} (hp : p < c) (ht : t < c) :
    (stepFrom c false)^[c - cwSteps c t p] p = t := by
  rw [iterate_stepFrom_acw hp (Nat.sub_le ..), cwSteps_of_lt ht hp]
  split <;> (rw [mod_of_lt_twice (by omega)]; split <;> omega)

/-- A clockwise sweep comes to m only after the steps from p to m, or whole turns beyond. -/
theorem iterate_cw_ne {c p m j : Nat} (hp : p < c) (hm : m < c) (hj : j < c) (h : j ≠ cwSteps c m p) :
    (stepFrom c true)^[j] p ≠ m := by
  rw [cwSteps_of_lt hm hp] at h
  rw [iterate_stepFrom_cw hp, mod_of_lt_twice (by omega)]
  split at h <;> split <;> omega

/-- An anticlockwise sweep of at least one step comes to m not before the steps from m to p, a whole turn where m is p. -/
theorem iterate_acw_ne {c p m j : Nat} (hp : p < c) (hm : m < c) (hj : 1 ≤ j) (h : j < c - cwSteps c m p) :
    (stepFrom c false)^[j] p ≠ m := by
  rw [cwSteps_of_lt hm hp] at h
  rw [iterate_stepFrom_acw hp (by omega), mod_of_lt_twice (by omega)]
  split at h <;> split <;> omega

/-! ### Directions and legs (R144 to R146) -/

theorem direction_continuous {d : DeckRec} {p t : Nat} (h : d.stop = none) :
    direction d p t = if cwSteps d.c t p ≤ d.c / 2 then (true, cwSteps d.c t p) else (false, d.c - cwSteps d.c t p) := by
  simp [direction, h]

theorem direction_of_cwSteps_zero {d : DeckRec} {p t : Nat} (h : cwSteps d.c t p = 0) : direction d p t = (true, 0) := by
  unfold direction
  cases d.stop <;> simp [h]

theorem direction_at_stop {d : DeckRec} {p t m : Nat} (h : d.stop = some m) (hm : m = p ∨ m = t) :
    direction d p t = if cwSteps d.c t p ≤ d.c / 2 then (true, cwSteps d.c t p) else (false, d.c - cwSteps d.c t p) := by
  unfold direction
  simp only [h]
  rw [if_pos (by simpa [or_assoc] using Or.inr hm)]

theorem direction_off_stop {d : DeckRec} {p t m : Nat} (h : d.stop = some m) (hp : m ≠ p) (ht : m ≠ t)
    (he : cwSteps d.c t p ≠ 0) :
    direction d p t = if 1 ≤ cwSteps d.c m p ∧ cwSteps d.c m p < cwSteps d.c t p
      then (false, d.c - cwSteps d.c t p) else (true, cwSteps d.c t p) := by
  simp [direction, h, hp, ht, he]

/-- A move turns clockwise over the d steps to its target, or anticlockwise over the other C − d, with d above 0. -/
theorem direction_cases (d : DeckRec) (p t : Nat) :
    direction d p t = (true, cwSteps d.c t p) ∨
      direction d p t = (false, d.c - cwSteps d.c t p) ∧ cwSteps d.c t p ≠ 0 := by
  by_cases he : cwSteps d.c t p = 0
  · exact .inl (by rw [direction_of_cwSteps_zero he, he])
  cases hs : d.stop with
  | none => rw [direction_continuous hs]; split <;> simp [he]
  | some m =>
    by_cases hm : m = p ∨ m = t
    · rw [direction_at_stop hs hm]; split <;> simp [he]
    · rw [direction_off_stop hs (fun h => hm (.inl h)) (fun h => hm (.inr h)) he]; split <;> simp [he]

theorem legs_of_cw {d : DeckRec} {p t n : Nat} (h : direction d p t = (true, n)) : legs d p t = (true, n, 0) := by
  simp [legs, h]

theorem legs_of_acw {d : DeckRec} {p t n : Nat} (h : direction d p t = (false, n)) :
    legs d p t = (false, n + overshoot d t, overshoot d t) := by
  simp [legs, h]

theorem overshoot_continuous {d : DeckRec} (h : d.stop = none) (t : Nat) : overshoot d t = d.backlash := by
  simp [overshoot, h]

/-- The overshoot ends short of the stop mark (R146). -/
theorem overshoot_le {d : DeckRec} {m : Nat} (h : d.stop = some m) (t : Nat) :
    overshoot d t ≤ cwSteps d.c t m - 1 := by
  simp only [overshoot, h]
  split
  · omega
  · split <;> omega

theorem legs_of_cwSteps_zero {d : DeckRec} {p t : Nat} (h : cwSteps d.c t p = 0) : legs d p t = (true, 0, 0) :=
  legs_of_cw (direction_of_cwSteps_zero h)

/-- The legs of a move end at its target, and only an anticlockwise main leg has a return leg (R146). -/
theorem legs_end_at_target {d : DeckRec} {p t : Nat} (hp : p < d.c) (ht : t < d.c) :
    (stepFrom d.c true)^[(legs d p t).2.2] ((stepFrom d.c (legs d p t).1)^[(legs d p t).2.1] p) = t ∧
      ((legs d p t).1 = true → (legs d p t).2.2 = 0) := by
  obtain hcw | ⟨hacw, -⟩ := direction_cases d p t
  · rw [legs_of_cw hcw]
    exact ⟨iterate_cwSteps hp ht, fun _ => rfl⟩
  · rw [legs_of_acw hacw]
    refine ⟨?_, fun h => by cases h⟩
    show (stepFrom d.c true)^[overshoot d t] ((stepFrom d.c false)^[_ + overshoot d t] p) = t
    rw [Nat.add_comm, Function.iterate_add_apply, iterate_sub_cwSteps hp ht, iterate_stepFrom_cw_acw ht]

/-- The mark lies ahead of no clockwise leg before its last step: the steps from p to m are none or at least those to t. -/
theorem stop_beyond_of_cw {d : DeckRec} {p t m : Nat} (hs : d.stop = some m)
    (hcw : direction d p t = (true, cwSteps d.c t p)) :
    cwSteps d.c m p = 0 ∨ cwSteps d.c t p ≤ cwSteps d.c m p := by
  by_cases he : cwSteps d.c t p = 0
  · omega
  by_cases hmp : m = p
  · exact .inl (by simp [hmp])
  by_cases hmt : m = t
  · exact .inr (by rw [hmt])
  rw [direction_off_stop hs hmp hmt he] at hcw
  split at hcw
  · cases hcw
  · omega

/-- A move that turns anticlockwise has the mark at p, or on the clockwise sweep up to t. -/
theorem stop_within_of_acw {d : DeckRec} {p t m n : Nat} (hs : d.stop = some m)
    (hacw : direction d p t = (false, n)) : cwSteps d.c m p ≤ cwSteps d.c t p := by
  by_cases he : cwSteps d.c t p = 0
  · rw [direction_of_cwSteps_zero he] at hacw; cases hacw
  by_cases hmp : m = p
  · simp [hmp]
  by_cases hmt : m = t
  · rw [hmt]
  rw [direction_off_stop hs hmp hmt he] at hacw
  split at hacw
  · omega
  · cases hacw

theorem cwSteps_sub {c p t m : Nat} (hp : p < c) (ht : t < c) (hm : m < c) (h : cwSteps c m p ≤ cwSteps c t p) :
    cwSteps c t m = cwSteps c t p - cwSteps c m p := by
  rw [cwSteps_of_lt ht hp, cwSteps_of_lt hm hp] at *
  rw [cwSteps_of_lt ht hm]
  split at h <;> split at h <;> split <;> omega

/-- No main leg comes to the stop mark before its last step (R145, R146). -/
theorem main_leg_short_of_stop {d : DeckRec} {p t m : Nat} (hp : p < d.c) (ht : t < d.c) (hm : m < d.c)
    (hs : d.stop = some m) {j : Nat} (hj : 1 ≤ j) (hjn : j < (legs d p t).2.1) :
    (stepFrom d.c (legs d p t).1)^[j] p ≠ m := by
  have hlt := cwSteps_lt (by omega : 0 < d.c) t p
  obtain hcw | ⟨hacw, -⟩ := direction_cases d p t
  · rw [legs_of_cw hcw] at hjn ⊢
    have hbeyond := stop_beyond_of_cw hs hcw
    exact iterate_cw_ne hp hm (by simp at hjn; omega) (by simp at hjn; omega)
  · rw [legs_of_acw hacw] at hjn ⊢
    have hwithin := stop_within_of_acw hs hacw
    have hover := overshoot_le hs t
    rw [cwSteps_sub hp ht hm hwithin] at hover
    exact iterate_acw_ne hp hm hj (by simp at hjn; omega)

/-! ### Rates (R148, R149) -/

theorem quotient_le_iff {div v : Nat} (h : 0 < div * v) (r : Nat) :
    quotient div v ≤ r ↔ 8000000 < (2 * r + 1) * (div * v) := by
  rw [quotient, ← Nat.lt_succ_iff, Nat.div_lt_iff_lt_mul (by rw [Nat.mul_assoc]; omega)]
  have hexpand : r.succ * (2 * div * v) = (2 * r + 1) * (div * v) + div * v := by rw [Nat.succ_eq_add_one]; ring
  omega

theorem one_le_quotient {div v : Nat} (h : 0 < div * v) (hmax : div * v ≤ 8000000) : 1 ≤ quotient div v := by
  rw [quotient, Nat.one_le_div_iff (by rw [Nat.mul_assoc]; omega), Nat.mul_assoc]
  omega

/-- The prescaler by rate band. -/
def band (v : Nat) : Nat := if 62 ≤ v then 1 else if 8 ≤ v then 8 else 64

theorem band_cases (v : Nat) :
    band v = 1 ∧ 62 ≤ v ∨ band v = 8 ∧ 8 ≤ v ∧ v < 62 ∨ band v = 64 ∧ v < 8 := by
  unfold band
  split
  · omega
  · split <;> omega

theorem prescale_eq_band {v : Nat} (hv : 1 ≤ v) : prescale v = (band v, quotient (band v) v - 1) := by
  have h1 : quotient 1 v ≤ 65536 ↔ 62 ≤ v := by rw [quotient_le_iff (by omega)]; omega
  have h8 : quotient 8 v ≤ 65536 ↔ 8 ≤ v := by rw [quotient_le_iff (by omega)]; omega
  simp only [prescale, h1, h8, band]

theorem quotient_band_bounds {v : Nat} (hv : 1 ≤ v) (hmax : v ≤ 20000) :
    1 ≤ quotient (band v) v ∧ quotient (band v) v ≤ 65536 := by
  have hbounds : 0 < band v * v ∧ band v * v ≤ 8000000 ∧ 8000000 < 131073 * (band v * v) := by
    obtain ⟨hb, h⟩ | ⟨hb, h⟩ | ⟨hb, h⟩ := band_cases v <;> rw [hb] <;> omega
  obtain ⟨hpos, hle, hlt⟩ := hbounds
  exact ⟨one_le_quotient hpos hle, (quotient_le_iff hpos _).mpr hlt⟩

/-- The prescalers before the band's own leave a quotient beyond the 16 bits of the reload. -/
theorem quotient_below_band {v k : Nat} (hv : 1 ≤ v) (hk : k ∈ [1, 8, 64]) (hlt : k < band v) :
    65536 < quotient k v := by
  have hkv : k * v < 62 ∧ 0 < k := by
    have hband := band_cases v
    simp only [List.mem_cons, List.not_mem_nil, or_false] at hk
    obtain rfl | rfl | rfl := hk <;> omega
  obtain ⟨hsmall, hpos⟩ := hkv
  rw [← Nat.not_le, quotient_le_iff (Nat.mul_pos hpos hv)]
  omega

theorem beginStep_eq_band {v : Nat} (hv : 1 ≤ v) :
    beginStep v = { rate := v, div := band v, reload := quotient (band v) v - 1,
                    counter := quotient (band v) v - 1, second := false } := by
  simp only [beginStep, prescale_eq_band hv]

theorem periodTicks_beginStep {v : Nat} (hv : 1 ≤ v) (hmax : v ≤ 20000) :
    periodTicks (beginStep v) = 2 * band v * quotient (band v) v := by
  obtain ⟨hpos, -⟩ := quotient_band_bounds hv hmax
  rw [beginStep_eq_band hv, periodTicks, Nat.sub_add_cancel hpos]

/-! ### The statement -/

theorem legs_continuous {d : DeckRec} {p t : Nat} (hs : d.stop = none) (heven : d.c % 2 = 0) :
    (1 ≤ cwSteps d.c t p → cwSteps d.c t p ≤ d.c / 2 → legs d p t = (true, cwSteps d.c t p, 0)) ∧
      (d.c / 2 < cwSteps d.c t p →
        legs d p t = (false, d.c - cwSteps d.c t p + d.backlash, d.backlash) ∧ d.c - cwSteps d.c t p ≤ d.c / 2 - 1) := by
  refine ⟨fun _ hle => legs_of_cw ?_, fun hgt => ⟨?_, by omega⟩⟩
  · rw [direction_continuous hs, if_pos hle]
  · rw [← overshoot_continuous hs t]
    exact legs_of_acw (by rw [direction_continuous hs, if_neg (by omega)])

/-- Settles O51: the legs by the sweeps they make, the rates by the bands of the prescaler. -/
theorem legsAndRatesOfTheDeck : Obligations.LegsAndRatesOfTheDeck := by
  refine ⟨fun d p t _ hp ht _ _ => legs_end_at_target hp ht,
    fun d p t hp ht hs heven => ⟨legs_of_cwSteps_zero, legs_continuous hs heven⟩,
    fun d p t m hp ht hm hs _ => ⟨legs_of_cwSteps_zero, direction_off_stop hs, fun h _ => direction_at_stop hs h,
      fun j hj hjn => main_leg_short_of_stop hp ht hm hs hj hjn⟩,
    fun v hv hmax => ?_⟩
  obtain ⟨hpos, hfit⟩ := quotient_band_bounds hv hmax
  exact ⟨beginStep_eq_band hv, hpos, hfit, periodTicks_beginStep hv hmax,
    fun k hk hlt => quotient_below_band hv hk hlt⟩

end Sys2Proof.MotionArithmetic
end

/-! The half-word read latch (R186): no handling of the part touches it, only a host access does; and from that O10. -/

namespace Sys2Proof.HalfWordLatch

open Sys2Proof.Machine

/-! ### The latch as a view of the kept fields -/

/-- The upper half latched, the word that it belongs to, and whether the next access pairs with it (R186). -/
structure Latch where
  val : Half
  off : Nat
  paired : Bool

/-- The latch among the fields that the end of a handling leaves alone. -/
def latch (k : Kept) : Latch := ⟨k.latchVal, k.latchOff, k.paired⟩

theorem latch_eq_iff {s t : State} :
    latch (kept t) = latch (kept s) ↔ t.exch.latchVal = s.exch.latchVal ∧ t.exch.latchOff = s.exch.latchOff ∧
      t.exch.paired = s.exch.paired := by
  simp only [latch, kept, Latch.mk.injEq]

@[simp] theorem latch_runState (k : Kept) (r : RunState) : latch { k with runState := r } = latch k := rfl

@[simp] theorem latch_layoutStop (k : Kept) (c : RunCondition) (w : Option StopCause) (p : Bool) :
    latch { k with cond := c, cause := w, power := p } = latch k := rfl

/-- A change of any other block, in the form that `{ s with … }` takes. -/
@[simp] theorem latch_sameExch (s : State) (occ : OccUnit) (tags : TagUnit) (ilk : Interlocking) (pts : PointUnit)
    (asp : AspectUnit) (tt : Turntable) (vis : VisitorUnit) (disp : Display) (clock : Nat) (free : Nat) (work : Work)
    (pending : List Instr) :
    latch (kept ⟨occ, tags, ilk, pts, asp, tt, vis, disp, s.exch, clock, free, work, pending⟩) = latch (kept s) := rfl

theorem latch_of_still {s t : State} (h : (kept t).still = (kept s).still) : latch (kept t) = latch (kept s) := by
  have g := congrArg latch h; exact g

theorem latch_of_body {s t : State} (h : body t = body s) : latch (kept t) = latch (kept s) :=
  latch_eq_iff.2 ⟨latchVal_of_body h, latchOff_of_body h, paired_of_body h⟩

theorem latch_eachDo (l : List Nat) (f : Nat → State → State) (s : State)
    (h : ∀ n t, latch (kept (f n t)) = latch (kept t)) : latch (kept (eachDo l f s)) = latch (kept s) := by
  unfold eachDo
  induction l generalizing s with
  | nil => rfl
  | cons n l ih => rw [List.foldl_cons, ih, h]

/-! ### Shared operations -/

@[simp] theorem latch_setVisitors (f : VisitorUnit → VisitorUnit) (s : State) :
    latch (kept (setVisitors f s)) = latch (kept s) := rfl

@[simp] theorem latch_setHead (k : Nat) (h : Head) (s : State) : latch (kept (setHead k h s)) = latch (kept s) := rfl

@[simp] theorem latch_setLoads (r : Option Load) (l : List Load) (s : State) :
    latch (kept (setLoads r l s)) = latch (kept s) := rfl

@[simp] theorem latch_setDeck (f : Turntable → Turntable) (s : State) : latch (kept (setDeck f s)) = latch (kept s) := by
  simp [setDeck]

@[simp] theorem latch_mirrorVisitor (s : State) : latch (kept (mirrorVisitor s)) = latch (kept s) :=
  latch_of_body (body_mirrorVisitor s)

@[simp] theorem latch_mirrorLamps (n : Nat) (s : State) : latch (kept (mirrorLamps n s)) = latch (kept s) :=
  latch_of_body (body_mirrorLamps n s)

@[simp] theorem latch_enterAllStop (c : StopCause) (s : State) : latch (kept (enterAllStop c s)) = latch (kept s) :=
  latch_of_still (still_enterAllStop c s)

@[simp] theorem latch_setTag (t : Nat) (v : Tag) (s : State) : latch (kept (setTag t v s)) = latch (kept s) :=
  latch_of_still (still_setTag t v s)

@[simp] theorem latch_arrive (n : Nat) (s : State) : latch (kept (arrive n s).1) = latch (kept s) :=
  latch_of_still (still_arrive n s)

@[simp] theorem latch_sectionChanged (n : Nat) (old : SectionState) (s : State) :
    latch (kept (sectionChanged n old s)) = latch (kept s) :=
  latch_of_still (still_sectionChanged n old s)

@[simp] theorem latch_updateSection (n : Nat) (f : Occupancy → Occupancy) (s : State) :
    latch (kept (updateSection n f s)) = latch (kept s) := by
  unfold updateSection; split
  · dsimp only; split <;> simp
  · rfl

/-! ### Track requests (R16 to R18, R36) -/

@[simp] theorem latch_headNormal (k : Nat) (s : State) : latch (kept (headNormal k s)) = latch (kept s) := by
  unfold headNormal; split
  · rfl
  · split <;> simp

@[simp] theorem latch_disableSection (k n : Nat) (s : State) : latch (kept (disableSection k n s)) = latch (kept s) := by
  unfold disableSection; split
  · simp
  · split <;> simp

@[simp] theorem latch_enableSection (k n : Nat) (s : State) : latch (kept (enableSection k n s)) = latch (kept s) := by
  unfold enableSection; split <;> simp

@[simp] theorem latch_resetSection (k n : Nat) (s : State) : latch (kept (resetSection k n s)) = latch (kept s) := by
  unfold resetSection; repeat' split
  all_goals simp [latch_eachDo]

@[simp] theorem latch_labelTag (k t l : Nat) (s : State) : latch (kept (labelTag k t l s)) = latch (kept s) := by
  unfold labelTag; split
  · simp
  · dsimp only; split <;> simp

/-! ### Layout stop and visitor requests (R116, R117, R169) -/

@[simp] theorem latch_allStopRequest (n : Nat) (s : State) : latch (kept (allStopRequest n s)) = latch (kept s) := by
  simp [allStopRequest]

@[simp] theorem latch_resumeRequest (n : Nat) (s : State) : latch (kept (resumeRequest n s)) = latch (kept s) := by
  unfold resumeRequest; split
  · simp
  · split <;> simp

@[simp] theorem latch_suspendVisitors (n : Nat) (s : State) : latch (kept (suspendVisitors n s)) = latch (kept s) := by
  unfold suspendVisitors; split <;> simp

@[simp] theorem latch_resumeVisitors (n : Nat) (s : State) : latch (kept (resumeVisitors n s)) = latch (kept s) := by
  simp [resumeVisitors]

/-! ### Loads and parameters (R191, R192) -/

@[simp] theorem latch_beginLoads (l : List Load) (s : State) : latch (kept (beginLoads l s)) = latch (kept s) := by
  induction l generalizing s with
  | nil => rfl
  | cons x l ih => unfold beginLoads; split <;> simp [ih]

@[simp] theorem latch_loadRequest (k : LoadKind) (n o l c : Nat) (s : State) :
    latch (kept (loadRequest k n o l c s)) = latch (kept s) := by
  unfold loadRequest; split
  · simp
  · dsimp only; split <;> simp

theorem latch_setTrack {c v : Nat} {s : State} {x : State × Bool} (h : setTrack c v s = some x) :
    latch (kept x.1) = latch (kept s) := by
  unfold setTrack at h
  split at h <;> cases h <;> rfl

theorem latch_setVisitorParameter {c v : Nat} {s : State} {x : State × Bool} (h : setVisitorParameter c v s = some x) :
    latch (kept x.1) = latch (kept s) := by
  unfold setVisitorParameter at h
  split at h <;> cases h <;> rfl

theorem latch_setParameter {g : Group} {c v : Nat} {s : State} {x : State × Bool} (h : setParameter g c v s = some x) :
    latch (kept x.1) = latch (kept s) := by
  cases g with
  | track => exact latch_setTrack h
  | visitor => exact latch_setVisitorParameter h

@[simp] theorem latch_applyEntries (g : Group) (n l a d c : Nat) (s : State) :
    latch (kept (applyEntries g n l a d c s)) = latch (kept s) := by
  induction l generalizing a d c s with
  | zero => simp [applyEntries]
  | succ l ih =>
    unfold applyEntries; split
    · simp
    · rename_i heq; rw [ih]; exact latch_setParameter heq

@[simp] theorem latch_setParameters (n g o c : Nat) (s : State) :
    latch (kept (setParameters n g o c s)) = latch (kept s) := by
  unfold setParameters; repeat' split
  all_goals simp

/-! ### START (R193) -/

@[simp] theorem latch_startSections (s : State) : latch (kept (startSections s)) = latch (kept s) := by
  simp [startSections, latch_eachDo]

@[simp] theorem latch_mirrorTags (s : State) : latch (kept (mirrorTags s)) = latch (kept s) := by
  simp [mirrorTags, latch_eachDo]

@[simp] theorem latch_startTags (s : State) : latch (kept (startTags s)) = latch (kept s) := by
  simp [startTags, latch_eachDo]

@[simp] theorem latch_freshPoint (p : Nat) (s : State) : latch (kept (freshPoint p s)) = latch (kept s) := by
  unfold freshPoint; split <;> simp

@[simp] theorem latch_startPoints (s : State) : latch (kept (startPoints s)) = latch (kept s) := by
  simp [startPoints, latch_eachDo]

@[simp] theorem latch_mirrorActives (s : State) : latch (kept (mirrorActives s)) = latch (kept s) := by
  simp [mirrorActives, latch_eachDo]

@[simp] theorem latch_startRoutes (s : State) : latch (kept (startRoutes s)) = latch (kept s) := by
  simp [startRoutes]

@[simp] theorem latch_restSignal (x : Nat) (s : State) : latch (kept (restSignal x s)) = latch (kept s) := by
  unfold restSignal; split <;> simp

@[simp] theorem latch_zeroOverruns (x : Nat) (s : State) : latch (kept (zeroOverruns x s)) = latch (kept s) := rfl

@[simp] theorem latch_startSignals (s : State) : latch (kept (startSignals s)) = latch (kept s) := by
  unfold startSignals; dsimp only
  split <;> simp [latch_eachDo _ _ _ latch_restSignal, latch_eachDo _ _ _ latch_zeroOverruns]

@[simp] theorem latch_startTable (s : State) : latch (kept (startTable s)) = latch (kept s) := by
  unfold startTable; dsimp only; split <;> simp

@[simp] theorem latch_startPanel (s : State) : latch (kept (startPanel s)) = latch (kept s) := by
  simp [startPanel]

@[simp] theorem latch_startLayout (s : State) : latch (kept (startLayout s)) = latch (kept s) := by
  simp [startLayout]

@[simp] theorem latch_startRequest (n : Nat) (s : State) : latch (kept (startRequest n s)) = latch (kept s) := by
  unfold startRequest; split
  · simp
  · split <;> simp

/-! ### Layout reset (R194) -/

@[simp] theorem latch_resetSections (s : State) : latch (kept (resetSections s)) = latch (kept s) := rfl

@[simp] theorem latch_resetTags (s : State) : latch (kept (resetTags s)) = latch (kept s) := by simp [resetTags]

@[simp] theorem latch_resetRoutes (s : State) : latch (kept (resetRoutes s)) = latch (kept s) := by simp [resetRoutes]

@[simp] theorem latch_unfailPoint (l : List Nat) (p : Nat) (s : State) :
    latch (kept (unfailPoint l p s)) = latch (kept s) := rfl

@[simp] theorem latch_resetPoints (s : State) : latch (kept (resetPoints s)) = latch (kept s) := by
  unfold resetPoints; dsimp only
  rw [latch_eachDo _ _ _ latch_freshPoint, latch_eachDo _ _ _ (latch_unfailPoint _), kept_setOrders, latch_sameExch]
  split <;> simp

@[simp] theorem latch_resetSignals (s : State) : latch (kept (resetSignals s)) = latch (kept s) := by
  simp [resetSignals, latch_eachDo]

@[simp] theorem latch_resetTable (s : State) : latch (kept (resetTable s)) = latch (kept s) := by
  unfold resetTable; split <;> simp

@[simp] theorem latch_resetVisitors (s : State) : latch (kept (resetVisitors s)) = latch (kept s) := by
  simp [resetVisitors]

@[simp] theorem latch_resetDisplay (s : State) : latch (kept (resetDisplay s)) = latch (kept s) := by
  simp [resetDisplay]

@[simp] theorem latch_abortSlots (o : Option Nat) (s : State) : latch (kept (abortSlots o s).1) = latch (kept s) := by
  simp [abortSlots, latch_eachDo]

@[simp] theorem latch_layoutReset (o : Option Nat) (s : State) : latch (kept (layoutReset o s)) = latch (kept s) := by
  unfold layoutReset; dsimp only; split <;> simp

/-! ### The intake (R187 to R189) -/

@[simp] theorem latch_takeSlot (n : Nat) (g : HostTag) (s : State) : latch (kept (takeSlot n g s)) = latch (kept s) :=
  latch_eq_iff.2 (by simp)

/-- Whatever block a request kind belongs to, it leaves the latch alone. -/
theorem latch_block {r : Request} {al : Allowed} {f : Nat → State → State} (h : blockOf r = some (al, f)) (n : Nat)
    (t : State) : latch (kept (f n t)) = latch (kept t) := by
  unfold blockOf at h; dsimp only at h
  split at h <;> cases h <;> simp

theorem latch_serve {r : Request} {al : Allowed} {f : Nat → State → State} (h : blockOf r = some (al, f)) (n : Nat)
    (s : State) : latch (kept (serve al f n s)) = latch (kept s) := by
  unfold serve; split
  · exact latch_block h n s
  · simp

@[simp] theorem latch_serveSlot (n : Nat) (r : Request) (s : State) :
    latch (kept (serveSlot n r s)) = latch (kept s) := by
  unfold serveSlot; split
  · simp
  · rename_i heq; exact latch_serve heq n s

@[simp] theorem latch_takeSlots (k : Nat) (s : State) : latch (kept (takeSlots k s)) = latch (kept s) := by
  induction k generalizing s with
  | zero => rfl
  | succ k ih => unfold takeSlots; split <;> simp [ih]

@[simp] theorem latch_examine (s : State) : latch (kept (examine s)) = latch (kept s) := by
  have h := latch_takeSlots Config.numSlots (readLevels (s.write16 0x10 (min (s.read16 0x10) 255)))
  rw [kept_readLevels, kept_write16] at h
  exact h

/-! ### The accesses that break the pairing (R186) -/

/-- From s to t the latch's pairing is broken; its value and its word stay. -/
structure Unpaired (s t : State) : Prop where
  paired : t.exch.paired = false
  val : t.exch.latchVal = s.exch.latchVal
  off : t.exch.latchOff = s.exch.latchOff

theorem unpaired_breakPairing (s : State) : Unpaired s (breakPairing s) := ⟨rfl, rfl, rfl⟩

theorem unpaired_postSlot (n : Nat) (r : Request) (s : State) : Unpaired s (postSlot n r s) := ⟨rfl, by simp, by simp⟩

/-- Work that leaves the latch alone may follow the access. -/
theorem Unpaired.of_latch {s t u : State} (h : Unpaired s t) (e : latch (kept u) = latch (kept t)) : Unpaired s u := by
  obtain ⟨hval, hoff, hpaired⟩ := latch_eq_iff.1 e
  exact ⟨hpaired.trans h.paired, hval.trans h.val, hoff.trans h.off⟩

theorem unpaired_readState (s : State) : Unpaired s (readState s) := ⟨rfl, rfl, rfl⟩

theorem unpaired_registerIgnored (a : RegisterAccess) (s : State) : Unpaired s (registerIgnored a s) := by
  cases a <;> exact ⟨rfl, rfl, rfl⟩

theorem unpaired_nudged (s : State) : Unpaired s (nudged s) := by
  unfold nudged; dsimp only; split
  · exact unpaired_breakPairing s
  · exact (unpaired_breakPairing s).of_latch (latch_examine _)

theorem unpaired_write (hw : Fin 16384) (v : Half) (s : State) : Unpaired s (memoryAccess (.write hw v) s) :=
  (unpaired_breakPairing s).of_latch (congrArg latch (kept_write16 _ _ _))

theorem unpaired_requestCommand {r : Request} {al : Allowed} {f : Nat → State → State} (h : blockOf r = some (al, f))
    (s : State) : Unpaired s (requestCommand al f r s) := by
  have hpost := unpaired_postSlot s.exch.takePos r s
  unfold requestCommand; dsimp only; split
  · exact hpost.of_latch (by rw [kept_finish, latch_serve h, latch_takeSlot])
  · exact hpost

/-- A request command posts its record for the block of its kind (R187, R189). -/
theorem exec_of_requestOf {c : Instr} {al : Allowed} {q : Request} (h : requestOf c = some (al, q)) (s : State) :
    ∃ f, blockOf q = some (al, f) ∧ exec c s = .next (requestCommand al f q s) := by
  cases c <;> cases h <;> exact ⟨_, rfl, rfl⟩

theorem unpaired_of_request {c : Instr} {s t : State} (hc : (requestOf c).isSome) (he : exec c s = .next t) :
    Unpaired s t := by
  obtain ⟨⟨al, q⟩, hq⟩ := Option.isSome_iff_exists.1 hc
  obtain ⟨f, hf, hnext⟩ := exec_of_requestOf hq s
  cases hnext.symm.trans he
  exact unpaired_requestCommand hf s

theorem unpaired_of_controlLayoutReset {s t : State} (he : exec .controlLayoutReset s = .next t) : Unpaired s t := by
  change Host.Outcome.next _ = _ at he
  cases he
  split
  · exact unpaired_breakPairing s
  · exact (unpaired_breakPairing s).of_latch (by rw [kept_finish, latch_layoutReset])

theorem unpaired_of_registerWriteIgnored {a : RegisterAccess} {s t : State}
    (he : exec (.registerWriteIgnored a) s = .next t) : Unpaired s t := by
  change execRegisterWriteIgnored a s = _ at he
  unfold execRegisterWriteIgnored at he
  split at he
  · cases he; exact unpaired_registerIgnored a s
  · cases he

/-! ### Upper-half reads (R186) -/

theorem exec_readUpper (w : Fin 8192) (s : State) :
    exec (.hostMemoryAccess (.readUpper w)) s = .next (drive
      (if s.exch.paired && s.exch.latchOff == 4 * w.val then s.exch.latchVal else Mem.read16 s.exch.mem (4 * w.val + 2))
      (breakPairing s)) := rfl

/-- Settles O10: reads of the latch by their arm of `exec`, and the accesses that break the pairing by what each handling
leaves alone. -/
theorem lowerHalfReadLatchesTheWord : Obligations.LowerHalfReadLatchesTheWord := by
  refine ⟨fun _ _ => rfl, fun s w hpaired hoff => ?latched, fun s w hother => ?memory, fun c s t hc he => ?broken⟩
  case latched => rw [exec_readUpper, if_pos (by simp [hpaired, hoff])]; rfl
  case memory => rw [exec_readUpper, if_neg (by simpa using hother)]; rfl
  case broken =>
    have h : Unpaired s t := by
      obtain rfl | ⟨v, rfl⟩ | ⟨hw, v, rfl⟩ | ⟨a, rfl⟩ | rfl | hreq := hc
      · cases he; exact unpaired_readState s
      · cases he; exact unpaired_nudged s
      · cases he; exact unpaired_write hw v s
      · exact unpaired_of_registerWriteIgnored he
      · exact unpaired_of_controlLayoutReset he
      · exact unpaired_of_request hreq he
    exact ⟨h.paired, h.val, h.off⟩

end Sys2Proof.HalfWordLatch

-- ==== Sys2Proof/Proofs/CommandShapes.lean ====
section
/-! The three forms that a command's meaning takes: one handling brought to its end, a request posted for its block, or a
change made directly. A fact about every command is proved once per form. -/

namespace Sys2Proof.CommandShapes

open Sys2Proof.Machine

/-- The work of a command that is one handling and no request. -/
def handlingOf : Instr → Option (State → State)
  | .detectorSample i x => some (detectorSampled i.val x)
  | .axleHeadSample k a b => some (headSampled k.val (a, b))
  | .discrepancyTimerExpiry n => some (discrepancyExpires n.val)
  | .lostHoldExpiry t => some (lostHoldExpires t.val)
  | .loadRecord => some loadNext
  | .stackEntryExpiry r => some (stackExpires r.val)
  | .overlapTimerExpiry e => some (overlapExpires e.val)
  | .approachTimerExpiry e => some (approachExpires e.val)
  | .pointContactSample i x => some (contactSample i.val x)
  | .lossTimerExpiry p => some (lossExpires p.val)
  | .pulseTimerExpiry => some pulseExpires
  | .windowTimerExpiry p => some (windowExpires p.val)
  | .rechargeTimerExpiry => some rechargeExpires
  | .travelTimerExpiry p => some (travelExpires p.val)
  | .stopPinSample x => some (stopPinSampled x)
  | .boltContactSample c x => some (boltSample c x)
  | .boltTimerExpiry => some boltExpires
  | .settleTimerExpiry => some settleExpires
  | .stepBoundary i => some (boundary i)
  | .homingSearchLimit i => some fun s => if atSearchLimit s.tt then boundary i s else s
  | .legEnd i => some fun s => if atLegEnd s.tt then boundary i s else s
  | .stopComplete i => some fun s => if atStopEnd s.tt then boundary i s else s
  | .jogHoldTimerExpiry => some jogHoldExpires
  | .buttonSample b x => some (buttonSampled b.val x)
  | .stepTimerExpiry => some stepTimerExpires
  | .durationTimerExpiry => some durationExpires
  | .coolDownExpiry n => some (coolDownExpires n.val)
  | .idleTimerExpiry => some idleExpires
  | _ => none

/-- The effect of a command that is neither a request nor one handling alone. -/
def effectOf : Instr → Option (State → State)
  | .flashPhaseChange => some flashPasses
  | .nudge _ => some nudged
  | .pollTimerExpiry => some pollExpires
  | .stateRead => some readState
  | .fullReset high => some fun s => initialReset (profileOf high) s
  | .controlLayoutReset => some fun s =>
    if s.exch.runState = .initializing then breakPairing s else finish s (layoutReset none (breakPairing s))
  | .registerWriteIgnored a => some (registerIgnored a)
  | .halfWordLatchRead w => some (readLower w)
  | .initialReset high => some fun s => initialReset (profileOf high) s
  | .hostMemoryAccess m => some (memoryAccess m)
  | .stepOutputActive => some stepActive
  | .jogHoldRemainingChange => some jogHoldPasses
  | .wholeSecondRemainingChange t => some (secondPasses t)
  | _ => none

theorem exec_of_handlingOf {c : Instr} {h : State → State} (hc : handlingOf c = some h) (s : State) :
    exec c s = .next (finish s (h s)) := by
  cases c <;> cases hc <;> rfl

theorem eq_of_effectOf {c : Instr} {f : State → State} (hc : effectOf c = some f) {s t : State}
    (he : exec c s = .next t) : t = f s := by
  have direct (h : exec c s = .next (f s)) : t = f s := Host.Outcome.next.inj (he.symm.trans h)
  cases c
  case registerWriteIgnored a =>
    cases hc
    change execRegisterWriteIgnored a s = _ at he
    unfold execRegisterWriteIgnored at he
    split at he <;> cases he
    rfl
  all_goals first | contradiction | exact direct (by cases hc; rfl)

/-- What a command that answers a next state has made: a request of its block, one handling, or a direct change. -/
theorem exec_cases {c : Instr} {s t : State} (he : exec c s = .next t) :
    (∃ al q f, requestOf c = some (al, q) ∧ blockOf q = some (al, f) ∧ t = requestCommand al f q s) ∨
    (∃ h, handlingOf c = some h ∧ t = finish s (h s)) ∨ ∃ f, effectOf c = some f ∧ t = f s := by
  have shape : (requestOf c).isSome ∨ (handlingOf c).isSome ∨ (effectOf c).isSome := by
    cases c
    all_goals first | exact .inl rfl | exact .inr (.inl rfl) | exact .inr (.inr rfl)
  obtain h | h | h := shape
  · obtain ⟨⟨al, q⟩, hq⟩ := Option.isSome_iff_exists.1 h
    obtain ⟨f, hf, hnext⟩ := HalfWordLatch.exec_of_requestOf hq s
    cases hnext.symm.trans he
    exact .inl ⟨al, q, f, hq, hf, rfl⟩
  · obtain ⟨f, hf⟩ := Option.isSome_iff_exists.1 h
    cases (exec_of_handlingOf hf s).symm.trans he
    exact .inr (.inl ⟨f, hf, rfl⟩)
  · obtain ⟨f, hf⟩ := Option.isSome_iff_exists.1 h
    exact .inr (.inr ⟨f, hf, eq_of_effectOf hf he⟩)

end Sys2Proof.CommandShapes
end

