-- ==== Sys2Proof/Proofs/StepInvariants.lean ====
section
/-! Every command keeps the bounds, the canonical form of exchange memory and the holders' fit, and leaves the host's own
bytes alone (O6, O7): one lemma per form of command. -/

namespace Sys2Proof.StepInvariants

open Sys2Proof.Machine Sys2Proof.CommandShapes

/-! ### Commands that are one handling -/

theorem own_handling {c : Instr} {h : State → State} (hc : handlingOf c = some h) (s : State) : Own s (h s) := by
  cases c <;> cases hc
  case homingSearchLimit | legEnd | stopComplete => dsimp only; split <;> simp
  all_goals simp

theorem lim_handling {c : Instr} {h : State → State} (hc : handlingOf c = some h) {s : State} (hs : Limits s) :
    Limits (h s) := by
  cases c <;> cases hc
  case homingSearchLimit | legEnd | stopComplete => dsimp only; split <;> simp [hs]
  all_goals simp [hs]

theorem fit_handling {c : Instr} {h : State → State} (hc : handlingOf c = some h) {s : State} (hs : HoldersFit s) :
    HoldersFit (h s) := by
  cases c <;> cases hc
  case homingSearchLimit | legEnd | stopComplete => dsimp only; split <;> simp [hs]
  all_goals simp [hs]

/-! ### Requests -/

theorem sound_requestCommand {r : Request} {al : Allowed} {f : Nat → State → State} (hf : blockOf r = some (al, f))
    {s : State} (hs : Sound s) : Sound (requestCommand al f r s) := by
  have hpost : Sound (postSlot s.exch.takePos r s) := ⟨memOk_postSlot _ _ _ hs.mem, lim_postSlot _ _ _ hs.limits⟩
  unfold requestCommand; dsimp only; split
  · have hserved := own_finish s _ (own_serve al f s.exch.takePos _ (own_block r al f hf _)
      (Own.refl (takeSlot s.exch.takePos r.tag (postSlot s.exch.takePos r s))))
    exact ⟨hserved.mem (memOk_takeSlot _ _ _ hpost.mem),
      lim_finish _ _ (lim_serve al f _ _ (lim_block r al f hf _) (lim_takeSlot _ _ _ hpost.limits))⟩
  · exact hpost

/-- A request command writes, of the host's bytes, only those of the slot that it posts its record in (R187). -/
theorem read8_requestCommand {r : Request} {al : Allowed} {f : Nat → State → State} (hf : blockOf r = some (al, f))
    {s : State} (hs : Sound s) {a : Nat} (ha : hostOwned a) (hslot : ¬ inSlot s.exch.takePos a) :
    (requestCommand al f r s).read8 a = s.read8 a := by
  rw [← read8_postSlot s.exch.takePos a r s hslot]
  unfold requestCommand; dsimp only; split
  · have hserved := own_finish s _ (own_serve al f s.exch.takePos _ (own_block r al f hf _)
      (Own.refl (takeSlot s.exch.takePos r.tag (postSlot s.exch.takePos r s))))
    rw [hserved.host a ha, host_takeSlot _ _ _ hs.limits.takePos a ha]
  · rfl

/-! ### Direct changes -/

theorem lim_blankState (p : Profile) (s : State) : Limits (blankState p s) := by
  have deck : deckSound (blankState p s).tt := by intro d hd; cases hd
  exact ⟨Nat.zero_lt_succ 511, Nat.zero_lt_succ 31, Nat.zero_lt_succ (Config.clockMod - 1), Nat.zero_lt_succ 999, Nat.zero_le _, Nat.zero_le _,
    Nat.zero_le _, (by decide : 6 ≤ 8), deck, rfl⟩

theorem lim_initHeader (p : Profile) {s : State} (hs : Limits s) : Limits (initHeader p s) := by
  unfold initHeader; dsimp only
  simp (maxDischargeDepth := 60) [hs]

theorem own_initHeader (p : Profile) {z s : State} (hs : Own z s) : Own z (initHeader p s) := by
  unfold initHeader; dsimp only
  apply own_setPanelState
  apply own_header8 _ _ _ (by decide)
  apply own_setUnit
  apply own_setPower
  apply own_header8 _ _ _ (by decide)
  apply own_setRunCondition
  apply own_header16 _ _ _ (by decide)
  apply own_header16 _ _ _ (by decide)
  apply own_header16 _ _ _ (by decide)
  exact own_header16 hs _ _ (by decide)

/-- Initial reset starts from a memory of zeros. -/
theorem sound_initialReset (p : Profile) (s : State) : Sound (initialReset p s) := by
  have hown : Own (blankState p s) (setRunState .configuring (initHeader p (blankState p s))) :=
    own_setRunState (own_initHeader p (Own.refl _)) _
  have hlim : Limits (setRunState .configuring (initHeader p (blankState p s))) :=
    lim_setRunState _ _ (lim_initHeader p (lim_blankState p s))
  have hblank : (blankState p s).memOk := rfl
  unfold initialReset; dsimp only
  generalize setRunState .configuring (initHeader p (blankState p s)) = u at hown hlim
  have hlast := own_reportLayout 5 0 { u with exch := { u.exch with pollTimer := some 10 } } (own_same hown rfl rfl)
  exact ⟨hlast.mem hblank, lim_reportLayout _ _ _ (lim_same hlim rfl)⟩

theorem own_breakPairing (s : State) : Own s (breakPairing s) := own_same (Own.refl s) rfl rfl

theorem lim_breakPairing {s : State} (hs : Limits s) : Limits (breakPairing s) := lim_same hs rfl

theorem sound_breakPairing {s : State} (hs : Sound s) : Sound (breakPairing s) :=
  ⟨(own_breakPairing s).mem hs.mem, lim_breakPairing hs.limits⟩

theorem sound_of_own {s t : State} (h : Own s t) (hlim : Limits s → Limits t) (hs : Sound s) : Sound t :=
  ⟨h.mem hs.mem, hlim hs.limits⟩

theorem sound_nudged {s : State} (hs : Sound s) : Sound (nudged s) := by
  unfold nudged; dsimp only; split
  · exact sound_breakPairing hs
  · exact (examined_examine _).sound (sound_breakPairing hs)

theorem sound_pollExpires {s : State} (hs : Sound s) : Sound (pollExpires s) := by
  unfold pollExpires; split
  · exact hs
  · exact (examined_examine _).sound hs

theorem sound_memoryAccess (m : MemAccess) {s : State} (hs : Sound s) : Sound (memoryAccess m s) := by
  cases m with
  | write hw v => exact ⟨memOk_write16 _ _ _ (sound_breakPairing hs).mem, lim_write16 _ _ _ (sound_breakPairing hs).limits⟩
  | readUpper w => exact ⟨hs.mem, lim_same hs.limits rfl⟩

theorem sound_registerIgnored (a : RegisterAccess) {s : State} (hs : Sound s) : Sound (registerIgnored a s) := by
  cases a <;> exact ⟨hs.mem, lim_same hs.limits rfl⟩

theorem sound_readState {s : State} (hs : Sound s) : Sound (readState s) := ⟨hs.mem, lim_line hs.limits rfl⟩

theorem own_controlLayoutReset (s : State) : Own s (finish s (layoutReset none (breakPairing s))) :=
  own_finish _ _ (own_layoutReset _ _ (own_breakPairing s))

theorem sound_effect {c : Instr} {f : State → State} (hc : effectOf c = some f) {s : State} (hs : Sound s) :
    Sound (f s) := by
  cases c
  case flashPhaseChange => cases hc; exact sound_of_own (own_flashPasses _ (own_refl s)) (lim_flashPasses s) hs
  case nudge => cases hc; exact sound_nudged hs
  case pollTimerExpiry => cases hc; exact sound_pollExpires hs
  case stateRead => cases hc; exact sound_readState hs
  case fullReset high => cases hc; exact sound_initialReset _ _
  case initialReset high => cases hc; exact sound_initialReset _ _
  case controlLayoutReset =>
    cases hc; dsimp only; split
    · exact sound_breakPairing hs
    · exact sound_of_own (own_controlLayoutReset s)
        (fun h => lim_finish _ _ (lim_layoutReset _ _ (lim_breakPairing h))) hs
  case registerWriteIgnored a => cases hc; exact sound_registerIgnored a hs
  case halfWordLatchRead w => cases hc; exact ⟨hs.mem, lim_same hs.limits rfl⟩
  case hostMemoryAccess m => cases hc; exact sound_memoryAccess m hs
  case stepOutputActive => cases hc; exact sound_of_own (own_stepActive s (own_refl s)) (lim_stepActive s) hs
  case jogHoldRemainingChange => cases hc; exact sound_of_own (own_jogHoldPasses s (own_refl s)) (lim_jogHoldPasses s) hs
  case wholeSecondRemainingChange t =>
    cases hc; exact sound_of_own (own_secondPasses t s (own_refl s)) (lim_secondPasses t s) hs
  all_goals contradiction

theorem fit_effect {c : Instr} {f : State → State} (hc : effectOf c = some f) {s : State} (hs : HoldersFit s) :
    HoldersFit (f s) := by
  cases c
  case fullReset high => cases hc; exact fit_initialReset _ _
  case initialReset high => cases hc; exact fit_initialReset _ _
  case controlLayoutReset =>
    cases hc; dsimp only; split
    · exact fit_breakPairing s hs
    · exact fit_finish _ _ (fit_layoutReset none _ (fit_breakPairing s hs))
  case registerWriteIgnored a => cases hc; exact fit_registerIgnored a s hs
  case halfWordLatchRead w => cases hc; exact fit_readLower w s hs
  case hostMemoryAccess m => cases hc; exact fit_memoryAccess m s hs
  case wholeSecondRemainingChange t => cases hc; exact fit_secondPasses t s hs
  case flashPhaseChange => cases hc; exact fit_flashPasses s hs
  case nudge => cases hc; exact fit_nudged s hs
  case pollTimerExpiry => cases hc; exact fit_pollExpires s hs
  case stateRead => cases hc; exact fit_readState s hs
  case stepOutputActive => cases hc; exact fit_stepActive s hs
  case jogHoldRemainingChange => cases hc; exact fit_jogHoldPasses s hs
  all_goals contradiction

/-- Of the direct changes only a host write and the full resets reach a byte of the host's. -/
theorem read8_effect {c : Instr} {f : State → State} (hc : effectOf c = some f) {s : State} (hs : Sound s)
    (hreset : ∀ high, c ≠ .fullReset high ∧ c ≠ .initialReset high)
    (hwrite : ∀ hw v, c ≠ .hostMemoryAccess (.write hw v)) {a : Nat} (ha : hostOwned a) : (f s).read8 a = s.read8 a := by
  cases c
  case flashPhaseChange => cases hc; exact (own_flashPasses _ (own_refl s)).host a ha
  case nudge =>
    cases hc; unfold nudged; dsimp only; split
    · rfl
    · exact (examined_examine (breakPairing s)).host (lim_breakPairing hs.limits) a ha
  case pollTimerExpiry =>
    cases hc; unfold pollExpires; split
    · rfl
    · exact (examined_examine s).host hs.limits a ha
  case fullReset high => exact absurd rfl (hreset high).1
  case initialReset high => exact absurd rfl (hreset high).2
  case controlLayoutReset =>
    cases hc; dsimp only; split
    · rfl
    · exact (own_controlLayoutReset s).host a ha
  case registerWriteIgnored x => cases hc; cases x <;> rfl
  case hostMemoryAccess m =>
    cases hc
    cases m with
    | write hw v => exact absurd rfl (hwrite hw v)
    | readUpper w => rfl
  case stepOutputActive => cases hc; exact (own_stepActive s (own_refl s)).host a ha
  case jogHoldRemainingChange => cases hc; exact (own_jogHoldPasses s (own_refl s)).host a ha
  case wholeSecondRemainingChange t => cases hc; exact (own_secondPasses t s (own_refl s)).host a ha
  case stateRead => cases hc; rfl
  case halfWordLatchRead w => cases hc; rfl
  all_goals contradiction

/-! ### Every step -/

theorem sound_exec {c : Instr} {s t : State} (hs : Sound s) (he : exec c s = .next t) : Sound t := by
  obtain ⟨al, q, f, -, hf, rfl⟩ | ⟨h, hh, rfl⟩ | ⟨f, hf, rfl⟩ := exec_cases he
  · exact sound_requestCommand hf hs
  · exact sound_of_own (own_finish _ _ (own_handling hh s)) (fun hl => lim_finish _ _ (lim_handling hh hl)) hs
  · exact sound_effect hf hs

theorem fit_exec {c : Instr} {s t : State} (hs : HoldersFit s) (he : exec c s = .next t) : HoldersFit t := by
  obtain ⟨al, q, f, -, hf, rfl⟩ | ⟨h, hh, rfl⟩ | ⟨f, hf, rfl⟩ := exec_cases he
  · exact fit_requestCommand al f q s (fit_block q al f hf) hs
  · exact fit_finish _ _ (fit_handling hh hs)
  · exact fit_effect hf hs

/-- Settles O6: a command keeps each invariant by its form, and so does a millisecond of the clock. -/
theorem everyStepKeepsSound : Obligations.EveryStepKeepsSound := by
  refine ⟨fun s t hs he => ?sound, fun s t hs he => ?fit⟩
  case sound =>
    unfold step at he; split at he
    · cases he; exact sound_of_own (own_tick s (own_refl s)) (lim_tick s) hs
    next c rest _ => exact sound_exec (s := { s with pending := rest }) ⟨hs.mem, lim_same hs.limits rfl⟩ he
  case fit =>
    unfold step at he; split at he
    · cases he; exact fit_tick s hs
    next c rest _ => exact fit_exec (s := { s with pending := rest }) (fit_same hs rfl) he

/-- Settles O7: what a command writes is the part's own, but for the slot that a request is posted in. -/
theorem onlyTheHostWritesItsBytes : Obligations.OnlyTheHostWritesItsBytes := by
  intro c s t hs he hreset hwrite a ha hslot
  obtain ⟨al, q, f, hq, hf, rfl⟩ | ⟨h, hh, rfl⟩ | ⟨f, hf, rfl⟩ := exec_cases he
  · exact read8_requestCommand hf hs ha (hslot (by rw [hq]; rfl))
  · exact (own_finish _ _ (own_handling hh s)).host a ha
  · exact read8_effect hf hs hreset hwrite ha

end Sys2Proof.StepInvariants
end

