-- ==== Sys2Proof/Proofs/ResetState.lean ====
section
/-! A step's command, the state after reset and the host port's plain accesses (O1, O3, O4, O5, O9, O11, O12). -/

namespace Sys2Proof.ResetState

open Sys2Proof.Machine

/-- Settles O1: by the definition of a step. -/
theorem stepRunsTheFrontCommand : Obligations.StepRunsTheFrontCommand := by
  intro s c rest h
  unfold step
  rw [h]

/-- Settles O3: by evaluation of the one state. -/
theorem resetHeaderAndEmptyPart : Obligations.ResetHeaderAndEmptyPart := by
  unfold Obligations.ResetHeaderAndEmptyPart
  decide +kernel

theorem sound_reset : Sound State.reset where
  mem := by unfold State.memOk; decide +kernel
  limits :=
    have deck : deckSound State.reset.tt := by intro d hd; cases hd
    ⟨by decide, by decide, by decide, by decide, by decide, by decide, by decide, by decide, deck, by decide⟩

theorem holdersFit_reset : HoldersFit State.reset where
  sorted := rfl
  listed p n hn := absurd hn List.not_mem_nil
  idle _ := ⟨rfl, rfl, rfl⟩
  loads h := absurd h (by decide)

/-- Nothing is loaded, and the part is CONFIGURING. -/
theorem settled_reset : Settled State.reset where
  work := rfl
  sections := ⟨rfl, rfl, fun _ _ h => by cases h⟩
  heads _ _ h := by cases h
  points := ⟨rfl, rfl, fun _ _ h => by cases h⟩
  signals _ _ h := by cases h
  routes := rfl
  panel := ⟨rfl, rfl, rfl, fun _ _ h => by cases h⟩
  tags _ := rfl
  running h := absurd h (by decide)

/-- Settles O4: the three invariants of the one state. -/
theorem resetIsSound : Obligations.ResetIsSound := ⟨sound_reset, holdersFit_reset, settled_reset⟩

/-! ### The model's own fields (log 1, log 6)

Initial reset keeps the free-value counter and the queue, which none of its parts reads. -/

/-- A state with another free-value counter and another queue. -/
def requeue (f : Nat) (q : List Instr) (s : State) : State := { s with free := f, pending := q }

theorem write8_requeue (a v f : Nat) (q : List Instr) (s : State) :
    (requeue f q s).write8 a v = requeue f q (s.write8 a v) := by
  unfold State.write8; split <;> rfl

theorem write16_requeue (a v f : Nat) (q : List Instr) (s : State) :
    (requeue f q s).write16 a v = requeue f q (s.write16 a v) := by
  unfold State.write16; split <;> rfl

theorem write32_requeue (a v f : Nat) (q : List Instr) (s : State) :
    (requeue f q s).write32 a v = requeue f q (s.write32 a v) := by
  unfold State.write32; split <;> rfl

section
variable (f : Nat) (q : List Instr) (s : State)

theorem setRunState_requeue (r : RunState) : setRunState r (requeue f q s) = requeue f q (setRunState r s) :=
  write16_requeue 0x16 r.code f q { s with exch := { s.exch with runState := r } }

theorem setRunCondition_requeue (c : RunCondition) (cause : Option StopCause) :
    setRunCondition c cause (requeue f q s) = requeue f q (setRunCondition c cause s) := by
  unfold setRunCondition
  rw [← write16_requeue, ← write8_requeue, ← write8_requeue]; rfl

theorem setPower_requeue (on : Bool) : setPower on (requeue f q s) = requeue f q (setPower on s) :=
  write8_requeue 0x1D _ f q { s with asp := { s.asp with power := on } }

theorem setUnit_requeue (u : Discharge) : setUnit u (requeue f q s) = requeue f q (setUnit u s) :=
  write8_requeue 0x1E _ f q { s with pts := { s.pts with unit := u } }

theorem setPanelState_requeue (p : Panel) : setPanelState p (requeue f q s) = requeue f q (setPanelState p s) := by
  unfold setPanelState
  rw [← write8_requeue, ← write8_requeue]; rfl

theorem initHeader_requeue (p : Profile) : initHeader p (requeue f q s) = requeue f q (initHeader p s) := by
  unfold initHeader
  simp only [write16_requeue, write8_requeue, setRunCondition_requeue, setPower_requeue, setUnit_requeue,
    setPanelState_requeue]

theorem readLevels_requeue : readLevels (requeue f q s) = requeue f q (readLevels s) := by
  unfold readLevels
  simp only [write16_requeue]
  rfl

theorem setMissed_requeue (m : BitVec 64) : setMissed m (requeue f q s) = requeue f q (setMissed m s) := by
  unfold setMissed
  rw [← write32_requeue, ← write32_requeue]; rfl

theorem evalReports_requeue : evalReports (requeue f q s) = requeue f q (evalReports s) := rfl

theorem writeEntry_requeue (k : ReportKind) (x v1 v2 : Nat) :
    writeEntry k x v1 v2 (requeue f q s) = requeue f q (writeEntry k x v1 v2 s) := by
  have advance (w : Nat) (u : State) :
      ({ requeue f q u with exch := { (requeue f q u).exch with w := w } } : State)
        = requeue f q { u with exch := { u.exch with w := w } } := rfl
  unfold writeEntry
  simp only [write32_requeue, advance, write16_requeue, evalReports_requeue]
  rfl

theorem report_requeue (k : ReportKind) (x v1 v2 : Nat) :
    report k x v1 v2 (requeue f q s) = requeue f q (report k x v1 v2 s) := by
  have missed (u : State) : (requeue f q u).exch = u.exch := rfl
  have rd (u : State) : (requeue f q u).rd = u.rd := rfl
  have limit (u : State) : reportLimit k (requeue f q u) = reportLimit k u := rfl
  unfold report
  simp only [readLevels_requeue, missed, rd, limit, writeEntry_requeue, setMissed_requeue]
  split_ifs <;> rfl

theorem reportLayout_requeue (c i : Nat) : reportLayout c i (requeue f q s) = requeue f q (reportLayout c i s) :=
  report_requeue f q s _ _ _ _

end

/-- Initial reset takes from the state before it the queue and the free-value counter alone. -/
theorem initialReset_eq (p : Profile) (s : State) :
    initialReset p s = requeue s.free s.pending (initialReset p State.reset) := by
  have blank : blankState p s = requeue s.free s.pending (blankState p State.reset) := rfl
  have poll (f : Nat) (q : List Instr) (u : State) :
      ({ requeue f q u with exch := { (requeue f q u).exch with pollTimer := some 10 } } : State)
        = requeue f q { u with exch := { u.exch with pollTimer := some 10 } } := rfl
  unfold initialReset
  dsimp only
  rw [blank, initHeader_requeue, setRunState_requeue, poll, reportLayout_requeue]

theorem initialReset_exhibition : initialReset .exhibition State.reset = State.reset := by decide +kernel

theorem initialReset_club : initialReset .club State.reset = { State.reset with
    ilk := { State.reset.ilk with quota := 0 }
    tt := { State.reset.tt with jogPermitted := false }
    disp := { State.reset.disp with idleTimer := some 30000, idleRun := 30, idle1 := 30, idle2 := 120, idle3 := 600 }
    exch := { State.reset.exch with profile := .club, mem := Mem.write8 State.reset.exch.mem 0x1F 1#8 } } := by
  decide +kernel

/-- Settles O5: what a full reset takes from the state before it, and its outcome under each profile. -/
theorem resetCommandsGiveTheResetState : Obligations.ResetCommandsGiveTheResetState := by
  refine ⟨fun s => ?_, fun s => ?_, fun s high => rfl⟩
  · change Host.Outcome.next (initialReset .exhibition s) = _
    rw [initialReset_eq, initialReset_exhibition]; rfl
  · change Host.Outcome.next (initialReset .club s) = _
    rw [initialReset_eq, initialReset_club]; rfl

/-- Settles O9: the read of STATE, and the line as its causes give it. -/
theorem stateReadReturnsAndClears : Obligations.StateReadReturnsAndClears := by
  intro s
  change Host.Outcome.next (readState s) = _
  have line (a b c d : Bool) : ((a && b) || (false && c) || d) = (a && b || d) := by simp
  unfold readState evalLine attention stateRegister bit
  simp only [drive, breakPairing, line]
  norm_num

/-- Settles O12: each access by its arm. -/
theorem ignoredAccessesHaveNoEffect : Obligations.IgnoredAccessesHaveNoEffect := by
  refine ⟨fun s v => ⟨rfl, rfl, fun h1 h2 => ?_⟩, fun s => ⟨_, ?_, rfl⟩, fun s => ⟨rfl, rfl⟩, fun s => ⟨rfl, rfl⟩⟩
  · change execRegisterWriteIgnored (.writeControl v) s = _
    unfold execRegisterWriteIgnored
    rw [if_pos (by simp [RegisterAccess.wf, h1, h2])]
    rfl
  · apply BitVec.eq_of_toNat_eq
    unfold identRegister
    simp only [BitVec.extractLsb'_toNat, BitVec.toNat_ofNat, Nat.shiftRight_zero]
    omega

/-- Settles O11: the half-word's two bytes, and every other byte, by the rules of memory. -/
theorem hostWriteStoresOneHalfWord : Obligations.HostWriteStoresOneHalfWord := by
  intro s hw v hs
  have hin : 2 * hw.val + 1 < Config.memBytes := by have := hw.isLt; unfold Config.memBytes; omega
  have hsort : Tbl.sorted s.exch.mem = true := sorted_of_memOk hs
  have heq : (breakPairing s).write16 (2 * hw.val) v.toNat
      = { s with exch := { s.exch with mem := Mem.write16 s.exch.mem (2 * hw.val) v, paired := false } } := by
    unfold State.write16
    rw [if_pos hin, BitVec.ofNat_toNat, BitVec.setWidth_eq]; rfl
  refine ⟨_, congrArg Host.Outcome.next heq, ?_, ?_, fun a h1 h2 => ?_, rfl⟩
  · change (Mem.read8 (Mem.write8 (Mem.write8 _ _ _) _ _) _).toNat = _
    rw [Mem.read8_write8_other _ _ _ _ (by omega), Mem.read8_write8_self _ _ _ hsort]
    simp
  · change (Mem.read8 (Mem.write8 (Mem.write8 _ _ _) _ _) _).toNat = _
    rw [Mem.read8_write8_self _ _ _ (Mem.sorted_write8 _ _ _ hsort)]
    have := v.isLt
    simp [Nat.shiftRight_eq_div_pow]
    omega
  · exact congrArg BitVec.toNat (Mem.read8_write16_other _ _ _ _ (by omega))

end Sys2Proof.ResetState
end

