-- ==== Sys2Proof/Proofs/ReportLog.lean ====
section
/-! The report log and the header: what a report writes (O15, O16), a completed slot (O17) and a quiet end of a handling leave
of exchange memory. -/

namespace Sys2Proof.ReportLog

open Sys2Proof.Machine

theorem inside_of_body {s t : State} (h : body s = body t) : inside s = inside t := inside_of_calm (calm_of_body h)

/-! ### Words and their bytes (R199) -/

theorem toNat_read16 (m : List Host.Cell) (a : Nat) :
    (Mem.read16 m a).toNat = (Mem.read8 m a).toNat + 256 * (Mem.read8 m (a + 1)).toNat := by
  unfold Mem.read16
  rw [BitVec.toNat_append, ← Nat.shiftLeft_add_eq_or_of_lt (Mem.read8 m a).isLt, Nat.shiftLeft_eq]
  omega

theorem toNat_read32 (m : List Host.Cell) (a : Nat) :
    (Mem.read32 m a).toNat = (Mem.read16 m a).toNat + 65536 * (Mem.read16 m (a + 2)).toNat := by
  unfold Mem.read32
  rw [BitVec.toNat_append, ← Nat.shiftLeft_add_eq_or_of_lt (Mem.read16 m a).isLt, Nat.shiftLeft_eq]
  omega

/-- The parts of a word that is read. -/
theorem bytes_of_read32 (s : State) (a : Nat) : s.read8 a = s.read32 a % 256 ∧ s.read8 (a + 1) = s.read32 a / 256 % 256 ∧
    s.read16 (a + 2) = s.read32 a / 65536 := by
  have h0 := (Mem.read8 s.exch.mem a).isLt
  have h1 := (Mem.read8 s.exch.mem (a + 1)).isLt
  unfold State.read32 State.read16 State.read8
  rw [toNat_read32, toNat_read16]
  refine ⟨?_, ?_, ?_⟩ <;> omega

/-! ### Readings of the levels (R196) -/

/-- The log pointer and the missed-kinds set, which a write to memory leaves alone. -/
def logPlace (s : State) : Nat × BitVec 64 := (s.exch.w, s.exch.missed)

theorem logPlace_of_blank {s t : State} (h : s.withMem [] = t.withMem []) : logPlace s = logPlace t := by
  have g := congrArg logPlace h
  exact g

theorem logPlace_readLevels (s : State) : logPlace (readLevels s) = logPlace s := by
  have h := logPlace_of_blank (s := (s.write16 0x04 s.notify).write16 0x06 s.almost) (t := s) (by simp)
  exact h

theorem read8_readLevels (s : State) (a : Nat) (h : a < 4 ∨ 8 ≤ a) : (readLevels s).read8 a = s.read8 a := by
  change ((s.write16 0x04 s.notify).write16 0x06 s.almost).read8 a = _
  rw [read8_write16_other _ _ _ _ (by omega), read8_write16_other _ _ _ _ (by omega)]

theorem rd_readLevels (s : State) : (readLevels s).rd = s.rd := by
  unfold State.rd
  rw [read16_of_read8 (read8_readLevels s 2 (by omega)) (read8_readLevels s 3 (by omega))]

theorem memOk_readLevels {s : State} (h : s.memOk) : (readLevels s).memOk := (own_readLevels (Own.refl s)).mem h

theorem notify_range (s : State) : 1 ≤ s.notify ∧ s.notify ≤ 511 := by unfold State.notify clampNotify; omega

theorem almost_range (s : State) : s.notify ≤ s.almost ∧ s.almost ≤ 511 := by
  have := notify_range s
  unfold State.almost clampAlmost; omega

theorem levels_readLevels {s : State} (h : s.memOk) :
    (readLevels s).read16 0x04 = s.notify ∧ (readLevels s).read16 0x06 = s.almost := by
  have h1 := memOk_write16 0x04 s.notify s h
  have hn := notify_range s
  have ha := almost_range s
  change ((s.write16 0x04 s.notify).write16 0x06 s.almost).read16 0x04 = _ ∧
    ((s.write16 0x04 s.notify).write16 0x06 s.almost).read16 0x06 = _
  rw [read16_write16_other _ _ _ _ (by omega), read16_write16_self _ _ _ h (by decide),
    read16_write16_self _ _ _ h1 (by decide)]
  exact ⟨Nat.mod_eq_of_lt (by omega), Nat.mod_eq_of_lt (by omega)⟩

/-- The levels are read as they were: the clamped values are within their ranges. -/
theorem reportLimit_readLevels {s : State} (h : s.memOk) (k : ReportKind) : reportLimit k (readLevels s) = reportLimit k s := by
  obtain ⟨hn, ha⟩ := levels_readLevels h
  have hr := notify_range s
  have hq := almost_range s
  unfold reportLimit
  split
  · unfold State.almost clampAlmost State.notify clampNotify at *
    rw [hn, ha]; omega
  · rfl

/-! ### Entries (12.1) -/

theorem read8_logWord (a v b : Nat) (s : State) (h : b < a ∨ a + 3 < b) : (s.write32 a v).read8 b = s.read8 b :=
  read8_write32_other _ _ _ _ h

/-- An entry written whole: what stands in it, and what its writing leaves. -/
structure EntryWritten (k : ReportKind) (x v1 v2 : Nat) (s t : State) : Prop where
  head : t.read32 (0x1400 + 16 * s.exch.w) = (k.code + (if k.low then 0 else 256) + x % 65536 * 65536)
  clock : t.read32 (0x1400 + 16 * s.exch.w + 4) = s.clock % 2 ^ 32
  first : t.read32 (0x1400 + 16 * s.exch.w + 8) = v1 % 2 ^ 32
  second : t.read32 (0x1400 + 16 * s.exch.w + 12) = v2 % 2 ^ 32
  place : logPlace t = ((s.exch.w + 1) % 512, s.exch.missed)
  pointer : t.read16 0 = (s.exch.w + 1) % 512
  others : ∀ b, ¬ (0x1400 + 16 * s.exch.w ≤ b ∧ b < 0x1400 + 16 * s.exch.w + 16) → 2 ≤ b → t.read8 b = s.read8 b

theorem code_lt (k : ReportKind) : k.code < 256 := by cases k <;> decide

theorem entryHead_eq (k : ReportKind) (x : Nat) :
    fld k.code 8 0 + fld (if k.low then 0 else 1) 8 8 + fld x 16 16 = k.code + (if k.low then 0 else 256) + x % 65536 * 65536 := by
  have := code_lt k
  unfold fld
  split <;> omega

/-- The four words of an entry, before the pointer moves. -/
def entryWords (a h c v1 v2 : Nat) (s : State) : State :=
  (((s.write32 a h).write32 (a + 4) c).write32 (a + 8) v1).write32 (a + 12) v2

section
variable {a h c v1 v2 : Nat} {s : State} (hm : s.memOk) (ha : a + 15 < Config.memBytes)
include hm ha

theorem read32_entryWords : (entryWords a h c v1 v2 s).read32 a = h % 2 ^ 32 ∧
    (entryWords a h c v1 v2 s).read32 (a + 4) = c % 2 ^ 32 ∧ (entryWords a h c v1 v2 s).read32 (a + 8) = v1 % 2 ^ 32 ∧
    (entryWords a h c v1 v2 s).read32 (a + 12) = v2 % 2 ^ 32 := by
  have m1 := memOk_write32 a h s hm
  have m2 := memOk_write32 (a + 4) c _ m1
  have m3 := memOk_write32 (a + 8) v1 _ m2
  unfold entryWords
  refine ⟨?_, ?_, ?_, ?_⟩
  · rw [read32_write32_other _ _ _ _ (by omega), read32_write32_other _ _ _ _ (by omega),
      read32_write32_other _ _ _ _ (by omega), read32_write32_self _ _ _ hm (by omega)]
  · rw [read32_write32_other _ _ _ _ (by omega), read32_write32_other _ _ _ _ (by omega),
      read32_write32_self _ _ _ m1 (by omega)]
  · rw [read32_write32_other _ _ _ _ (by omega), read32_write32_self _ _ _ m2 (by omega)]
  · rw [read32_write32_self _ _ _ m3 (by omega)]

end

theorem read8_entryWords (a h c v1 v2 b : Nat) (s : State) (hb : ¬ (a ≤ b ∧ b < a + 16)) :
    (entryWords a h c v1 v2 s).read8 b = s.read8 b := by
  unfold entryWords
  rw [read8_write32_other _ _ _ _ (by omega), read8_write32_other _ _ _ _ (by omega),
    read8_write32_other _ _ _ _ (by omega), read8_write32_other _ _ _ _ (by omega)]

theorem logPlace_entryWords (a h c v1 v2 : Nat) (s : State) : logPlace (entryWords a h c v1 v2 s) = logPlace s :=
  logPlace_of_blank (by simp [entryWords])

theorem memOk_entryWords (a h c v1 v2 : Nat) {s : State} (hm : s.memOk) : (entryWords a h c v1 v2 s).memOk :=
  memOk_write32 _ _ _ (memOk_write32 _ _ _ (memOk_write32 _ _ _ (memOk_write32 _ _ _ hm)))

theorem writeEntry_eq (k : ReportKind) (x v1 v2 : Nat) {s : State} (hw : s.exch.w < 512) :
    writeEntry k x v1 v2 s =
      let u := entryWords (0x1400 + 16 * s.exch.w) (k.code + (if k.low then 0 else 256) + x % 65536 * 65536) s.clock v1 v2 s
      evalReports (({ u with exch := { u.exch with w := (s.exch.w + 1) % 512 } } : State).write16 0 ((s.exch.w + 1) % 512)) := by
  have hc (a h : Nat) : (s.write32 a h).clock = s.clock := by simp
  unfold writeEntry
  rw [entryHead_eq]
  simp only [Config.logBase, Config.numLog, Nat.mod_eq_of_lt hw, hc, entryWords]

theorem entryWritten_writeEntry (k : ReportKind) (x v1 v2 : Nat) {s : State} (hm : s.memOk) (hw : s.exch.w < 512) :
    EntryWritten k x v1 v2 s (writeEntry k x v1 v2 s) := by
  have hc := code_lt k
  have ha : 0x1400 + 16 * s.exch.w + 15 < Config.memBytes := by unfold Config.memBytes; omega
  rw [writeEntry_eq k x v1 v2 hw]
  dsimp only
  have hu := read32_entryWords (h := k.code + (if k.low then 0 else 256) + x % 65536 * 65536) (c := s.clock) (v1 := v1) (v2 := v2)
    hm ha
  have hb := fun b => read8_entryWords (0x1400 + 16 * s.exch.w) (k.code + (if k.low then 0 else 256) + x % 65536 * 65536) s.clock
    v1 v2 b s
  have hl := logPlace_entryWords (0x1400 + 16 * s.exch.w) (k.code + (if k.low then 0 else 256) + x % 65536 * 65536) s.clock v1 v2 s
  have mu := memOk_entryWords (0x1400 + 16 * s.exch.w) (k.code + (if k.low then 0 else 256) + x % 65536 * 65536) s.clock v1 v2 hm
  generalize entryWords _ _ _ _ _ s = u at hu hb hl mu
  obtain ⟨h0, h1, h2, h3⟩ := hu
  have word (b : Nat) (hb : 2 ≤ b) : (evalReports (({ u with exch := { u.exch with w := (s.exch.w + 1) % 512 } } : State).write16 0
      ((s.exch.w + 1) % 512))).read32 b = u.read32 b := read32_write16_other _ _ _ _ (by omega)
  refine ⟨?_, ?_, ?_, ?_, ?_, ?_, fun b hn h2 => ?_⟩
  · rw [word _ (by omega), h0, Nat.mod_eq_of_lt]
    split <;> omega
  · rw [word _ (by omega), h1]
  · rw [word _ (by omega), h2]
  · rw [word _ (by omega), h3]
  · have h := logPlace_of_blank (blank_write16 0 ((s.exch.w + 1) % 512) { u with exch := { u.exch with w := (s.exch.w + 1) % 512 } })
    have hm2 : u.exch.missed = s.exch.missed := congrArg Prod.snd hl
    exact h.trans (congrArg (Prod.mk _) hm2)
  · have hin : (s.exch.w + 1) % 512 < 2 ^ 16 := by omega
    exact (read16_write16_self 0 _ { u with exch := { u.exch with w := (s.exch.w + 1) % 512 } } mu (by decide)).trans
      (Nat.mod_eq_of_lt hin)
  · exact (read8_write16_other 0 _ b { u with exch := { u.exch with w := (s.exch.w + 1) % 512 } } (by omega)).trans (hb b hn)

/-! ### The missed kinds (R195) -/

theorem logPlace_setMissed (m : BitVec 64) (s : State) : logPlace (setMissed m s) = (s.exch.w, m) := by
  have h := logPlace_of_blank (s := setMissed m s) (t := { s with exch := { s.exch with missed := m } }) (by
    unfold setMissed; rw [blank_write32, blank_write32])
  exact h

theorem read32_setMissed (m : BitVec 64) {s : State} (hm : s.memOk) :
    (setMissed m s).read32 0x08 = m.toNat % 2 ^ 32 ∧ (setMissed m s).read32 0x0C = m.toNat / 2 ^ 32 := by
  have hlt := m.isLt
  have m0 : ({ s with exch := { s.exch with missed := m } } : State).memOk := hm
  have m1 := memOk_write32 0x08 (m.toNat % 2 ^ 32) _ m0
  unfold setMissed
  rw [read32_write32_other _ _ _ _ (by omega), read32_write32_self _ _ _ m0 (by decide), read32_write32_self _ _ _ m1 (by decide)]
  refine ⟨?_, ?_⟩ <;> omega

theorem read8_setMissed (m : BitVec 64) (s : State) (b : Nat) (hb : b < 8 ∨ 16 ≤ b) : (setMissed m s).read8 b = s.read8 b := by
  unfold setMissed
  rw [read8_write32_other _ _ _ _ (by omega)]
  exact read8_write32_other _ _ _ _ (by omega)

theorem memOk_setMissed (m : BitVec 64) {s : State} (hm : s.memOk) : (setMissed m s).memOk :=
  (own_setMissed (Own.refl s) m).mem hm

/-! ### A report's three ways (R195) -/

/-- The report has room with no kind missed. -/
theorem report_room (k : ReportKind) (x v1 v2 : Nat) {s : State} (hs : s.memOk) (hm : s.exch.missed = 0#64)
    (hr : unread s.exch.w s.rd < reportLimit k s) : report k x v1 v2 s = writeEntry k x v1 v2 (readLevels s) := by
  have hp := logPlace_readLevels s
  simp only [logPlace, Prod.mk.injEq] at hp
  unfold report
  dsimp only
  rw [hp.1, hp.2, rd_readLevels, reportLimit_readLevels hs, if_pos hm, if_pos hr]

/-- The report has no room, or room that a RESYNC would take. -/
theorem report_missed (k : ReportKind) (x v1 v2 : Nat) {s : State} (hs : s.memOk)
    (hr : if s.exch.missed = 0#64 then reportLimit k s ≤ unread s.exch.w s.rd else reportLimit k s ≤ unread s.exch.w s.rd + 1) :
    report k x v1 v2 s = setMissed (s.exch.missed ||| (1#64 <<< k.code)) (readLevels s) := by
  have hp := logPlace_readLevels s
  simp only [logPlace, Prod.mk.injEq] at hp
  unfold report
  dsimp only
  rw [hp.1, hp.2, rd_readLevels, reportLimit_readLevels hs]
  split
  · next h => rw [if_pos h] at hr; rw [if_neg (by omega)]
  · next h => rw [if_neg h] at hr; rw [if_neg (by omega)]

/-- Kinds are missed, and there is room for the report and a RESYNC. -/
theorem report_resync (k : ReportKind) (x v1 v2 : Nat) {s : State} (hs : s.memOk) (hm : s.exch.missed ≠ 0#64)
    (hr : unread s.exch.w s.rd + 1 < reportLimit k s) :
    report k x v1 v2 s = writeEntry k x v1 v2 (setMissed 0#64 (writeEntry .resync 0 (s.exch.missed.toNat % 2 ^ 32)
      (s.exch.missed.toNat / 2 ^ 32) (readLevels s))) := by
  have hp := logPlace_readLevels s
  simp only [logPlace, Prod.mk.injEq] at hp
  unfold report
  dsimp only
  rw [hp.1, hp.2, rd_readLevels, reportLimit_readLevels hs, if_neg hm, if_pos hr]

theorem reportLimit_eq (k : ReportKind) (s : State) : reportLimit k s = if k.low then s.almost else 511 := rfl

theorem logBound_readLevels {s : State} (hs : Sound s) : (readLevels s).exch.w < 512 := by
  rw [show (readLevels s).exch.w = s.exch.w from congrArg Prod.fst (logPlace_readLevels s)]
  exact hs.limits.logPointer

/-- Settles O15: the one entry that a report with room writes. -/
theorem reportIsAppendedWhole : Obligations.ReportIsAppendedWhole := by
  intro k x v1 v2 s hs hm hroom
  have hp := logPlace_readLevels s
  have hw : (readLevels s).exch.w = s.exch.w := congrArg Prod.fst hp
  have hc := code_lt k
  have hclk := hs.limits.clock
  unfold Config.clockMod at hclk
  have e := entryWritten_writeEntry k x v1 v2 (memOk_readLevels hs.mem) (logBound_readLevels hs)
  dsimp only
  rw [report_room k x v1 v2 hs.mem hm hroom]
  obtain ⟨head, clock, first, second, place, pointer, others⟩ := e
  have hclock : (readLevels s).clock = s.clock := by simp
  rw [hw] at head clock first second place pointer others
  rw [show (readLevels s).exch.missed = s.exch.missed from congrArg Prod.snd hp, logPlace, Prod.mk.injEq] at place
  obtain ⟨b0, b1, b2⟩ := bytes_of_read32 (writeEntry k x v1 v2 (readLevels s)) (0x1400 + 16 * s.exch.w)
  rw [head] at b0 b1 b2
  refine ⟨?_, ?_, ?_, ?_, first, second, place.1, pointer, place.2.trans hm, fun b hb hb2 => ?_, ?_⟩
  · rw [b0]; split <;> omega
  · rw [b1]; split <;> omega
  · rw [b2]; split <;> omega
  · rw [clock, hclock]; omega
  · rw [others b hb (by omega), read8_readLevels s b (by omega)]
  · exact inside_of_body (by simp)

/-- Settles O16: the kind kept where there is no room, and the two entries where there is room again. -/
theorem reportWithoutRoomIsMissed : Obligations.ReportWithoutRoomIsMissed := by
  intro k x v1 v2 s hs
  have hp := logPlace_readLevels s
  have hw : (readLevels s).exch.w = s.exch.w := congrArg Prod.fst hp
  dsimp only
  refine ⟨fun hr => ?missed, fun hm hr => ?resync⟩
  case missed =>
    rw [report_missed k x v1 v2 hs.mem hr]
    have hl := logPlace_setMissed (s.exch.missed ||| (1#64 <<< k.code)) (readLevels s)
    obtain ⟨h0, h1⟩ := read32_setMissed (s.exch.missed ||| (1#64 <<< k.code)) (memOk_readLevels hs.mem)
    rw [logPlace, Prod.mk.injEq] at hl
    refine ⟨hl.2, hl.1.trans hw, fun b hb => ?_, by rw [h0, hl.2], by rw [h1, hl.2]⟩
    rw [read8_setMissed _ _ b (.inr hb), read8_readLevels s b (by omega)]
  case resync =>
    rw [report_resync k x v1 v2 hs.mem hm hr]
    have hlt := s.exch.missed.isLt
    have hm1 := memOk_readLevels hs.mem
    have hw1 := logBound_readLevels hs
    have e1 := entryWritten_writeEntry .resync 0 (s.exch.missed.toNat % 2 ^ 32) (s.exch.missed.toNat / 2 ^ 32) hm1 hw1
    have m1 : (writeEntry .resync 0 (s.exch.missed.toNat % 2 ^ 32) (s.exch.missed.toNat / 2 ^ 32) (readLevels s)).memOk :=
      (own_writeEntry (Own.refl _) _ _ _ _).mem hm1
    generalize writeEntry .resync 0 (s.exch.missed.toNat % 2 ^ 32) (s.exch.missed.toNat / 2 ^ 32) (readLevels s) = u at e1 m1
    obtain ⟨head1, -, first1, second1, place1, -, -⟩ := e1
    rw [hw] at head1 first1 second1 place1 hw1
    rw [logPlace, Prod.mk.injEq] at place1
    have place2 := logPlace_setMissed 0#64 u
    obtain ⟨z0, z1⟩ := read32_setMissed 0#64 m1
    have keep2 := fun b => read8_setMissed 0#64 u b
    have m2 := memOk_setMissed 0#64 m1
    generalize setMissed 0#64 u = v at place2 z0 z1 keep2 m2
    rw [logPlace, Prod.mk.injEq] at place2
    have hwv : v.exch.w = (s.exch.w + 1) % 512 := place2.1.trans place1.1
    have e2 := entryWritten_writeEntry k x v1 v2 m2 (by omega)
    obtain ⟨head2, -, first2, -, place3, -, others⟩ := e2
    generalize writeEntry k x v1 v2 v = t at head2 first2 place3 others
    rw [hwv] at head2 first2 place3 others
    rw [logPlace, Prod.mk.injEq] at place3
    have low (b : Nat) (h1 : 2 ≤ b) (h2 : b < 0x1400) : t.read8 b = v.read8 b := others b (by omega) h1
    have entry1 (d : Nat) (hd : d < 16) : t.read8 (0x1400 + 16 * s.exch.w + d) = u.read8 (0x1400 + 16 * s.exch.w + d) :=
      (others _ (by omega) (by omega)).trans (keep2 _ (by omega))
    have hc := code_lt k
    refine ⟨?_, ?_, ?_, ?_, ?_, ?_, ?_, ?_, ?_⟩
    · rw [place3.2, place2.2]
    · rw [place3.1]; omega
    · have g := entry1 0 (by omega)
      have b := (bytes_of_read32 u (0x1400 + 16 * s.exch.w)).1
      rw [head1] at b
      exact g.trans b
    · rw [← Nat.mod_mod_of_dvd s.exch.missed.toNat (dvd_refl (2 ^ 32)), ← first1]
      exact read32_of_read8 fun d _ => by rw [Nat.add_assoc]; exact entry1 _ (by omega)
    · have hs2 : s.exch.missed.toNat / 2 ^ 32 % 2 ^ 32 = s.exch.missed.toNat / 2 ^ 32 := by omega
      rw [← hs2, ← second1]
      exact read32_of_read8 fun d _ => by rw [Nat.add_assoc]; exact entry1 _ (by omega)
    · rw [(bytes_of_read32 t _).1, head2]
      split <;> omega
    · exact first2
    · exact (read32_of_read8 fun d _ => low _ (by omega) (by omega)).trans z0
    · exact (read32_of_read8 fun d _ => low _ (by omega) (by omega)).trans z1

end Sys2Proof.ReportLog
end

