-- ==== Sys2Proof/Proofs/QuietHeader.lean ====
section
/-! The header of exchange memory below the report log's fields, which the quiet end of a handling leaves alone. -/

namespace Sys2Proof.QuietHeader

open Sys2Proof.Machine

/-- The header from the poll interval on, and the DONE cause, as they were (12.1, R197). -/
structure HeaderKept (s t : State) : Prop where
  bytes : ∀ a, 0x10 ≤ a → a < 0x100 → t.read8 a = s.read8 a
  done : t.exch.done = s.exch.done

theorem HeaderKept.refl (s : State) : HeaderKept s s := ⟨fun _ _ _ => rfl, rfl⟩

theorem HeaderKept.trans {s t u : State} (h1 : HeaderKept s t) (h2 : HeaderKept t u) : HeaderKept s u :=
  ⟨fun a ha hb => (h2.bytes a ha hb).trans (h1.bytes a ha hb), h2.done.trans h1.done⟩

theorem HeaderKept.read8 {s t : State} (h : HeaderKept s t) {a : Nat} (h0 : 0x10 ≤ a) (h1 : a < 0x100) :
    t.read8 a = s.read8 a := h.bytes a h0 h1

theorem HeaderKept.read16 {s t : State} (h : HeaderKept s t) {a : Nat} (h0 : 0x10 ≤ a) (h1 : a + 1 < 0x100) :
    t.read16 a = s.read16 a := read16_of_read8 (h.bytes a h0 (by omega)) (h.bytes (a + 1) (by omega) h1)

/-- A change outside exchange memory. -/
theorem header_of_mem {s t : State} (h : t.exch.mem = s.exch.mem) (hd : t.exch.done = s.exch.done) : HeaderKept s t :=
  ⟨fun a _ _ => by unfold State.read8; rw [h], hd⟩

/-- The beginning may differ outside the exchange controller. -/
theorem HeaderKept.from {s u t : State} (h : HeaderKept u t) (he : u.exch = s.exch) : HeaderKept s t :=
  ⟨fun a h0 h1 => (h.bytes a h0 h1).trans (by unfold State.read8; rw [he]), h.done.trans (by rw [he])⟩

theorem done_of_blank {s t : State} (h : s.withMem [] = t.withMem []) : s.exch.done = t.exch.done := by
  have g := congrArg (fun u : State => u.exch.done) h
  exact g

theorem header_write16 (x v : Nat) (s : State) (h : x + 1 < 0x10 ∨ 0x100 ≤ x) : HeaderKept s (s.write16 x v) :=
  ⟨fun _ _ _ => read8_write16_other _ _ _ _ (by omega), done_of_blank (by simp)⟩

theorem header_write32 (x v : Nat) (s : State) (h : x + 3 < 0x10 ∨ 0x100 ≤ x) : HeaderKept s (s.write32 x v) :=
  ⟨fun _ _ _ => read8_write32_other _ _ _ _ (by omega), done_of_blank (by simp)⟩

theorem header_writeWord (b n k v : Nat) (s : State) (h : 0x100 ≤ b) : HeaderKept s (s.writeWord b n k v) := by
  unfold State.writeWord; split
  · exact header_write32 _ _ _ (by omega)
  · exact HeaderKept.refl s

theorem header_eachDo (l : List Nat) (f : Nat → State → State) (h : ∀ n t, HeaderKept t (f n t)) (s : State) :
    HeaderKept s (eachDo l f s) := by
  unfold eachDo
  induction l generalizing s with
  | nil => exact HeaderKept.refl s
  | cons n l ih => exact (h n s).trans (ih (f n s))

/-! ### Reports and completions -/

theorem done_readLevels (s : State) : (readLevels s).exch.done = s.exch.done :=
  done_of_blank (s := (s.write16 0x04 s.notify).write16 0x06 s.almost) (t := s) (by simp)

theorem header_readLevels (s : State) : HeaderKept s (readLevels s) :=
  ⟨fun a ha _ => ReportLog.read8_readLevels s a (.inr (Nat.le_trans (by decide) ha)), done_readLevels s⟩

theorem header_setMissed (m : BitVec 64) (s : State) : HeaderKept s (setMissed m s) := by
  have h := (header_write32 0x08 (m.toNat % 2 ^ 32) { s with exch := { s.exch with missed := m } } (.inl (by omega))).trans
    (header_write32 0x0C (m.toNat / 2 ^ 32) _ (.inl (by omega)))
  exact ⟨h.bytes, h.done⟩

/-- The log pointer moved on, with the REPORTS cause. -/
theorem header_advance (w : Nat) (u : State) :
    HeaderKept u (evalReports (({ u with exch := { u.exch with w := w } } : State).write16 0 w)) := by
  have h := header_write16 0 w ({ u with exch := { u.exch with w := w } } : State) (.inl (by omega))
  exact ⟨h.bytes, h.done⟩

theorem header_writeEntry (k : ReportKind) (x v1 v2 : Nat) (s : State) : HeaderKept s (writeEntry k x v1 v2 s) := by
  unfold writeEntry Config.logBase
  exact (header_write32 _ _ s (.inr (by omega))).trans (header_write32 _ _ _ (.inr (by omega))) |>.trans
    (header_write32 _ _ _ (.inr (by omega))) |>.trans (header_write32 _ _ _ (.inr (by omega))) |>.trans (header_advance _ _)

theorem header_report (k : ReportKind) (x v1 v2 : Nat) (s : State) : HeaderKept s (report k x v1 v2 s) := by
  unfold report
  refine (header_readLevels s).trans ?_
  dsimp only
  split_ifs
  · exact header_writeEntry _ _ _ _ _
  · exact header_setMissed _ _
  · exact (header_writeEntry _ _ _ _ _).trans ((header_setMissed _ _).trans (header_writeEntry _ _ _ _ _))
  · exact header_setMissed _ _

/-! ### The end of a handling -/

theorem header_recomputeOne (x : Nat) (s : State) : HeaderKept s (recomputeOne x s) := by
  unfold recomputeOne; split
  · dsimp only; split
    · exact HeaderKept.refl s
    · refine HeaderKept.trans ?_ (header_report _ _ _ _ _)
      unfold mirrorSignal mirrorSignalNow
      split
      · split
        · exact (header_writeWord Config.signalMirror 192 x _ _ (by decide)).from rfl
        · exact header_of_mem rfl rfl
      · exact header_of_mem rfl rfl
  · exact HeaderKept.refl s

theorem header_recomputeAspects (s : State) : HeaderKept s (recomputeAspects s) := by
  unfold recomputeAspects; split
  · exact (header_eachDo _ _ header_recomputeOne _).from rfl
  · exact header_of_mem rfl rfl

theorem header_settleOne (i : Nat) (s : State) : HeaderKept s (settleOne i s) := by
  unfold settleOne; split
  · exact HeaderKept.refl s
  · dsimp only; split
    · exact HeaderKept.refl s
    · exact (header_writeWord Config.lampMirror 24 (i / 16) _ _ (by decide)).from rfl

theorem header_settleLamps (s : State) : HeaderKept s (settleLamps s) := by
  unfold settleLamps; split
  · exact (header_eachDo _ _ header_settleOne _).from rfl
  · exact HeaderKept.refl s

theorem header_settleVisitorWord (b : State) (k : Nat) (s : State) : HeaderKept s (settleVisitorWord b k s) := by
  unfold settleVisitorWord; split
  · exact HeaderKept.refl s
  · exact header_writeWord _ _ _ _ _ (by decide)

theorem header_settleVisitors (b s : State) : HeaderKept s (settleVisitors b s) := by
  unfold settleVisitors settleButtons
  exact (header_eachDo _ _ (fun n t => header_of_mem (s := t) (t := settleButton n t) rfl rfl) s).trans
    (header_eachDo _ _ (header_settleVisitorWord b) _)

theorem quietEnd_iff {s : State} : quietEnd s = true ↔ s.work.step = none ∧ noHead s = true ∧
    (s.work.pass = true → dispatchIdle s = true) ∧ (s.work.reexam = true → s.ilk.stack = []) := by
  unfold quietEnd
  simp only [Bool.and_eq_true, Bool.or_eq_true, Option.isNone_iff_eq_none, Bool.not_eq_true', List.isEmpty_iff,
    ← Bool.not_eq_true, ← imp_iff_not_or, and_assoc]

theorem header_endHandling (b s : State) (h1 : s.work.step = none) (h2 : noHead s = true) :
    HeaderKept s (endHandling b s) := by
  unfold endHandling
  rw [runVisitor_idle s h1, testHeads_idle 16 s h2]
  exact (header_recomputeAspects s).trans (header_settleLamps _) |>.trans (header_settleVisitors b _) |>.trans
    (header_of_mem rfl rfl)

theorem quietEnd_endHandling (b s : State) (h : quietEnd s = true) : quietEnd (endHandling b s) = true := by
  obtain ⟨h1, h2, -, -⟩ := quietEnd_iff.1 h
  rw [quietEnd_of_calm (calm_endHandling b s h1 h2)]
  exact h

theorem header_afterWork (n : Nat) (s : State) (h : quietEnd s = true) : HeaderKept s (afterWork n s) := by
  induction n generalizing s with
  | zero => exact HeaderKept.refl s
  | succ n ih =>
    obtain ⟨h1, h2, h3, h4⟩ := quietEnd_iff.1 h
    unfold afterWork
    split
    · next hp =>
      have hd : dispatchIdle { s with work := { s.work with pass := false } } = true := h3 hp
      have hq : quietEnd { s with work := { s.work with pass := false } } = true :=
        quietEnd_iff.2 ⟨h1, h2, fun _ => hd, h4⟩
      rw [dispatcherPass_idle _ hd]
      have hend := header_endHandling s { s with work := { s.work with pass := false } } h1 h2
      have hrest := ih _ (quietEnd_endHandling s _ hq)
      exact (hend.trans hrest).from rfl
    · split
      · next hr =>
        have hq : quietEnd { s with work := { s.work with reexam := false } } = true :=
          quietEnd_iff.2 ⟨h1, h2, h3, fun _ => h4 hr⟩
        rw [reexamine_empty s (h4 hr)]
        have hend := header_endHandling s { s with work := { s.work with reexam := false } } h1 h2
        have hrest := ih _ (quietEnd_endHandling s _ hq)
        exact (hend.trans hrest).from rfl
      · exact HeaderKept.refl s

/-- The end of a handling that leaves nothing to do leaves the header from the poll interval on. -/
theorem header_finish (b s : State) (h : quietEnd s = true) : HeaderKept s (finish b s) := by
  obtain ⟨h1, h2, -, -⟩ := quietEnd_iff.1 h
  exact (header_endHandling b s h1 h2).trans (header_afterWork 4096 _ (quietEnd_endHandling b s h)) |>.trans
    (header_of_mem rfl rfl)

end Sys2Proof.QuietHeader
end

