-- ==== Sys2Proof/Proofs/RequestIntake.lean ====
section
/-! One millisecond of the layout clock (O2), the examinations (O13, O14), and what the intake does with a slot whatever its
request (O17 to O19). -/

namespace Sys2Proof.RequestIntake

open Sys2Proof.Machine Sys2Proof.QuietHeader

/-! ### One millisecond (log 2) -/

/-- The flash count and the levels that follow it. -/
theorem inside_tickFlash (s : State) :
    inside (tickFlash s) = inside { s with disp := { s.disp with flash := (s.disp.flash + 1) % 1000 } } := by
  unfold tickFlash; dsimp only; split <;> rfl

/-- The flash count set, on states that agree inside. -/
theorem inside_flash {s t : State} (h : inside s = inside t) :
    inside { s with disp := { s.disp with flash := (s.disp.flash + 1) % 1000 } }
      = inside { t with disp := { t.disp with flash := (t.disp.flash + 1) % 1000 } } :=
  congrArg (fun u : State => ({ u with disp := { u.disp with flash := (u.disp.flash + 1) % 1000 } } : State)) h

theorem body_mirrorJogHold (s : State) : body (mirrorJogHold s) = body s := body_writeWord _ _ _ _ s

/-- Settles O2: the timers by the definition of a tick, whose mirror words and levels are outputs. -/
theorem emptyQueuePassesOneMillisecond : Obligations.EmptyQueuePassesOneMillisecond := by
  intro s hs
  refine ⟨tick s, by unfold step; rw [hs], memoryKept_of_own (own_tick s (own_refl s)), ?_⟩
  unfold tick
  dsimp only
  rw [ReportLog.inside_of_body (body_settleVisitorWord _ _ _), inside_tickFlash]
  split
  · exact (inside_flash (ReportLog.inside_of_body (body_mirrorJogHold _))).trans rfl
  · rfl

/-! ### A completed slot (R189) -/

theorem complete_of_mark {n : Nat} {tag : HostTag} {s : State} (r : Result) (w0 w1 : Nat) (hn : n < Config.numSlots)
    (hs : Tbl.find s.exch.inHand n = some tag) : ∃ u : State, u.withMem [] = s.withMem [] ∧
      (∀ a, ¬ inSlot n a → u.read8 a = s.read8 a) ∧
      complete n r w0 w1 s = evalLine { u with exch := { u.exch with inHand := Tbl.erase u.exch.inHand n, done := true } } := by
  refine ⟨((((s.write16 (slotAt n + 6) r.code).write32 (slotAt n + 0x18) w0).write32 (slotAt n + 0x1C) w1).write16
    (slotAt n + 4) tag.toNat).write16 (slotAt n) 3, by simp, fun a ha => ?_, ?_⟩
  · unfold inSlot at ha
    rw [read8_write16_other _ _ _ _ (by omega), read8_write16_other _ _ _ _ (by omega),
      read8_write32_other _ _ _ _ (by omega), read8_write32_other _ _ _ _ (by omega), read8_write16_other _ _ _ _ (by omega)]
  · unfold complete
    rw [if_pos hn, hs]

theorem complete_of_unmarked {n : Nat} {s : State} (r : Result) (w0 w1 : Nat) (hs : Tbl.find s.exch.inHand n = none) :
    complete n r w0 w1 s = s := by
  unfold complete
  rw [hs, ite_self]

/-- A completion of a slot that is not in hand is none; of one in hand, it writes in that slot alone. -/
theorem read8_complete (n : Nat) (r : Result) (w0 w1 : Nat) (s : State) (a : Nat) (ha : ¬ inSlot n a) :
    (complete n r w0 w1 s).read8 a = s.read8 a := by
  by_cases hn : n < Config.numSlots
  · cases hf : Tbl.find s.exch.inHand n with
    | none => rw [complete_of_unmarked r w0 w1 hf]
    | some tag =>
      obtain ⟨u, -, hu, he⟩ := complete_of_mark r w0 w1 hn hf
      rw [he]; exact hu a ha
  · unfold complete; rw [if_neg hn]

/-- Settles O17: the fields by `slotDone_complete`, the cause and the line by the completion's form. -/
theorem completionFillsTheSlot : Obligations.CompletionFillsTheSlot := by
  intro n tag r w0 w1 s hn hm hsort
  refine ⟨fun hf => ?_, fun hf => complete_of_unmarked r w0 w1 hf⟩
  have hdone := slotDone_complete n tag r w0 w1 s hn hm hf (Tbl.find_erase_self _ _ hsort)
  obtain ⟨u, hu, -, he⟩ := complete_of_mark r w0 w1 hn hf
  refine ⟨hdone, by rw [he]; rfl, fun hen => ?_, read8_complete n r w0 w1 s⟩
  have hue : u.exch.enable = s.exch.enable := by
    have g := congrArg (fun x : State => x.exch.enable) hu
    exact g
  have ha : (complete n r w0 w1 s).exch.attn
      = ((u.exch.reports && u.exch.enable.reports) || (true && u.exch.enable.done) || (u.exch.stop && u.exch.enable.stop)) := by
    rw [he]; rfl
  rw [ha, hue, hen]
  simp

/-! ### Requests that are not served (R189, R190) -/

/-- A served request's block answers WRONG_STATE, as an intake that refuses the run state does. -/
theorem requestCommand_wrong {al : Allowed} {f : Nat → State → State} {q : Request} {s : State} {rs : RunState}
    (h : Ready rs s) (hal : al.ok rs = false) (hrs : rs ≠ .initializing) :
    requestCommand al f q s = requestCommand .both (fun n => complete n .wrongState rs.code 0) q s := by
  rw [request_wrong h hal hrs, request_next h (by simp [Allowed.ok, hrs]) hrs]

/-- Settles O18: in the intake, and in the block of SET_PARAMETERS. -/
theorem wrongRunStateIsAnswered : Obligations.WrongRunStateIsAnswered := by
  refine ⟨fun c al q r s hq hr hrs hrest hal => ?intake, fun tag offset count s hr hrest => ?track⟩
  case intake =>
    obtain ⟨f, -, he⟩ := HalfWordLatch.exec_of_requestOf hq s
    rw [requestCommand_wrong hr hal hrs] at he
    exact replies_same he hr (by simp [Allowed.ok, hrs]) hrs rfl hrest
  case track =>
    obtain ⟨f, hf, he⟩ := HalfWordLatch.exec_of_requestOf (c := .setParameters tag 1#32 offset count) rfl s
    refine replies_same he hr rfl (by decide) ?_ hrest
    have hrun : (taken ⟨8, tag, 1#32, offset, count⟩ s).exch.runState = .running := by rw [taken_shape]; exact hr.state
    cases hf
    change setParameters _ 1 _ _ _ = _
    unfold setParameters groupOf State.running
    simp [hrun, RunState.code]

/-- The record that a command posts, as the host finds it (12.1). -/
structure Posted (n : Nat) (q : Request) (t : State) : Prop where
  state : t.read16 (slotAt n) = 1
  kind : t.read16 (slotAt n + 2) = q.kind % 2 ^ 16
  tag : t.read16 (slotAt n + 4) = q.tag.toNat
  word0 : t.read32 (slotAt n + 8) = q.w0.toNat
  word1 : t.read32 (slotAt n + 12) = q.w1.toNat
  word2 : t.read32 (slotAt n + 16) = q.w2.toNat

theorem posted_postSlot {n : Nat} (hn : n < Config.numSlots) (q : Request) {s : State} (hm : s.memOk) :
    Posted n q (postSlot n q s) := by
  have ha : slotAt n + 31 < Config.memBytes := by
    unfold Config.numSlots at hn; unfold slotAt Config.slotBase Config.memBytes; omega
  unfold postSlot
  dsimp only
  generalize ea : slotAt n = a at *
  have m1 := memOk_write16 (a + 2) q.kind s hm
  have m2 := memOk_write16 (a + 4) q.tag.toNat _ m1
  have m3 := memOk_write32 (a + 8) q.w0.toNat _ m2
  have m4 := memOk_write32 (a + 12) q.w1.toNat _ m3
  have m5 := memOk_write32 (a + 16) q.w2.toNat _ m4
  generalize ht : (((((s.write16 (a + 2) q.kind).write16 (a + 4) q.tag.toNat).write32 (a + 8) q.w0.toNat).write32 (a + 12)
    q.w1.toNat).write32 (a + 16) q.w2.toNat).write16 a 1 = t
  have f0 : t.read16 a = 1 := by subst ht; exact read16_write16_self a 1 _ m5 (by omega)
  have f1 : t.read16 (a + 2) = q.kind % 2 ^ 16 := by
    subst ht
    rw [read16_write16_other _ _ _ _ (by omega), read16_write32_other _ _ _ _ (by omega),
      read16_write32_other _ _ _ _ (by omega), read16_write32_other _ _ _ _ (by omega),
      read16_write16_other _ _ _ _ (by omega), read16_write16_self _ _ _ hm (by omega)]
  have f2 : t.read16 (a + 4) = q.tag.toNat := by
    subst ht
    rw [read16_write16_other _ _ _ _ (by omega), read16_write32_other _ _ _ _ (by omega),
      read16_write32_other _ _ _ _ (by omega), read16_write32_other _ _ _ _ (by omega), read16_write16_self _ _ _ m1 (by omega)]
    exact Nat.mod_eq_of_lt q.tag.isLt
  have f3 : t.read32 (a + 8) = q.w0.toNat := by
    subst ht
    rw [read32_write16_other _ _ _ _ (by omega), read32_write32_other _ _ _ _ (by omega),
      read32_write32_other _ _ _ _ (by omega), read32_write32_self _ _ _ m2 (by omega)]
    exact Nat.mod_eq_of_lt q.w0.isLt
  have f4 : t.read32 (a + 12) = q.w1.toNat := by
    subst ht
    rw [read32_write16_other _ _ _ _ (by omega), read32_write32_other _ _ _ _ (by omega),
      read32_write32_self _ _ _ m3 (by omega)]
    exact Nat.mod_eq_of_lt q.w1.isLt
  have f5 : t.read32 (a + 16) = q.w2.toNat := by
    subst ht
    rw [read32_write16_other _ _ _ _ (by omega), read32_write32_self _ _ _ m4 (by omega)]
    exact Nat.mod_eq_of_lt q.w2.isLt
  constructor <;> rw [ea]
  exacts [f0, f1, f2, f3, f4, f5]

theorem kind_of_blockOf {q : Request} {x : Allowed × (Nat → State → State)} (h : blockOf q = some x) : q.kind ≤ 26 := by
  unfold blockOf at h
  by_contra hk
  split at h <;> first | omega | contradiction

/-- Settles O19: a slot that may not be taken keeps the record that was posted in it. -/
theorem heldSlotStaysPosted : Obligations.HeldSlotStaysPosted := by
  intro c al q s hq hs hheld
  obtain ⟨f, hf, he⟩ := HalfWordLatch.exec_of_requestOf hq s
  have hblank := blank_postSlot s.exch.takePos q s
  have hmay : mayTake s.exch.takePos (postSlot s.exch.takePos q s) = false := by
    have hr := runState_of_blank hblank
    have hi := inHand_of_blank hblank
    unfold mayTake Tbl.has
    rw [hr, hi]
    obtain h | h := hheld
    · simp [Option.isSome_iff_ne_none.2 h]
    · simp [h]
  have hstay : requestCommand al f q s = postSlot s.exch.takePos q s := by
    unfold requestCommand; dsimp only; rw [if_neg (by simp [hmay])]
  rw [hstay] at he
  have hp := posted_postSlot hs.limits.takePos q hs.mem
  have hk := kind_of_blockOf hf
  exact ⟨_, he, eq_withMem hblank, hp.state, hp.kind.trans (Nat.mod_eq_of_lt (by omega)), hp.tag, hp.word0, hp.word1, hp.word2,
    fun a ha => read8_postSlot _ a q s ha⟩

/-! ### Examinations (R188) -/

/-- The header as an examination reads it and writes it back. -/
def headerRead (s : State) : State := readLevels (s.write16 0x10 (min (s.read16 0x10) 255))

theorem own_headerRead (s : State) : Own s (headerRead s) := own_readLevels (own_header16 (Own.refl s) _ _ (by decide))

theorem inside_headerRead (s : State) : inside (headerRead s) = inside s :=
  ReportLog.inside_of_body (by simp [headerRead])

/-- The poll timer started on states that agree inside. -/
theorem inside_pollTimer {s t : State} (n : Option Nat) (h : inside s = inside t) :
    inside { s with exch := { s.exch with pollTimer := n } } = inside { t with exch := { t.exch with pollTimer := n } } :=
  congrArg (fun u : State => ({ u with exch := { u.exch with pollTimer := n } } : State)) h

theorem read8_headerRead (s : State) (a : Nat) (h : 0x12 ≤ a) : (headerRead s).read8 a = s.read8 a := by
  unfold headerRead
  rw [ReportLog.read8_readLevels _ _ (by omega), read8_write16_other _ _ _ _ (by omega)]

theorem read16_slot_headerRead (s : State) (n d : Nat) : (headerRead s).read16 (slotAt n + d) = s.read16 (slotAt n + d) := by
  have h : 0x1000 ≤ slotAt n := by unfold slotAt Config.slotBase; omega
  exact read16_of_read8 (read8_headerRead s _ (by omega)) (read8_headerRead s _ (by omega))

theorem nextPosted_headerRead (s : State) : nextPosted (headerRead s) = nextPosted s := by
  have h := read16_slot_headerRead s s.exch.takePos 0
  have hp : (headerRead s).exch.takePos = s.exch.takePos := by simp [headerRead]
  unfold nextPosted mayTake
  rw [hp]
  simp only [Nat.add_zero] at h
  rw [h]
  simp [headerRead]

theorem nextPosted_eq_false {s : State} (h : NothingPosted s) : nextPosted s = false := by
  unfold nextPosted mayTake Tbl.has
  obtain h | h := h
  · simp [h]
  · simp [Option.isSome_iff_ne_none.2 h]

theorem takeSlots_idle {s : State} (n : Nat) (h : nextPosted s = false) : takeSlots n s = s := by
  cases n with
  | zero => rfl
  | succ n => unfold takeSlots; rw [if_neg (by simp [h])]

theorem loadedPoll_eq (s : State) :
    (if min (s.read16 0x10) 255 = 0 then none else some (min (s.read16 0x10) 255)) = loadedPoll s := by
  unfold loadedPoll
  split_ifs <;> first | rfl | omega

theorem examine_eq (s : State) : examine s = (fun u : State => { u with exch := { u.exch with pollTimer := loadedPoll s } })
    (takeSlots Config.numSlots (headerRead s)) := by
  unfold examine
  dsimp only
  rw [loadedPoll_eq]
  rfl

theorem examine_idle {s : State} (h : NothingPosted s) :
    examine s = { headerRead s with exch := { (headerRead s).exch with pollTimer := loadedPoll s } } := by
  rw [examine_eq, takeSlots_idle _ ((nextPosted_headerRead s).trans (nextPosted_eq_false h))]

theorem enable_readLevels (s : State) : (readLevels s).exch.enable = enableOf (s.read16 0x12) := by
  have h : ((s.write16 0x04 s.notify).write16 0x06 s.almost).read16 0x12 = s.read16 0x12 := by
    rw [read16_write16_other _ _ _ _ (by omega), read16_write16_other _ _ _ _ (by omega)]
  exact congrArg enableOf h

theorem examinedHeader_headerRead {s : State} (hm : s.memOk) : ExaminedHeader s (headerRead s) := by
  have m1 := memOk_write16 0x10 (min (s.read16 0x10) 255) s hm
  have r4 := read16_write16_other 0x10 (min (s.read16 0x10) 255) 0x04 s (by omega)
  have r6 := read16_write16_other 0x10 (min (s.read16 0x10) 255) 0x06 s (by omega)
  have r12 := read16_write16_other 0x10 (min (s.read16 0x10) 255) 0x12 s (by omega)
  obtain ⟨h4, h6⟩ := ReportLog.levels_readLevels m1
  unfold headerRead
  refine ⟨?_, ?_, ?_, ?_⟩
  · rw [(header_readLevels _).read16 (by omega) (by omega), read16_write16_self _ _ _ hm (by decide)]
    omega
  · rw [h4, State.notify, r4]; rfl
  · rw [h6, State.almost, State.notify, r4, r6]; rfl
  · rw [enable_readLevels, r12]
    simp [enableOf, bitsOf]

/-- An examination that finds nothing posted reads the header and starts the poll timer. -/
theorem examination_idle {s : State} (hs : Sound s) (h : NothingPosted s) :
    ExaminedHeader s (examine s) ∧ Own s (examine s) ∧
      inside (examine s) = inside { s with exch := { s.exch with pollTimer := loadedPoll s } } := by
  have he := examinedHeader_headerRead hs.mem
  have ho := own_headerRead s
  have hi := inside_pollTimer (loadedPoll s) (inside_headerRead s)
  rw [examine_idle h]
  exact ⟨⟨he.interval, he.notify, he.almost, he.enable⟩, own_same ho rfl rfl, hi⟩

/-- Settles O13: what an idle examination is, for each of its causes. -/
theorem examinationOfNothingPosted : Obligations.ExaminationOfNothingPosted := by
  refine ⟨fun s v hs hr hn => ?nudge, fun s n hs hp hn => ?poll, fun s v hr => ?initializing, fun s hp => ?stopped⟩
  case nudge =>
    obtain ⟨he, ho, hi⟩ := examination_idle (s := breakPairing s) (StepInvariants.sound_breakPairing hs) hn
    have hx : nudged s = examine (breakPairing s) := by unfold nudged; dsimp only; exact if_neg hr
    exact ⟨_, congrArg Host.Outcome.next hx, ⟨he.interval, he.notify, he.almost, he.enable⟩,
      memoryKept_of_own ((StepInvariants.own_breakPairing s).trans ho), hi⟩
  case poll =>
    obtain ⟨he, ho, hi⟩ := examination_idle hs hn
    have hx : pollExpires s = examine s := by unfold pollExpires; rw [hp]
    exact ⟨_, congrArg Host.Outcome.next hx, he, memoryKept_of_own ho, hi⟩
  case initializing =>
    have hx : nudged s = breakPairing s := by unfold nudged; dsimp only; exact if_pos hr
    exact congrArg Host.Outcome.next hx
  case stopped =>
    have hx : pollExpires s = s := by unfold pollExpires; rw [hp]
    exact congrArg Host.Outcome.next hx

/-! ### An unknown kind (R189) -/

theorem blockOf_unknown {q : Request} (h : q.kind = 0 ∨ 26 < q.kind) : blockOf q = none := by
  cases hb : blockOf q with
  | none => rfl
  | some x =>
    have hk := kind_of_blockOf hb
    have hz : q.kind = 0 := by omega
    unfold blockOf at hb
    rw [hz] at hb
    cases hb

theorem mark_takeSlot (n : Nat) (g : HostTag) (s : State) :
    (takeSlot n g s).exch.inHand = Tbl.insert s.exch.inHand n g :=
  inHand_of_blank (blank_takeSlot n g s)

/-- A slot taken from a state and answered in one handling, the rest of the port as it was. -/
theorem memoryKept_takeSlot {n : Nat} {g : HostTag} {s t : State} (h : Own (takeSlot n g s) t) (hn : n < Config.numSlots) :
    MemoryKept (some n) s t := by
  refine ⟨fun a ha _ => ?_, fun m a hm hb g2 ha => ?_⟩
  · rw [h.host a ha, host_takeSlot n g s hn a ha]
  · have hne : m ≠ n := fun e => hb (e ▸ rfl)
    have hfar : 0x1000 ≤ a ∧ a ≠ slotAt n ∧ a ≠ slotAt n + 1 := by unfold inSlot slotAt Config.slotBase at *; omega
    have hmark : Tbl.find (takeSlot n g s).exch.inHand m = none := by
      rw [mark_takeSlot]; exact (Tbl.find_insert_other _ _ _ _ hne).trans g2
    rw [(h.idle m hm hmark).2 a ha, read8_takeSlot n a g s hfar.2.1 hfar.2.2 (by omega) (by omega)]

section
variable {tag : HostTag} {u : State} (hm : u.memOk) (hn : u.exch.takePos < Config.numSlots)
  (hmark : Tbl.find u.exch.inHand u.exch.takePos = none)

/-- The slot at the take position, taken with a tag and answered UNKNOWN_REQUEST. -/
def answeredUnknown (tag : HostTag) (u : State) : State :=
  complete u.exch.takePos .unknownRequest 0 0 (takeSlot u.exch.takePos tag u)

include hn hmark

theorem answeredUnknown_latch : (answeredUnknown tag u).exch.inHand = u.exch.inHand ∧ (answeredUnknown tag u).exch.done = true := by
  have hmarked : Tbl.find (takeSlot u.exch.takePos tag u).exch.inHand u.exch.takePos = some tag := by
    rw [mark_takeSlot]; exact Tbl.find_insert_self _ _ _
  obtain ⟨x, hxb, -, hcomp⟩ := complete_of_mark .unknownRequest 0 0 hn hmarked
  unfold answeredUnknown
  rw [hcomp]
  refine ⟨?_, rfl⟩
  exact (congrArg (fun i => Tbl.erase i u.exch.takePos) ((inHand_of_blank hxb).trans (mark_takeSlot _ _ _))).trans
    (Tbl.erase_insert _ _ _ hmark)

include hm

theorem slotDone_answeredUnknown : SlotDone u.exch.takePos tag .unknownRequest 0 0 (answeredUnknown tag u) := by
  have hmarked : Tbl.find (takeSlot u.exch.takePos tag u).exch.inHand u.exch.takePos = some tag := by
    rw [mark_takeSlot]; exact Tbl.find_insert_self _ _ _
  refine slotDone_complete _ tag _ 0 0 _ hn (memOk_takeSlot _ _ _ hm) hmarked ?_
  rw [mark_takeSlot, Tbl.erase_insert _ _ _ hmark]
  exact hmark

end

theorem read16_takePos (n : Nat) (g : HostTag) {s : State} (hm : s.memOk) :
    (takeSlot n g s).read16 0x14 = (n + 1) % Config.numSlots := by
  have hlt : (n + 1) % Config.numSlots < Config.numSlots := Nat.mod_lt _ (by decide)
  have hsmall : (n + 1) % Config.numSlots < 2 ^ 16 := Nat.lt_trans hlt (by decide)
  exact (read16_write16_self 0x14 _ _ (memOk_of_mem (by rfl) (memOk_write16 (slotAt n) 2 s hm)) (by decide)).trans
    (Nat.mod_eq_of_lt hsmall)

theorem read16_takePos_answered (tag : HostTag) {u : State} (hm : u.memOk) :
    (answeredUnknown tag u).read16 0x14 = (u.exch.takePos + 1) % Config.numSlots := by
  have far (n : Nat) : ¬ inSlot n 0x14 ∧ ¬ inSlot n 0x15 := by unfold inSlot slotAt Config.slotBase; omega
  rw [← read16_takePos u.exch.takePos tag hm]
  exact read16_of_read8 (read8_complete _ _ _ _ _ _ (far _).1) (read8_complete _ _ _ _ _ _ (far _).2)

/-- An examination whose first slot is of an unknown kind and whose second is not posted. -/
theorem takeSlots_unknown {tag : HostTag} {u : State} (n : Nat) (hpos : nextPosted u = true)
    (hblock : blockOf (slotRequest u.exch.takePos u) = none) (htag : (slotRequest u.exch.takePos u).tag = tag)
    (hnext : nextPosted (finish u (answeredUnknown tag u)) = false) :
    takeSlots (n + 1) u = finish u (answeredUnknown tag u) := by
  have hserve : serveSlot u.exch.takePos (slotRequest u.exch.takePos u) (takeSlot u.exch.takePos tag u) = answeredUnknown tag u := by
    unfold serveSlot; rw [hblock]; rfl
  unfold takeSlots
  dsimp only
  rw [if_pos hpos, htag, hserve, takeSlots_idle n hnext]

/-- The end of the handling in which a slot of an unknown kind was answered. -/
theorem finish_answeredUnknown {tag : HostTag} {u : State} (hm : u.memOk) (hn : u.exch.takePos < 32)
    (hmark : Tbl.find u.exch.inHand u.exch.takePos = none) (hwork : u.work = Work.none) (hvis : u.vis.queue = []) :
    SlotDone u.exch.takePos tag .unknownRequest 0 0 (finish u (answeredUnknown tag u)) ∧
      (finish u (answeredUnknown tag u)).exch.takePos = (u.exch.takePos + 1) % 32 ∧
      (finish u (answeredUnknown tag u)).read16 0x14 = (u.exch.takePos + 1) % 32 ∧
      (finish u (answeredUnknown tag u)).exch.done = true ∧
      Own (takeSlot u.exch.takePos tag u) (finish u (answeredUnknown tag u)) ∧
      ∀ m, m ≠ u.exch.takePos → m < 32 → Tbl.find u.exch.inHand m = none →
        Tbl.find (finish u (answeredUnknown tag u)).exch.inHand m = none ∧
        (finish u (answeredUnknown tag u)).read16 (slotAt m) = u.read16 (slotAt m) := by
  have htaken := blank_takeSlot u.exch.takePos tag u
  have hown : Own (takeSlot u.exch.takePos tag u) (answeredUnknown tag u) := own_complete (Own.refl _) _ _ _ _
  have hend : Own (answeredUnknown tag u) (finish u (answeredUnknown tag u)) := own_finish _ _ (Own.refl _)
  have hquiet : quietEnd (answeredUnknown tag u) = true := by
    apply quietEnd_of_none <;> simp [answeredUnknown, takeSlot, hwork, hvis]
  have hheader := header_finish u _ hquiet
  refine ⟨(slotDone_answeredUnknown hm hn hmark).own hn hend, ?_, ?_, ?_, hown.trans hend, fun m hne hlt hfree => ?_⟩
  · have h := congrArg Kept.takePos (kept_finish u (answeredUnknown tag u))
    change _ = (answeredUnknown tag u).exch.takePos at h
    exact h.trans (by simp [answeredUnknown, takeSlot, Config.numSlots])
  · rw [hheader.read16 (by omega) (by omega), read16_takePos_answered tag hm]; rfl
  · rw [hheader.done]; exact (answeredUnknown_latch hn hmark).2
  · have hfree2 : Tbl.find (answeredUnknown tag u).exch.inHand m = none := by
      rw [(answeredUnknown_latch hn hmark).1]; exact hfree
    obtain ⟨hm1, hm2⟩ := hend.idle m hlt hfree2
    have hin : inSlot m (slotAt m) ∧ inSlot m (slotAt m + 1) := by unfold inSlot; omega
    have hout : ¬ inSlot u.exch.takePos (slotAt m) ∧ ¬ inSlot u.exch.takePos (slotAt m + 1) := by
      unfold inSlot slotAt; omega
    have hbytes (d : Nat) (hd : d < 2) : (answeredUnknown tag u).read8 (slotAt m + d) = u.read8 (slotAt m + d) := by
      have ho : ¬ inSlot u.exch.takePos (slotAt m + d) := by unfold inSlot slotAt; omega
      unfold answeredUnknown
      rw [read8_complete _ _ _ _ _ _ ho]
      unfold inSlot slotAt Config.slotBase at *
      exact read8_takeSlot _ _ _ _ (by unfold slotAt Config.slotBase; omega) (by unfold slotAt Config.slotBase; omega)
        (by omega) (by omega)
    exact ⟨hm1, (read16_of_read8 (hm2 _ hin.1) (hm2 _ hin.2)).trans
      (read16_of_read8 (hbytes 0 (by omega)) (hbytes 1 (by omega)))⟩

/-- Settles O14: the one slot that the examination takes, and the next, which stays. -/
theorem examinationAnswersAnUnknownKind : Obligations.ExaminationAnswersAnUnknownKind := by
  intro s v tag hs hrest hr hposted hmark hkind htag hnext hnextMark
  have hn : s.exch.takePos < 32 := hs.limits.takePos
  have hx : nudged s = examine (breakPairing s) := by unfold nudged; dsimp only; exact if_neg hr
  -- what the examination finds, once it has read the header
  have hown : Own s (headerRead (breakPairing s)) := (StepInvariants.own_breakPairing s).trans (own_headerRead _)
  have hreads (n d : Nat) : (headerRead (breakPairing s)).read16 (slotAt n + d) = s.read16 (slotAt n + d) :=
    read16_slot_headerRead (breakPairing s) n d
  have hpos : nextPosted (headerRead (breakPairing s)) = true := by
    rw [nextPosted_headerRead]
    have h1 : (breakPairing s).read16 (slotAt (breakPairing s).exch.takePos) = 1 := hposted
    have h2 : Tbl.find (breakPairing s).exch.inHand (breakPairing s).exch.takePos = none := hmark
    unfold nextPosted mayTake Tbl.has
    rw [h1, h2]
    simpa using hr
  have hfields : (headerRead (breakPairing s)).exch.takePos = s.exch.takePos ∧
      (headerRead (breakPairing s)).exch.inHand = s.exch.inHand ∧ (headerRead (breakPairing s)).work = s.work ∧
      (headerRead (breakPairing s)).vis = s.vis := by
    simp [headerRead, breakPairing]
  have hmem : (headerRead (breakPairing s)).memOk := hown.mem hs.mem
  have hexam := examine_eq (breakPairing s)
  generalize headerRead (breakPairing s) = u at *
  obtain ⟨ftake, fhand, fwork, fvis⟩ := hfields
  have hrtag : (slotRequest s.exch.takePos u).tag = tag := BitVec.eq_of_toNat_eq ((hreads _ 4).trans htag)
  have hblock : blockOf (slotRequest s.exch.takePos u) = none :=
    blockOf_unknown (by rw [← hreads _ 2] at hkind; exact hkind)
  have hend := finish_answeredUnknown (tag := tag) hmem (by rw [ftake]; exact hn) (by rw [ftake, fhand]; exact hmark)
    (by rw [fwork]; exact hrest.work) (by rw [fvis]; exact hrest.shows)
  have hslots := takeSlots_unknown (tag := tag) 31 hpos (by rw [ftake]; exact hblock) (by rw [ftake]; exact hrtag)
  rw [ftake, fhand] at hend
  obtain ⟨hdone, htake, hhead, hlatch, htaken, hothers⟩ := hend
  -- the next slot, which stays
  have hother := hothers ((s.exch.takePos + 1) % 32) (by omega) (by omega) hnextMark
  have hstays : nextPosted (finish u (answeredUnknown tag u)) = false := by
    have hne : u.read16 (slotAt ((s.exch.takePos + 1) % 32)) ≠ 1 := by
      have h := hreads ((s.exch.takePos + 1) % 32) 0
      rw [Nat.add_zero] at h
      rw [h]; exact hnext
    unfold nextPosted
    rw [htake, hother.2]
    simp [hne]
  have hall := hexam.trans (congrArg (fun x : State => { x with exch := { x.exch with pollTimer := loadedPoll (breakPairing s) } })
    (hslots hstays))
  refine ⟨_, congrArg Host.Outcome.next (hx.trans hall), ?_, htake, hhead, hlatch, ?_⟩
  · exact ⟨hdone.state, hdone.tag, hdone.code, hdone.word0, hdone.word1, hdone.mark⟩
  · have hkeep := memoryKept_takeSlot htaken hn
    refine ⟨fun a ha hb => (hkeep.host a ha hb).trans (hown.host a ha), fun n a h1 h2 h3 h4 => ?_⟩
    exact (hkeep.idle n a h1 h2 (by rw [fhand]; exact h3) h4).trans ((hown.idle n h1 h3).2 a h4)

end Sys2Proof.RequestIntake
end

