-- ==== Sys2Proof/Proofs/LayoutStands.lean ====
section
/-! What stands for the layout: the loaded records, the run state and the profile, which no command but their own change
(O8). -/

namespace Sys2Proof.LayoutStands

open Sys2Proof.Machine Sys2Proof.CommandShapes

/-- The loaded records, the run state and the profile. A head is its sides and its inversion. -/
structure Standing where
  sections : Tbl SectionRec
  heads : Nat → Option (Option Nat × Option Nat × Bool)
  routes : Tbl RouteRec
  points : Tbl PointRec
  signals : Tbl SignalRec
  deck : Option DeckRec
  roads : Tbl Road
  shows : Tbl ShowRec
  lamps : Tbl Lamp
  profile : Profile
  runState : RunState

/-- A head by its sides and its inversion. -/
def headKey (h : Head) : Option Nat × Option Nat × Bool := (h.aSide, h.bSide, h.invert)

/-- What stands, among the fields that the end of a handling leaves alone. -/
def standing (k : Kept) : Standing :=
  { sections := k.occ.recs, heads := fun n => (Tbl.find k.occ.heads n).map headKey, routes := k.routes,
    points := k.pointRecs, signals := k.signalRecs, deck := k.deck, roads := k.roads, shows := k.shows, lamps := k.bind,
    profile := k.profile, runState := k.runState }

/-- The same without the run state. -/
def records (k : Kept) : Standing := { standing k with runState := .initializing }

theorem records_of_standing {k l : Kept} (h : standing k = standing l) : records k = records l :=
  congrArg (fun x : Standing => { x with runState := .initializing }) h

@[simp] theorem records_runState (k : Kept) (r : RunState) : records { k with runState := r } = records k := rfl

@[simp] theorem standing_layoutStop (k : Kept) (c : RunCondition) (w : Option StopCause) (p : Bool) :
    standing { k with cond := c, cause := w, power := p } = standing k := rfl

theorem standing_of_still {s t : State} (h : (kept t).still = (kept s).still) : standing (kept t) = standing (kept s) := by
  have g := congrArg standing h
  exact g

theorem standing_eachDo (l : List Nat) (f : Nat → State → State) (s : State)
    (h : ∀ n t, standing (kept (f n t)) = standing (kept t)) : standing (kept (eachDo l f s)) = standing (kept s) := by
  unfold eachDo
  induction l generalizing s with
  | nil => rfl
  | cons n l ih => rw [List.foldl_cons, ih, h]

/-! ### Shared operations -/

@[simp] theorem standing_enterAllStop (c : StopCause) (s : State) :
    standing (kept (enterAllStop c s)) = standing (kept s) := standing_of_still (still_enterAllStop c s)

@[simp] theorem standing_setTag (t : Nat) (v : Tag) (s : State) : standing (kept (setTag t v s)) = standing (kept s) :=
  standing_of_still (still_setTag t v s)

@[simp] theorem standing_freeLostTag (t : Nat) (s : State) : standing (kept (freeLostTag t s)) = standing (kept s) :=
  standing_of_still (still_freeLostTag t s)

@[simp] theorem standing_arrive (n : Nat) (s : State) : standing (kept (arrive n s).1) = standing (kept s) :=
  standing_of_still (still_arrive n s)

@[simp] theorem standing_sectionChanged (n : Nat) (old : SectionState) (s : State) :
    standing (kept (sectionChanged n old s)) = standing (kept s) := standing_of_still (still_sectionChanged n old s)

@[simp] theorem standing_secs (x : Tbl Occupancy) (s : State) :
    standing (kept { s with occ := { s.occ with secs := x } }) = standing (kept s) := rfl

@[simp] theorem standing_updateSection (n : Nat) (f : Occupancy → Occupancy) (s : State) :
    standing (kept (updateSection n f s)) = standing (kept s) := by
  unfold updateSection; split
  · dsimp only; split
    · rw [kept_mirrorSection, standing_secs]
    · rw [standing_sectionChanged, standing_secs]
  · rfl

/-- A head set to one of the same sides and inversion. -/
theorem standing_setHead {k : Nat} {h g : Head} {s : State} (hf : Tbl.find s.occ.heads k = some h) (hg : headKey g = headKey h) :
    standing (kept (setHead k g s)) = standing (kept s) := by
  have hk : (fun n => (Tbl.find (Tbl.insert s.occ.heads k g) n).map headKey) = fun n => (Tbl.find s.occ.heads n).map headKey := by
    funext n
    by_cases e : n = k
    · subst e; rw [Tbl.find_insert_self, hf, Option.map_some, Option.map_some, hg]
    · rw [Tbl.find_insert_other _ _ _ _ e]
  exact congrArg (fun x => { standing (kept s) with heads := x }) hk

@[simp] theorem standing_mirrorVisitor (s : State) : standing (kept (mirrorVisitor s)) = standing (kept s) := by
  unfold mirrorVisitor; exact standing_eachDo _ _ _ (by simp)

@[simp] theorem standing_mirrorLamps (n : Nat) (s : State) : standing (kept (mirrorLamps n s)) = standing (kept s) := by
  induction n with
  | zero => rfl
  | succ n ih => unfold mirrorLamps mirrorLampWord; rw [kept_writeWord]; exact ih

theorem standing_setDeck (f : Turntable → Turntable) (s : State) (h1 : (f s.tt).deck = s.tt.deck)
    (h2 : (f s.tt).roads = s.tt.roads) : standing (kept (setDeck f s)) = standing (kept s) := by
  unfold setDeck
  rw [kept_mirrorTable]
  simp only [standing, kept, h1, h2]

/-! ### Detection (R3 to R14) -/

@[simp] theorem standing_doubt (x : Option Nat) (s : State) : standing (kept (doubt x s)) = standing (kept s) := by
  unfold doubt; split <;> simp

@[simp] theorem standing_axleIn (x : Option Nat) (s : State) : standing (kept (axleIn x s)) = standing (kept s) := by
  unfold axleIn; repeat' split
  all_goals simp

@[simp] theorem standing_axleOut (x : Option Nat) (s : State) : standing (kept (axleOut x s)) = standing (kept s) := by
  unfold axleOut; repeat' split
  all_goals simp

theorem standing_passage {k : Nat} {h : Head} {s : State} (ab : Bool) (p : Phase) (hf : Tbl.find s.occ.heads k = some h) :
    standing (kept (passage k { h with phase := p } ab s)) = standing (kept s) := by
  have hset (g : Head) (hg : headKey g = headKey h) :
      standing (kept (mirrorHead k (setHead k g s))) = standing (kept s) := by
    rw [kept_mirrorHead, standing_setHead hf hg]
  unfold passage
  dsimp only
  cases ab
  · rw [if_neg Bool.false_ne_true, if_neg Bool.false_ne_true]
    split
    · exact hset _ rfl
    · rw [standing_axleOut, standing_axleIn]; exact hset _ rfl
  · rw [if_pos rfl, if_pos rfl]
    split
    · exact hset _ rfl
    · rw [standing_axleIn, standing_axleOut]; exact hset _ rfl

theorem standing_sequenceError {k : Nat} {h : Head} {s : State} (old new : Bool × Bool) (hf : Tbl.find s.occ.heads k = some h) :
    standing (kept (sequenceError k h old new s)) = standing (kept s) := by
  have doubts (u : State) : standing (kept (if u.running then doubt h.bSide (doubt h.aSide u) else u)) = standing (kept u) := by
    split <;> simp
  have hset := standing_setHead (g := { h with phase := .waitIdle, suspect := true }) hf rfl
  unfold sequenceError
  dsimp only
  rw [doubts]
  split
  · exact hset
  · rw [kept_report]; exact hset

theorem standing_headPair {k : Nat} {h : Head} {s : State} (old new : Bool × Bool) (hf : Tbl.find s.occ.heads k = some h) :
    standing (kept (headPair k h old new s)) = standing (kept s) := by
  unfold headPair
  split_ifs
  · exact standing_sequenceError old new hf
  · rfl
  · split
    · exact standing_setHead hf rfl
    · exact standing_passage _ _ hf

@[simp] theorem standing_headSampled (k : Nat) (pair : Bool × Bool) (s : State) :
    standing (kept (headSampled k pair s)) = standing (kept s) := by
  unfold headSampled
  dsimp only
  split
  · rfl
  · next h hf =>
    have hh := standing_headPair (s := { s with occ := { s.occ with pairs := Tbl.put (false, false) s.occ.pairs k pair } })
      (sidePair h (Tbl.getD s.occ.pairs k (false, false))) (sidePair h pair) hf
    exact hh

@[simp] theorem standing_detectorSampled (i : Nat) (x : Bool) (s : State) :
    standing (kept (detectorSampled i x s)) = standing (kept s) := by
  unfold detectorSampled
  dsimp only
  split
  · rfl
  · split
    · rfl
    · exact standing_updateSection _ _ _

@[simp] theorem standing_discrepancyExpires (n : Nat) (s : State) :
    standing (kept (discrepancyExpires n s)) = standing (kept s) := by
  unfold discrepancyExpires
  repeat' split
  · rfl
  · rw [kept_report, kept_mirrorSection, standing_secs]
  · rfl

@[simp] theorem standing_lostHoldExpires (t : Nat) (s : State) : standing (kept (lostHoldExpires t s)) = standing (kept s) := by
  unfold lostHoldExpires
  dsimp only
  split <;> simp

/-! ### The other inputs -/

@[simp] theorem standing_contactSample (i : Nat) (x : Bool) (s : State) :
    standing (kept (contactSample i x s)) = standing (kept s) := by
  unfold contactSample
  dsimp only
  split
  · rfl
  · exact (standing_eachDo _ _ _ (by simp)).trans rfl

@[simp] theorem standing_stopPinSampled (x : Bool) (s : State) : standing (kept (stopPinSampled x s)) = standing (kept s) := by
  unfold stopPinSampled
  dsimp only
  split_ifs
  · rfl
  · rw [standing_enterAllStop, kept_write8]; rfl
  · rw [kept_write8]; rfl

@[simp] theorem standing_boltSample (c : BoltContact) (x : Bool) (s : State) :
    standing (kept (boltSample c x s)) = standing (kept s) := by
  unfold boltSample
  dsimp only
  cases c <;> dsimp only <;> split <;> (try rw [kept_boltContactChanged]) <;> exact standing_setDeck _ s rfl rfl

@[simp] theorem standing_buttonSampled (b : Nat) (x : Bool) (s : State) :
    standing (kept (buttonSampled b x s)) = standing (kept s) := by
  unfold buttonSampled
  dsimp only
  split
  · rfl
  · rw [kept_buttonChanged]; rfl

/-! ### Requests -/

@[simp] theorem standing_headNormal (k : Nat) (s : State) : standing (kept (headNormal k s)) = standing (kept s) := by
  unfold headNormal; split
  · rfl
  · next h hf =>
    split
    · rw [kept_report]; exact standing_setHead hf rfl
    · rfl

@[simp] theorem standing_disableSection (k n : Nat) (s : State) :
    standing (kept (disableSection k n s)) = standing (kept s) := by
  unfold disableSection; split
  · simp
  · split <;> simp

@[simp] theorem standing_enableSection (k n : Nat) (s : State) : standing (kept (enableSection k n s)) = standing (kept s) := by
  unfold enableSection; split <;> simp

@[simp] theorem standing_resetSection (k n : Nat) (s : State) : standing (kept (resetSection k n s)) = standing (kept s) := by
  unfold resetSection; repeat' split
  all_goals simp [standing_eachDo]

@[simp] theorem standing_labelTag (k t l : Nat) (s : State) : standing (kept (labelTag k t l s)) = standing (kept s) := by
  unfold labelTag; split
  · simp
  · dsimp only; split <;> simp

@[simp] theorem standing_allStopRequest (n : Nat) (s : State) : standing (kept (allStopRequest n s)) = standing (kept s) := by
  simp [allStopRequest]

@[simp] theorem standing_resumeRequest (n : Nat) (s : State) : standing (kept (resumeRequest n s)) = standing (kept s) := by
  unfold resumeRequest; split
  · simp
  · split <;> simp

@[simp] theorem standing_suspendVisitors (n : Nat) (s : State) : standing (kept (suspendVisitors n s)) = standing (kept s) := by
  unfold suspendVisitors; split
  · simp
  · simp only [kept_complete]
    exact (congrArg standing (kept_abortShow .suspended 0 0 (setVisitors (fun v => { v with suspended := true }) s))).trans rfl

@[simp] theorem standing_resumeVisitors (n : Nat) (s : State) : standing (kept (resumeVisitors n s)) = standing (kept s) := by
  unfold resumeVisitors; rw [kept_complete]; rfl

/-! ### Loads and parameters (R191, R192) -/

@[simp] theorem standing_setLoads (r : Option Load) (l : List Load) (s : State) :
    standing (kept (setLoads r l s)) = standing (kept s) := rfl

@[simp] theorem standing_beginLoads (l : List Load) (s : State) : standing (kept (beginLoads l s)) = standing (kept s) := by
  induction l generalizing s with
  | nil => rfl
  | cons x l ih => unfold beginLoads; split <;> simp [ih]

@[simp] theorem standing_loadRequest (k : LoadKind) (n o l c : Nat) (s : State) :
    standing (kept (loadRequest k n o l c s)) = standing (kept s) := by
  unfold loadRequest; split
  · simp
  · dsimp only; split <;> simp

theorem standing_setParameter {g : Group} {c v : Nat} {s : State} {x : State × Bool} (h : setParameter g c v s = some x) :
    standing (kept x.1) = standing (kept s) := by
  cases g with
  | track =>
    change setTrack c v s = some x at h
    unfold setTrack at h
    split at h <;> cases h <;> rfl
  | visitor =>
    change setVisitorParameter c v s = some x at h
    unfold setVisitorParameter at h
    split at h <;> cases h <;> rfl

@[simp] theorem standing_applyEntries (g : Group) (n l a d c : Nat) (s : State) :
    standing (kept (applyEntries g n l a d c s)) = standing (kept s) := by
  induction l generalizing a d c s with
  | zero => simp [applyEntries]
  | succ l ih =>
    unfold applyEntries; split
    · simp
    · next heq => rw [ih]; exact standing_setParameter heq

@[simp] theorem standing_setParameters (n g o c : Nat) (s : State) :
    standing (kept (setParameters n g o c s)) = standing (kept s) := by
  unfold setParameters; repeat' split
  all_goals simp

/-! ### START (R193) -/

@[simp] theorem standing_startSections (s : State) : standing (kept (startSections s)) = standing (kept s) := by
  unfold startSections
  dsimp only
  exact (standing_eachDo _ _ _ (by simp)).trans rfl

@[simp] theorem standing_mirrorTags (s : State) : standing (kept (mirrorTags s)) = standing (kept s) := by
  unfold mirrorTags; exact standing_eachDo _ _ _ (by simp)

@[simp] theorem standing_startTags (s : State) : standing (kept (startTags s)) = standing (kept s) := by
  unfold startTags
  dsimp only
  rw [standing_eachDo _ _ _ (by simp), standing_mirrorTags]
  rfl

@[simp] theorem standing_freshPoint (p : Nat) (s : State) : standing (kept (freshPoint p s)) = standing (kept s) := by
  unfold freshPoint; split <;> simp

@[simp] theorem standing_startPoints (s : State) : standing (kept (startPoints s)) = standing (kept s) := by
  unfold startPoints
  rw [standing_eachDo _ _ _ (by simp), kept_setOrders]

@[simp] theorem standing_mirrorActives (s : State) : standing (kept (mirrorActives s)) = standing (kept s) := by
  unfold mirrorActives; exact standing_eachDo _ _ _ (by simp)

@[simp] theorem standing_startRoutes (s : State) : standing (kept (startRoutes s)) = standing (kept s) := by
  unfold startRoutes
  rw [standing_mirrorActives, kept_setStack]
  rfl

@[simp] theorem standing_restSignal (x : Nat) (s : State) : standing (kept (restSignal x s)) = standing (kept s) := by
  unfold restSignal; split <;> simp

theorem standing_zeroOverruns (x : Nat) (s : State) : standing (kept (zeroOverruns x s)) = standing (kept s) := rfl

theorem standing_unfailPoint (l : List Nat) (p : Nat) (s : State) :
    standing (kept (unfailPoint l p s)) = standing (kept s) := rfl

@[simp] theorem standing_startSignals (s : State) : standing (kept (startSignals s)) = standing (kept s) := by
  have hrest : standing (kept (eachDo (Tbl.keys s.asp.recs) restSignal (eachDo (Tbl.keys s.asp.recs) zeroOverruns s)))
      = standing (kept s) := by
    rw [standing_eachDo _ _ _ standing_restSignal, standing_eachDo _ _ _ standing_zeroOverruns]
  have halt (u : State) : standing (kept (if u.asp.stopFilter.level = true then enterAllStop .pin u else setPower true u))
      = standing (kept u) := by
    split
    · exact standing_enterAllStop _ _
    · rw [kept_setPower]; rfl
  unfold startSignals
  dsimp only
  rw [halt]
  exact hrest

@[simp] theorem standing_startTable (s : State) : standing (kept (startTable s)) = standing (kept s) := by
  unfold startTable
  dsimp only
  rw [kept_updateFeed]
  split
  · exact standing_setDeck _ _ rfl rfl
  · rfl

@[simp] theorem standing_startPanel (s : State) : standing (kept (startPanel s)) = standing (kept s) := by
  unfold startPanel
  dsimp only
  rw [standing_mirrorVisitor, kept_settleButtons, standing_mirrorLamps, kept_settleLamps]
  rfl

theorem records_startLayout (s : State) : records (kept (startLayout s)) = records (kept s) := by
  unfold startLayout
  dsimp only
  rw [records_of_standing (standing_startPanel _), records_of_standing (standing_startTable _),
    records_of_standing (standing_startSignals _), records_of_standing (standing_startRoutes _),
    records_of_standing (standing_startPoints _), records_of_standing (standing_startTags _),
    records_of_standing (standing_startSections _), kept_reportLayout, kept_setRunState, records_runState]
  rfl

theorem records_startRequest (n : Nat) (s : State) : records (kept (startRequest n s)) = records (kept s) := by
  unfold startRequest; split
  · simp
  · split
    · simp
    · rw [kept_complete, records_startLayout]

/-! ### Layout reset (R194) -/

@[simp] theorem standing_resetTags (s : State) : standing (kept (resetTags s)) = standing (kept s) := by
  unfold resetTags
  rw [standing_mirrorTags]
  rfl

@[simp] theorem standing_resetRoutes (s : State) : standing (kept (resetRoutes s)) = standing (kept s) := by
  unfold resetRoutes
  rw [standing_mirrorActives, kept_setStack]
  rfl

@[simp] theorem standing_resetPoints (s : State) : standing (kept (resetPoints s)) = standing (kept s) := by
  have hcut : standing (kept (if s.pts.coil.isSome = true then startRecharge s else s)) = standing (kept s) := by
    split <;> simp
  unfold resetPoints
  dsimp only
  rw [standing_eachDo _ _ _ standing_freshPoint, standing_eachDo _ _ _ (standing_unfailPoint _), kept_setOrders]
  exact hcut

@[simp] theorem standing_resetSignals (s : State) : standing (kept (resetSignals s)) = standing (kept s) := by
  unfold resetSignals
  rw [standing_eachDo _ _ _ standing_restSignal, kept_setPower, kept_setRunCondition]
  rfl

@[simp] theorem standing_resetTable (s : State) : standing (kept (resetTable s)) = standing (kept s) := by
  unfold resetTable; split <;> exact standing_setDeck _ _ rfl rfl

@[simp] theorem standing_resetDisplay (s : State) : standing (kept (resetDisplay s)) = standing (kept s) := by
  unfold resetDisplay
  dsimp only
  rw [standing_mirrorLamps]
  exact congrArg standing (kept_setPanelState .awake s)

theorem records_layoutReset (o : Option Nat) (s : State) : records (kept (layoutReset o s)) = records (kept s) := by
  have habort (u : State) : records (kept (abortSlots o u).1) = records (kept u) := by
    unfold abortSlots; exact records_of_standing (standing_eachDo _ _ _ (by simp))
  have hparts : standing (kept (resetDisplay (resetVisitors (resetTable (resetSignals (resetPoints (resetRoutes
      (resetTags (resetSections s))))))))) = standing (kept s) := by
    rw [standing_resetDisplay]
    unfold resetVisitors
    have hset (u : State) : standing (kept (setVisitors (fun v => { v with queue := [] }) u)) = standing (kept u) := rfl
    rw [hset, kept_abortShow, standing_resetTable, standing_resetSignals, standing_resetPoints, standing_resetRoutes,
      standing_resetTags]
    rfl
  unfold layoutReset
  dsimp only
  have hall (u : State) : records (kept (abortSlots o (mirrorVisitor (settleButtons (updateFeed (setRunState .configuring
      (setLoads none [] u)))))).1) = records (kept u) := by
    rw [habort, records_of_standing (standing_mirrorVisitor _), kept_settleButtons, kept_updateFeed, kept_setRunState,
      records_runState, records_of_standing (standing_setLoads none [] u)]
  split
  · rw [kept_complete, kept_reportLayout, hall, records_of_standing hparts]
  · rw [kept_reportLayout, hall, records_of_standing hparts]

/-! ### The intake -/

/-- A block of the intake other than START and LAYOUT_RESET. -/
theorem standing_block {q : Request} {al : Allowed} {f : Nat → State → State} (hf : blockOf q = some (al, f))
    (h9 : q.kind ≠ 9) (h10 : q.kind ≠ 10) (n : Nat) (s : State) : standing (kept (f n s)) = standing (kept s) := by
  unfold blockOf at hf
  dsimp only at hf
  split at hf
  case h_9 heq => exact absurd heq h9
  case h_10 heq => exact absurd heq h10
  all_goals first | contradiction | (cases hf; simp)

theorem records_block {q : Request} {al : Allowed} {f : Nat → State → State} (hf : blockOf q = some (al, f)) (n : Nat)
    (s : State) : records (kept (f n s)) = records (kept s) := by
  by_cases h9 : q.kind = 9
  · unfold blockOf at hf; rw [h9] at hf; cases hf; exact records_startRequest n s
  · by_cases h10 : q.kind = 10
    · unfold blockOf at hf; rw [h10] at hf; cases hf; exact records_layoutReset _ s
    · exact records_of_standing (standing_block hf h9 h10 n s)

theorem standing_taken (n : Nat) (g : HostTag) (s : State) : standing (kept (takeSlot n g s)) = standing (kept s) := by
  unfold takeSlot
  rw [kept_write16]
  have h := congrArg standing (kept_write16 (slotAt n) 2 s)
  exact h

theorem standing_posted (n : Nat) (q : Request) (s : State) : standing (kept (postSlot n q s)) = standing (kept s) := by
  unfold postSlot
  have h : kept (((((s.write16 (slotAt n + 2) q.kind).write16 (slotAt n + 4) q.tag.toNat).write32 (slotAt n + 8) q.w0.toNat).write32
    (slotAt n + 12) q.w1.toNat).write32 (slotAt n + 16) q.w2.toNat |>.write16 (slotAt n) 1) = kept s := by simp
  have g := congrArg standing h
  exact g

/-- A request command keeps what a block keeps. -/
theorem key_requestCommand {α : Type} (key : Kept → α) (h : ∀ k l, standing k = standing l → key k = key l) {q : Request}
    {al : Allowed} {f : Nat → State → State} (hf : ∀ n s, key (kept (f n s)) = key (kept s)) (s : State) :
    key (kept (requestCommand al f q s)) = key (kept s) := by
  have hpost := h _ _ (standing_posted s.exch.takePos q s)
  unfold requestCommand
  dsimp only
  split
  · rw [kept_finish]
    unfold serve
    split
    · rw [hf, h _ _ (standing_taken _ _ _), hpost]
    · rw [kept_complete, h _ _ (standing_taken _ _ _), hpost]
  · exact hpost

theorem records_takeSlots (n : Nat) (s : State) : records (kept (takeSlots n s)) = records (kept s) := by
  induction n generalizing s with
  | zero => rfl
  | succ n ih =>
    unfold takeSlots
    dsimp only
    split
    · have htaken (g : HostTag) := records_of_standing (standing_taken s.exch.takePos g s)
      rw [ih, kept_finish]
      unfold serveSlot
      split
      · rw [kept_complete, htaken]
      · next heq =>
        unfold serve
        split
        · rw [records_block heq, htaken]
        · rw [kept_complete, htaken]
    · rfl

theorem records_examine (s : State) : records (kept (examine s)) = records (kept s) := by
  have h := records_takeSlots Config.numSlots (readLevels (s.write16 0x10 (min (s.read16 0x10) 255)))
  rw [kept_readLevels, kept_write16] at h
  exact h

/-! ### The three forms of command -/

theorem standing_handling {c : Instr} {h : State → State} (hc : handlingOf c = some h) (hl : c ≠ .loadRecord) (s : State) :
    standing (kept (h s)) = standing (kept s) := by
  cases c <;> cases hc
  case loadRecord => exact absurd rfl hl
  case homingSearchLimit | legEnd | stopComplete => dsimp only; split <;> simp
  all_goals simp

theorem records_effect {c : Instr} {f : State → State} (hc : effectOf c = some f)
    (hreset : ∀ high, c ≠ .fullReset high ∧ c ≠ .initialReset high) (s : State) : records (kept (f s)) = records (kept s) := by
  cases c
  case flashPhaseChange => cases hc; rfl
  case nudge =>
    cases hc; unfold nudged; dsimp only; split
    · rfl
    · exact records_examine _
  case pollTimerExpiry =>
    cases hc; unfold pollExpires; split
    · rfl
    · exact records_examine _
  case stateRead => cases hc; rfl
  case fullReset high => exact absurd rfl (hreset high).1
  case initialReset high => exact absurd rfl (hreset high).2
  case controlLayoutReset =>
    cases hc; dsimp only; split
    · rfl
    · rw [kept_finish, records_layoutReset]; rfl
  case registerWriteIgnored a => cases hc; cases a <;> rfl
  case halfWordLatchRead => cases hc; rfl
  case hostMemoryAccess m =>
    cases hc
    cases m with
    | write hw v => unfold memoryAccess; rw [kept_write16]; rfl
    | readUpper w => rfl
  case stepOutputActive => cases hc; simp
  case jogHoldRemainingChange => cases hc; unfold jogHoldPasses mirrorJogHold; split <;> (try rw [kept_writeWord]) <;> rfl
  case wholeSecondRemainingChange t =>
    cases hc; unfold secondPasses; split
    · rfl
    · rw [kept_mirrorVisitorWord]; rfl
  all_goals contradiction

/-- The direct changes, those apart that may serve a request or reset the part, keep the run state. -/
theorem runState_effect {c : Instr} {f : State → State} (hc : effectOf c = some f)
    (hreset : ∀ high, c ≠ .fullReset high ∧ c ≠ .initialReset high) (hlayout : c ≠ .controlLayoutReset)
    (hnudge : ∀ v, c ≠ .nudge v) (hpoll : c ≠ .pollTimerExpiry) (s : State) : (f s).exch.runState = s.exch.runState := by
  cases c
  case flashPhaseChange => cases hc; rfl
  case nudge v => exact absurd rfl (hnudge v)
  case pollTimerExpiry => exact absurd rfl hpoll
  case stateRead => cases hc; rfl
  case fullReset high => exact absurd rfl (hreset high).1
  case initialReset high => exact absurd rfl (hreset high).2
  case controlLayoutReset => exact absurd rfl hlayout
  case registerWriteIgnored a => cases hc; cases a <;> rfl
  case halfWordLatchRead => cases hc; rfl
  case hostMemoryAccess m =>
    cases hc
    cases m with
    | write hw v => exact State.write16_runState _ _ (breakPairing s)
    | readUpper w => rfl
  case stepOutputActive => cases hc; exact congrArg Kept.runState (kept_stepActive s)
  case jogHoldRemainingChange =>
    cases hc; unfold jogHoldPasses mirrorJogHold; split
    · rfl
    · exact State.writeWord_runState _ _ _ _ _
  case wholeSecondRemainingChange t =>
    cases hc; unfold secondPasses; split
    · rfl
    · exact mirrorVisitorWord_runState _ _
  all_goals contradiction

/-! ### LOAD_RECORD -/

/-- The run state and the profile. -/
def modeOf (s : State) : RunState × Profile := (s.exch.runState, s.exch.profile)

theorem modeOf_of_kept {s t : State} (h : kept s = kept t) : modeOf s = modeOf t :=
  congrArg (fun k : Kept => (k.runState, k.profile)) h

theorem modeOf_setDeck (f : Turntable → Turntable) (s : State) : modeOf (setDeck f s) = modeOf s := by
  unfold setDeck; exact (modeOf_of_kept (kept_mirrorTable _)).trans rfl

theorem modeOf_unreference (s : State) : modeOf (unreference s) = modeOf s := by
  unfold unreference
  dsimp only
  split
  · exact modeOf_setDeck _ s
  · exact (modeOf_of_kept (kept_enterDeck _ _)).trans (modeOf_setDeck _ s)

/-- A property of whatever state takes a record: the state of each kind of item. -/
theorem takeRecord_induction {P : State → Prop} {k : LoadKind} {a len : Nat} {s t : State}
    (section_ : ∀ n r, P (takeSection n r s)) (head : ∀ n h, P (takeHead n h s)) (point : ∀ p r, P (takePoint p r s))
    (signal : ∀ x r, P (takeSignal x r s)) (route : ∀ n r u, takeRoute n r s = some u → P u) (deck : ∀ d, P (takeDeck d s))
    (road : ∀ n r, P (takeRoad n r s)) (show_ : ∀ n w u, takeShowRecord n w s = some u → P u) (lamp : ∀ i l, P (takeLamp i l s))
    (h : takeRecord k a len s = .ok t) : P t := by
  have mapped {α : Type} (x : Option α) (f : α → State) (hf : ∀ y, P (f y)) : ∀ u, x.map f = some u → P u := by
    rintro u hu
    obtain ⟨y, -, rfl⟩ := Option.map_eq_some_iff.1 hu
    exact hf y
  have whole : ∀ x : Option State, (∀ u, x = some u → P u) →
      (match x with | some t => Except.ok t | none => Except.error Result.invalidRecord) = .ok t → P t := by
    intro x hx hh
    cases x with
    | none => cases hh
    | some u => cases hh; exact hx _ rfl
  unfold takeRecord at h
  dsimp only at h
  split at h
  · split at h
    · exact whole _ (mapped _ (fun y : Nat × SectionRec => takeSection y.1 y.2 s) fun _ => section_ _ _) h
    · exact whole _ (mapped _ (fun y : Nat × Head => takeHead y.1 y.2 s) fun _ => head _ _) h
    · cases h
  · exact whole _ (mapped _ (fun y : Nat × PointRec => takePoint y.1 y.2 s) fun _ => point _ _) h
  · exact whole _ (mapped _ (fun y : Nat × SignalRec => takeSignal y.1 y.2 s) fun _ => signal _ _) h
  · refine whole _ (fun u hu => ?_) h
    obtain ⟨y, -, hy⟩ := Option.bind_eq_some_iff.1 hu
    exact route y.1 y.2 u hy
  · split at h
    · exact whole _ (mapped _ (fun d => takeDeck d s) deck) h
    · exact whole _ (mapped _ (fun y : Nat × Road => takeRoad y.1 y.2 s) fun _ => road _ _) h
    · cases h
  · split at h
    · cases h
    · split at h
      · next u hu => cases h; exact show_ _ _ _ hu
      · cases h
  · exact whole _ (mapped _ (fun y : Nat × Lamp => takeLamp y.1 y.2 s) fun _ => lamp _ _) h

theorem modeOf_takeRecord {k : LoadKind} {a len : Nat} {s t : State} (h : takeRecord k a len s = .ok t) :
    modeOf t = modeOf s := by
  refine takeRecord_induction (P := fun t => modeOf t = modeOf s) ?_ ?_ ?_ ?_ ?_ ?_ ?_ ?_ ?_ h
  · exact fun _ _ => rfl
  · exact fun k h => (modeOf_of_kept (kept_mirrorHead k _)).trans rfl
  · exact fun _ _ => rfl
  · exact fun _ _ => rfl
  · intro n r u hu
    unfold takeRoute at hu
    dsimp only at hu
    split at hu <;> cases hu
    exact (modeOf_of_kept (kept_write16 _ _ _)).trans rfl
  · exact fun d => (modeOf_unreference _).trans (modeOf_setDeck _ s)
  · exact fun n r => (modeOf_unreference _).trans (modeOf_setDeck _ s)
  · intro n w u hu
    unfold takeShowRecord at hu
    split at hu <;> cases hu
    rfl
  · intro i l
    unfold takeLamp
    dsimp only
    split
    · exact (modeOf_of_kept (kept_writeWord _ _ _ _ _)).trans rfl
    · rfl

theorem modeOf_beginLoads (l : List Load) (s : State) : modeOf (beginLoads l s) = modeOf s :=
  congrArg (fun x : Standing => (x.runState, x.profile)) (standing_beginLoads l s)

theorem modeOf_loadNext (s : State) : modeOf (loadNext s) = modeOf s := by
  unfold loadNext
  split
  · rfl
  · split
    · exact (modeOf_beginLoads _ _).trans (modeOf_of_kept (kept_complete _ _ _ _ _))
    · next t ht =>
      have hmode : modeOf t = modeOf s := by
        unfold readRecord at ht
        dsimp only at ht
        split at ht
        · cases ht
        · exact modeOf_takeRecord ht
      dsimp only
      split
      · exact (modeOf_beginLoads _ _).trans ((modeOf_of_kept (kept_complete _ _ _ _ _)).trans hmode)
      · exact hmode

/-! ### Every command -/

theorem start_of_kind {c : Instr} {al : Allowed} {q : Request} (hq : requestOf c = some (al, q))
    (hk : q.kind = 9 ∨ q.kind = 10) : ∃ tag, c = .start tag ∨ c = .layoutReset tag := by
  cases c <;> cases hq
  case start tag => exact ⟨tag, .inl rfl⟩
  case layoutReset tag => exact ⟨tag, .inr rfl⟩
  all_goals (dsimp only at hk; omega)

theorem requestOf_loadRecord {al : Allowed} {q : Request} : requestOf .loadRecord ≠ some (al, q) := by
  intro h; cases h

/-- Settles O8: the key of the records over the three forms of command, and the run state where no START or reset stands. -/
theorem layoutChangesOnlyByItsCommands : Obligations.LayoutChangesOnlyByItsCommands := by
  intro c s t he hreset
  have fields {u : State} (h : records (kept u) = records (kept s)) : u.exch.profile = s.exch.profile ∧
      (u.occ.recs = s.occ.recs ∧ u.ilk.routes = s.ilk.routes ∧ u.pts.recs = s.pts.recs ∧ u.asp.recs = s.asp.recs
        ∧ u.tt.deck = s.tt.deck ∧ u.tt.roads = s.tt.roads ∧ u.vis.shows = s.vis.shows ∧ u.disp.bind = s.disp.bind
        ∧ ∀ k, (Tbl.find u.occ.heads k).map (fun h => (h.aSide, h.bSide, h.invert))
            = (Tbl.find s.occ.heads k).map (fun h => (h.aSide, h.bSide, h.invert))) :=
    ⟨congrArg Standing.profile h, congrArg Standing.sections h, congrArg Standing.routes h, congrArg Standing.points h,
      congrArg Standing.signals h, congrArg Standing.deck h, congrArg Standing.roads h, congrArg Standing.shows h,
      congrArg Standing.lamps h, congrFun (congrArg Standing.heads h)⟩
  obtain ⟨al, q, f, hq, hf, rfl⟩ | ⟨h, hh, rfl⟩ | ⟨f, hf, rfl⟩ := exec_cases he
  · have hrec := key_requestCommand (q := q) (al := al) records (fun _ _ => records_of_standing) (records_block hf) s
    refine ⟨(fields hrec).1, fun _ => (fields hrec).2, fun hstart _ _ _ => ?_⟩
    have hkind : ¬ (q.kind = 9 ∨ q.kind = 10) := fun hk => by
      obtain ⟨tag, e | e⟩ := start_of_kind hq hk
      · exact (hstart tag).1 e
      · exact (hstart tag).2 e
    have hstand := key_requestCommand (q := q) (al := al) standing (fun _ _ => id)
      (standing_block hf (fun e => hkind (.inl e)) (fun e => hkind (.inr e))) s
    exact congrArg Standing.runState hstand
  · by_cases hl : c = .loadRecord
    · subst hl
      cases hh
      have hmode := modeOf_loadNext s
      rw [← modeOf_of_kept (kept_finish s (loadNext s))] at hmode
      exact ⟨congrArg Prod.snd hmode, fun h => absurd rfl h, fun _ _ _ _ => congrArg Prod.fst hmode⟩
    · have hstand : standing (kept (finish s (h s))) = standing (kept s) := by
        rw [kept_finish]; exact standing_handling hh hl s
      exact ⟨(fields (records_of_standing hstand)).1, fun _ => (fields (records_of_standing hstand)).2,
        fun _ _ _ _ => congrArg Standing.runState hstand⟩
  · have hrec := records_effect hf hreset s
    exact ⟨(fields hrec).1, fun _ => (fields hrec).2, fun _ h1 h2 h3 => runState_effect hf hreset h1 h2 h3 s⟩

end Sys2Proof.LayoutStands
end

