-- ==== Sys2Proof/Proofs/TrackDetection.lean ====
section
/-! Detector inputs and axle heads (O20 to O25): what a sample makes of the filters, the head and the sections. -/

namespace Sys2Proof.TrackDetection

open Sys2Proof.Machine

/-! ### Tables with a default entry -/

theorem getD_put_self {α : Type} [DecidableEq α] (d : α) {t : Tbl α} (n : Nat) (v : α) (h : Tbl.sorted t = true) :
    Tbl.getD (Tbl.put d t n v) n d = v := by
  unfold Tbl.put Tbl.getD
  split
  · next hv => rw [Tbl.find_erase_self _ _ h, hv]; rfl
  · rw [Tbl.find_insert_self]; rfl

theorem getD_put_other {α : Type} [DecidableEq α] (d : α) (t : Tbl α) {n m : Nat} (v : α) (h : m ≠ n) :
    Tbl.getD (Tbl.put d t n v) m d = Tbl.getD t m d := by
  unfold Tbl.put Tbl.getD
  split
  · rw [Tbl.find_erase_other _ _ _ h]
  · rw [Tbl.find_insert_other _ _ _ _ h]

/-! ### The window filter (R3, R4) -/

section
variable {f : Filter} {x : Bool} {m : Nat}

theorem sample_noise (h : x ≠ f.prev) : f.sample m x = { f with prev := x } := by
  unfold Filter.sample; rw [if_neg h]

theorem sample_same (h : x = f.prev) (hl : x = f.level) : f.sample m x = { f with counted := x, run := none } := by
  unfold Filter.sample; rw [if_pos h, if_pos hl, ← h]

theorem sample_contrary (h : x = f.prev) (hl : x ≠ f.level) : f.sample m x = ({ f with counted := x } : Filter).contrary m x := by
  unfold Filter.sample; rw [if_pos h, if_neg hl, ← h]

theorem prev_sample : (f.sample m x).prev = x := by
  unfold Filter.sample Filter.contrary; dsimp only; split_ifs <;> rfl

/-- A level that a sample changes is the sample's. -/
theorem level_of_changed (h : (f.sample m x).level ≠ f.level) : (f.sample m x).level = x := by
  unfold Filter.sample Filter.contrary at h ⊢
  dsimp only at h ⊢
  split_ifs at h ⊢ <;> first | rfl | exact absurd rfl h

end

/-! ### Sections -/

theorem occ_finish (b s : State) : (finish b s).occ = s.occ := occ_of_kept (kept_finish b s)

/-- An update reaches the occupancy of its own section. -/
theorem occ_updateSection_eq (n : Nat) (f : Occupancy → Occupancy) (s : State) :
    (updateSection n f s).occ = { s.occ with secs := (updateSection n f s).occ.secs } := by
  cases hr : Tbl.find s.occ.recs n with
  | none => unfold updateSection; rw [hr]
  | some r =>
    cases ho : Tbl.find s.occ.secs n with
    | none => unfold updateSection; rw [hr, ho]
    | some o => rw [occ_updateSection n f s r o hr ho]

theorem find_updateSection_other {n m : Nat} (f : Occupancy → Occupancy) (s : State) (h : m ≠ n) :
    Tbl.find (updateSection n f s).occ.secs m = Tbl.find s.occ.secs m := by
  cases hr : Tbl.find s.occ.recs n with
  | none => unfold updateSection; rw [hr]
  | some r =>
    cases ho : Tbl.find s.occ.secs n with
    | none => unfold updateSection; rw [hr, ho]
    | some o => rw [occ_updateSection n f s r o hr ho]; exact Tbl.find_insert_other _ _ _ _ h

theorem find_updateSection_self {n : Nat} (f : Occupancy → Occupancy) {s : State} {r : SectionRec} {o : Occupancy}
    (hr : Tbl.find s.occ.recs n = some r) (ho : Tbl.find s.occ.secs n = some o) :
    Tbl.find (updateSection n f s).occ.secs n = some (updateDiscrepancy r (detLevel s r) (f o)) := by
  rw [occ_updateSection n f s r o hr ho]; exact Tbl.find_insert_self _ _ _

@[simp] theorem updateDiscrepancy_state (r : SectionRec) (b : Bool) (o : Occupancy) :
    (updateDiscrepancy r b o).state = o.state := by
  unfold updateDiscrepancy; split_ifs <;> rfl

@[simp] theorem updateDiscrepancy_count (r : SectionRec) (b : Bool) (o : Occupancy) :
    (updateDiscrepancy r b o).count = o.count := by
  unfold updateDiscrepancy; split_ifs <;> rfl

@[simp] theorem derive_count (r : SectionRec) (b : Bool) (o : Occupancy) : (derive r b o).count = o.count := by
  unfold derive; split <;> rfl

/-! ### DETECTOR_SAMPLE -/

/-- The filter of an input, sampled. -/
def sampled (i : Nat) (x : Bool) (s : State) : Filter :=
  (Tbl.getD s.occ.filters i Filter.init).sample (inputTime s i x) x

/-- The state with the filter of an input sampled. -/
def withSample (i : Nat) (x : Bool) (s : State) : State :=
  { s with occ := { s.occ with filters := Tbl.put Filter.init s.occ.filters i (sampled i x s) } }

/-- In RUNNING a changed level is handed to the section that names the input; else the filter alone changes. -/
theorem detectorSampled_eq (i : Nat) (x : Bool) (s : State) : detectorSampled i x s =
    if (sampled i x s).level = (Tbl.getD s.occ.filters i Filter.init).level ∨ s.exch.runState ≠ .running then withSample i x s
    else match sectionOfInput s i with
      | none => withSample i x s
      | some (n, r) => updateSection n (derive r (sampled i x s).level) (withSample i x s) := by
  unfold detectorSampled State.running
  dsimp only
  split_ifs with h1 h2 h2
  · rfl
  · exact absurd (by simpa [sampled] using h1) h2
  · exact absurd h2 (by simpa [sampled] using h1)
  · rfl

theorem filters_detectorSampled (i : Nat) (x : Bool) (s : State) :
    (detectorSampled i x s).occ.filters = Tbl.put Filter.init s.occ.filters i (sampled i x s) := by
  rw [detectorSampled_eq]
  split
  · rfl
  · split
    · rfl
    · rw [occ_updateSection_eq]; rfl

/-- Settles O20: the cases of the filter, and the other filters by the table. -/
theorem detectorSamplesAreFiltered : Obligations.DetectorSamplesAreFiltered := by
  intro s i x hsort
  have hfilters : (finish s (detectorSampled i.val x s)).occ.filters
      = Tbl.put Filter.init s.occ.filters i.val (sampled i.val x s) := by
    rw [occ_finish, filters_detectorSampled]
  refine ⟨_, sampled i.val x s, rfl, by rw [hfilters]; exact getD_put_self _ _ _ hsort, prev_sample, fun h => sample_noise h,
    fun h hl => sample_same h hl, fun h hl hr hpos => ?opens, fun h hl hr hz => ?atOnce, fun h hl n m hr hlt => ?advances,
    fun h hl n m hr hle => ?changes, fun j hj => by rw [hfilters]; exact getD_put_other _ _ _ hj⟩
  all_goals
    unfold sampled
    rw [sample_contrary h hl]
    unfold Filter.contrary
    dsimp only
    rw [hr]
  case opens => exact if_neg (by dsimp only; omega)
  case atOnce => exact (if_pos (by dsimp only; omega)).trans (by rw [← hr])
  case advances => exact if_neg (by dsimp only; omega)
  case changes => exact if_pos hle

/-- Settles O21: the derivation from the level, the count or either, and the other sections by the table. -/
theorem detectorLevelMovesItsSection : Obligations.DetectorLevelMovesItsSection := by
  intro s i x n r o hrun hsec hr ho hlevel
  have hx : (sampled i.val x s).level = x := level_of_changed hlevel
  have heq : detectorSampled i.val x s = updateSection n (derive r x) (withSample i.val x s) := by
    rw [detectorSampled_eq, if_neg (by simpa [hrun, sampled] using hlevel), hsec, hx]
  have hself := find_updateSection_self (s := withSample i.val x s) (derive r x) hr ho
  rw [← heq] at hself
  refine ⟨_, _, rfl, by rw [occ_finish]; exact hself, by simp, fun hst => ?_, fun h1 h2 => ?_, fun m hm => ?_⟩
  · have hd : (derive r x o).state = derivedState r x o.count := by
      unfold derive; obtain h | h := hst <;> rw [h]
    rw [updateDiscrepancy_state, hd]
    unfold derivedState
    cases r.detection <;> simp
  · rw [updateDiscrepancy_state]
    unfold derive
    cases h : o.state <;> simp_all
  · rw [occ_finish, heq]
    exact find_updateSection_other _ _ hm

/-! ### A change of a section with nothing behind it -/

/-- Nothing acts on a change of a section but the tags and the overrun test: no step of a show has ended, no route is active, no
show runs, no jog is in hand, and an overrun is only reported. -/
structure Alone (s : State) : Prop where
  step : s.work.step = none
  routes : s.ilk.active = []
  runner : s.vis.runner = none
  jog : s.tt.requester ≠ .jog
  response : s.asp.response = .report

theorem Alone.of_quiet {s : State} (h : Quiet s) : Alone s :=
  ⟨by rw [h.rest.work]; rfl, h.routes, h.runner, h.jog, h.response⟩

/-- What stands inside, with the track blanked: its occupancy and its tags. -/
def sansTrack (s : State) : State := sansTags { s with occ := OccUnit.init }

theorem sansTrack_of_sansTags {s t : State} (h : sansTags s = sansTags t) : sansTrack s = sansTrack t :=
  congrArg (fun u : State => ({ u with occ := OccUnit.init } : State)) h

/-- A field outside the track that is no output. -/
theorem field_of_sansTrack {α : Type} (f : State → α) (hf : ∀ u, f (sansTrack u) = f u) {s t : State}
    (h : sansTrack s = sansTrack t) : f s = f t := by rw [← hf s, ← hf t, h]

theorem Alone.of_sansTrack {s t : State} (h : Alone s) (e : sansTrack t = sansTrack s) (hs : t.work.step = s.work.step) :
    Alone t where
  step := hs.trans h.step
  routes := (field_of_sansTrack (fun u => u.ilk.active) (fun _ => rfl) e).trans h.routes
  runner := (field_of_sansTrack (fun u => u.vis.runner) (fun _ => rfl) e).trans h.runner
  jog := by rw [field_of_sansTrack (fun u => u.tt.requester) (fun _ => rfl) e]; exact h.jog
  response := (field_of_sansTrack (fun u => u.asp.response) (fun _ => rfl) e).trans h.response

theorem step_overrunTest (n : Nat) (arr : Option Arrival) (l : List EntryNote) {s : State} (h : s.asp.response = .report) :
    (overrunTest n arr l s).work.step = s.work.step := by
  have one (a : Arrival) (x : Nat) (u : State) : (overrunOne n a l x u).work.step = u.work.step := by
    unfold overrunOne; simp
  have all (a : Arrival) (xs : List Nat) (u : State) : (eachDo xs (overrunOne n a l) u).work.step = u.work.step := by
    unfold eachDo
    induction xs generalizing u with
    | nil => rfl
    | cons x xs ih => rw [List.foldl_cons, ih, one]
  unfold overrunTest
  split
  · rfl
  · next a =>
    split
    · rfl
    · next x more _ =>
      have hr : (eachDo (x :: more) (overrunOne n a l) s).asp.response = .report :=
        (st_field (fun u => u.asp.response) (fun _ => rfl) (st_eachDo _ _ s fun m t => st_overrunOne n a l m t)).trans h
      dsimp only
      rw [if_neg (by rw [hr]; decide), all]

/-- A change of a section, reported and mirrored, with the work that it asks for (R15). -/
def handedOn (n : Nat) (old : SectionState) (s : State) : State :=
  let u := report .sectionChanged n (halves old.code (secState s n).code) (halves (occOf s n).count 0) (mirrorSection n s)
  { u with work := sectionWork old (secState s n) u.work }

theorem body_handedOn (n : Nat) (old : SectionState) (s : State) :
    body (handedOn n old s) = body { s with work := sectionWork old (secState s n) s.work } := by
  have hb : body (report .sectionChanged n (halves old.code (secState s n).code) (halves (occOf s n).count 0) (mirrorSection n s))
      = body s := by simp
  unfold handedOn
  dsimp only
  rw [work_of_body hb]
  exact congrArg (fun u : State => ({ u with work := sectionWork old (secState s n) s.work } : State)) hb

theorem sansTags_handedOn (n : Nat) (old : SectionState) (s : State) : sansTags (handedOn n old s) = sansTags s :=
  (st_body (body_handedOn n old s)).trans rfl

theorem step_handedOn (n : Nat) (old : SectionState) (s : State) : (handedOn n old s).work.step = s.work.step := by
  rw [work_of_body (body_handedOn n old s)]; rfl

/-- The tags after a change of a section, and the arrival that it was. -/
def taggedChange (n : Nat) (old : SectionState) (s : State) : State × Option Arrival :=
  tagSectionChange n old (secState s n) (handedOn n old s)

theorem sansTags_taggedChange (n : Nat) (old : SectionState) (s : State) : sansTags (taggedChange n old s).1 = sansTags s := by
  unfold taggedChange; rw [st_tagSectionChange, sansTags_handedOn]

theorem step_taggedChange (n : Nat) (old : SectionState) (s : State) : (taggedChange n old s).1.work.step = s.work.step := by
  unfold taggedChange; rw [step_tags, step_handedOn]

/-- The rest of a change once the tags have it: the routes, the overrun test, the deck and the visitors (R15). -/
theorem sectionChanged_eq (n : Nat) (old : SectionState) (s : State) : sectionChanged n old s =
    let x := taggedChange n old s
    let y := routesSectionChange n (secState s n) (x.2.bind Arrival.tag) x.1
    let u := overrunTest n x.2 y.2 (runVisitor y.1)
    visitorSection n (secState s n) (if old = .clear then deckSectionLeft n u else u) := rfl

/-- Outside a jog and with no show running, the deck and the visitors do not act on a section that is left. -/
theorem visitorSection_alone {s : State} (n : Nat) (old new : SectionState) (hrunner : s.vis.runner = none)
    (hjog : s.tt.requester ≠ .jog) : visitorSection n new (if old = .clear then deckSectionLeft n s else s) = s := by
  have hleft : deckSectionLeft n s = s := by
    unfold deckSectionLeft releaseJog
    split
    · rfl
    · split
      · simp [hjog]
      · rfl
  rw [hleft, ite_self]
  unfold visitorSection
  rw [hrunner]

theorem sectionChanged_alone {n : Nat} {old : SectionState} {s : State} (h : Alone s) :
    sectionChanged n old s = overrunTest n (taggedChange n old s).2 [] (taggedChange n old s).1 := by
  have hst := sansTags_taggedChange n old s
  have hx : Alone (taggedChange n old s).1 := h.of_sansTrack (sansTrack_of_sansTags hst) (step_taggedChange n old s)
  rw [sectionChanged_eq]
  generalize taggedChange n old s = x at hst hx
  have hnone : routesSectionChange n (secState s n) (x.2.bind Arrival.tag) x.1 = (x.1, []) := by
    unfold routesSectionChange; rw [hx.routes]; rfl
  dsimp only
  rw [hnone]
  dsimp only
  rw [runVisitor_idle x.1 hx.step]
  have hafter := st_overrunTest n x.2 [] x.1 hx.response
  apply visitorSection_alone
  · exact (st_field (fun u => u.vis.runner) (fun _ => rfl) hafter).trans hx.runner
  · rw [st_field (fun u => u.tt.requester) (fun _ => rfl) hafter]; exact hx.jog

/-- A change of a section with nothing behind it reaches, inside, the track alone. -/
theorem updateSection_alone {s : State} (n : Nat) (f : Occupancy → Occupancy) (h : Alone s) :
    sansTrack (updateSection n f s) = sansTrack s ∧ (updateSection n f s).work.step = s.work.step := by
  unfold updateSection
  split
  · next r o _ _ =>
    have hu : Alone { s with occ := { s.occ with secs := Tbl.insert s.occ.secs n (updateDiscrepancy r (detLevel s r) (f o)) } } :=
      h.of_sansTrack rfl rfl
    dsimp only
    split
    · exact ⟨(sansTrack_of_sansTags (st_mirrorSection _ _)).trans rfl, by simp⟩
    · have hst := sansTags_taggedChange n o.state
        { s with occ := { s.occ with secs := Tbl.insert s.occ.secs n (updateDiscrepancy r (detLevel s r) (f o)) } }
      have hresp := (st_field (fun u => u.asp.response) (fun _ => rfl) hst).trans hu.response
      rw [sectionChanged_alone hu]
      exact ⟨(sansTrack_of_sansTags ((st_overrunTest _ _ _ _ hresp).trans hst)).trans rfl,
        (step_overrunTest _ _ _ hresp).trans (step_taggedChange _ _ _)⟩
  · exact ⟨rfl, rfl⟩

theorem Alone.updateSection {s : State} (n : Nat) (f : Occupancy → Occupancy) (h : Alone s) : Alone (updateSection n f s) :=
  h.of_sansTrack (updateSection_alone n f h).1 (updateSection_alone n f h).2

/-! ### The frame of the track commands (O22) -/

/-- From a machine at rest, a handling that reaches the track alone changes nothing else inside. -/
theorem makes_track {c : Instr} {s v : State} (he : exec c s = .next (finish s v)) (hq : AtRest s) (ho : Own s v)
    (hv : sansTrack v = sansTrack s) (hs : v.work.step = none) : Makes c s { s with occ := v.occ, tags := v.tags } := by
  have hinside : inside v = inside { s with occ := v.occ, tags := v.tags } :=
    congrArg (fun u : State => ({ u with occ := v.occ, tags := v.tags } : State)) hv
  refine makes_finish he (quietEnd_of_empty v hs ?_ ?_ ?_) hinside ho
  · exact (field_of_sansTrack (fun u => u.vis.queue) (fun _ => rfl) hv).trans hq.shows
  · exact (field_of_sansTrack (fun u => u.pts.queue) (fun _ => rfl) hv).trans hq.orders
  · exact (field_of_sansTrack (fun u => u.ilk.stack) (fun _ => rfl) hv).trans hq.stack

/-- A handling that reaches the track alone. -/
structure TrackAlone (s v : State) : Prop where
  track : sansTrack v = sansTrack s
  step : v.work.step = s.work.step

theorem TrackAlone.refl (s : State) : TrackAlone s s := ⟨rfl, rfl⟩

theorem TrackAlone.trans {s u v : State} (h1 : TrackAlone s u) (h2 : TrackAlone u v) : TrackAlone s v :=
  ⟨h2.track.trans h1.track, h2.step.trans h1.step⟩

theorem TrackAlone.of_body {s u v : State} (h : TrackAlone s u) (hb : body v = body u) : TrackAlone s v :=
  ⟨(sansTrack_of_sansTags (st_body hb)).trans h.track, (congrArg Work.step (work_of_body hb)).trans h.step⟩

theorem TrackAlone.alone {s v : State} (h : TrackAlone s v) (hs : Alone s) : Alone v := hs.of_sansTrack h.track h.step

theorem trackAlone_updateSection {s : State} (n : Nat) (f : Occupancy → Occupancy) (h : Alone s) :
    TrackAlone s (updateSection n f s) := ⟨(updateSection_alone n f h).1, (updateSection_alone n f h).2⟩

theorem trackAlone_detectorSampled (i : Nat) (x : Bool) {s : State} (h : Alone s) : TrackAlone s (detectorSampled i x s) := by
  rw [detectorSampled_eq]
  split
  · exact ⟨rfl, rfl⟩
  · split
    · exact ⟨rfl, rfl⟩
    · have hw : TrackAlone s (withSample i x s) := ⟨rfl, rfl⟩
      exact hw.trans (trackAlone_updateSection _ _ (hw.alone h))

theorem trackAlone_doubt (x : Option Nat) {s : State} (h : Alone s) : TrackAlone s (doubt x s) := by
  unfold doubt; split
  · exact TrackAlone.refl s
  · exact trackAlone_updateSection _ _ h

theorem trackAlone_axleIn (x : Option Nat) {s : State} (h : Alone s) : TrackAlone s (axleIn x s) := by
  unfold axleIn; repeat' split
  all_goals first | exact TrackAlone.refl s | exact trackAlone_updateSection _ _ h

theorem trackAlone_axleOut (x : Option Nat) {s : State} (h : Alone s) : TrackAlone s (axleOut x s) := by
  unfold axleOut; repeat' split
  all_goals first | exact TrackAlone.refl s | exact trackAlone_updateSection _ _ h

theorem trackAlone_setHead (k : Nat) (h : Head) (s : State) : TrackAlone s (setHead k h s) := ⟨rfl, rfl⟩

theorem trackAlone_passage (k : Nat) (h : Head) (ab : Bool) {s : State} (hs : Alone s) : TrackAlone s (passage k h ab s) := by
  unfold passage
  dsimp only
  have hset (g : Head) : TrackAlone s (mirrorHead k (setHead k g s)) := (trackAlone_setHead k g s).of_body (body_mirrorHead k _)
  generalize (if ab = true then { h with totalAB := (h.totalAB + 1) % 65536 }
    else { h with totalBA := (h.totalBA + 1) % 65536 }) = g
  have hg := hset g
  split
  · exact hg
  · split
    · have hout := hg.trans (trackAlone_axleOut g.aSide (hg.alone hs))
      exact hout.trans (trackAlone_axleIn g.bSide (hout.alone hs))
    · have hin := hg.trans (trackAlone_axleIn g.aSide (hg.alone hs))
      exact hin.trans (trackAlone_axleOut g.bSide (hin.alone hs))

theorem trackAlone_sequenceError (k : Nat) (h : Head) (old new : Bool × Bool) {s : State} (hs : Alone s) :
    TrackAlone s (sequenceError k h old new s) := by
  have hset := trackAlone_setHead k { h with phase := .waitIdle, suspect := true } s
  have doubts {u : State} (hu : TrackAlone s u) : TrackAlone s (if u.running then doubt h.bSide (doubt h.aSide u) else u) := by
    split
    · have ha := hu.trans (trackAlone_doubt h.aSide (hu.alone hs))
      exact ha.trans (trackAlone_doubt h.bSide (ha.alone hs))
    · exact hu
  unfold sequenceError
  dsimp only
  apply doubts
  split
  · exact hset
  · exact hset.of_body (body_report _ _ _ _ _)

theorem trackAlone_headSampled (k : Nat) (pair : Bool × Bool) {s : State} (hs : Alone s) : TrackAlone s (headSampled k pair s) := by
  have hpair : TrackAlone s { s with occ := { s.occ with pairs := Tbl.put (false, false) s.occ.pairs k pair } } := ⟨rfl, rfl⟩
  unfold headSampled headPair
  dsimp only
  split
  · exact hpair
  · split_ifs
    · exact hpair.trans (trackAlone_sequenceError k _ _ _ (hpair.alone hs))
    · exact hpair
    · split
      · exact hpair.trans (trackAlone_setHead k _ _)
      · exact hpair.trans (trackAlone_passage k _ _ (hpair.alone hs))

theorem trackAlone_discrepancyExpires (n : Nat) (s : State) : TrackAlone s (discrepancyExpires n s) := by
  unfold discrepancyExpires
  split
  · next r o _ _ =>
    split
    · exact TrackAlone.refl s
    · have hset : TrackAlone s { s with occ := { s.occ with
          secs := Tbl.insert s.occ.secs n { o with discTimer := none, discFlag := true } } } := ⟨rfl, rfl⟩
      dsimp only
      exact (hset.of_body (body_mirrorSection n _)).of_body (body_report _ _ _ _ _)
  · exact TrackAlone.refl s

/-- Settles O22: each of the three handlings reaches the track alone. -/
theorem trackCommandsChangeTrackAlone : Obligations.TrackCommandsChangeTrackAlone := by
  intro c s hs hc
  have ha := Alone.of_quiet hs
  have makes {v : State} (he : exec c s = .next (finish s v)) (ho : Own s v) (hv : TrackAlone s v) :
      ∃ o g, Makes c s { s with occ := o, tags := g } :=
    ⟨v.occ, v.tags, makes_track he hs.rest ho hv.track (hv.step.trans ha.step)⟩
  obtain ⟨i, x, rfl⟩ | ⟨k, a, b, rfl⟩ | ⟨n, rfl⟩ := hc
  · exact makes rfl (own_detectorSampled _ _ _ (own_refl s)) (trackAlone_detectorSampled i.val x ha)
  · exact makes rfl (own_headSampled _ _ _ (own_refl s)) (trackAlone_headSampled k.val (a, b) ha)
  · exact makes rfl (own_discrepancyExpires _ _ (own_refl s)) (trackAlone_discrepancyExpires n.val s)

/-! ### Axle heads (R6 to R8) -/

theorem sidePair_pair (h : Head) (a b : Bool) : sidePair h (if h.invert then (b, a) else (a, b)) = (a, b) := by
  unfold sidePair; cases h.invert <;> rfl

/-- The pair of a head's channels, sampled. -/
def withPair (k : Nat) (pair : Bool × Bool) (s : State) : State :=
  { s with occ := { s.occ with pairs := Tbl.put (false, false) s.occ.pairs k pair } }

/-- A sample of a loaded head, in its A-side and B-side channels. -/
theorem headSampled_eq {s : State} {k : Nat} {h : Head} {a b a' b' : Bool} (hf : Tbl.find s.occ.heads k = some h)
    (hold : sidePair h (Tbl.getD s.occ.pairs k (false, false)) = (a, b)) :
    headSampled k (if h.invert then (b', a') else (a', b')) s
      = headPair k h (a, b) (a', b') (withPair k (if h.invert then (b', a') else (a', b')) s) := by
  unfold headSampled
  dsimp only
  rw [hf]
  dsimp only
  rw [hold, sidePair_pair]
  rfl

/-- A pair that changes one channel moves the phase as the table of R7 says. -/
theorem headPair_one {k : Nat} {h : Head} {a b a' b' : Bool} (s : State) (hone : a = a' ∧ b ≠ b' ∨ a ≠ a' ∧ b = b') :
    headPair k h (a, b) (a', b') s = match recognise h.phase (a', b') with
      | (p, none) => setHead k { h with phase := p } s
      | (p, some ab) => passage k { h with phase := p } ab s := by
  have hboth : ¬ ((a, b).1 != (a', b').1 && (a, b).2 != (a', b').2) = true := by
    obtain ⟨rfl, h⟩ | ⟨h, rfl⟩ := hone <;> simp
  have hsame : (a, b) ≠ (a', b') := by
    obtain ⟨rfl, h⟩ | ⟨h, rfl⟩ := hone <;> simp [h]
  unfold headPair
  exact (if_neg hboth).trans (if_neg hsame)

/-- Settles O23: by the table of R7, whose rows here complete no passage. -/
theorem headPhasesFollowTheTable : Obligations.HeadPhasesFollowTheTable := by
  intro s k h a b a' b' p hrest hf hold hone hrow
  have hrec : recognise h.phase (a', b') = (p, none) := by
    simp only [List.mem_cons, Prod.mk.injEq, List.not_mem_nil, or_false] at hrow
    rcases hrow with hr | hr | hr | hr | hr | hr | hr | hr | hr | hr | hr | hr | hr | hr | hr | hr | hr | hr <;>
      obtain ⟨h1, rfl, rfl, rfl⟩ := hr <;> rw [h1] <;> rfl
  have heq : headSampled k.val (if h.invert then (b', a') else (a', b')) s
      = setHead k.val { h with phase := p } (withPair k.val (if h.invert then (b', a') else (a', b')) s) := by
    rw [headSampled_eq hf hold, headPair_one _ hone, hrec]
  have hown := own_headSampled k.val (if h.invert then (b', a') else (a', b')) s (own_refl s)
  rw [heq] at hown
  refine makes_finish (congrArg (fun v => Host.Outcome.next (finish s v)) heq) ?_ rfl hown
  exact quietEnd_of_none _ hrest.work hrest.shows

/-! ### Passages (R9 to R11, R13) -/

/-- The occupancy of a section once an update of one side has been made. -/
theorem find_axleOut (x : Option Nat) {s : State} {n : Nat} {r : SectionRec} {o : Occupancy}
    (hr : Tbl.find s.occ.recs n = some r) (ho : Tbl.find s.occ.secs n = some o) :
    Tbl.find (axleOut x s).occ.secs n
      = some (if x = some n then updateDiscrepancy r (detLevel s r) (decrement r (detLevel s r) o) else o) := by
  unfold axleOut
  split
  · exact ho
  · next m =>
    split_ifs with h
    · cases h; rw [hr]; exact find_updateSection_self _ hr ho
    · split
      · exact ho
      · rw [find_updateSection_other _ _ (fun e => h (congrArg some e.symm))]; exact ho

theorem find_axleIn (x : Option Nat) {s : State} {n : Nat} {r : SectionRec} {o : Occupancy}
    (hr : Tbl.find s.occ.recs n = some r) (ho : Tbl.find s.occ.secs n = some o) :
    Tbl.find (axleIn x s).occ.secs n
      = some (if x = some n then updateDiscrepancy r (detLevel s r) (increment r (detLevel s r) o) else o) := by
  unfold axleIn
  split
  · exact ho
  · next m =>
    split_ifs with h
    · cases h; rw [hr]; exact find_updateSection_self _ hr ho
    · split
      · exact ho
      · rw [find_updateSection_other _ _ (fun e => h (congrArg some e.symm))]; exact ho

theorem find_axleOut_other {x : Option Nat} {n : Nat} (s : State) (h : x ≠ some n) :
    Tbl.find (axleOut x s).occ.secs n = Tbl.find s.occ.secs n := by
  unfold axleOut
  split
  · rfl
  · split
    · rfl
    · exact find_updateSection_other _ _ (fun e => h (congrArg some e.symm))

theorem find_axleIn_other {x : Option Nat} {n : Nat} (s : State) (h : x ≠ some n) :
    Tbl.find (axleIn x s).occ.secs n = Tbl.find s.occ.secs n := by
  unfold axleIn
  split
  · rfl
  · split
    · rfl
    · exact find_updateSection_other _ _ (fun e => h (congrArg some e.symm))

theorem occ_axleOut (x : Option Nat) (s : State) : (axleOut x s).occ = { s.occ with secs := (axleOut x s).occ.secs } := by
  unfold axleOut
  split
  · rfl
  · split
    · rfl
    · exact occ_updateSection_eq _ _ _

theorem occ_axleIn (x : Option Nat) (s : State) : (axleIn x s).occ = { s.occ with secs := (axleIn x s).occ.secs } := by
  unfold axleIn
  split
  · rfl
  · split
    · rfl
    · exact occ_updateSection_eq _ _ _

theorem detLevel_of_filters {s t : State} (h : t.occ.filters = s.occ.filters) (r : SectionRec) : detLevel t r = detLevel s r := by
  unfold detLevel; rw [h]

theorem decrement_counted {r : SectionRec} {b : Bool} {o : Occupancy} (hd : o.state ≠ .disabled) (hc : o.count ≠ 0) :
    decrement r b o = derive r b { o with count := o.count - 1 } := by
  have hpos : 0 < o.count := Nat.pos_of_ne_zero hc
  unfold decrement
  cases hs : o.state <;> simp_all

theorem decrement_uncounted {r : SectionRec} {b : Bool} {o : Occupancy} (hd : o.state ≠ .disabled) (hc : o.count = 0) :
    decrement r b o = { o with state := .uncertain } := by
  unfold decrement
  cases hs : o.state <;> simp_all

theorem axleLeaves_decrement (r : SectionRec) (b : Bool) {o : Occupancy} (hdet : r.detection ≠ .current)
    (hsweep : o.state = .sweeping → o.count = 0) : AxleLeaves r b o (updateDiscrepancy r b (decrement r b o)) := by
  unfold AxleLeaves
  rw [updateDiscrepancy_count, updateDiscrepancy_state]
  by_cases hd : o.state = .disabled
  · rw [if_pos hd]; unfold decrement; rw [hd]; exact ⟨rfl, hd⟩
  · rw [if_neg hd]
    by_cases hc : o.count = 0
    · rw [if_pos hc, decrement_uncounted hd hc]; exact ⟨hc, rfl⟩
    · rw [if_neg hc, decrement_counted hd hc, derive_count]
      refine ⟨rfl, ?_⟩
      have hone : (0 < o.count - 1) = ¬ o.count = 1 := by apply propext; omega
      unfold derive derivedState
      cases hs : o.state <;> cases hk : r.detection <;> cases b <;> simp_all

theorem axleEnters_increment (r : SectionRec) (b : Bool) {o : Occupancy} (hdet : r.detection ≠ .current) (hc : o.count ≤ 255)
    (hsweep : o.state = .sweeping → o.count = 0) : AxleEnters o (updateDiscrepancy r b (increment r b o)) := by
  unfold AxleEnters
  rw [updateDiscrepancy_count, updateDiscrepancy_state]
  unfold increment derive derivedState
  by_cases hfull : o.count = 255
  · cases hs : o.state <;> simp_all
  · have hroom : o.count < 255 := by omega
    cases hs : o.state <;> cases hk : r.detection <;> simp_all

/-- A side that a passage names, as the statement gives it. -/
theorem axleLeaves_side {s u : State} {x : Option Nat} {n : Nat} {r : SectionRec} {o : Occupancy} (hx : x = some n)
    (hr : Tbl.find u.occ.recs n = some r) (ho : Tbl.find u.occ.secs n = some o) (hf : u.occ.filters = s.occ.filters)
    (hdet : r.detection ≠ .current) (hsweep : o.state = .sweeping → o.count = 0) :
    ∃ p, Tbl.find (axleOut x u).occ.secs n = some p ∧ AxleLeaves r (detLevel s r) o p := by
  refine ⟨_, (find_axleOut x hr ho).trans (congrArg some (if_pos hx)), ?_⟩
  rw [detLevel_of_filters hf]
  exact axleLeaves_decrement r _ hdet hsweep

theorem axleEnters_side {u : State} {x : Option Nat} {n : Nat} {r : SectionRec} {o : Occupancy} (hx : x = some n)
    (hr : Tbl.find u.occ.recs n = some r) (ho : Tbl.find u.occ.secs n = some o)
    (hdet : r.detection ≠ .current) (hc : o.count ≤ 255) (hsweep : o.state = .sweeping → o.count = 0) :
    ∃ p, Tbl.find (axleIn x u).occ.secs n = some p ∧ AxleEnters o p :=
  ⟨_, (find_axleIn x hr ho).trans (congrArg some (if_pos hx)), axleEnters_increment r _ hdet hc hsweep⟩

/-- The occupancy of everything but the sections is the same. -/
def RestOfOcc (u v : State) : Prop := v.occ = { u.occ with secs := v.occ.secs }

theorem RestOfOcc.fields {u v : State} (h : RestOfOcc u v) :
    v.occ.recs = u.occ.recs ∧ v.occ.filters = u.occ.filters ∧ v.occ.heads = u.occ.heads := by
  unfold RestOfOcc at h
  rw [h]; exact ⟨rfl, rfl, rfl⟩

/-- The head with the total of one direction counted on. -/
def countedOn (ab : Bool) (h : Head) : Head :=
  if ab then { h with totalAB := (h.totalAB + 1) % 65536 } else { h with totalBA := (h.totalBA + 1) % 65536 }

theorem countedOn_eq (ab : Bool) (h : Head) : countedOn ab h = { h with
    totalAB := if ab then (h.totalAB + 1) % 65536 else h.totalAB
    totalBA := if ab then h.totalBA else (h.totalBA + 1) % 65536 } := by
  unfold countedOn; cases ab <;> simp

theorem sides_countedOn (ab : Bool) (h : Head) : (countedOn ab h).aSide = h.aSide ∧ (countedOn ab h).bSide = h.bSide := by
  rw [countedOn_eq]; exact ⟨rfl, rfl⟩

theorem passage_running {k : Nat} {h : Head} (ab : Bool) {s : State} (hrun : s.exch.runState = .running) :
    ∃ u, u.occ = { s.occ with heads := Tbl.insert s.occ.heads k (countedOn ab h) } ∧
      passage k h ab s = if ab then axleIn h.bSide (axleOut h.aSide u) else axleOut h.bSide (axleIn h.aSide u) := by
  have hr : (mirrorHead k (setHead k (countedOn ab h) s)).running = true := by
    unfold State.running; simp [setHead, hrun]
  have heq : passage k h ab s =
      if !(mirrorHead k (setHead k (countedOn ab h) s)).running then mirrorHead k (setHead k (countedOn ab h) s)
      else if ab then axleIn (countedOn ab h).bSide (axleOut (countedOn ab h).aSide (mirrorHead k (setHead k (countedOn ab h) s)))
      else axleOut (countedOn ab h).bSide (axleIn (countedOn ab h).aSide (mirrorHead k (setHead k (countedOn ab h) s))) := rfl
  obtain ⟨ha, hb⟩ := sides_countedOn ab h
  refine ⟨mirrorHead k (setHead k (countedOn ab h) s), by rw [mirrorHead_occ]; rfl, ?_⟩
  rw [heq, hr, ha, hb]
  rfl

/-- Settles O24: by the passage's two updates, of two different sections. -/
theorem passageMovesOneAxle : Obligations.PassageMovesOneAxle := by
  intro s k h ab hrun hf hdistinct hphase hold hsides
  have hab (n : Nat) (ha : h.aSide = some n) : h.bSide ≠ some n := hdistinct n ha
  have hba (n : Nat) (hb : h.bSide = some n) : h.aSide ≠ some n := fun ha => hdistinct n ha hb
  have hrec : recognise h.phase (false, false) = (.idle, some ab) := by rw [hphase]; cases ab <;> rfl
  obtain ⟨u, hu, hp⟩ := passage_running (k := k.val) (h := { h with phase := .idle }) ab
    (s := withPair k.val (false, false) s) hrun
  have heq : headSampled k.val (false, false) s
      = if ab then axleIn h.bSide (axleOut h.aSide u) else axleOut h.bSide (axleIn h.aSide u) := by
    have hs := headSampled_eq (a' := false) (b' := false) hf hold
    rw [ite_self, headPair_one _ (by cases ab <;> simp), hrec] at hs
    exact hs.trans hp
  have hrecs : u.occ.recs = s.occ.recs := by rw [hu]; rfl
  have hsecs : u.occ.secs = s.occ.secs := by rw [hu]; rfl
  have hfilters : u.occ.filters = s.occ.filters := by rw [hu]; rfl
  refine ⟨_, rfl, ?_⟩
  rw [occ_finish, heq]
  cases ab
  case true =>
    have hout : RestOfOcc u (axleOut h.aSide u) := occ_axleOut _ _
    have hin : RestOfOcc (axleOut h.aSide u) (axleIn h.bSide (axleOut h.aSide u)) := occ_axleIn _ _
    refine ⟨fun n r o hn hr ho => ?_, fun n o hn ho => ?_, ?_, fun j ha hb => ?_⟩
    · obtain ⟨r', o', hr', ho', hdet, -, hsweep⟩ := hsides n (.inl hn)
      obtain rfl : r' = r := by simpa [hr] using hr'.symm
      obtain rfl : o' = o := by simpa [ho] using ho'.symm
      rw [if_pos rfl, find_axleIn_other _ (hab n hn)]
      exact axleLeaves_side hn (by rw [hrecs, hr]) (by rw [hsecs, ho]) hfilters hdet hsweep
    · obtain ⟨r', o', hr', ho', hdet, hc, hsweep⟩ := hsides n (.inr hn)
      obtain rfl : o' = o := by simpa [ho] using ho'.symm
      rw [if_pos rfl]
      exact axleEnters_side hn (by rw [hout.fields.1, hrecs, hr'])
        (by rw [find_axleOut_other _ (hba n hn), hsecs, ho]) hdet hc hsweep
    · rw [if_pos rfl, hin.fields.2.2, hout.fields.2.2, hu]
      rw [← countedOn_eq true { h with phase := .idle }]
      exact Tbl.find_insert_self _ _ _
    · rw [if_pos rfl, find_axleIn_other _ hb, find_axleOut_other _ ha, hsecs]
  case false =>
    have hin : RestOfOcc u (axleIn h.aSide u) := occ_axleIn _ _
    have hout : RestOfOcc (axleIn h.aSide u) (axleOut h.bSide (axleIn h.aSide u)) := occ_axleOut _ _
    refine ⟨fun n r o hn hr ho => ?_, fun n o hn ho => ?_, ?_, fun j ha hb => ?_⟩
    · obtain ⟨r', o', hr', ho', hdet, -, hsweep⟩ := hsides n (.inr hn)
      obtain rfl : r' = r := by simpa [hr] using hr'.symm
      obtain rfl : o' = o := by simpa [ho] using ho'.symm
      exact axleLeaves_side hn (by rw [hin.fields.1, hrecs, hr])
        (by rw [find_axleIn_other _ (hba n hn), hsecs, ho]) (hin.fields.2.1.trans hfilters) hdet hsweep
    · obtain ⟨r', o', hr', ho', hdet, hc, hsweep⟩ := hsides n (.inl hn)
      obtain rfl : o' = o := by simpa [ho] using ho'.symm
      change ∃ p, Tbl.find (axleOut h.bSide (axleIn h.aSide u)).occ.secs n = some p ∧ AxleEnters o' p
      rw [find_axleOut_other _ (hab n hn)]
      exact axleEnters_side hn (by rw [hrecs, hr']) (by rw [hsecs, ho]) hdet hc hsweep
    · exact (congrArg (fun t => Tbl.find t k.val) (hout.fields.2.2.trans hin.fields.2.2)).trans
        (by rw [hu, ← countedOn_eq false { h with phase := .idle }]; exact Tbl.find_insert_self _ _ _)
    · change Tbl.find (axleOut h.bSide (axleIn h.aSide u)).occ.secs j = _
      rw [find_axleOut_other _ hb, find_axleIn_other _ ha, hsecs]

/-! ### Sequence errors (R8) -/

theorem headPair_both (k : Nat) (h : Head) (a b : Bool) (s : State) :
    headPair k h (a, b) (!a, !b) s = sequenceError k h (a, b) (!a, !b) s := by
  unfold headPair
  rw [if_pos (by cases a <;> cases b <;> rfl)]

theorem occ_doubt (x : Option Nat) (s : State) : (doubt x s).occ = { s.occ with secs := (doubt x s).occ.secs } := by
  unfold doubt
  split
  · rfl
  · exact occ_updateSection_eq _ _ _

/-- What a sequence error leaves of a section that a head names on a side, or does not. -/
structure Doubted (named : Prop) (o p : Occupancy) : Prop where
  count : p.count = o.count
  uncertain : named → o.state ≠ .disabled → p.state = .uncertain
  disabled : named → o.state = .disabled → p.state = .disabled
  other : ¬ named → p = o

theorem doubted_doubt (x : Option Nat) {s : State} {n : Nat} {r : SectionRec} {o : Occupancy}
    (hr : Tbl.find s.occ.recs n = some r) (ho : Tbl.find s.occ.secs n = some o) :
    ∃ p, Tbl.find (doubt x s).occ.secs n = some p ∧ Doubted (x = some n) o p := by
  unfold doubt
  split
  · exact ⟨o, ho, ⟨rfl, by simp, by simp, fun _ => rfl⟩⟩
  · next m =>
    by_cases h : n = m
    · subst h
      refine ⟨_, find_updateSection_self _ hr ho, ⟨?_, fun _ hd => ?_, fun _ hd => ?_, fun hn => absurd rfl hn⟩⟩
      · rw [updateDiscrepancy_count]; split <;> rfl
      · rw [updateDiscrepancy_state, if_neg hd]
      · rw [updateDiscrepancy_state, if_pos hd]; exact hd
    · refine ⟨o, (find_updateSection_other _ _ h).trans ho, ⟨rfl, ?_, ?_, fun _ => rfl⟩⟩ <;>
        exact fun e => absurd (Option.some.inj e).symm h

theorem Doubted.trans {a b : Prop} {o p q : Occupancy} (h1 : Doubted a o p) (h2 : Doubted b p q) : Doubted (a ∨ b) o q where
  count := h2.count.trans h1.count
  uncertain := by
    intro hn hd
    by_cases hb : b
    · by_cases ha : a
      · exact h2.uncertain hb (by rw [h1.uncertain ha hd]; decide)
      · exact h2.uncertain hb (by rw [h1.other ha]; exact hd)
    · rw [h2.other hb]; exact h1.uncertain (hn.resolve_right hb) hd
  disabled := by
    intro hn hd
    have hp : p.state = .disabled := by
      by_cases ha : a
      · exact h1.disabled ha hd
      · rw [h1.other ha]; exact hd
    by_cases hb : b
    · exact h2.disabled hb hp
    · rw [h2.other hb]; exact hp
  other := fun hn => by rw [h2.other fun hb => hn (.inr hb), h1.other fun ha => hn (.inl ha)]

/-- The head that a sequence error makes SUSPECT; its side sections are doubted in RUNNING. -/
theorem sequenceError_eq (k : Nat) (h : Head) (old new : Bool × Bool) (s : State) :
    ∃ u, u.occ = { s.occ with heads := Tbl.insert s.occ.heads k { h with phase := .waitIdle, suspect := true } } ∧
      sequenceError k h old new s = if s.exch.runState = .running then doubt h.bSide (doubt h.aSide u) else u := by
  refine ⟨if h.suspect then setHead k { h with phase := .waitIdle, suspect := true } s
    else report .headSuspect k (halves 2 0) (pairCode old + 4 * pairCode new)
      (setHead k { h with phase := .waitIdle, suspect := true } s), ?_, ?_⟩
  · split
    · rfl
    · rw [report_occ]; rfl
  · have hb : body (if h.suspect then setHead k { h with phase := .waitIdle, suspect := true } s
        else report .headSuspect k (halves 2 0) (pairCode old + 4 * pairCode new)
          (setHead k { h with phase := .waitIdle, suspect := true } s))
        = body (setHead k { h with phase := .waitIdle, suspect := true } s) := by
      split
      · rfl
      · exact body_report _ _ _ _ _
    have hrun := runState_of_body hb
    unfold sequenceError
    dsimp only
    generalize (if h.suspect then setHead k { h with phase := .waitIdle, suspect := true } s
        else report .headSuspect k (halves 2 0) (pairCode old + 4 * pairCode new)
          (setHead k { h with phase := .waitIdle, suspect := true } s)) = u at hrun
    unfold State.running
    rw [hrun]
    simp [setHead]

/-- Settles O25: by the doubt of each side section. -/
theorem sequenceErrorDoubtsBothSides : Obligations.SequenceErrorDoubtsBothSides := by
  intro s k h a b hf hold pair
  obtain ⟨u, hu, hp⟩ := sequenceError_eq k.val h (a, b) (!a, !b) (withPair k.val pair s)
  have heq : headSampled k.val pair s
      = if s.exch.runState = .running then doubt h.bSide (doubt h.aSide u) else u :=
    (headSampled_eq hf hold).trans ((headPair_both _ _ _ _ _).trans hp)
  have hrest : RestOfOcc u (doubt h.bSide (doubt h.aSide u)) := by
    unfold RestOfOcc; rw [occ_doubt, occ_doubt]
  have hrecs : u.occ.recs = s.occ.recs := by rw [hu]; rfl
  have hsecs : u.occ.secs = s.occ.secs := by rw [hu]; rfl
  have hheads : Tbl.find u.occ.heads k.val = some { h with phase := .waitIdle, suspect := true } := by
    rw [hu]; exact Tbl.find_insert_self _ _ _
  refine ⟨_, rfl, ?_⟩
  rw [occ_finish]
  change Tbl.find (headSampled k.val pair s).occ.heads k.val = _ ∧ (_ → (headSampled k.val pair s).occ.secs = _) ∧
    (_ → ∀ (n : Nat) (r : SectionRec) (o : Occupancy), _ → _ → ∃ p, Tbl.find (headSampled k.val pair s).occ.secs n = _ ∧ _)
  rw [heq]
  refine ⟨?_, fun hrun => ?_, fun hrun n r o hr ho => ?_⟩
  · split
    · rw [hrest.fields.2.2, hheads]
    · exact hheads
  · rw [if_neg hrun, hsecs]
  · obtain ⟨p, hp1, hd1⟩ := doubted_doubt h.aSide (s := u) (n := n) (by rw [hrecs, hr]) (by rw [hsecs, ho])
    obtain ⟨q, hq, hd2⟩ := doubted_doubt h.bSide (s := doubt h.aSide u) (n := n) (r := r)
      (by rw [occ_doubt]; change Tbl.find u.occ.recs n = _; rw [hrecs, hr]) hp1
    have hd := hd1.trans hd2
    rw [if_pos hrun]
    exact ⟨q, hq, hd.count, hd.uncertain, hd.disabled, fun ha hb => hd.other fun hn => hn.elim ha hb⟩

end Sys2Proof.TrackDetection
end

