-- ==== Sys2Proof/Proofs/TrackRequests.lean ====
section
/-! The section requests, the track timers and LABEL_TAG (O26, O27, O28). -/

namespace Sys2Proof.TrackRequests

open Sys2Proof.Machine Sys2Proof.ReportLog Sys2Proof.TrackDetection

/-! ### What a block reads of the machine once its slot is taken -/

/-- What a block reads beside the slot reads as before the taking. -/
theorem read_taken {α : Type} (g : State → α) (q : Request) (s : State)
    (hg : ∀ m, g (((s.inHand q.tag).served).withMem m) = g s) : g (taken q s) = g s := by
  rw [taken_shape]; exact hg _

theorem occ_taken (q : Request) (s : State) : (taken q s).occ = s.occ := read_taken (fun u => u.occ) q s fun _ => rfl

theorem work_taken (q : Request) (s : State) : (taken q s).work = s.work := read_taken (fun u => u.work) q s fun _ => rfl

/-- Blanking the outputs keeps an equation between states without their track. -/
theorem inside_of_sansTrack {s v : State} (h : sansTrack v = sansTrack s) :
    inside v = inside { s with occ := v.occ, tags := v.tags } :=
  congrArg (fun u : State => ({ u with occ := v.occ, tags := v.tags } : State)) h

/-- A request that reaches the track alone, in a machine in which nothing acts on it. -/
theorem replies_track {c : Instr} {s v : State} {q : Request} {r : Result} {w0 w1 : Nat} {al : Allowed}
    {f : Nat → State → State} {rs : RunState} (e : exec c s = .next (requestCommand al f q s)) (h : Ready rs s)
    (hal : al.ok rs = true) (hrs : rs ≠ .initializing) (hq : AtRest s)
    (hf : f s.exch.takePos (taken q s) = complete s.exch.takePos r w0 w1 v) (ho : Own (taken q s) v)
    (hv : TrackAlone (taken q s) v) : Replies c s { s with occ := v.occ, tags := v.tags } q.tag r w0 w1 := by
  have hi : inside v = inside ((({ s with occ := v.occ, tags := v.tags } : State).inHand q.tag).served) := by
    rw [inside_of_sansTrack hv.track]
    have g := congrArg (fun u : State => ({ u with occ := v.occ, tags := v.tags } : State)) (inside_taken q s)
    exact g
  refine replies_of e h hal hrs hf ho hi ⟨rfl, rfl⟩ ?_
  have field {α : Type} (g : State → α) (h1 : ∀ u, g (sansTrack u) = g u)
      (h2 : ∀ m, g (((s.inHand q.tag).served).withMem m) = g s) : g v = g s :=
    (field_of_sansTrack g h1 hv.track).trans (read_taken g q s h2)
  refine quietEnd_of_empty v ?_ ?_ ?_ ?_
  · rw [hv.step, work_taken, hq.work]; rfl
  · exact (field (fun u => u.vis.queue) (fun _ => rfl) fun _ => rfl).trans hq.shows
  · exact (field (fun u => u.pts.queue) (fun _ => rfl) fun _ => rfl).trans hq.orders
  · exact (field (fun u => u.ilk.stack) (fun _ => rfl) fun _ => rfl).trans hq.stack

theorem alone_taken {q : Request} {s : State} (h : Quiet s) : Alone (taken q s) := by
  rw [taken_shape]; exact ⟨by change s.work.step = none; rw [h.rest.work]; rfl, h.routes, h.runner, h.jog, h.response⟩

/-! ### DISABLE_SECTION and ENABLE_SECTION (R16, R17) -/

theorem loadedSection_of_find {s : State} {n : Nat} (h : n < 256) : loadedSection s n = Tbl.find s.occ.recs n := if_pos h

theorem loadedSection_none {s : State} {n : Nat} (h : 256 ≤ n ∨ Tbl.find s.occ.recs n = none) : loadedSection s n = none := by
  unfold loadedSection
  split
  · exact h.resolve_left (by omega)
  · rfl

theorem loadedSection_taken (q : Request) (s : State) (n : Nat) : loadedSection (taken q s) n = loadedSection s n :=
  read_taken (fun u => loadedSection u n) q s fun _ => rfl

theorem lockOf_taken (q : Request) (s : State) (n : Nat) : lockOf (taken q s) n = lockOf s n :=
  read_taken (fun u => lockOf u n) q s fun _ => rfl

/-- The discrepancy check does not run in a state that no source derives, nor where there is one source (R14). -/
theorem updateDiscrepancy_plain (r : SectionRec) (b : Bool) {st : SectionState} {t : Option Nat} {flag : Bool}
    (h : r.detection ≠ .both ∨ st ≠ .clear ∧ st ≠ .occupied) :
    updateDiscrepancy r b { state := st, count := 0, discTimer := t, discFlag := flag } = plainOccupancy st := by
  have hc : checked r { state := st, count := 0, discTimer := t, discFlag := flag } = false := by
    unfold checked
    obtain h | ⟨h1, h2⟩ := h
    · simp [h]
    · cases st <;> simp_all
  unfold updateDiscrepancy
  rw [hc]
  rfl

/-- A section set in a state with count 0: what an update reaches of the occupancy. -/
theorem occ_plainSection {s : State} {n : Nat} {r : SectionRec} {o : Occupancy} {f : Occupancy → Occupancy} {st : SectionState}
    (hr : Tbl.find s.occ.recs n = some r) (ho : Tbl.find s.occ.secs n = some o) (hf : f o = { o with state := st, count := 0 })
    (hd : r.detection ≠ .both ∨ st ≠ .clear ∧ st ≠ .occupied) :
    (updateSection n f s).occ = { s.occ with secs := Tbl.insert s.occ.secs n (plainOccupancy st) } := by
  rw [occ_updateSection n f s r o hr ho, hf, updateDiscrepancy_plain r _ hd]

theorem freshState_eq (s : State) (n : Nat) (r : SectionRec) : freshState s n r = match r.detection with
    | .current => if detLevel s r then SectionState.occupied else .clear
    | .axle | .both =>
      if s.occ.heads.any (fun x => (x.2.aSide == some n || x.2.bSide == some n) && x.2.suspect)
      then .uncertain else .sweeping := by
  have hb : boundSuspect s n = s.occ.heads.any (fun x => (x.2.aSide == some n || x.2.bSide == some n) && x.2.suspect) := by
    unfold boundSuspect boundingHeads; rw [List.any_filter]
  rw [← hb]
  unfold freshState
  cases r.detection <;> rfl

theorem freshState_underived (s : State) (n : Nat) (r : SectionRec) :
    r.detection ≠ .both ∨ freshState s n r ≠ .clear ∧ freshState s n r ≠ .occupied := by
  unfold freshState
  cases r.detection with
  | current => exact .inl (by decide)
  | axle => exact .inl (by decide)
  | both => refine .inr ?_; dsimp only; split <;> decide

section
variable {s : State} {q : Request} {n : Nat} {k : Nat}

theorem disableSection_none (h : 256 ≤ n ∨ Tbl.find s.occ.recs n = none) :
    disableSection k n (taken q s) = complete k .badArgument 0 0 (taken q s) := by
  unfold disableSection; rw [loadedSection_taken, loadedSection_none h]

theorem enableSection_none (h : 256 ≤ n ∨ Tbl.find s.occ.recs n = none) :
    enableSection k n (taken q s) = complete k .badArgument 0 0 (taken q s) := by
  unfold enableSection; rw [loadedSection_taken, loadedSection_none h]

theorem resetSection_none (h : 256 ≤ n ∨ Tbl.find s.occ.recs n = none) :
    resetSection k n (taken q s) = complete k .badArgument 0 0 (taken q s) := by
  unfold resetSection; rw [loadedSection_taken, loadedSection_none h]

theorem disableSection_loaded {r : SectionRec} (hn : n < 256) (hr : Tbl.find s.occ.recs n = some r) :
    disableSection k n (taken q s) = if (Tbl.find s.ilk.locks n).isSome then complete k .sectionLocked 0 0 (taken q s)
      else complete k .ok 0 0 (updateSection n (fun o =>
        if o.state = .disabled then o else { o with state := .disabled, count := 0 }) (taken q s)) := by
  unfold disableSection; rw [loadedSection_taken, loadedSection_of_find hn, hr, lockOf_taken]; rfl

theorem enableSection_loaded {r : SectionRec} (hn : n < 256) (hr : Tbl.find s.occ.recs n = some r) :
    enableSection k n (taken q s) = complete k .ok 0 0 (updateSection n (fun o =>
      if o.state = .disabled then { o with state := freshState s n r, count := 0 } else o) (taken q s)) := by
  have hfresh : freshState (taken q s) n r = freshState s n r := read_taken (fun u => freshState u n r) q s fun _ => rfl
  unfold enableSection; rw [loadedSection_taken, loadedSection_of_find hn, hr]
  dsimp only
  rw [hfresh]

end

/-- An accepted section request, whose block has set the section in a state with count 0. -/
theorem replies_plainSection {c : Instr} {s : State} {q : Request} {f : Nat → State → State} {g : Occupancy → Occupancy}
    {n : Nat} {r : SectionRec} {o : Occupancy} {st : SectionState} (e : exec c s = .next (requestCommand .running f q s))
    (h : Ready .running s) (hq : Quiet s) (hr : Tbl.find s.occ.recs n = some r) (ho : Tbl.find s.occ.secs n = some o)
    (hg : g o = { o with state := st, count := 0 }) (hd : r.detection ≠ .both ∨ st ≠ .clear ∧ st ≠ .occupied)
    (hf : f s.exch.takePos (taken q s) = complete s.exch.takePos .ok 0 0 (updateSection n g (taken q s))) :
    ∃ tags, Replies c s { s with
      occ := { s.occ with secs := Tbl.insert s.occ.secs n (plainOccupancy st) }, tags := tags } q.tag .ok 0 0 := by
  have hocc : (updateSection n g (taken q s)).occ = { s.occ with secs := Tbl.insert s.occ.secs n (plainOccupancy st) } := by
    rw [occ_plainSection (s := taken q s) (by rw [occ_taken, hr]) (by rw [occ_taken, ho]) hg hd, occ_taken]
  refine ⟨(updateSection n g (taken q s)).tags, ?_⟩
  rw [← hocc]
  exact replies_track e h rfl (by decide) hq.rest hf (own_updateSection n g _ (own_refl _))
    (trackAlone_updateSection n g (alone_taken hq))

/-- Settles O26: by the branches of the two blocks. -/
theorem sectionsAreDisabledAndEnabled : Obligations.SectionsAreDisabledAndEnabled := by
  intro s tag n h hrest
  refine ⟨fun hbad => ⟨?_, ?_⟩, fun hn r o hr ho => ⟨fun k hk => ?_, fun hk hq hd => ?_, fun hq hd => ?_⟩⟩
  · exact replies_same (q := ⟨11, tag, n, 0#32, 0#32⟩) rfl h rfl (by decide) (disableSection_none hbad) hrest
  · exact replies_same (q := ⟨12, tag, n, 0#32, 0#32⟩) rfl h rfl (by decide) (enableSection_none hbad) hrest
  · refine replies_same (q := ⟨11, tag, n, 0#32, 0#32⟩) rfl h rfl (by decide) ?_ hrest
    exact (disableSection_loaded hn hr).trans (if_pos (by rw [hk]; rfl))
  · refine replies_plainSection (q := ⟨11, tag, n, 0#32, 0#32⟩) (f := fun k => disableSection k n.toNat)
      (g := fun o => if o.state = .disabled then o else { o with state := .disabled, count := 0 })
      rfl h hq hr ho (if_neg hd) (.inr (by decide)) ?_
    exact (disableSection_loaded hn hr).trans (if_neg (by rw [hk]; decide))
  · intro st
    have hst : st = freshState s n.toNat r := (freshState_eq s n.toNat r).symm
    rw [hst]
    exact replies_plainSection (q := ⟨12, tag, n, 0#32, 0#32⟩) (f := fun k => enableSection k n.toNat)
      (g := fun o => if o.state = .disabled then { o with state := freshState s n.toNat r, count := 0 } else o)
      rfl h hq hr ho (if_pos hd) (freshState_underived s _ r)
      (enableSection_loaded hn hr)

/-! ### RESET_SECTION (R18) -/

/-- The heads whose numbers are in a list, NORMAL again. -/
def normalIn (l : List Nat) (t : Tbl Head) : Tbl Head :=
  t.map fun x => (x.1, if x.1 ∈ l then { x.2 with suspect := false } else x.2)

theorem sorted_normalIn (l : List Nat) {t : Tbl Head} (h : Tbl.sorted t = true) : Tbl.sorted (normalIn l t) = true := by
  induction t with
  | nil => rfl
  | cons x t ih =>
    obtain ⟨k, v⟩ := x
    obtain ⟨h1, h2⟩ := (Tbl.sorted_cons_iff k v t).1 h
    refine (Tbl.sorted_cons_iff _ _ _).2 ⟨fun y hy => ?_, ih h2⟩
    obtain ⟨z, hz, rfl⟩ := List.mem_map.1 hy
    exact h1 z hz

theorem normalIn_of_lt {k : Nat} {t : Tbl Head} (h : ∀ x ∈ t, k < x.1) : normalIn [k] t = t := by
  refine (List.map_congr_left fun x hx => ?_).trans (List.map_id t)
  have hne : x.1 ≠ k := by have := h x hx; omega
  rw [if_neg (by simpa using hne)]
  rfl

theorem normalIn_append (l : List Nat) (k : Nat) (t : Tbl Head) : normalIn [k] (normalIn l t) = normalIn (l ++ [k]) t := by
  unfold normalIn
  rw [List.map_map]
  refine List.map_congr_left fun x _ => ?_
  refine Prod.ext rfl ?_
  simp only [Function.comp, List.mem_append, List.mem_singleton]
  by_cases h1 : x.1 ∈ l
  · rw [if_pos h1]
    exact (ite_self _).trans (if_pos (Or.inl h1)).symm
  · rw [if_neg h1]
    exact if_congr (by simp [h1]) rfl rfl

/-- A head of a sorted table set NORMAL in its place. -/
theorem insert_normal {k : Nat} {t : Tbl Head} {h : Head} (hs : Tbl.sorted t = true) (hf : Tbl.find t k = some h) :
    Tbl.insert t k { h with suspect := false } = normalIn [k] t := by
  induction t with
  | nil => cases hf
  | cons x t ih =>
    obtain ⟨m, v⟩ := x
    obtain ⟨h1, h2⟩ := (Tbl.sorted_cons_iff m v t).1 hs
    have hcons : normalIn [k] ((m, v) :: t) = (m, if m ∈ [k] then { v with suspect := false } else v) :: normalIn [k] t := rfl
    rw [hcons]
    by_cases e : k = m
    · subst e
      have hv : v = h := by simpa [Tbl.find] using hf
      rw [normalIn_of_lt h1, if_pos (List.mem_singleton_self k), hv]
      simp [Tbl.insert]
    · have hf' : Tbl.find t k = some h := by simpa [Tbl.find, e] using hf
      have hlt : ¬ k < m := fun hlt => by
        rw [Tbl.find_of_lt t m v hs k (by omega)] at hf'; cases hf'
      rw [if_neg (by simpa using fun e' => e e'.symm), ← ih h2 hf']
      simp [Tbl.insert, e, hlt]

/-- A head that is NORMAL, or that is not loaded, stays as it is. -/
theorem normalIn_normal {k : Nat} {t : Tbl Head} (hs : Tbl.sorted t = true) (hf : ∀ h, Tbl.find t k = some h → h.suspect = false) :
    normalIn [k] t = t := by
  induction t with
  | nil => rfl
  | cons x t ih =>
    obtain ⟨m, v⟩ := x
    obtain ⟨h1, h2⟩ := (Tbl.sorted_cons_iff m v t).1 hs
    have hcons : normalIn [k] ((m, v) :: t) = (m, if m ∈ [k] then { v with suspect := false } else v) :: normalIn [k] t := rfl
    rw [hcons]
    by_cases e : k = m
    · subst e
      have hv : v.suspect = false := hf v (by simp [Tbl.find])
      rw [normalIn_of_lt h1, if_pos (List.mem_singleton_self k)]
      cases v; simp_all
    · rw [if_neg (by simpa using fun e' => e e'.symm), ih h2 fun h hh => hf h (by simpa [Tbl.find, e] using hh)]

/-- A head returns to NORMAL, and nothing else changes inside. -/
theorem trackAlone_headNormal (k : Nat) (s : State) : TrackAlone s (headNormal k s) := by
  unfold headNormal
  split
  · exact TrackAlone.refl s
  · split
    · exact (trackAlone_setHead k _ s).of_body (body_report _ _ _ _ _)
    · exact TrackAlone.refl s

theorem occ_headNormal (k : Nat) {s : State} (hs : Tbl.sorted s.occ.heads = true) :
    (headNormal k s).occ = { s.occ with heads := normalIn [k] s.occ.heads } := by
  unfold headNormal
  split
  · next hf => rw [normalIn_normal hs fun h hh => by rw [hf] at hh; cases hh]
  · next h hf =>
    split
    · rw [report_occ, ← insert_normal hs hf]; rfl
    · next hn => rw [normalIn_normal hs fun g hg => by rw [hf] at hg; cases hg; simpa using hn]

theorem headsNormal (l : List Nat) {s : State} (hs : Tbl.sorted s.occ.heads = true) :
    TrackAlone s (eachDo l headNormal s) ∧ (eachDo l headNormal s).occ = { s.occ with heads := normalIn l s.occ.heads } := by
  induction l using List.reverseRecOn with
  | nil =>
    refine ⟨TrackAlone.refl s, ?_⟩
    have hnil : normalIn [] s.occ.heads = s.occ.heads :=
      (List.map_congr_left fun x _ => by rw [if_neg (by simp)]; rfl).trans (List.map_id _)
    rw [hnil]; rfl
  | append_singleton l k ih =>
    obtain ⟨h1, h2⟩ := ih
    have hstep : eachDo (l ++ [k]) headNormal s = headNormal k (eachDo l headNormal s) := by
      unfold eachDo; rw [List.foldl_append]; rfl
    have hsorted : Tbl.sorted (eachDo l headNormal s).occ.heads = true := by rw [h2]; exact sorted_normalIn l hs
    rw [hstep, occ_headNormal k hsorted, h2, ← normalIn_append]
    exact ⟨h1.trans (trackAlone_headNormal k _), rfl⟩

theorem find_of_mem {α : Type} {t : Tbl α} (hs : Tbl.sorted t = true) {x : Nat × α} (hx : x ∈ t) : Tbl.find t x.1 = some x.2 := by
  induction t with
  | nil => cases hx
  | cons y t ih =>
    obtain ⟨h1, h2⟩ := (Tbl.sorted_cons_iff y.1 y.2 t).1 hs
    obtain rfl | hx := List.mem_cons.1 hx
    · exact if_pos rfl
    · exact (if_neg (h1 x hx).ne').trans (ih h2 hx)

/-- The numbers of the entries that meet a condition are those entries'. -/
theorem mem_keys_filter {α : Type} {t : Tbl α} (hs : Tbl.sorted t = true) (p : Nat × α → Bool) {x : Nat × α} (hx : x ∈ t) :
    x.1 ∈ (t.filter p).map Prod.fst ↔ p x = true := by
  constructor
  · intro h
    obtain ⟨y, hy, hyx⟩ := List.mem_map.1 h
    obtain ⟨hyt, hpy⟩ := List.mem_filter.1 hy
    have hval : y.2 = x.2 := by
      have hy' := find_of_mem hs hyt
      rw [hyx, find_of_mem hs hx] at hy'
      exact (Option.some.inj hy').symm
    rw [← Prod.ext hyx hval]; exact hpy
  · exact fun h => List.mem_map.2 ⟨x, List.mem_filter.2 ⟨hx, h⟩, rfl⟩

theorem normalIn_bounding {s : State} (hs : Tbl.sorted s.occ.heads = true) (n : Nat) :
    normalIn ((boundingHeads s n).map Prod.fst) s.occ.heads = s.occ.heads.map fun x =>
      (x.1, if x.2.aSide = some n ∨ x.2.bSide = some n then { x.2 with suspect := false } else x.2) := by
  refine List.map_congr_left fun x hx => ?_
  have hiff : x.1 ∈ (boundingHeads s n).map Prod.fst ↔ x.2.aSide = some n ∨ x.2.bSide = some n := by
    unfold boundingHeads; rw [mem_keys_filter hs _ hx]; simp
  rw [if_congr hiff rfl rfl]

/-- The block of a loaded section with a count (R18). -/
theorem resetSection_loaded {s : State} {q : Request} {n k : Nat} {r : SectionRec} {o : Occupancy} (hn : n < 256)
    (hr : Tbl.find s.occ.recs n = some r) (ho : Tbl.find s.occ.secs n = some o) :
    resetSection k n (taken q s) =
      if r.detection = .current then complete k .badArgument 0 0 (taken q s)
      else match o.state with
        | .disabled => complete k .sectionDisabled 0 0 (taken q s)
        | .clear | .sweeping => complete k .wrongSectionState 0 0 (taken q s)
        | .uncertain | .occupied =>
          if (Tbl.find s.ilk.locks n).isSome then complete k .sectionLocked 0 0 (taken q s)
          else
            let u := updateSection n (fun o => { o with state := .sweeping, count := 0 }) (taken q s)
            complete k .ok 0 0 (eachDo ((boundingHeads u n).map Prod.fst) headNormal u) := by
  have hstate : secState (taken q s) n = o.state := by
    unfold secState occOf Tbl.getD; rw [occ_taken, ho]; rfl
  unfold resetSection
  rw [loadedSection_taken, loadedSection_of_find hn, hr, hstate, lockOf_taken]
  dsimp only
  by_cases hd : r.detection = .current
  · exact (if_pos hd).trans (if_pos hd).symm
  · refine (if_neg hd).trans (.trans ?_ (if_neg hd).symm)
    cases o.state <;> rfl

/-- Settles O27: by the branches of the block, and the heads by the table. -/
theorem resetSectionSweeps : Obligations.ResetSectionSweeps := by
  intro s tag n h hrest
  have refused {x : Result} (hx : ∀ k, k = s.exch.takePos → resetSection k n.toNat (taken ⟨13, tag, n, 0#32, 0#32⟩ s)
      = complete k x 0 0 (taken ⟨13, tag, n, 0#32, 0#32⟩ s)) : Replies (.resetSection tag n) s s tag x 0 0 :=
    replies_same (q := ⟨13, tag, n, 0#32, 0#32⟩) rfl h rfl (by decide) (hx _ rfl) hrest
  refine ⟨fun hbad => refused fun k _ => resetSection_none hbad, fun hn r o hr ho => ⟨fun hd => refused fun k _ => ?_,
    fun hd => ⟨fun hst => refused fun k _ => ?_, fun hst => refused fun k _ => ?_,
      fun hst => ⟨fun m hm => refused fun k _ => ?_, fun hm hq hsorted => ?_⟩⟩⟩⟩
  · rw [resetSection_loaded hn hr ho, if_pos hd]
  · rw [resetSection_loaded hn hr ho, if_neg hd, hst]
  · rw [resetSection_loaded hn hr ho, if_neg hd]
    obtain hst | hst := hst <;> rw [hst]
  · rw [resetSection_loaded hn hr ho, if_neg hd]
    obtain hst | hst := hst <;> rw [hst] <;> exact if_pos (by rw [hm]; rfl)
  · let q : Request := ⟨13, tag, n, 0#32, 0#32⟩
    let u := updateSection n.toNat (fun o => { o with state := .sweeping, count := 0 }) (taken q s)
    have hocc : u.occ = { s.occ with secs := Tbl.insert s.occ.secs n.toNat (plainOccupancy .sweeping) } := by
      rw [occ_plainSection (s := taken q s) (o := o) (r := r) (by rw [occ_taken, hr]) (by rw [occ_taken, ho]) rfl
        (.inr (by decide)), occ_taken]
    have hu : Tbl.sorted u.occ.heads = true := by rw [hocc]; exact hsorted
    obtain ⟨hheads, hheads'⟩ := headsNormal ((boundingHeads u n.toNat).map Prod.fst) hu
    rw [normalIn_bounding hu n.toNat, hocc] at hheads'
    have hblock : resetSection s.exch.takePos n.toNat (taken q s)
        = complete s.exch.takePos .ok 0 0 (eachDo ((boundingHeads u n.toNat).map Prod.fst) headNormal u) := by
      rw [resetSection_loaded hn hr ho, if_neg hd]
      obtain hst | hst := hst <;> rw [hst] <;> exact if_neg (by rw [hm]; decide)
    refine ⟨(eachDo ((boundingHeads u n.toNat).map Prod.fst) headNormal u).tags, ?_⟩
    have hreply := replies_track (c := .resetSection tag n) (q := q) (f := fun k => resetSection k n.toNat) rfl h rfl (by decide) hrest
      hblock (own_eachDo _ _ (own_updateSection _ _ _ (own_refl _)) fun k t => own_headNormal k t (own_refl t))
      ((trackAlone_updateSection _ _ (alone_taken hq)).trans hheads)
    rw [hheads'] at hreply
    exact hreply

/-! ### The track timers and LABEL_TAG (R14, R34, R36) -/

/-- A handling with nothing to follow it, in a machine at rest. -/
theorem makes_rest {c : Instr} {s v u : State} (he : exec c s = .next (finish s v)) (hq : AtRest s) (ho : Own s v)
    (hb : body v = body u) (hw : u.work = s.work) (hs : u.vis.queue = s.vis.queue) : Makes c s u := by
  have hi : inside v = inside u := inside_of_body hb
  have hshows : v.vis.queue = u.vis.queue := by
    have g := congrArg (fun x : State => x.vis.queue) hb
    exact g
  exact makes_finish he (quietEnd_of_none v ((work_of_body hb).trans (hw.trans hq.work)) (hshows.trans (hs.trans hq.shows))) hi ho

theorem body_setTag (t : Nat) (v : Tag) (s : State) :
    body (setTag t v s) = body { s with tags := { s.tags with table := Tbl.put Tag.init s.tags.table t v } } :=
  body_mirrorTag t _

theorem put_default {α : Type} [DecidableEq α] (d : α) (t : Tbl α) (n : Nat) : Tbl.put d t n d = Tbl.erase t n := if_pos rfl

theorem put_other {α : Type} [DecidableEq α] {d v : α} (t : Tbl α) (n : Nat) (h : v ≠ d) : Tbl.put d t n v = Tbl.insert t n v :=
  if_neg h

theorem body_freeLostTag (t : Nat) (s : State) :
    body (freeLostTag t s) = body { s with tags := { s.tags with table := Tbl.erase s.tags.table t } } := by
  unfold freeLostTag
  dsimp only
  rw [body_report, body_setTag, put_default]

theorem discrepancyExpires_running {s : State} {n : Nat} {r : SectionRec} {o : Occupancy} {k : Nat}
    (hr : Tbl.find s.occ.recs n = some r) (ho : Tbl.find s.occ.secs n = some o) (hk : o.discTimer = some k) :
    body (discrepancyExpires n s) = body { s with occ := { s.occ with
      secs := Tbl.insert s.occ.secs n { o with discTimer := none, discFlag := true } } } := by
  unfold discrepancyExpires
  rw [hr, ho]
  dsimp only
  rw [hk]
  dsimp only
  rw [body_report, body_mirrorSection]

theorem discrepancyExpires_stopped {s : State} {n : Nat}
    (h : ∀ o, Tbl.find s.occ.secs n = some o → o.discTimer = none) : discrepancyExpires n s = s := by
  unfold discrepancyExpires
  split
  · next o hr ho => rw [h o ho]
  · rfl

theorem lostHoldExpires_lost {s : State} {t : Nat} (h : (tagRec s t).state = .lost) (hk : (tagRec s t).timer ≠ none) :
    lostHoldExpires t s = freeLostTag t s := by
  unfold lostHoldExpires
  exact if_pos (by rw [h]; cases hk' : (tagRec s t).timer <;> simp_all)

theorem lostHoldExpires_other {s : State} {t : Nat} (h : (tagRec s t).state ≠ .lost ∨ (tagRec s t).timer = none) :
    lostHoldExpires t s = s := by
  unfold lostHoldExpires
  exact if_neg (by obtain h | h := h <;> simp [h])

theorem labelTag_taken (k t label : Nat) (q : Request) (s : State) : labelTag k t label (taken q s) =
    if 63 < t || 255 < label then complete k .badArgument 0 0 (taken q s)
    else if (tagRec s t).state = .free then complete k .tagNotInUse 0 0 (taken q s)
    else complete k .ok 0 0 (setTag t { tagRec s t with label := label } (taken q s)) := by
  have ht : tagRec (taken q s) t = tagRec s t := read_taken (fun u => tagRec u t) q s fun _ => rfl
  unfold labelTag
  dsimp only
  rw [ht]

/-- A request whose block has reached, but for the outputs, the tags alone. -/
theorem replies_tags {c : Instr} {s v : State} {q : Request} {r : Result} {w0 w1 : Nat} {al : Allowed} {tags : TagUnit}
    {f : Nat → State → State} {rs : RunState} (e : exec c s = .next (requestCommand al f q s)) (h : Ready rs s)
    (hal : al.ok rs = true) (hrs : rs ≠ .initializing) (hq : AtRest s)
    (hf : f s.exch.takePos (taken q s) = complete s.exch.takePos r w0 w1 v) (ho : Own (taken q s) v)
    (hv : body v = body { taken q s with tags := tags }) : Replies c s { s with tags := tags } q.tag r w0 w1 := by
  have htrack : TrackAlone (taken q s) v := TrackAlone.of_body (u := { taken q s with tags := tags }) ⟨rfl, rfl⟩ hv
  have hreply := replies_track e h hal hrs hq hf ho htrack
  rw [tags_of_body hv, occ_of_body hv] at hreply
  change Replies c s { s with occ := (taken q s).occ, tags := tags } q.tag r w0 w1 at hreply
  rw [occ_taken] at hreply
  exact hreply

/-- Settles O28: by the branches of the three handlings. -/
theorem trackTimersAndLabels : Obligations.TrackTimersAndLabels := by
  refine ⟨fun s n hq => ⟨fun r o k hr ho hk => ?_, fun hstop => ?_⟩, fun s t hq => ⟨fun hl hk => ?_, fun hother => ?_⟩,
    fun s tag t label h hq => ⟨fun hbad => ?_, fun ht hl => ⟨fun hfree => ?_, fun hused => ?_⟩⟩⟩
  · exact makes_rest rfl hq (own_discrepancyExpires _ _ (own_refl s)) (discrepancyExpires_running hr ho hk) rfl rfl
  · exact makes_rest rfl hq (own_discrepancyExpires _ _ (own_refl s)) (congrArg body (discrepancyExpires_stopped hstop)) rfl rfl
  · exact makes_rest rfl hq (own_lostHoldExpires _ _ (own_refl s))
      ((congrArg body (lostHoldExpires_lost hl hk)).trans (body_freeLostTag _ _)) rfl rfl
  · exact makes_rest rfl hq (own_lostHoldExpires _ _ (own_refl s)) (congrArg body (lostHoldExpires_other hother)) rfl rfl
  · refine replies_same (q := ⟨14, tag, t, label, 0#32⟩) rfl h rfl (by decide) ?_ hq
    exact (labelTag_taken _ _ _ _ s).trans (if_pos (by simpa using hbad))
  · refine replies_same (q := ⟨14, tag, t, label, 0#32⟩) rfl h rfl (by decide) ?_ hq
    exact (labelTag_taken _ _ _ _ s).trans ((if_neg (by simp; omega)).trans (if_pos hfree))
  · have hne : ({ tagRec s t.toNat with label := label.toNat } : Tag) ≠ Tag.init := fun e => hused (congrArg Tag.state e)
    refine replies_tags (q := ⟨14, tag, t, label, 0#32⟩) rfl h rfl (by decide) hq
      ((labelTag_taken _ _ _ _ s).trans ((if_neg (by simp; omega)).trans (if_neg hused)))
      (own_mirrorTag _ _ (own_same (own_refl _) rfl rfl)) ?_
    rw [body_setTag, put_other _ _ hne]
    have htags : (taken ⟨14, tag, t, label, 0#32⟩ s).tags = s.tags := read_taken (fun u => u.tags) _ s fun _ => rfl
    rw [htags]

end Sys2Proof.TrackRequests
end

