-- ==== Sys2Proof/Proofs/RouteRelease.lean ====
section
/-! Updates inside a handling, and what the release of a route leaves: the entry, the locks and the holder lists (R62 to R65). -/

namespace Sys2Proof.RouteRelease

open Sys2Proof.Machine Sys2Proof.ReportLog Sys2Proof.RequestIntake Sys2Proof.TrackDetection Sys2Proof.TrackRequests

/-! ### Updates that read the body of a state -/

/-- An update that reads and writes no output keeps an equation of bodies. -/
theorem body_update (g : State → State) (hg : ∀ u, body (g u) = body (g (body u))) {s t : State} (h : body s = body t) :
    body (g s) = body (g t) := by rw [hg s, hg t, h]

/-- A reading of no output keeps an equation of bodies. -/
theorem read_of_body {α : Type} (g : State → α) (hg : ∀ u, g u = g (body u)) {s t : State} (h : body s = body t) : g s = g t := by
  rw [hg s, hg t, h]

/-! ### Tables -/

theorem insert_insert {α : Type} (t : Tbl α) (n : Nat) (v w : α) : Tbl.insert (Tbl.insert t n v) n w = Tbl.insert t n w := by
  induction t with
  | nil => simp [Tbl.insert]
  | cons x t ih =>
    obtain ⟨k, u⟩ := x
    by_cases h1 : n < k
    · simp [Tbl.insert, h1]
    · by_cases h2 : n = k
      · simp [Tbl.insert, h2]
      · simp [Tbl.insert, h1, h2, ih]

/-- The entry that a sorted table has, set again. -/
theorem insert_of_find {α : Type} {t : Tbl α} {n : Nat} {v : α} (hs : Tbl.sorted t = true) (h : Tbl.find t n = some v) :
    Tbl.insert t n v = t := by
  induction t with
  | nil => cases h
  | cons x t ih =>
    obtain ⟨k, w⟩ := x
    by_cases e : n = k
    · subst e
      have hw : w = v := by simpa [Tbl.find] using h
      simp [Tbl.insert, hw]
    · have hf : Tbl.find t n = some v := by simpa [Tbl.find, e] using h
      have hlt : ¬ n < k := fun hlt => by rw [Tbl.find_of_lt t k w hs n (by omega)] at hf; cases hf
      simp [Tbl.insert, e, hlt, ih (Tbl.sorted_tail hs) hf]

theorem modify_of_find {α : Type} {t : Tbl α} {n : Nat} {v : α} (f : α → α) (h : Tbl.find t n = some v) :
    Tbl.modify t n f = Tbl.insert t n (f v) := by
  unfold Tbl.modify; rw [h]

theorem sorted_put {α : Type} [DecidableEq α] (d : α) {t : Tbl α} (n : Nat) (v : α) (h : Tbl.sorted t = true) :
    Tbl.sorted (Tbl.put d t n v) = true := by
  unfold Tbl.put
  split
  · exact Tbl.sorted_erase t n h
  · exact Tbl.sorted_insert t n v h

theorem mem_of_find {α : Type} {t : Tbl α} {n : Nat} {v : α} (h : Tbl.find t n = some v) : (n, v) ∈ t := by
  induction t with
  | nil => cases h
  | cons x t ih =>
    obtain ⟨k, w⟩ := x
    by_cases e : n = k
    · have hw : w = v := by simpa [Tbl.find, e] using h
      rw [e, hw]; exact List.mem_cons_self
    · exact List.mem_cons_of_mem _ (ih (by simpa [Tbl.find, e] using h))

/-- The numbers of the entries of a sorted table that meet a condition, each once. -/
theorem nodup_keys {α : Type} {t : Tbl α} (h : Tbl.sorted t = true) (p : Nat × α → Bool) : ((t.filter p).map Prod.fst).Nodup := by
  have hall : (t.map Prod.fst).Nodup := by
    induction t with
    | nil => exact List.nodup_nil
    | cons x t ih =>
      obtain ⟨h1, h2⟩ := (Tbl.sorted_cons_iff x.1 x.2 t).1 h
      refine List.nodup_cons.2 ⟨fun hm => ?_, ih h2⟩
      obtain ⟨y, hy, e⟩ := List.mem_map.1 hm
      exact absurd e (h1 y hy).ne'
  exact hall.sublist ((List.filter_sublist).map _)

/-! ### The frame of the interlocking's own updates -/

/-- A state with the entries, the locks, the holder lists and the points' own states blanked, and the outputs. -/
def sansRoutes (s : State) : State :=
  { body s with
    ilk := { s.ilk with active := [], locks := [], holders := [] }
    pts := { s.pts with state := [] }
    work := Work.none }

/-- Updates of the interlocking's entries, locks and holders, and with them of the points' loss timers: nothing else inside
changes, no point's lie, and no step of a show ends. -/
structure RoutesAlone (s v : State) : Prop where
  rest : sansRoutes v = sansRoutes s
  step : v.work.step = s.work.step
  pass : v.work.pass = s.work.pass
  lies : ∀ p, (Tbl.find v.pts.state p).map PointState.lie = (Tbl.find s.pts.state p).map PointState.lie

theorem RoutesAlone.refl (s : State) : RoutesAlone s s := ⟨rfl, rfl, rfl, fun _ => rfl⟩

theorem RoutesAlone.trans {s u v : State} (h1 : RoutesAlone s u) (h2 : RoutesAlone u v) : RoutesAlone s v :=
  ⟨h2.rest.trans h1.rest, h2.step.trans h1.step, h2.pass.trans h1.pass, fun p => (h2.lies p).trans (h1.lies p)⟩

theorem sansRoutes_of_body {s t : State} (h : body s = body t) : sansRoutes s = sansRoutes t :=
  congrArg (fun u : State => ({ u with
    ilk := { u.ilk with active := [], locks := [], holders := [] }, pts := { u.pts with state := [] }, work := Work.none } : State)) h

theorem RoutesAlone.of_body {s t : State} (h : body t = body s) : RoutesAlone s t where
  rest := sansRoutes_of_body h
  step := congrArg Work.step (work_of_body h)
  pass := congrArg Work.pass (work_of_body h)
  lies := fun p => congrArg (fun x : Option PointState => x.map PointState.lie)
    (read_of_body (fun u => Tbl.find u.pts.state p) (fun _ => rfl) h)

/-- A reading outside the interlocking's own tables. -/
theorem RoutesAlone.read {α : Type} {s v : State} (h : RoutesAlone s v) (g : State → α) (hg : ∀ u, g (sansRoutes u) = g u) :
    g v = g s := by rw [← hg v, ← hg s, h.rest]

theorem RoutesAlone.detLie {s v : State} (h : RoutesAlone s v) (p : Nat) : detLie v p = detLie s p := by
  have heq (u : State) : Machine.detLie u p = ((Tbl.find u.pts.state p).map PointState.lie).getD .lost := by
    unfold Machine.detLie; cases Tbl.find u.pts.state p <;> rfl
  rw [heq, heq, h.lies p]

theorem RoutesAlone.eachDo {l : List Nat} {f : Nat → State → State} (h : ∀ n t, RoutesAlone t (f n t)) (s : State) :
    RoutesAlone s (eachDo l f s) := by
  unfold Machine.eachDo
  induction l generalizing s with
  | nil => exact RoutesAlone.refl s
  | cons n l ih => exact (h n s).trans (ih _)

theorem find_modify {α : Type} (t : Tbl α) (n m : Nat) (f : α → α) :
    Tbl.find (Tbl.modify t n f) m = if m = n then (Tbl.find t n).map f else Tbl.find t m := by
  unfold Tbl.modify
  split
  · next h =>
    split
    · next e => rw [e, h]; rfl
    · rfl
  · next v h =>
    split
    · next e => rw [e, Tbl.find_insert_self, h]; rfl
    · next e => exact Tbl.find_insert_other _ _ _ _ e

theorem routesAlone_touchPoint (p : Nat) (s : State) : RoutesAlone s (touchPoint p s) := by
  have hu : RoutesAlone s (updateLoss p s) := by
    refine ⟨rfl, rfl, rfl, fun q => ?_⟩
    unfold updateLoss
    dsimp only
    rw [find_modify]
    split
    · next e => rw [e]; cases Tbl.find s.pts.state p <;> rfl
    · rfl
  exact hu.trans (.of_body (body_mirrorPoint p _))

/-- Inside, a lock set or given up is the lock table's alone; a release asks for a re-examination. -/
theorem body_setLock (n : Nat) (r : Option Nat) (s : State) : body (setLock n r s) = body { s with
    ilk := { s.ilk with locks := match r with
      | none => Tbl.erase s.ilk.locks n
      | some k => Tbl.insert s.ilk.locks n k }
    work := { s.work with lamps := true, reexam := s.work.reexam || r.isNone } } := by
  unfold setLock
  cases r <;> dsimp only <;> rw [body_mirrorSection] <;> simp [wantReexam]

theorem routesAlone_setLock (n : Nat) (r : Option Nat) (s : State) : RoutesAlone s (setLock n r s) := by
  have h : RoutesAlone s { s with
      ilk := { s.ilk with locks := match r with
        | none => Tbl.erase s.ilk.locks n
        | some k => Tbl.insert s.ilk.locks n k }
      work := { s.work with lamps := true, reexam := s.work.reexam || r.isNone } } := ⟨rfl, rfl, rfl, fun _ => rfl⟩
  exact h.trans (.of_body (body_setLock n r s))

theorem routesAlone_setHolders (p : Nat) (h : Holders) (s : State) : RoutesAlone s (setHolders p h s) := by
  have hset : RoutesAlone s { s with ilk := { s.ilk with holders := Tbl.put Holders.none s.ilk.holders p h } } :=
    ⟨rfl, rfl, rfl, fun _ => rfl⟩
  exact hset.trans (routesAlone_touchPoint p _)

theorem routesAlone_wantReexam (s : State) : RoutesAlone s (wantReexam s) := ⟨rfl, rfl, rfl, fun _ => rfl⟩

theorem routesAlone_wantAspects (s : State) : RoutesAlone s (wantAspects s) := ⟨rfl, rfl, rfl, fun _ => rfl⟩

theorem routesAlone_addHolder (p : Nat) (l : Lie) (r : Nat) (s : State) : RoutesAlone s (addHolder p l r s) :=
  routesAlone_setHolders _ _ _

theorem routesAlone_removeHolder (p r : Nat) (s : State) : RoutesAlone s (removeHolder p r s) := by
  unfold removeHolder
  dsimp only
  split
  · exact (routesAlone_setHolders p _ s).trans (routesAlone_wantReexam _)
  · exact RoutesAlone.refl s

theorem routesAlone_setActive (e : Nat) (a : Active) (s : State) : RoutesAlone s (setActive e a s) := by
  have h : RoutesAlone s (putActive e a s) := ⟨rfl, rfl, rfl, fun _ => rfl⟩
  exact h.trans (.of_body (body_mirrorActive e _))

/-! ### Locks and holder lists -/

theorem ilk_touchPoint (p : Nat) (s : State) : (touchPoint p s).ilk = s.ilk :=
  (read_of_body (fun u => u.ilk) (fun _ => rfl) (body_mirrorPoint p (updateLoss p s))).trans rfl

theorem ilk_setLock_none (n : Nat) (s : State) :
    (setLock n none s).ilk = { s.ilk with locks := Tbl.erase s.ilk.locks n } :=
  read_of_body (fun u => u.ilk) (fun _ => rfl) (body_setLock n none s)

theorem ilk_setLock_some (n k : Nat) (s : State) :
    (setLock n (some k) s).ilk = { s.ilk with locks := Tbl.insert s.ilk.locks n k } :=
  read_of_body (fun u => u.ilk) (fun _ => rfl) (body_setLock n (some k) s)

theorem ilk_setHolders (p : Nat) (h : Holders) (s : State) :
    (setHolders p h s).ilk = { s.ilk with holders := Tbl.put Holders.none s.ilk.holders p h } := by
  unfold setHolders; rw [ilk_touchPoint]

/-- The locks of a list of sections, given up. -/
theorem locks_released (l : List Nat) {s : State} (hs : Tbl.sorted s.ilk.locks = true) :
    (∃ t, (eachDo l (fun n => setLock n none) s).ilk = { s.ilk with locks := t } ∧ Tbl.sorted t = true) ∧
      ∀ n, lockOf (eachDo l (fun n => setLock n none) s) n = if n ∈ l then none else lockOf s n := by
  induction l using List.reverseRecOn with
  | nil => exact ⟨⟨s.ilk.locks, rfl, hs⟩, fun n => by rw [if_neg (by simp)]; rfl⟩
  | append_singleton l m ih =>
    obtain ⟨⟨t, ht, hsorted⟩, hfind⟩ := ih
    have hstep : eachDo (l ++ [m]) (fun n => setLock n none) s = setLock m none (eachDo l (fun n => setLock n none) s) := by
      unfold eachDo; rw [List.foldl_append]; rfl
    rw [hstep]
    refine ⟨⟨Tbl.erase t m, by rw [ilk_setLock_none, ht], Tbl.sorted_erase t m hsorted⟩, fun n => ?_⟩
    unfold lockOf at hfind ⊢
    rw [ilk_setLock_none]
    by_cases e : n = m
    · subst e
      rw [if_pos (by simp), ht]
      exact Tbl.find_erase_self t n hsorted
    · rw [show Tbl.find (Tbl.erase (eachDo l (fun n => setLock n none) s).ilk.locks m) n
          = Tbl.find (eachDo l (fun n => setLock n none) s).ilk.locks n from Tbl.find_erase_other _ _ _ e, hfind n]
      simp [e]

/-- A route leaves one holder list. -/
theorem ilk_removeHolder (p r : Nat) {s : State} (hs : Tbl.sorted s.ilk.holders = true) :
    (∃ t, (removeHolder p r s).ilk = { s.ilk with holders := t } ∧ Tbl.sorted t = true) ∧
      ∀ q, (holdersOf (removeHolder p r s) q).routes
        = if q = p then (holdersOf s q).routes.erase r else (holdersOf s q).routes := by
  unfold removeHolder
  dsimp only
  split
  · next hc =>
    have hilk (h : Holders) : (wantReexam (setHolders p h s)).ilk
        = { s.ilk with holders := Tbl.put Holders.none s.ilk.holders p h } := ilk_setHolders p h s
    refine ⟨⟨_, hilk _, sorted_put _ _ _ hs⟩, fun q => ?_⟩
    unfold holdersOf
    rw [hilk]
    by_cases e : q = p
    · subst e; rw [if_pos rfl, getD_put_self _ _ _ hs]
    · rw [if_neg e, getD_put_other _ _ _ e]
  · next hc =>
    refine ⟨⟨_, rfl, hs⟩, fun q => ?_⟩
    split
    · next e => rw [e, List.erase_of_not_mem (by simpa using hc)]
    · rfl

theorem holders_released (l : List Nat) (r : Nat) (hl : l.Nodup) {s : State} (hs : Tbl.sorted s.ilk.holders = true) :
    (∃ t, (eachDo l (fun p => removeHolder p r) s).ilk = { s.ilk with holders := t } ∧ Tbl.sorted t = true) ∧
      ∀ q, (holdersOf (eachDo l (fun p => removeHolder p r) s) q).routes
        = if q ∈ l then (holdersOf s q).routes.erase r else (holdersOf s q).routes := by
  induction l using List.reverseRecOn with
  | nil => exact ⟨⟨_, rfl, hs⟩, fun q => by rw [if_neg (by simp)]; rfl⟩
  | append_singleton l p ih =>
    have hnot : p ∉ l := fun hm => by
      have := (List.nodup_append.1 hl).2.2 p hm p (by simp); exact this rfl
    obtain ⟨⟨t, ht, hsorted⟩, hfind⟩ := ih (List.nodup_append.1 hl).1
    have hstep : eachDo (l ++ [p]) (fun p => removeHolder p r) s = removeHolder p r (eachDo l (fun p => removeHolder p r) s) := by
      unfold eachDo; rw [List.foldl_append]; rfl
    rw [hstep]
    obtain ⟨⟨t', ht', hsorted'⟩, hfind'⟩ := ilk_removeHolder p r (s := eachDo l (fun p => removeHolder p r) s)
      (by rw [ht]; exact hsorted)
    refine ⟨⟨t', by rw [ht', ht], hsorted'⟩, fun q => ?_⟩
    rw [hfind' q, hfind q]
    by_cases e : q = p
    · subst e; simp [hnot]
    · simp [e]

/-! ### A route released whole (R65) -/

/-- The sections that a route locks, and the points that it holds. -/
def lockedBy (r : Nat) (s : State) : List Nat := (s.ilk.locks.filter fun x => x.2 == r).map Prod.fst

def heldBy (r : Nat) (s : State) : List Nat := (s.ilk.holders.filter fun x => x.2.routes.contains r).map Prod.fst

theorem mem_lockedBy {s : State} (hs : Tbl.sorted s.ilk.locks = true) (r n : Nat) : n ∈ lockedBy r s ↔ lockOf s n = some r := by
  unfold lockedBy lockOf
  constructor
  · intro h
    obtain ⟨x, hx, rfl⟩ := List.mem_map.1 h
    obtain ⟨hxt, hxr⟩ := List.mem_filter.1 hx
    rw [find_of_mem hs hxt]
    exact congrArg some (by simpa using hxr)
  · intro h
    exact List.mem_map.2 ⟨(n, r), List.mem_filter.2 ⟨mem_of_find h, by simp⟩, rfl⟩

theorem mem_heldBy {s : State} (hs : Tbl.sorted s.ilk.holders = true) (r p : Nat) :
    p ∈ heldBy r s ↔ r ∈ (holdersOf s p).routes := by
  unfold heldBy holdersOf Tbl.getD
  constructor
  · intro h
    obtain ⟨x, hx, rfl⟩ := List.mem_map.1 h
    obtain ⟨hxt, hxr⟩ := List.mem_filter.1 hx
    rw [find_of_mem hs hxt]
    exact by simpa using hxr
  · intro h
    cases hf : Tbl.find s.ilk.holders p with
    | none => rw [hf] at h; cases h
    | some x =>
      rw [hf] at h
      exact List.mem_map.2 ⟨(p, x), List.mem_filter.2 ⟨mem_of_find hf, by simpa using h⟩, rfl⟩

/-- The locks and the holdings of a route given up, and its entry freed. -/
def freed (e r : Nat) (s : State) : State :=
  let u := eachDo (heldBy r s) (fun p => removeHolder p r) (eachDo (lockedBy r s) (fun n => setLock n none) s)
  { u with ilk := { u.ilk with active := Tbl.erase u.ilk.active e } }

/-- The rest of a release: the reports and the mirror words, and the work that it asks for. -/
theorem body_releaseWhole {e : Nat} {a : Active} {s : State} (why : Ending) (h : Tbl.find s.ilk.active e = some a)
    (hshow : a.show_ = none) :
    body (releaseWhole e why s) = body (wantAspects (wantReexam (freed e a.route s))) := by
  unfold releaseWhole
  rw [h]
  dsimp only
  have htell (u : State) : tellShow a showRouteReleased u = u := by unfold tellShow; rw [hshow]
  rw [htell]
  refine body_update (fun u => wantAspects (wantReexam u)) (fun _ => rfl) ?_
  split
  · rw [body_mirrorSignal, body_report, body_mirrorActive]; rfl
  · rw [body_report, body_mirrorActive]; rfl

/-- What a release whole needs of the tables: they are in rising order, and e is the entry of a route that no show asked for. -/
structure Releasable (e : Nat) (a : Active) (s : State) : Prop where
  active : Tbl.sorted s.ilk.active = true
  locks : Tbl.sorted s.ilk.locks = true
  holders : Tbl.sorted s.ilk.holders = true
  entry : Tbl.find s.ilk.active e = some a
  noShow : a.show_ = none

theorem Releasable.of_entryOf {e : Nat} {a : Active} {s : State} (h : EntryOf e a s) : Releasable e a s :=
  ⟨h.active, h.locks, h.holders, h.entry, h.noShow⟩

/-- An entry changed in its place. -/
theorem Releasable.put {e : Nat} {a b : Active} {s t : State} (h : Releasable e a s) (hb : b.show_ = none)
    (ha : t.ilk.active = Tbl.insert s.ilk.active e b) (hl : t.ilk.locks = s.ilk.locks) (hh : t.ilk.holders = s.ilk.holders) :
    Releasable e b t :=
  ⟨by rw [ha]; exact Tbl.sorted_insert _ _ _ h.active, by rw [hl]; exact h.locks, by rw [hh]; exact h.holders,
    by rw [ha]; exact Tbl.find_insert_self _ _ _, hb⟩

/-- What is released whole does not depend on the entry's own fields. -/
theorem releasedWhole_put {e r : Nat} {b : Active} {s t v : State} (h : ReleasedWhole e r t v)
    (ha : t.ilk.active = Tbl.insert s.ilk.active e b) (hl : t.ilk.locks = s.ilk.locks) (hh : t.ilk.holders = s.ilk.holders) :
    ReleasedWhole e r s v := by
  refine ⟨h.entry, fun k hk => ?_, fun n => ?_, fun p => ?_⟩
  · rw [h.others k hk, ha]; exact Tbl.find_insert_other _ _ _ _ hk
  · rw [h.locks n]; unfold lockOf; rw [hl]
  · rw [h.holders p]; unfold holdersOf; rw [hh]

theorem routesAlone_freed (e r : Nat) (s : State) : RoutesAlone s (freed e r s) := by
  have hlocks : RoutesAlone s (eachDo (lockedBy r s) (fun n => setLock n none) s) :=
    .eachDo (fun n t => routesAlone_setLock n none t) s
  have hholders := hlocks.trans (.eachDo (l := heldBy r s) (fun p t => routesAlone_removeHolder p r t) _)
  have herase (u : State) : RoutesAlone u { u with ilk := { u.ilk with active := Tbl.erase u.ilk.active e } } :=
    ⟨rfl, rfl, rfl, fun _ => rfl⟩
  exact hholders.trans (herase _)

theorem releasedWhole_freed {e : Nat} {a : Active} {s : State} (h : Releasable e a s) : ReleasedWhole e a.route s (freed e a.route s) := by
  obtain ⟨⟨t, ht, hsorted⟩, hlock⟩ := locks_released (lockedBy a.route s) h.locks
  obtain ⟨⟨t', ht', -⟩, hhold⟩ := holders_released (heldBy a.route s) a.route (nodup_keys h.holders _)
    (s := eachDo (lockedBy a.route s) (fun n => setLock n none) s) (by rw [ht]; exact h.holders)
  rw [ht] at ht'
  have hactive : (freed e a.route s).ilk.active = Tbl.erase s.ilk.active e := by
    unfold freed; dsimp only; rw [ht']
  refine ⟨?_, fun k hk => ?_, fun n => ?_, fun p => ?_⟩
  · rw [hactive]; exact Tbl.find_erase_self _ _ h.active
  · rw [hactive]; exact Tbl.find_erase_other _ _ _ hk
  · have hlocks : lockOf (freed e a.route s) n = lockOf (eachDo (lockedBy a.route s) (fun n => setLock n none) s) n := by
      unfold freed lockOf; dsimp only; rw [ht', ht]
    rw [hlocks, hlock n]
    simp only [mem_lockedBy h.locks]
  · have hbefore : holdersOf (eachDo (lockedBy a.route s) (fun n => setLock n none) s) p = holdersOf s p := by
      unfold holdersOf; rw [ht]
    have hholders := hhold p
    rw [hbefore] at hholders
    change (holdersOf (eachDo (heldBy a.route s) (fun p => removeHolder p a.route) _) p).routes = _
    rw [hholders]
    by_cases hm : p ∈ heldBy a.route s
    · rw [if_pos hm]
    · rw [if_neg hm, List.erase_of_not_mem fun hc => hm ((mem_heldBy h.holders _ _).2 hc)]

theorem releasedWhole_of_ilk {e r : Nat} {s t t' : State} (h : ReleasedWhole e r s t) (ht : t'.ilk.active = t.ilk.active)
    (hl : t'.ilk.locks = t.ilk.locks) (hh : t'.ilk.holders = t.ilk.holders) : ReleasedWhole e r s t' := by
  refine ⟨by rw [ht]; exact h.entry, fun k hk => by rw [ht]; exact h.others k hk, fun n => ?_, fun p => ?_⟩
  · unfold lockOf at *; rw [hl]; exact h.locks n
  · unfold holdersOf at *; rw [hh]; exact h.holders p

/-- What a release whole does of a route that no show asked for. -/
theorem releaseWhole_released {e : Nat} {a : Active} {s : State} (why : Ending) (h : Releasable e a s) :
    RoutesAlone s (releaseWhole e why s) ∧ ReleasedWhole e a.route s (releaseWhole e why s) := by
  have hb := body_releaseWhole why h.entry h.noShow
  have hilk : (releaseWhole e why s).ilk = (freed e a.route s).ilk := 
    (read_of_body (fun u => u.ilk) (fun _ => rfl) hb).trans rfl
  refine ⟨?_, releasedWhole_of_ilk (releasedWhole_freed h) (by rw [hilk]) (by rw [hilk]) (by rw [hilk])⟩
  exact (routesAlone_freed e a.route s).trans ((routesAlone_wantReexam _).trans (routesAlone_wantAspects _)) |>.trans (.of_body hb)

/-! ### A slot answered inside a handling (R189) -/

theorem body_completed {n : Nat} {tag : HostTag} {s : State} (r : Result) (w0 w1 : Nat) (hn : n < Config.numSlots)
    (hs : Tbl.find s.exch.inHand n = some tag) :
    body (complete n r w0 w1 s) = body { s with exch := { s.exch with inHand := Tbl.erase s.exch.inHand n } } := by
  obtain ⟨u, hu, -, heq⟩ := complete_of_mark r w0 w1 hn hs
  rw [heq, body_evalLine, eq_withMem hu]
  rfl

theorem slotDone_completed {n : Nat} {tag : HostTag} {s : State} (r : Result) (w0 w1 : Nat) (hn : n < Config.numSlots)
    (hm : s.memOk) (hs : Tbl.find s.exch.inHand n = some tag) (hsorted : Tbl.sorted s.exch.inHand = true) :
    SlotDone n tag r w0 w1 (complete n r w0 w1 s) :=
  slotDone_complete n tag r w0 w1 s hn hm hs (Tbl.find_erase_self _ _ hsorted)

theorem answerSlot_eq {s : State} {e n : Nat} {a : Active} (res : Result) (w0 w1 : Nat) (ha : Tbl.find s.ilk.active e = some a)
    (hslot : a.slot = some n) : answerSlot e res w0 w1 s = complete n res w0 w1 (setActive e { a with slot := none } s) := by
  unfold answerSlot; rw [ha]; dsimp only; rw [hslot]

theorem tellShow_none {a : Active} (f : Nat → Nat → State → State) (s : State) (h : a.show_ = none) : tellShow a f s = s := by
  unfold tellShow; rw [h]

/-- A withdrawal that finds no queued order of the route. -/
theorem withdraw_none {s : State} {e : Nat} {a : Active} (hq : ∀ o ∈ s.pts.queue, isQueuedOf e o = false) (ho : s.pts.overflow = [])
    (hsorted : Tbl.sorted s.ilk.active = true) (ha : Tbl.find s.ilk.active e = some a) : withdraw e s = s := by
  have hgone : queuedPoints s e = [] := by
    unfold queuedPoints
    rw [ho, List.append_nil, List.filter_eq_nil_iff.2 fun o h => by rw [hq o h]; decide]
    rfl
  have hfill (u : State) (h : u.pts.overflow = []) : fillQueue u = u := by unfold fillQueue; rw [h]; simp
  have hsame : Tbl.modify s.ilk.active e (fun a => { a with orders := a.orders.filter fun p => !([] : List Nat).contains p })
      = s.ilk.active := by
    rw [modify_of_find _ ha]
    refine (congrArg (Tbl.insert s.ilk.active e) ?_).trans (insert_of_find hsorted ha)
    cases a; simp
  unfold withdraw
  dsimp only
  rw [hgone]
  have horders : setOrders (s.pts.queue.filter fun o => !isQueuedOf e o) (s.pts.overflow.filter fun o => !isQueuedOf e o)
      { s with work := { s.work with pass := s.work.pass || ([] : List Nat).any (isSlow s) } } = s := by
    have h1 : (s.pts.queue.filter fun o => !isQueuedOf e o) = s.pts.queue :=
      List.filter_eq_self.2 fun o h => by rw [hq o h]; rfl
    have h2 : (s.pts.overflow.filter fun o => !isQueuedOf e o) = s.pts.overflow := by rw [ho]; rfl
    unfold setOrders
    rw [h1, h2, List.any_nil, Bool.or_false]
  rw [horders, hfill s ho]
  change ({ s with ilk := { s.ilk with active := Tbl.modify s.ilk.active e fun a =>
    { a with orders := a.orders.filter fun p => !([] : List Nat).contains p } } } : State) = s
  rw [hsame]

/-- A withdrawal with no order in hand. -/
theorem withdraw_empty {s : State} {e : Nat} {a : Active} (hq : s.pts.queue = []) (ho : s.pts.overflow = [])
    (hsorted : Tbl.sorted s.ilk.active = true) (ha : Tbl.find s.ilk.active e = some a) : withdraw e s = s :=
  withdraw_none (by rw [hq]; intro o h; cases h) ho hsorted ha

end Sys2Proof.RouteRelease
end

