-- ==== Sys2Proof/Proofs/PointLies.lean ====
section
/-! A point's detected lie and its loss timer: contact samples, RESTORE_POINT, and the loss and recharge timers (O36, O38, O39). -/

namespace Sys2Proof.PointLies

open Sys2Proof.Machine Sys2Proof.ReportLog Sys2Proof.QuietHeader Sys2Proof.TrackDetection Sys2Proof.TrackRequests Sys2Proof.RouteRelease

/-! ### One point's state -/

/-- The state of one point set. -/
def withPoint (p : Nat) (st : PointState) (s : State) : State :=
  { s with pts := { s.pts with state := Tbl.insert s.pts.state p st } }

theorem find_withPoint (p : Nat) (st : PointState) (s : State) : Tbl.find (withPoint p st s).pts.state p = some st :=
  Tbl.find_insert_self _ _ _

theorem withPoint_withPoint (p : Nat) (st st' : PointState) (s : State) : withPoint p st' (withPoint p st s) = withPoint p st' s := by
  unfold withPoint; dsimp only; rw [insert_insert]

theorem detLie_of_find {s : State} {p : Nat} {st : PointState} (h : Tbl.find s.pts.state p = some st) : detLie s p = st.lie := by
  unfold detLie; rw [h]

theorem updateLoss_eq {s : State} {p : Nat} {st : PointState} (h : Tbl.find s.pts.state p = some st) : updateLoss p s
    = withPoint p { st with loss := if lossHolds s p then some (st.loss.getD s.pts.window) else none } s := by
  unfold updateLoss; dsimp only; rw [modify_of_find _ h]; rfl

theorem setPoint_eq {s : State} {p : Nat} {st : PointState} (f : PointState → PointState) (h : Tbl.find s.pts.state p = some st) :
    setPoint p f s = { withPoint p (f st) s with work := { s.work with lamps := true } } := by
  unfold setPoint; rw [modify_of_find _ h]; rfl

theorem body_touchPoint {s : State} {p : Nat} {st : PointState} (h : Tbl.find s.pts.state p = some st) : body (touchPoint p s)
    = body (withPoint p { st with loss := if lossHolds s p then some (st.loss.getD s.pts.window) else none } s) := by
  unfold touchPoint; rw [body_mirrorPoint, updateLoss_eq h]

/-! ### A point that no route holds -/

theorem lossHolds_unheld {s : State} {p : Nat} (h : (holdersOf s p).routes = []) : lossHolds s p = false := by
  unfold lossHolds; rw [h]; simp

theorem entriesHolding_unheld {s : State} {p : Nat} (h : (holdersOf s p).routes = []) : entriesHolding s p = [] := by
  unfold entriesHolding; rw [h]; simp

theorem pointTested_unheld {s : State} {p : Nat} (h : (holdersOf s p).routes = []) : pointTested p s = s := by
  unfold pointTested; rw [entriesHolding_unheld h]; rfl

theorem pointLost_unheld {s : State} {p : Nat} (h : (holdersOf s p).routes = []) : pointLost p s = s := by
  unfold pointLost; rw [entriesHolding_unheld h]; rfl

theorem body_touchPoint_unheld {s : State} {p : Nat} {st : PointState} (h : Tbl.find s.pts.state p = some st)
    (hh : (holdersOf s p).routes = []) : body (touchPoint p s) = body (withPoint p { st with loss := none } s) := by
  rw [body_touchPoint h, lossHolds_unheld hh]; rfl

theorem holders_of_body {s t : State} (h : body s = body t) (p : Nat) : holdersOf s p = holdersOf t p :=
  read_of_body (fun u => holdersOf u p) (fun _ => rfl) h

/-- The work that a handling asks for, its step and its pass as they were. -/
structure SameTurn (w w' : Work) : Prop where
  step : w'.step = w.step
  pass : w'.pass = w.pass

/-- A change of the lie of a point that no route holds: the point's loss timer is off, and no route acts on it. -/
theorem body_lieChanged_unheld {s : State} {p : Nat} {st : PointState} (new : DetLie) (h : Tbl.find s.pts.state p = some st)
    (hh : (holdersOf s p).routes = []) : ∃ w, SameTurn s.work w ∧
      body (lieChanged p new s) = body { withPoint p { st with loss := none } s with work := w } := by
  have htouch := body_touchPoint_unheld h hh
  have hh' : (holdersOf (touchPoint p s) p).routes = [] := by
    rw [holders_of_body htouch]; exact hh
  have hbody (b1 b2 b3 : Bool) : body (if b3 then touchPoint p s
      else if b1 then pointLost p (reportLost p new (touchPoint p s))
      else if b2 then reportMoved p new 3 (touchPoint p s) else touchPoint p s) = body (touchPoint p s) := by
    have hlost : (holdersOf (reportLost p new (touchPoint p s)) p).routes = [] := by
      unfold reportLost; rw [holders_of_body (body_report _ _ _ _ _)]; exact hh'
    split_ifs
    · rfl
    · rw [pointLost_unheld hlost]; exact body_report _ _ _ _ _
    · exact body_report _ _ _ _ _
    · rfl
  unfold lieChanged
  dsimp only
  generalize hu : (if pointInFlight (touchPoint p s) p = true then touchPoint p s
      else if (new == DetLie.lost || wrongLie (holdersOf (touchPoint p s) p) new) = true then
        pointLost p (reportLost p new (touchPoint p s))
      else if (new == DetLie.normal || new == DetLie.reverse) = true then reportMoved p new 3 (touchPoint p s)
      else touchPoint p s) = u
  have hub : body u = body (withPoint p { st with loss := none } s) := by rw [← hu, hbody, htouch]
  have hhu : (holdersOf u p).routes = [] := by rw [holders_of_body hub]; exact hh
  split
  · refine ⟨{ s.work with reexam := true }, ⟨rfl, rfl⟩, ?_⟩
    rw [pointTested_unheld (s := wantReexam u) hhu]
    exact body_update wantReexam (fun _ => rfl) hub
  · refine ⟨s.work, ⟨rfl, rfl⟩, ?_⟩
    rw [pointTested_unheld hhu]
    exact hub

/-- A lie derived afresh in RUNNING, of a point that no route holds. -/
theorem body_rederive_unheld {s : State} {p : Nat} {r : PointRec} {st : PointState} (hrun : s.exch.runState = .running)
    (hr : Tbl.find s.pts.recs p = some r) (h : Tbl.find s.pts.state p = some st) (hh : (holdersOf s p).routes = []) :
    ∃ w, SameTurn s.work w ∧
      body (rederive p s) = body { withPoint p { st with lie := derivedLie s p r st, loss := none } s with work := w } := by
  unfold rederive
  rw [hr, h]
  dsimp only
  split
  · next e =>
    refine ⟨s.work, ⟨rfl, rfl⟩, ?_⟩
    rw [body_touchPoint_unheld h hh, e]
    rfl
  · have hset := setPoint_eq (fun st' => { st' with lie := derivedLie s p r st }) h
    rw [hset, if_pos (by unfold State.running; simp [withPoint, hrun])]
    obtain ⟨w, hw, hb⟩ := body_lieChanged_unheld (p := p)
      (s := { withPoint p { st with lie := derivedLie s p r st } s with work := { s.work with lamps := true } })
      (derivedLie s p r st) (find_withPoint p _ s) hh
    refine ⟨w, ⟨hw.step, hw.pass⟩, hb.trans ?_⟩
    have g := congrArg (fun u : State => body { u with work := w }) (withPoint_withPoint p
      { st with lie := derivedLie s p r st } { st with lie := derivedLie s p r st, loss := none } s)
    exact g

/-! ### What follows a handling that asked for work -/

theorem inside_of_body_work {u v : State} {w : Work} (hb : body v = body { u with work := w }) : inside v = inside u :=
  (inside_of_body hb).trans rfl

/-- The end of a handling in a machine where nothing waits: it has work to do, but none that changes anything inside. -/
theorem makes_of_body {c : Instr} {s u v : State} {w : Work} (he : exec c s = .next (finish s v)) (ho : Own s v)
    (hb : body v = body { u with work := w }) (hw : w.step = none) (shows : u.vis.queue = []) (orders : u.pts.queue = [])
    (stack : u.ilk.stack = []) : Makes c s u := by
  have hwork : v.work = w := work_of_body hb
  refine makes_finish he (quietEnd_of_empty v (by rw [hwork, hw]) ?_ ?_ ?_) (inside_of_body_work hb) ho
  · exact (read_of_body (fun x => x.vis.queue) (fun _ => rfl) hb).trans shows
  · exact (read_of_body (fun x => x.pts.queue) (fun _ => rfl) hb).trans orders
  · exact (read_of_body (fun x => x.ilk.stack) (fun _ => rfl) hb).trans stack

/-! ### POINT_CONTACT_SAMPLE (R90) -/

/-- The contact of an input, sampled. -/
def withContact (i : Nat) (d : Contact) (s : State) : State :=
  { s with pts := { s.pts with contacts := Tbl.put Contact.init s.pts.contacts i d } }

theorem contactSample_kept {i : Nat} {x : Bool} {s : State}
    (h : x = (Tbl.getD s.pts.contacts i Contact.init).level ∨ x ≠ (Tbl.getD s.pts.contacts i Contact.init).prev) :
    contactSample i x s = withContact i { prev := x, level := (Tbl.getD s.pts.contacts i Contact.init).level } s := by
  have hlevel : ((Tbl.getD s.pts.contacts i Contact.init).sample x).level = (Tbl.getD s.pts.contacts i Contact.init).level := by
    unfold Contact.sample
    dsimp only
    split
    · next hp => exact h.resolve_right fun hne => hne hp
    · rfl
  have hsample : (Tbl.getD s.pts.contacts i Contact.init).sample x
      = { prev := x, level := (Tbl.getD s.pts.contacts i Contact.init).level } := by rw [← hlevel]; rfl
  unfold contactSample
  dsimp only
  rw [if_pos hlevel, hsample]
  rfl

theorem contactSample_changed {i p : Nat} {x : Bool} {s : State} (hp : pointsOfContact s i = [p])
    (hprev : x = (Tbl.getD s.pts.contacts i Contact.init).prev) (hlevel : x ≠ (Tbl.getD s.pts.contacts i Contact.init).level) :
    contactSample i x s = contactChanged p (withContact i { prev := x, level := x } s) := by
  have hsample : (Tbl.getD s.pts.contacts i Contact.init).sample x = { prev := x, level := x } := by
    unfold Contact.sample; rw [if_pos hprev]
  have hpoints : pointsOfContact (withContact i { prev := x, level := x } s) i = [p] := hp
  unfold contactSample
  dsimp only
  rw [hsample]
  refine (if_neg hlevel).trans ?_
  change eachDo (pointsOfContact (withContact i { prev := x, level := x } s) i) contactChanged _ = _
  rw [hpoints]
  rfl

theorem orderOf_none {s : State} (hq : s.pts.queue = []) (ho : s.pts.overflow = []) (p : Nat) : orderOf s p = none := by
  unfold Machine.orderOf; rw [hq, ho]; rfl

theorem contactChanged_resting {p : Nat} {s : State} (h : orderOf s p = none) : contactChanged p s = rederive p s := by
  have : awaitsContacts s p = false := by unfold awaitsContacts; rw [h]
  unfold contactChanged; rw [this]; rfl

/-- The table of R90, for a PAIR point that is not FAILED and has no order. -/
theorem derivedLie_resting {s : State} {p : Nat} {r : PointRec} {st : PointState} {a b : Nat} (hf : r.feedback = .pair a b)
    (hst : st.failed = none) (ho : orderOf s p = none) :
    derivedLie s p r st = lieOfContacts (contactLevel s a) (contactLevel s b) := by
  have hphase : orderPhase s p = none := by unfold orderPhase; rw [ho]; rfl
  have hflight : pointInFlight s p = false := by unfold pointInFlight; rw [ho]
  have hcontacts : pointContacts s r = (contactLevel s a, contactLevel s b) := by unfold pointContacts; rw [hf]
  unfold derivedLie
  rw [hst, hf, hphase, hflight, hcontacts]
  generalize contactLevel s a = x
  generalize contactLevel s b = y
  cases x <;> cases y <;> simp [contactLie, lieOfContacts, Lie.det]

theorem contactSample_level (i : Nat) (x : Bool) (s : State) (hs : Tbl.sorted s.pts.contacts = true) :
    Tbl.getD (finish s (contactSample i x s)).pts.contacts i Contact.init
        = (Tbl.getD s.pts.contacts i Contact.init).sample x ∧
      ∀ j, j ≠ i → Tbl.getD (finish s (contactSample i x s)).pts.contacts j Contact.init
        = Tbl.getD s.pts.contacts j Contact.init := by
  have hkept : kept (finish s (contactSample i x s))
      = kept (withContact i ((Tbl.getD s.pts.contacts i Contact.init).sample x) s) := by
    rw [kept_finish]
    unfold contactSample
    dsimp only
    split
    · rfl
    · exact (kept_eachDo _ _ _ fun n t => by simp).trans rfl
  have hcontacts : (finish s (contactSample i x s)).pts.contacts
      = Tbl.put Contact.init s.pts.contacts i ((Tbl.getD s.pts.contacts i Contact.init).sample x) := congrArg Kept.contacts hkept
  rw [hcontacts]
  exact ⟨getD_put_self _ _ _ hs, fun j hj => getD_put_other _ _ _ hj⟩

/-! ### A route and a change of the lie of a point that it holds (R67, R70, R71) -/

theorem entriesHolding_one {s : State} {p e : Nat} {v : Active} (ha : s.ilk.active = [(e, v)])
    (hh : (holdersOf s p).routes = [v.route]) : entriesHolding s p = [e] := by
  unfold entriesHolding; rw [ha, hh]; simp

theorem testProved_unproved {s : State} {e : Nat} {a : Active} {r : RouteRec} {x : Nat × Lie}
    (ha : Tbl.find s.ilk.active e = some a) (hr : Tbl.find s.ilk.routes a.route = some r) (hx : x ∈ routePoints r)
    (hl : detLie s x.1 ≠ x.2.det) : testProved e s = s := by
  have hproved : proved s r = false := by
    unfold proved
    rw [Bool.and_eq_false_iff]
    exact .inl (List.all_eq_false.2 ⟨x, hx, by simpa using hl⟩)
  unfold testProved
  rw [ha]
  dsimp only
  rw [hr]
  dsimp only
  rw [hproved]
  simp

theorem testProved_proved {s : State} {e : Nat} {a : Active} {r : RouteRec} (ha : Tbl.find s.ilk.active e = some a)
    (hr : Tbl.find s.ilk.routes a.route = some r) (hst : a.state = .setting ∨ a.state = .held) (hc : s.asp.cond = .running)
    (hp : proved s r = true) : testProved e s = becomeSet e a.state s := by
  unfold testProved
  rw [ha]
  dsimp only
  rw [hr]
  dsimp only
  rw [hp]
  exact if_pos (by obtain h | h := hst <;> simp [h, hc])

/-- Inside, a SET route that becomes HELD changes its entry alone. -/
theorem body_holdRoute {s : State} {e : Nat} {a : Active} (why : HeldCause) (item : Nat) (ha : Tbl.find s.ilk.active e = some a)
    (hst : a.state = .set) :
    body (holdRoute e why item s) = body (wantAspects (putActive e { a with state := .held } s)) := by
  unfold holdRoute
  rw [ha]
  dsimp only
  rw [if_pos hst]
  refine body_update wantAspects (fun _ => rfl) ?_
  rw [body_report]
  exact body_mirrorActive _ _

theorem immediateEntry_clear {s : State} {e : Nat} {a : Active} {r : RouteRec} (ha : Tbl.find s.ilk.active e = some a)
    (hr : Tbl.find s.ilk.routes a.route = some r) (hc : ∀ f, (elementSections r).head? = some f → secState s f = .clear) :
    immediateEntry e s = s := by
  unfold immediateEntry
  rw [ha]
  dsimp only
  rw [hr]
  dsimp only
  cases hf : (elementSections r).head? with
  | none => rfl
  | some f => exact if_pos (by unfold secClear; rw [hc f hf]; rfl)

/-- Inside, a proved route with neither slot nor show to answer, and its first element CLEAR, becomes SET in its entry alone. -/
theorem body_becomeSet {s : State} {e : Nat} {a : Active} {r : RouteRec} (left : RouteState)
    (ha : Tbl.find s.ilk.active e = some a) (hr : Tbl.find s.ilk.routes a.route = some r) (hslot : a.slot = none)
    (hshow : a.show_ = none) (hc : ∀ f, (elementSections r).head? = some f → secState s f = .clear) :
    body (becomeSet e left s) = body (wantAspects (putActive e { a with state := .set } s)) := by
  unfold becomeSet
  rw [ha]
  dsimp only
  generalize hu : report .routeSet a.route (halves e left.code) (halves a.originator.code a.originator.panel)
    (setActive e { a with state := .set } s) = u
  have hub : body u = body (putActive e { a with state := .set } s) := by
    rw [← hu, body_report]; exact body_mirrorActive _ _
  have hua : Tbl.find u.ilk.active e = some { a with state := .set } :=
    (read_of_body (fun x => Tbl.find x.ilk.active e) (fun _ => rfl) hub).trans (Tbl.find_insert_self _ _ _)
  have hanswer : answerSlot e .ok e 0 u = u := by unfold answerSlot; rw [hua]; dsimp only; rw [hslot]
  have htell : tellShow a showRouteSet u = u := by unfold tellShow; rw [hshow]
  have hent : immediateEntry e (wantAspects u) = wantAspects u := by
    refine immediateEntry_clear (s := wantAspects u) (r := r) hua ?_ fun f hf => ?_
    · exact (read_of_body (fun x => Tbl.find x.ilk.routes a.route) (fun _ => rfl) hub).trans hr
    · exact (read_of_body (fun x => secState x f) (fun _ => rfl) hub).trans (hc f hf)
  rw [hanswer, htell, hent]
  exact body_update wantAspects (fun _ => rfl) hub

theorem proved_of {s : State} {r : RouteRec} (hp : ∀ x ∈ routePoints r, detLie s x.1 = x.2.det)
    (hs : ∀ n ∈ sequence r, secState s n = .clear) : proved s r = true := by
  have hclass (n : Nat) : classAllows r n .clear = true := by
    unfold classAllows; cases r.cls <;> simp
  unfold proved
  rw [Bool.and_eq_true, List.all_eq_true, List.all_eq_true]
  exact ⟨fun x hx => by rw [hp x hx]; simp, fun n hn => by rw [hs n hn]; exact hclass n⟩

theorem insert_singleton {α : Type} (e : Nat) (v w : α) : Tbl.insert [(e, v)] e w = [(e, w)] := by simp [Tbl.insert]

/-- In RUNNING a changed lie of a resting point that one route holds: the lie, the loss timer, and what the route does. -/
theorem rederive_held {s : State} {p : Nat} {r : PointRec} {st : PointState} {v : Active} {l : Lie}
    (hrun : s.exch.runState = .running) (hr : Tbl.find s.pts.recs p = some r) (hst : Tbl.find s.pts.state p = some st)
    (ho : orderOf s p = none) (hf : r.feedback ≠ .none)
    (hh : holdersOf s p = { routes := [v.route], shared := some l }) (hloss : st.loss = none)
    (hnew : derivedLie s p r st ≠ st.lie) : ∃ u, body u = body { withPoint p { st with
        lie := derivedLie s p r st,
        loss := if wrongLie (holdersOf s p) (derivedLie s p r st) then some s.pts.window else none } s with
          work := { s.work with lamps := true } } ∧
      rederive p s = lieChanged p (derivedLie s p r st) (setPoint p (fun st' => { st' with lie := derivedLie s p r st }) s) ∧
      touchPoint p (setPoint p (fun st' => { st' with lie := derivedLie s p r st }) s) = u := by
  have hset := setPoint_eq (fun st' => { st' with lie := derivedLie s p r st }) hst
  refine ⟨_, ?_, ?_, rfl⟩
  · rw [hset]
    have hfind : Tbl.find ({ withPoint p { st with lie := derivedLie s p r st } s with
        work := { s.work with lamps := true } } : State).pts.state p = some { st with lie := derivedLie s p r st } :=
      find_withPoint p _ s
    have hholds : lossHolds { withPoint p { st with lie := derivedLie s p r st } s with
        work := { s.work with lamps := true } } p = wrongLie (holdersOf s p) (derivedLie s p r st) := by
      have hcontacts : hasContacts s p = true := by unfold hasContacts; rw [hr]; simpa using hf
      change (hasContacts s p && !(holdersOf s p).routes.isEmpty && (orderOf s p).isNone
        && wrongLie (holdersOf s p) (detLie (withPoint p { st with lie := derivedLie s p r st } s) p)) = _
      rw [hcontacts, ho, hh, detLie_of_find (find_withPoint p _ s)]
      simp
    rw [body_touchPoint hfind, hholds]
    have hlossw : st.loss.getD s.pts.window = s.pts.window := by rw [hloss]; rfl
    have g := congrArg (fun u : State => body { u with work := { s.work with lamps := true } })
      (withPoint_withPoint p { st with lie := derivedLie s p r st } { st with
        lie := derivedLie s p r st,
        loss := if wrongLie (holdersOf s p) (derivedLie s p r st) then some (st.loss.getD s.pts.window) else none } s)
    rw [hlossw] at g
    change body { withPoint p { st with
        lie := derivedLie s p r st,
        loss := if wrongLie (holdersOf s p) (derivedLie s p r st) then some (st.loss.getD s.pts.window) else none }
      (withPoint p { st with lie := derivedLie s p r st } s) with work := { s.work with lamps := true } } = _
    rw [hlossw]
    exact g
  · unfold rederive
    rw [hr, hst]
    dsimp only
    rw [if_neg hnew, hset]
    exact if_pos (by unfold State.running; simp [withPoint, hrun])

/-- A state in which a resting point shows a lie, and one route holds it. -/
structure HeldPoint (s : State) (p e : Nat) (v : Active) (r : RouteRec) (l : Lie) (new : DetLie) : Prop where
  orders : orderOf s p = none
  lie : detLie s p = new
  entry : s.ilk.active = [(e, v)]
  route : Tbl.find s.ilk.routes v.route = some r
  holders : holdersOf s p = { routes := [v.route], shared := some l }
  lists : (p, l) ∈ routePoints r

theorem HeldPoint.of_body {s t : State} {p e : Nat} {v : Active} {r : RouteRec} {l : Lie} {new : DetLie}
    (h : HeldPoint s p e v r l new) (hb : body t = body s) : HeldPoint t p e v r l new where
  orders := (read_of_body (fun x => Machine.orderOf x p) (fun _ => rfl) hb).trans h.orders
  lie := (read_of_body (fun x => detLie x p) (fun _ => rfl) hb).trans h.lie
  entry := (read_of_body (fun x => x.ilk.active) (fun _ => rfl) hb).trans h.entry
  route := (read_of_body (fun x => Tbl.find x.ilk.routes v.route) (fun _ => rfl) hb).trans h.route
  holders := (read_of_body (fun x => holdersOf x p) (fun _ => rfl) hb).trans h.holders
  lists := h.lists

theorem HeldPoint.find {s : State} {p e : Nat} {v : Active} {r : RouteRec} {l : Lie} {new : DetLie}
    (h : HeldPoint s p e v r l new) : Tbl.find s.ilk.active e = some v := by
  rw [h.entry]; simp [Tbl.find]

theorem pointTested_one {s : State} {p e : Nat} {v : Active} {r : RouteRec} {l : Lie} {new : DetLie}
    (h : HeldPoint s p e v r l new) : pointTested p s = testProved e s := by
  unfold pointTested; rw [entriesHolding_one h.entry (by rw [h.holders])]; rfl

theorem pointLost_one {s : State} {p e : Nat} {v : Active} {r : RouteRec} {l : Lie} {new : DetLie}
    (h : HeldPoint s p e v r l new) : pointLost p s = holdRoute e .point p s := by
  unfold pointLost; rw [entriesHolding_one h.entry (by rw [h.holders])]; rfl

/-- The lies of the table of R90. -/
def Tabled (new : DetLie) : Prop := new = .normal ∨ new = .reverse ∨ new = .lost

theorem tabled_lieOfContacts (x y : Bool) : Tabled (lieOfContacts x y) := by
  unfold Tabled lieOfContacts; cases x <;> cases y <;> simp

theorem wrongLie_tabled {new : DetLie} {h : Holders} {l : Lie} (hl : h.shared = some l) (ht : Tabled new) :
    wrongLie h new = true ↔ new ≠ l.det ∧ new ≠ .lost := by
  unfold wrongLie
  rw [hl]
  obtain rfl | rfl | rfl := ht <;> cases l <;> simp [Lie.det]

/-- A point's lie leaves the one that its SET route requires: the route becomes HELD (R70, R92). -/
theorem body_lieChanged_held {s u : State} {p e : Nat} {v : Active} {r : RouteRec} {l : Lie} {new : DetLie}
    (hu : touchPoint p s = u) (h : HeldPoint u p e v r l new) (ht : Tabled new) (hl : new ≠ l.det) (hv : v.state = .set) :
    ∃ w, w.step = u.work.step ∧ body (lieChanged p new s) = body { putActive e { v with state := .held } u with work := w } := by
  have hflight : pointInFlight u p = false := by unfold pointInFlight; rw [h.orders]
  have hloss : (new == .lost || wrongLie (holdersOf u p) new) = true := by
    by_cases hlost : new = .lost
    · simp [hlost]
    · simp [(wrongLie_tabled (h := holdersOf u p) (by rw [h.holders]) ht).2 ⟨hl, hlost⟩]
  have hreport := h.of_body (t := reportLost p new u) (body_report _ _ _ _ _)
  have hheld : body (pointLost p (reportLost p new u)) = body (wantAspects (putActive e { v with state := .held } u)) := by
    rw [pointLost_one hreport, body_holdRoute .point p hreport.find hv]
    exact body_update (fun x => wantAspects (putActive e { v with state := .held } x)) (fun _ => rfl) (body_report _ _ _ _ _)
  have hstay {x : State} (hx : body x = body (wantAspects (putActive e { v with state := .held } u)) ∨
      body x = body (wantReexam (wantAspects (putActive e { v with state := .held } u)))) : pointTested p x = x := by
    have hfresh : HeldPoint (putActive e { v with state := .held } u) p e { v with state := .held } r l new :=
      ⟨h.orders, h.lie, by unfold putActive; rw [h.entry]; exact insert_singleton _ _ _, h.route, h.holders, h.lists⟩
    have hx' : HeldPoint x p e { v with state := .held } r l new := by
      obtain hx | hx := hx
      · exact HeldPoint.of_body (s := wantAspects (putActive e { v with state := .held } u))
          ⟨hfresh.orders, hfresh.lie, hfresh.entry, hfresh.route, hfresh.holders, hfresh.lists⟩ hx
      · exact HeldPoint.of_body (s := wantReexam (wantAspects (putActive e { v with state := .held } u)))
          ⟨hfresh.orders, hfresh.lie, hfresh.entry, hfresh.route, hfresh.holders, hfresh.lists⟩ hx
    rw [pointTested_one hx']
    exact testProved_unproved hx'.find hx'.route hx'.lists (by rw [hx'.lie]; exact hl)
  unfold lieChanged
  dsimp only
  rw [hu, hflight, if_neg Bool.false_ne_true, if_pos hloss]
  split
  · have hb := body_update wantReexam (fun _ => rfl) hheld
    rw [hstay (.inr hb)]
    exact ⟨{ u.work with aspects := true, reexam := true }, rfl, hb⟩
  · rw [hstay (.inl hheld)]
    exact ⟨{ u.work with aspects := true }, rfl, hheld⟩

/-- The required lie back, and with it the route proved: a HELD route becomes SET again (R71). -/
theorem body_lieChanged_set {s u : State} {p e f : Nat} {v : Active} {r : RouteRec} {l : Lie}
    (hu : touchPoint p s = u) (h : HeldPoint u p e v r l l.det) (hv : v.state = .held) (hslot : v.slot = none)
    (hshow : v.show_ = none) (hc : u.asp.cond = .running) (hf : (elementSections r).head? = some f)
    (hp : ∀ x ∈ routePoints r, detLie u x.1 = x.2.det) (hs : ∀ n ∈ sequence r, secState u n = .clear) :
    ∃ w, w.step = u.work.step ∧ body (lieChanged p l.det s) = body { putActive e { v with state := .set } u with work := w } := by
  have hflight : pointInFlight u p = false := by unfold pointInFlight; rw [h.orders]
  have hloss : ¬ (l.det == .lost || wrongLie (holdersOf u p) l.det) = true := by
    rw [h.holders]; cases l <;> simp [wrongLie, Lie.det]
  have hfound : (l.det == .normal || l.det == .reverse) = true := by cases l <;> rfl
  have hx : HeldPoint (wantReexam (reportMoved p l.det 3 u)) p e v r l l.det :=
    let h' := h.of_body (t := reportMoved p l.det 3 u) (body_report _ _ _ _ _)
    ⟨h'.orders, h'.lie, h'.entry, h'.route, h'.holders, h'.lists⟩
  have hbx : body (wantReexam (reportMoved p l.det 3 u)) = body (wantReexam u) :=
    body_update wantReexam (fun _ => rfl) (body_report _ _ _ _ _)
  have hproved : proved (wantReexam (reportMoved p l.det 3 u)) r = true :=
    (read_of_body (fun x => proved x r) (fun _ => rfl) hbx).trans (proved_of hp hs)
  have hmem : f ∈ sequence r := List.mem_append_left _ (List.mem_of_mem_head? hf)
  have hclear : secState (wantReexam (reportMoved p l.det 3 u)) f = .clear :=
    (read_of_body (fun x => secState x f) (fun _ => rfl) hbx).trans (hs f hmem)
  have hcond : (wantReexam (reportMoved p l.det 3 u)).asp.cond = .running :=
    (read_of_body (fun x => x.asp.cond) (fun _ => rfl) hbx).trans hc
  unfold lieChanged
  dsimp only
  rw [hu, hflight, if_neg Bool.false_ne_true, if_neg hloss, if_pos hfound, if_pos hfound, pointTested_one hx,
    testProved_proved hx.find hx.route (.inr hv) hcond hproved,
    body_becomeSet _ hx.find hx.route hslot hshow fun g hg => by rwa [Option.some.inj (hg.symm.trans hf)]]
  refine ⟨{ u.work with aspects := true, reexam := true }, rfl, ?_⟩
  exact body_update (fun x => wantAspects (putActive e { v with state := .set } x)) (fun _ => rfl) hbx

/-! ### The settling theorem of POINT_CONTACT_SAMPLE -/

theorem contactLevel_withContact (i : Nat) (d : Contact) (s : State) (j : Nat) :
    contactLevel (withContact i d s) j = (Tbl.getD (Tbl.put Contact.init s.pts.contacts i d) j Contact.init).level := rfl

theorem feedback_ne_none {r : PointRec} {a b : Nat} (h : r.feedback = .pair a b) : r.feedback ≠ .none := by rw [h]; exact Feedback.noConfusion

/-- What a changed contact gives a resting point with contacts: the table's lie. -/
theorem derivedLie_sampled {s : State} {i p a b : Nat} {r : PointRec} {st : PointState} (d : Contact) (hq : AtRest s)
    (hf : r.feedback = .pair a b) (hst : st.failed = none) : derivedLie (withContact i d s) p r st
      = lieOfContacts (Tbl.getD (Tbl.put Contact.init s.pts.contacts i d) a Contact.init).level
          (Tbl.getD (Tbl.put Contact.init s.pts.contacts i d) b Contact.init).level :=
  derivedLie_resting hf hst (orderOf_none (s := withContact i d s) hq.orders hq.overflow p)

theorem own_contactSample_refl (i : Nat) (x : Bool) (s : State) : Own s (contactSample i x s) :=
  own_contactSample i x s (own_refl s)

/-- A changed contact of a resting point that one route holds, with the lie changed: what the point controller hands the
interlocking. -/
theorem contactSample_held {s : State} {i p a b e : Nat} {q : PointRec} {st : PointState} {l : Lie} {v : Active} {r : RouteRec}
    {x : Bool} (hq : AtRest s) (hrun : s.exch.runState = .running) (hp : pointsOfContact s i = [p])
    (hrec : Tbl.find s.pts.recs p = some q) (hf : q.feedback = .pair a b) (hst : Tbl.find s.pts.state p = some st)
    (hok : st.failed = none) (hloss : st.loss = none) (ha : s.ilk.active = [(e, v)])
    (hr : Tbl.find s.ilk.routes v.route = some r) (hh : holdersOf s p = { routes := [v.route], shared := some l })
    (hlists : (p, l) ∈ routePoints r) (hprev : x = (Tbl.getD s.pts.contacts i Contact.init).prev)
    (hlevel : x ≠ (Tbl.getD s.pts.contacts i Contact.init).level) :
    let cs := Tbl.put Contact.init s.pts.contacts i { prev := x, level := x }
    let new := lieOfContacts (Tbl.getD cs a Contact.init).level (Tbl.getD cs b Contact.init).level
    new ≠ st.lie → ∃ y u, touchPoint p y = u ∧ contactSample i x s = lieChanged p new y ∧ HeldPoint u p e v r l new ∧
      body u = body { s with
        pts := { s.pts with
          contacts := cs
          state := Tbl.insert s.pts.state p { st with
            lie := new, loss := if new ≠ l.det ∧ new ≠ .lost then some s.pts.window else none } }
        work := { s.work with lamps := true } } := by
  intro cs new hnew
  have horder : Machine.orderOf (withContact i { prev := x, level := x } s) p = none := orderOf_none hq.orders hq.overflow p
  have hlie : derivedLie (withContact i { prev := x, level := x } s) p q st = new := derivedLie_sampled _ hq hf hok
  obtain ⟨u, hu, hred, htouch⟩ := rederive_held (s := withContact i { prev := x, level := x } s) (p := p) (l := l)
    (v := v) hrun hrec hst horder (feedback_ne_none hf) hh hloss (by rw [hlie]; exact hnew)
  rw [hlie] at hu hred htouch
  have hwrong : (if wrongLie (holdersOf (withContact i { prev := x, level := x } s) p) new then some s.pts.window else none)
      = (if new ≠ l.det ∧ new ≠ .lost then some s.pts.window else none) :=
    if_congr (wrongLie_tabled (h := holdersOf s p) (by rw [hh]) (tabled_lieOfContacts _ _)) rfl rfl
  change body u = body { withPoint p { st with
      lie := new
      loss := if wrongLie (holdersOf (withContact i { prev := x, level := x } s) p) new then some s.pts.window else none }
    (withContact i { prev := x, level := x } s) with work := { s.work with lamps := true } } at hu
  rw [hwrong] at hu
  refine ⟨_, u, htouch, ?_, ?_, hu⟩
  · rw [contactSample_changed hp hprev hlevel, contactChanged_resting horder, hred]
  · refine HeldPoint.of_body ?_ hu
    exact ⟨horder, detLie_of_find (find_withPoint p _ (withContact i { prev := x, level := x } s)), ha, hr, hh, hlists⟩

/-- Settles O36: by the contact's sample, and the change of lie of a point that no route or one route holds. -/
theorem contactSamplesGiveTheLie : Obligations.ContactSamplesGiveTheLie := by
  refine ⟨fun s i x hs => ?_, fun s i x hq => ?_, fun s i p a b r st hq hrun hs hp hrec hf hab hst hok hh => ?_,
    fun s i p a b e q st l v r hq hrun hs hp hrec hf hab hst hok hloss ha hr hh hlists => ?_⟩
  · obtain ⟨h1, h2⟩ := contactSample_level i.val x s hs
    exact ⟨_, rfl, h1, h2⟩
  · intro c hkeep
    refine makes_of_body (w := s.work) rfl (own_contactSample_refl _ _ _) (congrArg body (contactSample_kept hkeep)) ?_ hq.shows
      hq.orders hq.stack
    rw [hq.work]; rfl
  · intro c x hprev hlevel cs
    have horder : Machine.orderOf (withContact i.val { prev := x, level := x } s) p = none := orderOf_none hq.orders hq.overflow p
    obtain ⟨w, hw, hb⟩ := body_rederive_unheld (s := withContact i.val { prev := x, level := x } s) hrun hrec hst hh
    rw [derivedLie_sampled _ hq hf hok] at hb
    refine makes_of_body (w := w) rfl (own_contactSample_refl _ _ _) ?_ ?_ hq.shows hq.orders hq.stack
    · rw [contactSample_changed hp hprev hlevel, contactChanged_resting horder]
      exact hb
    · rw [hw.step]; change s.work.step = none; rw [hq.work]; rfl
  · intro c x hprev hlevel cs new u
    have hheld := contactSample_held hq hrun hp hrec hf hst hok hloss ha hr hh hlists hprev hlevel
    refine ⟨fun hv hold hne => ?_, fun hv hold hnew hc hslot hshow hpoints hsecs hclear => ?_⟩
    · obtain ⟨y, z, htouch, hsample, hpoint, hz⟩ := hheld (by rw [hold]; exact hne)
      obtain ⟨w, hw, hb⟩ := body_lieChanged_held htouch hpoint (tabled_lieOfContacts _ _) hne hv
      refine makes_of_body (w := w) rfl (own_contactSample_refl _ _ _) ?_ ?_ hq.shows hq.orders hq.stack
      · rw [hsample, hb]
        have g := body_update (fun t => ({ putActive e { v with state := .held } t with work := w } : State)) (fun _ => rfl) hz
        refine g.trans ?_
        unfold putActive
        dsimp only
        rw [ha, insert_singleton]
      · rw [hw, work_of_body hz]; change s.work.step = none; rw [hq.work]; rfl
    · obtain ⟨y, z, htouch, hsample, hpoint, hz⟩ := hheld (by change new ≠ st.lie; rw [hnew]; exact fun e => hold e.symm)
      have hnew' : lieOfContacts (Tbl.getD cs a Contact.init).level (Tbl.getD cs b Contact.init).level = l.det := hnew
      obtain ⟨f, hfirst⟩ : ∃ f, (elementSections r).head? = some f := by
        cases hel : elementSections r with
        | nil => exact absurd hel hsecs
        | cons f _ => exact ⟨f, rfl⟩
      have hzc : z.asp.cond = .running := (read_of_body (fun t => t.asp.cond) (fun _ => rfl) hz).trans hc
      have hzs (n : Nat) (hn : n ∈ sequence r) : secState z n = .clear :=
        (read_of_body (fun t => secState t n) (fun _ => rfl) hz).trans (hclear n hn)
      have hzp (w : Nat × Lie) (hw : w ∈ routePoints r) : detLie z w.1 = w.2.det := by
        obtain rfl | ⟨hne, hlie⟩ := hpoints w hw
        · rw [hpoint.lie]; exact hnew'
        · refine .trans ?_ hlie
          refine (read_of_body (fun t => detLie t w.1) (fun _ => rfl) hz).trans ?_
          unfold detLie
          dsimp only
          rw [Tbl.find_insert_other _ _ _ _ hne]
      rw [hnew'] at hsample hpoint
      obtain ⟨w, hw, hb⟩ := body_lieChanged_set htouch hpoint hv hslot hshow hzc hfirst hzp hzs
      refine makes_of_body (w := w) rfl (own_contactSample_refl _ _ _) ?_ ?_ hq.shows hq.orders hq.stack
      · rw [hsample, hb]
        have g := body_update (fun t => ({ putActive e { v with state := .set } t with work := w } : State)) (fun _ => rfl) hz
        refine g.trans ?_
        unfold putActive
        dsimp only
        rw [ha, insert_singleton]
      · rw [hw, work_of_body hz]; change s.work.step = none; rw [hq.work]; rfl

/-! ### RESTORE_POINT (R102) -/

/-- A request whose block has made an update of the machine, but for the outputs and the work that it asks for. -/
theorem replies_update {c : Instr} {s v : State} {q : Request} {r : Result} {w0 w1 : Nat} {al : Allowed} {w : Work}
    {f : Nat → State → State} {rs : RunState} (g : State → State) (e : exec c s = .next (requestCommand al f q s))
    (h : Ready rs s) (hal : al.ok rs = true) (hrs : rs ≠ .initializing)
    (hf : f s.exch.takePos (taken q s) = complete s.exch.takePos r w0 w1 v) (ho : Own (taken q s) v)
    (hb : body v = body { g (taken q s) with work := w }) (hw : w.step = none)
    (hg : ∀ m, inside (g (((s.inHand q.tag).served).withMem m)) = inside (((g s).inHand q.tag).served))
    (hu : (g s).exch.takePos = s.exch.takePos ∧ (g s).exch.inHand = s.exch.inHand)
    (hq : (g s).vis.queue = [] ∧ (g s).pts.queue = [] ∧ (g s).ilk.stack = []) : Replies c s (g s) q.tag r w0 w1 := by
  have hi : inside v = inside (((g s).inHand q.tag).served) := by
    rw [inside_of_body_work hb, taken_shape]; exact hg _
  refine replies_of e h hal hrs hf ho hi hu (quietEnd_of_empty v ?_ ?_ ?_ ?_)
  · rw [work_of_body hb]; exact hw
  · have g1 := congrArg (fun x : State => x.vis.queue) hi; exact Eq.trans g1 hq.1
  · have g1 := congrArg (fun x : State => x.pts.queue) hi; exact Eq.trans g1 hq.2.1
  · have g1 := congrArg (fun x : State => x.ilk.stack) hi; exact Eq.trans g1 hq.2.2

/-- A FAILED PAIR point that no route holds leaves FAILED with the lie of its contacts. -/
theorem body_restore {s : State} {p a b : Nat} {r : PointRec} {st : PointState} (hrec : Tbl.find s.pts.recs p = some r)
    (hst : Tbl.find s.pts.state p = some st) (hf : r.feedback = .pair a b) (ho : Machine.orderOf s p = none)
    (hh : (holdersOf s p).routes = []) : ∃ w, w.step = s.work.step ∧
      body (restore p s) = body { withPoint p { st with
        failed := none, lie := lieOfContacts (contactLevel s a) (contactLevel s b), loss := none } s with work := w } := by
  have h1 := setPoint_eq (fun st => { st with failed := none }) hst
  have hlie : derivedLie (setPoint p (fun st => { st with failed := none }) s) p r { st with failed := none }
      = lieOfContacts (contactLevel s a) (contactLevel s b) := by
    rw [h1]; exact derivedLie_resting hf rfl ho
  have h2 : setPoint p (fun st => { st with lie := derivedLie (setPoint p (fun st => { st with failed := none }) s) p r st })
      (setPoint p (fun st => { st with failed := none }) s)
      = { withPoint p { st with failed := none, lie := lieOfContacts (contactLevel s a) (contactLevel s b) } s with
          work := { s.work with lamps := true } } := by
    rw [setPoint_eq (st := { st with failed := none }) _ (by rw [h1]; exact find_withPoint p _ s), hlie, h1]
    have g := congrArg (fun u : State => ({ u with work := { s.work with lamps := true } } : State)) (withPoint_withPoint p
      { st with failed := none } { st with failed := none, lie := lieOfContacts (contactLevel s a) (contactLevel s b) } s)
    exact g
  unfold restore
  rw [hrec]
  dsimp only
  rw [h2]
  have htouch := body_touchPoint_unheld (p := p) (s := { withPoint p { st with
    failed := none, lie := lieOfContacts (contactLevel s a) (contactLevel s b) } s with work := { s.work with lamps := true } })
    (find_withPoint p _ s) hh
  generalize hu : touchPoint p { withPoint p { st with
    failed := none, lie := lieOfContacts (contactLevel s a) (contactLevel s b) } s with work := { s.work with lamps := true } } = u
    at htouch
  have hub : body u = body { withPoint p { st with
      failed := none, lie := lieOfContacts (contactLevel s a) (contactLevel s b), loss := none } s with
        work := { s.work with lamps := true } } := by
    refine htouch.trans ?_
    have g := congrArg (fun x : State => body { x with work := { s.work with lamps := true } }) (withPoint_withPoint p
      { st with failed := none, lie := lieOfContacts (contactLevel s a) (contactLevel s b) }
      { st with failed := none, lie := lieOfContacts (contactLevel s a) (contactLevel s b), loss := none } s)
    exact g
  have hend {x : State} (hx : body x = body u ∨ body x = body (wantReexam u)) (l : DetLie) :
      pointTested p (reportMoved p l 4 x) = reportMoved p l 4 x := by
    refine pointTested_unheld ?_
    have hmoved : body (reportMoved p l 4 x) = body x := body_report _ _ _ _ _
    rw [holders_of_body hmoved]
    obtain hx | hx := hx
    · rw [holders_of_body (hx.trans hub)]; exact hh
    · rw [holders_of_body hx]; exact (congrArg Holders.routes (holders_of_body hub p)).trans hh
  split
  · rw [hend (.inr rfl)]
    refine ⟨{ s.work with lamps := true, reexam := true }, rfl, (body_report _ _ _ _ _).trans ?_⟩
    exact body_update wantReexam (fun _ => rfl) hub
  · rw [hend (.inl rfl)]
    exact ⟨{ s.work with lamps := true }, rfl, (body_report _ _ _ _ _).trans hub⟩

/-- Settles O38: by the branches of the block, and the restored point's lie. -/
theorem restorePointLeavesFailed : Obligations.RestorePointLeavesFailed := by
  intro s tag point h hq
  have hstate : (taken ⟨18, tag, point, 0#32, 0#32⟩ s).pts.state = s.pts.state := read_taken (fun u => u.pts.state) _ s fun _ => rfl
  refine ⟨fun hbad => ?_, fun st hlt hst => ⟨fun hok => ?_, fun r a b hfail hrec hf hh => ?_⟩⟩
  · refine replies_same (q := ⟨18, tag, point, 0#32, 0#32⟩) (f := fun n => restorePoint n point.toNat) rfl h rfl (by decide) ?_ hq
    have hnone : (if point.toNat < 128 then Tbl.find s.pts.state point.toNat else none) = none := by
      split
      · exact hbad.resolve_left (by omega)
      · rfl
    unfold restorePoint
    rw [hstate, hnone]
  · refine replies_same (q := ⟨18, tag, point, 0#32, 0#32⟩) (f := fun n => restorePoint n point.toNat) rfl h rfl (by decide) ?_ hq
    unfold restorePoint
    rw [hstate, if_pos hlt, hst]
    exact if_pos (by rw [hok]; rfl)
  · intro lie
    let q : Request := ⟨18, tag, point, 0#32, 0#32⟩
    obtain ⟨w, hw, hb⟩ := body_restore (s := taken q s) (p := point.toNat) (st := st) (r := r) (a := a) (b := b)
      ((read_taken (fun u => Tbl.find u.pts.recs point.toNat) q s fun _ => rfl).trans hrec) (by rw [hstate]; exact hst) hf
      ((read_taken (fun u => Machine.orderOf u point.toNat) q s fun _ => rfl).trans (orderOf_none hq.orders hq.overflow _))
      ((read_taken (fun u => (holdersOf u point.toNat).routes) q s fun _ => rfl).trans hh)
    have hlie : lieOfContacts (contactLevel (taken q s) a) (contactLevel (taken q s) b) = lie :=
      read_taken (fun u => lieOfContacts (contactLevel u a) (contactLevel u b)) q s fun _ => rfl
    rw [hlie] at hb
    have hcode : detLie (restore point.toNat (taken q s)) point.toNat = lie :=
      (read_of_body (fun u => detLie u point.toNat) (fun _ => rfl) hb).trans (detLie_of_find (find_withPoint _ _ _))
    refine replies_update (q := q) (f := fun n => restorePoint n point.toNat) (v := restore point.toNat (taken q s)) (w := w)
      (withPoint point.toNat { st with failed := none, lie := lie, loss := none }) rfl h rfl (by decide) ?_
      (own_restore _ _ (own_refl _)) hb ?_ (fun _ => rfl) ⟨rfl, rfl⟩ ⟨hq.shows, hq.orders, hq.stack⟩
    · rw [← hcode]
      unfold restorePoint
      rw [hstate, if_pos hlt, hst]
      exact if_neg (by cases hf' : st.failed <;> simp_all)
    · rw [hw, work_taken, hq.work]; rfl

/-! ### LOSS_TIMER_EXPIRY (R93, R68) -/

theorem lossExpires_stopped {s : State} {p : Nat} (h : ∀ st, Tbl.find s.pts.state p = some st → st.loss = none) :
    lossExpires p s = s := by
  have hnone : (Tbl.find s.pts.state p).bind PointState.loss = none := by
    cases hf : Tbl.find s.pts.state p with
    | none => rfl
    | some st => exact h st hf
  unfold lossExpires
  rw [hnone]

/-- A point that becomes FAILED has its loss timer off. -/
theorem body_failPoint {s : State} {p : Nat} {st : PointState} (c : PointCause) (h : Tbl.find s.pts.state p = some st) :
    body (failPoint p c s) = body { withPoint p { st with failed := some c, lie := .failed, loss := none } s with
      work := { s.work with lamps := true } } := by
  have hwrong (x : Holders) : wrongLie x .failed = false := by unfold wrongLie; cases x.shared with
    | none => rfl
    | some l => cases l <;> rfl
  have hset := setPoint_eq (fun st => { st with failed := some c, lie := .failed }) h
  have hholds : lossHolds { withPoint p { st with failed := some c, lie := .failed } s with
      work := { s.work with lamps := true } } p = false := by
    unfold lossHolds
    rw [detLie_of_find (s := { withPoint p { st with failed := some c, lie := .failed } s with
      work := { s.work with lamps := true } }) (find_withPoint p _ s), hwrong, Bool.and_false]
  unfold failPoint
  rw [hset, body_touchPoint (s := { withPoint p { st with failed := some c, lie := .failed } s with
    work := { s.work with lamps := true } }) (find_withPoint p _ s), hholds]
  have g := congrArg (fun u : State => body { u with work := { s.work with lamps := true } }) (withPoint_withPoint p
    { st with failed := some c, lie := .failed } { st with failed := some c, lie := .failed, loss := none } s)
  exact g

/-- A loss timer that runs: the point is FAILED, and the routes that hold it fail where they are SETTING. -/
theorem lossExpires_running {s : State} {p k : Nat} {st : PointState} (h : Tbl.find s.pts.state p = some st)
    (hk : st.loss = some k) : ∃ u, lossExpires p s = failRoutes p u ∧
      Own s u ∧ body u = body { withPoint p { st with failed := some .wrongLie, lie := .failed, loss := none } s with
        work := { s.work with lamps := true } } := by
  have hsome : (Tbl.find s.pts.state p).bind PointState.loss = some k := by rw [h]; exact hk
  unfold lossExpires
  rw [hsome]
  exact ⟨_, rfl, own_report (own_failPoint _ _ _ (own_refl s)) _ _ _ _, (body_report _ _ _ _ _).trans (body_failPoint .wrongLie h)⟩

theorem failRoute_other {s : State} {p e : Nat} (h : ∀ a, Tbl.find s.ilk.active e = some a → a.state ≠ .setting) :
    failRoute p e s = s := by
  unfold failRoute
  split
  · rfl
  · next a ha => exact if_neg (h a ha)

theorem eachDo_same {l : List Nat} {f : Nat → State → State} {s : State} (h : ∀ n ∈ l, f n s = s) : eachDo l f s = s := by
  unfold eachDo
  induction l with
  | nil => rfl
  | cons n l ih =>
    rw [List.foldl_cons, h n List.mem_cons_self]
    exact ih fun m hm => h m (List.mem_cons_of_mem _ hm)

/-- The routes that hold a point, as the entries that `entriesHolding` lists. -/
theorem mem_entriesHolding {s : State} {p e : Nat} (hs : Tbl.sorted s.ilk.active = true) :
    e ∈ entriesHolding s p ↔ ∃ a, Tbl.find s.ilk.active e = some a ∧ a.route ∈ (holdersOf s p).routes := by
  unfold entriesHolding
  constructor
  · intro h
    obtain ⟨x, hx, rfl⟩ := List.mem_map.1 h
    obtain ⟨hxt, hxr⟩ := List.mem_filter.1 hx
    exact ⟨x.2, find_of_mem hs hxt, by simpa using hxr⟩
  · rintro ⟨a, ha, hr⟩
    exact List.mem_map.2 ⟨(e, a), List.mem_filter.2 ⟨mem_of_find ha, by simpa using hr⟩, rfl⟩

/-- Of a list of entries, each once, one alone fails a route: what it makes is all that is done. -/
theorem eachDo_one {l : List Nat} {f : Nat → State → State} {s : State} {e : Nat} (he : e ∈ l) (hn : l.Nodup)
    (hbefore : ∀ n, n ≠ e → f n s = s) (hafter : ∀ n, n ≠ e → f n (f e s) = f e s) : eachDo l f s = f e s := by
  obtain ⟨l1, l2, rfl⟩ := List.append_of_mem he
  have h1 : e ∉ l1 := fun h => (List.nodup_append.1 hn).2.2 e h e List.mem_cons_self rfl
  have h2 : e ∉ l2 := (List.nodup_cons.1 (List.nodup_append.1 hn).2.1).1
  have hfirst := eachDo_same (f := f) (s := s) (l := l1) fun n hm => hbefore n fun e' => h1 (e' ▸ hm)
  have hlast := eachDo_same (f := f) (s := f e s) (l := l2) fun n hm => hafter n fun e' => h2 (e' ▸ hm)
  unfold eachDo at hfirst hlast ⊢
  rw [List.foldl_append, hfirst, List.foldl_cons, hlast]

/-- What the answer to a route's slot leaves: the slot done, and the entry without it. -/
theorem answerSlot_done {s : State} {e n : Nat} {a : Active} {tag : HostTag} (res : Result) (w0 w1 : Nat)
    (ha : Tbl.find s.ilk.active e = some a) (hslot : a.slot = some n) (hn : n < 32) (hm : s.memOk)
    (hmarks : Tbl.sorted s.exch.inHand = true) (hmark : Tbl.find s.exch.inHand n = some tag) :
    SlotDone n tag res w0 w1 (answerSlot e res w0 w1 s) ∧ body (answerSlot e res w0 w1 s)
      = body { putActive e { a with slot := none } s with exch := { s.exch with inHand := Tbl.erase s.exch.inHand n } } := by
  have hset : body (setActive e { a with slot := none } s) = body (putActive e { a with slot := none } s) := body_mirrorActive _ _
  have hhand : (setActive e { a with slot := none } s).exch.inHand = s.exch.inHand :=
    (read_of_body (fun u => u.exch.inHand) (fun _ => rfl) hset).trans rfl
  have hmem : (setActive e { a with slot := none } s).memOk := (own_setActive e _ s (own_refl s)).mem hm
  rw [answerSlot_eq res w0 w1 ha hslot]
  refine ⟨slotDone_completed res w0 w1 hn hmem (by rw [hhand]; exact hmark) (by rw [hhand]; exact hmarks), ?_⟩
  rw [body_completed res w0 w1 hn (by rw [hhand]; exact hmark), hhand]
  exact body_update (fun u => { u with exch := { u.exch with inHand := Tbl.erase s.exch.inHand n } }) (fun _ => rfl) hset

/-- A SETTING route with no order left fails: its slot is answered and it is released whole (R68). -/
theorem failRoute_setting {s : State} {p e n : Nat} {a : Active} {tag : HostTag} (h : Releasable e a s) (hst : a.state = .setting)
    (horders : a.orders = []) (hslot : a.slot = some n) (hn : n < 32) (hm : s.memOk) (hmarks : Tbl.sorted s.exch.inHand = true)
    (hmark : Tbl.find s.exch.inHand n = some tag) (hq : s.pts.queue = []) (ho : s.pts.overflow = []) :
    SlotDone n tag .pointFailed p 0 (failRoute p e s) ∧ ReleasedWhole e a.route s (failRoute p e s) ∧
      RoutesAlone { s with exch := { s.exch with inHand := Tbl.erase s.exch.inHand n } } (failRoute p e s) := by
  generalize hs1 : report .routeFailed a.route (halves e 0) p s = s1
  have hb1 : body s1 = body s := by rw [← hs1]; exact body_report _ _ _ _ _
  have hread {α : Type} (g : State → α) (hg : ∀ u, g u = g (body u)) : g s1 = g s := read_of_body g hg hb1
  have ha1 : Tbl.find s1.ilk.active e = some a := (hread (fun u => Tbl.find u.ilk.active e) fun _ => rfl).trans h.entry
  have hm1 : s1.memOk := by rw [← hs1]; exact (own_report (own_refl s) _ _ _ _).mem hm
  obtain ⟨hdone, hb2⟩ := answerSlot_done .pointFailed p 0 ha1 hslot hn hm1
    (by rw [hread (fun u => u.exch.inHand) fun _ => rfl]; exact hmarks)
    (by rw [hread (fun u => u.exch.inHand) fun _ => rfl]; exact hmark)
  generalize hs2 : answerSlot e .pointFailed p 0 s1 = s2 at hdone hb2
  have hb : body s2 = body { putActive e { a with slot := none } s with
      exch := { s.exch with inHand := Tbl.erase s.exch.inHand n } } :=
    hb2.trans (body_update (fun u => { putActive e { a with slot := none } u with
      exch := { u.exch with inHand := Tbl.erase u.exch.inHand n } }) (fun _ => rfl) hb1)
  have hilk : s2.ilk = { s.ilk with active := Tbl.insert s.ilk.active e { a with slot := none } } :=
    (read_of_body (fun u => u.ilk) (fun _ => rfl) hb).trans rfl
  have hrel : Releasable e { a with slot := none } s2 := h.put h.noShow (by rw [hilk]) (by rw [hilk]) (by rw [hilk])
  have heq : failRoute p e s = releaseWhole e .failed s2 := by
    unfold failRoute
    rw [h.entry]
    dsimp only
    rw [if_pos hst, withdraw_empty hq ho h.active h.entry, hs1, hs2, tellShow_none _ _ h.noShow, hrel.entry]
    exact if_pos horders
  obtain ⟨halone, hwhole⟩ := releaseWhole_released .failed hrel
  rw [heq]
  refine ⟨hdone.own hn (own_releaseWhole _ _ _ (own_refl _)), releasedWhole_put hwhole (by rw [hilk]) (by rw [hilk]) (by rw [hilk]), ?_⟩
  have hput : RoutesAlone { s with exch := { s.exch with inHand := Tbl.erase s.exch.inHand n } }
      { putActive e { a with slot := none } s with exch := { s.exch with inHand := Tbl.erase s.exch.inHand n } } :=
    ⟨rfl, rfl, rfl, fun _ => rfl⟩
  exact hput.trans ((RoutesAlone.of_body hb).trans halone)

/-- The end of a handling in a machine where nothing waits, read inside. -/
theorem inside_finish_empty (b : State) {v : State} (hw : v.work.step = none) (shows : v.vis.queue = [])
    (orders : v.pts.queue = []) (stack : v.ilk.stack = []) : inside (finish b v) = inside v :=
  inside_finish b v (quietEnd_of_empty v hw shows orders stack)

/-! ### RECHARGE_TIMER_EXPIRY (R96) -/

theorem body_setUnit (x : Discharge) (s : State) : body (setUnit x s) = body { s with pts := { s.pts with unit := x } } := body_write8 _ _ _

theorem body_rechargeExpires {s : State} {k : Nat} (h : s.pts.rechargeTimer = some k) : body (rechargeExpires s) = body { s with
    pts := { s.pts with unit := .ready, rechargeTimer := none }, work := { s.work with pass := true } } := by
  unfold rechargeExpires
  rw [h]
  dsimp only
  exact body_update wantPass (fun _ => rfl) (body_setUnit _ _)

theorem read8_setUnit (x : Discharge) {s : State} (hm : s.memOk) : (setUnit x s).read8 0x1E = x.code := by
  have hcode : x.code % 256 = x.code := by cases x <;> rfl
  unfold setUnit State.write8
  rw [if_pos (by decide)]
  unfold State.read8 State.withMem
  dsimp only
  rw [Mem.read8_write8_self _ _ _ (sorted_of_memOk (s := s) hm)]
  simp [hcode]

/-- What the handling of a loss timer leaves where no route that holds the point is SETTING. -/
theorem lossExpires_unset {s : State} {p k : Nat} {st : PointState} (h : Tbl.find s.pts.state p = some st) (hk : st.loss = some k)
    (hsorted : Tbl.sorted s.ilk.active = true)
    (hnone : ∀ x ∈ s.ilk.active, x.2.route ∈ (holdersOf s p).routes → x.2.state ≠ .setting) :
    body (lossExpires p s) = body { withPoint p { st with failed := some .wrongLie, lie := .failed, loss := none } s with
      work := { s.work with lamps := true } } := by
  obtain ⟨u, hu, hown, hb⟩ := lossExpires_running h hk
  have hactive : u.ilk.active = s.ilk.active := (read_of_body (fun x => x.ilk.active) (fun _ => rfl) hb).trans rfl
  have hholders : holdersOf u p = holdersOf s p := holders_of_body hb p
  have hsame : failRoutes p u = u := by
    refine eachDo_same fun e he => failRoute_other fun a ha => ?_
    obtain ⟨a', ha', hr⟩ := (mem_entriesHolding (by rw [hactive]; exact hsorted)).1 he
    obtain rfl : a = a' := by simpa [ha] using ha'
    rw [hholders] at hr
    rw [hactive] at ha
    exact hnone (e, a) (mem_of_find ha) hr
  rw [hu, hsame, hb]

/-- What the handling of a loss timer leaves where one route that holds the point is SETTING, with no order in hand. -/
theorem lossExpires_setting {s : State} {p k e n : Nat} {a : Active} {st : PointState} {tag : HostTag} (hq : AtRest s)
    (h : Tbl.find s.pts.state p = some st) (hk : st.loss = some k) (hm : s.memOk) (he : EntryOf e a s) (hst : a.state = .setting)
    (horders : a.orders = []) (hr : a.route ∈ (holdersOf s p).routes) (hothers : ∀ x ∈ s.ilk.active, x.1 ≠ e → x.2.state ≠ .setting)
    (hslot : a.slot = some n) (hn : n < 32) (hmarks : Tbl.sorted s.exch.inHand = true)
    (hmark : Tbl.find s.exch.inHand n = some tag) :
    SlotDone n tag .pointFailed p 0 (lossExpires p s) ∧ ReleasedWhole e a.route s (lossExpires p s) ∧
      RoutesAlone { withPoint p { st with failed := some .wrongLie, lie := .failed, loss := none } s with
        exch := { s.exch with inHand := Tbl.erase s.exch.inHand n } } (lossExpires p s) := by
  obtain ⟨u, hu, hown, hb⟩ := lossExpires_running h hk
  have hilk : u.ilk = s.ilk := (read_of_body (fun x => x.ilk) (fun _ => rfl) hb).trans rfl
  have hhand : u.exch.inHand = s.exch.inHand := (read_of_body (fun x => x.exch.inHand) (fun _ => rfl) hb).trans rfl
  have hqu : u.pts.queue = [] := (read_of_body (fun x => x.pts.queue) (fun _ => rfl) hb).trans hq.orders
  have hou : u.pts.overflow = [] := (read_of_body (fun x => x.pts.overflow) (fun _ => rfl) hb).trans hq.overflow
  have hmu : u.memOk := hown.mem hm
  have hrel : Releasable e a u := by
    refine ⟨?_, ?_, ?_, ?_, he.noShow⟩ <;> rw [hilk]
    exacts [he.active, he.locks, he.holders, he.entry]
  obtain ⟨hdone, hwhole, halone⟩ := failRoute_setting (p := p) hrel hst horders hslot hn hmu (by rw [hhand]; exact hmarks)
    (by rw [hhand]; exact hmark) hqu hou
  have hkeep {x : State} (k : Nat) (hk : k ≠ e) (hx : Tbl.find x.ilk.active k = Tbl.find s.ilk.active k) :
      failRoute p k x = x :=
    failRoute_other fun b hb => hothers (k, b) (mem_of_find (hx ▸ hb)) hk
  have hall : failRoutes p u = failRoute p e u := by
    refine eachDo_one ?_ (nodup_keys (by rw [hilk]; exact he.active) _) (fun k hk => hkeep k hk (by rw [hilk]))
      fun k hk => hkeep k hk ((hwhole.others k hk).trans (by rw [hilk]))
    refine (mem_entriesHolding (by rw [hilk]; exact he.active)).2 ⟨a, by rw [hilk]; exact he.entry, ?_⟩
    rw [holders_of_body hb]
    exact hr
  rw [hu, hall]
  refine ⟨hdone, ?_, ?_⟩
  · exact ⟨hwhole.entry, fun k hk => (hwhole.others k hk).trans (by rw [hilk]),
      fun n => (hwhole.locks n).trans (by unfold lockOf; rw [hilk]),
      fun q => (hwhole.holders q).trans (by unfold holdersOf; rw [hilk])⟩
  · have hmarked : RoutesAlone { withPoint p { st with failed := some .wrongLie, lie := .failed, loss := none } s with
        exch := { s.exch with inHand := Tbl.erase s.exch.inHand n } }
        { u with exch := { u.exch with inHand := Tbl.erase u.exch.inHand n } } := by
      have hwork : RoutesAlone { withPoint p { st with failed := some .wrongLie, lie := .failed, loss := none } s with
          exch := { s.exch with inHand := Tbl.erase s.exch.inHand n } }
          { withPoint p { st with failed := some .wrongLie, lie := .failed, loss := none } s with
            exch := { s.exch with inHand := Tbl.erase s.exch.inHand n }, work := { s.work with lamps := true } } :=
        ⟨rfl, rfl, rfl, fun _ => rfl⟩
      exact hwork.trans (.of_body (body_update
        (fun x => { x with exch := { x.exch with inHand := Tbl.erase x.exch.inHand n } }) (fun _ => rfl) hb))
    exact hmarked.trans halone

/-- Settles O39: by the failure of the point, of a route that it holds back, and the unit's recharge. -/
theorem lossFailsAndRechargeReadies : Obligations.LossFailsAndRechargeReadies := by
  refine ⟨fun s p hq => ⟨fun st k hst hk hsorted hnone => ?_, fun st k e a n tag hst hk hs he hset horders hr hothers hslot hn
    hmarks hmark => ?_, fun hstop => ?_⟩, fun s hq => ⟨fun k hk => ⟨?_, fun hs => ?_⟩, fun hnone => ?_⟩⟩
  · refine makes_of_body (w := { s.work with lamps := true }) rfl (own_lossExpires _ _ (own_refl s))
      (lossExpires_unset hst hk hsorted hnone) ?_ hq.shows hq.orders hq.stack
    rw [hq.work]; rfl
  · obtain ⟨hdone, hwhole, halone⟩ := lossExpires_setting hq hst hk hs.mem he hset horders hr hothers hslot hn hmarks hmark
    have hin := inside_finish_empty s (v := lossExpires p.val s) (by rw [halone.step]; change s.work.step = none; rw [hq.work]; rfl)
      ((halone.read (fun u => u.vis.queue) fun _ => rfl).trans hq.shows)
      ((halone.read (fun u => u.pts.queue) fun _ => rfl).trans hq.orders)
      ((halone.read (fun u => u.ilk.stack) fun _ => rfl).trans hq.stack)
    have hread {α : Type} (g : State → α) (hg : ∀ u, g u = g (inside u)) :
        g (finish s (lossExpires p.val s)) = g (lossExpires p.val s) := by rw [hg, hin, ← hg]
    have hown := own_lossExpires p.val s (own_refl s)
    refine ⟨_, rfl, hdone.own hn (own_finish _ _ (own_refl _)), ?_, ?_, ?_, ?_, ?_, memoryKept_of_own (own_finish _ _ hown)⟩
    · exact releasedWhole_of_ilk hwhole (hread (fun u => u.ilk.active) fun _ => rfl) (hread (fun u => u.ilk.locks) fun _ => rfl)
        (hread (fun u => u.ilk.holders) fun _ => rfl)
    · rw [hread (fun u => detLie u p.val) fun _ => rfl, halone.detLie]
      exact detLie_of_find (find_withPoint p.val _ s)
    · exact (occ_finish _ _).trans (halone.read (fun u => u.occ) fun _ => rfl)
    · exact (hread (fun u => u.tags) fun _ => rfl).trans (halone.read (fun u => u.tags) fun _ => rfl)
    · exact (hread (fun u => u.tt) fun _ => rfl).trans (halone.read (fun u => u.tt) fun _ => rfl)
  · exact makes_rest rfl hq (own_lossExpires _ _ (own_refl s)) (congrArg body (lossExpires_stopped hstop)) rfl rfl
  · refine makes_of_body (w := { s.work with pass := true }) rfl (own_rechargeExpires _ (own_refl s)) (body_rechargeExpires hk) ?_
      hq.shows hq.orders hq.stack
    rw [hq.work]; rfl
  · have hb := body_rechargeExpires hk
    have hquiet : quietEnd (rechargeExpires s) = true := by
      refine quietEnd_of_empty _ ?_ ?_ ?_ ?_
      · rw [work_of_body hb]; change s.work.step = none; rw [hq.work]; rfl
      · exact (read_of_body (fun u => u.vis.queue) (fun _ => rfl) hb).trans hq.shows
      · exact (read_of_body (fun u => u.pts.queue) (fun _ => rfl) hb).trans hq.orders
      · exact (read_of_body (fun u => u.ilk.stack) (fun _ => rfl) hb).trans hq.stack
    refine ⟨_, rfl, ?_⟩
    rw [(header_finish s _ hquiet).read8 (by decide) (by decide)]
    unfold rechargeExpires
    rw [hk]
    exact read8_setUnit .ready (s := { s with pts := { s.pts with rechargeTimer := none } }) hs.mem
  · refine makes_rest rfl hq (own_rechargeExpires _ (own_refl s)) (congrArg body ?_) rfl rfl
    unfold rechargeExpires; rw [hnone]

end Sys2Proof.PointLies
end

