-- ==== Sys2Proof/Proofs/SlotBytes.lean ====
section
/-! The bytes of the request slots, which the part writes only to take and to complete a slot; and the end of a handling that
makes one dispatcher pass. -/

namespace Sys2Proof.SlotBytes

open Sys2Proof.Machine Sys2Proof.QuietHeader Sys2Proof.TrackRequests

/-- The bytes of every slot as they were. -/
def SlotsKept (s t : State) : Prop := ∀ a, 0x1000 ≤ a → a < 0x1400 → t.read8 a = s.read8 a

theorem SlotsKept.refl (s : State) : SlotsKept s s := fun _ _ _ => rfl

theorem SlotsKept.trans {s t u : State} (h1 : SlotsKept s t) (h2 : SlotsKept t u) : SlotsKept s u :=
  fun a ha hb => (h2 a ha hb).trans (h1 a ha hb)

theorem SlotsKept.read16 {s t : State} (h : SlotsKept s t) {n : Nat} (hn : n < Config.numSlots) :
    t.read16 (slotAt n) = s.read16 (slotAt n) := by
  unfold Config.numSlots at hn
  have h0 : 0x1000 ≤ slotAt n ∧ slotAt n + 1 < 0x1400 := by unfold slotAt Config.slotBase; omega
  exact read16_of_read8 (h _ h0.1 (by omega)) (h _ (by omega) h0.2)

theorem slots_of_mem {s t : State} (h : t.exch.mem = s.exch.mem) : SlotsKept s t :=
  fun a _ _ => by unfold State.read8; rw [h]

/-- The beginning may differ outside exchange memory. -/
theorem SlotsKept.from {s u t : State} (h : SlotsKept u t) (he : u.exch.mem = s.exch.mem) : SlotsKept s t :=
  (slots_of_mem he).trans h

theorem slots_write8 (x v : Nat) (s : State) (h : x < 0x1000 ∨ 0x1400 ≤ x) : SlotsKept s (s.write8 x v) :=
  fun _ _ _ => read8_write8_other _ _ _ _ (by omega)

theorem slots_write16 (x v : Nat) (s : State) (h : x + 1 < 0x1000 ∨ 0x1400 ≤ x) : SlotsKept s (s.write16 x v) :=
  fun _ _ _ => read8_write16_other _ _ _ _ (by omega)

theorem slots_write32 (x v : Nat) (s : State) (h : x + 3 < 0x1000 ∨ 0x1400 ≤ x) : SlotsKept s (s.write32 x v) :=
  fun _ _ _ => read8_write32_other _ _ _ _ (by omega)

theorem slots_writeWord (b n k v : Nat) (s : State) (h : b + 4 * n ≤ 0x1000) : SlotsKept s (s.writeWord b n k v) := by
  unfold State.writeWord; split
  · exact slots_write32 _ _ _ (by omega)
  · exact SlotsKept.refl s

theorem slots_eachDo (l : List Nat) (f : Nat → State → State) (h : ∀ n t, SlotsKept t (f n t)) (s : State) :
    SlotsKept s (eachDo l f s) := by
  unfold eachDo
  induction l generalizing s with
  | nil => exact SlotsKept.refl s
  | cons n l ih => exact (h n s).trans (ih (f n s))

/-! ### Reports and mirror words -/

theorem slots_readLevels (s : State) : SlotsKept s (readLevels s) :=
  fun a ha _ => ReportLog.read8_readLevels s a (.inr (Nat.le_trans (by decide) ha))

theorem slots_setMissed (m : BitVec 64) (s : State) : SlotsKept s (setMissed m s) :=
  (slots_write32 0x08 (m.toNat % 2 ^ 32) { s with exch := { s.exch with missed := m } } (.inl (by omega))).trans
    (slots_write32 0x0C (m.toNat / 2 ^ 32) _ (.inl (by omega)))

theorem slots_advance (w : Nat) (u : State) :
    SlotsKept u (evalReports (({ u with exch := { u.exch with w := w } } : State).write16 0 w)) :=
  slots_write16 0 w ({ u with exch := { u.exch with w := w } } : State) (.inl (by omega))

theorem slots_writeEntry (k : ReportKind) (x v1 v2 : Nat) (s : State) : SlotsKept s (writeEntry k x v1 v2 s) := by
  unfold writeEntry Config.logBase
  exact (slots_write32 _ _ s (.inr (by omega))).trans (slots_write32 _ _ _ (.inr (by omega))) |>.trans
    (slots_write32 _ _ _ (.inr (by omega))) |>.trans (slots_write32 _ _ _ (.inr (by omega))) |>.trans (slots_advance _ _)

theorem slots_report (k : ReportKind) (x v1 v2 : Nat) (s : State) : SlotsKept s (report k x v1 v2 s) := by
  unfold report
  refine (slots_readLevels s).trans ?_
  dsimp only
  split_ifs
  · exact slots_writeEntry _ _ _ _ _
  · exact slots_setMissed _ _
  · exact (slots_writeEntry _ _ _ _ _).trans ((slots_setMissed _ _).trans (slots_writeEntry _ _ _ _ _))
  · exact slots_setMissed _ _

theorem slots_mirrorPoint (p : Nat) (s : State) : SlotsKept s (mirrorPoint p s) := by
  unfold mirrorPoint mirrorPointNow
  split
  · split
    · exact SlotsKept.refl s
    · exact slots_writeWord Config.pointMirror 128 p _ s (by decide)
  · exact SlotsKept.refl s

theorem slots_mirrorSignal (x : Nat) (s : State) : SlotsKept s (mirrorSignal x s) := by
  unfold mirrorSignal mirrorSignalNow
  split
  · split
    · exact slots_writeWord Config.signalMirror 192 x _ s (by decide)
    · exact SlotsKept.refl s
  · exact SlotsKept.refl s

theorem slots_mirrorActive (e : Nat) (s : State) : SlotsKept s (mirrorActive e s) :=
  slots_writeWord Config.activeMirror Config.numActive e _ s (by decide)

theorem slots_mirrorSection (n : Nat) (s : State) : SlotsKept s (mirrorSection n s) := by
  unfold mirrorSection
  split
  · exact SlotsKept.refl s
  · split
    · exact slots_writeWord Config.sectionMirror 256 n _ s (by decide)
    · exact SlotsKept.refl s

theorem slots_mirrorStackFrom (n k : Nat) (s : State) : SlotsKept s (mirrorStackFrom n k s) := by
  induction n generalizing k s with
  | zero => exact SlotsKept.refl s
  | succ n ih => exact (slots_writeWord Config.stackMirror Config.numStack k _ s (by decide)).trans (ih _ _)

theorem slots_setStack (l : List StackEntry) (s : State) : SlotsKept s (setStack l s) :=
  (slots_mirrorStackFrom Config.numStack 0 { s with ilk := { s.ilk with stack := l } }).from rfl

/-! ### The end of a handling -/

theorem slots_recomputeOne (x : Nat) (s : State) : SlotsKept s (recomputeOne x s) := by
  unfold recomputeOne; split
  · dsimp only; split
    · exact SlotsKept.refl s
    · exact ((slots_mirrorSignal x _).trans (slots_report _ _ _ _ _)).from rfl
  · exact SlotsKept.refl s

theorem slots_recomputeAspects (s : State) : SlotsKept s (recomputeAspects s) := by
  unfold recomputeAspects; split
  · exact (slots_eachDo _ _ slots_recomputeOne _).from rfl
  · exact SlotsKept.refl s

theorem slots_settleOne (i : Nat) (s : State) : SlotsKept s (settleOne i s) := by
  unfold settleOne; split
  · exact SlotsKept.refl s
  · dsimp only; split
    · exact SlotsKept.refl s
    · exact (slots_writeWord Config.lampMirror 24 (i / 16) _ _ (by decide)).from rfl

theorem slots_settleLamps (s : State) : SlotsKept s (settleLamps s) := by
  unfold settleLamps; split
  · exact (slots_eachDo _ _ slots_settleOne _).from rfl
  · exact SlotsKept.refl s

theorem slots_settleVisitorWord (b : State) (k : Nat) (s : State) : SlotsKept s (settleVisitorWord b k s) := by
  unfold settleVisitorWord; split
  · exact SlotsKept.refl s
  · exact slots_writeWord _ _ _ _ _ (by decide)

theorem slots_settleVisitors (b s : State) : SlotsKept s (settleVisitors b s) := by
  unfold settleVisitors settleButtons
  exact (slots_eachDo _ _ (fun n t => slots_of_mem (s := t) (t := settleButton n t) rfl) s).trans
    (slots_eachDo _ _ (slots_settleVisitorWord b) _)

theorem slots_endHandling (b s : State) (h1 : s.work.step = none) (h2 : noHead s = true) : SlotsKept s (endHandling b s) := by
  unfold endHandling
  rw [runVisitor_idle s h1, testHeads_idle 16 s h2]
  exact (slots_recomputeAspects s).trans (slots_settleLamps _) |>.trans (slots_settleVisitors b _) |>.trans (slots_of_mem rfl)

theorem slots_afterWork (n : Nat) (s : State) (h : quietEnd s = true) : SlotsKept s (afterWork n s) := by
  induction n generalizing s with
  | zero => exact SlotsKept.refl s
  | succ n ih =>
    obtain ⟨h1, h2, h3, h4⟩ := quietEnd_iff.1 h
    unfold afterWork
    split
    · next hp =>
      have hd : dispatchIdle { s with work := { s.work with pass := false } } = true := h3 hp
      have hq : quietEnd { s with work := { s.work with pass := false } } = true :=
        quietEnd_iff.2 ⟨h1, h2, fun _ => hd, h4⟩
      rw [dispatcherPass_idle _ hd]
      exact ((slots_endHandling s { s with work := { s.work with pass := false } } h1 h2).trans
        (ih _ (quietEnd_endHandling s _ hq))).from rfl
    · split
      · next hr =>
        have hq : quietEnd { s with work := { s.work with reexam := false } } = true :=
          quietEnd_iff.2 ⟨h1, h2, h3, fun _ => h4 hr⟩
        rw [reexamine_empty s (h4 hr)]
        exact ((slots_endHandling s { s with work := { s.work with reexam := false } } h1 h2).trans
          (ih _ (quietEnd_endHandling s _ hq))).from rfl
      · exact SlotsKept.refl s

/-- The end of a handling that leaves nothing to do leaves the slots. -/
theorem slots_finish (b s : State) (h : quietEnd s = true) : SlotsKept s (finish b s) := by
  obtain ⟨h1, h2, -, -⟩ := quietEnd_iff.1 h
  have hafter := slots_afterWork 4096 _ (quietEnd_endHandling b s h)
  unfold finish
  generalize afterWork 4096 (endHandling b s) = u at hafter
  exact (slots_endHandling b s h1 h2).trans (hafter.trans (slots_of_mem rfl))

/-- The slot at the take position reads TAKEN once it is taken. -/
theorem read16_taken (q : Request) {s : State} (hm : s.memOk) (hn : s.exch.takePos < Config.numSlots) :
    (taken q s).read16 (slotAt s.exch.takePos) = 2 := by
  have hm' := memOk_postSlot s.exch.takePos q s hm
  have ha : slotAt s.exch.takePos + 1 < Config.memBytes ∧ slotAt s.exch.takePos ≠ 0x14 ∧ 0x16 ≤ slotAt s.exch.takePos := by
    unfold Config.numSlots at hn; unfold slotAt Config.slotBase Config.memBytes; omega
  unfold taken takeSlot
  dsimp only
  rw [read16_write16_other _ _ _ _ (.inr (by omega))]
  exact read16_write16_self _ 2 _ hm' ha.1

/-- A request that stays in hand, its slot's bytes left by the block. -/
theorem pends_of_slots {c : Instr} {s u v : State} {q : Request} {al : Allowed} {f : Nat → State → State} {rs : RunState}
    (e : exec c s = .next (requestCommand al f q s)) (h : Ready rs s) (hal : al.ok rs = true) (hrs : rs ≠ .initializing)
    (hf : f s.exch.takePos (taken q s) = v) (ho : Own (taken q s) v) (hk : SlotsKept (taken q s) v)
    (hv : inside v = inside (u.inHand q.tag).served) (hq : quietEnd v = true) : Pends c s u q.tag := by
  refine pends_of e h hal hrs hf ho hv hq ?_
  rw [(hk.trans (slots_finish s v hq)).read16 h.sound.limits.takePos]
  exact read16_taken q h.sound.mem h.sound.limits.takePos

/-! ### A handling that makes one dispatcher pass -/

/-- The state in which the pass that follows a handling begins. -/
def atPass (b v : State) : State := { endHandling b v with work := { (endHandling b v).work with pass := false } }

theorem afterWork_pass (n : Nat) {s : State} (hp : s.work.pass = true) : afterWork (n + 1) s
    = afterWork n (endHandling s (dispatcherPass { s with work := { s.work with pass := false } })) := by
  rw [afterWork, if_pos hp]

/-- A handling that asks for a pass: the pass is made once the handling has come to its end (log 11). -/
theorem finish_pass {b v w : State} (hp : (endHandling b v).work.pass = true) (hw : dispatcherPass (atPass b v) = w) :
    finish b v = { afterWork 4095 (endHandling (endHandling b v) w) with work := Work.none } := by
  have h := afterWork_pass 4095 hp
  unfold atPass at hw
  rw [hw] at h
  unfold finish
  rw [h]

/-- A pass after which nothing is left to do: what stands inside at the end is what the pass left. -/
theorem inside_finish_pass {b v w : State} (hp : (endHandling b v).work.pass = true) (hw : dispatcherPass (atPass b v) = w)
    (hq : quietEnd w = true) : inside (finish b v) = inside w ∧ HeaderKept w (finish b v) := by
  obtain ⟨h1, h2, -, -⟩ := quietEnd_iff.1 hq
  have hend := quietEnd_endHandling (endHandling b v) w hq
  rw [finish_pass hp hw]
  constructor
  · have hdone : calmDone (afterWork 4095 (endHandling (endHandling b v) w)) = calmDone w := by
      rw [calmDone_afterWork 4092 _ hend, calmDone_of_calm (calm_endHandling (endHandling b v) w h1 h2)]
    have hin := congrArg inside hdone
    rw [inside_calmDone, inside_calmDone] at hin
    generalize afterWork 4095 (endHandling (endHandling b v) w) = u at hin
    exact hin
  · have hafter := header_afterWork 4095 _ hend
    generalize afterWork 4095 (endHandling (endHandling b v) w) = u at hafter
    exact (header_endHandling (endHandling b v) w h1 h2).trans (hafter.trans (header_of_mem rfl rfl))

end Sys2Proof.SlotBytes
end

