-- ==== Sys2Proof/Proofs/PointOrders.lean ====
section
/-! Move orders: MOVE_POINT, and the pulse, window and travel timers (O37, O40, O41). -/

namespace Sys2Proof.PointOrders

open Sys2Proof.Machine Sys2Proof.ReportLog Sys2Proof.QuietHeader Sys2Proof.TrackDetection Sys2Proof.TrackRequests
  Sys2Proof.RouteRelease Sys2Proof.PointLies Sys2Proof.SlotBytes

/-! ### A lie derived afresh while an order is in hand -/

/-- A lie derived afresh, of a point that no route holds, changes inside the points' own states alone. -/
theorem body_rederive_any {s : State} {p : Nat} {r : PointRec} {st : PointState} (hr : Tbl.find s.pts.recs p = some r)
    (h : Tbl.find s.pts.state p = some st) (hh : (holdersOf s p).routes = []) :
    ∃ x w, SameTurn s.work w ∧ body (rederive p s) = body { s with pts := { s.pts with state := x }, work := w } ∧
      (s.exch.runState = .running →
        x = Tbl.insert s.pts.state p { st with lie := derivedLie s p r st, loss := none }) := by
  by_cases hrun : s.exch.runState = .running
  · obtain ⟨w, hw, hb⟩ := body_rederive_unheld hrun hr h hh
    exact ⟨_, w, hw, hb, fun _ => rfl⟩
  · unfold rederive
    rw [hr, h]
    dsimp only
    split
    · exact ⟨_, s.work, ⟨rfl, rfl⟩, (body_touchPoint_unheld h hh).trans rfl, fun e => absurd e hrun⟩
    · rw [setPoint_eq _ h, if_neg (by unfold State.running; simpa [withPoint] using hrun)]
      exact ⟨_, { s.work with lamps := true }, ⟨rfl, rfl⟩, rfl, fun e => absurd e hrun⟩

/-- The header is left by a lie derived afresh, of a point that no route holds. -/
theorem header_mirrorPoint (p : Nat) (s : State) : HeaderKept s (mirrorPoint p s) := by
  unfold mirrorPoint mirrorPointNow
  split
  · split
    · exact HeaderKept.refl s
    · exact header_writeWord Config.pointMirror 128 p _ s (by decide)
  · exact HeaderKept.refl s

theorem header_touchPoint (p : Nat) (s : State) : HeaderKept s (touchPoint p s) := (header_mirrorPoint p _).from rfl

theorem header_rederive_unheld {s : State} {p : Nat} (hh : (holdersOf s p).routes = []) : HeaderKept s (rederive p s) := by
  have changed (l : DetLie) (u : State) (hu : (holdersOf u p).routes = []) : HeaderKept u (lieChanged p l u) := by
    have htouch : (holdersOf (touchPoint p u) p).routes = [] := by
      have hilk : holdersOf (touchPoint p u) p = holdersOf u p := by unfold holdersOf; rw [ilk_touchPoint]
      rw [hilk]; exact hu
    have hreported (x : State) (hx : body x = body (touchPoint p u)) : (holdersOf x p).routes = [] := by
      rw [holders_of_body hx]; exact htouch
    have hend (x : State) (hx : body x = body (touchPoint p u)) (hk : HeaderKept u x) (b : Bool) :
        HeaderKept u (pointTested p (if b then wantReexam x else x)) := by
      cases b
      · rw [if_neg Bool.false_ne_true, pointTested_unheld (hreported x hx)]; exact hk
      · rw [if_pos rfl, pointTested_unheld (s := wantReexam x) (hreported x hx)]
        exact hk.trans (header_of_mem rfl rfl)
    unfold lieChanged
    dsimp only
    refine hend _ ?_ ?_ _
    · split_ifs
      · rfl
      · rw [pointLost_unheld (hreported (reportLost p l (touchPoint p u)) (body_report _ _ _ _ _))]; exact body_report _ _ _ _ _
      · exact body_report _ _ _ _ _
      · rfl
    · split_ifs
      · exact header_touchPoint p u
      · rw [pointLost_unheld (hreported (reportLost p l (touchPoint p u)) (body_report _ _ _ _ _))]
        exact (header_touchPoint p u).trans (header_report _ _ _ _ _)
      · exact (header_touchPoint p u).trans (header_report _ _ _ _ _)
      · exact header_touchPoint p u
  unfold rederive
  split
  · dsimp only
    split
    · exact header_touchPoint p s
    · split
      · exact (changed _ (setPoint p _ s) hh).from rfl
      · exact header_of_mem rfl rfl
  · exact HeaderKept.refl s

/-! ### Starting (R97, R99) -/

theorem orderOf_one {s : State} {o : Order} (h : s.pts.queue = [o]) : Machine.orderOf s o.point = some (o, false) := by
  unfold Machine.orderOf; rw [h]; simp

theorem changeOrder_one {s : State} {o : Order} (f : Order → Order) (h : s.pts.queue = [o]) :
    changeOrder o.point f s = setOrders [f o] s.pts.overflow s := by
  unfold changeOrder; rw [h]; simp

/-- A point whose order is a pulse is MOVING, whatever its contacts show (R90, R91). -/
theorem derivedLie_pulse {s : State} {p : Nat} {r : PointRec} {st : PointState} {x : Order} {b : Bool}
    (ho : Machine.orderOf s p = some (x, b)) (hx : x.phase = .pulse) (hst : st.failed = none) : derivedLie s p r st = .moving := by
  have hphase : orderPhase s p = some .pulse := by unfold orderPhase; rw [ho, ← hx]; rfl
  have hflight : pointInFlight s p = true := by unfold pointInFlight; rw [ho]; dsimp only; rw [hx]; rfl
  unfold derivedLie
  rw [hst, hphase, hflight]
  cases r.feedback <;> simp

/-- An order of a resting point that no route holds, alone in the queue and about to start. -/
structure Starting (s : State) (o : Order) (r : PointRec) (st : PointState) : Prop where
  running : s.exch.runState = .running
  queue : s.pts.queue = [o]
  overflow : s.pts.overflow = []
  fresh : o.phase = .queued ∧ o.startTime = none ∧ o.retried = false
  record : Tbl.find s.pts.recs o.point = some r
  state : Tbl.find s.pts.state o.point = some st
  unheld : (holdersOf s o.point).routes = []

/-- The machine with a pulse begun (R96, R97). -/
def pulsed (o : Order) (st : PointState) (s : State) : State :=
  withPoint o.point { st with lie := .moving, loss := none } { s with pts := { s.pts with
    coil := some (o.point, o.lie), pulseTimer := some s.pts.pulseTime, unit := .pulsing
    queue := [{ o with phase := .pulse, startTime := some s.clock }], overflow := [] } }

theorem startPulse_lone {s : State} {o : Order} {r : PointRec} {st : PointState} (h : Starting s o r st) (hst : st.failed = none)
    (htimer : o.timer = none) : (∃ w, SameTurn s.work w ∧ body (startPulse o.point o s) = body { pulsed o st s with work := w }) ∧
      (s.memOk → (startPulse o.point o s).read8 0x1E = 2) := by
  obtain ⟨hphase, hstart, hretried⟩ := h.fresh
  have horder : ({ o with
      phase := .pulse, startTime := some (o.startTime.getD s.clock), retried := o.retried || o.phase == .retry
      timer := none } : Order) = { o with phase := .pulse, startTime := some s.clock } := by
    rw [hstart, hretried, hphase, htimer]; rfl
  generalize hu : setUnit .pulsing { s with pts := { s.pts with
    coil := some (o.point, o.lie), pulseTimer := some s.pts.pulseTime } } = u
  have hub : body u = body { s with pts := { s.pts with
      coil := some (o.point, o.lie), pulseTimer := some s.pts.pulseTime, unit := .pulsing } } := by
    rw [← hu]; exact body_setUnit _ _
  have hread {α : Type} (g : State → α) (hg : ∀ y, g y = g (body y)) := read_of_body g hg hub
  have huq : u.pts.queue = [o] := (hread (fun y => y.pts.queue) fun _ => rfl).trans h.queue
  have hwork : u.work = s.work := hread (fun y => y.work) fun _ => rfl
  have hclock : u.clock = s.clock := hread (fun y => y.clock) fun _ => rfl
  have hov : u.pts.overflow = [] := (hread (fun y => y.pts.overflow) fun _ => rfl).trans h.overflow
  have heq : startPulse o.point o s
      = rederive o.point (setOrders [{ o with phase := .pulse, startTime := some s.clock }] [] u) := by
    unfold startPulse
    dsimp only
    rw [hu, changeOrder_one _ huq, hclock, horder, hov]
  have hheld : (holdersOf (setOrders [{ o with phase := .pulse, startTime := some s.clock }] [] u) o.point).routes = [] := by
    refine .trans ?_ h.unheld
    exact congrArg Holders.routes (hread (fun y => holdersOf y o.point) fun _ => rfl)
  constructor
  · obtain ⟨w, hw, hb⟩ := body_rederive_unheld (p := o.point) (r := r) (st := st)
      (s := setOrders [{ o with phase := .pulse, startTime := some s.clock }] [] u)
      ((hread (fun y => y.exch.runState) fun _ => rfl).trans h.running)
      ((hread (fun y => Tbl.find y.pts.recs o.point) fun _ => rfl).trans h.record)
      ((hread (fun y => Tbl.find y.pts.state o.point) fun _ => rfl).trans h.state) hheld
    rw [derivedLie_pulse (orderOf_one (o := { o with phase := .pulse, startTime := some s.clock }) rfl) rfl hst] at hb
    refine ⟨w, ⟨hw.step.trans (congrArg Work.step hwork), hw.pass.trans (congrArg Work.pass hwork)⟩, ?_⟩
    rw [heq, hb]
    exact body_update (fun y => { withPoint o.point { st with lie := .moving, loss := none }
      (setOrders [{ o with phase := .pulse, startTime := some s.clock }] [] y) with work := w }) (fun _ => rfl) hub
  · intro hm
    rw [heq, (header_rederive_unheld hheld).read8 (by decide) (by decide)]
    rw [← hu]
    exact read8_setUnit .pulsing (s := { s with pts := { s.pts with
      coil := some (o.point, o.lie), pulseTimer := some s.pts.pulseTime } }) hm

/-- The machine with a slow motor driven (R99), and the points' own states. -/
def driven (o : Order) (r : PointRec) (x : Tbl PointState) (s : State) : State :=
  { s with pts := { s.pts with
    state := x, drives := Tbl.insert s.pts.drives o.point o.lie, overflow := []
    queue := [{ o with phase := .travel, startTime := some s.clock, timer := some r.travel }] } }

theorem startTravel_lone {s : State} {o : Order} {r : PointRec} {st : PointState} (h : Starting s o r st) :
    ∃ x w, SameTurn s.work w ∧ body (startTravel o.point o r s) = body { driven o r x s with work := w } := by
  obtain ⟨hphase, hstart, hretried⟩ := h.fresh
  have heq : startTravel o.point o r s = rederive o.point { s with pts := { s.pts with
      drives := Tbl.insert s.pts.drives o.point o.lie, overflow := []
      queue := [{ o with phase := .travel, startTime := some s.clock, timer := some r.travel }] } } := by
    unfold startTravel
    dsimp only
    rw [changeOrder_one _ (s := { s with pts := { s.pts with drives := Tbl.insert s.pts.drives o.point o.lie } }) h.queue, hstart,
      h.overflow]
    rfl
  obtain ⟨x, w, hw, hb, -⟩ := body_rederive_any (p := o.point) (r := r) (st := st) (s := { s with pts := { s.pts with
    drives := Tbl.insert s.pts.drives o.point o.lie, overflow := []
    queue := [{ o with phase := .travel, startTime := some s.clock, timer := some r.travel }] } }) h.record h.state h.unheld
  exact ⟨x, w, hw, by rw [heq, hb]; rfl⟩

/-! ### MOVE_POINT (R101) -/

theorem moveRefusal_taken (p lie : Nat) (q : Request) (s : State) : moveRefusal p lie (taken q s) = moveRefusal p lie s :=
  read_taken (fun u => moveRefusal p lie u) q s fun _ => rfl

theorem lieOf_code (l : Lie) : lieOf l.code = some l := by cases l <;> rfl

theorem lieOf_none {n : Nat} (h1 : n ≠ 1) (h2 : n ≠ 2) : lieOf n = none := by unfold lieOf; split <;> simp_all

/-- The checks of MOVE_POINT from the third on, for a loaded point and a lie. -/
theorem moveRefusal_loaded {s : State} {p lie : Nat} {r : PointRec} {st : PointState} {l : Lie} (hp : p < 128)
    (hr : Tbl.find s.pts.recs p = some r) (hst : Tbl.find s.pts.state p = some st) (hl : lie = l.code) :
    moveRefusal p lie s = if st.lie = .failed then some ⟨.pointFailed, p, 0⟩
      else match (holdersOf s p).routes with
        | h :: _ => some ⟨.pointLocked, p, h⟩
        | [] =>
          match Machine.orderOf s p with
          | some (o, _) => some ⟨.pointBusy, p, o.origin.packed⟩
          | none => if secState s r.sec = .clear then none else some ⟨.pointOccupied, p, (secState s r.sec).code⟩ := by
  unfold moveRefusal
  rw [if_pos hp, hr, hl, lieOf_code, detLie_of_find hst]
  dsimp only
  by_cases hf : st.lie = .failed
  · exact (if_pos (by rw [hf]; rfl)).trans (if_pos hf).symm
  · refine (if_neg (by simpa using hf)).trans (.trans ?_ (if_neg hf).symm)
    cases (holdersOf s p).routes with
    | cons h more => rfl
    | nil =>
      cases Machine.orderOf s p with
      | some o => rfl
      | none => exact if_congr (by unfold secClear; simp) rfl rfl

theorem packed_route {e : Nat} (h : e < 256) : (OrderOrigin.route e).packed = 1 + 256 * e := by
  unfold OrderOrigin.packed fld OrderOrigin.fields; dsimp only; omega

theorem packed_slot {n : Nat} (h : n < 256) : (OrderOrigin.slot n).packed = 2 + 256 * n := by
  unfold OrderOrigin.packed fld OrderOrigin.fields; dsimp only; omega

/-- The one order of a point, in the queue or on the overflow list. -/
theorem orderOf_unique {s : State} {x : Order} {p : Nat} (hx : x ∈ s.pts.queue ++ s.pts.overflow) (hp : x.point = p)
    (hone : ∀ y ∈ s.pts.queue ++ s.pts.overflow, y.point = p → y = x) : ∃ b, Machine.orderOf s p = some (x, b) := by
  unfold Machine.orderOf
  cases hq : s.pts.queue.find? (fun o => o.point == p) with
  | some y =>
    have hy : y = x := hone y (List.mem_append_left _ (List.mem_of_find?_eq_some hq)) (by simpa using List.find?_some hq)
    exact ⟨false, by rw [hy]⟩
  | none =>
    cases ho : s.pts.overflow.find? (fun o => o.point == p) with
    | some y =>
      have hy : y = x := hone y (List.mem_append_right _ (List.mem_of_find?_eq_some ho)) (by simpa using List.find?_some ho)
      exact ⟨true, by rw [hy]⟩
    | none =>
      obtain hm | hm := List.mem_append.1 hx
      · exact absurd hp (by simpa using List.find?_eq_none.1 hq x hm)
      · exact absurd hp (by simpa using List.find?_eq_none.1 ho x hm)

/-- A request that is answered with nothing else done, where nothing is asked for. -/
theorem replies_unchanged {c : Instr} {s : State} {q : Request} {r : Result} {w0 w1 : Nat} {al : Allowed}
    {f : Nat → State → State} {rs : RunState} (e : exec c s = .next (requestCommand al f q s)) (h : Ready rs s)
    (hal : al.ok rs = true) (hrs : rs ≠ .initializing)
    (hf : f s.exch.takePos (taken q s) = complete s.exch.takePos r w0 w1 (taken q s)) (hw : s.work = Work.none)
    (hv : s.vis.queue = []) : Replies c s s q.tag r w0 w1 := by
  refine replies_of e h hal hrs hf (Own.refl _) (inside_taken q s) ⟨rfl, rfl⟩ ?_
  rw [quietEnd_taken]
  exact quietEnd_of_none s hw hv

/-- MOVE_POINT refused: its answer, and nothing done. -/
theorem movePoint_refused {s : State} {p lie : Nat} {a : Answer} (q : Request) (k : Nat) (h : moveRefusal p lie s = some a) :
    movePoint k p lie (taken q s) = complete k a.result a.w0 a.w1 (taken q s) := by
  unfold movePoint
  rw [moveRefusal_taken, h]

/-- What MOVE_POINT finds where its checks pass: a resting point of a CLEAR section that no route holds, in another lie. -/
structure Movable (s : State) (p lie : Nat) (r : PointRec) (st : PointState) (l : Lie) : Prop where
  number : p < 128
  record : Tbl.find s.pts.recs p = some r
  state : Tbl.find s.pts.state p = some st
  lieCode : lie = l.code
  intact : st.lie ≠ .failed
  unheld : (holdersOf s p).routes = []
  clear : secState s r.sec = .clear

theorem moveRefusal_movable {s : State} {p lie : Nat} {r : PointRec} {st : PointState} {l : Lie} (h : Movable s p lie r st l)
    (hq : AtRest s) : moveRefusal p lie s = none := by
  rw [moveRefusal_loaded h.number h.record h.state h.lieCode, if_neg h.intact, h.unheld, orderOf_none hq.orders hq.overflow]
  exact if_pos h.clear

/-- The order given (R94, R101). -/
theorem movePoint_ordered {s : State} {p lie : Nat} {r : PointRec} {st : PointState} {l : Lie} (h : Movable s p lie r st l)
    (hq : AtRest s) (hne : st.lie ≠ l.det) (q : Request) (k : Nat) :
    movePoint k p lie (taken q s) = giveOrder (queuedOrder p l (.slot k)) (taken q s) := by
  have hlie : detLie (taken q s) p = st.lie := (read_taken (fun u => detLie u p) q s fun _ => rfl).trans (detLie_of_find h.state)
  unfold movePoint
  rw [moveRefusal_taken, moveRefusal_movable h hq, h.lieCode, lieOf_code, hlie]
  exact if_neg (by simpa using hne)

/-- The machine with an order given to a resting point. -/
def ordered (o : Order) (st : PointState) (s : State) : State :=
  withPoint o.point { st with loss := none } { s with pts := { s.pts with queue := [o] } }

theorem body_giveOrder {s : State} {o : Order} {st : PointState} (hq : s.pts.queue = [])
    (hst : Tbl.find s.pts.state o.point = some st) (hh : (holdersOf s o.point).routes = []) :
    body (giveOrder o s) = body { ordered o st s with work := { s.work with pass := true } } := by
  unfold giveOrder
  rw [if_pos (by rw [hq]; decide), hq]
  rw [body_touchPoint_unheld (s := wantPass (setOrders ([] ++ [o]) s.pts.overflow s)) hst hh]
  rfl

/-- A MOVE_POINT that is ordered, as its handling leaves it. -/
structure OrderGiven (s v : State) (q : Request) (o : Order) (st : PointState) : Prop where
  own : Own (taken q s) v
  slots : SlotsKept (taken q s) v
  body : Machine.body v = Machine.body { ordered o st (taken q s) with work := { (taken q s).work with pass := true } }

theorem slots_giveOrder (o : Order) (s : State) : SlotsKept s (giveOrder o s) := by
  unfold giveOrder touchPoint
  split
  · exact (slots_mirrorPoint _ _).from rfl
  · exact (slots_mirrorPoint _ _).from rfl

theorem orderGiven_of {s : State} {q : Request} {o : Order} {st : PointState} (hq : AtRest s)
    (hst : Tbl.find s.pts.state o.point = some st) (hh : (holdersOf s o.point).routes = []) :
    OrderGiven s (giveOrder o (taken q s)) q o st where
  own := own_giveOrder o _ (own_refl _)
  slots := slots_giveOrder o _
  body := body_giveOrder ((read_taken (fun u => u.pts.queue) q s fun _ => rfl).trans hq.orders)
    ((read_taken (fun u => Tbl.find u.pts.state o.point) q s fun _ => rfl).trans hst)
    ((read_taken (fun u => (holdersOf u o.point).routes) q s fun _ => rfl).trans hh)

/-- A reading of what stands inside, but for the slot's mark, the take position and the latch's pairing. -/
theorem OrderGiven.read {s v : State} {q : Request} {o : Order} {st : PointState} (h : OrderGiven s v q o st) {α : Type}
    (g : State → α) (hg : ∀ u, g u = g (inside u))
    (ht : ∀ m, g (ordered o st (((s.inHand q.tag).served).withMem m)) = g (ordered o st s)) : g v = g (ordered o st s) := by
  have hi : inside v = inside (ordered o st (taken q s)) := inside_of_body_work h.body
  rw [hg v, hi, ← hg, taken_shape]
  exact ht _

theorem OrderGiven.mark {s v : State} {q : Request} {o : Order} {st : PointState} (h : OrderGiven s v q o st) :
    Tbl.find v.exch.inHand s.exch.takePos = some q.tag := by
  have hm : v.exch.inHand = (taken q s).exch.inHand := (read_of_body (fun u => u.exch.inHand) (fun _ => rfl) h.body).trans rfl
  rw [hm, taken_mark]; exact Tbl.find_insert_self _ _ _

theorem OrderGiven.work {s v : State} {q : Request} {o : Order} {st : PointState} (h : OrderGiven s v q o st) (hq : AtRest s) :
    v.work = { Work.none with pass := true } := by
  rw [work_of_body h.body]
  change ({ (taken q s).work with pass := true } : Work) = _
  rw [work_taken, hq.work]

theorem OrderGiven.shows {s v : State} {q : Request} {o : Order} {st : PointState} (h : OrderGiven s v q o st) (hq : AtRest s) :
    v.vis.queue = [] := (h.read (fun u => u.vis.queue) (fun _ => rfl) fun _ => rfl).trans hq.shows

/-- Nothing is left to do where the dispatcher leaves the order that was given. -/
theorem OrderGiven.quiet {s v : State} {q : Request} {o : Order} {st : PointState} (h : OrderGiven s v q o st) (hq : AtRest s)
    (hi : dispatchIdle (ordered o st s) = true) : quietEnd v = true := by
  have hw := h.work hq
  refine quietEnd_iff.2 ⟨by rw [hw]; rfl, ?_, fun _ => ?_, fun hr => ?_⟩
  · unfold noHead; rw [h.shows hq]; rfl
  · exact (h.read (fun u => dispatchIdle u) (fun _ => rfl) fun _ => rfl).trans hi
  · rw [hw] at hr; cases hr

/-- The pass that follows an order given begins in what the handling left. -/
theorem OrderGiven.atPass {s v : State} {q : Request} {o : Order} {st : PointState} (h : OrderGiven s v q o st) (hq : AtRest s) :
    (endHandling s v).work.pass = true ∧ inside (atPass s v) = inside v ∧ (atPass s v).work.step = none ∧
      (atPass s v).work.pass = false := by
  have hw := h.work hq
  have hcalm := calm_endHandling s v (by rw [hw]; rfl) (by unfold noHead; rw [h.shows hq]; rfl)
  have hwork : (endHandling s v).work.pass = v.work.pass ∧ (endHandling s v).work.step = v.work.step := by
    have g1 := congrArg (fun u : State => u.work.pass) hcalm
    have g2 := congrArg (fun u : State => u.work.step) hcalm
    exact ⟨g1, g2⟩
  refine ⟨by rw [hwork.1, hw], ?_, ?_, rfl⟩
  · have g := inside_of_calm hcalm
    exact g
  · exact hwork.2.trans (by rw [hw]; rfl)

theorem OrderGiven.readPass {s v : State} {q : Request} {o : Order} {st : PointState} (h : OrderGiven s v q o st) (hq : AtRest s)
    {α : Type} (g : State → α) (hg : ∀ u, g u = g (inside u))
    (ht : ∀ m, g (ordered o st (((s.inHand q.tag).served).withMem m)) = g (ordered o st s)) :
    g (SlotBytes.atPass s v) = g (ordered o st s) := by
  rw [hg, (h.atPass hq).2.1, ← hg]; exact h.read g hg ht

/-- The order that the pass finds, about to start. -/
theorem OrderGiven.starting {s v : State} {q : Request} {p lie k : Nat} {r : PointRec} {st : PointState} {l : Lie}
    (h : OrderGiven s v q (queuedOrder p l (.slot k)) st) (hq : AtRest s) (hm : Movable s p lie r st l)
    (hrun : s.exch.runState = .running) :
    Starting (SlotBytes.atPass s v) (queuedOrder p l (.slot k)) r { st with loss := none } where
  running := (h.readPass hq (fun u => u.exch.runState) (fun _ => rfl) fun _ => rfl).trans hrun
  queue := h.readPass hq (fun u => u.pts.queue) (fun _ => rfl) fun _ => rfl
  overflow := (h.readPass hq (fun u => u.pts.overflow) (fun _ => rfl) fun _ => rfl).trans hq.overflow
  fresh := ⟨rfl, rfl, rfl⟩
  record := (h.readPass hq (fun u => Tbl.find u.pts.recs p) (fun _ => rfl) fun _ => rfl).trans hm.record
  state := (h.readPass hq (fun u => Tbl.find u.pts.state p) (fun _ => rfl) fun _ => rfl).trans (Tbl.find_insert_self _ _ _)
  unheld := (h.readPass hq (fun u => (holdersOf u p).routes) (fun _ => rfl) fun _ => rfl).trans hm.unheld

/-- The pass reaches the order (R95). -/
theorem OrderGiven.dispatched {s v : State} {q : Request} {p lie k : Nat} {r : PointRec} {st : PointState} {l : Lie}
    (h : OrderGiven s v q (queuedOrder p l (.slot k)) st) (hq : AtRest s) (hm : Movable s p lie r st l) (hne : st.lie ≠ l.det)
    (hc : s.asp.cond = .running) : dispatcherPass (SlotBytes.atPass s v) = match r.motor with
      | .solenoid => if s.pts.unit = .ready then startPulse p (queuedOrder p l (.slot k)) (SlotBytes.atPass s v)
        else SlotBytes.atPass s v
      | .slow => if 0 < s.pts.slowLimit then startTravel p (queuedOrder p l (.slot k)) r (SlotBytes.atPass s v)
        else SlotBytes.atPass s v := by
  have hqueue : (SlotBytes.atPass s v).pts.queue = [queuedOrder p l (.slot k)] :=
    h.readPass hq (fun u => u.pts.queue) (fun _ => rfl) fun _ => rfl
  have hrec : Tbl.find (SlotBytes.atPass s v).pts.recs p = some r :=
    (h.readPass hq (fun u => Tbl.find u.pts.recs p) (fun _ => rfl) fun _ => rfl).trans hm.record
  have hlie : detLie (SlotBytes.atPass s v) p = st.lie :=
    (h.readPass hq (fun u => detLie u p) (fun _ => rfl) fun _ => rfl).trans
      ((detLie_of_find (s := ordered (queuedOrder p l (.slot k)) st s) (Tbl.find_insert_self _ _ _)).trans rfl)
  have hclear : secClear (SlotBytes.atPass s v) r.sec = true :=
    (h.readPass hq (fun u => secClear u r.sec) (fun _ => rfl) fun _ => rfl).trans
      (by unfold secClear; change (secState s r.sec == .clear) = true; rw [hm.clear]; rfl)
  have hcond : (SlotBytes.atPass s v).asp.cond = .running :=
    (h.readPass hq (fun u => u.asp.cond) (fun _ => rfl) fun _ => rfl).trans hc
  have hunit : (SlotBytes.atPass s v).pts.unit = s.pts.unit := h.readPass hq (fun u => u.pts.unit) (fun _ => rfl) fun _ => rfl
  have hslow : (SlotBytes.atPass s v).pts.slowLimit = s.pts.slowLimit :=
    h.readPass hq (fun u => u.pts.slowLimit) (fun _ => rfl) fun _ => rfl
  have htravel : travelling (SlotBytes.atPass s v) = 0 := by unfold travelling; rw [hqueue]; rfl
  have hone : dispatchOne p (SlotBytes.atPass s v) = dispatchQueued p (queuedOrder p l (.slot k)) r (SlotBytes.atPass s v) := by
    unfold dispatchOne
    rw [hqueue, hrec]
    have hfind : ([queuedOrder p l (.slot k)] : List Order).find? (fun o => o.point == p) = some (queuedOrder p l (.slot k)) := by
      simp [queuedOrder]
    rw [hfind]
    exact if_neg (by rw [hcond]; decide)
  unfold dispatcherPass
  rw [hqueue]
  change dispatchOne p (SlotBytes.atPass s v) = _
  rw [hone]
  unfold dispatchQueued
  rw [hlie, if_neg (by simpa [queuedOrder] using hne), hclear]
  refine (if_neg (by decide)).trans ?_
  cases r.motor with
  | solenoid => dsimp only; rw [hunit]
  | slow => dsimp only; rw [htravel, hslow]

/-- What a start leaves inside has nothing more to do. -/
theorem quietEnd_started {s v w u : State} {q : Request} {o : Order} {st : PointState} {w' : Work} (h : OrderGiven s v q o st)
    (hq : AtRest s) (hsame : SameTurn (SlotBytes.atPass s v).work w') (hb : Machine.body w = Machine.body { u with work := w' })
    (hshows : u.vis.queue = (SlotBytes.atPass s v).vis.queue) (hstack : u.ilk.stack = (SlotBytes.atPass s v).ilk.stack) :
    quietEnd w = true := by
  obtain ⟨-, -, hstep, hpass⟩ := h.atPass hq
  have hwork : w.work = w' := work_of_body hb
  refine quietEnd_iff.2 ⟨by rw [hwork, hsame.step, hstep], ?_, fun hp => ?_, fun _ => ?_⟩
  · have hs : w.vis.queue = [] := (read_of_body (fun x => x.vis.queue) (fun _ => rfl) hb).trans
      (hshows.trans ((h.readPass hq (fun x => x.vis.queue) (fun _ => rfl) fun _ => rfl).trans hq.shows))
    unfold noHead; rw [hs]; rfl
  · rw [hwork, hsame.pass, hpass] at hp; cases hp
  · exact (read_of_body (fun x => x.ilk.stack) (fun _ => rfl) hb).trans
      (hstack.trans ((h.readPass hq (fun x => x.ilk.stack) (fun _ => rfl) fun _ => rfl).trans hq.stack))

/-- A MOVE_POINT whose order starts at once: what stands at its end is what the pass has made, with the slot still in hand. -/
theorem movePoint_started {s v w u : State} {tag : HostTag} {point lie : Word} {st : PointState} {l : Lie}
    {w' : Work} (hready : Ready .running s)
    (hblock : movePoint s.exch.takePos point.toNat lie.toNat (taken ⟨17, tag, point, lie, 0#32⟩ s) = v)
    (h : OrderGiven s v ⟨17, tag, point, lie, 0#32⟩ (queuedOrder point.toNat l (.slot s.exch.takePos)) st) (hq : AtRest s)
    (hpass : dispatcherPass (SlotBytes.atPass s v) = w) (hsame : SameTurn (SlotBytes.atPass s v).work w')
    (hb : Machine.body w = Machine.body { u with work := w' }) (hshows : u.vis.queue = (SlotBytes.atPass s v).vis.queue)
    (hstack : u.ilk.stack = (SlotBytes.atPass s v).ilk.stack) (hmarks : u.exch.inHand = (SlotBytes.atPass s v).exch.inHand) :
    ∃ t, exec (.movePoint tag point lie) s = .next t ∧ inside t = inside u ∧ HeaderKept w t ∧
      Tbl.find t.exch.inHand s.exch.takePos = some tag := by
  obtain ⟨hp, hin, -, -⟩ := h.atPass hq
  obtain ⟨hi, hh⟩ := inside_finish_pass hp hpass (quietEnd_started h hq hsame hb hshows hstack)
  have hiu : inside (finish s v) = inside u := hi.trans (inside_of_body_work hb)
  have hexec : exec (.movePoint tag point lie) s
      = .next (requestCommand .running (fun n => movePoint n point.toNat lie.toNat) ⟨17, tag, point, lie, 0#32⟩ s) := rfl
  refine ⟨finish s v, ?_, hiu, hh, ?_⟩
  · rw [hexec, request_next hready rfl (by decide), hblock]
  · have hhand : (finish s v).exch.inHand = v.exch.inHand := by
      have g1 := congrArg (fun x : State => x.exch.inHand) hiu
      have g2 := congrArg (fun x : State => x.exch.inHand) hin
      exact Eq.trans g1 (hmarks.trans g2)
    rw [hhand]
    exact h.mark

section
variable {s : State} {tag : HostTag} {point lie : Word} {r : PointRec} {st : PointState} {l : Lie}

/-- A refusal of MOVE_POINT is its answer. -/
theorem movePoint_replies {a : Answer} (h : Ready .running s) (hw : s.work = Work.none) (hv : s.vis.queue = [])
    (ha : moveRefusal point.toNat lie.toNat s = some a) : Replies (.movePoint tag point lie) s s tag a.result a.w0 a.w1 :=
  replies_unchanged (q := ⟨17, tag, point, lie, 0#32⟩) (f := fun n => movePoint n point.toNat lie.toNat) rfl h rfl (by decide)
    (movePoint_refused _ _ ha) hw hv

theorem moveRefusal_bad (hbad : 128 ≤ point.toNat ∨ Tbl.find s.pts.recs point.toNat = none ∨ lie.toNat ≠ 1 ∧ lie.toNat ≠ 2) :
    moveRefusal point.toNat lie.toNat s = some ⟨.badArgument, point.toNat, 0⟩ := by
  have hnone : (if point.toNat < 128 then Tbl.find s.pts.recs point.toNat else none) = none ∨ lieOf lie.toNat = none := by
    obtain hbig | hnone | ⟨h1, h2⟩ := hbad
    · exact .inl (if_neg (by omega))
    · refine .inl ?_
      split
      · exact hnone
      · rfl
    · exact .inr (lieOf_none h1 h2)
  unfold moveRefusal
  obtain hnone | hnone := hnone
  · rw [hnone]
  · rw [hnone]; cases (if point.toNat < 128 then Tbl.find s.pts.recs point.toNat else none) <;> rfl

theorem movePoint_there (h : Ready .running s) (hq : AtRest s) (hm : Movable s point.toNat lie.toNat r st l)
    (hthere : st.lie = l.det) : Replies (.movePoint tag point lie) s s tag .ok point.toNat 0 := by
  refine replies_same (q := ⟨17, tag, point, lie, 0#32⟩) (f := fun n => movePoint n point.toNat lie.toNat) rfl h rfl (by decide) ?_ hq
  have hlie : detLie (taken ⟨17, tag, point, lie, 0#32⟩ s) point.toNat = st.lie :=
    (read_taken (fun u => detLie u point.toNat) _ s fun _ => rfl).trans (detLie_of_find hm.state)
  unfold movePoint
  rw [moveRefusal_taken, moveRefusal_movable hm hq, hm.lieCode, lieOf_code, hlie, hthere]
  exact if_pos (by simp)

theorem givenOrder (hq : AtRest s) (hm : Movable s point.toNat lie.toNat r st l) :
    OrderGiven s (giveOrder (queuedOrder point.toNat l (.slot s.exch.takePos)) (taken ⟨17, tag, point, lie, 0#32⟩ s)) ⟨17, tag, point, lie, 0#32⟩
      (queuedOrder point.toNat l (.slot s.exch.takePos)) st := orderGiven_of hq hm.state hm.unheld

/-- A solenoid whose unit is not READY waits. -/
theorem movePoint_waits (h : Ready .running s) (hq : AtRest s) (hm : Movable s point.toNat lie.toNat r st l) (hne : st.lie ≠ l.det)
    (hmotor : r.motor = .solenoid) (hunit : s.pts.unit ≠ .ready) :
    ∃ x, (∀ k, (Tbl.find x k).map PointState.lie = (Tbl.find s.pts.state k).map PointState.lie) ∧
      Pends (.movePoint tag point lie) s { s with pts := { s.pts with
        queue := [queuedOrder point.toNat l (.slot s.exch.takePos)], state := x } } tag := by
  have hgiven := givenOrder (tag := tag) hq hm
  have hstays : staysQueued (ordered (queuedOrder point.toNat l (.slot s.exch.takePos)) st s) (queuedOrder point.toNat l (.slot s.exch.takePos)) = true := by
    have hlie : detLie (ordered (queuedOrder point.toNat l (.slot s.exch.takePos)) st s) point.toNat = st.lie :=
      (detLie_of_find (st := { st with loss := none }) (Tbl.find_insert_self _ _ _)).trans rfl
    have hrec : Tbl.find (ordered (queuedOrder point.toNat l (.slot s.exch.takePos)) st s).pts.recs point.toNat = some r := hm.record
    have hsec : secClear (ordered (queuedOrder point.toNat l (.slot s.exch.takePos)) st s) r.sec = true := by
      unfold secClear; change (secState s r.sec == .clear) = true; rw [hm.clear]; rfl
    have hdet : (st.lie != l.det) = true := by simpa using hne
    unfold staysQueued
    change (match Tbl.find (ordered (queuedOrder point.toNat l (.slot s.exch.takePos)) st s).pts.recs point.toNat with
      | none => true
      | some r => (ordered (queuedOrder point.toNat l (.slot s.exch.takePos)) st s).asp.cond == .allStop
        || (detLie (ordered (queuedOrder point.toNat l (.slot s.exch.takePos)) st s) point.toNat != l.det
          && (if !secClear (ordered (queuedOrder point.toNat l (.slot s.exch.takePos)) st s) r.sec then false
              else match r.motor with
                | .solenoid => (ordered (queuedOrder point.toNat l (.slot s.exch.takePos)) st s).pts.unit != .ready
                | .slow => decide ((ordered (queuedOrder point.toNat l (.slot s.exch.takePos)) st s).pts.slowLimit
                    ≤ travelling (ordered (queuedOrder point.toNat l (.slot s.exch.takePos)) st s))))) = true
    rw [hrec]
    dsimp only
    rw [hlie, hsec, hmotor, hdet, Bool.true_and, Bool.or_eq_true]
    refine .inr ((if_neg (by decide)).trans ?_)
    change (s.pts.unit != .ready) = true
    simpa using hunit
  refine ⟨Tbl.insert s.pts.state point.toNat { st with loss := none }, fun k => ?_, ?_⟩
  · by_cases hk : k = point.toNat
    · rw [hk, Tbl.find_insert_self, hm.state]; rfl
    · rw [Tbl.find_insert_other _ _ _ _ hk]
  · refine pends_of_slots (q := ⟨17, tag, point, lie, 0#32⟩) (f := fun n => movePoint n point.toNat lie.toNat) rfl h rfl (by decide)
      (movePoint_ordered hm hq hne _ _) hgiven.own hgiven.slots ?_ (hgiven.quiet hq ?_)
    · rw [inside_of_body_work hgiven.body, taken_shape]
      rfl
    · refine List.all_eq_true.2 fun y hy => ?_
      obtain rfl := List.mem_singleton.1 hy
      exact hstays

/-- A solenoid whose unit is READY is pulsed at once. -/
theorem movePoint_pulses (h : Ready .running s) (hq : AtRest s) (hm : Movable s point.toNat lie.toNat r st l) (hne : st.lie ≠ l.det)
    (hmotor : r.motor = .solenoid) (hunit : s.pts.unit = .ready) (hc : s.asp.cond = .running) (hfail : st.failed = none) :
    ∃ t, exec (.movePoint tag point lie) s = .next t ∧ detLie t point.toNat = .moving ∧
      t.pts.queue = [{ queuedOrder point.toNat l (.slot s.exch.takePos) with phase := .pulse, startTime := some s.clock }] ∧
      t.pts.coil = some (point.toNat, l) ∧ t.pts.pulseTimer = some s.pts.pulseTime ∧ t.pts.unit = .pulsing ∧
      t.read8 0x1E = 2 ∧ Tbl.find t.exch.inHand s.exch.takePos = some tag := by
  have hgiven := givenOrder (tag := tag) hq hm
  have hdisp := hgiven.dispatched hq hm hne hc
  rw [hmotor] at hdisp
  replace hdisp := hdisp.trans (if_pos hunit)
  generalize hv : giveOrder (queuedOrder point.toNat l (.slot s.exch.takePos)) (taken ⟨17, tag, point, lie, 0#32⟩ s) = v at hgiven hdisp
  obtain ⟨⟨w, hw, hb⟩, hheader⟩ := startPulse_lone (hgiven.starting hq hm h.state) hfail rfl
  obtain ⟨t, ht, hi, hkeep, hmark⟩ := movePoint_started h ((movePoint_ordered hm hq hne _ _).trans hv) hgiven hq hdisp hw hb
    rfl rfl rfl
  have hclock := hgiven.readPass hq (fun u => u.clock) (fun _ => rfl) fun _ => rfl
  have hpulse := hgiven.readPass hq (fun u => u.pts.pulseTime) (fun _ => rfl) fun _ => rfl
  have hmem : (SlotBytes.atPass s v).memOk :=
    (own_work (own_endHandling _ _ hgiven.own) _).mem (mem_taken _ _ h.sound.mem)
  have hbyte : t.read8 0x1E = 2 := (hkeep.read8 (by decide) (by decide)).trans (hheader hmem)
  generalize SlotBytes.atPass s v = y at hi hclock hpulse
  have hread {α : Type} (g : State → α) (hg : ∀ y, g y = g (inside y)) :
      g t = g (pulsed (queuedOrder point.toNat l (.slot s.exch.takePos)) { st with loss := none } y) :=
    (hg t).trans ((congrArg g hi).trans (hg _).symm)
  refine ⟨t, ht, ?_, ?_, ?_, ?_, ?_, hbyte, hmark⟩
  · refine (hread (fun y => detLie y point.toNat) fun _ => rfl).trans ?_
    exact (detLie_of_find (st := { st with lie := .moving, loss := none }) (Tbl.find_insert_self _ _ _)).trans rfl
  · refine (hread (fun y => y.pts.queue) fun _ => rfl).trans ?_
    change [({ queuedOrder point.toNat l (.slot s.exch.takePos) with phase := .pulse, startTime := some y.clock } : Order)] = _
    rw [hclock]
    rfl
  · exact hread (fun y => y.pts.coil) fun _ => rfl
  · exact (hread (fun y => y.pts.pulseTimer) fun _ => rfl).trans (congrArg some hpulse)
  · exact hread (fun y => y.pts.unit) fun _ => rfl

/-- A slow motor is driven at once where one more may travel. -/
theorem movePoint_travels (h : Ready .running s) (hq : AtRest s) (hm : Movable s point.toNat lie.toNat r st l) (hne : st.lie ≠ l.det)
    (hmotor : r.motor = .slow) (hslow : 0 < s.pts.slowLimit) (hc : s.asp.cond = .running) :
    ∃ t, exec (.movePoint tag point lie) s = .next t ∧
      t.pts.queue = [{ queuedOrder point.toNat l (.slot s.exch.takePos) with phase := .travel, startTime := some s.clock, timer := some r.travel }] ∧
      Tbl.find t.pts.drives point.toNat = some l ∧ t.pts.unit = s.pts.unit ∧
      Tbl.find t.exch.inHand s.exch.takePos = some tag := by
  have hgiven := givenOrder (tag := tag) hq hm
  have hdisp := hgiven.dispatched hq hm hne hc
  rw [hmotor] at hdisp
  replace hdisp := hdisp.trans (if_pos hslow)
  generalize hv : giveOrder (queuedOrder point.toNat l (.slot s.exch.takePos)) (taken ⟨17, tag, point, lie, 0#32⟩ s) = v at hgiven hdisp
  obtain ⟨x, w, hw, hb⟩ := startTravel_lone (hgiven.starting hq hm h.state)
  obtain ⟨t, ht, hi, -, hmark⟩ := movePoint_started h ((movePoint_ordered hm hq hne _ _).trans hv) hgiven hq hdisp hw hb
    rfl rfl rfl
  have hclock := hgiven.readPass hq (fun u => u.clock) (fun _ => rfl) fun _ => rfl
  have hunit := hgiven.readPass hq (fun u => u.pts.unit) (fun _ => rfl) fun _ => rfl
  generalize SlotBytes.atPass s v = y at hi hclock hunit
  have hpts : t.pts = (driven (queuedOrder point.toNat l (.slot s.exch.takePos)) r x y).pts := by
    have g := congrArg (fun u : State => u.pts) hi
    exact g
  refine ⟨t, ht, ?_, ?_, by rw [hpts]; exact hunit, hmark⟩
  · rw [hpts]
    change [({ queuedOrder point.toNat l (.slot s.exch.takePos) with
      phase := .travel, startTime := some y.clock, timer := some r.travel } : Order)] = _
    rw [hclock]
    rfl
  · rw [hpts]; exact Tbl.find_insert_self _ _ _

end

/-- Settles O37: by the checks, and by what the dispatcher makes of the order. -/
theorem movePointOrdersTheMove : Obligations.MovePointOrdersTheMove := by
  refine ⟨fun s tag point lie r st l x h hw hv hp hr hst hl hok hh hx hxp hone => ?_, fun s tag point lie h hq =>
    ⟨fun hbad => movePoint_replies h hq.work hq.shows (moveRefusal_bad hbad), fun r st l hp hr hst hl => ?_⟩⟩
  · obtain ⟨b, ho⟩ := orderOf_unique hx hxp hone
    have hbusy : moveRefusal point.toNat lie.toNat s = some ⟨.pointBusy, point.toNat, x.origin.packed⟩ := by
      rw [moveRefusal_loaded hp hr hst hl, if_neg hok, hh, ho]
    have hreply := movePoint_replies (tag := tag) h hw hv hbusy
    exact ⟨fun e he hlt => by rw [he, packed_route (by omega)] at hreply; exact hreply,
      fun n hn hlt => by rw [hn, packed_slot (by omega)] at hreply; exact hreply⟩
  · have hrefusal := moveRefusal_loaded hp hr hst hl
    refine ⟨fun hfail => movePoint_replies h hq.work hq.shows (hrefusal.trans (if_pos hfail)), fun hok => ?_⟩
    rw [if_neg hok] at hrefusal
    refine ⟨fun a more hh => movePoint_replies (a := ⟨.pointLocked, point.toNat, a⟩) h hq.work hq.shows (by rw [hrefusal, hh]),
      fun hh => ?_⟩
    rw [hh, orderOf_none hq.orders hq.overflow] at hrefusal
    refine ⟨fun hocc => movePoint_replies h hq.work hq.shows (hrefusal.trans (if_neg hocc)), fun hclear => ?_⟩
    have hm : Movable s point.toNat lie.toNat r st l := ⟨hp, hr, hst, hl, hok, hh, hclear⟩
    exact ⟨movePoint_there h hq hm, fun hne => ⟨movePoint_waits h hq hm hne, movePoint_pulses h hq hm hne,
      movePoint_travels h hq hm hne⟩⟩

end Sys2Proof.PointOrders
end

