-- ==== Sys2Proof/Proofs/OrderEnds.lean ====
section
/-! The end of a move order: by arrival, by a miss and its retry, by failure (O40, O41). -/

namespace Sys2Proof.OrderEnds

open Sys2Proof.Machine Sys2Proof.ReportLog Sys2Proof.QuietHeader Sys2Proof.TrackDetection Sys2Proof.TrackRequests
  Sys2Proof.RouteRelease Sys2Proof.PointLies Sys2Proof.SlotBytes Sys2Proof.PointOrders

/-! ### One order in hand -/

/-- One order in hand, from a slot, for a point that no route holds, with no route active: what its end needs. -/
structure LoneOrder (s : State) (o : Order) (n : Nat) (tag : HostTag) (r : PointRec) (st : PointState) : Prop where
  queue : s.pts.queue = [o]
  overflow : s.pts.overflow = []
  routes : s.ilk.active = []
  record : Tbl.find s.pts.recs o.point = some r
  state : Tbl.find s.pts.state o.point = some st
  intact : st.failed = none
  unheld : (holdersOf s o.point).routes = []
  origin : o.origin = .slot n
  slot : n < Config.numSlots
  marks : Tbl.sorted s.exch.inHand = true
  mark : Tbl.find s.exch.inHand n = some tag
  mem : s.memOk

theorem LoneOrder.of_oneOrder {s : State} {o : Order} {n : Nat} {tag : HostTag} {r : PointRec} {st : PointState}
    (h : OneOrder o n tag r st s) : LoneOrder s o n tag r st :=
  ⟨h.queue, h.overflow, h.routes, h.record, h.state, h.intact, h.holders, h.origin, h.slot, h.marks, h.mark, h.sound.mem⟩

theorem LoneOrder.order {s : State} {o : Order} {n : Nat} {tag : HostTag} {r : PointRec} {st : PointState}
    (h : LoneOrder s o n tag r st) : Machine.orderOf s o.point = some (o, false) := orderOf_one h.queue

/-- The machine with the order gone from its place, and its drive. -/
def ended (p : Nat) (s : State) : State :=
  { s with pts := { s.pts with drives := Tbl.erase s.pts.drives p, queue := [], overflow := [] } }

theorem endOrder_lone {s : State} {o : Order} (hq : s.pts.queue = [o]) (ho : s.pts.overflow = []) :
    ∃ w : Work, w.step = s.work.step ∧ endOrder o.point s = { ended o.point s with work := w } := by
  have hfill (u : State) (h : u.pts.overflow = []) : fillQueue u = u := by unfold fillQueue; rw [h]; simp
  have hremove : removeOrder o.point { s with pts := { s.pts with drives := Tbl.erase s.pts.drives o.point } } = ended o.point s := by
    unfold removeOrder setOrders
    dsimp only
    rw [hq, ho, hfill _ rfl]
    simp [ended]
  unfold endOrder
  dsimp only
  rw [hremove]
  split
  · exact ⟨{ s.work with pass := true, reexam := true }, rfl, rfl⟩
  · exact ⟨{ s.work with reexam := true }, rfl, rfl⟩

theorem pointTested_noRoutes {s : State} (p : Nat) (h : s.ilk.active = []) : pointTested p s = s := by
  unfold pointTested entriesHolding; rw [h]; rfl

theorem failRoutes_noRoutes {s : State} (p : Nat) (h : s.ilk.active = []) : failRoutes p s = s := by
  unfold failRoutes entriesHolding; rw [h]; rfl

/-- The point shows the lie of its order, or has no feedback to show it (R97, R99). -/
def Arrives (s : State) (r : PointRec) (o : Order) : Prop := r.feedback = .none ∨ contactsShow s r o.lie = true

/-- The lie of a point whose order has arrived, once the order is gone (R90, R91). -/
theorem derivedLie_arrived {s : State} {p : Nat} {r : PointRec} {st : PointState} {o : Order} (h : Arrives s r o)
    (ho : Machine.orderOf s p = none) (hst : st.failed = none) (ha : r.feedback = .none → st.assumed = some o.lie) :
    derivedLie s p r st = o.lie.det := by
  have hphase : orderPhase s p = none := by unfold orderPhase; rw [ho]; rfl
  have hflight : pointInFlight s p = false := by unfold pointInFlight; rw [ho]
  unfold derivedLie
  rw [hst, hphase, hflight]
  cases hf : r.feedback with
  | none => simp [ha hf]
  | pair a b =>
    have hshow : contactLie (pointContacts s r) = some o.lie := by
      obtain h | h := h
      · rw [hf] at h; cases h
      · simpa [contactsShow] using h
    simp [hshow]

/-- The state of a point whose order has arrived. -/
def arrivedPoint (r : PointRec) (o : Order) (st : PointState) : PointState :=
  { st with assumed := if r.feedback = .none then some o.lie else st.assumed, lie := o.lie.det, loss := none }

/-- A point whose order has arrived is shown so: with its assumed lie, its lie, its loss timer and its mirror word. -/
def arrivalShown (p : Nat) (r : PointRec) (o : Order) (s : State) : State :=
  let u := setPoint p (fun st => { st with assumed := if r.feedback = .none then some o.lie else st.assumed }) s
  touchPoint p (setPoint p (fun st => { st with lie := derivedLie u p r st }) u)

theorem own_arrivalShown (p : Nat) (r : PointRec) (o : Order) {b s : State} (h : Own b s) : Own b (arrivalShown p r o s) := by
  unfold arrivalShown
  exact own_touchPoint _ _ (own_setPoint _ _ _ (own_setPoint _ _ _ h))

theorem body_arrivalShown {s : State} {o : Order} {r : PointRec} {st : PointState} (harr : Arrives s r o)
    (hstate : Tbl.find s.pts.state o.point = some st) (ho : Machine.orderOf s o.point = none) (hst : st.failed = none)
    (hheld : (holdersOf s o.point).routes = []) :
    body (arrivalShown o.point r o s) = body { withPoint o.point (arrivedPoint r o st) s with work := { s.work with lamps := true } } := by
  obtain ⟨a, ha⟩ : ∃ a, (if r.feedback = .none then some o.lie else st.assumed) = a := ⟨_, rfl⟩
  generalize hu1 : setPoint o.point (fun st => { st with assumed := if r.feedback = .none then some o.lie else st.assumed }) s = u1
  have h1 : u1 = { withPoint o.point { st with assumed := a } s with work := { s.work with lamps := true } } := by
    rw [← hu1, setPoint_eq _ hstate, ha]
  have hlie : derivedLie u1 o.point r { st with assumed := a } = o.lie.det := by
    refine derivedLie_arrived ?_ (by rw [h1]; exact ho) hst fun hf => by rw [← ha, if_pos hf]
    rw [h1]; exact harr
  generalize hu2 : setPoint o.point (fun st => { st with lie := derivedLie u1 o.point r st }) u1 = u2
  have h2 : u2 = { withPoint o.point { st with assumed := a, lie := o.lie.det } s with work := { s.work with lamps := true } } := by
    rw [← hu2, setPoint_eq (st := { st with assumed := a }) _ (by rw [h1]; exact find_withPoint _ _ _), hlie, h1]
    have g := congrArg (fun y : State => ({ y with work := { s.work with lamps := true } } : State))
      (withPoint_withPoint o.point { st with assumed := a } { st with assumed := a, lie := o.lie.det } s)
    exact g
  have hheld2 : (holdersOf u2 o.point).routes = [] := by rw [h2]; exact hheld
  have harrived : arrivedPoint r o st = { st with assumed := a, lie := o.lie.det, loss := none } := by unfold arrivedPoint; rw [ha]
  have hdef : arrivalShown o.point r o s = touchPoint o.point u2 := by rw [← hu2, ← hu1]; rfl
  rw [hdef, body_touchPoint_unheld (st := { st with assumed := a, lie := o.lie.det }) (by rw [h2]; exact find_withPoint _ _ _) hheld2,
    h2, harrived]
  have g := congrArg (fun y : State => body { y with work := { s.work with lamps := true } })
    (withPoint_withPoint o.point { st with assumed := a, lie := o.lie.det } { st with assumed := a, lie := o.lie.det, loss := none } s)
  exact g

/-- The arrival of an order that a slot asked for, in its parts. -/
theorem orderArrived_slot {s : State} {p n : Nat} {o : Order} {b : Bool} {r : PointRec} (ho : Machine.orderOf s p = some (o, b))
    (hr : Tbl.find s.pts.recs p = some r) (hn : o.origin = .slot n) :
    ∃ fr v1 v2, orderArrived p s = pointTested p (complete n .ok p (elapsed s o)
      (report .pointMoved p v1 v2 (arrivalShown p r o (endOrder p { s with free := fr })))) := by
  obtain ⟨fr, hfree⟩ : ∃ fr, (if o.startTime.isNone || 65535 < elapsed s o then useFree s else s) = { s with free := fr } := by
    split
    · exact ⟨s.free + 1, rfl⟩
    · exact ⟨s.free, rfl⟩
  refine ⟨fr, fld (detLie (arrivalShown p r o (endOrder p { s with free := fr })) p).code 16 0 + fld o.origin.fields.1 8 16
    + fld o.origin.fields.2 8 24, halves (elapsed16 s o) (bit o.retried 0), ?_⟩
  unfold orderArrived
  rw [ho, hr]
  dsimp only
  rw [hfree, hn]
  unfold arrivalShown
  rfl

/-- An order ends by arrival (R100): its slot is answered OK with the milliseconds since the start. -/
theorem orderArrived_lone {s : State} {o : Order} {n t0 : Nat} {tag : HostTag} {r : PointRec} {st : PointState}
    (h : LoneOrder s o n tag r st) (hstart : o.startTime = some t0) (harr : Arrives s r o) :
    ∃ (w : Work) (fr : Nat), w.step = s.work.step ∧ SlotDone n tag .ok o.point (since s t0) (orderArrived o.point s) ∧
      body (orderArrived o.point s) = body { withPoint o.point (arrivedPoint r o st) (ended o.point s) with
        exch := { s.exch with inHand := Tbl.erase s.exch.inHand n }, free := fr, work := w } := by
  obtain ⟨fr, v1, v2, heq⟩ := orderArrived_slot h.order h.record h.origin
  have helapsed : elapsed s o = since s t0 := by unfold elapsed; rw [hstart]
  obtain ⟨w, hw, hend⟩ := endOrder_lone (s := { s with free := fr }) h.queue h.overflow
  rw [helapsed] at heq
  generalize hu : endOrder o.point { s with free := fr } = u at heq hend
  have hown : Own s u := by rw [← hu]; exact own_endOrder _ _ (own_same (own_refl s) rfl rfl)
  have hb := body_arrivalShown (s := u) (o := o) (r := r) (st := st) (by rw [hend]; exact harr) (by rw [hend]; exact h.state)
    (by rw [hend]; rfl) h.intact (by rw [hend]; exact h.unheld)
  generalize hv : report .pointMoved o.point v1 v2 (arrivalShown o.point r o u) = v at heq
  have hbv : body v = body { withPoint o.point (arrivedPoint r o st) u with work := { u.work with lamps := true } } := by
    rw [← hv, body_report, hb]
  have hownv : Own s v := by rw [← hv]; exact own_report (own_arrivalShown _ _ _ hown) _ _ _ _
  have hhand : v.exch.inHand = s.exch.inHand :=
    (read_of_body (fun y => y.exch.inHand) (fun _ => rfl) hbv).trans (by rw [hend]; rfl)
  have hmark : Tbl.find v.exch.inHand n = some tag := by rw [hhand]; exact h.mark
  have hdone : body (complete n .ok o.point (since s t0) v) = body { withPoint o.point (arrivedPoint r o st) (ended o.point s) with
      exch := { s.exch with inHand := Tbl.erase s.exch.inHand n }, free := fr, work := { w with lamps := true } } := by
    rw [body_completed _ _ _ h.slot hmark, hhand]
    refine (body_update (fun y => { y with exch := { y.exch with inHand := Tbl.erase s.exch.inHand n } }) (fun _ => rfl) hbv).trans ?_
    rw [hend]
    rfl
  have hroutes : (complete n .ok o.point (since s t0) v).ilk.active = [] :=
    (read_of_body (fun y => y.ilk.active) (fun _ => rfl) hdone).trans h.routes
  rw [heq, pointTested_noRoutes _ hroutes]
  exact ⟨{ w with lamps := true }, fr, hw,
    slotDone_completed _ _ _ h.slot (hownv.mem h.mem) hmark (by rw [hhand]; exact h.marks), hdone⟩

/-- An order ends by failure (R100): its slot is answered POINT_FAILED with the cause. -/
theorem orderFailed_lone {s : State} {o : Order} {n : Nat} {tag : HostTag} {r : PointRec} {st : PointState} (c : PointCause)
    (h : LoneOrder s o n tag r st) :
    ∃ w : Work, w.step = s.work.step ∧ SlotDone n tag .pointFailed o.point c.code (orderFailed o.point c s) ∧
      body (orderFailed o.point c s) = body { withPoint o.point { st with failed := some c, lie := .failed, loss := none }
        (ended o.point s) with exch := { s.exch with inHand := Tbl.erase s.exch.inHand n }, work := w } := by
  obtain ⟨w, hw, hend⟩ := endOrder_lone h.queue h.overflow
  generalize hu : ({ ended o.point s with work := w } : State) = u at hend
  have hstate : Tbl.find u.pts.state o.point = some st := by rw [← hu]; exact h.state
  generalize hu1 : report .pointFailed o.point (halves c.code 0) o.origin.packed (failPoint o.point c u) = u1
  have hb1 : body u1 = body { withPoint o.point { st with failed := some c, lie := .failed, loss := none } u with
      work := { u.work with lamps := true } } := by rw [← hu1, body_report, body_failPoint c hstate]
  have hown : Own s u1 := by
    rw [← hu1, ← hend]; exact own_report (own_failPoint _ _ _ (own_endOrder _ _ (own_refl s))) _ _ _ _
  have hhand : u1.exch.inHand = s.exch.inHand :=
    (read_of_body (fun y => y.exch.inHand) (fun _ => rfl) hb1).trans (by rw [← hu]; rfl)
  have heq : orderFailed o.point c s = failRoutes o.point (complete n .pointFailed o.point c.code u1) := by
    unfold orderFailed
    rw [h.order]
    dsimp only
    rw [hend, hu1, h.origin]
  have hb2 : body (complete n .pointFailed o.point c.code u1)
      = body { withPoint o.point { st with failed := some c, lie := .failed, loss := none } (ended o.point s) with
        exch := { s.exch with inHand := Tbl.erase s.exch.inHand n }, work := { w with lamps := true } } := by
    rw [body_completed _ _ _ h.slot (by rw [hhand]; exact h.mark), hhand]
    refine (body_update (fun y => { y with exch := { y.exch with inHand := Tbl.erase s.exch.inHand n } }) (fun _ => rfl) hb1).trans ?_
    rw [← hu]
    rfl
  have hroutes : (complete n .pointFailed o.point c.code u1).ilk.active = [] :=
    (read_of_body (fun y => y.ilk.active) (fun _ => rfl) hb2).trans h.routes
  refine ⟨{ w with lamps := true }, hw, ?_, ?_⟩
  · rw [heq, failRoutes_noRoutes _ hroutes]
    exact slotDone_completed _ _ _ h.slot (hown.mem h.mem) (by rw [hhand]; exact h.mark) (by rw [hhand]; exact h.marks)
  · rw [heq, failRoutes_noRoutes _ hroutes]
    exact hb2

/-! ### The end of a handling in which the only order ended -/

/-- What a handling that ended the only order leaves: its slot done, and inside what u holds. -/
theorem ended_finish {c : Instr} {s v u : State} {w : Work} {n w0 w1 : Nat} {tag : HostTag} {res : Result}
    (hc : exec c s = .next (finish s v)) (hown : Own s v) (hdone : SlotDone n tag res w0 w1 v) (hn : n < Config.numSlots)
    (hb : body v = body { u with work := w }) (hstep : w.step = none) (shows : u.vis.queue = []) (orders : u.pts.queue = [])
    (stack : u.ilk.stack = []) :
    ∃ t, exec c s = .next t ∧ SlotDone n tag res w0 w1 t ∧ inside t = inside u ∧ MemoryKept none s t := by
  have hread {α : Type} (g : State → α) (hg : ∀ y, g y = g (body y)) := read_of_body g hg hb
  have hin := inside_finish_empty s (v := v) (by rw [work_of_body hb]; exact hstep)
    ((hread (fun y => y.vis.queue) fun _ => rfl).trans shows) ((hread (fun y => y.pts.queue) fun _ => rfl).trans orders)
    ((hread (fun y => y.ilk.stack) fun _ => rfl).trans stack)
  exact ⟨_, hc, hdone.own hn (own_finish _ _ (own_refl _)), hin.trans (inside_of_body_work hb),
    memoryKept_of_own (own_finish _ _ hown)⟩

/-- A value that stands inside is read in either of two machines with the same inside. -/
theorem read_of_inside {α : Type} (g : State → α) (hg : ∀ u, g u = g (inside u)) {s t : State} (h : inside s = inside t) :
    g s = g t := by rw [hg s, h, ← hg t]

/-- Nothing is left to do at the end of a handling that asks for no dispatcher pass, while orders wait. -/
theorem quietEnd_waiting {s : State} (hstep : s.work.step = none) (hpass : s.work.pass = false) (shows : s.vis.queue = [])
    (stack : s.ilk.stack = []) : quietEnd s = true :=
  quietEnd_iff.2 ⟨hstep, by unfold noHead; simp [shows], fun e => absurd (hpass.symm.trans e) (by decide), fun _ => stack⟩

/-! ### PULSE_TIMER_EXPIRY (R96, R97) -/

/-- The discharge unit recharges (R96). -/
def recharging (s : State) : State :=
  { s with pts := { s.pts with coil := none, pulseTimer := none, rechargeTimer := some s.pts.rechargeTime, unit := .recharging } }

theorem body_startRecharge (s : State) : body (startRecharge s) = body (recharging s) := body_setUnit _ _

theorem pulseExpires_running {s : State} {k p : Nat} {l : Lie} (hk : s.pts.pulseTimer = some k) (hc : s.pts.coil = some (p, l)) :
    pulseExpires s = pulseEnded p (startRecharge s) := by
  unfold pulseExpires; rw [hk, hc]

theorem LoneOrder.of_body {s t : State} {o : Order} {n : Nat} {tag : HostTag} {r : PointRec} {st : PointState}
    (h : LoneOrder s o n tag r st) (hb : body t = body (recharging s)) (hm : t.memOk) : LoneOrder t o n tag r st := by
  have hread {α : Type} (g : State → α) (hg : ∀ y, g y = g (body y)) := read_of_body g hg hb
  exact ⟨(hread (fun y => y.pts.queue) fun _ => rfl).trans h.queue, (hread (fun y => y.pts.overflow) fun _ => rfl).trans h.overflow,
    (hread (fun y => y.ilk.active) fun _ => rfl).trans h.routes, (hread (fun y => Tbl.find y.pts.recs o.point) fun _ => rfl).trans h.record,
    (hread (fun y => Tbl.find y.pts.state o.point) fun _ => rfl).trans h.state, h.intact,
    (congrArg Holders.routes (hread (fun y => holdersOf y o.point) fun _ => rfl)).trans h.unheld, h.origin, h.slot,
    (congrArg Tbl.sorted (hread (fun y => y.exch.inHand) fun _ => rfl)).trans h.marks,
    (hread (fun y => Tbl.find y.exch.inHand n) fun _ => rfl).trans h.mark, hm⟩

section Pulse
variable {s : State} {o : Order} {n t0 k : Nat} {tag : HostTag} {r : PointRec} {st : PointState}

/-- The pulse ends at a point that shows its lie: the order has arrived (R97). -/
theorem pulseExpires_arrived (h : OneOrder o n tag r st s) (hcoil : s.pts.coil = some (o.point, o.lie))
    (hk : s.pts.pulseTimer = some k) (ht : o.startTime = some t0) (harr : Arrives s r o) :
    ∃ fr t, exec .pulseTimerExpiry s = .next t ∧ SlotDone n tag .ok o.point (since s t0) t ∧
      inside t = inside { withPoint o.point (arrivedPoint r o st) (ended o.point (recharging s)) with
        exch := { s.exch with inHand := Tbl.erase s.exch.inHand n }, free := fr } ∧ MemoryKept none s t := by
  have hb := body_startRecharge s
  have hown : Own s (startRecharge s) := own_startRecharge _ (own_refl s)
  have hlone := (LoneOrder.of_oneOrder h).of_body hb (hown.mem h.sound.mem)
  have harr' : Arrives (startRecharge s) r o := by
    unfold Arrives; rw [read_of_body (fun y => contactsShow y r o.lie) (fun _ => rfl) hb]; exact harr
  have heq : pulseExpires s = orderArrived o.point (startRecharge s) := by
    rw [pulseExpires_running hk hcoil]
    unfold pulseEnded
    rw [hlone.order, hlone.record]
    exact if_pos (by simpa [Arrives] using harr')
  have hclock : since (startRecharge s) t0 = since s t0 := (read_of_body (fun y => since y t0) (fun _ => rfl) hb).trans rfl
  obtain ⟨w, fr, hw, hdone, hbody⟩ := orderArrived_lone hlone ht harr'
  rw [hclock, ← heq] at hdone
  have hfinal : body (pulseExpires s) = body { withPoint o.point (arrivedPoint r o st) (ended o.point (recharging s)) with
      exch := { s.exch with inHand := Tbl.erase s.exch.inHand n }, free := fr, work := w } := by
    rw [heq, hbody]
    exact body_update (fun y => { withPoint o.point (arrivedPoint r o st) (ended o.point y) with
      exch := { y.exch with inHand := Tbl.erase y.exch.inHand n }, free := fr, work := w }) (fun _ => rfl) hb
  have hstep : w.step = none := by
    rw [hw, show (startRecharge s).work = s.work from (read_of_body (fun y => y.work) (fun _ => rfl) hb).trans rfl, h.work]; rfl
  exact ⟨fr, ended_finish (u := { withPoint o.point (arrivedPoint r o st) (ended o.point (recharging s)) with
    exch := { s.exch with inHand := Tbl.erase s.exch.inHand n }, free := fr }) rfl (own_pulseExpires _ (own_refl s)) hdone h.slot hfinal
    hstep h.shows rfl h.stack⟩

/-- The pulse ends at a point that does not show its lie: the order waits in its window (R97). -/
theorem pulseExpires_window (h : OneOrder o n tag r st s) (hcoil : s.pts.coil = some (o.point, o.lie))
    (hk : s.pts.pulseTimer = some k) (harr : ¬ Arrives s r o) :
    ∃ x, Makes .pulseTimerExpiry s (setOrders [{ o with phase := .window, timer := some s.pts.window }] []
      { recharging s with pts := { (recharging s).pts with state := x } }) := by
  have hb := body_startRecharge s
  have hread {α : Type} (g : State → α) (hg : ∀ y, g y = g (body y)) := read_of_body g hg hb
  have hown : Own s (startRecharge s) := own_startRecharge _ (own_refl s)
  have hlone := (LoneOrder.of_oneOrder h).of_body hb (hown.mem h.sound.mem)
  have hno : ¬ (r.feedback = .none || contactsShow (startRecharge s) r o.lie) = true := by
    rw [(hread (fun y => contactsShow y r o.lie) fun _ => rfl).trans (b := contactsShow s r o.lie) rfl]
    simpa [Arrives] using harr
  have heq : pulseExpires s = rederive o.point
      (setOrders [{ o with phase := .window, timer := some s.pts.window }] [] (startRecharge s)) := by
    rw [pulseExpires_running hk hcoil]
    unfold pulseEnded
    rw [hlone.order, hlone.record]
    refine (if_neg hno).trans ?_
    rw [changeOrder_one _ hlone.queue, hlone.overflow, hread (fun y => y.pts.window) fun _ => rfl]
    rfl
  obtain ⟨x, w, hw, hbody, -⟩ := body_rederive_any (p := o.point)
    (s := setOrders [{ o with phase := .window, timer := some s.pts.window }] [] (startRecharge s)) hlone.record hlone.state hlone.unheld
  have hfinal : body (pulseExpires s) = body { setOrders [{ o with phase := .window, timer := some s.pts.window }] []
      { recharging s with pts := { (recharging s).pts with state := x } } with work := w } := by
    rw [heq, hbody]
    exact body_update (fun y => { setOrders [{ o with phase := .window, timer := some s.pts.window }] []
      { y with pts := { y.pts with state := x } } with work := w }) (fun _ => rfl) hb
  have hwork : (startRecharge s).work = Work.none := (hread (fun y => y.work) fun _ => rfl).trans h.work
  refine ⟨x, makes_finish (v := pulseExpires s) rfl ?_ (inside_of_body_work hfinal) (own_pulseExpires _ (own_refl s))⟩
  have hwork' : (pulseExpires s).work = w := work_of_body hfinal
  refine quietEnd_waiting ?_ ?_ ?_ ?_
  · rw [hwork', hw.step]; exact congrArg Work.step hwork
  · rw [hwork', hw.pass]; exact congrArg Work.pass hwork
  · exact (read_of_body (fun y => y.vis.queue) (fun _ => rfl) hfinal).trans h.shows
  · exact (read_of_body (fun y => y.ilk.stack) (fun _ => rfl) hfinal).trans h.stack

end Pulse

/-- Settles O40: the pulse ends by arrival or in the window of the order. -/
theorem pulseEndsInArrivalOrWindow : Obligations.PulseEndsInArrivalOrWindow := by
  refine ⟨fun s o n t0 tag r st h hphase hcoil htimer ht => ?_, fun s hq hnone => ?_⟩
  · obtain ⟨k, hk⟩ := Option.ne_none_iff_exists'.1 htimer
    by_cases harr : Arrives s r o
    · obtain ⟨fr, t, ht, hdone, hin, hkept⟩ := pulseExpires_arrived h hcoil hk ht harr
      have hread {α : Type} (g : State → α) (hg : ∀ u, g u = g (inside u)) := read_of_inside g hg hin
      refine ⟨t, ht, hread (fun u => u.pts.unit) fun _ => rfl, hread (fun u => u.pts.coil) fun _ => rfl,
        hread (fun u => u.pts.pulseTimer) fun _ => rfl, hread (fun u => u.pts.rechargeTimer) fun _ => rfl,
        hread (fun u => u.occ) fun _ => rfl, hread (fun u => u.tags) fun _ => rfl, hread (fun u => u.ilk) fun _ => rfl,
        hread (fun u => u.tt) fun _ => rfl, hkept, fun _ => ⟨hdone, hread (fun u => u.pts.queue) fun _ => rfl, ?_⟩,
        fun hf hno => ?_⟩
      · exact (hread (fun u => detLie u o.point) fun _ => rfl).trans (detLie_of_find (find_withPoint _ _ _))
      · obtain harr | harr := harr
        · exact absurd harr hf
        · exact absurd (harr.symm.trans hno) (by decide)
    · obtain ⟨x, t, ht, hin, hkept⟩ := pulseExpires_window h hcoil hk harr
      have hread {α : Type} (g : State → α) (hg : ∀ u, g u = g (inside u)) := read_of_inside g hg hin
      refine ⟨t, ht, hread (fun u => u.pts.unit) fun _ => rfl, hread (fun u => u.pts.coil) fun _ => rfl,
        hread (fun u => u.pts.pulseTimer) fun _ => rfl, hread (fun u => u.pts.rechargeTimer) fun _ => rfl,
        hread (fun u => u.occ) fun _ => rfl, hread (fun u => u.tags) fun _ => rfl, hread (fun u => u.ilk) fun _ => rfl,
        hread (fun u => u.tt) fun _ => rfl, hkept, fun hs => absurd hs harr,
        fun _ _ => ⟨hread (fun u => u.pts.queue) fun _ => rfl, ?_⟩⟩
      exact (hread (fun u => Tbl.find u.exch.inHand n) fun _ => rfl).trans h.mark
  · refine makes_rest rfl hq (own_pulseExpires _ (own_refl s)) (congrArg body ?_) rfl rfl
    unfold pulseExpires; rw [hnone]

/-! ### WINDOW_TIMER_EXPIRY and TRAVEL_TIMER_EXPIRY (R98, R99, R100) -/

section Missed
variable {s : State} {o : Order} {n t0 : Nat} {tag : HostTag} {r : PointRec} {st : PointState}

/-- A first miss: the order waits in its place for a retry (R98, log 18). -/
theorem windowExpires_retry (h : OneOrder o n tag r st s) (hphase : o.phase = .window) (hfirst : o.retried = false) :
    ∃ x w, SameTurn s.work w ∧ body (windowExpires o.point s) = body { s with
      pts := { s.pts with queue := [{ o with phase := .retry, timer := none }], state := x }, work := w } := by
  have heq : windowExpires o.point s = rederive o.point (setOrders [{ o with phase := .retry, timer := none }] [] s) := by
    unfold windowExpires
    rw [(LoneOrder.of_oneOrder h).order]
    dsimp only
    rw [hphase, hfirst, changeOrder_one _ h.queue, h.overflow]
    unfold moveToHead setOrders
    simp [hfirst]
  obtain ⟨x, w, hw, hb, -⟩ := body_rederive_any (s := setOrders [{ o with phase := .retry, timer := none }] [] s) (p := o.point)
    h.record h.state h.holders
  refine ⟨x, w, hw, ?_⟩
  rw [heq, hb]
  have g := congrArg (fun l => body { s with
    pts := { s.pts with queue := [{ o with phase := .retry, timer := none }], state := x, overflow := l }, work := w }) h.overflow.symm
  exact g

/-- An order that fails: what its timer's expiry leaves (R98 to R100). -/
theorem failed_finish {c : Instr} {v : State} (cause : PointCause) (h : OneOrder o n tag r st s) (hc : exec c s = .next (finish s v))
    (hv : v = orderFailed o.point cause s) : ∃ t, exec c s = .next t ∧ SlotDone n tag .pointFailed o.point cause.code t ∧
      inside t = inside { withPoint o.point { st with failed := some cause, lie := .failed, loss := none } (ended o.point s) with
        exch := { s.exch with inHand := Tbl.erase s.exch.inHand n } } ∧ MemoryKept none s t := by
  obtain ⟨w, hw, hdone, hb⟩ := orderFailed_lone cause (LoneOrder.of_oneOrder h)
  rw [← hv] at hdone hb
  have hown : Own s v := by rw [hv]; exact own_orderFailed _ _ _ (own_refl s)
  exact ended_finish (u := { withPoint o.point { st with failed := some cause, lie := .failed, loss := none } (ended o.point s) with
    exch := { s.exch with inHand := Tbl.erase s.exch.inHand n } }) hc hown hdone h.slot hb (by rw [hw, h.work]; rfl) h.shows rfl h.stack

/-- A slow motor without feedback has arrived when its travel time is over (R99). -/
theorem travelExpires_arrived (h : OneOrder o n tag r st s) (hphase : o.phase = .travel) (hf : r.feedback = .none)
    (ht : o.startTime = some t0) : ∃ fr w, w.step = none ∧ SlotDone n tag .ok o.point (since s t0) (travelExpires o.point s) ∧
      body (travelExpires o.point s) = body { withPoint o.point (arrivedPoint r o st) (ended o.point s) with
        exch := { s.exch with inHand := Tbl.erase s.exch.inHand n }, free := fr, work := w } := by
  have hlone := LoneOrder.of_oneOrder h
  have heq : travelExpires o.point s = orderArrived o.point s := by
    unfold travelExpires
    rw [hlone.order, h.record]
    dsimp only
    rw [hphase, if_neg (by decide), if_pos hf]
  obtain ⟨w, fr, hw, hdone, hb⟩ := orderArrived_lone hlone ht (.inl hf)
  exact ⟨fr, w, by rw [hw, h.work]; rfl, by rw [heq]; exact hdone, by rw [heq, hb]⟩

theorem windowExpires_elsewhere {p : Nat} (h : ∀ x, Machine.orderOf s p = some x → x.1.phase ≠ .window) : windowExpires p s = s := by
  unfold windowExpires
  cases ho : Machine.orderOf s p with
  | none => rfl
  | some x =>
    have hne := h x ho
    exact if_pos (by simpa using hne)

theorem travelExpires_elsewhere {p : Nat} (h : ∀ x, Machine.orderOf s p = some x → x.1.phase ≠ .travel) : travelExpires p s = s := by
  unfold travelExpires
  cases ho : Machine.orderOf s p with
  | none => rfl
  | some x =>
    have hne := h x ho
    cases Tbl.find s.pts.recs p with
    | none => rfl
    | some r => exact if_pos (by simpa using hne)

/-- A command that does nothing while one order is in hand. -/
theorem makes_idle {c : Instr} {v : State} (h : OneOrder o n tag r st s) (hc : exec c s = .next (finish s v)) (hv : v = s) :
    Makes c s s := by
  rw [hv] at hc
  exact makes_finish hc (quietEnd_of_none s h.work h.shows) rfl (own_refl s)

end Missed

/-- Settles O41: a first miss waits for its retry, a second one fails; a slow motor arrives or fails. -/
theorem missedMovesRetryOrFail : Obligations.MissedMovesRetryOrFail := by
  refine ⟨fun s p o n t0 tag r st h hp ht => ?_, fun s p hq => ⟨?_, ?_⟩⟩
  · have hlone := LoneOrder.of_oneOrder h
    have horder : ∀ x, Machine.orderOf s p.val = some x → x.1 = o := fun x hx => by
      rw [← hp, hlone.order] at hx; exact (congrArg Prod.fst (Option.some.inj hx)).symm
    refine ⟨fun hphase hfirst => ?_, fun hphase hagain => ?_, fun hphase hf => ?_, fun hphase hf => ?_, fun hne => ?_, fun hne => ?_⟩
    · obtain ⟨x, w, hw, hb⟩ := windowExpires_retry h hphase hfirst
      rw [show windowExpires o.point s = windowExpires p.val s by rw [hp]] at hb
      refine ⟨x, makes_finish rfl (quietEnd_waiting ?_ ?_ ?_ ?_) (inside_of_body_work hb) (own_windowExpires _ _ (own_refl s))⟩
      · rw [work_of_body hb]; exact hw.step.trans (by rw [h.work]; rfl)
      · rw [work_of_body hb]; exact hw.pass.trans (by rw [h.work]; rfl)
      · exact (read_of_body (fun y => y.vis.queue) (fun _ => rfl) hb).trans h.shows
      · exact (read_of_body (fun y => y.ilk.stack) (fun _ => rfl) hb).trans h.stack
    · have heq : windowExpires p.val s = orderFailed o.point .noArrival s := by
        rw [← hp]
        unfold windowExpires
        rw [hlone.order]
        dsimp only
        rw [hphase, hagain]
        rfl
      obtain ⟨t, ht, hdone, hin, hkept⟩ := failed_finish (c := .windowTimerExpiry p) .noArrival h rfl heq
      have hread {α : Type} (g : State → α) (hg : ∀ u, g u = g (inside u)) := read_of_inside g hg hin
      rw [hp] at hdone
      refine ⟨t, ht, hdone, hread (fun u => u.pts.queue) fun _ => rfl, ?_, hkept, hread (fun u => u.pts.unit) fun _ => rfl,
        hread (fun u => u.ilk) fun _ => rfl, hread (fun u => u.occ) fun _ => rfl⟩
      rw [← hp]
      exact (hread (fun u => detLie u o.point) fun _ => rfl).trans (detLie_of_find (find_withPoint _ _ _))
    · have heq : travelExpires p.val s = orderFailed o.point .travelTimeout s := by
        rw [← hp]
        unfold travelExpires
        rw [hlone.order, h.record]
        dsimp only
        rw [hphase, if_neg (by decide), if_neg hf]
      obtain ⟨t, ht, hdone, hin, hkept⟩ := failed_finish (c := .travelTimerExpiry p) .travelTimeout h rfl heq
      have hread {α : Type} (g : State → α) (hg : ∀ u, g u = g (inside u)) := read_of_inside g hg hin
      rw [hp] at hdone
      refine ⟨t, ht, hdone, hread (fun u => u.pts.queue) fun _ => rfl, ?_, ?_, hkept, hread (fun u => u.ilk) fun _ => rfl,
        hread (fun u => u.occ) fun _ => rfl⟩ <;> rw [← hp]
      · exact (hread (fun u => detLie u o.point) fun _ => rfl).trans (detLie_of_find (find_withPoint _ _ _))
      · exact hread (fun u => u.pts.drives) fun _ => rfl
    · obtain ⟨fr, w, hw, hdone, hb⟩ := travelExpires_arrived h hphase hf ht
      rw [hp] at hdone hb
      obtain ⟨t, ht, hdone, hin, hkept⟩ := ended_finish (c := .travelTimerExpiry p) (u := { withPoint p.val (arrivedPoint r o st)
        (ended p.val s) with exch := { s.exch with inHand := Tbl.erase s.exch.inHand n }, free := fr }) rfl
        (own_travelExpires p.val s (own_refl s)) hdone h.slot hb hw h.shows rfl h.stack
      have hread {α : Type} (g : State → α) (hg : ∀ u, g u = g (inside u)) := read_of_inside g hg hin
      refine ⟨t, ht, hdone, hread (fun u => u.pts.queue) fun _ => rfl, ?_, hkept, hread (fun u => u.ilk) fun _ => rfl,
        hread (fun u => u.occ) fun _ => rfl⟩
      exact (hread (fun u => detLie u p.val) fun _ => rfl).trans (detLie_of_find (find_withPoint _ _ _))
    · exact makes_idle h rfl (windowExpires_elsewhere fun x hx => by rw [horder x hx]; exact hne)
    · exact makes_idle h rfl (travelExpires_elsewhere fun x hx => by rw [horder x hx]; exact hne)
  · have hnone := orderOf_none hq.orders hq.overflow p.val
    exact makes_rest rfl hq (own_windowExpires _ _ (own_refl s))
      (congrArg body (windowExpires_elsewhere fun x hx => absurd (hnone.symm.trans hx) (by simp))) rfl rfl
  · have hnone := orderOf_none hq.orders hq.overflow p.val
    exact makes_rest rfl hq (own_travelExpires _ _ (own_refl s))
      (congrArg body (travelExpires_elsewhere fun x hx => absurd (hnone.symm.trans hx) (by simp))) rfl rfl

end Sys2Proof.OrderEnds
end

