-- ==== Sys2Proof/Proofs/RouteRefusals.lean ====
section
/-! SET_ROUTE refused or stacked, and its eight checks one by one (O31). -/

namespace Sys2Proof.RouteRefusals

open Sys2Proof.Machine Sys2Proof.ReportLog Sys2Proof.QuietHeader Sys2Proof.TrackRequests Sys2Proof.RouteRelease
  Sys2Proof.SlotBytes Sys2Proof.PointOrders

/-! ### The first member that fails -/

theorem find_of_firstWith {α : Type} {bad : α → Prop} {p : α → Bool} (hp : ∀ x, p x = true ↔ bad x) {l : List α} {y : α}
    (h : FirstWith bad l y) : l.find? p = some y := by
  obtain ⟨a, b, rfl, hy, ha⟩ := h
  rw [List.find?_append, List.find?_eq_none.2 (fun x hx e => ha x hx ((hp x).1 e)), Option.none_or,
    List.find?_cons_of_pos ((hp y).2 hy)]

theorem find_of_none {α : Type} {bad : α → Prop} {p : α → Bool} (hp : ∀ x, p x = true ↔ bad x) {l : List α}
    (h : ∀ x ∈ l, ¬ bad x) : l.find? p = none :=
  List.find?_eq_none.2 fun x hx e => h x hx ((hp x).1 e)

/-! ### The first five checks (R44 to R46) -/

section Whole
variable {s : State} {r : RouteRec} {route : Nat} {o : Originator} {again : Bool}

theorem isVisitor_eq (x : Originator) : (x == .visitor) = x.isVisitor := by cases x <;> rfl

theorem isVisitor_iff {x : Originator} : x.isVisitor = true ↔ x = .visitor := by cases x <;> simp [Originator.isVisitor]

/-- The route is neither active nor, but for a re-examination, stacked, and no route begins at its entry signal (R44). -/
structure Unheld (s : State) (r : RouteRec) (route : Nat) (again : Bool) : Prop where
  inactive : entryOf s route = none
  unstacked : again = true ∨ ∀ x ∈ s.ilk.stack, x.route ≠ route
  entryFree : entryAt s r.entry = none

theorem whole_active {x : Nat × Active} (h : entryOf s route = some x) :
    wholeRefusal s r route o again = some ⟨.routeActive, route, x.1⟩ := by unfold wholeRefusal; rw [h]

theorem whole_stacked {k : Nat} (h : entryOf s route = none) (hagain : again = false)
    (hk : s.ilk.stack.findIdx? (fun x => x.route == route) = some k) :
    wholeRefusal s r route o again = some ⟨.routeStacked, route, k⟩ := by
  unfold wholeRefusal; rw [h]; dsimp only; rw [if_neg (by simp [hagain]), hk]

theorem stacked_none (h : again = true ∨ ∀ x ∈ s.ilk.stack, x.route ≠ route) :
    (if again then none else s.ilk.stack.findIdx? (fun x => x.route == route)) = none := by
  obtain h | h := h
  · rw [if_pos h]
  · split
    · rfl
    · exact List.findIdx?_eq_none_iff.2 fun x hx => by simpa using h x hx

theorem whole_entryBusy {x : Nat × Active} (h : entryOf s route = none) (hs : again = true ∨ ∀ x ∈ s.ilk.stack, x.route ≠ route)
    (hx : entryAt s r.entry = some x) : wholeRefusal s r route o again = some ⟨.entryBusy, r.entry, x.2.route⟩ := by
  unfold wholeRefusal; rw [h]; dsimp only; rw [stacked_none hs]; dsimp only; rw [hx]

/-- What is left of the checks once the route may begin at its entry signal. -/
theorem whole_unheld (h : Unheld s r route again) : wholeRefusal s r route o again =
    if s.asp.cond = .allStop then some ⟨.allStop, 0, 0⟩
    else (visitorRefusal s r route o again).or
      (if (Tbl.lowestFree s.ilk.active Config.numActive 0).isNone then some ⟨.routeTableFull, 0, 0⟩ else none) := by
  unfold wholeRefusal
  rw [h.inactive]
  dsimp only
  rw [stacked_none h.unstacked]
  dsimp only
  rw [h.entryFree]
  cases visitorRefusal s r route o again <;> rfl

theorem visitorRefusal_barred (ho : o = .visitor)
    (h : r.visitor = false ∨ s.vis.suspended = true ∨ s.ilk.quota ≤ visitorCount s route again) :
    visitorRefusal s r route o again = some ⟨.visitorBarred, route, visitorCount s route again⟩ := by
  unfold visitorRefusal
  refine if_pos ?_
  rw [ho]
  obtain h | h | h := h <;> simp [Originator.isVisitor, h]

theorem visitorRefusal_none
    (h : o ≠ .visitor ∨ r.visitor = true ∧ s.vis.suspended = false ∧ visitorCount s route again < s.ilk.quota) :
    visitorRefusal s r route o again = none := by
  unfold visitorRefusal
  refine if_neg ?_
  obtain h | ⟨hr, hv, hn⟩ := h
  · have : o.isVisitor = false := by rw [Bool.eq_false_iff]; exact fun e => h (isVisitor_iff.1 e)
    simp [this]
  · simp [hr, hv, hn]

end Whole

/-! ### The last three checks (R47 to R49) -/

section Each
variable {s : State} {r : RouteRec}

theorem secState_disabled (n : Nat) : (secState s n == .disabled) = true ↔ secState s n = .disabled := by simp

theorem lockOf_isSome (n : Nat) : (lockOf s n).isSome = true ↔ lockOf s n ≠ none := by
  cases lockOf s n <;> simp

theorem classAllows_main {n : Nat} {x : SectionState} (h : r.cls = .main) : classAllows r n x = true ↔ x = .clear := by
  unfold classAllows; rw [h]; simp

theorem classAllows_callOn {n : Nat} {x : SectionState} (h : r.cls = .callOn) : classAllows r n x = true ↔
    x = .clear ∨ (elementSections r).getLast? = some n ∧ (x = .occupied ∨ x = .uncertain) := by
  unfold classAllows berth; rw [h]; by_cases hb : (elementSections r).getLast? = some n <;> simp [hb, or_assoc]

theorem classAllows_shunt {n : Nat} {x : SectionState} (h : r.cls = .shunt) : classAllows r n x = true ↔ x ≠ .disabled := by
  unfold classAllows; rw [h]; simp

theorem lockCompatible_iff (h : Holders) (l : Lie) :
    (!lockCompatible h l) = true ↔ h.routes ≠ [] ∧ (h.shared ≠ some l ∨ 4 ≤ h.routes.length) := by
  unfold lockCompatible
  rw [Bool.not_eq_true', Bool.or_eq_false_iff, Bool.and_eq_false_iff]
  simp

theorem stuck_iff (x : Nat × Lie) : (needsMoving s x && !freeToMove s x.1) = true ↔
    (detLie s x.1 ≠ x.2.det ∨ Machine.orderOf s x.1 ≠ none) ∧
      ((holdersOf s x.1).routes ≠ [] ∨ Machine.orderOf s x.1 ≠ none ∨ secState s (pointSec s x.1) ≠ .clear) := by
  unfold needsMoving freeToMove secClear
  cases Machine.orderOf s x.1 <;> simp

end Each

section Checks
variable {s : State} {r : RouteRec}

/-- A section of the sequence is in no state that the route's class allows (R47). -/
def Barred (s : State) (r : RouteRec) (n : Nat) : Prop :=
  ¬ match r.cls with
    | .main => secState s n = .clear
    | .callOn => secState s n = .clear ∨
        (elementSections r).getLast? = some n ∧ (secState s n = .occupied ∨ secState s n = .uncertain)
    | .shunt => secState s n ≠ .disabled

theorem barred_iff (n : Nat) : (!classAllows r n (secState s n)) = true ↔ Barred s r n := by
  rw [Bool.not_eq_true', Bool.eq_false_iff]
  unfold Barred
  cases hc : r.cls with
  | main => exact not_congr (classAllows_main hc)
  | callOn => exact not_congr (classAllows_callOn hc)
  | shunt => exact not_congr (classAllows_shunt hc)

theorem sections_disabled {n : Nat} (h : FirstWith (fun n => secState s n = .disabled) (sequence r) n) :
    sectionRefusal s r = some ⟨.sectionDisabled, n, 0⟩ := by
  unfold sectionRefusal; rw [find_of_firstWith secState_disabled h]

theorem sections_locked {n k : Nat} (h1 : ∀ n ∈ sequence r, secState s n ≠ .disabled)
    (h : FirstWith (fun n => lockOf s n ≠ none) (sequence r) n) (hk : lockOf s n = some k) :
    sectionRefusal s r = some ⟨.sectionLocked, n, k⟩ := by
  unfold sectionRefusal
  rw [find_of_none secState_disabled h1]
  dsimp only
  rw [find_of_firstWith lockOf_isSome h]
  dsimp only
  rw [hk]
  rfl

theorem sections_barred {n : Nat} (h1 : ∀ n ∈ sequence r, secState s n ≠ .disabled) (h2 : ∀ n ∈ sequence r, lockOf s n = none)
    (h : FirstWith (Barred s r) (sequence r) n) : sectionRefusal s r = some ⟨.sectionOccupied, n, (secState s n).code⟩ := by
  unfold sectionRefusal
  rw [find_of_none secState_disabled h1]
  dsimp only
  rw [find_of_none (bad := fun n => lockOf s n ≠ none) lockOf_isSome fun x hx => not_not.2 (h2 x hx)]
  dsimp only
  rw [find_of_firstWith barred_iff h]

theorem sections_none (h1 : ∀ n ∈ sequence r, secState s n ≠ .disabled) (h2 : ∀ n ∈ sequence r, lockOf s n = none)
    (h3 : ∀ n ∈ sequence r, ¬ Barred s r n) : sectionRefusal s r = none := by
  unfold sectionRefusal
  rw [find_of_none secState_disabled h1]
  dsimp only
  rw [find_of_none (bad := fun n => lockOf s n ≠ none) lockOf_isSome fun x hx => not_not.2 (h2 x hx)]
  dsimp only
  rw [find_of_none barred_iff h3]

/-- A point is held in another lie, or by as many routes as may hold it (R48). -/
def Incompatible (s : State) (x : Nat × Lie) : Prop :=
  (holdersOf s x.1).routes ≠ [] ∧ ((holdersOf s x.1).shared ≠ some x.2 ∨ 4 ≤ (holdersOf s x.1).routes.length)

/-- A point must move, and is not free to (R48). -/
def Stuck (s : State) (x : Nat × Lie) : Prop :=
  (detLie s x.1 ≠ x.2.det ∨ Machine.orderOf s x.1 ≠ none) ∧
    ((holdersOf s x.1).routes ≠ [] ∨ Machine.orderOf s x.1 ≠ none ∨ secState s (pointSec s x.1) ≠ .clear)

theorem failed_iff (x : Nat × Lie) : (detLie s x.1 == .failed) = true ↔ detLie s x.1 = .failed := by simp

theorem points_failed {x : Nat × Lie} (h : FirstWith (fun x => detLie s x.1 = .failed) (routePoints r) x) :
    pointRefusal s r = some ⟨.pointFailed, x.1, 0⟩ := by
  unfold pointRefusal; rw [find_of_firstWith failed_iff h]

theorem points_locked {x : Nat × Lie} {h : Nat} {more : List Nat} (h1 : ∀ x ∈ routePoints r, detLie s x.1 ≠ .failed)
    (hx : FirstWith (Incompatible s) (routePoints r) x) (hh : (holdersOf s x.1).routes = h :: more) :
    pointRefusal s r = some ⟨.pointLocked, x.1, h⟩ := by
  unfold pointRefusal
  rw [find_of_none failed_iff h1]
  dsimp only
  rw [find_of_firstWith (fun x : Nat × Lie => lockCompatible_iff (holdersOf s x.1) x.2) hx]
  dsimp only
  rw [hh]
  rfl

theorem points_stuck {x : Nat × Lie} (h1 : ∀ x ∈ routePoints r, detLie s x.1 ≠ .failed)
    (h2 : ∀ x ∈ routePoints r, ¬ Incompatible s x) (hx : FirstWith (Stuck s) (routePoints r) x) :
    pointRefusal s r = some ⟨.pointOccupied, x.1, (detLie s x.1).code⟩ := by
  unfold pointRefusal
  rw [find_of_none failed_iff h1]
  dsimp only
  rw [find_of_none (fun x : Nat × Lie => lockCompatible_iff (holdersOf s x.1) x.2) h2]
  dsimp only
  rw [find_of_firstWith stuck_iff hx]

theorem points_none (h1 : ∀ x ∈ routePoints r, detLie s x.1 ≠ .failed) (h2 : ∀ x ∈ routePoints r, ¬ Incompatible s x)
    (h3 : ∀ x ∈ routePoints r, ¬ Stuck s x) : pointRefusal s r = none := by
  unfold pointRefusal
  rw [find_of_none failed_iff h1]
  dsimp only
  rw [find_of_none (fun x : Nat × Lie => lockCompatible_iff (holdersOf s x.1) x.2) h2]
  dsimp only
  rw [find_of_none stuck_iff h3]

theorem table_refused {y : RoadEnd} (h : r.table = some y) (hn : ¬ (s.tt.state = .aligned ∧ s.tt.align = some y)) :
    tableRefusal s r = some ⟨.tableNotAligned, roadEndByte (some y), s.tt.state.code⟩ := by
  unfold tableRefusal; rw [h]; exact if_neg (by simpa using hn)

theorem table_none (h : ∀ y, r.table = some y → s.tt.state = .aligned ∧ s.tt.align = some y) : tableRefusal s r = none := by
  unfold tableRefusal
  split
  · rfl
  · next y hy => exact if_pos (by simpa using h y hy)

end Checks

theorem routeRefusal_loaded {s : State} {route : Nat} {r : RouteRec} {o : Originator} {again : Bool}
    (h : Tbl.find s.ilk.routes route = some r) : routeRefusal s route o again
      = (wholeRefusal s r route o again).or ((sectionRefusal s r).or ((pointRefusal s r).or (tableRefusal s r))) := by
  unfold routeRefusal; rw [h]

/-! ### SET_ROUTE (R43, R51 to R53) -/

theorem transient_iff (c : Result) : c.transient = true ↔
    c ∈ ([.entryBusy, .sectionLocked, .sectionOccupied, .pointLocked, .pointOccupied, .tableNotAligned, .routeTableFull] : List Result) := by
  cases c <;> simp [Result.transient]

/-- The place of a request on the stack (R53). -/
theorem placeEntry_eq (x : StackEntry) (l : List StackEntry) : placeEntry x l =
    l.takeWhile (fun y => decide (y.originator.code ≤ x.originator.code)) ++
      x :: l.dropWhile (fun y => decide (y.originator.code ≤ x.originator.code)) := by
  induction l with
  | nil => rfl
  | cons y l ih =>
    unfold placeEntry
    by_cases h : x.originator.code < y.originator.code
    · rw [if_pos h]; simp [Nat.not_le.2 h]
    · rw [if_neg h, ih]; simp [Nat.le_of_not_lt h]

section Request
variable {s : State} {tag : HostTag} {route w1 w2 : Word}

theorem setRoute_bad (q : Request) (k : Nat) (h : originatorOf w1.toNat = none ∨ 511 < route.toNat) :
    setRoute k route.toNat w1.toNat w2.toNat (taken q s) = complete k .badArgument 0 0 (taken q s) := by
  unfold setRoute
  split
  · rfl
  · next o ho => exact if_pos (h.resolve_left (by simp [ho]))

/-- A SET_ROUTE whose request was refused is answered. -/
theorem setRoute_answered {o : Originator} {t u : State} {a : Answer} {k : Nat} (ho : originatorOf w1.toNat = some o)
    (hr : route.toNat ≤ 511)
    (h : requestRoute route.toNat o (bitsOf w2.toNat 0 1 == 1) (.slot k) t = (u, some a)) :
    setRoute k route.toNat w1.toNat w2.toNat t = complete k a.result a.w0 a.w1 u := by
  unfold setRoute
  rw [ho]
  dsimp only
  rw [if_neg (by omega), h]

/-- A SET_ROUTE whose request was accepted or stacked stays in hand. -/
theorem setRoute_pending {o : Originator} {t u : State} {k : Nat} (ho : originatorOf w1.toNat = some o)
    (hr : route.toNat ≤ 511)
    (h : requestRoute route.toNat o (bitsOf w2.toNat 0 1 == 1) (.slot k) t = (u, none)) :
    setRoute k route.toNat w1.toNat w2.toNat t = u := by
  unfold setRoute
  rw [ho]
  dsimp only
  rw [if_neg (by omega), h]

theorem stackBit (w : Nat) : (bitsOf w 0 1 == 1) = true ↔ w % 2 = 1 := by unfold bitsOf; simp

theorem routeRefusal_taken (n : Nat) (o : Originator) (again : Bool) (q : Request) :
    routeRefusal (taken q s) n o again = routeRefusal s n o again :=
  read_taken (fun u => routeRefusal u n o again) q s fun _ => rfl

/-- A refusal that is not stacked. -/
theorem requestRoute_refused {n : Nat} {o : Originator} {b : Bool} {src : Source} {a : Answer} {t : State}
    (h : routeRefusal t n o false = some a) (hb : ¬ (b && a.result.transient) = true) :
    requestRoute n o b src t = (t, some a) := by
  unfold requestRoute
  rw [h]
  exact if_pos (by rw [Bool.eq_false_iff.2 hb]; rfl)

/-- A refusal that is stacked, or finds the stack full. -/
theorem requestRoute_stacked {n : Nat} {o : Originator} {b : Bool} {src : Source} {a : Answer} {t : State}
    (h : routeRefusal t n o false = some a) (hb : (b && a.result.transient) = true) :
    requestRoute n o b src t = if t.ilk.stack.length < Config.numStack then (joinStack n o src a t, none)
      else (t, some ⟨.stackFull, a.result.code, a.w0⟩) := by
  unfold requestRoute
  rw [h]
  exact if_neg (by simp only [hb]; decide)

/-- The stack entry of a request, with the reason and item of its check (R52, R53). -/
def requestEntry (n : Nat) (o : Originator) (src : Source) (a : Answer) (t : State) : StackEntry :=
  { route := n, originator := o, source := src, arrival := t.clock
    expiry := if t.ilk.stackTimeout = 0 then none else some (1000 * t.ilk.stackTimeout), reason := a.result
    item := a.w0 }

/-- What a stacked request's SET_ROUTE leaves of the stack. -/
theorem body_joinStack (n : Nat) (o : Originator) (src : Source) (a : Answer) (t : State) :
    body (joinStack n o src a t) = body { t with ilk := { t.ilk with stack := placeEntry (requestEntry n o src a t) t.ilk.stack } } := by
  unfold joinStack setStack
  exact body_mirrorStack _

/-- A request is stacked: it stays in hand (R52, R53). -/
theorem setRoute_joins {o : Originator} {a : Answer} (h : Ready .running s) (hw : s.work = Work.none) (hv : s.vis.queue = [])
    (ho : originatorOf w1.toNat = some o) (hr : route.toNat ≤ 511) (ha : routeRefusal s route.toNat o false = some a)
    (hb : (bitsOf w2.toNat 0 1 == 1 && a.result.transient) = true) (hroom : s.ilk.stack.length < 16) :
    Pends (.setRoute tag route w1 w2) s { s with ilk := { s.ilk with
      stack := placeEntry (requestEntry route.toNat o (.slot s.exch.takePos) a s) s.ilk.stack } } tag := by
  let q : Request := ⟨15, tag, route, w1, w2⟩
  have hlen : (taken q s).ilk.stack.length < Config.numStack := by
    rw [read_taken (fun u => u.ilk.stack) q s fun _ => rfl]; exact hroom
  have hreq := (requestRoute_stacked (src := .slot s.exch.takePos) ((routeRefusal_taken _ _ _ q).trans ha) hb).trans (if_pos hlen)
  have hbody := body_joinStack route.toNat o (.slot s.exch.takePos) a (taken q s)
  have hwork : (joinStack route.toNat o (.slot s.exch.takePos) a (taken q s)).work = s.work :=
    (read_of_body (fun u => u.work) (fun _ => rfl) hbody).trans (work_taken q s)
  have hshows : (joinStack route.toNat o (.slot s.exch.takePos) a (taken q s)).vis.queue = s.vis.queue :=
    (read_of_body (fun u => u.vis.queue) (fun _ => rfl) hbody).trans (read_taken (fun u => u.vis.queue) q s fun _ => rfl)
  refine pends_of_slots (q := q) (f := fun n => setRoute n route.toNat w1.toNat w2.toNat) rfl h rfl (by decide)
    (setRoute_pending ho hr hreq) (own_joinStack _ _ _ _ _ (own_refl _)) ((slots_setStack _ _)) ?_
    (quietEnd_of_none _ (hwork.trans hw) (hshows.trans hv))
  rw [inside_of_body hbody, taken_shape]
  rfl

/-- A request is refused and not stacked: it is answered (R51). -/
theorem setRoute_refused {o : Originator} {a : Answer} (h : Ready .running s) (hw : s.work = Work.none) (hv : s.vis.queue = [])
    (ho : originatorOf w1.toNat = some o) (hr : route.toNat ≤ 511)
    (ha : ∀ t : State, routeRefusal t route.toNat o false = routeRefusal s route.toNat o false → t.ilk.stack = s.ilk.stack →
      requestRoute route.toNat o (bitsOf w2.toNat 0 1 == 1) (.slot s.exch.takePos) t = (t, some a)) :
    Replies (.setRoute tag route w1 w2) s s tag a.result a.w0 a.w1 := by
  let q : Request := ⟨15, tag, route, w1, w2⟩
  exact replies_unchanged (q := q) (f := fun n => setRoute n route.toNat w1.toNat w2.toNat) rfl h rfl (by decide)
    (setRoute_answered ho hr (ha _ (routeRefusal_taken _ _ _ q) (read_taken (fun u => u.ilk.stack) q s fun _ => rfl))) hw hv

end Request

/-- Settles O31: a SET_ROUTE that fails, and each check by itself. -/
theorem setRouteIsRefusedOrStacked : Obligations.SetRouteIsRefusedOrStacked := by
  refine ⟨fun s tag route w1 w2 h hw hv => ⟨fun hbad => ?_, fun o a ho hr ha => ⟨fun hno => ?_, fun hbit htrans => ?_⟩⟩,
    fun s route o again => ⟨fun hnone => ?_, fun r hr => ?_⟩⟩
  · exact replies_unchanged (q := ⟨15, tag, route, w1, w2⟩) (f := fun n => setRoute n route.toNat w1.toNat w2.toNat) rfl h rfl
      (by decide) (setRoute_bad _ _ hbad) hw hv
  · have hb : ¬ (bitsOf w2.toNat 0 1 == 1 && a.result.transient) = true := by
      rw [Bool.and_eq_true, stackBit, transient_iff]
      rintro ⟨h1, h2⟩
      exact hno.elim (fun h0 => by omega) fun h3 => h3 h2
    exact setRoute_refused h hw hv ho hr fun t ht _ => requestRoute_refused (ht.trans ha) hb
  · have hb : (bitsOf w2.toNat 0 1 == 1 && a.result.transient) = true := by
      rw [Bool.and_eq_true, stackBit, transient_iff]; exact ⟨hbit, htrans⟩
    refine ⟨fun hroom => ?_, fun hfull => ?_⟩
    · have hplace := placeEntry_eq (requestEntry route.toNat o (.slot s.exch.takePos) a s) s.ilk.stack
      have hjoin := setRoute_joins (tag := tag) h hw hv ho hr ha hb hroom
      rw [hplace] at hjoin
      exact hjoin
    · refine setRoute_refused (a := ⟨.stackFull, a.result.code, a.w0⟩) h hw hv ho hr fun t ht hs => ?_
      refine (requestRoute_stacked (ht.trans ha) hb).trans (if_neg ?_)
      rw [hs, hfull]
      decide
  · unfold routeRefusal; rw [hnone]
  · intro visitors barred incompatible stuck p1 p2 p3 p4 p5 p6 p7 p8 p9 p10 p11 p12
    have hcount : visitors = visitorCount s route again := by
      unfold visitors visitorCount; simp only [isVisitor_eq]
    have hload := routeRefusal_loaded (o := o) (again := again) hr
    have unheld (h : p3) : Unheld s r route again := ⟨h.1.1, h.1.2, h.2⟩
    have visitorFree (h : p5) : visitorRefusal s r route o again = none := visitorRefusal_none (hcount ▸ h.2)
    have running (h : p4) : ¬ s.asp.cond = .allStop := by rw [h.2]; decide
    have whole (h : p6) : wholeRefusal s r route o again = none := by
      obtain ⟨e, he⟩ := Option.ne_none_iff_exists'.1 h.2
      have he' : Tbl.lowestFree s.ilk.active Config.numActive 0 = some e := he
      rw [whole_unheld (unheld h.1.1.1), if_neg (running h.1.1), visitorFree h.1, he']
      rfl
    have sections (h : p9) : sectionRefusal s r = none := sections_none h.1.1.2 h.1.2 h.2
    have atSections (h : p6) : routeRefusal s route o again
        = (sectionRefusal s r).or ((pointRefusal s r).or (tableRefusal s r)) := by rw [hload, whole h]; rfl
    have atPoints (h : p9) : routeRefusal s route o again = (pointRefusal s r).or (tableRefusal s r) := by
      rw [atSections h.1.1.1, sections h]; rfl
    have atTable (h : p12) : routeRefusal s route o again = tableRefusal s r := by
      rw [atPoints h.1.1.1, points_none h.1.1.2 h.1.2 h.2]; rfl
    refine ⟨fun e a he => ?_, fun k h1 hagain hk => ?_, fun e a h2 he => ?_, fun h3 hc => ?_, fun h4 ho hv => ?_, fun h5 hf => ?_,
      fun n h6 hn => ?_, fun n k h7 hn hk => ?_, fun n h8 hn => ?_, fun x h9 hx => ?_, fun x h more h10 hx hh => ?_,
      fun x h11 hx => ?_, fun y h12 hy hno => ?_, fun h12 hy => ?_⟩
    · rw [hload, whole_active he]; rfl
    · rw [hload, whole_stacked h1 hagain hk]; rfl
    · rw [hload, whole_entryBusy h2.1 h2.2 he]; rfl
    · rw [hload, whole_unheld (unheld h3), if_pos hc]; rfl
    · rw [hload, whole_unheld (unheld h4.1), if_neg (running h4), visitorRefusal_barred ho (hcount ▸ hv), hcount]; rfl
    · have hf' : Tbl.lowestFree s.ilk.active Config.numActive 0 = none := hf
      rw [hload, whole_unheld (unheld h5.1.1), if_neg (running h5.1), visitorFree h5, hf']; rfl
    · rw [atSections h6, sections_disabled hn]; rfl
    · rw [atSections h7.1, sections_locked h7.2 hn hk]; rfl
    · rw [atSections h8.1.1, sections_barred h8.1.2 h8.2 hn]; rfl
    · rw [atPoints h9, points_failed hx]; rfl
    · rw [atPoints h10.1, points_locked h10.2 hx hh]; rfl
    · rw [atPoints h11.1.1, points_stuck h11.1.2 h11.2 hx]; rfl
    · rw [atTable h12, table_refused hy hno]
    · rw [atTable h12, table_none hy]

end Sys2Proof.RouteRefusals
end

