-- ==== Sys2Proof/Proofs/AspectsTaken.lean ====
section
/-! The aspects, as the end of a handling takes them (R111). -/

namespace Sys2Proof.AspectsTaken

open Sys2Proof.Machine Sys2Proof.ReportLog Sys2Proof.QuietHeader Sys2Proof.TrackDetection Sys2Proof.TrackRequests
  Sys2Proof.RouteRelease

/-- A value that stands in the calm part of the state is read in either of two machines with the same calm part. -/
theorem read_of_calm {α : Type} (g : State → α) (hg : ∀ u, g u = g (calm u)) {s t : State} (h : calm s = calm t) :
    g s = g t := by rw [hg s, h, ← hg t]

theorem aspectOf_of_calm {s t : State} (h : calm s = calm t) (x : Nat) (r : SignalRec) : aspectOf s x r = aspectOf t x r :=
  read_of_calm (fun u => aspectOf u x r) (fun _ => rfl) h

theorem aspRecs_of_calm {s t : State} (h : calm s = calm t) : s.asp.recs = t.asp.recs :=
  read_of_calm (fun u => u.asp.recs) (fun _ => rfl) h

/-! ### The recomputation -/

theorem state_mirrorSignal (x : Nat) (s : State) : (mirrorSignal x s).asp.state = s.asp.state :=
  read_of_body (fun u => u.asp.state) (fun _ => rfl) (body_mirrorSignal x s)

theorem state_report (k : ReportKind) (x v1 v2 : Nat) (s : State) : (report k x v1 v2 s).asp.state = s.asp.state :=
  read_of_body (fun u => u.asp.state) (fun _ => rfl) (body_report k x v1 v2 s)

/-- A signal that is recomputed has its aspect. -/
theorem find_recomputeOne_self {s : State} {x : Nat} {r : SignalRec} {st : SignalState} (hr : Tbl.find s.asp.recs x = some r)
    (h : Tbl.find s.asp.state x = some st) :
    Tbl.find (recomputeOne x s).asp.state x = some { st with aspect := aspectOf s x r } := by
  unfold recomputeOne
  rw [hr, h]
  dsimp only
  split
  · next heq => rw [h, heq]
  · rw [state_report, state_mirrorSignal]
    unfold setSignal
    rw [modify_of_find _ h]
    exact Tbl.find_insert_self _ _ _

/-- Another signal keeps its aspect. -/
theorem find_recomputeOne_other {s : State} {x y : Nat} (h : y ≠ x) :
    Tbl.find (recomputeOne x s).asp.state y = Tbl.find s.asp.state y := by
  unfold recomputeOne
  split
  · dsimp only
    split
    · rfl
    · rw [state_report, state_mirrorSignal]
      unfold setSignal
      exact (find_modify _ _ _ _).trans (if_neg h)
  · rfl

theorem find_recomputeEach {s : State} {x : Nat} {r : SignalRec} {st : SignalState} (l : List Nat)
    (hr : Tbl.find s.asp.recs x = some r) (h : Tbl.find s.asp.state x = some st) :
    Tbl.find (eachDo l recomputeOne s).asp.state x = some (if x ∈ l then { st with aspect := aspectOf s x r } else st) := by
  unfold eachDo
  induction l generalizing s st with
  | nil => simpa using h
  | cons y l ih =>
    have hcalm := calm_recomputeOne y s
    have hr' : Tbl.find (recomputeOne y s).asp.recs x = some r := by rw [aspRecs_of_calm hcalm]; exact hr
    rw [List.foldl_cons]
    by_cases hxy : x = y
    · subst hxy
      rw [ih hr' (find_recomputeOne_self hr h), aspectOf_of_calm hcalm]
      simp
    · rw [ih hr' ((find_recomputeOne_other hxy).trans h), aspectOf_of_calm hcalm]
      simp [hxy]

theorem mem_keys_of_find {α : Type} {t : Tbl α} {x : Nat} {v : α} (h : Tbl.find t x = some v) : x ∈ Tbl.keys t :=
  List.mem_map.2 ⟨(x, v), mem_of_find h, rfl⟩

/-- A recomputation that was asked for in RUNNING gives every loaded signal its aspect (R111). -/
theorem find_recomputeAspects {s : State} {x : Nat} {r : SignalRec} {st : SignalState} (hw : s.work.aspects = true)
    (hrun : s.exch.runState = .running) (hr : Tbl.find s.asp.recs x = some r) (h : Tbl.find s.asp.state x = some st) :
    Tbl.find (recomputeAspects s).asp.state x = some { st with aspect := aspectOf s x r } := by
  unfold recomputeAspects
  rw [if_pos (by unfold State.running; simp [hw, hrun]),
    find_recomputeEach (s := { s with work := { s.work with aspects := false } }) (Tbl.keys s.asp.recs) hr h,
    if_pos (mem_keys_of_find hr)]
  rfl

/-! ### The rest of the end of a handling -/

theorem state_settleOne (i : Nat) (s : State) : (settleOne i s).asp = s.asp := by
  unfold settleOne
  split
  · rfl
  · dsimp only
    split
    · rfl
    · exact (read_of_body (fun u => u.asp) (fun _ => rfl) (body_mirrorLampWord _ _)).trans rfl

theorem asp_eachDo (l : List Nat) (f : Nat → State → State) (h : ∀ n t, (f n t).asp = t.asp) (s : State) :
    (eachDo l f s).asp = s.asp := by
  unfold eachDo
  induction l generalizing s with
  | nil => rfl
  | cons n l ih => exact (ih (f n s)).trans (h n s)

theorem asp_settleLamps (s : State) : (settleLamps s).asp = s.asp := by
  unfold settleLamps
  split
  · exact asp_eachDo _ _ state_settleOne _
  · rfl

theorem asp_settleVisitors (b s : State) : (settleVisitors b s).asp = s.asp := by
  unfold settleVisitors settleButtons
  exact (asp_eachDo _ _ (fun k t => read_of_body (fun u => u.asp) (fun _ => rfl) (body_settleVisitorWord b k t)) _).trans
    (asp_eachDo _ settleButton (fun _ _ => rfl) s)

/-- The aspects that stand after the end of a handling are those of its recomputation. -/
theorem asp_endHandling (b s : State) (h1 : s.work.step = none) (h2 : noHead s = true) :
    (endHandling b s).asp = (recomputeAspects s).asp := by
  unfold endHandling
  have hlast (u : State) : (evalStop (refreshLevels u)).asp = u.asp := rfl
  rw [runVisitor_idle s h1, testHeads_idle 16 s h2]
  dsimp only
  rw [hlast, asp_settleVisitors, asp_settleLamps]

theorem stop_endHandling (b s : State) (h1 : s.work.step = none) (h2 : noHead s = true) :
    (endHandling b s).exch.stop = stopCauseActive s := by
  have hcalm := calm_endHandling b s h1 h2
  have hstop : (endHandling b s).exch.stop = stopCauseActive (endHandling b s) := rfl
  rw [hstop]
  exact read_of_calm stopCauseActive (fun _ => rfl) hcalm

/-- A handling that asks for nothing to follow it ends with the end of its blocks. -/
theorem finish_once (b : State) {s : State} (h1 : s.work.step = none) (h2 : noHead s = true) (hp : s.work.pass = false)
    (hr : s.work.reexam = false) : finish b s = { endHandling b s with work := Work.none } := by
  have hcalm := calm_endHandling b s h1 h2
  have hp' : (endHandling b s).work.pass = false := (read_of_calm (fun u => u.work.pass) (fun _ => rfl) hcalm).trans hp
  have hr' : (endHandling b s).work.reexam = false := (read_of_calm (fun u => u.work.reexam) (fun _ => rfl) hcalm).trans hr
  unfold finish
  generalize endHandling b s = u at hp' hr'
  rw [afterWork, if_neg (by simp [hp']), if_neg (by simp [hr'])]

end Sys2Proof.AspectsTaken
end

