-- ==== Sys2Proof/Proofs/LayoutStop.lean ====
section
/-! ALL STOP and RESUME, and the STOP pin (O42, O43). -/

namespace Sys2Proof.LayoutStop

open Sys2Proof.Machine Sys2Proof.ReportLog Sys2Proof.QuietHeader Sys2Proof.TrackDetection Sys2Proof.TrackRequests
  Sys2Proof.RouteRelease Sys2Proof.PointLies Sys2Proof.SlotBytes Sys2Proof.PointOrders Sys2Proof.OrderEnds
  Sys2Proof.AspectsTaken

/-! ### A request that is answered after another slot -/

/-- An entry erased from beside a new one. -/
theorem erase_insert_other {α : Type} {t : Tbl α} {n m : Nat} (v : α) (h : Tbl.sorted t = true) (hne : n ≠ m) :
    Tbl.erase (Tbl.insert t m v) n = Tbl.insert (Tbl.erase t n) m v := by
  have hne' : m ≠ n := fun e => hne e.symm
  induction t with
  | nil => simp [Tbl.insert, Tbl.erase, hne]
  | cons x t ih =>
    obtain ⟨k, w⟩ := x
    have hhead (z : Nat) (hz : z < k) : Tbl.insert t z v = (z, v) :: t := by
      cases t with
      | nil => rfl
      | cons y t =>
        unfold Tbl.sorted at h
        have hlt : k < y.1 := by simpa using (Bool.and_eq_true_iff.1 h).1
        exact if_pos (hz.trans hlt)
    rcases Nat.lt_trichotomy m k with hlt | heq | hgt
    · rw [Tbl.insert, if_pos hlt]
      by_cases hnk : n = k
      · simp [Tbl.erase, hnk, hhead m hlt, Nat.ne_of_gt hlt]
      · simp [Tbl.erase, Tbl.insert, hne, hnk, hlt]
    · subst heq
      simp [Tbl.insert, Tbl.erase, hne]
    · have hnlt : ¬ m < k := by omega
      have hmk : m ≠ k := by omega
      by_cases hnk : n = k
      · simp [Tbl.insert, Tbl.erase, hnlt, hmk, hnk]
      · simp [Tbl.insert, Tbl.erase, hnlt, hmk, hnk, ih (Tbl.sorted_tail h)]

/-- A request is answered last in its block, which may have answered other slots: u is what the block makes of the machine,
its marks with it. -/
theorem answered_next {c : Instr} {s u v : State} {q : Request} {r : Result} {w0 w1 : Nat} {al : Allowed}
    {f : Nat → State → State} {rs : RunState} (e : exec c s = .next (requestCommand al f q s)) (h : Ready rs s)
    (hal : al.ok rs = true) (hrs : rs ≠ .initializing) (hf : f s.exch.takePos (taken q s) = complete s.exch.takePos r w0 w1 v)
    (ho : Own (taken q s) v) (hv : inside v = inside (u.inHand q.tag).served) (htake : u.exch.takePos = s.exch.takePos)
    (hmark : Tbl.find u.exch.inHand s.exch.takePos = none) (hq : quietEnd v = true) :
    ∃ t, exec c s = .next t ∧ SlotDone s.exch.takePos q.tag r w0 w1 t ∧ inside t = inside u.served ∧
      MemoryKept (some s.exch.takePos) s t ∧ Own v t := by
  have hn : s.exch.takePos < Config.numSlots := h.sound.limits.takePos
  have hmarks : v.exch.inHand = Tbl.insert u.exch.inHand s.exch.takePos q.tag := by
    have g := congrArg (fun x : State => x.exch.inHand) hv
    rw [← htake]
    exact g
  have hfind : Tbl.find v.exch.inHand s.exch.takePos = some q.tag := by rw [hmarks]; exact Tbl.find_insert_self _ _ _
  have herase : Tbl.erase v.exch.inHand s.exch.takePos = u.exch.inHand := by rw [hmarks]; exact Tbl.erase_insert _ _ _ hmark
  have hmem : v.memOk := ho.mem (mem_taken q s h.sound.mem)
  have hdone := slotDone_complete s.exch.takePos q.tag r w0 w1 v hn hmem hfind (by rw [herase]; exact hmark)
  have hin : inside (complete s.exch.takePos r w0 w1 v) = inside u.served := by
    rw [inside_of_calm (calm_complete _ _ _ _ _ hn (by rw [hfind]; rfl)), herase]
    have g := congrArg (fun x : State => ({ x with exch := { x.exch with inHand := u.exch.inHand } } : State)) hv
    exact g
  have hquiet : quietEnd (complete s.exch.takePos r w0 w1 v) = true := by
    rw [quietEnd_complete _ _ _ _ _ hn (by rw [hfind]; rfl)]; exact hq
  refine ⟨_, e, ?_⟩
  rw [request_next h hal hrs, hf]
  exact ⟨hdone.own hn (own_finish _ _ (own_refl _)), (inside_finish _ _ hquiet).trans hin,
    memoryKept_taken (own_finish _ _ (own_complete ho _ _ _ _)), own_finish _ _ (own_complete (own_refl v) _ _ _ _)⟩

/-! ### The entry into ALL STOP (R115) -/

theorem body_setDeck (f : Turntable → Turntable) (s : State) :
    body (setDeck f s) = body { s with tt := f s.tt, work := { s.work with lamps := true } } := body_mirrorTable _

/-- The machine as ALL STOP finds the deck and the routes: the condition with its cause, and the power off, reported. -/
def stopEntered (c : StopCause) (s : State) : State :=
  reportLayout (stopCauseCode (some c)) (causeItem (some c)) (setPower false (setRunCondition .allStop (some c) s))

theorem own_stopEntered {b s : State} (c : StopCause) (h : Own b s) : Own b (stopEntered c s) :=
  own_report (own_setPower (own_setRunCondition h _ _) _) _ _ _ _

/-- The condition ALL STOP with its cause, and no power (R115, R118). -/
def stoppedBy (c : StopCause) (s : State) : State :=
  { s with asp := { s.asp with cond := .allStop, cause := some c, power := false } }

theorem body_setRunCondition (c : RunCondition) (cause : Option StopCause) (s : State) :
    body (setRunCondition c cause s) = body { s with asp := { s.asp with cond := c, cause := cause } } := by
  unfold setRunCondition
  rw [body_write16, body_write8, body_write8]

theorem body_setPower (b : Bool) (s : State) : body (setPower b s) = body { s with asp := { s.asp with power := b } } :=
  body_write8 _ _ _

theorem body_stopEntered (c : StopCause) (s : State) : body (stopEntered c s) = body (stoppedBy c s) := by
  unfold stopEntered reportLayout
  rw [body_report, body_setPower]
  exact body_update (fun y => { y with asp := { y.asp with power := false } }) (fun _ => rfl) (body_setRunCondition _ _ s)

/-- An entry with no show running: the routes and the deck have their part. -/
theorem enterAllStop_eq {c : StopCause} {s v : State} (hc : s.asp.cond = .running)
    (hv : deckAllStop (routesAllStop (stopEntered c s)) = v) (hstep : v.work.step = none) (hrun : v.vis.runner = none) :
    enterAllStop c s = wantAspects (evalStop v) := by
  unfold stopEntered at hv
  unfold enterAllStop abortShow
  rw [if_neg (by rw [hc]; decide)]
  dsimp only
  rw [hv, runVisitor_idle v hstep, hrun]

/-- The deck that gives nothing up: its feed is off (R138). -/
theorem body_deckAllStop_still {s : State} (hc : s.asp.cond = .allStop) (hg : s.tt.state.givesUp = false) :
    body (deckAllStop s) = body { s with tt := { s.tt with feed := false }, work := { s.work with lamps := true } } := by
  have hfeed : feedOn s = false := by unfold feedOn; rw [hc]; simp
  unfold deckAllStop updateFeed
  rw [hg, if_neg Bool.false_ne_true, body_setDeck, hfeed]

/-- What an entry makes of the machine, where its routes and its deck have had their part. -/
theorem body_enterAllStop {c : StopCause} {s v u : State} {w : Work} (hc : s.asp.cond = .running)
    (hv : deckAllStop (routesAllStop (stopEntered c s)) = v) (hb : body v = body { u with work := w }) (hstep : w.step = none)
    (hrun : u.vis.runner = none) : body (enterAllStop c s) = body { u with work := { w with aspects := true } } := by
  rw [enterAllStop_eq hc hv (by rw [work_of_body hb]; exact hstep)
    ((read_of_body (fun y => y.vis.runner) (fun _ => rfl) hb).trans hrun)]
  exact body_update wantAspects (fun _ => rfl) hb

/-- An entry that finds no route and a deck that gives nothing up. -/
theorem body_enterAllStop_quiet {c : StopCause} {s : State} (hc : s.asp.cond = .running) (hstep : s.work.step = none)
    (hrun : s.vis.runner = none) (hroutes : s.ilk.active = []) (hg : s.tt.state.givesUp = false) :
    body (enterAllStop c s) = body { stoppedBy c s with
      tt := { s.tt with feed := false }, work := { s.work with lamps := true, aspects := true } } := by
  have hb := body_stopEntered c s
  have hread {α : Type} (g : State → α) (hg : ∀ y, g y = g (body y)) := read_of_body g hg hb
  have hnone : routesAllStop (stopEntered c s) = stopEntered c s := by
    unfold routesAllStop
    rw [hread (fun y => y.ilk.active) fun _ => rfl]
    change eachDo (Tbl.keys s.ilk.active) _ _ = _
    rw [hroutes]
    rfl
  refine body_enterAllStop (u := { stoppedBy c s with tt := { s.tt with feed := false } })
    (w := { s.work with lamps := true }) hc rfl ?_ hstep hrun
  rw [hnone, body_deckAllStop_still (hread (fun y => y.asp.cond) fun _ => rfl)
    ((congrArg DeckState.givesUp (hread (fun y => y.tt.state) fun _ => rfl)).trans hg)]
  exact (body_update (fun y => { y with tt := { y.tt with feed := false }, work := { y.work with lamps := true } })
    (fun _ => rfl) hb).trans rfl

/-! ### STOP_PIN_SAMPLE (R114) -/

/-- The pin's filter, sampled. -/
def withFilter (g : Filter) (s : State) : State := { s with asp := { s.asp with stopFilter := g } }

theorem read8_write8_own (a v : Nat) {s : State} (hm : s.memOk) (ha : a < Config.memBytes) : (s.write8 a v).read8 a = v % 256 := by
  unfold State.write8
  rw [if_pos ha]
  unfold State.read8 State.withMem
  dsimp only
  rw [Mem.read8_write8_self _ _ _ (sorted_of_memOk (s := s) hm)]
  simp

section Pin
variable {s : State} {x : Bool}

/-- The pin's filter with one more sample. -/
abbrev pinFilter (s : State) (x : Bool) : Filter := s.asp.stopFilter.sample 20 x

theorem stopPinSampled_same (h : (pinFilter s x).level = s.asp.stopFilter.level) :
    stopPinSampled x s = withFilter (pinFilter s x) s := by
  unfold stopPinSampled; exact if_pos h

/-- A changed level of the pin stands in the header. -/
theorem stopPinSampled_changed (h : (pinFilter s x).level ≠ s.asp.stopFilter.level)
    (hno : s.exch.runState ≠ .running ∨ (pinFilter s x).level = false) :
    stopPinSampled x s = (withFilter (pinFilter s x) s).write8 0x1C (bit (pinFilter s x).level 0) := by
  have hrun : ((withFilter (pinFilter s x) s).write8 0x1C (bit (pinFilter s x).level 0)).exch.runState = s.exch.runState :=
    (read_of_body (fun y => y.exch.runState) (fun _ => rfl) (body_write8 _ _ _)).trans rfl
  have hcond : ((pinFilter s x).level && ((withFilter (pinFilter s x) s).write8 0x1C (bit (pinFilter s x).level 0)).running) = false := by
    unfold State.running
    rw [hrun]
    obtain h | h := hno <;> simp [h]
  unfold stopPinSampled
  refine (if_neg h).trans ((if_neg ?_).trans rfl)
  rw [Bool.eq_false_iff] at hcond
  exact hcond

/-- A pin reported ACTIVE in RUNNING is an entry into ALL STOP. -/
theorem stopPinSampled_active (h : (pinFilter s x).level = true) (hf : s.asp.stopFilter.level = false)
    (hr : s.exch.runState = .running) :
    stopPinSampled x s = enterAllStop .pin ((withFilter (pinFilter s x) s).write8 0x1C (bit (pinFilter s x).level 0)) := by
  have hrun : ((withFilter (pinFilter s x) s).write8 0x1C (bit (pinFilter s x).level 0)).exch.runState = s.exch.runState :=
    (read_of_body (fun y => y.exch.runState) (fun _ => rfl) (body_write8 _ _ _)).trans rfl
  have hcond : ((pinFilter s x).level && ((withFilter (pinFilter s x) s).write8 0x1C (bit (pinFilter s x).level 0)).running) = true := by
    unfold State.running
    rw [hrun, hr, h]
    rfl
  unfold stopPinSampled
  exact (if_neg fun e => absurd (h.symm.trans (e.trans hf)) (by decide)).trans (if_pos hcond)

end Pin

/-- Settles O42: the STOP pin. -/
theorem stopPinStopsTheLayout : Obligations.StopPinStopsTheLayout := by
  intro s x hquiet hs f g
  have hq := hquiet.rest
  have hown := own_stopPinSampled x s (own_refl s)
  refine ⟨fun hsame => ?_, fun hne hno => ?_, fun hlevel hf hrun hc hg => ?_⟩
  · exact makes_of_body (v := stopPinSampled x s) (w := s.work) rfl hown (congrArg body (stopPinSampled_same hsame))
      (by rw [hq.work]; rfl) hq.shows hq.orders hq.stack
  · have heq := stopPinSampled_changed hne hno
    have hb : body (stopPinSampled x s) = body (withFilter g s) := by rw [heq]; exact body_write8 _ _ _
    refine ⟨makes_of_body (v := stopPinSampled x s) (w := s.work) rfl hown hb (by rw [hq.work]; rfl) hq.shows hq.orders hq.stack,
      _, rfl, ?_⟩
    have hquietEnd : quietEnd (stopPinSampled x s) = true :=
      quietEnd_of_none _ ((read_of_body (fun y => y.work) (fun _ => rfl) hb).trans hq.work)
        ((read_of_body (fun y => y.vis.queue) (fun _ => rfl) hb).trans hq.shows)
    rw [(header_finish s _ hquietEnd).read8 (by decide) (by decide), heq,
      read8_write8_own 0x1C _ (s := withFilter (pinFilter s x) s) hs.mem (by decide)]
    have hbit (b : Bool) : bit b 0 % 256 = if b then 1 else 0 := by cases b <;> rfl
    exact hbit _
  · have hb := body_write8 0x1C (bit (pinFilter s x).level 0) (withFilter (pinFilter s x) s)
    have hread {α : Type} (k : State → α) (hk : ∀ y, k y = k (body y)) := read_of_body k hk hb
    have hstop := body_enterAllStop_quiet (c := .pin) (s := (withFilter (pinFilter s x) s).write8 0x1C (bit (pinFilter s x).level 0))
      ((hread (fun y => y.asp.cond) fun _ => rfl).trans hc)
      ((hread (fun y => y.work.step) fun _ => rfl).trans (by change s.work.step = none; rw [hq.work]; rfl))
      ((hread (fun y => y.vis.runner) fun _ => rfl).trans hquiet.runner)
      ((hread (fun y => y.ilk.active) fun _ => rfl).trans hquiet.routes)
      ((congrArg DeckState.givesUp (hread (fun y => y.tt.state) fun _ => rfl)).trans hg)
    refine makes_of_body (v := stopPinSampled x s) (w := { s.work with lamps := true, aspects := true }) rfl hown ?_
      (by change s.work.step = none; rw [hq.work]; rfl) hq.shows hq.orders hq.stack
    rw [stopPinSampled_active hlevel hf hrun, hstop]
    exact (body_update (fun y => { stoppedBy .pin y with
      tt := { y.tt with feed := false }, work := { y.work with lamps := true, aspects := true } }) (fun _ => rfl) hb).trans rfl

/-! ### One active route at the entry and at RESUME (R72) -/

theorem keys_one {s : State} {e : Nat} {a : Active} (h : s.ilk.active = [(e, a)]) : Tbl.keys s.ilk.active = [e] := by
  rw [h]; rfl

theorem find_one {s : State} {e : Nat} {a : Active} (h : s.ilk.active = [(e, a)]) : Tbl.find s.ilk.active e = some a := by
  rw [h]; simp [Tbl.find]

/-- The active routes, set. -/
def withActive (l : Tbl Active) (s : State) : State := { s with ilk := { s.ilk with active := l } }

theorem putActive_one {s : State} {e : Nat} {a : Active} (b : Active) (h : s.ilk.active = [(e, a)]) :
    putActive e b s = withActive [(e, b)] s := by
  unfold putActive withActive; rw [h, insert_singleton]

theorem withActive_same {s : State} {e : Nat} {a : Active} (h : s.ilk.active = [(e, a)]) : withActive [(e, a)] s = s := by
  unfold withActive; rw [← h]

/-- At the entry a SET route becomes HELD, and a HELD one stays (R72). -/
theorem body_routesAllStop_one {s : State} {e : Nat} {a : Active} (h : s.ilk.active = [(e, a)])
    (hst : a.state = .set ∨ a.state = .held) : ∃ w, w.step = s.work.step ∧
      body (routesAllStop s) = body { withActive [(e, { a with state := .held })] s with work := w } := by
  have heq : routesAllStop s = holdRoute e .allStop 0 s := by unfold routesAllStop; rw [keys_one h]; rfl
  rw [heq]
  obtain hst | hst := hst
  · refine ⟨{ s.work with aspects := true }, rfl, ?_⟩
    rw [body_holdRoute _ _ (find_one h) hst, putActive_one _ h]
    rfl
  · refine ⟨s.work, rfl, ?_⟩
    have hsame : ({ a with state := .held } : Active) = a := by rw [← hst]
    unfold holdRoute
    rw [find_one h, hsame, withActive_same h]
    exact congrArg body (if_neg (by rw [hst]; decide))

/-- At RESUME a HELD route that is proved is SET again (R72). -/
theorem body_routesResume_proved {s : State} {e : Nat} {a : Active} {r : RouteRec} (h : s.ilk.active = [(e, a)])
    (hst : a.state = .held) (hr : Tbl.find s.ilk.routes a.route = some r) (hc : s.asp.cond = .running)
    (hp : ∀ x ∈ routePoints r, detLie s x.1 = x.2.det) (hs : ∀ n ∈ sequence r, secState s n = .clear) (hslot : a.slot = none)
    (hshow : a.show_ = none) :
    body (routesResume s) = body { withActive [(e, { a with state := .set })] s with work := { s.work with aspects := true } } := by
  have heq : routesResume s = testProved e s := by unfold routesResume; rw [keys_one h]; rfl
  have hfirst : ∀ f, (elementSections r).head? = some f → secState s f = .clear := fun f hf =>
    hs f (List.mem_append_left _ (List.mem_of_mem_head? hf))
  rw [heq, testProved_proved (find_one h) hr (.inr hst) hc (proved_of hp hs), hst,
    body_becomeSet .held (find_one h) hr hslot hshow hfirst, putActive_one _ h]
  rfl

/-- A route with a section DISABLED is not proved. -/
theorem testProved_disabled {s : State} {e n : Nat} {a : Active} {r : RouteRec}
    (ha : Tbl.find s.ilk.active e = some a) (hr : Tbl.find s.ilk.routes a.route = some r) (hn : n ∈ sequence r)
    (hd : secState s n = .disabled) : testProved e s = s := by
  have hclass : classAllows r n .disabled = false := by unfold classAllows; cases r.cls <;> simp
  have hproved : proved s r = false := by
    unfold proved
    rw [Bool.and_eq_false_iff]
    exact .inr (List.all_eq_false.2 ⟨n, hn, by rw [hd, hclass]; decide⟩)
  unfold testProved
  rw [ha]
  dsimp only
  rw [hr]
  exact if_neg (by rw [hproved]; simp)

theorem routesResume_unproved {s : State} {e : Nat} {a : Active} {r : RouteRec} (h : s.ilk.active = [(e, a)])
    (hr : Tbl.find s.ilk.routes a.route = some r)
    (hno : (∃ x ∈ routePoints r, detLie s x.1 ≠ x.2.det) ∨ ∃ n ∈ sequence r, secState s n = .disabled) : routesResume s = s := by
  have heq : routesResume s = testProved e s := by unfold routesResume; rw [keys_one h]; rfl
  rw [heq]
  obtain ⟨x, hx, hl⟩ | ⟨n, hn, hd⟩ := hno
  · exact testProved_unproved (find_one h) hr hx hl
  · exact testProved_disabled (find_one h) hr hn hd

/-! ### ALL_STOP (R116) -/

/-- The deck's feed, set. -/
def withFeed (b : Bool) (s : State) : State := { s with tt := { s.tt with feed := b } }

section Requests
variable {s : State} {tag : HostTag}

/-- What ALL_STOP does in a taken slot. -/
theorem allStop_entered (n : Nat) (q : Request) (hc : s.asp.cond = .running) :
    allStopRequest n (taken q s) = complete n .ok 0 0 (enterAllStop .request (taken q s)) := by
  unfold allStopRequest
  rw [(read_taken (fun u => u.asp.cond) q s fun _ => rfl).trans hc]
  rfl

theorem allStop_stands (n : Nat) (q : Request) (hc : s.asp.cond = .allStop) :
    allStopRequest n (taken q s) = complete n .ok 1 0 (taken q s) := by
  have hcond : (taken q s).asp.cond = .allStop := (read_taken (fun u => u.asp.cond) q s fun _ => rfl).trans hc
  unfold allStopRequest enterAllStop
  dsimp only
  rw [if_pos hcond, hcond]
  rfl

/-- ALL_STOP of a running layout with no route and a deck that gives nothing up. -/
theorem replies_allStop (h : Ready .running s) (hquiet : Quiet s) (hg : s.tt.state.givesUp = false) (hc : s.asp.cond = .running) :
    Replies (.allStop tag) s (withFeed false (stoppedBy .request s)) tag .ok 0 0 := by
  have hq := hquiet.rest
  let q : Request := ⟨19, tag, 0#32, 0#32, 0#32⟩
  have hread {α : Type} (k : State → α) (hk : ∀ u m, k (((u.inHand q.tag).served).withMem m) = k u) : k (taken q s) = k s := by
    rw [taken_shape]; exact hk s _
  refine replies_update (q := q) (f := allStopRequest) (v := enterAllStop .request (taken q s))
    (w := { s.work with lamps := true, aspects := true }) (fun u => withFeed false (stoppedBy .request u)) rfl h rfl (by decide)
    (allStop_entered _ q hc) (own_enterAllStop _ _ (own_refl _)) ?_ (by change s.work.step = none; rw [hq.work]; rfl) (fun _ => rfl)
    ⟨rfl, rfl⟩ ⟨hq.shows, hq.orders, hq.stack⟩
  rw [body_enterAllStop_quiet (hread (fun u => u.asp.cond) (fun _ _ => rfl) |>.trans hc)
    ((congrArg Work.step (work_taken q s)).trans (by rw [hq.work]; rfl))
    (hread (fun u => u.vis.runner) (fun _ _ => rfl) |>.trans hquiet.runner)
    (hread (fun u => u.ilk.active) (fun _ _ => rfl) |>.trans hquiet.routes)
    (hread (fun u => u.tt.state.givesUp) (fun _ _ => rfl) |>.trans hg), work_taken]
  rfl

/-- ALL_STOP with one SET or HELD route: it is HELD. -/
theorem replies_allStop_route {e : Nat} {a : Active} (h : Ready .running s) (hq : AtRest s) (hrun : s.vis.runner = none)
    (ha : s.ilk.active = [(e, a)]) (hg : s.tt.state.givesUp = false) (hc : s.asp.cond = .running)
    (hst : a.state = .set ∨ a.state = .held) :
    Replies (.allStop tag) s (withFeed false (stoppedBy .request (withActive [(e, { a with state := .held })] s))) tag .ok 0 0 := by
  let q : Request := ⟨19, tag, 0#32, 0#32, 0#32⟩
  have hb := body_stopEntered .request (taken q s)
  have hread {α : Type} (k : State → α) (hk : ∀ y, k y = k (body y))
      (hk' : ∀ u m, k (((u.inHand q.tag).served).withMem m) = k u) : k (stopEntered .request (taken q s)) = k (stoppedBy .request s) := by
    rw [read_of_body k hk hb, taken_shape]
    exact hk' (stoppedBy .request s) _
  obtain ⟨w, hw, hbr⟩ := body_routesAllStop_one (s := stopEntered .request (taken q s)) (e := e) (a := a)
    ((hread (fun y => y.ilk.active) (fun _ => rfl) fun _ _ => rfl).trans ha) hst
  have hstep : w.step = none := by
    rw [hw, hread (fun y => y.work) (fun _ => rfl) fun _ _ => rfl]; change s.work.step = none; rw [hq.work]; rfl
  have hv : body (deckAllStop (routesAllStop (stopEntered .request (taken q s))))
      = body { withFeed false (stoppedBy .request (withActive [(e, { a with state := .held })] (taken q s))) with
        work := { w with lamps := true } } := by
    rw [body_deckAllStop_still (read_of_body (fun y => y.asp.cond) (fun _ => rfl)
      (hbr.trans (body_update (fun y => { withActive [(e, { a with state := .held })] y with work := w }) (fun _ => rfl) hb)))
      ((congrArg DeckState.givesUp (read_of_body (fun y => y.tt.state) (fun _ => rfl)
        (hbr.trans (body_update (fun y => { withActive [(e, { a with state := .held })] y with work := w }) (fun _ => rfl) hb)))).trans
        ((read_taken (fun u => u.tt.state.givesUp) q s fun _ => rfl).trans hg))]
    refine (body_update (fun y => { y with tt := { y.tt with feed := false }, work := { y.work with lamps := true } })
      (fun _ => rfl) hbr).trans ?_
    exact (body_update (fun y => { withActive [(e, { a with state := .held })] y with
      tt := { y.tt with feed := false }, work := { w with lamps := true } }) (fun _ => rfl) hb).trans rfl
  refine replies_update (q := q) (f := allStopRequest) (v := enterAllStop .request (taken q s))
    (w := { w with lamps := true, aspects := true })
    (fun u => withFeed false (stoppedBy .request (withActive [(e, { a with state := .held })] u))) rfl h rfl (by decide)
    (allStop_entered _ q hc) (own_enterAllStop _ _ (own_refl _)) ?_ hstep (fun _ => rfl) ⟨rfl, rfl⟩ ⟨hq.shows, hq.orders, hq.stack⟩
  exact body_enterAllStop ((read_taken (fun u => u.asp.cond) q s fun _ => rfl).trans hc) rfl hv hstep
    ((read_taken (fun u => u.vis.runner) q s fun _ => rfl).trans hrun)

/-! ### RESUME (R117) -/

/-- The machine as RESUME finds the routes: the condition RUNNING, and the power on, reported. -/
def resumeEntered (s : State) : State :=
  reportLayout (stopCauseCode s.asp.cause) (causeItem s.asp.cause) (setPower true (setRunCondition .running none s))

/-- The condition RUNNING, and power (R117, R118). -/
def resumed (s : State) : State := { s with asp := { s.asp with cond := .running, cause := none, power := true } }

theorem body_resumeEntered (s : State) : body (resumeEntered s) = body (resumed s) := by
  unfold resumeEntered reportLayout
  rw [body_report, body_setPower]
  exact body_update (fun y => { y with asp := { y.asp with power := true } }) (fun _ => rfl) (body_setRunCondition _ _ s)

/-- What RESUME makes of the machine, where its routes have had their part. -/
theorem body_resumeLayout {s u : State} {w : Work} (hb : body (routesResume (resumeEntered s)) = body { u with work := w }) :
    body (resumeLayout s) = body { withFeed (feedOn u) u with work := { w with pass := true, lamps := true, aspects := true } } := by
  have hfeed : feedOn (wantPass (routesResume (resumeEntered s))) = feedOn u :=
    (read_of_body feedOn (fun _ => rfl) hb).trans rfl
  unfold resumeLayout
  change body (wantAspects (evalStop (updateFeed (wantPass (routesResume (resumeEntered s)))))) = _
  unfold updateFeed
  rw [hfeed]
  refine (body_update wantAspects (fun _ => rfl) (body_setDeck _ (wantPass (routesResume (resumeEntered s))))).trans ?_
  exact body_update (fun y => { withFeed (feedOn u) y with work := { y.work with pass := true, lamps := true, aspects := true } })
    (fun _ => rfl) hb

theorem resume_resumes (n : Nat) (q : Request) (hl : s.asp.stopFilter.level = false) (hc : s.asp.cond = .allStop) :
    resumeRequest n (taken q s) = complete n .ok 1 0 (resumeLayout (taken q s)) := by
  unfold resumeRequest
  rw [(read_taken (fun u => u.asp.stopFilter.level) q s fun _ => rfl).trans hl, if_neg Bool.false_ne_true,
    (read_taken (fun u => u.asp.cond) q s fun _ => rfl).trans hc]
  rfl

/-- RESUME from ALL STOP, which leaves the active routes l. -/
theorem replies_resume (l : Tbl Active) {w : Work} (h : Ready .running s) (hq : AtRest s) (hl : s.asp.stopFilter.level = false)
    (hc : s.asp.cond = .allStop) (hw : w.step = none)
    (hb : ∀ u, body u = body (resumed (taken ⟨20, tag, 0#32, 0#32, 0#32⟩ s)) →
      body (routesResume u) = body { withActive l (resumed (taken ⟨20, tag, 0#32, 0#32, 0#32⟩ s)) with work := w }) :
    Replies (.resume tag) s (withFeed (s.tt.state == .aligned) (withActive l (resumed s))) tag .ok 1 0 := by
  let q : Request := ⟨20, tag, 0#32, 0#32, 0#32⟩
  have hfeed : feedOn (withActive l (resumed (taken q s))) = (s.tt.state == .aligned) := by
    have hrun : (taken q s).exch.runState = .running := (read_taken (fun u => u.exch.runState) q s fun _ => rfl).trans h.state
    have hstate : (taken q s).tt.state = s.tt.state := read_taken (fun u => u.tt.state) q s fun _ => rfl
    unfold feedOn State.running resumed withActive
    dsimp only
    rw [hrun, hstate]
    simp
  have hresume := body_resumeLayout (hb (resumeEntered (taken q s)) (body_resumeEntered _))
  rw [hfeed] at hresume
  exact replies_update (q := q) (f := resumeRequest) (v := resumeLayout (taken q s))
    (w := { w with pass := true, lamps := true, aspects := true })
    (fun u => withFeed (s.tt.state == .aligned) (withActive l (resumed u))) rfl h rfl (by decide) (resume_resumes _ q hl hc)
    (own_resumeLayout _ (own_refl _)) hresume hw (fun _ => rfl) ⟨rfl, rfl⟩ ⟨hq.shows, hq.orders, hq.stack⟩

end Requests

/-! ### What an entry shows (R109, R110, R197) -/

theorem mainAspect_stopped {s : State} (h : s.asp.cond = .allStop) (x : Nat) (k : SignalKind) : mainAspect s x k = .danger := by
  unfold mainAspect; exact if_pos h

/-- In ALL STOP a DISTANT shows CAUTION and any other signal DANGER. -/
theorem aspectOf_stopped {s : State} (h : s.asp.cond = .allStop) (x : Nat) (r : SignalRec) :
    aspectOf s x r = if r.kind = .distant then .caution else .danger := by
  unfold aspectOf
  split
  · cases r.home with
    | none => rfl
    | some y =>
      dsimp only
      cases Tbl.find s.asp.recs y with
      | none => rfl
      | some q => dsimp only; rw [mainAspect_stopped h]; exact if_neg (by simp)
  · exact mainAspect_stopped h x r.kind

/-- What a handling that entered ALL STOP shows. -/
theorem finish_stopped {b v : State} (hrun : v.exch.runState = .running) (hc : v.asp.cond = .allStop) (hstep : v.work.step = none)
    (hshows : v.vis.queue = []) (hp : v.work.pass = false) (hr : v.work.reexam = false) (hw : v.work.aspects = true) :
    (finish b v).exch.stop = true ∧ ∀ x r st, Tbl.find v.asp.recs x = some r → Tbl.find v.asp.state x = some st →
      Tbl.find (finish b v).asp.state x = some { st with aspect := if r.kind = .distant then .caution else .danger } := by
  have hnoHead : noHead v = true := by unfold noHead; simp [hshows]
  have hasp := asp_endHandling b v hstep hnoHead
  have hstop := stop_endHandling b v hstep hnoHead
  rw [finish_once b hstep hnoHead hp hr]
  refine ⟨hstop.trans (by unfold stopCauseActive; rw [hc]; rfl), fun x r st hrec hst => ?_⟩
  have hshown := find_recomputeAspects hw hrun hrec hst
  rw [aspectOf_stopped hc, ← hasp] at hshown
  exact hshown

theorem allStop_shows {s : State} {tag : HostTag} (h : Ready .running s) (hquiet : Quiet s) (hg : s.tt.state.givesUp = false)
    (hc : s.asp.cond = .running) : ∃ t, exec (.allStop tag) s = .next t ∧ t.exch.stop = true ∧
      ∀ x r st, Tbl.find s.asp.recs x = some r → Tbl.find s.asp.state x = some st →
        Tbl.find t.asp.state x = some { st with aspect := if r.kind = .distant then .caution else .danger } := by
  have hq := hquiet.rest
  let q : Request := ⟨19, tag, 0#32, 0#32, 0#32⟩
  have hread {α : Type} (k : State → α) (hk : ∀ m, k (((s.inHand q.tag).served).withMem m) = k s) : k (taken q s) = k s := by
    rw [taken_shape]; exact hk _
  have hstop := body_enterAllStop_quiet (c := .request) (s := taken q s) ((hread (fun u => u.asp.cond) fun _ => rfl).trans hc)
    ((congrArg Work.step (work_taken q s)).trans (by rw [hq.work]; rfl)) ((hread (fun u => u.vis.runner) fun _ => rfl).trans hquiet.runner)
    ((hread (fun u => u.ilk.active) fun _ => rfl).trans hquiet.routes) ((hread (fun u => u.tt.state.givesUp) fun _ => rfl).trans hg)
  have hmark : Tbl.find (enterAllStop .request (taken q s)).exch.inHand s.exch.takePos = some tag := by
    refine (read_of_body (fun u => Tbl.find u.exch.inHand s.exch.takePos) (fun _ => rfl) hstop).trans ?_
    change Tbl.find (taken q s).exch.inHand s.exch.takePos = some tag
    rw [taken_mark]
    exact Tbl.find_insert_self _ _ _
  have hdone := body_completed .ok 0 0 h.sound.limits.takePos hmark
  have hcomplete {α : Type} (k : State → α) (hk : ∀ u, k u = k (body u))
      (hk' : ∀ u l, k { u with exch := { u.exch with inHand := l } } = k u) :
      k (complete s.exch.takePos .ok 0 0 (enterAllStop .request (taken q s)))
        = k { withFeed false (stoppedBy .request (taken q s)) with
          work := { (taken q s).work with lamps := true, aspects := true } } := by
    rw [read_of_body k hk hdone, hk', read_of_body k hk hstop]
    rfl
  have hshows := finish_stopped (b := s) (v := complete s.exch.takePos .ok 0 0 (enterAllStop .request (taken q s)))
    ((hcomplete (fun u => u.exch.runState) (fun _ => rfl) fun _ _ => rfl).trans ((hread (fun u => u.exch.runState) fun _ => rfl).trans h.state))
    (hcomplete (fun u => u.asp.cond) (fun _ => rfl) fun _ _ => rfl)
    ((hcomplete (fun u => u.work.step) (fun _ => rfl) fun _ _ => rfl).trans ((congrArg Work.step (work_taken q s)).trans (by rw [hq.work]; rfl)))
    ((hcomplete (fun u => u.vis.queue) (fun _ => rfl) fun _ _ => rfl).trans ((hread (fun u => u.vis.queue) fun _ => rfl).trans hq.shows))
    ((hcomplete (fun u => u.work.pass) (fun _ => rfl) fun _ _ => rfl).trans ((congrArg Work.pass (work_taken q s)).trans (by rw [hq.work]; rfl)))
    ((hcomplete (fun u => u.work.reexam) (fun _ => rfl) fun _ _ => rfl).trans
      ((congrArg Work.reexam (work_taken q s)).trans (by rw [hq.work]; rfl)))
    (hcomplete (fun u => u.work.aspects) (fun _ => rfl) fun _ _ => rfl)
  refine ⟨_, rfl, ?_⟩
  rw [request_next (q := q) (f := allStopRequest) h rfl (by decide), allStop_entered _ q hc]
  refine ⟨hshows.1, fun x r st hrec hst => hshows.2 x r st ?_ ?_⟩
  · exact (hcomplete (fun u => Tbl.find u.asp.recs x) (fun _ => rfl) fun _ _ => rfl).trans
      ((hread (fun u => Tbl.find u.asp.recs x) fun _ => rfl).trans hrec)
  · exact (hcomplete (fun u => Tbl.find u.asp.state x) (fun _ => rfl) fun _ _ => rfl).trans
      ((hread (fun u => Tbl.find u.asp.state x) fun _ => rfl).trans hst)

/-! ### A deck that gives its work up (R138) -/

theorem givesUp_iff {x : DeckState} :
    x ∈ ([.moving, .returning, .stopping, .jogging, .homing, .unbolting] : List DeckState) ↔ x.givesUp = true := by
  cases x <;> simp [DeckState.givesUp]

/-- The deck as an entry leaves it where it gives its work up. -/
def withHalted (s : State) : State := { s with tt := s.tt.halted }

/-- A deck with no slot to answer gives its work up. -/
theorem body_deckAllStop_unasked {s : State} (hg : s.tt.state.givesUp = true) (hreq : ∀ n, s.tt.requester ≠ .slot n)
    (hrun : s.vis.runner = none) : body (deckAllStop s) = body { withHalted s with work := { s.work with lamps := true } } := by
  have hb1 := body_setDeck (fun t => { t with halting := true, target := none, jogHold := none }) s
  have hb2 : body (setDeck (fun t => { t with requester := .none }) (setDeck (fun t => { t with
      halting := true, target := none, jogHold := none }) s)) = body { withHalted s with work := { s.work with lamps := true } } := by
    rw [body_setDeck]
    exact (body_update (fun y => { y with tt := { y.tt with requester := .none }, work := { y.work with lamps := true } })
      (fun _ => rfl) hb1).trans rfl
  have hrequester : (setDeck (fun t => { t with halting := true, target := none, jogHold := none }) s).tt.requester = s.tt.requester :=
    (read_of_body (fun y => y.tt.requester) (fun _ => rfl) hb1).trans rfl
  have hrunner := (read_of_body (fun y => y.vis.runner) (fun _ => rfl) hb2).trans hrun
  unfold deckAllStop
  rw [if_pos hg]
  unfold answerRequester
  dsimp only
  rw [hrequester]
  cases hr : s.tt.requester with
  | slot n => exact absurd hr (hreq n)
  | show_ n => dsimp only; unfold showTurnAnswer; rw [hrunner]; exact hb2
  | jog => exact hb2
  | none => exact hb2

/-- A deck that works for a slot gives its work up and answers the slot. -/
theorem deckAllStop_asked {s : State} {n : Nat} {other : HostTag} (hg : s.tt.state.givesUp = true) (hreq : s.tt.requester = .slot n)
    (hn : n < 32) (hm : s.memOk) (hmarks : Tbl.sorted s.exch.inHand = true) (hmark : Tbl.find s.exch.inHand n = some other) :
    SlotDone n other .allStop 0 0 (deckAllStop s) ∧ body (deckAllStop s) = body { withHalted s with
      exch := { s.exch with inHand := Tbl.erase s.exch.inHand n }, work := { s.work with lamps := true } } := by
  have hb1 := body_setDeck (fun t => { t with halting := true, target := none, jogHold := none }) s
  generalize hu : setDeck (fun t => { t with requester := .none }) (setDeck (fun t => { t with
      halting := true, target := none, jogHold := none }) s) = u
  have hb2 : body u = body { withHalted s with work := { s.work with lamps := true } } := by
    rw [← hu, body_setDeck]
    exact (body_update (fun y => { y with tt := { y.tt with requester := .none }, work := { y.work with lamps := true } })
      (fun _ => rfl) hb1).trans rfl
  have hrequester : (setDeck (fun t => { t with halting := true, target := none, jogHold := none }) s).tt.requester = .slot n :=
    (read_of_body (fun y => y.tt.requester) (fun _ => rfl) hb1).trans hreq
  have heq : deckAllStop s = complete n .allStop 0 0 u := by
    unfold deckAllStop
    rw [if_pos hg]
    unfold answerRequester
    dsimp only
    rw [hrequester, hu]
  have hhand : u.exch.inHand = s.exch.inHand := (read_of_body (fun y => y.exch.inHand) (fun _ => rfl) hb2).trans rfl
  have hmem : u.memOk := by rw [← hu]; exact (own_setDeck _ _ (own_setDeck _ _ (own_refl s))).mem hm
  rw [heq]
  refine ⟨slotDone_completed _ _ _ hn hmem (by rw [hhand]; exact hmark) (by rw [hhand]; exact hmarks), ?_⟩
  rw [body_completed _ _ _ hn (by rw [hhand]; exact hmark), hhand]
  exact (body_update (fun y => { y with exch := { y.exch with inHand := Tbl.erase s.exch.inHand n } }) (fun _ => rfl) hb2).trans rfl

theorem routesAllStop_none {s : State} (h : s.ilk.active = []) : routesAllStop s = s := by unfold routesAllStop; rw [h]; rfl

/-- The entry is given the state that the entry's report left, with the routes' part none. -/
theorem stopEntered_read {α : Type} (k : State → α) (hk : ∀ y, k y = k (body y)) (c : StopCause) (s : State)
    (hk' : k (stoppedBy c s) = k s) : k (stopEntered c s) = k s := (read_of_body k hk (body_stopEntered c s)).trans hk'

section GivesUp
variable {s : State} {tag : HostTag}

/-- ALL_STOP where the deck works for no slot. -/
theorem replies_allStop_unasked (h : Ready .running s) (hq : AtRest s) (hrun : s.vis.runner = none) (ha : s.ilk.active = [])
    (hc : s.asp.cond = .running) (hg : s.tt.state.givesUp = true) (hreq : ∀ n, s.tt.requester ≠ .slot n) :
    Replies (.allStop tag) s (withHalted (stoppedBy .request s)) tag .ok 0 0 := by
  let q : Request := ⟨19, tag, 0#32, 0#32, 0#32⟩
  have hread {α : Type} (k : State → α) (hk : ∀ m, k (((s.inHand q.tag).served).withMem m) = k s) : k (taken q s) = k s := by
    rw [taken_shape]; exact hk _
  have hb := body_stopEntered .request (taken q s)
  have hdeck : body (deckAllStop (routesAllStop (stopEntered .request (taken q s))))
      = body { withHalted (stoppedBy .request (taken q s)) with work := { s.work with lamps := true } } := by
    rw [routesAllStop_none ((stopEntered_read (fun y => y.ilk.active) (fun _ => rfl) _ _ rfl).trans
        ((hread (fun y => y.ilk.active) fun _ => rfl).trans ha)),
      body_deckAllStop_unasked
        ((stopEntered_read (fun y => y.tt.state.givesUp) (fun _ => rfl) _ _ rfl).trans ((hread (fun y => y.tt.state.givesUp) fun _ => rfl).trans hg))
        (fun n => by
          rw [(stopEntered_read (fun y => y.tt.requester) (fun _ => rfl) _ _ rfl).trans (hread (fun y => y.tt.requester) fun _ => rfl)]
          exact hreq n)
        ((stopEntered_read (fun y => y.vis.runner) (fun _ => rfl) _ _ rfl).trans ((hread (fun y => y.vis.runner) fun _ => rfl).trans hrun)),
      (stopEntered_read (fun y => y.work) (fun _ => rfl) _ _ rfl).trans (work_taken q s)]
    exact body_update (fun y => { withHalted y with work := { s.work with lamps := true } }) (fun _ => rfl) hb
  have hstep : ({ s.work with lamps := true } : Work).step = none := by rw [hq.work]; rfl
  exact replies_update (q := q) (f := allStopRequest) (v := enterAllStop .request (taken q s))
    (w := { s.work with lamps := true, aspects := true }) (fun u => withHalted (stoppedBy .request u)) rfl h rfl (by decide)
    (allStop_entered _ q hc) (own_enterAllStop _ _ (own_refl _))
    (body_enterAllStop ((hread (fun y => y.asp.cond) fun _ => rfl).trans hc) rfl hdeck hstep
      ((hread (fun y => y.vis.runner) fun _ => rfl).trans hrun)) hstep (fun _ => rfl) ⟨rfl, rfl⟩ ⟨hq.shows, hq.orders, hq.stack⟩

/-- ALL_STOP where the deck works for a slot: both slots are answered. -/
theorem allStop_asked {n : Nat} {other : HostTag} (h : Ready .running s) (hq : AtRest s) (hrun : s.vis.runner = none)
    (ha : s.ilk.active = []) (hc : s.asp.cond = .running) (hg : s.tt.state.givesUp = true) (hreq : s.tt.requester = .slot n)
    (hn : n < 32) (hne : n ≠ s.exch.takePos) (hmarks : Tbl.sorted s.exch.inHand = true) (hmark : Tbl.find s.exch.inHand n = some other) :
    ∃ t, exec (.allStop tag) s = .next t ∧ SlotDone s.exch.takePos tag .ok 0 0 t ∧ SlotDone n other .allStop 0 0 t ∧
      MemoryKept (some s.exch.takePos) s t ∧ inside t = inside ({ withHalted (stoppedBy .request s) with
        exch := { s.exch with inHand := Tbl.erase s.exch.inHand n } } : State).served := by
  let q : Request := ⟨19, tag, 0#32, 0#32, 0#32⟩
  have hread {α : Type} (k : State → α) (hk : ∀ m, k (((s.inHand q.tag).served).withMem m) = k s) : k (taken q s) = k s := by
    rw [taken_shape]; exact hk _
  have hb := body_stopEntered .request (taken q s)
  have hhand : (stopEntered .request (taken q s)).exch.inHand = Tbl.insert s.exch.inHand s.exch.takePos tag :=
    (stopEntered_read (fun y => y.exch.inHand) (fun _ => rfl) _ _ rfl).trans (taken_mark q s)
  have hmem := (own_stopEntered .request (own_refl (taken q s))).mem (mem_taken q s h.sound.mem)
  have hsorted : Tbl.sorted (Tbl.insert s.exch.inHand s.exch.takePos tag) = true := Tbl.sorted_insert _ _ _ hmarks
  have hcond : (taken q s).asp.cond = .running := (hread (fun y => y.asp.cond) fun _ => rfl).trans hc
  obtain ⟨hdone, hdeck⟩ := deckAllStop_asked (s := stopEntered .request (taken q s)) (n := n) (other := other)
    ((stopEntered_read (fun y => y.tt.state.givesUp) (fun _ => rfl) _ _ rfl).trans ((hread (fun y => y.tt.state.givesUp) fun _ => rfl).trans hg))
    ((stopEntered_read (fun y => y.tt.requester) (fun _ => rfl) _ _ rfl).trans ((hread (fun y => y.tt.requester) fun _ => rfl).trans hreq))
    hn hmem (by rw [hhand]; exact hsorted) (by rw [hhand, Tbl.find_insert_other _ _ _ _ hne]; exact hmark)
  have hnone := routesAllStop_none ((stopEntered_read (fun y => y.ilk.active) (fun _ => rfl) .request (taken q s) rfl).trans
    ((hread (fun y => y.ilk.active) fun _ => rfl).trans ha))
  have hdeck' : body (deckAllStop (routesAllStop (stopEntered .request (taken q s))))
      = body { withHalted (stoppedBy .request { s.served with exch := { s.served.exch with
          inHand := Tbl.insert (Tbl.erase s.exch.inHand n) s.exch.takePos tag } }) with work := { s.work with lamps := true } } := by
    rw [hnone, hdeck, hhand, erase_insert_other _ hmarks hne, (stopEntered_read (fun y => y.work) (fun _ => rfl) _ _ rfl).trans (work_taken q s)]
    refine (body_update (fun y => { withHalted y with
      exch := { y.exch with inHand := Tbl.insert (Tbl.erase s.exch.inHand n) s.exch.takePos tag }, work := { s.work with lamps := true } })
      (fun _ => rfl) hb).trans ?_
    rw [taken_shape]
    rfl
  have hstep : ({ s.work with lamps := true } : Work).step = none := by rw [hq.work]; rfl
  have hstop := body_enterAllStop hcond rfl hdeck' hstep hrun
  have hquiet : quietEnd (enterAllStop .request (taken q s)) = true := by
    have hreadStop {α : Type} (k : State → α) (hk : ∀ y, k y = k (body y)) := read_of_body k hk hstop
    exact quietEnd_of_empty _ ((hreadStop (fun y => y.work.step) fun _ => rfl).trans hstep)
      ((hreadStop (fun y => y.vis.queue) fun _ => rfl).trans hq.shows) ((hreadStop (fun y => y.pts.queue) fun _ => rfl).trans hq.orders)
      ((hreadStop (fun y => y.ilk.stack) fun _ => rfl).trans hq.stack)
  obtain ⟨t, ht, hreply, hin, hkept, hown⟩ := answered_next (c := .allStop tag) (q := q) (al := .running) (f := allStopRequest) (u := { withHalted (stoppedBy .request s) with
      exch := { s.exch with inHand := Tbl.erase s.exch.inHand n } }) rfl h rfl (by decide) (allStop_entered _ q hc)
    (own_enterAllStop _ _ (own_refl _)) ((inside_of_body hstop).trans rfl) rfl
    (by rw [Tbl.find_erase_other _ _ _ hne.symm]; exact h.mark) hquiet
  refine ⟨t, ht, hreply, ?_, hkept, hin⟩
  have hstep' : (deckAllStop (routesAllStop (stopEntered .request (taken q s)))).work.step = none := by
    rw [work_of_body hdeck']; exact hstep
  have hrun' : (deckAllStop (routesAllStop (stopEntered .request (taken q s)))).vis.runner = none :=
    (read_of_body (fun y => y.vis.runner) (fun _ => rfl) hdeck').trans hrun
  have heq := enterAllStop_eq hcond rfl hstep' hrun'
  rw [hnone] at heq
  rw [heq] at hown
  exact (hdone.own hn (own_wantAspects _ (own_evalStop (own_refl _)))).own hn hown

end GivesUp

/-- Settles O43: ALL STOP and RESUME. -/
theorem allStopAndResume : Obligations.AllStopAndResume := by
  refine ⟨fun s tag h hquiet hg => ⟨fun hc => ?_, fun hc => ?_, fun hl => ?_, fun hl hc => ?_, fun hl hc => ?_, fun hc => ?_⟩,
    fun s tag e a h hq hrun ha hg => ⟨fun hc hst => ?_, fun hc hst => ?_, fun r hl hc hst hr => ⟨fun hp hs hslot hshow => ?_,
      fun hno => ?_⟩⟩, fun s tag h hq hrun ha hc hst => ⟨fun hreq => ?_, fun n other hreq hn hne hmarks hmark => ?_⟩⟩
  · exact replies_same (q := ⟨19, tag, 0#32, 0#32, 0#32⟩) (f := allStopRequest) rfl h rfl (by decide) (allStop_stands _ _ hc) hquiet.rest
  · exact replies_allStop h hquiet hg hc
  · refine replies_same (q := ⟨20, tag, 0#32, 0#32, 0#32⟩) (f := resumeRequest) rfl h rfl (by decide) ?_ hquiet.rest
    unfold resumeRequest
    exact if_pos ((read_taken (fun u => u.asp.stopFilter.level) _ s fun _ => rfl).trans hl)
  · refine replies_same (q := ⟨20, tag, 0#32, 0#32, 0#32⟩) (f := resumeRequest) rfl h rfl (by decide) ?_ hquiet.rest
    unfold resumeRequest
    rw [(read_taken (fun u => u.asp.stopFilter.level) _ s fun _ => rfl).trans hl, if_neg Bool.false_ne_true,
      (read_taken (fun u => u.asp.cond) _ s fun _ => rfl).trans hc]
    rfl
  · refine replies_resume (tag := tag) s.ilk.active (w := s.work) h hquiet.rest hl hc (by rw [hquiet.rest.work]; rfl) fun u hu => ?_
    have hnone : routesResume u = u := by
      unfold routesResume
      rw [(read_of_body (fun y => y.ilk.active) (fun _ => rfl) hu).trans
        ((read_taken (fun y => y.ilk.active) _ s fun _ => rfl).trans hquiet.routes)]
      rfl
    rw [hnone, hu, taken_shape]
    rfl
  · obtain ⟨t, ht, hstop, hshown⟩ := allStop_shows (tag := tag) h hquiet hg hc
    exact ⟨t, ht, hstop, fun x r st hrec hst => ⟨_, hshown x r st hrec hst, rfl, rfl⟩⟩
  · exact replies_allStop_route h hq hrun ha hg hc (.inl hst)
  · exact replies_allStop_route h hq hrun ha hg hc (.inr hst)
  · refine replies_resume (tag := tag) [(e, { a with state := .set })] (w := { s.work with aspects := true }) h hq hl hc
      (by rw [hq.work]; rfl) fun u hu => ?_
    have hread {α : Type} (k : State → α) (hk : ∀ y, k y = k (body y)) (hk' : ∀ m, k (resumed (((s.inHand tag).served).withMem m)) = k s) :
        k u = k s := by rw [read_of_body k hk hu, taken_shape]; exact hk' _
    rw [body_routesResume_proved (r := r) ((hread (fun y => y.ilk.active) (fun _ => rfl) fun _ => rfl).trans ha) hst
      ((hread (fun y => Tbl.find y.ilk.routes a.route) (fun _ => rfl) fun _ => rfl).trans hr)
      (read_of_body (fun y => y.asp.cond) (fun _ => rfl) hu)
      (fun x hx => (hread (fun y => detLie y x.1) (fun _ => rfl) fun _ => rfl).trans (hp x hx))
      (fun n hn => (hread (fun y => secState y n) (fun _ => rfl) fun _ => rfl).trans (hs n hn)) hslot hshow,
      hread (fun y => y.work) (fun _ => rfl) fun _ => rfl]
    exact body_update (fun y => { withActive [(e, { a with state := .set })] y with work := { s.work with aspects := true } })
      (fun _ => rfl) hu
  · have hheld : ({ a with state := .held } : Active) = a := by rw [← hst]
    have hact : s.ilk.active = [(e, { a with state := .held })] := by rw [hheld]; exact ha
    refine replies_resume (tag := tag) [(e, { a with state := .held })] (w := s.work) h hq hl hc (by rw [hq.work]; rfl) fun u hu => ?_
    have hread {α : Type} (k : State → α) (hk : ∀ y, k y = k (body y)) (hk' : ∀ m, k (resumed (((s.inHand tag).served).withMem m)) = k s) :
        k u = k s := by rw [read_of_body k hk hu, taken_shape]; exact hk' _
    have hsame : routesResume u = u := by
      refine routesResume_unproved (r := r) ((hread (fun y => y.ilk.active) (fun _ => rfl) fun _ => rfl).trans ha)
        ((hread (fun y => Tbl.find y.ilk.routes a.route) (fun _ => rfl) fun _ => rfl).trans hr) ?_
      obtain ⟨x, hx, hl⟩ | ⟨n, hn, hd⟩ := hno
      · exact .inl ⟨x, hx, by rw [hread (fun y => detLie y x.1) (fun _ => rfl) fun _ => rfl]; exact hl⟩
      · exact .inr ⟨n, hn, (hread (fun y => secState y n) (fun _ => rfl) fun _ => rfl).trans hd⟩
    rw [hsame, hu, ← hact, taken_shape]
    rfl
  · exact replies_allStop_unasked h hq hrun ha hc (givesUp_iff.1 hst) hreq
  · exact allStop_asked h hq hrun ha hc (givesUp_iff.1 hst) hreq hn hne hmarks hmark

end Sys2Proof.LayoutStop
end

