-- ==== Sys2Proof/Proofs/DeckStates.lean ====
section
/-! What each operation of the turntable controller makes of the deck, and that it makes nothing of anything else. -/

namespace Sys2Proof.DeckStates

open Sys2Proof.Machine Sys2Proof.ReportLog Sys2Proof.QuietHeader Sys2Proof.TrackRequests Sys2Proof.RouteRelease
  Sys2Proof.PointLies Sys2Proof.SlotBytes Sys2Proof.LayoutStop

/-- The machine v is s with the deck t, but for the outputs and the work that is asked for; the bytes of the slots are those
of s. -/
structure DeckOf (s v : State) (t : Turntable) : Prop where
  alone : ∃ w, w.step = s.work.step ∧ body v = body { s with tt := t, work := w }
  slots : SlotsKept s v

theorem DeckOf.refl (s : State) : DeckOf s s s.tt := ⟨⟨s.work, rfl, rfl⟩, SlotsKept.refl s⟩

theorem DeckOf.read {s v : State} {t : Turntable} (h : DeckOf s v t) {α : Type} (g : State → α) (hg : ∀ y, g y = g (body y))
    (hg' : ∀ y w, g { y with work := w } = g y) : g v = g { s with tt := t } := by
  obtain ⟨w, -, hb⟩ := h.alone
  exact (read_of_body g hg hb).trans (hg' { s with tt := t } w)

theorem DeckOf.tt {s v : State} {t : Turntable} (h : DeckOf s v t) : v.tt = t := h.read (fun y => y.tt) (fun _ => rfl) fun _ _ => rfl

theorem DeckOf.cond {s v : State} {t : Turntable} (h : DeckOf s v t) : v.asp.cond = s.asp.cond :=
  h.read (fun y => y.asp.cond) (fun _ => rfl) fun _ _ => rfl

theorem DeckOf.runState {s v : State} {t : Turntable} (h : DeckOf s v t) : v.exch.runState = s.exch.runState :=
  h.read (fun y => y.exch.runState) (fun _ => rfl) fun _ _ => rfl

/-- The deck changed, with any work asked for but the runner's. -/
theorem DeckOf.update {s v : State} {t : Turntable} (h : DeckOf s v t) {u : State} {f : Turntable → Turntable} {k : Work → Work}
    (hb : body u = body { v with tt := f v.tt, work := k v.work }) (hk : ∀ w, (k w).step = w.step) (hs : SlotsKept v u) :
    DeckOf s u (f t) := by
  obtain ⟨w, hw, hv⟩ := h.alone
  exact ⟨⟨k w, (hk w).trans hw, hb.trans (body_update (fun y => { y with tt := f y.tt, work := k y.work }) (fun _ => rfl) hv)⟩,
    h.slots.trans hs⟩

/-- Outputs alone changed. -/
theorem DeckOf.same {s v u : State} {t : Turntable} (h : DeckOf s v t) (hb : body u = body v) (hs : SlotsKept v u) : DeckOf s u t :=
  h.update (f := id) (k := id) hb (fun _ => rfl) hs

theorem slots_writeTable (word : Nat → Nat) (s : State) : SlotsKept s (writeTable word s) :=
  slots_eachDo _ _ (fun k t => slots_writeWord Config.tableMirror 16 k (word k) t (by decide)) s

theorem slots_mirrorTable (s : State) : SlotsKept s (mirrorTable s) := by
  unfold mirrorTable
  cases s.tt.deck with
  | none => exact slots_writeTable _ _
  | some d => exact slots_writeTable _ _

theorem DeckOf.setDeck {s v : State} {t : Turntable} (h : DeckOf s v t) (f : Turntable → Turntable) : DeckOf s (setDeck f v) (f t) :=
  h.update (k := fun w => { w with lamps := true }) (body_setDeck f v) (fun _ => rfl)
    ((slots_mirrorTable { v with tt := f v.tt, work := { v.work with lamps := true } }).from rfl)

/-! ### Entries into a deck state (R125, R134, R139) -/

/-- The feed of a deck in a state (R125). -/
def feedIn (s : State) (new : DeckState) : Bool := new == .aligned && s.running && s.asp.cond == .running

theorem DeckOf.enterDeck_feed {s v : State} {t : Turntable} (h : DeckOf s v t) (new : DeckState) :
    DeckOf s (enterDeck new v) { t with state := new, feed := feedIn s new } := by
  have hstate : DeckOf s { v with tt := { v.tt with state := new } } { t with state := new } :=
    h.update (f := fun t => { t with state := new }) (k := id) rfl (fun _ => rfl) (slots_of_mem rfl)
  have hfeed : feedOn { v with tt := { v.tt with state := new } } = feedIn s new := by
    unfold feedOn feedIn State.running
    dsimp only
    rw [h.runState, h.cond]
  have hupdate : DeckOf s (updateFeed { v with tt := { v.tt with state := new } }) { t with state := new, feed := feedIn s new } := by
    rw [← hfeed]
    exact hstate.setDeck fun t => { t with feed := feedOn { v with tt := { v.tt with state := new } } }
  unfold enterDeck
  dsimp only
  generalize updateFeed { v with tt := { v.tt with state := new } } = u at hupdate ⊢
  have heval : DeckOf s (if v.tt.state = .fault || new = .fault then evalStop u else u) { t with state := new, feed := feedIn s new } := by
    split
    · exact hupdate.same rfl (slots_of_mem rfl)
    · exact hupdate
  exact heval.same (body_report _ _ _ _ _) (slots_report _ _ _ _ _)

theorem DeckOf.enterDeck {s v : State} {t : Turntable} (h : DeckOf s v t) {new : DeckState} (hnew : new ≠ .aligned) :
    DeckOf s (enterDeck new v) { t with state := new, feed := false } := by
  have hfeed : feedIn s new = false := by unfold feedIn; simp [hnew]
  rw [← hfeed]
  exact h.enterDeck_feed new

section
variable {s v : State} {t : Turntable}

theorem DeckOf.enterHalted (h : DeckOf s v t) :
    DeckOf s (enterHalted v) { t.quiet with target := none, requester := .none, state := .halted, feed := false } :=
  (h.setDeck fun t => { t.quiet with target := none, requester := .none }).enterDeck (by decide)

theorem DeckOf.enterUnreferenced (h : DeckOf s v t) : DeckOf s (enterUnreferenced v)
    { t.quiet with target := none, requester := .none, boltOut := false, pos := none, state := .unreferenced, feed := false } :=
  (h.setDeck fun t => { t.quiet with target := none, requester := .none, boltOut := false, pos := none }).enterDeck (by decide)

/-- A bolted deck whose bolt has not engaged comes to BOLTING and waits (R126). -/
theorem DeckOf.enterBolting (h : DeckOf s v t) {d : DeckRec} (hbolt : d.bolt = true) (htime : d.boltTime ≠ 0)
    (hout : engaged t = false) : DeckOf s (enterBolting d v) { t with
      settleTimer := none, boltOut := false, state := .bolting, feed := false, boltTimer := some d.boltTime } := by
  have hdeck := (h.setDeck fun t => { t with settleTimer := none, boltOut := if d.bolt then false else t.boltOut }).enterDeck
    (new := .bolting) (by decide)
  unfold Machine.enterBolting
  dsimp only
  generalize Machine.enterDeck .bolting _ = u at hdeck ⊢
  rw [hbolt, if_pos rfl] at hdeck
  rw [hbolt]
  have hout' : engaged u.tt = false := by rw [hdeck.tt]; exact hout
  rw [if_neg (by simp [hout']), if_neg htime]
  exact hdeck.setDeck fun t => { t with boltTimer := some d.boltTime }

theorem DeckOf.enterSettling (h : DeckOf s v t) {d : DeckRec} (htime : d.settleTime ≠ 0) : DeckOf s (enterSettling d v)
    { t.quiet with state := .settling, feed := false, settleTimer := some d.settleTime } := by
  unfold Machine.enterSettling
  rw [if_neg htime]
  exact ((h.setDeck fun t => t.quiet).enterDeck (by decide)).setDeck fun t => { t with settleTimer := some d.settleTime }

/-! ### Legs (R129, R146, R150) -/

theorem DeckOf.planMove (h : DeckOf s v t) {d : DeckRec} {goal p : Nat} (hp : t.pos = some p) : DeckOf s (planMove d goal v)
    { t with legCw := (legs d p goal).1, legSteps := (legs d p goal).2.1, legDone := 0, returnSteps := (legs d p goal).2.2 } := by
  unfold Machine.planMove
  split
  · next hn => rw [h.tt, hp] at hn; cases hn
  · next p' hp' =>
    rw [h.tt, hp] at hp'
    obtain rfl := Option.some.inj hp'
    exact h.setDeck fun t => { t with
      legCw := (legs d p goal).1, legSteps := (legs d p goal).2.1, legDone := 0, returnSteps := (legs d p goal).2.2 }

/-- The deck as a leg begins. -/
def onLeg (d : DeckRec) (t : Turntable) : Turntable :=
  { t with dirAcw := !t.legCw, gen := some (beginStep (legRate d t.legSteps 0)), stepOut := false }

theorem DeckOf.beginLeg (h : DeckOf s v t) (d : DeckRec) : DeckOf s (beginLeg d v) (onLeg d t) := h.setDeck (onLeg d)

theorem DeckOf.enterMoving (h : DeckOf s v t) (d : DeckRec) :
    DeckOf s (enterMoving d v) { onLeg d t with state := .moving, feed := false } := (h.beginLeg d).enterDeck (by decide)

theorem DeckOf.nextStep (h : DeckOf s v t) (r : Nat) : DeckOf s (nextStep r v) { t with gen := some (beginStep r), stepOut := false } :=
  h.setDeck fun t => { t with gen := some (beginStep r), stepOut := false }

/-- A stop of a CONTINUOUS deck, or one that no jog began, takes the stop length of the rate (R151). -/
theorem DeckOf.enterStopping (h : DeckOf s v t) {d : DeckRec} {g : Generator} (hg : t.gen = some g)
    (hstop : t.requester ≠ .jog ∨ d.stop = none) : DeckOf s (enterStopping d v)
      { t with legSteps := stopLength d g.rate, returnSteps := 0, jogHold := none, state := .stopping, feed := false } := by
  have hsteps : t.requester = .jog → t.pos.bind (stepsToStop d t.legCw) = none := fun hj => by
    obtain hn | hd := hstop
    · exact absurd hj hn
    · cases t.pos <;> simp [stepsToStop, hd]
  have hlength : (if t.requester = .jog then match t.pos.bind (stepsToStop d t.legCw) with
        | some k => min (stopLength d g.rate) k
        | none => stopLength d g.rate
      else stopLength d g.rate) = stopLength d g.rate := by
    split
    · next hj => rw [hsteps hj]
    · rfl
  have heq : Machine.enterStopping d v = Machine.enterDeck .stopping (Machine.setDeck (fun t => { t with
      legSteps := stopLength d g.rate, returnSteps := 0, jogHold := none }) v) := by
    rw [← hlength]
    unfold Machine.enterStopping
    rw [h.tt, hg]
    rfl
  rw [heq]
  exact (h.setDeck fun t => { t with legSteps := stopLength d g.rate, returnSteps := 0, jogHold := none }).enterDeck (by decide)

/-- A CONTINUOUS deck has no stop limit (R136). -/
theorem stopLimit_continuous {d : DeckRec} (t : Turntable) (r : Nat) (h : d.stop = none) : stopLimit d t r = false := by
  unfold stopLimit; cases t.pos <;> simp [stepsToStop, h]

theorem DeckOf.enterJogging (h : DeckOf s v t) {d : DeckRec} (hd : d.stop = none) : DeckOf s (enterJogging d v) { t with
    legCw := t.jogCw, legSteps := 0, legDone := 0, returnSteps := 0, state := .jogging, feed := false, dirAcw := !t.jogCw
    gen := some (beginStep (jogRate d 0)), stepOut := false } := by
  have hdeck := (h.setDeck fun t => { t with legCw := t.jogCw, legSteps := 0, legDone := 0, returnSteps := 0 }).enterDeck
    (new := .jogging) (by decide)
  unfold Machine.enterJogging
  dsimp only
  rw [stopLimit_continuous _ _ hd, if_neg Bool.false_ne_true]
  exact hdeck.setDeck fun t => { t with dirAcw := !t.jogCw, gen := some (beginStep (jogRate d 0)), stepOut := false }

/-- HOMING begins: the index is read by a free value (R131, log 6). -/
theorem DeckOf.enterHoming (h : DeckOf s v t) (d : DeckRec) : ∃ level, DeckOf { s with free := s.free + 1 } (enterHoming d v) { t with
    lastIndex := level, search := 0, legCw := true, dirAcw := false, gen := some (beginStep d.v0), stepOut := false
    state := .homing, feed := false } := by
  obtain ⟨w, hw, hb⟩ := h.alone
  have hfree : v.free = s.free := h.read (fun y => y.free) (fun _ => rfl) fun _ _ => rfl
  have huse : DeckOf { s with free := s.free + 1 } (useFree v) t :=
    ⟨⟨w, hw, (body_update (fun y => { y with free := s.free + 1 }) (fun _ => rfl) hb) ▸ (by unfold useFree; rw [hfree])⟩, h.slots.trans (slots_of_mem rfl)⟩
  exact ⟨Config.indexReading v.free, (huse.setDeck fun t => { t with
    lastIndex := Config.indexReading v.free, search := 0, legCw := true, dirAcw := false, gen := some (beginStep d.v0)
    stepOut := false }).enterDeck (by decide)⟩

/-- A bolted deck whose bolt has not been withdrawn comes to UNBOLTING and waits (R126). -/
theorem DeckOf.enterUnbolting (h : DeckOf s v t) {d : DeckRec} (hbolt : d.bolt = true) (htime : d.boltTime ≠ 0)
    (hin : withdrawn t = false) : DeckOf s (enterUnbolting d v) { t with
      align := none, boltOut := true, state := .unbolting, feed := false, boltTimer := some d.boltTime } := by
  have hdeck := (h.setDeck fun t => { t with align := none, boltOut := if d.bolt then true else t.boltOut }).enterDeck
    (new := .unbolting) (by decide)
  unfold Machine.enterUnbolting
  dsimp only
  generalize Machine.enterDeck .unbolting _ = u at hdeck ⊢
  rw [hbolt, if_pos rfl] at hdeck
  rw [hbolt]
  have hin' : withdrawn u.tt = false := by rw [hdeck.tt]; exact hin
  rw [if_neg (by simp [hin']), if_neg htime]
  exact hdeck.setDeck fun t => { t with boltTimer := some d.boltTime }

/-! ### From the deck to the command -/

theorem DeckOf.quiet (h : DeckOf s v t) (hq : AtRest s) : quietEnd v = true := by
  obtain ⟨w, hw, hb⟩ := h.alone
  refine quietEnd_of_empty v ?_ ?_ ?_ ?_
  · rw [work_of_body hb]; change w.step = none; rw [hw, hq.work]; rfl
  · exact (h.read (fun y => y.vis.queue) (fun _ => rfl) fun _ _ => rfl).trans hq.shows
  · exact (h.read (fun y => y.pts.queue) (fun _ => rfl) fun _ _ => rfl).trans hq.orders
  · exact (h.read (fun y => y.ilk.stack) (fun _ => rfl) fun _ _ => rfl).trans hq.stack

theorem DeckOf.inside (h : DeckOf s v t) : inside v = inside { s with tt := t } := by
  obtain ⟨w, -, hb⟩ := h.alone
  exact (inside_of_body hb).trans rfl

/-- A command whose handling changes the deck alone. -/
theorem DeckOf.makes (h : DeckOf s v t) {c : Instr} (hc : exec c s = .next (finish s v)) (hq : AtRest s) (ho : Own s v) :
    Makes c s { s with tt := t } := makes_finish hc (h.quiet hq) h.inside ho

end

end Sys2Proof.DeckStates
end

