-- ==== Sys2Proof/Proofs/DeckMotion.lean ====
section
/-! The deck as it steps: step boundaries, the ends of legs and stops with the snap of a jog, and the search of a homing
(O45 to O48). -/

namespace Sys2Proof.DeckMotion

open Sys2Proof.Machine Sys2Proof.ReportLog Sys2Proof.QuietHeader Sys2Proof.TrackRequests Sys2Proof.RouteRelease
  Sys2Proof.PointLies Sys2Proof.SlotBytes Sys2Proof.LayoutStop Sys2Proof.DeckStates

/-! ### Commands that pass time of their own (R149, R140, R172) -/

theorem body_mirrorJogHold (s : State) : body (mirrorJogHold s) = body s := body_writeWord _ _ _ _ s

/-- A command of one block, with no end of a handling, that changes what u says. -/
theorem makes_plain {c : Instr} {s u v : State} (hc : exec c s = .next v) (hb : body v = body u) (ho : Own s v) : Makes c s u :=
  ⟨v, hc, inside_of_body hb, memoryKept_of_own ho⟩

/-- A jog in JOGGING whose hold time is over stops (R136). -/
theorem deckOf_jogHoldExpires {s : State} {d : DeckRec} {g : Generator} {n : Nat} (hn : s.tt.jogHold = some n) (hd : s.tt.deck = some d)
    (hst : s.tt.state = .jogging) (hr : s.tt.requester = .jog) (hh : s.tt.halting = false) (hg : s.tt.gen = some g)
    (hstop : d.stop = none) : DeckOf s (jogHoldExpires s)
      { s.tt with legSteps := stopLength d g.rate, returnSteps := 0, jogHold := none, state := .stopping, feed := false } := by
  have heq : jogHoldExpires s = enterStopping d s := by
    unfold jogHoldExpires
    rw [hn]
    unfold releaseJog
    rw [hd]
    dsimp only
    rw [hr, hh, hst]
    rfl
  rw [heq]
  exact (DeckOf.refl s).enterStopping hg (.inr hstop)

/-- Settles O45: the step output, the timers that pass by themselves, and the end of a jog's hold time. -/
theorem deckAndRunnerTimersPass : Obligations.DeckAndRunnerTimersPass := by
  refine ⟨fun s => ⟨fun g hg hsecond => ?_, fun g hg hsecond => ?_, fun hg => ?_⟩, fun s => ⟨fun n hn => ?_, fun hn => ?_⟩,
    fun s k => ⟨fun r hr => ?_, fun hr => ?_⟩, fun s hq => ⟨fun hn => ?_, fun n d g hn hd hst hr hh hg hstop => ?_⟩⟩
  · refine makes_plain (v := stepActive s) rfl ?_ (own_stepActive _ (own_refl s))
    unfold stepActive
    rw [hg]
    dsimp only
    rw [if_neg (by simp [hsecond])]
    exact body_mirrorTable _
  · refine congrArg Host.Outcome.next ?_
    unfold stepActive; rw [hg]; exact if_pos hsecond
  · refine congrArg Host.Outcome.next ?_
    unfold stepActive; rw [hg]
  · refine makes_plain (v := jogHoldPasses s) rfl ?_ (own_jogHoldPasses _ (own_refl s))
    unfold jogHoldPasses
    rw [hn]
    exact body_mirrorJogHold _
  · refine congrArg Host.Outcome.next ?_
    unfold jogHoldPasses; rw [hn]
  · refine makes_plain (v := secondPasses k s) rfl ?_ (own_secondPasses _ _ (own_refl s))
    unfold secondPasses
    rw [hr]
    refine (body_mirrorVisitorWord _ _).trans ?_
    cases k <;> rfl
  · refine congrArg Host.Outcome.next ?_
    unfold secondPasses; rw [hr]
  · refine makes_rest rfl hq (own_jogHoldExpires _ (own_refl s)) (congrArg body ?_) rfl rfl
    unfold jogHoldExpires; rw [hn]
  · exact (deckOf_jogHoldExpires hn hd hst hr hh hg hstop).makes rfl hq (own_jogHoldExpires _ (own_refl s))

/-! ### A step boundary (R127, R131, R150) -/

/-- The deck one step on, with the index reading at the boundary. -/
def stepped (d : DeckRec) (index : Bool) (t : Turntable) : Turntable :=
  { t with lastIndex := index, stepOut := false, pos := t.pos.map (stepFrom d.c t.legCw) }

/-- The machine at the boundary, before the deck acts on it. -/
def atBoundary (d : DeckRec) (index : Bool) (s : State) : State := setDeck (stepped d index) s

theorem deckOf_atBoundary (d : DeckRec) (index : Bool) (s : State) : DeckOf s (atBoundary d index s) (stepped d index s.tt) :=
  (DeckOf.refl s).setDeck (stepped d index)

section Boundary
variable {s : State} {d : DeckRec} {g : Generator} {index : Bool}

/-- What the deck does at a boundary, by its state. -/
theorem boundary_eq (hd : s.tt.deck = some d) (hg : s.tt.gen = some g) : boundary index s =
    if s.tt.state = .moving ∨ s.tt.state = .returning then
      (if s.tt.halting then enterHalted (atBoundary d index s) else legBoundary d (atBoundary d index s))
    else if s.tt.state = .stopping then
      (if s.tt.halting then enterHalted (atBoundary d index s) else stopBoundary d g.rate (atBoundary d index s))
    else if s.tt.state = .jogging then
      (if s.tt.halting then enterHalted (atBoundary d index s) else jogBoundary d (atBoundary d index s))
    else if s.tt.state = .homing then
      (if s.tt.halting then enterUnreferenced (atBoundary d index s)
        else homingBoundary d s.tt.lastIndex index (atBoundary d index s))
    else atBoundary d index s := by
  have htt := (deckOf_atBoundary d index s).tt
  have hstate : (atBoundary d index s).tt.state = s.tt.state := by rw [htt]; rfl
  have hhalt : (atBoundary d index s).tt.halting = s.tt.halting := by rw [htt]; rfl
  unfold boundary
  rw [hd, hg]
  change (match (atBoundary d index s).tt.state with
    | .moving | .returning => if (atBoundary d index s).tt.halting then enterHalted (atBoundary d index s)
        else legBoundary d (atBoundary d index s)
    | .stopping => if (atBoundary d index s).tt.halting then enterHalted (atBoundary d index s)
        else stopBoundary d g.rate (atBoundary d index s)
    | .jogging => if (atBoundary d index s).tt.halting then enterHalted (atBoundary d index s)
        else jogBoundary d (atBoundary d index s)
    | .homing => if (atBoundary d index s).tt.halting then enterUnreferenced (atBoundary d index s)
        else homingBoundary d s.tt.lastIndex index (atBoundary d index s)
    | .unreferenced | .unbolting | .settling | .bolting | .aligned | .halted | .fault => atBoundary d index s) = _
  rw [hstate, hhalt]
  cases s.tt.state <;> simp

/-- A leg that goes on (R147, R150). -/
theorem deckOf_legBoundary {v : State} {t : Turntable} (h : DeckOf s v t) (h2 : 2 ≤ t.legSteps) : DeckOf s (legBoundary d v) { t with
    legSteps := t.legSteps - 1, legDone := t.legDone + 1, stepOut := false
    gen := some (beginStep (min d.vmax (min (d.v0 + (t.legDone + 1) * d.ramp) (d.v0 + (t.legSteps - 2) * d.ramp)))) } := by
  have hnext := h.setDeck fun t => { t with legSteps := t.legSteps - 1, legDone := t.legDone + 1 }
  have hrate : legRate d (t.legDone + 1 + (t.legSteps - 1)) (t.legDone + 1)
      = min d.vmax (min (d.v0 + (t.legDone + 1) * d.ramp) (d.v0 + (t.legSteps - 2) * d.ramp)) := by
    unfold legRate
    rw [show t.legDone + 1 + (t.legSteps - 1) - 1 - (t.legDone + 1) = t.legSteps - 2 by omega]
  unfold legBoundary
  dsimp only
  generalize setDeck _ v = u at hnext ⊢
  rw [hnext.tt]
  dsimp only
  rw [if_neg (by omega), hrate]
  exact hnext.nextStep _

/-- A stop that goes on (R151). -/
theorem deckOf_stopBoundary {v : State} {t : Turntable} (h : DeckOf s v t) (h2 : 2 ≤ t.legSteps) (r : Nat) :
    DeckOf s (stopBoundary d r v) { t with
      legSteps := t.legSteps - 1, gen := some (beginStep (stopRate d r)), stepOut := false } := by
  have hnext := h.setDeck fun t => { t with legSteps := t.legSteps - 1 }
  unfold stopBoundary
  dsimp only
  generalize setDeck _ v = u at hnext ⊢
  rw [hnext.tt]
  dsimp only
  rw [if_neg (by omega)]
  exact hnext.nextStep _

/-- A jog of a CONTINUOUS deck goes on (R136). -/
theorem deckOf_jogBoundary {v : State} {t : Turntable} (h : DeckOf s v t) (hd : d.stop = none) : DeckOf s (jogBoundary d v)
    { t with legDone := t.legDone + 1, gen := some (beginStep (jogRate d (t.legDone + 1))), stepOut := false } := by
  have hnext := h.setDeck fun t => { t with legDone := t.legDone + 1 }
  unfold jogBoundary
  dsimp only
  generalize setDeck _ v = u at hnext ⊢
  rw [stopLimit_continuous _ _ hd, if_neg Bool.false_ne_true, hnext.tt]
  exact hnext.nextStep _

/-- A search that sees no edge and is not at its limit goes on (R131). -/
theorem deckOf_homingBoundary {v : State} {t : Turntable} {before : Bool} (h : DeckOf s v t) (he : indexEdge d before index = false)
    (hl : t.search + 1 < searchLimit d) : DeckOf s (homingBoundary d before index v)
      { t with search := t.search + 1, gen := some (beginStep d.v0), stepOut := false } := by
  have hnext := h.setDeck fun t => { t with search := t.search + 1 }
  unfold homingBoundary
  dsimp only
  generalize setDeck _ v = u at hnext ⊢
  rw [he, if_neg Bool.false_ne_true, hnext.tt, if_neg (Nat.not_le.2 hl)]
  exact hnext.nextStep _

theorem indexEdge_false {before : Bool}
    (h : if d.rising then index = false ∨ before = true else index = true ∨ before = false) : indexEdge d before index = false := by
  unfold indexEdge
  cases hr : d.rising <;> rw [hr] at h <;> obtain h | h := h <;> simp [h]

theorem searchLimit_eq (d : DeckRec) : searchLimit d = if d.stop = none then d.c + d.c / 4 else d.c := by
  unfold searchLimit; cases d.stop <;> simp

/-- A deck that halts comes to rest at the boundary (R138). -/
theorem deckOf_halts (hd : s.tt.deck = some d) (hg : s.tt.gen = some g) (hh : s.tt.halting = true)
    (hst : s.tt.state ∈ ([.moving, .returning, .stopping, .jogging] : List DeckState)) : DeckOf s (boundary index s)
      { (stepped d index s.tt).quiet with target := none, requester := .none, state := .halted, feed := false } := by
  have heq : boundary index s = enterHalted (atBoundary d index s) := by
    rw [boundary_eq hd hg, hh]
    simp only [List.mem_cons, List.not_mem_nil, or_false] at hst
    obtain hst | hst | hst | hst := hst <;> simp [hst]
  rw [heq]
  exact (deckOf_atBoundary d index s).enterHalted

end Boundary

/-- Settles O46: a step boundary. -/
theorem stepBoundaryMovesTheDeck : Obligations.StepBoundaryMovesTheDeck := by
  intro s index hq
  have hown := own_boundary index s (own_refl s)
  refine ⟨fun hg => ?_, fun d g hd hg hh => ⟨fun hst => ?_, fun hst => ?_⟩, fun d g hd hg hh => ⟨fun hst h2 => ?_, fun hst h2 => ?_,
    fun hst hstop => ?_, fun hst hp he hl => ?_⟩⟩
  · refine makes_rest rfl hq hown (congrArg body ?_) rfl rfl
    unfold boundary
    rw [hg]
    cases s.tt.deck <;> rfl
  · exact (deckOf_halts hd hg hh hst).makes rfl hq hown
  · refine DeckOf.makes (v := boundary index s) ?_ rfl hq hown
    rw [boundary_eq hd hg, hh, hst]
    exact (deckOf_atBoundary d index s).enterUnreferenced
  · refine DeckOf.makes (v := boundary index s) ?_ rfl hq hown
    rw [boundary_eq hd hg, hh, if_pos hst]
    exact deckOf_legBoundary (d := d) (deckOf_atBoundary d index s) h2
  · refine DeckOf.makes (v := boundary index s) ?_ rfl hq hown
    rw [boundary_eq hd hg, hh, hst]
    exact deckOf_stopBoundary (d := d) (deckOf_atBoundary d index s) h2 g.rate
  · refine DeckOf.makes (v := boundary index s) ?_ rfl hq hown
    rw [boundary_eq hd hg, hh, hst]
    exact deckOf_jogBoundary (d := d) (deckOf_atBoundary d index s) hstop
  · rw [← searchLimit_eq] at hl
    have hstep : DeckOf s (atBoundary d index s) { s.tt with lastIndex := index, stepOut := false } := by
      have hsame : stepped d index s.tt = { s.tt with lastIndex := index, stepOut := false } := by simp [stepped, hp]
      rw [← hsame]
      exact deckOf_atBoundary d index s
    refine DeckOf.makes (v := boundary index s) ?_ rfl hq hown
    rw [boundary_eq hd hg, hh, hst]
    exact deckOf_homingBoundary (d := d) hstep (indexEdge_false he) hl

/-! ### The snap (R152, R153) -/

/-- What the search for the nearest target has found so far is one of the targets it has seen. -/
theorem nearer_mem {d : DeckRec} {p : Nat} {l : List (RoadEnd × Nat)} {best : Option (RoadEnd × Nat)} {y : RoadEnd × Nat}
    (h : l.foldl (nearer d p) best = some y) : best = some y ∨ y ∈ l := by
  induction l generalizing best with
  | nil => exact .inl h
  | cons x l ih =>
    obtain h | h := ih h
    · have hx : nearer d p best x = some x ∨ nearer d p best x = best := by
        unfold nearer
        cases best with
        | none => split <;> simp
        | some b =>
          dsimp only
          split
          · split
            · exact .inl rfl
            · exact .inr rfl
          · exact .inr rfl
      obtain hx | hx := hx
      · rw [hx] at h; exact .inr (by simp [Option.some.inj h])
      · exact .inl (hx.symm.trans h)
    · exact .inr (List.mem_cons_of_mem _ h)

/-- No target is as near as the window. -/
theorem nearer_far {d : DeckRec} {p : Nat} {l : List (RoadEnd × Nat)} (h : ∀ x ∈ l, d.snap < distance d.c p x.2) :
    l.foldl (nearer d p) none = none := by
  induction l with
  | nil => rfl
  | cons x l ih =>
    have hx : nearer d p none x = none := by unfold nearer; exact if_neg (Nat.not_le.2 (h x (List.mem_cons_self ..)))
    rw [List.foldl_cons, hx]
    exact ih fun y hy => h y (List.mem_cons_of_mem _ hy)

/-- The nearest target found stays so while no nearer one follows. -/
theorem nearer_stays {d : DeckRec} {p : Nat} {l : List (RoadEnd × Nat)} {x : RoadEnd × Nat}
    (h : ∀ y ∈ l, distance d.c p x.2 ≤ distance d.c p y.2) : l.foldl (nearer d p) (some x) = some x := by
  induction l with
  | nil => rfl
  | cons y l ih =>
    have hy : nearer d p (some x) y = some x := by
      unfold nearer
      dsimp only
      rw [if_neg (Nat.not_lt.2 (h y (List.mem_cons_self ..)))]
      simp
    rw [List.foldl_cons, hy]
    exact ih fun z hz => h z (List.mem_cons_of_mem _ hz)

/-- The first of the nearest targets is chosen. -/
theorem nearer_first {d : DeckRec} {p : Nat} {a b : List (RoadEnd × Nat)} {x : RoadEnd × Nat} (hx : distance d.c p x.2 ≤ d.snap)
    (ha : ∀ y ∈ a, distance d.c p x.2 < distance d.c p y.2) (hb : ∀ y ∈ b, distance d.c p x.2 ≤ distance d.c p y.2) :
    (a ++ x :: b).foldl (nearer d p) none = some x := by
  rw [List.foldl_append, List.foldl_cons]
  have htake : nearer d p (a.foldl (nearer d p) none) x = some x := by
    cases hbest : a.foldl (nearer d p) none with
    | none => unfold nearer; exact if_pos hx
    | some y =>
      obtain hnone | hy := nearer_mem hbest
      · cases hnone
      · unfold nearer; exact (if_pos hx).trans (if_pos (ha y hy))
  rw [htake]
  exact nearer_stays hb

theorem pairwise_of_sorted {α : Type} {t : Tbl α} (h : Tbl.sorted t = true) : t.Pairwise fun x y => x.1 < y.1 := by
  induction t with
  | nil => exact List.Pairwise.nil
  | cons x t ih =>
    obtain ⟨hx, ht⟩ := (Tbl.sorted_cons_iff x.1 x.2 t).1 h
    exact List.Pairwise.cons hx (ih ht)

/-- The target position of a road's end. -/
theorem mem_snapTargets {d : DeckRec} {roads : Tbl Road} {y : RoadEnd × Nat} (h : y ∈ snapTargets d roads) :
    ∃ x ∈ roads, y.1.road = x.1 ∧ y.2 = targetOf d.c x.2.position y.1.deckEnd := by
  obtain ⟨x, hx, hy⟩ := List.mem_flatMap.1 h
  refine ⟨x, hx, ?_⟩
  simp only [List.mem_cons, List.not_mem_nil, or_false] at hy
  obtain rfl | rfl := hy <;> exact ⟨rfl, rfl⟩

/-- Every road's targets are farther than the window. -/
theorem snapChoice_none {d : DeckRec} {roads : Tbl Road} {p : Nat}
    (h : ∀ x ∈ roads, ∀ e, d.snap < distance d.c p (targetOf d.c x.2.position e)) : snapChoice d roads p = none :=
  nearer_far fun y hy => by
    obtain ⟨x, hx, -, he⟩ := mem_snapTargets hy
    rw [he]
    exact h x hx _

/-- The nearest target within the window, by the lower road and end A first where two are as near (R153). -/
theorem snapChoice_nearest {d : DeckRec} {roads : Tbl Road} {p n : Nat} {q : Road} {e : DeckEnd} (hs : Tbl.sorted roads = true)
    (hq : (n, q) ∈ roads) (hnear : distance d.c p (targetOf d.c q.position e) ≤ d.snap)
    (hfirst : ∀ x ∈ roads, ∀ f, distance d.c p (targetOf d.c q.position e) < distance d.c p (targetOf d.c x.2.position f) ∨
      distance d.c p (targetOf d.c q.position e) = distance d.c p (targetOf d.c x.2.position f) ∧
        (n < x.1 ∨ n = x.1 ∧ (e = .a ∨ f = .b))) :
    snapChoice d roads p = some ({ road := n, deckEnd := e }, targetOf d.c q.position e) := by
  obtain ⟨r1, r2, rfl⟩ := List.append_of_mem hq
  have hsorted := List.pairwise_append.1 (pairwise_of_sorted hs)
  have hlower : ∀ x ∈ r1, x.1 < n := fun x hx => hsorted.2.2 x hx (n, q) (List.mem_cons_self ..)
  have hbefore : ∀ y ∈ snapTargets d r1, distance d.c p (targetOf d.c q.position e) < distance d.c p y.2 := fun y hy => by
    obtain ⟨x, hx, -, he⟩ := mem_snapTargets hy
    have hlt := hlower x hx
    rw [he]
    obtain h | ⟨-, h | ⟨h, -⟩⟩ := hfirst x (List.mem_append_left _ hx) y.1.deckEnd
    · exact h
    · omega
    · omega
  have hafter : ∀ y ∈ snapTargets d r2, distance d.c p (targetOf d.c q.position e) ≤ distance d.c p y.2 := fun y hy => by
    obtain ⟨x, hx, -, he⟩ := mem_snapTargets hy
    rw [he]
    obtain h | ⟨h, -⟩ := hfirst x (List.mem_append_right _ (List.mem_cons_of_mem _ hx)) y.1.deckEnd
    · exact h.le
    · exact h.le
  have hself (f : DeckEnd) := hfirst (n, q) hq f
  have hsplit : snapTargets d (r1 ++ (n, q) :: r2) = snapTargets d r1 ++
      (({ road := n, deckEnd := .a }, targetOf d.c q.position .a) :: ({ road := n, deckEnd := .b }, targetOf d.c q.position .b)
        :: snapTargets d r2) := by
    unfold snapTargets; simp
  unfold snapChoice
  rw [hsplit]
  cases e with
  | a =>
    refine nearer_first (x := ({ road := n, deckEnd := .a }, targetOf d.c q.position .a)) hnear hbefore fun y hy => ?_
    obtain rfl | hy := List.mem_cons.1 hy
    · obtain h | ⟨h, -⟩ := hself .b
      · exact h.le
      · exact h.le
    · exact hafter y hy
  | b =>
    rw [List.append_cons]
    refine nearer_first (x := ({ road := n, deckEnd := .b }, targetOf d.c q.position .b)) hnear (fun y hy => ?_) hafter
    obtain hy | hy := List.mem_append.1 hy
    · exact hbefore y hy
    · obtain rfl := List.mem_singleton.1 hy
      obtain h | ⟨-, h | ⟨-, h | h⟩⟩ := hself .a
      · exact h
      · exact absurd h (lt_irrefl _)
      · cases h
      · cases h

section Snap
variable {s v : State} {t : Turntable} {d : DeckRec} {p : Nat}

/-- No target is near: the deck comes to rest where it stands. -/
theorem deckOf_snapDecision_far (h : DeckOf s v t) (hp : t.pos = some p) (hfar : snapChoice d t.roads p = none) :
    DeckOf s (snapDecision d v) { t.quiet with target := none, requester := .none, state := .halted, feed := false } := by
  have hquiet := h.setDeck fun t => t.quiet
  have hpos : t.quiet.pos = some p := hp
  have hchoice : snapChoice d t.quiet.roads p = none := hfar
  have heq : snapDecision d v = enterHalted (setDeck (fun t => t.quiet) v) := by
    unfold snapDecision
    dsimp only
    rw [hquiet.tt, hpos]
    dsimp only
    rw [hchoice]
  rw [heq]
  exact hquiet.enterHalted

/-- The deck stands on the nearest target: it settles there. -/
theorem deckOf_snapDecision_here (h : DeckOf s v t) (hp : t.pos = some p) {x : RoadEnd} (hx : snapChoice d t.roads p = some (x, p))
    (htime : d.settleTime ≠ 0) : DeckOf s (snapDecision d v)
      { t.quiet with target := some x, state := .settling, feed := false, settleTimer := some d.settleTime } := by
  have hquiet := h.setDeck fun t => t.quiet
  have hpos : t.quiet.pos = some p := hp
  have hchoice : snapChoice d t.quiet.roads p = some (x, p) := hx
  have heq : snapDecision d v = enterSettling d (setDeck (fun t => { t with target := some x }) (setDeck (fun t => t.quiet) v)) := by
    unfold snapDecision
    dsimp only
    rw [hquiet.tt, hpos]
    dsimp only
    rw [hchoice]
    exact if_pos rfl
  rw [heq]
  exact (hquiet.setDeck fun t => { t with target := some x }).enterSettling htime

/-- The deck goes to the nearest target on the legs of the move. -/
theorem deckOf_snapDecision_away (h : DeckOf s v t) (hp : t.pos = some p) {x : RoadEnd} {goal : Nat}
    (hx : snapChoice d t.roads p = some (x, goal)) (hne : goal ≠ p) : DeckOf s (snapDecision d v)
      { onLeg d { t.quiet with
        target := some x, legCw := (legs d p goal).1, legSteps := (legs d p goal).2.1, legDone := 0
        returnSteps := (legs d p goal).2.2 } with state := .moving, feed := false } := by
  have hquiet := h.setDeck fun t => t.quiet
  have hpos : t.quiet.pos = some p := hp
  have hchoice : snapChoice d t.quiet.roads p = some (x, goal) := hx
  have heq : snapDecision d v
      = enterMoving d (planMove d goal (setDeck (fun t => { t with target := some x }) (setDeck (fun t => t.quiet) v))) := by
    unfold snapDecision
    dsimp only
    rw [hquiet.tt, hpos]
    dsimp only
    rw [hchoice]
    exact if_neg hne
  rw [heq]
  exact ((hquiet.setDeck fun t => { t with target := some x }).planMove (d := d) (goal := goal) hp).enterMoving d

end Snap

/-! ### LEG_END and STOP_COMPLETE (R127, R133) -/

theorem legRate_first (d : DeckRec) (n : Nat) : legRate d n 0 = min d.vmax (min d.v0 (d.v0 + (n - 1) * d.ramp)) := by
  unfold legRate; simp

theorem legRate_begin (d : DeckRec) (n : Nat) : legRate d n 0 = min d.vmax d.v0 := by
  rw [legRate_first, Nat.min_eq_left (Nat.le_add_right d.v0 _)]

theorem atLegEnd_iff (t : Turntable) :
    atLegEnd t = true ↔ (t.state = .moving ∨ t.state = .returning) ∧ t.legSteps = 1 ∧ t.halting = false := by
  unfold atLegEnd; simp [and_assoc]

theorem atStopEnd_iff (t : Turntable) : atStopEnd t = true ↔ t.state = .stopping ∧ t.legSteps = 1 ∧ t.halting = false := by
  unfold atStopEnd; simp [and_assoc]

section Ends
variable {s : State} {d : DeckRec} {g : Generator} {index : Bool}

/-- The deck at the boundary of the last step of a leg. -/
def lastStep (d : DeckRec) (index : Bool) (t : Turntable) : Turntable :=
  { stepped d index t with legSteps := 0, legDone := t.legDone + 1 }

/-- At the last step of a leg the leg ends. -/
theorem boundary_legEnds (hd : s.tt.deck = some d) (hg : s.tt.gen = some g) (hh : s.tt.halting = false) (h1 : s.tt.legSteps = 1)
    (hst : s.tt.state = .moving ∨ s.tt.state = .returning) :
    ∃ v, boundary index s = legEnds d v ∧ DeckOf s v (lastStep d index s.tt) := by
  have hdeck : DeckOf s (setDeck (fun t => { t with legSteps := t.legSteps - 1, legDone := t.legDone + 1 }) (atBoundary d index s))
      (lastStep d index s.tt) := by
    have hb := (deckOf_atBoundary d index s).setDeck fun t => { t with legSteps := t.legSteps - 1, legDone := t.legDone + 1 }
    have hsteps : (stepped d index s.tt).legSteps - 1 = 0 := by change s.tt.legSteps - 1 = 0; omega
    rw [hsteps] at hb
    exact hb
  refine ⟨_, ?_, hdeck⟩
  rw [boundary_eq hd hg, if_pos hst, hh, if_neg Bool.false_ne_true]
  unfold legBoundary
  dsimp only
  exact if_pos (by rw [hdeck.tt]; rfl)

theorem deckOf_settles (hd : s.tt.deck = some d) (hg : s.tt.gen = some g) (hh : s.tt.halting = false) (h1 : s.tt.legSteps = 1)
    (hst : s.tt.state = .returning ∨ s.tt.state = .moving ∧ s.tt.returnSteps = 0) (htime : d.settleTime ≠ 0) :
    DeckOf s (boundary index s)
      { (lastStep d index s.tt).quiet with state := .settling, feed := false, settleTimer := some d.settleTime } := by
  obtain ⟨v, heq, hv⟩ := boundary_legEnds (index := index) hd hg hh h1 (hst.symm.imp And.left id)
  have hno : ¬ (v.tt.state = .moving && 0 < v.tt.returnSteps) = true := by
    have hstate : v.tt.state = s.tt.state := by rw [hv.tt]; rfl
    have hreturn : v.tt.returnSteps = s.tt.returnSteps := by rw [hv.tt]; rfl
    rw [hstate, hreturn]
    obtain h | ⟨-, h⟩ := hst <;> simp [h]
  rw [heq]
  unfold legEnds
  rw [if_neg hno]
  exact hv.enterSettling htime

theorem deckOf_returns (hd : s.tt.deck = some d) (hg : s.tt.gen = some g) (hh : s.tt.halting = false) (h1 : s.tt.legSteps = 1)
    (hst : s.tt.state = .moving) (hr : s.tt.returnSteps ≠ 0) : DeckOf s (boundary index s) { stepped d index s.tt with
      state := .returning, feed := false, legCw := true, dirAcw := false, legSteps := s.tt.returnSteps, legDone := 0
      returnSteps := 0, stepOut := false
      gen := some (beginStep (min d.vmax (min d.v0 (d.v0 + (s.tt.returnSteps - 1) * d.ramp)))) } := by
  obtain ⟨v, heq, hv⟩ := boundary_legEnds (index := index) hd hg hh h1 (.inl hst)
  have hyes : (v.tt.state = .moving && 0 < v.tt.returnSteps) = true := by
    have hstate : v.tt.state = s.tt.state := by rw [hv.tt]; rfl
    have hreturn : v.tt.returnSteps = s.tt.returnSteps := by rw [hv.tt]; rfl
    rw [hstate, hreturn, hst]
    simp [Nat.pos_of_ne_zero hr]
  rw [heq, ← legRate_first]
  unfold legEnds
  rw [if_pos hyes]
  exact ((hv.setDeck fun t => { t with legCw := true, legSteps := t.returnSteps, legDone := 0, returnSteps := 0 }).beginLeg d).enterDeck
    (by decide)

/-- At the last step of a stop the stop ends. -/
theorem boundary_stopEnds (hd : s.tt.deck = some d) (hg : s.tt.gen = some g) (hh : s.tt.halting = false) (h1 : s.tt.legSteps = 1)
    (hst : s.tt.state = .stopping) : ∃ v, DeckOf s v { stepped d index s.tt with legSteps := 0 } ∧
      boundary index s = if s.tt.requester = .jog then snapDecision d v else enterHalted v := by
  have hdeck : DeckOf s (setDeck (fun t => { t with legSteps := t.legSteps - 1 }) (atBoundary d index s))
      { stepped d index s.tt with legSteps := 0 } := by
    have hb := (deckOf_atBoundary d index s).setDeck fun t => { t with legSteps := t.legSteps - 1 }
    have hsteps : (stepped d index s.tt).legSteps - 1 = 0 := by change s.tt.legSteps - 1 = 0; omega
    rw [hsteps] at hb
    exact hb
  refine ⟨_, hdeck, ?_⟩
  rw [boundary_eq hd hg, hst, hh, if_neg (by decide), if_pos rfl, if_neg Bool.false_ne_true]
  unfold stopBoundary
  dsimp only
  rw [if_pos (by rw [hdeck.tt]), hdeck.tt]
  rfl

end Ends

/-- Settles O47: the ends of legs and of stops. -/
theorem legsAndStopsEnd : Obligations.LegsAndStopsEnd := by
  intro s index hq
  have hown := own_boundary index s (own_refl s)
  refine ⟨fun hno => ?_, fun hno => ?_, fun d g hd hg hh h1 => ⟨fun hst htime => ?_, fun hst hr => ?_, fun hst hreq => ?_,
    fun m hst hreq hm => ⟨fun hfar => ?_, fun n q e hs hmem hnear hfirst => ⟨fun hgoal htime => ?_, fun hgoal => ?_⟩⟩⟩⟩
  · exact makes_rest (v := s) (congrArg (fun v => Host.Outcome.next (finish s v)) (if_neg fun h => hno ((atLegEnd_iff _).1 h))) hq
      (own_refl s) rfl rfl rfl
  · exact makes_rest (v := s) (congrArg (fun v => Host.Outcome.next (finish s v)) (if_neg fun h => hno ((atStopEnd_iff _).1 h))) hq
      (own_refl s) rfl rfl rfl
  · have hend : exec (.legEnd index) s = .next (finish s (boundary index s)) :=
      congrArg (fun v => Host.Outcome.next (finish s v)) (if_pos ((atLegEnd_iff _).2 ⟨hst.symm.imp And.left id, h1, hh⟩))
    exact (deckOf_settles hd hg hh h1 hst htime).makes hend hq hown
  · have hend : exec (.legEnd index) s = .next (finish s (boundary index s)) :=
      congrArg (fun v => Host.Outcome.next (finish s v)) (if_pos ((atLegEnd_iff _).2 ⟨.inl hst, h1, hh⟩))
    exact (deckOf_returns hd hg hh h1 hst hr).makes hend hq hown
  all_goals
    have hend : exec (.stopComplete index) s = .next (finish s (boundary index s)) :=
      congrArg (fun v => Host.Outcome.next (finish s v)) (if_pos ((atStopEnd_iff _).2 ⟨hst, h1, hh⟩))
    obtain ⟨v, hv, heq⟩ := boundary_stopEnds (index := index) hd hg hh h1 hst
    refine DeckOf.makes (v := boundary index s) ?_ hend hq hown
    rw [heq]
  · rw [if_neg hreq]
    exact hv.enterHalted
  · rw [if_pos hreq]
    exact deckOf_snapDecision_far hv hm (snapChoice_none fun x hx e => by
      have h := hfar x hx e
      cases e <;> exact h)
  all_goals
    rw [if_pos hreq]
    have hchoice : snapChoice d s.tt.roads m = some ({ road := n, deckEnd := e }, targetOf d.c q.position e) := by
      refine snapChoice_nearest hs hmem (by cases e <;> exact hnear) fun x hx f => ?_
      have h := hfirst x hx f
      cases e <;> cases f <;> exact h
  · have htarget : targetOf d.c q.position e = m := by rw [← hgoal]; cases e <;> rfl
    rw [htarget] at hchoice
    exact deckOf_snapDecision_here hv hm hchoice htime
  · have htarget : targetOf d.c q.position e ≠ m := fun h => hgoal (by rw [← h]; cases e <;> rfl)
    have haway := deckOf_snapDecision_away hv hm hchoice htarget
    have hrate (n : Nat) := legRate_begin d n
    unfold onLeg at haway
    rw [hrate] at haway
    cases e <;> exact haway

/-! ### The requester answered (R129, R134) -/

/-- The STOP cause stands as its rule says once a handling has come to its quiet end. -/
theorem stop_afterWork (n : Nat) (s : State) (h : quietEnd s = true) (hs : s.exch.stop = stopCauseActive s) :
    (afterWork n s).exch.stop = stopCauseActive s := by
  induction n generalizing s with
  | zero => exact hs
  | succ n ih =>
    obtain ⟨h1, h2, h3, h4⟩ := quietEnd_iff.1 h
    have again (u : State) (hu : quietEnd u = true) (hcause : stopCauseActive u = stopCauseActive s) :
        (afterWork n (endHandling s u)).exch.stop = stopCauseActive s := by
      obtain ⟨hu1, hu2, -, -⟩ := quietEnd_iff.1 hu
      have hcalm : stopCauseActive (endHandling s u) = stopCauseActive u :=
        AspectsTaken.read_of_calm stopCauseActive (fun _ => rfl) (calm_endHandling s u hu1 hu2)
      rw [ih _ (quietEnd_endHandling s u hu) ((AspectsTaken.stop_endHandling s u hu1 hu2).trans hcalm.symm), hcalm, hcause]
    unfold afterWork
    split
    · next hp =>
      have hd : dispatchIdle { s with work := { s.work with pass := false } } = true := h3 hp
      rw [dispatcherPass_idle _ hd]
      exact again _ (quietEnd_iff.2 ⟨h1, h2, fun _ => hd, h4⟩) rfl
    · split
      · next hr =>
        rw [reexamine_empty s (h4 hr)]
        exact again _ (quietEnd_iff.2 ⟨h1, h2, h3, fun _ => h4 hr⟩) rfl
      · exact hs

theorem stop_finish (b : State) {s : State} (h : quietEnd s = true) : (finish b s).exch.stop = stopCauseActive s := by
  obtain ⟨h1, h2, -, -⟩ := quietEnd_iff.1 h
  have hcalm : stopCauseActive (endHandling b s) = stopCauseActive s :=
    AspectsTaken.read_of_calm stopCauseActive (fun _ => rfl) (calm_endHandling b s h1 h2)
  have hafter := stop_afterWork 4096 _ (quietEnd_endHandling b s h) ((AspectsTaken.stop_endHandling b s h1 h2).trans hcalm.symm)
  exact hafter.trans hcalm

/-- What stands of s where its deck is t and slot n has been answered. -/
def withAnswered (n : Nat) (t : Turntable) (s : State) : State :=
  { s with tt := t, exch := { s.exch with inHand := Tbl.erase s.exch.inHand n } }

/-- The deck is t and slot n has been answered, and nothing else is changed but the outputs and the work asked for. -/
structure DeckAnswered (s v : State) (t : Turntable) (n : Nat) (tag : HostTag) (res : Result) (w0 w1 : Nat) : Prop where
  done : SlotDone n tag res w0 w1 v
  alone : ∃ w, w.step = s.work.step ∧ body v = body { withAnswered n t s with work := w }

/-- Slot n is in hand. -/
structure InHand (s : State) (n : Nat) (tag : HostTag) : Prop where
  slot : n < 32
  marks : Tbl.sorted s.exch.inHand = true
  mark : Tbl.find s.exch.inHand n = some tag
  mem : s.memOk

/-- The deck's requester, a slot in hand, is answered (R129). -/
theorem answerRequester_slot {s v : State} {t : Turntable} {n : Nat} {tag : HostTag} (h : DeckOf s v t)
    (hreq : t.requester = .slot n) (hs : InHand s n tag) (ho : Own s v) (res : Result) (w0 w1 : Nat) :
    DeckAnswered s (answerRequester res w0 w1 v) { t with requester := .none } n tag res w0 w1 := by
  have hnext := h.setDeck fun t => { t with requester := .none }
  have hown : Own s (setDeck (fun t => { t with requester := .none }) v) := own_setDeck _ _ ho
  have heq : answerRequester res w0 w1 v = complete n res w0 w1 (setDeck (fun t => { t with requester := .none }) v) := by
    unfold answerRequester
    rw [h.tt, hreq]
  generalize setDeck (fun t => { t with requester := .none }) v = u at hnext hown heq
  have hhand : u.exch.inHand = s.exch.inHand := hnext.read (fun y => y.exch.inHand) (fun _ => rfl) fun _ _ => rfl
  have hmark : Tbl.find u.exch.inHand n = some tag := by rw [hhand]; exact hs.mark
  obtain ⟨w, hw, hb⟩ := hnext.alone
  rw [heq]
  refine ⟨slotDone_completed _ _ _ hs.slot (hown.mem hs.mem) hmark (by rw [hhand]; exact hs.marks), w, hw, ?_⟩
  rw [body_completed _ _ _ hs.slot hmark, hhand]
  exact body_update (fun y => { y with exch := { y.exch with inHand := Tbl.erase s.exch.inHand n } }) (fun _ => rfl) hb

section Answered
variable {s v : State} {t : Turntable} {n w0 w1 : Nat} {tag : HostTag} {res : Result}

theorem DeckAnswered.quiet (h : DeckAnswered s v t n tag res w0 w1) (hq : AtRest s) : quietEnd v = true := by
  obtain ⟨w, hw, hb⟩ := h.alone
  have hread {α : Type} (g : State → α) (hg : ∀ y, g y = g (body y)) := read_of_body g hg hb
  exact quietEnd_of_empty v ((hread (fun y => y.work.step) fun _ => rfl).trans (hw.trans (by rw [hq.work]; rfl)))
    ((hread (fun y => y.vis.queue) fun _ => rfl).trans hq.shows) ((hread (fun y => y.pts.queue) fun _ => rfl).trans hq.orders)
    ((hread (fun y => y.ilk.stack) fun _ => rfl).trans hq.stack)

/-- At the end of the handling the slot is done, what stands inside is the deck, and the STOP cause is as its rule says. -/
theorem DeckAnswered.finish (h : DeckAnswered s v t n tag res w0 w1) (hq : AtRest s) (hn : n < 32) (ho : Own s v) :
    SlotDone n tag res w0 w1 (finish s v) ∧ inside (finish s v) = inside (withAnswered n t s) ∧ MemoryKept none s (finish s v) ∧
      (finish s v).exch.stop = (s.asp.cond == .allStop || t.state == .fault) := by
  have hquiet := h.quiet hq
  obtain ⟨w, -, hb⟩ := h.alone
  refine ⟨h.done.own hn (own_finish _ _ (own_refl _)), (inside_finish _ _ hquiet).trans ((inside_of_body hb).trans rfl),
    memoryKept_of_own (own_finish _ _ ho), ?_⟩
  exact (stop_finish s hquiet).trans (read_of_body stopCauseActive (fun _ => rfl) hb)

/-- A deck that falls into FAULT for a slot answers it (R134). -/
theorem enterFault_slot {c : FaultCause} (h : DeckOf s v t) (hreq : t.requester = .slot n) (hs : InHand s n tag) (ho : Own s v) :
    DeckAnswered s (enterFault c v) { t.quiet with
      boltOut := false, fault := some c, align := none, target := none, state := .fault, feed := false, requester := .none }
      n tag .tableFault 0 c.code := by
  have hdeck := (h.setDeck fun t => { t.quiet with boltOut := false, fault := some c, align := none, target := none }).enterDeck
    (new := .fault) (by decide)
  exact answerRequester_slot hdeck hreq hs (own_enterDeck _ _ (own_setDeck _ _ ho)) _ _ _

end Answered

/-! ### HOMING_SEARCH_LIMIT (R131, R134) -/

theorem atSearchLimit_iff {t : Turntable} {d : DeckRec} (hd : t.deck = some d) :
    atSearchLimit t = true ↔ t.state = .homing ∧ t.search + 1 = searchLimit d ∧ t.halting = false := by
  unfold atSearchLimit; rw [hd]; simp [and_assoc]

section Homing
variable {s v : State} {t : Turntable} {d : DeckRec} {before index : Bool}

/-- The limit reached without an edge: the deck falls into FAULT. -/
theorem homingBoundary_limit {n : Nat} {tag : HostTag} (h : DeckOf s v t) (he : indexEdge d before index = false)
    (hl : searchLimit d ≤ t.search + 1) (hreq : t.requester = .slot n) (hs : InHand s n tag) (ho : Own s v) :
    DeckAnswered s (homingBoundary d before index v) { t.quiet with
      boltOut := false, fault := some .indexNotFound, align := none, target := none, state := .fault, feed := false
      requester := .none } n tag .tableFault 0 1 := by
  have hnext := h.setDeck fun t => { t with search := t.search + 1 }
  have heq : homingBoundary d before index v = enterFault .indexNotFound (setDeck (fun t => { t with search := t.search + 1 }) v) := by
    unfold homingBoundary
    dsimp only
    rw [he, if_neg Bool.false_ne_true, hnext.tt]
    exact if_pos hl
  have hfault := enterFault_slot (c := .indexNotFound) hnext hreq hs (own_setDeck _ _ ho)
  rw [heq]
  exact hfault

/-- The edge seen: the deck is referenced, and goes to its target. -/
theorem homingBoundary_edge {x : RoadEnd} (h : DeckOf s v t) (he : indexEdge d before index = true) (hx : t.target = some x)
    (htime : d.settleTime ≠ 0) : ∃ t', DeckOf s (homingBoundary d before index v) t' ∧ t'.pos = some d.indexOffset ∧
      t'.requester = t.requester ∧ (t'.state = .settling ∨ t'.state = .moving) := by
  have hnext := (h.setDeck fun t => { t with search := t.search + 1 }).setDeck fun t => { t.quiet with pos := some d.indexOffset }
  have htarget : (setDeck (fun t => { t.quiet with pos := some d.indexOffset }) (setDeck (fun t => { t with
      search := t.search + 1 }) v)).tt.target = some x := by rw [hnext.tt]; exact hx
  unfold homingBoundary
  dsimp only
  rw [he, if_pos rfl]
  generalize setDeck (fun t => { t.quiet with pos := some d.indexOffset }) _ = u at hnext htarget ⊢
  rw [htarget]
  dsimp only
  split
  · exact ⟨_, hnext.enterSettling htime, rfl, rfl, .inl rfl⟩
  · exact ⟨_, (hnext.planMove rfl).enterMoving d, rfl, rfl, .inr rfl⟩

end Homing

/-- Settles O48: the limit of a homing's search. -/
theorem homingEndsAtItsLimit : Obligations.HomingEndsAtItsLimit := by
  intro s index hq
  have hown := own_boundary index s (own_refl s)
  refine ⟨fun d hd hno => ?_, fun hd => ?_, fun d g n tag hs hd hg hh hst hl hreq hn hmarks hmark => ⟨fun he => ?_, fun he hlast ht htime => ?_⟩⟩
  · rw [← searchLimit_eq] at hno
    exact makes_rest (v := s) (congrArg (fun v => Host.Outcome.next (finish s v)) (if_neg fun h => hno ((atSearchLimit_iff hd).1 h)))
      hq (own_refl s) rfl rfl rfl
  · have hno : ¬ atSearchLimit s.tt = true := by unfold atSearchLimit; rw [hd]; exact Bool.false_ne_true
    exact makes_rest (v := s) (congrArg (fun v => Host.Outcome.next (finish s v)) (if_neg hno)) hq (own_refl s) rfl rfl rfl
  all_goals
    rw [← searchLimit_eq] at hl
    have hend : exec (.homingSearchLimit index) s = .next (finish s (boundary index s)) :=
      congrArg (fun v => Host.Outcome.next (finish s v)) (if_pos ((atSearchLimit_iff hd).2 ⟨hst, hl, hh⟩))
    have heq : boundary index s = homingBoundary d s.tt.lastIndex index (atBoundary d index s) := by
      rw [boundary_eq hd hg, hst, hh]; rfl
  · have hedge : indexEdge d s.tt.lastIndex index = false := by
      unfold indexEdge; rw [he]; cases d.rising <;> cases s.tt.lastIndex <;> rfl
    have hfault := homingBoundary_limit (n := n) (tag := tag) (deckOf_atBoundary d index s) hedge hl.ge hreq ⟨hn, hmarks, hmark, hs.mem⟩
      (own_setDeck _ _ (own_refl s))
    rw [← heq] at hfault
    obtain ⟨hdone, hin, hkept, hstop⟩ := hfault.finish hq hn hown
    have hread {α : Type} (k : State → α) (hk : ∀ u, k u = k (inside u)) := OrderEnds.read_of_inside k hk hin
    exact ⟨_, hend, hdone, hread (fun u => u.tt.state) fun _ => rfl, hread (fun u => u.tt.fault) fun _ => rfl,
      hread (fun u => u.tt.requester) fun _ => rfl, hread (fun u => u.tt.target) fun _ => rfl,
      hread (fun u => u.tt.boltOut) fun _ => rfl, hread (fun u => u.tt.gen) fun _ => rfl, hstop.trans (by simp), hkept⟩
  · have hedge : indexEdge d s.tt.lastIndex index = true := by
      unfold indexEdge; rw [he, hlast]; cases d.rising <;> rfl
    obtain ⟨x, hx⟩ := Option.ne_none_iff_exists'.1 ht
    obtain ⟨t, hdeck, hpos, hr, hstate⟩ := homingBoundary_edge (deckOf_atBoundary d index s) hedge hx htime
    rw [← heq] at hdeck
    have hin := (inside_finish s _ (hdeck.quiet hq)).trans hdeck.inside
    have hread {α : Type} (k : State → α) (hk : ∀ u, k u = k (inside u)) := OrderEnds.read_of_inside k hk hin
    refine ⟨_, hend, (hread (fun u => u.tt.pos) fun _ => rfl).trans hpos,
      (hread (fun u => u.tt.requester) fun _ => rfl).trans (hr.trans hreq), ?_⟩
    rw [hread (fun u => u.tt.state) fun _ => rfl]
    exact hstate

end Sys2Proof.DeckMotion
end

