-- ==== Sys2Proof/Proofs/DeckBolt.lean ====
section
/-! The bolt's contacts and timer, the settle timer, and what the deck does when its bolt is in or out (O49). -/

namespace Sys2Proof.DeckBolt

open Sys2Proof.Machine Sys2Proof.ReportLog Sys2Proof.QuietHeader Sys2Proof.TrackRequests Sys2Proof.RouteRelease
  Sys2Proof.PointLies Sys2Proof.SlotBytes Sys2Proof.LayoutStop Sys2Proof.DeckStates Sys2Proof.DeckMotion

/-- A contact with one sample taken. -/
def withBolt (c : BoltContact) (x : Bool) (t : Turntable) : Turntable :=
  match c with
  | .boltIn => { t with boltIn := t.boltIn.sample x }
  | .boltOut => { t with boltOutC := t.boltOutC.sample x }

theorem boltSample_eq (c : BoltContact) (x : Bool) (s : State) : boltSample c x s =
    if (withBolt c x s.tt).boltIn.level = s.tt.boltIn.level ∧ (withBolt c x s.tt).boltOutC.level = s.tt.boltOutC.level then
      setDeck (withBolt c x) s
    else boltContactChanged (setDeck (withBolt c x) s) := by
  have htt : (setDeck (withBolt c x) s).tt = withBolt c x s.tt := ((DeckOf.refl s).setDeck (withBolt c x)).tt
  rw [← htt]
  unfold boltSample
  cases c <;> simp only [Bool.and_eq_true, decide_eq_true_eq] <;> rfl

/-- A sample that is the reported level, or not the one before, is only remembered. -/
theorem sample_kept {c : Contact} {x : Bool} (h : x = c.level ∨ x ≠ c.prev) : c.sample x = { prev := x, level := c.level } := by
  unfold Contact.sample
  split
  · next he =>
    obtain h | h := h
    · rw [h]
    · exact absurd he (by simpa using h)
  · rfl

theorem sample_counted {c : Contact} (h : c.prev = true) : c.sample true = { prev := true, level := true } := by
  unfold Contact.sample; rw [h]; rfl

theorem deckOf_boltSample_kept {s : State} {c : BoltContact} {x : Bool}
    (hin : (withBolt c x s.tt).boltIn.level = s.tt.boltIn.level)
    (hout : (withBolt c x s.tt).boltOutC.level = s.tt.boltOutC.level) : DeckOf s (boltSample c x s) (withBolt c x s.tt) := by
  rw [boltSample_eq, if_pos ⟨hin, hout⟩]
  exact (DeckOf.refl s).setDeck (withBolt c x)

section Unbolting
variable {s v : State} {t : Turntable} {d : DeckRec}

/-- The deck that is bolted, UNBOLTING, and whose bolt is found withdrawn. -/
theorem boltSample_withdrawn (hd : s.tt.deck = some d) (hb : d.bolt = true) (hst : s.tt.state = .unbolting)
    (hprev : s.tt.boltOutC.prev = true) (hout : s.tt.boltOutC.level = false) (hin : s.tt.boltIn.level = false) :
    ∃ v, boltSample .boltOut true s = endUnbolting d v ∧
      DeckOf s v { s.tt with boltOutC := { prev := true, level := true } } := by
  have hwith : withBolt .boltOut true s.tt = { s.tt with boltOutC := { prev := true, level := true } } := by
    unfold withBolt; dsimp only; rw [sample_counted hprev]
  have hv := (DeckOf.refl s).setDeck (withBolt .boltOut true)
  rw [hwith] at hv
  refine ⟨_, ?_, hv⟩
  rw [boltSample_eq, if_neg (by rw [hwith, hout]; simp)]
  generalize setDeck (withBolt .boltOut true) s = u at hv ⊢
  unfold boltContactChanged
  rw [hv.tt]
  dsimp only
  rw [hd]
  dsimp only
  rw [hb, hst]
  unfold withdrawn
  dsimp only
  rw [hin]
  rfl

/-- The deck with its bolt timer stopped. -/
def untimed (v : State) : State := setDeck (fun t => { t with boltTimer := none }) v

theorem deckOf_untimed (h : DeckOf s v t) : DeckOf s (untimed v) { t with boltTimer := none } :=
  h.setDeck fun t => { t with boltTimer := none }

/-- What follows UNBOLTING, by the deck. -/
theorem endUnbolting_eq (h : DeckOf s v t) : endUnbolting d v =
    if t.halting then (if t.pos.isSome then enterHalted (untimed v) else enterUnreferenced (untimed v))
    else if t.requester = .jog then (if t.jogReleased then snapDecision d (untimed v) else enterJogging d (untimed v))
    else if t.pos.isNone then enterHoming d (untimed v)
    else enterMoving d (untimed v) := by
  have hnext := (deckOf_untimed h).tt
  change (if (untimed v).tt.halting then (if (untimed v).tt.pos.isSome then enterHalted (untimed v) else enterUnreferenced (untimed v))
    else if (untimed v).tt.requester = .jog then
      (if (untimed v).tt.jogReleased then snapDecision d (untimed v) else enterJogging d (untimed v))
    else if (untimed v).tt.pos.isNone then enterHoming d (untimed v)
    else enterMoving d (untimed v)) = _
  rw [hnext]

/-- The bolt withdrawn while the deck halts for ALL STOP (R138). -/
theorem deckOf_endUnbolting_halts (h : DeckOf s v t) (hh : t.halting = true) : DeckOf s (endUnbolting d v)
    (if t.pos.isSome then { t.quiet with target := none, requester := .none, state := .halted, feed := false }
      else { t.quiet with target := none, requester := .none, boltOut := false, pos := none, state := .unreferenced, feed := false }) := by
  have heq : endUnbolting d v = if t.pos.isSome then enterHalted (untimed v) else enterUnreferenced (untimed v) :=
    (endUnbolting_eq h).trans (if_pos hh)
  rw [heq]
  split
  · exact (deckOf_untimed h).enterHalted
  · exact (deckOf_untimed h).enterUnreferenced

/-- The bolt withdrawn with a move planned (R129). -/
theorem deckOf_endUnbolting_moves (h : DeckOf s v t) (hh : t.halting = false) (hr : t.requester ≠ .jog) (hp : t.pos.isSome) :
    DeckOf s (endUnbolting d v) { onLeg d { t with boltTimer := none } with state := .moving, feed := false } := by
  have heq : endUnbolting d v = enterMoving d (untimed v) := by
    rw [endUnbolting_eq h, hh, if_neg Bool.false_ne_true, if_neg hr, if_neg (by simp [Option.isSome_iff_ne_none.1 hp])]
  rw [heq]
  exact (deckOf_untimed h).enterMoving d

/-- The bolt withdrawn with no position known: homing begins (R131). -/
theorem deckOf_endUnbolting_homes (h : DeckOf s v t) (hh : t.halting = false) (hr : t.requester ≠ .jog) (hp : t.pos = none) :
    ∃ level, DeckOf { s with free := s.free + 1 } (endUnbolting d v) { t with
      boltTimer := none, lastIndex := level, search := 0, legCw := true, dirAcw := false, gen := some (beginStep d.v0)
      stepOut := false, state := .homing, feed := false } := by
  have heq : endUnbolting d v = enterHoming d (untimed v) := by
    rw [endUnbolting_eq h, hh, if_neg Bool.false_ne_true, if_neg hr, hp]
    exact if_pos rfl
  rw [heq]
  exact (deckOf_untimed h).enterHoming d

/-- The bolt withdrawn for a jog that is still pressed (R136). -/
theorem deckOf_endUnbolting_jogs (h : DeckOf s v t) (hh : t.halting = false) (hr : t.requester = .jog) (hrel : t.jogReleased = false)
    (hstop : d.stop = none) : DeckOf s (endUnbolting d v) { t with
      boltTimer := none, legCw := t.jogCw, legSteps := 0, legDone := 0, returnSteps := 0, state := .jogging, feed := false
      dirAcw := !t.jogCw, gen := some (beginStep (jogRate d 0)), stepOut := false } := by
  have heq : endUnbolting d v = enterJogging d (untimed v) := by
    rw [endUnbolting_eq h, hh, if_neg Bool.false_ne_true, if_pos hr, hrel, if_neg Bool.false_ne_true]
  rw [heq]
  exact (deckOf_untimed h).enterJogging hstop

end Unbolting

/-! ### The deck aligned (R125, R129) -/

/-- The deck that takes the alignment x. -/
def alignedTo (x : RoadEnd) (t : Turntable) : Turntable :=
  { t with align := some x, target := none, polReversed := polarityFor t x, turns := (t.turns + 1) % 65536 }

theorem answered_reexam {s v : State} {t : Turntable} {n w0 w1 : Nat} {tag : HostTag} {res : Result}
    (h : DeckAnswered s v t n tag res w0 w1) (hn : n < 32) : DeckAnswered s (wantReexam v) t n tag res w0 w1 := by
  obtain ⟨w, hw, hb⟩ := h.alone
  exact ⟨h.done.own hn (own_wantReexam _ (own_refl v)), { w with reexam := true }, hw,
    body_update (fun y => { y with work := { y.work with reexam := true } }) (fun _ => rfl) hb⟩

/-- A deck that comes to its target for a slot answers it (R129). -/
theorem enterAligned_slot {s v : State} {t : Turntable} {n p : Nat} {tag : HostTag} {x : RoadEnd} (h : DeckOf s v t)
    (hx : t.target = some x) (hp : t.pos = some p) (hreq : t.requester = .slot n) (hs : InHand s n tag) (ho : Own s v) :
    DeckAnswered s (enterAligned v) { alignedTo x t.quiet with state := .aligned, feed := feedIn s .aligned, requester := .none }
      n tag .ok p (roadEndByte (some x)) := by
  have hdeck := ((h.setDeck fun t => t.quiet).setDeck (alignedTo x)).enterDeck_feed .aligned
  have hown : Own s (enterDeck .aligned (setDeck (alignedTo x) (setDeck (fun t => t.quiet) v))) :=
    own_enterDeck _ _ (own_setDeck _ _ (own_setDeck _ _ ho))
  have heq : enterAligned v = wantReexam (answerRequester .ok p (roadEndByte (some x))
      (enterDeck .aligned (setDeck (alignedTo x) (setDeck (fun t => t.quiet) v)))) := by
    have hpos : (enterDeck .aligned (setDeck (alignedTo x) (setDeck (fun t => t.quiet) v))).tt.pos.getD 0 = p := by
      rw [hdeck.tt]; change t.pos.getD 0 = p; rw [hp]; rfl
    unfold enterAligned
    rw [h.tt, hx]
    exact congrArg (fun k => wantReexam (answerRequester .ok k (roadEndByte (some x))
      (enterDeck .aligned (setDeck (alignedTo x) (setDeck (fun t => t.quiet) v))))) hpos
  rw [heq]
  exact answered_reexam (answerRequester_slot hdeck hreq hs hown _ _ _) hs.slot

theorem boltSample_engaged {s : State} {d : DeckRec} (hd : s.tt.deck = some d) (hb : d.bolt = true) (hst : s.tt.state = .bolting)
    (hprev : s.tt.boltIn.prev = true) (hin : s.tt.boltIn.level = false) (hout : s.tt.boltOutC.level = false) :
    ∃ v, boltSample .boltIn true s = enterAligned v ∧ Own s v ∧
      DeckOf s v { s.tt with boltIn := { prev := true, level := true } } := by
  have hwith : withBolt .boltIn true s.tt = { s.tt with boltIn := { prev := true, level := true } } := by
    unfold withBolt; dsimp only; rw [sample_counted hprev]
  have hv := (DeckOf.refl s).setDeck (withBolt .boltIn true)
  rw [hwith] at hv
  refine ⟨_, ?_, own_setDeck (withBolt .boltIn true) _ (own_refl s), hv⟩
  rw [boltSample_eq, if_neg (by rw [hwith, hin]; simp)]
  generalize setDeck (withBolt .boltIn true) s = u at hv ⊢
  unfold boltContactChanged
  rw [hv.tt]
  dsimp only
  rw [hd]
  dsimp only
  rw [hb, hst]
  unfold engaged
  dsimp only
  rw [hout]
  rfl

/-- Settles O49: the bolt's contacts, its timer and the settle timer. -/
theorem boltEngagesOrFaults : Obligations.BoltEngagesOrFaults := by
  refine ⟨fun s x hq hx => ?_, fun s x hq hx => ?_, ?_, ?_, ?_, ?_, fun s hq hn => ?_, fun s d k hq hd hk hb htime hno => ?_,
    fun s hq hn => ?_⟩
  · have hwith : withBolt .boltIn x s.tt = { s.tt with boltIn := { prev := x, level := s.tt.boltIn.level } } := by
      unfold withBolt; dsimp only; rw [sample_kept hx]
    have hdeck := deckOf_boltSample_kept (s := s) (c := .boltIn) (x := x) (by rw [hwith]) (by rw [hwith])
    rw [hwith] at hdeck
    exact hdeck.makes rfl hq (own_boltSample _ _ _ (own_refl s))
  · have hwith : withBolt .boltOut x s.tt = { s.tt with boltOutC := { prev := x, level := s.tt.boltOutC.level } } := by
      unfold withBolt; dsimp only; rw [sample_kept hx]
    have hdeck := deckOf_boltSample_kept (s := s) (c := .boltOut) (x := x) (by rw [hwith]) (by rw [hwith])
    rw [hwith] at hdeck
    exact hdeck.makes rfl hq (own_boltSample _ _ _ (own_refl s))
  · intro s d n p tag x hq hs hrun hcond hd hb hst hprev hin hout hx hp hreq hn hmarks hmark
    obtain ⟨v, heq, hown, hv⟩ := boltSample_engaged hd hb hst hprev hin hout
    have haligned := enterAligned_slot hv hx hp hreq ⟨hn, hmarks, hmark, hs.mem⟩ hown
    rw [← heq] at haligned
    obtain ⟨hdone, hins, hkept, -⟩ := haligned.finish hq hn (own_boltSample _ _ _ (own_refl s))
    have hread {α : Type} (k : State → α) (hk : ∀ u, k u = k (inside u)) := OrderEnds.read_of_inside k hk hins
    have hfeed : feedIn s .aligned = true := by unfold feedIn State.running; rw [hrun, hcond]; rfl
    refine ⟨_, rfl, hdone, hread (fun u => u.tt.state) fun _ => rfl, hread (fun u => u.tt.align) fun _ => rfl,
      hread (fun u => u.tt.target) fun _ => rfl, (hread (fun u => u.tt.feed) fun _ => rfl).trans hfeed,
      hread (fun u => u.tt.requester) fun _ => rfl, hread (fun u => u.tt.boltTimer) fun _ => rfl,
      hread (fun u => u.tt.turns) fun _ => rfl, fun r hr => ?_, hkept⟩
    refine (hread (fun u => u.tt.polReversed) fun _ => rfl).trans ?_
    change polarityFor _ x = _
    unfold polarityFor
    change (match Tbl.find s.tt.roads x.road with | none => _ | some r => _) = _
    rw [hr]
    cases x.deckEnd <;> rfl
  · intro s d hq hd hb hst hh hprev hout hin
    obtain ⟨v, heq, hv⟩ := boltSample_withdrawn hd hb hst hprev hout hin
    have hown := own_boltSample .boltOut true s (own_refl s)
    have hhalts := deckOf_endUnbolting_halts (d := d) hv hh
    rw [← heq] at hhalts
    refine ⟨fun ⟨p, hp⟩ => DeckOf.makes (v := boltSample .boltOut true s) ?_ rfl hq hown,
      fun hp => DeckOf.makes (v := boltSample .boltOut true s) ?_ rfl hq hown⟩
    · rw [if_pos (by simp [hp])] at hhalts
      exact hhalts
    · rw [if_neg (by simp [hp])] at hhalts
      rw [← hp] at hhalts
      exact hhalts
  · intro s d hq hd hb hst hh hprev hout hin
    obtain ⟨v, heq, hv⟩ := boltSample_withdrawn hd hb hst hprev hout hin
    have hown := own_boltSample .boltOut true s (own_refl s)
    refine ⟨fun p hr hp => DeckOf.makes (v := boltSample .boltOut true s) ?_ rfl hq hown, fun hr hp => ?_,
      fun hr hrel hstop => DeckOf.makes (v := boltSample .boltOut true s) ?_ rfl hq hown⟩
    · have hmoves := deckOf_endUnbolting_moves (d := d) hv hh hr (by simp [hp])
      unfold onLeg at hmoves
      rw [legRate_begin] at hmoves
      rw [heq]
      exact hmoves
    · obtain ⟨level, hhomes⟩ := deckOf_endUnbolting_homes (d := d) hv hh hr hp
      rw [← heq] at hhomes
      have hq' : AtRest { s with free := s.free + 1 } := ⟨hq.work, hq.shows, hq.stack, hq.orders, hq.overflow⟩
      exact ⟨level, makes_finish rfl (hhomes.quiet hq') hhomes.inside hown⟩
    · have hjogs := deckOf_endUnbolting_jogs (d := d) hv hh hr hrel hstop
      have hrate : jogRate d 0 = min d.jog d.v0 := by unfold jogRate; simp
      rw [hrate, ← heq] at hjogs
      exact hjogs
  · intro s n k tag hq hs hk hreq hn hmarks hmark
    have heq : boltExpires s = enterFault (if s.tt.state = .unbolting then .boltStuckIn else .boltStuckOut) s := by
      unfold boltExpires; rw [hk]
    have hfault := enterFault_slot (c := if s.tt.state = .unbolting then .boltStuckIn else .boltStuckOut) (DeckOf.refl s) hreq
      ⟨hn, hmarks, hmark, hs.mem⟩ (own_refl s)
    rw [← heq] at hfault
    obtain ⟨hdone, hin, -, hstop⟩ := hfault.finish hq hn (own_boltExpires _ (own_refl s))
    have hread {α : Type} (k : State → α) (hk : ∀ u, k u = k (inside u)) := OrderEnds.read_of_inside k hk hin
    have hcause := hread (fun u => u.tt.fault) fun _ => rfl
    refine ⟨_, rfl, hread (fun u => u.tt.state) fun _ => rfl, hread (fun u => u.tt.boltOut) fun _ => rfl,
      hread (fun u => u.tt.boltTimer) fun _ => rfl, hread (fun u => u.tt.requester) fun _ => rfl, hstop.trans (by simp), ?_⟩
    split
    · next hst => rw [if_pos hst] at hcause hdone; exact ⟨hcause, hdone⟩
    · next hst => rw [if_neg hst] at hcause hdone; exact ⟨hcause, hdone⟩
  · refine makes_rest rfl hq (own_boltExpires _ (own_refl s)) (congrArg body ?_) rfl rfl
    unfold boltExpires; rw [hn]
  · refine DeckOf.makes (v := settleExpires s) ?_ rfl hq (own_settleExpires _ (own_refl s))
    have heq : settleExpires s = enterBolting d s := by unfold settleExpires; rw [hk, hd]
    rw [heq]
    exact (DeckOf.refl s).enterBolting hb htime (by unfold engaged; simpa using hno)
  · refine makes_rest rfl hq (own_settleExpires _ (own_refl s)) (congrArg body ?_) rfl rfl
    unfold settleExpires; rw [hn]

end Sys2Proof.DeckBolt
end

