-- ==== Sys2Proof/Proofs/DeckRequested.lean ====
section
/-! TURN_TABLE, HOME_TABLE and STOP_TABLE (O50). -/

namespace Sys2Proof.DeckRequested

open Sys2Proof.Machine Sys2Proof.ReportLog Sys2Proof.QuietHeader Sys2Proof.TrackRequests Sys2Proof.RouteRelease
  Sys2Proof.PointLies Sys2Proof.SlotBytes Sys2Proof.LayoutStop Sys2Proof.DeckStates Sys2Proof.DeckMotion

/-! ### What a request makes of the deck -/

theorem deckOf_taken (q : Request) (s : State) : DeckOf (taken q s) (taken q s) s.tt := by
  have htt : (taken q s).tt = s.tt := read_taken (fun u => u.tt) q s fun _ => rfl
  rw [← htt]
  exact DeckOf.refl _

section Command
variable {c : Instr} {s v : State} {t : Turntable} {q : Request} {al : Allowed} {f : Nat → State → State} {rs : RunState}

theorem deckOf_inside_taken (h : DeckOf (taken q s) v t) : inside v = inside (({ s with tt := t } : State).inHand q.tag).served := by
  refine h.inside.trans ?_
  rw [taken_shape]
  rfl

theorem deckOf_quiet_taken (h : DeckOf (taken q s) v t) (hq : AtRest s) : quietEnd v = true := by
  have hin := deckOf_inside_taken h
  have hread {α : Type} (k : State → α) (hk : ∀ u, k u = k (inside u)) := OrderEnds.read_of_inside k hk hin
  obtain ⟨w, hw, hb⟩ := h.alone
  refine quietEnd_of_empty v ?_ ((hread (fun u => u.vis.queue) fun _ => rfl).trans hq.shows)
    ((hread (fun u => u.pts.queue) fun _ => rfl).trans hq.orders) ((hread (fun u => u.ilk.stack) fun _ => rfl).trans hq.stack)
  rw [work_of_body hb]
  exact hw.trans (by rw [work_taken, hq.work]; rfl)

/-- A request that changes the deck alone and is answered. -/
theorem deckOf_replies (h : DeckOf (taken q s) v t) (e : exec c s = .next (requestCommand al f q s)) (hr : Ready rs s)
    (hal : al.ok rs = true) (hrs : rs ≠ .initializing) (hq : AtRest s) {r : Result} {w0 w1 : Nat}
    (hf : f s.exch.takePos (taken q s) = complete s.exch.takePos r w0 w1 v) (ho : Own (taken q s) v) :
    Replies c s { s with tt := t } q.tag r w0 w1 :=
  replies_of e hr hal hrs hf ho (deckOf_inside_taken h) ⟨rfl, rfl⟩ (deckOf_quiet_taken h hq)

/-- A request that changes the deck alone and stays in hand. -/
theorem deckOf_pends (h : DeckOf (taken q s) v t) (e : exec c s = .next (requestCommand al f q s)) (hr : Ready rs s)
    (hal : al.ok rs = true) (hrs : rs ≠ .initializing) (hq : AtRest s) (hf : f s.exch.takePos (taken q s) = v)
    (ho : Own (taken q s) v) : Pends c s { s with tt := t } q.tag :=
  pends_of_slots e hr hal hrs hf ho h.slots (deckOf_inside_taken h) (deckOf_quiet_taken h hq)

end Command

/-! ### The road and the end asked for -/

/-- The road and the end of a valid request. -/
def askedEnd (road deckEnd : Nat) : RoadEnd := { road := road, deckEnd := if deckEnd = 0 then .a else .b }

theorem requestTarget_valid {s : State} {road deckEnd : Nat} {q : Road} (hroad : road < 36) (hq : Tbl.find s.tt.roads road = some q)
    (hend : deckEnd < 2) : requestTarget s road deckEnd = some (askedEnd road deckEnd) := by
  unfold requestTarget askedEnd
  rw [if_pos (by simp [hroad, hq])]
  obtain rfl | rfl : deckEnd = 0 ∨ deckEnd = 1 := by omega
  · rfl
  · rfl

theorem requestTarget_bad {s : State} {road deckEnd : Nat} (h : 36 ≤ road ∨ Tbl.find s.tt.roads road = none ∨ 2 ≤ deckEnd) :
    requestTarget s road deckEnd = none := by
  unfold requestTarget
  split
  · next hc =>
    simp only [Bool.and_eq_true, decide_eq_true_eq] at hc
    obtain ⟨hroad, hloaded⟩ := hc
    obtain h | h | h := h
    · omega
    · simp [h] at hloaded
    · split
      · omega
      · omega
      · rfl
  · rfl

/-! ### The refusals of TURN_TABLE (R128) -/

/-- What TURN_TABLE to a road and end answers without a turn. -/
def turnRefusal (d : DeckRec) (x : RoadEnd) (s : State) : Option Answer :=
  if s.asp.cond = .allStop then some ⟨.allStop, 0, 0⟩
  else if s.tt.state = .fault then some ⟨.tableFault, 0, faultCode s.tt.fault⟩
  else if s.tt.state != .aligned && s.tt.state != .halted then some ⟨.tableBusy, 0, s.tt.state.code⟩
  else if s.tt.state = .aligned && s.tt.align = some x then some ⟨.ok, 0, 0⟩
  else deckLockedOrStraddled d s

/-- What HOME_TABLE answers without a homing. -/
def homeRefusal (d : DeckRec) (s : State) : Option Answer :=
  if s.asp.cond = .allStop then some ⟨.allStop, 0, 0⟩
  else if s.tt.state != .unreferenced && s.tt.state != .halted && s.tt.state != .aligned && s.tt.state != .fault then
    some ⟨.tableBusy, 0, 0⟩
  else if (lockOf s d.sec).isSome then some ⟨.tableLocked, 0, 0⟩
  else straddle d s

section Requests
variable {s : State} {d : DeckRec} {road deckEnd : Nat} {x : RoadEnd}

theorem turnRequest_bad (q : Requester) (h : s.tt.deck = none ∨ requestTarget s road deckEnd = none) :
    turnRequest q road deckEnd s = (s, some ⟨.badArgument, 0, 0⟩) := by
  unfold turnRequest
  split
  · next hd hx => obtain h | h := h
                  · rw [hd] at h; cases h
                  · rw [hx] at h; cases h
  · rfl

theorem homeTable_bad (k : Nat) (h : s.tt.deck = none ∨ requestTarget s road deckEnd = none) :
    homeTable k road deckEnd s = complete k .badArgument 0 0 s := by
  unfold homeTable
  split
  · next hd hx => obtain h | h := h
                  · rw [hd] at h; cases h
                  · rw [hx] at h; cases h
  · rfl

theorem turnRequest_eq (q : Requester) (hd : s.tt.deck = some d) (hx : requestTarget s road deckEnd = some x) :
    turnRequest q road deckEnd s = match turnRefusal d x s with
      | some a => (s, some a)
      | none => turnAccepted d q x s := by
  unfold turnRequest turnRefusal
  rw [hd, hx]
  dsimp only
  split_ifs
  · rfl
  · rfl
  · rfl
  · rfl
  · cases deckLockedOrStraddled d s <;> rfl

theorem homeTable_eq (k : Nat) (hd : s.tt.deck = some d) (hx : requestTarget s road deckEnd = some x) :
    homeTable k road deckEnd s = match homeRefusal d s with
      | some a => complete k a.result a.w0 a.w1 s
      | none => homeAccepted d k x s := by
  unfold homeTable homeRefusal
  rw [hd, hx]
  dsimp only
  split_ifs
  · rfl
  · rfl
  · rfl
  · cases straddle d s <;> rfl

end Requests

/-! ### The straddle (R128, R130) -/

theorem standing_iff (s : State) (n : Nat) : standing s n = true ↔ Stands s n := by
  unfold standing Stands; simp

section Straddle
variable {s : State} {d : DeckRec} {p : Nat}

theorem facing_iff (y : Nat × Road) : ((y.2.position == p || y.2.position == (p + d.c / 2) % d.c) && standing s y.2.sec) = true ↔
    Faces d p y.2 ∧ Stands s y.2.sec := by
  rw [Bool.and_eq_true, standing_iff]
  unfold Faces
  simp

theorem straddle_unknown (hp : s.tt.pos = none) (h : Stands s d.sec) :
    straddle d s = some ⟨.straddle, d.sec, (secState s d.sec).code⟩ := by
  unfold straddle
  rw [if_pos ((standing_iff s d.sec).2 h), hp]

/-- The first road found, in the order of their numbers, is the one named (log 27). -/
theorem straddle_found {a b : Tbl Road} {y : Nat × Road} (hp : s.tt.pos = some p) (h : Stands s d.sec) (hroads : s.tt.roads = a ++ y :: b)
    (hfaces : Faces d p y.2) (hstands : Stands s y.2.sec) (hfirst : ∀ z ∈ a, ¬ (Faces d p z.2 ∧ Stands s z.2.sec)) :
    straddle d s = some ⟨.straddle, y.2.sec, (secState s y.2.sec).code⟩ := by
  have hfind : facingOccupied d s p = some y.2.sec := by
    unfold facingOccupied
    rw [hroads, List.find?_append]
    have hnone : a.find? (fun x => (x.2.position == p || x.2.position == (p + d.c / 2) % d.c) && standing s x.2.sec) = none :=
      List.find?_eq_none.2 fun z hz hc => hfirst z hz ((facing_iff z).1 hc)
    have hhit : (y :: b).find? (fun x => (x.2.position == p || x.2.position == (p + d.c / 2) % d.c) && standing s x.2.sec) = some y :=
      List.find?_cons_of_pos ((facing_iff y).2 ⟨hfaces, hstands⟩)
    rw [hnone, hhit]
    rfl
  unfold straddle
  rw [if_pos ((standing_iff s d.sec).2 h), hp]
  dsimp only
  rw [hfind]
  rfl

theorem straddle_free (h : ¬ Straddled d s) : straddle d s = none := by
  unfold straddle
  split
  · next hstands =>
    have hdeck : Stands s d.sec := (standing_iff s d.sec).1 hstands
    split
    · next hp => exact absurd ⟨hdeck, fun p hp' => by rw [hp] at hp'; cases hp'⟩ h
    · next p hp =>
      have hnone : facingOccupied d s p = none := by
        unfold facingOccupied
        rw [Option.map_eq_none_iff, List.find?_eq_none]
        exact fun y hy hc => h ⟨hdeck, fun p' hp' => by
          obtain rfl := Option.some.inj (hp.symm.trans hp')
          exact ⟨y, hy, (facing_iff y).1 hc⟩⟩
      rw [hnone]
      rfl
  · rfl

end Straddle

/-! ### An accepted turn (R129) -/

theorem targetPos_road {s : State} (d : DeckRec) {x : RoadEnd} {q : Road} (hq : Tbl.find s.tt.roads x.road = some q) :
    targetPos d s x = targetOf d.c q.position x.deckEnd := by
  unfold targetPos; rw [hq]

/-- The deck with a turn asked for and the legs of its move. -/
def plannedTo (d : DeckRec) (r : Requester) (x : RoadEnd) (p goal : Nat) (t : Turntable) : Turntable :=
  { t with
    requester := r, target := some x, legCw := (legs d p goal).1, legSteps := (legs d p goal).2.1, legDone := 0
    returnSteps := (legs d p goal).2.2 }

section Turns
variable {s v : State} {t : Turntable} {d : DeckRec} {r : Requester} {x : RoadEnd} {q : Road} {p : Nat}

/-- A turn to another alignment at the same position takes it at once (log 26). -/
theorem turnAccepted_here (h : DeckOf s v t) (hq : Tbl.find t.roads x.road = some q)
    (hp : t.pos = some (targetOf d.c q.position x.deckEnd)) (hst : t.state = .aligned) :
    ∃ u, turnAccepted d r x v = (u, some ⟨.ok, targetOf d.c q.position x.deckEnd, roadEndByte (some x)⟩) ∧
      DeckOf s u { DeckBolt.alignedTo x t with feed := feedIn s .aligned } := by
  have hroad : targetPos d v x = targetOf d.c q.position x.deckEnd := targetPos_road d (by rw [h.tt]; exact hq)
  have haligned := h.setDeck (DeckBolt.alignedTo x)
  have hfeed : feedOn (setDeck (DeckBolt.alignedTo x) v) = feedIn s .aligned := by
    unfold feedOn feedIn State.running
    rw [haligned.runState, haligned.cond, haligned.tt]
    exact congrArg (fun st => st == DeckState.aligned && s.exch.runState == .running && s.asp.cond == .running) hst
  have hdeck : DeckOf s (updateFeed (takeAlignment x v)) { DeckBolt.alignedTo x t with feed := feedIn s .aligned } := by
    rw [← hfeed]
    exact haligned.setDeck fun t => { t with feed := feedOn (setDeck (DeckBolt.alignedTo x) v) }
  unfold turnAccepted
  dsimp only
  rw [hroad, if_pos (by rw [h.tt, hp, hst]; simp)]
  generalize updateFeed (takeAlignment x v) = u at hdeck ⊢
  have hreport := hdeck.same (body_report .tableState 0 (halves u.tt.state.code u.tt.state.code)
    (halves (orNone16 u.tt.pos) (tableStateUpper u.tt)) u) (slots_report _ _ _ _ _)
  have hpos : (report .tableState 0 (halves u.tt.state.code u.tt.state.code) (halves (orNone16 u.tt.pos) (tableStateUpper u.tt)) u).tt.pos
      = some (targetOf d.c q.position x.deckEnd) := by rw [hreport.tt]; exact hp
  refine ⟨_, ?_, hreport.update (f := id) (k := fun w => { w with reexam := true }) rfl (fun _ => rfl) (slots_of_mem rfl)⟩
  rw [hpos]
  rfl

theorem deckOf_planned (h : DeckOf s v t) (d : DeckRec) (r : Requester) (x : RoadEnd) (hp : t.pos = some p) (goal : Nat) :
    DeckOf s (planMove d goal (setDeck (fun t => { t with requester := r, target := some x }) v)) (plannedTo d r x p goal t) :=
  (h.setDeck fun t => { t with requester := r, target := some x }).planMove (d := d) (goal := goal) hp

/-- The next state of an accepted turn whose deck does not stand ALIGNED on its target. -/
theorem turnAccepted_away (h : DeckOf s v t) (hq : Tbl.find t.roads x.road = some q) (hp : t.pos = some p)
    (hno : ¬ (p = targetOf d.c q.position x.deckEnd ∧ t.state = .aligned)) :
    ∃ u, DeckOf s u (plannedTo d r x p (targetOf d.c q.position x.deckEnd) t) ∧ turnAccepted d r x v =
      (if t.state = .aligned then enterUnbolting d u
        else if p = targetOf d.c q.position x.deckEnd then enterBolting d u
        else enterMoving d u, none) := by
  have hroad : targetPos d v x = targetOf d.c q.position x.deckEnd := targetPos_road d (by rw [h.tt]; exact hq)
  have hdeck := deckOf_planned h d r x hp (targetOf d.c q.position x.deckEnd)
  refine ⟨_, hdeck, ?_⟩
  unfold turnAccepted
  dsimp only
  rw [hroad, if_neg (by rw [h.tt, hp]; simpa using hno)]
  generalize planMove _ _ _ = u at hdeck ⊢
  have hstate : u.tt.state = t.state := by rw [hdeck.tt]; rfl
  have hpos : u.tt.pos = some p := by rw [hdeck.tt]; exact hp
  rw [hstate, hpos]
  split_ifs <;> simp_all

end Turns

/-! ### An accepted homing (R130, R131) -/

/-- The deck that is asked to home. -/
def homingFor (r : Requester) (x : RoadEnd) (t : Turntable) : Turntable :=
  { t with requester := r, target := some x, fault := none, pos := none, align := none }

theorem homeAccepted_eq {s v : State} {t : Turntable} (h : DeckOf s v t) (d : DeckRec) (n : Nat) (x : RoadEnd) :
    ∃ u, DeckOf s u (homingFor (.slot n) x t) ∧
      homeAccepted d n x v = if t.state = .halted then enterHoming d u else enterUnbolting d u := by
  refine ⟨_, h.setDeck (homingFor (.slot n) x), ?_⟩
  unfold homeAccepted
  dsimp only
  rw [h.tt]
  rfl

/-! ### The requests in slot n -/

section Slots
variable {s : State} {d : DeckRec} {road deckEnd : Nat} {x : RoadEnd} {a : Answer}

theorem turnTable_answers {v : State} (k : Nat) (h : turnRequest (.slot k) road deckEnd s = (v, some a)) :
    turnTable k road deckEnd s = complete k a.result a.w0 a.w1 v := by
  unfold turnTable; rw [h]

theorem turnTable_waits {v : State} (k : Nat) (h : turnRequest (.slot k) road deckEnd s = (v, none)) :
    turnTable k road deckEnd s = v := by
  unfold turnTable; rw [h]

/-- What a taken request reads is what s reads. -/
theorem turnRefusal_taken (q : Request) : turnRefusal d x (taken q s) = turnRefusal d x s :=
  read_taken (fun u => turnRefusal d x u) q s fun _ => rfl

theorem homeRefusal_taken (q : Request) : homeRefusal d (taken q s) = homeRefusal d s :=
  read_taken (fun u => homeRefusal d u) q s fun _ => rfl

theorem tt_taken (q : Request) : (taken q s).tt = s.tt := read_taken (fun u => u.tt) q s fun _ => rfl

theorem requestTarget_taken (q : Request) : requestTarget (taken q s) road deckEnd = requestTarget s road deckEnd :=
  read_taken (fun u => requestTarget u road deckEnd) q s fun _ => rfl

theorem turnTable_refused (q : Request) (k : Nat) (hd : s.tt.deck = some d) (hx : requestTarget s road deckEnd = some x)
    (h : turnRefusal d x s = some a) : turnTable k road deckEnd (taken q s) = complete k a.result a.w0 a.w1 (taken q s) := by
  refine turnTable_answers k ?_
  rw [turnRequest_eq _ ((congrArg Turntable.deck (tt_taken q)).trans hd) ((requestTarget_taken q).trans hx), turnRefusal_taken, h]

theorem turnTable_accepted (q : Request) (k : Nat) (hd : s.tt.deck = some d) (hx : requestTarget s road deckEnd = some x)
    (h : turnRefusal d x s = none) :
    turnRequest (.slot k) road deckEnd (taken q s) = turnAccepted d (.slot k) x (taken q s) := by
  rw [turnRequest_eq _ ((congrArg Turntable.deck (tt_taken q)).trans hd) ((requestTarget_taken q).trans hx), turnRefusal_taken, h]

theorem homeTable_refused (q : Request) (k : Nat) (hd : s.tt.deck = some d) (hx : requestTarget s road deckEnd = some x)
    (h : homeRefusal d s = some a) : homeTable k road deckEnd (taken q s) = complete k a.result a.w0 a.w1 (taken q s) := by
  rw [homeTable_eq k ((congrArg Turntable.deck (tt_taken q)).trans hd) ((requestTarget_taken q).trans hx), homeRefusal_taken, h]

theorem homeTable_accepted (q : Request) (k : Nat) (hd : s.tt.deck = some d) (hx : requestTarget s road deckEnd = some x)
    (h : homeRefusal d s = none) : homeTable k road deckEnd (taken q s) = homeAccepted d k x (taken q s) := by
  rw [homeTable_eq k ((congrArg Turntable.deck (tt_taken q)).trans hd) ((requestTarget_taken q).trans hx), homeRefusal_taken, h]

/-- The refusals that stand behind the checks of state (R128, R130). -/
theorem turnRefusal_checked (hcond : s.asp.cond = .running) (hst : s.tt.state = .aligned ∧ s.tt.align ≠ some x ∨ s.tt.state = .halted) :
    turnRefusal d x s = deckLockedOrStraddled d s := by
  unfold turnRefusal
  obtain ⟨hst, halign⟩ | hst := hst
  · simp [hcond, hst, halign]
  · simp [hcond, hst]

theorem homeRefusal_checked (hcond : s.asp.cond = .running)
    (hst : s.tt.state ∈ ([.unreferenced, .halted, .aligned, .fault] : List DeckState)) :
    homeRefusal d s = if (lockOf s d.sec).isSome then some ⟨.tableLocked, 0, 0⟩ else straddle d s := by
  unfold homeRefusal
  simp only [List.mem_cons, List.not_mem_nil, or_false] at hst
  obtain hst | hst | hst | hst := hst <;> simp [hcond, hst]

theorem deckLocked_eq {k : Nat} (h : Tbl.find s.ilk.locks d.sec = some k) :
    deckLockedOrStraddled d s = some ⟨.tableLocked, d.sec, k⟩ := by
  unfold deckLockedOrStraddled lockOf; rw [h]

theorem deckUnlocked_eq (h : Tbl.find s.ilk.locks d.sec = none) : deckLockedOrStraddled d s = straddle d s := by
  unfold deckLockedOrStraddled lockOf; rw [h]

theorem homeUnlocked_eq (hcond : s.asp.cond = .running)
    (hst : s.tt.state ∈ ([.unreferenced, .halted, .aligned, .fault] : List DeckState)) (h : Tbl.find s.ilk.locks d.sec = none) :
    homeRefusal d s = straddle d s := by
  rw [homeRefusal_checked hcond hst, lockOf, h]; rfl

end Slots

/-! ### STOP_TABLE (R132, R133) -/

theorem stopTable_standing (k : Nat) {s : State}
    (h : s.tt.deck = none ∨ ¬ (s.tt.state = .moving ∨ s.tt.state = .returning) ∨ s.tt.halting = true) :
    stopTable k s = complete k .ok s.tt.state.code 0 s := by
  unfold stopTable
  dsimp only
  obtain h | h | h := h
  · rw [h]
  · cases s.tt.deck with
    | none => rfl
    | some d =>
      dsimp only
      rw [if_neg (by simpa using fun hc : _ ∨ _ => absurd hc h)]
  · cases s.tt.deck with
    | none => rfl
    | some d =>
      dsimp only
      rw [if_neg (by simp [h])]

/-- The deck that stops with its turn given up. -/
def stoppingDeck (d : DeckRec) (g : Generator) (t : Turntable) : Turntable :=
  { t with
    requester := .none, target := none, legSteps := stopLength d g.rate, returnSteps := 0, jogHold := none, state := .stopping
    feed := false }

/-- A moving deck that a slot turned stops, and that slot is answered CANCELLED (R133). -/
theorem stopTable_moving {s : State} {d : DeckRec} {g : Generator} {n : Nat} {other : HostTag} (k : Nat) (hd : s.tt.deck = some d)
    (hst : s.tt.state = .moving ∨ s.tt.state = .returning) (hh : s.tt.halting = false) (hg : s.tt.gen = some g)
    (hreq : s.tt.requester = .slot n) (hs : InHand s n other) :
    ∃ u, stopTable k s = complete k .ok s.tt.state.code 0 u ∧ Own s u ∧
      DeckAnswered s u (stoppingDeck d g s.tt) n other .cancelled 0 0 := by
  have hstop : DeckOf s (enterStopping d (setDeck (fun t => { t with requester := .none, target := none }) s))
      (stoppingDeck d g s.tt) :=
    ((DeckOf.refl s).setDeck fun t => { t with requester := .none, target := none }).enterStopping hg (.inl fun e => by cases e)
  have hown := own_enterStopping d _ (own_setDeck (fun t => { t with requester := .none, target := none }) _ (own_refl s))
  have hback := hstop.setDeck fun t => { t with requester := s.tt.requester }
  have hdone := answerRequester_slot hback hreq hs (own_setDeck _ _ hown) .cancelled 0 0
  refine ⟨_, ?_, own_answerRequester _ _ _ _ (own_setDeck _ _ hown), hdone⟩
  unfold stopTable
  rw [hd]
  dsimp only
  rw [if_pos (by simpa [hh] using hst)]

section Replying
variable {s : State} {tag : HostTag} {road deckEnd : Word}

/-- The records that the three commands post. -/
abbrev turnRecord (tag : HostTag) (road deckEnd : Word) : Request := ⟨21, tag, road, deckEnd, 0#32⟩
abbrev homeRecord (tag : HostTag) (road deckEnd : Word) : Request := ⟨22, tag, road, deckEnd, 0#32⟩
abbrev stopRecord (tag : HostTag) : Request := ⟨23, tag, 0#32, 0#32, 0#32⟩

theorem turnTable_replies (hr : Ready .running s) (hq : AtRest s) {r : Result} {w0 w1 : Nat}
    (h : turnTable s.exch.takePos road.toNat deckEnd.toNat (taken (turnRecord tag road deckEnd) s)
      = complete s.exch.takePos r w0 w1 (taken (turnRecord tag road deckEnd) s)) :
    Replies (.turnTable tag road deckEnd) s s tag r w0 w1 :=
  replies_same (q := turnRecord tag road deckEnd) (al := .running) (f := fun n => turnTable n road.toNat deckEnd.toNat)
    rfl hr rfl (by decide) h hq

theorem homeTable_replies (hr : Ready .running s) (hq : AtRest s) {r : Result} {w0 w1 : Nat}
    (h : homeTable s.exch.takePos road.toNat deckEnd.toNat (taken (homeRecord tag road deckEnd) s)
      = complete s.exch.takePos r w0 w1 (taken (homeRecord tag road deckEnd) s)) :
    Replies (.homeTable tag road deckEnd) s s tag r w0 w1 :=
  replies_same (q := homeRecord tag road deckEnd) (al := .running) (f := fun n => homeTable n road.toNat deckEnd.toNat)
    rfl hr rfl (by decide) h hq

/-- TURN_TABLE and HOME_TABLE with a deck or a target that is not valid. -/
theorem deckRequest_bad (hr : Ready .running s) (hq : AtRest s)
    (h : s.tt.deck = none ∨ requestTarget s road.toNat deckEnd.toNat = none) :
    Replies (.turnTable tag road deckEnd) s s tag .badArgument 0 0 ∧ Replies (.homeTable tag road deckEnd) s s tag .badArgument 0 0 := by
  have hbad (q : Request) : (taken q s).tt.deck = none ∨ requestTarget (taken q s) road.toNat deckEnd.toNat = none := by
    rw [tt_taken, requestTarget_taken]; exact h
  have hturn := turnTable_answers s.exch.takePos (turnRequest_bad (.slot s.exch.takePos) (hbad (turnRecord tag road deckEnd)))
  exact ⟨turnTable_replies hr hq hturn, homeTable_replies hr hq (homeTable_bad s.exch.takePos (hbad (homeRecord tag road deckEnd)))⟩

/-- STOP_TABLE where nothing is to be stopped. -/
theorem stopTable_replies (hr : Ready .running s) (hq : AtRest s)
    (h : s.tt.deck = none ∨ ¬ (s.tt.state = .moving ∨ s.tt.state = .returning) ∨ s.tt.halting = true) :
    Replies (.stopTable tag) s s tag .ok s.tt.state.code 0 := by
  have htt := tt_taken (s := s) (stopRecord tag)
  rw [← htt] at h
  have hstands := stopTable_standing s.exch.takePos h
  rw [htt] at hstands
  exact replies_same (q := stopRecord tag) (al := .running) (f := stopTable) rfl hr rfl (by decide) hstands hq

/-! ### Turns and homings that are accepted -/

section Accepted
variable {d : DeckRec} {x : RoadEnd} {q : Road} {p : Nat}

/-- A turn to another alignment at the same position (log 26). -/
theorem turnTable_here (hr : Ready .running s) (hq : AtRest s) (hcond : s.asp.cond = .running) (hd : s.tt.deck = some d)
    (hx : requestTarget s road.toNat deckEnd.toNat = some x) (hno : turnRefusal d x s = none)
    (hroad : Tbl.find s.tt.roads x.road = some q) (hst : s.tt.state = .aligned) (hp : s.tt.pos = some (targetOf d.c q.position x.deckEnd)) :
    Replies (.turnTable tag road deckEnd) s { s with tt := { DeckBolt.alignedTo x s.tt with feed := true } } tag .ok
      (targetOf d.c q.position x.deckEnd) (roadEndByte (some x)) := by
  obtain ⟨u, heq, hdeck⟩ := turnAccepted_here (r := .slot s.exch.takePos) (deckOf_taken (turnRecord tag road deckEnd) s) hroad hp hst
  have hown : Own (taken (turnRecord tag road deckEnd) s) u := by
    have h := own_turnAccepted d (.slot s.exch.takePos) x _ (own_refl (taken (turnRecord tag road deckEnd) s))
    rw [heq] at h
    exact h
  have hfeed : feedIn (taken (turnRecord tag road deckEnd) s) .aligned = true := by
    rw [read_taken (fun u => feedIn u .aligned) _ s fun _ => rfl]
    unfold feedIn State.running
    rw [hr.state, hcond]
    rfl
  rw [hfeed] at hdeck
  have hturn := turnTable_answers s.exch.takePos ((turnTable_accepted (turnRecord tag road deckEnd) s.exch.takePos hd hx hno).trans heq)
  exact deckOf_replies (q := turnRecord tag road deckEnd) (al := .running) (f := fun n => turnTable n road.toNat deckEnd.toNat)
    hdeck rfl hr rfl (by decide) hq hturn hown

/-- Any other accepted turn stays in hand. -/
theorem turnTable_turns (hr : Ready .running s) (hq : AtRest s) (hd : s.tt.deck = some d)
    (hx : requestTarget s road.toNat deckEnd.toNat = some x) (hno : turnRefusal d x s = none)
    (hroad : Tbl.find s.tt.roads x.road = some q) (hp : s.tt.pos = some p)
    (haway : ¬ (p = targetOf d.c q.position x.deckEnd ∧ s.tt.state = .aligned)) {t : Turntable}
    (ht : ∀ u, DeckOf (taken (turnRecord tag road deckEnd) s) u
        (plannedTo d (.slot s.exch.takePos) x p (targetOf d.c q.position x.deckEnd) s.tt) →
      DeckOf (taken (turnRecord tag road deckEnd) s) (if s.tt.state = .aligned then enterUnbolting d u
        else if p = targetOf d.c q.position x.deckEnd then enterBolting d u else enterMoving d u) t) :
    Pends (.turnTable tag road deckEnd) s { s with tt := t } tag := by
  obtain ⟨u, hdeck, heq⟩ := turnAccepted_away (d := d) (r := .slot s.exch.takePos)
    (deckOf_taken (turnRecord tag road deckEnd) s) hroad hp haway
  have hown := own_turnAccepted d (.slot s.exch.takePos) x _ (own_refl (taken (turnRecord tag road deckEnd) s))
  rw [heq] at hown
  have hturn := (turnTable_accepted (turnRecord tag road deckEnd) s.exch.takePos hd hx hno).trans heq
  exact deckOf_pends (q := turnRecord tag road deckEnd) (al := .running) (f := fun n => turnTable n road.toNat deckEnd.toNat)
    (ht u hdeck) rfl hr rfl (by decide) hq (turnTable_waits s.exch.takePos hturn) hown

/-- An accepted homing of a deck that is bolted. -/
theorem homeTable_unbolts (hr : Ready .running s) (hq : AtRest s) (hd : s.tt.deck = some d)
    (hx : requestTarget s road.toNat deckEnd.toNat = some x) (hno : homeRefusal d s = none) (hst : s.tt.state ≠ .halted)
    (hb : d.bolt = true) (htime : d.boltTime ≠ 0) (hout : withdrawn s.tt = false) :
    Pends (.homeTable tag road deckEnd) s { s with tt := { homingFor (.slot s.exch.takePos) x s.tt with
      state := .unbolting, align := none, boltOut := true, boltTimer := some d.boltTime, feed := false } } tag := by
  obtain ⟨u, hdeck, heq⟩ := homeAccepted_eq (deckOf_taken (homeRecord tag road deckEnd) s) d s.exch.takePos x
  have hown := own_homeAccepted d s.exch.takePos x _ (own_refl (taken (homeRecord tag road deckEnd) s))
  rw [heq, if_neg hst] at hown
  rw [if_neg hst] at heq
  have hhome := (homeTable_accepted (homeRecord tag road deckEnd) s.exch.takePos hd hx hno).trans heq
  have hunbolts := hdeck.enterUnbolting hb htime hout
  exact deckOf_pends (q := homeRecord tag road deckEnd) (al := .running) (f := fun n => homeTable n road.toNat deckEnd.toNat)
    hunbolts rfl hr rfl (by decide) hq hhome hown

/-- An accepted homing of a deck that stands HALTED begins at once. -/
theorem homeTable_homes (hr : Ready .running s) (hq : AtRest s) (hd : s.tt.deck = some d)
    (hx : requestTarget s road.toNat deckEnd.toNat = some x) (hno : homeRefusal d s = none) (hst : s.tt.state = .halted) :
    ∃ level t, exec (.homeTable tag road deckEnd) s = .next t ∧
      inside t = inside (({ s with free := s.free + 1, tt := { homingFor (.slot s.exch.takePos) x s.tt with
        lastIndex := level, search := 0, legCw := true, dirAcw := false, gen := some (beginStep d.v0), stepOut := false
        state := .homing, feed := false } } : State).inHand tag).served := by
  obtain ⟨u, hdeck, heq⟩ := homeAccepted_eq (deckOf_taken (homeRecord tag road deckEnd) s) d s.exch.takePos x
  rw [if_pos hst] at heq
  obtain ⟨level, hhomes⟩ := hdeck.enterHoming d
  have hin := hhomes.inside
  have hquiet : quietEnd (enterHoming d u) = true := by
    obtain ⟨w, hw, hb⟩ := hhomes.alone
    have hread {α : Type} (k : State → α) (hk : ∀ u, k u = k (body u)) := read_of_body k hk hb
    refine quietEnd_of_empty _ ?_ ?_ ?_ ?_
    · rw [work_of_body hb]
      exact hw.trans ((read_taken (fun u => u.work.step) _ s fun _ => rfl).trans (by rw [hq.work]; rfl))
    · exact (hread (fun u => u.vis.queue) fun _ => rfl).trans ((read_taken (fun u => u.vis.queue) _ s fun _ => rfl).trans hq.shows)
    · exact (hread (fun u => u.pts.queue) fun _ => rfl).trans ((read_taken (fun u => u.pts.queue) _ s fun _ => rfl).trans hq.orders)
    · exact (hread (fun u => u.ilk.stack) fun _ => rfl).trans ((read_taken (fun u => u.ilk.stack) _ s fun _ => rfl).trans hq.stack)
  have hexec : exec (.homeTable tag road deckEnd) s = .next (finish s (enterHoming d u)) := by
    refine (congrArg Host.Outcome.next (request_next (al := .running) (f := fun n => homeTable n road.toNat deckEnd.toNat)
      (q := homeRecord tag road deckEnd) hr rfl (by decide))).trans ?_
    have hhome := (homeTable_accepted (homeRecord tag road deckEnd) s.exch.takePos hd hx hno).trans heq
    exact congrArg (fun v => Host.Outcome.next (finish s v)) hhome
  refine ⟨level, _, hexec, (inside_finish _ _ hquiet).trans (hin.trans ?_)⟩
  rw [taken_shape]
  rfl

end Accepted

end Replying

/-- A moving deck that stops: both slots are answered (R133). -/
theorem stopTable_stops {s : State} {tag other : HostTag} {d : DeckRec} {g : Generator} {n : Nat} (hr : Ready .running s)
    (hq : AtRest s) (hd : s.tt.deck = some d) (hst : s.tt.state = .moving ∨ s.tt.state = .returning) (hh : s.tt.halting = false)
    (hg : s.tt.gen = some g) (hreq : s.tt.requester = .slot n) (hn : n < 32) (hne : n ≠ s.exch.takePos)
    (hmarks : Tbl.sorted s.exch.inHand = true) (hmark : Tbl.find s.exch.inHand n = some other) :
    ∃ t, exec (.stopTable tag) s = .next t ∧ SlotDone s.exch.takePos tag .ok s.tt.state.code 0 t ∧
      SlotDone n other .cancelled 0 0 t ∧ inside t = inside (withAnswered n (stoppingDeck d g s.tt) s).served := by
  let q := stopRecord tag
  have htt : (taken q s).tt = s.tt := tt_taken q
  have hhand : (taken q s).exch.inHand = Tbl.insert s.exch.inHand s.exch.takePos tag := by rw [taken_shape]; rfl
  have hin : InHand (taken q s) n other :=
    ⟨hn, by rw [hhand]; exact Tbl.sorted_insert _ _ _ hmarks,
      by rw [hhand, Tbl.find_insert_other _ _ _ _ hne]; exact hmark, mem_taken q s hr.sound.mem⟩
  rw [← htt] at hd hst hh hg hreq
  obtain ⟨u, heq, hown, hdeck⟩ := stopTable_moving s.exch.takePos hd hst hh hg hreq hin
  rw [htt] at heq hdeck
  have hu : inside u = inside ((withAnswered n (stoppingDeck d g s.tt) s).inHand tag).served := by
    obtain ⟨w, -, hb⟩ := hdeck.alone
    have herase : Tbl.erase (taken q s).exch.inHand n = Tbl.insert (Tbl.erase s.exch.inHand n) s.exch.takePos tag := by
      rw [hhand]; exact erase_insert_other tag hmarks hne
    refine (inside_of_body hb).trans ?_
    unfold withAnswered
    rw [herase, taken_shape]
    rfl
  have hquiet : quietEnd u = true := by
    obtain ⟨w, hw, hb⟩ := hdeck.alone
    have hread {α : Type} (k : State → α) (hk : ∀ u, k u = k (inside u)) := OrderEnds.read_of_inside k hk hu
    refine quietEnd_of_empty u ?_ ((hread (fun u => u.vis.queue) fun _ => rfl).trans hq.shows)
      ((hread (fun u => u.pts.queue) fun _ => rfl).trans hq.orders) ((hread (fun u => u.ilk.stack) fun _ => rfl).trans hq.stack)
    rw [work_of_body hb]
    exact hw.trans (by rw [work_taken, hq.work]; rfl)
  have hgone : Tbl.find (Tbl.erase s.exch.inHand n) s.exch.takePos = none := by
    rw [Tbl.find_erase_other _ _ _ fun e => hne e.symm]; exact hr.mark
  obtain ⟨t, hnext, hdone, hinside, -, hlast⟩ := answered_next (c := .stopTable tag) (q := q) (al := .running) (f := stopTable) rfl hr rfl (by decide) heq hown hu rfl hgone hquiet
  exact ⟨t, hnext, hdone, hdeck.done.own hn hlast, hinside⟩

/-- Settles O50: TURN_TABLE, HOME_TABLE and STOP_TABLE. -/
theorem deckRequests : Obligations.DeckRequests := by
  intro s tag road deckEnd hr hq
  refine ⟨fun h => deckRequest_bad hr hq (h.imp id requestTarget_bad), fun h => stopTable_replies hr hq (.inl h), ?_⟩
  intro d q hd hroad hfind hend x goal mayTurn mayHome free found
  have hx : requestTarget s road.toNat deckEnd.toNat = some x := requestTarget_valid hroad hfind hend
  have hturn {a : Answer} (h : turnRefusal d x s = some a) : Replies (.turnTable tag road deckEnd) s s tag a.result a.w0 a.w1 :=
    turnTable_replies hr hq (turnTable_refused _ _ hd hx h)
  have hhome {a : Answer} (h : homeRefusal d s = some a) : Replies (.homeTable tag road deckEnd) s s tag a.result a.w0 a.w1 :=
    homeTable_replies hr hq (homeTable_refused _ _ hd hx h)
  have hqroad : Tbl.find s.tt.roads x.road = some q := hfind
  refine ⟨fun hcond => ⟨hturn (a := ⟨.allStop, 0, 0⟩) (if_pos hcond), hhome (a := ⟨.allStop, 0, 0⟩) (if_pos hcond)⟩, fun hcond => ?_,
    fun h1 h2 => stopTable_replies hr hq (.inr (.inl (by simp [h1, h2]))), fun _ hh => stopTable_replies hr hq (.inr (.inr hh)),
    fun hst hh g n other hg hreq hn hne hmarks hmark => ?_⟩
  · have hnot : ¬ s.asp.cond = .allStop := by rw [hcond]; decide
    have hstraddle {a : Answer} (hfree : free) (h : straddle d s = some a) :
        (mayTurn → Replies (.turnTable tag road deckEnd) s s tag a.result a.w0 a.w1) ∧
        (mayHome → Replies (.homeTable tag road deckEnd) s s tag a.result a.w0 a.w1) :=
      ⟨fun hm => hturn ((turnRefusal_checked hcond hm).trans ((deckUnlocked_eq hfree).trans h)),
        fun hm => hhome ((homeUnlocked_eq hcond hm hfree).trans h)⟩
    refine ⟨fun hst => hturn (a := ⟨.tableFault, 0, faultCode s.tt.fault⟩) ?_, fun hst => hturn (a := ⟨.tableBusy, 0, s.tt.state.code⟩) ?_,
      fun hst => hhome (a := ⟨.tableBusy, 0, 0⟩) ?_, fun hst halign => hturn (a := ⟨.ok, 0, 0⟩) ?_, fun k hk => ⟨fun hm => ?_, fun hm => ?_⟩,
      fun y hfree hy => ?_, fun hfree hp hstands => hstraddle hfree (straddle_unknown hp hstands), fun p hfree hno hp => ?_,
      fun hfree hno => ?_⟩
    · unfold turnRefusal; rw [if_neg hnot, if_pos hst]
    · unfold turnRefusal
      simp only [List.mem_cons, List.not_mem_nil, or_false, not_or] at hst
      obtain ⟨h1, h2, h3⟩ := hst
      rw [if_neg hnot, if_neg h1, if_pos (by simp [h2, h3])]
    · unfold homeRefusal
      simp only [mayHome, List.mem_cons, List.not_mem_nil, or_false, not_or] at hst
      obtain ⟨h1, h2, h3, h4⟩ := hst
      rw [if_neg hnot, if_pos (by simp [h1, h2, h3, h4])]
    · unfold turnRefusal
      rw [if_neg hnot, if_neg (by simp [hst]), if_neg (by simp [hst]), if_pos (by simp [hst, halign])]
    · exact hturn ((turnRefusal_checked hcond hm).trans (deckLocked_eq hk))
    · refine hhome (a := ⟨.tableLocked, 0, 0⟩) ((homeRefusal_checked hcond hm).trans (if_pos ?_))
      unfold lockOf; rw [hk]; rfl
    · obtain ⟨p, hp, hstands, a, b, hroads, hfaces, hys, hfirst⟩ := hy
      exact hstraddle hfree (straddle_found hp hstands hroads hfaces hys hfirst)
    · intro l u
      have hclear : straddle d s = none := straddle_free hno
      have hturns (hm : mayTurn) : turnRefusal d x s = none :=
        (turnRefusal_checked hcond hm).trans ((deckUnlocked_eq hfree).trans hclear)
      refine ⟨fun hst halign hgoal => ?_, fun hst halign hgoal hb htime hout => ?_, fun hst hgoal => ?_,
        fun hst hgoal hb htime hin => ?_⟩
      · rw [hgoal] at hp ⊢
        have hhere := turnTable_here (tag := tag) hr hq hcond hd hx (hturns (.inl ⟨hst, halign⟩)) hqroad hst hp
        have hpolarity : polarityFor s.tt x = if x.deckEnd = .a then q.reversed else !q.reversed := by
          unfold polarityFor; rw [hqroad]; cases x.deckEnd <;> rfl
        unfold DeckBolt.alignedTo at hhere
        rw [hpolarity] at hhere
        exact hhere
      · refine turnTable_turns hr hq hd hx (hturns (.inl ⟨hst, halign⟩)) hqroad hp (fun h => hgoal h.1) fun v hv => ?_
        rw [if_pos hst]
        exact hv.enterUnbolting hb htime (by unfold withdrawn plannedTo; simpa using hout)
      · refine turnTable_turns hr hq hd hx (hturns (.inr hst)) hqroad hp (fun h => hgoal h.1) fun v hv => ?_
        have hmoves := hv.enterMoving d
        unfold onLeg at hmoves
        rw [legRate_begin] at hmoves
        rw [if_neg (by simp [hst]), if_neg hgoal]
        exact hmoves
      · refine turnTable_turns hr hq hd hx (hturns (.inr hst)) hqroad hp (fun h => by simp [hst] at h) fun v hv => ?_
        rw [if_neg (by simp [hst]), if_pos hgoal]
        exact hv.enterBolting hb htime (by unfold engaged plannedTo; simpa using hin)
    · have hclear : straddle d s = none := straddle_free hno
      have hhomes (hm : mayHome) : homeRefusal d s = none := (homeUnlocked_eq hcond hm hfree).trans hclear
      refine ⟨fun hst => ?_, fun hst hb htime hout => ?_⟩
      · obtain ⟨level, t, hnext, hin⟩ := homeTable_homes (tag := tag) hr hq hd hx (hhomes (by simp [mayHome, hst])) hst
        have hread {α : Type} (k : State → α) (hk : ∀ u, k u = k (inside u)) := OrderEnds.read_of_inside k hk hin
        exact ⟨t, hnext, hread (fun u => u.tt.state) fun _ => rfl, hread (fun u => u.tt.pos) fun _ => rfl,
          hread (fun u => u.tt.target) fun _ => rfl, hread (fun u => u.tt.requester) fun _ => rfl,
          hread (fun u => u.tt.legCw) fun _ => rfl, hread (fun u => u.tt.dirAcw) fun _ => rfl,
          hread (fun u => u.tt.search) fun _ => rfl, hread (fun u => u.tt.gen) fun _ => rfl,
          (hread (fun u => Tbl.find u.exch.inHand s.exch.takePos) fun _ => rfl).trans (Tbl.find_insert_self _ _ _),
          hread (fun u => u.occ) fun _ => rfl, hread (fun u => u.ilk) fun _ => rfl, hread (fun u => u.pts) fun _ => rfl⟩
      · have hm : mayHome := by
          simp only [List.mem_cons, List.not_mem_nil, or_false] at hst
          obtain hst | hst | hst := hst <;> simp [mayHome, hst]
        exact homeTable_unbolts hr hq hd hx (hhomes hm) (fun h => by simp [h] at hst) hb htime (by unfold withdrawn; simpa using hout)
  · obtain ⟨t, hnext, hdone, hother, hin⟩ := stopTable_stops hr hq hd hst hh hg hreq hn hne hmarks hmark
    have hread {α : Type} (k : State → α) (hk : ∀ u, k u = k (inside u)) := OrderEnds.read_of_inside k hk hin
    exact ⟨t, hnext, hdone, hother, hread (fun u => u.tt.state) fun _ => rfl, hread (fun u => u.tt.requester) fun _ => rfl,
      hread (fun u => u.tt.target) fun _ => rfl, hread (fun u => u.tt.legSteps) fun _ => rfl, hread (fun u => u.tt.pos) fun _ => rfl,
      hread (fun u => u.occ) fun _ => rfl⟩

end Sys2Proof.DeckRequested
end

