-- ==== Sys2Proof/Proofs/PanelAndLamps.lean ====
section
/-! The panel's power states, the modes of lamps and button lamps, and their levels (O55). -/

namespace Sys2Proof.PanelAndLamps

open Sys2Proof.Machine Sys2Proof.ReportLog Sys2Proof.QuietHeader Sys2Proof.TrackRequests Sys2Proof.RouteRelease
  Sys2Proof.PointLies Sys2Proof.SlotBytes Sys2Proof.RouteRefusals

/-! ### The panel -/

/-- The panel in a state. -/
def withPanel (p : Panel) (s : State) : State := { s with disp := { s.disp with panel := p } }

theorem body_setPanelState (p : Panel) (s : State) : body (setPanelState p s) = body (withPanel p s) := by
  unfold setPanelState; rw [body_write8, body_write8]; rfl

theorem body_changePanel (p : Panel) (cause item : Nat) (s : State) : body (changePanel p cause item s) = body (withPanel p s) := by
  unfold changePanel
  dsimp only
  split
  · next h => rw [← h]; rfl
  · exact (body_report _ _ _ _ _).trans (body_setPanelState p s)

theorem read8_setPanelState (p : Panel) {s : State} (hm : s.memOk) :
    (setPanelState p s).read8 0x20 = p.code ∧ (setPanelState p s).read8 0x21 = p.level := by
  have hcode : p.code % 256 = p.code := by cases p <;> rfl
  have hlevel : p.level % 256 = p.level := by cases p <;> rfl
  have hown := LayoutStop.read8_write8_own (s := withPanel p s) 0x20 p.code hm (by decide)
  have hmem : ((withPanel p s).write8 0x20 p.code).memOk := memOk_write8 _ _ _ hm
  refine ⟨?_, (LayoutStop.read8_write8_own 0x21 p.level hmem (by decide)).trans hlevel⟩
  exact (read8_write8_other _ _ _ _ (by decide)).trans (hown.trans hcode)

/-- The header shows the panel's new state and its level (R179, R180). -/
theorem read8_changePanel {p : Panel} (cause item : Nat) {s : State} (hm : s.memOk) (h : s.disp.panel ≠ p) :
    (changePanel p cause item s).read8 0x20 = p.code ∧ (changePanel p cause item s).read8 0x21 = p.level := by
  obtain ⟨hcode, hlevel⟩ := read8_setPanelState p hm
  have hkept := header_report .panelPower 0 (halves s.disp.panel.code p.code) (halves cause item) (setPanelState p s)
  unfold changePanel
  dsimp only
  rw [if_neg h, hkept.read8 (by decide) (by decide), hkept.read8 (by decide) (by decide)]
  exact ⟨hcode, hlevel⟩

section Idle
variable {s : State} {p : Panel} {d : Display} {cause item : Nat}

/-- What an idle time leaves inside. -/
theorem idle_makes (hq : AtRest s) (heq : idleExpires s = { changePanel p cause item s with disp := d }) {u : State}
    (hb : body ({ changePanel p cause item s with disp := d } : State) = body u) (hw : u.work = s.work)
    (hv : u.vis.queue = s.vis.queue) : Makes .idleTimerExpiry s u :=
  makes_rest (v := idleExpires s) rfl hq (own_idleExpires _ (own_refl s)) (heq ▸ hb) hw hv

/-- What an idle time leaves in the header. -/
theorem idle_header (hq : AtRest s) (heq : idleExpires s = { changePanel p cause item s with disp := d }) (hs : Sound s)
    (hne : s.disp.panel ≠ p) : ∃ t, exec .idleTimerExpiry s = .next t ∧ t.read8 0x20 = p.code ∧ t.read8 0x21 = p.level := by
  have hbody : body (changePanel p cause item s) = body (withPanel p s) := body_changePanel p cause item s
  have hquiet : quietEnd (idleExpires s) = true := by
    have hwork : (changePanel p cause item s).work = s.work := (work_of_body hbody).trans rfl
    have hshows : (changePanel p cause item s).vis.queue = s.vis.queue :=
      (read_of_body (fun u => u.vis.queue) (fun _ => rfl) hbody).trans rfl
    rw [heq]
    exact quietEnd_of_none _ (hwork.trans hq.work) (hshows.trans hq.shows)
  have hkept := header_finish s (idleExpires s) hquiet
  obtain ⟨hcode, hlevel⟩ := read8_changePanel cause item hs.mem hne
  refine ⟨_, rfl, (hkept.read8 (by decide) (by decide)).trans ?_, (hkept.read8 (by decide) (by decide)).trans ?_⟩
  · rw [heq]; exact hcode
  · rw [heq]; exact hlevel

end Idle

/-- The panel goes on to its next state, with its idle timer (R180). -/
theorem panel_dims (s : State) (k : Nat) (hq : AtRest s) (hk : s.disp.idleTimer = some k) :
    (s.disp.panel = .awake → Makes .idleTimerExpiry s { s with disp := { s.disp with
      panel := .dim, idleTimer := if s.disp.idle2 = 0 then none else some (1000 * s.disp.idle2), idleRun := s.disp.idle2 } } ∧
      (Sound s → ∃ t, exec .idleTimerExpiry s = .next t ∧ t.read8 0x20 = 2 ∧ t.read8 0x21 = 32)) ∧
    (s.disp.panel = .dim → Makes .idleTimerExpiry s { s with disp := { s.disp with
      panel := .sleep, idleTimer := if s.disp.idle3 = 0 then none else some (1000 * s.disp.idle3), idleRun := s.disp.idle3 } } ∧
      (Sound s → ∃ t, exec .idleTimerExpiry s = .next t ∧ t.read8 0x20 = 3 ∧ t.read8 0x21 = 9)) ∧
    (s.disp.panel = .sleep → Makes .idleTimerExpiry s { s with disp := { s.disp with panel := .dark, idleTimer := none } } ∧
      (Sound s → ∃ t, exec .idleTimerExpiry s = .next t ∧ t.read8 0x20 = 4 ∧ t.read8 0x21 = 0)) := by
  have hbody (p : Panel) := body_changePanel p 1 s.disp.idleRun s
  refine ⟨fun hp => ?_, fun hp => ?_, fun hp => ?_⟩
  · have heq : idleExpires s = loadIdle s.disp.idle2 (changePanel .dim 1 s.disp.idleRun s) := by
      unfold idleExpires; rw [hk]; dsimp only; rw [hp]
    exact ⟨idle_makes hq heq (body_update (fun y => loadIdle s.disp.idle2 y) (fun _ => rfl) (hbody .dim)) rfl rfl,
      fun hs => idle_header hq heq hs (by rw [hp]; decide)⟩
  · have heq : idleExpires s = loadIdle s.disp.idle3 (changePanel .sleep 1 s.disp.idleRun s) := by
      unfold idleExpires; rw [hk]; dsimp only; rw [hp]
    exact ⟨idle_makes hq heq (body_update (fun y => loadIdle s.disp.idle3 y) (fun _ => rfl) (hbody .sleep)) rfl rfl,
      fun hs => idle_header hq heq hs (by rw [hp]; decide)⟩
  · have heq : idleExpires s = stopIdle (changePanel .dark 1 s.disp.idleRun s) := by
      unfold idleExpires; rw [hk]; dsimp only; rw [hp]
    exact ⟨idle_makes hq heq (body_update (fun y => stopIdle y) (fun _ => rfl) (hbody .dark)) rfl rfl,
      fun hs => idle_header hq heq hs (by rw [hp]; decide)⟩

/-! ### Modes (R170, R175, R176) -/

theorem lampMode_off {s : State} (l : Lamp) (h : s.exch.runState ≠ .running) : lampMode s l = .off := by
  unfold lampMode State.running; simp [h]

theorem lampMode_running {s : State} (l : Lamp) (h : s.exch.runState = .running) :
    lampMode s l = if lampCondition s l.source then l.onMode else l.offMode := by
  unfold lampMode State.running; simp [h]

theorem isRunning_iff (s : State) (n : Nat) : isRunning s n = true ↔ s.vis.runner.map Runner.show_ = some n := by
  unfold isRunning; cases s.vis.runner <;> simp

theorem isQueued_iff (s : State) (n : Nat) : isQueued s n = true ↔ ∃ src, (n, src) ∈ s.vis.queue := by
  unfold isQueued; simp

theorem buttonLampMode_dark {s : State} (b : Nat) (h : s.exch.runState ≠ .running ∨ s.disp.panel = .dark) :
    buttonLampMode s b = .off := by
  have hoff : (!s.running || s.disp.panel == .dark) = true := by unfold State.running; simpa using h
  unfold buttonLampMode showLampMode jogLampMode
  rw [if_pos hoff, if_pos hoff, ite_self]

section Buttons
variable {s : State} {b : Nat}

theorem lampsLit (hr : s.exch.runState = .running) (hp : s.disp.panel ≠ .dark) :
    ¬ (!s.running || s.disp.panel == .dark) = true := by unfold State.running; simp [hr, hp]

/-- The lamp of the button of a show, by the show's state. -/
theorem buttonLampMode_show (hr : s.exch.runState = .running) (hp : s.disp.panel ≠ .dark) (hb : b < 16) {n : Nat}
    (h : boundShow s b = some n) : buttonLampMode s b = if isRunning s n then .fastFlash else if isQueued s n then .slowFlash
      else if Tbl.has s.vis.cool n || s.vis.suspended || decide (s.vis.busy ≤ s.vis.queue.length) then .off else .steady := by
  unfold buttonLampMode showLampMode
  rw [if_pos hb, if_neg (lampsLit hr hp), h]

theorem buttonLampMode_unbound (hr : s.exch.runState = .running) (hp : s.disp.panel ≠ .dark) (hb : b < 16)
    (h : boundShow s b = none) : buttonLampMode s b = .off := by
  unfold buttonLampMode showLampMode
  rw [if_pos hb, if_neg (lampsLit hr hp), h]

theorem buttonLampMode_jog (hr : s.exch.runState = .running) (hp : s.disp.panel ≠ .dark) (hb : 16 ≤ b) : buttonLampMode s b =
    if s.tt.requester = .jog then .fastFlash
    else if s.tt.jogPermitted && s.asp.cond == .running && !s.vis.suspended && s.vis.runner.isNone
      && (s.tt.state == .aligned || s.tt.state == .halted) && s.tt.requester == .none then .steady
    else .off := by
  unfold buttonLampMode jogLampMode
  rw [if_neg (by omega), if_neg (lampsLit hr hp)]

theorem boundShow_none (h : ∀ x ∈ s.vis.shows, x.2.button ≠ some b) : boundShow s b = none := by
  unfold boundShow
  rw [List.find?_eq_none.2 fun x hx => by simpa using h x hx]
  rfl

theorem boundShow_first {y : Nat × ShowRec} (h : FirstWith (fun x => x.2.button = some b) s.vis.shows y) :
    boundShow s b = some y.1 := by
  unfold boundShow
  rw [find_of_firstWith (fun x => by simp) h]
  rfl

theorem has_iff {α : Type} (t : Tbl α) (n : Nat) : Tbl.has t n = true ↔ Tbl.find t n ≠ none := by
  unfold Tbl.has; exact Option.isSome_iff_ne_none

end Buttons

/-! ### Levels (R178, R179) -/

theorem lampLevel_eq (s : State) (m : Mode) : lampLevel s m ≠ 0 ↔ s.disp.panel.level ≠ 0 ∧ lit s.disp.flash m = true := by
  unfold lampLevel; split <;> simp_all

/-- The lamps that are lit, each with the panel's brightness. -/
theorem mem_levels (s : State) (i l : Nat) : (i, l) ∈ (refreshLevels s).disp.levels ↔ l = s.disp.panel.level ∧ l ≠ 0 ∧
    ∃ m, ((i, m) ∈ s.disp.shown ∨ ∃ b, (b, m) ∈ s.vis.lamps ∧ i = 384 + b) ∧ lit s.disp.flash m = true := by
  have hlevel (m : Mode) (h : lampLevel s m ≠ 0) : lampLevel s m = s.disp.panel.level ∧ lit s.disp.flash m = true := by
    obtain ⟨-, hlit⟩ := (lampLevel_eq s m).1 h
    exact ⟨if_pos hlit, hlit⟩
  unfold refreshLevels
  simp only [List.mem_filter, List.mem_append, List.mem_map, bne_iff_ne, Prod.exists, Prod.mk.injEq]
  constructor
  · rintro ⟨⟨i, m, hm, rfl, rfl⟩ | ⟨b, m, hm, rfl, rfl⟩, hne⟩
    · obtain ⟨heq, hlit⟩ := hlevel m hne
      exact ⟨heq, hne, m, .inl hm, hlit⟩
    · obtain ⟨heq, hlit⟩ := hlevel m hne
      exact ⟨heq, hne, m, .inr ⟨b, hm, rfl⟩, hlit⟩
  · rintro ⟨rfl, hne, m, hm | ⟨b, hm, rfl⟩, hlit⟩
    · exact ⟨.inl ⟨i, m, hm, rfl, if_pos hlit⟩, hne⟩
    · exact ⟨.inr ⟨b, m, hm, rfl, if_pos hlit⟩, hne⟩

theorem lit_iff (n : Nat) (m : Mode) :
    lit n m = true ↔ m = .steady ∨ m = .slowFlash ∧ n < 500 ∨ m = .fastFlash ∧ n % 250 < 125 := by
  cases m <;> simp [lit]

/-- Settles O55: the panel dims, and the lamps show their modes and their levels. -/
theorem panelDimsAndLampsFlash : Obligations.PanelDimsAndLampsFlash := by
  refine ⟨panel_dims, fun s l => ?_, fun s b => ⟨buttonLampMode_dark b, fun hr hp hb => ⟨fun h => ?_, fun y hy => ?_⟩,
    fun hr hp hb => ?_⟩, fun s => ⟨_, rfl, rfl, fun i l => ?_⟩⟩
  · intro holds
    have hcond : lampCondition s l.source = true ↔ holds := by
      obtain ⟨src, whenOn, whenOff⟩ := l
      cases src with
      | none => exact ⟨fun h => absurd h Bool.false_ne_true, fun h => absurd h id⟩
      | sectionOccupied n => change (Tbl.has _ _ && _) = true ↔ _ ∧ _; simp [has_iff]
      | sectionRouted n => exact Option.isSome_iff_ne_none
      | signalAspect x a =>
        change (match Tbl.find s.asp.state x with | some st => st.aspect == a | none => false) = true ↔ Option.map _ _ = _
        cases Tbl.find s.asp.state x <;> simp
      | pointLie p y =>
        change (match Tbl.find s.pts.state p with | some st => st.lie == y | none => false) = true ↔ Option.map _ _ = _
        cases Tbl.find s.pts.state p <;> simp
      | tableAtRoad x => change (_ && _) = true ↔ _ ∧ _; simp
      | showRunning n => exact isRunning_iff s n
      | tagPresent n => exact Option.isSome_iff_ne_none
    refine ⟨lampMode_off l, fun hr h => ?_, fun hr h => ?_⟩
    · rw [lampMode_running l hr, if_pos (hcond.2 h)]
    · rw [lampMode_running l hr, if_neg fun hc => h (hcond.1 hc)]
  · exact buttonLampMode_unbound hr hp hb (boundShow_none h)
  · intro runs waits refused
    have hmode := buttonLampMode_show hr hp hb (boundShow_first hy)
    have hrefused : (Tbl.has s.vis.cool y.1 || s.vis.suspended || decide (s.vis.busy ≤ s.vis.queue.length)) = true ↔ refused := by
      simp [refused, has_iff, or_assoc]
    refine ⟨fun h => ?_, fun h1 h => ?_, fun h1 h2 h => ?_, fun h1 h2 h => ?_⟩
    · rw [hmode, if_pos ((isRunning_iff _ _).2 h)]
    all_goals rw [hmode, if_neg fun hc => h1 ((isRunning_iff _ _).1 hc)]
    · rw [if_pos ((isQueued_iff _ _).2 h)]
    all_goals rw [if_neg fun hc => h2 ((isQueued_iff _ _).1 hc)]
    · rw [if_pos (hrefused.2 h)]
    · rw [if_neg fun hc => h (hrefused.1 hc)]
  · intro may
    have hmode := buttonLampMode_jog hr hp hb
    have hmay : (s.tt.jogPermitted && s.asp.cond == .running && !s.vis.suspended && s.vis.runner.isNone
        && (s.tt.state == .aligned || s.tt.state == .halted) && s.tt.requester == .none) = true ↔ may := by
      simp [may, and_assoc]
    refine ⟨fun h => by rw [hmode, if_pos h], fun h hm => ?_, fun h hm => ?_⟩
    · rw [hmode, if_neg h, if_pos (hmay.2 hm)]
    · rw [hmode, if_neg h, if_neg fun hc => hm (hmay.1 hc)]
  · have hlevel : l = s.disp.panel.level ↔ l = match s.disp.panel with
        | .awake => 64
        | .dim => 32
        | .sleep => 9
        | .dark => 0 := by cases s.disp.panel <;> exact Iff.rfl
    have hlit (m : Mode) := lit_iff ((s.disp.flash / 125 + 1) * 125 % 1000) m
    exact (mem_levels _ i l).trans
      (and_congr hlevel (and_congr Iff.rfl (exists_congr fun m => and_congr Iff.rfl (hlit m))))

end Sys2Proof.PanelAndLamps
end

