-- ==== Sys2Proof/Proofs/ShowRunner.lean ====
section
/-! The show runner: what a show leaves when it ends, the runner's turn at the end of a handling, and the timers of a show
(O54). -/

namespace Sys2Proof.ShowRunner

open Sys2Proof.Machine Sys2Proof.ReportLog Sys2Proof.QuietHeader Sys2Proof.TrackRequests Sys2Proof.RouteRelease
  Sys2Proof.PointLies Sys2Proof.SlotBytes Sys2Proof.RouteRefusals Sys2Proof.PanelAndLamps

/-! ### The end of a show (R166 to R168) -/

/-- The cool-down timers once a show is over (R168). -/
def coolAfter (sh : Nat) (s : State) : Tbl Nat :=
  match Tbl.find s.vis.shows sh with
  | none => s.vis.cool
  | some w => if w.coolDown = 0 then s.vis.cool else Tbl.insert s.vis.cool sh (1000 * w.coolDown)

/-- The machine once a show is over. -/
def showOver (sh : Nat) (o : ShowOutcome) (s : State) : State :=
  { s with
    vis := { s.vis with runner := none, last := some (sh, o), cool := coolAfter sh s }
    disp := { s.disp with idleTimer := if s.disp.idle1 = 0 then none else some (1000 * s.disp.idle1), idleRun := s.disp.idle1 }
    work := { s.work with lamps := true, step := none } }

theorem coolAfter_eq {sh : Nat} {s : State} {w : ShowRec} (h : Tbl.find s.vis.shows sh = some w) :
    coolAfter sh s = if w.coolDown = 0 then s.vis.cool else Tbl.insert s.vis.cool sh (1000 * w.coolDown) := by
  unfold coolAfter; rw [h]

theorem startCoolDown_eq (sh : Nat) (s : State) : startCoolDown sh s = { s with vis := { s.vis with cool := coolAfter sh s } } := by
  unfold startCoolDown coolAfter
  cases Tbl.find s.vis.shows sh with
  | none => rfl
  | some w =>
    dsimp only
    split
    · rfl
    · rfl

theorem body_endShow (r : Runner) (s : State) : body (endShow r s) = body (showOver r.show_ .completed s) := by
  unfold endShow reportEnded
  rw [startCoolDown_eq]
  exact body_update (fun y => runnerIdle r.show_ .completed y) (fun _ => rfl)
    (body_report _ _ _ _ { s with vis := { s.vis with cool := coolAfter r.show_ s } })

theorem body_removeShowEntries (sh : Nat) (s : State) : body (removeShowEntries sh s)
    = body { s with ilk := { s.ilk with stack := s.ilk.stack.filter fun x => x.source != .show_ sh } } := by
  unfold removeShowEntries
  split
  · exact body_mirrorStack _
  · next h =>
    have hall : (s.ilk.stack.filter fun x => x.source != .show_ sh) = s.ilk.stack :=
      List.filter_eq_self.2 fun x hx => by
        simp only [List.any_eq_true, beq_iff_eq, not_exists, not_and] at h
        simpa using h x hx
    rw [hall]

/-- An abort of a show whose run route list is empty (R167). -/
theorem body_abortShow {s : State} {r : Runner} {o : ShowOutcome} (reason word : Nat) (h : s.vis.runner = some r)
    (hroutes : r.routes = []) (ho : o ≠ .layoutReset) : body (abortShow o reason word s) = body (showOver r.show_ o { s with
      ilk := { s.ilk with stack := s.ilk.stack.filter fun x => x.source != .show_ r.show_ } }) := by
  unfold abortShow
  rw [h]
  dsimp only
  rw [if_neg ho, if_neg ho, hroutes, startCoolDown_eq]
  have hremove := body_removeShowEntries r.show_ (eachDo [] abortRoute (setRunner none { s with work := { s.work with step := none } }))
  generalize removeShowEntries _ _ = u at hremove ⊢
  have hreport : body (reportEnded r o reason word { u with vis := { u.vis with cool := coolAfter r.show_ u } })
      = body { u with vis := { u.vis with cool := coolAfter r.show_ u } } := body_report _ _ _ _ _
  have hidle := body_update (fun y => runnerIdle r.show_ o y) (fun _ => rfl) hreport
  have hcool := body_update (fun y => runnerIdle r.show_ o { y with vis := { y.vis with cool := coolAfter r.show_ y } })
    (fun _ => rfl) hremove
  exact hidle.trans hcool

/-! ### The runner's turn in a handling -/

theorem runSteps_idle (n : Nat) {s : State} (h : s.work.step = none) : runSteps n s = s := by
  cases n with
  | zero => rfl
  | succ n => unfold runSteps; rw [h]

/-- A step that ends with nothing to follow. -/
theorem runVisitor_once {s : State} {e : StepEnd} (h : s.work.step = some e) (h' : (afterStep e s).work.step = none) :
    runVisitor s = afterStep e s := by
  unfold runVisitor
  rw [runSteps, h]
  exact runSteps_idle _ h'

/-- The end of a handling begins with the runner's turns. -/
theorem finish_turns (b : State) {s t : State} (h : testHeads 16 (runVisitor s) = t) (hstep : t.work.step = none)
    (hhead : noHead t = true) : finish b s = finish b t := by
  have hagain : testHeads 16 (runVisitor t) = t := by rw [runVisitor_idle t hstep, testHeads_idle 16 t hhead]
  unfold finish endHandling
  rw [h, hagain]

/-- A handling at whose end a step of the running show ends and nothing follows. -/
theorem finish_step (b : State) {s : State} {e : StepEnd} (h : s.work.step = some e) (hstep : (afterStep e s).work.step = none)
    (hhead : noHead (afterStep e s) = true) : finish b s = finish b (afterStep e s) :=
  finish_turns b (by rw [runVisitor_once h hstep, testHeads_idle 16 _ hhead]) hstep hhead

/-- The last step of a show has ended (R166). -/
theorem afterStep_last {s : State} {r : Runner} (h : s.vis.runner = some r) (hlast : stepCount s r ≤ r.step + 1) :
    afterStep .success s = endShow r { s with work := { s.work with step := none } } := by
  unfold afterStep
  dsimp only
  rw [h]
  exact if_neg (Nat.not_lt.2 hlast)

/-! ### The timers of a show (O54) -/

theorem makes_finished {c : Instr} {s u v v' : State} {w : Work} (he : exec c s = .next (finish s v)) (hf : finish s v = finish s v')
    (ho : Own s v') (hb : body v' = body { u with work := w }) (hw : w.step = none) (shows : u.vis.queue = [])
    (orders : u.pts.queue = []) (stack : u.ilk.stack = []) : Makes c s u :=
  makes_of_body (he.trans (congrArg Host.Outcome.next hf)) ho hb hw shows orders stack

/-- A PAUSE that was the last step ends the show. -/
theorem stepTimer_ends {s : State} {r : Runner} {w : ShowRec} {k : Nat} (hq : AtRest s) (hr : s.vis.runner = some r)
    (hw : Tbl.find s.vis.shows r.show_ = some w) (hk : r.stepTimer = some k) (hp : r.phase = .pause)
    (hlast : r.step + 1 = w.steps.length) : Makes .stepTimerExpiry s { showOver r.show_ .completed s with work := s.work } := by
  let ended : Runner := { r with phase := .none, stepTimer := none }
  have heq : stepTimerExpires s = stepEnds r .success s := by
    unfold stepTimerExpires; rw [hr]; dsimp only; rw [hk]; dsimp only; rw [hp]; rfl
  have hafter : afterStep .success (stepEnds r .success s)
      = endShow ended { stepEnds r .success s with work := { (stepEnds r .success s).work with step := none } } :=
    afterStep_last rfl (by
      have hcount : stepCount (stepEnds r .success s) ended = w.steps.length := by
        unfold stepCount
        change (match Tbl.find s.vis.shows r.show_ with | none => 0 | some w => w.steps.length) = _
        rw [hw]
      rw [hcount]
      exact hlast.ge)
  have hbody : body (afterStep .success (stepEnds r .success s)) = body { showOver r.show_ .completed s with
      work := { s.work with lamps := true, step := none } } := by
    rw [hafter]
    exact (body_endShow ended _).trans rfl
  have hread {α : Type} (g : State → α) (hg : ∀ y, g y = g (body y)) := read_of_body g hg hbody
  have hf : finish s (stepTimerExpires s) = finish s (afterStep .success (stepEnds r .success s)) := by
    rw [heq]
    refine finish_step s rfl (hread (fun u => u.work.step) fun _ => rfl) ?_
    have hshows := (hread (fun u => u.vis.queue) fun _ => rfl).trans hq.shows
    unfold noHead
    rw [hshows]
    rfl
  have hown : Own s (afterStep .success (stepEnds r .success s)) := own_afterStep _ _ (own_same (own_refl s) rfl rfl)
  exact makes_finished rfl hf hown hbody rfl hq.shows hq.orders hq.stack

/-- The duration timer aborts the show. -/
theorem duration_aborts {s : State} {r : Runner} {k : Nat} (hq : AtRest s) (hr : s.vis.runner = some r) (hk : r.durTimer = some k)
    (hroutes : r.routes = []) : Makes .durationTimerExpiry s { showOver r.show_ .maxDuration s with work := s.work } := by
  have heq : durationExpires s = abortShow .maxDuration 0 0 s := by
    unfold durationExpires; rw [hr, Option.bind_some, hk]
  have hbody : body (durationExpires s) = body { ({ showOver r.show_ .maxDuration s with work := s.work } : State) with
      work := { s.work with lamps := true, step := none } } := by
    rw [heq]
    refine (body_abortShow 0 0 hr hroutes (by decide)).trans ?_
    rw [hq.stack]
    exact congrArg (fun l => body (showOver r.show_ .maxDuration { s with ilk := { s.ilk with stack := l } })) hq.stack.symm
  exact makes_of_body rfl (own_durationExpires _ (own_refl s)) hbody rfl hq.shows hq.orders hq.stack

/-- Settles O54: the timers of a show. -/
theorem showTimersEndShows : Obligations.ShowTimersEndShows := by
  refine ⟨fun s r w k hq hr hw hcool hidle => ?_, fun s hq hno => ?_, fun s hq hno => ?_, fun s n hq => ⟨fun k hk => ?_, fun hn => ?_⟩⟩
  · have hover (o : ShowOutcome) : { showOver r.show_ o s with work := s.work } = { s with
        vis := { s.vis with
          runner := none, last := some (r.show_, o), cool := Tbl.insert s.vis.cool r.show_ (1000 * w.coolDown) }
        disp := { s.disp with idleTimer := some (1000 * s.disp.idle1), idleRun := s.disp.idle1 } } := by
      unfold showOver
      rw [coolAfter_eq hw, if_neg hcool, if_neg hidle]
    exact ⟨fun hk hp hlast => hover .completed ▸ stepTimer_ends hq hr hw hk hp hlast,
      fun hk hroutes => hover .maxDuration ▸ duration_aborts hq hr hk hroutes⟩
  · refine makes_rest rfl hq (own_stepTimerExpires _ (own_refl s)) (congrArg body ?_) rfl rfl
    unfold stepTimerExpires
    cases hr : s.vis.runner with
    | none => rfl
    | some r => dsimp only; rw [hno r hr]
  · refine makes_rest rfl hq (own_durationExpires _ (own_refl s)) (congrArg body ?_) rfl rfl
    unfold durationExpires
    cases hr : s.vis.runner with
    | none => rfl
    | some r => rw [Option.bind_some, hno r hr]
  · refine makes_rest rfl hq (own_coolDownExpires _ _ (own_refl s)) (congrArg body ?_) rfl rfl
    unfold coolDownExpires Tbl.has
    rw [hk]
    rfl
  · refine makes_rest rfl hq (own_coolDownExpires _ _ (own_refl s)) (congrArg body ?_) rfl rfl
    unfold coolDownExpires Tbl.has
    rw [hn]
    rfl

end Sys2Proof.ShowRunner
end

