-- ==== Sys2Proof/Proofs/ShowRequests.lean ====
section
/-! RUN_SHOW, VISITOR_SUSPEND and VISITOR_RESUME (O53). -/

namespace Sys2Proof.ShowRequests

open Sys2Proof.Machine Sys2Proof.ReportLog Sys2Proof.QuietHeader Sys2Proof.TrackRequests Sys2Proof.RouteRelease
  Sys2Proof.PointLies Sys2Proof.SlotBytes Sys2Proof.RouteRefusals Sys2Proof.PanelAndLamps Sys2Proof.ShowRunner

/-! ### RUN_SHOW (R160) -/

/-- What RUN_SHOW answers where it queues nothing. -/
def showRefusal (sh : Nat) (s : State) : Option Answer :=
  if !(sh < 32 && Tbl.has s.vis.shows sh) then some ⟨.badArgument, 0, 0⟩
  else if s.vis.suspended then some ⟨.visitorBarred, 0, 0⟩
  else if isQueued s sh then some ⟨.showBusy, 0, 1⟩
  else if isRunning s sh then some ⟨.showBusy, 0, 2⟩
  else if Config.visitorQueue ≤ s.vis.queue.length then some ⟨.queueFull, 0, 0⟩
  else none

theorem runShow_refused {sh : Nat} {s : State} {a : Answer} (k : Nat) (h : showRefusal sh s = some a) :
    runShow k sh s = complete k a.result a.w0 a.w1 s := by
  unfold showRefusal at h
  unfold runShow
  split_ifs at h ⊢ <;> cases h <;> rfl

theorem runShow_joins {sh : Nat} {s : State} (k : Nat) (h : showRefusal sh s = none) :
    runShow k sh s = complete k .ok s.vis.queue.length (s.vis.queue.length + 1) (joinQueue sh .host s) := by
  unfold showRefusal at h
  unfold runShow
  split_ifs at h ⊢
  rfl

theorem showRefusal_bad {sh : Nat} {s : State} (h : 32 ≤ sh ∨ Tbl.find s.vis.shows sh = none) :
    showRefusal sh s = some ⟨.badArgument, 0, 0⟩ := by
  unfold showRefusal Tbl.has
  refine if_pos ?_
  obtain h | h := h
  · simp [Nat.not_lt.2 h]
  · simp [h]

/-- The refusals of a show that is loaded. -/
theorem showRefusal_loaded {sh : Nat} {s : State} {w : ShowRec} (hsh : sh < 32) (hw : Tbl.find s.vis.shows sh = some w) :
    showRefusal sh s = if s.vis.suspended then some ⟨.visitorBarred, 0, 0⟩
      else if isQueued s sh then some ⟨.showBusy, 0, 1⟩
      else if isRunning s sh then some ⟨.showBusy, 0, 2⟩
      else if Config.visitorQueue ≤ s.vis.queue.length then some ⟨.queueFull, 0, 0⟩
      else none := by
  unfold showRefusal Tbl.has
  exact if_neg (by simp [hsh, hw])

theorem showRefusal_taken (sh : Nat) (q : Request) (s : State) : showRefusal sh (taken q s) = showRefusal sh s :=
  read_taken (fun u => showRefusal sh u) q s fun _ => rfl

/-- The record that RUN_SHOW posts. -/
abbrev showRecord (tag : HostTag) (n : Word) : Request := ⟨24, tag, n, 0#32, 0#32⟩

/-- A machine with no work in hand where the runner takes no show. -/
theorem quietEnd_of_work {s : State} (h : s.work = Work.none ∨ s.work = { Work.none with lamps := true }) (hh : noHead s = true) :
    quietEnd s = true := by
  unfold quietEnd
  obtain h | h := h <;> simp [h, hh, Work.none]

section Requests
variable {s : State} {tag : HostTag} {n : Word}

theorem runShow_replies_refused {a : Answer} (hr : Ready .running s) (hq : quietEnd s = true) (h : showRefusal n.toNat s = some a) :
    Replies (.runShow tag n) s s tag a.result a.w0 a.w1 := by
  refine replies_of (q := showRecord tag n) (al := .running) (f := fun k => runShow k n.toNat) (v := taken (showRecord tag n) s) rfl hr
    rfl (by decide) ?_ (Own.refl _) (inside_taken _ s) ⟨rfl, rfl⟩ (by rw [quietEnd_taken]; exact hq)
  exact runShow_refused _ ((showRefusal_taken _ _ s).trans h)

/-- A show that joins the queue while the runner takes none (R160). -/
theorem runShow_replies_queued (hr : Ready .running s) (hwork : s.work = Work.none) (hhead : mayTakeHead s = false)
    (h : showRefusal n.toNat s = none) : Replies (.runShow tag n) s { s with
      vis := { s.vis with queue := s.vis.queue ++ [(n.toNat, .host)] } } tag .ok s.vis.queue.length (s.vis.queue.length + 1) := by
  let v := joinQueue n.toNat .host (taken (showRecord tag n) s)
  have hqueue : (taken (showRecord tag n) s).vis.queue = s.vis.queue := read_taken (fun u => u.vis.queue) _ s fun _ => rfl
  have hjoins := runShow_joins s.exch.takePos ((showRefusal_taken n.toNat (showRecord tag n) s).trans h)
  rw [hqueue] at hjoins
  have hv : inside v = inside (({ s with vis := { s.vis with queue := s.vis.queue ++ [(n.toNat, .host)] } } : State).inHand tag).served := by
    change inside (joinQueue _ _ (taken _ _)) = _
    rw [taken_shape]
    rfl
  have hquiet : quietEnd v = true := by
    refine quietEnd_of_work (.inl ?_) ?_
    · exact (work_taken _ s).trans hwork
    · unfold noHead
      have hmay : mayTakeHead v = mayTakeHead s := read_taken (fun u => mayTakeHead u) _ s fun _ => rfl
      rw [hmay, hhead]
      simp
  exact replies_of (q := showRecord tag n) (al := .running) (f := fun k => runShow k n.toNat) rfl hr rfl (by decide) hjoins
    (own_joinQueue _ _ _ (own_refl _)) hv ⟨rfl, rfl⟩ hquiet

end Requests

/-! ### A show that starts at once (R161) -/

/-- The runner at the first step of a show. -/
def freshRunner (sh : Nat) (s : State) : Runner :=
  { show_ := sh, step := 0, phase := .none, stepTimer := none
    durTimer := if (match Tbl.find s.vis.shows sh with
      | some w => w.maxDuration
      | none => 0) = 0 then none else some (1000 * (match Tbl.find s.vis.shows sh with
      | some w => w.maxDuration
      | none => 0))
    routes := [] }

/-- The machine as a show begins. -/
def onStage (r : Runner) (rest : List (Nat × ShowSource)) (s : State) : State :=
  { s with
    vis := { s.vis with queue := rest, runner := some r }
    disp := { s.disp with panel := .awake, idleTimer := none }
    work := { s.work with lamps := true } }

theorem takeShow_eq (sh : Nat) (src : ShowSource) (rest : List (Nat × ShowSource)) (s : State) :
    ∃ w, takeShow sh src rest s = runVisitor (beginStepOf (freshRunner sh s) w) ∧
      body w = body (onStage (freshRunner sh s) rest s) := by
  refine ⟨_, rfl, ?_⟩
  have hreport : body (report .showStarted sh (halves src.fields.1 src.fields.2) rest.length
      (setVisitors (fun v => { v with queue := rest, runner := some (freshRunner sh s) }) s))
      = body (setVisitors (fun v => { v with queue := rest, runner := some (freshRunner sh s) }) s) := body_report _ _ _ _ _
  have hlamps := body_update (fun y => { y with work := { y.work with lamps := true } }) (fun _ => rfl) hreport
  have hpanel := body_update (fun y => withPanel .awake y) (fun _ => rfl) hlamps
  have hstop := body_update (fun y => stopIdle y) (fun _ => rfl) ((body_changePanel .awake 3 sh _).trans hpanel)
  exact hstop

/-- The machine once RUN_SHOW has answered and its show waits alone. -/
def queuedShow (n : Nat) (s : State) : State := ({ s with vis := { s.vis with queue := [(n, .host)] } } : State).served

section Starting
variable {s : State} {tag : HostTag} {n : Word}

/-- RUN_SHOW answered, at the end of its own block. -/
def answered (tag : HostTag) (n : Word) (s : State) : State :=
  complete s.exch.takePos .ok 0 1 (joinQueue n.toNat .host (taken (showRecord tag n) s))

theorem body_answered (hr : Ready .running s) (hq : AtRest s) : body (answered tag n s) = body (queuedShow n.toNat s) := by
  have hfind : Tbl.find (joinQueue n.toNat .host (taken (showRecord tag n) s)).exch.inHand s.exch.takePos = some tag := by
    change Tbl.find (taken (showRecord tag n) s).exch.inHand s.exch.takePos = some tag
    rw [taken_mark]
    exact Tbl.find_insert_self _ _ _
  have hmarks : Tbl.erase (taken (showRecord tag n) s).exch.inHand s.exch.takePos = s.exch.inHand := by
    rw [taken_mark]; exact Tbl.erase_insert _ _ _ hr.mark
  refine (body_completed .ok 0 1 hr.sound.limits.takePos hfind).trans ?_
  change body ({ joinQueue n.toNat .host (taken (showRecord tag n) s) with
    exch := { (taken (showRecord tag n) s).exch with inHand := Tbl.erase (taken (showRecord tag n) s).exch.inHand s.exch.takePos } } : State) = _
  rw [hmarks, taken_shape]
  unfold joinQueue setVisitors queuedShow
  have hqueue : (((s.inHand tag).served).withMem (taken (showRecord tag n) s).exch.mem).vis.queue = [] := hq.shows
  dsimp only
  rw [hqueue]
  rfl

/-- The runner takes the show that waits alone, and no other (R161). -/
theorem answered_heads (hr : Ready .running s) (hq : AtRest s) (hcond : s.asp.cond = .running) (hidle : s.vis.runner = none)
    (hjog : s.tt.requester ≠ .jog) (hafter : noHead (takeShow n.toNat .host [] (answered tag n s)) = true) :
    testHeads 16 (runVisitor (answered tag n s)) = takeShow n.toNat .host [] (answered tag n s) := by
  have hread {α : Type} (g : State → α) (hg : ∀ y, g y = g (body y)) := read_of_body g hg (body_answered (tag := tag) (n := n) hr hq)
  have hstep : (answered tag n s).work.step = none :=
    (hread (fun y => y.work.step) fun _ => rfl).trans (by change s.work.step = none; rw [hq.work]; rfl)
  have hshows : (answered tag n s).vis.queue = [(n.toNat, .host)] := hread (fun y => y.vis.queue) fun _ => rfl
  have hmay : mayTakeHead (answered tag n s) = true := by
    refine (hread (fun y => mayTakeHead y) fun _ => rfl).trans ?_
    change (s.vis.runner.isNone && s.exch.runState == .running && s.asp.cond == .running && s.tt.requester != .jog) = true
    rw [hidle, hr.state, hcond]
    simpa using hjog
  have hhead : testHead (answered tag n s) = takeShow n.toNat .host [] (answered tag n s) := by
    unfold testHead
    rw [hshows]
    exact if_pos hmay
  rw [runVisitor_idle _ hstep, testHeads, hshows, hmay]
  refine Eq.trans ?_ (testHeads_idle 15 _ hafter)
  exact congrArg (testHeads 15) hhead

/-- What stands of the show's start at the end of the handling. -/
theorem runShow_starts (hr : Ready .running s) (hq : AtRest s) (hcond : s.asp.cond = .running) (hidle : s.vis.runner = none)
    (hjog : s.tt.requester ≠ .jog) (hno : showRefusal n.toNat s = none) {w : Work} {u : State}
    (hb : body (takeShow n.toNat .host [] (answered tag n s)) = body { u with work := w }) (hw : w.step = none)
    (hqueue : u.vis.queue = []) (horders : u.pts.queue = []) (hstack : u.ilk.stack = []) :
    ∃ t, exec (.runShow tag n) s = .next t ∧ SlotDone s.exch.takePos tag .ok 0 1 t ∧ inside t = inside u ∧
      MemoryKept (some s.exch.takePos) s t := by
  have hown : Own (taken (showRecord tag n) s) (joinQueue n.toNat .host (taken (showRecord tag n) s)) := own_joinQueue _ _ _ (own_refl _)
  have hmark : Tbl.find (joinQueue n.toNat .host (taken (showRecord tag n) s)).exch.inHand s.exch.takePos = some tag := by
    change Tbl.find (taken (showRecord tag n) s).exch.inHand s.exch.takePos = some tag
    rw [taken_mark]
    exact Tbl.find_insert_self _ _ _
  have hgone : Tbl.find (Tbl.erase (joinQueue n.toNat .host (taken (showRecord tag n) s)).exch.inHand s.exch.takePos) s.exch.takePos
      = none := by
    change Tbl.find (Tbl.erase (taken (showRecord tag n) s).exch.inHand s.exch.takePos) s.exch.takePos = none
    rw [taken_mark, Tbl.erase_insert _ _ _ hr.mark]
    exact hr.mark
  have hdone : SlotDone s.exch.takePos tag .ok 0 1 (answered tag n s) := slotDone_complete s.exch.takePos tag .ok 0 1 _
    hr.sound.limits.takePos (hown.mem (mem_taken _ s hr.sound.mem)) hmark hgone
  have hquiet : quietEnd (takeShow n.toNat .host [] (answered tag n s)) = true := by
    refine quietEnd_of_empty _ ?_ ((read_of_body (fun y => y.vis.queue) (fun _ => rfl) hb).trans hqueue)
      ((read_of_body (fun y => y.pts.queue) (fun _ => rfl) hb).trans horders)
      ((read_of_body (fun y => y.ilk.stack) (fun _ => rfl) hb).trans hstack)
    rw [work_of_body hb]
    exact hw
  obtain ⟨hstep, hhead, -, -⟩ := quietEnd_iff.1 hquiet
  have hend := finish_turns s (answered_heads hr hq hcond hidle hjog hhead) hstep hhead
  have hexec : exec (.runShow tag n) s = .next (finish s (takeShow n.toNat .host [] (answered tag n s))) := by
    rw [← hend]
    refine (congrArg Host.Outcome.next (request_next (al := .running) (f := fun k => runShow k n.toNat) (q := showRecord tag n) hr rfl
      (by decide))).trans ?_
    have hjoins := runShow_joins s.exch.takePos ((showRefusal_taken n.toNat (showRecord tag n) s).trans hno)
    have hlen : (taken (showRecord tag n) s).vis.queue.length = 0 := by
      rw [read_taken (fun u => u.vis.queue) _ s fun _ => rfl, hq.shows]; rfl
    rw [hlen] at hjoins
    exact congrArg (fun v => Host.Outcome.next (finish s v)) hjoins
  have hownLast : Own (answered tag n s) (finish s (takeShow n.toNat .host [] (answered tag n s))) :=
    own_finish _ _ (own_takeShow _ _ _ _ (own_refl _))
  exact ⟨_, hexec, hdone.own hr.sound.limits.takePos hownLast, (inside_finish _ _ hquiet).trans (inside_of_body_work hb),
    memoryKept_taken ((own_complete hown _ _ _ _).trans hownLast)⟩

/-- The show on its stage as it begins. -/
def begun (n : Nat) (s : State) : State := onStage (freshRunner n s) [] (queuedShow n s)

/-- The step that the runner begins with acts on the show on its stage. -/
theorem takeShow_answered (hr : Ready .running s) (hq : AtRest s) : ∃ w, body w = body (begun n.toNat s) ∧
    takeShow n.toNat .host [] (answered tag n s) = runVisitor (beginStepOf (freshRunner n.toNat s) w) := by
  have hbody := body_answered (tag := tag) (n := n) hr hq
  have hrunner : freshRunner n.toNat (answered tag n s) = freshRunner n.toNat s :=
    (read_of_body (fun y => freshRunner n.toNat y) (fun _ => rfl) hbody).trans rfl
  obtain ⟨w, heq, hb⟩ := takeShow_eq n.toNat .host [] (answered tag n s)
  rw [hrunner] at heq hb
  exact ⟨w, hb.trans (body_update (fun y => onStage (freshRunner n.toNat s) [] y) (fun _ => rfl) hbody), heq⟩

/-- The first step of the show. -/
theorem currentStep_begun {w : State} {x : ShowRec} (hw : body w = body (begun n.toNat s)) (hx : Tbl.find s.vis.shows n.toNat = some x) :
    currentStep w (freshRunner n.toNat s) = x.steps[0]? := by
  refine (read_of_body (fun y => currentStep y (freshRunner n.toNat s)) (fun _ => rfl) hw).trans ?_
  change (Tbl.find s.vis.shows n.toNat).bind _ = _
  rw [hx]
  rfl

theorem freshRunner_eq {x : ShowRec} (hx : Tbl.find s.vis.shows n.toNat = some x) : freshRunner n.toNat s =
    { show_ := n.toNat, step := 0, phase := .none, stepTimer := none
      durTimer := if x.maxDuration = 0 then none else some (1000 * x.maxDuration), routes := [] } := by
  unfold freshRunner; rw [hx]

/-- A first step PAUSE waits (R165). -/
theorem takeShow_pauses (hr : Ready .running s) (hq : AtRest s) {x : ShowRec} {time : Nat} {more : List ShowStep}
    (hx : Tbl.find s.vis.shows n.toNat = some x) (hsteps : x.steps = .pause time :: more) (htime : time ≠ 0) :
    body (takeShow n.toNat .host [] (answered tag n s)) = body (setRunner (some { freshRunner n.toNat s with
      phase := .pause, stepTimer := some (1000 * time) }) (begun n.toNat s)) := by
  obtain ⟨w, hw, heq⟩ := takeShow_answered (tag := tag) (n := n) hr hq
  have hstep : currentStep w (freshRunner n.toNat s) = some (.pause time) := by
    rw [currentStep_begun hw hx, hsteps]; rfl
  have hbegin : beginStepOf (freshRunner n.toNat s) w = setRunner (some { freshRunner n.toNat s with
      phase := .pause, stepTimer := some (1000 * time) }) w := by
    unfold beginStepOf
    rw [hstep]
    dsimp only
    unfold enterWait
    rw [if_neg htime]
  have hidle : (setRunner (some { freshRunner n.toNat s with phase := .pause, stepTimer := some (1000 * time) }) w).work.step = none :=
    (read_of_body (fun y => y.work.step) (fun _ => rfl) hw).trans (by change s.work.step = none; rw [hq.work]; rfl)
  rw [heq, hbegin, runVisitor_idle _ hidle]
  exact body_update (fun y => setRunner (some { freshRunner n.toNat s with phase := .pause, stepTimer := some (1000 * time) }) y)
    (fun _ => rfl) hw

/-- A step that ends in the handling that begins the show, and with it the show (R166, R167). -/
theorem runVisitor_ends {w : State} {r : Runner} {e : StepEnd} {o : ShowOutcome} (hr : w.vis.runner = some r) (hroutes : r.routes = [])
    (hstack : w.ilk.stack = []) (hend : e = .success ∧ o = .completed ∧ stepCount w r ≤ r.step + 1 ∨
      ∃ reason word, e = .failure o reason word ∧ o ≠ .layoutReset) :
    body (runVisitor (endStep e w)) = body (showOver r.show_ o w) := by
  have hends : endStep e w = stepEnds r e w := by unfold endStep; rw [hr]
  have hstep : (stepEnds r e w).work.step = some e := rfl
  have hrunner : (stepEnds r e w).vis.runner = some { r with phase := .none, stepTimer := none } := rfl
  have hafter : body (afterStep e (stepEnds r e w)) = body (showOver r.show_ o w) := by
    obtain ⟨rfl, rfl, hlast⟩ | ⟨reason, word, rfl, ho⟩ := hend
    · rw [afterStep_last (s := stepEnds r .success w) rfl hlast]
      exact (body_endShow _ _).trans rfl
    · have hfail : afterStep (.failure o reason word) (stepEnds r (.failure o reason word) w) = abortShow o reason word
          { stepEnds r (.failure o reason word) w with work := { (stepEnds r (.failure o reason word) w).work with step := none } } := rfl
      rw [hfail]
      refine (body_abortShow reason word (r := { r with phase := .none, stepTimer := none }) rfl hroutes ho).trans ?_
      change body (showOver r.show_ o { w with ilk := { w.ilk with stack := w.ilk.stack.filter _ } }) = _
      rw [hstack]
      exact congrArg (fun l => body (showOver r.show_ o { w with ilk := { w.ilk with stack := l } })) hstack.symm
  rw [hends, runVisitor_once hstep ((read_of_body (fun y => y.work.step) (fun _ => rfl) hafter).trans rfl)]
  exact hafter

/-- A show whose one step is the CANCEL_ROUTE of a route that is not active (R163, log 56). -/
theorem takeShow_cancels (hr : Ready .running s) (hq : AtRest s) {x : ShowRec} {m : Nat} (hx : Tbl.find s.vis.shows n.toNat = some x)
    (hsteps : x.steps = [.cancelRoute m]) (hm : m < 512) (hentry : entryOf s m = none) :
    body (takeShow n.toNat .host [] (answered tag n s))
      = body (showOver n.toNat (if Tbl.find s.ilk.routes m = none then .stepRefused else .completed) (begun n.toNat s)) := by
  obtain ⟨w, hw, heq⟩ := takeShow_answered (tag := tag) (n := n) hr hq
  have hread {α : Type} (g : State → α) (hg : ∀ y, g y = g (body y)) := read_of_body g hg hw
  have hstack : w.ilk.stack = [] := (hread (fun y => y.ilk.stack) fun _ => rfl).trans hq.stack
  have hrunner : w.vis.runner = some (freshRunner n.toNat s) := hread (fun y => y.vis.runner) fun _ => rfl
  have hstep : currentStep w (freshRunner n.toNat s) = some (.cancelRoute m) := by
    rw [currentStep_begun hw hx, hsteps]; rfl
  have hcount : stepCount w (freshRunner n.toNat s) ≤ (freshRunner n.toNat s).step + 1 := by
    have h : stepCount w (freshRunner n.toNat s) = x.steps.length := by
      refine (hread (fun y => stepCount y (freshRunner n.toNat s)) fun _ => rfl).trans ?_
      unfold stepCount
      change (match Tbl.find s.vis.shows n.toNat with | none => 0 | some w => w.steps.length) = _
      rw [hx]
    rw [h, hsteps]
    exact le_rfl
  have hroutes : w.ilk.routes = s.ilk.routes := hread (fun y => y.ilk.routes) fun _ => rfl
  have hbegin : beginStepOf (freshRunner n.toNat s) w = if Tbl.find s.ilk.routes m = none then
      endStep (.failure .stepRefused Result.badArgument.code 0) w else endStep .success w := by
    have hcancel : cancelRoute m true w = (w, ⟨.routeNotActive, 0, 0⟩) := by
      have hnone : entryOf w m = none := (hread (fun y => entryOf y m) fun _ => rfl).trans hentry
      unfold cancelRoute
      rw [if_neg (by omega), hstack]
      dsimp only [List.find?_nil]
      rw [hnone]
    unfold beginStepOf
    rw [hstep]
    change cancelStep m w = _
    unfold cancelStep Tbl.has
    rw [hroutes, hcancel]
    cases Tbl.find s.ilk.routes m <;> rfl
  rw [heq, hbegin]
  split
  · exact (runVisitor_ends hrunner rfl hstack (.inr ⟨_, _, rfl, by decide⟩)).trans
      (body_update (fun y => showOver n.toNat .stepRefused y) (fun _ => rfl) hw)
  · exact (runVisitor_ends hrunner rfl hstack (.inl ⟨rfl, rfl, hcount⟩)).trans
      (body_update (fun y => showOver n.toNat .completed y) (fun _ => rfl) hw)

end Starting

/-! ### VISITOR_SUSPEND and VISITOR_RESUME (R169) -/

section Suspending
variable {s : State} {tag : HostTag}

/-- The record that VISITOR_SUSPEND posts. -/
abbrev suspendRecord (tag : HostTag) : Request := ⟨25, tag, 0#32, 0#32, 0#32⟩

theorem quietEnd_noShow {v : State} (h : v.work = Work.none ∨ v.work = { Work.none with lamps := true }) (hv : v.vis.queue = []) :
    quietEnd v = true := quietEnd_of_work h (by unfold noHead; rw [hv]; rfl)

theorem suspend_again (hr : Ready .running s) (hwork : s.work = Work.none) (hs : s.vis.suspended = true) (hqueue : s.vis.queue = []) :
    Replies (.visitorSuspend tag) s s tag .ok 0 0 := by
  have hf : suspendVisitors s.exch.takePos (taken (suspendRecord tag) s) = complete s.exch.takePos .ok 0 0 (taken (suspendRecord tag) s) :=
    if_pos ((read_taken (fun u => u.vis.suspended) _ s fun _ => rfl).trans hs)
  exact replies_of (q := suspendRecord tag) (al := .running) (f := suspendVisitors) rfl hr rfl (by decide) hf (Own.refl _)
    (inside_taken _ s) ⟨rfl, rfl⟩ (by rw [quietEnd_taken]; exact quietEnd_of_none s hwork hqueue)

/-- The visitors suspended, with their queue emptied once the running show is aborted. -/
def suspending (s : State) : State :=
  setVisitors (fun v => { v with queue := [] }) (abortShow .suspended 0 0 (setVisitors (fun v => { v with suspended := true }) s))

theorem suspendVisitors_eq (q : Request) (hs : s.vis.suspended = false) : suspendVisitors s.exch.takePos (taken q s)
    = complete s.exch.takePos .ok s.vis.queue.length (orNone16 (s.vis.runner.map Runner.show_)) (suspending (taken q s)) := by
  have hsus : ¬ (taken q s).vis.suspended = true := by
    rw [read_taken (fun u => u.vis.suspended) q s fun _ => rfl, hs]; exact Bool.false_ne_true
  have hvis : (taken q s).vis = s.vis := read_taken (fun u => u.vis) q s fun _ => rfl
  rw [← hvis]
  exact if_neg hsus

theorem own_suspending (s : State) : Own s (suspending s) :=
  own_setVisitors _ _ (own_abortShow _ _ _ _ (own_setVisitors _ _ (own_refl s)))

/-- No show runs: the queue is emptied. -/
theorem suspend_idle (hr : Ready .running s) (hwork : s.work = Work.none) (hs : s.vis.suspended = false) (hidle : s.vis.runner = none) :
    Replies (.visitorSuspend tag) s { s with vis := { s.vis with suspended := true, queue := [] } } tag .ok s.vis.queue.length 65535 := by
  have hf := suspendVisitors_eq (suspendRecord tag) hs
  rw [hidle] at hf
  have habort : suspending (taken (suspendRecord tag) s)
      = { taken (suspendRecord tag) s with vis := { (taken (suspendRecord tag) s).vis with suspended := true, queue := [] } } := by
    have hrunner : (setVisitors (fun v => { v with suspended := true }) (taken (suspendRecord tag) s)).vis.runner = none :=
      (read_taken (fun u => u.vis.runner) _ s fun _ => rfl).trans hidle
    unfold suspending abortShow
    rw [hrunner]
    rfl
  refine replies_of (q := suspendRecord tag) (al := .running) (f := suspendVisitors) rfl hr rfl (by decide) hf (own_suspending _) ?_
    ⟨rfl, rfl⟩ ?_
  · rw [habort, taken_shape]
    rfl
  · rw [habort]
    exact quietEnd_noShow (.inl ((work_taken _ s).trans hwork)) rfl

/-- The running show is aborted, and the queue is emptied. -/
theorem suspend_aborts {r : Runner} {w : ShowRec} (hr : Ready .running s) (hwork : s.work = Work.none) (hs : s.vis.suspended = false)
    (hrun : s.vis.runner = some r) (hroutes : r.routes = []) (hw : Tbl.find s.vis.shows r.show_ = some w) :
    Replies (.visitorSuspend tag) s { s with
      vis := { s.vis with
        suspended := true, queue := [], runner := none, last := some (r.show_, .suspended)
        cool := if w.coolDown = 0 then s.vis.cool else Tbl.insert s.vis.cool r.show_ (1000 * w.coolDown) }
      ilk := { s.ilk with stack := s.ilk.stack.filter fun x => x.source != .show_ r.show_ }
      disp := { s.disp with
        idleTimer := if s.disp.idle1 = 0 then none else some (1000 * s.disp.idle1), idleRun := s.disp.idle1 } } tag .ok
      s.vis.queue.length r.show_ := by
  have hf := suspendVisitors_eq (suspendRecord tag) hs
  rw [hrun] at hf
  have hrunner : (setVisitors (fun v => { v with suspended := true }) (taken (suspendRecord tag) s)).vis.runner = some r :=
    (read_taken (fun u => u.vis.runner) _ s fun _ => rfl).trans hrun
  have hbody := body_update (fun y => setVisitors (fun v => { v with queue := [] }) y) (fun _ => rfl)
    (body_abortShow (o := .suspended) 0 0 hrunner hroutes (by decide))
  have hcool : coolAfter r.show_ s = if w.coolDown = 0 then s.vis.cool else Tbl.insert s.vis.cool r.show_ (1000 * w.coolDown) :=
    coolAfter_eq hw
  refine replies_of (q := suspendRecord tag) (al := .running) (f := suspendVisitors) rfl hr rfl (by decide) hf (own_suspending _) ?_
    ⟨rfl, rfl⟩ ?_
  · refine (inside_of_body hbody).trans ?_
    rw [← hcool, taken_shape]
    rfl
  · refine quietEnd_noShow (.inr ((work_of_body hbody).trans ?_)) (read_of_body (fun y => y.vis.queue) (fun _ => rfl) hbody)
    change { (taken (suspendRecord tag) s).work with lamps := true, step := none } = _
    rw [work_taken, hwork]
    rfl

theorem resume_replies (hr : Ready .running s) (hq : AtRest s) : Replies (.visitorResume tag) s
    { s with vis := { s.vis with suspended := false } } tag .ok (if s.vis.suspended then 1 else 0) 0 := by
  have hbit : bit (taken ⟨26, tag, 0#32, 0#32, 0#32⟩ s).vis.suspended 0 = if s.vis.suspended then 1 else 0 := by
    rw [read_taken (fun u => u.vis.suspended) _ s fun _ => rfl]
    cases s.vis.suspended <;> rfl
  have hf : resumeVisitors s.exch.takePos (taken ⟨26, tag, 0#32, 0#32, 0#32⟩ s) = complete s.exch.takePos .ok
      (if s.vis.suspended then 1 else 0) 0 (setVisitors (fun v => { v with suspended := false }) (taken ⟨26, tag, 0#32, 0#32, 0#32⟩ s)) := by
    rw [← hbit]; rfl
  refine replies_of (q := ⟨26, tag, 0#32, 0#32, 0#32⟩) (al := .running) (f := resumeVisitors) rfl hr rfl (by decide) hf
    (own_setVisitors _ _ (own_refl _)) ?_ ⟨rfl, rfl⟩ ?_
  · rw [taken_shape]
    rfl
  · refine quietEnd_of_none _ ((work_taken _ s).trans hq.work) ?_
    exact (read_taken (fun u => u.vis.queue) _ s fun _ => rfl).trans hq.shows

end Suspending

theorem mayTakeHead_false {s : State} (h : s.vis.runner ≠ none ∨ s.asp.cond = .allStop ∨ s.tt.requester = .jog) :
    mayTakeHead s = false := by
  unfold mayTakeHead
  obtain h | h | h := h
  · cases hr : s.vis.runner with
    | none => exact absurd hr h
    | some r => rfl
  · rw [h]; simp
  · rw [h]; simp

/-- Settles O53: RUN_SHOW, VISITOR_SUSPEND and VISITOR_RESUME. -/
theorem showsRunOnRequest : Obligations.ShowsRunOnRequest := by
  refine ⟨fun s tag n hr hq => ⟨fun hbad => ?_, fun w hn hw => ⟨fun hsus => ?_, fun hsus => ⟨fun r hrun => ⟨fun hsame => ?_, fun hne => ?_⟩,
      fun time more hidle hcond hjog hsteps htime => ?_, fun m hidle hcond hjog hsteps hm hentry => ?_⟩⟩⟩,
    fun s tag n w hr hwork hbusy hn hw hsus => ⟨fun hqueued => ?_, fun hnot => ⟨fun ⟨r, hrun, hsame⟩ => ?_, fun hother => ⟨fun hfull => ?_,
      fun hroom => ?_⟩⟩⟩,
    fun s tag hr hwork hlen => ⟨fun hsus hqueue => suspend_again hr hwork hsus hqueue, fun hsus hidle => suspend_idle hr hwork hsus hidle,
      fun r w hsus hrun hroutes hw => suspend_aborts hr hwork hsus hrun hroutes hw⟩,
    fun s tag hr hq => resume_replies hr hq⟩
  · exact runShow_replies_refused hr (quietEnd_of_none s hq.work hq.shows) (showRefusal_bad hbad)
  · exact runShow_replies_refused hr (quietEnd_of_none s hq.work hq.shows) ((showRefusal_loaded hn hw).trans (if_pos hsus))
  · refine runShow_replies_refused (a := ⟨.showBusy, 0, 2⟩) hr (quietEnd_of_none s hq.work hq.shows) ?_
    have hqueue : isQueued s n.toNat = false := by unfold isQueued; rw [hq.shows]; rfl
    rw [showRefusal_loaded hn hw, hsus, hqueue, (isRunning_iff s n.toNat).2 (by rw [hrun, Option.map_some, hsame])]
    rfl
  · have hno : showRefusal n.toNat s = none := by
      have hrunning : ¬ isRunning s n.toNat = true := fun h => by
        rw [isRunning_iff, hrun, Option.map_some] at h
        exact hne (Option.some.inj h)
      rw [showRefusal_loaded hn hw, hsus, if_neg Bool.false_ne_true, isQueued, hq.shows]
      simp [hrunning, Config.visitorQueue]
    have hjoin := runShow_replies_queued (tag := tag) hr hq.work (mayTakeHead_false (.inl (by rw [hrun]; exact Option.some_ne_none r))) hno
    rw [hq.shows] at hjoin
    exact hjoin
  · have hno : showRefusal n.toNat s = none := by
      have hrunning : isRunning s n.toNat = false := by unfold isRunning; rw [hidle]
      rw [showRefusal_loaded hn hw, hsus, if_neg Bool.false_ne_true, isQueued, hq.shows]
      simp [hrunning, Config.visitorQueue]
    have hbody := takeShow_pauses (tag := tag) hr hq hw hsteps htime
    obtain ⟨t, hnext, hdone, hin, hkept⟩ := runShow_starts (u := setRunner (some { freshRunner n.toNat s with
      phase := .pause, stepTimer := some (1000 * time) }) (begun n.toNat s)) hr hq hcond hidle hjog hno hbody
      (by change s.work.step = none; rw [hq.work]; rfl) rfl hq.orders hq.stack
    have hread {α : Type} (k : State → α) (hk : ∀ u, k u = k (inside u)) := OrderEnds.read_of_inside k hk hin
    refine ⟨t, hnext, hdone, hread (fun u => u.vis.queue) fun _ => rfl, ?_, hread (fun u => u.disp.panel) fun _ => rfl,
      hread (fun u => u.disp.idleTimer) fun _ => rfl, hread (fun u => u.occ) fun _ => rfl, hread (fun u => u.ilk) fun _ => rfl,
      hread (fun u => u.tt) fun _ => rfl, hkept⟩
    refine (hread (fun u => u.vis.runner) fun _ => rfl).trans ?_
    rw [freshRunner_eq hw]
    rfl
  · have hno : showRefusal n.toNat s = none := by
      have hrunning : isRunning s n.toNat = false := by unfold isRunning; rw [hidle]
      rw [showRefusal_loaded hn hw, hsus, if_neg Bool.false_ne_true, isQueued, hq.shows]
      simp [hrunning, Config.visitorQueue]
    have hbody := takeShow_cancels (tag := tag) hr hq hw hsteps hm hentry
    obtain ⟨t, hnext, hdone, hin, hkept⟩ := runShow_starts (u := showOver n.toNat (if Tbl.find s.ilk.routes m = none then .stepRefused
      else .completed) (begun n.toNat s)) hr hq hcond hidle hjog hno hbody rfl rfl hq.orders hq.stack
    have hcool : coolAfter n.toNat (begun n.toNat s) = if w.coolDown = 0 then s.vis.cool else Tbl.insert s.vis.cool n.toNat
        (1000 * w.coolDown) := coolAfter_eq (s := begun n.toNat s) hw
    refine ⟨t, hnext, hdone, hin.trans ?_, hkept⟩
    have hback (o : Option (Nat × ShowOutcome)) (c : Tbl Nat) :
        ({ s with vis := { s.vis with queue := [], runner := none, last := o, cool := c } } : State)
          = { s with vis := { s.vis with last := o, cool := c } } :=
      congrArg₂ (fun q r => ({ s with vis := { s.vis with queue := q, runner := r, last := o, cool := c } } : State)) hq.shows.symm
        hidle.symm
    unfold showOver
    rw [hcool]
    exact congrArg (fun x : State => inside ({ x with disp := { s.disp with
      panel := .awake, idleTimer := if s.disp.idle1 = 0 then none else some (1000 * s.disp.idle1), idleRun := s.disp.idle1 } } :
      State).served) (hback _ _)
  all_goals have hloaded := showRefusal_loaded (s := s) hn hw
  all_goals rw [hsus, if_neg Bool.false_ne_true] at hloaded
  all_goals have hhead := mayTakeHead_false hbusy
  · refine runShow_replies_refused (a := ⟨.showBusy, 0, 1⟩) hr (quietEnd_of_work (.inl hwork) (by unfold noHead; rw [hhead]; simp)) ?_
    rw [hloaded, if_pos ((isQueued_iff s _).2 hqueued)]
  all_goals rw [if_neg fun h => by obtain ⟨src, hmem⟩ := (isQueued_iff s _).1 h; exact hnot src hmem] at hloaded
  · refine runShow_replies_refused (a := ⟨.showBusy, 0, 2⟩) hr (quietEnd_of_work (.inl hwork) (by unfold noHead; rw [hhead]; simp)) ?_
    rw [hloaded, if_pos ((isRunning_iff s _).2 (by rw [hrun, Option.map_some, hsame]))]
  all_goals
    have hrunning : ¬ isRunning s n.toNat = true := fun h => by
      rw [isRunning_iff, Option.map_eq_some_iff] at h
      obtain ⟨r, hrun, hsame⟩ := h
      exact hother r hrun hsame
    rw [if_neg hrunning] at hloaded
  · refine runShow_replies_refused (a := ⟨.queueFull, 0, 0⟩) hr (quietEnd_of_work (.inl hwork) (by unfold noHead; rw [hhead]; simp)) ?_
    exact hloaded.trans (if_pos hfull.ge)
  · refine runShow_replies_queued hr hwork hhead ?_
    exact hloaded.trans (if_neg (by unfold Config.visitorQueue; omega))

end Sys2Proof.ShowRequests
end

