-- ==== Sys2Proof/Proofs/ButtonPresses.lean ====
section
/-! BUTTON_SAMPLE: the filter, the waking of the panel, the queueing of a show, and the press and release of a jog (O52). -/

namespace Sys2Proof.ButtonPresses

open Sys2Proof.Machine Sys2Proof.ReportLog Sys2Proof.QuietHeader Sys2Proof.TrackRequests Sys2Proof.RouteRelease
  Sys2Proof.PointLies Sys2Proof.SlotBytes Sys2Proof.RouteRefusals Sys2Proof.PanelAndLamps Sys2Proof.ShowRunner Sys2Proof.ShowRequests
  Sys2Proof.DeckStates

/-- The button's filter with one sample taken (R154). -/
def sampled (s : State) (b : Nat) (x : Bool) : Filter := (Tbl.getD s.vis.filters b Filter.init).sample 20 x

/-- The machine with that filter. -/
def withButton (b : Nat) (x : Bool) (s : State) : State :=
  { s with vis := { s.vis with filters := Tbl.put Filter.init s.vis.filters b (sampled s b x) } }

/-- The panel awake, with its idle time where no show runs (R181). -/
def awake (s : State) : State :=
  if s.vis.runner.isSome then stopIdle (withPanel .awake s) else loadIdle s.disp.idle1 (withPanel .awake s)

section Samples
variable {s : State} {b : Nat} {x : Bool}

theorem buttonSampled_kept (h : (sampled s b x).level = (Tbl.getD s.vis.filters b Filter.init).level ∨
    (sampled s b x).level = false ∧ b < 16) : buttonSampled b x s = withButton b x s := by
  have heq : buttonSampled b x s = if (sampled s b x).level = (Tbl.getD s.vis.filters b Filter.init).level then withButton b x s
      else buttonChanged b (sampled s b x).level (withButton b x s) := rfl
  rw [heq]
  split
  · rfl
  · next hne =>
    obtain h | ⟨h, hb⟩ := h
    · exact absurd h hne
    · unfold buttonChanged
      rw [h, if_neg Bool.false_ne_true, if_pos hb]

theorem buttonSampled_pressed (h : (sampled s b x).level = true) (hf : (Tbl.getD s.vis.filters b Filter.init).level = false) :
    buttonSampled b x s = if b < 16 then showPress b (withButton b x s) else jogButtonPress b (withButton b x s) := by
  have heq : buttonSampled b x s = if (sampled s b x).level = (Tbl.getD s.vis.filters b Filter.init).level then withButton b x s
      else buttonChanged b (sampled s b x).level (withButton b x s) := rfl
  rw [heq, h, hf, if_neg (by decide)]
  rfl

theorem buttonSampled_released (h : (sampled s b x).level = false) (hf : (Tbl.getD s.vis.filters b Filter.init).level = true)
    (hb : 16 ≤ b) : buttonSampled b x s = jogButtonReleased (b = 16) (withButton b x s) := by
  have heq : buttonSampled b x s = if (sampled s b x).level = (Tbl.getD s.vis.filters b Filter.init).level then withButton b x s
      else buttonChanged b (sampled s b x).level (withButton b x s) := rfl
  rw [heq, h, hf, if_neg (by decide)]
  unfold buttonChanged
  rw [if_neg Bool.false_ne_true, if_neg (by omega)]

end Samples

/-! ### A press wakes the panel (R181) -/

theorem body_wakeByPress (b : Nat) {s t : State} (h : body s = body t) : body (wakeByPress b s) = body (awake t) := by
  have hpanel := (body_changePanel .awake 2 b s).trans (body_update (fun y => withPanel .awake y) (fun _ => rfl) h)
  have hrunner : (changePanel .awake 2 b s).vis.runner = t.vis.runner :=
    (read_of_body (fun y => y.vis.runner) (fun _ => rfl) hpanel).trans rfl
  have hidle : (changePanel .awake 2 b s).disp.idle1 = t.disp.idle1 :=
    (read_of_body (fun y => y.disp.idle1) (fun _ => rfl) hpanel).trans rfl
  unfold wakeByPress awake
  dsimp only
  rw [hrunner, hidle]
  split
  · exact body_update (fun y => stopIdle y) (fun _ => rfl) hpanel
  · exact body_update (fun y => loadIdle t.disp.idle1 y) (fun _ => rfl) hpanel

theorem slots_changePanel (p : Panel) (cause item : Nat) (s : State) : SlotsKept s (changePanel p cause item s) := by
  unfold changePanel
  dsimp only
  split
  · exact SlotsKept.refl s
  · refine SlotsKept.trans ?_ (slots_report _ _ _ _ _)
    unfold setPanelState
    exact ((slots_write8 _ _ _ (by decide)).trans (slots_write8 _ _ _ (by decide))).from rfl

theorem slots_wakeByPress (b : Nat) (s : State) : SlotsKept s (wakeByPress b s) := by
  have h := slots_changePanel .awake 2 b s
  unfold wakeByPress
  dsimp only
  split
  · exact h.trans (slots_of_mem rfl)
  · exact h.trans (slots_of_mem rfl)

/-- A press that only wakes the panel. -/
theorem body_pressWakes {b : Nat} {o : PressOutcome} {sh : Option Nat} (s : State) :
    body (wakeByPress b (reportPress b o sh s)) = body (awake s) := body_wakeByPress b (body_report _ _ _ _ s)

theorem body_showPress_barred {s : State} {b : Nat} (h : pressOutcome s b ≠ .queued) : body (showPress b s) = body (awake s) := by
  have heq : showPress b s = wakeByPress b (reportPress b (pressOutcome s b) (boundShow s b) s) := by
    unfold showPress
    dsimp only
    split
    · next hq _ => exact absurd hq h
    · rfl
  rw [heq]
  exact body_pressWakes s

theorem body_showPress_queued {s : State} {b n : Nat} (h : pressOutcome s b = .queued) (hn : boundShow s b = some n) :
    body (showPress b s) = body (awake (joinQueue n (.button b) s)) := by
  unfold showPress
  dsimp only
  rw [h, hn]
  exact body_pressWakes _

theorem jogButtonPress_barred {s : State} {b : Nat} (h : jogOutcome s ≠ .handed) :
    body (jogButtonPress b s) = body (awake s) := by
  unfold jogButtonPress
  dsimp only
  rw [if_neg h]
  exact body_pressWakes s

theorem jogButtonPress_handed {s : State} (b : Nat) (hrun : s.exch.runState = .running) (hpanel : s.disp.panel ≠ .dark)
    (hsus : s.vis.suspended = false) :
    jogButtonPress b s = jogPress (b == 16) (wakeByPress b (reportPress b .handed none s)) := by
  have hon : s.running = true := by unfold State.running; rw [hrun]; rfl
  have hout : jogOutcome s = .handed := by
    unfold jogOutcome
    rw [hon, if_neg (by decide), if_neg hpanel, hsus, if_neg Bool.false_ne_true]
  unfold jogButtonPress
  dsimp only
  rw [hout]
  exact if_pos rfl

/-- The tests of a press that queues its show, on an empty queue (R155). -/
theorem pressOutcome_queued {s : State} {b sh : Nat} (hrun : s.exch.runState = .running) (hpanel : s.disp.panel ≠ .dark)
    (hbound : boundShow s b = some sh) (hsus : s.vis.suspended = false) (hother : s.vis.runner.map Runner.show_ ≠ some sh)
    (hqueue : s.vis.queue = []) (hcool : Tbl.find s.vis.cool sh = none) (hbusy : 0 < s.vis.busy) :
    pressOutcome s b = .queued := by
  have hon : s.running = true := by unfold State.running; rw [hrun]; rfl
  have hrunning : ¬ isRunning s sh = true := fun h => hother ((isRunning_iff s sh).1 h)
  have hwaits : ¬ isQueued s sh = true := by unfold isQueued; rw [hqueue]; exact Bool.false_ne_true
  have hcold : ¬ Tbl.has s.vis.cool sh = true := by rw [has_iff]; exact fun h => h hcool
  have hplace : ¬ s.vis.busy ≤ s.vis.queue.length := by rw [hqueue]; exact Nat.not_le.2 hbusy
  unfold pressOutcome
  rw [hon, if_neg (by decide), if_neg hpanel, hbound]
  dsimp only
  rw [hsus, if_neg Bool.false_ne_true, if_neg hrunning, if_neg hwaits, if_neg hcold, if_neg hplace]

/-! ### Jogs (R135, R136) -/

/-- The panel awake and the press handed on: the deck has what the handling begins with. -/
theorem deckOf_pressed (b : Nat) (s : State) : DeckOf (awake s) (wakeByPress b (reportPress b .handed none s)) s.tt := by
  have htt : (awake s).tt = s.tt := by unfold awake; split <;> rfl
  have hslots : SlotsKept (awake s) (wakeByPress b (reportPress b .handed none s)) := by
    have h := (slots_report .visitorPress b (halves PressOutcome.handed.code (orNone16 none)) s.vis.queue.length s).trans
      (slots_wakeByPress b (reportPress b .handed none s))
    have hmem : s.exch.mem = (awake s).exch.mem := by unfold awake; split <;> rfl
    exact h.from hmem
  rw [← htt]
  exact ⟨⟨_, rfl, body_pressWakes s⟩, hslots⟩

section Jogs
variable {s v : State} {t : Turntable} {d : DeckRec}

/-- The conditions of a jog press (R135). -/
def JogMay (d : DeckRec) (s : State) : Prop :=
  s.asp.cond = .running ∧ s.tt.jogPermitted = true ∧ (s.tt.state = .aligned ∨ s.tt.state = .halted) ∧
    s.tt.requester = .none ∧ secState s d.sec = .clear ∧ lockOf s d.sec = none

theorem jogAllowed_iff (hr : s.exch.runState = .running) (hidle : s.vis.runner = none) : jogAllowed d s = true ↔ JogMay d s := by
  unfold jogAllowed JogMay State.running secClear
  simp [hr, hidle, and_assoc]

/-- The deck as a jog takes it. -/
def joggedBy (cw : Bool) (t : Turntable) : Turntable :=
  { t with requester := .jog, jogCw := cw, jogHold := some 20000, jogReleased := false }

theorem jogPress_barred (cw : Bool) (hd : s.tt.deck = some d) (h : jogAllowed d s = false) : jogPress cw s = s := by
  unfold jogPress
  rw [hd]
  exact if_neg (by rw [h]; exact Bool.false_ne_true)

theorem jogPress_taken (cw : Bool) (h : DeckOf s v t) (hd : t.deck = some d) (hmay : jogAllowed d v = true) :
    ∃ u, DeckOf s u (joggedBy cw t) ∧
      jogPress cw v = if t.state = .aligned then enterUnbolting d u else enterJogging d u := by
  have hjog := h.setDeck (joggedBy cw)
  refine ⟨_, hjog, ?_⟩
  have hstate : (setDeck (joggedBy cw) v).tt.state = t.state := by rw [hjog.tt]; rfl
  rw [← hstate]
  unfold jogPress
  rw [h.tt, hd]
  exact if_pos hmay

theorem releaseJog_eq (hd : s.tt.deck = some d) (hr : s.tt.requester = .jog) (hh : s.tt.halting = false) : releaseJog s =
    if s.tt.state = .unbolting then setDeck (fun t => { t with jogReleased := true, jogHold := none }) s
    else if s.tt.state = .jogging then enterStopping d s else s := by
  unfold releaseJog
  rw [hd]
  exact if_pos (by rw [hr, hh]; rfl)

theorem releaseJog_none (h : ¬ (s.tt.requester = .jog ∧ s.tt.halting = false)) : releaseJog s = s := by
  unfold releaseJog
  cases s.tt.deck with
  | none => rfl
  | some d => exact if_neg (by simpa using h)

end Jogs

/-! ### From the sample to the command -/

section Commands
variable {s v u : State} {b : Fin 18} {x : Bool} {t : Turntable}

theorem makes_button (hv : buttonSampled b.val x s = v) (hquiet : quietEnd v = true) (hin : inside v = inside u) :
    Makes (.buttonSample b x) s u :=
  makes_finish (v := v) (congrArg (fun w => Host.Outcome.next (finish s w)) hv) hquiet hin
    (hv ▸ own_buttonSampled b.val x s (own_refl s))

/-- A sample at whose end no work is left and no show can start. -/
theorem makes_button_body (hv : buttonSampled b.val x s = v) (hb : body v = body u) (hwork : u.work = Work.none)
    (hhead : noHead u = true) : Makes (.buttonSample b x) s u := by
  have hhead' : noHead v = true := (read_of_body (fun y => noHead y) (fun _ => rfl) hb).trans hhead
  exact makes_button hv (quietEnd_of_work (.inl ((work_of_body hb).trans hwork)) hhead') (inside_of_body hb)

/-- A sample that changes the deck, with the rest of the machine at rest. -/
theorem makes_button_deck (hv : buttonSampled b.val x s = v) (h : DeckOf u v t) (hq : AtRest u) :
    Makes (.buttonSample b x) s { u with tt := t } := makes_button hv (h.quiet hq) h.inside

end Commands

theorem noHead_of_empty {s : State} (h : s.vis.queue = []) : noHead s = true := by unfold noHead; rw [h]; rfl

/-- Settles O52: the samples of a button. -/
theorem buttonPressesQueueShows : Obligations.ButtonPressesQueueShows := by
  intro s b x hq f g fs
  have hrest : AtRest (withButton b.val x s) := ⟨hq.work, hq.shows, hq.stack, hq.orders, hq.overflow⟩
  have hawake (hidle : s.vis.runner = none) : awake (withButton b.val x s)
      = loadIdle s.disp.idle1 (withPanel .awake (withButton b.val x s)) := by
    unfold awake
    exact if_neg (by change ¬ s.vis.runner.isSome = true; rw [hidle]; exact Bool.false_ne_true)
  refine ⟨fun h => ?_, fun hg hf hstate hidle htime => ?_, fun d hd hg hf hb hrun hpanel hsus hidle htime => ?_,
    fun d hd hg hf hb => ?_, fun sh r hg hf hb hrun hpanel hbound hsus hr hne hcool hbusy => ?_⟩
  · exact makes_button_body (u := withButton b.val x s) (buttonSampled_kept h) rfl hq.work (noHead_of_empty hq.shows)
  · have hbody : body (buttonSampled b.val x s) = body (awake (withButton b.val x s)) := by
      have hnot : ¬ (withButton b.val x s).running = true := by
        change ¬ (s.exch.runState == .running) = true
        simpa using hstate
      rw [buttonSampled_pressed hg hf]
      split
      · refine body_showPress_barred ?_
        unfold pressOutcome
        rw [if_pos (by simpa using hnot)]
        decide
      · refine jogButtonPress_barred ?_
        unfold jogOutcome
        rw [if_pos (by simpa using hnot)]
        decide
    rw [hawake hidle] at hbody
    unfold loadIdle at hbody
    have hload : (if s.disp.idle1 = 0 then none else some (1000 * s.disp.idle1)) = some (1000 * s.disp.idle1) := if_neg htime
    rw [hload] at hbody
    exact makes_button_body rfl hbody hq.work (noHead_of_empty hq.shows)
  · intro cw may u jog
    have hbase : awake (withButton b.val x s) = u s.tt := by
      have hload : (if s.disp.idle1 = 0 then none else some (1000 * s.disp.idle1)) = some (1000 * s.disp.idle1) := if_neg htime
      rw [hawake hidle]
      unfold loadIdle
      rw [hload]
      rfl
    have hpress := deckOf_pressed b.val (withButton b.val x s)
    rw [hbase] at hpress
    have hrestU : AtRest (u s.tt) := ⟨hq.work, hq.shows, hq.stack, hq.orders, hq.overflow⟩
    have hallowed : jogAllowed d (wakeByPress b.val (reportPress b.val .handed none (withButton b.val x s))) = true ↔ may := by
      have hread : jogAllowed d (wakeByPress b.val (reportPress b.val .handed none (withButton b.val x s))) = jogAllowed d (u s.tt) :=
        hpress.read (fun y => jogAllowed d y) (fun _ => rfl) fun _ _ => rfl
      rw [hread]
      exact jogAllowed_iff (s := u s.tt) hrun hidle
    have hsample : buttonSampled b.val x s
        = jogPress cw (wakeByPress b.val (reportPress b.val .handed none (withButton b.val x s))) :=
      (buttonSampled_pressed hg hf).trans ((if_neg (by omega)).trans
        (jogButtonPress_handed (s := withButton b.val x s) b.val hrun hpanel hsus))
    refine ⟨fun hno => ?_, fun hmay hst hstop => ?_, fun hmay hst hbolt htime hout => ?_⟩
    · have hdeck : DeckOf (u s.tt) (buttonSampled b.val x s) s.tt := by
        rw [hsample, jogPress_barred (d := d) cw (by rw [hpress.tt]; exact hd) (by simpa using fun h => hno (hallowed.1 h))]
        exact hpress
      exact makes_button_deck rfl hdeck hrestU
    · obtain ⟨v, hv, heq⟩ := jogPress_taken cw hpress hd (hallowed.2 hmay)
      rw [if_neg (by change s.tt.state ≠ .aligned; rw [hst]; decide)] at heq
      have hjog := hv.enterJogging hstop
      have hrate : jogRate d 0 = min d.jog d.v0 := by unfold jogRate; simp
      rw [hrate] at hjog
      exact makes_button_deck (hsample.trans heq) hjog hrestU
    · obtain ⟨v, hv, heq⟩ := jogPress_taken cw hpress hd (hallowed.2 hmay)
      exact makes_button_deck (hsample.trans (heq.trans (if_pos hst)))
        (hv.enterUnbolting hbolt htime (by unfold withdrawn; simpa [joggedBy, withButton] using hout)) hrestU
  · intro u mine
    have hself : DeckOf (withButton b.val x s) (withButton b.val x s) s.tt := DeckOf.refl _
    have hsample := buttonSampled_released hg hf hb
    have hmine (h : mine) : buttonSampled b.val x s = releaseJog (withButton b.val x s) :=
      hsample.trans (if_pos h.1)
    refine ⟨fun hno => ?_, fun hm hst => ?_, fun gen hm hst hgen hstop => ?_⟩
    · refine makes_button_deck (v := withButton b.val x s) ?_ hself hrest
      by_cases hcw : s.tt.jogCw = (b.val == 16)
      · refine (hsample.trans (if_pos hcw)).trans ?_
        by_cases hjog : s.tt.requester = .jog ∧ s.tt.halting = false
        · have hst : ¬ (s.tt.state = .unbolting ∨ s.tt.state = .jogging) := fun h => hno ⟨⟨hcw, hjog⟩, h⟩
          rw [releaseJog_eq (s := withButton b.val x s) hd hjog.1 hjog.2]
          exact (if_neg fun h => hst (.inl h)).trans (if_neg fun h => hst (.inr h))
        · exact releaseJog_none hjog
      · exact hsample.trans (if_neg hcw)
    · refine makes_button_deck (((hmine hm).trans (releaseJog_eq (s := withButton b.val x s) hd hm.2.1 hm.2.2)).trans (if_pos hst))
        (hself.setDeck fun t => { t with jogReleased := true, jogHold := none }) hrest
    · have heq : releaseJog (withButton b.val x s) = enterStopping d (withButton b.val x s) := by
        rw [releaseJog_eq (s := withButton b.val x s) hd hm.2.1 hm.2.2]
        exact (if_neg (by change s.tt.state ≠ .unbolting; rw [hst]; decide)).trans (if_pos hst)
      exact makes_button_deck ((hmine hm).trans heq) (hself.enterStopping hgen (.inr hstop)) hrest
  · have hout : pressOutcome (withButton b.val x s) b.val = .queued := by
      refine pressOutcome_queued (s := withButton b.val x s) hrun hpanel hbound hsus (fun h => ?_) hq.shows hcool hbusy
      change s.vis.runner.map Runner.show_ = some sh at h
      rw [hr, Option.map_some] at h
      exact hne (Option.some.inj h)
    have hbody : body (buttonSampled b.val x s) = body (awake (joinQueue sh (.button b.val) (withButton b.val x s))) := by
      rw [buttonSampled_pressed hg hf, if_pos hb]
      exact body_showPress_queued hout hbound
    have hbusyRunner : (joinQueue sh (.button b.val) (withButton b.val x s)).vis.runner.isSome = true := by
      change s.vis.runner.isSome = true
      rw [hr]
      rfl
    unfold awake at hbody
    rw [if_pos hbusyRunner] at hbody
    have hqueue : s.vis.queue ++ [(sh, ShowSource.button b.val)] = [(sh, .button b.val)] := by rw [hq.shows]; rfl
    unfold joinQueue setVisitors withButton at hbody
    dsimp only at hbody
    rw [hqueue] at hbody
    refine makes_button_body rfl hbody hq.work ?_
    unfold noHead mayTakeHead
    change (_ || !(s.vis.runner.isNone && _ && _ && _)) = true
    rw [hr]
    simp

end Sys2Proof.ButtonPresses
end

