-- ==== Sys2Proof/Proofs/LoadRequests.lean ====
section
/-! The LOAD requests: what they refuse, and the load that begins or waits (O56). -/

namespace Sys2Proof.LoadRequests

open Sys2Proof.Machine Sys2Proof.ReportLog Sys2Proof.QuietHeader Sys2Proof.TrackRequests Sys2Proof.RouteRelease
  Sys2Proof.PointLies Sys2Proof.SlotBytes Sys2Proof.PointOrders

theorem offsetOk_iff (offset : Nat) : offsetOk offset = true ↔ offset % 2 = 0 ∧ 0x3400 ≤ offset ∧ offset ≤ 0x7FFF := by
  unfold offsetOk Config.dataBase; simp

/-- The load that a request names. -/
def newLoad (k : LoadKind) (n offset length count : Nat) : Load :=
  { kind := k, slot := n, cursor := offset, limit := offset + length, count := count, taken := 0 }

section Requested
variable {s : State} {k : LoadKind} {n offset length count : Nat}

theorem loadRequest_bad (h : ¬ (offset % 2 = 0 ∧ 0x3400 ≤ offset ∧ offset ≤ 0x7FFF ∧ offset + length ≤ 0x8000)) :
    loadRequest k n offset length count s = complete n .badArgument 0 0 s := by
  unfold loadRequest
  refine if_pos ?_
  rw [Bool.not_eq_true', Bool.eq_false_iff]
  intro hc
  rw [Bool.and_eq_true, offsetOk_iff, decide_eq_true_eq] at hc
  obtain ⟨⟨h1, h2, h3⟩, h4⟩ := hc
  exact h ⟨h1, h2, h3, h4⟩

theorem loadRequest_good (h : offset % 2 = 0 ∧ 0x3400 ≤ offset ∧ offset ≤ 0x7FFF ∧ offset + length ≤ 0x8000) :
    loadRequest k n offset length count s = match s.exch.reading with
      | some _ => setLoads s.exch.reading (s.exch.loads ++ [newLoad k n offset length count]) s
      | none => beginLoads [newLoad k n offset length count] s := by
  obtain ⟨h1, h2, h3, h4⟩ := h
  have hc : (offsetOk offset && decide (offset + length ≤ Config.memBytes)) = true := by
    rw [Bool.and_eq_true, offsetOk_iff, decide_eq_true_eq]
    exact ⟨⟨h1, h2, h3⟩, h4⟩
  unfold loadRequest
  rw [hc]
  rfl

/-- A load with no record to read is over at once. -/
theorem beginLoads_empty {l : Load} (h : l.count = 0) (hr : s.exch.reading = none) (hl : s.exch.loads = []) :
    beginLoads [l] s = complete l.slot .ok 0 0 s := by
  have hreading : (complete l.slot .ok 0 0 s).exch.reading = none := by rw [complete_reading]; exact hr
  have hloads : (complete l.slot .ok 0 0 s).exch.loads = [] := by rw [complete_loads]; exact hl
  unfold beginLoads
  rw [if_pos h]
  generalize complete l.slot .ok 0 0 s = t at hreading hloads
  unfold beginLoads setLoads
  rw [← hreading, ← hloads]

theorem beginLoads_reads {l : Load} (h : l.count ≠ 0) : beginLoads [l] s = setLoads (some l) [] s := by
  unfold beginLoads; exact if_neg h

end Requested

/-- A LOAD command in the forms that name it. -/
def isLoad (c : Instr) (k : LoadKind) (rs : RunState) (tag : HostTag) (offset length count : Word) : Prop :=
  ∃ al q, (∀ s, exec c s = .next (requestCommand al (fun n => loadRequest k n offset.toNat length.toNat count.toNat) q s)) ∧
    q.tag = tag ∧ al.ok rs = true ∧ rs ≠ .initializing

theorem isLoad_of_mem {c : Instr} {k : LoadKind} {rs : RunState} {tag : HostTag} {offset length count : Word}
    (h : (c, k, rs) ∈
      [(.loadSections tag offset length count, LoadKind.sections, RunState.configuring),
       (.loadRoutes tag offset length count, .routes, .configuring), (.loadPoints tag offset length count, .points, .configuring),
       (.loadSignals tag offset length count, .signals, .configuring), (.loadTable tag offset length count, .table, .configuring),
       (.loadShows tag offset length count, .shows, .configuring), (.loadShows tag offset length count, .shows, .running),
       (.loadLamps tag offset length count, .lamps, .configuring), (.loadLamps tag offset length count, .lamps, .running)]) :
    isLoad c k rs tag offset length count := by
  simp only [List.mem_cons, Prod.mk.injEq, List.not_mem_nil, or_false] at h
  rcases h with ⟨rfl, rfl, rfl⟩ | ⟨rfl, rfl, rfl⟩ | ⟨rfl, rfl, rfl⟩ | ⟨rfl, rfl, rfl⟩ | ⟨rfl, rfl, rfl⟩ | ⟨rfl, rfl, rfl⟩ |
    ⟨rfl, rfl, rfl⟩ | ⟨rfl, rfl, rfl⟩ | ⟨rfl, rfl, rfl⟩
  · exact ⟨.configuring, ⟨1, tag, offset, length, count⟩, fun _ => rfl, rfl, rfl, by decide⟩
  · exact ⟨.configuring, ⟨4, tag, offset, length, count⟩, fun _ => rfl, rfl, rfl, by decide⟩
  · exact ⟨.configuring, ⟨2, tag, offset, length, count⟩, fun _ => rfl, rfl, rfl, by decide⟩
  · exact ⟨.configuring, ⟨3, tag, offset, length, count⟩, fun _ => rfl, rfl, rfl, by decide⟩
  · exact ⟨.configuring, ⟨5, tag, offset, length, count⟩, fun _ => rfl, rfl, rfl, by decide⟩
  · exact ⟨.both, ⟨6, tag, offset, length, count⟩, fun _ => rfl, rfl, rfl, by decide⟩
  · exact ⟨.both, ⟨6, tag, offset, length, count⟩, fun _ => rfl, rfl, rfl, by decide⟩
  · exact ⟨.both, ⟨7, tag, offset, length, count⟩, fun _ => rfl, rfl, rfl, by decide⟩
  · exact ⟨.both, ⟨7, tag, offset, length, count⟩, fun _ => rfl, rfl, rfl, by decide⟩

/-- A load that stays in hand: the load list changes, and nothing else. -/
theorem load_pends {c : Instr} {s : State} {q : Request} {al : Allowed} {f : Nat → State → State} {rs : RunState}
    (e : exec c s = .next (requestCommand al f q s)) (h : Ready rs s) (hal : al.ok rs = true) (hrs : rs ≠ .initializing)
    (hwork : s.work = Work.none) (hqueue : s.vis.queue = []) {r : Option Load} {l : List Load}
    (hf : f s.exch.takePos (taken q s) = setLoads r l (taken q s)) :
    Pends c s { s with exch := { s.exch with reading := r, loads := l } } q.tag := by
  refine pends_of_slots e h hal hrs hf (own_same (own_refl _) rfl rfl) (slots_of_mem rfl) ?_ ?_
  · rw [taken_shape]
    rfl
  · refine quietEnd_of_none _ ((work_taken q s).trans hwork) ?_
    exact (read_taken (fun u => u.vis.queue) q s fun _ => rfl).trans hqueue

/-- Settles O56: the LOAD requests. -/
theorem loadsBeginOrWait : Obligations.LoadsBeginOrWait := by
  intro s tag offset length count rs c k hr hwork hqueue hc good l
  obtain ⟨al, q, hexec, rfl, hal, hrs⟩ := isLoad_of_mem hc
  have hreading : (taken q s).exch.reading = s.exch.reading := read_taken (fun u => u.exch.reading) q s fun _ => rfl
  have hloads : (taken q s).exch.loads = s.exch.loads := read_taken (fun u => u.exch.loads) q s fun _ => rfl
  refine ⟨fun hbad => ?_, fun hg hnone hempty hcount => ?_, fun hg hnone hempty hcount => ?_, fun hg m hm => ?_⟩
  · exact replies_unchanged (hexec s) hr hal hrs (loadRequest_bad hbad) hwork hqueue
  · refine replies_unchanged (hexec s) hr hal hrs ?_ hwork hqueue
    refine (loadRequest_good hg).trans ?_
    rw [hreading, hnone]
    exact beginLoads_empty hcount (hreading.trans hnone) (hloads.trans hempty)
  · have hload := load_pends (r := some l) (l := []) (hexec s) hr hal hrs hwork hqueue (by
      refine (loadRequest_good hg).trans ?_
      rw [hreading, hnone]
      exact beginLoads_reads hcount)
    rw [← hempty] at hload
    exact hload
  · have hload := load_pends (r := some m) (l := s.exch.loads ++ [l]) (hexec s) hr hal hrs hwork hqueue (by
      refine (loadRequest_good hg).trans ?_
      rw [hreading, hm, hloads]
      rfl)
    rw [← hm] at hload
    exact hload

end Sys2Proof.LoadRequests
end

