-- ==== Sys2Proof/Proofs/Parameters.lean ====
section
/-! SET_PARAMETERS (O58). -/

namespace Sys2Proof.Parameters

open Sys2Proof.Machine Sys2Proof.ReportLog Sys2Proof.QuietHeader Sys2Proof.TrackRequests Sys2Proof.RouteRelease
  Sys2Proof.PointLies Sys2Proof.SlotBytes Sys2Proof.PointOrders Sys2Proof.LoadRequests

/-- The record that SET_PARAMETERS posts. -/
abbrev parameterRecord (tag : HostTag) (group offset count : Word) : Request := ⟨8, tag, group, offset, count⟩

theorem clamp_eq {lo hi : Nat} (v : Nat) (h : lo ≤ hi) : max lo (min v hi) = clamp lo hi v := by unfold clamp; omega

/-- Posting and taking a record writes nothing in the data area. -/
theorem data_taken (q : Request) {s : State} {a : Nat} (hn : s.exch.takePos < Config.numSlots) (ha : 0x3400 ≤ a) :
    (taken q s).read16 a = s.read16 a := by
  have hslot (b : Nat) (hb : 0x3400 ≤ b) : (taken q s).read8 b = s.read8 b := by
    refine read8_taken q s b ?_ (by omega) (by omega)
    unfold inSlot slotAt Config.slotBase
    unfold Config.numSlots at hn
    omega
  exact read16_of_read8 (hslot a ha) (hslot (a + 1) (by omega))

section Requested
variable {s : State} {k group offset count : Nat} {g : Group}

theorem setParameters_bad (hs : s.exch.runState = .configuring) (h : groupOf group = none ∨ offset % 2 = 1 ∨ offset < 0x3400 ∨ 0x7FFF < offset ∨ 64 < count ∨
    0x8000 < offset + 4 * count) : setParameters k group offset count s = complete k .badArgument 0 0 s := by
  unfold setParameters
  cases hg : groupOf group with
  | none => rfl
  | some g =>
    have hoff : (!offsetOk offset || decide (64 < count) || decide (Config.memBytes < offset + 4 * count)) = true := by
      obtain h | h := h
      · rw [h] at hg; cases hg
      · have hno : offset % 2 = 1 ∨ offset < 0x3400 ∨ 0x7FFF < offset → offsetOk offset = false := fun h => by
          rw [Bool.eq_false_iff, ne_eq, offsetOk_iff]; omega
        unfold Config.memBytes
        obtain h | h | h | h | h := h
        · rw [hno (.inl h)]; rfl
        · rw [hno (.inr (.inl h))]; rfl
        · rw [hno (.inr (.inr h))]; rfl
        · simp [h]
        · simp [h]
    have hrun : ¬ (g = .track && s.running) = true := by unfold State.running; rw [hs]; simp
    exact (if_neg hrun).trans (if_pos hoff)

theorem setParameters_good (hs : s.exch.runState = .configuring) (hg : groupOf group = some g) (h0 : offset % 2 = 0)
    (h1 : 0x3400 ≤ offset) (h2 : offset ≤ 0x7FFF) (h3 : count ≤ 64) (h4 : offset + 4 * count ≤ 0x8000) :
    setParameters k group offset count s = applyEntries g k count offset 0 0 s := by
  have hrun : ¬ (g = .track && s.running) = true := by unfold State.running; rw [hs]; simp
  have hoff : ¬ (!offsetOk offset || decide (64 < count) || decide (Config.memBytes < offset + 4 * count)) = true := by
    rw [(offsetOk_iff offset).2 ⟨h0, h1, h2⟩]
    unfold Config.memBytes
    simp only [Bool.not_true, Bool.false_or, Bool.or_eq_true, decide_eq_true_eq]
    omega
  unfold setParameters
  rw [hg]
  exact (if_neg hrun).trans (if_neg hoff)

theorem applyEntries_end (done clamped : Nat) : applyEntries g k 0 offset done clamped s = complete k .ok done clamped s := rfl

theorem applyEntries_set {left done clamped : Nat} {t : State} {c : Bool}
    (h : setParameter g (s.read16 offset) (s.read16 (offset + 2)) s = some (t, c)) :
    applyEntries g k (left + 1) offset done clamped s = applyEntries g k left (offset + 4) (done + 1) (clamped + if c then 1 else 0) t := by
  rw [applyEntries, h]

theorem applyEntries_unknown {left done clamped : Nat}
    (h : setParameter g (s.read16 offset) (s.read16 (offset + 2)) s = none) :
    applyEntries g k (left + 1) offset done clamped s = complete k .invalidRecord (halves done (s.read16 offset)) offset s := by
  rw [applyEntries, h]

theorem setParameter_track_unknown {code : Nat} (v : Nat) (s : State) (h : code ∉ ([1, 2, 3, 4, 5, 6, 7] : List Nat)) :
    setParameter .track code v s = none := by
  simp only [List.mem_cons, List.not_mem_nil, or_false, not_or] at h
  change setTrack code v s = none
  unfold setTrack
  split
  any_goals omega
  rfl

theorem setParameter_visitor_unknown {code : Nat} (v : Nat) (s : State) (h : code ∉ ([17, 18, 19, 20, 21, 22] : List Nat)) :
    setParameter .visitor code v s = none := by
  simp only [List.mem_cons, List.not_mem_nil, or_false, not_or] at h
  change setVisitorParameter code v s = none
  unfold setVisitorParameter
  split
  any_goals omega
  rfl

end Requested

/-! ### From the entries to the reply -/

/-- A change of the parameters alone: it commutes with the taking of the request's slot. -/
structure Setting (F : State → State) : Prop where
  exch : ∀ t, (F t).exch = t.exch
  work : ∀ t, (F t).work = t.work
  shows : ∀ t, (F t).vis.queue = t.vis.queue
  taken : ∀ (s : State) tag m, inside (F (((s.inHand tag).served).withMem m)) = inside ((F s).inHand tag).served

section Replying
variable {s : State} {tag : HostTag} {group offset count : Word}

/-- The entries are applied, and the answer is given last. -/
theorem parameters_reply {F : State → State} {r : Result} {w0 w1 : Nat} (hr : Ready .configuring s) (hq : AtRest s) (hF : Setting F)
    (hf : setParameters s.exch.takePos group.toNat offset.toNat count.toNat (taken (parameterRecord tag group offset count) s)
      = complete s.exch.takePos r w0 w1 (F (taken (parameterRecord tag group offset count) s))) :
    Replies (.setParameters tag group offset count) s (F s) tag r w0 w1 := by
  refine replies_of (q := parameterRecord tag group offset count) (al := .both)
    (f := fun n => setParameters n group.toNat offset.toNat count.toNat) rfl hr rfl (by decide) hf
    (own_same (own_refl _) (congrArg Exchange.mem (hF.exch _)) (congrArg Exchange.inHand (hF.exch _))) ?_
    ⟨congrArg Exchange.takePos (hF.exch s), congrArg Exchange.inHand (hF.exch s)⟩ ?_
  · rw [taken_shape]
    exact hF.taken s tag _
  · refine quietEnd_of_none _ ((hF.work _).trans ((work_taken _ s).trans hq.work)) ((hF.shows _).trans ?_)
    exact (read_taken (fun u => u.vis.queue) _ s fun _ => rfl).trans hq.shows

theorem runState_taken (q : Request) (s : State) : (taken q s).exch.runState = s.exch.runState :=
  read_taken (fun u => u.exch.runState) q s fun _ => rfl

/-- One entry that sets a parameter. -/
theorem parameter_reply {F : State → State} {g : Group} {code v : Nat} {clamped : Bool} (hr : Ready .configuring s) (hq : AtRest s)
    (hF : Setting F) (hg : groupOf group.toNat = some g) (h0 : offset.toNat % 2 = 0) (h1 : 0x3400 ≤ offset.toNat)
    (h2 : offset.toNat ≤ 0x7FFC) (hcode : s.read16 offset.toNat = code) (hv : s.read16 (offset.toNat + 2) = v)
    (hset : ∀ t, setParameter g code v t = some (F t, clamped)) :
    Replies (.setParameters tag group offset 1#32) s (F s) tag .ok 1 (if clamped then 1 else 0) := by
  have hn := hr.sound.limits.takePos
  refine parameters_reply hr hq hF ?_
  refine (setParameters_good ((runState_taken _ s).trans hr.state) hg h0 h1 (by omega) (by decide) (by change _ + 4 * 1 ≤ _; omega)).trans ?_
  refine (applyEntries_set (by
    rw [data_taken _ hn h1, data_taken _ hn (by omega), hcode, hv]
    exact hset _)).trans ?_
  rw [applyEntries_end, Nat.zero_add, Nat.zero_add]

/-- A code that the group has not. -/
theorem parameter_unknown {g : Group} {code : Nat} (hr : Ready .configuring s) (hq : AtRest s)
    (hg : groupOf group.toNat = some g) (h0 : offset.toNat % 2 = 0) (h1 : 0x3400 ≤ offset.toNat)
    (h2 : offset.toNat ≤ 0x7FFC) (hcode : s.read16 offset.toNat = code) (hset : ∀ v t, setParameter g code v t = none) :
    Replies (.setParameters tag group offset 1#32) s s tag .invalidRecord (halves 0 code) offset.toNat := by
  have hn := hr.sound.limits.takePos
  refine parameters_reply (F := fun t => t) hr hq ⟨fun _ => rfl, fun _ => rfl, fun _ => rfl, fun _ _ _ => rfl⟩ ?_
  refine (setParameters_good ((runState_taken _ s).trans hr.state) hg h0 h1 (by omega) (by decide) (by change _ + 4 * 1 ≤ _; omega)).trans ?_
  refine (applyEntries_unknown (by rw [data_taken _ hn h1, hcode]; exact hset _ _)).trans ?_
  rw [data_taken _ hn h1, hcode]

end Replying

/-- The first entry sets the pulse time. -/
def withPulse (v : Nat) (s : State) : State := setPts (fun p => { p with pulseTime := clamp 20 200 v }) s

/-- Settles O58: the parameters. -/
theorem parametersAreClamped : Obligations.ParametersAreClamped := by
  refine ⟨fun s tag offset code v hr hq h0 h1 h2 hcode hv => ?_, fun s tag group offset count hr hq => ⟨fun hbad => ?_,
    fun hgroup h0 h1 h2 hcount => ?_⟩, fun s tag offset second v w hr hq h0 h1 h2 hfirst hv hsecond hw => ?_⟩
  · intro c put
    have hc (lo hi : Nat) (h : lo ≤ hi) : c lo hi = clamp lo hi v := clamp_eq v h
    have one (F : State → State) {g : Group} {group : Word} {clamped : Bool} (hF : Setting F) (hg : groupOf group.toNat = some g)
        (hset : ∀ t, setParameter g code v t = some (F t, clamped)) : put group (F s) clamped :=
      parameter_reply hr hq hF hg h0 h1 h2 hcode hv hset
    refine ⟨fun h => ?_, fun h => ?_, fun h => ?_, fun h => ?_, fun h => ?_, fun h => ?_, fun h => ?_, fun h => ?_, fun h => ?_,
      fun h => ?_, fun h => ?_, fun h => ?_, fun h => ?_,
      fun h => parameter_unknown (g := .track) hr hq rfl h0 h1 h2 hcode fun v t => setParameter_track_unknown v t h,
      fun h => parameter_unknown (g := .visitor) hr hq rfl h0 h1 h2 hcode fun v t => setParameter_visitor_unknown v t h⟩
    · rw [hc 0 255 (by decide)]
      exact one (fun t => { t with tags := { t.tags with lostHold := 100 * clamp 0 255 v } })
        ⟨fun _ => rfl, fun _ => rfl, fun _ => rfl, fun _ _ _ => rfl⟩ (g := .track) rfl fun t => by rw [h]; rfl
    · rw [hc 0 600 (by decide)]
      exact one (fun t => { t with ilk := { t.ilk with stackTimeout := clamp 0 600 v } })
        ⟨fun _ => rfl, fun _ => rfl, fun _ => rfl, fun _ _ _ => rfl⟩ (g := .track) rfl fun t => by rw [h]; rfl
    · rw [hc 20 200 (by decide)]
      exact one (fun t => { t with pts := { t.pts with pulseTime := clamp 20 200 v } })
        ⟨fun _ => rfl, fun _ => rfl, fun _ => rfl, fun _ _ _ => rfl⟩ (g := .track) rfl fun t => by rw [h]; rfl
    · rw [hc 100 2000 (by decide)]
      exact one (fun t => { t with pts := { t.pts with rechargeTime := clamp 100 2000 v } })
        ⟨fun _ => rfl, fun _ => rfl, fun _ => rfl, fun _ _ _ => rfl⟩ (g := .track) rfl fun t => by rw [h]; rfl
    · rw [hc 100 2000 (by decide)]
      exact one (fun t => { t with pts := { t.pts with window := clamp 100 2000 v } })
        ⟨fun _ => rfl, fun _ => rfl, fun _ => rfl, fun _ _ _ => rfl⟩ (g := .track) rfl fun t => by rw [h]; rfl
    · rw [hc 1 8 (by decide)]
      exact one (fun t => { t with pts := { t.pts with slowLimit := clamp 1 8 v } })
        ⟨fun _ => rfl, fun _ => rfl, fun _ => rfl, fun _ _ _ => rfl⟩ (g := .track) rfl fun t => by rw [h]; rfl
    · rw [hc 0 8 (by decide)]
      exact one (fun t => { t with ilk := { t.ilk with quota := clamp 0 8 v } })
        ⟨fun _ => rfl, fun _ => rfl, fun _ => rfl, fun _ _ _ => rfl⟩ (g := .visitor) rfl fun t => by rw [h]; rfl
    · rw [hc 1 8 (by decide)]
      exact one (fun t => { t with vis := { t.vis with busy := clamp 1 8 v } })
        ⟨fun _ => rfl, fun _ => rfl, fun _ => rfl, fun _ _ _ => rfl⟩ (g := .visitor) rfl fun t => by rw [h]; rfl
    · rw [hc 0 3600 (by decide)]
      exact one (fun t => { t with disp := { t.disp with idle1 := clamp 0 3600 v } })
        ⟨fun _ => rfl, fun _ => rfl, fun _ => rfl, fun _ _ _ => rfl⟩ (g := .visitor) rfl fun t => by rw [h]; rfl
    · rw [hc 0 3600 (by decide)]
      exact one (fun t => { t with disp := { t.disp with idle2 := clamp 0 3600 v } })
        ⟨fun _ => rfl, fun _ => rfl, fun _ => rfl, fun _ _ _ => rfl⟩ (g := .visitor) rfl fun t => by rw [h]; rfl
    · rw [hc 0 3600 (by decide)]
      exact one (fun t => { t with disp := { t.disp with idle3 := clamp 0 3600 v } })
        ⟨fun _ => rfl, fun _ => rfl, fun _ => rfl, fun _ _ _ => rfl⟩ (g := .visitor) rfl fun t => by rw [h]; rfl
    · exact one (fun t => { t with asp := { t.asp with response := if v = 2 then .allStop else .report } })
        ⟨fun _ => rfl, fun _ => rfl, fun _ => rfl, fun _ _ _ => rfl⟩ (g := .track) rfl fun t => by rw [h]; rfl
    · exact one (fun t => { t with tt := { t.tt with jogPermitted := v == 1 } })
        ⟨fun _ => rfl, fun _ => rfl, fun _ => rfl, fun _ _ _ => rfl⟩ (g := .visitor) rfl fun t => by rw [h]; rfl
  · refine parameters_reply (F := fun t => t) hr hq ⟨fun _ => rfl, fun _ => rfl, fun _ => rfl, fun _ _ _ => rfl⟩ ?_
    refine setParameters_bad ((runState_taken _ s).trans hr.state) ?_
    obtain ⟨hn1, hn2⟩ | h := hbad
    · refine .inl ?_
      have h1 : group.toNat ≠ 1 := fun h => hn1 (BitVec.eq_of_toNat_eq h)
      have h2 : group.toNat ≠ 2 := fun h => hn2 (BitVec.eq_of_toNat_eq h)
      unfold groupOf
      split
      · next h => exact absurd h h1
      · next h => exact absurd h h2
      · rfl
    · exact .inr h
  · have hg : ∃ g, groupOf group.toNat = some g := by
      obtain rfl | rfl := hgroup
      · exact ⟨.track, rfl⟩
      · exact ⟨.visitor, rfl⟩
    obtain ⟨g, hg⟩ := hg
    subst hcount
    refine parameters_reply (F := fun t => t) hr hq ⟨fun _ => rfl, fun _ => rfl, fun _ => rfl, fun _ _ _ => rfl⟩ ?_
    exact setParameters_good ((runState_taken _ s).trans hr.state) hg h0 h1 h2 (by decide) (by change _ + 4 * 0 ≤ _; omega)
  · intro p q
    have hn := hr.sound.limits.takePos
    have hp : p = clamp 20 200 v := clamp_eq v (by decide)
    have hqw : q = clamp 100 2000 w := clamp_eq w (by decide)
    have htwo : setParameters s.exch.takePos (1#32).toNat offset.toNat (2#32).toNat (taken (parameterRecord tag 1#32 offset 2#32) s)
        = applyEntries .track s.exch.takePos 1 (offset.toNat + 4) 1 (0 + if clamp 20 200 v != v then 1 else 0)
          (withPulse v (taken (parameterRecord tag 1#32 offset 2#32) s)) := by
      refine (setParameters_good ((runState_taken _ s).trans hr.state) (g := .track) rfl h0 h1 (by omega) (by decide)
        (by change _ + 4 * 2 ≤ _; omega)).trans ?_
      refine applyEntries_set ?_
      rw [data_taken _ hn h1, data_taken _ hn (by omega), hfirst, hv]
      rfl
    have hread (a : Nat) (ha : 0x3400 ≤ a) :
        (withPulse v (taken (parameterRecord tag 1#32 offset 2#32) s)).read16 a = s.read16 a := data_taken _ hn ha
    refine ⟨fun h => ?_, fun h => ?_⟩
    · have hcount : (if p = v then 0 else 1) + (if q = w then 0 else 1)
          = 0 + (if clamp 20 200 v != v then 1 else 0) + if clamp 100 2000 w != w then 1 else 0 := by
        rw [hp, hqw]
        simp
      rw [hcount, hp, hqw]
      refine parameters_reply (F := fun t => setPts (fun x => { x with window := clamp 100 2000 w }) (withPulse v t)) hr hq
        ⟨fun _ => rfl, fun _ => rfl, fun _ => rfl, fun _ _ _ => rfl⟩ (htwo.trans ?_)
      refine applyEntries_set ?_
      rw [hread _ (by omega), hread _ (by omega), hsecond, hw, h]
      rfl
    · rw [hp]
      refine parameters_reply (F := withPulse v) hr hq ⟨fun _ => rfl, fun _ => rfl, fun _ => rfl, fun _ _ _ => rfl⟩ (htwo.trans ?_)
      refine (applyEntries_unknown ?_).trans ?_
      · rw [hread _ (by omega), hsecond]
        exact setParameter_track_unknown _ _ h
      · rw [hread _ (by omega), hsecond]

end Sys2Proof.Parameters
end

