-- ==== Sys2Proof/Proofs/RecordReaders.lean ====
section
/-! The readers of records take from the bytes of R200 the item they spell. -/

namespace Sys2Proof.RecordReaders

open Sys2Proof.Machine Sys2Proof.ReportLog

/-! ### Bytes in memory -/

section Bytes
variable {s : State} {a : Nat}

theorem holds_cons {b : Nat} {l : List Nat} (h : Holds s a (b :: l)) : s.read8 a = b ∧ Holds s (a + 1) l :=
  ⟨h 0 b rfl, fun k c hk => by
    have hc := h (k + 1) c hk
    rwa [Nat.add_comm k 1, ← Nat.add_assoc] at hc⟩

theorem holds_append {l m : List Nat} (h : Holds s a (l ++ m)) : Holds s a l ∧ Holds s (a + l.length) m := by
  induction l generalizing a with
  | nil => exact ⟨fun k b hk => by simp at hk, h⟩
  | cons b l ih =>
    obtain ⟨hb, hrest⟩ := holds_cons h
    obtain ⟨hl, hm⟩ := ih hrest
    refine ⟨fun k c hk => ?_, ?_⟩
    · cases k with
      | zero => exact hb.trans (Option.some.inj hk)
      | succ k =>
        have hc := hl k c hk
        rwa [Nat.add_assoc, Nat.add_comm 1 k] at hc
    · rw [List.length_cons, Nat.add_comm l.length 1, ← Nat.add_assoc]
      exact hm

theorem holds_first {b : Nat} {l : List Nat} (h : Holds s a l) (hb : l[0]? = some b) : s.read8 a = b := h 0 b hb

/-- A half-word by its two bytes (R199). -/
theorem read16_of_bytes {n : Nat} (h0 : s.read8 a = n % 256) (h1 : s.read8 (a + 1) = n / 256) : s.read16 a = n := by
  have h : s.read16 a = s.read8 a + 256 * s.read8 (a + 1) := toNat_read16 _ _
  rw [h, h0, h1]
  omega

theorem holds_half {n : Nat} (h : Holds s a (half n)) : s.read16 a = n := read16_of_bytes (holds_first h rfl) (h 1 _ rfl)

end Bytes

/-! ### Fields -/

theorem upTo_eq {bound n : Nat} (h : n ≤ bound) : upTo bound n = some n := if_pos h

theorem within_eq {low high n : Nat} (h1 : low ≤ n) (h2 : n ≤ high) : within low high n = some n := if_pos (by simp [h1, h2])

theorem flagOf_bit (b : Bool) : flagOf (bit b 0) = some b := by cases b <;> rfl

/-- A byte of three marks. -/
theorem mark_three (x y z : Bool) : mark (bit x 0 + bit y 1 + bit z 2) 0 = x ∧ mark (bit x 0 + bit y 1 + bit z 2) 1 = y ∧
    mark (bit x 0 + bit y 1 + bit z 2) 2 = z := by
  cases x <;> cases y <;> cases z <;> decide

theorem mark_two (x y : Bool) : mark (bit x 0 + bit y 1) 0 = x ∧ mark (bit x 0 + bit y 1) 1 = y := by
  cases x <;> cases y <;> decide

/-- A field that holds a value where its mark is set, and the fill byte where it is clear. -/
theorem marked_eq {marks k fill : Nat} {o : Option Nat} (h : mark marks k = o.isSome) : marked marks k (o.getD fill) = o := by
  unfold marked
  rw [h]
  cases o <;> rfl

theorem lieOf_code (l : Lie) : lieOf l.code = some l := by cases l <;> rfl

/-- A byte of a road and an end. -/
theorem roadEndByte_some {x : RoadEnd} (h : x.road < 36) :
    roadEndByte (some x) % 64 = x.road ∧ roadEndOf (roadEndByte (some x)) = x := by
  obtain ⟨r, e⟩ := x
  change r < 36 at h
  have hbyte : roadEndByte (some ⟨r, e⟩) = r + (if e = .b then 64 else 0) + 128 := by
    unfold roadEndByte fld bit
    cases e <;> simp <;> omega
  unfold roadEndOf bitsOf
  rw [hbyte]
  cases e with
  | a =>
    have hroad : (r + 0 + 128) % 64 = r := by omega
    exact ⟨hroad, congrArg₂ RoadEnd.mk hroad (if_neg (by change ¬ (r + 0 + 128) / 2 ^ 6 % 2 ^ 1 = 1; omega))⟩
  | b =>
    have hroad : (r + 64 + 128) % 64 = r := by omega
    exact ⟨hroad, congrArg₂ RoadEnd.mk hroad (if_pos (by change (r + 64 + 128) / 2 ^ 6 % 2 ^ 1 = 1; omega))⟩

/-- The entries of a list, each read from its own bytes. -/
theorem readEntries_eq {α : Type} {s : State} {f : Nat → Option α} {enc : α → List Nat} {size : Nat} {l : List α} {a : Nat}
    (hsize : ∀ x ∈ l, (enc x).length = size) (hf : ∀ x ∈ l, ∀ b, Holds s b (enc x) → f b = some x)
    (h : Holds s a (l.flatMap enc)) : readEntries f size l.length a = some l := by
  induction l generalizing a with
  | nil => rfl
  | cons x l ih =>
    rw [List.flatMap_cons] at h
    obtain ⟨hx, hl⟩ := holds_append h
    rw [hsize x (List.mem_cons_self ..)] at hl
    have hrest := ih (fun y hy => hsize y (List.mem_cons_of_mem _ hy)) (fun y hy => hf y (List.mem_cons_of_mem _ hy)) hl
    rw [List.length_cons, readEntries, hf x (List.mem_cons_self ..) a hx, hrest]
    rfl

/-! ### SECTION and HEAD -/

section Readers
variable {s : State} {a : Nat}

theorem readNeighbour_eq {b : Neighbour} (hp : ∀ c, b.cond = some c → c.1 < 128) (h : Holds s a (neighbourBytes b)) :
    readNeighbour s a = some b := by
  obtain ⟨sec, cond⟩ := b
  unfold readNeighbour
  cases cond with
  | none =>
    rw [holds_first h rfl, h 1 0 rfl]
    rfl
  | some c =>
    obtain ⟨p, l⟩ := c
    have hp' : p ≤ 127 := Nat.le_of_lt_succ (hp (p, l) rfl)
    rw [holds_first h rfl, h 1 1 rfl, h 2 p rfl, h 3 l.code rfl, lieOf_code, upTo_eq hp']
    rfl

theorem readHead_eq {fill k : Nat} {x y : Option Nat} {invert : Bool} (hk : k < 32) (hne : x ≠ y)
    (h : Holds s a (headBytes fill k x y invert)) : readHead s a 8 = some (k,
      { aSide := x, bSide := y, invert := invert, phase := .waitIdle, totalAB := 0, totalBA := 0, suspect := false }) := by
  obtain ⟨h0, h1⟩ := mark_two x.isSome y.isSome
  unfold readHead
  rw [h 3 _ rfl, h 4 k rfl, h 5 _ rfl, h 6 _ rfl, h 7 _ rfl, upTo_eq (Nat.le_of_lt_succ hk), flagOf_bit]
  change (if (8 == 8 && marked _ 0 _ != marked _ 1 _) = true then some _ else none) = _
  rw [marked_eq h0, marked_eq h1]
  exact if_pos (by simpa using hne)

/-- The marks of a SECTION record. -/
theorem mark_five (x y z u v : Bool) : mark (bit x 0 + bit y 1 + bit z 2 + bit u 3 + bit v 4) 0 = x ∧
    mark (bit x 0 + bit y 1 + bit z 2 + bit u 3 + bit v 4) 1 = y ∧ mark (bit x 0 + bit y 1 + bit z 2 + bit u 3 + bit v 4) 2 = z ∧
    mark (bit x 0 + bit y 1 + bit z 2 + bit u 3 + bit v 4) 3 = u ∧ mark (bit x 0 + bit y 1 + bit z 2 + bit u 3 + bit v 4) 4 = v := by
  cases x <;> cases y <;> cases z <;> cases u <;> cases v <;> decide

theorem detectionOf_code (d : Detection) : detectionOf d.code = some d := by cases d <;> rfl

theorem length_neighbourBytes (b : Neighbour) : (neighbourBytes b).length = 4 := by
  unfold neighbourBytes; split <;> rfl

/-- The parts of a SECTION record that its marks allow. -/
theorem sectionMarksOk_fits {n : Nat} {r : SectionRec} {marks : Nat} (h : SectionFits n r) (h2 : mark marks 2 = r.input.isSome)
    (h3 : mark marks 3 = (r.discrepancy != 0)) : sectionMarksOk r.detection marks = true := by
  have hmarks := h.marks
  unfold sectionMarksOk
  cases hd : r.detection with
  | current =>
    rw [hd] at hmarks
    obtain ⟨hi, hz⟩ := hmarks
    simp [h2, h3, hi, hz]
  | axle =>
    rw [hd] at hmarks
    obtain ⟨hi, hz⟩ := hmarks
    simp [h2, h3, hi, hz]
  | both =>
    rw [hd] at hmarks
    exact h2.trans hmarks

theorem readSection_eq {full : Bool} {fill n : Nat} {r : SectionRec} (hr : SectionFits n r) (h : Holds s a (sectionBytes full fill n r)) :
    readSection s a (12 + 4 * r.neighbours.length) = some (n, r) := by
  obtain ⟨hhead, htail⟩ := holds_append h
  have hmarks := hhead 3 _ rfl
  generalize hup : (full || r.pickUp != 20) = up at hmarks hhead htail
  generalize hdown : (full || r.dropOut != 500) = down at hmarks hhead htail
  generalize hpub : (full || r.isPublic) = pub at hmarks hhead htail
  obtain ⟨h0, h1, h2, h3, h4⟩ := mark_five up down r.input.isSome (r.discrepancy != 0) pub
  rw [← hmarks] at h0 h1 h2 h3 h4
  have hpick : (marked (s.read8 (a + 3)) 0 (s.read8 (a + 7))).getD 20 = r.pickUp := by
    have hb : s.read8 (a + 7) = if up then r.pickUp else fill := hhead 7 _ rfl
    unfold marked
    rw [h0, hb]
    cases up with
    | true => rfl
    | false => simp only [Bool.or_eq_false_iff, bne_eq_false_iff_eq] at hup; exact hup.2.symm
  have hdrop : ((marked (s.read8 (a + 3)) 1 (s.read8 (a + 8))).map (· * 10)).getD 500 = r.dropOut := by
    have hb : s.read8 (a + 8) = if down then r.dropOut / 10 else fill := hhead 8 _ rfl
    unfold marked
    rw [h1, hb]
    cases down with
    | true =>
      obtain ⟨k, -, hk⟩ := hr.dropOut
      change r.dropOut / 10 * 10 = r.dropOut
      omega
    | false => simp only [Bool.or_eq_false_iff, bne_eq_false_iff_eq] at hdown; exact hdown.2.symm
  have hdisc : ((marked (s.read8 (a + 3)) 3 (s.read8 (a + 9))).map (· * 100)).getD 0 = r.discrepancy := by
    have hb : s.read8 (a + 9) = if r.discrepancy = 0 then fill else r.discrepancy / 100 := hhead 9 _ rfl
    unfold marked
    rw [h3, hb]
    by_cases hz : r.discrepancy = 0
    · simp [hz]
    · obtain ⟨k, -, hk⟩ := hr.discrepancy
      simp only [bne_iff_ne, ne_eq, hz, not_false_eq_true, if_true, if_false]
      change r.discrepancy / 100 * 100 = r.discrepancy
      omega
  have hinput : marked (s.read8 (a + 3)) 2 (s.read8 (a + 6)) = r.input := by
    have hb : s.read8 (a + 6) = r.input.getD fill := hhead 6 _ rfl
    rw [hb]
    exact marked_eq h2
  have hpublic : (if mark (s.read8 (a + 3)) 4 then flagOf (s.read8 (a + 10)) else some false) = some r.isPublic := by
    have hb : s.read8 (a + 10) = if pub then bit r.isPublic 0 else fill := hhead 10 _ rfl
    rw [h4, hb]
    cases pub with
    | true => exact flagOf_bit _
    | false =>
      simp only [Bool.or_eq_false_iff] at hpub
      rw [hpub.2]
      rfl
  have hnumber : s.read8 (a + 4) = n := hhead 4 _ rfl
  have hdet : s.read8 (a + 5) = r.detection.code := hhead 5 _ rfl
  have hcount : s.read8 (a + 11) = r.neighbours.length := hhead 11 _ rfl
  have hlist : readEntries (readNeighbour s) 4 r.neighbours.length (a + 12) = some r.neighbours :=
    readEntries_eq (fun x _ => length_neighbourBytes x)
      (fun x hx b hb => readNeighbour_eq (fun c hc => (hr.neighbours x hx).2.2 c hc) hb) htail
  have hself : (r.neighbours.map Neighbour.sec).contains n = false := by
    rw [Bool.eq_false_iff, ne_eq, List.contains_iff_mem, List.mem_map]
    rintro ⟨x, hx, hsec⟩
    exact (hr.neighbours x hx).2.1 hsec
  have hok : (sectionMarksOk r.detection (s.read8 (a + 3)) && distinct (r.neighbours.map Neighbour.sec)
      && !(r.neighbours.map Neighbour.sec).contains n) = true := by
    rw [sectionMarksOk_fits hr h2 h3, hself]
    simpa [distinct] using hr.distinct
  unfold readSection
  simp only [hnumber, hdet, detectionOf_code, hcount, upTo_eq hr.few, hlist, hok, hpick, hdrop, hdisc, hinput, if_true,
    Option.bind_eq_bind, Option.bind_some]
  by_cases hm : mark (s.read8 (a + 3)) 4 = true
  · rw [if_pos hm] at hpublic ⊢
    rw [hpublic]
    rfl
  · rw [if_neg hm] at hpublic ⊢
    rw [Option.some.inj hpublic]

/-! ### POINT and SIGNAL -/

/-- The presence of the two contact inputs, and of the travel timeout. -/
theorem readFeedback_eq {full : Bool} {fill p : Nat} {r : PointRec} (hr : PointFits p r) (h : Holds s a (pointBytes full fill p r)) :
    readFeedback s a (s.read8 (a + 2)) = some r.feedback := by
  obtain ⟨h0, h1, -⟩ := mark_three r.feedback.inputs.isSome r.feedback.inputs.isSome (r.motor == .slow && (full || r.travel != 3000))
  have hmarks : s.read8 (a + 2) = _ := h 2 _ rfl
  have h6 : s.read8 (a + 6) = if r.feedback.inputs.isSome then 1 else 2 := h 6 _ rfl
  have h7 : s.read8 (a + 7) = (r.feedback.inputs.map Prod.fst).getD fill := h 7 _ rfl
  have h8 : s.read8 (a + 8) = (r.feedback.inputs.map Prod.snd).getD fill := h 8 _ rfl
  unfold readFeedback
  rw [hmarks, h0, h1, h6, h7, h8]
  cases hf : r.feedback with
  | none => rfl
  | pair x y =>
    obtain ⟨-, -, hne⟩ := hr.inputs x y hf
    exact if_pos (by simpa [Feedback.inputs] using hne)

theorem readTravel_eq {full : Bool} {fill p : Nat} {r : PointRec} (hr : PointFits p r) (h : Holds s a (pointBytes full fill p r)) :
    readTravel s a (s.read8 (a + 2)) r.motor = some r.travel := by
  obtain ⟨-, -, h2⟩ := mark_three r.feedback.inputs.isSome r.feedback.inputs.isSome (r.motor == .slow && (full || r.travel != 3000))
  have hmarks : s.read8 (a + 2) = _ := h 2 _ rfl
  have htravel := hr.travel
  have hlast := (holds_append h).2
  unfold readTravel
  rw [hmarks, h2]
  cases hm : r.motor with
  | solenoid =>
    rw [hm] at htravel
    exact congrArg some (Eq.symm htravel)
  | slow =>
    rw [hm] at htravel hlast
    obtain ⟨hlow, hhigh⟩ := htravel
    cases ht : full || r.travel != 3000 with
    | true =>
      change Holds s (a + 10) (if (full || r.travel != 3000) = true then _ else _) at hlast
      rw [ht, if_pos rfl] at hlast
      change (if Motor.slow = .slow then within 500 10000 (s.read16 (a + 10)) else none) = _
      rw [if_pos rfl, holds_half hlast]
      exact within_eq hlow hhigh
    | false =>
      simp only [Bool.or_eq_false_iff, bne_eq_false_iff_eq] at ht
      exact congrArg some ht.2.symm

theorem readPoint_eq {full : Bool} {fill p : Nat} {r : PointRec} (hr : PointFits p r) (h : Holds s a (pointBytes full fill p r)) :
    readPoint s a 12 = some (p, r) := by
  obtain ⟨hp, -⟩ := hr.numbers
  have h5 : s.read8 (a + 5) = if r.motor = .slow then 2 else 1 := h 5 _ rfl
  have hmotor : motorOf (s.read8 (a + 5)) = some r.motor := by rw [h5]; cases r.motor <;> rfl
  unfold readPoint
  simp only [h 3 p rfl, h 4 r.sec rfl, hmotor, upTo_eq (Nat.le_of_lt_succ hp), readFeedback_eq hr h, readTravel_eq hr h, if_true,
    Option.bind_eq_bind, Option.bind_some]

theorem signalOk_fits {x : Nat} {r : SignalRec} (h : SignalFits x r) : signalOk x r = true := by
  have hf := h.fields
  unfold signalOk
  split
  · next hk =>
    rw [if_pos hk] at hf
    obtain ⟨h1, h2, h3, h4⟩ := hf
    simp [h1, h2, h4, Option.isSome_iff_ne_none.2 h3]
  · next hk =>
    rw [if_neg hk] at hf
    obtain ⟨h1, h2, h3⟩ := hf
    simp [h2, h3, Option.isSome_iff_ne_none.2 h1]

theorem readSignal_eq {fill x : Nat} {r : SignalRec} (hr : SignalFits x r) (h : Holds s a (signalBytes fill x r)) :
    readSignal s a 8 = some (x, r) := by
  obtain ⟨hx, -, hhome⟩ := hr.numbers
  obtain ⟨h0, h1, h2⟩ := mark_three r.approach.isSome r.protect.isSome r.home.isSome
  have hmarks : s.read8 (a + 2) = _ := h 2 _ rfl
  rw [← hmarks] at h0 h1 h2
  have h7 : s.read8 (a + 7) = r.home.getD fill := h 7 _ rfl
  have hhomeOk : mark (s.read8 (a + 2)) 2 = true → upTo 191 (s.read8 (a + 7)) = some (s.read8 (a + 7)) := fun hm => by
    rw [h2, Option.isSome_iff_exists] at hm
    obtain ⟨y, hy⟩ := hm
    have hlt := hhome y hy
    rw [h7, hy]
    exact upTo_eq (by change y ≤ 191; omega)
  have hkind : signalKindOf (s.read8 (a + 4)) = some r.kind := by
    rw [h 4 r.kind.code rfl]
    cases r.kind <;> rfl
  have happroach : marked (s.read8 (a + 2)) 0 (s.read8 (a + 5)) = r.approach := by rw [h 5 _ rfl]; exact marked_eq h0
  have hprotect : marked (s.read8 (a + 2)) 1 (s.read8 (a + 6)) = r.protect := by rw [h 6 _ rfl]; exact marked_eq h1
  have hhomeField : marked (s.read8 (a + 2)) 2 (s.read8 (a + 7)) = r.home := by rw [h7]; exact marked_eq h2
  unfold readSignal
  simp only [h 3 x rfl, hkind, upTo_eq (Nat.le_of_lt_succ hx), happroach, hprotect, hhomeField, signalOk_fits hr,
    Bool.and_true, Option.bind_eq_bind, Option.bind_some]
  split
  · next hm => rw [hhomeOk hm]; rfl
  · rfl

/-! ### DECK and ROAD -/

theorem clampRates_fits {d : DeckRec} (h : DeckFits d) : clampRates d = d := by
  obtain ⟨h1, h2, h3, h4, h5, h6⟩ := h.rates
  have hvmax : clamp 1 20000 d.vmax = d.vmax := by unfold clamp; omega
  have hv0 : min (clamp 1 20000 d.v0) d.vmax = d.v0 := by unfold clamp; omega
  have hramp : clamp 1 2000 d.ramp = d.ramp := by unfold clamp; omega
  have hjog : clamp d.v0 d.vmax d.jog = d.jog := by unfold clamp; omega
  unfold clampRates
  dsimp only
  rw [hvmax, hv0, hramp, hjog]

theorem readStop_eq {fill : Nat} {d : DeckRec} (hd : DeckFits d) (h : Holds s a (deckBytes fill d)) :
    readStop s a d.c d.indexOffset = some d.stop := by
  obtain ⟨-, -, -, hindex, hstop, -⟩ := hd.counts
  have h3 : s.read8 (a + 3) = if d.stop.isSome then 2 else 1 := h 3 _ rfl
  unfold readStop
  rw [h3]
  cases hm : d.stop with
  | none => rfl
  | some m =>
    obtain rfl := hstop m hm
    have h6 : s.read16 (a + 6) = d.indexOffset := by
      unfold deckBytes at h
      rw [hm] at h
      exact read16_of_bytes (h 6 _ rfl) (h 7 _ rfl)
    change (if s.read16 (a + 6) < d.c && s.read16 (a + 6) = d.indexOffset then some (some (s.read16 (a + 6))) else none) = _
    rw [h6]
    exact if_pos (by simp [hindex])

theorem deckBytes_eq (fill : Nat) (d : DeckRec) : ∃ m0 m1, deckBytes fill d =
    half 26 ++ [1, if d.stop.isSome then 2 else 1] ++ half d.c ++ [m0, m1] ++ half d.indexOffset ++ half d.v0 ++ half d.vmax
      ++ half d.ramp ++ half d.jog ++ half d.snap
      ++ [if d.rising then 1 else 2, d.backlash, bit d.bolt 0, d.boltTime / 10, d.settleTime / 10, d.sec] := by
  unfold deckBytes
  cases d.stop with
  | none => exact ⟨fill, fill, rfl⟩
  | some m => exact ⟨m % 256, m / 256, rfl⟩

theorem readDeck_eq {fill : Nat} {d : DeckRec} (hd : DeckFits d) (h : Holds s a (deckBytes fill d)) :
    readDeck s a 26 = some d := by
  have hstop := readStop_eq hd h
  obtain ⟨hc1, hc2, hc3, hc4, -, hc6⟩ := hd.counts
  obtain ⟨⟨k1, -, hk1⟩, ⟨k2, -, hk2⟩, -, -⟩ := hd.times
  obtain ⟨m0, m1, hbytes⟩ := deckBytes_eq fill d
  rw [hbytes] at h
  have hc : s.read16 (a + 4) = d.c := read16_of_bytes (h 4 _ rfl) (h 5 _ rfl)
  have hindex : s.read16 (a + 8) = d.indexOffset := read16_of_bytes (h 8 _ rfl) (h 9 _ rfl)
  have hv0 : s.read16 (a + 10) = d.v0 := read16_of_bytes (h 10 _ rfl) (h 11 _ rfl)
  have hvmax : s.read16 (a + 12) = d.vmax := read16_of_bytes (h 12 _ rfl) (h 13 _ rfl)
  have hramp : s.read16 (a + 14) = d.ramp := read16_of_bytes (h 14 _ rfl) (h 15 _ rfl)
  have hjog : s.read16 (a + 16) = d.jog := read16_of_bytes (h 16 _ rfl) (h 17 _ rfl)
  have hsnap : s.read16 (a + 18) = d.snap := read16_of_bytes (h 18 _ rfl) (h 19 _ rfl)
  have hrising : polarityOf (s.read8 (a + 20)) = some d.rising := by rw [h 20 _ rfl]; cases d.rising <;> rfl
  have hbolt : flagOf (s.read8 (a + 22)) = some d.bolt := by rw [h 22 _ rfl]; exact flagOf_bit _
  have hboltTime : 10 * s.read8 (a + 23) = d.boltTime := by rw [h 23 (d.boltTime / 10) rfl]; omega
  have hsettle : 10 * s.read8 (a + 24) = d.settleTime := by rw [h 24 (d.settleTime / 10) rfl]; omega
  have hok : (26 = 26 && d.c % 2 = 0 && d.indexOffset < d.c) = true := by simp [hc3, hc4]
  have hrates := clampRates_fits hd
  unfold readDeck
  simp only [hc, hindex, hv0, hvmax, hramp, hjog, hsnap, hrising, hbolt, hboltTime, hsettle, h 21 d.backlash rfl, h 25 d.sec rfl,
    within_eq hc1 hc2, upTo_eq hc6, hstop, Option.bind_eq_bind, Option.bind_some]
  exact (if_pos hok).trans (congrArg some hrates)

theorem readRoad_eq {d : DeckRec} {n : Nat} {q : Road} (hd : s.tt.deck = some d) (hn : n < 36) (hp : q.position < d.c)
    (hsec : q.sec ≠ d.sec) (hfree : ∀ x ∈ s.tt.roads, x.1 ≠ n → x.2.position ≠ q.position) (h : Holds s a (roadBytes n q)) :
    readRoad s a 8 = some (n, q) := by
  have hpos : s.read16 (a + 4) = q.position := read16_of_bytes (h 4 _ rfl) (h 5 _ rfl)
  have hrev : reversedOf (s.read8 (a + 7)) = some q.reversed := by
    rw [h 7 _ rfl]
    cases q.reversed <;> rfl
  have hany : (s.tt.roads.any fun x => x.1 != n && x.2.position == q.position) = false := by
    rw [List.any_eq_false]
    intro x hx hc
    simp only [Bool.and_eq_true, bne_iff_ne, ne_eq, beq_iff_eq] at hc
    obtain ⟨h1, h2⟩ := hc
    exact hfree x hx h1 h2
  have hok : (8 = 8 && q.position < d.c && q.sec != d.sec && !(s.tt.roads.any fun x => x.1 != n && x.2.position == q.position)) = true := by
    rw [hany]
    simp [hp, hsec]
  unfold readRoad
  simp only [hd, h 3 n rfl, upTo_eq (Nat.le_of_lt_succ hn), hrev, hpos, h 6 q.sec rfl, Option.bind_eq_bind, Option.bind_some]
  exact if_pos hok

/-! ### ROUTE -/

theorem readElement_eq {x : Element} (hx : ∀ p l, x = .point p l → p < 128) (h : Holds s a (elementBytes x)) :
    readElement s a = some x := by
  unfold readElement
  cases x with
  | sec n =>
    rw [holds_first h (b := 1) rfl, h 1 n rfl]
    rfl
  | point p l =>
    have hp : p ≤ 127 := Nat.le_of_lt_succ (hx p l rfl)
    rw [holds_first h (b := 2 + 4 * l.code) rfl, h 1 p rfl]
    cases l <;> exact (congrArg (fun o : Option Nat => o.bind fun p => some (Element.point p _)) (upTo_eq hp))

theorem readFlank_eq {x : Nat × Lie} (hx : x.1 < 128) (h : Holds s a [x.2.code, x.1]) : readFlank s a = some x := by
  unfold readFlank
  rw [holds_first h (b := x.2.code) rfl, h 1 x.1 rfl, lieOf_code, upTo_eq (Nat.le_of_lt_succ hx)]
  rfl

theorem readListSection_eq {m : Nat} (h : Holds s a [0, m]) : readListSection s a = some m := by
  unfold readListSection; rw [h 1 m rfl]

theorem classOf_code (c : RouteClass) : classOf c.code = some c := by cases c <;> rfl

theorem routeOk_fits {n : Nat} {r : RouteRec} (h : RouteFits n r) : routeOk r = true := by
  obtain ⟨m, l, hfirst⟩ := h.first
  obtain ⟨hsecs, hpoints, happroach⟩ := h.distinct
  obtain ⟨-, -, hexit, -⟩ := h.numbers
  have hsecsOk : distinct (sequence r) = true := by simpa [distinct] using hsecs
  have hpointsOk : distinct ((routePoints r).map Prod.fst) = true := by simpa [distinct] using hpoints
  have happroachOk : (r.approach.all fun n => !(sequence r).contains n) = true := by
    rw [List.all_eq_true]
    intro m hm
    simpa using happroach m hm
  have hshunt : (!(r.cls == .shunt && !r.overlap.isEmpty)) = true := by
    by_cases hc : r.cls = .shunt
    · rw [h.shunt hc]; simp
    · simp [hc]
  have hexitOk : (r.exit != some r.entry) = true := by
    rw [bne_iff_ne]
    intro he
    exact (hexit _ he).2 rfl
  unfold routeOk
  dsimp only
  rw [hsecsOk, hpointsOk, happroachOk, hshunt, hexitOk, hfirst]
  rfl

theorem length_flatMap_two {α : Type} {f : α → List Nat} (l : List α) (h : ∀ x, (f x).length = 2) :
    (l.flatMap f).length = 2 * l.length := by
  rw [List.length_flatMap]
  simp [h, Nat.mul_comm]

theorem length_elementBytes (x : Element) : (elementBytes x).length = 2 := by cases x <;> rfl

/-- The fields of a ROUTE record before its lists. -/
def routeHead (fill n : Nat) (r : RouteRec) : List Nat :=
  half (16 + 2 * (r.elements.length + r.flank.length + r.overlap.length + r.approach.length)) ++ half n
    ++ [r.cls.code, bit r.visitor 0 + bit r.exit.isSome 1 + bit r.table.isSome 2, r.entry, r.exit.getD fill,
        r.approachTime, r.overlapTime, if r.table.isSome then roadEndByte r.table else fill, r.elements.length,
        r.flank.length, r.overlap.length, r.approach.length, 0]

/-- The parts of a ROUTE record in their places. -/
theorem routeBytes_parts {fill n : Nat} {r : RouteRec} (h : Holds s a (routeBytes fill n r)) : Holds s a (routeHead fill n r) ∧
    Holds s (a + 16) (r.elements.flatMap elementBytes) ∧
    Holds s (a + 16 + 2 * r.elements.length) (r.flank.flatMap fun x => [x.2.code, x.1]) ∧
    Holds s (a + 16 + 2 * (r.elements.length + r.flank.length)) (r.overlap.flatMap fun m => [0, m]) ∧
    Holds s (a + 16 + 2 * (r.elements.length + r.flank.length + r.overlap.length)) (r.approach.flatMap fun m => [0, m]) := by
  have hhead : (routeHead fill n r).length = 16 := rfl
  have he := length_flatMap_two r.elements length_elementBytes
  have hf := length_flatMap_two r.flank (f := fun x => [x.2.code, x.1]) fun _ => rfl
  have ho := length_flatMap_two r.overlap (f := fun m => [0, m]) fun _ => rfl
  change Holds s a (routeHead fill n r ++ r.elements.flatMap elementBytes ++ r.flank.flatMap (fun x => [x.2.code, x.1])
    ++ r.overlap.flatMap (fun m => [0, m]) ++ r.approach.flatMap (fun m => [0, m])) at h
  obtain ⟨h, happroach⟩ := holds_append h
  obtain ⟨h, hoverlap⟩ := holds_append h
  obtain ⟨h, hflank⟩ := holds_append h
  obtain ⟨h, helements⟩ := holds_append h
  simp only [List.length_append, hhead, he, hf, ho] at happroach hoverlap hflank helements
  refine ⟨h, helements, ?_, ?_, ?_⟩
  · rw [Nat.add_assoc]; exact hflank
  · rw [show a + 16 + 2 * (r.elements.length + r.flank.length) = a + (16 + 2 * r.elements.length + 2 * r.flank.length) by omega]
    exact hoverlap
  · rw [show a + 16 + 2 * (r.elements.length + r.flank.length + r.overlap.length)
      = a + (16 + 2 * r.elements.length + 2 * r.flank.length + 2 * r.overlap.length) by omega]
    exact happroach

theorem readExit_eq {fill n : Nat} {r : RouteRec} (hr : RouteFits n r) (h : Holds s a (routeHead fill n r)) :
    readExit s (a + 7) (s.read8 (a + 5)) = some r.exit := by
  obtain ⟨-, -, hexit, -⟩ := hr.numbers
  have hflags : s.read8 (a + 5) = _ := h 5 _ rfl
  have h7 : s.read8 (a + 7) = r.exit.getD fill := h 7 _ rfl
  unfold readExit
  rw [hflags, (mark_three r.visitor r.exit.isSome r.table.isSome).2.1, h7]
  cases he : r.exit with
  | none => rfl
  | some y =>
    obtain ⟨hlt, -⟩ := hexit y he
    change (upTo 191 y).bind (fun x => some (some x)) = _
    rw [upTo_eq (by omega)]
    rfl

theorem readTableCondition_eq {fill n : Nat} {r : RouteRec} (hr : RouteFits n r) (h : Holds s a (routeHead fill n r)) :
    readTableCondition s (a + 10) (s.read8 (a + 5)) = some r.table := by
  obtain ⟨-, -, -, -, -, htable⟩ := hr.numbers
  have hflags : s.read8 (a + 5) = _ := h 5 _ rfl
  have h10 : s.read8 (a + 10) = if r.table.isSome then roadEndByte r.table else fill := h 10 _ rfl
  unfold readTableCondition
  rw [hflags, (mark_three r.visitor r.exit.isSome r.table.isSome).2.2, h10]
  cases ht : r.table with
  | none => rfl
  | some x =>
    have hlt := htable x ht
    obtain ⟨hroad, hback⟩ := roadEndByte_some hlt
    change (upTo 35 (roadEndByte (some x) % 64)).bind (fun _ => some (some (roadEndOf (roadEndByte (some x))))) = _
    rw [hroad, upTo_eq (by omega), hback]
    rfl

theorem mem_elementPoints {r : RouteRec} {p : Nat} {l : Lie} (h : Element.point p l ∈ r.elements) : (p, l) ∈ elementPoints r :=
  List.mem_filterMap.2 ⟨_, h, rfl⟩

theorem readRoute_eq {fill n : Nat} {r : RouteRec} (hr : RouteFits n r) (h : Holds s a (routeBytes fill n r)) :
    readRoute s a (16 + 2 * (r.elements.length + r.flank.length + r.overlap.length + r.approach.length)) = some (n, r) := by
  obtain ⟨hhead, he, hf, ho, ha⟩ := routeBytes_parts h
  obtain ⟨hn, hentry, -, -, -, -⟩ := hr.numbers
  obtain ⟨hce, hcf, hco, hca⟩ := hr.counts
  obtain ⟨-, hpoints⟩ := hr.items
  obtain ⟨m, l, hfirst⟩ := hr.first
  have hone : 1 ≤ r.elements.length := by rw [hfirst]; simp
  have hnumber : s.read16 (a + 2) = n := read16_of_bytes (hhead 2 _ rfl) (hhead 3 _ rfl)
  have hflags : s.read8 (a + 5) = _ := hhead 5 _ rfl
  have hvisitor : mark (s.read8 (a + 5)) 0 = r.visitor := by
    rw [hflags]
    exact (mark_three r.visitor r.exit.isSome r.table.isSome).1
  have helements : readEntries (readElement s) 2 r.elements.length (a + 16) = some r.elements :=
    readEntries_eq (fun x _ => length_elementBytes x) (fun x hx b hb => readElement_eq (fun p l hp =>
      hpoints (p, l) (List.mem_append_left _ (mem_elementPoints (hp ▸ hx)))) hb) he
  have hflank : readEntries (readFlank s) 2 r.flank.length (a + 16 + 2 * r.elements.length) = some r.flank :=
    readEntries_eq (enc := fun x => [x.2.code, x.1]) (fun _ _ => rfl) (fun x hx b hb => readFlank_eq (hpoints x (List.mem_append_right _ hx)) hb) hf
  have hoverlap : readEntries (readListSection s) 2 r.overlap.length (a + 16 + 2 * (r.elements.length + r.flank.length))
      = some r.overlap := readEntries_eq (enc := fun m => [0, m]) (fun _ _ => rfl) (fun _ _ _ hb => readListSection_eq hb) ho
  have happroach : readEntries (readListSection s) 2 r.approach.length
      (a + 16 + 2 * (r.elements.length + r.flank.length + r.overlap.length)) = some r.approach :=
    readEntries_eq (enc := fun m => [0, m]) (fun _ _ => rfl) (fun _ _ _ hb => readListSection_eq hb) ha
  have hok := routeOk_fits hr
  unfold readRoute
  simp only [hnumber, upTo_eq (Nat.le_of_lt_succ hn), hhead 4 r.cls.code rfl, classOf_code, hhead 6 r.entry rfl,
    upTo_eq (Nat.le_of_lt_succ hentry), readExit_eq hr hhead, readTableCondition_eq hr hhead, hhead 11 r.elements.length rfl,
    hhead 12 r.flank.length rfl, hhead 13 r.overlap.length rfl, hhead 14 r.approach.length rfl, within_eq hone hce, upTo_eq hcf,
    upTo_eq hco, upTo_eq hca, if_true, helements, hflank, hoverlap, happroach, hhead 8 r.approachTime rfl, hhead 9 r.overlapTime rfl,
    hvisitor, Option.bind_eq_bind, Option.bind_some]
  exact if_pos hok

/-! ### SHOW and LAMP -/

theorem length_stepBytes (x : ShowStep) : (stepBytes x).length = 6 := by cases x <;> rfl

/-- A step that a SHOW record may hold (R157). -/
def StepFits : ShowStep → Prop
  | .setRoute r t => r < 512 ∧ t ≤ 600
  | .cancelRoute r => r < 512
  | .turn y => y.road < 36
  | .waitSection m _ t => m < 256 ∧ 1 ≤ t ∧ t ≤ 600
  | .pause t => 1 ≤ t ∧ t ≤ 600

theorem readStep_eq {x : ShowStep} (hx : StepFits x) (h : Holds s a (stepBytes x)) : readStep s a = some x := by
  have hkind (k : Nat) (hk : (stepBytes x)[0]? = some k) : s.read8 a = k := holds_first h hk
  unfold readStep
  cases x with
  | setRoute r t =>
    obtain ⟨hr, ht⟩ := hx
    have hnumber : s.read16 (a + 2) = r := read16_of_bytes (h 2 _ rfl) (h 3 _ rfl)
    have htime : s.read16 (a + 4) = t := read16_of_bytes (h 4 _ rfl) (h 5 _ rfl)
    rw [hkind 1 rfl, hnumber, htime]
    change (upTo 511 r).bind (fun r => (upTo 600 t).bind fun t => some (ShowStep.setRoute r t)) = _
    rw [upTo_eq (Nat.le_of_lt_succ hr), upTo_eq ht]
    rfl
  | cancelRoute r =>
    have hr : r < 512 := hx
    have hnumber : s.read16 (a + 2) = r := read16_of_bytes (h 2 _ rfl) (h 3 _ rfl)
    rw [hkind 2 rfl, hnumber]
    change (upTo 511 r).bind (fun r => some (ShowStep.cancelRoute r)) = _
    rw [upTo_eq (Nat.le_of_lt_succ hr)]
    rfl
  | turn y =>
    have hy : y.road < 36 := hx
    obtain ⟨hroad, hback⟩ := roadEndByte_some hy
    rw [hkind 3 rfl, h 1 (roadEndByte (some y)) rfl]
    change (upTo 35 (roadEndByte (some y) % 64)).bind (fun _ => some (ShowStep.turn (roadEndOf (roadEndByte (some y))))) = _
    rw [hroad, upTo_eq (by omega), hback]
    rfl
  | waitSection m occupied t =>
    obtain ⟨hm, h1, h2⟩ := hx
    have hnumber : s.read16 (a + 2) = m := read16_of_bytes (h 2 _ rfl) (h 3 _ rfl)
    have htime : s.read16 (a + 4) = t := read16_of_bytes (h 4 _ rfl) (h 5 _ rfl)
    rw [hkind 4 rfl, h 1 (if occupied then 1 else 2) rfl, hnumber, htime]
    have hbody (b : Bool) : (upTo 255 m).bind (fun n => (within 1 600 t).bind fun t => some (ShowStep.waitSection n b t))
        = some (.waitSection m b t) := by
      rw [upTo_eq (by omega), within_eq h1 h2]
      rfl
    cases occupied with
    | true => exact hbody true
    | false => exact hbody false
  | pause t =>
    obtain ⟨h1, h2⟩ := hx
    have htime : s.read16 (a + 4) = t := read16_of_bytes (h 4 _ rfl) (h 5 _ rfl)
    rw [hkind 5 rfl, htime]
    change (within 1 600 t).bind (fun t => some (ShowStep.pause t)) = _
    rw [within_eq h1 h2]
    rfl

theorem stepFits_of_show {n : Nat} {w : ShowRec} (h : ShowFits n w) {x : ShowStep} (hx : x ∈ w.steps) : StepFits x := by
  obtain ⟨-, -, hsteps⟩ := h.steps
  have hstep := hsteps x hx
  cases x <;> exact hstep

theorem readButton_eq {b : Option Nat} (h : ∀ k, b = some k → k < 16) : readButton (b.getD 255) = some b := by
  unfold readButton
  cases b with
  | none => rfl
  | some k => exact if_pos (Nat.le_of_lt_succ (h k rfl))

theorem readShow_eq {n : Nat} {w : ShowRec} (hw : ShowFits n w)
    (hfree : ∀ x ∈ s.vis.shows, x.1 ≠ n → w.button = none ∨ x.2.button ≠ w.button) (h : Holds s a (showBytes n w)) :
    readShow s a (10 + 6 * w.steps.length) = some (n, w) := by
  obtain ⟨hhead, htail⟩ := holds_append h
  obtain ⟨hn, hbutton, hcool, hdur⟩ := hw.numbers
  obtain ⟨hone, hmany, -⟩ := hw.steps
  have hcoolDown : s.read16 (a + 4) = w.coolDown := read16_of_bytes (hhead 4 _ rfl) (hhead 5 _ rfl)
  have hduration : s.read16 (a + 6) = w.maxDuration := read16_of_bytes (hhead 6 _ rfl) (hhead 7 _ rfl)
  have hsteps : readEntries (readStep s) 6 w.steps.length (a + 10) = some w.steps :=
    readEntries_eq (fun x _ => length_stepBytes x) (fun x hx b hb => readStep_eq (stepFits_of_show hw hx) hb) htail
  have htaken : ¬ (w.button.isSome && s.vis.shows.any fun x => x.1 != n && x.2.button == w.button) = true := by
    rw [Bool.and_eq_true, List.any_eq_true]
    rintro ⟨hsome, x, hx, hc⟩
    simp only [Bool.and_eq_true, bne_iff_ne, ne_eq, beq_iff_eq] at hc
    obtain ⟨hne, hsame⟩ := hc
    obtain hnone | hother := hfree x hx hne
    · rw [hnone] at hsome; exact Bool.false_ne_true hsome
    · exact hother hsame
  unfold readShow
  simp only [hhead 2 n rfl, upTo_eq (Nat.le_of_lt_succ hn), hhead 3 (w.button.getD 255) rfl, readButton_eq hbutton, hcoolDown,
    upTo_eq hcool, hduration, upTo_eq hdur, hhead 8 w.steps.length rfl, within_eq hone hmany, hsteps, if_true, Option.bind_eq_bind,
    Option.bind_some]
  exact if_neg htaken

theorem aspectCode_code (x : Aspect) : aspectCode x.code = some x := by cases x <;> rfl

theorem detLieOf_code (l : DetLie) : detLieOf l.code = some l := by cases l <;> rfl

theorem modeOf_code (m : Mode) : modeOf m.code = some m := by cases m <;> rfl

theorem readSource_eq {i : Nat} {l : Lamp} (h : LampFits i l) :
    readSource l.source.fields.1 l.source.fields.2.1 l.source.fields.2.2 = some l.source := by
  obtain ⟨-, h⟩ := h
  cases hs : l.source with
  | none => rfl
  | sectionOccupied n => rfl
  | sectionRouted n => rfl
  | tagPresent n => rfl
  | showRunning n =>
    rw [hs] at h
    exact if_pos (Nat.le_of_lt_succ h)
  | signalAspect x y =>
    rw [hs] at h
    refine (if_pos (Nat.le_of_lt_succ h)).trans ?_
    rw [aspectCode_code]
    rfl
  | pointLie p y =>
    rw [hs] at h
    refine (if_pos (Nat.le_of_lt_succ h)).trans ?_
    rw [detLieOf_code]
    rfl
  | tableAtRoad x =>
    rw [hs] at h
    refine (if_pos (Nat.le_of_lt_succ h)).trans ?_
    obtain ⟨r, e⟩ := x
    cases e <;> rfl

theorem readLamp_eq {fill i : Nat} {l : Lamp} (hl : LampFits i l) (h : Holds s a (lampBytes fill i l)) :
    readLamp s a 10 = some (i, l) := by
  have hsource := readSource_eq hl
  obtain ⟨hi, -⟩ := hl
  obtain ⟨h0, h1⟩ := mark_two l.source.fields.2.1.isSome l.source.fields.2.2.isSome
  have hmarks : s.read8 (a + 5) = _ := h 5 _ rfl
  rw [← hmarks] at h0 h1
  have hnumber : s.read16 (a + 2) = i := read16_of_bytes (h 2 _ rfl) (h 3 _ rfl)
  have hindex : marked (s.read8 (a + 5)) 0 (s.read8 (a + 6)) = l.source.fields.2.1 := by rw [h 6 _ rfl]; exact marked_eq h0
  have hvalue : marked (s.read8 (a + 5)) 1 (s.read8 (a + 7)) = l.source.fields.2.2 := by rw [h 7 _ rfl]; exact marked_eq h1
  unfold readLamp
  simp only [hnumber, upTo_eq (Nat.le_of_lt_succ hi), h 4 l.source.fields.1 rfl, hindex, hvalue, hsource, h 8 l.onMode.code rfl,
    h 9 l.offMode.code rfl, modeOf_code, if_true, Option.bind_eq_bind, Option.bind_some]

/-! ### Records of another length than their own (R200) -/

section Lengths
variable {len : Nat}

theorem upTo_or (bound n : Nat) : upTo bound n = some n ∨ upTo bound n = none := by
  unfold upTo; split
  · exact .inl rfl
  · exact .inr rfl

theorem within_or (low high n : Nat) : within low high n = some n ∨ within low high n = none := by
  unfold within; split
  · exact .inl rfl
  · exact .inr rfl

theorem readSection_length (h : len ≠ 12 + 4 * s.read8 (a + 11)) : readSection s a len = none := by
  unfold readSection
  obtain hc | hc := upTo_or 4 (s.read8 (a + 11)) <;> simp [hc, h]

theorem readHead_length (h : len ≠ 8) : readHead s a len = none := by unfold readHead; simp [h]

theorem readPoint_length (h : len ≠ 12) : readPoint s a len = none := by unfold readPoint; simp [h]

theorem readSignal_length (h : len ≠ 8) : readSignal s a len = none := by unfold readSignal; simp [h]

theorem readDeck_length (h : len ≠ 26) : readDeck s a len = none := by unfold readDeck; simp [h]

theorem readRoad_length (h : len ≠ 8) : readRoad s a len = none := by unfold readRoad; simp [h]

theorem readLamp_length (h : len ≠ 10) : readLamp s a len = none := by unfold readLamp; simp [h]

theorem readShow_length (h : len ≠ 10 + 6 * s.read8 (a + 8)) : readShow s a len = none := by
  unfold readShow
  obtain hc | hc := within_or 1 12 (s.read8 (a + 8)) <;> simp [hc, h]

theorem readRoute_length (h : len ≠ 16 + 2 * (s.read8 (a + 11) + s.read8 (a + 12) + s.read8 (a + 13) + s.read8 (a + 14))) :
    readRoute s a len = none := by
  unfold readRoute
  obtain he | he := within_or 1 24 (s.read8 (a + 11)) <;> obtain hf | hf := upTo_or 8 (s.read8 (a + 12)) <;>
    obtain ho | ho := upTo_or 4 (s.read8 (a + 13)) <;> obtain ha | ha := upTo_or 3 (s.read8 (a + 14)) <;>
    simp [he, hf, ho, ha, h]

end Lengths

end Readers

end Sys2Proof.RecordReaders
end

