-- ==== Sys2Proof/Proofs/RecordsLoaded.lean ====
section
/-! LOAD_RECORD: the record at the cursor of the reading load is taken or refused, and the load goes on or ends (O57). -/

namespace Sys2Proof.RecordsLoaded

open Sys2Proof.Machine Sys2Proof.ReportLog Sys2Proof.QuietHeader Sys2Proof.TrackRequests Sys2Proof.RouteRelease
  Sys2Proof.PointLies Sys2Proof.SlotBytes Sys2Proof.RecordReaders Sys2Proof.DeckStates Sys2Proof.ShowRequests

/-! ### The load list -/

/-- A load whose successor has records to read ends: the successor begins. -/
theorem beginLoads_next {loads : List Load} (h : ∀ m, loads.head? = some m → m.count ≠ 0) (t : State) :
    beginLoads loads t = setLoads loads.head? loads.tail t := by
  cases loads with
  | nil => rfl
  | cons m more =>
    unfold beginLoads
    exact if_neg (h m rfl)

section Taking
variable {s u v : State} {l : Load} {tag : HostTag} {w : Work}

theorem loadNext_taken (hl : Loading l tag s) (h : readRecord l s = .ok v) : loadNext s =
    if l.taken + 1 = l.count then setLoads s.exch.loads.head? s.exch.loads.tail (complete l.slot .ok (l.taken + 1) 0 v)
    else setLoads (some { l with cursor := l.cursor + statedLength l s, taken := l.taken + 1 }) s.exch.loads v := by
  unfold loadNext
  rw [hl.reading]
  dsimp only
  rw [h]
  dsimp only
  rw [beginLoads_next hl.next]

theorem loadNext_refused {r : Result} (hl : Loading l tag s) (h : readRecord l s = .error r) : loadNext s =
    setLoads s.exch.loads.head? s.exch.loads.tail (complete l.slot r
      (halves l.taken (itemNumber l.kind l.cursor (min l.left (statedLength l s)) s)) l.cursor s) := by
  unfold loadNext
  rw [hl.reading]
  dsimp only
  rw [h]
  dsimp only
  rw [beginLoads_next hl.next]

/-- The port with another load list. -/
def withLoads (r : Option Load) (ls : List Load) (ih : Tbl HostTag) (s : State) : State :=
  { s with exch := { s.exch with reading := r, loads := ls, inHand := ih } }

/-- What a LOAD_RECORD leaves, by what its block has made of the machine: u, with the load list. -/
theorem load_finish {x : State} {r : Option Load} {ls : List Load} {ih : Tbl HostTag} (hx : loadNext s = x)
    (hb : body x = body { withLoads r ls ih u with work := w }) (hw : w.step = none)
    (shows : u.vis.queue = []) (orders : u.pts.queue = []) (stack : u.ilk.stack = []) :
    exec .loadRecord s = .next (finish s x) ∧ quietEnd x = true ∧ inside (finish s x) = inside (withLoads r ls ih u) ∧
      Own s (finish s x) := by
  have hquiet : quietEnd x = true := by
    refine quietEnd_of_empty x ?_ ((read_of_body (fun y => y.vis.queue) (fun _ => rfl) hb).trans shows)
      ((read_of_body (fun y => y.pts.queue) (fun _ => rfl) hb).trans orders)
      ((read_of_body (fun y => y.ilk.stack) (fun _ => rfl) hb).trans stack)
    rw [work_of_body hb]
    exact hw
  exact ⟨congrArg (fun y => Host.Outcome.next (finish s y)) hx, hquiet, (inside_finish _ _ hquiet).trans (inside_of_body_work hb),
    own_finish _ _ (hx ▸ own_loadNext _ (own_refl s))⟩

/-- A record that is taken. -/
theorem takes_of (hl : Loading l tag s) (h : readRecord l s = .ok v) (ho : Own s v) (hb : body v = body { u with work := w })
    (hw : w.step = none) (hexch : u.exch = s.exch) (shows : u.vis.queue = []) (orders : u.pts.queue = [])
    (stack : u.ilk.stack = []) : Takes l tag (statedLength l s) s u := by
  have hnext := loadNext_taken hl h
  have hhand : v.exch.inHand = s.exch.inHand :=
    (read_of_body (fun y => y.exch.inHand) (fun _ => rfl) hb).trans (congrArg Exchange.inHand hexch)
  have hmark : Tbl.find v.exch.inHand l.slot = some tag := by rw [hhand]; exact hl.mark
  have loadsOf_of {t : State} {r : Option Load} {ls : List Load} {ih : Tbl HostTag} (hin : inside t = inside (withLoads r ls ih u)) :
      inside t = inside (t.loadsOf u) ∧ t.exch.reading = r ∧ t.exch.loads = ls ∧ t.exch.inHand = ih := by
    have hread {α : Type} (g : State → α) (hg : ∀ y, g y = g (inside y)) := OrderEnds.read_of_inside g hg hin
    have hr : t.exch.reading = r := hread (fun y => y.exch.reading) fun _ => rfl
    have hls : t.exch.loads = ls := hread (fun y => y.exch.loads) fun _ => rfl
    have hih : t.exch.inHand = ih := hread (fun y => y.exch.inHand) fun _ => rfl
    refine ⟨hin.trans ?_, hr, hls, hih⟩
    unfold State.loadsOf
    rw [hr, hls, hih]
    rfl
  by_cases hlast : l.taken + 1 = l.count
  · rw [if_pos hlast] at hnext
    have hbody : body (setLoads s.exch.loads.head? s.exch.loads.tail (complete l.slot .ok (l.taken + 1) 0 v))
        = body { withLoads s.exch.loads.head? s.exch.loads.tail (Tbl.erase s.exch.inHand l.slot) u with work := w } := by
      refine (body_update (fun y => setLoads s.exch.loads.head? s.exch.loads.tail y) (fun _ => rfl)
        (body_completed .ok (l.taken + 1) 0 hl.slot hmark)).trans ?_
      rw [hhand]
      exact body_update (fun y => withLoads s.exch.loads.head? s.exch.loads.tail (Tbl.erase s.exch.inHand l.slot) y) (fun _ => rfl) hb
    obtain ⟨hexec, -, hin, hown⟩ := load_finish hnext hbody hw shows orders stack
    obtain ⟨hloads, hreading, hwaiting, -⟩ := loadsOf_of hin
    have hdone := slotDone_completed .ok (l.taken + 1) 0 hl.slot (ho.mem hl.sound.mem) hmark (by rw [hhand]; exact hl.marks)
    refine ⟨_, hexec, hloads, ⟨fun hne => absurd hlast hne, fun _ => ⟨?_, hreading, hwaiting⟩, memoryKept_of_own hown⟩⟩
    rw [← hlast]
    refine hdone.own hl.slot (own_finish _ _ ?_)
    exact own_setLoads _ _ _ (own_refl _)
  · rw [if_neg hlast] at hnext
    have hbody : body (setLoads (some { l with cursor := l.cursor + statedLength l s, taken := l.taken + 1 }) s.exch.loads v)
        = body { withLoads (some { l with cursor := l.cursor + statedLength l s, taken := l.taken + 1 }) s.exch.loads s.exch.inHand u
          with work := w } := by
      rw [← hexch]
      exact body_update (fun y => setLoads (some { l with cursor := l.cursor + statedLength l s, taken := l.taken + 1 }) u.exch.loads y)
        (fun _ => rfl) hb
    obtain ⟨hexec, -, hin, hown⟩ := load_finish hnext hbody hw shows orders stack
    obtain ⟨hloads, hreading, hwaiting, hmarks⟩ := loadsOf_of hin
    refine ⟨_, hexec, hloads, ⟨fun _ => ⟨hreading, hwaiting, ?_⟩, fun h => absurd h hlast, memoryKept_of_own hown⟩⟩
    rw [hmarks]
    exact hl.mark

/-- A record that ends the load. -/
theorem ends_of {r : Result} (hl : Loading l tag s) (h : readRecord l s = .error r) : EndsLoad l tag r s := by
  have hnext := loadNext_refused hl h
  have hbody : body (setLoads s.exch.loads.head? s.exch.loads.tail (complete l.slot r
      (halves l.taken (itemNumber l.kind l.cursor (min l.left (statedLength l s)) s)) l.cursor s))
      = body { withLoads s.exch.loads.head? s.exch.loads.tail (Tbl.erase s.exch.inHand l.slot) s with work := s.work } :=
    (body_update (fun y => setLoads s.exch.loads.head? s.exch.loads.tail y) (fun _ => rfl)
      (body_completed _ _ _ hl.slot hl.mark)).trans rfl
  obtain ⟨hexec, -, hin, hown⟩ := load_finish hnext hbody (by rw [hl.rest.work]; rfl) hl.rest.shows hl.rest.orders hl.rest.stack
  have hdone := slotDone_completed r (halves l.taken (itemNumber l.kind l.cursor (min l.left (statedLength l s)) s)) l.cursor hl.slot
    hl.sound.mem hl.mark hl.marks
  exact ⟨_, hexec, memoryKept_of_own hown, hdone.own hl.slot (own_finish _ _ (own_setLoads _ _ _ (own_refl _))), hin⟩

end Taking

/-! ### Refused records (R191, R200) -/

section Refused
variable {s : State} {l : Load}

theorem takeRecord_length {k : LoadKind} {a len : Nat} (h : countedLength k (fun j => s.read8 (a + j)) ≠ some len) :
    takeRecord k a len s = .error .invalidRecord := by
  unfold countedLength at h
  unfold takeRecord
  cases k with
  | sections =>
    dsimp only at h ⊢
    split
    · next h1 => rw [readSection_length fun e => h ((if_pos h1).trans (by rw [e]))]; rfl
    · next h2 => rw [readHead_length fun e => h ((if_neg (by rw [h2]; decide)).trans ((if_pos h2).trans (by rw [e])))]; rfl
    · rfl
  | points => dsimp only at h ⊢; rw [readPoint_length fun e => h (by rw [e])]; rfl
  | signals => dsimp only at h ⊢; rw [readSignal_length fun e => h (by rw [e])]; rfl
  | routes => dsimp only at h ⊢; rw [readRoute_length fun e => h (by rw [e])]; rfl
  | table =>
    dsimp only at h ⊢
    split
    · next h1 => rw [readDeck_length fun e => h ((if_pos h1).trans (by rw [e]))]; rfl
    · next h2 => rw [readRoad_length fun e => h ((if_neg (by rw [h2]; decide)).trans ((if_pos h2).trans (by rw [e])))]; rfl
    · rfl
  | shows => dsimp only at h ⊢; rw [readShow_length fun e => h (by rw [e])]
  | lamps => dsimp only at h ⊢; rw [readLamp_length fun e => h (by rw [e])]; rfl

theorem readRecord_refused (h : l.limit < l.cursor + 2 ∨ s.read16 l.cursor < 8 ∨ l.limit < l.cursor + s.read16 l.cursor ∨
    countedLength l.kind (fun k => s.read8 (l.cursor + k)) ≠ some (s.read16 l.cursor)) :
    readRecord l s = .error .invalidRecord := by
  unfold readRecord statedLength
  dsimp only
  by_cases h2 : 2 ≤ l.left
  · rw [if_pos h2]
    unfold Load.left at h2 ⊢
    by_cases hc : (decide (l.limit - l.cursor < s.read16 l.cursor) || decide (s.read16 l.cursor < 8)) = true
    · rw [if_pos hc]
    · rw [if_neg hc]
      simp only [Bool.or_eq_true, decide_eq_true_eq, not_or] at hc
      refine takeRecord_length ?_
      obtain h | h | h | h := h
      · omega
      · omega
      · omega
      · exact h
  · rw [if_neg h2, if_pos (by simp)]

/-- A record that fits in its load is offered to its block whole. -/
theorem readRecord_fits {bytes : List Nat} (h : s.read16 l.cursor = bytes.length) (h8 : 8 ≤ bytes.length)
    (hlimit : l.cursor + bytes.length ≤ l.limit) :
    readRecord l s = takeRecord l.kind l.cursor bytes.length s ∧ statedLength l s = bytes.length := by
  have hlen : statedLength l s = bytes.length := by
    unfold statedLength Load.left
    rw [if_pos (by omega), h]
  refine ⟨?_, hlen⟩
  unfold readRecord
  dsimp only
  rw [hlen]
  unfold Load.left
  exact if_neg (by simp only [Bool.or_eq_true, decide_eq_true_eq]; omega)

end Refused

/-! ### The records taken -/

theorem takes_congr {s u u' : State} {l : Load} {tag : HostTag} {len : Nat} (h : inside u = inside u') (ht : Takes l tag len s u) :
    Takes l tag len s u' := by
  obtain ⟨t, hexec, hin, htook⟩ := ht
  refine ⟨t, hexec, ?_, htook⟩
  calc inside t = inside (t.loadsOf (inside u)) := hin
    _ = inside (t.loadsOf (inside u')) := congrArg (fun y => inside (t.loadsOf y)) h
    _ = inside (t.loadsOf u') := rfl

section Bytes
variable {s u v : State} {l : Load} {tag : HostTag} {w : Work} {bytes : List Nat}

/-- The bytes of a record at the cursor make the block take it. -/
theorem takes_bytes (hl : Loading l tag s) (hlen : s.read16 l.cursor = bytes.length) (h8 : 8 ≤ bytes.length)
    (hlimit : l.cursor + bytes.length ≤ l.limit) (h : takeRecord l.kind l.cursor bytes.length s = .ok v)
    (hb : body v = body { u with work := w }) (hw : w.step = none) (hexch : u.exch = s.exch) (shows : u.vis.queue = [])
    (orders : u.pts.queue = []) (stack : u.ilk.stack = []) : Takes l tag bytes.length s u := by
  obtain ⟨hread, hstated⟩ := readRecord_fits hlen h8 hlimit
  rw [← hstated]
  exact takes_of hl (hread.trans h) (own_takeRecord _ _ _ _ _ (own_refl s) h) hb hw hexch shows orders stack

end Bytes

section Section
variable {s : State} {l : Load} {tag : HostTag}

theorem sectionBytes_length (full : Bool) (fill n : Nat) (r : SectionRec) :
    (sectionBytes full fill n r).length = 12 + 4 * r.neighbours.length := by
  unfold sectionBytes half
  have htail : (r.neighbours.flatMap neighbourBytes).length = 4 * r.neighbours.length := by
    rw [List.length_flatMap, List.map_congr_left (g := fun _ => 4) fun b _ => ?_, List.map_const', List.sum_replicate, smul_eq_mul,
      Nat.mul_comm]
    unfold neighbourBytes
    split <;> rfl
  simp only [List.length_append, htail, List.length_cons, List.length_nil]

theorem takes_section (hl : Loading l tag s) (hk : l.kind = .sections) {full : Bool} {fill n : Nat} {r : SectionRec}
    (hr : SectionFits n r) (h : Holds s l.cursor (sectionBytes full fill n r))
    (hlimit : l.cursor + (sectionBytes full fill n r).length ≤ l.limit) :
    Takes l tag (sectionBytes full fill n r).length s { s with occ := { s.occ with
      recs := Tbl.insert s.occ.recs n r, secs := Tbl.insert s.occ.secs n (occOf s n) } } := by
  have hlength := sectionBytes_length full fill n r
  have htype : s.read8 (l.cursor + 2) = 1 := h 2 _ rfl
  have htake : takeRecord l.kind l.cursor (sectionBytes full fill n r).length s = .ok (takeSection n r s) := by
    unfold takeRecord
    rw [hk, htype, hlength]
    dsimp only
    rw [readSection_eq hr h]
    rfl
  refine takes_bytes hl ?_ (by omega) hlimit htake (w := s.work) rfl (by rw [hl.rest.work]; rfl) rfl hl.rest.shows hl.rest.orders
    hl.rest.stack
  rw [hlength]
  exact holds_half (holds_append (holds_append h).1).1

theorem takes_head (hl : Loading l tag s) (hk : l.kind = .sections) {fill k : Nat} {a b : Option Nat} {invert : Bool}
    (hlow : k < 32) (hne : a ≠ b) (h : Holds s l.cursor (headBytes fill k a b invert))
    (hlimit : l.cursor + (headBytes fill k a b invert).length ≤ l.limit) :
    Takes l tag 8 s { s with occ := { s.occ with heads := Tbl.insert s.occ.heads k {
      aSide := a, bSide := b, invert := invert, phase := .waitIdle, totalAB := 0, totalBA := 0,
      suspect := ((Tbl.find s.occ.heads k).map Head.suspect).getD false } } } := by
  have htype : s.read8 (l.cursor + 2) = 2 := h 2 _ rfl
  have htake : takeRecord l.kind l.cursor 8 s = .ok (takeHead k {
      aSide := a, bSide := b, invert := invert, phase := .waitIdle, totalAB := 0, totalBA := 0, suspect := false } s) := by
    unfold takeRecord
    rw [hk, htype]
    dsimp only
    rw [readHead_eq hlow hne h]
    rfl
  refine takes_bytes (bytes := headBytes fill k a b invert) hl (holds_half (holds_append h).1) (Nat.le_refl 8) hlimit htake
    (w := s.work) ?_ (by rw [hl.rest.work]; rfl) rfl hl.rest.shows hl.rest.orders hl.rest.stack
  unfold takeHead
  dsimp only
  rw [body_mirrorHead]
  cases Tbl.find s.occ.heads k with
  | none => rfl
  | some x => rfl

end Section

section Others
variable {s : State} {l : Load} {tag : HostTag}

theorem poolInUse_kept (rs : Tbl RouteRec) (s : State) :
    body (writePool { s with ilk := { s.ilk with routes := rs } }) = body { s with ilk := { s.ilk with routes := rs } } :=
  body_write16 _ _ _

theorem routeBytes_length (fill n : Nat) (r : RouteRec) : (routeBytes fill n r).length =
    16 + 2 * (r.elements.length + r.flank.length + r.overlap.length + r.approach.length) := by
  unfold routeBytes half
  rw [List.length_append, List.length_append, List.length_append, List.length_append, length_flatMap_two r.elements length_elementBytes,
    length_flatMap_two r.flank fun _ => rfl, length_flatMap_two r.overlap fun _ => rfl, length_flatMap_two r.approach fun _ => rfl]
  simp only [List.length_append, List.length_cons, List.length_nil]
  omega

theorem route_offered (hk : l.kind = .routes) {fill n : Nat} {r : RouteRec} (hr : RouteFits n r)
    (h : Holds s l.cursor (routeBytes fill n r)) : takeRecord l.kind l.cursor (routeBytes fill n r).length s =
      if Config.poolEntries < poolInUse (Tbl.insert s.ilk.routes n r) then .error .invalidRecord
      else .ok (writePool { s with ilk := { s.ilk with routes := Tbl.insert s.ilk.routes n r } }) := by
  unfold takeRecord
  rw [hk, routeBytes_length]
  dsimp only
  rw [readRoute_eq hr h]
  change (match takeRoute n r s with
    | some t => Except.ok t
    | none => Except.error Result.invalidRecord) = _
  unfold takeRoute
  dsimp only
  by_cases hpool : Config.poolEntries < poolInUse (Tbl.insert s.ilk.routes n r)
  · rw [if_pos hpool, if_pos hpool]
  · rw [if_neg hpool, if_neg hpool]

theorem route_length {fill n : Nat} {r : RouteRec} (h : Holds s l.cursor (routeBytes fill n r)) :
    s.read16 l.cursor = (routeBytes fill n r).length ∧ 8 ≤ (routeBytes fill n r).length := by
  have hhead : Holds s l.cursor (half (16 + 2 * (r.elements.length + r.flank.length + r.overlap.length + r.approach.length))) := by
    unfold routeBytes at h
    simp only [List.append_assoc] at h
    exact (holds_append h).1
  rw [routeBytes_length]
  exact ⟨holds_half hhead, by omega⟩

theorem takes_route (hl : Loading l tag s) (hk : l.kind = .routes) {fill n : Nat} {r : RouteRec} (hr : RouteFits n r)
    (h : Holds s l.cursor (routeBytes fill n r)) (hlimit : l.cursor + (routeBytes fill n r).length ≤ l.limit)
    (hpool : poolInUse (Tbl.insert s.ilk.routes n r) ≤ Config.poolEntries) :
    Takes l tag (routeBytes fill n r).length s { s with ilk := { s.ilk with routes := Tbl.insert s.ilk.routes n r } } := by
  obtain ⟨hlen, h8⟩ := route_length h
  exact takes_bytes hl hlen h8 hlimit ((route_offered hk hr h).trans (if_neg (Nat.not_lt.2 hpool))) (w := s.work) (poolInUse_kept _ _)
    (by rw [hl.rest.work]; rfl) rfl hl.rest.shows hl.rest.orders hl.rest.stack

theorem ends_route (hl : Loading l tag s) (hk : l.kind = .routes) {fill n : Nat} {r : RouteRec} (hr : RouteFits n r)
    (h : Holds s l.cursor (routeBytes fill n r)) (hlimit : l.cursor + (routeBytes fill n r).length ≤ l.limit)
    (hpool : Config.poolEntries < poolInUse (Tbl.insert s.ilk.routes n r)) : EndsLoad l tag .invalidRecord s := by
  obtain ⟨hlen, h8⟩ := route_length h
  exact ends_of hl ((readRecord_fits hlen h8 hlimit).1.trans ((route_offered hk hr h).trans (if_pos hpool)))

/-- The lie that a loaded point without an order shows. -/
theorem derivedLie_loaded {p : Nat} {r : PointRec} {st : PointState} (hfailed : st.failed = none) (hassumed : st.assumed = none)
    (ho : orderOf s p = none) : derivedLie s p r st = match r.feedback with
      | .none => DetLie.lost
      | .pair a b => lieOfContacts (contactLevel s a) (contactLevel s b) := by
  cases hf : r.feedback with
  | none =>
    have hflight : pointInFlight s p = false := by unfold pointInFlight; rw [ho]
    unfold derivedLie
    rw [hfailed, hf, hflight, hassumed]
    rfl
  | pair a b => exact derivedLie_resting hf hfailed ho

theorem takePoint_eq {p : Nat} {r : PointRec} (orders : s.pts.queue = []) (overflow : s.pts.overflow = []) : takePoint p r s =
    { s with
      pts := { s.pts with
        recs := Tbl.insert s.pts.recs p r
        state := Tbl.insert s.pts.state p { failed := none, assumed := none, loss := none, lie := match r.feedback with
          | .none => DetLie.lost
          | .pair a b => lieOfContacts (contactLevel s a) (contactLevel s b) } }
      work := { s.work with lamps := true } } := by
  unfold takePoint
  dsimp only
  rw [setPoint_eq _ (Tbl.find_insert_self _ _ _), derivedLie_loaded rfl rfl ?_]
  · unfold withPoint
    dsimp only
    rw [insert_insert]
    rfl
  · unfold Machine.orderOf
    dsimp only
    rw [orders, overflow]
    rfl

theorem takes_point (hl : Loading l tag s) (hk : l.kind = .points) {full : Bool} {fill p : Nat} {r : PointRec} (hr : PointFits p r)
    (h : Holds s l.cursor (pointBytes full fill p r)) (hlimit : l.cursor + (pointBytes full fill p r).length ≤ l.limit) :
    Takes l tag 12 s { s with pts := { s.pts with
      recs := Tbl.insert s.pts.recs p r
      state := Tbl.insert s.pts.state p { failed := none, assumed := none, loss := none, lie := match r.feedback with
        | .none => DetLie.lost
        | .pair a b => lieOfContacts (contactLevel s a) (contactLevel s b) } } } := by
  have hlength : (pointBytes full fill p r).length = 12 := by
    unfold pointBytes half
    simp only [List.length_append, List.length_cons, List.length_nil]
    split <;> rfl
  have htake : takeRecord l.kind l.cursor 12 s = .ok (takePoint p r s) := by
    unfold takeRecord
    rw [hk]
    dsimp only
    rw [readPoint_eq hr h]
    rfl
  rw [hlength] at hlimit
  have hhalf : Holds s l.cursor (half 12) := by
    unfold pointBytes at h
    simp only [List.append_assoc] at h
    exact (holds_append h).1
  rw [← hlength]
  refine takes_bytes hl (by rw [hlength]; exact holds_half hhalf) (by omega) (by omega) (by rw [hlength]; exact htake)
    (w := { s.work with lamps := true }) ?_ (by rw [hl.rest.work]; rfl) rfl hl.rest.shows hl.rest.orders hl.rest.stack
  rw [takePoint_eq hl.rest.orders hl.rest.overflow]

end Others

/-! ### What a taken record leaves in the outputs -/

section Outputs
variable {s v : State} {l : Load} {tag : HostTag}

/-- The machine at the end of the block, where a record has been taken. -/
theorem loadRecord_exec (s : State) : exec .loadRecord s = .next (finish s (loadNext s)) := rfl

theorem body_loadNext (hl : Loading l tag s) (h : readRecord l s = .ok v) (hmark : v.exch.inHand = s.exch.inHand) :
    ∃ r ls ih, body (loadNext s) = body (withLoads r ls ih v) := by
  rw [loadNext_taken hl h]
  split
  · exact ⟨_, _, _, (body_update (fun y => setLoads s.exch.loads.head? s.exch.loads.tail y) (fun _ => rfl)
      (body_completed .ok (l.taken + 1) 0 hl.slot (by rw [hmark]; exact hl.mark))).trans rfl⟩
  · exact ⟨_, _, v.exch.inHand, rfl⟩

/-- Nothing waits where a record has been taken that leaves the queues and asks the runner for no step. -/
theorem quietEnd_loadNext (hl : Loading l tag s) (h : readRecord l s = .ok v) (hmark : v.exch.inHand = s.exch.inHand)
    (step : v.work.step = none) (shows : v.vis.queue = []) (orders : v.pts.queue = []) (stack : v.ilk.stack = []) :
    quietEnd (loadNext s) = true := by
  obtain ⟨r, ls, ih, hb⟩ := body_loadNext hl h hmark
  exact quietEnd_of_empty _ ((read_of_body (fun y => y.work.step) (fun _ => rfl) hb).trans step)
    ((read_of_body (fun y => y.vis.queue) (fun _ => rfl) hb).trans shows)
    ((read_of_body (fun y => y.pts.queue) (fun _ => rfl) hb).trans orders)
    ((read_of_body (fun y => y.ilk.stack) (fun _ => rfl) hb).trans stack)

theorem read8_loadNext (hl : Loading l tag s) (h : readRecord l s = .ok v) {a : Nat} (ha : ¬ inSlot l.slot a) :
    (loadNext s).read8 a = v.read8 a := by
  rw [loadNext_taken hl h]
  split
  · exact RequestIntake.read8_complete _ _ _ _ _ _ ha
  · rfl

end Outputs

section Signals
variable {s : State} {l : Load} {tag : HostTag} {fill x : Nat} {r : SignalRec}

theorem signal_offered (hk : l.kind = .signals) (hr : SignalFits x r) (h : Holds s l.cursor (signalBytes fill x r)) :
    takeRecord l.kind l.cursor 8 s = .ok (takeSignal x r s) := by
  unfold takeRecord
  rw [hk]
  dsimp only
  rw [readSignal_eq hr h]
  rfl

theorem signal_length (h : Holds s l.cursor (signalBytes fill x r)) : s.read16 l.cursor = (signalBytes fill x r).length :=
  holds_half (holds_append h).1

theorem takes_signal (hl : Loading l tag s) (hk : l.kind = .signals) (hr : SignalFits x r) (h : Holds s l.cursor (signalBytes fill x r))
    (hlimit : l.cursor + (signalBytes fill x r).length ≤ l.limit) :
    Takes l tag 8 s { s with asp := { s.asp with recs := Tbl.insert s.asp.recs x r } } := by
  have htook : Takes l tag 8 s (takeSignal x r s) :=
    takes_bytes (bytes := signalBytes fill x r) hl (signal_length h) (Nat.le_refl 8) hlimit (signal_offered hk hr h) (w := s.work) rfl
      (by rw [hl.rest.work]; rfl) rfl hl.rest.shows hl.rest.orders hl.rest.stack
  exact takes_congr rfl htook

theorem signal_rests (hl : Loading l tag s) (hk : l.kind = .signals) (hr : SignalFits x r) (h : Holds s l.cursor (signalBytes fill x r))
    (hlimit : l.cursor + (signalBytes fill x r).length ≤ l.limit) : ∃ t st, exec .loadRecord s = .next t ∧
      Tbl.find t.asp.state x = some st ∧
      (s.exch.runState = .configuring → st.aspect = if r.kind = .distant then .caution else .danger) := by
  have hread : readRecord l s = .ok (takeSignal x r s) :=
    (readRecord_fits (bytes := signalBytes fill x r) (signal_length h) (Nat.le_refl 8) hlimit).1.trans (signal_offered hk hr h)
  obtain ⟨_, _, _, hb⟩ := body_loadNext hl hread rfl
  have hwork : (loadNext s).work = Work.none := (work_of_body hb).trans hl.rest.work
  have hasp : (loadNext s).asp = (takeSignal x r s).asp := (asp_of_body hb).trans rfl
  have hquiet := quietEnd_loadNext hl hread rfl (by rw [show (takeSignal x r s).work = s.work from rfl, hl.rest.work]; rfl) hl.rest.shows
    hl.rest.orders hl.rest.stack
  obtain ⟨hstep, hhead, -, -⟩ := quietEnd_iff.1 hquiet
  have hfinish := AspectsTaken.finish_once s hstep hhead (by rw [hwork]; rfl) (by rw [hwork]; rfl)
  have hlast := AspectsTaken.asp_endHandling s _ hstep hhead
  have hend : (finish s (loadNext s)).asp = (endHandling s (loadNext s)).asp := by rw [hfinish]
  have hstill : (recomputeAspects (loadNext s)).asp = (loadNext s).asp := by
    unfold recomputeAspects
    rw [if_neg (by rw [hwork]; exact Bool.false_ne_true)]
  obtain ⟨st, hst, hrest⟩ : ∃ st, Tbl.find (takeSignal x r s).asp.state x = some st ∧ st.aspect = restAspect r :=
    ⟨_, Tbl.find_insert_self _ _ _, rfl⟩
  exact ⟨_, st, loadRecord_exec s, by rw [hend, hlast, hstill, hasp]; exact hst, fun _ => hrest⟩

end Signals

/-- The pool count of the header, where a route has been taken (R41). -/
theorem route_counted {s : State} {l : Load} {tag : HostTag} (hl : Loading l tag s) (hk : l.kind = .routes) {fill n : Nat} {r : RouteRec}
    (hr : RouteFits n r) (h : Holds s l.cursor (routeBytes fill n r)) (hlimit : l.cursor + (routeBytes fill n r).length ≤ l.limit)
    (hpool : poolInUse (Tbl.insert s.ilk.routes n r) ≤ Config.poolEntries) :
    ∃ t, exec .loadRecord s = .next t ∧ t.read16 0x22 = poolInUse (Tbl.insert s.ilk.routes n r) := by
  obtain ⟨hlen, h8⟩ := route_length h
  have hread := (readRecord_fits hlen h8 hlimit).1.trans ((route_offered hk hr h).trans (if_neg (Nat.not_lt.2 hpool)))
  generalize hv : writePool { s with ilk := { s.ilk with routes := Tbl.insert s.ilk.routes n r } } = v at hread
  have hbody : body v = body { s with ilk := { s.ilk with routes := Tbl.insert s.ilk.routes n r } } := by rw [← hv]; exact poolInUse_kept _ _
  have hquiet := quietEnd_loadNext hl hread ((read_of_body (fun y => y.exch.inHand) (fun _ => rfl) hbody).trans rfl)
    (by rw [work_of_body hbody, hl.rest.work]; rfl) ((read_of_body (fun y => y.vis.queue) (fun _ => rfl) hbody).trans hl.rest.shows)
    ((read_of_body (fun y => y.pts.queue) (fun _ => rfl) hbody).trans hl.rest.orders)
    ((read_of_body (fun y => y.ilk.stack) (fun _ => rfl) hbody).trans hl.rest.stack)
  have hbyte (a : Nat) (h1 : 0x10 ≤ a) (h2 : a < 0x100) : (finish s (loadNext s)).read8 a = v.read8 a :=
    ((header_finish s _ hquiet).read8 h1 h2).trans (read8_loadNext hl hread (by unfold inSlot slotAt Config.slotBase; omega))
  refine ⟨_, loadRecord_exec s, (read16_of_read8 (hbyte 0x22 (by decide) (by decide)) (hbyte 0x23 (by decide) (by decide))).trans ?_⟩
  rw [← hv]
  refine (read16_write16_self 0x22 _ _ hl.sound.mem (by decide)).trans (Nat.mod_eq_of_lt ?_)
  exact Nat.lt_of_le_of_lt hpool (by decide)

/-! ### The deck and its roads (R121, R122) -/

section Table
variable {s v : State} {l : Load} {tag : HostTag} {t : Turntable}

theorem deckOf_unreference (h : DeckOf s v t) : DeckOf s (unreference v) t.unreferenced := by
  have hset := h.setDeck fun t => { t.quiet with
    pos := none, align := none, target := none, fault := none, boltOut := false, requester := .none }
  unfold unreference
  dsimp only
  generalize setDeck _ v = u at hset
  have hstate : u.tt.state = t.state := by rw [hset.tt]; rfl
  rw [hstate]
  unfold Turntable.unreferenced
  by_cases hu : t.state = .unreferenced
  · rw [if_pos hu, if_pos hu, ← hu]
    exact hset
  · rw [if_neg hu, if_neg hu]
    exact hset.enterDeck (by decide)

/-- A record that changes the deck alone. -/
theorem takes_deckOf (hl : Loading l tag s) {bytes : List Nat} (hlen : s.read16 l.cursor = bytes.length) (h8 : 8 ≤ bytes.length)
    (hlimit : l.cursor + bytes.length ≤ l.limit) (h : takeRecord l.kind l.cursor bytes.length s = .ok v) (ht : DeckOf s v t) :
    Takes l tag bytes.length s { s with tt := t } := by
  obtain ⟨w, hw, hb⟩ := ht.alone
  exact takes_bytes hl hlen h8 hlimit h hb (by rw [hw, hl.rest.work]; rfl) rfl hl.rest.shows hl.rest.orders hl.rest.stack

theorem takes_deck (hl : Loading l tag s) (hk : l.kind = .table) {fill : Nat} {d : DeckRec} (hd : DeckFits d)
    (h : Holds s l.cursor (deckBytes fill d)) (hlimit : l.cursor + (deckBytes fill d).length ≤ l.limit) :
    Takes l tag 26 s { s with tt := { s.tt.unreferenced with deck := some d, roads := [], turns := 0 } } := by
  have htype : s.read8 (l.cursor + 2) = 1 := h 2 _ rfl
  have hlength : (deckBytes fill d).length = 26 := by
    unfold deckBytes half
    cases d.stop <;> rfl
  have hhalf : Holds s l.cursor (half 26) := by
    unfold deckBytes at h
    simp only [List.append_assoc] at h
    exact (holds_append h).1
  have htake : takeRecord l.kind l.cursor (deckBytes fill d).length s = .ok (takeDeck d s) := by
    unfold takeRecord
    rw [hk, htype, hlength]
    dsimp only
    rw [readDeck_eq hd h]
    rfl
  rw [← hlength]
  exact takes_deckOf hl (by rw [hlength]; exact holds_half hhalf) (by omega) hlimit htake
    (deckOf_unreference ((DeckOf.refl s).setDeck fun t => { t with deck := some d, roads := [], turns := 0, pos := none }))

theorem takes_road (hl : Loading l tag s) (hk : l.kind = .table) {d : DeckRec} {n : Nat} {q : Road} (hd : s.tt.deck = some d) (hn : n < 36)
    (hp : q.position < d.c) (hsec : q.sec ≠ d.sec) (hfree : ∀ x ∈ s.tt.roads, x.1 ≠ n → x.2.position ≠ q.position)
    (h : Holds s l.cursor (roadBytes n q)) (hlimit : l.cursor + (roadBytes n q).length ≤ l.limit) :
    Takes l tag 8 s { s with tt := { s.tt.unreferenced with roads := Tbl.insert s.tt.roads n q } } := by
  have htype : s.read8 (l.cursor + 2) = 2 := h 2 _ rfl
  have hhalf : Holds s l.cursor (half 8) := by
    unfold roadBytes at h
    simp only [List.append_assoc] at h
    exact (holds_append h).1
  have htake : takeRecord l.kind l.cursor 8 s = .ok (takeRoad n q s) := by
    unfold takeRecord
    rw [hk, htype]
    dsimp only
    rw [readRoad_eq hd hn hp hsec hfree h]
    rfl
  exact takes_deckOf (bytes := roadBytes n q) hl (holds_half hhalf) (Nat.le_refl 8) hlimit htake
    (deckOf_unreference ((DeckOf.refl s).setDeck fun t => { t with roads := Tbl.insert t.roads n q }))

end Table

/-! ### Shows and lamps (R157, R174) -/

section Show
variable {s : State} {l : Load} {tag : HostTag} {n : Nat} {w : ShowRec}

theorem showBytes_length (n : Nat) (w : ShowRec) : (showBytes n w).length = 10 + 6 * w.steps.length := by
  have htail : (w.steps.flatMap stepBytes).length = 6 * w.steps.length := by
    rw [List.length_flatMap, List.map_congr_left (g := fun _ => 6) fun x _ => by cases x <;> rfl]
    simp [Nat.mul_comm]
  unfold showBytes half
  simp only [List.length_append, htail, List.length_cons, List.length_nil]

theorem show_offered (hk : l.kind = .shows) (hw : ShowFits n w)
    (hfree : ∀ x ∈ s.vis.shows, x.1 ≠ n → w.button = none ∨ x.2.button ≠ w.button) (hrest : AtRest s)
    (h : Holds s l.cursor (showBytes n w)) : takeRecord l.kind l.cursor (showBytes n w).length s =
      if s.vis.runner.map Runner.show_ = some n then .error .showBusy
      else .ok (setVisitors (fun v => { v with shows := Tbl.insert v.shows n w }) s) := by
  have hqueued : isQueued s n = false := by unfold isQueued; rw [hrest.shows]; rfl
  unfold takeRecord
  rw [hk, showBytes_length]
  dsimp only
  rw [readShow_eq hw hfree h]
  dsimp only
  unfold takeShowRecord
  rw [hqueued, Bool.or_false]
  by_cases hrun : s.vis.runner.map Runner.show_ = some n
  · rw [if_pos hrun, if_pos ((PanelAndLamps.isRunning_iff s n).2 hrun)]
  · rw [if_neg hrun, if_neg (fun e => hrun ((PanelAndLamps.isRunning_iff s n).1 e))]

theorem show_length (h : Holds s l.cursor (showBytes n w)) :
    s.read16 l.cursor = (showBytes n w).length ∧ 8 ≤ (showBytes n w).length := by
  have hhalf : Holds s l.cursor (half (10 + 6 * w.steps.length)) := by
    unfold showBytes at h
    simp only [List.append_assoc] at h
    exact (holds_append h).1
  rw [showBytes_length]
  exact ⟨holds_half hhalf, by omega⟩

theorem takes_show (hl : Loading l tag s) (hk : l.kind = .shows) (hw : ShowFits n w)
    (hfree : ∀ x ∈ s.vis.shows, x.1 ≠ n → w.button = none ∨ x.2.button ≠ w.button) (h : Holds s l.cursor (showBytes n w))
    (hlimit : l.cursor + (showBytes n w).length ≤ l.limit) (hrun : s.vis.runner.map Runner.show_ ≠ some n) :
    Takes l tag (showBytes n w).length s { s with vis := { s.vis with shows := Tbl.insert s.vis.shows n w } } := by
  obtain ⟨hlen, h8⟩ := show_length h
  have htake := (show_offered hk hw hfree hl.rest h).trans (if_neg hrun)
  exact takes_bytes hl hlen h8 hlimit htake (w := s.work) rfl (by rw [hl.rest.work]; rfl) rfl hl.rest.shows hl.rest.orders hl.rest.stack

theorem ends_show (hl : Loading l tag s) (hk : l.kind = .shows) (hw : ShowFits n w)
    (hfree : ∀ x ∈ s.vis.shows, x.1 ≠ n → w.button = none ∨ x.2.button ≠ w.button) (h : Holds s l.cursor (showBytes n w))
    (hlimit : l.cursor + (showBytes n w).length ≤ l.limit) (hrun : s.vis.runner.map Runner.show_ = some n) :
    EndsLoad l tag .showBusy s := by
  obtain ⟨hlen, h8⟩ := show_length h
  exact ends_of hl ((readRecord_fits hlen h8 hlimit).1.trans ((show_offered hk hw hfree hl.rest h).trans (if_pos hrun)))

end Show

section Lamp
variable {s : State} {l : Load} {tag : HostTag}

theorem takes_lamp (hl : Loading l tag s) (hk : l.kind = .lamps) {fill i : Nat} {b : Lamp} (hb : LampFits i b)
    (h : Holds s l.cursor (lampBytes fill i b)) (hlimit : l.cursor + (lampBytes fill i b).length ≤ l.limit) :
    Takes l tag 10 s { s with disp := { s.disp with bind := Tbl.insert s.disp.bind i b } } := by
  have hhalf : Holds s l.cursor (half 10) := by
    unfold lampBytes at h
    simp only [List.append_assoc] at h
    exact (holds_append h).1
  have htake : takeRecord l.kind l.cursor 10 s = .ok (takeLamp i b s) := by
    unfold takeRecord
    rw [hk]
    dsimp only
    rw [readLamp_eq hb h]
    rfl
  refine takes_bytes (bytes := lampBytes fill i b) hl (holds_half hhalf) (by change 8 ≤ 10; decide) hlimit htake
    (w := { s.work with lamps := true }) ?_ (by rw [hl.rest.work]; rfl) rfl hl.rest.shows hl.rest.orders hl.rest.stack
  unfold takeLamp
  dsimp only
  split
  · rw [body_mirrorLampWord]
  · rfl

end Lamp

/-- With no load reading the command changes nothing (log 57). -/
theorem idle_load {s : State} (hr : AtRest s) (h : s.exch.reading = none) : Makes .loadRecord s s := by
  have hnext : loadNext s = s := by unfold loadNext; rw [h]
  have hexec : exec .loadRecord s = .next (finish s s) := (loadRecord_exec s).trans (by rw [hnext])
  exact makes_rest hexec hr (own_refl s) rfl rfl rfl

/-- Settles O57: each record's bytes are read as the item they spell, its block takes the item, and the load list goes on. -/
theorem loadRecordTakesOneRecord : Obligations.LoadRecordTakesOneRecord := by
  refine ⟨fun s hr h => idle_load hr h, fun s l tag hl => ?_⟩
  dsimp only
  exact ⟨fun h => ends_of hl (readRecord_refused h),
    fun hk full fill n r hr h => takes_section hl hk hr h.1 h.2,
    fun hk fill k a b invert hlow hne h => takes_head hl hk hlow hne h.1 h.2,
    fun hk fill n r hr h => ⟨fun hpool => ⟨takes_route hl hk hr h.1 h.2 hpool, route_counted hl hk hr h.1 h.2 hpool⟩,
      ends_route hl hk hr h.1 h.2⟩,
    fun hk full fill p r hr h => takes_point hl hk hr h.1 h.2,
    fun hk fill x r hr h => ⟨takes_signal hl hk hr h.1 h.2, signal_rests hl hk hr h.1 h.2⟩,
    fun hk fill d hd h => takes_deck hl hk hd h.1 h.2,
    fun hk d n q hd hn hp hsec hfree h => takes_road hl hk hd hn hp hsec hfree h.1 h.2,
    fun hk n w hw h hfree => ⟨ends_show hl hk hw hfree h.1 h.2, takes_show hl hk hw hfree h.1 h.2⟩,
    fun hk fill i b hb h => takes_lamp hl hk hb h.1 h.2⟩

end Sys2Proof.RecordsLoaded
end

