-- ==== Sys2Proof/Proofs/FreshBlocks.lean ====
section
/-! What START and a layout reset make of the blocks: each part of them said once, with all that the mirrors, the aspects, the
lamps and the points' own states show left out. The run state's word of the header stands through both. -/

namespace Sys2Proof.FreshBlocks

open Sys2Proof.Machine Sys2Proof.ReportLog Sys2Proof.QuietHeader Sys2Proof.TrackRequests Sys2Proof.RouteRelease
  Sys2Proof.PointLies Sys2Proof.SlotBytes Sys2Proof.LayoutStop

/-! ### The run state's word (12.1) -/

/-- The two bytes of the header's run state stand. -/
def WordKept (s t : State) : Prop := ∀ a, 0x16 ≤ a → a < 0x18 → t.read8 a = s.read8 a

theorem WordKept.refl (s : State) : WordKept s s := fun _ _ _ => rfl

theorem WordKept.trans {s t u : State} (h1 : WordKept s t) (h2 : WordKept t u) : WordKept s u :=
  fun a h0 h => (h2 a h0 h).trans (h1 a h0 h)

theorem WordKept.read16 {s t : State} (h : WordKept s t) : t.read16 0x16 = s.read16 0x16 :=
  read16_of_read8 (h 0x16 (by decide) (by decide)) (h 0x17 (by decide) (by decide))

theorem word_of_mem {s t : State} (h : t.exch.mem = s.exch.mem) : WordKept s t := fun a _ _ => by unfold State.read8; rw [h]

theorem WordKept.from {s u t : State} (h : WordKept u t) (he : u.exch.mem = s.exch.mem) : WordKept s t :=
  (word_of_mem he).trans h

theorem word_of_header {s t : State} (h : HeaderKept s t) : WordKept s t := fun _ h0 h1 => h.read8 (by omega) (by omega)

theorem word_write8 (x v : Nat) (s : State) (h : x < 0x16 ∨ 0x18 ≤ x) : WordKept s (s.write8 x v) :=
  fun _ _ _ => read8_write8_other _ _ _ _ (by omega)

theorem word_write16 (x v : Nat) (s : State) (h : x + 1 < 0x16 ∨ 0x18 ≤ x) : WordKept s (s.write16 x v) :=
  fun _ _ _ => read8_write16_other _ _ _ _ (by omega)

theorem word_eachDo (l : List Nat) (f : Nat → State → State) (h : ∀ n t, WordKept t (f n t)) (s : State) :
    WordKept s (eachDo l f s) := by
  unfold eachDo
  induction l generalizing s with
  | nil => exact WordKept.refl s
  | cons n l ih => exact (h n s).trans (ih (f n s))

section Words
variable (s : State) (n k x v1 v2 : Nat)

theorem word_report (r : ReportKind) : WordKept s (report r x v1 v2 s) := word_of_header (header_report r x v1 v2 s)

theorem word_mirrorSection : WordKept s (mirrorSection n s) := by
  unfold mirrorSection
  split
  · exact WordKept.refl s
  · split
    · exact word_of_header (header_writeWord _ _ _ _ s (by decide))
    · exact WordKept.refl s

theorem word_mirrorTag : WordKept s (mirrorTag n s) := word_of_header (header_writeWord _ _ _ _ s (by decide))

theorem word_mirrorActive : WordKept s (mirrorActive n s) := word_of_header (header_writeWord _ _ _ _ s (by decide))

theorem word_mirrorPointNow : WordKept s (mirrorPointNow n s) := by
  unfold mirrorPointNow
  split
  · exact WordKept.refl s
  · exact word_of_header (header_writeWord _ _ _ _ s (by decide))

theorem word_mirrorSignalNow : WordKept s (mirrorSignalNow n s) := by
  unfold mirrorSignalNow
  split
  · exact word_of_header (header_writeWord _ _ _ _ s (by decide))
  · exact WordKept.refl s

theorem word_mirrorStackFrom : WordKept s (mirrorStackFrom n k s) := by
  induction n generalizing k s with
  | zero => exact WordKept.refl s
  | succ n ih => exact (word_of_header (header_writeWord Config.stackMirror Config.numStack k _ s (by decide))).trans (ih _ _)

theorem word_setStack (l : List StackEntry) : WordKept s (setStack l s) :=
  (word_mirrorStackFrom { s with ilk := { s.ilk with stack := l } } Config.numStack 0).from rfl

theorem word_mirrorTable : WordKept s (mirrorTable s) := by
  have h (word : Nat → Nat) : WordKept s (writeTable word s) :=
    word_eachDo _ _ (fun k t => word_of_header (header_writeWord Config.tableMirror 16 k (word k) t (by decide))) s
  unfold mirrorTable
  cases s.tt.deck with
  | none => exact h _
  | some d => exact h _

theorem word_setDeck (f : Turntable → Turntable) : WordKept s (setDeck f s) :=
  (word_mirrorTable { s with tt := f s.tt, work := { s.work with lamps := true } }).from rfl

theorem word_mirrorLamps : WordKept s (mirrorLamps n s) := by
  induction n with
  | zero => exact WordKept.refl s
  | succ n ih => exact ih.trans (word_of_header (header_writeWord _ _ _ _ _ (by decide)))

theorem word_mirrorVisitor : WordKept s (mirrorVisitor s) :=
  word_eachDo _ _ (fun k t => word_of_header (header_writeWord Config.visitorMirror 16 k _ t (by decide))) s

theorem word_settleButtons : WordKept s (settleButtons s) :=
  word_eachDo (List.range 18) settleButton (fun b t => word_of_mem (t := settleButton b t) rfl) s

theorem word_setPower (b : Bool) : WordKept s (setPower b s) :=
  (word_write8 0x1D (bit b 0) { s with asp := { s.asp with power := b } } (by decide)).from rfl

theorem word_setRunCondition (c : RunCondition) (cause : Option StopCause) : WordKept s (setRunCondition c cause s) := by
  unfold setRunCondition
  refine WordKept.from (u := { s with asp := { s.asp with cond := c, cause := cause } }) ?_ rfl
  exact ((word_write8 0x18 _ _ (by decide)).trans (word_write8 0x19 _ _ (by decide))).trans (word_write16 0x1A _ _ (by decide))

theorem word_complete (r : Result) (w0 w1 : Nat) : WordKept s (complete n r w0 w1 s) :=
  fun a _ _ => RequestIntake.read8_complete n r w0 w1 s a (by unfold inSlot slotAt Config.slotBase; omega)

theorem word_finish (b : State) (h : quietEnd s = true) : WordKept s (finish b s) := word_of_header (header_finish b s h)

theorem word_setTag (v : Tag) : WordKept s (setTag n v s) := (word_mirrorTag _ n).from rfl

theorem word_setTagField (g : Option Nat) : WordKept s (setTagField n g s) := (word_mirrorSection _ n).from rfl

theorem word_takeTag : WordKept s (takeTag n k s) := (word_setTag s k _).trans (word_setTagField _ n (some k))

theorem word_arrive : WordKept s (arrive n s).1 := by
  unfold arrive
  dsimp only
  split
  · exact word_takeTag s n _
  · split
    · unfold reclaimOrAllocate
      split
      · exact (word_takeTag s n _).trans (word_report _ _ _ _ _)
      · split
        · exact ((word_setTag s _ _).trans (word_takeTag _ n _)).trans (word_report _ _ _ _ _)
        · exact word_report s _ _ _ _
    · exact word_takeTag s n _
    · exact word_report s _ _ _ _

theorem word_freshPoint : WordKept s (freshPoint n s) := by
  unfold freshPoint
  cases Tbl.find s.pts.recs n with
  | none => exact WordKept.refl s
  | some r => exact (word_mirrorPointNow _ n).from rfl

theorem word_restSignal : WordKept s (restSignal n s) := by
  unfold restSignal
  cases Tbl.find s.asp.recs n with
  | none => exact WordKept.refl s
  | some r => exact (word_mirrorSignalNow _ n).from rfl

theorem word_updateFeed : WordKept s (updateFeed s) := word_setDeck s _

theorem word_mirrorTags : WordKept s (mirrorTags s) := word_eachDo _ _ (fun k t => word_mirrorTag t k) s

theorem word_mirrorActives : WordKept s (mirrorActives s) := word_eachDo _ _ (fun k t => word_mirrorActive t k) s

theorem word_settleLamps : WordKept s (settleLamps s) := word_of_header (header_settleLamps s)

variable {s} in
/-- An entry into ALL STOP that finds no route and a deck that gives nothing up. -/
theorem word_enterAllStop {c : StopCause} (hc : s.asp.cond = .running) (hstep : s.work.step = none) (hrun : s.vis.runner = none)
    (hroutes : s.ilk.active = []) (hg : s.tt.state.givesUp = false) : WordKept s (enterAllStop c s) := by
  have hread {α : Type} (g : State → α) (hg : ∀ y, g y = g (body y)) := read_of_body g hg (body_stopEntered c s)
  have hnone : routesAllStop (stopEntered c s) = stopEntered c s :=
    routesAllStop_none ((hread (fun y => y.ilk.active) fun _ => rfl).trans hroutes)
  have hdeck : deckAllStop (stopEntered c s) = updateFeed (stopEntered c s) := by
    unfold deckAllStop
    exact if_neg (by rw [hread (fun y => y.tt.state.givesUp) fun _ => rfl]; change ¬ s.tt.state.givesUp = true; rw [hg]; decide)
  have hfed := body_setDeck (fun t => { t with feed := feedOn (stopEntered c s) }) (stopEntered c s)
  rw [enterAllStop_eq hc rfl, hnone, hdeck]
  · have hentered : WordKept s (stopEntered c s) :=
      ((word_setRunCondition s _ _).trans (word_setPower _ _)).trans (word_report _ _ _ _ _)
    exact (hentered.trans (word_updateFeed _)).trans (word_of_mem rfl)
  · rw [hnone, hdeck]
    exact (read_of_body (fun y => y.work.step) (fun _ => rfl) hfed).trans ((hread (fun y => y.work.step) fun _ => rfl).trans hstep)
  · rw [hnone, hdeck]
    exact (read_of_body (fun y => y.vis.runner) (fun _ => rfl) hfed).trans ((hread (fun y => y.vis.runner) fun _ => rfl).trans hrun)

/-- The run state's word as it is set. -/
theorem word_setRunState {s : State} (r : RunState) (hm : s.memOk) : (setRunState r s).read16 0x16 = r.code := by
  refine (read16_write16_self 0x16 r.code { s with exch := { s.exch with runState := r } } hm (by decide)).trans ?_
  cases r <;> rfl

end Words

/-- A request answered last in its block leaves the run state's word as the block left it. -/
theorem answered_word {c : Instr} {s u v : State} {q : Request} {r : Result} {w0 w1 : Nat} {al : Allowed}
    {f : Nat → State → State} {rs : RunState} (e : exec c s = .next (requestCommand al f q s)) (h : Ready rs s)
    (hal : al.ok rs = true) (hrs : rs ≠ .initializing) (hf : f s.exch.takePos (taken q s) = complete s.exch.takePos r w0 w1 v)
    (ho : Own (taken q s) v) (hv : inside v = inside (u.inHand q.tag).served) (htake : u.exch.takePos = s.exch.takePos)
    (hmark : Tbl.find u.exch.inHand s.exch.takePos = none) (hq : quietEnd v = true) :
    ∃ t, exec c s = .next t ∧ SlotDone s.exch.takePos q.tag r w0 w1 t ∧ inside t = inside u.served ∧
      MemoryKept (some s.exch.takePos) s t ∧ Own v t ∧ t.read16 0x16 = v.read16 0x16 := by
  obtain ⟨t, hexec, hdone, hin, hmem, hown⟩ := answered_next e h hal hrs hf ho hv htake hmark hq
  have ht : t = finish s (complete s.exch.takePos r w0 w1 v) := by
    rw [e, request_next h hal hrs, hf] at hexec
    exact (Host.Outcome.next.inj hexec).symm
  have hfind : (Tbl.find v.exch.inHand s.exch.takePos).isSome := by
    have hmarks : v.exch.inHand = (u.inHand q.tag).served.exch.inHand :=
      OrderEnds.read_of_inside (fun y => y.exch.inHand) (fun _ => rfl) hv
    rw [hmarks, ← htake]
    exact congrArg Option.isSome (Tbl.find_insert_self _ _ _)
  refine ⟨t, hexec, hdone, hin, hmem, hown, ?_⟩
  rw [ht]
  exact ((word_complete v _ _ _ _).trans (word_finish _ s
    ((quietEnd_complete _ _ _ _ _ h.sound.limits.takePos hfind).trans hq))).read16

/-! ### What stands inside, the points' own states left out -/

/-- A state with its outputs and the points' states blanked, and of the work the runner's step alone. -/
def stem (s : State) : State :=
  { calm s with pts := { s.pts with state := [] }, work := { Work.none with step := s.work.step } }

theorem stem_of_calm {s t : State} (h : calm s = calm t) : stem s = stem t :=
  congrArg (fun y : State => ({ y with pts := { y.pts with state := [] }, work := { Work.none with step := y.work.step } } : State)) h

theorem stem_of_body {s t : State} (h : body s = body t) : stem s = stem t := stem_of_calm (calm_of_body h)

theorem read_of_stem {α : Type} {s t : State} (g : State → α) (hg : ∀ y, g y = g (stem y)) (h : stem s = stem t) : g s = g t :=
  (hg s).trans ((congrArg g h).trans (hg t).symm)

theorem stem_update {s t : State} (g : State → State) (hg : ∀ y, stem (g y) = stem (g (stem y))) (h : stem s = stem t) :
    stem (g s) = stem (g t) := (hg s).trans ((congrArg (fun y => stem (g y)) h).trans (hg t).symm)

theorem read_eachDo {α : Type} (g : State → α) (l : List Nat) (f : Nat → State → State) (h : ∀ n t, g (f n t) = g t) (s : State) :
    g (eachDo l f s) = g s := by
  unfold eachDo
  induction l generalizing s with
  | nil => rfl
  | cons n l ih => exact (ih (f n s)).trans (h n s)

section Stems
variable (s : State)

theorem stem_mirrorTags : stem (mirrorTags s) = stem s := stem_of_body (body_eachDo _ _ s body_mirrorTag)

theorem stem_mirrorActives : stem (mirrorActives s) = stem s := stem_of_body (body_eachDo _ _ s body_mirrorActive)

theorem stem_mirrorVisitor : stem (mirrorVisitor s) = stem s :=
  stem_of_body (body_eachDo _ _ s fun k t => body_writeWord _ _ k _ t)

theorem stem_mirrorLamps (n : Nat) : stem (mirrorLamps n s) = stem s := by
  induction n with
  | zero => rfl
  | succ n ih => exact (stem_of_body (body_mirrorLampWord n _)).trans ih

theorem stem_settleLamps : stem (settleLamps s) = stem s := stem_of_calm (calm_settleLamps s)

theorem stem_settleButtons : stem (settleButtons s) = stem s := stem_of_calm (calm_settleButtons s)

theorem stem_reportLayout (c i : Nat) : stem (reportLayout c i s) = stem s := stem_of_body (body_report _ _ _ _ _)

theorem stem_setRunState (r : RunState) : stem (setRunState r s) = stem { s with exch := { s.exch with runState := r } } :=
  stem_of_body (body_write16 _ _ _)

theorem stem_setDeck (f : Turntable → Turntable) : stem (setDeck f s) = stem { s with tt := f s.tt } :=
  (stem_of_body (body_setDeck f s)).trans rfl

theorem stem_updateFeed : stem (updateFeed s) = stem { s with tt := { s.tt with feed := feedOn s } } :=
  stem_setDeck s fun t => { t with feed := feedOn s }

theorem stem_setPower (b : Bool) : stem (setPower b s) = stem { s with asp := { s.asp with power := b } } :=
  stem_of_body (body_setPower b s)

theorem stem_setRunCondition (c : RunCondition) (cause : Option StopCause) :
    stem (setRunCondition c cause s) = stem { s with asp := { s.asp with cond := c, cause := cause } } :=
  stem_of_body (body_setRunCondition c cause s)

theorem stem_setPoint (p : Nat) (f : PointState → PointState) : stem (setPoint p f s) = stem s := rfl

theorem stem_freshPoint (p : Nat) : stem (freshPoint p s) = stem s := by
  unfold freshPoint
  cases Tbl.find s.pts.recs p with
  | none => rfl
  | some r => exact (stem_of_body (body_mirrorPointNow p _)).trans rfl

theorem stem_restSignal (x : Nat) : stem (restSignal x s) = stem s := by
  unfold restSignal
  cases Tbl.find s.asp.recs x with
  | none => rfl
  | some r => exact (stem_of_body (body_mirrorSignalNow x _)).trans rfl

/-- The rest of the stack and of the active route table: both emptied, with their mirrors (R61, R87). -/
theorem stem_setStack (l : List StackEntry) : stem (setStack l s) = stem { s with ilk := { s.ilk with stack := l } } :=
  stem_of_body (body_mirrorStack _)

end Stems

end Sys2Proof.FreshBlocks
end

