-- ==== Sys2Proof/Proofs/LayoutStart.lean ====
section
/-! START: its checks in their order, and the blocks taken afresh (O59). -/

namespace Sys2Proof.LayoutStart

open Sys2Proof.Machine Sys2Proof.ReportLog Sys2Proof.QuietHeader Sys2Proof.TrackRequests Sys2Proof.RouteRelease
  Sys2Proof.PointLies Sys2Proof.SlotBytes Sys2Proof.LayoutStop Sys2Proof.FreshBlocks

/-! ### The checks in their order (R193) -/

section Checks
variable (s : State)

/-- The number of the first failing item, as an item of its kind. -/
theorem fault_none {α : Type} {t : Tbl α} {bad : Nat → α → Bool} {p : Nat × α → Prop} (k : ItemKind)
    (hp : ∀ x, bad x.1 x.2 = true ↔ p x) (h : ∀ x ∈ t, ¬ p x) (rest : Option (ItemKind × Nat)) :
    ((firstFailing t bad).map fun n => (k, n)).or rest = rest := by
  rw [firstFailing_none hp h]
  rfl

theorem fault_first {α : Type} {t : Tbl α} {bad : Nat → α → Bool} {p : Nat × α → Prop} (k : ItemKind)
    (hp : ∀ x, bad x.1 x.2 = true ↔ p x) {x : Nat × α} (h : FirstWith p t x) (rest : Option (ItemKind × Nat)) :
    ((firstFailing t bad).map fun n => (k, n)).or rest = some (k, x.1) := by
  rw [firstFailing_first hp h]
  rfl

/-- The deck, or its record's section, is at fault (R123). -/
def deckless (d : DeckRec) : Prop := Tbl.find s.occ.recs d.sec = none ∨ s.tt.roads = []

def roadless (x : Nat × Road) : Prop := Tbl.find s.occ.recs x.2.sec = none

theorem roadless_iff (x : Nat × Road) : (!secLoaded s x.2.sec) = true ↔ roadless s x := by
  rw [Bool.not_eq_true', secLoaded_eq_false]
  rfl

theorem tableFails_deck {d : DeckRec} (hd : s.tt.deck = some d) (h : deckless s d) : tableFails s = some (.table, 0) := by
  unfold tableFails
  rw [hd]
  refine if_pos ?_
  rw [Bool.or_eq_true, Bool.not_eq_true', secLoaded_eq_false, List.isEmpty_iff]
  exact h

theorem tableFails_roads {d : DeckRec} (hd : s.tt.deck = some d) (h : ¬ deckless s d) :
    tableFails s = (firstFailing s.tt.roads fun _ r => !secLoaded s r.sec).map fun n => (.road, n) := by
  unfold tableFails
  rw [hd]
  refine if_neg ?_
  rw [Bool.or_eq_true, Bool.not_eq_true', secLoaded_eq_false, List.isEmpty_iff]
  exact h

theorem tableFails_none (h : ∀ d, s.tt.deck = some d → ¬ deckless s d ∧ ∀ x ∈ s.tt.roads, ¬ roadless s x) : tableFails s = none := by
  cases hd : s.tt.deck with
  | none => unfold tableFails; rw [hd]
  | some d =>
    obtain ⟨hdeck, hroads⟩ := h d hd
    rw [tableFails_roads s hd hdeck, firstFailing_none (roadless_iff s) hroads]
    rfl

/-- The checks behind the first of a section (R2). -/
def faultHeads : Option (ItemKind × Nat) :=
  ((firstFailing s.occ.heads (headFails s)).map fun n => (.head, n)).or <|
  ((firstFailing s.occ.recs (neighboursFail s)).map fun n => (.sec, n)).or <|
  ((firstFailing s.pts.recs (pointFails s)).map fun n => (.point, n)).or <|
  ((firstFailing s.asp.recs (signalFails s)).map fun n => (.signal, n)).or <|
  (tableFails s).or <|
  (firstFailing s.ilk.routes (routeFails s)).map fun n => (.route, n)

theorem configFault_eq : configFault s = ((firstFailing s.occ.recs (sectionFails s)).map fun n => (.sec, n)).or (faultHeads s) := rfl

section Passed
variable {s}
variable (c1 : ∀ x ∈ s.occ.recs, ¬ badSection s x)
include c1

theorem fault_head {x : Nat × Head} (h : FirstWith (badHead s) s.occ.heads x) : configFault s = some (.head, x.1) := by
  rw [configFault_eq, fault_none _ (sectionFails_iff s) c1]
  exact fault_first _ (headFails_iff s) h _

variable (c2 : ∀ x ∈ s.occ.heads, ¬ badHead s x)
include c2

theorem fault_neighbours {x : Nat × SectionRec} (h : FirstWith (badNeighbours s) s.occ.recs x) :
    configFault s = some (.sec, x.1) := by
  rw [configFault_eq, fault_none _ (sectionFails_iff s) c1, faultHeads, fault_none _ (headFails_iff s) c2]
  exact fault_first _ (neighboursFail_iff s) h _

variable (c3 : ∀ x ∈ s.occ.recs, ¬ badNeighbours s x)
include c3

theorem fault_point {x : Nat × PointRec} (h : FirstWith (badPoint s) s.pts.recs x) : configFault s = some (.point, x.1) := by
  rw [configFault_eq, fault_none _ (sectionFails_iff s) c1, faultHeads, fault_none _ (headFails_iff s) c2,
    fault_none _ (neighboursFail_iff s) c3]
  exact fault_first _ (pointFails_iff s) h _

variable (c4 : ∀ x ∈ s.pts.recs, ¬ badPoint s x)
include c4

theorem fault_signal {x : Nat × SignalRec} (h : FirstWith (badSignal s) s.asp.recs x) : configFault s = some (.signal, x.1) := by
  rw [configFault_eq, fault_none _ (sectionFails_iff s) c1, faultHeads, fault_none _ (headFails_iff s) c2,
    fault_none _ (neighboursFail_iff s) c3, fault_none _ (pointFails_iff s) c4]
  exact fault_first _ (signalFails_iff s) h _

variable (c5 : ∀ x ∈ s.asp.recs, ¬ badSignal s x)
include c5

/-- The checks before the deck have passed. -/
theorem fault_late : configFault s =
    (tableFails s).or ((firstFailing s.ilk.routes (routeFails s)).map fun n => (.route, n)) := by
  rw [configFault_eq, fault_none _ (sectionFails_iff s) c1, faultHeads, fault_none _ (headFails_iff s) c2,
    fault_none _ (neighboursFail_iff s) c3, fault_none _ (pointFails_iff s) c4, fault_none _ (signalFails_iff s) c5]

theorem fault_deck {d : DeckRec} (hd : s.tt.deck = some d) (h : deckless s d) : configFault s = some (.table, 0) := by
  rw [fault_late c1 c2 c3 c4 c5, tableFails_deck s hd h]
  rfl

theorem fault_road {d : DeckRec} (hd : s.tt.deck = some d) (hdeck : ¬ deckless s d) {x : Nat × Road}
    (h : FirstWith (roadless s) s.tt.roads x) : configFault s = some (.road, x.1) := by
  rw [fault_late c1 c2 c3 c4 c5, tableFails_roads s hd hdeck]
  exact fault_first _ (roadless_iff s) h _

variable (c6 : ∀ d, s.tt.deck = some d → ¬ deckless s d ∧ ∀ x ∈ s.tt.roads, ¬ roadless s x)
include c6

theorem fault_route {x : Nat × RouteRec} (h : FirstWith (badRoute s) s.ilk.routes x) : configFault s = some (.route, x.1) := by
  rw [fault_late c1 c2 c3 c4 c5, tableFails_none s c6, firstFailing_first (routeFails_iff s) h]
  rfl

theorem fault_free (h : ∀ x ∈ s.ilk.routes, ¬ badRoute s x) : configFault s = none := by
  rw [fault_late c1 c2 c3 c4 c5, tableFails_none s c6, firstFailing_none (routeFails_iff s) h]
  rfl

end Passed
end Checks

/-! ### The blocks taken afresh -/

section Blocks
variable (s : State)

/-- The occupancies that START gives the loaded sections (R5, R21). -/
def startedSecs : Tbl Occupancy :=
  s.occ.recs.map fun x => (x.1, sectionAtStart { s with occ := { s.occ with filters := filtersAtStart s.occ.filters } } x.1 x.2)

theorem stem_startSections : stem (startSections s) = stem { s with occ := { s.occ with
    filters := filtersAtStart s.occ.filters, secs := startedSecs s } } :=
  stem_of_body (body_eachDo _ _ _ body_mirrorSection)

theorem stem_of_sansTags {s t : State} (h : sansTags s = sansTags t) (hw : s.work.step = t.work.step) :
    stem s = stem { t with tags := s.tags } := by
  have g := congrArg (fun y : State => ({ y with
    tags := s.tags, pts := { y.pts with state := [] }, work := { Work.none with step := s.work.step } } : State)) h
  have e : stem { t with tags := s.tags } = { sansTags t with
      tags := s.tags, pts := { (sansTags t).pts with state := [] }, work := { Work.none with step := s.work.step } } := by
    rw [hw]
    rfl
  exact g.trans e.symm

theorem step_arrive (n : Nat) (t : State) : (arrive n t).1.work.step = t.work.step := by
  have h := step_tags n .clear .occupied t
  exact h

theorem stem_startTags : stem (startTags s) = stem { s with tags := (startTags s).tags } := by
  have hb : body (mirrorTags { s with tags := { s.tags with table := [], fields := [] } })
      = body { s with tags := { s.tags with table := [], fields := [] } } := body_eachDo _ _ _ body_mirrorTag
  have hmirror : sansTags (mirrorTags { s with tags := { s.tags with table := [], fields := [] } }) = sansTags s :=
    (st_body hb).trans rfl
  have hstep : (mirrorTags { s with tags := { s.tags with table := [], fields := [] } }).work.step = s.work.step :=
    (read_of_body (fun y => y.work.step) (fun _ => rfl) hb).trans rfl
  unfold startTags
  dsimp only
  generalize mirrorTags { s with tags := { s.tags with table := [], fields := [] } } = u at hmirror hstep
  generalize (Tbl.keys u.occ.recs).filter (fun n => secState u n == .occupied) = l
  exact stem_of_sansTags ((st_eachDo _ _ u fun n t => st_arrive n t).trans hmirror)
    ((read_eachDo (fun y => y.work.step) l _ (fun n t => step_arrive n t) u).trans hstep)

theorem stem_startPoints : stem (startPoints s) = stem { s with pts := { s.pts with queue := [], overflow := [] } } :=
  read_eachDo stem _ _ (fun p t => stem_freshPoint t p) _

theorem stem_startRoutes : stem (startRoutes s) = stem { s with ilk := { s.ilk with active := [], stack := [] } } :=
  (stem_mirrorActives _).trans (stem_setStack _ _)

/-- The run condition and track power as START leaves them (R114, R120). -/
def startedAspects (a : AspectUnit) : AspectUnit :=
  { a with
    cond := if a.stopFilter.level then .allStop else a.cond
    cause := if a.stopFilter.level then some .pin else a.cause
    power := !a.stopFilter.level }

def withFreshAspects (s : State) : State := { s with asp := startedAspects s.asp }

def withDeckUnit (t : Turntable) (s : State) : State := { s with tt := t }

variable {s}

/-- The signals at rest, and the STOP pin that is reported ACTIVE obeyed. -/
theorem stem_startSignals (hc : s.asp.cond = .running) (hstep : s.work.step = none) (hrun : s.vis.runner = none)
    (hroutes : s.ilk.active = []) (hg : s.tt.state.givesUp = false) :
    ∃ t, stem (startSignals s) = stem (withDeckUnit t (withFreshAspects s)) := by
  have hrest : stem (eachDo (Tbl.keys s.asp.recs) restSignal (eachDo (Tbl.keys s.asp.recs) zeroOverruns s)) = stem s :=
    (read_eachDo stem _ _ (fun x t => stem_restSignal t x) _).trans (read_eachDo stem _ zeroOverruns (fun _ _ => rfl) s)
  unfold startSignals
  dsimp only
  generalize eachDo (Tbl.keys s.asp.recs) restSignal (eachDo (Tbl.keys s.asp.recs) zeroOverruns s) = u at hrest
  have hread {α : Type} (g : State → α) (hg : ∀ y, g y = g (stem y)) : g u = g s := read_of_stem g hg hrest
  have hlevel : u.asp.stopFilter.level = s.asp.stopFilter.level := hread (fun y => y.asp.stopFilter.level) fun _ => rfl
  unfold withDeckUnit withFreshAspects startedAspects
  rw [hlevel]
  by_cases hl : s.asp.stopFilter.level = true
  · rw [if_pos hl, if_pos hl, if_pos hl, hl]
    have hb := body_enterAllStop_quiet (c := .pin) (s := u) ((hread (fun y => y.asp.cond) fun _ => rfl).trans hc)
      ((hread (fun y => y.work.step) fun _ => rfl).trans hstep) ((hread (fun y => y.vis.runner) fun _ => rfl).trans hrun)
      ((hread (fun y => y.ilk.active) fun _ => rfl).trans hroutes) ((hread (fun y => y.tt.state.givesUp) fun _ => rfl).trans hg)
    refine ⟨{ s.tt with feed := false }, (stem_of_body hb).trans (Eq.trans ?_
      (stem_update (fun y => { stoppedBy .pin y with tt := { y.tt with feed := false } }) (fun _ => rfl) hrest))⟩
    rfl
  · rw [if_neg hl, if_neg hl, if_neg hl, Bool.eq_false_iff.2 hl]
    exact ⟨s.tt, (stem_setPower u true).trans
      ((stem_update (fun y => { y with asp := { y.asp with power := true } }) (fun _ => rfl) hrest).trans rfl)⟩

variable (s)

theorem stem_fed {u : State} {t : Turntable} (h : stem u = stem { s with tt := t }) :
    stem (updateFeed u) = stem { s with tt := { t with feed := feedOn { s with tt := t } } } :=
  (stem_updateFeed u).trans ((stem_update (fun y => { y with tt := { y.tt with feed := feedOn y } }) (fun _ => rfl) h).trans rfl)

theorem stem_startTable : ∃ t, stem (startTable s) = stem { s with tt := t } := by
  unfold startTable
  dsimp only
  split
  · exact ⟨_, stem_fed s (stem_setDeck s _)⟩
  · exact ⟨_, stem_fed s (t := s.tt) rfl⟩

theorem stem_startPanel : stem (startPanel s) = stem { s with vis := { s.vis with queue := [], runner := none } } := by
  unfold startPanel
  dsimp only
  rw [stem_mirrorVisitor, stem_settleButtons, stem_mirrorLamps, stem_settleLamps]
  rfl

/-! ### The parts of START together -/

def asRunning (s : State) : State :=
  { s with exch := { s.exch with runState := .running }, clock := 0, disp := { s.disp with flash := 0 } }

def withFreshTrack (s : State) : State :=
  { s with occ := { s.occ with filters := filtersAtStart s.occ.filters, secs := startedSecs s } }

def withTagUnit (tags : TagUnit) (s : State) : State := { s with tags := tags }

def withoutOrders (s : State) : State := { s with pts := { s.pts with queue := [], overflow := [] } }

def withoutRoutes (s : State) : State := { s with ilk := { s.ilk with active := [], stack := [] } }

def withoutShows (s : State) : State := { s with vis := { s.vis with queue := [], runner := none } }

/-- The machine as START leaves its routes, with the tags that it comes to. -/
def readied (tags : TagUnit) (s : State) : State :=
  withoutRoutes (withoutOrders (withTagUnit tags (withFreshTrack (asRunning s))))

/-- The machine as START leaves it, with the tags and the deck that it comes to. -/
def begun (tags : TagUnit) (t : Turntable) (s : State) : State :=
  withoutShows (withDeckUnit t (withFreshAspects (readied tags s)))

theorem stem_reported : stem (reportLayout 4 0 (setRunState .running { s with clock := 0, disp := { s.disp with flash := 0 } }))
    = stem (asRunning s) := (stem_reportLayout _ 4 0).trans (stem_setRunState _ .running)

variable {s}

theorem stem_readied : ∃ tags, stem (startRoutes (startPoints (startTags (startSections
    (reportLayout 4 0 (setRunState .running { s with clock := 0, disp := { s.disp with flash := 0 } }))))))
    = stem (readied tags s) := by
  have h1 := stem_reported s
  generalize reportLayout 4 0 _ = v1 at h1
  have h2 : stem (startSections v1) = stem (withFreshTrack (asRunning s)) :=
    (stem_startSections v1).trans (stem_update withFreshTrack (fun _ => rfl) h1)
  generalize startSections v1 = v2 at h2
  have h3 : stem (startTags v2) = stem (withTagUnit (startTags v2).tags (withFreshTrack (asRunning s))) :=
    (stem_startTags v2).trans (stem_update (withTagUnit (startTags v2).tags) (fun _ => rfl) h2)
  generalize (startTags v2).tags = tags at h3
  generalize startTags v2 = v3 at h3
  have h4 : stem (startPoints v3) = stem (withoutOrders (withTagUnit tags (withFreshTrack (asRunning s)))) :=
    (stem_startPoints v3).trans (stem_update withoutOrders (fun _ => rfl) h3)
  generalize startPoints v3 = v4 at h4
  exact ⟨tags, (stem_startRoutes v4).trans (stem_update withoutRoutes (fun _ => rfl) h4)⟩

theorem stem_startLayout (hc : s.asp.cond = .running) (hstep : s.work.step = none) (hrun : s.vis.runner = none)
    (hg : s.tt.state.givesUp = false) : ∃ tags t, stem (startLayout s) = stem (begun tags t s) := by
  obtain ⟨tags, h5⟩ := stem_readied (s := s)
  unfold startLayout
  dsimp only
  generalize startRoutes _ = v at h5
  have hread {α : Type} (g : State → α) (hg : ∀ y, g y = g (stem y)) : g v = g (readied tags s) := read_of_stem g hg h5
  obtain ⟨t1, h6⟩ := stem_startSignals (s := v) ((hread (fun y => y.asp.cond) fun _ => rfl).trans hc)
    ((hread (fun y => y.work.step) fun _ => rfl).trans hstep) ((hread (fun y => y.vis.runner) fun _ => rfl).trans hrun)
    (hread (fun y => y.ilk.active) fun _ => rfl) ((hread (fun y => y.tt.state.givesUp) fun _ => rfl).trans hg)
  have h7 : stem (startSignals v) = stem (withDeckUnit t1 (withFreshAspects (readied tags s))) :=
    h6.trans (stem_update (withDeckUnit t1) (fun _ => rfl) (stem_update withFreshAspects (fun _ => rfl) h5))
  generalize startSignals v = v1 at h7
  obtain ⟨t2, h8⟩ := stem_startTable v1
  have h9 : stem (startTable v1) = stem (withDeckUnit t2 (withFreshAspects (readied tags s))) :=
    h8.trans ((stem_update (withDeckUnit t2) (fun _ => rfl) h7).trans rfl)
  generalize startTable v1 = v2 at h9
  exact ⟨tags, t2, (stem_startPanel v2).trans (stem_update withoutShows (fun _ => rfl) h9)⟩

end Blocks

/-! ### The sections taken afresh (R5, R21) -/

theorem find_map {α β : Type} (f : Nat → α → β) (t : Tbl α) (n : Nat) :
    Tbl.find (t.map fun x => (x.1, f x.1 x.2)) n = (Tbl.find t n).map (f n) := by
  induction t with
  | nil => rfl
  | cons x t ih =>
    obtain ⟨k, v⟩ := x
    rw [List.map_cons, Tbl.find, Tbl.find]
    by_cases hk : n = k
    · rw [if_pos hk, if_pos hk, hk]
      rfl
    · rw [if_neg hk, if_neg hk, ih]

/-- A table without the entries that stand for its default value reads as before. -/
theorem getD_filter {α : Type} [DecidableEq α] {t : Tbl α} (d : α) (h : Tbl.sorted t = true) (n : Nat) :
    Tbl.getD (t.filter fun x => x.2 != d) n d = Tbl.getD t n d := by
  unfold Tbl.getD
  induction t with
  | nil => rfl
  | cons x t ih =>
    obtain ⟨k, v⟩ := x
    have ih := ih (Tbl.sorted_tail h)
    by_cases hv : v = d
    · rw [List.filter_cons_of_neg (by simp [hv]), ih, Tbl.find]
      by_cases hk : n = k
      · rw [if_pos hk, hv, Tbl.find_of_lt t k v h n (by omega)]
        rfl
      · rw [if_neg hk]
    · rw [List.filter_cons_of_pos (by simp [hv]), Tbl.find, Tbl.find]
      by_cases hk : n = k
      · rw [if_pos hk, if_pos hk]
      · rw [if_neg hk, if_neg hk, ih]

theorem sorted_map {α β : Type} (f : Nat → α → β) {t : Tbl α} (h : Tbl.sorted t = true) :
    Tbl.sorted (t.map fun x => (x.1, f x.1 x.2)) = true := by
  induction t with
  | nil => rfl
  | cons x t ih =>
    obtain ⟨k, v⟩ := x
    obtain ⟨hk, ht⟩ := (Tbl.sorted_cons_iff k v t).1 h
    refine (Tbl.sorted_cons_iff k (f k v) _).2 ⟨fun y hy => ?_, ih ht⟩
    obtain ⟨z, hz, rfl⟩ := List.mem_map.1 hy
    exact hk z hz

/-- An input's level at START is the level that it counts (R5). -/
theorem level_atStart {t : Tbl Filter} (h : Tbl.sorted t = true) (i : Nat) :
    (Tbl.getD (filtersAtStart t) i Filter.init).level = (Tbl.getD t i Filter.init).counted := by
  unfold filtersAtStart
  rw [getD_filter Filter.init (sorted_map (fun _ => Filter.atStart) h)]
  unfold Tbl.getD
  rw [find_map fun _ => Filter.atStart]
  cases Tbl.find t i <;> rfl

theorem find_startedSecs {s : State} (h : Tbl.sorted s.occ.filters = true) {n : Nat} {r : SectionRec}
    (hr : Tbl.find s.occ.recs n = some r) : ∃ o, Tbl.find (startedSecs s) n = some o ∧ o.count = 0 ∧
      o.state = (if secState s n = .disabled then .disabled
        else match r.detection with
          | .current => if (match r.input with
              | none => false
              | some i => (Tbl.getD s.occ.filters i Filter.init).counted) then .occupied else .clear
          | .axle | .both => if boundSuspect s n then .uncertain else .sweeping) := by
  unfold startedSecs
  rw [find_map fun n r => sectionAtStart { s with occ := { s.occ with filters := filtersAtStart s.occ.filters } } n r, hr]
  refine ⟨_, rfl, rfl, ?_⟩
  change (if secState s n = .disabled then _ else freshState _ n r) = _
  by_cases hd : secState s n = .disabled
  · rw [if_pos hd, if_pos hd]
  · rw [if_neg hd, if_neg hd]
    unfold freshState detLevel
    cases r.detection with
    | current =>
      cases r.input with
      | none => rfl
      | some i => exact congrArg (fun b : Bool => if b then SectionState.occupied else .clear) (level_atStart h i)
    | axle => rfl
    | both => rfl

/-! ### START as a request -/

section Start
variable {s : State}

theorem word_startSignals (hc : s.asp.cond = .running) (hstep : s.work.step = none) (hrun : s.vis.runner = none)
    (hroutes : s.ilk.active = []) (hg : s.tt.state.givesUp = false) : WordKept s (startSignals s) := by
  have hrest : stem (eachDo (Tbl.keys s.asp.recs) restSignal (eachDo (Tbl.keys s.asp.recs) zeroOverruns s)) = stem s :=
    (read_eachDo stem _ _ (fun x t => stem_restSignal t x) _).trans (read_eachDo stem _ zeroOverruns (fun _ _ => rfl) s)
  have hword : WordKept s (eachDo (Tbl.keys s.asp.recs) restSignal (eachDo (Tbl.keys s.asp.recs) zeroOverruns s)) :=
    (word_eachDo _ zeroOverruns (fun x t => word_of_mem (t := zeroOverruns x t) rfl) s).trans
      (word_eachDo _ _ (fun x t => word_restSignal t x) _)
  unfold startSignals
  dsimp only
  generalize eachDo (Tbl.keys s.asp.recs) restSignal (eachDo (Tbl.keys s.asp.recs) zeroOverruns s) = u at hrest hword
  have hread {α : Type} (g : State → α) (hg : ∀ y, g y = g (stem y)) : g u = g s := read_of_stem g hg hrest
  split
  · exact hword.trans (word_enterAllStop ((hread (fun y => y.asp.cond) fun _ => rfl).trans hc)
      ((hread (fun y => y.work.step) fun _ => rfl).trans hstep) ((hread (fun y => y.vis.runner) fun _ => rfl).trans hrun)
      ((hread (fun y => y.ilk.active) fun _ => rfl).trans hroutes) ((hread (fun y => y.tt.state.givesUp) fun _ => rfl).trans hg))
  · exact hword.trans (word_setPower u true)

theorem word_startTable (s : State) : WordKept s (startTable s) := by
  unfold startTable
  dsimp only
  split
  · exact (word_setDeck s _).trans (word_updateFeed _)
  · exact word_updateFeed s

theorem word_startPanel (s : State) : WordKept s (startPanel s) := by
  unfold startPanel
  dsimp only
  refine WordKept.trans (WordKept.trans (WordKept.trans ?_ (word_mirrorLamps _ 24)) (word_settleButtons _)) (word_mirrorVisitor _)
  exact (word_settleLamps _).from rfl

/-- The header's run state is RUNNING behind START. -/
theorem read16_startLayout (hm : s.memOk) (hc : s.asp.cond = .running) (hstep : s.work.step = none) (hrun : s.vis.runner = none)
    (hg : s.tt.state.givesUp = false) : (startLayout s).read16 0x16 = 3 := by
  obtain ⟨tags, h5⟩ := stem_readied (s := s)
  have hset : (setRunState .running { s with clock := 0, disp := { s.disp with flash := 0 } }).read16 0x16 = 3 :=
    word_setRunState .running hm
  unfold startLayout
  dsimp only
  generalize hv : setRunState .running { s with clock := 0, disp := { s.disp with flash := 0 } } = v at h5 hset ⊢
  have hword : WordKept v (startRoutes (startPoints (startTags (startSections (reportLayout 4 0 v))))) := by
    have hsections : WordKept v (startSections (reportLayout 4 0 v)) :=
      (word_report v _ _ _ _).trans ((word_eachDo _ _ (fun n t => word_mirrorSection t n) _).from rfl)
    generalize startSections (reportLayout 4 0 v) = v1 at hsections
    have htags : WordKept v (startTags v1) := by
      refine hsections.trans (WordKept.trans ?_ (word_eachDo _ _ (fun n t => word_arrive t n) _))
      exact (word_mirrorTags _).from rfl
    generalize startTags v1 = v2 at htags
    have hpoints : WordKept v (startPoints v2) :=
      htags.trans ((word_eachDo _ _ (fun n t => word_freshPoint t n) (setOrders [] [] v2)).from rfl)
    generalize startPoints v2 = v3 at hpoints
    refine hpoints.trans (WordKept.trans ?_ (word_mirrorActives _))
    exact (word_setStack { v3 with ilk := { v3.ilk with active := [] } } []).from rfl
  generalize startRoutes _ = v4 at h5 hword
  have hread {α : Type} (g : State → α) (hg : ∀ y, g y = g (stem y)) : g v4 = g (readied tags s) := read_of_stem g hg h5
  have hsignals := word_startSignals (s := v4) ((hread (fun y => y.asp.cond) fun _ => rfl).trans hc)
    ((hread (fun y => y.work.step) fun _ => rfl).trans hstep) ((hread (fun y => y.vis.runner) fun _ => rfl).trans hrun)
    (hread (fun y => y.ilk.active) fun _ => rfl) ((hread (fun y => y.tt.state.givesUp) fun _ => rfl).trans hg)
  exact (((hword.trans hsignals).trans (word_startTable _)).trans (word_startPanel _)).read16.trans hset

/-! What START reads is not in the port. -/

theorem pointsInPlace_exch (e : Exchange) (n : Option Nat) (l : List Element) :
    pointsInPlace { s with exch := e } n l = pointsInPlace s n l := by
  induction l generalizing n with
  | nil => rfl
  | cons x l ih =>
    cases x with
    | sec m => exact ih (some m)
    | point p y => exact congrArg (fun b => (n == some (pointSec s p)) && b) (ih n)

theorem routeFails_exch (e : Exchange) : routeFails { s with exch := e } = routeFails s := by
  funext n r
  unfold routeFails
  rw [pointsInPlace_exch]
  rfl

theorem configFault_exch (e : Exchange) : configFault { s with exch := e } = configFault s := by
  unfold configFault
  rw [routeFails_exch]
  rfl

theorem startedSecs_exch (e : Exchange) : startedSecs { s with exch := e } = startedSecs s := rfl

theorem begun_exch (e : Exchange) (tags : TagUnit) (t : Turntable) : begun tags t { s with exch := e }
    = { begun tags t s with exch := { e with runState := .running } } := rfl

/-- The port of a machine whose request has been taken. -/
theorem taken_exch (q : Request) : taken q s = { s with exch := (taken q s).exch } := by
  rw [taken_shape]
  rfl

theorem configFault_taken (q : Request) : configFault (taken q s) = configFault s := by
  rw [taken_exch]
  exact configFault_exch _

theorem inside_of_stem {s t : State} (h : stem s = stem t) : inside s = inside { t with pts := { t.pts with state := s.pts.state } } :=
  congrArg (fun y : State => ({ y with pts := { y.pts with state := s.pts.state }, work := Work.none } : State)) h

theorem startRequest_loading (n : Nat) (h : s.exch.reading ≠ none ∨ s.exch.loads ≠ []) :
    startRequest n s = complete n .loading 0 0 s := by
  unfold startRequest
  refine if_pos ?_
  rw [Bool.or_eq_true, Bool.not_eq_true', List.isEmpty_eq_false_iff, Option.isSome_iff_ne_none]
  exact h

theorem startRequest_idle (n : Nat) (hr : s.exch.reading = none) (hl : s.exch.loads = []) : startRequest n s =
    match configFault s with
    | some (k, i) => complete n .invalidConfig k.code i s
    | none => complete n .ok 0 0 (startLayout s) := by
  unfold startRequest
  exact if_neg (by rw [hr, hl]; decide)

/-- START of a configuration that has no fault. -/
theorem start_passes {tag : HostTag} (h : Ready .configuring s) (hq : AtRest s) (hr : s.exch.reading = none) (hl : s.exch.loads = [])
    (hf : configFault s = none) (hc : s.asp.cond = .running) (hrun : s.vis.runner = none) (hg : s.tt.state.givesUp = false) :
    ∃ t tags d pts, exec (.start tag) s = .next t ∧ SlotDone s.exch.takePos tag .ok 0 0 t ∧ t.read16 0x16 = 3 ∧
      inside t = inside ({ begun tags d s with pts := { (begun tags d s).pts with state := pts } } : State).served ∧
      MemoryKept (some s.exch.takePos) s t := by
  let q : Request := ⟨9, tag, 0#32, 0#32, 0#32⟩
  have hread {α : Type} (g : State → α) (hg : ∀ m, g (((s.inHand q.tag).served).withMem m) = g s) : g (taken q s) = g s :=
    read_taken g q s hg
  have hwork : (taken q s).work.step = none := by rw [work_taken, hq.work]; rfl
  have hcond := (hread (fun y => y.asp.cond) fun _ => rfl).trans hc
  have hrunner := (hread (fun y => y.vis.runner) fun _ => rfl).trans hrun
  have hgives := (hread (fun y => y.tt.state.givesUp) fun _ => rfl).trans hg
  obtain ⟨tags, d, hstem⟩ := stem_startLayout hcond hwork hrunner hgives
  have hword := read16_startLayout (mem_taken q s h.sound.mem) hcond hwork hrunner hgives
  have hblock : startRequest s.exch.takePos (taken q s) = complete s.exch.takePos .ok 0 0 (startLayout (taken q s)) := by
    rw [startRequest_idle _ ((hread (fun y => y.exch.reading) fun _ => rfl).trans hr)
      ((hread (fun y => y.exch.loads) fun _ => rfl).trans hl), (configFault_taken q).trans hf]
  have hown : Own (taken q s) (startLayout (taken q s)) := own_startLayout _ (own_refl _)
  generalize startLayout (taken q s) = v at hstem hword hblock hown
  have hin : inside v = inside (({ begun tags d s with pts := { (begun tags d s).pts with state := v.pts.state } } : State).inHand
      q.tag).served := by
    have hport : (taken q s).exch = (((s.inHand q.tag).served).withMem (taken q s).exch.mem).exch := congrArg State.exch (taken_shape q s)
    rw [inside_of_stem hstem, taken_exch, begun_exch, hport]
    rfl
  have hquiet : quietEnd v = true := by
    have hv {α : Type} (g : State → α) (hg : ∀ y, g y = g (stem y)) := read_of_stem g hg hstem
    exact quietEnd_of_empty v ((hv (fun y => y.work.step) fun _ => rfl).trans hwork) (hv (fun y => y.vis.queue) fun _ => rfl)
      (hv (fun y => y.pts.queue) fun _ => rfl) (hv (fun y => y.ilk.stack) fun _ => rfl)
  obtain ⟨t, hexec, hdone, hinside, hmem, -, hrun⟩ := answered_word (c := .start tag) (q := q) (al := .configuring) (f := startRequest)
    rfl h rfl (by decide) hblock hown hin rfl h.mark hquiet
  exact ⟨t, tags, d, v.pts.state, hexec, hdone, hrun.trans hword, hinside, hmem⟩

end Start

/-- Settles O59: the checks by their failing items in turn, and the blocks taken afresh one after another. -/
theorem startBeginsRunning : Obligations.StartBeginsRunning := by
  refine ⟨fun s tag h hq => ⟨fun hload => ?_, fun hr hl => ⟨fun k i hf => ?_, fun hf hc hrun _ hg => ?_⟩⟩, fun s => ?_⟩
  · have hblock : startRequest s.exch.takePos (taken ⟨9, tag, 0#32, 0#32, 0#32⟩ s)
        = complete s.exch.takePos .loading 0 0 (taken ⟨9, tag, 0#32, 0#32, 0#32⟩ s) := by
      refine startRequest_loading _ ?_
      rw [read_taken (fun y => y.exch.reading) _ s fun _ => rfl, read_taken (fun y => y.exch.loads) _ s fun _ => rfl]
      exact hload
    exact replies_same (q := ⟨9, tag, 0#32, 0#32, 0#32⟩) (al := .configuring) (f := startRequest) rfl h rfl (by decide) hblock hq
  · have hblock : startRequest s.exch.takePos (taken ⟨9, tag, 0#32, 0#32, 0#32⟩ s)
        = complete s.exch.takePos .invalidConfig k.code i (taken ⟨9, tag, 0#32, 0#32, 0#32⟩ s) := by
      rw [startRequest_idle _ ((read_taken (fun y => y.exch.reading) _ s fun _ => rfl).trans hr)
        ((read_taken (fun y => y.exch.loads) _ s fun _ => rfl).trans hl), (configFault_taken _).trans hf]
    exact replies_same (q := ⟨9, tag, 0#32, 0#32, 0#32⟩) (al := .configuring) (f := startRequest) rfl h rfl (by decide) hblock hq
  · obtain ⟨t, tags, d, pts, hexec, hdone, hword, hin, hmem⟩ := start_passes (tag := tag) h hq hr hl hf hc hrun hg
    have hread {α : Type} (g : State → α) (hg : ∀ y, g y = g (inside y)) := OrderEnds.read_of_inside g hg hin
    have hocc : t.occ = (withFreshTrack s).occ := hread (fun y => y.occ) fun _ => rfl
    refine ⟨t, hexec, hdone, hread (fun y => y.exch.runState) fun _ => rfl, hword, hread (fun y => y.clock) fun _ => rfl,
      hread (fun y => y.disp.flash) fun _ => rfl, hread (fun y => y.ilk.active) fun _ => rfl,
      hread (fun y => y.ilk.stack) fun _ => rfl, hread (fun y => y.pts.queue) fun _ => rfl, hread (fun y => y.vis.queue) fun _ => rfl,
      hread (fun y => y.vis.runner) fun _ => rfl, (congrArg OccUnit.recs hocc).trans rfl, fun _ hsorted n r hrec => ?_, fun hlevel => ?_,
      fun hlevel => ?_, hmem⟩
    · rw [hocc]
      exact find_startedSecs hsorted hrec
    · have hcond : t.asp.cond = (startedAspects s.asp).cond := hread (fun y => y.asp.cond) fun _ => rfl
      have hpower : t.asp.power = (startedAspects s.asp).power := hread (fun y => y.asp.power) fun _ => rfl
      rw [hcond, hpower]
      unfold startedAspects
      rw [hlevel]
      exact ⟨hc, rfl⟩
    · have hcond : t.asp.cond = (startedAspects s.asp).cond := hread (fun y => y.asp.cond) fun _ => rfl
      have hcause : t.asp.cause = (startedAspects s.asp).cause := hread (fun y => y.asp.cause) fun _ => rfl
      have hpower : t.asp.power = (startedAspects s.asp).power := hread (fun y => y.asp.power) fun _ => rfl
      rw [hcond, hcause, hpower]
      unfold startedAspects
      rw [hlevel]
      exact ⟨rfl, rfl, rfl⟩
  · exact ⟨fun x h => fault_first _ (sectionFails_iff s) h _, fun x c1 h => fault_head c1 h,
      fun x ⟨c1, c2⟩ h => fault_neighbours c1 c2 h, fun x ⟨⟨c1, c2⟩, c3⟩ h => fault_point c1 c2 c3 h,
      fun x ⟨⟨⟨c1, c2⟩, c3⟩, c4⟩ h => fault_signal c1 c2 c3 c4 h,
      fun d ⟨⟨⟨⟨c1, c2⟩, c3⟩, c4⟩, c5⟩ hd h => fault_deck c1 c2 c3 c4 c5 hd h,
      fun d x ⟨⟨⟨⟨c1, c2⟩, c3⟩, c4⟩, c5⟩ hd hdeck h => fault_road c1 c2 c3 c4 c5 hd hdeck h,
      fun x ⟨⟨⟨⟨⟨c1, c2⟩, c3⟩, c4⟩, c5⟩, c6⟩ h => fault_route c1 c2 c3 c4 c5 c6 h,
      fun ⟨⟨⟨⟨⟨c1, c2⟩, c3⟩, c4⟩, c5⟩, c6⟩ h => fault_free c1 c2 c3 c4 c5 c6 h⟩

end Sys2Proof.LayoutStart
end

