-- ==== Sys2Proof/Proofs/LayoutResets.lean ====
section
/-! LAYOUT_RESET and CONTROL_LAYOUT_RESET: each block's part, and the slots in hand completed ABORTED (O60). -/

namespace Sys2Proof.LayoutResets

open Sys2Proof.Machine Sys2Proof.ReportLog Sys2Proof.QuietHeader Sys2Proof.TrackRequests Sys2Proof.RouteRelease
  Sys2Proof.PointLies Sys2Proof.SlotBytes Sys2Proof.LayoutStop Sys2Proof.FreshBlocks

/-! ### The blocks' parts -/

def withRestedTrack (s : State) : State := resetSections s

def withoutTags (s : State) : State := { s with tags := { s.tags with table := [], fields := [] } }

def withoutLocks (s : State) : State := { s with ilk := { s.ilk with active := [], stack := [], locks := [], holders := [] } }

def withPoints (p : PointUnit) (s : State) : State := { s with pts := p }

def withUnpowered (s : State) : State := { s with asp := { s.asp with cond := .running, cause := none, power := false } }

/-- The deck as a layout reset leaves it, its feed apart (R141). -/
def resetDeck (t : Turntable) : Turntable :=
  if t.state.kept then { t with requester := .none, target := none }
  else { t.quiet with state := .unreferenced, pos := none, boltOut := false, requester := .none, target := none }

def withTurned (s : State) : State := { s with tt := resetDeck s.tt }

def withFeedOff (s : State) : State := { s with tt := { s.tt with feed := false } }

def withVisitors (v : VisitorUnit) (s : State) : State := { s with vis := v }

def withDisplay (d : Display) (s : State) : State := { s with disp := d }

def configuring (s : State) : State := { s with exch := { s.exch with runState := .configuring, reading := none, loads := [] } }

/-- The machine as a layout reset leaves it, the slots in hand apart. -/
def restored (p : PointUnit) (v : VisitorUnit) (d : Display) (s : State) : State :=
  withFeedOff (configuring (withDisplay d (withVisitors v (withTurned (withUnpowered (withPoints p (withoutLocks (withoutTags
    (withRestedTrack s)))))))))

/-- The points' part: no order in hand (R106). -/
structure PointsReset (p q : PointUnit) : Prop where
  orders : q.queue = [] ∧ q.overflow = [] ∧ q.coil = none ∧ q.drives = []
  records : q.recs = p.recs

section Blocks
variable (s : State)

theorem stem_resetTags : stem (resetTags s) = stem (withoutTags s) := stem_mirrorTags _

theorem stem_resetRoutes : stem (resetRoutes s) = stem (withoutLocks s) := (stem_mirrorActives _).trans (stem_setStack _ _)

theorem stem_resetPoints : ∃ p, PointsReset s.pts p ∧ stem (resetPoints s) = stem (withPoints p s) := by
  have hunfail (cut : List Nat) (u : State) : stem (eachDo (Tbl.keys u.pts.recs) (unfailPoint cut) u) = stem u :=
    read_eachDo stem _ (unfailPoint cut) (fun _ _ => rfl) u
  have hfresh (l : List Nat) (u : State) : stem (eachDo l freshPoint u) = stem u := read_eachDo stem _ _ (fun p t => stem_freshPoint t p) u
  unfold resetPoints
  dsimp only
  rw [hfresh]
  by_cases hcoil : s.pts.coil.isSome = true
  · rw [if_pos hcoil]
    have hb : stem (startRecharge s) = stem (OrderEnds.recharging s) := stem_of_body (OrderEnds.body_startRecharge s)
    refine ⟨{ (OrderEnds.recharging s).pts with queue := [], overflow := [], drives := [] }, ⟨⟨rfl, rfl, rfl, rfl⟩, rfl⟩, ?_⟩
    exact (hunfail _ _).trans ((stem_update (fun y => withPoints { y.pts with queue := [], overflow := [], drives := [] } y)
      (fun _ => rfl) hb).trans rfl)
  · rw [if_neg hcoil]
    refine ⟨{ s.pts with queue := [], overflow := [], drives := [] }, ⟨⟨rfl, rfl, Option.not_isSome_iff_eq_none.1 hcoil, rfl⟩, rfl⟩, ?_⟩
    exact hunfail _ _

theorem stem_resetSignals : stem (resetSignals s) = stem (withUnpowered s) := by
  unfold resetSignals
  rw [read_eachDo stem _ _ (fun x t => stem_restSignal t x) _, stem_setPower]
  exact (stem_update (fun y => { y with asp := { y.asp with power := false } }) (fun _ => rfl) (stem_setRunCondition s .running none)).trans rfl

theorem stem_resetTable : stem (resetTable s) = stem (withTurned s) := by
  unfold resetTable withTurned resetDeck
  split
  · exact stem_setDeck s _
  · exact stem_setDeck s _

theorem resetVisitors_eq {r : Runner} (hrun : s.vis.runner = some r) : resetVisitors s = { s with
    vis := { s.vis with runner := none, cool := ShowRunner.coolAfter r.show_ s, last := some (r.show_, .layoutReset), queue := [] }
    disp := (loadIdle s.disp.idle1 s).disp
    work := { s.work with lamps := true, step := none } } := by
  unfold resetVisitors abortShow
  rw [hrun]
  dsimp only
  rw [if_pos rfl, if_pos rfl, ShowRunner.startCoolDown_eq]
  rfl

theorem stem_resetVisitors (hstep : s.work.step = none) : ∃ v d, v.queue = [] ∧ v.runner = none ∧ v.shows = s.vis.shows ∧
    d.bind = s.disp.bind ∧ stem (resetVisitors s) = stem (withDisplay d (withVisitors v s)) := by
  cases hrun : s.vis.runner with
  | none =>
    have heq : resetVisitors s = withVisitors { s.vis with queue := [] } s := by
      unfold resetVisitors abortShow
      rw [hrun]
      rfl
    exact ⟨{ s.vis with queue := [] }, s.disp, rfl, hrun, rfl, rfl, congrArg stem heq⟩
  | some r =>
    rw [resetVisitors_eq s hrun]
    refine ⟨{ s.vis with
      runner := none, cool := ShowRunner.coolAfter r.show_ s, last := some (r.show_, .layoutReset), queue := [] },
      (loadIdle s.disp.idle1 s).disp, rfl, rfl, rfl, rfl, ?_⟩
    unfold stem
    change _ = { calm (withDisplay (loadIdle s.disp.idle1 s).disp (withVisitors _ s)) with
      pts := { s.pts with state := [] }, work := { Work.none with step := s.work.step } }
    rw [hstep]
    rfl

theorem stem_resetDisplay : ∃ d, d.panel = .awake ∧ d.bind = s.disp.bind ∧ stem (resetDisplay s) = stem (withDisplay d s) := by
  have hpanel : stem (setPanelState .awake s) = stem (PanelAndLamps.withPanel .awake s) :=
    stem_of_body (PanelAndLamps.body_setPanelState .awake s)
  have hidle : stem (loadIdle s.disp.idle1 (setPanelState .awake s)) = stem (loadIdle s.disp.idle1 (PanelAndLamps.withPanel .awake s)) :=
    stem_update (loadIdle s.disp.idle1) (fun _ => rfl) hpanel
  unfold resetDisplay
  dsimp only
  rw [stem_mirrorLamps]
  exact ⟨(loadIdle s.disp.idle1 (PanelAndLamps.withPanel .awake s)).disp, rfl, rfl, (Eq.trans rfl hidle).trans rfl⟩

end Blocks

/-! ### The slots in hand completed ABORTED -/

section Slots

theorem erase_eq_filter {α : Type} {t : Tbl α} (h : Tbl.sorted t = true) (n : Nat) : Tbl.erase t n = t.filter fun x => x.1 != n := by
  induction t with
  | nil => rfl
  | cons x t ih =>
    obtain ⟨k, v⟩ := x
    obtain ⟨hk, ht⟩ := (Tbl.sorted_cons_iff k v t).1 h
    rw [Tbl.erase]
    by_cases hn : n = k
    · rw [if_pos hn, List.filter_cons_of_neg (by simp [hn]), List.filter_eq_self.2]
      intro y hy
      have := hk y hy
      simp only [bne_iff_ne]
      omega
    · rw [if_neg hn, List.filter_cons_of_pos (by simpa using fun e => hn e.symm), ih ht]

/-- A table without the entries of these numbers. -/
def without {α : Type} (l : List Nat) (t : Tbl α) : Tbl α := t.filter fun x => !l.contains x.1

theorem without_nil {α : Type} (t : Tbl α) : without [] t = t := List.filter_eq_self.2 fun _ _ => rfl

theorem without_erase {α : Type} {t : Tbl α} (h : Tbl.sorted t = true) (n : Nat) (l : List Nat) :
    without l (Tbl.erase t n) = without (n :: l) t := by
  unfold without
  rw [erase_eq_filter h, List.filter_filter]
  refine List.filter_congr fun x _ => ?_
  simp only [List.contains_cons, Bool.not_or, bne, Bool.and_comm]

variable {s : State}

/-- The machine without these slots' marks. -/
def unmarked (l : List Nat) (s : State) : State := { s with exch := { s.exch with inHand := without l s.exch.inHand } }

/-- Slots in hand are completed one after another. -/
theorem aborted_slots (l : List Nat) (hm : s.memOk) (hsorted : Tbl.sorted s.exch.inHand = true) (hnodup : l.Nodup)
    (hl : ∀ n ∈ l, n < Config.numSlots ∧ ∃ g, Tbl.find s.exch.inHand n = some g) :
    body (eachDo l (fun n t => complete n .aborted 0 0 t) s) = body (unmarked l s) ∧
      ∀ n ∈ l, ∀ g, Tbl.find s.exch.inHand n = some g → SlotDone n g .aborted 0 0 (eachDo l (fun n t => complete n .aborted 0 0 t) s) := by
  induction l generalizing s with
  | nil =>
    refine ⟨?_, fun n hn => nomatch hn⟩
    unfold unmarked
    rw [without_nil]
    rfl
  | cons n l ih =>
    obtain ⟨hfree, hnodup⟩ := List.nodup_cons.1 hnodup
    obtain ⟨hn, g, hg⟩ := hl n (List.mem_cons_self ..)
    have hb := body_completed .aborted 0 0 hn hg
    have hmarks : (complete n .aborted 0 0 s).exch.inHand = Tbl.erase s.exch.inHand n :=
      read_of_body (fun y => y.exch.inHand) (fun _ => rfl) hb |>.trans rfl
    have hother (m : Nat) (hne : m ≠ n) : Tbl.find (complete n .aborted 0 0 s).exch.inHand m = Tbl.find s.exch.inHand m := by
      rw [hmarks, Tbl.find_erase_other _ _ _ hne]
    have hne (m : Nat) (h : m ∈ l) : m ≠ n := fun e => hfree (e ▸ h)
    obtain ⟨hbody, hdone⟩ := ih (s := complete n .aborted 0 0 s) ((own_complete (own_refl s) _ _ _ _).mem hm)
      (by rw [hmarks]; exact Tbl.sorted_erase _ _ hsorted) hnodup fun m hm => by
        obtain ⟨h1, h2⟩ := hl m (List.mem_cons_of_mem _ hm)
        exact ⟨h1, by rw [hother m (hne m hm)]; exact h2⟩
    change body (eachDo l _ (complete n .aborted 0 0 s)) = _ ∧ ∀ m ∈ n :: l, ∀ g, _ → SlotDone m g .aborted 0 0 (eachDo l _ (complete n .aborted 0 0 s))
    refine ⟨hbody.trans ?_, fun m hm' g' hg' => ?_⟩
    · refine (body_update (unmarked l) (fun _ => rfl) hb).trans ?_
      unfold unmarked
      dsimp only
      rw [without_erase hsorted]
    · obtain rfl | hm' := List.mem_cons.1 hm'
      · obtain rfl := Option.some.inj (hg.symm.trans hg')
        exact (slotDone_completed .aborted 0 0 hn hm hg hsorted).own hn
          (own_eachDo _ _ (own_refl _) fun k t => own_complete (own_refl t) k _ _ _)
      · exact hdone m hm' g' (by rw [hother m (hne m hm')]; exact hg')

/-- The slots in hand, that of the request left out (R194). -/
def aborts (o : Option Nat) (t : Tbl HostTag) : List Nat := (Tbl.keys t).filter fun n => o != some n

theorem without_aborts_none (t : Tbl HostTag) : without (aborts none t) t = [] := by
  unfold without aborts
  refine List.filter_eq_nil_iff.2 fun x hx => ?_
  have hkey : x.1 ∈ Tbl.keys t := List.mem_map_of_mem hx
  simp [hkey]

theorem without_aborts_some {t : Tbl HostTag} {k : Nat} {tag : HostTag} (h : Tbl.sorted t = true) (hk : Tbl.find t k = some tag) :
    without (aborts (some k) t) t = [(k, tag)] := by
  have hfilter : without (aborts (some k) t) t = t.filter fun x => x.1 == k := by
    refine List.filter_congr fun x hx => ?_
    have hkey : x.1 ∈ Tbl.keys t := List.mem_map_of_mem hx
    unfold aborts
    by_cases hx : x.1 = k
    · simp [hx]
    · have : ¬ k = x.1 := fun e => hx e.symm
      simp [hx, hkey, this]
  rw [hfilter]
  clear hfilter
  induction t with
  | nil => cases hk
  | cons x t ih =>
    obtain ⟨m, v⟩ := x
    obtain ⟨hm, ht⟩ := (Tbl.sorted_cons_iff m v t).1 h
    rw [Tbl.find] at hk
    by_cases hkm : k = m
    · rw [if_pos hkm] at hk
      rw [List.filter_cons_of_pos (by simp [hkm]), List.filter_eq_nil_iff.2, Option.some.inj hk, hkm]
      intro y hy
      have := hm y hy
      simp only [beq_iff_eq]
      omega
    · rw [if_neg hkm] at hk
      rw [List.filter_cons_of_neg (by simpa using fun e => hkm e.symm), ih ht hk]

theorem length_aborts {t : Tbl HostTag} {k : Nat} {tag : HostTag} (h : Tbl.sorted t = true) (hk : Tbl.find t k = none) :
    (aborts (some k) (Tbl.insert t k tag)).length = (t.filter fun x => x.1 != k).length := by
  have hkeys : (aborts (some k) (Tbl.insert t k tag)).length = ((Tbl.insert t k tag).filter fun x => x.1 != k).length := by
    unfold aborts Tbl.keys
    rw [List.filter_map, List.length_map]
    congr 1
    refine List.filter_congr fun x _ => ?_
    rw [Bool.eq_iff_iff]
    simp only [Function.comp_apply, bne_iff_ne, ne_eq, Option.some.injEq]
    exact not_congr eq_comm
  have hsame : (t.filter fun x => x.1 != k) = t := List.filter_eq_self.2 fun x hx => by
    have hfind := find_of_mem h hx
    refine bne_iff_ne.2 fun e => ?_
    rw [e, hk] at hfind
    cases hfind
  have herase := Tbl.erase_insert t k tag hk
  rw [erase_eq_filter (Tbl.sorted_insert _ _ _ h)] at herase
  rw [hkeys, herase, hsame]

end Slots

/-! ### The reset together -/

section Reset
variable {s : State}

theorem stem_restored (hstep : s.work.step = none) : ∃ p v d, PointsReset s.pts p ∧ v.queue = [] ∧ v.runner = none ∧
    v.shows = s.vis.shows ∧ d.panel = .awake ∧ d.bind = s.disp.bind ∧
    stem (updateFeed (setRunState .configuring (setLoads none [] (resetDisplay (resetVisitors (resetTable (resetSignals (resetPoints
      (resetRoutes (resetTags (resetSections s))))))))))) = stem (restored p v d s) := by
  have h1 : stem (resetTags (resetSections s)) = stem (withoutTags (withRestedTrack s)) := stem_resetTags _
  generalize resetTags (resetSections s) = v1 at h1
  have h2 : stem (resetRoutes v1) = stem (withoutLocks (withoutTags (withRestedTrack s))) :=
    (stem_resetRoutes v1).trans (stem_update withoutLocks (fun _ => rfl) h1)
  generalize resetRoutes v1 = v2 at h2
  obtain ⟨p, hp, h3⟩ := stem_resetPoints v2
  have hrecs : v2.pts.recs = s.pts.recs := (read_of_stem (fun y => y.pts.recs) (fun _ => rfl) h2).trans rfl
  have h4 := h3.trans (stem_update (withPoints p) (fun _ => rfl) h2)
  generalize resetPoints v2 = v3 at h4
  have h5 := (stem_resetSignals v3).trans (stem_update withUnpowered (fun _ => rfl) h4)
  generalize resetSignals v3 = v4 at h5
  have h6 := (stem_resetTable v4).trans (stem_update withTurned (fun _ => rfl) h5)
  generalize resetTable v4 = v5 at h6
  have hread {α : Type} (g : State → α) (hg : ∀ y, g y = g (stem y)) := read_of_stem g hg h6
  obtain ⟨v, d1, hqueue, hrunner, hshows, hbind, h7⟩ := stem_resetVisitors v5 ((hread (fun y => y.work.step) fun _ => rfl).trans hstep)
  have h8 := h7.trans (stem_update (fun y => withDisplay d1 (withVisitors v y)) (fun _ => rfl) h6)
  generalize resetVisitors v5 = v6 at h8
  obtain ⟨d, hpanel, hbind2, h9⟩ := stem_resetDisplay v6
  have h10 := h9.trans (stem_update (withDisplay d) (fun _ => rfl) h8)
  generalize resetDisplay v6 = v7 at h10
  have h11 : stem (setRunState .configuring (setLoads none [] v7)) = stem (configuring v7) := stem_setRunState _ .configuring
  have h12 := h11.trans (stem_update configuring (fun _ => rfl) h10)
  generalize setRunState .configuring (setLoads none [] v7) = v8 at h12
  have hfeed : stem (updateFeed v8) = stem (withFeedOff v8) := by
    have hoff : feedOn v8 = false := by
      have hstate : v8.exch.runState = .configuring := read_of_stem (fun y => y.exch.runState) (fun _ => rfl) h12
      unfold feedOn State.running
      rw [hstate]
      simp
    rw [stem_updateFeed, hoff]
    rfl
  refine ⟨p, v, d, ⟨hp.orders, hp.records.trans hrecs⟩, hqueue, hrunner, hshows.trans ((hread (fun y => y.vis.shows) fun _ => rfl).trans rfl),
    hpanel, hbind2.trans ?_, hfeed.trans ((stem_update withFeedOff (fun _ => rfl) h12).trans rfl)⟩
  exact (read_of_stem (fun y => y.disp.bind) (fun _ => rfl) h8).trans (hbind.trans ((hread (fun y => y.disp.bind) fun _ => rfl).trans rfl))

/-- What a layout reset has made of the machine where it comes to report itself and to answer its request. -/
structure WasReset (o : Option Nat) (s u : State) : Prop where
  stem : ∃ p v d, PointsReset s.pts p ∧ v.queue = [] ∧ v.runner = none ∧ v.shows = s.vis.shows ∧ d.panel = .awake ∧
    d.bind = s.disp.bind ∧ stem u = stem (unmarked (aborts o s.exch.inHand) (restored p v d s))
  word : u.read16 0x16 = 2
  own : Own s u
  done : ∀ n ∈ aborts o s.exch.inHand, ∀ g, Tbl.find s.exch.inHand n = some g → SlotDone n g .aborted 0 0 u

theorem WasReset.reported {o : Option Nat} {u : State} (h : WasReset o s u) (c i : Nat)
    (hn : ∀ n ∈ aborts o s.exch.inHand, n < Config.numSlots) : WasReset o s (reportLayout c i u) := by
  obtain ⟨p, v, d, hp, h1, h2, h3, h4, h5, hstem⟩ := h.stem
  exact ⟨⟨p, v, d, hp, h1, h2, h3, h4, h5, (stem_reportLayout u c i).trans hstem⟩, (word_report u _ _ _ _).read16.trans h.word,
    own_report h.own _ _ _ _, fun n hmem g hg => (h.done n hmem g hg).own (hn n hmem) (own_report (own_refl u) _ _ _ _)⟩

theorem aborts_marked {o : Option Nat} (hsorted : Tbl.sorted s.exch.inHand = true) (hslots : ∀ n g, (n, g) ∈ s.exch.inHand → n < 32) :
    (aborts o s.exch.inHand).Nodup ∧
      ∀ n ∈ aborts o s.exch.inHand, n < Config.numSlots ∧ ∃ g, Tbl.find s.exch.inHand n = some g := by
  refine ⟨List.Nodup.filter _ ?_, fun n hn => ?_⟩
  · have hkeys := nodup_keys hsorted fun _ => true
    rwa [List.filter_true] at hkeys
  · obtain ⟨⟨m, g⟩, hx, rfl⟩ := List.mem_map.1 (List.mem_of_mem_filter hn)
    exact ⟨hslots m g hx, g, find_of_mem hsorted hx⟩

/-- The reset up to its report. -/
theorem layoutReset_eq (o : Option Nat) (hm : s.memOk) (hsorted : Tbl.sorted s.exch.inHand = true)
    (hslots : ∀ n g, (n, g) ∈ s.exch.inHand → n < 32) (hstep : s.work.step = none) : ∃ u, WasReset o s u ∧
      layoutReset o s = match o with
        | some k => complete k .ok (aborts o s.exch.inHand).length 0 u
        | none => u := by
  obtain ⟨p, v, d, hp, h1, h2, h3, h4, h5, hstem⟩ := stem_restored hstep
  have hown : Own s (setLoads none [] (resetDisplay (resetVisitors (resetTable (resetSignals (resetPoints (resetRoutes (resetTags
      (resetSections s))))))))) :=
    own_setLoads _ _ _ (own_resetDisplay _ (own_resetVisitors _ (own_resetTable _ (own_resetSignals _ (own_resetPoints _
      (own_resetRoutes _ (own_resetTags _ (own_resetSections _ (own_refl s)))))))))
  generalize hx : setLoads none [] (resetDisplay (resetVisitors (resetTable (resetSignals (resetPoints (resetRoutes (resetTags
      (resetSections s)))))))) = x at hstem hown
  generalize hy : mirrorVisitor (settleButtons (updateFeed (setRunState .configuring x))) = y
  have hystem : stem y = stem (restored p v d s) := by
    rw [← hy, stem_mirrorVisitor, stem_settleButtons]
    exact hstem
  have hyword : y.read16 0x16 = 2 := by
    rw [← hy]
    exact (((word_updateFeed _).trans (word_settleButtons _)).trans (word_mirrorVisitor _)).read16.trans
      (word_setRunState .configuring (hown.mem hm))
  have hyown : Own s y := by
    rw [← hy]
    exact own_mirrorVisitor _ (own_settleButtons _ (own_updateFeed _ (own_setRunState hown _)))
  have hmarks : y.exch.inHand = s.exch.inHand := (read_of_stem (fun y => y.exch.inHand) (fun _ => rfl) hystem).trans rfl
  obtain ⟨hnodup, hall⟩ := aborts_marked (o := o) hsorted hslots
  rw [← hmarks] at hnodup hall hsorted
  obtain ⟨hbody, hdone⟩ := aborted_slots (aborts o y.exch.inHand) (hyown.mem hm) hsorted hnodup hall
  have hreset : WasReset o s (eachDo (aborts o y.exch.inHand) (fun n t => complete n .aborted 0 0 t) y) := by
    rw [hmarks] at hbody hdone ⊢
    exact ⟨⟨p, v, d, hp, h1, h2, h3, h4, h5, (stem_of_body hbody).trans (stem_update (unmarked _) (fun _ => rfl) hystem)⟩,
      (word_eachDo _ _ (fun n t => word_complete t n .aborted 0 0) y).read16.trans hyword,
      own_eachDo _ _ hyown fun n t => own_complete (own_refl t) n _ _ _, hdone⟩
  have hlow : ∀ n ∈ aborts o s.exch.inHand, n < Config.numSlots := by
    rw [← hmarks]
    exact fun n hn => (hall n hn).1
  rw [← hy, ← hx] at hreset
  cases o with
  | none => exact ⟨_, hreset.reported 6 0 hlow, rfl⟩
  | some k => exact ⟨_, hreset.reported 1 k hlow, by rw [← hmarks, ← hy, ← hx]; rfl⟩

end Reset

/-! ### What is left (R194) -/

/-- A field that neither the outputs nor the points' own states hold. -/
def Read (t u : State) : Prop := ∀ (α : Type) (g : State → α), (∀ y, g y = g (inside y)) → (∀ y, g y = g (stem y)) → g t = g u

theorem read_of_reset {t u w : State} (hin : inside t = inside u) (hstem : stem u = stem w) : Read t w :=
  fun _ g h1 h2 => (OrderEnds.read_of_inside g h1 hin).trans (read_of_stem g h2 hstem)

/-- A section's occupancy behind a layout reset (R22). -/
def restedSection (o : Occupancy) : Occupancy :=
  if o.state = .disabled then { o with discTimer := none, discFlag := false } else Occupancy.init

theorem find_restedTrack {s : State} {n : Nat} {o : Occupancy} (h : Tbl.find s.occ.secs n = some o) :
    Tbl.find (withRestedTrack s).occ.secs n = some
      { state := if o.state = .disabled then .disabled else .clear, count := if o.state = .disabled then o.count else 0,
        discTimer := none, discFlag := false } := by
  refine (LayoutStart.find_map (fun _ => restedSection) s.occ.secs n).trans ?_
  rw [h]
  unfold restedSection
  by_cases hd : o.state = .disabled
  · rw [Option.map_some, if_pos hd, if_pos hd, if_pos hd, ← hd]
  · rw [Option.map_some, if_neg hd, if_neg hd, if_neg hd]
    rfl

theorem kept_iff {x : DeckState} : x ∈ ([.aligned, .halted, .fault] : List DeckState) ↔ x.kept = true := by
  cases x <;> simp [DeckState.kept]

/-- The deck behind a layout reset (R141). -/
theorem deck_cleared {t u : Turntable} (h : u = { resetDeck t with feed := false }) :
    (u.requester = .none ∧ u.target = none ∧ u.feed = false ∧ u.turns = t.turns ∧ u.jogPermitted = t.jogPermitted) ∧
    (if t.state ∈ [.aligned, .halted, .fault]
      then u.state = t.state ∧ u.pos = t.pos ∧ u.align = t.align ∧ u.fault = t.fault
      else u.state = .unreferenced ∧ u.pos = none ∧ u.boltOut = false ∧ u.gen = none ∧ u.stepOut = false
        ∧ u.boltTimer = none ∧ u.settleTimer = none ∧ u.jogHold = none) ∧ u.deck = t.deck ∧ u.roads = t.roads := by
  subst h
  unfold resetDeck
  by_cases hk : t.state.kept = true
  · rw [if_pos hk, if_pos (kept_iff.2 hk)]
    exact ⟨⟨rfl, rfl, rfl, rfl, rfl⟩, ⟨rfl, rfl, rfl, rfl⟩, rfl, rfl⟩
  · rw [if_neg hk, if_neg (fun h => hk (kept_iff.1 h))]
    exact ⟨⟨rfl, rfl, rfl, rfl, rfl⟩, ⟨rfl, rfl, rfl, rfl, rfl, rfl, rfl, rfl⟩, rfl, rfl⟩

theorem cleared_of {s t : State} {e : Exchange} {p : PointUnit} {v : VisitorUnit} {d : Display} (hp : PointsReset s.pts p)
    (hqueue : v.queue = []) (hrunner : v.runner = none) (hshows : v.shows = s.vis.shows) (hpanel : d.panel = .awake)
    (hbind : d.bind = s.disp.bind) {l : List Nat} (hread : Read t (unmarked l (restored p v d { s with exch := e })))
    (hmarks : t.exch.inHand = []) (hword : t.read16 0x16 = 2) : Cleared s t := by
  have hocc : t.occ = (withRestedTrack s).occ := hread _ (fun y => y.occ) (fun _ => rfl) fun _ => rfl
  have hilk : t.ilk = { s.ilk with active := [], stack := [], locks := [], holders := [] } :=
    hread _ (fun y => y.ilk) (fun _ => rfl) fun _ => rfl
  have htt : t.tt = { resetDeck s.tt with feed := false } := hread _ (fun y => y.tt) (fun _ => rfl) fun _ => rfl
  obtain ⟨horders, hrecs⟩ := hp
  obtain ⟨hdeck, hstate, hrec, hroads⟩ := deck_cleared htt
  obtain ⟨ho1, ho2, ho3, ho4⟩ := horders
  exact {
    runState := ⟨hread _ (fun y => y.exch.runState) (fun _ => rfl) fun _ => rfl, hword⟩
    routes := ⟨congrArg (fun x : Interlocking => x.active) hilk, congrArg (fun x : Interlocking => x.stack) hilk,
      congrArg (fun x : Interlocking => x.locks) hilk, congrArg (fun x : Interlocking => x.holders) hilk⟩
    orders := ⟨(hread _ (fun y => y.pts.queue) (fun _ => rfl) fun _ => rfl).trans ho1,
      (hread _ (fun y => y.pts.overflow) (fun _ => rfl) fun _ => rfl).trans ho2,
      (hread _ (fun y => y.pts.coil) (fun _ => rfl) fun _ => rfl).trans ho3,
      (hread _ (fun y => y.pts.drives) (fun _ => rfl) fun _ => rfl).trans ho4⟩
    tags := ⟨hread _ (fun y => y.tags.table) (fun _ => rfl) fun _ => rfl, hread _ (fun y => y.tags.fields) (fun _ => rfl) fun _ => rfl⟩
    shows := ⟨(hread _ (fun y => y.vis.queue) (fun _ => rfl) fun _ => rfl).trans hqueue,
      (hread _ (fun y => y.vis.runner) (fun _ => rfl) fun _ => rfl).trans hrunner⟩
    loads := ⟨hread _ (fun y => y.exch.reading) (fun _ => rfl) fun _ => rfl, hread _ (fun y => y.exch.loads) (fun _ => rfl) fun _ => rfl,
      hmarks⟩
    stop := ⟨hread _ (fun y => y.asp.cond) (fun _ => rfl) fun _ => rfl, hread _ (fun y => y.asp.cause) (fun _ => rfl) fun _ => rfl,
      hread _ (fun y => y.asp.power) (fun _ => rfl) fun _ => rfl⟩
    panel := (hread _ (fun y => y.disp.panel) (fun _ => rfl) fun _ => rfl).trans hpanel
    sections := fun n o ho => by rw [hocc]; exact find_restedTrack ho
    detection := ⟨(congrArg (fun x : OccUnit => x.heads) hocc).trans rfl, (congrArg (fun x : OccUnit => x.filters) hocc).trans rfl⟩
    deck := hdeck
    deckState := hstate
    records := ⟨(congrArg (fun x : OccUnit => x.recs) hocc).trans rfl, (congrArg (fun x : Interlocking => x.routes) hilk).trans rfl,
      (hread _ (fun y => y.pts.recs) (fun _ => rfl) fun _ => rfl).trans hrecs, hread _ (fun y => y.asp.recs) (fun _ => rfl) fun _ => rfl, hrec,
      hroads, (hread _ (fun y => y.vis.shows) (fun _ => rfl) fun _ => rfl).trans hshows,
      (hread _ (fun y => y.disp.bind) (fun _ => rfl) fun _ => rfl).trans hbind⟩ }

theorem quietEnd_reset {o : Option Nat} {s u : State} (hstep : s.work.step = none) (h : WasReset o s u) : quietEnd u = true := by
  obtain ⟨p, v, d, hp, hqueue, -, -, -, -, hstem⟩ := h.stem
  have hread {α : Type} (g : State → α) (hg : ∀ y, g y = g (stem y)) := read_of_stem g hg hstem
  obtain ⟨⟨horders, -⟩, -⟩ := hp
  exact quietEnd_of_empty u ((hread (fun y => y.work.step) fun _ => rfl).trans hstep) ((hread (fun y => y.vis.queue) fun _ => rfl).trans hqueue)
    ((hread (fun y => y.pts.queue) fun _ => rfl).trans horders) (hread (fun y => y.ilk.stack) fun _ => rfl)

/-- The machine behind a LAYOUT_RESET whose answer is yet to come. -/
def unanswered (pts : Tbl PointState) (p : PointUnit) (v : VisitorUnit) (d : Display) (s : State) : State :=
  let u := restored p v d s
  { u with exch := { u.exch with inHand := [] }, pts := { u.pts with state := pts } }

theorem restored_exch (p : PointUnit) (v : VisitorUnit) (d : Display) (s : State) (e : Exchange) :
    restored p v d { s with exch := e }
      = { restored p v d s with exch := { e with runState := .configuring, reading := none, loads := [] } } := rfl

section Request
variable {s : State} {tag : HostTag} {rs : RunState}

theorem inside_unanswered {u : State} {q : Request} {p : PointUnit} {v : VisitorUnit} {d : Display}
    (hsorted : Tbl.sorted s.exch.inHand = true)
    (h : stem u = stem (unmarked (aborts (some s.exch.takePos) (taken q s).exch.inHand) (restored p v d (taken q s)))) :
    inside u = inside (((unanswered u.pts.state p v d s).inHand q.tag).served) := by
  have hmarks : (taken q s).exch.inHand = Tbl.insert s.exch.inHand s.exch.takePos q.tag := taken_mark q s
  have hone : without (aborts (some s.exch.takePos) (taken q s).exch.inHand) (taken q s).exch.inHand = [(s.exch.takePos, q.tag)] :=
    without_aborts_some (by rw [hmarks]; exact Tbl.sorted_insert _ _ _ hsorted) (by rw [hmarks]; exact Tbl.find_insert_self _ _ _)
  have hport : (taken q s).exch = (((s.inHand q.tag).served).withMem (taken q s).exch.mem).exch := congrArg State.exch (taken_shape q s)
  have heq : unmarked (aborts (some s.exch.takePos) (taken q s).exch.inHand) (restored p v d (taken q s))
      = { restored p v d s with exch := { (taken q s).exch with
          runState := .configuring, reading := none, loads := [], inHand := [(s.exch.takePos, q.tag)] } } := by
    rw [← hone, LayoutStart.taken_exch, restored_exch]
    rfl
  rw [LayoutStart.inside_of_stem h, heq, hport]
  rfl

theorem request_resets (h : Ready rs s) (hrs : rs ≠ .initializing) (hwork : s.work = Work.none)
    (hsorted : Tbl.sorted s.exch.inHand = true) (hslots : ∀ n g, (n, g) ∈ s.exch.inHand → n < 32) :
    ∃ t, exec (.layoutReset tag) s = .next t ∧
      SlotDone s.exch.takePos tag .ok (s.exch.inHand.filter fun x => x.1 != s.exch.takePos).length 0 t ∧ Cleared s t ∧
      (∀ n g, Tbl.find s.exch.inHand n = some g → SlotDone n g .aborted 0 0 t) ∧ MemoryKept (some s.exch.takePos) s t := by
  let q : Request := ⟨10, tag, 0#32, 0#32, 0#32⟩
  have hmarks : (taken q s).exch.inHand = Tbl.insert s.exch.inHand s.exch.takePos tag := taken_mark q s
  have hn : s.exch.takePos < Config.numSlots := h.sound.limits.takePos
  have hsorted' : Tbl.sorted (taken q s).exch.inHand = true := by rw [hmarks]; exact Tbl.sorted_insert _ _ _ hsorted
  have hslots' : ∀ n g, (n, g) ∈ (taken q s).exch.inHand → n < 32 := by
    intro n g hx
    rw [hmarks] at hx
    obtain hx | hx := Tbl.mem_insert hx
    · rw [(Prod.mk.inj hx).1]
      exact hn
    · exact hslots n g hx
  have hstep : (taken q s).work.step = none := by rw [work_taken, hwork]; rfl
  obtain ⟨u, hu, hlayout⟩ := layoutReset_eq (some s.exch.takePos) (mem_taken q s h.sound.mem) hsorted' hslots' hstep
  have hquiet := quietEnd_reset hstep hu
  obtain ⟨p, v, d, hp, hqueue, hrunner, hshows, hpanel, hbind, hstem⟩ := hu.stem
  have hin := inside_unanswered hsorted hstem
  have hallowed : Allowed.both.ok rs = true := by
    cases rs with
    | initializing => exact absurd rfl hrs
    | configuring => rfl
    | running => rfl
  obtain ⟨t, hexec, hdone, hinside, hmem, hown, hword⟩ := answered_word (c := .layoutReset tag) (q := q) (al := .both)
    (f := fun n => layoutReset (some n)) (rs := rs) rfl h hallowed hrs hlayout hu.own hin rfl rfl hquiet
  rw [hmarks, length_aborts hsorted h.mark] at hdone
  refine ⟨t, hexec, hdone, ?_, fun n g hg => ?_, hmem⟩
  · have hread : Read t (unmarked [] (restored p v d { s with exch := (unanswered u.pts.state p v d s).served.exch })) :=
      read_of_reset (u := (unanswered u.pts.state p v d s).served) hinside rfl
    rw [read_taken (fun y => y.pts) q s fun _ => rfl] at hp
    rw [read_taken (fun y => y.vis) q s fun _ => rfl] at hshows
    rw [read_taken (fun y => y.disp) q s fun _ => rfl] at hbind
    exact cleared_of hp hqueue hrunner hshows hpanel hbind hread (hread _ (fun y => y.exch.inHand) (fun _ => rfl) fun _ => rfl)
      (hword.trans hu.word)
  · have hne : n ≠ s.exch.takePos := fun e => by rw [e, h.mark] at hg; cases hg
    have hfind : Tbl.find (taken q s).exch.inHand n = some g := by rw [hmarks, Tbl.find_insert_other _ _ _ _ hne]; exact hg
    have hmem : n ∈ aborts (some s.exch.takePos) (taken q s).exch.inHand :=
      List.mem_filter.2 ⟨List.mem_map_of_mem (mem_of_find hfind), bne_iff_ne.2 fun e => hne (Option.some.inj e).symm⟩
    exact (hu.done n hmem g hfind).own (hslots n g (mem_of_find hg)) hown

end Request

/-- Settles O60: each block's part one after another, and the slots in hand completed in turn. -/
theorem layoutResetClearsTheLayout : Obligations.LayoutResetClearsTheLayout := by
  refine ⟨fun s tag rs h hrs hwork hsorted hslots => request_resets h hrs hwork hsorted hslots, fun s hrs hwork hsound hsorted hslots => ?_,
    fun s h => ?_⟩
  · have hexec : exec .controlLayoutReset s = .next (finish s (layoutReset none (breakPairing s))) := by
      change Host.Outcome.next (if s.exch.runState = .initializing then _ else _) = _
      rw [if_neg hrs]
    have hstep : (breakPairing s).work.step = none := by change s.work.step = none; rw [hwork]; rfl
    obtain ⟨u, hu, hlayout⟩ := layoutReset_eq (s := breakPairing s) none hsound.mem hsorted hslots hstep
    have hquiet := quietEnd_reset hstep hu
    obtain ⟨p, v, d, hp, hqueue, hrunner, hshows, hpanel, hbind, hstem⟩ := hu.stem
    have hown : Own s (finish s u) := own_finish _ _ ((own_same (t := breakPairing s) (own_refl s) rfl rfl).trans hu.own)
    refine ⟨_, hexec.trans (by rw [hlayout]), ?_, fun n g hg => ?_, memoryKept_of_own hown⟩
    · have hread := read_of_reset (inside_finish s u hquiet) hstem
      refine cleared_of (s := s) (e := (breakPairing s).exch) hp hqueue hrunner hshows hpanel hbind hread
        ?_ ((word_finish u s hquiet).read16.trans hu.word)
      exact (hread _ (fun y => y.exch.inHand) (fun _ => rfl) fun _ => rfl).trans (without_aborts_none _)
    · have hmem : n ∈ aborts none (breakPairing s).exch.inHand :=
        List.mem_filter.2 ⟨List.mem_map_of_mem (mem_of_find hg), rfl⟩
      exact (hu.done n hmem g hg).own (hslots n g (mem_of_find hg)) (own_finish _ _ (own_refl u))
  · change Host.Outcome.next (if s.exch.runState = .initializing then _ else _) = _
    rw [if_pos h]
    rfl

end Sys2Proof.LayoutResets
end

