-- ==== Sys2Proof/Proofs/RouteSetting.lean ====
section
/-! A route accepted: its entry, its locks and its holdings, its orders, and the route SET at once (O30, O32). -/

namespace Sys2Proof.RouteSetting

open Sys2Proof.Machine Sys2Proof.ReportLog Sys2Proof.RequestIntake Sys2Proof.TrackDetection Sys2Proof.TrackRequests
  Sys2Proof.RouteRelease Sys2Proof.PointLies Sys2Proof.SlotBytes

/-! ### Locks and holdings taken (R62, R63) -/

theorem lockOf_setLock (n k m : Nat) (s : State) : lockOf (setLock n (some k) s) m = if m = n then some k else lockOf s m := by
  unfold lockOf
  rw [ilk_setLock_some]
  split
  · next h => rw [h]; exact Tbl.find_insert_self _ _ _
  · next h => exact Tbl.find_insert_other _ _ _ _ h

/-- The sections of a list locked for a route. -/
def locking (l : List Nat) (k : Nat) (s : State) : State := eachDo l (fun n => setLock n (some k)) s

theorem locking_append (l : List Nat) (m k : Nat) (s : State) : locking (l ++ [m]) k s = setLock m (some k) (locking l k s) := by
  unfold locking eachDo; rw [List.foldl_append]; rfl

theorem routesAlone_locking (l : List Nat) (k : Nat) (s : State) : RoutesAlone s (locking l k s) :=
  .eachDo (fun n t => routesAlone_setLock n (some k) t) s

theorem lockOf_locking (l : List Nat) (k m : Nat) (s : State) :
    lockOf (locking l k s) m = if m ∈ l then some k else lockOf s m := by
  induction l using List.reverseRecOn with
  | nil => rw [if_neg (by simp)]; rfl
  | append_singleton l n ih =>
    rw [locking_append, lockOf_setLock, ih]
    by_cases h : m = n <;> simp [h]

theorem ilk_locking (l : List Nat) (k : Nat) (s : State) :
    ∃ t, (locking l k s).ilk = { s.ilk with locks := t } := by
  induction l using List.reverseRecOn with
  | nil => exact ⟨_, rfl⟩
  | append_singleton l n ih =>
    obtain ⟨t, ht⟩ := ih
    exact ⟨_, by rw [locking_append, ilk_setLock_some, ht]⟩

/-- A holder list with one route more. -/
def joinedBy (l : Lie) (k : Nat) (h : Holders) : Holders :=
  { routes := h.routes ++ [k], shared := if h.routes = [] then some l else h.shared }

theorem ilk_addHolder (p : Nat) (l : Lie) (k : Nat) (s : State) : (addHolder p l k s).ilk
    = { s.ilk with holders := Tbl.insert s.ilk.holders p (joinedBy l k (holdersOf s p)) } := by
  have hne : ¬ joinedBy l k (holdersOf s p) = Holders.none := fun h => by
    have g := congrArg Holders.routes h
    exact absurd g (by simp [joinedBy, Holders.none])
  have hput : Tbl.put Holders.none s.ilk.holders p (joinedBy l k (holdersOf s p))
      = Tbl.insert s.ilk.holders p (joinedBy l k (holdersOf s p)) := by unfold Tbl.put; exact if_neg hne
  rw [← hput]
  exact ilk_setHolders p _ s

theorem holdersOf_addHolder (p : Nat) (l : Lie) (k q : Nat) (s : State) :
    holdersOf (addHolder p l k s) q = if q = p then joinedBy l k (holdersOf s p) else holdersOf s q := by
  have heq : holdersOf (addHolder p l k s) q
      = Tbl.getD (Tbl.insert s.ilk.holders p (joinedBy l k (holdersOf s p))) q Holders.none := by
    unfold holdersOf; rw [ilk_addHolder]; rfl
  rw [heq]
  unfold Tbl.getD
  split
  · next h => rw [h, Tbl.find_insert_self]; rfl
  · next h => rw [Tbl.find_insert_other _ _ _ _ h]; rfl

/-- A route in the holder lists of its points. -/
def joining (l : List (Nat × Lie)) (k : Nat) (s : State) : State := l.foldl (fun t x => addHolder x.1 x.2 k t) s

theorem joining_append (l : List (Nat × Lie)) (x : Nat × Lie) (k : Nat) (s : State) :
    joining (l ++ [x]) k s = addHolder x.1 x.2 k (joining l k s) := by
  unfold joining; rw [List.foldl_append]; rfl

theorem routesAlone_joining (l : List (Nat × Lie)) (k : Nat) (s : State) : RoutesAlone s (joining l k s) := by
  induction l using List.reverseRecOn with
  | nil => exact RoutesAlone.refl s
  | append_singleton l x ih => rw [joining_append]; exact ih.trans (routesAlone_addHolder _ _ _ _)

theorem ilk_joining (l : List (Nat × Lie)) (k : Nat) (s : State) :
    ∃ t, (joining l k s).ilk = { s.ilk with holders := t } := by
  induction l using List.reverseRecOn with
  | nil => exact ⟨_, rfl⟩
  | append_singleton l x ih =>
    obtain ⟨t, ht⟩ := ih
    exact ⟨_, by rw [joining_append, ilk_addHolder, ht]⟩

theorem mem_joining {l : List (Nat × Lie)} {x : Nat × Lie} (k : Nat) (s : State) (h : x ∈ l) :
    k ∈ (holdersOf (joining l k s) x.1).routes := by
  induction l using List.reverseRecOn with
  | nil => cases h
  | append_singleton l y ih =>
    rw [joining_append, holdersOf_addHolder]
    obtain h | h := List.mem_append.1 h
    · split
      · next e => exact List.mem_append_left _ (e ▸ ih h)
      · exact ih h
    · rw [if_pos (by rw [List.mem_singleton.1 h])]
      exact List.mem_append_right _ List.mem_cons_self

theorem holdersOf_joining_other {l : List (Nat × Lie)} {p : Nat} (k : Nat) (s : State) (h : ∀ x ∈ l, x.1 ≠ p) :
    holdersOf (joining l k s) p = holdersOf s p := by
  induction l using List.reverseRecOn with
  | nil => rfl
  | append_singleton l y ih =>
    rw [joining_append, holdersOf_addHolder, if_neg fun e => h y (by simp) e.symm,
      ih fun x hx => h x (List.mem_append_left _ hx)]

/-! ### A route booked (R66) -/

/-- The entry of a route with its locks and its holdings. -/
def booked (e : Nat) (a : Active) (r : RouteRec) (s : State) : State :=
  joining (routePoints r) a.route (locking (sequence r) a.route (putActive e a s))

/-- What a booking leaves: the interlocking's own tables, and with them the points' loss timers. -/
structure Booked (e : Nat) (a : Active) (r : RouteRec) (s v : State) : Prop where
  alone : RoutesAlone s v
  active : v.ilk.active = Tbl.insert s.ilk.active e a
  locks : ∀ n, lockOf v n = if n ∈ sequence r then some a.route else lockOf s n
  holders : ∀ p, holdersOf v p = holdersOf (joining (routePoints r) a.route s) p

theorem holdersOf_joining_congr (l : List (Nat × Lie)) (k p : Nat) {s t : State} (h : s.ilk.holders = t.ilk.holders) :
    holdersOf (joining l k s) p = holdersOf (joining l k t) p := by
  have hall (q : Nat) : holdersOf (joining l k s) q = holdersOf (joining l k t) q := by
    induction l using List.reverseRecOn generalizing q with
    | nil => unfold holdersOf joining; rw [List.foldl_nil, List.foldl_nil, h]
    | append_singleton l x ih =>
      rw [joining_append, joining_append, holdersOf_addHolder, holdersOf_addHolder, ih, ih]
  exact hall p

theorem booked_booked (e : Nat) (a : Active) (r : RouteRec) (s : State) : Booked e a r s (booked e a r s) := by
  have hput : RoutesAlone s (putActive e a s) := ⟨rfl, rfl, rfl, fun _ => rfl⟩
  obtain ⟨t, ht⟩ := ilk_locking (sequence r) a.route (putActive e a s)
  obtain ⟨t', ht'⟩ := ilk_joining (routePoints r) a.route (locking (sequence r) a.route (putActive e a s))
  rw [ht] at ht'
  have hilk : (booked e a r s).ilk = _ := ht'
  refine ⟨(hput.trans (routesAlone_locking _ _ _)).trans (routesAlone_joining _ _ _), by rw [hilk]; rfl, fun n => ?_, fun p => ?_⟩
  · have hsame : lockOf (booked e a r s) n = lockOf (locking (sequence r) a.route (putActive e a s)) n := by
      unfold lockOf; rw [hilk, ht]
    rw [hsame, lockOf_locking]
    rfl
  · exact holdersOf_joining_congr _ _ p (by rw [ht]; rfl)

/-- A booking read through the outputs. -/
theorem Booked.of_body {e : Nat} {a : Active} {r : RouteRec} {s v w : State} (h : Booked e a r s v) (hb : body w = body v) :
    Booked e a r s w where
  alone := h.alone.trans (.of_body hb)
  active := (read_of_body (fun u => u.ilk.active) (fun _ => rfl) hb).trans h.active
  locks n := (read_of_body (fun u => lockOf u n) (fun _ => rfl) hb).trans (h.locks n)
  holders p := (holders_of_body hb p).trans (h.holders p)

/-- The booked entry, changed in its place. -/
theorem Booked.put {e : Nat} {a b : Active} {r : RouteRec} {s v : State} (h : Booked e a r s v) (hb : b.route = a.route) :
    Booked e b r s (putActive e b v) where
  alone := h.alone.trans ⟨rfl, rfl, rfl, fun _ => rfl⟩
  active := by change Tbl.insert v.ilk.active e b = _; rw [h.active, insert_insert]
  locks n := (h.locks n).trans (by rw [hb])
  holders p := (h.holders p).trans (by rw [hb])

theorem Booked.find {e : Nat} {a : Active} {r : RouteRec} {s v : State} (h : Booked e a r s v) :
    Tbl.find v.ilk.active e = some a := by rw [h.active]; exact Tbl.find_insert_self _ _ _

/-- Inside, a state that differs in the interlocking's own tables alone. -/
theorem inside_of_routesAlone {s v : State} (h : RoutesAlone s v) : inside v = inside { s with
    ilk := { s.ilk with active := v.ilk.active, locks := v.ilk.locks, holders := v.ilk.holders }
    pts := { s.pts with state := v.pts.state } } := by
  have g := congrArg (fun u : State => inside { u with
    ilk := { u.ilk with active := v.ilk.active, locks := v.ilk.locks, holders := v.ilk.holders }
    pts := { u.pts with state := v.pts.state } }) h.rest
  exact g

/-! ### A proved route SET at once (R67) -/

/-- A slot's mark cleared. -/
def unmarked (n : Nat) (s : State) : State := { s with exch := { s.exch with inHand := Tbl.erase s.exch.inHand n } }

/-- A route that becomes SET answers its slot OK with its entry. -/
theorem becomeSet_slot {s : State} {e n : Nat} {tag : HostTag} {a : Active} {r : RouteRec} (left : RouteState)
    (ha : Tbl.find s.ilk.active e = some a) (hr : Tbl.find s.ilk.routes a.route = some r) (hslot : a.slot = some n)
    (hshow : a.show_ = none) (hc : ∀ f, (elementSections r).head? = some f → secState s f = .clear) (hn : n < Config.numSlots)
    (hm : s.memOk) (hmark : Tbl.find s.exch.inHand n = some tag) (hback : Tbl.find (Tbl.erase s.exch.inHand n) n = none) :
    body (becomeSet e left s) = body (unmarked n (wantAspects (putActive e { a with state := .set, slot := none } s))) ∧
      SlotDone n tag .ok e 0 (becomeSet e left s) := by
  generalize hu : report .routeSet a.route (halves e left.code) (halves a.originator.code a.originator.panel)
    (setActive e { a with state := .set } s) = u
  have hub : body u = body (putActive e { a with state := .set } s) := by
    rw [← hu, body_report]; exact body_mirrorActive _ _
  have hua : Tbl.find u.ilk.active e = some { a with state := .set } :=
    (read_of_body (fun x => Tbl.find x.ilk.active e) (fun _ => rfl) hub).trans (Tbl.find_insert_self _ _ _)
  generalize hv : setActive e { a with state := .set, slot := none } u = v
  have hvb : body v = body (putActive e { a with state := .set, slot := none } s) := by
    have h1 : body v = body (putActive e { a with state := .set, slot := none } u) := by rw [← hv]; exact body_mirrorActive _ _
    have h2 := body_update (putActive e { a with state := .set, slot := none }) (fun _ => rfl) hub
    rw [h1, h2]
    unfold putActive
    dsimp only
    rw [insert_insert]
  have hmarks : v.exch.inHand = s.exch.inHand := (read_of_body (fun x => x.exch.inHand) (fun _ => rfl) hvb).trans rfl
  have hown : Own s v := by
    rw [← hv, ← hu]
    exact own_setActive _ _ _ (own_report (own_setActive _ _ _ (own_refl s)) _ _ _ _)
  have hanswer : answerSlot e .ok e 0 u = complete n .ok e 0 v := by rw [answerSlot_eq .ok e 0 hua hslot, hv]
  have hdone : SlotDone n tag .ok e 0 (complete n .ok e 0 v) :=
    slotDone_complete n tag .ok e 0 v hn (hown.mem hm) (by rw [hmarks]; exact hmark) (by rw [hmarks]; exact hback)
  have hcb : body (complete n .ok e 0 v) = body (unmarked n (putActive e { a with state := .set, slot := none } s)) :=
    (body_completed .ok e 0 hn (by rw [hmarks]; exact hmark)).trans (body_update (unmarked n) (fun _ => rfl) hvb)
  have hent : immediateEntry e (wantAspects (complete n .ok e 0 v)) = wantAspects (complete n .ok e 0 v) := by
    refine immediateEntry_clear (s := wantAspects (complete n .ok e 0 v)) (a := { a with state := .set, slot := none }) (r := r)
      ?_ ?_ fun f hf => ?_
    · exact (read_of_body (fun x => Tbl.find x.ilk.active e) (fun _ => rfl) hcb).trans (Tbl.find_insert_self _ _ _)
    · exact (read_of_body (fun x => Tbl.find x.ilk.routes a.route) (fun _ => rfl) hcb).trans hr
    · exact (read_of_body (fun x => secState x f) (fun _ => rfl) hcb).trans (hc f hf)
  have heq : becomeSet e left s = wantAspects (complete n .ok e 0 v) := by
    unfold becomeSet
    rw [ha]
    dsimp only
    rw [hu, hanswer, tellShow_none _ _ hshow, hent]
  rw [heq]
  exact ⟨body_update wantAspects (fun _ => rfl) hcb, hdone.own hn (own_same (own_refl _) rfl rfl)⟩

/-! ### Acceptance (R50, R66) -/

/-- The move orders of a route given. -/
def ordering (e : Nat) (moves : List (Nat × Lie)) (s : State) : State := moves.foldl (fun t x => giveOrder (routeOrder e x) t) s

/-- The points that a route finds to move. -/
def movesOf (s : State) (r : RouteRec) : List (Nat × Lie) := (routePoints r).filter (needsMoving s)

theorem acceptRoute_eq {s : State} {route n e : Nat} {r : RouteRec} (o : Originator) (hr : Tbl.find s.ilk.routes route = some r)
    (he : Tbl.lowestFree s.ilk.active Config.numActive 0 = some e) : acceptRoute route o (.slot n) s
      = testProved e (mirrorSignal r.entry (mirrorActive e (ordering e (movesOf s r)
          (booked e (acceptedEntry route r o (.slot n) ((movesOf s r).map Prod.fst)) r s)))) := by
  unfold acceptRoute
  rw [hr, he]
  rfl

theorem movesOf_none {s : State} {r : RouteRec} (hq : s.pts.queue = []) (ho : s.pts.overflow = [])
    (hp : ∀ x ∈ routePoints r, detLie s x.1 = x.2.det) : movesOf s r = [] := by
  refine List.filter_eq_nil_iff.2 fun x hx => ?_
  unfold needsMoving
  rw [hp x hx, orderOf_none hq ho]
  simp

theorem own_booked {z : State} (e : Nat) (a : Active) (r : RouteRec) (s : State) (h : Own z s) : Own z (booked e a r s) := by
  have hjoin (l : List (Nat × Lie)) (u : State) (hu : Own z u) : Own z (joining l a.route u) := by
    induction l generalizing u with
    | nil => exact hu
    | cons x l ih => exact ih _ (own_addHolder x.1 x.2 a.route u hu)
  have hput : Own z (putActive e a s) := own_same h rfl rfl
  exact hjoin _ _ (own_eachDo _ _ hput fun n t => own_setLock n (some a.route) t (own_refl t))

/-- The entry of a route that is SET as it is accepted from a slot. -/
def setEntry (route : Nat) (o : Originator) (r : RouteRec) : Active :=
  { acceptedEntry route r o (.slot 0) [] with state := .set, slot := none }

/-- A route with nothing to move and every section CLEAR is SET as it is accepted: w is the machine with the route's entry, locks
and holdings. -/
theorem acceptRoute_proved {s : State} {route n e : Nat} {tag : HostTag} {r : RouteRec} (o : Originator)
    (hr : Tbl.find s.ilk.routes route = some r) (he : Tbl.lowestFree s.ilk.active Config.numActive 0 = some e)
    (hcond : s.asp.cond = .running) (hq : s.pts.queue = []) (ho : s.pts.overflow = [])
    (hp : ∀ x ∈ routePoints r, detLie s x.1 = x.2.det) (hs : ∀ m ∈ sequence r, secState s m = .clear) (hn : n < Config.numSlots)
    (hm : s.memOk) (hmark : Tbl.find s.exch.inHand n = some tag) (hback : Tbl.find (Tbl.erase s.exch.inHand n) n = none) :
    ∃ w, Booked e (setEntry route o r) r s w ∧
      body (acceptRoute route o (.slot n) s) = body (unmarked n (wantAspects w)) ∧
      SlotDone n tag .ok e 0 (acceptRoute route o (.slot n) s) := by
  have heq := acceptRoute_eq (n := n) o hr he
  rw [movesOf_none hq ho hp] at heq
  let a := acceptedEntry route r o (.slot n) []
  generalize hu : mirrorSignal r.entry (mirrorActive e (ordering e [] (booked e a r s))) = u
  have heq' : acceptRoute route o (.slot n) s = testProved e u := heq.trans (congrArg (testProved e) hu)
  have hub : body u = body (booked e a r s) := by rw [← hu, body_mirrorSignal, body_mirrorActive]; rfl
  have hbook : Booked e a r s u := (booked_booked e a r s).of_body hub
  have hown : Own s u := by
    rw [← hu]
    exact own_mirrorSignal _ _ (own_mirrorActive e _ (own_booked e a r s (own_refl s)))
  have hsec (m : Nat) (hmem : m ∈ sequence r) : secState u m = .clear :=
    (hbook.alone.read (fun x => secState x m) fun _ => rfl).trans (hs m hmem)
  have hroute : Tbl.find u.ilk.routes route = some r := (hbook.alone.read (fun x => Tbl.find x.ilk.routes route) fun _ => rfl).trans hr
  have hmarks : u.exch.inHand = s.exch.inHand := hbook.alone.read (fun x => x.exch.inHand) fun _ => rfl
  have hproved := testProved_proved (a := a) hbook.find hroute (.inl rfl) ((hbook.alone.read (fun x => x.asp.cond) fun _ => rfl).trans hcond)
    (proved_of (fun x hx => (hbook.alone.detLie x.1).trans (hp x hx)) hsec)
  obtain ⟨hb, hdone⟩ := becomeSet_slot (n := n) (tag := tag) a.state hbook.find hroute rfl rfl
    (fun f hf => hsec f (List.mem_append_left _ (List.mem_of_mem_head? hf))) hn (hown.mem hm) (by rw [hmarks]; exact hmark)
    (by rw [hmarks]; exact hback)
  rw [heq', hproved]
  exact ⟨_, hbook.put rfl, hb, hdone⟩

/-! ### SET_ROUTE accepted -/

/-- A route that passes its checks finds the layout RUNNING. -/
theorem cond_of_passes {s : State} {route : Nat} {o : Originator} {again : Bool} (h : routeRefusal s route o again = none) :
    s.asp.cond = .running := by
  unfold routeRefusal at h
  split at h
  · cases h
  · obtain ⟨hwhole, -⟩ := Option.or_eq_none_iff.1 h
    unfold wholeRefusal at hwhole
    split at hwhole
    · cases hwhole
    · split at hwhole
      · cases hwhole
      · split at hwhole
        · cases hwhole
        · split at hwhole
          · cases hwhole
          · next hc =>
            cases hrun : s.asp.cond with
            | running => rfl
            | allStop => exact absurd hrun hc

/-- A request whose block answers it, perhaps before the block's end. -/
theorem settled_next {c : Instr} {s v : State} {q : Request} {r : Result} {w0 w1 : Nat} {al : Allowed} {f : Nat → State → State}
    {rs : RunState} (e : exec c s = .next (requestCommand al f q s)) (h : Ready rs s) (hal : al.ok rs = true)
    (hrs : rs ≠ .initializing) (hf : f s.exch.takePos (taken q s) = v) (hdone : SlotDone s.exch.takePos q.tag r w0 w1 v)
    (ho : Own (taken q s) v) (hq : quietEnd v = true) :
    ∃ t, exec c s = .next t ∧ SlotDone s.exch.takePos q.tag r w0 w1 t ∧ inside t = inside v ∧
      MemoryKept (some s.exch.takePos) s t ∧ Own v t := by
  have hn : s.exch.takePos < Config.numSlots := h.sound.limits.takePos
  refine ⟨_, e, ?_⟩
  rw [request_next h hal hrs, hf]
  exact ⟨hdone.own hn (own_finish _ _ (own_refl _)), inside_finish _ _ hq, memoryKept_taken (own_finish _ _ ho),
    own_finish _ _ (own_refl v)⟩

theorem setRoute_accepts {t : State} {n : Nat} {route w1 w2 : Word} {o : Originator} (ho : originatorOf w1.toNat = some o)
    (hr : route.toNat ≤ 511) (h : routeRefusal t route.toNat o false = none) :
    setRoute n route.toNat w1.toNat w2.toNat t = acceptRoute route.toNat o (.slot n) t := by
  have hreq (b : Bool) : requestRoute route.toNat o b (.slot n) t = (acceptRoute route.toNat o (.slot n) t, none) := by
    unfold requestRoute; rw [h]
  unfold setRoute
  rw [ho]
  dsimp only
  rw [if_neg (by omega), hreq]

/-- The machine with the interlocking's own tables and the points' own states of another. -/
def withRoutesOf (v s : State) : State := { s with
  ilk := { s.ilk with active := v.ilk.active, locks := v.ilk.locks, holders := v.ilk.holders }
  pts := { s.pts with state := v.pts.state } }

/-- Settles O30: a route that finds nothing to move is SET as it is accepted. -/
theorem setRouteBecomesSet : Obligations.SetRouteBecomesSet := by
  intro s tag route w1 w2 o r e h hq hlt ho hr hpass he hp hs
  let q : Request := ⟨15, tag, route, w1, w2⟩
  have hread {α : Type} (k : State → α) (hk : ∀ m, k (((s.inHand q.tag).served).withMem m) = k s) : k (taken q s) = k s :=
    read_taken k q s hk
  have hn : s.exch.takePos < Config.numSlots := h.sound.limits.takePos
  have herase : Tbl.erase (taken q s).exch.inHand s.exch.takePos = s.exch.inHand := by
    rw [taken_mark]; exact Tbl.erase_insert _ _ _ h.mark
  obtain ⟨w, hbook, hb, hdone⟩ := acceptRoute_proved (n := s.exch.takePos) (tag := tag) (s := taken q s) o
    ((hread (fun u => Tbl.find u.ilk.routes route.toNat) fun _ => rfl).trans hr)
    ((hread (fun u => Tbl.lowestFree u.ilk.active Config.numActive 0) fun _ => rfl).trans he)
    ((hread (fun u => u.asp.cond) fun _ => rfl).trans (cond_of_passes hpass))
    ((hread (fun u => u.pts.queue) fun _ => rfl).trans hq.orders) ((hread (fun u => u.pts.overflow) fun _ => rfl).trans hq.overflow)
    (fun x hx => (hread (fun u => detLie u x.1) fun _ => rfl).trans (hp x hx))
    (fun m hm => (hread (fun u => secState u m) fun _ => rfl).trans (hs m hm)) hn (mem_taken q s h.sound.mem)
    (by rw [taken_mark]; exact Tbl.find_insert_self _ _ _) (by rw [herase]; exact h.mark)
  generalize hv : acceptRoute route.toNat o (.slot s.exch.takePos) (taken q s) = v at hb hdone
  have hf : setRoute s.exch.takePos route.toNat w1.toNat w2.toNat (taken q s) = v :=
    (setRoute_accepts ho hlt ((hread (fun u => routeRefusal u route.toNat o false) fun _ => rfl).trans hpass)).trans hv
  have hstep : v.work.step = none := by
    have h1 : v.work.step = w.work.step := (read_of_body (fun u => u.work.step) (fun _ => rfl) hb).trans rfl
    rw [h1, hbook.alone.step, work_taken, hq.work]
    rfl
  have hquiet : quietEnd v = true := by
    refine quietEnd_of_empty v hstep ?_ ?_ ?_
    · exact (read_of_body (fun u => u.vis.queue) (fun _ => rfl) hb).trans ((hbook.alone.read (fun u => u.vis.queue) fun _ => rfl).trans
        ((hread (fun u => u.vis.queue) fun _ => rfl).trans hq.shows))
    · exact (read_of_body (fun u => u.pts.queue) (fun _ => rfl) hb).trans ((hbook.alone.read (fun u => u.pts.queue) fun _ => rfl).trans
        ((hread (fun u => u.pts.queue) fun _ => rfl).trans hq.orders))
    · exact (read_of_body (fun u => u.ilk.stack) (fun _ => rfl) hb).trans ((hbook.alone.read (fun u => u.ilk.stack) fun _ => rfl).trans
        ((hread (fun u => u.ilk.stack) fun _ => rfl).trans hq.stack))
  obtain ⟨t, ht, hdone', hin, hmem, -⟩ := settled_next (c := .setRoute tag route w1 w2) (q := q) (al := .running)
    (f := fun n => setRoute n route.toNat w1.toNat w2.toNat) rfl h rfl (by decide) hf hdone
    (by rw [← hv]; exact own_acceptRoute _ _ _ _ (own_refl _)) hquiet
  have hwin : inside v = inside (withRoutesOf w s).served := by
    have h1 : inside v = inside (unmarked s.exch.takePos w) := (inside_of_body hb).trans rfl
    have h2 : inside (unmarked s.exch.takePos w) = inside (unmarked s.exch.takePos (withRoutesOf w (taken q s))) :=
      congrArg (unmarked s.exch.takePos) (inside_of_routesAlone hbook.alone)
    have h3 : inside (unmarked s.exch.takePos (withRoutesOf w (taken q s))) = inside (withRoutesOf w s).served := by
      rw [taken_shape]
      have herase' : Tbl.erase (Tbl.insert s.exch.inHand s.exch.takePos tag) s.exch.takePos = s.exch.inHand :=
        Tbl.erase_insert _ _ _ h.mark
      have g := congrArg (fun m : Tbl HostTag => inside { (withRoutesOf w s).served with
        exch := { (withRoutesOf w s).served.exch with inHand := m } }) herase'
      exact g
    exact h1.trans (h2.trans h3)
  have hfrom {α : Type} (k : State → α) (hk : ∀ u, k u = k (inside u)) : k t = k (withRoutesOf w s).served :=
    OrderEnds.read_of_inside k hk (hin.trans hwin)
  have hroutes : t.ilk = (withRoutesOf w s).ilk := hfrom (fun u => u.ilk) fun _ => rfl
  have hpoints : t.pts = (withRoutesOf w s).pts := hfrom (fun u => u.pts) fun _ => rfl
  have hlock (m : Nat) : lockOf t m = lockOf w m := by unfold lockOf; rw [hroutes]; rfl
  have hhold (p : Nat) : holdersOf t p = holdersOf w p := by unfold holdersOf; rw [hroutes]; rfl
  have hactive : t.ilk.active = Tbl.insert (taken q s).ilk.active e (setEntry route.toNat o r) := by rw [hroutes]; exact hbook.active
  have hbefore (p : Nat) : holdersOf (taken q s) p = holdersOf s p := hread (fun u => holdersOf u p) fun _ => rfl
  refine ⟨t, ht, hdone', ?_, fun k hk => ?_, fun m hm => ?_, fun m hm => ?_, fun x hx => ?_, fun p hx => ?_, ?_, hmem⟩
  · rw [hactive]; exact Tbl.find_insert_self _ _ _
  · rw [hactive, Tbl.find_insert_other _ _ _ _ hk]; exact hread (fun u => Tbl.find u.ilk.active k) fun _ => rfl
  · rw [hlock, hbook.locks, if_pos hm]; rfl
  · rw [hlock, hbook.locks, if_neg hm]; exact hread (fun u => lockOf u m) fun _ => rfl
  · rw [hhold, hbook.holders]; exact mem_joining route.toNat _ hx
  · rw [hhold, hbook.holders]; exact (holdersOf_joining_other _ _ hx).trans (hbefore p)
  · rw [hin, hwin]
    unfold withRoutesOf
    rw [hroutes, hpoints]
    rfl

/-! ### A route with a point to move (R66, R94) -/

section Order
variable {s : State} {route n e p : Nat} {o : Originator} {r : RouteRec} {l : Lie}

/-- The machine with one route accepted and its one order given. -/
def waiting (e n route : Nat) (o : Originator) (r : RouteRec) (x : Nat × Lie) (s : State) : State :=
  touchPoint x.1 (wantPass (setOrders [routeOrder e x] [] (booked e (acceptedEntry route r o (.slot n) [x.1]) r s)))

theorem movesOf_one (hp : routePoints r = [(p, l)]) (hl : detLie s p ≠ l.det) : movesOf s r = [(p, l)] := by
  unfold movesOf needsMoving
  rw [hp]
  exact List.filter_cons_of_pos (by simp [hl])

theorem ordering_one {v : State} (x : Nat × Lie) (hq : v.pts.queue = []) (ho : v.pts.overflow = []) :
    ordering e [x] v = touchPoint x.1 (wantPass (setOrders [routeOrder e x] [] v)) := by
  have hlen : v.pts.queue.length < Config.numQueue := by rw [hq]; decide
  change giveOrder (routeOrder e x) v = _
  unfold giveOrder
  rw [if_pos hlen, hq, ho]
  rfl

/-- A route with one point to move, no order in hand before it, is SETTING and its order waits. -/
theorem body_acceptRoute_waiting (hr : Tbl.find s.ilk.routes route = some r)
    (he : Tbl.lowestFree s.ilk.active Config.numActive 0 = some e) (hq : s.pts.queue = []) (ho : s.pts.overflow = [])
    (hp : routePoints r = [(p, l)]) (hl : detLie s p ≠ l.det) :
    body (acceptRoute route o (.slot n) s) = body (waiting e n route o r (p, l) s) := by
  have hbook := booked_booked e (acceptedEntry route r o (.slot n) [p]) r s
  have heq := acceptRoute_eq (n := n) o hr he
  rw [movesOf_one hp hl] at heq
  have hord := ordering_one (e := e) (v := booked e (acceptedEntry route r o (.slot n) [p]) r s) (p, l)
    ((hbook.alone.read (fun u => u.pts.queue) fun _ => rfl).trans hq) ((hbook.alone.read (fun u => u.pts.overflow) fun _ => rfl).trans ho)
  have heq' : acceptRoute route o (.slot n) s
      = testProved e (mirrorSignal r.entry (mirrorActive e (waiting e n route o r (p, l) s))) :=
    heq.trans (congrArg (fun u => testProved e (mirrorSignal r.entry (mirrorActive e u))) hord)
  generalize hu : mirrorSignal r.entry (mirrorActive e (waiting e n route o r (p, l) s)) = u at heq'
  have hub : body u = body (waiting e n route o r (p, l) s) := by rw [← hu, body_mirrorSignal, body_mirrorActive]
  have hordered : RoutesAlone (wantPass (setOrders [routeOrder e (p, l)] [] (booked e (acceptedEntry route r o (.slot n) [p]) r s))) u :=
    (routesAlone_touchPoint p _).trans (.of_body hub)
  have hactive : Tbl.find u.ilk.active e = some (acceptedEntry route r o (.slot n) [p]) := by
    have hilk : u.ilk = (waiting e n route o r (p, l) s).ilk := read_of_body (fun y => y.ilk) (fun _ => rfl) hub
    have hw : (waiting e n route o r (p, l) s).ilk = (booked e (acceptedEntry route r o (.slot n) [p]) r s).ilk := ilk_touchPoint p _
    rw [hilk, hw]
    exact hbook.find
  have hroute : Tbl.find u.ilk.routes route = some r :=
    (hordered.read (fun y => Tbl.find y.ilk.routes route) fun _ => rfl).trans
      ((hbook.alone.read (fun y => Tbl.find y.ilk.routes route) fun _ => rfl).trans hr)
  have hlie : detLie u p = detLie s p := (hordered.detLie p).trans (hbook.alone.detLie p)
  rw [heq', testProved_unproved hactive hroute (x := (p, l)) (by rw [hp]; exact List.mem_cons_self) (by rw [hlie]; exact hl)]
  exact hub

end Order

/-- An order of a route waits in the queue while the discharge unit is not READY (R95). -/
theorem staysQueued_route {s : State} {p e : Nat} {l : Lie} {q : PointRec} (hq : Tbl.find s.pts.recs p = some q)
    (hmotor : q.motor = .solenoid) (hl : detLie s p ≠ l.det) (hu : s.pts.unit ≠ .ready) :
    staysQueued s (routeOrder e (p, l)) = true := by
  unfold staysQueued routeOrder
  dsimp only
  rw [hq]
  dsimp only
  have hlie : (detLie s p != l.det) = true := by simpa using hl
  have hunit : (s.pts.unit != .ready) = true := by simpa using hu
  rw [hlie, hmotor, Bool.true_and, Bool.or_eq_true]
  refine .inr ?_
  split
  · rfl
  · exact hunit

/-- A point that needs moving and has no order passes the seventh check only where no route holds it (R48). -/
theorem unheld_of_passes {s : State} {route p : Nat} {o : Originator} {r : RouteRec} {l : Lie}
    (hr : Tbl.find s.ilk.routes route = some r) (h : routeRefusal s route o false = none) (hp : (p, l) ∈ routePoints r)
    (hl : detLie s p ≠ l.det) : (holdersOf s p).routes = [] := by
  rw [RouteRefusals.routeRefusal_loaded hr] at h
  have hpoints : pointRefusal s r = none :=
    (Option.or_eq_none_iff.1 (Option.or_eq_none_iff.1 (Option.or_eq_none_iff.1 h).2).2).1
  have hstuck : (routePoints r).find? (fun x => needsMoving s x && !freeToMove s x.1) = none := by
    unfold pointRefusal at hpoints
    split at hpoints
    · cases hpoints
    · split at hpoints
      · cases hpoints
      · split at hpoints
        · cases hpoints
        · assumption
  have hfree := List.find?_eq_none.1 hstuck (p, l) hp
  rw [RouteRefusals.stuck_iff] at hfree
  by_contra hne
  exact hfree ⟨.inl hl, .inl hne⟩

/-- Settles O32: a route with a solenoid to move, while the discharge unit is not READY. -/
theorem setRouteOrdersItsPoint : Obligations.SetRouteOrdersItsPoint := by
  intro s tag route w1 w2 o r e p l q h hq hlt ho hr hpass he hp hl hrec hmotor hunit
  let k : Request := ⟨15, tag, route, w1, w2⟩
  have hread {α : Type} (g : State → α) (hg : ∀ m, g (((s.inHand k.tag).served).withMem m) = g s) : g (taken k s) = g s :=
    read_taken g k s hg
  have hbody := body_acceptRoute_waiting (o := o) (n := s.exch.takePos) (s := taken k s)
    ((hread (fun u => Tbl.find u.ilk.routes route.toNat) fun _ => rfl).trans hr)
    ((hread (fun u => Tbl.lowestFree u.ilk.active Config.numActive 0) fun _ => rfl).trans he)
    ((hread (fun u => u.pts.queue) fun _ => rfl).trans hq.orders) ((hread (fun u => u.pts.overflow) fun _ => rfl).trans hq.overflow)
    hp (fun e => hl ((hread (fun u => detLie u p) fun _ => rfl).symm.trans e))
  generalize hv : acceptRoute route.toNat o (.slot s.exch.takePos) (taken k s) = v at hbody
  have hf : setRoute s.exch.takePos route.toNat w1.toNat w2.toNat (taken k s) = v :=
    (setRoute_accepts ho hlt ((hread (fun u => routeRefusal u route.toNat o false) fun _ => rfl).trans hpass)).trans hv
  let a := acceptedEntry route.toNat r o (.slot s.exch.takePos) [p]
  have hbook := booked_booked e a r (taken k s)
  have hordered : RoutesAlone (wantPass (setOrders [routeOrder e (p, l)] [] (booked e a r (taken k s)))) v :=
    (routesAlone_touchPoint p _).trans (.of_body hbody)
  have hilk : v.ilk = (booked e a r (taken k s)).ilk := (read_of_body (fun u => u.ilk) (fun _ => rfl) hbody).trans (ilk_touchPoint p _)
  have hrest {α : Type} (g : State → α) (h1 : ∀ u, g (sansRoutes u) = g u)
      (h2 : ∀ u, g (wantPass (setOrders [routeOrder e (p, l)] [] u)) = g u) : g v = g (taken k s) :=
    (hordered.read g h1).trans ((h2 _).trans (hbook.alone.read g h1))
  have hqueue : v.pts.queue = [routeOrder e (p, l)] := hordered.read (fun u => u.pts.queue) fun _ => rfl
  have hoverflow : v.pts.overflow = [] := hordered.read (fun u => u.pts.overflow) fun _ => rfl
  have hvunit : v.pts.unit = s.pts.unit :=
    (hrest (fun u => u.pts.unit) (fun _ => rfl) fun _ => rfl).trans (hread (fun u => u.pts.unit) fun _ => rfl)
  have hlie : detLie v p = detLie s p :=
    (hordered.detLie p).trans ((hbook.alone.detLie p).trans (hread (fun u => detLie u p) fun _ => rfl))
  have hquiet : quietEnd v = true := by
    have hstep : v.work.step = none := by
      rw [hordered.step]
      exact hbook.alone.step.trans ((congrArg Work.step (work_taken k s)).trans (by rw [hq.work]; rfl))
    have hshows : v.vis.queue = [] := (hrest (fun u => u.vis.queue) (fun _ => rfl) fun _ => rfl).trans
      ((hread (fun u => u.vis.queue) fun _ => rfl).trans hq.shows)
    have hstack : v.ilk.stack = [] := (hrest (fun u => u.ilk.stack) (fun _ => rfl) fun _ => rfl).trans
      ((hread (fun u => u.ilk.stack) fun _ => rfl).trans hq.stack)
    have hidle : dispatchIdle v = true := by
      have hstays := staysQueued_route (e := e) (l := l) (s := v) ((hrest (fun u => Tbl.find u.pts.recs p) (fun _ => rfl) fun _ => rfl).trans
        ((hread (fun u => Tbl.find u.pts.recs p) fun _ => rfl).trans hrec)) hmotor (by rw [hlie]; exact hl) (by rw [hvunit]; exact hunit)
      unfold dispatchIdle
      rw [hqueue]
      simpa using hstays
    unfold quietEnd noHead
    rw [hstep, hshows, hstack, hidle]
    simp
  have hexec : exec (.setRoute tag route w1 w2) s = .next (finish s v) :=
    congrArg Host.Outcome.next ((request_next (q := k) (f := fun n => setRoute n route.toNat w1.toNat w2.toNat) h rfl (by decide)).trans
      (congrArg (finish s) hf))
  have hin := inside_finish s v hquiet
  generalize finish s v = t at hexec hin
  have hfrom {α : Type} (g : State → α) (hg : ∀ u, g u = g (inside u)) : g t = g v := OrderEnds.read_of_inside g hg hin
  have htilk : t.ilk = (booked e a r (taken k s)).ilk := (hfrom (fun u => u.ilk) fun _ => rfl).trans hilk
  refine ⟨t, a, hexec, ?_, rfl, rfl, rfl, rfl, (hfrom (fun u => u.pts.queue) fun _ => rfl).trans hqueue,
    (hfrom (fun u => u.pts.overflow) fun _ => rfl).trans hoverflow, ?_, fun m hm => ?_,
    (hfrom (fun u => u.pts.unit) fun _ => rfl).trans hvunit, ?_⟩
  · rw [htilk]; exact hbook.find
  · have hheld : (holdersOf (taken k s) p).routes = [] :=
      (congrArg Holders.routes (hread (fun u => holdersOf u p) fun _ => rfl)).trans
        (unheld_of_passes hr hpass (by rw [hp]; exact List.mem_cons_self) hl)
    have hsame : holdersOf t p = holdersOf (booked e a r (taken k s)) p := by unfold holdersOf; rw [htilk]
    rw [hsame, hbook.holders, hp]
    change holdersOf (addHolder p l route.toNat (taken k s)) p = _
    rw [holdersOf_addHolder, if_pos rfl]
    unfold joinedBy
    rw [hheld]
    rfl
  · have hsame : lockOf t m = lockOf (booked e a r (taken k s)) m := by unfold lockOf; rw [htilk]
    rw [hsame, hbook.locks, if_pos hm]
    rfl
  · have hmarks : t.exch.inHand = (taken k s).exch.inHand := (hfrom (fun u => u.exch.inHand) fun _ => rfl).trans
      (hrest (fun u => u.exch.inHand) (fun _ => rfl) fun _ => rfl)
    rw [hmarks, taken_mark]
    exact Tbl.find_insert_self _ _ _

end Sys2Proof.RouteSetting
end

