-- ==== Sys2Proof/Proofs/SectionMoves.lean ====
section
/-! A DETECTOR_SAMPLE that moves its section between CLEAR and OCCUPIED, and what the tags make of it (O29). -/

namespace Sys2Proof.SectionMoves

open Sys2Proof.Machine Sys2Proof.ReportLog Sys2Proof.TrackDetection Sys2Proof.TrackRequests Sys2Proof.RouteRelease
  Sys2Proof.PointLies Sys2Proof.AspectsTaken

/-! ### The section moved (R4, R11) -/

/-- The state that a CURRENT section takes from its detector. -/
def detected (x : Bool) : SectionState := if x then .occupied else .clear

/-- The machine with the sample taken and its section moved, before the change is handed on. -/
def moved (i : Nat) (x : Bool) (n count : Nat) (s : State) : State :=
  let o : Occupancy := { state := detected x, count := count, discTimer := none, discFlag := false }
  { withSample i x s with occ := { (withSample i x s).occ with secs := Tbl.insert s.occ.secs n o } }

section Moved
variable {i : Nat} {x : Bool} {n c : Nat} {s : State}

/-- A reading outside the occupancy unit. -/
theorem read_moved {α : Type} (g : State → α) (hg : ∀ y, g { s with occ := y } = g s) : g (moved i x n c s) = g s :=
  hg (moved i x n c s).occ

theorem secState_moved_self : secState (moved i x n c s) n = detected x := by
  unfold secState occOf Tbl.getD moved
  dsimp only
  rw [Tbl.find_insert_self]
  rfl

theorem secState_moved_other {m : Nat} (h : m ≠ n) : secState (moved i x n c s) m = secState s m := by
  unfold secState occOf Tbl.getD moved
  dsimp only
  rw [Tbl.find_insert_other _ _ _ _ h]

theorem recs_moved : (moved i x n c s).occ.recs = s.occ.recs := rfl

end Moved

/-- A change of the section: the sample moves it, and the change is handed on. -/
theorem detectorSampled_changes {s : State} {i : Fin 256} {x : Bool} {n : Nat} (h : Changes i x n s) :
    ∃ c, detectorSampled i.val x s = sectionChanged n (detected (!x)) (moved i.val x n c s) := by
  obtain ⟨r, o, hin, hr, ho, hdet, hstate⟩ := h.moves
  refine ⟨o.count, ?_⟩
  have hlevel : (sampled i.val x s).level = x := h.after
  have hne : ¬ ((sampled i.val x s).level = (Tbl.getD s.occ.filters i.val Filter.init).level) := by
    rw [hlevel, h.before]; cases x <;> decide
  have hold : o.state = detected (!x) := by rw [hstate]; cases x <;> rfl
  have hderive : derive r (sampled i.val x s).level o = { o with state := detected x } := by
    have hd : derivedState r x o.count = detected x := by unfold derivedState; rw [hdet]; rfl
    rw [hlevel]
    unfold derive
    rw [hold]
    cases x
    · exact congrArg (fun y => ({ o with state := y } : Occupancy)) hd
    · exact congrArg (fun y => ({ o with state := y } : Occupancy)) hd
  have hdisc (b : Bool) : updateDiscrepancy r b { o with state := detected x }
      = { state := detected x, count := o.count, discTimer := none, discFlag := false } := by
    have hc : checked r { o with state := detected x } = false := by unfold checked; rw [hdet]; rfl
    unfold updateDiscrepancy
    rw [hc]
    rfl
  have hchange : ¬ detected x = o.state := by rw [hold]; cases x <;> decide
  rw [detectorSampled_eq, if_neg (by rintro (he | hr); exacts [hne he, hr h.runState]), hin]
  dsimp only
  unfold updateSection
  have hr' : Tbl.find (withSample i.val x s).occ.recs n = some r := hr
  have ho' : Tbl.find (withSample i.val x s).occ.secs n = some o := ho
  rw [hr', ho']
  dsimp only
  rw [hderive, hdisc]
  refine (if_neg hchange).trans ?_
  rw [hold]
  rfl

/-! ### The tags' part of a change (R27 to R33) -/

theorem tags_of_body {s t : State} (h : body s = body t) : s.tags = t.tags := read_of_body (fun u => u.tags) (fun _ => rfl) h

theorem tags_setTag (k : Nat) (v : Tag) (s : State) :
    (setTag k v s).tags = { s.tags with table := Tbl.put Tag.init s.tags.table k v } :=
  (tags_of_body (body_mirrorTag k _)).trans rfl

theorem tags_setTagField (n : Nat) (k : Option Nat) (s : State) : (setTagField n k s).tags = { s.tags with
    fields := match k with
      | none => Tbl.erase s.tags.fields n
      | some k => Tbl.insert s.tags.fields n k } := by
  unfold setTagField
  cases k with
  | none => exact (tags_of_body (body_mirrorSection n _)).trans rfl
  | some k => exact (tags_of_body (body_mirrorSection n _)).trans rfl

/-- A tag with a section more, as its newest holder (R27). -/
def Tag.heldBy (n : Nat) (v : Tag) : Tag := { v with state := .active, holders := v.holders ++ [n], last := none, timer := none }

theorem tags_takeTag (n k : Nat) (s : State) : (takeTag n k s).tags = { s.tags with
    table := Tbl.insert s.tags.table k (Tag.heldBy n (tagRec s k))
    fields := Tbl.insert s.tags.fields n k } := by
  have hne : Tag.heldBy n (tagRec s k) ≠ Tag.init := fun h => by
    have g : TagState.active = TagState.free := congrArg Tag.state h
    exact absurd g (by decide)
  have htake : takeTag n k s = setTagField n (some k) (setTag k (Tag.heldBy n (tagRec s k)) s) := rfl
  rw [htake, tags_setTagField, tags_setTag, put_other _ _ hne]

/-- What a section finds once it has taken a tag. -/
structure Holds (n k : Nat) (v : Tag) (s t : State) : Prop where
  field : tagOf t n = some k
  record : tagRec t k = v
  others : ∀ j, j ≠ k → tagRec t j = tagRec s j
  fields : ∀ j, j ≠ n → tagOf t j = tagOf s j

theorem getD_insert {α : Type} (d : α) (t : Tbl α) (k : Nat) (v : α) (j : Nat) :
    Tbl.getD (Tbl.insert t k v) j d = if j = k then v else Tbl.getD t j d := by
  unfold Tbl.getD
  split
  · next h => rw [h, Tbl.find_insert_self]; rfl
  · next h => rw [Tbl.find_insert_other _ _ _ _ h]

theorem holds_takeTag (n k : Nat) (s : State) {t : State} (h : t.tags = (takeTag n k s).tags) :
    Holds n k (Tag.heldBy n (tagRec s k)) s t := by
  rw [tags_takeTag] at h
  refine ⟨?_, ?_, fun j hj => ?_, fun j hj => ?_⟩
  · unfold tagOf; rw [h]; exact Tbl.find_insert_self _ _ _
  · unfold tagRec at h ⊢; rw [h]; exact (getD_insert _ _ _ _ _).trans (if_pos rfl)
  · unfold tagRec at h ⊢; rw [h]; exact (getD_insert _ _ _ _ _).trans (if_neg hj)
  · unfold tagOf; rw [h]; exact Tbl.find_insert_other _ _ _ _ hj

/-- The overrun test leaves the tags. -/
theorem tags_overrunTest (n : Nat) (a : Option Arrival) (l : List EntryNote) (s : State) : (overrunTest n a l s).tags = s.tags := by
  unfold overrunTest
  split
  · rfl
  · next a =>
    split
    · rfl
    · next x more _ =>
      have hone : (eachDo (x :: more) (overrunOne n a l) s).tags = s.tags :=
        tags_of_kept (kept_eachDo _ _ _ fun m t => kept_overrunOne n a l m t)
      dsimp only
      split
      · refine .trans ?_ hone
        generalize eachDo (x :: more) (overrunOne n a l) s = u
        cases hc : u.asp.cond with
        | running => exact congrArg Kept.tags (kept_enterAllStop (.overrun x) u hc)
        | allStop => rw [enterAllStop_stopped _ u hc]
      · exact hone

/-- What follows the tags' part of a change leaves the tags. -/
theorem tags_sectionChanged (n : Nat) (old : SectionState) (s : State) :
    (sectionChanged n old s).tags = (taggedChange n old s).1.tags := by
  rw [sectionChanged_eq]
  generalize taggedChange n old s = x
  dsimp only
  have hroutes : (runVisitor (routesSectionChange n (secState s n) (x.2.bind Arrival.tag) x.1).1).tags = x.1.tags :=
    tags_of_kept ((kept_runVisitor _).trans (kept_routesSectionChange _ _ _ _))
  generalize routesSectionChange n (secState s n) (x.2.bind Arrival.tag) x.1 = y at hroutes
  rw [tags_of_kept (kept_visitorSection _ _ _)]
  split
  · exact (tags_of_kept (kept_deckSectionLeft _ _)).trans ((tags_overrunTest _ _ _ _).trans hroutes)
  · exact (tags_overrunTest _ _ _ _).trans hroutes

/-- The machine that the tags find: the section moved, and the change reported. -/
def found (i : Nat) (x : Bool) (n c : Nat) (s : State) : State := handedOn n (detected (!x)) (moved i x n c s)

/-- A reading of no output and not of the occupancy unit. -/
theorem read_found {α : Type} (g : State → α) {i : Nat} {x : Bool} {n c : Nat} {s : State}
    (hg : ∀ y w, g (body { s with occ := y, work := w }) = g s) (hb : ∀ u, g u = g (body u)) : g (found i x n c s) = g s :=
  (read_of_body g hb (body_handedOn n _ _)).trans ((hb _).trans (hg (moved i x n c s).occ _))

theorem occ_found (i : Nat) (x : Bool) (n c : Nat) (s : State) : (found i x n c s).occ = (moved i x n c s).occ :=
  (read_of_body (fun u => u.occ) (fun _ => rfl) (body_handedOn n _ _)).trans rfl

theorem secState_found_other {i : Nat} {x : Bool} {n c m : Nat} {s : State} (h : m ≠ n) :
    secState (found i x n c s) m = secState s m := by
  refine .trans ?_ (secState_moved_other (i := i) (x := x) (c := c) h)
  unfold secState occOf
  rw [occ_found]

/-- An arrival: the tags as the search leaves them (R27). -/
theorem taggedChange_occupied (i n c : Nat) (s : State) : taggedChange n .clear (moved i true n c s)
    = ((arrive n (found i true n c s)).1, some (arrive n (found i true n c s)).2) := by
  unfold taggedChange tagSectionChange
  rw [secState_moved_self]
  rfl

/-- A departure (R33). -/
theorem taggedChange_clear (i n c : Nat) (s : State) : taggedChange n .occupied (moved i false n c s)
    = (depart n (found i false n c s), none) := by
  unfold taggedChange tagSectionChange
  rw [secState_moved_self]
  rfl

/-- The tags after a DETECTOR_SAMPLE that moves its section. -/
theorem detector_tags {s : State} {i : Fin 256} {x : Bool} {n : Nat} (h : Changes i x n s) :
    ∃ t c, exec (.detectorSample i x) s = .next t ∧ t.occ = (moved i.val x n c s).occ ∧
      t.tags = if x then (arrive n (found i.val true n c s)).1.tags else (depart n (found i.val false n c s)).tags := by
  obtain ⟨c, hc⟩ := detectorSampled_changes h
  refine ⟨_, c, rfl, ?_, ?_⟩
  · rw [occ_of_kept (kept_finish _ _), hc, occ_sectionChanged]
  · rw [tags_of_kept (kept_finish _ _), hc, tags_sectionChanged]
    cases x with
    | true => exact congrArg (fun y : State × Option Arrival => y.1.tags) (taggedChange_occupied i.val n c s)
    | false => exact congrArg (fun y : State × Option Arrival => y.1.tags) (taggedChange_clear i.val n c s)

/-! ### The rules of an arrival (R28 to R32) -/

section Arrivals
variable {s : State} {n : Nat}

theorem routeCandidate_none (h : s.ilk.active = []) : routeCandidate s n = none := by
  have hentry (r : Nat) : entryOf s r = none := by unfold entryOf; rw [h]; rfl
  unfold routeCandidate
  cases lockOf s n with
  | none => rfl
  | some r => rw [Option.bind_some, hentry]

theorem arrive_route {k c : Nat} (h : routeCandidate s n = some (k, c)) : (arrive n s).1 = takeTag n k s := by
  unfold arrive; rw [h]

/-- The neighbours that a section lists. -/
def neighboursOf (s : State) (n : Nat) : List Neighbour := ((Tbl.find s.occ.recs n).map SectionRec.neighbours).getD []

theorem arrive_search (h : routeCandidate s n = none) : arrive n s = match gathered s (neighboursOf s n) with
    | [] => reclaimOrAllocate n (neighboursOf s n) s
    | [t] => (takeTag n t s,
        { tag := some t, rule := some .neighbour, sources := ((neighboursOf s n).filter (qualifies s)).map Neighbour.sec })
    | t :: u :: more =>
      (report .tagAmbiguous n (2 + more.length) (halves t u) s, { tag := none, rule := none, sources := [] }) := by
  unfold arrive neighboursOf
  rw [h]
  cases Tbl.find s.occ.recs n <;> rfl

/-- A neighbour that is OCCUPIED and holds a tag qualifies (R29). -/
theorem qualifies_occupied {m k : Nat} (hs : secState s m = .occupied) (ht : tagOf s m = some k) :
    qualifies s { sec := m, cond := none } = true := by
  unfold qualifies condMet; rw [hs, ht]; rfl

theorem gathered_one {m k : Nat} (hs : secState s m = .occupied) (ht : tagOf s m = some k) :
    gathered s [{ sec := m, cond := none }] = [k] := by
  unfold gathered
  rw [List.filter_cons_of_pos (qualifies_occupied hs ht)]
  simp [ht, addRising]

theorem gathered_two {m₁ m₂ k₁ k₂ : Nat} (hs₁ : secState s m₁ = .occupied) (hs₂ : secState s m₂ = .occupied)
    (ht₁ : tagOf s m₁ = some k₁) (ht₂ : tagOf s m₂ = some k₂) (hne : k₁ ≠ k₂) :
    ∃ a b, gathered s [{ sec := m₁, cond := none }, { sec := m₂, cond := none }] = [a, b] := by
  unfold gathered
  rw [List.filter_cons_of_pos (qualifies_occupied hs₁ ht₁), List.filter_cons_of_pos (qualifies_occupied hs₂ ht₂)]
  by_cases hlt : k₂ < k₁
  · exact ⟨k₂, k₁, by simp [ht₁, ht₂, addRising, hlt]⟩
  · exact ⟨k₁, k₂, by simp [ht₁, ht₂, addRising, hlt, Ne.symm hne]⟩

theorem gathered_nil : gathered s [] = [] := rfl

/-- No LOST tag was last in the section, and it has no neighbours (R31). -/
theorem reclaimable_none (h : ∀ e ∈ s.tags.table, e.2.state = .lost → e.2.last ≠ some n) : reclaimable s n [] = none := by
  unfold reclaimable
  dsimp only
  rw [List.find?_eq_none.2]
  · rfl
  · intro e he
    rw [Bool.and_eq_true]
    rintro ⟨hstate, hlast⟩
    have hlost : e.2.state = .lost := by simpa using hstate
    cases hl : e.2.last with
    | none => rw [hl] at hlast; cases hlast
    | some y => rw [hl] at hlast; exact h e he hlost (by rw [hl]; simpa using hlast)

/-- The lowest LOST tag that was last in the section (R31). -/
theorem reclaimable_first {k : Nat} {v : Tag} (hs : Tbl.sorted s.tags.table = true) (hf : Tbl.find s.tags.table k = some v)
    (hv : v.state = .lost) (hl : v.last = some n)
    (hlow : ∀ e ∈ s.tags.table, e.1 < k → e.2.state = .lost → e.2.last ≠ some n) : reclaimable s n [] = some k := by
  unfold reclaimable
  dsimp only
  refine .trans (congrArg (Option.map Prod.fst) (?_ : _ = some (k, v))) rfl
  generalize hp : (fun e : Nat × Tag => _ && _) = p
  have hk : p (k, v) = true := by rw [← hp]; dsimp only; rw [hv, hl]; simp
  have hless (e : Nat × Tag) (he : e ∈ s.tags.table) (hlt : e.1 < k) : ¬ p e = true := by
    rw [← hp]
    dsimp only
    rw [Bool.and_eq_true]
    rintro ⟨hstate, hlast⟩
    have hlost : e.2.state = .lost := by simpa using hstate
    cases hle : e.2.last with
    | none => rw [hle] at hlast; cases hlast
    | some y => rw [hle] at hlast; exact hlow e he hlt hlost (by rw [hle]; simpa using hlast)
  have hfind : s.tags.table.find? p = some (k, v) := by
    generalize s.tags.table = t at hs hf hless
    induction t with
    | nil => cases hf
    | cons x t ih =>
      obtain ⟨h1, h2⟩ := (Tbl.sorted_cons_iff x.1 x.2 t).1 hs
      have hmem := mem_of_find hf
      obtain heq | hin := List.mem_cons.1 hmem
      · rw [← heq]; exact List.find?_cons_of_pos hk
      · rw [List.find?_cons_of_neg (hless x List.mem_cons_self (h1 _ hin))]
        have hne : k ≠ x.1 := (h1 _ hin).ne'
        exact ih h2 (by simpa [Tbl.find, hne] using hf) fun e he => hless e (List.mem_cons_of_mem _ he)
  exact hfind

theorem freeTag_some {k : Nat} (hk : k < 64) (hf : Tbl.find s.tags.table k = none) (hlow : ∀ j, j < k → (tagRec s j).state ≠ .free) :
    freeTag s = some k := by
  unfold freeTag
  rw [List.find?_range_eq_some]
  refine ⟨?_, List.mem_range.2 hk, fun j hj => ?_⟩
  · have hrec : tagRec s k = Tag.init := by unfold tagRec Tbl.getD; rw [hf]; rfl
    rw [hrec]; rfl
  · simpa using hlow j hj

theorem freeTag_none (h : ∀ j, j < 64 → (tagRec s j).state ≠ .free) : freeTag s = none := by
  unfold freeTag
  rw [List.find?_eq_none]
  intro j hj
  simpa using h j (List.mem_range.1 hj)

end Arrivals

/-! ### What the tags' search finds -/

section Found
variable {s : State} {i n c : Nat}

theorem tags_found (x : Bool) : (found i x n c s).tags = s.tags := read_found (fun u => u.tags) (fun _ _ => rfl) fun _ => rfl

theorem tagRec_found (x : Bool) (k : Nat) : tagRec (found i x n c s) k = tagRec s k := by unfold tagRec; rw [tags_found]

theorem tagOf_found (x : Bool) (m : Nat) : tagOf (found i x n c s) m = tagOf s m := by unfold tagOf; rw [tags_found]

theorem neighboursOf_found (x : Bool) : neighboursOf (found i x n c s) n = neighboursOf s n := by
  unfold neighboursOf; rw [occ_found]; rfl

theorem routeCandidate_found (x : Bool) (h : s.ilk.active = []) : routeCandidate (found i x n c s) n = none :=
  routeCandidate_none ((read_found (fun u => u.ilk.active) (fun _ _ => rfl) fun _ => rfl).trans h)

/-- A tag taken as the search finds it. -/
theorem holds_found {k : Nat} {x : Bool} {t : State} (h : t.tags = (takeTag n k (found i x n c s)).tags) :
    Holds n k (Tag.heldBy n (tagRec s k)) s t := by
  have hh := holds_takeTag n k (found i x n c s) h
  rw [tagRec_found] at hh
  exact ⟨hh.field, hh.record, fun j hj => (hh.others j hj).trans (tagRec_found x j),
    fun j hj => (hh.fields j hj).trans (tagOf_found x j)⟩

/-- A tag taken FREE (R32). -/
theorem holds_new {k : Nat} {x : Bool} {t : State} (hk : Tbl.find s.tags.table k = none)
    (h : t.tags = (takeTag n k (setTag k Tag.init (found i x n c s))).tags) : Holds n k (Tag.heldBy n Tag.init) s t := by
  have hh := holds_takeTag n k (setTag k Tag.init (found i x n c s)) h
  have htags : (setTag k Tag.init (found i x n c s)).tags = { s.tags with table := Tbl.erase s.tags.table k } := by
    rw [tags_setTag, tags_found, put_default]
  have hrec (j : Nat) (hj : j ≠ k) : tagRec (setTag k Tag.init (found i x n c s)) j = tagRec s j := by
    unfold tagRec Tbl.getD; rw [htags]; exact congrArg (fun y => Option.getD y Tag.init) (Tbl.find_erase_other _ _ _ hj)
  have hfree : tagRec (setTag k Tag.init (found i x n c s)) k = Tag.init := by
    have herase : Tbl.find (Tbl.erase s.tags.table k) k = none := by
      generalize s.tags.table = t at hk
      induction t with
      | nil => rfl
      | cons y t ih =>
        have hne : k ≠ y.1 := by rintro rfl; simp [Tbl.find] at hk
        have hk' : Tbl.find t k = none := by simpa [Tbl.find, hne] using hk
        simp [Tbl.erase, Tbl.find, hne, ih hk']
    unfold tagRec Tbl.getD
    rw [htags]
    dsimp only
    rw [herase]
    rfl
  rw [hfree] at hh
  refine ⟨hh.field, hh.record, fun j hj => (hh.others j hj).trans (hrec j hj), fun j hj => (hh.fields j hj).trans ?_⟩
  unfold tagOf
  rw [htags]

end Found

/-- The change that a sample makes in a quiet machine. -/
theorem changes_of_quiet {s : State} {i : Fin 256} {x : Bool} {n : Nat} {r : SectionRec} {o : Occupancy} (h : Quiet s)
    (hrun : s.exch.runState = .running) (hin : sectionOfInput s i.val = some (n, r)) (hr : Tbl.find s.occ.recs n = some r)
    (ho : Tbl.find s.occ.secs n = some o) (hdet : r.detection = .current) (hst : o.state = if x then .clear else .occupied)
    (hb : (Tbl.getD s.occ.filters i.val Filter.init).level = !x)
    (ha : ((Tbl.getD s.occ.filters i.val Filter.init).sample (inputTime s i.val x) x).level = x) : Changes i x n s :=
  ⟨h.rest, hrun, h.runner, h.jog, ⟨r, o, hin, hr, ho, hdet, hst⟩, hb, ha⟩

section Cases
variable {s : State} {i : Fin 256} {n : Nat}

/-- R29: the section takes the tag of the one neighbour that holds one. -/
theorem arrives_from_neighbour {m k : Nat} (hroutes : s.ilk.active = [])
    (hn : neighboursOf s n = [{ sec := m, cond := none }]) (hm : m ≠ n) (hs : secState s m = .occupied) (ht : tagOf s m = some k)
    (c : Nat) : arrive n (found i.val true n c s) = (takeTag n k (found i.val true n c s),
      { tag := some k, rule := some .neighbour, sources := [m] }) := by
  have hsec : secState (found i.val true n c s) m = .occupied := (secState_found_other hm).trans hs
  have htag : tagOf (found i.val true n c s) m = some k := (tagOf_found true m).trans ht
  rw [arrive_search (routeCandidate_found true hroutes), neighboursOf_found, hn, gathered_one hsec htag]
  dsimp only
  rw [List.filter_cons_of_pos (qualifies_occupied hsec htag)]
  rfl

theorem arrives_without_neighbours (hroutes : s.ilk.active = []) (hn : neighboursOf s n = []) (c : Nat) :
    arrive n (found i.val true n c s) = reclaimOrAllocate n [] (found i.val true n c s) := by
  rw [arrive_search (routeCandidate_found true hroutes), neighboursOf_found, hn]
  rfl

/-- R30: the section takes none of two tags. -/
theorem arrives_ambiguous {m₁ m₂ k₁ k₂ : Nat} (hroutes : s.ilk.active = [])
    (hn : neighboursOf s n = [{ sec := m₁, cond := none }, { sec := m₂, cond := none }]) (hm₁ : m₁ ≠ n) (hm₂ : m₂ ≠ n)
    (hs₁ : secState s m₁ = .occupied) (hs₂ : secState s m₂ = .occupied) (ht₁ : tagOf s m₁ = some k₁) (ht₂ : tagOf s m₂ = some k₂)
    (hne : k₁ ≠ k₂) (c : Nat) : (arrive n (found i.val true n c s)).1.tags = s.tags := by
  obtain ⟨a, b, hab⟩ := gathered_two (s := found i.val true n c s) ((secState_found_other hm₁).trans hs₁)
    ((secState_found_other hm₂).trans hs₂) ((tagOf_found true m₁).trans ht₁) ((tagOf_found true m₂).trans ht₂) hne
  rw [arrive_search (routeCandidate_found true hroutes), neighboursOf_found, hn, hab]
  exact (tags_of_body (body_report _ _ _ _ _)).trans (tags_found true)

theorem neighboursOf_of_map {l : List Neighbour} (h : (Tbl.find s.occ.recs n).map SectionRec.neighbours = some l) :
    neighboursOf s n = l := by unfold neighboursOf; rw [h]; rfl

/-- R28: the section takes the tag of the route that locks it, from the section before it. -/
theorem routeCandidate_running {c k e : Nat} {a : Active} {q : RouteRec} {xs ys : List Nat} (hactive : s.ilk.active = [(e, a)])
    (hq : Tbl.find s.ilk.routes a.route = some q) (hlock : lockOf s n = some a.route) (hst : a.state = .running)
    (htag : a.tag = some k) (hseq : sequence q = xs ++ c :: n :: ys) (hx : n ∉ xs) (hne : n ≠ c) (hc : tagOf s c = some k) :
    routeCandidate s n = some (k, c) := by
  have hentry : entryOf s a.route = some (e, a) := by unfold entryOf; rw [hactive]; simp
  have hidx : (sequence q).idxOf n = xs.length + 1 := by
    rw [hseq, List.idxOf_append_of_notMem hx, List.idxOf_cons_ne _ (Ne.symm hne), List.idxOf_cons_self]
  have hget : (sequence q)[xs.length]? = some c := by rw [hseq]; simp
  have hlen : xs.length + 1 < (sequence q).length := by rw [hseq]; simp
  unfold routeCandidate
  rw [hlock, Option.bind_some, hentry]
  dsimp only
  rw [hst, hq, htag]
  dsimp only
  rw [hidx]
  dsimp only
  rw [hget]
  dsimp only
  exact if_pos (by rw [hc]; simp [hlen])

/-- A departure takes the tag from the section (R33). -/
theorem tags_depart_last {k : Nat} (ht : tagOf s n = some k) (hh : (tagRec s k).holders.erase n = []) (hl : s.tags.lostHold ≠ 0) :
    (depart n s).tags = { s.tags with
      table := Tbl.insert s.tags.table k { tagRec s k with
        state := .lost, holders := [], last := some n, timer := some s.tags.lostHold }
      fields := Tbl.erase s.tags.fields n } := by
  have hne : ({ tagRec s k with state := .lost, holders := [], last := some n, timer := some s.tags.lostHold } : Tag) ≠ Tag.init :=
    fun h => by
      have g : TagState.lost = TagState.free := congrArg Tag.state h
      exact absurd g (by decide)
  unfold depart
  rw [ht]
  dsimp only
  rw [if_pos hh, if_neg (by
    rw [show ∀ u : State, (report .tagLost k n (tagRec s k).label u).tags = u.tags from fun u => tags_of_body (body_report _ _ _ _ _),
      tags_setTagField, tags_setTag]
    exact hl)]
  rw [tags_of_body (body_report _ _ _ _ _), tags_setTagField, tags_setTag, put_other _ _ hne]

theorem tags_depart_shared {k : Nat} (ht : tagOf s n = some k) (hh : (tagRec s k).holders.erase n ≠ [])
    (hst : (tagRec s k).state = .active) :
    (depart n s).tags = { s.tags with
      table := Tbl.insert s.tags.table k { tagRec s k with holders := (tagRec s k).holders.erase n }
      fields := Tbl.erase s.tags.fields n } := by
  have hne : ({ tagRec s k with holders := (tagRec s k).holders.erase n } : Tag) ≠ Tag.init := fun h => by
    have g : (tagRec s k).state = TagState.free := congrArg Tag.state h
    rw [hst] at g
    exact absurd g (by decide)
  unfold depart
  rw [ht]
  dsimp only
  rw [if_neg hh, tags_setTagField, tags_setTag, put_other _ _ hne]

end Cases

/-! ### The overrun test (R112, R113) -/

theorem body_takeTag (n k : Nat) (s : State) : body (takeTag n k s)
    = body { s with tags := (takeTag n k s).tags, work := { s.work with lamps := true } } := by
  have htake : takeTag n k s = setTagField n (some k) (setTag k (Tag.heldBy n (tagRec s k)) s) := rfl
  have h1 : body (takeTag n k s) = body { setTag k (Tag.heldBy n (tagRec s k)) s with
      tags := (takeTag n k s).tags, work := { (setTag k (Tag.heldBy n (tagRec s k)) s).work with lamps := true } } := by
    rw [htake, tags_setTagField]
    exact body_mirrorSection n _
  have h2 := body_mirrorTag k
    { s with tags := { s.tags with table := Tbl.put Tag.init s.tags.table k (Tag.heldBy n (tagRec s k)) } }
  rw [h1]
  exact (body_update (s := setTag k (Tag.heldBy n (tagRec s k)) s)
    (fun u => { u with tags := (takeTag n k s).tags, work := { u.work with lamps := true } }) (fun _ => rfl) h2).trans rfl

/-- The signals that an arrival overruns. -/
def overrunBy (n : Nat) (a : Arrival) (s : State) : List Nat := (Tbl.keys s.asp.recs).filter (isOverrun n a [] s)

theorem state_overrunOne (n : Nat) (a : Arrival) (l : List EntryNote) (x : Nat) (s : State) : (overrunOne n a l x s).asp.state
    = Tbl.modify s.asp.state x fun st => { st with overruns := min 255 (st.overruns + 1) } := by
  unfold overrunOne
  dsimp only
  rw [state_report, state_mirrorSignal]
  rfl

theorem calm_overrunOne (n : Nat) (a : Arrival) (l : List EntryNote) (x : Nat) (s : State) :
    calm (overrunOne n a l x s) = calm s := by
  unfold overrunOne; simp

/-- A signal that is overrun counts it once, any other none. -/
theorem find_overruns {n x : Nat} (a : Arrival) {l : List Nat} (hl : l.Nodup) (s : State) :
    Tbl.find (eachDo l (overrunOne n a []) s).asp.state x = if x ∈ l
      then (Tbl.find s.asp.state x).map fun st => { st with overruns := min 255 (st.overruns + 1) } else Tbl.find s.asp.state x := by
  induction l generalizing s with
  | nil => rfl
  | cons y l ih =>
    obtain ⟨hy, hl'⟩ := List.nodup_cons.1 hl
    have hstep : eachDo (y :: l) (overrunOne n a []) s = eachDo l (overrunOne n a []) (overrunOne n a [] y s) := rfl
    rw [hstep, ih hl', state_overrunOne, find_modify]
    by_cases e : x = y
    · subst e; simp [hy]
    · simp [e]

/-- The overrun test finds the signal of an arrival from its approach section, at DANGER (R112). -/
theorem isOverrun_iff {s : State} {n m x : Nat} {a : Arrival} {r : SignalRec} {st : SignalState}
    (hr : Tbl.find s.asp.recs x = some r) (hst : Tbl.find s.asp.state x = some st) (hk : r.kind ≠ .distant)
    (hp : r.protect = some n) (ha : a.sources = [m]) :
    isOverrun n a [] s x = true ↔ st.aspect = .danger ∧ r.approach = some m := by
  have hout : outputAspect s x = st.aspect := by unfold outputAspect; rw [hst]
  have hnote : (entryNote [] x).isSome = false := rfl
  have happ : (match r.approach with
      | some y => a.sources.contains y
      | none => false) = true ↔ r.approach = some m := by
    rw [ha]
    cases r.approach with
    | none => simp
    | some y => simp
  have hkind : (r.kind != .distant) = true := by simpa using hk
  unfold isOverrun
  rw [hr, hst]
  dsimp only
  rw [hout, hp, hnote, Bool.false_or, hkind, Bool.true_and, Bool.and_eq_true, Bool.and_eq_true]
  refine ⟨fun ⟨⟨_, h1⟩, h2⟩ => ⟨by simpa using h1, happ.1 h2⟩, fun ⟨h1, h2⟩ => ⟨⟨by simp, by simpa using h1⟩, happ.2 h2⟩⟩

theorem overrunTest_report {n : Nat} {a : Arrival} {s : State} (h : s.asp.response = .report) :
    overrunTest n (some a) [] s = eachDo (overrunBy n a s) (overrunOne n a []) s := by
  unfold overrunTest
  dsimp only
  change (match overrunBy n a s with
    | [] => s
    | x :: more => _) = _
  cases hl : overrunBy n a s with
  | nil => rfl
  | cons x more =>
    dsimp only
    have hresp : (eachDo (x :: more) (overrunOne n a []) s).asp.response = .report :=
      (congrArg Kept.response (kept_eachDo _ _ _ fun m t => kept_overrunOne n a [] m t)).trans h
    exact if_neg (by rw [hresp]; decide)

theorem overrunTest_allStop {n x : Nat} {more : List Nat} {a : Arrival} {s : State} (h : s.asp.response = .allStop)
    (hl : overrunBy n a s = x :: more) :
    overrunTest n (some a) [] s = enterAllStop (.overrun x) (eachDo (x :: more) (overrunOne n a []) s) := by
  have hresp : (eachDo (x :: more) (overrunOne n a []) s).asp.response = .allStop :=
    (congrArg Kept.response (kept_eachDo _ _ _ fun m t => kept_overrunOne n a [] m t)).trans h
  unfold overrunTest
  dsimp only
  change (match overrunBy n a s with
    | [] => s
    | x :: more => _) = _
  rw [hl]
  exact if_pos hresp

/-- The recomputation leaves the overrun counts. -/
theorem overruns_recomputeAspects (s : State) (x : Nat) : (Tbl.find (recomputeAspects s).asp.state x).map SignalState.overruns
    = (Tbl.find s.asp.state x).map SignalState.overruns := by
  have hone (y : Nat) (u : State) : (Tbl.find (recomputeOne y u).asp.state x).map SignalState.overruns
      = (Tbl.find u.asp.state x).map SignalState.overruns := by
    by_cases e : x = y
    · subst e
      cases hst : Tbl.find u.asp.state x with
      | none => unfold recomputeOne; rw [hst]; cases Tbl.find u.asp.recs x <;> exact congrArg (Option.map _) hst
      | some st =>
        cases hr : Tbl.find u.asp.recs x with
        | none => unfold recomputeOne; rw [hr, hst]
        | some r => rw [find_recomputeOne_self hr hst]; rfl
    · rw [find_recomputeOne_other e]
  unfold recomputeAspects
  split
  · generalize Tbl.keys s.asp.recs = l
    change (Tbl.find (eachDo l recomputeOne _).asp.state x).map SignalState.overruns
      = (Tbl.find ({ s with work := { s.work with aspects := false } } : State).asp.state x).map SignalState.overruns
    generalize ({ s with work := { s.work with aspects := false } } : State) = u
    induction l generalizing u with
    | nil => rfl
    | cons y l ih => exact (ih (recomputeOne y u)).trans (hone y u)
  · rfl

section Overrun
variable {s : State} {i : Fin 256} {n m k c : Nat}

/-- The arrival, as the overrun test is handed it. -/
def fromNeighbour (m k : Nat) : Arrival := { tag := some k, rule := some .neighbour, sources := [m] }

/-- The machine with the tag of the one neighbour taken. -/
def arrived (i n c k : Nat) (s : State) : State := takeTag n k (found i true n c s)

theorem read_arrived {α : Type} (g : State → α) (hg : ∀ y z w, g (body { s with occ := y, tags := z, work := w }) = g s)
    (hb : ∀ u, g u = g (body u)) (i n c k : Nat) : g (arrived i n c k s) = g s := by
  have h1 := read_of_body g hb (body_takeTag n k (found i true n c s))
  have h2 := body_update (fun u => { u with
    tags := (takeTag n k (found i true n c s)).tags, work := { (found i true n c s).work with lamps := true } }) (fun _ => rfl)
    (body_handedOn n (detected (!true)) (moved i true n c s))
  exact h1.trans ((read_of_body g hb h2).trans ((hb _).trans (hg _ _ _)))

theorem work_arrived (h : s.work = Work.none) (i n c k : Nat) : (arrived i n c k s).work = { Work.none with lamps := true } := by
  have hfound : (found i true n c s).work = { Work.none with lamps := true } := by
    have h1 := work_of_body (body_handedOn n (detected (!true)) (moved i true n c s))
    have h2 : secState (moved i true n c s) n = .occupied := secState_moved_self
    rw [h2] at h1
    refine h1.trans ?_
    change sectionWork .clear .occupied s.work = _
    rw [h]
    rfl
  have h3 := work_of_body (body_takeTag n k (found i true n c s))
  exact h3.trans (by rw [hfound])

/-- With no route active, an arrival ends in its overrun test. -/
theorem sectionChanged_arrival (h : Changes i true n s) (hroutes : s.ilk.active = [])
    (harr : arrive n (found i.val true n c s) = (arrived i.val n c k s, fromNeighbour m k)) :
    sectionChanged n .clear (moved i.val true n c s)
      = visitorSection n .occupied (deckSectionLeft n (overrunTest n (some (fromNeighbour m k)) [] (arrived i.val n c k s))) := by
  have hnone (new : SectionState) (g : Option Nat) (u : State) (hu : u.ilk.active = []) : routesSectionChange n new g u = (u, []) := by
    unfold routesSectionChange; rw [hu]; rfl
  have hactive : (arrived i.val n c k s).ilk.active = [] :=
    (read_arrived (fun u => u.ilk.active) (fun _ _ _ => rfl) (fun _ => rfl) _ _ _ _).trans hroutes
  have hstep : (arrived i.val n c k s).work.step = none := by rw [work_arrived h.rest.work]; rfl
  rw [sectionChanged_eq, taggedChange_occupied, secState_moved_self, harr]
  dsimp only
  rw [hnone _ _ _ hactive]
  dsimp only
  rw [runVisitor_idle _ hstep]
  rfl

/-- Where an overrun is only reported, it counts, and nothing else follows. -/
theorem overruns_report (h : Changes i true n s) (hroutes : s.ilk.active = []) (hresp : s.asp.response = .report)
    (harr : arrive n (found i.val true n c s) = (arrived i.val n c k s, fromNeighbour m k)) (x : Nat) :
    (Tbl.find (finish s (sectionChanged n .clear (moved i.val true n c s))).asp.state x).map SignalState.overruns
      = (Tbl.find (eachDo (overrunBy n (fromNeighbour m k) (arrived i.val n c k s)) (overrunOne n (fromNeighbour m k) [])
          (arrived i.val n c k s)).asp.state x).map SignalState.overruns := by
  have hread {α : Type} (g : State → α) (hg : ∀ y z w, g (body { s with occ := y, tags := z, work := w }) = g s)
      (hb : ∀ u, g u = g (body u)) : g (arrived i.val n c k s) = g s := read_arrived g hg hb _ _ _ _
  have hwork := work_arrived (i := i.val) (n := n) (c := c) (k := k) h.rest.work
  have htest := overrunTest_report (n := n) (a := fromNeighbour m k) (s := arrived i.val n c k s)
    ((hread (fun u => u.asp.response) (fun _ _ _ => rfl) fun _ => rfl).trans hresp)
  generalize hv : eachDo (overrunBy n (fromNeighbour m k) (arrived i.val n c k s)) (overrunOne n (fromNeighbour m k) [])
    (arrived i.val n c k s) = v at htest
  have hcalm : calm v = calm (arrived i.val n c k s) := by
    rw [← hv]; exact calm_eachDo _ _ _ fun y u => calm_overrunOne n _ [] y u
  have hfrom {α : Type} (g : State → α) (hg : ∀ u, g u = g (calm u)) : g v = g (arrived i.val n c k s) := read_of_calm g hg hcalm
  have hchange : sectionChanged n .clear (moved i.val true n c s) = v := by
    rw [sectionChanged_arrival h hroutes harr, htest]
    refine visitorSection_alone n .clear .occupied ?_ ?_
    · exact (hfrom (fun u => u.vis.runner) fun _ => rfl).trans
        ((hread (fun u => u.vis.runner) (fun _ _ _ => rfl) fun _ => rfl).trans h.runner)
    · rw [hfrom (fun u => u.tt.requester) fun _ => rfl, hread (fun u => u.tt.requester) (fun _ _ _ => rfl) fun _ => rfl]
      exact h.jog
  have hstep : v.work.step = none := (hfrom (fun u => u.work.step) fun _ => rfl).trans (by rw [hwork]; rfl)
  have hpass : v.work.pass = false := (hfrom (fun u => u.work.pass) fun _ => rfl).trans (by rw [hwork]; rfl)
  have hreexam : v.work.reexam = false := (hfrom (fun u => u.work.reexam) fun _ => rfl).trans (by rw [hwork]; rfl)
  have hshows : v.vis.queue = [] := (hfrom (fun u => u.vis.queue) fun _ => rfl).trans
    ((hread (fun u => u.vis.queue) (fun _ _ _ => rfl) fun _ => rfl).trans h.rest.shows)
  have hhead : noHead v = true := by unfold noHead; rw [hshows]; rfl
  rw [hchange, finish_once s hstep hhead hpass hreexam]
  change (Tbl.find (endHandling s v).asp.state x).map _ = _
  rw [asp_endHandling s v hstep hhead]
  exact overruns_recomputeAspects v x

/-- Where the response is ALL_STOP, an overrun stops the layout (R113). -/
theorem stop_overrun {x : Nat} {more : List Nat} (h : Changes i true n s) (hroutes : s.ilk.active = [])
    (hresp : s.asp.response = .allStop) (hc : s.asp.cond = .running)
    (harr : arrive n (found i.val true n c s) = (arrived i.val n c k s, fromNeighbour m k))
    (hl : overrunBy n (fromNeighbour m k) (arrived i.val n c k s) = x :: more) :
    let t := finish s (sectionChanged n .clear (moved i.val true n c s))
    t.asp.cond = .allStop ∧ t.asp.cause = some (.overrun x) ∧ t.asp.power = false := by
  have hread {α : Type} (g : State → α) (hg : ∀ y z w, g (body { s with occ := y, tags := z, work := w }) = g s)
      (hb : ∀ u, g u = g (body u)) : g (arrived i.val n c k s) = g s := read_arrived g hg hb _ _ _ _
  have htest := overrunTest_allStop ((hread (fun u => u.asp.response) (fun _ _ _ => rfl) fun _ => rfl).trans hresp) hl
  have hkept : kept (eachDo (x :: more) (overrunOne n (fromNeighbour m k) []) (arrived i.val n c k s)) = kept (arrived i.val n c k s) :=
    kept_eachDo _ _ _ fun y u => kept_overrunOne n _ [] y u
  have hcond : (eachDo (x :: more) (overrunOne n (fromNeighbour m k) []) (arrived i.val n c k s)).asp.cond = .running :=
    (congrArg Kept.cond hkept).trans ((hread (fun u => u.asp.cond) (fun _ _ _ => rfl) fun _ => rfl).trans hc)
  have hstop := kept_enterAllStop (.overrun x) _ hcond
  have hall : kept (finish s (sectionChanged n .clear (moved i.val true n c s)))
      = kept (enterAllStop (.overrun x) (eachDo (x :: more) (overrunOne n (fromNeighbour m k) []) (arrived i.val n c k s))) := by
    rw [kept_finish, sectionChanged_arrival h hroutes harr, htest, kept_visitorSection, kept_deckSectionLeft]
  rw [hstop] at hall
  exact ⟨congrArg Kept.cond hall, congrArg Kept.cause hall, congrArg Kept.power hall⟩

end Overrun

/-- The lowest number of a rising list that meets a condition heads those that meet it. -/
theorem filter_head {l : List Nat} {p : Nat → Bool} {x : Nat} (hs : l.Pairwise (· < ·)) (hx : x ∈ l) (hp : p x = true)
    (hlow : ∀ y ∈ l, y < x → ¬ p y = true) : ∃ more, l.filter p = x :: more := by
  induction l with
  | nil => cases hx
  | cons y l ih =>
    obtain ⟨hy, hl⟩ := List.pairwise_cons.1 hs
    obtain rfl | hx := List.mem_cons.1 hx
    · exact ⟨_, List.filter_cons_of_pos hp⟩
    · rw [List.filter_cons_of_neg (hlow y List.mem_cons_self (hy x hx))]
      exact ih hl hx fun z hz => hlow z (List.mem_cons_of_mem _ hz)

theorem pairwise_keys {α : Type} {t : Tbl α} (h : Tbl.sorted t = true) : (Tbl.keys t).Pairwise (· < ·) := by
  induction t with
  | nil => exact List.Pairwise.nil
  | cons x t ih =>
    obtain ⟨h1, h2⟩ := (Tbl.sorted_cons_iff x.1 x.2 t).1 h
    refine List.pairwise_cons.2 ⟨fun y hy => ?_, ih h2⟩
    obtain ⟨z, hz, rfl⟩ := List.mem_map.1 hy
    exact h1 z hz

/-- A signal that is overrun protects the section. -/
theorem protect_of_isOverrun {n x : Nat} {a : Arrival} {l : List EntryNote} {s : State} (h : isOverrun n a l s x = true) :
    ∃ r, Tbl.find s.asp.recs x = some r ∧ r.protect = some n := by
  unfold isOverrun at h
  split at h
  · next r _ hr _ =>
    simp only [Bool.and_eq_true] at h
    exact ⟨r, hr, by simpa using h.1.1.2⟩
  · cases h

/-- A section that has given up its tag. -/
theorem departed {s t : State} {n k : Nat} {v : Tag} (hs : Tbl.sorted s.tags.fields = true) (h : t.tags = { s.tags with
    table := Tbl.insert s.tags.table k v, fields := Tbl.erase s.tags.fields n }) :
    tagOf t n = none ∧ (∀ j, j ≠ k → tagRec t j = tagRec s j) ∧ (∀ j, j ≠ n → tagOf t j = tagOf s j) ∧ tagRec t k = v := by
  refine ⟨?_, fun j hj => ?_, fun j hj => ?_, ?_⟩
  · unfold tagOf; rw [h]; exact Tbl.find_erase_self _ _ hs
  · unfold tagRec; rw [h]; exact (getD_insert _ _ _ _ _).trans (if_neg hj)
  · unfold tagOf; rw [h]; exact Tbl.find_erase_other _ _ _ hj
  · unfold tagRec; rw [h]; exact (getD_insert _ _ _ _ _).trans (if_pos rfl)

theorem erase_pair {a b n : Nat} (h : a = n ∨ b = n) (hne : a ≠ b) : [a, b].erase n = [if a = n then b else a] := by
  by_cases e : a = n
  · simp [e]
  · have hb : b = n := h.resolve_left e
    subst hb
    simp [hne]

/-- The section a sample of its input has moved reads as its detector gives it. -/
theorem secState_after {s t : State} {i : Nat} {x : Bool} {n c : Nat} (h : t.occ = (moved i x n c s).occ) :
    secState t n = detected x := by
  refine .trans ?_ (secState_moved_self (i := i) (x := x) (n := n) (c := c) (s := s))
  unfold secState occOf
  rw [h]

/-- The tags that a departure leaves (R33). -/
theorem detector_departs {s : State} {i : Fin 256} {n k : Nat} (h : Changes i false n s) (ht : tagOf s n = some k)
    (hst : (tagRec s k).state = .active) (hl : s.tags.lostHold ≠ 0) : ∃ t v, exec (.detectorSample i false) s = .next t ∧
      t.tags = { s.tags with table := Tbl.insert s.tags.table k v, fields := Tbl.erase s.tags.fields n } ∧
      v = if (tagRec s k).holders.erase n = []
        then { tagRec s k with state := .lost, holders := [], last := some n, timer := some s.tags.lostHold }
        else { tagRec s k with holders := (tagRec s k).holders.erase n } := by
  obtain ⟨t, c, he, -, htags⟩ := detector_tags h
  rw [if_neg Bool.false_ne_true] at htags
  have hfield := (tagOf_found (s := s) (i := i.val) (c := c) (n := n) false n).trans ht
  have hrec := tagRec_found (s := s) (i := i.val) (c := c) (n := n) false k
  have hsame := tags_found (s := s) (i := i.val) (c := c) (n := n) false
  by_cases hrest : (tagRec s k).holders.erase n = []
  · rw [tags_depart_last hfield (by rw [hrec]; exact hrest) (by rw [hsame]; exact hl), hsame, hrec] at htags
    exact ⟨t, _, he, htags, (if_pos hrest).symm⟩
  · rw [tags_depart_shared hfield (by rw [hrec]; exact hrest) (by rw [hrec]; exact hst), hsame, hrec] at htags
    exact ⟨t, _, he, htags, (if_neg hrest).symm⟩

section Signal
variable {s : State} {i : Fin 256} {n m k x : Nat} {r : SignalRec} {st : SignalState}

theorem arrives_as (hroutes : s.ilk.active = []) (hn : (Tbl.find s.occ.recs n).map SectionRec.neighbours = some [{ sec := m, cond := none }])
    (hm : m ≠ n) (hs : secState s m = .occupied) (ht : tagOf s m = some k) (c : Nat) :
    arrive n (found i.val true n c s) = (arrived i.val n c k s, fromNeighbour m k) :=
  arrives_from_neighbour hroutes (neighboursOf_of_map hn) hm hs ht c

theorem asp_arrived (c : Nat) : (arrived i.val n c k s).asp = s.asp :=
  read_arrived (fun u => u.asp) (fun _ _ _ => rfl) (fun _ => rfl) _ _ _ _

/-- The arrival overruns the signal that protects the section where it came from the signal's approach at DANGER (R112). -/
theorem mem_overrunBy (c : Nat) (hr : Tbl.find s.asp.recs x = some r) (hst : Tbl.find s.asp.state x = some st) (hk : r.kind ≠ .distant)
    (hp : r.protect = some n) : x ∈ overrunBy n (fromNeighbour m k) (arrived i.val n c k s)
      ↔ st.aspect = .danger ∧ r.approach = some m := by
  have hasp := asp_arrived (s := s) (i := i) (n := n) (k := k) c
  unfold overrunBy
  rw [List.mem_filter, isOverrun_iff (by rw [hasp]; exact hr) (by rw [hasp]; exact hst) hk hp rfl]
  refine and_iff_right ?_
  rw [hasp]
  exact mem_keys_of_find hr

theorem counts_overrun (h : Changes i true n s) (hroutes : s.ilk.active = [])
    (hn : (Tbl.find s.occ.recs n).map SectionRec.neighbours = some [{ sec := m, cond := none }]) (hs : secState s m = .occupied)
    (hm : m ≠ n) (ht : tagOf s m = some k) (hsort : Tbl.sorted s.asp.recs = true) (hr : Tbl.find s.asp.recs x = some r)
    (hst : Tbl.find s.asp.state x = some st) (hk : r.kind ≠ .distant) (hp : r.protect = some n) (hresp : s.asp.response = .report) :
    ∃ t, exec (.detectorSample i true) s = .next t ∧ (Tbl.find t.asp.state x).map SignalState.overruns
      = some (if st.aspect = .danger ∧ r.approach = some m then min 255 (st.overruns + 1) else st.overruns) := by
  obtain ⟨c, hc⟩ := detectorSampled_changes h
  have hasp := asp_arrived (s := s) (i := i) (n := n) (k := k) c
  have hnodup : (overrunBy n (fromNeighbour m k) (arrived i.val n c k s)).Nodup := by
    unfold overrunBy
    rw [hasp]
    exact ((pairwise_keys hsort).imp fun hlt => Nat.ne_of_lt hlt).filter _
  have hcount := overruns_report h hroutes hresp (arrives_as hroutes hn hm hs ht c) x
  rw [find_overruns _ hnodup, hasp, hst] at hcount
  refine ⟨_, congrArg Host.Outcome.next (congrArg (finish s) hc), hcount.trans ?_⟩
  rw [apply_ite (Option.map SignalState.overruns)]
  exact (if_congr (mem_overrunBy c hr hst hk hp) rfl rfl).trans (apply_ite some _ _ _).symm

theorem stops_overrun (h : Changes i true n s) (hroutes : s.ilk.active = [])
    (hn : (Tbl.find s.occ.recs n).map SectionRec.neighbours = some [{ sec := m, cond := none }]) (hs : secState s m = .occupied)
    (hm : m ≠ n) (ht : tagOf s m = some k) (hsort : Tbl.sorted s.asp.recs = true) (hr : Tbl.find s.asp.recs x = some r)
    (hst : Tbl.find s.asp.state x = some st) (hk : r.kind ≠ .distant) (hp : r.protect = some n) (hresp : s.asp.response = .allStop)
    (hcond : s.asp.cond = .running) (ha : st.aspect = .danger) (happ : r.approach = some m)
    (hlow : ∀ y q, Tbl.find s.asp.recs y = some q → y < x → q.protect ≠ some n) :
    ∃ t, exec (.detectorSample i true) s = .next t ∧ t.asp.cond = .allStop ∧ t.asp.cause = some (.overrun x) ∧
      t.asp.power = false := by
  obtain ⟨c, hc⟩ := detectorSampled_changes h
  have hasp := asp_arrived (s := s) (i := i) (n := n) (k := k) c
  have hmem := (mem_overrunBy (i := i) (k := k) c hr hst hk hp).2 ⟨ha, happ⟩
  obtain ⟨hkey, hover⟩ := List.mem_filter.1 hmem
  obtain ⟨more, hmore⟩ := filter_head (pairwise_keys (by rw [hasp]; exact hsort)) hkey hover fun y _ hlt hy => by
    obtain ⟨q, hq, hqp⟩ := protect_of_isOverrun hy
    rw [hasp] at hq
    exact hlow y q hq hlt hqp
  exact ⟨_, congrArg Host.Outcome.next (congrArg (finish s) hc),
    stop_overrun h hroutes hresp hcond (arrives_as hroutes hn hm hs ht c) hmore⟩

end Signal

/-- Settles O29: the tags by the rule that the search ends in, the overrun by its signal. -/
theorem tagsArriveAndDepart : Obligations.TagsArriveAndDepart := by
  refine ⟨fun s i n r o hq hrun hin hr ho hdet hst hb ha => ⟨fun m k hn hm hs ht => ?_, fun k hn hlast hk hfree hlow => ?_,
    fun hn hlast hnone => ?_⟩, fun s i n k r o hq hrun hin hr ho hdet hst hb ha ht hact hsort hhold => ?_,
    fun s i n c k e a q xs ys h hresp hactive hroute hlock hst htag hseq hx hne hc => ?_,
    fun s i n m₁ m₂ k₁ k₂ h hroutes hn hs₁ hs₂ hm₁ hm₂ ht₁ ht₂ hne => ?_,
    fun s i n k v h hroutes hn hsort hf hv hl hlow => ?_,
    fun s i n m k x r st h hroutes hn hs hm ht hsort hr hst hk hp => ?_⟩
  · have h := changes_of_quiet (x := true) hq hrun hin hr ho hdet hst hb ha
    obtain ⟨t, c, he, -, htags⟩ := detector_tags h
    rw [if_pos rfl, arrives_from_neighbour hq.routes (neighboursOf_of_map (by rw [hr, ← hn]; rfl)) hm hs ht] at htags
    have hh := holds_found htags
    refine ⟨t, he, hh.field, ?_, ?_, ?_, ?_, hh.others, hh.fields⟩
    all_goals rw [hh.record]; rfl
  · have h := changes_of_quiet (x := true) hq hrun hin hr ho hdet hst hb ha
    obtain ⟨t, c, he, -, htags⟩ := detector_tags h
    rw [if_pos rfl, arrives_without_neighbours hq.routes (neighboursOf_of_map (by rw [hr, ← hn]; rfl))] at htags
    have hfreeTag : freeTag (found i.val true n c s) = some k := freeTag_some hk (by rw [tags_found]; exact hfree)
      fun j hj => by rw [tagRec_found]; exact hlow j hj
    unfold reclaimOrAllocate at htags
    rw [reclaimable_none (by rw [tags_found]; exact hlast), hfreeTag] at htags
    dsimp only at htags
    rw [tags_of_body (body_report _ _ _ _ _)] at htags
    have hh := holds_new hfree htags
    exact ⟨t, he, hh.field, hh.record, hh.others, hh.fields⟩
  · have h := changes_of_quiet (x := true) hq hrun hin hr ho hdet hst hb ha
    obtain ⟨t, c, he, hocc, htags⟩ := detector_tags h
    rw [if_pos rfl, arrives_without_neighbours hq.routes (neighboursOf_of_map (by rw [hr, ← hn]; rfl))] at htags
    have hfreeTag : freeTag (found i.val true n c s) = none := freeTag_none fun j hj => by rw [tagRec_found]; exact hnone j hj
    unfold reclaimOrAllocate at htags
    rw [reclaimable_none (by rw [tags_found]; exact hlast), hfreeTag] at htags
    dsimp only at htags
    rw [tags_of_body (body_report _ _ _ _ _), tags_found] at htags
    exact ⟨t, he, htags, secState_after hocc⟩
  · have h := changes_of_quiet (x := false) hq hrun hin hr ho hdet hst hb ha
    obtain ⟨t, v, he, htags, hv⟩ := detector_departs h ht hact hhold
    obtain ⟨hgone, hothers, hfields, hrec⟩ := departed hsort htags
    refine ⟨t, he, hgone, hothers, hfields, fun hone => ?_, fun a b htwo hne hin => ?_⟩
    · rw [hrec, hv, if_pos (by rw [hone]; simp)]
    · have herase : (tagRec s k).holders.erase n = [if a = n then b else a] := by rw [htwo]; exact erase_pair hin hne
      rw [hrec, hv, if_neg (by rw [herase]; simp), herase]
  · obtain ⟨t, c', he, -, htags⟩ := detector_tags h
    have hread {α : Type} (g : State → α) (hg : ∀ y w, g (body { s with occ := y, work := w }) = g s) (hb : ∀ u, g u = g (body u)) :
        g (found i.val true n c' s) = g s := read_found g hg hb
    have hcand := routeCandidate_running (s := found i.val true n c' s)
      ((hread (fun u => u.ilk.active) (fun _ _ => rfl) fun _ => rfl).trans hactive)
      ((hread (fun u => Tbl.find u.ilk.routes a.route) (fun _ _ => rfl) fun _ => rfl).trans hroute)
      ((hread (fun u => lockOf u n) (fun _ _ => rfl) fun _ => rfl).trans hlock) hst htag hseq hx hne ((tagOf_found true c).trans hc)
    rw [if_pos rfl, arrive_route hcand] at htags
    have hh := holds_found htags
    exact ⟨t, he, hh.field, hh.record, hh.others, hh.fields⟩
  · obtain ⟨t, c, he, hocc, htags⟩ := detector_tags h
    rw [if_pos rfl, arrives_ambiguous hroutes (neighboursOf_of_map hn) hm₁ hm₂ hs₁ hs₂ ht₁ ht₂ hne] at htags
    exact ⟨t, he, htags, secState_after hocc⟩
  · obtain ⟨t, c, he, -, htags⟩ := detector_tags h
    have hfirst : reclaimable (found i.val true n c s) n [] = some k := by
      rw [show reclaimable (found i.val true n c s) n [] = reclaimable s n [] from by unfold reclaimable; rw [tags_found]; rfl]
      exact reclaimable_first hsort hf hv hl hlow
    rw [if_pos rfl, arrives_without_neighbours hroutes (neighboursOf_of_map hn)] at htags
    unfold reclaimOrAllocate at htags
    rw [hfirst] at htags
    dsimp only at htags
    rw [tags_of_body (body_report _ _ _ _ _)] at htags
    have hh := holds_found htags
    have hrec : tagRec s k = v := by unfold tagRec Tbl.getD; rw [hf]; rfl
    exact ⟨t, he, hh.field, by rw [hh.record, hrec]; rfl, hh.others, hh.fields⟩
  · exact ⟨counts_overrun h hroutes hn hs hm ht hsort hr hst hk hp, fun hresp hc ha happ hlow =>
      stops_overrun h hroutes hn hs hm ht hsort hr hst hk hp hresp hc ha happ hlow⟩

end Sys2Proof.SectionMoves
end

