-- ==== Sys2Proof/Proofs/RouteStack.lean ====
section
/-! The route stack: its order, an entry's expiry, and the re-examination that follows a handling (O33). -/

namespace Sys2Proof.RouteStack

open Sys2Proof.Machine Sys2Proof.ReportLog Sys2Proof.TrackDetection Sys2Proof.TrackRequests Sys2Proof.RouteRelease
  Sys2Proof.PointLies Sys2Proof.AspectsTaken Sys2Proof.RouteSetting Sys2Proof.SectionMoves

/-! ### Class order (R53) -/

/-- The stack in class order. -/
abbrev InOrder (l : List StackEntry) : Prop := l.Pairwise fun y z => y.originator.code ≤ z.originator.code

/-- What stays behind a place that ends the entries of its own and of earlier classes is of later classes. -/
theorem later_of_dropWhile {x : StackEntry} {l : List StackEntry} (h : InOrder l) :
    ∀ y ∈ l.dropWhile (fun y => decide (y.originator.code ≤ x.originator.code)), x.originator.code < y.originator.code := by
  induction l with
  | nil => intro y hy; cases hy
  | cons z l ih =>
    obtain ⟨hz, hl⟩ := List.pairwise_cons.1 h
    by_cases hle : z.originator.code ≤ x.originator.code
    · rw [List.dropWhile_cons_of_pos (by simpa using hle)]
      exact ih hl
    · rw [List.dropWhile_cons_of_neg (by simpa using hle)]
      intro y hy
      obtain rfl | hy := List.mem_cons.1 hy
      · exact Nat.lt_of_not_le hle
      · exact Nat.lt_of_lt_of_le (Nat.lt_of_not_le hle) (hz y hy)

theorem placed {x : StackEntry} {l : List StackEntry} (h : InOrder l) :
    InOrder (placeEntry x l) ∧ ∃ a b, l = a ++ b ∧ placeEntry x l = a ++ x :: b ∧
      (∀ y ∈ a, y.originator.code ≤ x.originator.code) ∧ ∀ y ∈ b, x.originator.code < y.originator.code := by
  have hsplit : l = l.takeWhile (fun y => decide (y.originator.code ≤ x.originator.code)) ++
      l.dropWhile (fun y => decide (y.originator.code ≤ x.originator.code)) := List.takeWhile_append_dropWhile.symm
  have hplace := RouteRefusals.placeEntry_eq x l
  have hafter := later_of_dropWhile (x := x) h
  have hbefore : ∀ y ∈ l.takeWhile (fun y => decide (y.originator.code ≤ x.originator.code)),
      y.originator.code ≤ x.originator.code := fun y hy => by simpa using List.mem_takeWhile_imp hy
  generalize l.takeWhile (fun y => decide (y.originator.code ≤ x.originator.code)) = a at hsplit hplace hbefore
  generalize l.dropWhile (fun y => decide (y.originator.code ≤ x.originator.code)) = b at hsplit hplace hafter
  refine ⟨?_, a, b, hsplit, hplace, hbefore, hafter⟩
  rw [hsplit] at h
  obtain ⟨ha, hb, hab⟩ := List.pairwise_append.1 h
  rw [hplace]
  refine List.pairwise_append.2 ⟨ha, List.pairwise_cons.2 ⟨fun y hy => Nat.le_of_lt (hafter y hy), hb⟩, fun y hy z hz => ?_⟩
  obtain rfl | hz := List.mem_cons.1 hz
  · exact hbefore y hy
  · exact hab y hy z hz

/-! ### An entry that leaves the stack (R57 to R59) -/

/-- The stack, set. -/
def withStack (l : List StackEntry) (s : State) : State := { s with ilk := { s.ilk with stack := l } }

theorem body_setStack (l : List StackEntry) (s : State) : body (setStack l s) = body (withStack l s) := body_mirrorStack _

theorem body_leaveStack {s : State} {x : StackEntry} (h : s.ilk.stack = [x]) :
    body (leaveStack x.route s) = body (withStack [] s) := by
  have hl : (s.ilk.stack.filter fun y => y.route != x.route) = [] := by rw [h]; simp
  unfold leaveStack
  rw [hl]
  exact body_setStack [] s

theorem find_stack_one {s : State} {x : StackEntry} (h : s.ilk.stack = [x]) :
    s.ilk.stack.find? (fun y => y.route == x.route) = some x := by rw [h]; simp

theorem answerStacked_slot {x : StackEntry} {n : Nat} (a : Answer) (s : State) (h : x.source = .slot n) :
    answerStacked x a s = complete n a.result a.w0 a.w1 s := by unfold answerStacked; rw [h]

/-- The only entry leaves the stack and its slot is answered. -/
theorem leave_answered {s : State} {x : StackEntry} {n : Nat} {tag : HostTag} (a : Answer) (h : s.ilk.stack = [x])
    (hsrc : x.source = .slot n) (hn : n < Config.numSlots) (hm : s.memOk) (hsort : Tbl.sorted s.exch.inHand = true)
    (hmark : Tbl.find s.exch.inHand n = some tag) :
    body (answerStacked x a (leaveStack x.route s)) = body (unmarked n (withStack [] s)) ∧
      SlotDone n tag a.result a.w0 a.w1 (answerStacked x a (leaveStack x.route s)) := by
  have hb := body_leaveStack h
  have hown : Own s (leaveStack x.route s) := own_leaveStack _ _ (own_refl s)
  have hmarks : (leaveStack x.route s).exch.inHand = s.exch.inHand := (read_of_body (fun u => u.exch.inHand) (fun _ => rfl) hb).trans rfl
  rw [answerStacked_slot a _ hsrc]
  constructor
  · exact (body_completed _ _ _ hn (by rw [hmarks]; exact hmark)).trans (body_update (unmarked n) (fun _ => rfl) hb)
  · exact slotDone_completed _ _ _ hn (hown.mem hm) (by rw [hmarks]; exact hmark) (by rw [hmarks]; exact hsort)

theorem stackExpires_of_find {s : State} {x : StackEntry} {k : Nat} (h : s.ilk.stack = [x]) (he : x.expiry = some k) :
    stackExpires x.route s = answerStacked x ⟨.expired, x.reason.code, x.item⟩ (leaveStack x.route s) := by
  unfold stackExpires
  rw [find_stack_one h]
  dsimp only
  rw [he]

theorem stackExpires_stopped {s : State} {route : Nat} (h : ∀ x ∈ s.ilk.stack, x.route = route → x.expiry = none) :
    stackExpires route s = s := by
  unfold stackExpires
  split
  · rfl
  · next x hx =>
    have hroute : x.route = route := by simpa using List.find?_some hx
    rw [h x (List.mem_of_find?_eq_some hx) hroute]

/-! ### A re-examination after a handling (R54) -/

theorem step_of_quietEnd {s : State} (h : quietEnd s = true) : s.work.step = none ∧ noHead s = true := by
  unfold quietEnd at h
  simp only [Bool.and_eq_true] at h
  exact ⟨by simpa using h.1.1.1, h.1.1.2⟩

/-- What a re-examination that leaves nothing to do is followed by. -/
theorem afterWork_reexam (m : Nat) {u : State} (hpass : u.work.pass = false) (hre : u.work.reexam = true) :
    (quietEnd (reexamine u) = true → inside (afterWork (m + 4) u) = inside (reexamine u)) ∧
      Own (reexamine u) (afterWork (m + 4) u) := by
  have hrun : afterWork (m + 4) u = afterWork (m + 3) (endHandling u (reexamine u)) := by
    rw [afterWork, if_neg (by simp [hpass]), if_pos hre]
  rw [hrun]
  generalize reexamine u = y
  refine ⟨fun hquiet => ?_, own_afterWork _ _ (own_endHandling _ _ (own_refl _))⟩
  obtain ⟨hs, hh⟩ := step_of_quietEnd hquiet
  have hcalm := calm_endHandling u y hs hh
  generalize endHandling u y = z at hcalm
  have hdone := calmDone_afterWork m z ((quietEnd_of_calm hcalm).trans hquiet)
  rw [calmDone_of_calm hcalm] at hdone
  rw [← inside_calmDone, hdone, inside_calmDone]

/-- The pass done, with no order in the queue. -/
def passed (s : State) : State := { s with work := { s.work with pass := false } }

/-- A pass with no order in the queue does nothing, and a re-examination follows it. -/
theorem afterWork_pass (m : Nat) {u : State} (hstep : u.work.step = none) (hhead : noHead u = true) (hq : u.pts.queue = [])
    (hpass : u.work.pass = true) :
    ∃ z, calm z = calm (passed u) ∧ Own u z ∧ afterWork (m + 1) u = afterWork m z := by
  have hidle : dispatcherPass (passed u) = passed u := by
    refine dispatcherPass_idle _ ?_
    have hq' : (passed u).pts.queue = [] := hq
    unfold dispatchIdle
    rw [hq']
    rfl
  refine ⟨endHandling u (passed u), calm_endHandling u (passed u) hstep hhead,
    own_endHandling _ _ (own_same (own_refl u) rfl rfl), ?_⟩
  rw [afterWork, if_pos hpass]
  exact congrArg (fun w => afterWork m (endHandling u w)) hidle

/-- The handling that asks for a re-examination: what the re-examination finds, and what it leaves. -/
theorem finish_reexam (b : State) {v : State} (hstep : v.work.step = none) (hhead : noHead v = true) (hq : v.pts.queue = [])
    (hr : v.work.reexam = true) : ∃ u, calm u = calm (passed v) ∧ Own v u ∧
      (quietEnd (reexamine u) = true → inside (finish b v) = inside (reexamine u)) ∧ Own (reexamine u) (finish b v) := by
  have hcalm := calm_endHandling b v hstep hhead
  have howned := own_endHandling b v (own_refl v)
  have hfinish : inside (finish b v) = inside (afterWork 4096 (endHandling b v)) := rfl
  have hown (y : State) (h : Own y (afterWork 4096 (endHandling b v))) : Own y (finish b v) := own_same h rfl rfl
  rw [hfinish]
  generalize finish b v = t at hown
  generalize endHandling b v = u at hcalm howned hown
  have hre : u.work.reexam = true := (read_of_calm (fun u => u.work.reexam) (fun _ => rfl) hcalm).trans hr
  have hpassed : calm (passed u) = calm (passed v) := congrArg passed hcalm
  cases hp : u.work.pass with
  | false =>
    have hsame : passed u = u := by
      have hw : ({ u.work with pass := false } : Work) = u.work := by rw [← hp]
      unfold passed
      rw [hw]
    obtain ⟨hin, ho⟩ := afterWork_reexam 4092 hp hre
    exact ⟨u, by rw [← hpassed, hsame], howned, hin, hown _ ho⟩
  | true =>
    obtain ⟨z, hz, hoz, haz⟩ := afterWork_pass 4095 ((read_of_calm (fun u => u.work.step) (fun _ => rfl) hcalm).trans hstep)
      ((read_of_calm noHead (fun _ => rfl) hcalm).trans hhead) ((read_of_calm (fun u => u.pts.queue) (fun _ => rfl) hcalm).trans hq) hp
    obtain ⟨hin, ho⟩ := afterWork_reexam 4091 (u := z) (read_of_calm (fun u => u.work.pass) (fun _ => rfl) hz)
      ((read_of_calm (fun u => u.work.reexam) (fun _ => rfl) hz).trans hre)
    rw [haz] at hown ⊢
    exact ⟨z, hz.trans hpassed, howned.trans hoz, hin, hown _ ho⟩

/-- A re-examination done. -/
def examined (s : State) : State := { s with work := { s.work with reexam := false } }

theorem own_examined (s : State) : Own s (examined s) := own_same (own_refl s) rfl rfl

/-- The re-examination of the only entry. -/
theorem reexamine_one {s : State} {x : StackEntry} (h : s.ilk.stack = [x]) :
    reexamine s = examined (reexamineOne x.route s) := by
  unfold reexamine
  rw [h]
  rfl

theorem reexamineOne_passes {s : State} {x : StackEntry} (h : s.ilk.stack = [x])
    (hr : routeRefusal s x.route x.originator true = none) :
    reexamineOne x.route s = acceptRoute x.route x.originator x.source (leaveStack x.route s) := by
  unfold reexamineOne
  rw [find_stack_one h]
  dsimp only
  rw [hr]

theorem reexamineOne_fails {s : State} {x : StackEntry} {a : Answer} (h : s.ilk.stack = [x])
    (hr : routeRefusal s x.route x.originator true = some a) : reexamineOne x.route s =
    if a.result.transient then keepStacked x a s else answerStacked x a (leaveStack x.route s) := by
  unfold reexamineOne
  rw [find_stack_one h]
  dsimp only
  rw [hr]

/-- An entry that stays has the reason and item of its check (R55). -/
theorem body_keepStacked {s : State} {x : StackEntry} (a : Answer) (h : s.ilk.stack = [x]) :
    body (keepStacked x a s) = body (withStack [{ x with reason := a.result, item := a.w0 }] s) := by
  unfold keepStacked
  split
  · next hsame =>
    obtain ⟨h1, h2⟩ : x.reason = a.result ∧ x.item = a.w0 := by simpa using hsame
    have hx : ({ x with reason := a.result, item := a.w0 } : StackEntry) = x := by rw [← h1, ← h2]
    rw [hx, ← h]
    rfl
  · have hmap : (s.ilk.stack.map fun y => if y.route = x.route then { y with reason := a.result, item := a.w0 } else y)
        = [{ x with reason := a.result, item := a.w0 }] := by rw [h]; simp
    rw [hmap]
    exact body_setStack _ s

/-! ### ENABLE_SECTION of a section that is CLEAR (R17) -/

/-- A section made CLEAR, with count 0. -/
def clearing (n : Nat) (s : State) : State :=
  { s with occ := { s.occ with secs := Tbl.insert s.occ.secs n (plainOccupancy .clear) } }

theorem secState_clearing (n : Nat) (s : State) : secState (clearing n s) n = .clear := by
  unfold secState occOf Tbl.getD clearing
  dsimp only
  rw [Tbl.find_insert_self]
  rfl

/-- With no route active, no show running and no tag in the section, a section that leaves DISABLED for CLEAR is reported alone. -/
theorem sectionChanged_clear {s : State} {n : Nat} (hstep : s.work.step = none) (hroutes : s.ilk.active = [])
    (hrunner : s.vis.runner = none) (htag : tagOf s n = none) (hsec : secState s n = .clear) :
    sectionChanged n .disabled s = handedOn n .disabled s := by
  have hb := body_handedOn n .disabled s
  have hread {α : Type} (g : State → α) (hg : ∀ u, g u = g (body u)) := read_of_body g hg hb
  have htagged : taggedChange n .disabled s = (handedOn n .disabled s, none) := by
    have hnone : tagOf (handedOn n .disabled s) n = none := (hread (fun u => tagOf u n) fun _ => rfl).trans htag
    have hdepart : depart n (handedOn n .disabled s) = handedOn n .disabled s := by unfold depart; rw [hnone]
    unfold taggedChange tagSectionChange
    rw [hsec]
    exact congrArg (fun u => (u, (none : Option Arrival))) hdepart
  have hsame : routesSectionChange n (secState s n) none (handedOn n .disabled s) = (handedOn n .disabled s, []) := by
    unfold routesSectionChange
    rw [(hread (fun u => u.ilk.active) fun _ => rfl).trans hroutes]
    rfl
  rw [sectionChanged_eq, htagged]
  change visitorSection n (secState s n) (if SectionState.disabled = .clear then _ else
    overrunTest n none (routesSectionChange n (secState s n) none (handedOn n .disabled s)).2
      (runVisitor (routesSectionChange n (secState s n) none (handedOn n .disabled s)).1)) = _
  rw [hsame, if_neg (by decide), runVisitor_idle _ ((step_handedOn n .disabled s).trans hstep)]
  have hr : (handedOn n .disabled s).vis.runner = none := (hread (fun u => u.vis.runner) fun _ => rfl).trans hrunner
  change visitorSection n (secState s n) (handedOn n .disabled s) = _
  unfold visitorSection
  rw [hr]

/-- What ENABLE_SECTION finds where a section becomes CLEAR and one entry is stacked. -/
structure Enabled (s : State) (n k : Nat) (x : StackEntry) (other : HostTag) (r : SectionRec) (o : Occupancy) : Prop where
  work : s.work = Work.none
  shows : s.vis.queue = []
  runner : s.vis.runner = none
  orders : s.pts.queue = []
  overflow : s.pts.overflow = []
  routes : s.ilk.active = []
  stack : s.ilk.stack = [x]
  source : x.source = .slot k
  slot : k < Config.numSlots
  apart : k ≠ s.exch.takePos
  marks : Tbl.sorted s.exch.inHand = true
  mark : Tbl.find s.exch.inHand k = some other
  number : n < 256
  record : Tbl.find s.occ.recs n = some r
  occupancy : Tbl.find s.occ.secs n = some o
  detection : r.detection = .current
  level : detLevel s r = false
  disabled : o.state = .disabled
  tag : tagOf s n = none

section Enable
variable {s : State} {n k : Nat} {x : StackEntry} {other : HostTag} {r : SectionRec} {o : Occupancy}

/-- The block's own part, its slot answered: the section is CLEAR, and a re-examination is asked for. -/
theorem enableSection_clears (he : Enabled s n k x other r o) (h : Ready .running s) (q : Request) :
    ∃ v, enableSection s.exch.takePos n (taken q s) = v ∧ inside v = inside (clearing n s).served ∧ v.work.step = none ∧
      v.work.reexam = true ∧ SlotDone s.exch.takePos q.tag .ok 0 0 v ∧ Own (taken q s) v := by
  have hn : s.exch.takePos < Config.numSlots := h.sound.limits.takePos
  have hfresh : freshState s n r = .clear := by unfold freshState; rw [he.detection, he.level]; rfl
  have hread {α : Type} (g : State → α) (hg : ∀ m, g (((s.inHand q.tag).served).withMem m) = g s) : g (taken q s) = g s :=
    read_taken g q s hg
  have hupdate : updateSection n (fun o => if o.state = .disabled then { o with state := freshState s n r, count := 0 } else o)
      (taken q s) = handedOn n .disabled (clearing n (taken q s)) := by
    have hdisc (b : Bool) : updateDiscrepancy r b { o with state := .clear, count := 0 } = plainOccupancy .clear :=
      updateDiscrepancy_plain r b (.inl (by rw [he.detection]; decide))
    unfold updateSection
    rw [occ_taken, he.record, he.occupancy]
    dsimp only
    rw [if_pos he.disabled, hfresh, hdisc]
    refine (if_neg (by rw [he.disabled]; decide)).trans ?_
    rw [he.disabled]
    have hchange := sectionChanged_clear (s := clearing n (taken q s)) (n := n)
      ((congrArg Work.step (work_taken q s)).trans (by rw [he.work]; rfl))
      ((hread (fun u => u.ilk.active) fun _ => rfl).trans he.routes) ((hread (fun u => u.vis.runner) fun _ => rfl).trans he.runner)
      ((hread (fun u => tagOf u n) fun _ => rfl).trans he.tag) (secState_clearing n _)
    unfold clearing at hchange ⊢
    rw [occ_taken] at hchange ⊢
    exact hchange
  have hwork : (taken q s).work = Work.none := (work_taken q s).trans he.work
  have hb := body_handedOn n .disabled (clearing n (taken q s))
  have hown : Own (taken q s) (handedOn n .disabled (clearing n (taken q s))) := by
    rw [← hupdate]; exact own_updateSection n _ _ (own_refl _)
  rw [secState_clearing] at hb
  generalize handedOn n .disabled (clearing n (taken q s)) = w at hb hupdate hown
  have hmarks : w.exch.inHand = Tbl.insert s.exch.inHand s.exch.takePos q.tag :=
    (read_of_body (fun u => u.exch.inHand) (fun _ => rfl) hb).trans (taken_mark q s)
  have hmark : Tbl.find w.exch.inHand s.exch.takePos = some q.tag := by rw [hmarks]; exact Tbl.find_insert_self _ _ _
  have herase : Tbl.erase w.exch.inHand s.exch.takePos = s.exch.inHand := by rw [hmarks]; exact Tbl.erase_insert _ _ _ h.mark
  have hdone := slotDone_complete s.exch.takePos q.tag .ok 0 0 w hn (hown.mem (mem_taken q s h.sound.mem)) hmark
    (by rw [herase]; exact h.mark)
  have hbc := body_completed .ok 0 0 hn hmark
  have hvwork : (complete s.exch.takePos .ok 0 0 w).work = sectionWork .disabled .clear (taken q s).work :=
    (work_of_body hbc).trans ((work_of_body hb).trans rfl)
  refine ⟨complete s.exch.takePos .ok 0 0 w, ?_, ?_, ?_, ?_, hdone, own_complete hown _ _ _ _⟩
  · rw [enableSection_loaded he.number he.record, hupdate]
  · have h1 : inside (complete s.exch.takePos .ok 0 0 w) = inside { w with exch := { w.exch with inHand := s.exch.inHand } } := by
      rw [inside_of_body hbc, herase]
    have h2 := body_update (fun u => { u with exch := { u.exch with inHand := s.exch.inHand } }) (fun _ => rfl) hb
    have h3 : inside { w with exch := { w.exch with inHand := s.exch.inHand } }
        = inside { clearing n (taken q s) with exch := { (taken q s).exch with inHand := s.exch.inHand } } :=
      (inside_of_body h2).trans rfl
    rw [h1, h3, taken_shape]
    rfl
  · rw [hvwork, hwork]; rfl
  · rw [hvwork, hwork]; rfl

/-- The re-examination that the command asks for: u is what it finds, t is what the command leaves. -/
structure Reexamined (s u t : State) (tag : HostTag) (n : Nat) : Prop where
  found : inside u = inside (clearing n s).served
  step : u.work.step = none
  pass : u.work.pass = false
  mem : u.memOk
  ended : quietEnd (reexamine u) = true → inside t = inside (reexamine u)
  own : Own (reexamine u) t
  done : SlotDone s.exch.takePos tag .ok 0 0 t
  kept : MemoryKept (some s.exch.takePos) s t

theorem enable_reexamined {c : Word} (he : Enabled s c.toNat k x other r o) (h : Ready .running s) (tag : HostTag) :
    ∃ u t, exec (.enableSection tag c) s = .next t ∧ Reexamined s u t tag c.toNat := by
  let q : Request := ⟨12, tag, c, 0#32, 0#32⟩
  have hn : s.exch.takePos < Config.numSlots := h.sound.limits.takePos
  obtain ⟨v, hv, hin, hstep, hre, hdone, hown⟩ := enableSection_clears he h q
  have hread {α : Type} (g : State → α) (hg : ∀ u, g u = g (inside u)) : g v = g (clearing c.toNat s).served :=
    OrderEnds.read_of_inside g hg hin
  have hqueue : v.pts.queue = [] := (hread (fun u => u.pts.queue) fun _ => rfl).trans he.orders
  have hhead : noHead v = true := by
    unfold noHead
    rw [(hread (fun u => u.vis.queue) fun _ => rfl).trans he.shows]
    rfl
  obtain ⟨u, hcalm, hou, hend, hot⟩ := finish_reexam s hstep hhead hqueue hre
  have hnext : requestCommand .running (fun m => enableSection m c.toNat) q s = finish s v :=
    (request_next h rfl (by decide)).trans (congrArg (finish s) hv)
  refine ⟨u, finish s v, congrArg Host.Outcome.next hnext, ?_, ?_, ?_, ?_, hend, hot, hdone.own hn (own_finish _ _ (own_refl _)),
    memoryKept_taken (own_finish _ _ hown)⟩
  · exact (inside_of_calm hcalm).trans hin
  · exact (read_of_calm (fun y => y.work.step) (fun _ => rfl) hcalm).trans hstep
  · exact read_of_calm (fun y => y.work.pass) (fun _ => rfl) hcalm
  · exact hou.mem (hown.mem (mem_taken q s h.sound.mem))

/-- A reading of the machine that the re-examination finds. -/
theorem Reexamined.read {α : Type} {u t : State} {tag : HostTag} {n : Nat} (h : Reexamined s u t tag n) (g : State → α)
    (hg : ∀ y, g y = g (inside y)) : g u = g (clearing n s).served := OrderEnds.read_of_inside g hg h.found

theorem Reexamined.stack {u t : State} {tag : HostTag} (h : Reexamined s u t tag n) (he : Enabled s n k x other r o) :
    u.ilk.stack = [x] := (h.read (fun y => y.ilk.stack) fun _ => rfl).trans he.stack

/-- The check of the entry finds what it finds with the section CLEAR. -/
theorem Reexamined.refusal {u t : State} {tag : HostTag} (h : Reexamined s u t tag n) :
    routeRefusal u x.route x.originator true = routeRefusal (clearing n s) x.route x.originator true :=
  (h.read (fun y => routeRefusal y x.route x.originator true) fun _ => rfl).trans rfl

/-- An entry that fails with a transient reason stays with it (R55). -/
theorem reexamined_stays {u t : State} {tag : HostTag} {a : Answer} (h : Reexamined s u t tag n) (he : Enabled s n k x other r o)
    (ha : routeRefusal (clearing n s) x.route x.originator true = some a) (htrans : a.result.transient = true) :
    inside t = inside (withStack [{ x with reason := a.result, item := a.w0 }] (clearing n s)).served := by
  have hstack := h.stack he
  have hone : reexamineOne x.route u = keepStacked x a u := by
    rw [reexamineOne_fails hstack (h.refusal.trans ha)]
    exact if_pos htrans
  have hb := body_keepStacked a hstack
  have hre := reexamine_one hstack
  rw [hone] at hre
  have hquiet : quietEnd (reexamine u) = true := by
    have hstep : (keepStacked x a u).work.step = none := (read_of_body (fun y => y.work.step) (fun _ => rfl) hb).trans h.step
    have hpass : (keepStacked x a u).work.pass = false := (read_of_body (fun y => y.work.pass) (fun _ => rfl) hb).trans h.pass
    have hshows : (keepStacked x a u).vis.queue = [] := (read_of_body (fun y => y.vis.queue) (fun _ => rfl) hb).trans
      ((h.read (fun y => y.vis.queue) fun _ => rfl).trans he.shows)
    rw [hre]
    unfold quietEnd noHead examined
    dsimp only
    rw [hstep, hpass, hshows]
    simp
  have h1 : inside (reexamine u) = inside (keepStacked x a u) := by rw [hre]; rfl
  have h2 : inside (keepStacked x a u) = inside (withStack [{ x with reason := a.result, item := a.w0 }] u) := inside_of_body hb
  have h3 := congrArg (withStack [{ x with reason := a.result, item := a.w0 }]) h.found
  exact (h.ended hquiet).trans (h1.trans (h2.trans h3))

/-- The marks that the re-examination finds. -/
theorem Reexamined.marks {u t : State} {tag : HostTag} (h : Reexamined s u t tag n) : u.exch.inHand = s.exch.inHand :=
  (h.read (fun y => y.exch.inHand) fun _ => rfl).trans rfl

/-- An entry that fails with a permanent reason leaves the stack, and its slot is answered (R57). -/
theorem reexamined_leaves {u t : State} {tag : HostTag} {a : Answer} (h : Reexamined s u t tag n) (he : Enabled s n k x other r o)
    (ha : routeRefusal (clearing n s) x.route x.originator true = some a) (htrans : a.result.transient = false) :
    SlotDone k other a.result a.w0 a.w1 t ∧ inside t = inside (unmarked k (withStack [] (clearing n s))).served := by
  have hstack := h.stack he
  have hone : reexamineOne x.route u = answerStacked x a (leaveStack x.route u) := by
    rw [reexamineOne_fails hstack (h.refusal.trans ha)]
    exact if_neg (by rw [htrans]; decide)
  obtain ⟨hb, hdone⟩ := leave_answered a hstack he.source he.slot h.mem (by rw [h.marks]; exact he.marks) (by rw [h.marks]; exact he.mark)
  have hre := reexamine_one hstack
  rw [hone] at hre
  generalize answerStacked x a (leaveStack x.route u) = w at hb hdone hre
  have hquiet : quietEnd (reexamine u) = true := by
    have hw {α : Type} (g : State → α) (hg : ∀ y, g y = g (body y)) : g w = g (unmarked k (withStack [] u)) := read_of_body g hg hb
    rw [hre]
    refine quietEnd_of_empty _ ((hw (fun y => y.work.step) fun _ => rfl).trans h.step) ?_ ?_ (hw (fun y => y.ilk.stack) fun _ => rfl)
    · exact (hw (fun y => y.vis.queue) fun _ => rfl).trans ((h.read (fun y => y.vis.queue) fun _ => rfl).trans he.shows)
    · exact (hw (fun y => y.pts.queue) fun _ => rfl).trans ((h.read (fun y => y.pts.queue) fun _ => rfl).trans he.orders)
  have hown := h.own
  have hended := h.ended hquiet
  rw [hre] at hown hended
  have h2 : inside w = inside (unmarked k (withStack [] u)) := inside_of_body hb
  have h3 := congrArg (fun y => unmarked k (withStack [] y)) h.found
  exact ⟨hdone.own he.slot ((own_examined w).trans hown), hended.trans (.trans rfl (h2.trans h3))⟩

/-- An entry that passes is set, and takes its slot with it (R56). -/
theorem reexamined_sets {u t : State} {tag : HostTag} {q : RouteRec} (h : Reexamined s u t tag n) (he : Enabled s n k x other r o)
    (ha : routeRefusal (clearing n s) x.route x.originator true = none) (hq : Tbl.find s.ilk.routes x.route = some q)
    (hp : ∀ y ∈ routePoints q, detLie s y.1 = y.2.det) (hs : ∀ m ∈ sequence q, secState (clearing n s) m = .clear) :
    SlotDone k other .ok 0 0 t ∧ t.ilk.stack = [] ∧ Tbl.find t.ilk.active 0 = some (setEntry x.route x.originator q) ∧
      ∀ m ∈ sequence q, lockOf t m = some x.route := by
  have hcond : (clearing n s).asp.cond = .running := cond_of_passes ha
  have hstack := h.stack he
  have hone : reexamineOne x.route u = acceptRoute x.route x.originator (.slot k) (leaveStack x.route u) := by
    rw [reexamineOne_passes hstack (h.refusal.trans ha), he.source]
  have hleft := body_leaveStack hstack
  have hownLeft : Own u (leaveStack x.route u) := own_leaveStack _ _ (own_refl u)
  have hre := reexamine_one hstack
  rw [hone] at hre
  generalize leaveStack x.route u = y at hleft hownLeft hre
  have hy {α : Type} (g : State → α) (hb : ∀ z, g z = g (body z)) (hi : ∀ z, g z = g (inside z))
      (hst : ∀ z, g (withStack [] z) = g z) : g y = g (clearing n s).served :=
    (read_of_body g hb hleft).trans ((hst u).trans (h.read g hi))
  have hmarks : y.exch.inHand = s.exch.inHand :=
    (hy (fun z => z.exch.inHand) (fun _ => rfl) (fun _ => rfl) fun _ => rfl).trans rfl
  have hactive : y.ilk.active = [] := (hy (fun z => z.ilk.active) (fun _ => rfl) (fun _ => rfl) fun _ => rfl).trans he.routes
  obtain ⟨w, hbook, hb, hdone⟩ := acceptRoute_proved (s := y) (route := x.route) (n := k) (e := 0) (tag := other) x.originator
    ((hy (fun z => Tbl.find z.ilk.routes x.route) (fun _ => rfl) (fun _ => rfl) fun _ => rfl).trans hq) (by rw [hactive]; rfl)
    ((hy (fun z => z.asp.cond) (fun _ => rfl) (fun _ => rfl) fun _ => rfl).trans hcond)
    ((hy (fun z => z.pts.queue) (fun _ => rfl) (fun _ => rfl) fun _ => rfl).trans he.orders)
    ((hy (fun z => z.pts.overflow) (fun _ => rfl) (fun _ => rfl) fun _ => rfl).trans he.overflow)
    (fun z hz => (hy (fun v => detLie v z.1) (fun _ => rfl) (fun _ => rfl) fun _ => rfl).trans (hp z hz))
    (fun m hm => (hy (fun v => secState v m) (fun _ => rfl) (fun _ => rfl) fun _ => rfl).trans (hs m hm)) he.slot
    (hownLeft.mem h.mem) (by rw [hmarks]; exact he.mark) (by rw [hmarks]; exact Tbl.find_erase_self _ _ he.marks)
  generalize acceptRoute x.route x.originator (.slot k) y = v at hb hdone hre
  have hv {α : Type} (g : State → α) (hg : ∀ z, g z = g (body z)) : g v = g (unmarked k (wantAspects w)) := read_of_body g hg hb
  have hquiet : quietEnd (reexamine u) = true := by
    rw [hre]
    refine quietEnd_of_empty _ ?_ ?_ ?_ ?_
    · exact (hv (fun z => z.work.step) fun _ => rfl).trans (hbook.alone.step.trans
        ((read_of_body (fun z => z.work.step) (fun _ => rfl) hleft).trans h.step))
    · exact (hv (fun z => z.vis.queue) fun _ => rfl).trans ((hbook.alone.read (fun z => z.vis.queue) fun _ => rfl).trans
        ((hy (fun z => z.vis.queue) (fun _ => rfl) (fun _ => rfl) fun _ => rfl).trans he.shows))
    · exact (hv (fun z => z.pts.queue) fun _ => rfl).trans ((hbook.alone.read (fun z => z.pts.queue) fun _ => rfl).trans
        ((hy (fun z => z.pts.queue) (fun _ => rfl) (fun _ => rfl) fun _ => rfl).trans he.orders))
    · exact (hv (fun z => z.ilk.stack) fun _ => rfl).trans ((hbook.alone.read (fun z => z.ilk.stack) fun _ => rfl).trans
        ((read_of_body (fun z => z.ilk.stack) (fun _ => rfl) hleft).trans rfl))
  have hown := h.own
  have hended := h.ended hquiet
  rw [hre] at hown hended
  have hilk : t.ilk = w.ilk := (OrderEnds.read_of_inside (fun z => z.ilk) (fun _ => rfl) hended).trans
    ((hv (fun z => z.ilk) fun _ => rfl).trans rfl)
  refine ⟨hdone.own he.slot ((own_examined v).trans hown), ?_, ?_, fun m hm => ?_⟩
  · rw [hilk]
    exact (hbook.alone.read (fun z => z.ilk.stack) fun _ => rfl).trans
      ((read_of_body (fun z => z.ilk.stack) (fun _ => rfl) hleft).trans rfl)
  · rw [hilk]; exact hbook.find
  · have hlock : lockOf t m = lockOf w m := by unfold lockOf; rw [hilk]
    rw [hlock, hbook.locks, if_pos hm]
    rfl

end Enable

/-- Settles O33: the order by the place, the expiry by the entry that leaves, the re-examination by what its check finds. -/
theorem stackOrderAndExpiry : Obligations.StackOrderAndExpiry := by
  refine ⟨fun x l h => placed h, fun s route x k n tag hs hw hv hstack hroute hexp hsrc hn hsort hmark => ?_,
    fun s route hw hv hnone => ?_,
    fun s tag other n r o x k h hw hv hrun _ hq ho hact hstack hsrc hk hne hsort hmark hn hr hocc hdet hlev hdis htag => ?_⟩
  · have hblock : stackExpires route.val s = answerStacked x ⟨.expired, x.reason.code, x.item⟩ (leaveStack x.route s) := by
      rw [← hroute]; exact stackExpires_of_find hstack hexp
    obtain ⟨hb, hdone⟩ := leave_answered ⟨.expired, x.reason.code, x.item⟩ hstack hsrc hn hs.mem hsort hmark
    have hown := own_stackExpires route.val s (own_refl s)
    rw [← hblock] at hb hdone
    have hread {α : Type} (g : State → α) (hg : ∀ u, g u = g (body u)) : g (stackExpires route.val s) = _ := read_of_body g hg hb
    have hquiet : quietEnd (stackExpires route.val s) = true :=
      quietEnd_of_none _ ((hread (fun u => u.work) fun _ => rfl).trans hw) ((hread (fun u => u.vis.queue) fun _ => rfl).trans hv)
    exact ⟨_, rfl, hdone.own hn (own_finish _ _ (own_refl _)), memoryKept_of_own (own_finish _ _ hown),
      (inside_finish _ _ hquiet).trans (inside_of_body hb)⟩
  · exact makes_finish (c := .stackEntryExpiry route) (v := stackExpires route.val s) rfl
      (by rw [stackExpires_stopped hnone]; exact quietEnd_of_none s hw hv) (by rw [stackExpires_stopped hnone])
      (own_stackExpires _ _ (own_refl s))
  · have he : Enabled s n.toNat k x other r o :=
      ⟨hw, hv, hrun, hq, ho, hact, hstack, hsrc, hk, hne, hsort, hmark, hn, hr, hocc, hdet, hlev, hdis, htag⟩
    obtain ⟨u, t, hexec, hre⟩ := enable_reexamined he h tag
    refine ⟨fun a ha htrans => ?_, fun a ha htrans => ?_, fun q ha hq hp hs => ?_⟩
    · exact ⟨t, hexec, hre.done, reexamined_stays hre he ha htrans, hre.kept⟩
    · obtain ⟨hdone, hin⟩ := reexamined_leaves hre he ha htrans
      exact ⟨t, hexec, hre.done, hdone, hre.kept, hin⟩
    · obtain ⟨hdone, hst, hactive, hlocks⟩ := reexamined_sets hre he ha hq hp hs
      exact ⟨t, _, hexec, hre.done, hdone, hst, hactive, rfl, rfl, rfl, hlocks⟩

end Sys2Proof.RouteStack
end

