-- ==== Sys2Proof/Proofs/RouteCancelling.lean ====
section
/-! CANCEL_ROUTE: refused, released whole, APPROACH_LOCKED or CANCELLING, and a stacked request (O34). -/

namespace Sys2Proof.RouteCancelling

open Sys2Proof.Machine Sys2Proof.ReportLog Sys2Proof.TrackDetection Sys2Proof.TrackRequests Sys2Proof.RouteRelease
  Sys2Proof.PointLies Sys2Proof.PointOrders Sys2Proof.LayoutStop Sys2Proof.RouteSetting Sys2Proof.RouteStack

/-! ### The branches of the block (R80) -/

section Branches
variable {s : State} {e n route : Nat} {a : Active}

theorem cancelRequest_bad (h : 511 < route) : cancelRequest n route s = complete n .badArgument 0 0 s := by
  unfold cancelRequest cancelRoute; rw [if_pos h]

/-- A route with no stacked request: what its state makes of it, and the answer. -/
theorem cancelRoute_unstacked (h : route ≤ 511) (hs : s.ilk.stack = []) : cancelRoute route false s =
    match entryOf s route with
    | none => (s, ⟨.routeNotActive, 0, 0⟩)
    | some (e, a) => match a.state with
      | .setting => (cancelSetting e a s, ⟨.ok, a.state.code, e⟩)
      | .set | .held => (cancelSet e a s, ⟨.ok, a.state.code, e⟩)
      | .running => (s, ⟨.routeRunning, 0, 0⟩)
      | .approachLocked | .cancelling => (s, ⟨.ok, a.state.code, e⟩) := by
  unfold cancelRoute
  rw [if_neg (by omega), hs]
  dsimp only [List.find?_nil]
  cases entryOf s route with
  | none => rfl
  | some x => rfl

theorem cancelRequest_answers {t : State} {r : Result} {w0 w1 : Nat} (h : cancelRoute route false s = (t, ⟨r, w0, w1⟩)) :
    cancelRequest n route s = complete n r w0 w1 t := by
  unfold cancelRequest; rw [h]

theorem cancelRoute_inactive (h : route ≤ 511) (hs : s.ilk.stack = []) (hr : entryOf s route = none) :
    cancelRoute route false s = (s, ⟨.routeNotActive, 0, 0⟩) := by
  rw [cancelRoute_unstacked h hs, hr]

/-- A route that stays as it is (R80). -/
theorem cancelRoute_stays (h : route ≤ 511) (hs : s.ilk.stack = []) (hr : entryOf s route = some (e, a))
    (hst : a.state = .approachLocked ∨ a.state = .cancelling) :
    cancelRoute route false s = (s, ⟨.ok, a.state.code, e⟩) := by
  rw [cancelRoute_unstacked h hs, hr]
  dsimp only
  obtain hst | hst := hst <;> rw [hst]

theorem cancelRoute_running (h : route ≤ 511) (hs : s.ilk.stack = []) (hr : entryOf s route = some (e, a))
    (hst : a.state = .running) : cancelRoute route false s = (s, ⟨.routeRunning, 0, 0⟩) := by
  rw [cancelRoute_unstacked h hs, hr]
  dsimp only
  rw [hst]

theorem cancelRoute_set (h : route ≤ 511) (hs : s.ilk.stack = []) (hr : entryOf s route = some (e, a))
    (hst : a.state = .set ∨ a.state = .held) : cancelRoute route false s = (cancelSet e a s, ⟨.ok, a.state.code, e⟩) := by
  rw [cancelRoute_unstacked h hs, hr]
  dsimp only
  obtain hst | hst := hst <;> rw [hst]

theorem cancelRoute_setting (h : route ≤ 511) (hs : s.ilk.stack = []) (hr : entryOf s route = some (e, a))
    (hst : a.state = .setting) : cancelRoute route false s = (cancelSetting e a s, ⟨.ok, 1, e⟩) := by
  rw [cancelRoute_unstacked h hs, hr]
  dsimp only
  rw [hst]
  rfl

theorem cancelRoute_stacked {x : StackEntry} (h : route ≤ 511) (hs : s.ilk.stack = [x]) (hx : x.route = route) :
    cancelRoute route false s = (answerStacked x ⟨.cancelled, 0, 0⟩ (leaveStack route s), ⟨.ok, 7, 0⟩) := by
  have hfind := find_stack_one hs
  rw [hx] at hfind
  unfold cancelRoute
  rw [if_neg (by omega), hfind]
  rfl

end Branches

/-! ### A SET or HELD route cancelled (R81) -/

section Set
variable {s : State} {e : Nat} {a : Active} {r : RouteRec}

theorem giveUp_releases (why : Ending) (ha : Tbl.find s.ilk.active e = some a) (ho : a.orders = []) :
    giveUp e why s = releaseWhole e why s := by
  unfold giveUp; rw [ha]; exact if_pos ho

theorem cancelSet_releases (ha : Tbl.find s.ilk.active e = some a) (hr : Tbl.find s.ilk.routes a.route = some r) (ho : a.orders = [])
    (h : (∀ n ∈ r.approach, secState s n = .clear) ∨ r.approachTime = 0) : cancelSet e a s = releaseWhole e .cancelled s := by
  unfold cancelSet
  rw [hr]
  dsimp only
  split
  · exact giveUp_releases .cancelled ha ho
  · next n hn =>
    obtain h | h := h
    · have hmem := List.mem_of_find?_eq_some hn
      have hocc := List.find?_some hn
      unfold secClear at hocc
      rw [h n hmem] at hocc
      exact absurd hocc (by decide)
    · exact (if_pos h).trans (giveUp_releases .cancelled ha ho)

/-- The entry of a route that is APPROACH_LOCKED (R81). -/
def locked (r : RouteRec) (a : Active) : Active := { a with state := .approachLocked, timer := some (1000 * r.approachTime) }

theorem body_cancelSet_locks {n : Nat} (hr : Tbl.find s.ilk.routes a.route = some r) (hn : n ∈ r.approach) (hc : secState s n ≠ .clear)
    (ht : r.approachTime ≠ 0) : body (cancelSet e a s) = body (wantAspects (putActive e (locked r a) s)) := by
  have hsome : ∃ m, r.approach.find? (fun n => !secClear s n) = some m := by
    cases hf : r.approach.find? (fun n => !secClear s n) with
    | some m => exact ⟨m, rfl⟩
    | none =>
      have := List.find?_eq_none.1 hf n hn
      exact absurd (by unfold secClear at this; simpa using this) hc
  obtain ⟨m, hm⟩ := hsome
  unfold cancelSet
  rw [hr]
  dsimp only
  rw [hm]
  dsimp only
  rw [if_neg ht]
  exact body_update wantAspects (fun _ => rfl) ((body_report _ _ _ _ _).trans (body_mirrorActive _ _))

end Set

/-! ### A block that changes routes and then answers -/

/-- A block that has changed the interlocking's own tables, from a machine that is b's inside, before it answers its own slot. -/
theorem routes_next {s b z v : State} {q : Request} {r : Result} {w0 w1 : Nat} {c : Instr} {f : Nat → State → State}
    (he : exec c s = .next (requestCommand .running f q s)) (h : Ready .running s)
    (hf : f s.exch.takePos (taken q s) = complete s.exch.takePos r w0 w1 v) (ho : Own (taken q s) v) (halone : RoutesAlone z v)
    (hz : inside z = inside (b.inHand q.tag).served) (htake : b.exch.takePos = s.exch.takePos)
    (hmark : Tbl.find b.exch.inHand s.exch.takePos = none) (hquiet : quietEnd v = true) :
    ∃ t, exec c s = .next t ∧ SlotDone s.exch.takePos q.tag r w0 w1 t ∧ inside t = inside (withRoutesOf v b).served ∧
      MemoryKept (some s.exch.takePos) s t ∧ Own v t := by
  have hin : inside v = inside ((withRoutesOf v b).inHand q.tag).served :=
    (inside_of_routesAlone halone).trans (congrArg (withRoutesOf v) hz)
  exact answered_next (u := withRoutesOf v b) he h rfl (by decide) hf ho hin htake hmark hquiet

theorem releasedWhole_of_inside {e r : Nat} {s b v t : State} (h : ReleasedWhole e r s v)
    (hin : inside t = inside (withRoutesOf v b).served) : ReleasedWhole e r s t := by
  have hilk : t.ilk = (withRoutesOf v b).served.ilk := OrderEnds.read_of_inside (fun u => u.ilk) (fun _ => rfl) hin
  exact releasedWhole_of_ilk h (by rw [hilk]; rfl) (by rw [hilk]; rfl) (by rw [hilk]; rfl)

/-- The tables of a route as the taking of the slot leaves them. -/
theorem releasable_taken {s : State} {e : Nat} {a : Active} (h : EntryOf e a s) (q : Request) : Releasable e a (taken q s) := by
  have hilk : (taken q s).ilk = s.ilk := read_taken (fun u => u.ilk) q s fun _ => rfl
  refine ⟨?_, ?_, ?_, ?_, h.noShow⟩ <;> rw [hilk]
  exacts [h.active, h.locks, h.holders, h.entry]

theorem releasedWhole_taken {s v : State} {e r : Nat} {q : Request} (h : ReleasedWhole e r (taken q s) v) : ReleasedWhole e r s v := by
  have hilk : (taken q s).ilk = s.ilk := read_taken (fun u => u.ilk) q s fun _ => rfl
  refine ⟨h.entry, fun k hk => (h.others k hk).trans (by rw [hilk]), fun n => (h.locks n).trans ?_, fun p => (h.holders p).trans ?_⟩
  · unfold lockOf; rw [hilk]
  · unfold holdersOf; rw [hilk]

section Unstacked
variable {s : State} {tag : HostTag} {route : Word}

/-- The request as its slot holds it. -/
abbrev cancelRecord (tag : HostTag) (route : Word) : Request := ⟨16, tag, route, 0#32, 0#32⟩

theorem ilk_taken (q : Request) (s : State) : (taken q s).ilk = s.ilk := read_taken (fun u => u.ilk) q s fun _ => rfl

theorem entryOf_taken (q : Request) (s : State) (r : Nat) : entryOf (taken q s) r = entryOf s r := by
  unfold entryOf; rw [ilk_taken]

/-- CANCEL_ROUTE that changes nothing. -/
theorem replies_cancel_same (h : Ready .running s) (hq : AtRest s) {r : Result} {w0 w1 : Nat}
    (hc : cancelRequest s.exch.takePos route.toNat (taken (cancelRecord tag route) s)
      = complete s.exch.takePos r w0 w1 (taken (cancelRecord tag route) s)) :
    Replies (.cancelRoute tag route) s s tag r w0 w1 :=
  replies_same (q := cancelRecord tag route) (f := fun n => cancelRequest n route.toNat) rfl h rfl (by decide) hc hq

/-- A SET or HELD route with no order in hand, its approach CLEAR or its approach time 0, is released whole. -/
theorem cancel_released {e : Nat} {a : Active} {r : RouteRec} (h : Ready .running s) (hq : AtRest s) (hroute : route.toNat ≤ 511)
    (he : EntryOf e a s) (ha : a.route = route.toNat) (hr : Tbl.find s.ilk.routes a.route = some r)
    (hst : a.state = .set ∨ a.state = .held) (ho : a.orders = [])
    (hc : (∀ n ∈ r.approach, secState s n = .clear) ∨ r.approachTime = 0) :
    ∃ t, exec (.cancelRoute tag route) s = .next t ∧ SlotDone s.exch.takePos tag .ok a.state.code e t ∧
      ReleasedWhole e a.route s t ∧ t.occ = s.occ ∧ t.tags = s.tags ∧ t.tt = s.tt ∧ MemoryKept (some s.exch.takePos) s t := by
  have hstack : (taken (cancelRecord tag route) s).ilk.stack = [] := by rw [ilk_taken]; exact hq.stack
  have hsec (n : Nat) : secState (taken (cancelRecord tag route) s) n = secState s n :=
    read_taken (fun u => secState u n) _ s fun _ => rfl
  have hset : cancelSet e a (taken (cancelRecord tag route) s) = releaseWhole e .cancelled (taken (cancelRecord tag route) s) :=
    cancelSet_releases (by rw [ilk_taken]; exact he.entry) (by rw [ilk_taken]; exact hr) ho
      (hc.imp_left fun hall n hn => (hsec n).trans (hall n hn))
  have hblock := cancelRoute_set hroute hstack ((entryOf_taken _ s _).trans (ha ▸ he.first)) hst
  rw [hset] at hblock
  obtain ⟨halone, hwhole⟩ := releaseWhole_released .cancelled (releasable_taken he (cancelRecord tag route))
  have hown := own_releaseWhole e .cancelled (taken (cancelRecord tag route) s) (own_refl _)
  generalize releaseWhole e .cancelled (taken (cancelRecord tag route) s) = v at hblock halone hwhole hown
  have hread {α : Type} (g : State → α) (h1 : ∀ u, g (sansRoutes u) = g u)
      (h2 : ∀ m, g (((s.inHand tag).served).withMem m) = g s) : g v = g s := (halone.read g h1).trans (read_taken g _ s h2)
  have hquiet : quietEnd v = true := by
    refine quietEnd_of_empty v ?_ ((hread (fun u => u.vis.queue) (fun _ => rfl) fun _ => rfl).trans hq.shows)
      ((hread (fun u => u.pts.queue) (fun _ => rfl) fun _ => rfl).trans hq.orders)
      ((hread (fun u => u.ilk.stack) (fun _ => rfl) fun _ => rfl).trans hq.stack)
    rw [halone.step, work_taken, hq.work]
    rfl
  obtain ⟨t, ht, hdone, hin, hkept, -⟩ := routes_next (c := .cancelRoute tag route) (q := cancelRecord tag route) (b := s)
    (f := fun n => cancelRequest n route.toNat) rfl h (cancelRequest_answers hblock) hown halone (inside_taken _ s) rfl h.mark hquiet
  have hfrom {α : Type} (g : State → α) (hg : ∀ u, g u = g (inside u)) := OrderEnds.read_of_inside g hg hin
  exact ⟨t, ht, hdone, releasedWhole_of_inside (releasedWhole_taken hwhole) hin, hfrom (fun u => u.occ) fun _ => rfl,
    hfrom (fun u => u.tags) fun _ => rfl, hfrom (fun u => u.tt) fun _ => rfl, hkept⟩

/-- A SET or HELD route with its approach taken is APPROACH_LOCKED. -/
theorem cancel_locks {e n : Nat} {a : Active} {r : RouteRec} (h : Ready .running s) (hq : AtRest s) (hroute : route.toNat ≤ 511)
    (he : EntryOf e a s) (ha : a.route = route.toNat) (hr : Tbl.find s.ilk.routes a.route = some r)
    (hst : a.state = .set ∨ a.state = .held) (hn : n ∈ r.approach) (hc : secState s n ≠ .clear) (ht : r.approachTime ≠ 0) :
    Replies (.cancelRoute tag route) s (putActive e (locked r a) s) tag .ok a.state.code e := by
  have hstack : (taken (cancelRecord tag route) s).ilk.stack = [] := by rw [ilk_taken]; exact hq.stack
  have hsec : secState (taken (cancelRecord tag route) s) n = secState s n := read_taken (fun u => secState u n) _ s fun _ => rfl
  have hblock := cancelRoute_set hroute hstack ((entryOf_taken (cancelRecord tag route) s _).trans (ha ▸ he.first)) hst
  have hb := body_cancelSet_locks (s := taken (cancelRecord tag route) s) (e := e) (by rw [ilk_taken]; exact hr) hn
    (by rw [hsec]; exact hc) ht
  have hown := own_cancelSet e a (taken (cancelRecord tag route) s) (own_refl _)
  refine replies_update (q := cancelRecord tag route) (f := fun n => cancelRequest n route.toNat) (putActive e (locked r a)) rfl h rfl
    (by decide) (cancelRequest_answers hblock) hown (w := { (taken (cancelRecord tag route) s).work with aspects := true }) hb ?_
    (fun _ => rfl) ⟨rfl, rfl⟩ ⟨hq.shows, hq.orders, hq.stack⟩
  change (taken (cancelRecord tag route) s).work.step = none
  rw [work_taken, hq.work]
  rfl

/-- A stacked request leaves the stack, and its slot is answered (R59). -/
theorem cancel_stacked {n : Nat} {x : StackEntry} {other : HostTag} (h : Ready .running s) (hw : s.work = Work.none)
    (hv : s.vis.queue = []) (hstack : s.ilk.stack = [x]) (hx : x.route = route.toNat) (hroute : route.toNat ≤ 511)
    (hsrc : x.source = .slot n) (hn : n < Config.numSlots) (hne : n ≠ s.exch.takePos) (hsort : Tbl.sorted s.exch.inHand = true)
    (hmark : Tbl.find s.exch.inHand n = some other) :
    ∃ t, exec (.cancelRoute tag route) s = .next t ∧ SlotDone s.exch.takePos tag .ok 7 0 t ∧ SlotDone n other .cancelled 0 0 t ∧
      MemoryKept (some s.exch.takePos) s t ∧ inside t = inside (unmarked n (withStack [] s)).served := by
  have hstack' : (taken (cancelRecord tag route) s).ilk.stack = [x] := by rw [ilk_taken]; exact hstack
  have hblock := cancelRoute_stacked hroute hstack' hx
  have hsort' : Tbl.sorted (taken (cancelRecord tag route) s).exch.inHand = true := by
    rw [taken_mark]; exact Tbl.sorted_insert _ _ _ hsort
  have hmark' : Tbl.find (taken (cancelRecord tag route) s).exch.inHand n = some other := by
    rw [taken_mark, Tbl.find_insert_other _ _ _ _ hne]; exact hmark
  obtain ⟨hb, hdone⟩ := leave_answered ⟨.cancelled, 0, 0⟩ hstack' hsrc hn (mem_taken _ s h.sound.mem) hsort' hmark'
  have hown : Own (taken (cancelRecord tag route) s)
      (answerStacked x ⟨.cancelled, 0, 0⟩ (leaveStack x.route (taken (cancelRecord tag route) s))) :=
    own_answerStacked _ _ _ (own_leaveStack _ _ (own_refl _))
  rw [← hx] at hblock
  generalize answerStacked x ⟨.cancelled, 0, 0⟩ (leaveStack x.route (taken (cancelRecord tag route) s)) = v at hblock hb hdone hown
  have hread {α : Type} (g : State → α) (hg : ∀ u, g u = g (body u)) : g v = _ := read_of_body g hg hb
  have hquiet : quietEnd v = true := by
    refine quietEnd_of_none v ?_ ?_
    · exact (hread (fun u => u.work) fun _ => rfl).trans ((work_taken _ s).trans hw)
    · exact (hread (fun u => u.vis.queue) fun _ => rfl).trans ((read_taken (fun u => u.vis.queue) _ s fun _ => rfl).trans hv)
  have hin : inside v = inside ((unmarked n (withStack [] s)).inHand tag).served := by
    have h1 : inside v = inside (unmarked n (withStack [] (taken (cancelRecord tag route) s))) := inside_of_body hb
    rw [h1, taken_shape]
    have g := congrArg (fun m : Tbl HostTag => inside { ((withStack [] s).inHand tag).served with
      exch := { ((withStack [] s).inHand tag).served.exch with inHand := m } }) (erase_insert_other tag hsort hne)
    exact g
  have hfind : Tbl.find (Tbl.erase s.exch.inHand n) s.exch.takePos = none :=
    (Tbl.find_erase_other _ _ _ hne.symm).trans h.mark
  rw [hx] at hblock
  obtain ⟨t, ht, hdone', hin', hkept, hot⟩ := answered_next (c := .cancelRoute tag route) (q := cancelRecord tag route)
    (u := unmarked n (withStack [] s)) (al := .running) (f := fun n => cancelRequest n route.toNat) rfl h rfl (by decide)
    (cancelRequest_answers hblock) hown hin rfl hfind hquiet
  exact ⟨t, ht, hdone', hdone.own hn hot, hkept, hin'⟩

end Unstacked

/-! ### A SETTING route cancelled (R83) -/

/-- A queued order withdrawn: the lists empty, and the entry with no order. -/
structure Withdrawn (e : Nat) (a : Active) (s w : State) : Prop where
  eq : withdraw e s = w
  alone : ∃ b : Bool, RoutesAlone { setOrders [] [] s with work := { s.work with pass := b } } w
  active : w.ilk.active = Tbl.insert s.ilk.active e { a with orders := [] }
  locks : w.ilk.locks = s.ilk.locks
  holders : w.ilk.holders = s.ilk.holders

theorem setOrders_same {s : State} (hq : s.pts.queue = []) (ho : s.pts.overflow = []) : setOrders [] [] s = s := by
  have h : setOrders s.pts.queue s.pts.overflow s = s := rfl
  rwa [hq, ho] at h

theorem withdrawn_empty {s : State} {e : Nat} {a : Active} (hq : s.pts.queue = []) (ho : s.pts.overflow = [])
    (hsort : Tbl.sorted s.ilk.active = true) (ha : Tbl.find s.ilk.active e = some a) (horders : a.orders = []) :
    Withdrawn e a s s := by
  have hsame : ({ a with orders := [] } : Active) = a := by rw [← horders]
  refine ⟨withdraw_empty hq ho hsort ha, ⟨s.work.pass, ?_⟩, by rw [hsame, insert_of_find hsort ha], rfl, rfl⟩
  rw [setOrders_same hq ho]
  exact RoutesAlone.refl s

theorem withdrawn_queued {s : State} {e : Nat} {a : Active} {o : Order} (hq : s.pts.queue = [o]) (ho : s.pts.overflow = [])
    (ha : Tbl.find s.ilk.active e = some a) (horigin : o.origin = .route e) (hphase : o.phase = .queued) (horders : a.orders = [o.point]) :
    ∃ w, Withdrawn e a s w := by
  have hof : isQueuedOf e o = true := by unfold isQueuedOf; rw [hphase, horigin]; simp
  have hgone : queuedPoints s e = [o.point] := by
    unfold queuedPoints
    rw [hq, ho, List.append_nil, List.filter_cons_of_pos hof]
    rfl
  generalize hu : ({ s with work := { s.work with pass := s.work.pass || [o.point].any (isSlow s) } } : State) = u
  have hset : setOrders (s.pts.queue.filter fun o => !isQueuedOf e o) (s.pts.overflow.filter fun o => !isQueuedOf e o)
      { s with work := { s.work with pass := s.work.pass || [o.point].any (isSlow s) } } = setOrders [] [] u := by
    rw [hu, hq, ho, List.filter_cons_of_neg (by rw [hof]; decide)]
    rfl
  have hfill : fillQueue (setOrders [] [] u) = setOrders [] [] u := by
    have hover : (setOrders [] [] u).pts.overflow = [] := rfl
    unfold fillQueue; rw [hover]; simp
  have hilk : (touchPoint o.point (setOrders [] [] u)).ilk = s.ilk := (ilk_touchPoint o.point _).trans (by rw [← hu]; rfl)
  generalize hv : touchPoint o.point (setOrders [] [] u) = v at hilk
  have halone : RoutesAlone (setOrders [] [] u) v := by rw [← hv]; exact routesAlone_touchPoint o.point _
  have heq : withdraw e s = { v with ilk := { v.ilk with active := Tbl.insert s.ilk.active e { a with orders := [] } } } := by
    have hleft : Tbl.modify s.ilk.active e (fun a => { a with orders := a.orders.filter fun p => !([o.point] : List Nat).contains p })
        = Tbl.insert s.ilk.active e { a with orders := [] } := by
      rw [modify_of_find _ ha, horders]
      simp
    unfold withdraw
    dsimp only
    rw [hgone, hset, hfill]
    change ({ touchPoint o.point (setOrders [] [] u) with
      ilk := { (touchPoint o.point (setOrders [] [] u)).ilk with
        active := Tbl.modify (touchPoint o.point (setOrders [] [] u)).ilk.active e fun a =>
          { a with orders := a.orders.filter fun p => !([o.point] : List Nat).contains p } } } : State) = _
    rw [hv, hilk, hleft]
  refine ⟨_, heq, ⟨s.work.pass || [o.point].any (isSlow s), ?_⟩, rfl, by rw [hilk], by rw [hilk]⟩
  have hbase : ({ setOrders [] [] s with work := { s.work with pass := s.work.pass || [o.point].any (isSlow s) } } : State)
      = setOrders [] [] u := by rw [← hu]; rfl
  rw [hbase]
  exact halone.trans ⟨rfl, rfl, rfl, fun _ => rfl⟩

/-- Marks apart, the interlocking's own tables change alone. -/
theorem routesAlone_unmarked {s v : State} (h : RoutesAlone s v) (n : Nat) : RoutesAlone (unmarked n s) (unmarked n v) where
  rest := by
    have hmarks : v.exch.inHand = s.exch.inHand := h.read (fun u => u.exch.inHand) fun _ => rfl
    have g := congrArg (fun u : State => ({ u with exch := { u.exch with inHand := Tbl.erase u.exch.inHand n } } : State)) h.rest
    exact g
  step := h.step
  pass := h.pass
  lies := h.lies

section Setting
variable {s w : State} {e n : Nat} {a : Active} {other : HostTag}

/-- A SETTING route with no order left: its slot is answered and it is released whole. -/
theorem cancelSetting_released (h : Withdrawn e a s w) (hrel : Releasable e a s) (hslot : a.slot = some n) (hn : n < Config.numSlots)
    (hm : w.memOk) (hsort : Tbl.sorted w.exch.inHand = true) (hmark : Tbl.find w.exch.inHand n = some other) :
    SlotDone n other .cancelled 0 0 (cancelSetting e a s) ∧ ReleasedWhole e a.route s (cancelSetting e a s) ∧
      RoutesAlone (unmarked n w) (cancelSetting e a s) := by
  have hrel' : Releasable e { a with orders := [] } w := hrel.put hrel.noShow h.active h.locks h.holders
  obtain ⟨hdone, hb⟩ := answerSlot_done (a := { a with orders := [] }) .cancelled 0 0 hrel'.entry hslot hn hm hsort hmark
  generalize hu : answerSlot e .cancelled 0 0 w = u at hdone hb
  have hilk : u.ilk = { w.ilk with active := Tbl.insert w.ilk.active e { a with orders := [], slot := none } } :=
    (read_of_body (fun y => y.ilk) (fun _ => rfl) hb).trans rfl
  have hleft : Releasable e { a with orders := [], slot := none } u :=
    hrel'.put hrel.noShow (by rw [hilk]) (by rw [hilk]) (by rw [hilk])
  have heq : cancelSetting e a s = releaseWhole e .cancelled u := by
    unfold cancelSetting
    rw [h.eq]
    dsimp only
    rw [hu, tellShow_none _ _ hrel.noShow, hleft.entry]
    exact if_pos rfl
  obtain ⟨halone, hwhole⟩ := releaseWhole_released .cancelled hleft
  have hput : RoutesAlone (unmarked n w) { putActive e { a with orders := [], slot := none } w with
      exch := { w.exch with inHand := Tbl.erase w.exch.inHand n } } := ⟨rfl, rfl, rfl, fun _ => rfl⟩
  have hactive : u.ilk.active = Tbl.insert s.ilk.active e { a with orders := [], slot := none } := by
    rw [hilk, h.active, insert_insert]
  rw [heq]
  exact ⟨hdone.own hn (own_releaseWhole _ _ _ (own_refl _)),
    releasedWhole_put hwhole hactive (by rw [hilk]; exact h.locks) (by rw [hilk]; exact h.holders),
    hput.trans ((RoutesAlone.of_body hb).trans halone)⟩

/-- The entry of a route that waits in CANCELLING for its order. -/
def waitingFor (a : Active) : Active := { a with state := .cancelling, slot := none, ending := .cancelled }

/-- A SETTING route with an order in flight: its slot is answered and it waits in CANCELLING. -/
theorem body_cancelSetting_waits (hw : withdraw e s = s) (ha : Tbl.find s.ilk.active e = some a) (hshow : a.show_ = none)
    (horders : a.orders ≠ []) (hslot : a.slot = some n) (hn : n < Config.numSlots) (hm : s.memOk)
    (hsort : Tbl.sorted s.exch.inHand = true) (hmark : Tbl.find s.exch.inHand n = some other) :
    SlotDone n other .cancelled 0 0 (cancelSetting e a s) ∧ body (cancelSetting e a s)
      = body (unmarked n (wantAspects (putActive e (waitingFor a) s))) := by
  obtain ⟨hdone, hb⟩ := answerSlot_done .cancelled 0 0 ha hslot hn hm hsort hmark
  generalize hu : answerSlot e .cancelled 0 0 s = u at hdone hb
  have hentry : Tbl.find u.ilk.active e = some { a with slot := none } :=
    (read_of_body (fun y => Tbl.find y.ilk.active e) (fun _ => rfl) hb).trans (Tbl.find_insert_self _ _ _)
  have heq : cancelSetting e a s
      = wantAspects (setActive e (waitingFor a) u) := by
    unfold cancelSetting
    rw [hw]
    dsimp only
    rw [hu, tellShow_none _ _ hshow, hentry]
    exact if_neg horders
  rw [heq]
  constructor
  · have hown : Own u (setActive e (waitingFor a) u) := own_setActive _ _ _ (own_refl u)
    exact hdone.own hn (own_same hown rfl rfl)
  · have h1 : body (setActive e (waitingFor a) u) = body (putActive e (waitingFor a) u) := body_mirrorActive e _
    have h2 := body_update (putActive e (waitingFor a)) (fun _ => rfl) hb
    have h3 : putActive e (waitingFor a) { putActive e { a with slot := none } s with
        exch := { s.exch with inHand := Tbl.erase s.exch.inHand n } } = unmarked n (putActive e (waitingFor a) s) := by
      unfold putActive unmarked
      dsimp only
      rw [insert_insert]
    rw [h3] at h2
    exact (body_update wantAspects (fun _ => rfl) (h1.trans h2)).trans rfl

end Setting

section Requests
variable {s : State} {tag other : HostTag} {route : Word} {e n : Nat} {a : Active}

/-- What CANCEL_ROUTE of a SETTING route finds: its slot is in hand, and nothing else waits. -/
structure Cancelled (s : State) (route : Word) (e n : Nat) (a : Active) (other : HostTag) : Prop where
  ready : Ready .running s
  work : s.work = Work.none
  shows : s.vis.queue = []
  stack : s.ilk.stack = []
  overflow : s.pts.overflow = []
  number : route.toNat ≤ 511
  entry : EntryOf e a s
  route : a.route = route.toNat
  setting : a.state = .setting
  asked : a.slot = some n
  slot : n < Config.numSlots
  apart : n ≠ s.exch.takePos
  marks : Tbl.sorted s.exch.inHand = true
  mark : Tbl.find s.exch.inHand n = some other

theorem Cancelled.block (h : Cancelled s route e n a other) : cancelRequest s.exch.takePos route.toNat (taken (cancelRecord tag route) s)
    = complete s.exch.takePos .ok 1 e (cancelSetting e a (taken (cancelRecord tag route) s)) :=
  cancelRequest_answers (cancelRoute_setting h.number (by rw [ilk_taken]; exact h.stack)
    ((entryOf_taken _ s _).trans (h.route ▸ h.entry.first)) h.setting)

theorem Cancelled.marked (h : Cancelled s route e n a other) : Tbl.sorted (taken (cancelRecord tag route) s).exch.inHand = true ∧
    Tbl.find (taken (cancelRecord tag route) s).exch.inHand n = some other := by
  rw [taken_mark]
  exact ⟨Tbl.sorted_insert _ _ _ h.marks, (Tbl.find_insert_other _ _ _ _ h.apart).trans h.mark⟩

/-- Another slot's mark cleared while the request's own is set. -/
theorem inside_unmarked {x u : State} (h : inside x = inside (u.inHand tag).served) (hsort : Tbl.sorted u.exch.inHand = true)
    (hne : n ≠ u.exch.takePos) : inside (unmarked n x) = inside ((unmarked n u).inHand tag).served := by
  have h1 : inside (unmarked n x) = inside (unmarked n (u.inHand tag).served) := congrArg (unmarked n) h
  have h2 := congrArg (fun m : Tbl HostTag => inside { (u.inHand tag).served with
    exch := { (u.inHand tag).served.exch with inHand := m } }) (erase_insert_other tag hsort hne)
  exact h1.trans h2

/-- With its orders withdrawn, the route is released whole. -/
theorem cancel_setting_released (h : Cancelled s route e n a other) (o : Order)
    (hq : s.pts.queue = [] ∧ a.orders = [] ∨
      s.pts.queue = [o] ∧ o.origin = .route e ∧ o.phase = .queued ∧ a.orders = [o.point]) :
    ∃ t, exec (.cancelRoute tag route) s = .next t ∧ SlotDone s.exch.takePos tag .ok 1 e t ∧ SlotDone n other .cancelled 0 0 t ∧
      ReleasedWhole e a.route s t ∧ t.pts.queue = [] ∧ t.occ = s.occ ∧ t.tags = s.tags ∧ t.tt = s.tt ∧
      MemoryKept (some s.exch.takePos) s t := by
  have hrel := releasable_taken h.entry (cancelRecord tag route)
  have hread {α : Type} (g : State → α) (hg : ∀ m, g (((s.inHand tag).served).withMem m) = g s) :
      g (taken (cancelRecord tag route) s) = g s := read_taken g _ s hg
  have hover := (hread (fun u => u.pts.overflow) fun _ => rfl).trans h.overflow
  obtain ⟨w, hw⟩ : ∃ w, Withdrawn e a (taken (cancelRecord tag route) s) w := by
    obtain ⟨hqueue, horders⟩ | ⟨hqueue, horigin, hphase, horders⟩ := hq
    · exact ⟨_, withdrawn_empty ((hread (fun u => u.pts.queue) fun _ => rfl).trans hqueue) hover hrel.active hrel.entry horders⟩
    · exact withdrawn_queued ((hread (fun u => u.pts.queue) fun _ => rfl).trans hqueue) hover hrel.entry horigin hphase horders
  obtain ⟨b, hb⟩ := hw.alone
  obtain ⟨hsort, hmark⟩ := h.marked (tag := tag)
  have hmarks : w.exch.inHand = (taken (cancelRecord tag route) s).exch.inHand := hb.read (fun u => u.exch.inHand) fun _ => rfl
  have hmem : w.memOk := by
    rw [← hw.eq]; exact (own_withdraw e _ (own_refl _)).mem (mem_taken _ s h.ready.sound.mem)
  obtain ⟨hdone, hwhole, halone⟩ := cancelSetting_released hw hrel h.asked h.slot hmem (by rw [hmarks]; exact hsort)
    (by rw [hmarks]; exact hmark)
  have hown := own_cancelSetting e a (taken (cancelRecord tag route) s) (own_refl _)
  have hblock := h.block (tag := tag)
  generalize cancelSetting e a (taken (cancelRecord tag route) s) = v at hdone hwhole halone hown hblock
  have hbase := (routesAlone_unmarked hb n).trans halone
  have hz : inside (unmarked n { setOrders [] [] (taken (cancelRecord tag route) s) with
      work := { (taken (cancelRecord tag route) s).work with pass := b } })
        = inside ((unmarked n (setOrders [] [] s)).inHand tag).served := by
    have hset : inside { setOrders [] [] (taken (cancelRecord tag route) s) with
        work := { (taken (cancelRecord tag route) s).work with pass := b } } = inside ((setOrders [] [] s).inHand tag).served :=
      congrArg (setOrders [] []) (inside_taken (cancelRecord tag route) s)
    exact inside_unmarked (u := setOrders [] [] s) hset h.marks h.apart
  have hquiet : quietEnd v = true := by
    refine quietEnd_of_empty v ?_ ?_ (hbase.read (fun u => u.pts.queue) fun _ => rfl) ?_
    · rw [hbase.step]
      exact (congrArg Work.step (work_taken _ s)).trans (by rw [h.work]; rfl)
    · exact (hbase.read (fun u => u.vis.queue) fun _ => rfl).trans ((hread (fun u => u.vis.queue) fun _ => rfl).trans h.shows)
    · exact (hbase.read (fun u => u.ilk.stack) fun _ => rfl).trans ((hread (fun u => u.ilk.stack) fun _ => rfl).trans h.stack)
  obtain ⟨t, ht, hdone', hin, hkept, hot⟩ := routes_next (c := .cancelRoute tag route) (q := cancelRecord tag route)
    (b := unmarked n (setOrders [] [] s)) (f := fun n => cancelRequest n route.toNat) rfl h.ready hblock hown hbase hz rfl
    ((Tbl.find_erase_other _ _ _ h.apart.symm).trans h.ready.mark) hquiet
  have hfrom {α : Type} (g : State → α) (hg : ∀ u, g u = g (inside u)) := OrderEnds.read_of_inside g hg hin
  exact ⟨t, ht, hdone', hdone.own h.slot hot, releasedWhole_of_inside (releasedWhole_taken hwhole) hin,
    hfrom (fun u => u.pts.queue) fun _ => rfl, hfrom (fun u => u.occ) fun _ => rfl, hfrom (fun u => u.tags) fun _ => rfl,
    hfrom (fun u => u.tt) fun _ => rfl, hkept⟩

/-- With an order in flight, the route waits in CANCELLING. -/
theorem cancel_setting_waits (h : Cancelled s route e n a other) {o : Order} (hq : s.pts.queue = [o]) (hphase : o.phase ≠ .queued)
    (horders : a.orders = [o.point]) :
    ∃ t, exec (.cancelRoute tag route) s = .next t ∧ SlotDone s.exch.takePos tag .ok 1 e t ∧ SlotDone n other .cancelled 0 0 t ∧
      inside t = inside (unmarked n (putActive e (waitingFor a) s)).served ∧ MemoryKept (some s.exch.takePos) s t := by
  have hrel := releasable_taken h.entry (cancelRecord tag route)
  have hread {α : Type} (g : State → α) (hg : ∀ m, g (((s.inHand tag).served).withMem m) = g s) :
      g (taken (cancelRecord tag route) s) = g s := read_taken g _ s hg
  have hwithdraw : withdraw e (taken (cancelRecord tag route) s) = taken (cancelRecord tag route) s := by
    refine withdraw_none (fun x hx => ?_) ((hread (fun u => u.pts.overflow) fun _ => rfl).trans h.overflow) hrel.active hrel.entry
    rw [(hread (fun u => u.pts.queue) fun _ => rfl).trans hq] at hx
    rw [List.mem_singleton.1 hx]
    unfold isQueuedOf
    rw [Bool.and_eq_false_iff]
    exact .inl (by simpa using hphase)
  obtain ⟨hsort, hmark⟩ := h.marked (tag := tag)
  obtain ⟨hdone, hb⟩ := body_cancelSetting_waits hwithdraw hrel.entry hrel.noShow (by rw [horders]; simp) h.asked h.slot
    (mem_taken _ s h.ready.sound.mem) hsort hmark
  have hown := own_cancelSetting e a (taken (cancelRecord tag route) s) (own_refl _)
  have hblock := h.block (tag := tag)
  generalize cancelSetting e a (taken (cancelRecord tag route) s) = v at hdone hb hown hblock
  have hfrom {α : Type} (g : State → α) (hg : ∀ u, g u = g (body u)) : g v = _ := read_of_body g hg hb
  have hwork : v.work = { Work.none with aspects := true } := by
    refine (hfrom (fun u => u.work) fun _ => rfl).trans ?_
    change ({ (taken (cancelRecord tag route) s).work with aspects := true } : Work) = _
    rw [work_taken, h.work]
  have hquiet : quietEnd v = true := by
    have hshows : v.vis.queue = [] := (hfrom (fun u => u.vis.queue) fun _ => rfl).trans
      ((hread (fun u => u.vis.queue) fun _ => rfl).trans h.shows)
    unfold quietEnd noHead
    rw [hwork, hshows]
    rfl
  have hin : inside v = inside ((unmarked n (putActive e (waitingFor a) s)).inHand tag).served := by
    have h1 : inside v = inside (unmarked n (putActive e (waitingFor a) (taken (cancelRecord tag route) s))) :=
      (inside_of_body hb).trans rfl
    have h2 : inside (putActive e (waitingFor a) (taken (cancelRecord tag route) s))
        = inside ((putActive e (waitingFor a) s).inHand tag).served :=
      congrArg (putActive e (waitingFor a)) (inside_taken (cancelRecord tag route) s)
    exact h1.trans (inside_unmarked (u := putActive e (waitingFor a) s) h2 h.marks h.apart)
  obtain ⟨t, ht, hdone', hin', hkept, hot⟩ := answered_next (c := .cancelRoute tag route) (q := cancelRecord tag route)
    (u := unmarked n (putActive e (waitingFor a) s)) (al := .running) (f := fun n => cancelRequest n route.toNat) rfl h.ready rfl
    (by decide) hblock hown hin rfl ((Tbl.find_erase_other _ _ _ h.apart.symm).trans h.ready.mark) hquiet
  exact ⟨t, ht, hdone', hdone.own h.slot hot, hin', hkept⟩

end Requests

/-- Settles O34: by the state of the route, its orders, and the stack. -/
theorem cancelReleasesOrLocks : Obligations.CancelReleasesOrLocks := by
  refine ⟨fun s tag route h hq => ⟨fun hbad => ?_, fun hroute hnone => ?_, fun e a r hroute he ha hr =>
      ⟨fun hst => ?_, fun hst => ?_, fun hst => ⟨fun ho hc => ?_, fun hc ht => ?_⟩⟩⟩,
    fun s tag other route e n a h hw hv hs ho hroute he ha hst hslot hn hne hsort hmark => ?_,
    fun s tag other route n x h hw hv hs hx hroute hsrc hn hne hsort hmark => ?_⟩
  · exact replies_cancel_same h hq (cancelRequest_bad hbad)
  all_goals have hstack (q : Request) : (taken q s).ilk.stack = s.ilk.stack := by rw [ilk_taken]
  · exact replies_cancel_same h hq (cancelRequest_answers (cancelRoute_inactive hroute ((hstack _).trans hq.stack)
      ((entryOf_taken _ s _).trans hnone)))
  · exact replies_cancel_same h hq (cancelRequest_answers (cancelRoute_running hroute ((hstack _).trans hq.stack)
      ((entryOf_taken _ s _).trans (ha ▸ he.first)) hst))
  · exact replies_cancel_same h hq (cancelRequest_answers (cancelRoute_stays hroute ((hstack _).trans hq.stack)
      ((entryOf_taken _ s _).trans (ha ▸ he.first)) hst))
  · exact cancel_released h hq hroute he ha hr hst ho hc
  · obtain ⟨n, hn, hsec⟩ := hc
    exact cancel_locks h hq hroute he ha hr hst hn hsec ht
  · have hc : Cancelled s route e n a other := ⟨h, hw, hv, hs, ho, hroute, he, ha, hst, hslot, hn, hne, hsort, hmark⟩
    refine ⟨fun o hq => cancel_setting_released hc o hq, fun o hq horigin hphase horders => ?_⟩
    obtain ⟨t, ht, hdone, hother, hin, hkept⟩ := cancel_setting_waits (tag := tag) hc hq hphase horders
    have hfrom {α : Type} (g : State → α) (hg : ∀ u, g u = g (inside u)) := OrderEnds.read_of_inside g hg hin
    exact ⟨t, ht, hdone, hother, (hfrom (fun u => u.pts.queue) fun _ => rfl).trans hq, hfrom (fun u => u.ilk.locks) fun _ => rfl,
      hfrom (fun u => u.ilk.holders) fun _ => rfl,
      (hfrom (fun u => Tbl.find u.ilk.active e) fun _ => rfl).trans (Tbl.find_insert_self _ _ _), hkept⟩
  · exact cancel_stacked h hw hv hs hx hroute hsrc hn hne hsort hmark

end Sys2Proof.RouteCancelling
end

