-- ==== Sys2Proof/Proofs/RouteLife.lean ====
section
/-! The life of a route: its timers, its entry, its sequential release, and what a section makes of a SET or HELD one (O35). -/

namespace Sys2Proof.RouteLife

open Sys2Proof.Machine Sys2Proof.ReportLog Sys2Proof.TrackDetection Sys2Proof.TrackRequests Sys2Proof.RouteRelease
  Sys2Proof.PointLies Sys2Proof.LayoutStop Sys2Proof.RouteSetting Sys2Proof.SectionMoves Sys2Proof.RouteCancelling
  Sys2Proof.AspectsTaken

/-! ### The timers (R79, R82) -/

section Timers
variable {s : State} {e : Nat} {a : Active} {r : RouteRec}

theorem approachExpires_releases (ha : Tbl.find s.ilk.active e = some a) (hst : a.state = .approachLocked) (ht : a.timer ≠ none)
    (ho : a.orders = []) : approachExpires e s = releaseWhole e .approachExpired s := by
  unfold approachExpires
  rw [ha]
  dsimp only
  rw [if_pos (by simpa [hst] using Option.isSome_iff_ne_none.2 ht)]
  exact giveUp_releases .approachExpired ha ho

theorem approachExpires_stays (h : ∀ a, Tbl.find s.ilk.active e = some a → a.state ≠ .approachLocked ∨ a.timer = none) :
    approachExpires e s = s := by
  unfold approachExpires
  split
  · rfl
  · next a ha =>
    refine if_neg ?_
    obtain hst | ht := h a ha
    · simp [hst]
    · simp [ht]

theorem overlapExpires_stays (h : ∀ a, Tbl.find s.ilk.active e = some a → a.overlapState ≠ .timing ∨ a.timer = none) :
    overlapExpires e s = s := by
  unfold overlapExpires
  split
  · rfl
  · next a ha =>
    refine if_neg ?_
    obtain hst | ht := h a ha
    · simp [hst]
    · simp [ht]

/-- A command that leaves a machine at rest as it is. -/
theorem makes_same {c : Instr} (he : exec c s = .next (finish s s)) (hq : AtRest s) : Makes c s s :=
  makes_rest he hq (own_refl s) rfl rfl rfl

/-- The entry of a route whose overlap is RELEASED. -/
def overlapFreed (r : RouteRec) (a : Active) : Active :=
  { a with overlapPos := r.overlap.length, overlapState := .released, timer := none }

theorem endIfDone_goesOn (ha : Tbl.find s.ilk.active e = some a) (hr : Tbl.find s.ilk.routes a.route = some r)
    (hp : a.releasePos ≠ (elementSections r).length) : endIfDone e s = s := by
  unfold endIfDone
  rw [ha]
  dsimp only
  rw [hr]
  exact if_neg (by simp [hp])

/-- The machine with its entries and its locks set. -/
def withLocks (l : Tbl Active) (k : Tbl Nat) (s : State) : State := { s with ilk := { s.ilk with active := l, locks := k } }

/-- Inside, sections unlocked are the lock table's alone. -/
theorem body_unlocked (l : List Nat) (s : State) : ∃ k w, w.step = s.work.step ∧
    body (eachDo l (fun n => setLock n none) s) = body { withLocks s.ilk.active k s with work := w } := by
  induction l using List.reverseRecOn with
  | nil => exact ⟨s.ilk.locks, s.work, rfl, rfl⟩
  | append_singleton l n ih =>
    obtain ⟨k, w, hw, hb⟩ := ih
    have hlast : eachDo (l ++ [n]) (fun n => setLock n none) s = setLock n none (eachDo l (fun n => setLock n none) s) := by
      unfold eachDo; rw [List.foldl_append]; rfl
    refine ⟨Tbl.erase k n, { w with lamps := true, reexam := w.reexam || true }, hw, ?_⟩
    rw [hlast, body_setLock]
    exact (body_update (fun u => { u with
      ilk := { u.ilk with locks := Tbl.erase u.ilk.locks n }
      work := { u.work with lamps := true, reexam := u.work.reexam || true } }) (fun _ => rfl) hb).trans rfl

theorem releaseOverlap_eq (ha : Tbl.find s.ilk.active e = some a) (hr : Tbl.find s.ilk.routes a.route = some r)
    (hp : a.releasePos < (elementSections r).length) : releaseOverlap e s = wantReexam (setActive e (overlapFreed r a)
      (eachDo (r.overlap.filter fun n => lockOf s n == some a.route) (fun n => setLock n none) s)) := by
  obtain ⟨k, w, -, hb⟩ := body_unlocked (r.overlap.filter fun n => lockOf s n == some a.route) s
  unfold releaseOverlap
  rw [ha]
  dsimp only
  rw [hr]
  dsimp only
  generalize eachDo (r.overlap.filter fun n => lockOf s n == some a.route) (fun n => setLock n none) s = u at hb
  have hset : body (setActive e (overlapFreed r a) u) = body (putActive e (overlapFreed r a) u) := body_mirrorActive _ _
  refine endIfDone_goesOn (s := wantReexam (setActive e (overlapFreed r a) u)) (a := overlapFreed r a) (r := r) ?_ ?_ (ne_of_lt hp)
  · exact (read_of_body (fun x => Tbl.find x.ilk.active e) (fun _ => rfl) hset).trans (Tbl.find_insert_self _ _ _)
  · have hu : Tbl.find u.ilk.routes a.route = some r := (read_of_body (fun x => Tbl.find x.ilk.routes a.route) (fun _ => rfl) hb).trans hr
    exact (read_of_body (fun x => Tbl.find x.ilk.routes a.route) (fun _ => rfl) hset).trans hu

/-- The overlap of a route that goes on: its sections are unlocked together (R79). -/
theorem releaseOverlap_unlocks (h : EntryOf e a s) (hr : Tbl.find s.ilk.routes a.route = some r)
    (hp : a.releasePos < (elementSections r).length) : ∃ k w, w.step = s.work.step ∧
      body (releaseOverlap e s) = body { withLocks (Tbl.insert s.ilk.active e (overlapFreed r a)) k s with work := w } ∧
      ∀ n, Tbl.find k n = if n ∈ r.overlap ∧ lockOf s n = some a.route then none else lockOf s n := by
  obtain ⟨k, w, hw, hb⟩ := body_unlocked (r.overlap.filter fun n => lockOf s n == some a.route) s
  obtain ⟨-, hlocks⟩ := locks_released (r.overlap.filter fun n => lockOf s n == some a.route) h.locks
  rw [releaseOverlap_eq h.entry hr hp]
  generalize eachDo (r.overlap.filter fun n => lockOf s n == some a.route) (fun n => setLock n none) s = u at hb hlocks
  refine ⟨k, { w with reexam := true }, hw, ?_, fun n => ?_⟩
  · refine (body_update wantReexam (fun _ => rfl) (body_mirrorActive e (putActive e (overlapFreed r a) u))).trans ?_
    exact (body_update (fun x => wantReexam (putActive e (overlapFreed r a) x)) (fun _ => rfl) hb).trans rfl
  · have hk : Tbl.find k n = lockOf u n := (read_of_body (fun x => lockOf x n) (fun _ => rfl) hb).symm
    rw [hk, hlocks n]
    simp

theorem overlapExpires_releases (ha : Tbl.find s.ilk.active e = some a) (hst : a.overlapState = .timing) (ht : a.timer ≠ none) :
    overlapExpires e s = releaseOverlap e s := by
  unfold overlapExpires
  rw [ha]
  exact if_pos (by simpa [hst] using Option.isSome_iff_ne_none.2 ht)

end Timers

section TimerCommands
variable {s : State} {e : Fin 48} {a : Active} {r : RouteRec}

/-- APPROACH_TIMER_EXPIRY of a route with no order in hand. -/
theorem approach_releases (hq : AtRest s) (h : EntryOf e.val a s) (hst : a.state = .approachLocked) (ht : a.timer ≠ none)
    (ho : a.orders = []) : ∃ t, exec (.approachTimerExpiry e) s = .next t ∧ ReleasedWhole e.val a.route s t ∧ t.occ = s.occ ∧
      t.tags = s.tags ∧ t.tt = s.tt ∧ MemoryKept none s t := by
  have heq := approachExpires_releases h.entry hst ht ho
  have hexec : exec (.approachTimerExpiry e) s = .next (finish s (releaseWhole e.val .approachExpired s)) :=
    congrArg (fun v => Host.Outcome.next (finish s v)) heq
  obtain ⟨halone, hwhole⟩ := releaseWhole_released .approachExpired (.of_entryOf h)
  have hown := own_releaseWhole e.val .approachExpired s (own_refl s)
  generalize releaseWhole e.val .approachExpired s = v at hexec halone hwhole hown
  have hin := inside_finish s v (quietEnd_of_empty v (halone.step.trans (by rw [hq.work]; rfl))
    ((halone.read (fun u => u.vis.queue) fun _ => rfl).trans hq.shows) ((halone.read (fun u => u.pts.queue) fun _ => rfl).trans hq.orders)
    ((halone.read (fun u => u.ilk.stack) fun _ => rfl).trans hq.stack))
  have hfrom {α : Type} (g : State → α) (hg : ∀ u, g u = g (inside u)) : g (finish s v) = g v := OrderEnds.read_of_inside g hg hin
  have hilk : (finish s v).ilk = v.ilk := hfrom (fun u => u.ilk) fun _ => rfl
  exact ⟨_, hexec, releasedWhole_of_ilk hwhole (by rw [hilk]) (by rw [hilk]) (by rw [hilk]),
    (hfrom (fun u => u.occ) fun _ => rfl).trans (halone.read (fun u => u.occ) fun _ => rfl),
    (hfrom (fun u => u.tags) fun _ => rfl).trans (halone.read (fun u => u.tags) fun _ => rfl),
    (hfrom (fun u => u.tt) fun _ => rfl).trans (halone.read (fun u => u.tt) fun _ => rfl), memoryKept_of_own (own_finish s v hown)⟩

/-- OVERLAP_TIMER_EXPIRY of a route that goes on. -/
theorem overlap_unlocks (hq : AtRest s) (h : EntryOf e.val a s) (hr : Tbl.find s.ilk.routes a.route = some r)
    (hst : a.overlapState = .timing) (ht : a.timer ≠ none) (hp : a.releasePos < (elementSections r).length) :
    ∃ t, exec (.overlapTimerExpiry e) s = .next t ∧ Tbl.find t.ilk.active e.val = some (overlapFreed r a) ∧
      (∀ n, lockOf t n = if n ∈ r.overlap ∧ lockOf s n = some a.route then none else lockOf s n) ∧
      inside t = inside { s with ilk := { s.ilk with active := t.ilk.active, locks := t.ilk.locks } } ∧ MemoryKept none s t := by
  obtain ⟨k, w, hw, hb, hlocks⟩ := releaseOverlap_unlocks h hr hp
  have hexec : exec (.overlapTimerExpiry e) s = .next (finish s (releaseOverlap e.val s)) :=
    congrArg (fun v => Host.Outcome.next (finish s v)) (overlapExpires_releases h.entry hst ht)
  have hown := own_releaseOverlap e.val s (own_refl s)
  generalize releaseOverlap e.val s = v at hexec hb hown
  obtain ⟨t, he, hin, hkept⟩ := makes_of_body hexec hown hb (hw.trans (by rw [hq.work]; rfl)) hq.shows hq.orders hq.stack
  have hilk : t.ilk = { s.ilk with active := Tbl.insert s.ilk.active e.val (overlapFreed r a), locks := k } :=
    OrderEnds.read_of_inside (fun u => u.ilk) (fun _ => rfl) hin
  refine ⟨t, he, ?_, fun n => ?_, ?_, hkept⟩
  · rw [hilk]; exact Tbl.find_insert_self _ _ _
  · unfold lockOf at hlocks ⊢; rw [hilk]; exact hlocks n
  · rw [hilk]; exact hin

theorem approach_same (hq : AtRest s) (h : ∀ a, Tbl.find s.ilk.active e.val = some a → a.state ≠ .approachLocked ∨ a.timer = none) :
    Makes (.approachTimerExpiry e) s s :=
  makes_same (congrArg (fun v => Host.Outcome.next (finish s v)) (approachExpires_stays h)) hq

theorem overlap_same (hq : AtRest s) (h : ∀ a, Tbl.find s.ilk.active e.val = some a → a.overlapState ≠ .timing ∨ a.timer = none) :
    Makes (.overlapTimerExpiry e) s s :=
  makes_same (congrArg (fun v => Host.Outcome.next (finish s v)) (overlapExpires_stays h)) hq

end TimerCommands

/-! ### A section moved, and the routes' part of it (R15) -/

/-- The machine as the routes find it: the section moved, and its tags settled. -/
def tagged (i : Nat) (x : Bool) (n c : Nat) (s : State) : State := (taggedChange n (detected (!x)) (moved i x n c s)).1

/-- The tag that the section took. -/
def tookTag (i : Nat) (x : Bool) (n c : Nat) (s : State) : Option Nat :=
  (taggedChange n (detected (!x)) (moved i x n c s)).2.bind Arrival.tag

section Tagged
variable {s : State} {i : Nat} {x : Bool} {n c : Nat}

/-- A reading of no output, outside the occupancy unit and the tags. -/
theorem read_tagged {α : Type} (g : State → α) (hb : ∀ u, g (sansTags u) = g u) (hg : ∀ y, g { s with occ := y } = g s) :
    g (tagged i x n c s) = g s :=
  (st_field g hb (sansTags_taggedChange n (detected (!x)) (moved i x n c s))).trans (read_moved g hg)

theorem ilk_tagged : (tagged i x n c s).ilk = s.ilk := read_tagged (fun u => u.ilk) (fun _ => rfl) fun _ => rfl

theorem occ_tagged : (tagged i x n c s).occ = (moved i x n c s).occ :=
  st_field (fun u => u.occ) (fun _ => rfl) (sansTags_taggedChange n (detected (!x)) (moved i x n c s))

theorem secState_tagged_self : secState (tagged i x n c s) n = detected x := secState_after occ_tagged

theorem secState_tagged_other {m : Nat} (h : m ≠ n) : secState (tagged i x n c s) m = secState s m := by
  refine .trans ?_ (secState_moved_other (i := i) (x := x) (c := c) h)
  unfold secState occOf
  rw [occ_tagged]

theorem detLie_tagged (p : Nat) : detLie (tagged i x n c s) p = detLie s p :=
  read_tagged (fun u => detLie u p) (fun _ => rfl) fun _ => rfl

theorem step_tagged (h : s.work = Work.none) : (tagged i x n c s).work.step = none := by
  refine (step_taggedChange n (detected (!x)) (moved i x n c s)).trans ?_
  change s.work.step = none
  rw [h]
  rfl

theorem mem_tagged (h : s.memOk) : (tagged i x n c s).memOk := by
  have hown : Own (moved i x n c s) (tagged i x n c s) :=
    own_tagSectionChange _ _ _ _ (own_work (own_report (own_mirrorSection _ _ (own_refl _)) _ _ _ _) _)
  exact hown.mem h

/-- A departure takes no tag. -/
theorem tookTag_clear : tookTag i false n c s = none := by
  unfold tookTag
  change ((taggedChange n .occupied (moved i false n c s)).2).bind Arrival.tag = none
  rw [taggedChange_clear]
  rfl

end Tagged

/-- What the routes must leave for the change to end with them: nothing waits, and nothing else acts on a section. -/
structure Ends (x : Bool) (v : State) : Prop where
  step : v.work.step = none
  shows : v.vis.queue = []
  orders : v.pts.queue = []
  stack : v.ilk.stack = []
  runner : v.vis.runner = none
  jog : v.tt.requester ≠ .jog
  response : x = true → v.asp.response = .report

/-- With no overrun response, the overrun test changes signals alone. -/
theorem calm_overrunTest {n : Nat} (a : Option Arrival) (l : List EntryNote) {v : State}
    (h : a ≠ none → v.asp.response = .report) : calm (overrunTest n a l v) = calm v := by
  unfold overrunTest
  split
  · rfl
  · next a =>
    split
    · rfl
    · next x more _ =>
      have hcalm : calm (eachDo (x :: more) (overrunOne n a l) v) = calm v := calm_eachDo _ _ _ fun y u => calm_overrunOne n a l y u
      have hresp : (eachDo (x :: more) (overrunOne n a l) v).asp.response = .report :=
        (read_of_calm (fun u => u.asp.response) (fun _ => rfl) hcalm).trans (h (Option.some_ne_none a))
      dsimp only
      rw [if_neg (by rw [hresp]; decide)]
      exact hcalm

/-- Only an arrival can be an overrun. -/
theorem arrival_of_some {i n c : Nat} {x : Bool} {s : State} (h : (taggedChange n (detected (!x)) (moved i x n c s)).2 ≠ none) :
    x = true := by
  cases x with
  | true => rfl
  | false =>
    refine absurd ?_ h
    exact congrArg Prod.snd (taggedChange_clear i n c s)

/-- A section changed by a sample: once the routes have acted, nothing inside follows. -/
theorem sample_ends {s v : State} {i : Fin 256} {x : Bool} {n c : Nat} {l : List EntryNote}
    (hc : detectorSampled i.val x s = sectionChanged n (detected (!x)) (moved i.val x n c s))
    (hv : routesSectionChange n (detected x) (tookTag i.val x n c s) (tagged i.val x n c s) = (v, l)) (h : Ends x v) :
    ∃ t, exec (.detectorSample i x) s = .next t ∧ inside t = inside v ∧ Own v t := by
  obtain ⟨hstep, hshows, horders, hstack, hrunner, hjog, hresp⟩ := h
  have hsec : secState (moved i.val x n c s) n = detected x := secState_moved_self
  have hcalm := calm_overrunTest (n := n) (taggedChange n (detected (!x)) (moved i.val x n c s)).2 l fun ha => hresp (arrival_of_some ha)
  have hchange : sectionChanged n (detected (!x)) (moved i.val x n c s)
      = overrunTest n (taggedChange n (detected (!x)) (moved i.val x n c s)).2 l v := by
    unfold tookTag tagged at hv
    rw [sectionChanged_eq, hsec]
    generalize taggedChange n (detected (!x)) (moved i.val x n c s) = y at hv hcalm
    dsimp only
    rw [hv]
    dsimp only
    rw [runVisitor_idle _ hstep]
    exact visitorSection_alone n _ _ ((read_of_calm (fun u => u.vis.runner) (fun _ => rfl) hcalm).trans hrunner)
      (by rw [read_of_calm (fun u => u.tt.requester) (fun _ => rfl) hcalm]; exact hjog)
  have hown := own_overrunTest n (taggedChange n (detected (!x)) (moved i.val x n c s)).2 l v (own_refl v)
  have hexec : exec (.detectorSample i x) s = .next (finish s (detectorSampled i.val x s)) := rfl
  rw [hc, hchange] at hexec
  generalize overrunTest n (taggedChange n (detected (!x)) (moved i.val x n c s)).2 l v = w at hexec hcalm hown
  have hread {α : Type} (g : State → α) (hg : ∀ u, g u = g (calm u)) : g w = g v := read_of_calm g hg hcalm
  have hquiet : quietEnd w = true := quietEnd_of_empty w ((hread (fun u => u.work.step) fun _ => rfl).trans hstep)
    ((hread (fun u => u.vis.queue) fun _ => rfl).trans hshows) ((hread (fun u => u.pts.queue) fun _ => rfl).trans horders)
    ((hread (fun u => u.ilk.stack) fun _ => rfl).trans hstack)
  refine ⟨_, hexec, (inside_finish s w hquiet).trans ?_, own_finish s w hown⟩
  have g := congrArg inside hcalm
  exact g

theorem Ends.of_alone {x : Bool} {u v : State} (h : Ends x u) (hv : RoutesAlone u v) : Ends x v where
  step := hv.step.trans h.step
  shows := (hv.read (fun u => u.vis.queue) fun _ => rfl).trans h.shows
  orders := (hv.read (fun u => u.pts.queue) fun _ => rfl).trans h.orders
  stack := (hv.read (fun u => u.ilk.stack) fun _ => rfl).trans h.stack
  runner := (hv.read (fun u => u.vis.runner) fun _ => rfl).trans h.runner
  jog := by rw [hv.read (fun u => u.tt.requester) fun _ => rfl]; exact h.jog
  response := fun hx => (hv.read (fun u => u.asp.response) fun _ => rfl).trans (h.response hx)

theorem Ends.unmarked {x : Bool} {u : State} {k : Nat} (h : Ends x u) : Ends x (unmarked k u) :=
  ⟨h.step, h.shows, h.orders, h.stack, h.runner, h.jog, h.response⟩

/-- With the tags settled, nothing but the routes may act. -/
theorem ends_tagged {s : State} {i : Fin 256} {x : Bool} {n c : Nat} (h : Changes i x n s)
    (hresp : x = true → s.asp.response = .report) : Ends x (tagged i.val x n c s) where
  step := step_tagged h.rest.work
  shows := (read_tagged (fun u => u.vis.queue) (fun _ => rfl) fun _ => rfl).trans h.rest.shows
  orders := (read_tagged (fun u => u.pts.queue) (fun _ => rfl) fun _ => rfl).trans h.rest.orders
  stack := (read_tagged (fun u => u.ilk.stack) (fun _ => rfl) fun _ => rfl).trans h.rest.stack
  runner := (read_tagged (fun u => u.vis.runner) (fun _ => rfl) fun _ => rfl).trans h.runner
  jog := by rw [read_tagged (fun u => u.tt.requester) (fun _ => rfl) fun _ => rfl]; exact h.jog
  response := fun hx => (read_tagged (fun u => u.asp.response) (fun _ => rfl) fun _ => rfl).trans (hresp hx)

/-! ### One route and a change of one of its sections -/

section OneRoute
variable {s : State} {n e : Nat} {a : Active} {r : RouteRec} {new : SectionState} {took : Option Nat}

theorem routesSectionChange_one (h : s.ilk.active = [(e, a)]) :
    routesSectionChange n new took s = routeSection n new took (s, []) e := by
  unfold routesSectionChange; rw [keys_one h]; rfl

/-- The note that the aspect unit is handed with an entry. -/
def noteOf (r : RouteRec) (a : Active) : EntryNote := { signal := r.entry, route := a.route, left := a.state }

theorem routeSection_enters (ha : Tbl.find s.ilk.active e = some a) (hr : Tbl.find s.ilk.routes a.route = some r)
    (hn : n ∈ sequence r) (hf : (elementSections r).head? = some n)
    (hst : a.state = .setting ∨ a.state = .set ∨ a.state = .held ∨ a.state = .approachLocked) :
    routeSection n .occupied took (s, []) e = (enterRoute e took s, [noteOf r a]) := by
  unfold routeSection
  dsimp only
  rw [ha]
  dsimp only
  rw [hr]
  dsimp only
  rw [if_neg (by simpa using hn), hf]
  unfold noteOf
  obtain hst | hst | hst | hst := hst <;> rw [hst] <;> simp

theorem routeSection_running (ha : Tbl.find s.ilk.active e = some a) (hr : Tbl.find s.ilk.routes a.route = some r)
    (hn : n ∈ sequence r) (hst : a.state = .running) :
    routeSection n new took (s, []) e = (runningSection e n r new took s, []) := by
  unfold routeSection
  dsimp only
  rw [ha]
  dsimp only
  rw [hr]
  dsimp only
  rw [if_neg (by simpa using hn), hst]

/-- Another section of a SET MAIN route than its first, OCCUPIED: it is HELD (R70). -/
theorem routeSection_holds (ha : Tbl.find s.ilk.active e = some a) (hr : Tbl.find s.ilk.routes a.route = some r)
    (hn : n ∈ sequence r) (hf : (elementSections r).head? ≠ some n) (hst : a.state = .set) (hcls : r.cls = .main) :
    routeSection n .occupied took (s, []) e = (holdRoute e .sec n s, []) := by
  unfold routeSection
  dsimp only
  rw [ha]
  dsimp only
  rw [hr]
  dsimp only
  rw [if_neg (by simpa using hn), hst]
  dsimp only
  rw [if_neg (by simp [hf]), if_neg (by unfold classAllows; rw [hcls]; exact Bool.false_ne_true)]

/-- A section of a HELD route that becomes CLEAR: it is tested (R71). -/
theorem routeSection_tests (ha : Tbl.find s.ilk.active e = some a) (hr : Tbl.find s.ilk.routes a.route = some r)
    (hn : n ∈ sequence r) (hst : a.state = .held) : routeSection n .clear took (s, []) e = (testProved e s, []) := by
  unfold routeSection
  dsimp only
  rw [ha]
  dsimp only
  rw [hr]
  dsimp only
  rw [if_neg (by simpa using hn), hst]
  rfl

/-- A section that is the route's no longer (R79). -/
theorem runningSection_gone (ha : Tbl.find s.ilk.active e = some a) (ho : a.overlapState = .released) (hn : n ∉ elementSections r) :
    runningSection e n r .occupied took s = s := by
  have hgone : overlapGone r a n = true := by unfold overlapGone; rw [ho]; simpa using hn
  unfold runningSection
  rw [ha]
  exact if_pos hgone

theorem runningSection_clear (ha : Tbl.find s.ilk.active e = some a) : runningSection e n r .clear took s = walk e s := by
  unfold runningSection
  rw [ha]
  rfl

end OneRoute

section SectionCommands
variable {s : State} {i : Fin 256} {n e : Nat} {a : Active} {r : RouteRec}

/-- The tables of the routes as a change of a section finds them. -/
theorem active_tagged {x : Bool} {c : Nat} (h : s.ilk.active = [(e, a)]) :
    (tagged i.val x n c s).ilk.active = [(e, a)] ∧ Tbl.find (tagged i.val x n c s).ilk.active e = some a := by
  rw [ilk_tagged, h]; simp [Tbl.find]

/-- A change of a section whose route changes its entry alone. -/
theorem sample_enters_table {x : Bool} {b : Active} {c : Nat} {v : State} {l : List EntryNote} (h : Changes i x n s)
    (hresp : s.asp.response = .report) (hc : detectorSampled i.val x s = sectionChanged n (detected (!x)) (moved i.val x n c s))
    (hv : routesSectionChange n (detected x) (tookTag i.val x n c s) (tagged i.val x n c s) = (v, l))
    (hb : body v = body (wantAspects (putActive e b (tagged i.val x n c s)))) :
    ∃ t, exec (.detectorSample i x) s = .next t ∧ Tbl.find t.ilk.active e = some b ∧
      t.ilk.locks = s.ilk.locks ∧ t.ilk.holders = s.ilk.holders := by
  have halone : RoutesAlone (tagged i.val x n c s) v :=
    RoutesAlone.trans (u := wantAspects (putActive e b (tagged i.val x n c s))) ⟨rfl, rfl, rfl, fun _ => rfl⟩ (.of_body hb)
  obtain ⟨t, he, hin, -⟩ := sample_ends hc hv ((ends_tagged h fun _ => hresp).of_alone halone)
  have hilk : t.ilk = { s.ilk with active := Tbl.insert s.ilk.active e b } := by
    have h1 : t.ilk = v.ilk := OrderEnds.read_of_inside (fun u => u.ilk) (fun _ => rfl) hin
    have h2 : v.ilk = { (tagged i.val x n c s).ilk with active := Tbl.insert (tagged i.val x n c s).ilk.active e b } :=
      read_of_body (fun u => u.ilk) (fun _ => rfl) hb
    rw [h1, h2, ilk_tagged]
  exact ⟨t, he, by rw [hilk]; exact Tbl.find_insert_self _ _ _, by rw [hilk], by rw [hilk]⟩

/-- An overlap section OCCUPIED after the overlap was RELEASED (R79). -/
theorem sample_past_overlap (h : Changes i true n s) (hresp : s.asp.response = .report) (ha : s.ilk.active = [(e, a)])
    (hr : Tbl.find s.ilk.routes a.route = some r) (hst : a.state = .running) (ho : a.overlapState = .released)
    (hn : n ∈ r.overlap) (hnot : n ∉ elementSections r) :
    ∃ t, exec (.detectorSample i true) s = .next t ∧ secState t n = .occupied ∧ t.ilk.active = [(e, a)] ∧
      t.ilk.locks = s.ilk.locks ∧ t.ilk.holders = s.ilk.holders := by
  obtain ⟨c, hc⟩ := detectorSampled_changes h
  obtain ⟨hone, hfind⟩ := active_tagged (i := i) (n := n) (x := true) (c := c) ha
  have hv : routesSectionChange n (detected true) (tookTag i.val true n c s) (tagged i.val true n c s)
      = (tagged i.val true n c s, []) := by
    rw [routesSectionChange_one hone, routeSection_running hfind (by rw [ilk_tagged]; exact hr) (List.mem_append_right _ hn) hst]
    exact congrArg (fun u => (u, _)) (runningSection_gone hfind ho hnot)
  obtain ⟨t, he, hin, -⟩ := sample_ends hc hv (ends_tagged h fun _ => hresp)
  have hilk : t.ilk = s.ilk := (OrderEnds.read_of_inside (fun u => u.ilk) (fun _ => rfl) hin).trans ilk_tagged
  have hocc : t.occ = (moved i.val true n c s).occ := (OrderEnds.read_of_inside (fun u => u.occ) (fun _ => rfl) hin).trans occ_tagged
  exact ⟨t, he, secState_after hocc, by rw [hilk]; exact ha, by rw [hilk], by rw [hilk]⟩

/-- Another section than the first of a SET MAIN route is OCCUPIED (R70). -/
theorem sample_holds {f : Nat} (h : Changes i true n s) (hresp : s.asp.response = .report) (ha : s.ilk.active = [(e, a)])
    (hr : Tbl.find s.ilk.routes a.route = some r) (hcls : r.cls = .main) (hn : n ∈ sequence r)
    (hf : (elementSections r).head? = some f) (hne : f ≠ n) (hst : a.state = .set) :
    ∃ t, exec (.detectorSample i true) s = .next t ∧ Tbl.find t.ilk.active e = some { a with state := .held } ∧
      t.ilk.locks = s.ilk.locks ∧ t.ilk.holders = s.ilk.holders := by
  obtain ⟨c, hc⟩ := detectorSampled_changes h
  obtain ⟨hone, hfind⟩ := active_tagged (i := i) (n := n) (x := true) (c := c) ha
  refine sample_enters_table h hresp hc ((routesSectionChange_one hone).trans (routeSection_holds hfind
    (by rw [ilk_tagged]; exact hr) hn (by rw [hf]; simpa using hne) hst hcls)) ?_
  exact body_holdRoute .sec n hfind hst

/-- The last section that kept a HELD MAIN route from being proved becomes CLEAR (R71). -/
theorem sample_sets (h : Changes i false n s) (hresp : s.asp.response = .report) (ha : s.ilk.active = [(e, a)])
    (hr : Tbl.find s.ilk.routes a.route = some r) (hn : n ∈ sequence r)
    (hslot : a.slot = none) (hshow : a.show_ = none) (hst : a.state = .held) (hcond : s.asp.cond = .running)
    (hp : ∀ y ∈ routePoints r, detLie s y.1 = y.2.det) (hs : ∀ j ∈ sequence r, j ≠ n → secState s j = .clear) :
    ∃ t, exec (.detectorSample i false) s = .next t ∧ Tbl.find t.ilk.active e = some { a with state := .set } ∧
      t.ilk.locks = s.ilk.locks ∧ t.ilk.holders = s.ilk.holders := by
  obtain ⟨c, hc⟩ := detectorSampled_changes h
  obtain ⟨hone, hfind⟩ := active_tagged (i := i) (n := n) (x := false) (c := c) ha
  have hr' : Tbl.find (tagged i.val false n c s).ilk.routes a.route = some r := by rw [ilk_tagged]; exact hr
  have hclear (j : Nat) (hj : j ∈ sequence r) : secState (tagged i.val false n c s) j = .clear := by
    by_cases hjn : j = n
    · rw [hjn]; exact secState_tagged_self
    · exact (secState_tagged_other hjn).trans (hs j hj hjn)
  have hproved : proved (tagged i.val false n c s) r = true :=
    proved_of (fun y hy => (detLie_tagged y.1).trans (hp y hy)) hclear
  refine sample_enters_table h hresp hc ((routesSectionChange_one hone).trans (routeSection_tests hfind hr' hn hst)) ?_
  rw [testProved_proved hfind hr' (.inr hst)
    ((read_tagged (fun u => u.asp.cond) (fun _ => rfl) fun _ => rfl).trans hcond) hproved]
  exact body_becomeSet a.state hfind hr' hslot hshow fun g hg =>
    hclear g (List.mem_append_left _ (List.mem_of_mem_head? hg))

end SectionCommands

/-! ### Sequential release that goes no further (R76) -/

section Walk
variable {s : State} {e : Nat} {a : Active} {r : RouteRec}

/-- Inside, a walk that ends where it begins changes nothing. -/
theorem body_walk_stops (ha : Tbl.find s.ilk.active e = some a) (hr : Tbl.find s.ilk.routes a.route = some r) {n i : Nat}
    {rest : List (Nat × Nat)} (hu : unreleased r a = (n, i) :: rest) (hstop : a.passed[i]? ≠ some true ∨ secState s n ≠ .clear)
    (hp : a.releasePos ≠ (elementSections r).length) : body (walk e s) = body s := by
  have hfrom : walkFrom e r (unreleased r a) s = s := by
    rw [hu]
    unfold walkFrom
    rw [ha]
    refine if_neg ?_
    unfold secClear
    obtain h | h := hstop
    · simp [h]
    · simp [h]
  have hmirror : body (mirrorActive e s) = body s := body_mirrorActive e s
  have hend : endIfDone e (mirrorActive e s) = mirrorActive e s :=
    endIfDone_goesOn ((read_of_body (fun u => Tbl.find u.ilk.active e) (fun _ => rfl) hmirror).trans ha)
      ((read_of_body (fun u => Tbl.find u.ilk.routes a.route) (fun _ => rfl) hmirror).trans hr) hp
  unfold walk
  rw [ha]
  dsimp only
  rw [hr]
  dsimp only
  rw [hfrom, hend]
  split
  · exact hmirror
  · rfl

/-- Nothing is released of a route while its release position is 0. -/
theorem unreleased_start {n : Nat} {rest : List Nat} (hp : a.releasePos = 0) (he : elementSections r = n :: rest) :
    unreleased r a = (n, 0) :: (rest ++ if a.overlapState = .released then [] else r.overlap).zipIdx 1 := by
  unfold unreleased Machine.sequence
  rw [hp, he]
  split
  · simp [List.zipIdx_cons]
  · simp [List.zipIdx_cons]

theorem startOverlapAtEntry_clear {b : Nat} (hb : berth r = some b) (hc : secState s b = .clear) : startOverlapAtEntry e r s = s := by
  unfold startOverlapAtEntry
  rw [hb]
  exact if_pos (by unfold secClear; rw [hc]; rfl)

end Walk

/-! ### A route entered (R69, R73) -/

/-- The entry of a route that a train has entered, its first element marked. -/
def trainEntry (r : RouteRec) (g : Option Nat) (a : Active) : Active := { a with
  state := .running, tag := g, timer := none, passed := true :: List.replicate ((sequence r).length - 1) false }

theorem markTo_first (k : Nat) : markTo 0 (List.replicate (k + 1) false) = true :: List.replicate k false := by
  have hrest : (List.replicate k false).mapIdx (fun j b => b || decide (j + 1 ≤ 0)) = List.replicate k false := by
    refine List.ext_getElem (by simp) fun j _ _ => ?_
    simp
  unfold markTo
  rw [List.replicate_succ, List.mapIdx_cons, hrest]
  rfl

section Entry
variable {s : State} {e n m : Nat} {rest : List Nat} {a : Active} {r : RouteRec} {g : Option Nat}

theorem markPassed_first (he : elementSections r = n :: rest) (hp : a.passed = List.replicate (sequence r).length false) :
    { markPassed r a 0 with state := .running, tag := g, timer := none } = trainEntry r g a := by
  have hlen : (sequence r).length = (rest ++ r.overlap).length + 1 := by unfold Machine.sequence; rw [he]; rfl
  unfold markPassed trainEntry
  rw [if_pos (by rw [he]; rfl), hp, hlen, markTo_first]
  rfl

/-- With the train in the first element and the rest CLEAR, no overlap timer starts and nothing is released. -/
theorem body_train_waits (ha : Tbl.find s.ilk.active e = some a) (hr : Tbl.find s.ilk.routes a.route = some r)
    (he : elementSections r = n :: m :: rest) (hp : a.releasePos = 0) (hn : secState s n ≠ .clear)
    (hc : ∀ j ∈ m :: rest, secState s j = .clear) :
    body (wantAspects (walk e (startOverlapAtEntry e r s))) = body (wantAspects s) := by
  have hlast : berth r = some ((m :: rest).getLast (List.cons_ne_nil _ _)) := by
    unfold berth; rw [he, List.getLast?_eq_some_getLast (by simp), List.getLast_cons]
  rw [startOverlapAtEntry_clear hlast (hc _ (List.getLast_mem _))]
  exact body_update wantAspects (fun _ => rfl)
    (body_walk_stops ha hr (unreleased_start hp he) (.inr hn) (by rw [hp, he]; simp))

theorem body_reported (s : State) (l : RouteState) : body (reportRunning e (trainEntry r g a) l (setActive e (trainEntry r g a) s))
    = body (putActive e (trainEntry r g a) s) :=
  (body_report _ _ _ _ _).trans (body_mirrorActive _ _)

/-- A route that no slot waits for is entered in its entry alone. -/
theorem body_enterRoute (ha : Tbl.find s.ilk.active e = some a) (hr : Tbl.find s.ilk.routes a.route = some r)
    (hst : a.state ≠ .setting) (he : elementSections r = n :: m :: rest) (hmarks : a.passed = List.replicate (sequence r).length false)
    (hp : a.releasePos = 0) (hn : secState s n ≠ .clear) (hc : ∀ j ∈ m :: rest, secState s j = .clear) :
    body (enterRoute e g s) = body (wantAspects (putActive e (trainEntry r g a) s)) := by
  have hreport := body_reported (e := e) (r := r) (g := g) (a := a) s a.state
  unfold enterRoute
  rw [ha]
  dsimp only
  rw [hr]
  dsimp only
  rw [if_neg hst, ha]
  dsimp only
  rw [markPassed_first he hmarks, if_neg hst]
  generalize reportRunning e (trainEntry r g a) a.state (setActive e (trainEntry r g a) s) = u at hreport
  have hfind : Tbl.find u.ilk.active e = some (trainEntry r g a) :=
    (read_of_body (fun x => Tbl.find x.ilk.active e) (fun _ => rfl) hreport).trans (Tbl.find_insert_self _ _ _)
  have hroute : Tbl.find u.ilk.routes a.route = some r :=
    (read_of_body (fun x => Tbl.find x.ilk.routes a.route) (fun _ => rfl) hreport).trans hr
  have hsec (j : Nat) : secState u j = secState s j :=
    (read_of_body (fun x => secState x j) (fun _ => rfl) hreport).trans rfl
  rw [body_train_waits (a := trainEntry r g a) hfind hroute he hp (by rw [hsec]; exact hn) fun j hj => (hsec j).trans (hc j hj)]
  exact body_update wantAspects (fun _ => rfl) hreport

/-- A SETTING route whose slot waits is entered too, and the slot is answered ROUTE_RUNNING (R69). -/
theorem enterRoute_answers {k : Nat} {tag : HostTag} (ha : Tbl.find s.ilk.active e = some a)
    (hr : Tbl.find s.ilk.routes a.route = some r) (hst : a.state = .setting) (hshow : a.show_ = none)
    (hq : s.pts.queue = []) (ho : s.pts.overflow = []) (hsort : Tbl.sorted s.ilk.active = true)
    (he : elementSections r = n :: m :: rest) (hmarks : a.passed = List.replicate (sequence r).length false)
    (hp : a.releasePos = 0) (hn : secState s n ≠ .clear) (hc : ∀ j ∈ m :: rest, secState s j = .clear)
    (hslot : a.slot = some k) (hk : k < 32) (hm : s.memOk) (hinHand : Tbl.sorted s.exch.inHand = true)
    (hmark : Tbl.find s.exch.inHand k = some tag) :
    SlotDone k tag .routeRunning e 0 (enterRoute e g s) ∧ body (enterRoute e g s)
      = body (wantAspects (putActive e { trainEntry r g a with slot := none } (unmarked k s))) := by
  have hreport := body_reported (e := e) (r := r) (g := g) (a := a) s a.state
  have hown : Own s (reportRunning e (trainEntry r g a) a.state (setActive e (trainEntry r g a) s)) :=
    own_reportRunning _ _ _ _ (own_setActive _ _ _ (own_refl s))
  have hwithdraw : withdraw e s = s := withdraw_empty hq ho hsort ha
  have heq : enterRoute e g s = wantAspects (walk e (startOverlapAtEntry e r (answerSlot e .routeRunning e 0
      (reportRunning e (trainEntry r g a) a.state (setActive e (trainEntry r g a) s))))) := by
    unfold enterRoute
    rw [ha]
    dsimp only
    rw [hr]
    dsimp only
    rw [if_pos hst, hwithdraw, ha]
    dsimp only
    rw [markPassed_first he hmarks, if_pos hst, tellShow_none _ _ hshow]
  rw [heq]
  generalize reportRunning e (trainEntry r g a) a.state (setActive e (trainEntry r g a) s) = u at hreport hown
  have hread {α : Type} (f : State → α) (hf : ∀ x, f x = f (body x)) : f u = f (putActive e (trainEntry r g a) s) :=
    read_of_body f hf hreport
  obtain ⟨hdone, hb⟩ := answerSlot_done .routeRunning e 0 (a := trainEntry r g a) (n := k) (tag := tag) (s := u)
    ((hread (fun x => Tbl.find x.ilk.active e) fun _ => rfl).trans (Tbl.find_insert_self _ _ _)) hslot hk (hown.mem hm)
    ((congrArg Tbl.sorted (hread (fun x => x.exch.inHand) fun _ => rfl)).trans hinHand)
    ((hread (fun x => Tbl.find x.exch.inHand k) fun _ => rfl).trans hmark)
  have hb' : body (answerSlot e .routeRunning e 0 u) = body (putActive e { trainEntry r g a with slot := none } (unmarked k s)) := by
    have h1 := body_update (fun x => putActive e { trainEntry r g a with slot := none } (unmarked k x)) (fun _ => rfl) hreport
    refine hb.trans (.trans h1 ?_)
    have h2 := congrArg (fun t : Tbl Active => body { unmarked k s with ilk := { (unmarked k s).ilk with active := t } })
      (insert_insert s.ilk.active e (trainEntry r g a) { trainEntry r g a with slot := none })
    exact h2
  generalize answerSlot e .routeRunning e 0 u = v at hdone hb'
  have hread' {α : Type} (f : State → α) (hf : ∀ x, f x = f (body x)) :
      f v = f (putActive e { trainEntry r g a with slot := none } (unmarked k s)) := read_of_body f hf hb'
  have hsec (j : Nat) : secState v j = secState s j := hread' (fun x => secState x j) fun _ => rfl
  have hwaits := body_train_waits (a := { trainEntry r g a with slot := none })
    ((hread' (fun x => Tbl.find x.ilk.active e) fun _ => rfl).trans (Tbl.find_insert_self _ _ _))
    ((hread' (fun x => Tbl.find x.ilk.routes a.route) fun _ => rfl).trans hr) he hp (by rw [hsec]; exact hn)
    fun j hj => (hsec j).trans (hc j hj)
  refine ⟨hdone.own hk ?_, hwaits.trans (body_update wantAspects (fun _ => rfl) hb')⟩
  exact own_wantAspects _ (own_walk _ _ (own_startOverlapAtEntry _ _ _ (own_refl v)))

end Entry

/-! ### The tag that an arrival takes (R27) -/

/-- The tag that an arrival names is the section's own, where it had none before. -/
theorem arrive_tag {n : Nat} {s : State} (h : tagOf s n = none) : (arrive n s).2.tag = tagOf (arrive n s).1 n := by
  have htake (k : Nat) (u : State) : tagOf (takeTag n k u) n = some k := (holds_takeTag n k u rfl).field
  have hreport (x : ReportKind) (y v1 v2 : Nat) (u : State) : tagOf (report x y v1 v2 u) n = tagOf u n :=
    read_of_body (fun u => tagOf u n) (fun _ => rfl) (body_report x y v1 v2 u)
  unfold arrive
  dsimp only
  split
  · exact (htake _ _).symm
  · split
    · unfold reclaimOrAllocate
      split
      · exact ((hreport _ _ _ _ _).trans (htake _ _)).symm
      · split
        · exact ((hreport _ _ _ _ _).trans (htake _ _)).symm
        · exact ((hreport _ _ _ _ _).trans h).symm
    · exact (htake _ _).symm
    · exact ((hreport _ _ _ _ _).trans h).symm

theorem tookTag_occupied {s : State} {i n c : Nat} (h : tagOf s n = none) :
    tookTag i true n c s = tagOf (tagged i true n c s) n := by
  have heq : taggedChange n (detected (!true)) (moved i true n c s)
      = ((arrive n (found i true n c s)).1, some (arrive n (found i true n c s)).2) := taggedChange_occupied i n c s
  unfold tookTag tagged
  rw [heq]
  exact arrive_tag ((tagOf_found true n).trans h)

section EntryCommands
variable {s : State} {i : Fin 256} {n m e : Nat} {rest : List Nat} {a : Active} {r : RouteRec}

/-- What a train finds in the machine that has moved its section: the rest of the route's elements CLEAR. -/
theorem elements_tagged {c : Nat} (he : elementSections r = n :: m :: rest) (hd : (sequence r).Nodup)
    (hs : ∀ j ∈ sequence r, secState s j = .clear) : ∀ j ∈ m :: rest, secState (tagged i.val true n c s) j = .clear := by
  intro j hj
  have hj' : j ∈ sequence r := List.mem_append_left _ (by rw [he]; exact List.mem_cons_of_mem _ hj)
  have hne : j ≠ n := by
    unfold Machine.sequence at hd
    rw [he, List.cons_append, List.nodup_cons] at hd
    rintro rfl
    exact hd.1 (List.mem_append_left _ hj)
  exact (secState_tagged_other hne).trans (hs j hj')

/-- The machine that a train has entered. -/
theorem inside_of_entered {t v w : State} {b : Active} (hin : inside t = inside v)
    (hb : body v = body (wantAspects (putActive e b w))) : inside t = inside (putActive e b w) :=
  hin.trans ((inside_of_body hb).trans rfl)

/-- What it reads. -/
theorem entry_read {c : Nat} {t w : State} {b : Option Nat → Active} (hw : w.occ = (tagged i.val true n c s).occ)
    (htags : w.tags = (tagged i.val true n c s).tags) (hilk : w.ilk = s.ilk)
    (hin : inside t = inside (putActive e (b (tagOf (tagged i.val true n c s) n)) w)) :
    secState t n = .occupied ∧ Tbl.find t.ilk.active e = some (b (tagOf t n)) ∧ t.ilk.locks = s.ilk.locks ∧
      t.ilk.holders = s.ilk.holders := by
  have hocc : t.occ = w.occ := (OrderEnds.read_of_inside (fun u => u.occ) (fun _ => rfl) hin).trans rfl
  have htag : t.tags = w.tags := (OrderEnds.read_of_inside (fun u => u.tags) (fun _ => rfl) hin).trans rfl
  have hroutes : t.ilk = { w.ilk with active := Tbl.insert w.ilk.active e (b (tagOf (tagged i.val true n c s) n)) } :=
    OrderEnds.read_of_inside (fun u => u.ilk) (fun _ => rfl) hin
  have htagOf : tagOf t n = tagOf (tagged i.val true n c s) n := by unfold tagOf; rw [htag, htags]
  refine ⟨secState_after (hocc.trans (hw.trans occ_tagged)), ?_, by rw [hroutes, hilk], by rw [hroutes, hilk]⟩
  rw [htagOf, hroutes]
  exact Tbl.find_insert_self _ _ _

/-- A train enters a route that no slot waits for (R73). -/
theorem sample_enters (h : Changes i true n s) (hresp : s.asp.response = .report) (ha : s.ilk.active = [(e, a)])
    (hr : Tbl.find s.ilk.routes a.route = some r) (he : elementSections r = n :: m :: rest) (hd : (sequence r).Nodup)
    (hs : ∀ j ∈ sequence r, secState s j = .clear) (ht : tagOf s n = none) (hp : a.releasePos = 0)
    (hmarks : a.passed = List.replicate (sequence r).length false)
    (hst : a.state = .set ∨ a.state = .held ∨ a.state = .approachLocked) :
    ∃ t, exec (.detectorSample i true) s = .next t ∧ secState t n = .occupied ∧
      Tbl.find t.ilk.active e = some (trainEntry r (tagOf t n) a) ∧ t.ilk.locks = s.ilk.locks ∧ t.ilk.holders = s.ilk.holders := by
  obtain ⟨c, hc⟩ := detectorSampled_changes h
  obtain ⟨hone, hfind⟩ := active_tagged (i := i) (n := n) (x := true) (c := c) ha
  have hr' : Tbl.find (tagged i.val true n c s).ilk.routes a.route = some r := by rw [ilk_tagged]; exact hr
  have hoccupied : secState (tagged i.val true n c s) n = .occupied := secState_tagged_self
  have hne : a.state ≠ .setting := by obtain hst | hst | hst := hst <;> rw [hst] <;> decide
  have hv := (routesSectionChange_one (n := n) (new := .occupied) (took := tookTag i.val true n c s) hone).trans
    (routeSection_enters hfind hr' (List.mem_append_left _ (by rw [he]; exact List.mem_cons_self)) (by rw [he]; rfl) (.inr hst))
  have hb := body_enterRoute (g := tookTag i.val true n c s) hfind hr' hne he hmarks hp
    (by rw [hoccupied]; decide) (elements_tagged he hd hs)
  have halone : RoutesAlone (tagged i.val true n c s) (enterRoute e (tookTag i.val true n c s) (tagged i.val true n c s)) :=
    RoutesAlone.trans (u := wantAspects (putActive e (trainEntry r (tookTag i.val true n c s) a) (tagged i.val true n c s)))
      ⟨rfl, rfl, rfl, fun _ => rfl⟩ (.of_body hb)
  obtain ⟨t, hexec, hin, -⟩ := sample_ends hc hv ((ends_tagged h fun _ => hresp).of_alone halone)
  rw [tookTag_occupied ht] at hb hin
  exact ⟨t, hexec, entry_read (b := fun g => trainEntry r g a) rfl rfl ilk_tagged (inside_of_entered hin hb)⟩

/-- A train enters a SETTING route: its slot is answered (R69). -/
theorem sample_enters_setting {k : Nat} {other : HostTag} (h : Changes i true n s) (hresp : s.asp.response = .report)
    (ha : s.ilk.active = [(e, a)]) (hr : Tbl.find s.ilk.routes a.route = some r) (he : elementSections r = n :: m :: rest)
    (hd : (sequence r).Nodup) (hs : ∀ j ∈ sequence r, secState s j = .clear) (ht : tagOf s n = none) (hp : a.releasePos = 0)
    (hmarks : a.passed = List.replicate (sequence r).length false) (hst : a.state = .setting) (hshow : a.show_ = none)
    (hsound : Sound s) (hslot : a.slot = some k) (hk : k < 32) (hsort : Tbl.sorted s.exch.inHand = true)
    (hmark : Tbl.find s.exch.inHand k = some other) :
    ∃ t, exec (.detectorSample i true) s = .next t ∧ secState t n = .occupied ∧
      Tbl.find t.ilk.active e = some { trainEntry r (tagOf t n) a with slot := none } ∧ SlotDone k other .routeRunning e 0 t := by
  obtain ⟨c, hc⟩ := detectorSampled_changes h
  obtain ⟨hone, hfind⟩ := active_tagged (i := i) (n := n) (x := true) (c := c) ha
  have hr' : Tbl.find (tagged i.val true n c s).ilk.routes a.route = some r := by rw [ilk_tagged]; exact hr
  have hoccupied : secState (tagged i.val true n c s) n = .occupied := secState_tagged_self
  have hv := (routesSectionChange_one (n := n) (new := .occupied) (took := tookTag i.val true n c s) hone).trans
    (routeSection_enters hfind hr' (List.mem_append_left _ (by rw [he]; exact List.mem_cons_self)) (by rw [he]; rfl) (.inl hst))
  have hread {α : Type} (g : State → α) (hb : ∀ u, g (sansTags u) = g u) (hg : ∀ y, g { s with occ := y } = g s) :
      g (tagged i.val true n c s) = g s := read_tagged g hb hg
  obtain ⟨hdone, hb⟩ := enterRoute_answers (g := tookTag i.val true n c s) (tag := other) hfind hr' hst hshow
    ((hread (fun u => u.pts.queue) (fun _ => rfl) fun _ => rfl).trans h.rest.orders)
    ((hread (fun u => u.pts.overflow) (fun _ => rfl) fun _ => rfl).trans h.rest.overflow) (by rw [hone]; rfl) he hmarks hp
    (by rw [hoccupied]; decide) (elements_tagged he hd hs) hslot hk (mem_tagged hsound.mem)
    ((congrArg Tbl.sorted (hread (fun u => u.exch.inHand) (fun _ => rfl) fun _ => rfl)).trans hsort)
    ((hread (fun u => Tbl.find u.exch.inHand k) (fun _ => rfl) fun _ => rfl).trans hmark)
  have halone : RoutesAlone (unmarked k (tagged i.val true n c s))
      (enterRoute e (tookTag i.val true n c s) (tagged i.val true n c s)) :=
    RoutesAlone.trans (u := wantAspects (putActive e { trainEntry r (tookTag i.val true n c s) a with slot := none }
      (unmarked k (tagged i.val true n c s)))) ⟨rfl, rfl, rfl, fun _ => rfl⟩ (.of_body hb)
  obtain ⟨t, hexec, hin, hown⟩ := sample_ends hc hv ((ends_tagged h fun _ => hresp).unmarked.of_alone halone)
  have hdone' := hdone.own hk hown
  rw [tookTag_occupied ht] at hb hin
  obtain ⟨hocc, hentry, -⟩ := entry_read (b := fun g => { trainEntry r g a with slot := none })
    (w := unmarked k (tagged i.val true n c s)) rfl rfl ilk_tagged (inside_of_entered hin hb)
  exact ⟨t, hexec, hocc, hentry, hdone'⟩

end EntryCommands

/-! ### The first element released (R75 to R77) -/

/-- The points that the first element takes with it: its own, and the flank points where it is the berth. -/
def freedPoints (r : RouteRec) (n : Nat) : List Nat :=
  pointsOfSection r.elements n ++ if (elementSections r).length = 1 then r.flank.map Prod.fst else []

theorem pointsAfter_sublist (r : RouteRec) (l : List Element) :
    (pointsAfter l).Sublist ((elementPoints { r with elements := l }).map Prod.fst) := by
  induction l with
  | nil => exact List.Sublist.slnil
  | cons x l ih =>
    cases x with
    | sec m => exact List.nil_sublist _
    | point p k => exact ih.cons_cons p

theorem pointsOfSection_sublist (r : RouteRec) (n : Nat) (l : List Element) :
    (pointsOfSection l n).Sublist ((elementPoints { r with elements := l }).map Prod.fst) := by
  induction l with
  | nil => exact List.Sublist.slnil
  | cons x l ih =>
    cases x with
    | sec m =>
      unfold pointsOfSection
      split
      · exact pointsAfter_sublist r l
      · exact ih
    | point p k => exact ih.cons p

theorem freedPoints_nodup {r : RouteRec} (n : Nat) (h : ((routePoints r).map Prod.fst).Nodup) : (freedPoints r n).Nodup := by
  refine h.sublist ?_
  unfold freedPoints routePoints
  rw [List.map_append]
  refine (pointsOfSection_sublist r n r.elements).append ?_
  split
  · exact List.Sublist.refl _
  · exact List.nil_sublist _

theorem releasePoints_all {a : Active} (h : a.orders = []) (l : List Nat) (s : State) :
    releasePoints a l s = eachDo l (fun p => removeHolder p a.route) s := by
  unfold releasePoints
  rw [List.filter_eq_self.2 fun p _ => by rw [h]; rfl]

section Release
variable {s : State} {e n : Nat} {a : Active} {r : RouteRec}

theorem releaseSection_first (ha : Tbl.find s.ilk.active e = some a) (ho : a.orders = []) (hk : 0 < (elementSections r).length) :
    releaseSection e r n 0 s = putActive e { a with releasePos := 1 }
      (eachDo (freedPoints r n) (fun p => removeHolder p a.route) (setLock n none s)) := by
  have hsplit (l₁ l₂ : List Nat) (f : Nat → State → State) (u : State) : eachDo (l₁ ++ l₂) f u = eachDo l₂ f (eachDo l₁ f u) := by
    unfold eachDo; rw [List.foldl_append]
  unfold releaseSection freedPoints
  rw [ha]
  dsimp only
  rw [if_pos hk, hsplit, releasePoints_all ho]
  by_cases h1 : (elementSections r).length = 1
  · rw [if_pos (by omega), if_pos h1, releasePoints_all ho]
  · rw [if_neg (by omega), if_neg h1, releasePoints_all ho]
    rfl

/-- What the first element leaves once it is released. -/
structure FirstReleased (e n : Nat) (a : Active) (r : RouteRec) (s v : State) : Prop where
  alone : RoutesAlone s v
  active : v.ilk.active = Tbl.insert s.ilk.active e { a with releasePos := 1 }
  sortedLocks : Tbl.sorted v.ilk.locks = true
  sortedHolders : Tbl.sorted v.ilk.holders = true
  locks : ∀ j, lockOf v j = if j = n then none else lockOf s j
  holders : ∀ p, (holdersOf v p).routes = if p ∈ freedPoints r n then (holdersOf s p).routes.erase a.route else (holdersOf s p).routes

theorem firstReleased (ha : Tbl.find s.ilk.active e = some a) (ho : a.orders = []) (hk : 0 < (elementSections r).length)
    (hlocks : Tbl.sorted s.ilk.locks = true) (hholders : Tbl.sorted s.ilk.holders = true)
    (hp : ((routePoints r).map Prod.fst).Nodup) : FirstReleased e n a r s (releaseSection e r n 0 s) := by
  have hlock := ilk_setLock_none n s
  obtain ⟨⟨t, ht, hsorted⟩, hfreed⟩ := holders_released (freedPoints r n) a.route (freedPoints_nodup n hp) (s := setLock n none s)
    (by rw [hlock]; exact hholders)
  have halone : RoutesAlone s (eachDo (freedPoints r n) (fun p => removeHolder p a.route) (setLock n none s)) :=
    (routesAlone_setLock n none s).trans (.eachDo (fun p u => routesAlone_removeHolder p a.route u) _)
  rw [releaseSection_first ha ho hk]
  generalize eachDo (freedPoints r n) (fun p => removeHolder p a.route) (setLock n none s) = v at ht hfreed halone
  have hilk : (putActive e { a with releasePos := 1 } v).ilk = { s.ilk with
      active := Tbl.insert s.ilk.active e { a with releasePos := 1 }, locks := Tbl.erase s.ilk.locks n, holders := t } := by
    change ({ v.ilk with active := Tbl.insert v.ilk.active e { a with releasePos := 1 } } : Interlocking) = _
    rw [ht, hlock]
  refine ⟨halone.trans ⟨rfl, rfl, rfl, fun _ => rfl⟩, by rw [hilk], ?_, by rw [hilk]; exact hsorted, fun j => ?_, fun p => ?_⟩
  · rw [hilk]; exact Tbl.sorted_erase _ _ hlocks
  · unfold lockOf
    rw [hilk]
    split
    · next hj => rw [hj]; exact Tbl.find_erase_self _ _ hlocks
    · next hj => exact Tbl.find_erase_other _ _ _ hj
  · have hbefore : holdersOf (setLock n none s) p = holdersOf s p := by unfold holdersOf; rw [hlock]
    have h := hfreed p
    rw [hbefore] at h
    exact h

/-- The walk of a RUNNING route whose first element is marked and CLEAR. -/
theorem walk_releases (ha : Tbl.find s.ilk.active e = some a) (hr : Tbl.find s.ilk.routes a.route = some r) (hst : a.state = .running)
    {l : List (Nat × Nat)} (hu : unreleased r a = (n, 0) :: l) (hmark : a.passed[0]? = some true) (hn : secState s n = .clear) :
    walk e s = endIfDone e (mirrorActive e (walkFrom e r l (releaseSection e r n 0 s))) := by
  unfold walk
  rw [ha]
  dsimp only
  rw [hr]
  dsimp only
  rw [if_pos hst, hu, walkFrom, ha]
  dsimp only
  rw [if_pos (by unfold secClear; rw [hmark, hn]; rfl)]

theorem walkFrom_stops (ha : Tbl.find s.ilk.active e = some a) {i : Nat} {l : List (Nat × Nat)}
    (hstop : a.passed[i]? ≠ some true ∨ secState s n ≠ .clear) : walkFrom e r ((n, i) :: l) s = s := by
  rw [walkFrom, ha]
  refine if_neg ?_
  unfold secClear
  obtain h | h := hstop
  · simp [h]
  · simp [h]

/-- The release of the first element, and no further: the next element is not marked, or not CLEAR. -/
theorem walk_releases_first {m : Nat} {rest : List Nat} (ha : Tbl.find s.ilk.active e = some a)
    (hr : Tbl.find s.ilk.routes a.route = some r) (hst : a.state = .running) (ho : a.orders = [])
    (hlocks : Tbl.sorted s.ilk.locks = true) (hholders : Tbl.sorted s.ilk.holders = true)
    (hp : ((routePoints r).map Prod.fst).Nodup) (he : elementSections r = n :: m :: rest) (hpos : a.releasePos = 0)
    (hmark : a.passed[0]? = some true) (hn : secState s n = .clear) (hstop : secState s m ≠ .clear ∨ a.passed[1]? ≠ some true) :
    FirstReleased e n a r s (walk e s) := by
  have hfirst := firstReleased (n := n) ha ho (by rw [he]; simp) hlocks hholders hp
  rw [walk_releases ha hr hst (unreleased_start hpos he) hmark hn]
  generalize releaseSection e r n 0 s = v at hfirst
  obtain ⟨halone, hactive, hsl, hsh, hlock, hhold⟩ := hfirst
  have hfind : Tbl.find v.ilk.active e = some { a with releasePos := 1 } := by rw [hactive]; exact Tbl.find_insert_self _ _ _
  have hsec : secState v m = secState s m := halone.read (fun u => secState u m) fun _ => rfl
  rw [List.cons_append, List.zipIdx_cons, walkFrom_stops hfind (hstop.symm.imp_right fun h => by rw [hsec]; exact h)]
  have hmirror : body (mirrorActive e v) = body v := body_mirrorActive e v
  have hilk : (mirrorActive e v).ilk = v.ilk := read_of_body (fun u => u.ilk) (fun _ => rfl) hmirror
  have hroute : Tbl.find v.ilk.routes a.route = some r := (halone.read (fun u => Tbl.find u.ilk.routes a.route) fun _ => rfl).trans hr
  rw [endIfDone_goesOn (a := { a with releasePos := 1 }) (r := r) (by rw [hilk]; exact hfind) (by rw [hilk]; exact hroute)
    (by rw [he]; simp)]
  refine ⟨halone.trans (.of_body hmirror), by rw [hilk]; exact hactive, by rw [hilk]; exact hsl, by rw [hilk]; exact hsh, ?_, ?_⟩
  · unfold lockOf at hlock ⊢; rw [hilk]; exact hlock
  · unfold holdersOf at hhold ⊢; rw [hilk]; exact hhold

theorem endIfDone_ends (ha : Tbl.find s.ilk.active e = some a) (hr : Tbl.find s.ilk.routes a.route = some r) (hst : a.state = .running)
    (hpos : a.releasePos = (elementSections r).length) (ho : a.orders = []) (hov : a.overlapState = .released) :
    endIfDone e s = releaseWhole e .normal s := by
  unfold endIfDone
  rw [ha]
  dsimp only
  rw [hr]
  exact if_pos (by simp [hst, hpos, ho, hov])

/-- The berth released with no overlap left: the route is released whole (R77). -/
theorem walk_ends (ha : Tbl.find s.ilk.active e = some a) (hr : Tbl.find s.ilk.routes a.route = some r) (hst : a.state = .running)
    (ho : a.orders = []) (hshow : a.show_ = none) (hsort : Tbl.sorted s.ilk.active = true)
    (hlocks : Tbl.sorted s.ilk.locks = true) (hholders : Tbl.sorted s.ilk.holders = true)
    (hp : ((routePoints r).map Prod.fst).Nodup) (hnodup : ∀ p, (holdersOf s p).routes.Nodup) (he : elementSections r = [n])
    (hpos : a.releasePos = 0) (hov : a.overlapState = .released) (hmark : a.passed[0]? = some true) (hn : secState s n = .clear)
    (hlock : lockOf s n = some a.route) : RoutesAlone s (walk e s) ∧ ReleasedWhole e a.route s (walk e s) := by
  have hfirst := firstReleased (n := n) ha ho (by rw [he]; simp) hlocks hholders hp
  have hu := unreleased_start (a := a) hpos he
  rw [hov, if_pos rfl] at hu
  rw [walk_releases ha hr hst hu hmark hn, List.nil_append]
  generalize releaseSection e r n 0 s = v at hfirst
  obtain ⟨halone, hactive, hsl, hsh, hlock', hhold⟩ := hfirst
  have hmirror : body (mirrorActive e v) = body v := body_mirrorActive e v
  have hilk : (mirrorActive e v).ilk = v.ilk := read_of_body (fun u => u.ilk) (fun _ => rfl) hmirror
  have hfind : Tbl.find (mirrorActive e v).ilk.active e = some { a with releasePos := 1 } := by
    rw [hilk, hactive]; exact Tbl.find_insert_self _ _ _
  have hroute : Tbl.find (mirrorActive e v).ilk.routes a.route = some r := by
    rw [hilk]; exact (halone.read (fun u => Tbl.find u.ilk.routes a.route) fun _ => rfl).trans hr
  have hend := endIfDone_ends hfind hroute hst (by rw [he]; rfl) ho hov
  have hrel : Releasable e { a with releasePos := 1 } (mirrorActive e v) :=
    ⟨by rw [hilk, hactive]; exact Tbl.sorted_insert _ _ _ hsort, by rw [hilk]; exact hsl, by rw [hilk]; exact hsh, hfind, hshow⟩
  obtain ⟨halone', hwhole⟩ := releaseWhole_released .normal hrel
  change RoutesAlone s (endIfDone e (mirrorActive e v)) ∧ ReleasedWhole e a.route s (endIfDone e (mirrorActive e v))
  rw [hend]
  refine ⟨(halone.trans (.of_body hmirror)).trans halone', hwhole.entry, fun k hk => ?_, fun j => ?_, fun p => ?_⟩
  · rw [hwhole.others k hk, hilk, hactive]; exact Tbl.find_insert_other _ _ _ _ hk
  · have hj : lockOf (mirrorActive e v) j = if j = n then none else lockOf s j := by
      rw [← hlock' j]; unfold lockOf; rw [hilk]
    rw [hwhole.locks j, hj]
    by_cases hjn : j = n
    · rw [if_pos hjn, hjn, hlock]; simp
    · rw [if_neg hjn]
  · have hq : (holdersOf (mirrorActive e v) p).routes = (holdersOf v p).routes := by unfold holdersOf; rw [hilk]
    rw [hwhole.holders p, hq, hhold p]
    split
    · exact List.erase_of_not_mem ((hnodup p).not_mem_erase)
    · rfl

end Release

/-! ### A section CLEAR behind a train -/

section ReleaseCommands
variable {s : State} {i : Fin 256} {n e : Nat} {a : Active} {r : RouteRec}

/-- A sample that makes a section of a RUNNING route CLEAR: the walk over its sections. -/
theorem sample_walks (h : Changes i false n s) (ha : s.ilk.active = [(e, a)])
    (hr : Tbl.find s.ilk.routes a.route = some r) (hn : n ∈ sequence r) (hst : a.state = .running)
    (halone : ∀ c, RoutesAlone (tagged i.val false n c s) (walk e (tagged i.val false n c s))) :
    ∃ t c, exec (.detectorSample i false) s = .next t ∧ t.ilk = (walk e (tagged i.val false n c s)).ilk := by
  obtain ⟨c, hc⟩ := detectorSampled_changes h
  obtain ⟨hone, hfind⟩ := active_tagged (i := i) (n := n) (x := false) (c := c) ha
  have hv : routesSectionChange n (detected false) (tookTag i.val false n c s) (tagged i.val false n c s)
      = (walk e (tagged i.val false n c s), []) := by
    rw [routesSectionChange_one hone, routeSection_running hfind (by rw [ilk_tagged]; exact hr) hn hst]
    exact congrArg (fun u => (u, _)) (runningSection_clear hfind)
  obtain ⟨t, he, hin, -⟩ := sample_ends hc hv ((ends_tagged h fun hx => absurd hx Bool.false_ne_true).of_alone (halone c))
  exact ⟨t, c, he, OrderEnds.read_of_inside (fun u => u.ilk) (fun _ => rfl) hin⟩

/-- The first element is released, and the next is not (R76). -/
theorem sample_releases_first {m : Nat} {rest : List Nat} (h : Changes i false n s) (hent : EntryOf e a s) (ha : s.ilk.active = [(e, a)])
    (hr : Tbl.find s.ilk.routes a.route = some r) (hpn : ((routePoints r).map Prod.fst).Nodup) (hst : a.state = .running)
    (ho : a.orders = []) (hp : a.releasePos = 0) (hmark : a.passed[0]? = some true) (he : elementSections r = n :: m :: rest)
    (hd : (sequence r).Nodup) (hstop : secState s m ≠ .clear ∨ a.passed[1]? ≠ some true) :
    ∃ t, exec (.detectorSample i false) s = .next t ∧ Tbl.find t.ilk.active e = some { a with releasePos := 1 } ∧
      (∀ j, lockOf t j = if j = n then none else lockOf s j) ∧
      ∀ p, (holdersOf t p).routes = if p ∈ pointsOfSection r.elements n then (holdersOf s p).routes.erase a.route
        else (holdersOf s p).routes := by
  have hfirst (c : Nat) : FirstReleased e n a r (tagged i.val false n c s) (walk e (tagged i.val false n c s)) := by
    have hilk : (tagged i.val false n c s).ilk = s.ilk := ilk_tagged
    have hclear : secState (tagged i.val false n c s) n = .clear := secState_tagged_self
    refine walk_releases_first (by rw [hilk]; exact hent.entry) (by rw [hilk]; exact hr) hst ho (by rw [hilk]; exact hent.locks)
      (by rw [hilk]; exact hent.holders) hpn he hp hmark hclear ?_
    have hmn : m ≠ n := by
      unfold Machine.sequence at hd
      rw [he, List.cons_append, List.nodup_cons] at hd
      rintro rfl
      exact hd.1 (List.mem_append_left _ List.mem_cons_self)
    rw [secState_tagged_other hmn]
    exact hstop
  obtain ⟨t, c, hexec, ht⟩ := sample_walks h ha hr (List.mem_append_left _ (by rw [he]; exact List.mem_cons_self)) hst fun c => (hfirst c).alone
  obtain ⟨-, hactive, -, -, hlocks, hholders⟩ := hfirst c
  have hilk : (tagged i.val false n c s).ilk = s.ilk := ilk_tagged
  have hfreed : freedPoints r n = pointsOfSection r.elements n := by
    unfold freedPoints; rw [if_neg (by rw [he]; simp), List.append_nil]
  unfold lockOf holdersOf at *
  rw [hilk] at hactive hlocks hholders
  rw [hfreed] at hholders
  refine ⟨t, hexec, ?_, ?_, ?_⟩
  · rw [ht, hactive]; exact Tbl.find_insert_self _ _ _
  · rw [ht]; exact hlocks
  · rw [ht]; exact hholders

/-- The berth is released and the route ends (R77). -/
theorem sample_ends_route (h : Changes i false n s) (hent : EntryOf e a s) (ha : s.ilk.active = [(e, a)])
    (hr : Tbl.find s.ilk.routes a.route = some r) (hpn : ((routePoints r).map Prod.fst).Nodup)
    (hnodup : ∀ p, (holdersOf s p).routes.Nodup) (hst : a.state = .running) (ho : a.orders = []) (hp : a.releasePos = 0)
    (hmark : a.passed[0]? = some true) (hlock : lockOf s n = some a.route) (he : elementSections r = [n])
    (hov : a.overlapState = .released) : ∃ t, exec (.detectorSample i false) s = .next t ∧ ReleasedWhole e a.route s t := by
  have hends (c : Nat) : RoutesAlone (tagged i.val false n c s) (walk e (tagged i.val false n c s)) ∧
      ReleasedWhole e a.route (tagged i.val false n c s) (walk e (tagged i.val false n c s)) := by
    have hilk : (tagged i.val false n c s).ilk = s.ilk := ilk_tagged
    have hclear : secState (tagged i.val false n c s) n = .clear := secState_tagged_self
    refine walk_ends (by rw [hilk]; exact hent.entry) (by rw [hilk]; exact hr) hst ho hent.noShow (by rw [hilk]; exact hent.active)
      (by rw [hilk]; exact hent.locks) (by rw [hilk]; exact hent.holders) hpn (fun p => ?_) he hp hov hmark hclear ?_
    · unfold holdersOf; rw [hilk]; exact hnodup p
    · unfold lockOf; rw [hilk]; exact hlock
  obtain ⟨t, c, hexec, ht⟩ := sample_walks h ha hr (List.mem_append_left _ (by rw [he]; exact List.mem_cons_self)) hst fun c => (hends c).1
  obtain ⟨hentry, hothers, hlocks, hholders⟩ := (hends c).2
  have hilk : (tagged i.val false n c s).ilk = s.ilk := ilk_tagged
  unfold lockOf holdersOf at *
  rw [hilk] at hothers hlocks hholders
  refine ⟨t, hexec, ?_, ?_, ?_, ?_⟩
  · rw [ht]; exact hentry
  · rw [ht]; exact hothers
  · unfold lockOf; rw [ht]; exact hlocks
  · unfold holdersOf; rw [ht]; exact hholders

end ReleaseCommands

/-- Settles O35: the two timers, then the changes of a section by what they are to the route. -/
theorem routeTimersRelease : Obligations.RouteTimersRelease := by
  refine ⟨fun s e a hq h => ⟨approach_releases hq h, fun hno => approach_same hq fun b hb => ?_⟩,
    fun s e a r hq h hr => ⟨overlap_unlocks hq h hr, fun hno => overlap_same hq fun b hb => ?_⟩,
    fun s e hq h => ⟨approach_same hq fun b hb => ?_, overlap_same hq fun b hb => ?_⟩,
    fun s i n m e rest a r h hresp ha hr he hd hs ht ho hshow hp hmarks => ⟨fun hst hslot => ?_,
      fun k other hst hsound hslot hk hsort hmark => ?_⟩,
    fun s i n e a r h hent ha hr hd hpn hnodup hst ho hp hmark hlock => ⟨fun m rest he hstop => ?_, fun he hov => ?_⟩,
    fun s i n e a r h hresp ha hr hst hov hn hnot => sample_past_overlap h hresp ha hr hst hov hn hnot,
    fun s i n e f x a r h hresp ha hr hcls hn hf hne hslot hshow => ⟨fun hx hst => ?_, fun hx hst hcond hp hs => ?_⟩⟩
  · rw [h.entry] at hb
    cases hb
    exact hno
  · rw [h.entry] at hb
    cases hb
    exact hno
  · rw [h] at hb
    cases hb
  · rw [h] at hb
    cases hb
  · obtain ⟨t, hexec, hocc, hentry, hlocks, hholders⟩ := sample_enters h hresp ha hr he hd hs ht hp hmarks hst
    refine ⟨t, hexec, hocc, hentry.trans (congrArg some ?_), hlocks, hholders⟩
    unfold trainEntry
    rw [hslot]
  · exact sample_enters_setting h hresp ha hr he hd hs ht hp hmarks hst hshow hsound hslot hk hsort hmark
  · exact sample_releases_first h hent ha hr hpn hst ho hp hmark he hd hstop
  · exact sample_ends_route h hent ha hr hpn hnodup hst ho hp hmark hlock he hov
  · subst hx; exact sample_holds h hresp ha hr hcls hn hf hne hst
  · subst hx; exact sample_sets h hresp ha hr hn hslot hshow hst hcond hp hs

end Sys2Proof.RouteLife
end

