-- ==== Sys2Proof/Proofs/MirrorItems.lean ====
section
/-! The mirror words as one family of items, each with its place and what it shows (12.2), and the writes that keep them (O44). -/

namespace Sys2Proof.MirrorItems

open Sys2Proof.Machine

/-! ### Words fit in 32 bits -/

theorem fld_le (v w a : Nat) : fld v w a ≤ (2 ^ w - 1) * 2 ^ a := by
  unfold fld
  exact Nat.mul_le_mul_right _ (Nat.le_sub_one_of_lt (Nat.mod_lt _ (Nat.two_pow_pos w)))

theorem bit_le (b : Bool) (a : Nat) : bit b a ≤ 2 ^ a := by
  unfold bit
  split
  · exact Nat.le_refl _
  · exact Nat.zero_le _

theorem halves_lt (a b : Nat) : halves a b < 2 ^ 32 := by
  have h1 := fld_le a 16 0
  have h2 := fld_le b 16 16
  unfold halves
  omega

theorem sectionWord_lt (s : State) (n : Nat) (r : SectionRec) : sectionWord s n r < 2 ^ 32 := by
  have h1 := fld_le (occOf s n).state.code 3 0
  have h2 := bit_le (detLevel s r) 3
  have h3 := bit_le (occOf s n).discFlag 4
  have h4 := bit_le (tagOf s n).isSome 5
  have h5 := bit_le (lockOf s n).isSome 6
  have h6 := fld_le (occOf s n).count 8 8
  have h7 := fld_le ((tagOf s n).getD 0) 6 16
  have h8 := fld_le ((lockOf s n).getD 0) 9 22
  unfold sectionWord
  dsimp only
  omega

theorem tagWord_lt (t : Tag) : tagWord t < 2 ^ 32 := by
  obtain ⟨sec, h⟩ : ∃ sec, tagWord t = fld t.state.code 2 0 + fld t.label 8 8 + fld sec 8 16 + fld (min t.holders.length 255) 8 24 :=
    ⟨_, rfl⟩
  have h1 := fld_le t.state.code 2 0
  have h2 := fld_le t.label 8 8
  have h3 := fld_le sec 8 16
  have h4 := fld_le (min t.holders.length 255) 8 24
  omega

theorem activeWord_lt (x : Option Active) : activeWord x < 2 ^ 32 := by
  cases x with
  | none => exact Nat.two_pow_pos 32
  | some a =>
    have h1 := fld_le a.route 9 0
    have h2 := fld_le a.state.code 3 9
    have h3 := fld_le a.originator.code 2 12
    have h4 := fld_le a.originator.panel 4 14
    have h5 := fld_le a.releasePos 5 18
    have h6 := fld_le a.overlapState.code 2 23
    have h7 := fld_le (a.tag.getD 0) 6 25
    have h8 := bit_le a.tag.isSome 31
    unfold activeWord
    dsimp only
    omega

theorem stackWord_lt (x : Option StackEntry) : stackWord x < 2 ^ 32 := by
  cases x with
  | none => exact Nat.two_pow_pos 32
  | some e =>
    have h1 := fld_le e.route 9 0
    have h2 := fld_le e.originator.code 2 9
    have h3 := fld_le e.originator.panel 4 11
    have h4 := fld_le e.source.number 5 15
    have h5 := bit_le e.source.isShow 20
    have h6 := fld_le e.reason.code 6 21
    unfold stackWord
    dsimp only
    omega

theorem pointWord_lt (s : State) (p : Nat) (r : PointRec) : pointWord s p r < 2 ^ 32 := by
  have h1 := fld_le (detLie s p).code 3 0
  have h2 := bit_le (pointContacts s r).1 3
  have h3 := bit_le (pointContacts s r).2 4
  have h5 := fld_le (holdersOf s p).routes.length 3 9
  have h6 := fld_le (sharedCode (holdersOf s p).shared) 2 12
  have h7 := bit_le (holdersOf s p).routes.head?.isSome 14
  have h8 := fld_le ((holdersOf s p).routes.head?.getD 0) 9 16
  unfold pointWord
  cases orderOf s p with
  | none =>
    have h4 := fld_le 0 3 5
    dsimp only
    omega
  | some x =>
    have h4 := fld_le (x.1.phase.code x.2) 3 5
    have h9 := bit_le (x.1.lie == Lie.reverse) 8
    dsimp only
    omega

theorem signalWord_lt (s : State) (x : Nat) (r : SignalRec) (st : SignalState) : signalWord s x r st < 2 ^ 32 := by
  have h1 := fld_le r.kind.code 3 0
  have h2 := fld_le st.aspect.code 3 3
  have h3 := bit_le (entryAt s x).isSome 6
  have h4 := fld_le st.overruns 8 8
  have h5 := fld_le (((entryAt s x).map fun y => y.2.route).getD 0) 9 16
  unfold signalWord
  dsimp only
  omega

theorem tableWord_lt (s : State) (d : DeckRec) (k : Nat) : tableWord s d k < 2 ^ 32 := by
  unfold tableWord
  split
  · have h1 := fld_le s.tt.state.code 4 0
    have h2 := fld_le (faultCode s.tt.fault) 2 4
    have h3 := bit_le s.tt.pos.isSome 6
    omega
  · exact halves_lt _ _
  · have h1 := fld_le (roadEndByte s.tt.align) 8 0
    have h2 := fld_le (roadEndByte s.tt.target) 8 8
    omega
  · have h0 := bit_le s.tt.boltOut 0
    have h1 := bit_le s.tt.feed 1
    have h2 := bit_le s.tt.polReversed 2
    have h3 := bit_le s.tt.dirAcw 3
    have h4 := bit_le s.tt.boltIn.level 4
    have h5 := bit_le s.tt.boltOutC.level 5
    have h6 := bit_le s.tt.lastIndex 6
    omega
  · have h1 := fld_le ((s.tt.gen.map Generator.rate).getD 0) 16 0
    have h2 := fld_le s.tt.requester.code 2 16
    have h3 := fld_le s.tt.requester.number 5 24
    omega
  · exact halves_lt _ _
  · exact halves_lt _ _
  · exact halves_lt _ _
  · exact Nat.two_pow_pos 32

theorem tableMirrorWord_lt (s : State) (k : Nat) : tableMirrorWord s k < 2 ^ 32 := by
  unfold tableMirrorWord
  split
  · exact Nat.two_pow_pos 32
  · exact tableWord_lt _ _ _

theorem modesOf_lt (f : Nat → Mode) (n : Nat) : modesOf f n < 2 ^ (2 * n) := by
  induction n with
  | zero => exact Nat.one_pos
  | succ n ih =>
    have h1 := fld_le (f n).code 2 (2 * n)
    have h2 : 2 ^ (2 * (n + 1)) = 4 * 2 ^ (2 * n) := by rw [Nat.mul_add, Nat.pow_add]; omega
    unfold modesOf
    omega

theorem maskOf_lt (f : Nat → Bool) (n : Nat) : maskOf f n < 2 ^ n := by
  induction n with
  | zero => exact Nat.one_pos
  | succ n ih =>
    have h1 := bit_le (f n) n
    unfold maskOf
    omega

theorem lampWord_lt (s : State) (w : Nat) : lampWord s w < 2 ^ 32 := modesOf_lt _ 16

theorem visitorWord_lt (s : State) (k : Nat) : visitorWord s k < 2 ^ 32 := by
  unfold visitorWord
  split
  · split
    · exact Nat.two_pow_pos 32
    · next r _ =>
      have h1 := fld_le r.show_ 8 8
      have h2 := fld_le r.step 8 16
      have h3 := fld_le r.phase.code 8 24
      omega
  · have h1 := fld_le s.vis.queue.length 8 0
    have h2 := fld_le s.vis.busy 8 8
    have h3 := bit_le s.vis.suspended 16
    have h4 := bit_le s.tt.jogPermitted 24
    omega
  · have h1 := fld_le (queuePlace s 0) 8 0
    have h2 := fld_le (queuePlace s 1) 8 8
    have h3 := fld_le (queuePlace s 2) 8 16
    have h4 := fld_le (queuePlace s 3) 8 24
    omega
  · have h1 := fld_le (queuePlace s 4) 8 0
    have h2 := fld_le (queuePlace s 5) 8 8
    have h3 := fld_le (queuePlace s 6) 8 16
    have h4 := fld_le (queuePlace s 7) 8 24
    omega
  · exact halves_lt _ _
  · have h1 := fld_le ((s.vis.runner.map fun r => r.routes.length).getD 0) 8 0
    have h2 := fld_le ((s.vis.last.map Prod.fst).getD 0) 8 8
    have h3 := fld_le ((s.vis.last.map fun l => l.2.code).getD 0) 8 16
    omega
  · exact maskOf_lt _ _
  · exact modesOf_lt _ _
  · exact (modesOf_lt _ 2).trans_le (by decide)
  · exact (maskOf_lt _ 18).trans_le (by decide)
  · exact Nat.two_pow_pos 32

/-! ### The items -/

/-- What is shown: a mirror word by its mirror and its number, and the aspects and the lamp modes as a whole. -/
inductive Item where
  | sec (n : Nat) | head (k : Nat) | tag (g : Nat) | active (e : Nat) | stack (k : Nat) | point (p : Nat) | signal (x : Nat)
  | table (k : Nat) | visitor (k : Nat) | lamp (w : Nat) | aspects | modes

/-- The offset of a mirror, its length in words, and the number of a word in it. -/
def Item.mirror : Item → Nat × Nat × Nat
  | .sec n => (Config.sectionMirror, 256, n)
  | .head k => (Config.headMirror, 32, k)
  | .tag g => (Config.tagMirror, 64, g)
  | .active e => (Config.activeMirror, 48, e)
  | .stack k => (Config.stackMirror, 16, k)
  | .point p => (Config.pointMirror, 128, p)
  | .signal x => (Config.signalMirror, 192, x)
  | .table k => (Config.tableMirror, 16, k)
  | .visitor k => (Config.visitorMirror, 16, k)
  | .lamp w => (Config.lampMirror, 24, w)
  | .aspects | .modes => (0, 0, 0)

/-- The number of a mirror word lies in its mirror. -/
def Item.stands (i : Item) : Prop := i.mirror.2.2 < i.mirror.2.1

/-- The offset of a mirror word. -/
def Item.place (i : Item) : Nat := i.mirror.1 + 4 * i.mirror.2.2

/-- The word that an item shows, where it shows one: a head's whatever the run state (R20), any other in RUNNING. The visitor
mirror is written at the end of a handling (R172): until then it shows V. -/
def Item.word (V : Nat → Nat) (s : State) : Item → Option Nat
  | .sec n => if s.running then (Tbl.find s.occ.recs n).map (sectionWord s n) else none
  | .head k => (Tbl.find s.occ.heads k).map fun h => halves h.totalAB h.totalBA
  | .tag g => if s.running then some (tagWord (tagRec s g)) else none
  | .active e => if s.running then some (activeWord (Tbl.find s.ilk.active e)) else none
  | .stack k => if s.running then some (stackWord s.ilk.stack[k]?) else none
  | .point p => if s.running then (Tbl.find s.pts.recs p).map (pointWord s p) else none
  | .signal x => if s.running then (Tbl.find s.asp.recs x).bind fun r => (Tbl.find s.asp.state x).map (signalWord s x r) else none
  | .table k => if s.running then some (tableMirrorWord s k) else none
  | .visitor k => if s.running then some (V k) else none
  | .lamp w => if s.running then some (lampWord s w) else none
  | .aspects | .modes => none

/-- Mirror words do not overlap. -/
theorem place_disjoint {i j : Item} (hi : i.stands) (hj : j.stands) (h : i ≠ j) : i.place + 3 < j.place ∨ j.place + 3 < i.place := by
  unfold Item.stands at hi hj
  unfold Item.place
  cases i <;> cases j <;> simp only [Item.mirror, Config.sectionMirror, Config.headMirror, Config.tagMirror, Config.activeMirror,
    Config.stackMirror, Config.pointMirror, Config.signalMirror, Config.tableMirror, Config.visitorMirror, Config.lampMirror, ne_eq,
    Item.sec.injEq, Item.head.injEq, Item.tag.injEq, Item.active.injEq, Item.stack.injEq, Item.point.injEq, Item.signal.injEq,
    Item.table.injEq, Item.visitor.injEq, Item.lamp.injEq] at hi hj h ⊢ <;> omega

/-- The mirrors fill 0x0100 to 0x0D5F. -/
theorem place_bounds {i : Item} (hi : i.stands) : 0x100 ≤ i.place ∧ i.place + 3 < 0xD60 := by
  unfold Item.stands at hi
  unfold Item.place
  cases i <;> simp only [Item.mirror, Config.sectionMirror, Config.headMirror, Config.tagMirror, Config.activeMirror,
    Config.stackMirror, Config.pointMirror, Config.signalMirror, Config.tableMirror, Config.visitorMirror, Config.lampMirror] at hi ⊢ <;>
    omega

/-! ### The words that agree -/

/-- Each mirror word that is not set aside shows its item. -/
def Agree (d : Item → Prop) (V : Nat → Nat) (s : State) : Prop :=
  ∀ i v, ¬ d i → i.stands → i.word V s = some v → s.read32 i.place = v

/-- One item more set aside. -/
def also (d : Item → Prop) (i : Item) : Item → Prop := fun j => d j ∨ j = i

/-- Memory between the mirrors' ends is the same. -/
def SameMirrors (s t : State) : Prop := ∀ a, 0x100 ≤ a → a < 0xD60 → t.read8 a = s.read8 a

theorem SameMirrors.refl (s : State) : SameMirrors s s := fun _ _ _ => rfl

theorem SameMirrors.trans {s t u : State} (h1 : SameMirrors s t) (h2 : SameMirrors t u) : SameMirrors s u :=
  fun a ha hb => (h2 a ha hb).trans (h1 a ha hb)

theorem SameMirrors.of_mem {s t : State} (h : t.exch.mem = s.exch.mem) : SameMirrors s t := fun a _ _ => by
  unfold State.read8; rw [h]

section Agree
variable {d : Item → Prop} {V : Nat → Nat} {s t : State}

/-- A change of state that leaves the mirrors' memory: what shows something else now is set aside. -/
theorem Agree.change {d' : Item → Prop} (h : Agree d V s) (hm : SameMirrors s t) (hd : ∀ i, d i → d' i)
    (hw : ∀ i, ¬ d' i → i.word V t = i.word V s) : Agree d' V t := by
  intro i v hi hstands hv
  obtain ⟨hlow, hhigh⟩ := place_bounds hstands
  rw [hw i hi] at hv
  rw [read32_of_read8 fun k hk => hm _ (by omega) (by omega)]
  exact h i v (fun hdi => hi (hd i hdi)) hstands hv

theorem word_withMem (m : List Host.Cell) (i : Item) : i.word V (s.withMem m) = i.word V s := by cases i <;> rfl

/-- An item that shows nothing need not be set aside. -/
theorem Agree.none {i : Item} (h : Agree (also d i) V s) (hi : i.stands → i.word V s = none) : Agree d V s := by
  intro j v hj hstands hv
  by_cases he : j = i
  · rw [he] at hv hstands
    rw [hi hstands] at hv
    cases hv
  · exact h j v (fun hd => hd.elim hj he) hstands hv

/-- A mirror word written afresh agrees again. -/
theorem Agree.write {i : Item} {v : Nat} (h : Agree (also d i) V s) (hm : s.memOk) (hi : i.stands) (hv : v < 2 ^ 32)
    (hw : ∀ w, i.word V s = some w → w = v) : Agree d V (s.write32 i.place v) := by
  obtain ⟨hlow, hhigh⟩ := place_bounds hi
  have hin : i.place + 3 < Config.memBytes := by unfold Config.memBytes; omega
  have hword (j : Item) : j.word V (s.write32 i.place v) = j.word V s := by
    unfold State.write32
    rw [if_pos hin]
    exact word_withMem _ j
  intro j w hj hstands hjw
  rw [hword] at hjw
  by_cases he : j = i
  · subst he
    rw [hw w hjw, read32_write32_self _ _ _ hm hin, Nat.mod_eq_of_lt hv]
  · rw [read32_write32_other _ _ _ _ (place_disjoint hstands hi he)]
    exact h j w (fun hd => hd.elim hj he) hstands hjw

/-- A mirror word written afresh, where its number is in the mirror. -/
theorem Agree.writeWord {i : Item} {v : Nat} (h : Agree (also d i) V s) (hm : s.memOk) (hv : v < 2 ^ 32)
    (hw : ∀ w, i.word V s = some w → w = v) : Agree d V (s.writeWord i.mirror.1 i.mirror.2.1 i.mirror.2.2 v) := by
  unfold State.writeWord
  split
  · next hi => exact h.write hm hi hv hw
  · next hi =>
    intro j w hj hstands hjw
    by_cases he : j = i
    · exact absurd (he ▸ hstands) hi
    · exact h j w (fun hd => hd.elim hj he) hstands hjw

theorem Agree.mono {d' : Item → Prop} (h : Agree d V s) (hd : ∀ i, d i → d' i) : Agree d' V s :=
  fun i v hi => h i v fun hdi => hi (hd i hdi)

theorem Agree.also {i : Item} (h : Agree d V s) : Agree (also d i) V s := h.mono fun _ => .inl

end Agree

end Sys2Proof.MirrorItems
end

