-- ==== Sys2Proof/Proofs/ShownMeanwhile.lean ====
section
/-! The invariant of what is shown inside a handling: what is out of date meanwhile is set aside, or is asked for (O44). -/

namespace Sys2Proof.ShownMeanwhile

open Sys2Proof.Machine Sys2Proof.MirrorItems

/-! ### The tables behind what is shown -/

/-- The loaded sections have numbers of the mirror and a state each, the heads too. -/
structure OccFit (o : OccUnit) : Prop where
  recs : Tbl.sorted o.recs = true
  filters : Tbl.sorted o.filters = true
  secs : ∀ n r, Tbl.find o.recs n = some r → n < 256 ∧ ∃ x, Tbl.find o.secs n = some x
  heads : ∀ k h, Tbl.find o.heads k = some h → k < 32

structure PtsFit (p : PointUnit) : Prop where
  recs : Tbl.sorted p.recs = true
  contacts : Tbl.sorted p.contacts = true
  state : ∀ n r, Tbl.find p.recs n = some r → n < 128 ∧ ∃ st, Tbl.find p.state n = some st

def AspFit (a : AspectUnit) : Prop := ∀ x r, Tbl.find a.recs x = some r → x < 192 ∧ ∃ st, Tbl.find a.state x = some st

structure VisFit (v : VisitorUnit) : Prop where
  filters : Tbl.sorted v.filters = true
  lamps : Tbl.sorted v.lamps = true

structure DispFit (d : Display) : Prop where
  shown : Tbl.sorted d.shown = true
  bind : ∀ i l, Tbl.find d.bind i = some l → i < 384

/-- The loaded records of two machines are the same; a head is its record and its state. -/
structure SameRecords (s t : State) : Prop where
  sections : t.occ.recs = s.occ.recs
  heads : t.occ.heads = s.occ.heads
  points : t.pts.recs = s.pts.recs
  signals : t.asp.recs = s.asp.recs
  deck : t.tt.deck = s.tt.deck
  roads : t.tt.roads = s.tt.roads
  routes : t.ilk.routes = s.ilk.routes

theorem pointsInPlace_congr {s t : State} (h : t.pts.recs = s.pts.recs) (o : Option Nat) (l : List Element) :
    pointsInPlace t o l = pointsInPlace s o l := by
  induction l generalizing o with
  | nil => rfl
  | cons x l ih =>
    cases x with
    | sec n => exact ih (some n)
    | point p k =>
      unfold pointsInPlace pointSec
      rw [h, ih o]

/-- START's checks read the loaded records alone (R193). -/
theorem SameRecords.configFault {s t : State} (h : SameRecords s t) : configFault t = configFault s := by
  obtain ⟨h1, h2, h3, h4, h5, h6, h7⟩ := h
  have hsec : secLoaded t = secLoaded s := by unfold secLoaded; rw [h1]
  have hside : sideOk t = sideOk s := by unfold sideOk; rw [h1]
  have hhome : homeOk t = homeOk s := by unfold homeOk; rw [h4]
  have hsections : sectionFails t = sectionFails s := by unfold sectionFails boundingHeads; rw [h1, h2]
  have hheads : headFails t = headFails s := by unfold headFails; rw [hside]
  have hneighbours : neighboursFail t = neighboursFail s := by unfold neighboursFail; rw [hsec, h3]
  have hpoints : pointFails t = pointFails s := by unfold pointFails; rw [hsec, h3]
  have hsignals : signalFails t = signalFails s := by unfold signalFails distantUsed shuntMisused; rw [hsec, hhome, h7]
  have htable : tableFails t = tableFails s := by unfold tableFails; rw [h5, h6, hsec]
  have hroutes : routeFails t = routeFails s := by
    unfold routeFails routeLoaded entryProtects deckConditionOk
    rw [hsec, h3, h4, h5, h6]
    funext n r
    rw [pointsInPlace_congr h3]
  unfold Machine.configFault
  rw [h1, h2, h3, h4, h7, hsections, hheads, hneighbours, hpoints, hsignals, htable, hroutes]

/-- What loads, shows or lamps only (R191). -/
def LoadsFit (e : Exchange) : Prop := ∀ l, e.reading = some l ∨ l ∈ e.loads → l.kind = .shows ∨ l.kind = .lamps

/-- The part of the invariant that speaks of tables. -/
structure Base (s : State) : Prop where
  mem : s.memOk
  occ : OccFit s.occ
  pts : PtsFit s.pts
  asp : AspFit s.asp
  active : Tbl.sorted s.ilk.active = true
  vis : VisFit s.vis
  disp : DispFit s.disp
  tags : s.exch.runState ≠ .running → s.tags.fields = []
  config : s.exch.runState = .running → configFault s = none
  loads : s.exch.runState = .running → LoadsFit s.exch

/-- Each loaded signal shows its aspect (R109, R110). -/
def AspectsRight (s : State) : Prop :=
  ∀ x r, Tbl.find s.asp.recs x = some r → (Tbl.find s.asp.state x).map SignalState.aspect = some (aspectOf s x r)

/-- Each bound lamp shows its mode (R176). -/
def ModesRight (s : State) : Prop := ∀ i l, Tbl.find s.disp.bind i = some l → Tbl.getD s.disp.shown i .off = lampMode s l

/-- What is shown inside a handling: what d sets aside may be out of date, the aspects and the modes where they are asked for at
the handling's end, and the visitor mirror shows V. -/
structure Mid (d : Item → Prop) (V : Nat → Nat) (s : State) : Prop where
  words : Agree d V s
  aspects : s.exch.runState = .running → ¬ d .aspects → s.work.aspects = false → AspectsRight s
  modes : s.exch.runState = .running → ¬ d .modes → s.work.lamps = false → ModesRight s
  base : Base s

section Change
variable {d d' : Item → Prop} {V : Nat → Nat} {s t : State}

protected theorem Mid.mono (h : Mid d V s) (hd : ∀ i, d i → d' i) : Mid d' V s where
  words := h.words.mono hd
  aspects := fun hr hi => h.aspects hr fun hdi => hi (hd _ hdi)
  modes := fun hr hi => h.modes hr fun hdi => hi (hd _ hdi)
  base := h.base

protected theorem Mid.also {i : Item} (h : Mid d V s) : Mid (also d i) V s := h.mono fun _ => .inl

/-- A change of state: what it makes out of date is set aside. -/
protected theorem Mid.change (h : Mid d V s) (hd : ∀ i, d i → d' i) (hm : SameMirrors s t) (hr : t.exch.runState = s.exch.runState)
    (hw : ∀ i, ¬ d' i → i.word V t = i.word V s)
    (ha : ¬ d' .aspects → t.work.aspects = false → s.work.aspects = false ∧ (AspectsRight s → AspectsRight t))
    (hl : ¬ d' .modes → t.work.lamps = false → s.work.lamps = false ∧ (ModesRight s → ModesRight t)) (hb : Base t) : Mid d' V t where
  words := h.words.change hm hd hw
  aspects := fun hrun hi hwork => by
    obtain ⟨hs, hright⟩ := ha hi hwork
    exact hright (h.aspects (hr ▸ hrun) (fun hdi => hi (hd _ hdi)) hs)
  modes := fun hrun hi hwork => by
    obtain ⟨hs, hright⟩ := hl hi hwork
    exact hright (h.modes (hr ▸ hrun) (fun hdi => hi (hd _ hdi)) hs)
  base := hb

/-- What the invariant reads, memory apart. -/
structure SameTables (s t : State) : Prop where
  occ : t.occ = s.occ
  tags : t.tags = s.tags
  ilk : t.ilk = s.ilk
  pts : t.pts = s.pts
  asp : t.asp = s.asp
  tt : t.tt = s.tt
  vis : t.vis = s.vis
  disp : t.disp = s.disp
  runState : t.exch.runState = s.exch.runState
  reading : t.exch.reading = s.exch.reading
  loads : t.exch.loads = s.exch.loads

theorem SameTables.of_body (h : body t = body s) : SameTables s t := by
  have hread {α : Type} (g : State → α) (hg : ∀ u, g u = g (body u)) : g t = g s := by rw [hg t, hg s, h]
  exact ⟨hread (fun u => u.occ) fun _ => rfl, hread (fun u => u.tags) fun _ => rfl, hread (fun u => u.ilk) fun _ => rfl,
    hread (fun u => u.pts) fun _ => rfl, hread (fun u => u.asp) fun _ => rfl, hread (fun u => u.tt) fun _ => rfl,
    hread (fun u => u.vis) fun _ => rfl, hread (fun u => u.disp) fun _ => rfl, hread (fun u => u.exch.runState) fun _ => rfl,
    hread (fun u => u.exch.reading) fun _ => rfl, hread (fun u => u.exch.loads) fun _ => rfl⟩

theorem SameTables.state (h : SameTables s t) : t = { s with
    exch := t.exch
    clock := t.clock
    free := t.free
    work := t.work
    pending := t.pending } := by
  obtain ⟨h1, h2, h3, h4, h5, h6, h7, h8, -, -, -⟩ := h
  cases s
  cases t
  simp_all

theorem SameTables.running (h : SameTables s t) : t.running = s.running := by unfold State.running; rw [h.runState]

theorem SameTables.word (h : SameTables s t) (i : Item) : i.word V t = i.word V s := by
  have hrun := h.running
  have hstate := h.state
  cases i <;> unfold Item.word <;> rw [hrun] <;> rw [hstate] <;> rfl

theorem SameTables.records (h : SameTables s t) : SameRecords s t :=
  ⟨by rw [h.occ], by rw [h.occ], by rw [h.pts], by rw [h.asp], by rw [h.tt], by rw [h.tt], by rw [h.ilk]⟩

theorem SameTables.base (h : SameTables s t) (hm : t.memOk) (hb : Base s) : Base t := by
  obtain ⟨-, h2, h3, h4, h5, h6, h7, h8, h9, h10⟩ := hb
  have hstate := h.state
  refine ⟨hm, by rw [h.occ]; exact h2, by rw [h.pts]; exact h3, by rw [h.asp]; exact h4, by rw [h.ilk]; exact h5,
    by rw [h.vis]; exact h6, by rw [h.disp]; exact h7, by rw [h.tags, h.runState]; exact h8, ?_, ?_⟩
  · rw [h.runState, h.records.configFault]; exact h9
  · unfold LoadsFit at h10 ⊢; rw [h.runState, h.reading, h.loads]; exact h10

theorem SameTables.aspectsRight (h : SameTables s t) (ha : AspectsRight s) : AspectsRight t := by
  have hstate := h.state
  intro x r hr
  rw [h.asp] at hr ⊢
  rw [ha x r hr, hstate]
  rfl

theorem lampMode_congr (hr : t.running = s.running) {l : Lamp} (h : lampCondition t l.source = lampCondition s l.source) :
    lampMode t l = lampMode s l := by unfold lampMode; rw [hr, h]

theorem SameTables.modesRight (h : SameTables s t) (hl : ModesRight s) : ModesRight t := by
  have hstate := h.state
  intro i l hb
  rw [h.disp] at hb ⊢
  rw [hl i l hb]
  refine (lampMode_congr h.running ?_).symm
  rw [hstate]
  cases l.source <;> rfl

/-- A change outside the tables and the mirrors. -/
protected theorem Mid.same (h : Mid d V s) (ht : SameTables s t) (hm : SameMirrors s t) (hmem : t.memOk)
    (ha : t.work.aspects = false → s.work.aspects = false) (hl : t.work.lamps = false → s.work.lamps = false) : Mid d V t :=
  h.change (fun _ => id) hm ht.runState (fun i _ => ht.word i) (fun _ hw => ⟨ha hw, ht.aspectsRight⟩)
    (fun _ hw => ⟨hl hw, ht.modesRight⟩) (ht.base hmem h.base)

/-- A change of no inside, with the mirrors as they were. -/
protected theorem Mid.of_body (h : Mid d V s) (hb : body t = body s) (hm : SameMirrors s t) (hmem : t.memOk) : Mid d V t := by
  have hwork := work_of_body hb
  exact h.same (.of_body hb) hm hmem (fun hw => by rw [← hwork]; exact hw) fun hw => by rw [← hwork]; exact hw

end Change

end Sys2Proof.ShownMeanwhile
end

