-- ==== Sys2Proof/Proofs/MirrorWrites.lean ====
section
/-! The operations that write memory alone: outside the mirrors they leave what is shown, and a mirror word written afresh is no
longer out of date (O44). -/

namespace Sys2Proof.ShownMeanwhile

open Sys2Proof.Machine Sys2Proof.MirrorItems

/-! ### Memory outside the mirrors -/

section SameMirrors
variable {s : State}

theorem sameMirrors_write8 (a v : Nat) (s : State) (ha : a < 0x100 ∨ 0xD60 ≤ a) : SameMirrors s (s.write8 a v) :=
  fun b hl hh => read8_write8_other a v b s (by omega)

theorem sameMirrors_write16 (a v : Nat) (s : State) (ha : a + 1 < 0x100 ∨ 0xD60 ≤ a) : SameMirrors s (s.write16 a v) :=
  fun b hl hh => read8_write16_other a v b s (by omega)

theorem sameMirrors_write32 (a v : Nat) (s : State) (ha : a + 3 < 0x100 ∨ 0xD60 ≤ a) : SameMirrors s (s.write32 a v) :=
  fun b hl hh => read8_write32_other a v b s (by omega)

theorem sameMirrors_readLevels (s : State) : SameMirrors s (readLevels s) :=
  fun a hl hh => ReportLog.read8_readLevels s a (by omega)

theorem sameMirrors_setMissed (m : BitVec 64) (s : State) : SameMirrors s (setMissed m s) :=
  fun a hl hh => ReportLog.read8_setMissed m s a (by omega)

/-- The pointer moved on, with its header field. -/
theorem sameMirrors_pointer (w : Nat) (s : State) :
    SameMirrors s (evalReports (({ s with exch := { s.exch with w := w } } : State).write16 0x00 w)) :=
  fun b hl _ => read8_write16_other 0x00 w b { s with exch := { s.exch with w := w } } (by omega)

theorem sameMirrors_writeEntry (k : ReportKind) (x v1 v2 : Nat) (s : State) : SameMirrors s (writeEntry k x v1 v2 s) := by
  have ha : 0xD60 ≤ Config.logBase + 16 * (s.exch.w % Config.numLog) := by unfold Config.logBase; omega
  unfold writeEntry
  dsimp only
  generalize Config.logBase + 16 * (s.exch.w % Config.numLog) = a at ha
  generalize fld k.code 8 0 + fld (if k.low then 0 else 1) 8 8 + fld x 16 16 = h
  exact (sameMirrors_write32 a h s (by omega)).trans ((sameMirrors_write32 _ _ _ (by omega)).trans
    ((sameMirrors_write32 _ _ _ (by omega)).trans ((sameMirrors_write32 _ _ _ (by omega)).trans (sameMirrors_pointer _ _))))

theorem sameMirrors_report (k : ReportKind) (x v1 v2 : Nat) (s : State) : SameMirrors s (report k x v1 v2 s) := by
  unfold report
  dsimp only
  split_ifs
  · exact (sameMirrors_readLevels s).trans (sameMirrors_writeEntry _ _ _ _ _)
  · exact (sameMirrors_readLevels s).trans (sameMirrors_setMissed _ _)
  · exact (sameMirrors_readLevels s).trans ((sameMirrors_writeEntry _ _ _ _ _).trans ((sameMirrors_setMissed _ _).trans
      (sameMirrors_writeEntry _ _ _ _ _)))
  · exact (sameMirrors_readLevels s).trans (sameMirrors_setMissed _ _)

theorem sameMirrors_complete (n : Nat) (r : Result) (w0 w1 : Nat) (s : State) : SameMirrors s (complete n r w0 w1 s) :=
  fun a hl hh => RequestIntake.read8_complete n r w0 w1 s a (by unfold inSlot slotAt Config.slotBase; omega)

end SameMirrors

section Writes
variable {d : Item → Prop} {V : Nat → Nat} {s : State}

protected theorem Mid.write8 (h : Mid d V s) (a v : Nat) (ha : a < 0x100 ∨ 0xD60 ≤ a) : Mid d V (s.write8 a v) :=
  h.of_body (body_write8 a v s) (sameMirrors_write8 a v s ha) (memOk_write8 a v s h.base.mem)

protected theorem Mid.write16 (h : Mid d V s) (a v : Nat) (ha : a + 1 < 0x100 ∨ 0xD60 ≤ a) : Mid d V (s.write16 a v) :=
  h.of_body (body_write16 a v s) (sameMirrors_write16 a v s ha) (memOk_write16 a v s h.base.mem)

protected theorem Mid.write32 (h : Mid d V s) (a v : Nat) (ha : a + 3 < 0x100 ∨ 0xD60 ≤ a) : Mid d V (s.write32 a v) :=
  h.of_body (body_write32 a v s) (sameMirrors_write32 a v s ha) (memOk_write32 a v s h.base.mem)

protected theorem Mid.evalStop (h : Mid d V s) : Mid d V (evalStop s) := h.of_body (body_evalStop s) (.of_mem rfl) h.base.mem

protected theorem Mid.report (h : Mid d V s) {k : ReportKind} {x v1 v2 : Nat} : Mid d V (report k x v1 v2 s) :=
  h.of_body (body_report k x v1 v2 s) (sameMirrors_report k x v1 v2 s) ((own_report (Own.refl s) k x v1 v2).mem h.base.mem)

theorem sameTables_complete (n : Nat) (r : Result) (w0 w1 : Nat) (s : State) : SameTables s (complete n r w0 w1 s) :=
  ⟨complete_occ .., complete_tags .., complete_ilk .., complete_pts .., complete_asp .., complete_tt .., complete_vis ..,
    complete_disp .., complete_runState .., complete_reading .., complete_loads ..⟩

/-- A completion changes memory outside the mirrors and the marks. -/
protected theorem Mid.complete (h : Mid d V s) {n : Nat} {r : Result} {w0 w1 : Nat} : Mid d V (complete n r w0 w1 s) := by
  have hsame := sameTables_complete n r w0 w1 s
  have hwork : (Machine.complete n r w0 w1 s).work = s.work := complete_work ..
  exact h.same hsame (sameMirrors_complete n r w0 w1 s) ((own_complete (Own.refl s) n r w0 w1).mem h.base.mem)
    (fun e => hwork ▸ e) fun e => hwork ▸ e

end Writes

/-! ### Mirror words written afresh -/

section Mirrors
variable {d d' : Item → Prop} {V : Nat → Nat} {s : State}

/-- What shows nothing is not out of date. -/
protected theorem Mid.shrink (h : Mid d' V s)
    (hd : ∀ i, d' i → d i ∨ (i.stands → i.word V s = none) ∧ i ≠ .aspects ∧ i ≠ .modes) : Mid d V s where
  words := fun i v hi hstands hv => by
    by_cases hdi : d' i
    · obtain hdd | ⟨hnone, -⟩ := hd i hdi
      · exact absurd hdd hi
      · rw [hnone hstands] at hv; cases hv
    · exact h.words i v hdi hstands hv
  aspects := fun hr hi => h.aspects hr fun hdi => (hd _ hdi).elim hi fun x => x.2.1 rfl
  modes := fun hr hi => h.modes hr fun hdi => (hd _ hdi).elim hi fun x => x.2.2 rfl
  base := h.base

/-- An item that shows nothing need not be set aside. -/
protected theorem Mid.drop {i : Item} (h : Mid (also d i) V s) (hi : i.word V s = none) (ha : i ≠ .aspects) (hl : i ≠ .modes) : Mid d V s :=
  h.shrink fun j hj => hj.imp id fun e => by subst e; exact ⟨fun _ => hi, ha, hl⟩

/-- A mirror word written afresh is no longer set aside. -/
protected theorem Mid.writeWord {i : Item} {v : Nat} (h : Mid (also d i) V s) (ha : i ≠ .aspects) (hl : i ≠ .modes) (hv : v < 2 ^ 32)
    (hw : ∀ w, i.word V s = some w → w = v) : Mid d V (s.writeWord i.mirror.1 i.mirror.2.1 i.mirror.2.2 v) := by
  have hbody := body_writeWord i.mirror.1 i.mirror.2.1 i.mirror.2.2 v s
  have hsame := SameTables.of_body hbody
  have hwork := work_of_body hbody
  have hmem : (s.writeWord i.mirror.1 i.mirror.2.1 i.mirror.2.2 v).memOk := by
    unfold State.writeWord
    split
    · exact memOk_write32 _ _ _ h.base.mem
    · exact h.base.mem
  refine ⟨h.words.writeWord h.base.mem hv hw, fun hr hi hf => ?_, fun hr hi hf => ?_, hsame.base hmem h.base⟩
  · exact hsame.aspectsRight (h.aspects (hsame.runState ▸ hr) (fun x => x.elim hi fun e => ha e.symm) (hwork ▸ hf))
  · exact hsame.modesRight (h.modes (hsame.runState ▸ hr) (fun x => x.elim hi fun e => hl e.symm) (hwork ▸ hf))

/-- The word that an item shows is the one written. -/
theorem word_of_ite {c : Bool} {v : Nat} : ∀ w, (if c = true then some v else Option.none) = some w → w = v := by
  cases c
  · intro w hw; cases hw
  · intro w hw; cases hw; rfl

protected theorem Mid.mirrorSection {n : Nat} (h : Mid (also d (.sec n)) V s) : Mid d V (mirrorSection n s) := by
  unfold Machine.mirrorSection
  split
  · next hf => exact h.drop (by simp only [Item.word, hf, Option.map_none, ite_self]) nofun nofun
  · next r hf =>
    split
    · refine h.writeWord (i := .sec n) nofun nofun (sectionWord_lt s n r) ?_
      simp only [Item.word, hf]
      exact word_of_ite
    · next hr => exact h.drop (by simp only [Item.word, if_neg hr]) nofun nofun

protected theorem Mid.mirrorHead {k : Nat} (h : Mid (also d (.head k)) V s) : Mid d V (mirrorHead k s) := by
  unfold Machine.mirrorHead
  split
  · next hf => exact h.drop (by simp only [Item.word, hf, Option.map_none]) nofun nofun
  · next r hf =>
    refine h.writeWord (i := .head k) nofun nofun (halves_lt _ _) ?_
    simp only [Item.word, hf]
    intro w hw
    cases hw
    rfl

protected theorem Mid.mirrorTag {g : Nat} (h : Mid (also d (.tag g)) V s) : Mid d V (mirrorTag g s) :=
  h.writeWord (i := .tag g) nofun nofun (tagWord_lt _) word_of_ite

protected theorem Mid.mirrorActive {e : Nat} (h : Mid (also d (.active e)) V s) : Mid d V (mirrorActive e s) :=
  h.writeWord (i := .active e) nofun nofun (activeWord_lt _) word_of_ite

protected theorem Mid.mirrorPointNow {p : Nat} (h : Mid (also d (.point p)) V s) : Mid d V (mirrorPointNow p s) := by
  unfold Machine.mirrorPointNow
  split
  · next hf => exact h.drop (by simp only [Item.word, hf, Option.map_none, ite_self]) nofun nofun
  · next r hf =>
    refine h.writeWord (i := .point p) nofun nofun (pointWord_lt s p r) ?_
    simp only [Item.word, hf]
    exact word_of_ite

protected theorem Mid.mirrorPoint {p : Nat} (h : Mid (also d (.point p)) V s) : Mid d V (mirrorPoint p s) := by
  unfold Machine.mirrorPoint
  split
  · exact h.mirrorPointNow
  · next hr => exact h.drop (by simp only [Item.word, if_neg hr]) nofun nofun

protected theorem Mid.mirrorSignalNow {x : Nat} (h : Mid (also d (.signal x)) V s) : Mid d V (mirrorSignalNow x s) := by
  unfold Machine.mirrorSignalNow
  split
  · next r st hr hs =>
    refine h.writeWord (i := .signal x) nofun nofun (signalWord_lt s x r st) ?_
    simp only [Item.word, hr, hs]
    exact word_of_ite
  · next hn =>
    refine h.drop ?_ nofun nofun
    simp only [Item.word]
    split
    · cases hr : Tbl.find s.asp.recs x with
      | none => rfl
      | some r =>
        cases hs : Tbl.find s.asp.state x with
        | none => rfl
        | some st => exact absurd hs (hn r st hr)
    · rfl

protected theorem Mid.mirrorSignal {x : Nat} (h : Mid (also d (.signal x)) V s) : Mid d V (mirrorSignal x s) := by
  unfold Machine.mirrorSignal
  split
  · exact h.mirrorSignalNow
  · next hr => exact h.drop (by simp only [Item.word, if_neg hr]) nofun nofun

protected theorem Mid.mirrorLampWord {w : Nat} (h : Mid (also d (.lamp w)) V s) : Mid d V (mirrorLampWord w s) :=
  h.writeWord (i := .lamp w) nofun nofun (lampWord_lt s w) word_of_ite

/-! ### Whole mirrors -/

/-- The items that a test picks, set aside with the others. -/
def alsoAll (d : Item → Prop) (P : Item → Prop) : Item → Prop := fun j => d j ∨ P j

protected theorem Mid.eachDo {l : List Nat} {f : Nat → State → State} (h : Mid d V s) (hf : ∀ n t, Mid d V t → Mid d V (f n t)) :
    Mid d V (eachDo l f s) := by
  unfold Machine.eachDo
  induction l generalizing s with
  | nil => exact h
  | cons n l ih => exact ih (hf n s h)

/-- Each place of a list written afresh, while something P stands. -/
protected theorem Mid.eachWritten {l : List Nat} {f : Nat → State → State} {place : Nat → Item} {P : State → Prop}
    (h : Mid (alsoAll d fun j => ∃ n ∈ l, j = place n) V s) (hp : P s) (hP : ∀ n t, P t → P (f n t))
    (hf : ∀ d n t, P t → Mid (also d (place n)) V t → Mid d V (f n t)) : Mid d V (Machine.eachDo l f s) := by
  unfold Machine.eachDo
  induction l generalizing s with
  | nil => exact h.mono fun i hi => hi.elim id fun ⟨n, hn, _⟩ => absurd hn List.not_mem_nil
  | cons n l ih =>
    refine ih (hf _ n s hp (h.mono fun i hi => ?_)) (hP n s hp)
    obtain hi | ⟨m, hm, e⟩ := hi
    · exact .inl (.inl hi)
    · rcases List.mem_cons.1 hm with rfl | hm
      · exact .inr e
      · exact .inl (.inr ⟨m, hm, e⟩)

protected theorem Mid.mirrorStackFrom {n k : Nat} (h : Mid (alsoAll d fun j => ∃ i, k ≤ i ∧ i < k + n ∧ j = .stack i) V s) :
    Mid d V (mirrorStackFrom n k s) := by
  induction n generalizing k s with
  | zero => exact h.mono fun i hi => hi.elim id fun ⟨j, h1, h2, _⟩ => by omega
  | succ n ih =>
    have hfirst : Mid (also (alsoAll d fun j => ∃ i, k + 1 ≤ i ∧ i < k + 1 + n ∧ j = .stack i) (.stack k)) V s :=
      h.mono fun i hi => by
        obtain hi | ⟨j, h1, h2, e⟩ := hi
        · exact .inl (.inl hi)
        · rcases Nat.eq_or_lt_of_le h1 with rfl | hlt
          · exact .inr e
          · exact .inl (.inr ⟨j, hlt, by omega, e⟩)
    exact ih (hfirst.writeWord (i := .stack k) nofun nofun (stackWord_lt _) word_of_ite)

/-- The stack mirror rewritten. -/
protected theorem Mid.mirrorStack (h : Mid (alsoAll d fun j => ∃ k, j = .stack k) V s) : Mid d V (mirrorStack s) := by
  refine (h.shrink fun i hi => ?_ : Mid (alsoAll d fun j => ∃ i, 0 ≤ i ∧ i < 0 + Config.numStack ∧ j = .stack i) V s).mirrorStackFrom
  obtain hi | ⟨k, rfl⟩ := hi
  · exact .inl (.inl hi)
  · by_cases hk : k < Config.numStack
    · exact .inl (.inr ⟨k, Nat.zero_le _, by omega, rfl⟩)
    · exact .inr ⟨fun hstands => absurd hstands hk, nofun, nofun⟩

/-- The turntable mirror rewritten with the words that the deck gives. -/
protected theorem Mid.writeTable {word : Nat → Nat} (h : Mid (alsoAll d fun j => ∃ k, j = .table k) V s)
    (hword : ∀ k, word k = tableMirrorWord s k) : Mid d V (writeTable word s) := by
  refine Mid.eachWritten (place := .table) (P := fun t => body t = body s) (h.shrink fun i hi => ?_) rfl
    (fun n t ht => (body_writeWord ..).trans ht) fun d n t ht hd => ?_
  · obtain hi | ⟨k, rfl⟩ := hi
    · exact .inl (.inl hi)
    · by_cases hk : k < 16
      · exact .inl (.inr ⟨k, List.mem_range.2 hk, rfl⟩)
      · exact .inr ⟨fun hstands => absurd hstands hk, nofun, nofun⟩
  · have he : tableMirrorWord t n = word n := by
      have g := congrArg (fun u => tableMirrorWord u n) ht
      exact (g : tableMirrorWord t n = tableMirrorWord s n).trans (hword n).symm
    refine hd.writeWord (i := .table n) nofun nofun (he ▸ tableMirrorWord_lt t n) ?_
    rw [← he]
    exact word_of_ite

protected theorem Mid.mirrorTable (h : Mid (alsoAll d fun j => ∃ k, j = .table k) V s) : Mid d V (mirrorTable s) := by
  unfold Machine.mirrorTable
  split
  · next hd => exact h.writeTable fun k => by unfold tableMirrorWord; rw [hd]
  · next x hd => exact h.writeTable fun k => by unfold tableMirrorWord; rw [hd]

end Mirrors

end Sys2Proof.ShownMeanwhile
end

