-- ==== Sys2Proof/Proofs/BlockChanges.lean ====
section
/-! A block changed: what is out of date after it, and what else stands (O44). -/

namespace Sys2Proof.ShownMeanwhile

open Sys2Proof.Machine Sys2Proof.MirrorItems

/-! ### What each word reads -/

section Words
variable {V : Nat → Nat} {s t : State}

theorem sectionWord_congr {n : Nat} {r : SectionRec} (ho : occOf t n = occOf s n) (hl : detLevel t r = detLevel s r)
    (ht : tagOf t n = tagOf s n) (hk : lockOf t n = lockOf s n) : sectionWord t n r = sectionWord s n r := by
  unfold sectionWord; rw [ho, hl, ht, hk]

theorem pointWord_congr {p : Nat} {r : PointRec} (hl : detLie t p = detLie s p) (hc : pointContacts t r = pointContacts s r)
    (ho : orderOf t p = orderOf s p) (hh : holdersOf t p = holdersOf s p) : pointWord t p r = pointWord s p r := by
  unfold pointWord; rw [hl, hc, ho, hh]

/-- The route at a signal, by its number. -/
def routeAt (s : State) (x : Nat) : Option Nat := (entryAt s x).map fun y => y.2.route

theorem signalWord_eq (s : State) (x : Nat) (r : SignalRec) (st : SignalState) : signalWord s x r st = fld r.kind.code 3 0
    + fld st.aspect.code 3 3 + bit (routeAt s x).isSome 6 + fld st.overruns 8 8 + fld ((routeAt s x).getD 0) 9 16 := by
  have h : (routeAt s x).isSome = (entryAt s x).isSome := Option.isSome_map
  rw [h]
  rfl

theorem signalWord_congr {x : Nat} {r : SignalRec} {st : SignalState} (he : routeAt t x = routeAt s x) :
    signalWord t x r st = signalWord s x r st := by rw [signalWord_eq t, signalWord_eq s, he]

/-- A word that a loaded record gives in RUNNING. -/
theorem word_loaded {α : Type} {c c' : Bool} {x y : Option α} {f g : α → Nat} (hc : c = c') (hx : x = y)
    (h : ∀ r, y = some r → f r = g r) : (if c then x.map f else none) = if c' then y.map g else none := by
  subst hc
  subst hx
  cases x with
  | none => rfl
  | some r => rw [Option.map_some, Option.map_some, h r rfl]

theorem word_sec {n : Nat} (hr : t.running = s.running) (hrec : Tbl.find t.occ.recs n = Tbl.find s.occ.recs n)
    (h : ∀ r, Tbl.find s.occ.recs n = some r → sectionWord t n r = sectionWord s n r) :
    Item.word V t (.sec n) = Item.word V s (.sec n) := word_loaded hr hrec h

theorem word_point {p : Nat} (hr : t.running = s.running) (hrec : Tbl.find t.pts.recs p = Tbl.find s.pts.recs p)
    (h : ∀ r, Tbl.find s.pts.recs p = some r → pointWord t p r = pointWord s p r) :
    Item.word V t (.point p) = Item.word V s (.point p) := word_loaded hr hrec h

theorem word_signal {x : Nat} (hr : t.running = s.running) (hrec : Tbl.find t.asp.recs x = Tbl.find s.asp.recs x)
    (hst : Tbl.find t.asp.state x = Tbl.find s.asp.state x) (h : routeAt t x = routeAt s x) :
    Item.word V t (.signal x) = Item.word V s (.signal x) := by
  have hw : signalWord t x = signalWord s x := by funext r st; exact signalWord_congr h
  have form (u : State) : Item.word V u (.signal x)
      = if u.running then (Tbl.find u.asp.recs x).bind fun r => (Tbl.find u.asp.state x).map (signalWord u x r) else none := rfl
  rw [form t, form s, hr, hrec, hst, hw]

end Words

/-! ### What aspects and modes read -/

section Rights
variable {s t : State}

theorem setRouteAt_congr (ha : t.ilk.active = s.ilk.active) (hr : t.ilk.routes = s.ilk.routes) (x : Nat) :
    setRouteAt t x = setRouteAt s x := by unfold setRouteAt entryAt; rw [ha, hr]

theorem mainAspect_congr (hc : t.asp.cond = s.asp.cond) (h : ∀ x, setRouteAt t x = setRouteAt s x) (x : Nat) (k : SignalKind) :
    mainAspect t x k = mainAspect s x k := by
  unfold mainAspect
  rw [hc, h x, show setRouteAt t = setRouteAt s from funext h]

theorem aspectOf_congr (hrecs : t.asp.recs = s.asp.recs) (hc : t.asp.cond = s.asp.cond) (h : ∀ x, setRouteAt t x = setRouteAt s x)
    (x : Nat) (r : SignalRec) : aspectOf t x r = aspectOf s x r := by
  unfold aspectOf
  rw [hrecs]
  simp only [mainAspect_congr hc h]

theorem AspectsRight.congr (hx : AspectsRight s) (hrecs : t.asp.recs = s.asp.recs) (hc : t.asp.cond = s.asp.cond)
    (hst : ∀ x, (Tbl.find t.asp.state x).map SignalState.aspect = (Tbl.find s.asp.state x).map SignalState.aspect)
    (h : ∀ x, setRouteAt t x = setRouteAt s x) : AspectsRight t := fun x r hr => by
  rw [hrecs] at hr
  rw [hst, hx x r hr, aspectOf_congr hrecs hc h]

/-- The aspect unit and the routes are as they were. -/
theorem AspectsRight.same (hx : AspectsRight s) (hasp : t.asp = s.asp) (ha : t.ilk.active = s.ilk.active)
    (hr : t.ilk.routes = s.ilk.routes) : AspectsRight t :=
  hx.congr (by rw [hasp]) (by rw [hasp]) (fun x => by rw [hasp]) (setRouteAt_congr ha hr)

theorem ModesRight.same (hx : ModesRight s) (hb : t.disp.bind = s.disp.bind) (hs : t.disp.shown = s.disp.shown)
    (hr : t.running = s.running) (h : ∀ x, lampCondition t x = lampCondition s x) : ModesRight t := fun i l hl => by
  rw [hb] at hl
  rw [hs, hx i l hl, lampMode_congr hr (h l.source)]

end Rights

/-! ### The tables after a change of one block -/

section Tables
variable {s t : State}

theorem Base.keep (hb : Base s) (hm : t.memOk) (hr : t.exch.runState = s.exch.runState) (hread : t.exch.reading = s.exch.reading)
    (hloads : t.exch.loads = s.exch.loads) (hrec : s.exch.runState = .running → SameRecords s t) (ho : OccFit t.occ) (hp : PtsFit t.pts)
    (ha : AspFit t.asp) (hactive : Tbl.sorted t.ilk.active = true) (hv : VisFit t.vis) (hd : DispFit t.disp)
    (ht : s.exch.runState ≠ .running → s.tags.fields = [] → t.tags.fields = []) : Base t where
  mem := hm
  occ := ho
  pts := hp
  asp := ha
  active := hactive
  vis := hv
  disp := hd
  tags := fun hne => ht (hr ▸ hne) (hb.tags (hr ▸ hne))
  config := fun hrun => ((hrec (hr ▸ hrun)).configFault).trans (hb.config (hr ▸ hrun))
  loads := fun hrun => by
    have h := hb.loads (hr ▸ hrun)
    unfold LoadsFit at h ⊢
    rw [hread, hloads]
    exact h

theorem Base.ilk {x : Interlocking} {w : Work} (hb : Base s) (hr : x.routes = s.ilk.routes) (hx : Tbl.sorted x.active = true) :
    Base { s with ilk := x, work := w } :=
  hb.keep hb.mem rfl rfl rfl (fun _ => ⟨rfl, rfl, rfl, rfl, rfl, rfl, hr⟩) hb.occ hb.pts hb.asp hx hb.vis hb.disp fun _ => id

theorem Base.pts' {x : PointUnit} {w : Work} (hb : Base s) (hr : x.recs = s.pts.recs) (hx : PtsFit x) :
    Base { s with pts := x, work := w } :=
  hb.keep hb.mem rfl rfl rfl (fun _ => ⟨rfl, rfl, hr, rfl, rfl, rfl, rfl⟩) hb.occ hx hb.asp hb.active hb.vis hb.disp fun _ => id

theorem Base.asp' {x : AspectUnit} {w : Work} (hb : Base s) (hr : x.recs = s.asp.recs) (hx : AspFit x) :
    Base { s with asp := x, work := w } :=
  hb.keep hb.mem rfl rfl rfl (fun _ => ⟨rfl, rfl, rfl, hr, rfl, rfl, rfl⟩) hb.occ hb.pts hx hb.active hb.vis hb.disp fun _ => id

theorem Base.tt {x : Turntable} {w : Work} (hb : Base s)
    (hr : s.exch.runState = .running → x.deck = s.tt.deck ∧ x.roads = s.tt.roads) : Base { s with tt := x, work := w } :=
  hb.keep hb.mem rfl rfl rfl (fun h => ⟨rfl, rfl, rfl, rfl, (hr h).1, (hr h).2, rfl⟩) hb.occ hb.pts hb.asp hb.active hb.vis hb.disp
    fun _ => id

theorem Base.vis' {x : VisitorUnit} {w : Work} (hb : Base s) (hx : VisFit x) : Base { s with vis := x, work := w } :=
  hb.keep hb.mem rfl rfl rfl (fun _ => ⟨rfl, rfl, rfl, rfl, rfl, rfl, rfl⟩) hb.occ hb.pts hb.asp hb.active hx hb.disp fun _ => id

theorem Base.disp' {x : Display} {w : Work} (hb : Base s) (hx : DispFit x) : Base { s with disp := x, work := w } :=
  hb.keep hb.mem rfl rfl rfl (fun _ => ⟨rfl, rfl, rfl, rfl, rfl, rfl, rfl⟩) hb.occ hb.pts hb.asp hb.active hb.vis hx fun _ => id

theorem Base.occ' {x : OccUnit} (hb : Base s) (hr : x.recs = s.occ.recs) (hh : x.heads = s.occ.heads) (hx : OccFit x) :
    Base { s with occ := x } :=
  hb.keep hb.mem rfl rfl rfl (fun _ => ⟨hr, hh, rfl, rfl, rfl, rfl, rfl⟩) hx hb.pts hb.asp hb.active hb.vis hb.disp fun _ => id

theorem Base.tags' {x : TagUnit} {w : Work} (hb : Base s)
    (hx : s.exch.runState ≠ .running → s.tags.fields = [] → x.fields = []) : Base { s with tags := x, work := w } :=
  hb.keep hb.mem rfl rfl rfl (fun _ => ⟨rfl, rfl, rfl, rfl, rfl, rfl, rfl⟩) hb.occ hb.pts hb.asp hb.active hb.vis hb.disp hx

end Tables

/-! ### Asking for work -/

section Work
variable {d : Item → Prop} {V : Nat → Nat} {s : State}

/-- Work asked for: nothing that was asked for is forgotten. -/
protected theorem Mid.work (h : Mid d V s) {w : Work} (ha : w.aspects = false → s.work.aspects = false)
    (hl : w.lamps = false → s.work.lamps = false) : Mid d V { s with work := w } :=
  h.same ⟨rfl, rfl, rfl, rfl, rfl, rfl, rfl, rfl, rfl, rfl, rfl⟩ (.of_mem rfl) h.base.mem ha hl

protected theorem Mid.wantPass (h : Mid d V s) : Mid d V (wantPass s) := h.work id id

protected theorem Mid.wantReexam (h : Mid d V s) : Mid d V (wantReexam s) := h.work id id

/-- The aspects asked for are no longer out of date. -/
protected theorem Mid.wantAspects (h : Mid (also d .aspects) V s) : Mid d V (wantAspects s) where
  words := fun i v hi hs hv => by
    refine h.words i v (fun x => x.elim hi fun e => ?_) hs ((word_withWork i).symm.trans hv)
    subst e
    cases hv
  aspects := fun _ _ hf => nomatch hf
  modes := fun hr hi => (h.work (w := { s.work with aspects := true }) nofun id).modes hr fun x => x.elim hi nofun
  base := (h.work (w := { s.work with aspects := true }) nofun id).base
where
  word_withWork (i : Item) : i.word V (Machine.wantAspects s) = i.word V s := by cases i <;> rfl

/-- The lamps asked for are no longer out of date. -/
protected theorem Mid.wantLamps (h : Mid (also d .modes) V s) {w : Work} (ha : w.aspects = false → s.work.aspects = false)
    (hl : w.lamps = true) : Mid d V { s with work := w } where
  words := fun i v hi hs hv => by
    refine h.words i v (fun x => x.elim hi fun e => ?_) hs ((word_withWork i).symm.trans hv)
    subst e
    cases hv
  aspects := fun hr hi => (h.work (w := w) ha fun hf => by rw [hl] at hf; cases hf).aspects hr fun x => x.elim hi nofun
  modes := fun _ _ hf => by rw [hl] at hf; cases hf
  base := (h.work (w := w) ha fun hf => by rw [hl] at hf; cases hf).base
where
  word_withWork (i : Item) : i.word V { s with work := w } = i.word V s := by cases i <;> rfl

end Work

end Sys2Proof.ShownMeanwhile
end

