-- ==== Sys2Proof/Proofs/RouteChanges.lean ====
section
/-! The interlocking's and the point controller's own tables changed, with their mirror words (O44). -/

namespace Sys2Proof.ShownMeanwhile

open Sys2Proof.Machine Sys2Proof.MirrorItems

/-! ### Tables -/

/-- A search after an entry of a sorted table is set again to one that the test takes for the same. -/
theorem find?_insert {α : Type} {l : Tbl α} {e : Nat} {a b : α} (hs : Tbl.sorted l = true) (hf : Tbl.find l e = some b)
    {P : Nat × α → Bool} (hP : P (e, a) = P (e, b)) :
    (Tbl.insert l e a).find? P = (l.find? P).map fun y => if y.1 = e then (e, a) else y := by
  induction l with
  | nil => cases hf
  | cons x l ih =>
    obtain ⟨k, w⟩ := x
    obtain ⟨hlt, hsl⟩ := (Tbl.sorted_cons_iff k w l).1 hs
    by_cases he : e = k
    · subst he
      have hw : w = b := by simpa [Tbl.find] using hf
      subst hw
      rw [show Tbl.insert ((e, w) :: l) e a = (e, a) :: l by simp [Tbl.insert]]
      cases hPa : P (e, a) with
      | true => rw [List.find?_cons_of_pos hPa, List.find?_cons_of_pos (hP ▸ hPa)]; simp
      | false =>
        rw [List.find?_cons_of_neg (by simp [hPa]), List.find?_cons_of_neg (by simp [← hP, hPa])]
        cases hl : l.find? P with
        | none => rfl
        | some y =>
          have hy : y.1 ≠ e := (hlt y (List.mem_of_find?_eq_some hl)).ne'
          rw [Option.map_some, if_neg hy]
    · have hfl : Tbl.find l e = some b := by simpa [Tbl.find, he] using hf
      have hle : ¬ e < k := fun h => by rw [Tbl.find_of_lt l k w hs e (by omega)] at hfl; cases hfl
      rw [show Tbl.insert ((k, w) :: l) e a = (k, w) :: Tbl.insert l e a by simp [Tbl.insert, he, hle]]
      cases hPk : P (k, w) with
      | true => rw [List.find?_cons_of_pos hPk, List.find?_cons_of_pos hPk, Option.map_some, if_neg (Ne.symm he)]
      | false => rw [List.find?_cons_of_neg (by simp [hPk]), List.find?_cons_of_neg (by simp [hPk]), ih hsl hfl]

/-- A search after an entry that the test does not take is set where there was none. -/
theorem find?_insert_new {α : Type} {l : Tbl α} {e : Nat} {a : α} (hf : Tbl.find l e = none) {P : Nat × α → Bool}
    (hP : P (e, a) = false) : (Tbl.insert l e a).find? P = l.find? P := by
  induction l with
  | nil => simp [Tbl.insert, hP]
  | cons x l ih =>
    obtain ⟨k, w⟩ := x
    have he : e ≠ k := fun h => by simp [Tbl.find, h] at hf
    have hfl : Tbl.find l e = none := by simpa [Tbl.find, he] using hf
    unfold Tbl.insert
    rw [if_neg he]
    split
    · rw [List.find?_cons_of_neg (by simp [hP])]
    · cases hPk : P (k, w) with
      | true => rw [List.find?_cons_of_pos hPk, List.find?_cons_of_pos hPk]
      | false => rw [List.find?_cons_of_neg (by simp [hPk]), List.find?_cons_of_neg (by simp [hPk]), ih hfl]

/-- A search after an entry that the test does not take is removed. -/
theorem find?_erase {α : Type} {l : Tbl α} {e : Nat} {P : Nat × α → Bool} (hP : ∀ b, Tbl.find l e = some b → P (e, b) = false) :
    (Tbl.erase l e).find? P = l.find? P := by
  induction l with
  | nil => rfl
  | cons x l ih =>
    obtain ⟨k, w⟩ := x
    unfold Tbl.erase
    split
    · next he =>
      subst he
      rw [List.find?_cons_of_neg (by simp [hP w (by simp [Tbl.find])])]
    · next he =>
      have ih := ih fun b hb => hP b (by simp [Tbl.find, he, hb])
      cases hPk : P (k, w) with
      | true => rw [List.find?_cons_of_pos hPk, List.find?_cons_of_pos hPk]
      | false => rw [List.find?_cons_of_neg (by simp [hPk]), List.find?_cons_of_neg (by simp [hPk]), ih]

/-! ### The active route table -/

section Active
variable {d d' : Item → Prop} {V : Nat → Nat} {s : State}

/-- An active entry's route begins at a signal. -/
def beginsAt (routes : Tbl RouteRec) (x : Nat) (y : Nat × Active) : Bool :=
  match Tbl.find routes y.2.route with
  | some r => r.entry == x
  | none => false

theorem entryAt_eq (s : State) (x : Nat) : entryAt s x = s.ilk.active.find? (beginsAt s.ilk.routes x) := rfl

theorem beginsAt_route {routes : Tbl RouteRec} {x : Nat} {y z : Nat × Active} (h : y.2.route = z.2.route) :
    beginsAt routes x y = beginsAt routes x z := by unfold beginsAt; rw [h]

/-- The active route table changed. -/
protected theorem Mid.active (h : Mid d V s) {l : Tbl Active} (hs : Tbl.sorted l = true) (hd : ∀ i, d i → d' i)
    (hact : ∀ e, ¬ d' (.active e) → activeWord (Tbl.find l e) = activeWord (Tbl.find s.ilk.active e))
    (hroute : ∀ x, ¬ d' (.signal x) →
      (l.find? (beginsAt s.ilk.routes x)).map (fun y => y.2.route) = routeAt s x)
    (hasp : ¬ d' .aspects → s.work.aspects = false →
      ∀ x, setRouteAt { s with ilk := { s.ilk with active := l } } x = setRouteAt s x) :
    Mid d' V { s with ilk := { s.ilk with active := l } } := by
  refine h.change (t := { s with ilk := { s.ilk with active := l } }) hd (.of_mem rfl) rfl (fun i hi => ?_)
    (fun hi hf => ⟨hf, fun hx => hx.congr rfl rfl (fun _ => rfl) (hasp hi hf)⟩)
    (fun _ hf => ⟨hf, fun hx => hx.same rfl rfl rfl fun c => by cases c <;> rfl⟩) (h.base.ilk (w := s.work) rfl hs)
  cases i with
  | active e =>
    have form (u : State) : Item.word V u (.active e) = if u.running then some (activeWord (Tbl.find u.ilk.active e)) else none := rfl
    rw [form, form]
    exact if_congr Iff.rfl (congrArg some (hact e hi)) rfl
  | signal x => exact word_signal rfl rfl rfl (hroute x hi)
  | _ => rfl

/-- An entry set to one of the same route: the aspects stand where neither is SET or both are, or where they are asked for. -/
protected theorem Mid.entry (h : Mid d V s) {e : Nat} {a b : Active} (hf : Tbl.find s.ilk.active e = some b) (hr : a.route = b.route)
    (hset : (a.state = .set ↔ b.state = .set) ∨ s.work.aspects = true ∨ d .aspects) (hd : ∀ i, d i → d' i)
    (hw : d' (.active e) ∨ activeWord (some a) = activeWord (some b)) : Mid d' V (putActive e a s) := by
  have hs := h.base.active
  have hfind (x : Nat) : (Tbl.insert s.ilk.active e a).find? (beginsAt s.ilk.routes x)
      = (entryAt s x).map fun y => if y.1 = e then (e, a) else y := find?_insert hs hf (beginsAt_route hr)
  have hentry {x : Nat} {y : Nat × Active} (hy : entryAt s x = some y) (he : y.1 = e) : y.2 = b := by
    have hm := TrackRequests.find_of_mem hs (List.mem_of_find?_eq_some hy)
    rw [he, hf] at hm
    exact (Option.some.inj hm).symm
  refine h.active (Tbl.sorted_insert _ _ _ hs) hd (fun m hm => ?_) (fun x _ => ?_) fun hi hw x => ?_
  · by_cases he : m = e
    · subst he
      rw [Tbl.find_insert_self, hf]
      exact hw.resolve_left hm
    · rw [Tbl.find_insert_other _ _ _ _ he]
  · rw [hfind]
    unfold routeAt
    cases hy : entryAt s x with
    | none => rfl
    | some y =>
      rw [Option.map_some, Option.map_some, Option.map_some]
      split
      · next he => rw [hentry hy he, ← hr]
      · rfl
  · obtain hset | hset | hset := hset
    · unfold setRouteAt
      rw [entryAt_eq, show ({ s with ilk := { s.ilk with active := Tbl.insert s.ilk.active e a } } : State).ilk.active.find?
        (beginsAt s.ilk.routes x) = _ from hfind x]
      cases hy : entryAt s x with
      | none => rfl
      | some y =>
        rw [Option.map_some]
        obtain ⟨k, c⟩ := y
        by_cases he : k = e
        · have hc : c = b := hentry hy he
          subst hc
          simp only [if_pos he]
          rw [hr]
          exact if_congr hset rfl rfl
        · simp only [if_neg he]
    · rw [hset] at hw; cases hw
    · exact absurd (hd _ hset) hi

protected theorem Mid.putActive (h : Mid d V s) {e : Nat} {a b : Active} (hf : Tbl.find s.ilk.active e = some b)
    (hr : a.route = b.route) (hset : (a.state = .set ↔ b.state = .set) ∨ s.work.aspects = true ∨ d .aspects) :
    Mid (also d (.active e)) V (putActive e a s) := h.entry hf hr hset (fun _ => .inl) (.inl (.inr rfl))

/-- An entry set to one of the same route, with its mirror word. -/
protected theorem Mid.setActive (h : Mid d V s) {e : Nat} {a b : Active} (hf : Tbl.find s.ilk.active e = some b)
    (hr : a.route = b.route) (hset : (a.state = .set ↔ b.state = .set) ∨ s.work.aspects = true ∨ d .aspects) :
    Mid d V (setActive e a s) := (h.putActive hf hr hset).mirrorActive

/-- A new entry of a route that no SET route shares its entry signal with. -/
protected theorem Mid.putActiveNew (h : Mid d V s) {e : Nat} {a : Active} {r : RouteRec} (hf : Tbl.find s.ilk.active e = none)
    (hr : Tbl.find s.ilk.routes a.route = some r) (hstate : a.state ≠ .set) (hentry : entryAt s r.entry = none) :
    Mid (also (also d (.active e)) (.signal r.entry)) V (putActive e a s) := by
  have hfind {x : Nat} (hx : x ≠ r.entry) : (Tbl.insert s.ilk.active e a).find? (beginsAt s.ilk.routes x) = entryAt s x :=
    find?_insert_new hf (by unfold beginsAt; rw [hr]; simpa using Ne.symm hx)
  refine h.active (Tbl.sorted_insert _ _ _ h.base.active) (fun _ hi => .inl (.inl hi)) (fun m hm => ?_) (fun x hx => ?_)
    fun _ _ x => ?_
  · rw [Tbl.find_insert_other _ _ _ _ fun he : m = e => hm (.inl (.inr (congrArg Item.active he)))]
  · rw [hfind fun he => hx (.inr (he ▸ rfl))]
    rfl
  · unfold setRouteAt
    rw [entryAt_eq]
    by_cases hx : x = r.entry
    · subst hx
      rw [hentry]
      cases hy : (Tbl.insert s.ilk.active e a).find? (beginsAt s.ilk.routes r.entry) with
      | none => rfl
      | some y =>
        have hya : y = (e, a) := by
          rcases Tbl.mem_insert (List.mem_of_find?_eq_some hy) with hya | hmem
          · exact hya
          · have hno : ¬ beginsAt s.ilk.routes r.entry y = true := List.find?_eq_none.1 hentry y hmem
            exact absurd (List.find?_some hy) hno
        subst hya
        simp only [if_neg hstate]
    · simp only [hfind hx]

/-- An entry taken from the table. -/
protected theorem Mid.eraseActive (h : Mid d V s) {e : Nat} {a : Active} (hf : Tbl.find s.ilk.active e = some a) {l : List Nat}
    (hl : ∀ r, Tbl.find s.ilk.routes a.route = some r → r.entry ∈ l) :
    Mid (also (alsoAll (also d .aspects) fun i => ∃ x ∈ l, i = .signal x) (.active e)) V
      { s with ilk := { s.ilk with active := Tbl.erase s.ilk.active e } } := by
  refine h.active (Tbl.sorted_erase _ _ h.base.active) (fun _ hi => .inl (.inl (.inl hi))) (fun m hm => ?_) (fun x hx => ?_)
    fun hi => absurd (.inl (.inl (.inr rfl))) hi
  · rw [Tbl.find_erase_other _ _ _ fun he : m = e => hm (.inr (congrArg Item.active he))]
  · rw [find?_erase]
    · rfl
    · intro b hb
      cases hb.symm.trans hf
      unfold beginsAt
      cases hr : Tbl.find s.ilk.routes a.route with
      | none => rfl
      | some r => exact beq_eq_false_iff_ne.2 fun he => hx (.inl (.inr ⟨r.entry, hl r hr, he ▸ rfl⟩))

end Active

/-! ### Locks, the stack -/

section Interlocking
variable {d : Item → Prop} {V : Nat → Nat} {s : State}

protected theorem Mid.locks (h : Mid d V s) {n : Nat} {l : Tbl Nat} (hl : ∀ m, m ≠ n → Tbl.find l m = Tbl.find s.ilk.locks m) :
    Mid (also d (.sec n)) V { s with ilk := { s.ilk with locks := l }, work := { s.work with lamps := true } } := by
  refine h.change (t := { s with ilk := { s.ilk with locks := l }, work := { s.work with lamps := true } }) (fun _ => .inl) (.of_mem rfl)
    rfl (fun i hi => ?_) (fun _ hf => ⟨hf, fun hx => hx.same rfl rfl rfl⟩) (fun _ hf => nomatch hf) (h.base.ilk rfl h.base.active)
  cases i with
  | sec m => exact word_sec rfl rfl fun r _ => sectionWord_congr rfl rfl rfl (hl m fun he => hi (.inr (congrArg Item.sec he)))
  | _ => rfl

/-- A lock set or given up, with its section's mirror word. -/
protected theorem Mid.setLock (h : Mid d V s) {n : Nat} {r : Option Nat} : Mid d V (setLock n r s) := by
  cases r with
  | none => exact (h.locks (l := Tbl.erase s.ilk.locks n) fun m hm => Tbl.find_erase_other _ _ _ hm).wantReexam.mirrorSection
  | some k => exact (h.locks (l := Tbl.insert s.ilk.locks n k) fun m hm => Tbl.find_insert_other _ _ _ _ hm).mirrorSection

/-- The stack set, with its mirror. -/
protected theorem Mid.setStack (h : Mid d V s) {l : List StackEntry} : Mid d V (setStack l s) := by
  refine Mid.mirrorStack (h.change (t := { s with ilk := { s.ilk with stack := l } }) (fun _ => .inl) (.of_mem rfl) rfl (fun i hi => ?_)
    (fun _ hf => ⟨hf, fun hx => hx.same rfl rfl rfl⟩) (fun _ hf => ⟨hf, fun hx => hx.same rfl rfl rfl fun c => by cases c <;> rfl⟩)
    (h.base.ilk (w := s.work) rfl h.base.active))
  cases i with
  | stack k => exact absurd (.inr ⟨k, rfl⟩) hi
  | _ => rfl

/-- A holder list put. -/
protected theorem Mid.holders (h : Mid d V s) {p : Nat} {x : Holders} :
    Mid (also d (.point p)) V { s with ilk := { s.ilk with holders := Tbl.put Holders.none s.ilk.holders p x } } := by
  refine h.change (t := { s with ilk := { s.ilk with holders := Tbl.put Holders.none s.ilk.holders p x } }) (fun _ => .inl) (.of_mem rfl)
    rfl (fun i hi => ?_) (fun _ hf => ⟨hf, fun hx => hx.same rfl rfl rfl⟩)
    (fun _ hf => ⟨hf, fun hx => hx.same rfl rfl rfl fun c => by cases c <;> rfl⟩) (h.base.ilk (w := s.work) rfl h.base.active)
  cases i with
  | point q =>
    exact word_point rfl rfl fun r _ => pointWord_congr rfl rfl rfl
      (TrackDetection.getD_put_other _ _ _ fun he => hi (.inr (congrArg Item.point he)))
  | _ => rfl

end Interlocking

/-! ### Points -/

section Points
variable {d d' : Item → Prop} {V : Nat → Nat} {s : State}

theorem PtsFit.modify {x : PointUnit} (h : PtsFit x) (p : Nat) (f : PointState → PointState) :
    PtsFit { x with state := Tbl.modify x.state p f } where
  recs := h.recs
  contacts := h.contacts
  state := fun n r hr => by
    obtain ⟨hn, st, hst⟩ := h.state n r hr
    refine ⟨hn, ?_⟩
    simp only [RouteRelease.find_modify]
    split
    · next he => exact ⟨f st, by rw [← he, hst]; rfl⟩
    · exact ⟨st, hst⟩

theorem PtsFit.rest {x y : PointUnit} (h : PtsFit x) (h1 : y.recs = x.recs) (h2 : y.contacts = x.contacts) (h3 : y.state = x.state) :
    PtsFit y := ⟨by rw [h1]; exact h.recs, by rw [h2]; exact h.contacts, by rw [h1, h3]; exact h.state⟩

theorem lampCondition_pointLie (s : State) (p : Nat) (l : DetLie) :
    lampCondition s (.pointLie p l) = ((Tbl.find s.pts.state p).map PointState.lie).any (· == l) := by
  unfold lampCondition
  dsimp only
  cases Tbl.find s.pts.state p <;> rfl

/-- The point controller changed. -/
protected theorem Mid.points (h : Mid d V s) {x : PointUnit} {w : Work} (hrec : x.recs = s.pts.recs) (hx : PtsFit x)
    (hd : ∀ i, d i → d' i)
    (hp : ∀ p, ¬ d' (.point p) → ∀ r, pointWord { s with pts := x, work := w } p r = pointWord s p r)
    (ha : w.aspects = false → s.work.aspects = false)
    (hl : ¬ d' .modes → w.lamps = false → s.work.lamps = false ∧
      ∀ p, (Tbl.find x.state p).map PointState.lie = (Tbl.find s.pts.state p).map PointState.lie) :
    Mid d' V { s with pts := x, work := w } := by
  refine h.change (t := { s with pts := x, work := w }) hd (.of_mem rfl) rfl (fun i hi => ?_)
    (fun _ hf => ⟨ha hf, fun hx => hx.same rfl rfl rfl⟩)
    (fun hi hf => ⟨(hl hi hf).1, fun hm => hm.same rfl rfl rfl fun c => ?_⟩) (h.base.pts' hrec hx)
  · cases i with
    | point p => exact word_point rfl (by rw [hrec]) fun r _ => hp p hi r
    | _ => rfl
  · cases c with
    | pointLie p l =>
      rw [lampCondition_pointLie, lampCondition_pointLie]
      exact congrArg (Option.any (· == l)) ((hl hi hf).2 p)
    | _ => rfl

/-- The point controller's fields that nothing shows changed. -/
protected theorem Mid.pointsRest (h : Mid d V s) {x : PointUnit} (h1 : x.recs = s.pts.recs) (h2 : x.contacts = s.pts.contacts)
    (h3 : x.state = s.pts.state) (h4 : x.queue = s.pts.queue) (h5 : x.overflow = s.pts.overflow) : Mid d V { s with pts := x } :=
  h.points (w := s.work) h1 (h.base.pts.rest h1 h2 h3) (fun _ => id)
    (fun p _ r => pointWord_congr (by unfold detLie; rw [h3]) (by unfold pointContacts contactLevel; rw [h2])
      (by unfold Machine.orderOf; rw [h4, h5]) rfl) id fun _ hf => ⟨hf, fun p => by rw [h3]⟩

theorem lie_modify {x : PointUnit} {p : Nat} {f : PointState → PointState} (hf : ∀ st, (f st).lie = st.lie) (q : Nat) :
    (Tbl.find (Tbl.modify x.state p f) q).map PointState.lie = (Tbl.find x.state q).map PointState.lie := by
  rw [RouteRelease.find_modify]
  split
  · next he => rw [he, Option.map_map]; exact congrArg (fun g => (Tbl.find x.state p).map g) (funext hf)
  · rfl

theorem detLie_of_map {s t : State} {q : Nat}
    (h : (Tbl.find t.pts.state q).map PointState.lie = (Tbl.find s.pts.state q).map PointState.lie) : detLie t q = detLie s q := by
  have form (u : State) : detLie u q = ((Tbl.find u.pts.state q).map PointState.lie).getD .lost := by
    unfold detLie; cases Tbl.find u.pts.state q <;> rfl
  rw [form, form, h]

/-- A point's loss timer, which nothing shows. -/
protected theorem Mid.updateLoss (h : Mid d V s) {p : Nat} : Mid d V (updateLoss p s) := by
  have hlie := lie_modify (x := s.pts) (p := p)
    (f := fun st => { st with loss := if lossHolds s p then some (st.loss.getD s.pts.window) else none }) fun _ => rfl
  exact h.points (w := s.work) rfl (h.base.pts.modify p _) (fun _ => id)
    (fun q _ r => pointWord_congr (detLie_of_map (hlie q)) rfl rfl rfl) id fun _ hf => ⟨hf, hlie⟩

/-- A point touched shows its word afresh. -/
protected theorem Mid.touchPoint (h : Mid (also d (.point p)) V s) : Mid d V (touchPoint p s) := h.updateLoss.mirrorPoint

protected theorem Mid.setHolders (h : Mid d V s) {p : Nat} {x : Holders} : Mid d V (setHolders p x s) := h.holders.touchPoint

protected theorem Mid.addHolder (h : Mid d V s) {p r : Nat} {l : Lie} : Mid d V (addHolder p l r s) := h.setHolders

protected theorem Mid.removeHolder (h : Mid d V s) {p r : Nat} : Mid d V (removeHolder p r s) := by
  unfold Machine.removeHolder
  dsimp only
  split
  · exact h.setHolders.wantReexam
  · exact h

/-- A point's state set: its word is out of date, the lamps are asked for. -/
protected theorem Mid.setPoint (h : Mid d V s) {p : Nat} {f : PointState → PointState} : Mid (also d (.point p)) V (setPoint p f s) :=
  h.points rfl (h.base.pts.modify p f) (fun _ => .inl)
    (fun q hq r => pointWord_congr (detLie_of_map (by
      rw [show ({ s with pts := _, work := _ } : State).pts.state = Tbl.modify s.pts.state p f from rfl, RouteRelease.find_modify,
        if_neg fun he => hq (.inr (congrArg Item.point he))])) rfl rfl rfl)
    id fun _ hf => nomatch hf

/-- The order lists set: the words of the points whose order is another one are out of date. -/
protected theorem Mid.setOrders (h : Mid d V s) {q o : List Order} (hd : ∀ i, d i → d' i)
    (ho : ∀ p, ¬ d' (.point p) → Machine.orderOf (setOrders q o s) p = Machine.orderOf s p) : Mid d' V (setOrders q o s) :=
  h.points (w := s.work) rfl (h.base.pts.rest rfl rfl rfl) hd (fun p hp _ => pointWord_congr rfl rfl (ho p hp) rfl) id
    fun _ hf => ⟨hf, fun _ => rfl⟩

end Points

end Sys2Proof.ShownMeanwhile
end

