-- ==== Sys2Proof/Proofs/UnitChanges.lean ====
section
/-! The aspect unit, the turntable, the visitor unit, the display, detection and the tags changed (O44). -/

namespace Sys2Proof.ShownMeanwhile

open Sys2Proof.Machine Sys2Proof.MirrorItems

/-! ### The aspect unit -/

section Aspects
variable {d d' : Item → Prop} {V : Nat → Nat} {s : State}

theorem lampCondition_signalAspect (s : State) (x : Nat) (a : Aspect) :
    lampCondition s (.signalAspect x a) = ((Tbl.find s.asp.state x).map SignalState.aspect).any (· == a) := by
  unfold lampCondition
  dsimp only
  cases Tbl.find s.asp.state x <;> rfl

/-- The aspect unit changed. -/
protected theorem Mid.aspectUnit (h : Mid d V s) {x : AspectUnit} {w : Work} (hrec : x.recs = s.asp.recs) (hx : AspFit x)
    (hd : ∀ i, d i → d' i) (hp : ∀ y, ¬ d' (.signal y) → Tbl.find x.state y = Tbl.find s.asp.state y)
    (ha : ¬ d' .aspects → w.aspects = false → s.work.aspects = false ∧ x.cond = s.asp.cond ∧
      ∀ y, (Tbl.find x.state y).map SignalState.aspect = (Tbl.find s.asp.state y).map SignalState.aspect)
    (hl : ¬ d' .modes → w.lamps = false → s.work.lamps = false ∧
      ∀ y, (Tbl.find x.state y).map SignalState.aspect = (Tbl.find s.asp.state y).map SignalState.aspect) :
    Mid d' V { s with asp := x, work := w } := by
  refine h.change (t := { s with asp := x, work := w }) hd (.of_mem rfl) rfl (fun i hi => ?_)
    (fun hi hf => ⟨(ha hi hf).1, fun hm => hm.congr hrec (ha hi hf).2.1 (ha hi hf).2.2 fun _ => rfl⟩)
    (fun hi hf => ⟨(hl hi hf).1, fun hm => hm.same rfl rfl rfl fun c => ?_⟩) (h.base.asp' hrec hx)
  · cases i with
    | signal y => exact word_signal rfl (by rw [hrec]) (hp y hi) rfl
    | _ => rfl
  · cases c with
    | signalAspect y a =>
      rw [lampCondition_signalAspect, lampCondition_signalAspect]
      exact congrArg (Option.any (· == a)) ((hl hi hf).2 y)
    | _ => rfl

/-- The aspect unit's fields that nothing shows changed. -/
protected theorem Mid.aspectRest (h : Mid d V s) {x : AspectUnit} (h1 : x.recs = s.asp.recs) (h2 : x.state = s.asp.state)
    (h3 : x.cond = s.asp.cond) : Mid d V { s with asp := x } := by
  have hx : AspFit x := by
    have g := h.base.asp
    unfold AspFit at g ⊢
    rw [h1, h2]
    exact g
  exact h.aspectUnit (w := s.work) h1 hx (fun _ => id) (fun y _ => by rw [h2]) (fun _ hf => ⟨hf, h3, fun y => by rw [h2]⟩)
    fun _ hf => ⟨hf, fun y => by rw [h2]⟩

/-- The run condition changed: the aspects are out of date. -/
protected theorem Mid.setRunCondition (h : Mid (also d .aspects) V s) {c : RunCondition} {k : Option StopCause} :
    Mid (also d .aspects) V (setRunCondition c k s) := by
  have hset : Mid (also d .aspects) V { s with asp := { s.asp with cond := c, cause := k } } :=
    h.aspectUnit (w := s.work) rfl h.base.asp (fun _ => id) (fun _ _ => rfl) (fun hi => absurd (.inr rfl) hi)
      fun _ hf => ⟨hf, fun _ => rfl⟩
  exact ((hset.write8 0x18 _ (by omega)).write8 0x19 _ (by omega)).write16 0x1A _ (by omega)

protected theorem Mid.setPower (h : Mid d V s) {b : Bool} : Mid d V (setPower b s) :=
  (h.aspectRest (x := { s.asp with power := b }) rfl rfl rfl).write8 0x1D _ (by omega)

theorem AspFit.modify {x : AspectUnit} (h : AspFit x) (y : Nat) (f : SignalState → SignalState) :
    AspFit { x with state := Tbl.modify x.state y f } := fun n r hr => by
  obtain ⟨hn, st, hst⟩ := h n r hr
  refine ⟨hn, ?_⟩
  simp only [RouteRelease.find_modify]
  split
  · next he => exact ⟨f st, by rw [← he, hst]; rfl⟩
  · exact ⟨st, hst⟩

/-- A signal's state set: its word is out of date, the lamps are asked for, and the aspects stand where its own does. -/
protected theorem Mid.setSignal (h : Mid d V s) {y : Nat} {f : SignalState → SignalState}
    (hf : d .aspects ∨ ∀ st, Tbl.find s.asp.state y = some st → (f st).aspect = st.aspect) :
    Mid (also d (.signal y)) V (setSignal y f s) := by
  refine h.aspectUnit rfl (h.base.asp.modify y f) (fun _ => .inl) (fun z hz => ?_) (fun hi hw => ?_) fun _ hw => nomatch hw
  · rw [RouteRelease.find_modify, if_neg fun he => hz (.inr (congrArg Item.signal he))]
  · obtain hf | hf := hf
    · exact absurd (.inl hf) hi
    · refine ⟨hw, rfl, fun z => ?_⟩
      rw [RouteRelease.find_modify]
      split
      · next he =>
        rw [he]
        cases hs : Tbl.find s.asp.state y with
        | none => rfl
        | some st => exact congrArg some (hf st hs)
      · rfl

end Aspects

/-! ### The turntable -/

section Table
variable {d : Item → Prop} {V : Nat → Nat} {s : State}

/-- The turntable's words. -/
def tables : Item → Prop := fun j => ∃ k, j = .table k

/-- The deck changed, its mirror not yet: the words are out of date, and the modes unless they are asked for. -/
protected theorem Mid.deck (h : Mid d V s) {x : Turntable} {w : Work} {d' : Item → Prop} (hd : ∀ i, d i ∨ tables i → d' i)
    (hr : s.exch.runState = .running → x.deck = s.tt.deck ∧ x.roads = s.tt.roads)
    (ha : w.aspects = false → s.work.aspects = false)
    (hl : ¬ d' .modes → w.lamps = false → s.work.lamps = false ∧ x.state = s.tt.state ∧ x.align = s.tt.align) :
    Mid d' V { s with tt := x, work := w } := by
  refine h.change (t := { s with tt := x, work := w }) (fun i hi => hd i (.inl hi)) (.of_mem rfl) rfl (fun i hi => ?_)
    (fun _ hf => ⟨ha hf, fun hm => hm.same rfl rfl rfl⟩)
    (fun hi hf => ⟨(hl hi hf).1, fun hm => hm.same rfl rfl rfl fun c => ?_⟩) (h.base.tt hr)
  · cases i with
    | table k => exact absurd (hd _ (.inr ⟨k, rfl⟩)) hi
    | _ => rfl
  · cases c with
    | tableAtRoad y =>
      obtain ⟨-, hstate, halign⟩ := hl hi hf
      unfold lampCondition
      dsimp only
      rw [hstate, halign]
    | _ => rfl

/-- The deck changed, with its mirror: in RUNNING not its records. -/
protected theorem Mid.setDeckWith (h : Mid (also d .modes) V s) {f : Turntable → Turntable}
    (hr : s.exch.runState = .running → (f s.tt).deck = s.tt.deck ∧ (f s.tt).roads = s.tt.roads) : Mid d V (setDeck f s) := by
  have hset : Mid (also (alsoAll d tables) .modes) V { s with tt := f s.tt } :=
    h.deck (w := s.work) (fun i hi => hi.elim (fun x => x.imp .inl id) fun x => .inl (.inr x)) hr id fun hi => absurd (.inr rfl) hi
  exact (hset.wantLamps (w := { s.work with lamps := true }) id rfl).mirrorTable

protected theorem Mid.setDeck (h : Mid d V s) {f : Turntable → Turntable}
    (hr : s.exch.runState = .running → (f s.tt).deck = s.tt.deck ∧ (f s.tt).roads = s.tt.roads) : Mid d V (setDeck f s) :=
  Mid.setDeckWith h.also hr

end Table

/-! ### The visitor unit and the display -/

section Panel
variable {d d' : Item → Prop} {V : Nat → Nat} {s : State}

/-- The visitor unit changed: the modes stand where the running show does. -/
protected theorem Mid.visitors (h : Mid d V s) {x : VisitorUnit} {w : Work} (hx : VisFit x) (hd : ∀ i, d i → d' i)
    (ha : w.aspects = false → s.work.aspects = false)
    (hl : ¬ d' .modes → w.lamps = false → s.work.lamps = false ∧ x.runner.map Runner.show_ = s.vis.runner.map Runner.show_) :
    Mid d' V { s with vis := x, work := w } := by
  refine h.change (t := { s with vis := x, work := w }) hd (.of_mem rfl) rfl (fun i _ => by cases i <;> rfl)
    (fun _ hf => ⟨ha hf, fun hm => hm.same rfl rfl rfl⟩)
    (fun hi hf => ⟨(hl hi hf).1, fun hm => hm.same rfl rfl rfl fun c => ?_⟩) (h.base.vis' hx)
  cases c with
  | showRunning n =>
    have form (u : State) : lampCondition u (.showRunning n) = (u.vis.runner.map Runner.show_).any (· == n) := by
      unfold lampCondition isRunning
      cases u.vis.runner <;> rfl
    rw [form, form]
    exact congrArg (Option.any (· == n)) (hl hi hf).2
  | _ => rfl

/-- The visitor unit changed, its running show apart. -/
protected theorem Mid.visitorRest (h : Mid d V s) {x : VisitorUnit} (hf : x.filters = s.vis.filters) (hm : x.lamps = s.vis.lamps)
    (hr : x.runner.map Runner.show_ = s.vis.runner.map Runner.show_) : Mid d V { s with vis := x } :=
  h.visitors (w := s.work) ⟨hf ▸ h.base.vis.filters, hm ▸ h.base.vis.lamps⟩ (fun _ => id) id fun _ hf => ⟨hf, hr⟩

/-- The runner set to one of the show that runs. -/
protected theorem Mid.setRunner (h : Mid d V s) {r : Option Runner} (hr : r.map Runner.show_ = s.vis.runner.map Runner.show_) :
    Mid d V (setRunner r s) := h.visitorRest rfl rfl hr

/-- The display changed, its bindings and shown modes apart. -/
protected theorem Mid.display (h : Mid d V s) {x : Display} (hb : x.bind = s.disp.bind) (hs : x.shown = s.disp.shown) :
    Mid d V { s with disp := x } := by
  refine h.change (t := { s with disp := x }) (fun _ => id) (.of_mem rfl) rfl (fun i _ => ?_)
    (fun _ hf => ⟨hf, fun hm => hm.same rfl rfl rfl⟩)
    (fun _ hf => ⟨hf, fun hm => hm.same hb hs rfl fun c => by cases c <;> rfl⟩)
    (h.base.disp' (w := s.work) ⟨hs ▸ h.base.disp.shown, hb ▸ h.base.disp.bind⟩)
  cases i with
  | lamp w =>
    have form (u : State) : Item.word V u (.lamp w)
        = if u.running then some (modesOf (fun i => Tbl.getD u.disp.shown (16 * w + i) .off) 16) else none := rfl
    rw [form, form, hs]
    rfl
  | _ => rfl

protected theorem Mid.loadIdle (h : Mid d V s) {n : Nat} : Mid d V (loadIdle n s) := h.display rfl rfl

protected theorem Mid.stopIdle (h : Mid d V s) : Mid d V (stopIdle s) := h.display rfl rfl

protected theorem Mid.setPanelState (h : Mid d V s) {p : Panel} : Mid d V (setPanelState p s) :=
  ((h.display (x := { s.disp with panel := p }) rfl rfl).write8 0x20 _ (by omega)).write8 0x21 _ (by omega)

end Panel

/-! ### Detection and the tags -/

section Track
variable {d d' : Item → Prop} {V : Nat → Nat} {s : State}

/-- The occupancy unit changed, its records apart. -/
protected theorem Mid.detection (h : Mid d V s) {x : OccUnit} (hrec : x.recs = s.occ.recs)
    (hconfig : s.exch.runState = .running → configFault s = none → configFault { s with occ := x } = none) (hx : OccFit x) (hd : ∀ i, d i → d' i)
    (hsec : ∀ n, ¬ d' (.sec n) → ∀ r, Tbl.find s.occ.recs n = some r →
      occOf { s with occ := x } n = occOf s n ∧ detLevel { s with occ := x } r = detLevel s r)
    (hhead : ∀ k, ¬ d' (.head k) →
      (Tbl.find x.heads k).map (fun y => halves y.totalAB y.totalBA) = (Tbl.find s.occ.heads k).map fun y => halves y.totalAB y.totalBA)
    (hl : ¬ d' .modes → s.work.lamps = false → ∀ n, secState { s with occ := x } n = secState s n) :
    Mid d' V { s with occ := x } := by
  have hb : Base { s with occ := x } := by
    obtain ⟨h1, h2, h3, h4, h5, h6, h7, h8, h9, h10⟩ := h.base
    exact ⟨h1, hx, h3, h4, h5, h6, h7, h8, fun hr => hconfig hr (h9 hr), h10⟩
  refine h.change (t := { s with occ := x }) hd (.of_mem rfl) rfl (fun i hi => ?_)
    (fun _ hf => ⟨hf, fun hm => hm.same rfl rfl rfl⟩) (fun hi hf => ⟨hf, fun hm => hm.same rfl rfl rfl fun c => ?_⟩) hb
  · cases i with
    | sec n =>
      refine word_sec rfl (by rw [hrec]) fun r hr => ?_
      obtain ⟨ho, hl⟩ := hsec n hi r hr
      exact sectionWord_congr ho hl rfl rfl
    | head k => exact hhead k hi
    | _ => rfl
  · cases c with
    | sectionOccupied n =>
      have form (u : State) : lampCondition u (.sectionOccupied n)
        = (Tbl.has u.occ.recs n && (secState u n == .occupied || secState u n == .uncertain)) := rfl
      rw [form, form, hl hi hf n, show ({ s with occ := x } : State).occ.recs = s.occ.recs from hrec]
    | _ => rfl

/-- A tag record put: its word is out of date. -/
protected theorem Mid.tagTable (h : Mid d V s) {g : Nat} {v : Tag} :
    Mid (also d (.tag g)) V { s with tags := { s.tags with table := Tbl.put Tag.init s.tags.table g v } } := by
  refine h.change (t := { s with tags := { s.tags with table := Tbl.put Tag.init s.tags.table g v } }) (fun _ => .inl) (.of_mem rfl) rfl
    (fun i hi => ?_) (fun _ hf => ⟨hf, fun hm => hm.same rfl rfl rfl⟩)
    (fun _ hf => ⟨hf, fun hm => hm.same rfl rfl rfl fun c => by cases c <;> rfl⟩) (h.base.tags' (w := s.work) fun _ => id)
  cases i with
  | tag k =>
    have form (u : State) : Item.word V u (.tag k) = if u.running then some (tagWord (Tbl.getD u.tags.table k Tag.init)) else none := rfl
    rw [form, form]
    refine if_congr Iff.rfl (congrArg (fun y => some (tagWord y)) ?_) rfl
    exact TrackDetection.getD_put_other _ _ _ fun he => hi (.inr (congrArg Item.tag he))
  | _ => rfl

protected theorem Mid.setTag (h : Mid d V s) {g : Nat} {v : Tag} : Mid d V (setTag g v s) := h.tagTable.mirrorTag

/-- The tag fields changed at one section, in RUNNING or from none to none. -/
protected theorem Mid.tagFields (h : Mid d V s) {n : Nat} {x : Tbl Nat} (hf : ∀ m, m ≠ n → Tbl.find x m = Tbl.find s.tags.fields m)
    (hempty : s.exch.runState ≠ .running → s.tags.fields = [] → x = []) :
    Mid (also d (.sec n)) V { s with tags := { s.tags with fields := x }, work := { s.work with lamps := true } } := by
  refine h.change (t := { s with tags := { s.tags with fields := x }, work := { s.work with lamps := true } })
    (fun _ => .inl) (.of_mem rfl) rfl (fun i hi => ?_) (fun _ hf => ⟨hf, fun hm => hm.same rfl rfl rfl⟩) (fun _ hf => nomatch hf)
    (h.base.tags' hempty)
  cases i with
  | sec m => exact word_sec rfl rfl fun r _ => sectionWord_congr rfl rfl (hf m fun he => hi (.inr (congrArg Item.sec he))) rfl
  | _ => rfl

/-- A section's tag field set in RUNNING, with the section's mirror word. -/
protected theorem Mid.giveTagField (h : Mid d V s) {n g : Nat} (hr : s.running = true) : Mid d V (setTagField n (some g) s) :=
  (h.tagFields (x := Tbl.insert s.tags.fields n g) (fun _ hm => Tbl.find_insert_other _ _ _ _ hm)
    fun hne => absurd (eq_of_beq hr) hne).mirrorSection

/-- A section's tag field emptied. -/
protected theorem Mid.clearTagField (h : Mid d V s) {n : Nat} : Mid d V (setTagField n none s) :=
  (h.tagFields (x := Tbl.erase s.tags.fields n) (fun _ hm => Tbl.find_erase_other _ _ _ hm)
    fun _ he => by rw [he]; rfl).mirrorSection

end Track

end Sys2Proof.ShownMeanwhile
end

