-- ==== Sys2Proof/Proofs/OrdersShown.lean ====
section
/-! Handing back to the show runner, and giving, moving and withdrawing orders, with what is shown (O44). -/

namespace Sys2Proof.ShownMeanwhile

open Sys2Proof.Machine Sys2Proof.MirrorItems

/-! ### Handing back (R162 to R166) -/

section Handback
variable {d : Item → Prop} {V : Nat → Nat} {s : State}

/-- The waiting step of the show that runs ends. -/
protected theorem Mid.stepEnds (h : Mid d V s) {r : Runner} {e : StepEnd} (hr : s.vis.runner.map Runner.show_ = some r.show_) :
    Mid d V (stepEnds r e s) := (h.setRunner (r := some { r with phase := .none, stepTimer := none }) hr.symm).work id id

theorem runner_of_waiting {sh route : Nat} {r : Runner} (h : waitingForRoute s sh route = some r) : s.vis.runner = some r := by
  unfold waitingForRoute at h
  split at h
  · cases h
  · next x hx =>
    split at h
    · split at h
      · cases h; exact hx
      · cases h
    · cases h

protected theorem Mid.showRouteSet (h : Mid d V s) {sh r : Nat} : Mid d V (showRouteSet sh r s) := by
  unfold Machine.showRouteSet
  split
  · next hw => exact h.stepEnds (by rw [runner_of_waiting hw]; rfl)
  · exact h

protected theorem Mid.showRouteFailed (h : Mid d V s) {sh r w : Nat} {y : Result} : Mid d V (showRouteFailed sh r y w s) := by
  unfold Machine.showRouteFailed
  split
  · next hw => exact h.stepEnds (by rw [runner_of_waiting hw]; rfl)
  · exact h

protected theorem Mid.showRouteAccepted (h : Mid d V s) {sh r : Nat} : Mid d V (showRouteAccepted sh r s) := by
  unfold Machine.showRouteAccepted
  split
  · next hr =>
    split
    · exact h.setRunner (by rw [hr]; rfl)
    · exact h
  · exact h

protected theorem Mid.showRouteReleased (h : Mid d V s) {sh r : Nat} : Mid d V (showRouteReleased sh r s) := by
  unfold Machine.showRouteReleased
  split
  · next hr =>
    split
    · exact h.setRunner (by rw [hr]; rfl)
    · exact h
  · exact h

protected theorem Mid.showTurnAnswer (h : Mid d V s) {sh w : Nat} {y : Result} : Mid d V (showTurnAnswer sh y w s) := by
  unfold Machine.showTurnAnswer
  split
  · exact h
  · next hr =>
    split
    · exact h.stepEnds (by rw [hr]; rfl)
    · exact h

end Handback

/-! ### The order of a point -/

section OrderOf
variable {s : State} {q o : List Order} {p : Nat}

theorem orderOf_setOrders (hq : q.find? (fun x => x.point == p) = s.pts.queue.find? fun x => x.point == p)
    (ho : o.find? (fun x => x.point == p) = s.pts.overflow.find? fun x => x.point == p) :
    Machine.orderOf (setOrders q o s) p = Machine.orderOf s p := by
  have form (u : State) : Machine.orderOf u p = match u.pts.queue.find? fun x => x.point == p with
      | some x => some (x, false)
      | none => (u.pts.overflow.find? fun x => x.point == p).map fun x => (x, true) := by
    unfold Machine.orderOf
    cases u.pts.queue.find? fun x => x.point == p with
    | some x => rfl
    | none => dsimp only; cases u.pts.overflow.find? fun x => x.point == p <;> rfl
  rw [form, form, show (setOrders q o s).pts.queue = q from rfl, show (setOrders q o s).pts.overflow = o from rfl, hq, ho]

/-- No order of a list is for a point. -/
theorem find?_point_none {l : List Order} (h : p ∉ l.map Order.point) : l.find? (fun x => x.point == p) = none := by
  rw [List.find?_eq_none]
  intro x hx he
  exact h (List.mem_map.2 ⟨x, hx, eq_of_beq he⟩)

theorem find?_point_append {l m : List Order} (h : p ∉ m.map Order.point) :
    (l ++ m).find? (fun x => x.point == p) = l.find? fun x => x.point == p := by
  rw [List.find?_append, find?_point_none h, Option.or_none]

/-- The orders that a test removes are of other points. -/
theorem find?_point_filter {l : List Order} {keep : Order → Bool} (h : ∀ x ∈ l, x.point = p → keep x = true) :
    (l.filter keep).find? (fun x => x.point == p) = l.find? fun x => x.point == p := by
  induction l with
  | nil => rfl
  | cons x l ih =>
    have ih := ih fun y hy => h y (List.mem_cons_of_mem _ hy)
    cases hp : x.point == p with
    | true =>
      rw [List.filter_cons_of_pos (h x List.mem_cons_self (eq_of_beq hp)), List.find?_cons_of_pos (p := fun x : Order => x.point == p) hp,
        List.find?_cons_of_pos (p := fun x : Order => x.point == p) hp]
    | false =>
      rw [List.find?_cons_of_neg (by simp [hp])]
      cases hk : keep x with
      | true => rw [List.filter_cons_of_pos hk, List.find?_cons_of_neg (by simp [hp]), ih]
      | false => rw [List.filter_cons_of_neg (by simp [hk]), ih]

/-- Orders changed in their places, none to another point. -/
theorem find?_point_map {l : List Order} {n : Nat} {f : Order → Order} (hf : ∀ x, (f x).point = x.point) (h : p ≠ n) :
    (l.map fun x => if x.point = n then f x else x).find? (fun x => x.point == p) = l.find? fun x => x.point == p := by
  induction l with
  | nil => rfl
  | cons x l ih =>
    rw [List.map_cons]
    by_cases hx : x.point = n
    · have hp : (x.point == p) = false := beq_eq_false_iff_ne.2 (hx ▸ Ne.symm h)
      rw [if_pos hx, List.find?_cons_of_neg (by simp [hf, hp]), List.find?_cons_of_neg (by simp [hp]), ih]
    · rw [if_neg hx]
      cases hp : x.point == p with
      | true => rw [List.find?_cons_of_pos (p := fun x : Order => x.point == p) hp, List.find?_cons_of_pos (p := fun x : Order => x.point == p) hp]
      | false => rw [List.find?_cons_of_neg (by simp [hp]), List.find?_cons_of_neg (by simp [hp]), ih]

end OrderOf

/-! ### Orders given and withdrawn (R94, R100) -/

section Orders
variable {d : Item → Prop} {V : Nat → Nat} {s : State}

protected theorem Mid.giveOrder (h : Mid d V s) {o : Order} : Mid d V (giveOrder o s) := by
  have hother {p : Nat} (hp : ¬ (also d (.point o.point)) (.point p)) : p ∉ [o].map Order.point := fun hm =>
    hp (.inr (congrArg Item.point (List.mem_singleton.1 hm)))
  unfold Machine.giveOrder
  split
  · exact (h.setOrders (fun _ => .inl) fun p hp => orderOf_setOrders (find?_point_append (hother hp)) rfl).wantPass.touchPoint
  · exact (h.setOrders (fun _ => .inl) fun p hp => orderOf_setOrders rfl (find?_point_append (hother hp))).touchPoint

/-- Each point of a list touched, whose words may be out of date. -/
protected theorem Mid.touchPoints {l : List Nat} (h : Mid (alsoAll d fun i => ∃ n ∈ l, i = .point n) V s) :
    Mid d V (eachDo l touchPoint s) :=
  Mid.eachWritten (P := fun _ => True) h trivial (fun _ _ => id) fun _ _ _ _ ht => ht.touchPoint

protected theorem Mid.fillQueue (h : Mid d V s) : Mid d V (fillQueue s) := by
  unfold Machine.fillQueue
  dsimp only
  generalize Config.numQueue - s.pts.queue.length = k
  split
  · exact h
  · refine Mid.touchPoints (Mid.wantPass (h.setOrders (fun _ => .inl) fun p hp => ?_))
    have hno : p ∉ (s.pts.overflow.take k).map Order.point := fun hm => hp (.inr ⟨p, hm, rfl⟩)
    refine orderOf_setOrders (find?_point_append hno) ?_
    conv_rhs => rw [← List.take_append_drop k s.pts.overflow, List.find?_append, find?_point_none hno]
    rfl

/-- The order of a point removed: its own word is out of date. -/
protected theorem Mid.removeOrder (h : Mid d V s) {p : Nat} : Mid (also d (.point p)) V (removeOrder p s) := by
  refine Mid.fillQueue (h.setOrders (fun _ => .inl) fun q hq => ?_)
  have hkeep : ∀ x : Order, x.point = q → (x.point != p) = true := fun x hx =>
    bne_iff_ne.2 fun he => hq (.inr (congrArg Item.point (hx.symm.trans he)))
  exact orderOf_setOrders (find?_point_filter fun x _ => hkeep x) (find?_point_filter fun x _ => hkeep x)

/-- The order of a point changed: its own word is out of date. -/
protected theorem Mid.changeOrder (h : Mid d V s) {p : Nat} {f : Order → Order} (hf : ∀ o, (f o).point = o.point) :
    Mid (also d (.point p)) V (changeOrder p f s) :=
  h.setOrders (fun _ => .inl) fun _ hq => orderOf_setOrders (find?_point_map hf fun he => hq (.inr (congrArg Item.point he))) rfl

protected theorem Mid.moveToHead (h : Mid d V s) {p : Nat} : Mid (also d (.point p)) V (moveToHead p s) := by
  refine h.setOrders (fun _ => .inl) fun q hq => orderOf_setOrders ?_ rfl
  have hne : q ≠ p := fun he => hq (.inr (congrArg Item.point he))
  rw [List.find?_append, find?_point_filter fun x _ hx => bne_iff_ne.2 fun he => hne (hx.symm.trans he), find?_point_none, Option.none_or]
  intro hm
  obtain ⟨x, hx, he⟩ := List.mem_map.1 hm
  exact hne (he.symm.trans (eq_of_beq (List.mem_filter.1 hx).2))

/-- Withdrawal changes of an active entry the order list alone, which nothing shows. -/
protected theorem Mid.modifyOrders (h : Mid d V s) {e : Nat} {g : List Nat → List Nat} :
    Mid d V { s with ilk := { s.ilk with active := Tbl.modify s.ilk.active e fun a => { a with orders := g a.orders } } } := by
  cases hf : Tbl.find s.ilk.active e with
  | none =>
    rw [show Tbl.modify s.ilk.active e (fun a => { a with orders := g a.orders }) = s.ilk.active by unfold Tbl.modify; rw [hf]]
    exact h
  | some a =>
    rw [RouteRelease.modify_of_find _ hf]
    exact h.entry hf rfl (.inl Iff.rfl) (fun _ => id) (.inr rfl)

protected theorem Mid.withdraw (h : Mid d V s) {e : Nat} : Mid d V (withdraw e s) := by
  have hset : Mid (alsoAll d fun i => ∃ n ∈ queuedPoints s e, i = .point n) V
      (setOrders (s.pts.queue.filter fun o => !isQueuedOf e o) (s.pts.overflow.filter fun o => !isQueuedOf e o)
        { s with work := { s.work with pass := s.work.pass || (queuedPoints s e).any (isSlow s) } }) := by
    have hwork : Mid d V { s with work := { s.work with pass := s.work.pass || (queuedPoints s e).any (isSlow s) } } := h.work id id
    refine hwork.setOrders (fun _ => .inl) fun p hp => ?_
    have hkeep : ∀ x : Order, x ∈ s.pts.queue ++ s.pts.overflow → x.point = p → (!isQueuedOf e x) = true := fun x hx hxp => by
      rw [Bool.not_eq_true', Bool.eq_false_iff]
      intro hq
      exact hp (.inr ⟨p, List.mem_map.2 ⟨x, List.mem_filter.2 ⟨hx, hq⟩, hxp⟩, rfl⟩)
    exact orderOf_setOrders (find?_point_filter fun x hx => hkeep x (List.mem_append_left _ hx))
      (find?_point_filter fun x hx => hkeep x (List.mem_append_right _ hx))
  exact hset.fillQueue.touchPoints.modifyOrders (g := fun l => l.filter fun p => !(queuedPoints s e).contains p)

end Orders

end Sys2Proof.ShownMeanwhile
end

