-- ==== Sys2Proof/Proofs/RoutesShown.lean ====
section
/-! The life of a route (chapter 4), with what is shown (O44). -/

namespace Sys2Proof.ShownMeanwhile

open Sys2Proof.Machine Sys2Proof.MirrorItems

/-! ### What leaves the active route table -/

theorem active_eachDo {l : List Nat} {f : Nat → State → State} (h : ∀ n t, (f n t).ilk.active = t.ilk.active) (s : State) :
    (eachDo l f s).ilk.active = s.ilk.active := by
  unfold Machine.eachDo
  induction l generalizing s with
  | nil => rfl
  | cons n l ih => exact (ih _).trans (h n s)

theorem active_setLock (n : Nat) (r : Option Nat) (s : State) : (setLock n r s).ilk.active = s.ilk.active := by
  cases r with
  | none => rw [RouteRelease.ilk_setLock_none]
  | some k => rw [RouteRelease.ilk_setLock_some]

theorem active_removeHolder (p r : Nat) (s : State) : (removeHolder p r s).ilk.active = s.ilk.active := by
  unfold removeHolder
  dsimp only
  split
  · rw [wantReexam_ilk, RouteRelease.ilk_setHolders]
  · rfl

/-! ### Answers, release (R64 to R79) -/

section Release
variable {d : Item → Prop} {V : Nat → Nat} {s : State}

protected theorem Mid.answerSlot (h : Mid d V s) {e w0 w1 : Nat} {r : Result} : Mid d V (answerSlot e r w0 w1 s) := by
  unfold Machine.answerSlot
  split
  · next a ha =>
    split
    · exact (h.setActive (a := { a with slot := none }) ha rfl (.inl Iff.rfl)).complete
    · exact h
  · exact h

protected theorem Mid.tellShow (h : Mid d V s) {a : Active} {f : Nat → Nat → State → State} (hf : ∀ x y t, Mid d V t → Mid d V (f x y t)) :
    Mid d V (tellShow a f s) := by
  unfold Machine.tellShow
  split
  · exact hf _ _ _ h
  · exact h

/-- The entry that a released route leaves, its report and its signal's word. -/
protected theorem Mid.entryLeft (h : Mid d V s) {e : Nat} {a : Active} (ha : Tbl.find s.ilk.active e = some a) (why : Ending) :
    let t := report .routeReleased a.route (halves e why.code) (orNone16 a.tag)
      (mirrorActive e { s with ilk := { s.ilk with active := Tbl.erase s.ilk.active e } })
    (∀ r, Tbl.find t.ilk.routes a.route = some r → Mid (also d .aspects) V (mirrorSignal r.entry t)) ∧
      (Tbl.find t.ilk.routes a.route = none → Mid (also d .aspects) V t) := by
  intro t
  have hroutes : t.ilk.routes = s.ilk.routes := by
    have g : t.ilk = _ := (report_ilk ..).trans (mirrorActive_ilk ..)
    rw [g]
  have ht (l : List Nat) (hl : ∀ r, Tbl.find s.ilk.routes a.route = some r → r.entry ∈ l) :=
    (h.eraseActive ha hl).mirrorActive.report (k := .routeReleased) (x := a.route) (v1 := halves e why.code) (v2 := orNone16 a.tag)
  rw [hroutes]
  refine ⟨fun r hr => Mid.mirrorSignal ((ht [r.entry] fun q hx => ?_).mono fun i hi => hi.imp id fun ⟨x, hx, he⟩ => ?_),
    fun hr => (ht [] fun q hx => ?_).mono fun i hi => hi.elim id fun ⟨_, hx, _⟩ => absurd hx List.not_mem_nil⟩
  · rw [hr] at hx
    cases hx
    exact List.mem_singleton.2 rfl
  · rw [hr] at hx
    cases hx
  · rw [he, List.mem_singleton.1 hx]

protected theorem Mid.releaseWhole (h : Mid d V s) {e : Nat} {why : Ending} : Mid d V (releaseWhole e why s) := by
  unfold Machine.releaseWhole
  split
  · exact h
  · next a ha =>
    have h2 := (h.eachDo (l := (s.ilk.locks.filter fun x => x.2 == a.route).map Prod.fst) (f := fun n => setLock n none)
      fun _ _ ht => ht.setLock).eachDo (l := (s.ilk.holders.filter fun x => x.2.routes.contains a.route).map Prod.fst)
      (f := fun p => removeHolder p a.route) fun _ _ ht => ht.removeHolder
    have hact := (active_eachDo (l := (s.ilk.holders.filter fun x => x.2.routes.contains a.route).map Prod.fst)
      (f := fun p => removeHolder p a.route) (fun _ _ => active_removeHolder _ _ _)
      (Machine.eachDo ((s.ilk.locks.filter fun x => x.2 == a.route).map Prod.fst) (fun n => setLock n none) s)).trans
      (active_eachDo (f := fun n => setLock n none) (fun _ _ => active_setLock _ _ _) s)
    obtain ⟨hloaded, hnot⟩ := h2.entryLeft (hact ▸ ha) why
    refine Mid.wantAspects (Mid.wantReexam (Mid.tellShow ?_ fun _ _ _ ht => ht.showRouteReleased))
    split
    · next r hr => exact hloaded r hr
    · next hr => exact hnot hr

protected theorem Mid.endIfDone (h : Mid d V s) {e : Nat} : Mid d V (endIfDone e s) := by
  unfold Machine.endIfDone
  split
  · exact h
  · split
    · exact h
    · split
      · exact h.releaseWhole
      · exact h

/-- The sections of an overlap released, then the entry's own field. -/
protected theorem Mid.releaseOverlap (h : Mid d V s) {e : Nat} : Mid d V (releaseOverlap e s) := by
  unfold Machine.releaseOverlap
  split
  · exact h
  · next a ha =>
    split
    · exact h
    · next r _ =>
      have h1 := h.eachDo (l := r.overlap.filter fun n => lockOf s n == some a.route) (f := fun n => setLock n none) fun _ _ ht => ht.setLock
      have hact := active_eachDo (l := r.overlap.filter fun n => lockOf s n == some a.route) (f := fun n => setLock n none)
        (fun _ _ => active_setLock _ _ _) s
      exact (h1.setActive (b := a) (a := { a with overlapPos := r.overlap.length, overlapState := .released, timer := none }) (hact.symm ▸ ha) rfl
        (.inl Iff.rfl)).wantReexam.endIfDone

protected theorem Mid.startOverlap (h : Mid d V s) {e : Nat} : Mid d V (startOverlap e s) := by
  unfold Machine.startOverlap
  split
  · exact h
  · next a ha =>
    split
    · exact h
    · next r _ =>
      split
      · split
        · exact h.releaseOverlap
        · exact h.setActive (a := { a with overlapState := .timing, timer := some (1000 * r.overlapTime) }) ha rfl (.inl Iff.rfl)
      · exact h

protected theorem Mid.startOverlapAtEntry (h : Mid d V s) {e : Nat} {r : RouteRec} : Mid d V (startOverlapAtEntry e r s) := by
  unfold Machine.startOverlapAtEntry
  split
  · split
    · exact h
    · exact h.startOverlap
  · exact h

/-! ### Sequential release (R75 to R77) -/

protected theorem Mid.releasePoints (h : Mid d V s) {a : Active} {l : List Nat} : Mid d V (releasePoints a l s) :=
  h.eachDo fun _ _ ht => ht.removeHolder

theorem active_releasePoints (a : Active) (l : List Nat) (s : State) : (releasePoints a l s).ilk.active = s.ilk.active :=
  active_eachDo (f := fun p => removeHolder p a.route) (fun _ _ => active_removeHolder _ _ _) s

/-- A section released while its route's word is out of date. -/
protected theorem Mid.releaseSection (h : Mid d V s) {e n i : Nat} {r : RouteRec} (hd : d (.active e)) :
    Mid d V (releaseSection e r n i s) := by
  have put {t : State} {a b : Active} (ht : Mid d V t) (hf : Tbl.find t.ilk.active e = some b) (hr : a.route = b.route)
      (hs : a.state = b.state) : Mid d V (putActive e a t) := ht.entry hf hr (.inl (by rw [hs])) (fun _ => id) (.inl hd)
  unfold Machine.releaseSection
  split
  · exact h
  · next a ha =>
    dsimp only
    split
    · split
      · refine put (b := a) (h.setLock.releasePoints.releasePoints) ?_ rfl rfl
        rw [active_releasePoints, active_releasePoints, active_setLock]; exact ha
      · refine put (b := a) h.setLock.releasePoints ?_ rfl rfl
        rw [active_releasePoints, active_setLock]; exact ha
    · exact put (b := a) h.setLock (by rw [active_setLock]; exact ha) rfl rfl

protected theorem Mid.walkFrom (h : Mid d V s) {e : Nat} {r : RouteRec} {l : List (Nat × Nat)} (hd : d (.active e)) :
    Mid d V (walkFrom e r l s) := by
  induction l generalizing s with
  | nil => exact h
  | cons x l ih =>
    unfold Machine.walkFrom
    split
    · exact h
    · split
      · exact ih (h.releaseSection hd)
      · exact h

protected theorem Mid.walk (h : Mid d V s) {e : Nat} : Mid d V (walk e s) := by
  unfold Machine.walk
  split
  · exact h
  · split
    · exact h
    · split
      · exact (Mid.walkFrom h.also (.inr rfl)).mirrorActive.endIfDone
      · exact h

/-! ### Proved, SET and HELD (R67 to R74) -/

theorem markPassed_route (r : RouteRec) (a : Active) (i : Nat) : (markPassed r a i).route = a.route := by
  unfold markPassed; dsimp only; split <;> rfl

theorem markPassed_state (r : RouteRec) (a : Active) (i : Nat) : (markPassed r a i).state = a.state := by
  unfold markPassed; dsimp only; split <;> rfl

protected theorem Mid.reportRunning (h : Mid d V s) {e : Nat} {a : Active} {left : RouteState} : Mid d V (reportRunning e a left s) :=
  h.report

/-- An entry at SET leaves SET: the aspects are asked for already. -/
protected theorem Mid.immediateEntry (h : Mid d V s) {e : Nat} (hw : s.work.aspects = true) : Mid d V (immediateEntry e s) := by
  unfold Machine.immediateEntry
  split
  · exact h
  · next a ha =>
    split
    · exact h
    · next r _ =>
      split
      · exact h
      · next f _ =>
        split
        · exact h
        · have h1 := h.setActive (a := markPassed r { a with state := .running, tag := tagOf s f } (lastNotClear s r)) (b := a) ha
            (markPassed_route ..) (.inr (.inl hw))
          dsimp only
          exact h1.reportRunning.startOverlapAtEntry.walk

/-- A route that was SET just now, its aspects out of date. -/
protected theorem Mid.setEntry (h : Mid (also d .aspects) V s) {e : Nat} : Mid d V (immediateEntry e (wantAspects s)) :=
  Mid.immediateEntry h.wantAspects rfl

protected theorem Mid.becomeSet (h : Mid d V s) {e : Nat} {left : RouteState} : Mid d V (becomeSet e left s) := by
  unfold Machine.becomeSet
  split
  · exact h
  · next a ha =>
    have h1 := (h.also (i := .aspects)).setActive (a := { a with state := .set }) ha rfl (.inr (.inr (.inr rfl)))
    exact Mid.setEntry (h1.report.answerSlot.tellShow fun _ _ _ ht => ht.showRouteSet)

protected theorem Mid.testProved (h : Mid d V s) {e : Nat} : Mid d V (testProved e s) := by
  unfold Machine.testProved
  split
  · exact h
  · split
    · exact h
    · split
      · exact h.becomeSet
      · exact h

protected theorem Mid.holdRoute (h : Mid d V s) {e item : Nat} {why : HeldCause} : Mid d V (holdRoute e why item s) := by
  unfold Machine.holdRoute
  split
  · exact h
  · next a ha =>
    split
    · exact Mid.wantAspects ((h.also (i := .aspects)).setActive (a := { a with state := .held }) ha rfl (.inr (.inr (.inr rfl)))).report
    · exact h

protected theorem Mid.pointLost (h : Mid d V s) {p : Nat} : Mid d V (pointLost p s) := h.eachDo fun _ _ ht => ht.holdRoute

protected theorem Mid.pointTested (h : Mid d V s) {p : Nat} : Mid d V (pointTested p s) := h.eachDo fun _ _ ht => ht.testProved

/-! ### Failure and the end of orders (R66 to R69) -/

/-- A route given up in the middle of its orders, or released where none is left. -/
protected theorem Mid.cancelling (h : Mid d V s) {e : Nat} {a b : Active} (ha : Tbl.find s.ilk.active e = some a) (hr : b.route = a.route) :
    Mid d V (wantAspects (setActive e b s)) :=
  Mid.wantAspects ((h.also (i := .aspects)).setActive ha hr (.inr (.inr (.inr rfl))))

protected theorem Mid.failRoute (h : Mid d V s) {p e : Nat} : Mid d V (failRoute p e s) := by
  unfold Machine.failRoute
  split
  · exact h
  · next a _ =>
    split
    · have h1 : Mid d V (tellShow a (fun sh r => showRouteFailed sh r .pointFailed p)
          (answerSlot e .pointFailed p 0 (report .routeFailed a.route (halves e 0) p (withdraw e s)))) :=
        h.withdraw.report.answerSlot.tellShow fun _ _ _ ht => ht.showRouteFailed
      dsimp only
      split
      · exact h1
      · next b hb =>
        split
        · exact h1.releaseWhole
        · exact h1.cancelling hb rfl
    · exact h

protected theorem Mid.failRoutes (h : Mid d V s) {p : Nat} : Mid d V (failRoutes p s) := h.eachDo fun _ _ ht => ht.failRoute

protected theorem Mid.routeOrderEnded (h : Mid d V s) {e p : Nat} : Mid d V (routeOrderEnded e p s) := by
  unfold Machine.routeOrderEnded
  split
  · exact h
  · next a ha =>
    have h1 := h.setActive (a := { a with orders := a.orders.erase p }) ha rfl (.inl Iff.rfl)
    dsimp only
    split
    · exact h1.testProved
    · split
      · exact h1.releaseWhole
      · exact h1
    · split
      · exact h1
      · split
        · exact h1.removeHolder.endIfDone
        · exact h1.endIfDone
    · exact h1
    · exact h1
    · exact h1

/-! ### Entry and section changes (R69 to R82) -/

protected theorem Mid.enterRoute (h : Mid d V s) {e : Nat} {tag : Option Nat} : Mid d V (enterRoute e tag s) := by
  unfold Machine.enterRoute
  split
  · exact h
  · next before _ =>
    split
    · exact h
    · next r _ =>
      have h1 : Mid d V (if before.state = .setting then withdraw e s else s) := by
        split
        · exact h.withdraw
        · exact h
      generalize (if before.state = .setting then withdraw e s else s) = t at h1
      dsimp only
      split
      · exact h1
      · next a ha =>
        have h2 := ((h1.also (i := .aspects)).setActive (a := { markPassed r a 0 with state := .running, tag := tag, timer := none }) ha
          (markPassed_route r a 0) (.inr (.inr (.inr rfl)))).reportRunning (e := e)
            (a := { markPassed r a 0 with state := .running, tag := tag, timer := none }) (left := before.state)
        split
        · exact Mid.wantAspects (h2.answerSlot.tellShow fun _ _ _ ht => ht.showRouteFailed).startOverlapAtEntry.walk
        · exact Mid.wantAspects h2.startOverlapAtEntry.walk

theorem markOccupied_route (r : RouteRec) (a : Active) (i : Nat) (took : Option Nat) : (markOccupied r a i took).route = a.route := by
  unfold markOccupied
  split
  · split
    · exact markPassed_route ..
    · rfl
  · rfl
  · exact markPassed_route ..
  · exact markPassed_route ..

theorem markOccupied_state (r : RouteRec) (a : Active) (i : Nat) (took : Option Nat) : (markOccupied r a i took).state = a.state := by
  unfold markOccupied
  split
  · split
    · exact markPassed_state ..
    · rfl
  · rfl
  · exact markPassed_state ..
  · exact markPassed_state ..

protected theorem Mid.runningSection (h : Mid d V s) {e n : Nat} {r : RouteRec} {new : SectionState} {took : Option Nat} :
    Mid d V (runningSection e n r new took s) := by
  unfold Machine.runningSection
  split
  · exact h
  · next a ha =>
    split
    · split
      · exact h
      · have h1 := h.setActive ha (markOccupied_route r a ((sequence r).idxOf n) took) (.inl (by rw [markOccupied_state]))
        dsimp only
        split
        · exact h1.startOverlap.walk
        · exact h1.walk
    · split
      · exact h.walk
      · exact h

/-- One active route and a change of a section. -/
theorem mid_routeSection {n e : Nat} {new : SectionState} {took : Option Nat} {acc : State × List EntryNote} (h : Mid d V acc.1) :
    Mid d V (routeSection n new took acc e).1 := by
  obtain ⟨s, notes⟩ := acc
  have h : Mid d V s := h
  unfold routeSection
  dsimp only
  split
  · exact h
  · split
    · exact h
    · split
      · exact h
      · split
        · split
          · exact h.enterRoute
          · exact h.testProved
        · split
          · exact h.enterRoute
          · exact h.testProved
        · split
          · exact h.enterRoute
          · split
            · exact h
            · exact h.holdRoute
        · split
          · exact h.enterRoute
          · exact h
        · exact h.runningSection
        · exact h

protected theorem Mid.routesSectionChange (h : Mid d V s) {n : Nat} {new : SectionState} {took : Option Nat} :
    Mid d V (routesSectionChange n new took s).1 := by
  unfold Machine.routesSectionChange
  generalize Tbl.keys s.ilk.active = l
  have hacc : ∀ acc : State × List EntryNote, Mid d V acc.1 → Mid d V (l.foldl (routeSection n new took) acc).1 := by
    induction l with
    | nil => exact fun _ => id
    | cons e l ih => exact fun acc ht => ih _ (mid_routeSection ht)
  exact hacc (s, []) h

protected theorem Mid.routesAllStop (h : Mid d V s) : Mid d V (routesAllStop s) := h.eachDo fun _ _ ht => ht.holdRoute

protected theorem Mid.routesResume (h : Mid d V s) : Mid d V (routesResume s) := h.eachDo fun _ _ ht => ht.testProved

end Release

end Sys2Proof.ShownMeanwhile
end

