-- ==== Sys2Proof/Proofs/PointsShown.lean ====
section
/-! The point controller's operations (chapter 5), with what is shown (O44). -/

namespace Sys2Proof.ShownMeanwhile

open Sys2Proof.Machine Sys2Proof.MirrorItems

section Points
variable {d : Item → Prop} {V : Nat → Nat} {s : State}

/-- The free-value counter and the clock are shown nowhere. -/
protected theorem Mid.useFree (h : Mid d V s) : Mid d V (useFree s) :=
  h.same ⟨rfl, rfl, rfl, rfl, rfl, rfl, rfl, rfl, rfl, rfl, rfl⟩ (.of_mem rfl) h.base.mem id id

/-- Setting aside twice is setting aside once. -/
protected theorem Mid.once {i : Item} (h : Mid (also (also d i) i) V s) : Mid (also d i) V s :=
  h.mono fun _ hj => hj.elim id .inr

protected theorem Mid.reportMoved (h : Mid d V s) {p o : Nat} {l : DetLie} : Mid d V (reportMoved p l o s) := h.report

protected theorem Mid.reportLost (h : Mid d V s) {p : Nat} {l : DetLie} : Mid d V (reportLost p l s) := h.report

/-! ### The lie (R90 to R92) -/

protected theorem Mid.lieChanged {p : Nat} (h : Mid (also d (.point p)) V s) {new : DetLie} : Mid d V (lieChanged p new s) := by
  have h1 := h.touchPoint
  unfold Machine.lieChanged
  generalize Machine.touchPoint p s = t at h1
  have h2 : Mid d V (if pointInFlight t p then t
      else if (new == .lost || wrongLie (holdersOf t p) new) = true then pointLost p (reportLost p new t)
      else if (new == .normal || new == .reverse) = true then reportMoved p new 3 t else t) := by
    split_ifs
    · exact h1
    · exact h1.reportLost.pointLost
    · exact h1.reportMoved
    · exact h1
  dsimp only
  generalize (if pointInFlight t p then t
      else if (new == .lost || wrongLie (holdersOf t p) new) = true then pointLost p (reportLost p new t)
      else if (new == .normal || new == .reverse) = true then reportMoved p new 3 t else t) = u at h2
  split
  · exact h2.wantReexam.pointTested
  · exact h2.pointTested

/-- The lie derived afresh leaves the point's word in agreement. -/
protected theorem Mid.rederive {p : Nat} (h : Mid (also d (.point p)) V s) : Mid d V (rederive p s) := by
  unfold Machine.rederive
  split
  · next r st _ _ =>
    dsimp only
    split
    · exact h.touchPoint
    · have h1 := (h.setPoint (p := p) (f := fun st' => { st' with lie := derivedLie s p r st })).once
      split
      · exact h1.lieChanged
      · next hr =>
        refine h1.drop ?_ nofun nofun
        simp only [Item.word]
        exact if_neg hr
  · next hno =>
    refine h.drop ?_ nofun nofun
    cases hr : Tbl.find s.pts.recs p with
    | none => simp only [Item.word, hr, Option.map_none, ite_self]
    | some r =>
      obtain ⟨-, st, hst⟩ := h.base.pts.state p r hr
      exact (hno r st hr hst).elim

/-! ### The end of an order (R100) -/

/-- An order ended leaves its own point's word out of date. -/
protected theorem Mid.endOrder (h : Mid d V s) {p : Nat} : Mid (also d (.point p)) V (endOrder p s) := by
  have h1 : Mid d V { s with pts := { s.pts with drives := Tbl.erase s.pts.drives p } } := h.pointsRest rfl rfl rfl rfl rfl
  have h2 := h1.removeOrder (p := p)
  unfold Machine.endOrder
  dsimp only
  split
  · exact h2.wantPass.wantReexam
  · exact h2.wantReexam

/-- The arrival of an order writes its point's word afresh. -/
protected theorem Mid.arrivedAt {p : Nat} (h : Mid (also d (.point p)) V s) {x : Order × Bool} {r : PointRec}
    (ho : Machine.orderOf s p = some x) (hr : Tbl.find s.pts.recs p = some r) : Mid d V (orderArrived p s) := by
  obtain ⟨o, onOverflow⟩ := x
  have h1 : Mid (also d (.point p)) V (if (o.startTime.isNone || decide (65535 < elapsed s o)) = true then useFree s else s) := by
    split
    · exact h.useFree
    · exact h
  unfold Machine.orderArrived
  rw [ho, hr]
  dsimp only
  generalize (if (o.startTime.isNone || decide (65535 < elapsed s o)) = true then useFree s else s) = t at h1
  have h2 := ((h1.endOrder (p := p)).once.setPoint (p := p)
    (f := fun st => { st with assumed := if r.feedback = .none then some o.lie else st.assumed })).once
  generalize setPoint p (fun st => { st with assumed := if r.feedback = .none then some o.lie else st.assumed })
    (endOrder p t) = u at h2
  have h3 := (h2.setPoint (p := p) (f := fun st => { st with lie := derivedLie u p r st })).once.touchPoint
  generalize touchPoint p (setPoint p (fun st => { st with lie := derivedLie u p r st }) u) = w at h3
  split
  · exact h3.report.routeOrderEnded.pointTested
  · exact h3.report.complete.pointTested

protected theorem Mid.orderArrived (h : Mid d V s) {p : Nat} : Mid d V (orderArrived p s) := by
  cases ho : Machine.orderOf s p with
  | none => unfold Machine.orderArrived; rw [ho]; exact h
  | some x =>
    cases hr : Tbl.find s.pts.recs p with
    | none => unfold Machine.orderArrived; rw [ho, hr]; exact h
    | some r => exact Mid.arrivedAt h.also ho hr

protected theorem Mid.failPoint {p : Nat} (h : Mid (also d (.point p)) V s) {c : PointCause} : Mid d V (failPoint p c s) :=
  (h.setPoint (f := fun st => { st with failed := some c, lie := .failed })).once.touchPoint

protected theorem Mid.orderFailed (h : Mid d V s) {p : Nat} {c : PointCause} : Mid d V (orderFailed p c s) := by
  unfold Machine.orderFailed
  split
  · next o _ _ =>
    dsimp only
    split
    · exact h.endOrder.failPoint.report.routeOrderEnded.failRoutes
    · exact h.endOrder.failPoint.report.complete.failRoutes
  · exact h

protected theorem Mid.orderOccupied (h : Mid d V s) {p n : Nat} : Mid d V (orderOccupied p n s) := h.endOrder.touchPoint.complete

/-! ### Starting (R95 to R99) -/

protected theorem Mid.setUnit (h : Mid d V s) {u : Discharge} : Mid d V (setUnit u s) :=
  (h.pointsRest (x := { s.pts with unit := u }) rfl rfl rfl rfl rfl).write8 0x1E _ (by omega)

protected theorem Mid.startPulse (h : Mid d V s) {p : Nat} {o : Order} : Mid d V (startPulse p o s) := by
  have h1 : Mid d V { s with pts := { s.pts with coil := some (p, o.lie), pulseTimer := some s.pts.pulseTime } } :=
    h.pointsRest rfl rfl rfl rfl rfl
  unfold Machine.startPulse
  exact Mid.rederive (h1.setUnit.changeOrder fun _ => rfl)

protected theorem Mid.startTravel (h : Mid d V s) {p : Nat} {o : Order} {r : PointRec} : Mid d V (startTravel p o r s) := by
  have h1 : Mid d V { s with pts := { s.pts with drives := Tbl.insert s.pts.drives p o.lie } } := h.pointsRest rfl rfl rfl rfl rfl
  unfold Machine.startTravel
  exact Mid.rederive (h1.changeOrder fun _ => rfl)

protected theorem Mid.dispatchQueued (h : Mid d V s) {p : Nat} {o : Order} {r : PointRec} : Mid d V (dispatchQueued p o r s) := by
  unfold Machine.dispatchQueued
  split
  · exact h.orderArrived
  · split
    · split
      · exact h
      · exact h.orderOccupied
    · split
      · split
        · exact h.startPulse
        · exact h
      · split
        · exact h.startTravel
        · exact h

protected theorem Mid.dispatchOne (h : Mid d V s) {p : Nat} : Mid d V (dispatchOne p s) := by
  unfold Machine.dispatchOne
  split
  · split
    · split
      · exact h.startPulse
      · exact h
    · split
      · exact h
      · exact h.dispatchQueued
    · exact h
    · exact h
    · exact h
  · exact h

protected theorem Mid.dispatcherPass (h : Mid d V s) : Mid d V (dispatcherPass s) := h.eachDo fun _ _ ht => ht.dispatchOne

/-! ### Contacts (R90) -/

protected theorem Mid.contactChanged {p : Nat} (h : Mid (also d (.point p)) V s) : Mid d V (contactChanged p s) := by
  unfold Machine.contactChanged
  split
  · next ha =>
    unfold awaitsContacts at ha
    split at ha
    · next ho hr => exact h.arrivedAt ho hr
    · cases ha
  · exact h.rederive

theorem mem_pointsOfContact {i p : Nat} {r : PointRec} (hr : Tbl.find s.pts.recs p = some r) (hp : p ∉ pointsOfContact s i) :
    ∀ n m, r.feedback = .pair n m → n ≠ i ∧ m ≠ i := by
  intro n m hf
  have hno : ¬ (n == i || m == i) = true := fun he => hp (List.mem_map.2 ⟨(p, r), List.mem_filter.2 ⟨RouteRelease.mem_of_find hr, by
    dsimp only; rw [hf]; exact he⟩, rfl⟩)
  simp only [Bool.or_eq_true, beq_iff_eq, not_or] at hno
  exact hno

/-- A contact changed: the words of the points that name it are out of date where its level changed. -/
protected theorem Mid.contact (h : Mid d V s) {i : Nat} {c : Contact} {l : List Nat}
    (hl : c.level = contactLevel s i ∨ ∀ p ∈ pointsOfContact s i, p ∈ l) :
    Mid (alsoAll d fun j => ∃ n ∈ l, j = .point n) V
      { s with pts := { s.pts with contacts := Tbl.put Contact.init s.pts.contacts i c } } := by
  have hfit : PtsFit { s.pts with contacts := Tbl.put Contact.init s.pts.contacts i c } :=
    ⟨h.base.pts.recs, RouteRelease.sorted_put _ _ _ h.base.pts.contacts, h.base.pts.state⟩
  have hother {j : Nat} (hj : j ≠ i) : contactLevel { s with pts := { s.pts with
      contacts := Tbl.put Contact.init s.pts.contacts i c } } j = contactLevel s j :=
    congrArg Contact.level (TrackDetection.getD_put_other _ _ _ hj)
  have hself : contactLevel { s with pts := { s.pts with contacts := Tbl.put Contact.init s.pts.contacts i c } } i = c.level :=
    congrArg Contact.level (TrackDetection.getD_put_self _ _ _ h.base.pts.contacts)
  refine h.change (t := { s with pts := { s.pts with contacts := Tbl.put Contact.init s.pts.contacts i c } }) (fun _ => .inl)
    (.of_mem rfl) rfl (fun j hj => ?_) (fun _ hf => ⟨hf, fun hx => hx.same rfl rfl rfl⟩)
    (fun _ hf => ⟨hf, fun hm => hm.same rfl rfl rfl fun c => by cases c <;> rfl⟩) (h.base.pts' (w := s.work) rfl hfit)
  cases j with
  | point p =>
    refine word_point rfl rfl fun r hr => pointWord_congr rfl ?_ rfl rfl
    unfold pointContacts
    cases hf : r.feedback with
    | none => rfl
    | pair n m =>
      have hlevel (k : Nat) (hk : k = n ∨ k = m) : contactLevel { s with pts := { s.pts with
          contacts := Tbl.put Contact.init s.pts.contacts i c } } k = contactLevel s k := by
        by_cases he : k = i
        · obtain hl | hl := hl
          · rw [he, hself, hl]
          · have hp := mem_pointsOfContact hr (fun hp => hj (.inr ⟨p, hl p hp, rfl⟩)) n m hf
            rcases hk with rfl | rfl
            · exact absurd he hp.1
            · exact absurd he hp.2
        · exact hother he
      dsimp only
      rw [hlevel n (.inl rfl), hlevel m (.inr rfl)]
  | _ => rfl

protected theorem Mid.contactSample (h : Mid d V s) {i : Nat} {closed : Bool} : Mid d V (contactSample i closed s) := by
  unfold Machine.contactSample
  dsimp only
  generalize (Tbl.getD s.pts.contacts i Contact.init).sample closed = c
  split
  · next hl => exact (h.contact (l := []) (.inl hl)).mono fun j hj => hj.elim id fun ⟨_, hn, _⟩ => absurd hn List.not_mem_nil
  · exact Mid.eachWritten (P := fun _ => True) (h.contact (.inr fun _ => id)) trivial (fun _ _ => id)
      fun _ _ _ _ ht => ht.contactChanged

/-! ### Expiries -/

protected theorem Mid.startRecharge (h : Mid d V s) : Mid d V (startRecharge s) := by
  have h1 : Mid d V { s with pts := { s.pts with coil := none, pulseTimer := none, rechargeTimer := some s.pts.rechargeTime } } :=
    h.pointsRest rfl rfl rfl rfl rfl
  exact h1.setUnit

protected theorem Mid.pulseEnded (h : Mid d V s) {p : Nat} : Mid d V (pulseEnded p s) := by
  unfold Machine.pulseEnded
  split
  · split
    · exact h.orderArrived
    · exact Mid.rederive (h.changeOrder fun _ => rfl)
  · exact h

protected theorem Mid.pulseExpires (h : Mid d V s) : Mid d V (pulseExpires s) := by
  unfold Machine.pulseExpires
  split
  · exact h
  · split
    · exact h.startRecharge.pulseEnded
    · exact h.startRecharge

protected theorem Mid.windowExpires (h : Mid d V s) {p : Nat} : Mid d V (windowExpires p s) := by
  unfold Machine.windowExpires
  split
  · split
    · exact h
    · split
      · exact h.orderFailed
      · exact ((h.changeOrder (f := fun o => { o with phase := .retry, timer := none }) fun _ => rfl).moveToHead (p := p)).once.rederive
  · exact h

protected theorem Mid.rechargeExpires (h : Mid d V s) : Mid d V (rechargeExpires s) := by
  unfold Machine.rechargeExpires
  split
  · exact h
  · have h1 : Mid d V { s with pts := { s.pts with rechargeTimer := none } } := h.pointsRest rfl rfl rfl rfl rfl
    exact h1.setUnit.wantPass

protected theorem Mid.travelExpires (h : Mid d V s) {p : Nat} : Mid d V (travelExpires p s) := by
  unfold Machine.travelExpires
  split
  · split
    · exact h
    · split
      · exact h.orderArrived
      · exact h.orderFailed
  · exact h

protected theorem Mid.lossExpires (h : Mid d V s) {p : Nat} : Mid d V (lossExpires p s) := by
  unfold Machine.lossExpires
  split
  · exact h
  · exact (Mid.failPoint h.also).report.failRoutes

/-! ### Requests (R101, R102) -/

protected theorem Mid.movePoint (h : Mid d V s) {n p l : Nat} : Mid d V (movePoint n p l s) := by
  unfold Machine.movePoint
  split
  · exact h.complete
  · split
    · exact h.complete
    · exact h.giveOrder
  · exact h

protected theorem Mid.restore (h : Mid d V s) {p : Nat} : Mid d V (restore p s) := by
  unfold Machine.restore
  split
  · exact h
  · next r _ =>
    have h1 := h.setPoint (p := p) (f := fun st => { st with failed := none })
    dsimp only
    generalize setPoint p (fun st => { st with failed := none }) s = t at h1
    have h2 := (h1.setPoint (p := p) (f := fun st => { st with lie := derivedLie t p r st })).once.touchPoint
    generalize touchPoint p (setPoint p (fun st => { st with lie := derivedLie t p r st }) t) = u at h2
    split
    · exact h2.wantReexam.reportMoved.pointTested
    · exact h2.reportMoved.pointTested

protected theorem Mid.restorePoint (h : Mid d V s) {n p : Nat} : Mid d V (restorePoint n p s) := by
  unfold Machine.restorePoint
  split
  · exact h.complete
  · split
    · exact h.complete
    · exact h.restore.complete

end Points

end Sys2Proof.ShownMeanwhile
end

