-- ==== Sys2Proof/Proofs/RequestsShown.lean ====
section
/-! Route requests, the stack and the route timers (chapters 3 and 4), with what is shown (O44). -/

namespace Sys2Proof.ShownMeanwhile

open Sys2Proof.Machine Sys2Proof.MirrorItems

section Requests
variable {d : Item → Prop} {V : Nat → Nat} {s : State}

/-- No route that begins at its entry signal is active where a route passes its checks (R44). -/
theorem entryAt_of_passed {route : Nat} {o : Originator} {again : Bool} {r : RouteRec} (h : routeRefusal s route o again = none)
    (hr : Tbl.find s.ilk.routes route = some r) : entryAt s r.entry = none := by
  unfold routeRefusal at h
  rw [hr] at h
  have hw : wholeRefusal s r route o again = none := (Option.or_eq_none_iff.1 h).1
  unfold wholeRefusal at hw
  split at hw
  · cases hw
  · split at hw
    · cases hw
    · split at hw
      · cases hw
      · next hn => exact hn

/-- The lowest free number has no entry. -/
theorem find_of_lowestFree {α : Type} {t : Tbl α} {n k e : Nat} (h : Tbl.lowestFree t n k = some e) : Tbl.find t e = none := by
  induction n generalizing k with
  | zero => cases h
  | succ n ih =>
    unfold Tbl.lowestFree at h
    split at h
    · exact ih h
    · next hk =>
      cases h
      simpa [Tbl.has] using hk

/-- Each element of a list worked off. -/
protected theorem Mid.foldl {α : Type} {l : List α} {f : State → α → State} (h : Mid d V s) (hf : ∀ x t, Mid d V t → Mid d V (f t x)) :
    Mid d V (l.foldl f s) := by
  induction l generalizing s with
  | nil => exact h
  | cons x l ih => exact ih (hf x s h)

protected theorem Mid.acceptRoute (h : Mid d V s) {route : Nat} {o : Originator} {src : Source}
    (hentry : ∀ r, Tbl.find s.ilk.routes route = some r → entryAt s r.entry = none) : Mid d V (acceptRoute route o src s) := by
  unfold Machine.acceptRoute
  split
  · next r e hr he =>
    have hfree : Tbl.find s.ilk.active e = none := find_of_lowestFree he
    have h1 := h.putActiveNew (a := acceptedEntry route r o src (((routePoints r).filter (needsMoving s)).map Prod.fst)) hfree hr
      (by unfold acceptedEntry; nofun) (hentry r hr)
    have h2 := ((h1.eachDo (l := sequence r) (f := fun n => setLock n (some route)) fun _ _ ht => ht.setLock).foldl
      (l := routePoints r) (f := fun t x => addHolder x.1 x.2 route t) fun _ _ ht => ht.addHolder).foldl
      (l := (routePoints r).filter (needsMoving s)) (f := fun t x => giveOrder (routeOrder e x) t) fun _ _ ht => ht.giveOrder
    have h3 := (Mid.mirrorActive (h2.mono (d' := also (also d (.signal r.entry)) (.active e)) fun i hi =>
      hi.elim (fun x => x.imp .inl id) fun x => .inl (.inr x))).mirrorSignal
    dsimp only
    split
    · exact h3.testProved
    · exact h3.showRouteAccepted.testProved
  · exact h

/-! ### The stack (R52 to R60) -/

protected theorem Mid.joinStack (h : Mid d V s) {route : Nat} {o : Originator} {src : Source} {a : Answer} :
    Mid d V (joinStack route o src a s) := h.setStack

protected theorem Mid.leaveStack (h : Mid d V s) {route : Nat} : Mid d V (leaveStack route s) := h.setStack

theorem mid_requestRoute {route : Nat} {o : Originator} {stack : Bool} {src : Source} (h : Mid d V s) :
    Mid d V (requestRoute route o stack src s).1 := by
  unfold requestRoute
  split
  · next hp => exact h.acceptRoute fun r hr => entryAt_of_passed hp hr
  · split
    · exact h
    · split
      · exact h.joinStack
      · exact h

protected theorem Mid.setRoute (h : Mid d V s) {n route w1 w2 : Nat} : Mid d V (setRoute n route w1 w2 s) := by
  unfold Machine.setRoute
  split
  · exact h.complete
  · next o _ =>
    split
    · exact h.complete
    · have h1 := mid_requestRoute (route := route) (o := o) (stack := bitsOf w2 0 1 == 1) (src := .slot n) h
      split
      · next he => rw [he] at h1; exact h1
      · next he => rw [he] at h1; exact h1.complete

protected theorem Mid.answerStacked (h : Mid d V s) {x : StackEntry} {a : Answer} : Mid d V (answerStacked x a s) := by
  unfold Machine.answerStacked
  split
  · exact h.complete
  · exact h.showRouteFailed

protected theorem Mid.keepStacked (h : Mid d V s) {x : StackEntry} {a : Answer} : Mid d V (keepStacked x a s) := by
  unfold Machine.keepStacked
  split
  · exact h
  · exact h.setStack

/-- The stack's mirror leaves the routes. -/
theorem entryAt_leaveStack (route x : Nat) (s : State) : entryAt (leaveStack route s) x = entryAt s x := by
  rw [entryAt_eq, entryAt_eq, show (leaveStack route s).ilk = _ from setStack_ilk _ _]

protected theorem Mid.reexamineOne (h : Mid d V s) {route : Nat} : Mid d V (reexamineOne route s) := by
  unfold Machine.reexamineOne
  split
  · exact h
  · split
    · next hp =>
      refine h.leaveStack.acceptRoute fun r hr => ?_
      rw [entryAt_leaveStack]
      rw [show (leaveStack route s).ilk = _ from setStack_ilk _ _] at hr
      exact entryAt_of_passed hp hr
    · split
      · exact h.keepStacked
      · exact h.leaveStack.answerStacked

protected theorem Mid.reexamine (h : Mid d V s) : Mid d V (reexamine s) :=
  (h.eachDo (l := s.ilk.stack.map StackEntry.route) (f := reexamineOne) fun _ _ ht => ht.reexamineOne).work id id

protected theorem Mid.stackExpires (h : Mid d V s) {route : Nat} : Mid d V (stackExpires route s) := by
  unfold Machine.stackExpires
  split
  · exact h
  · split
    · exact h
    · exact h.leaveStack.answerStacked

protected theorem Mid.removeShowEntries (h : Mid d V s) {sh : Nat} : Mid d V (removeShowEntries sh s) := by
  unfold Machine.removeShowEntries
  split
  · exact h.setStack
  · exact h

/-! ### CANCEL_ROUTE (R80 to R83) and the route timers -/

protected theorem Mid.cancelSetting (h : Mid d V s) {e : Nat} {a : Active} : Mid d V (cancelSetting e a s) := by
  have h1 : Mid d V (tellShow a (fun sh r => showRouteFailed sh r .cancelled 0) (answerSlot e .cancelled 0 0 (withdraw e s))) :=
    h.withdraw.answerSlot.tellShow fun _ _ _ ht => ht.showRouteFailed
  unfold Machine.cancelSetting
  dsimp only
  split
  · exact h1
  · next b hb =>
    split
    · exact h1.releaseWhole
    · exact h1.cancelling hb rfl

protected theorem Mid.giveUp (h : Mid d V s) {e : Nat} {why : Ending} : Mid d V (giveUp e why s) := by
  unfold Machine.giveUp
  split
  · exact h
  · split
    · exact h.releaseWhole
    · dsimp only
      split
      · exact h.withdraw
      · next b hb =>
        split
        · exact h.withdraw.releaseWhole
        · exact h.withdraw.cancelling hb rfl

protected theorem Mid.cancelSet (h : Mid d V s) {e : Nat} {a : Active} (ha : Tbl.find s.ilk.active e = some a) :
    Mid d V (cancelSet e a s) := by
  unfold Machine.cancelSet
  split
  · exact h
  · next r _ =>
    split
    · exact h.giveUp
    · split
      · exact h.giveUp
      · exact Mid.wantAspects ((h.also (i := .aspects)).setActive
          (a := { a with state := .approachLocked, timer := some (1000 * r.approachTime) }) ha rfl (.inr (.inr (.inr rfl)))).report

theorem mid_cancelRoute {route : Nat} {byShow : Bool} (h : Mid d V s) : Mid d V (cancelRoute route byShow s).1 := by
  unfold cancelRoute
  split
  · exact h
  · split
    · split
      · exact h
      · exact h.leaveStack.answerStacked
    · split
      · exact h
      · next e a he =>
        have ha : Tbl.find s.ilk.active e = some a := TrackRequests.find_of_mem h.base.active (List.mem_of_find?_eq_some he)
        split
        · exact h
        · split
          · exact h.cancelSetting
          · exact h.cancelSet ha
          · exact h.cancelSet ha
          · exact h
          · exact h
          · exact h

protected theorem Mid.cancelRequest (h : Mid d V s) {n route : Nat} : Mid d V (cancelRequest n route s) :=
  (mid_cancelRoute (route := route) (byShow := false) h).complete

protected theorem Mid.overlapExpires (h : Mid d V s) {e : Nat} : Mid d V (overlapExpires e s) := by
  unfold Machine.overlapExpires
  split
  · exact h
  · split
    · exact h.releaseOverlap
    · exact h

protected theorem Mid.approachExpires (h : Mid d V s) {e : Nat} : Mid d V (approachExpires e s) := by
  unfold Machine.approachExpires
  split
  · exact h
  · split
    · exact h.giveUp
    · exact h

end Requests

end Sys2Proof.ShownMeanwhile
end

