-- ==== Sys2Proof/Proofs/TurntableShown.lean ====
section
/-! The turntable controller (chapter 7), with what is shown (O44). -/

namespace Sys2Proof.ShownMeanwhile

open Sys2Proof.Machine Sys2Proof.MirrorItems

section Deck
variable {d : Item → Prop} {V : Nat → Nat} {s : State}

/-! ### Outputs, reports, answers -/

/-- The deck changed, not its records. -/
protected theorem Mid.turn (h : Mid d V s) {f : Turntable → Turntable} (h1 : (f s.tt).deck = s.tt.deck) (h2 : (f s.tt).roads = s.tt.roads) :
    Mid d V (setDeck f s) := h.setDeck fun _ => ⟨h1, h2⟩

protected theorem Mid.updateFeed (h : Mid d V s) : Mid d V (updateFeed s) := h.turn rfl rfl

/-- A new deck state: the deck's mirror is rewritten with the feed. -/
protected theorem Mid.enterDeck (h : Mid d V s) {new : DeckState} : Mid d V (enterDeck new s) := by
  have h1 : Mid (also (alsoAll d tables) .modes) V { s with tt := { s.tt with state := new } } :=
    h.deck (w := s.work) (fun i hi => .inl hi) (fun _ => ⟨rfl, rfl⟩) id fun hi => absurd (.inr rfl) hi
  have h2 : Mid d V (updateFeed { s with tt := { s.tt with state := new } }) := by
    have h3 : Mid (also (alsoAll d tables) .modes) V { s with tt := { s.tt with
        state := new, feed := feedOn { s with tt := { s.tt with state := new } } } } :=
      h1.deck (w := s.work) (fun i hi => hi.elim id fun x => .inl (.inr x)) (fun _ => ⟨rfl, rfl⟩) id fun hi => absurd (.inr rfl) hi
    exact (h3.wantLamps (w := { s.work with lamps := true }) id rfl).mirrorTable
  unfold Machine.enterDeck
  dsimp only
  split
  · exact h2.evalStop.report
  · exact h2.report

protected theorem Mid.answerRequester (h : Mid d V s) {res : Result} {w0 w1 : Nat} : Mid d V (answerRequester res w0 w1 s) := by
  have h1 : Mid d V (setDeck (fun t => { t with requester := .none }) s) := h.turn rfl rfl
  unfold Machine.answerRequester
  dsimp only
  split
  · exact h1.complete
  · exact h1.showTurnAnswer
  · exact h1
  · exact h1

/-! ### FAULT, HALTED, ALIGNED -/

protected theorem Mid.enterFault (h : Mid d V s) {c : FaultCause} : Mid d V (enterFault c s) :=
  (h.turn (f := fun t => { t.quiet with boltOut := false, fault := some c, align := none, target := none }) rfl rfl).enterDeck.answerRequester

protected theorem Mid.enterHalted (h : Mid d V s) : Mid d V (enterHalted s) :=
  (h.turn (f := fun t => { t.quiet with target := none, requester := .none }) rfl rfl).enterDeck

protected theorem Mid.enterUnreferenced (h : Mid d V s) : Mid d V (enterUnreferenced s) :=
  (h.turn (f := fun t => { t.quiet with target := none, requester := .none, boltOut := false, pos := none }) rfl rfl).enterDeck

protected theorem Mid.takeAlignment (h : Mid d V s) {x : RoadEnd} : Mid d V (takeAlignment x s) := h.turn rfl rfl

protected theorem Mid.enterAligned (h : Mid d V s) : Mid d V (enterAligned s) := by
  unfold Machine.enterAligned
  split
  · exact h.enterHalted
  · exact (h.turn (f := fun t => t.quiet) rfl rfl).takeAlignment.enterDeck.answerRequester.wantReexam

/-! ### Bolt and settling (R126, R127) -/

protected theorem Mid.enterBolting (h : Mid d V s) {x : DeckRec} : Mid d V (enterBolting x s) := by
  have h1 := (h.turn (f := fun t => { t with settleTimer := none, boltOut := if x.bolt then false else t.boltOut }) rfl rfl).enterDeck
    (new := .bolting)
  unfold Machine.enterBolting
  dsimp only
  generalize enterDeck .bolting (setDeck (fun t => { t with settleTimer := none, boltOut := if x.bolt then false else t.boltOut }) s) = u at h1 ⊢
  split
  · exact h1.enterAligned
  · split
    · exact h1.enterFault
    · exact h1.turn rfl rfl

protected theorem Mid.enterSettling (h : Mid d V s) {x : DeckRec} : Mid d V (enterSettling x s) := by
  have h1 := (h.turn (f := fun t => t.quiet) rfl rfl).enterDeck (new := .settling)
  unfold Machine.enterSettling
  dsimp only
  split
  · exact h1.enterBolting
  · exact h1.turn rfl rfl

/-! ### Moves -/

protected theorem Mid.planMove (h : Mid d V s) {x : DeckRec} {goal : Nat} : Mid d V (planMove x goal s) := by
  unfold Machine.planMove
  split
  · exact h
  · exact h.turn rfl rfl

protected theorem Mid.beginLeg (h : Mid d V s) {x : DeckRec} : Mid d V (beginLeg x s) := h.turn rfl rfl

protected theorem Mid.enterMoving (h : Mid d V s) {x : DeckRec} : Mid d V (enterMoving x s) := h.beginLeg.enterDeck

protected theorem Mid.snapDecision (h : Mid d V s) {x : DeckRec} : Mid d V (snapDecision x s) := by
  have h1 := h.turn (f := fun t => t.quiet) rfl rfl
  unfold Machine.snapDecision
  dsimp only
  split
  · exact h1.enterHalted
  · split
    · exact h1.enterHalted
    · next y goal _ =>
      have h2 := h1.turn (f := fun t => { t with target := some y }) rfl rfl
      split
      · exact h2.enterSettling
      · exact h2.planMove.enterMoving

protected theorem Mid.enterStopping (h : Mid d V s) {x : DeckRec} : Mid d V (enterStopping x s) := by
  unfold Machine.enterStopping
  dsimp only
  exact (h.turn rfl rfl).enterDeck

protected theorem Mid.enterJogging (h : Mid d V s) {x : DeckRec} : Mid d V (enterJogging x s) := by
  have h1 := (h.turn (f := fun t => { t with legCw := t.jogCw, legSteps := 0, legDone := 0, returnSteps := 0 }) rfl rfl).enterDeck
    (new := .jogging)
  unfold Machine.enterJogging
  dsimp only
  split
  · exact h1.snapDecision
  · exact h1.turn rfl rfl

protected theorem Mid.enterHoming (h : Mid d V s) {x : DeckRec} : Mid d V (enterHoming x s) := by
  unfold Machine.enterHoming
  dsimp only
  exact (h.useFree.turn rfl rfl).enterDeck

protected theorem Mid.endUnbolting (h : Mid d V s) {x : DeckRec} : Mid d V (endUnbolting x s) := by
  have h1 := h.turn (f := fun t => { t with boltTimer := none }) rfl rfl
  unfold Machine.endUnbolting
  dsimp only
  split
  · split
    · exact h1.enterHalted
    · exact h1.enterUnreferenced
  · split
    · split
      · exact h1.snapDecision
      · exact h1.enterJogging
    · split
      · exact h1.enterHoming
      · exact h1.enterMoving

protected theorem Mid.enterUnbolting (h : Mid d V s) {x : DeckRec} : Mid d V (enterUnbolting x s) := by
  have h1 := (h.turn (f := fun t => { t with align := none, boltOut := if x.bolt then true else t.boltOut }) rfl rfl).enterDeck
    (new := .unbolting)
  unfold Machine.enterUnbolting
  dsimp only
  generalize enterDeck .unbolting (setDeck (fun t => { t with align := none, boltOut := if x.bolt then true else t.boltOut }) s) = u at h1 ⊢
  split
  · exact h1.endUnbolting
  · split
    · exact h1.enterFault
    · exact h1.turn rfl rfl

/-! ### Requests (R128 to R133) -/

theorem mid_turnAccepted {x : DeckRec} {q : Requester} {y : RoadEnd} (h : Mid d V s) : Mid d V (turnAccepted x q y s).1 := by
  have h2 := h.turn (f := fun t => { t with requester := q, target := some y }) rfl rfl
  unfold turnAccepted
  dsimp only
  split
  · exact h.takeAlignment.updateFeed.report.wantReexam
  · split
    · exact h2.planMove.enterUnbolting
    · split
      · exact h2.planMove.enterBolting
      · exact h2.planMove.enterMoving

theorem mid_turnRequest {q : Requester} {road deckEnd : Nat} (h : Mid d V s) : Mid d V (turnRequest q road deckEnd s).1 := by
  unfold turnRequest
  split
  · split_ifs
    · exact h
    · exact h
    · exact h
    · exact h
    · split
      · exact h
      · exact mid_turnAccepted h
  · exact h

protected theorem Mid.turnTable (h : Mid d V s) {n road deckEnd : Nat} : Mid d V (turnTable n road deckEnd s) := by
  have h1 := mid_turnRequest (q := .slot n) (road := road) (deckEnd := deckEnd) h
  unfold Machine.turnTable
  split
  · next he => rw [he] at h1; exact h1
  · next he => rw [he] at h1; exact h1.complete

protected theorem Mid.homeAccepted (h : Mid d V s) {x : DeckRec} {n : Nat} {y : RoadEnd} : Mid d V (homeAccepted x n y s) := by
  have h1 := h.turn (f := fun t => { t with requester := .slot n, target := some y, fault := none, pos := none, align := none }) rfl rfl
  unfold Machine.homeAccepted
  dsimp only
  split
  · exact h1.enterHoming
  · exact h1.enterUnbolting

protected theorem Mid.homeTable (h : Mid d V s) {n road deckEnd : Nat} : Mid d V (homeTable n road deckEnd s) := by
  unfold Machine.homeTable
  split
  · split_ifs
    · exact h.complete
    · exact h.complete
    · exact h.complete
    · split
      · exact h.complete
      · exact h.homeAccepted
  · exact h.complete

protected theorem Mid.stopTable (h : Mid d V s) {n : Nat} : Mid d V (stopTable n s) := by
  have h1 := h.turn (f := fun t => { t with requester := .none, target := none }) rfl rfl
  unfold Machine.stopTable
  dsimp only
  refine Mid.complete ?_
  split
  · exact h
  · split
    · exact (h1.enterStopping.turn rfl rfl).answerRequester
    · exact h

/-! ### Step boundaries -/

protected theorem Mid.nextStep (h : Mid d V s) {v : Nat} : Mid d V (nextStep v s) := h.turn rfl rfl

protected theorem Mid.legEnds (h : Mid d V s) {x : DeckRec} : Mid d V (legEnds x s) := by
  unfold Machine.legEnds
  split
  · exact (h.turn rfl rfl).beginLeg.enterDeck
  · exact h.enterSettling

protected theorem Mid.legBoundary (h : Mid d V s) {x : DeckRec} : Mid d V (legBoundary x s) := by
  have h1 := h.turn (f := fun t => { t with legSteps := t.legSteps - 1, legDone := t.legDone + 1 }) rfl rfl
  unfold Machine.legBoundary
  dsimp only
  split
  · exact h1.legEnds
  · exact h1.nextStep

protected theorem Mid.stopBoundary (h : Mid d V s) {x : DeckRec} {v : Nat} : Mid d V (stopBoundary x v s) := by
  have h1 := h.turn (f := fun t => { t with legSteps := t.legSteps - 1 }) rfl rfl
  unfold Machine.stopBoundary
  dsimp only
  split
  · split
    · exact h1.snapDecision
    · exact h1.enterHalted
  · exact h1.nextStep

protected theorem Mid.jogBoundary (h : Mid d V s) {x : DeckRec} : Mid d V (jogBoundary x s) := by
  have h1 := h.turn (f := fun t => { t with legDone := t.legDone + 1 }) rfl rfl
  unfold Machine.jogBoundary
  dsimp only
  split
  · exact h1.nextStep.enterStopping
  · exact h1.nextStep

protected theorem Mid.homingBoundary (h : Mid d V s) {x : DeckRec} {before now : Bool} : Mid d V (homingBoundary x before now s) := by
  have h1 := h.turn (f := fun t => { t with search := t.search + 1 }) rfl rfl
  have h2 := h1.turn (f := fun t => { t.quiet with pos := some x.indexOffset }) rfl rfl
  unfold Machine.homingBoundary
  dsimp only
  split
  · split
    · exact h2.enterHalted
    · split
      · exact h2.enterSettling
      · exact h2.planMove.enterMoving
  · split
    · exact h1.enterFault
    · exact h1.nextStep

protected theorem Mid.boundary (h : Mid d V s) {index : Bool} : Mid d V (boundary index s) := by
  unfold Machine.boundary
  split
  · next x g _ _ =>
    have h1 := h.turn (f := fun t => { t with lastIndex := index, stepOut := false, pos := t.pos.map (stepFrom x.c t.legCw) }) rfl rfl
    dsimp only
    generalize setDeck (fun t => { t with lastIndex := index, stepOut := false, pos := t.pos.map (stepFrom x.c t.legCw) }) s = u at h1
    have halted (w : State) (hw : Mid d V w) : Mid d V (if u.tt.halting then enterHalted u else w) := by
      split
      · exact h1.enterHalted
      · exact hw
    split
    · exact halted _ h1.legBoundary
    · exact halted _ h1.legBoundary
    · exact halted _ h1.stopBoundary
    · exact halted _ h1.jogBoundary
    · split
      · exact h1.enterUnreferenced
      · exact h1.homingBoundary
    all_goals exact h1
  · exact h

protected theorem Mid.stepActive (h : Mid d V s) : Mid d V (stepActive s) := by
  unfold Machine.stepActive
  split
  · exact h
  · next g _ =>
    split
    · exact h
    · refine Mid.mirrorTable (h.deck (w := s.work) (fun i hi => hi) (fun _ => ⟨rfl, rfl⟩) id fun _ hf => ⟨hf, rfl, rfl⟩)

/-! ### Contacts and timers -/

protected theorem Mid.boltContactChanged (h : Mid d V s) : Mid d V (boltContactChanged s) := by
  unfold Machine.boltContactChanged
  split
  · exact h
  · split_ifs
    · exact h
    · exact h.endUnbolting
    · exact h.enterAligned
    · exact h

protected theorem Mid.boltSample (h : Mid d V s) {c : BoltContact} {closed : Bool} : Mid d V (boltSample c closed s) := by
  have counted {u : State} (hu : Mid d V u) : Mid d V (if (decide (u.tt.boltIn.level = s.tt.boltIn.level)
      && decide (u.tt.boltOutC.level = s.tt.boltOutC.level)) = true then u else boltContactChanged u) := by
    split
    · exact hu
    · exact hu.boltContactChanged
  cases c with
  | boltIn => exact counted (h.turn rfl rfl)
  | boltOut => exact counted (h.turn rfl rfl)

protected theorem Mid.boltExpires (h : Mid d V s) : Mid d V (boltExpires s) := by
  unfold Machine.boltExpires
  split
  · exact h
  · exact h.enterFault

protected theorem Mid.settleExpires (h : Mid d V s) : Mid d V (settleExpires s) := by
  unfold Machine.settleExpires
  split
  · exact h.enterBolting
  · exact h

/-! ### Jogging (R135, R136), ALL STOP (R138) -/

protected theorem Mid.jogPress (h : Mid d V s) {cw : Bool} : Mid d V (jogPress cw s) := by
  have h1 := h.turn (f := fun t => { t with requester := .jog, jogCw := cw, jogHold := some 20000, jogReleased := false }) rfl rfl
  unfold Machine.jogPress
  split
  · exact h
  · split
    · dsimp only
      split
      · exact h1.enterUnbolting
      · exact h1.enterJogging
    · exact h

protected theorem Mid.releaseJog (h : Mid d V s) : Mid d V (releaseJog s) := by
  unfold Machine.releaseJog
  split
  · exact h
  · split_ifs
    · exact h.turn rfl rfl
    · exact h.enterStopping
    · exact h
    · exact h

protected theorem Mid.jogButtonReleased (h : Mid d V s) {cw : Bool} : Mid d V (jogButtonReleased cw s) := by
  unfold Machine.jogButtonReleased
  split
  · exact h.releaseJog
  · exact h

protected theorem Mid.jogHoldExpires (h : Mid d V s) : Mid d V (jogHoldExpires s) := by
  unfold Machine.jogHoldExpires
  split
  · exact h
  · exact h.releaseJog

protected theorem Mid.deckSectionLeft (h : Mid d V s) {n : Nat} : Mid d V (deckSectionLeft n s) := by
  unfold Machine.deckSectionLeft
  split
  · exact h
  · split
    · exact h.releaseJog
    · exact h

protected theorem Mid.deckAllStop (h : Mid d V s) : Mid d V (deckAllStop s) := by
  unfold Machine.deckAllStop
  split
  · exact (h.turn rfl rfl).answerRequester
  · exact h.updateFeed

end Deck

end Sys2Proof.ShownMeanwhile
end

