-- ==== Sys2Proof/Proofs/VisitorsShown.lean ====
section
/-! The visitor unit and the panel (chapters 9 and 10), with what is shown (O44). -/

namespace Sys2Proof.ShownMeanwhile

open Sys2Proof.Machine Sys2Proof.MirrorItems

section Visitors
variable {d : Item → Prop} {V : Nat → Nat} {s : State}

/-! ### Panel power (R180 to R182) -/

protected theorem Mid.changePanel (h : Mid d V s) {p : Panel} {cause item : Nat} : Mid d V (changePanel p cause item s) := by
  unfold Machine.changePanel
  dsimp only
  split
  · exact h
  · exact h.setPanelState.report

protected theorem Mid.idleExpires (h : Mid d V s) : Mid d V (idleExpires s) := by
  unfold Machine.idleExpires
  split
  · exact h
  · dsimp only
    split
    · exact h.changePanel.loadIdle
    · exact h.changePanel.loadIdle
    · exact h.changePanel.stopIdle
    · exact h.stopIdle

protected theorem Mid.wakeByPress (h : Mid d V s) {b : Nat} : Mid d V (wakeByPress b s) := by
  unfold Machine.wakeByPress
  dsimp only
  split
  · exact h.changePanel.stopIdle
  · exact h.changePanel.loadIdle

/-! ### The end of a show (R166 to R168) -/

protected theorem Mid.startCoolDown (h : Mid d V s) {sh : Nat} : Mid d V (startCoolDown sh s) := by
  unfold Machine.startCoolDown
  split
  · exact h
  · split
    · exact h
    · exact h.visitorRest rfl rfl rfl

/-- The runner changed: the modes are out of date. -/
protected theorem Mid.runnerSet (h : Mid (also d .modes) V s) {x : VisitorUnit} (hf : x.filters = s.vis.filters)
    (hm : x.lamps = s.vis.lamps) : Mid (also d .modes) V { s with vis := x } :=
  h.visitors (w := s.work) ⟨hf ▸ h.base.vis.filters, hm ▸ h.base.vis.lamps⟩ (fun _ => id) id fun hi => absurd (.inr rfl) hi

/-- An idle runner asks for the lamps. -/
protected theorem Mid.runnerIdle (h : Mid (also d .modes) V s) {sh : Nat} {o : ShowOutcome} : Mid d V (runnerIdle sh o s) := by
  have h1 : Mid (also d .modes) V { s with vis := { s.vis with runner := none, last := some (sh, o) } } := h.runnerSet rfl rfl
  exact (h1.wantLamps (w := { s.work with lamps := true, step := none }) id rfl).loadIdle

protected theorem Mid.reportEnded (h : Mid d V s) {r : Runner} {o : ShowOutcome} {reason w : Nat} :
    Mid d V (reportEnded r o reason w s) := h.report

protected theorem Mid.endShow (h : Mid d V s) {r : Runner} : Mid d V (endShow r s) :=
  Mid.runnerIdle h.also.startCoolDown.reportEnded

protected theorem Mid.abortRoute (h : Mid d V s) {route : Nat} : Mid d V (abortRoute route s) := by
  unfold Machine.abortRoute
  split
  · exact h
  · split
    · exact mid_cancelRoute h
    · exact h

protected theorem Mid.abortShow (h : Mid d V s) {o : ShowOutcome} {reason w : Nat} : Mid d V (abortShow o reason w s) := by
  unfold Machine.abortShow
  split
  · exact h
  · next r _ =>
    have hw : Mid (also d .modes) V { s with work := { s.work with step := none } } := h.also.work id id
    have h1 : Mid (also d .modes) V (setRunner none { s with work := { s.work with step := none } }) := hw.runnerSet rfl rfl
    dsimp only
    generalize setRunner none { s with work := { s.work with step := none } } = u at h1
    split
    · exact h1.startCoolDown.runnerIdle
    · exact (h1.eachDo fun _ _ ht => ht.abortRoute).removeShowEntries.startCoolDown.reportEnded.runnerIdle

/-! ### Steps (R161 to R165) -/

protected theorem Mid.enterWait (h : Mid d V s) {r : Runner} {p : StepPhase} {limit : Nat}
    (hr : s.vis.runner.map Runner.show_ = some r.show_) : Mid d V (enterWait r p limit s) := h.setRunner hr.symm

protected theorem Mid.endStep (h : Mid d V s) {e : StepEnd} : Mid d V (endStep e s) := by
  unfold Machine.endStep
  split
  · exact h
  · next r hr => exact h.stepEnds (by rw [hr]; rfl)

protected theorem Mid.refuseStep (h : Mid d V s) {a : Answer} : Mid d V (refuseStep a s) := h.endStep

protected theorem Mid.beginWaitSection (h : Mid d V s) {r : Runner} {n limit : Nat} {occupied : Bool}
    (hr : s.vis.runner.map Runner.show_ = some r.show_) : Mid d V (beginWaitSection r n occupied limit s) := by
  unfold Machine.beginWaitSection
  split
  · exact h.refuseStep
  · split_ifs
    · exact h.refuseStep
    · exact h.endStep
    · exact h.enterWait hr

protected theorem Mid.cancelStepEnds (h : Mid d V s) {a : Answer} : Mid d V (cancelStepEnds a s) := by
  unfold Machine.cancelStepEnds
  split
  · exact h.endStep
  · exact h.refuseStep

protected theorem Mid.cancelStep (h : Mid d V s) {route : Nat} : Mid d V (cancelStep route s) := by
  unfold Machine.cancelStep
  split
  · exact (mid_cancelRoute (route := route) (byShow := true) h).cancelStepEnds
  · exact h.refuseStep

protected theorem Mid.beginStepOf (h : Mid d V s) {r : Runner} (hr : s.vis.runner.map Runner.show_ = some r.show_) :
    Mid d V (beginStepOf r s) := by
  unfold Machine.beginStepOf
  split
  · exact h
  · next route limit _ =>
    have h1 := mid_requestRoute (route := route) (o := .visitor) (stack := true) (src := .show_ r.show_)
      (h.enterWait (p := .waitRoute) (limit := limit) hr)
    split
    · next he => rw [he] at h1; exact h1
    · next he => rw [he] at h1; exact h1.refuseStep
  · exact h.cancelStep
  · next x _ =>
    have h1 := mid_turnRequest (q := .show_ r.show_) (road := x.road) (deckEnd := if x.deckEnd = .a then 0 else 1)
      (h.enterWait (p := .waitTable) (limit := 0) hr)
    split
    · next he => rw [he] at h1; exact h1
    · next he =>
      rw [he] at h1
      split
      · exact h1.endStep
      · exact h1.refuseStep
  · exact h.beginWaitSection hr
  · exact h.enterWait hr

protected theorem Mid.afterStep (h : Mid d V s) {e : StepEnd} : Mid d V (afterStep e s) := by
  have hw : Mid d V { s with work := { s.work with step := none } } := h.work id id
  unfold Machine.afterStep
  dsimp only
  split
  · exact hw
  · next r hr =>
    split
    · exact hw.abortShow
    · split
      · exact (hw.setRunner (r := some { r with step := r.step + 1, phase := .none, stepTimer := none })
          (by rw [hr]; rfl)).beginStepOf rfl
      · exact hw.endShow

protected theorem Mid.runSteps (h : Mid d V s) {n : Nat} : Mid d V (runSteps n s) := by
  induction n generalizing s with
  | zero => exact h
  | succ n ih =>
    unfold Machine.runSteps
    split
    · exact h
    · exact ih h.afterStep

protected theorem Mid.runVisitor (h : Mid d V s) : Mid d V (runVisitor s) := h.runSteps

/-! ### The queue (R159 to R161) -/

/-- The panel and its reports leave the runner. -/
theorem runner_changePanel (p : Panel) (cause item : Nat) (s : State) : (changePanel p cause item s).vis = s.vis := by
  unfold changePanel
  dsimp only
  split
  · rfl
  · exact (report_vis ..).trans (setPanelState_vis ..)

/-- The first step of the show that the runner has just taken. -/
protected theorem Mid.showBegins {r : Runner} (h : Mid (also d .modes) V s) (hr : s.vis.runner = some r) {sh : Nat} :
    Mid d V (runVisitor (beginStepOf r (stopIdle (changePanel .awake 3 sh { s with work := { s.work with lamps := true } })))) := by
  have h1 := (h.wantLamps (w := { s.work with lamps := true }) id rfl).changePanel (p := .awake) (cause := 3) (item := sh)
  refine (h1.stopIdle.beginStepOf ?_).runVisitor
  rw [show (stopIdle (changePanel .awake 3 sh { s with work := { s.work with lamps := true } })).vis = s.vis from
    runner_changePanel .awake 3 sh { s with work := { s.work with lamps := true } }, hr]
  rfl

protected theorem Mid.takeShow (h : Mid d V s) {sh : Nat} {src : ShowSource} {rest : List (Nat × ShowSource)} :
    Mid d V (takeShow sh src rest s) := by
  have taken (r : Runner) : Mid (also d .modes) V { s with vis := { s.vis with queue := rest, runner := some r } } :=
    Mid.runnerSet h.also rfl rfl
  refine Mid.showBegins (s := report .showStarted sh (halves src.fields.1 src.fields.2) rest.length
    (setVisitors (fun v => { v with queue := rest, runner := some _ }) s)) (taken _).report ?_
  rw [report_vis]
  rfl

protected theorem Mid.testHead (h : Mid d V s) : Mid d V (testHead s) := by
  unfold Machine.testHead
  split
  · exact h
  · split
    · exact h.takeShow
    · exact h

protected theorem Mid.testHeads (h : Mid d V s) {n : Nat} : Mid d V (testHeads n s) := by
  induction n generalizing s with
  | zero => exact h
  | succ n ih =>
    unfold Machine.testHeads
    split
    · exact h
    · exact ih h.testHead

protected theorem Mid.joinQueue (h : Mid d V s) {sh : Nat} {src : ShowSource} : Mid d V (joinQueue sh src s) := h.visitorRest rfl rfl rfl

/-! ### Buttons (R154 to R156) -/

protected theorem Mid.reportPress (h : Mid d V s) {b : Nat} {o : PressOutcome} {sh : Option Nat} : Mid d V (reportPress b o sh s) := h.report

protected theorem Mid.showPress (h : Mid d V s) {b : Nat} : Mid d V (showPress b s) := by
  unfold Machine.showPress
  dsimp only
  split
  · exact h.joinQueue.reportPress.wakeByPress
  · exact h.reportPress.wakeByPress

protected theorem Mid.jogButtonPress (h : Mid d V s) {b : Nat} : Mid d V (jogButtonPress b s) := by
  unfold Machine.jogButtonPress
  dsimp only
  split
  · exact h.reportPress.wakeByPress.jogPress
  · exact h.reportPress.wakeByPress

protected theorem Mid.buttonChanged (h : Mid d V s) {b : Nat} {pressed : Bool} : Mid d V (buttonChanged b pressed s) := by
  unfold Machine.buttonChanged
  split_ifs
  · exact h.showPress
  · exact h.jogButtonPress
  · exact h
  · exact h.jogButtonReleased

protected theorem Mid.buttonSampled (h : Mid d V s) {b : Nat} {pressed : Bool} : Mid d V (buttonSampled b pressed s) := by
  have filtered (g : Filter) : Mid d V { s with vis := { s.vis with filters := Tbl.put Filter.init s.vis.filters b g } } :=
    h.visitors (w := s.work) ⟨RouteRelease.sorted_put _ _ _ h.base.vis.filters, h.base.vis.lamps⟩ (fun _ => id) id fun _ hf => ⟨hf, rfl⟩
  unfold Machine.buttonSampled
  dsimp only
  split
  · exact filtered _
  · exact (filtered _).buttonChanged

/-! ### Timers and requests -/

protected theorem Mid.stepTimerExpires (h : Mid d V s) : Mid d V (stepTimerExpires s) := by
  unfold Machine.stepTimerExpires
  split
  · exact h
  · next r hr =>
    split
    · exact h
    · exact h.stepEnds (by rw [hr]; rfl)

protected theorem Mid.durationExpires (h : Mid d V s) : Mid d V (durationExpires s) := by
  unfold Machine.durationExpires
  split
  · exact h
  · exact h.abortShow

protected theorem Mid.coolDownExpires (h : Mid d V s) {sh : Nat} : Mid d V (coolDownExpires sh s) := by
  unfold Machine.coolDownExpires
  split
  · exact h.visitorRest rfl rfl rfl
  · exact h

protected theorem Mid.visitorSection (h : Mid d V s) {n : Nat} {new : SectionState} : Mid d V (visitorSection n new s) := by
  unfold Machine.visitorSection
  split
  · exact h
  · next r hr =>
    split
    · split
      · exact h.stepEnds (by rw [hr]; rfl)
      · exact h
    · exact h

protected theorem Mid.runShow (h : Mid d V s) {n sh : Nat} : Mid d V (runShow n sh s) := by
  unfold Machine.runShow
  split_ifs
  · exact h.complete
  · exact h.complete
  · exact h.complete
  · exact h.complete
  · exact h.complete
  · exact h.joinQueue.complete

protected theorem Mid.suspendVisitors (h : Mid d V s) {n : Nat} : Mid d V (suspendVisitors n s) := by
  unfold Machine.suspendVisitors
  split
  · exact h.complete
  · have h1 : Mid d V (setVisitors (fun v => { v with suspended := true }) s) := h.visitorRest rfl rfl rfl
    have h2 : Mid d V (setVisitors (fun v => { v with queue := [] })
        (abortShow .suspended 0 0 (setVisitors (fun v => { v with suspended := true }) s))) := h1.abortShow.visitorRest rfl rfl rfl
    exact h2.complete

protected theorem Mid.resumeVisitors (h : Mid d V s) {n : Nat} : Mid d V (resumeVisitors n s) := by
  have h1 : Mid d V (setVisitors (fun v => { v with suspended := false }) s) := h.visitorRest rfl rfl rfl
  exact h1.complete

end Visitors

end Sys2Proof.ShownMeanwhile
end

