-- ==== Sys2Proof/Proofs/SignalsShown.lean ====
section
/-! The aspect unit (chapter 6), with what is shown (O44). -/

namespace Sys2Proof.ShownMeanwhile

open Sys2Proof.Machine Sys2Proof.MirrorItems

section Signals
variable {d : Item → Prop} {V : Nat → Nat} {s : State}

/-! ### Aspects (R111) -/

/-- A signal recomputed while the aspects are out of date. -/
protected theorem Mid.recomputeOne {x : Nat} (h : Mid (also d .aspects) V s) : Mid (also d .aspects) V (recomputeOne x s) := by
  unfold Machine.recomputeOne
  split
  · dsimp only
    split
    · exact h
    · exact (h.setSignal (.inl (.inr rfl))).mirrorSignal.report
  · exact h

/-- The aspects no longer asked for. -/
protected theorem Mid.aspectsGiven (h : Mid d V s) : Mid (also d .aspects) V { s with work := { s.work with aspects := false } } :=
  h.change (t := { s with work := { s.work with aspects := false } }) (fun _ => .inl) (.of_mem rfl) rfl (fun i _ => by cases i <;> rfl)
    (fun hi => absurd (.inr rfl) hi) (fun _ hf => ⟨hf, fun hm => hm.same rfl rfl rfl fun c => by cases c <;> rfl⟩)
    (h.base.keep h.base.mem rfl rfl rfl (fun _ => ⟨rfl, rfl, rfl, rfl, rfl, rfl, rfl⟩) h.base.occ h.base.pts h.base.asp h.base.active
      h.base.vis h.base.disp fun _ => id)

/-- The aspects are right again: they need no longer be set aside. -/
protected theorem Mid.aspectsRight (h : Mid (also d .aspects) V s)
    (ha : s.exch.runState = .running → ¬ d .aspects → s.work.aspects = false → AspectsRight s) : Mid d V s where
  words := h.words.none fun hi => absurd hi (by unfold Item.stands; exact Nat.lt_irrefl 0)
  aspects := ha
  modes := fun hr hi => h.modes hr fun x => x.elim hi nofun
  base := h.base

protected theorem Mid.recomputeAspects (h : Mid d V s) : Mid d V (recomputeAspects s) := by
  by_cases hc : (s.work.aspects && s.running) = true
  · obtain ⟨hw, hrun⟩ := (Bool.and_eq_true _ _).mp hc
    have h1 : Mid (also d .aspects) V (recomputeAspects s) := by
      unfold Machine.recomputeAspects
      rw [if_pos hc]
      exact h.aspectsGiven.eachDo fun _ _ ht => ht.recomputeOne
    refine h1.aspectsRight fun _ _ _ x r hr => ?_
    have hcalm := calm_recomputeAspects s
    rw [AspectsTaken.aspRecs_of_calm hcalm] at hr
    obtain ⟨-, st, hst⟩ := h.base.asp x r hr
    rw [AspectsTaken.find_recomputeAspects hw (eq_of_beq hrun) hr hst, AspectsTaken.aspectOf_of_calm hcalm]
    rfl
  · have hform : Machine.recomputeAspects s = { s with work := { s.work with aspects := false } } := if_neg hc
    rw [hform]
    refine h.aspectsGiven.aspectsRight fun hr hi _ => ?_
    have hw : s.work.aspects = false := Bool.eq_false_iff.2 fun hw => hc (by rw [hw, show s.running = true from beq_iff_eq.2 hr]; rfl)
    exact (h.aspects hr hi hw).same rfl rfl rfl

theorem aspects_recomputeOne (x : Nat) (s : State) : (recomputeOne x s).work.aspects = s.work.aspects := by
  unfold recomputeOne
  split
  · dsimp only
    split
    · rfl
    · rw [report_work, mirrorSignal_work]
      rfl
  · rfl

theorem aspects_recomputeAspects (s : State) : (recomputeAspects s).work.aspects = false := by
  unfold recomputeAspects
  split
  · have hloop (l : List Nat) (t : State) (ht : t.work.aspects = false) : (eachDo l recomputeOne t).work.aspects = false := by
      unfold eachDo
      induction l generalizing t with
      | nil => exact ht
      | cons x l ih => exact ih _ ((aspects_recomputeOne x t).trans ht)
    exact hloop _ _ rfl
  · rfl

/-! ### ALL STOP and RESUME (R114 to R118) -/

protected theorem Mid.reportLayout (h : Mid d V s) {cause item : Nat} : Mid d V (reportLayout cause item s) := h.report

protected theorem Mid.enterAllStop (h : Mid d V s) {c : StopCause} : Mid d V (enterAllStop c s) := by
  have h1 : Mid (also d .aspects) V (setRunCondition .allStop (some c) s) := Mid.setRunCondition h.also
  unfold Machine.enterAllStop
  split
  · exact h
  · exact Mid.wantAspects h1.setPower.reportLayout.routesAllStop.deckAllStop.runVisitor.abortShow.evalStop

protected theorem Mid.allStopRequest (h : Mid d V s) {n : Nat} : Mid d V (allStopRequest n s) := h.enterAllStop.complete

protected theorem Mid.resumeLayout (h : Mid d V s) : Mid d V (resumeLayout s) := by
  have h1 : Mid (also d .aspects) V (setRunCondition .running none s) := Mid.setRunCondition h.also
  exact Mid.wantAspects h1.setPower.reportLayout.routesResume.wantPass.updateFeed.evalStop

protected theorem Mid.resumeRequest (h : Mid d V s) {n : Nat} : Mid d V (resumeRequest n s) := by
  unfold Machine.resumeRequest
  split
  · exact h.complete
  · split
    · exact h.complete
    · exact h.resumeLayout.complete

protected theorem Mid.stopPinSampled (h : Mid d V s) {active : Bool} : Mid d V (stopPinSampled active s) := by
  have filtered (g : Filter) : Mid d V { s with asp := { s.asp with stopFilter := g } } := h.aspectRest rfl rfl rfl
  unfold Machine.stopPinSampled
  dsimp only
  split
  · exact filtered _
  · split
    · exact ((filtered _).write8 0x1C _ (by omega)).enterAllStop
    · exact (filtered _).write8 0x1C _ (by omega)

/-! ### Overrun (R112, R113) -/

protected theorem Mid.overrunOne (h : Mid d V s) {n x : Nat} {arr : Arrival} {notes : List EntryNote} :
    Mid d V (overrunOne n arr notes x s) :=
  (h.setSignal (y := x) (f := fun st => { st with overruns := min 255 (st.overruns + 1) }) (.inr fun _ _ => rfl)).mirrorSignal.report

protected theorem Mid.overrunTest (h : Mid d V s) {n : Nat} {arr : Option Arrival} {notes : List EntryNote} :
    Mid d V (overrunTest n arr notes s) := by
  unfold Machine.overrunTest
  split
  · exact h
  · next a =>
    split
    · exact h
    · next x more _ =>
      have h1 := h.eachDo (l := x :: more) (f := overrunOne n a notes) fun _ _ ht => ht.overrunOne
      dsimp only
      split
      · exact h1.enterAllStop
      · exact h1

end Signals

end Sys2Proof.ShownMeanwhile
end

