-- ==== Sys2Proof/Proofs/TrackShown.lean ====
section
/-! The tag unit and the occupancy unit (chapters 1 and 2), with what is shown (O44). -/

namespace Sys2Proof.ShownMeanwhile

open Sys2Proof.Machine Sys2Proof.MirrorItems

section Tags
variable {d : Item → Prop} {V : Nat → Nat} {s : State}

/-! ### Tags (R27 to R34) -/

theorem running_setTag (t : Nat) (v : Tag) (s : State) : (setTag t v s).running = s.running :=
  congrArg (fun k => k.runState == .running) (LayoutStands.standing_setTag t v s)

protected theorem Mid.takeTag (h : Mid d V s) {n t : Nat} (hr : s.running = true) : Mid d V (takeTag n t s) :=
  Mid.giveTagField h.setTag ((running_setTag ..).trans hr)

theorem mid_reclaimOrAllocate {n : Nat} {l : List Neighbour} (h : Mid d V s) (hr : s.running = true) :
    Mid d V (reclaimOrAllocate n l s).1 := by
  unfold reclaimOrAllocate
  split
  · exact (h.takeTag hr).report
  · split
    · exact (h.setTag.takeTag ((running_setTag ..).trans hr)).report
    · exact h.report

theorem mid_arrive {n : Nat} (h : Mid d V s) (hr : s.running = true) : Mid d V (arrive n s).1 := by
  unfold arrive
  dsimp only
  split
  · exact h.takeTag hr
  · split
    · exact mid_reclaimOrAllocate h hr
    · exact h.takeTag hr
    · exact h.report

protected theorem Mid.freeLostTag (h : Mid d V s) {t : Nat} : Mid d V (freeLostTag t s) := h.setTag.report

protected theorem Mid.depart (h : Mid d V s) {n : Nat} : Mid d V (depart n s) := by
  unfold Machine.depart
  split
  · exact h
  · dsimp only
    split
    · split
      · exact h.setTag.clearTagField.report.freeLostTag
      · exact h.setTag.clearTagField.report
    · exact h.setTag.clearTagField

theorem mid_tagSectionChange {n : Nat} {old new : SectionState} (h : Mid d V s) (hr : s.running = true) :
    Mid d V (tagSectionChange n old new s).1 := by
  unfold tagSectionChange
  split
  · split
    · exact h
    · exact mid_arrive h hr
  · exact h.depart
  · exact h.depart
  · exact h.depart
  · exact h

protected theorem Mid.lostHoldExpires (h : Mid d V s) {t : Nat} : Mid d V (lostHoldExpires t s) := by
  unfold Machine.lostHoldExpires
  dsimp only
  split
  · exact h.freeLostTag
  · exact h

protected theorem Mid.labelTag (h : Mid d V s) {k t label : Nat} : Mid d V (labelTag k t label s) := by
  unfold Machine.labelTag
  split
  · exact h.complete
  · dsimp only
    split
    · exact h.complete
    · exact h.setTag.complete

end Tags

/-! ### A change of a section (R15) -/

section Sections
variable {d : Item → Prop} {V : Nat → Nat} {s : State}

/-- A change of occupancy state, stored while its section's word and the modes are out of date. -/
protected theorem Mid.sectionChanged {n : Nat} (h : Mid (also (also d (.sec n)) .modes) V s) {old : SectionState} (hr : s.running = true) :
    Mid d V (sectionChanged n old s) := by
  have hswap : Mid (also (also d .modes) (.sec n)) V s := h.mono fun i hi => hi.elim (fun x => x.imp .inl id) fun x => .inl (.inr x)
  have hhanded : Mid d V (TrackDetection.handedOn n old s) :=
    (hswap.mirrorSection.report (k := .sectionChanged) (x := n) (v1 := halves old.code (secState s n).code)
      (v2 := halves (occOf s n).count 0)).wantLamps id rfl
  have hrunning : (TrackDetection.handedOn n old s).running = true :=
    (congrArg State.running (TrackDetection.body_handedOn n old s)).trans hr
  rw [TrackDetection.sectionChanged_eq]
  have h1 := (mid_tagSectionChange (n := n) (old := old) (new := secState s n) hhanded hrunning).routesSectionChange (n := n)
    (new := secState s n) (took := (TrackDetection.taggedChange n old s).2.bind Arrival.tag)
  dsimp only
  split
  · exact h1.runVisitor.overrunTest.deckSectionLeft.visitorSection
  · exact h1.runVisitor.overrunTest.visitorSection

/-- START's checks read the records of detection alone. -/
theorem configFault_occ {x : OccUnit} (h1 : x.recs = s.occ.recs) (h2 : x.heads = s.occ.heads) (hc : configFault s = none) :
    configFault { s with occ := x } = none := by
  have hsame : SameRecords s { s with occ := x } := ⟨h1, h2, rfl, rfl, rfl, rfl, rfl⟩
  rw [hsame.configFault, hc]

theorem OccFit.secsSet {x : OccUnit} (h : OccFit x) (n : Nat) (o : Occupancy) : OccFit { x with secs := Tbl.insert x.secs n o } where
  recs := h.recs
  filters := h.filters
  secs := fun m r hm => by
    obtain ⟨hn, y, hy⟩ := h.secs m r hm
    refine ⟨hn, ?_⟩
    by_cases he : m = n
    · exact ⟨o, by rw [he]; exact Tbl.find_insert_self _ _ _⟩
    · exact ⟨y, by rw [← hy]; exact Tbl.find_insert_other _ _ _ _ he⟩
  heads := h.heads

/-- The occupancy of a section stored: its word is out of date, and the modes where its state is another. -/
protected theorem Mid.storeSection (h : Mid d V s) {n : Nat} {p : Occupancy} {d' : Item → Prop} (hd : ∀ i, d i → d' i) (hn : d' (.sec n))
    (hm : d' .modes ∨ p.state = secState s n) : Mid d' V { s with occ := { s.occ with secs := Tbl.insert s.occ.secs n p } } := by
  refine h.detection (x := { s.occ with secs := Tbl.insert s.occ.secs n p }) rfl
    (fun _ => configFault_occ rfl rfl) (h.base.occ.secsSet n p) hd
    (fun m hm' r _ => ⟨?_, rfl⟩) (fun _ _ => rfl) fun hi _ m => ?_
  · unfold occOf Tbl.getD
    rw [Tbl.find_insert_other _ _ _ _ fun he : m = n => hm' (he ▸ hn)]
  · by_cases he : m = n
    · subst he
      refine Eq.trans ?_ (hm.resolve_left hi)
      unfold secState occOf Tbl.getD
      rw [Tbl.find_insert_self]
      rfl
    · unfold secState occOf Tbl.getD
      rw [Tbl.find_insert_other _ _ _ _ he]

/-- The occupancy of a section changed in RUNNING, while its own word may be out of date. -/
protected theorem Mid.changeSection {n : Nat} (h : Mid (also d (.sec n)) V s) {f : Occupancy → Occupancy} (hr : s.running = true) :
    Mid d V (updateSection n f s) := by
  unfold Machine.updateSection
  split
  · next r o _ ho =>
    dsimp only
    generalize updateDiscrepancy r (detLevel s r) (f o) = p
    have hstate : secState s n = o.state := by unfold secState occOf Tbl.getD; rw [ho]; rfl
    split
    · next he => exact (h.storeSection (fun _ => id) (.inr rfl) (.inr (he.trans hstate.symm))).mirrorSection
    · exact Mid.sectionChanged (h.storeSection (fun _ => .inl) (.inl (.inr rfl)) (.inl (.inr rfl))) hr
  · next hno =>
    refine h.drop ?_ nofun nofun
    cases hrec : Tbl.find s.occ.recs n with
    | none => simp only [Item.word, hrec, Option.map_none, ite_self]
    | some r =>
      obtain ⟨-, o, ho⟩ := h.base.occ.secs n r hrec
      exact (hno r o hrec ho).elim

protected theorem Mid.updateSection (h : Mid d V s) {n : Nat} {f : Occupancy → Occupancy} (hr : s.running = true) :
    Mid d V (updateSection n f s) := Mid.changeSection h.also hr

/-! ### Axle counts, doubt (R8 to R13) -/

protected theorem Mid.axleIn (h : Mid d V s) {side : Option Nat} (hr : s.running = true) : Mid d V (axleIn side s) := by
  unfold Machine.axleIn
  split
  · exact h
  · split
    · exact h
    · exact h.updateSection hr

protected theorem Mid.axleOut (h : Mid d V s) {side : Option Nat} (hr : s.running = true) : Mid d V (axleOut side s) := by
  unfold Machine.axleOut
  split
  · exact h
  · split
    · exact h
    · exact h.updateSection hr

protected theorem Mid.doubt (h : Mid d V s) {side : Option Nat} (hr : s.running = true) : Mid d V (doubt side s) := by
  unfold Machine.doubt
  split
  · exact h
  · exact h.updateSection hr

theorem running_axleIn (side : Option Nat) (s : State) : (axleIn side s).running = s.running :=
  congrArg (fun k => k.runState == .running) (LayoutStands.standing_axleIn side s)

theorem running_axleOut (side : Option Nat) (s : State) : (axleOut side s).running = s.running :=
  congrArg (fun k => k.runState == .running) (LayoutStands.standing_axleOut side s)

theorem running_doubt (side : Option Nat) (s : State) : (doubt side s).running = s.running :=
  congrArg (fun k => k.runState == .running) (LayoutStands.standing_doubt side s)

/-! ### Heads (R6 to R9) -/

/-- A table's entry set to one that a test takes for the same. -/
theorem any_insert {α : Type} {l : Tbl α} {k : Nat} {a b : α} (hf : Tbl.find l k = some b) {P : α → Bool} (hP : P a = P b) :
    (Tbl.insert l k a).any (fun x => P x.2) = l.any fun x => P x.2 := by
  induction l with
  | nil => cases hf
  | cons x l ih =>
    obtain ⟨n, w⟩ := x
    by_cases he : k = n
    · subst he
      have hw : w = b := by simpa [Tbl.find] using hf
      subst hw
      simp [Tbl.insert, hP]
    · have hfl : Tbl.find l k = some b := by simpa [Tbl.find, he] using hf
      by_cases hlt : k < n
      · have hany : P b = true → (l.any fun x => P x.2) = true := fun h =>
          List.any_eq_true.2 ⟨(k, b), RouteRelease.mem_of_find hfl, h⟩
        cases hb : P b with
        | true => simp [Tbl.insert, hlt, hP, hb, hany hb]
        | false => simp [Tbl.insert, hlt, hP, hb]
      · simp [Tbl.insert, he, hlt, ih hfl]

theorem firstFailing_none_iff {α : Type} (t : Tbl α) (bad : Nat → α → Bool) :
    firstFailing t bad = none ↔ ∀ x ∈ t, bad x.1 x.2 = false := by
  unfold firstFailing
  rw [Option.map_eq_none_iff, List.find?_eq_none]
  exact forall₂_congr fun x _ => by rw [Bool.not_eq_true]

theorem bounded_iff (s : State) (n : Nat) :
    (boundingHeads s n).isEmpty = !s.occ.heads.any fun x => x.2.aSide == some n || x.2.bSide == some n := by
  unfold boundingHeads
  rw [Bool.eq_iff_iff, List.isEmpty_iff, List.filter_eq_nil_iff, Bool.not_eq_true', List.any_eq_false]

/-- START's checks read a head's sides alone. -/
theorem configFault_setHead {k : Nat} {a b : Head} (hf : Tbl.find s.occ.heads k = some b) (h1 : a.aSide = b.aSide) (h2 : a.bSide = b.bSide)
    (hc : configFault s = none) : configFault { s with occ := { s.occ with heads := Tbl.insert s.occ.heads k a } } = none := by
  unfold configFault at hc ⊢
  simp only [Option.or_eq_none_iff, Option.map_eq_none_iff] at hc ⊢
  obtain ⟨hsec, hhead, hneighbours, hpoints, hsignals, htable, hroutes⟩ := hc
  have hplace (r : RouteRec) : routeFails { s with occ := { s.occ with heads := Tbl.insert s.occ.heads k a } } 0 r = routeFails s 0 r := by
    have hin : pointsInPlace { s with occ := { s.occ with heads := Tbl.insert s.occ.heads k a } } none r.elements
        = pointsInPlace s none r.elements := pointsInPlace_congr (s := s) (by rfl) _ _
    unfold routeFails
    rw [hin]
    rfl
  refine ⟨?_, ?_, hneighbours, hpoints, hsignals, htable, by rw [← hroutes]; exact congrArg _ (funext fun _ => funext hplace)⟩
  · rw [firstFailing_none_iff] at hsec ⊢
    intro x hx
    rw [← hsec x hx]
    unfold sectionFails
    rw [bounded_iff, bounded_iff]
    rw [show ({ s with occ := { s.occ with heads := Tbl.insert s.occ.heads k a } } : State).occ.heads = Tbl.insert s.occ.heads k a from rfl,
      any_insert hf (P := fun h => h.aSide == some x.1 || h.bSide == some x.1) (by rw [h1, h2])]
  · rw [firstFailing_none_iff] at hhead ⊢
    intro x hx
    have hany : (Tbl.insert s.occ.heads k a).any (fun x => headFails s k x.2) = false := by
      rw [any_insert hf (by unfold headFails; rw [h1, h2]), List.any_eq_false]
      intro y hy
      rw [show headFails s k y.2 = headFails s y.1 y.2 from rfl, hhead y hy]
      exact Bool.false_ne_true
    exact Bool.eq_false_iff.2 (List.any_eq_false.1 hany x hx)

/-- A head set to one of the same sides: its word is out of date where its totals are others. -/
protected theorem Mid.setHead (h : Mid d V s) {k : Nat} {a b : Head} (hf : Tbl.find s.occ.heads k = some b) (h1 : a.aSide = b.aSide)
    (h2 : a.bSide = b.bSide) {d' : Item → Prop} (hd : ∀ i, d i → d' i)
    (hw : d' (.head k) ∨ a.totalAB = b.totalAB ∧ a.totalBA = b.totalBA) : Mid d' V (setHead k a s) := by
  have hfit : OccFit { s.occ with heads := Tbl.insert s.occ.heads k a } := by
    refine ⟨h.base.occ.recs, h.base.occ.filters, h.base.occ.secs, fun n x hn => ?_⟩
    by_cases he : n = k
    · rw [he]; exact h.base.occ.heads k b hf
    · rw [show Tbl.find (Tbl.insert s.occ.heads k a) n = _ from Tbl.find_insert_other _ _ _ _ he] at hn
      exact h.base.occ.heads n x hn
  refine h.detection (x := { s.occ with heads := Tbl.insert s.occ.heads k a }) rfl (fun _ => configFault_setHead hf h1 h2) hfit hd
    (fun _ _ _ _ => ⟨rfl, rfl⟩) (fun n hn => ?_) fun _ _ _ => rfl
  by_cases he : n = k
  · subst he
    obtain ⟨hab, hba⟩ := hw.resolve_left hn
    rw [show Tbl.find (Tbl.insert s.occ.heads n a) n = _ from Tbl.find_insert_self _ _ _, hf, Option.map_some, Option.map_some, hab, hba]
  · rw [show Tbl.find (Tbl.insert s.occ.heads k a) n = _ from Tbl.find_insert_other _ _ _ _ he]

protected theorem Mid.sequenceError (h : Mid d V s) {k : Nat} {x : Head} {old new : Bool × Bool} (hf : Tbl.find s.occ.heads k = some x) :
    Mid d V (sequenceError k x old new s) := by
  have h1 := h.setHead (a := { x with phase := .waitIdle, suspect := true }) hf rfl rfl (fun _ => id) (.inr ⟨rfl, rfl⟩)
  have h2 : Mid d V (if x.suspect then setHead k { x with phase := .waitIdle, suspect := true } s
      else report .headSuspect k (halves 2 0) (pairCode old + 4 * pairCode new)
        (setHead k { x with phase := .waitIdle, suspect := true } s)) := by
    split
    · exact h1
    · exact h1.report
  unfold Machine.sequenceError
  dsimp only
  generalize (if x.suspect then setHead k { x with phase := .waitIdle, suspect := true } s
      else report .headSuspect k (halves 2 0) (pairCode old + 4 * pairCode new)
        (setHead k { x with phase := .waitIdle, suspect := true } s)) = u at h2 ⊢
  split
  · next hr => exact (h2.doubt hr).doubt ((running_doubt ..).trans hr)
  · exact h2

protected theorem Mid.passage (h : Mid d V s) {k : Nat} {x y : Head} {ab : Bool} (hf : Tbl.find s.occ.heads k = some y)
    (h1 : x.aSide = y.aSide) (h2 : x.bSide = y.bSide) : Mid d V (passage k x ab s) := by
  have counted (a : Head) (ha : a.aSide = y.aSide) (hb : a.bSide = y.bSide) : Mid d V (mirrorHead k (setHead k a s)) :=
    (h.setHead hf ha hb (d' := also d (.head k)) (fun _ => .inl) (.inl (.inr rfl))).mirrorHead
  have entered (a : Head) (u : State) (hu : Mid d V u) : Mid d V (if !u.running then u
      else if ab then axleIn a.bSide (axleOut a.aSide u) else axleOut a.bSide (axleIn a.aSide u)) := by
    split
    · exact hu
    · next hr =>
      have hr : u.running = true := by simpa using hr
      split
      · exact (hu.axleOut hr).axleIn ((running_axleOut ..).trans hr)
      · exact (hu.axleIn hr).axleOut ((running_axleIn ..).trans hr)
  unfold Machine.passage
  dsimp only
  refine entered _ _ (counted _ ?_ ?_)
  · cases ab <;> exact h1
  · cases ab <;> exact h2

protected theorem Mid.headPair (h : Mid d V s) {k : Nat} {x : Head} {old new : Bool × Bool} (hf : Tbl.find s.occ.heads k = some x) :
    Mid d V (headPair k x old new s) := by
  unfold Machine.headPair
  split
  · exact h.sequenceError hf
  · split
    · exact h
    · split
      · next p _ => exact h.setHead (a := { x with phase := p }) hf rfl rfl (fun _ => id) (.inr ⟨rfl, rfl⟩)
      · exact h.passage hf rfl rfl

protected theorem Mid.headSampled (h : Mid d V s) {k : Nat} {pair : Bool × Bool} : Mid d V (headSampled k pair s) := by
  have h1 : Mid d V { s with occ := { s.occ with pairs := Tbl.put (false, false) s.occ.pairs k pair } } :=
    h.detection (x := { s.occ with pairs := Tbl.put (false, false) s.occ.pairs k pair }) rfl
      (fun _ => configFault_occ rfl rfl)
      ⟨h.base.occ.recs, h.base.occ.filters, h.base.occ.secs, h.base.occ.heads⟩ (fun _ => id) (fun _ _ _ _ => ⟨rfl, rfl⟩)
      (fun _ _ => rfl) fun _ _ _ => rfl
  unfold Machine.headSampled
  dsimp only
  split
  · exact h1
  · next x hx => exact h1.headPair hx

/-! ### Detectors (R3, R4, R11) -/

/-- The section that names a detector input is the only one (R2). -/
theorem sectionOfInput_unique (hc : configFault s = none) (hs : Tbl.sorted s.occ.recs = true) {i n : Nat} {r : SectionRec}
    (hn : Tbl.find s.occ.recs n = some r) (hi : r.input = some i) : sectionOfInput s i = some (n, r) := by
  unfold configFault at hc
  simp only [Option.or_eq_none_iff, Option.map_eq_none_iff] at hc
  obtain ⟨hsec, -⟩ := hc
  have hmem := RouteRelease.mem_of_find hn
  have hfail := (firstFailing_none_iff _ _).1 hsec (n, r) hmem
  unfold sectionOfInput
  cases hf : s.occ.recs.find? fun x => x.2.input == some i with
  | none => exact absurd (beq_iff_eq.2 hi) (List.find?_eq_none.1 hf (n, r) hmem)
  | some y =>
    obtain ⟨m, q⟩ := y
    have hq : (q.input == some i) = true := List.find?_some (p := fun x : Nat × SectionRec => x.2.input == some i) hf
    have hy := List.mem_of_find?_eq_some hf
    by_cases he : m = n
    · subst he
      cases (TrackRequests.find_of_mem hs hy).symm.trans hn
      rfl
    · have hany : (s.occ.recs.any fun x => x.1 != n && x.2.input == r.input) = true :=
        List.any_eq_true.2 ⟨(m, q), hy, by rw [hi]; simp [he, eq_of_beq hq]⟩
      unfold sectionFails at hfail
      rw [hany, hi] at hfail
      simp at hfail

/-- A detector filter set: the words of the sections that name the input are out of date where its level changed. -/
protected theorem Mid.filter (h : Mid d V s) {i : Nat} {g : Filter} {d' : Item → Prop} (hd : ∀ j, d j → d' j)
    (hl : g.level = (Tbl.getD s.occ.filters i Filter.init).level ∨
      ∀ n r, Tbl.find s.occ.recs n = some r → r.input = some i → d' (.sec n)) :
    Mid d' V { s with occ := { s.occ with filters := Tbl.put Filter.init s.occ.filters i g } } := by
  refine h.detection (x := { s.occ with filters := Tbl.put Filter.init s.occ.filters i g }) rfl (fun _ => configFault_occ rfl rfl)
    ⟨h.base.occ.recs, RouteRelease.sorted_put _ _ _ h.base.occ.filters, h.base.occ.secs, h.base.occ.heads⟩ hd
    (fun n hn r hr => ⟨rfl, ?_⟩) (fun _ _ => rfl) fun _ _ _ => rfl
  unfold detLevel
  cases hi : r.input with
  | none => rfl
  | some j =>
    dsimp only
    by_cases he : j = i
    · subst he
      obtain hl | hl := hl
      · rw [TrackDetection.getD_put_self _ _ _ h.base.occ.filters, hl]
      · exact absurd (hl n r hr hi) hn
    · rw [TrackDetection.getD_put_other _ _ _ he]

protected theorem Mid.detectorSampled (h : Mid d V s) {i : Nat} {x : Bool} : Mid d V (detectorSampled i x s) := by
  unfold Machine.detectorSampled
  dsimp only
  generalize (Tbl.getD s.occ.filters i Filter.init).sample (inputTime s i x) x = g
  by_cases hl : g.level = (Tbl.getD s.occ.filters i Filter.init).level
  · rw [if_pos (by rw [decide_eq_true hl, Bool.true_or])]
    exact h.filter (fun _ => id) (.inl hl)
  · by_cases hr : s.running = true
    · have hr' : ({ s with occ := { s.occ with filters := Tbl.put Filter.init s.occ.filters i g } } : State).running = true := hr
      rw [if_neg (by rw [hr']; simpa using hl)]
      have hunique (n : Nat) (r : SectionRec) (hn : Tbl.find s.occ.recs n = some r) (hi : r.input = some i) :
          sectionOfInput s i = some (n, r) := sectionOfInput_unique (h.base.config (eq_of_beq hr)) h.base.occ.recs hn hi
      split
      · next hno =>
        refine h.filter (fun _ => id) (.inr fun n r hn hi => ?_)
        cases (show sectionOfInput s i = none from hno).symm.trans (hunique n r hn hi)
      · next n r hsec =>
        refine Mid.changeSection (h.filter (fun _ => .inl) (.inr fun m q hm hi => .inr ?_)) hr'
        have he := (show sectionOfInput s i = some (n, r) from hsec).symm.trans (hunique m q hm hi)
        cases he
        rfl
    · have hr' : ¬ ({ s with occ := { s.occ with filters := Tbl.put Filter.init s.occ.filters i g } } : State).running = true := hr
      rw [if_pos (by rw [Bool.eq_false_iff.2 hr']; exact Bool.or_true _)]
      refine (h.filter (d' := alsoAll d fun j => ∃ n, j = .sec n) (fun _ => .inl) (.inr fun n _ _ _ => .inr ⟨n, rfl⟩)).shrink
        fun j hj => hj.imp id ?_
      rintro ⟨n, rfl⟩
      exact ⟨fun _ => if_neg hr', nofun, nofun⟩

/-! ### Timers and requests (R14, R16 to R18) -/

protected theorem Mid.discrepancyExpires (h : Mid d V s) {n : Nat} : Mid d V (discrepancyExpires n s) := by
  unfold Machine.discrepancyExpires
  split
  · next r o _ ho =>
    split
    · exact h
    · have hstate : secState s n = o.state := by unfold secState occOf Tbl.getD; rw [ho]; rfl
      have h1 := h.storeSection (p := { o with discTimer := none, discFlag := true }) (d' := also d (.sec n)) (fun _ => .inl) (.inr rfl)
        (.inr hstate.symm)
      exact h1.mirrorSection.report
  · exact h

protected theorem Mid.disableSection (h : Mid d V s) {k n : Nat} (hr : s.running = true) : Mid d V (disableSection k n s) := by
  unfold Machine.disableSection
  split
  · exact h.complete
  · split
    · exact h.complete
    · exact (h.updateSection hr).complete

protected theorem Mid.enableSection (h : Mid d V s) {k n : Nat} (hr : s.running = true) : Mid d V (enableSection k n s) := by
  unfold Machine.enableSection
  split
  · exact h.complete
  · exact (h.updateSection hr).complete

protected theorem Mid.headNormal (h : Mid d V s) {k : Nat} : Mid d V (headNormal k s) := by
  unfold Machine.headNormal
  split
  · exact h
  · next x hx =>
    split
    · exact (h.setHead (a := { x with suspect := false }) hx rfl rfl (fun _ => id) (.inr ⟨rfl, rfl⟩)).report
    · exact h

protected theorem Mid.resetSection (h : Mid d V s) {k n : Nat} (hr : s.running = true) : Mid d V (resetSection k n s) := by
  unfold Machine.resetSection
  split
  · exact h.complete
  · split
    · exact h.complete
    · split
      · exact h.complete
      · exact h.complete
      · exact h.complete
      all_goals
        split
        · exact h.complete
        · exact ((h.updateSection hr).eachDo fun _ _ ht => ht.headNormal).complete

end Sections

end Sys2Proof.ShownMeanwhile
end

