-- ==== Sys2Proof/Proofs/HandlingEnds.lean ====
section
/-! The end of a handling settles what is shown (R111, R170 to R179), and what follows it keeps it (O44). -/

namespace Sys2Proof.ShownMeanwhile

open Sys2Proof.Machine Sys2Proof.MirrorItems

/-! ### Words of modes -/

theorem modesOf_congr {f g : Nat → Mode} {n : Nat} (h : ∀ k, k < n → f k = g k) : modesOf f n = modesOf g n := by
  induction n with
  | zero => rfl
  | succ n ih => unfold modesOf; rw [ih fun k hk => h k (by omega), h n (by omega)]

section Lamps
variable {d : Item → Prop} {V : Nat → Nat} {s : State}

/-! ### The shown modes (R175 to R177) -/

/-- A shown mode set: its lamp's word is out of date. -/
protected theorem Mid.shownMode (h : Mid (also d .modes) V s) {i : Nat} {m : Mode} :
    Mid (also (also d .modes) (.lamp (i / 16))) V { s with disp := { s.disp with shown := Tbl.put .off s.disp.shown i m } } := by
  refine h.change (t := { s with disp := { s.disp with shown := Tbl.put .off s.disp.shown i m } }) (fun _ => .inl) (.of_mem rfl) rfl
    (fun j hj => ?_) (fun _ hf => ⟨hf, fun hx => hx.same rfl rfl rfl⟩) (fun hi => absurd (.inl (.inr rfl)) hi)
    (h.base.disp' (w := s.work) ⟨RouteRelease.sorted_put _ _ _ h.base.disp.shown, h.base.disp.bind⟩)
  cases j with
  | lamp w =>
    have hword : lampWord { s with disp := { s.disp with shown := Tbl.put .off s.disp.shown i m } } w = lampWord s w :=
      modesOf_congr fun k hk => TrackDetection.getD_put_other _ _ _ fun he : 16 * w + k = i => hj (.inr (by
        rw [← he]
        exact congrArg Item.lamp (by omega)))
    have form (u : State) : Item.word V u (.lamp w) = if u.running then some (lampWord u w) else none := rfl
    rw [form, form, hword]
    rfl
  | _ => rfl

protected theorem Mid.settleOne (h : Mid (also d .modes) V s) {i : Nat} : Mid (also d .modes) V (settleOne i s) := by
  unfold Machine.settleOne
  split
  · exact h
  · dsimp only
    split
    · exact h
    · exact h.shownMode.mirrorLampWord

/-- A settled lamp: its mode, and all else but memory. -/
theorem settleOne_cases (i : Nat) (s : State) : settleOne i s = s ∨ ∃ l, Tbl.find s.disp.bind i = some l ∧
    body (settleOne i s) = body { s with disp := { s.disp with shown := Tbl.put .off s.disp.shown i (lampMode s l) } } := by
  unfold settleOne
  split
  · exact .inl rfl
  · next l hl =>
    dsimp only
    split
    · exact .inl rfl
    · exact .inr ⟨l, hl, body_mirrorLampWord ..⟩

theorem lampMode_settleOne (i : Nat) (s : State) (l : Lamp) : lampMode (settleOne i s) l = lampMode s l := by
  obtain he | ⟨k, -, hb⟩ := settleOne_cases i s
  · rw [he]
  · exact (RouteRelease.read_of_body (fun u => lampMode u l) (fun _ => rfl) hb).trans rfl

theorem bind_settleOne (i : Nat) (s : State) : (settleOne i s).disp.bind = s.disp.bind := by
  obtain he | ⟨k, -, hb⟩ := settleOne_cases i s
  · rw [he]
  · exact (RouteRelease.read_of_body (fun u => u.disp.bind) (fun _ => rfl) hb).trans rfl

theorem shown_settleOne_other {i j : Nat} (h : j ≠ i) (s : State) :
    Tbl.getD (settleOne i s).disp.shown j .off = Tbl.getD s.disp.shown j .off := by
  obtain he | ⟨k, -, hb⟩ := settleOne_cases i s
  · rw [he]
  · exact (RouteRelease.read_of_body (fun u => Tbl.getD u.disp.shown j Mode.off) (fun _ => rfl) hb).trans
      (TrackDetection.getD_put_other _ _ _ h)

theorem shown_settleOne_self {i : Nat} {l : Lamp} (hs : Tbl.sorted s.disp.shown = true) (hl : Tbl.find s.disp.bind i = some l) :
    Tbl.getD (settleOne i s).disp.shown i .off = lampMode s l := by
  unfold settleOne
  rw [hl]
  dsimp only
  split
  · next he => exact he.symm
  · exact (RouteRelease.read_of_body (fun u => Tbl.getD u.disp.shown i Mode.off) (fun _ => rfl) (body_mirrorLampWord ..)).trans
      (TrackDetection.getD_put_self _ _ _ hs)

/-- The lamps settled one after the other have their modes. -/
theorem shown_settleEach {ks : List Nat} (h : Mid (also d .modes) V s) {i : Nat} {l : Lamp} (hl : Tbl.find s.disp.bind i = some l) :
    Tbl.getD (eachDo ks settleOne s).disp.shown i .off = (if i ∈ ks then lampMode s l else Tbl.getD s.disp.shown i .off) ∧
      lampMode (eachDo ks settleOne s) l = lampMode s l := by
  unfold Machine.eachDo
  induction ks generalizing s with
  | nil => exact ⟨rfl, rfl⟩
  | cons k ks ih =>
    obtain ⟨hshown, hmode⟩ := ih (h.settleOne (i := k)) (by rw [bind_settleOne]; exact hl)
    rw [lampMode_settleOne] at hshown hmode
    refine ⟨hshown.trans ?_, hmode⟩
    by_cases hk : i = k
    · subst hk
      rw [if_pos List.mem_cons_self, shown_settleOne_self h.base.disp.shown hl, ite_self]
    · rw [shown_settleOne_other hk]
      exact if_congr ⟨List.mem_cons_of_mem _, fun hm => (List.mem_cons.1 hm).resolve_left hk⟩ rfl rfl

/-- The lamps no longer asked for. -/
protected theorem Mid.modesGiven (h : Mid d V s) : Mid (also d .modes) V { s with work := { s.work with lamps := false } } :=
  h.change (t := { s with work := { s.work with lamps := false } }) (fun _ => .inl) (.of_mem rfl) rfl (fun i _ => by cases i <;> rfl)
    (fun _ hf => ⟨hf, fun hm => hm.same rfl rfl rfl⟩) (fun hi => absurd (.inr rfl) hi)
    (h.base.keep h.base.mem rfl rfl rfl (fun _ => ⟨rfl, rfl, rfl, rfl, rfl, rfl, rfl⟩) h.base.occ h.base.pts h.base.asp h.base.active
      h.base.vis h.base.disp fun _ => id)

/-- The modes are right again: they need no longer be set aside. -/
protected theorem Mid.modesRight (h : Mid (also d .modes) V s) (hm : ModesRight s) : Mid d V s where
  words := h.words.none fun hi => absurd hi (by unfold Item.stands; exact Nat.lt_irrefl 0)
  aspects := fun hr hi => h.aspects hr fun x => x.elim hi nofun
  modes := fun _ _ _ => hm
  base := h.base

protected theorem Mid.settleLamps (h : Mid d V s) : Mid d V (settleLamps s) := by
  unfold Machine.settleLamps
  split
  · have h1 := h.modesGiven
    have h2 := h1.eachDo (l := Tbl.keys s.disp.bind) (f := settleOne) fun _ _ ht => ht.settleOne
    refine h2.modesRight fun i l hl => ?_
    have hbind : (eachDo (Tbl.keys s.disp.bind) settleOne { s with work := { s.work with lamps := false } }).disp.bind = s.disp.bind := by
      have hloop (ks : List Nat) (u : State) : (eachDo ks settleOne u).disp.bind = u.disp.bind := by
        unfold Machine.eachDo
        induction ks generalizing u with
        | nil => rfl
        | cons k ks ih => exact (ih _).trans (bind_settleOne k u)
      exact hloop _ _
    rw [hbind] at hl
    obtain ⟨hshown, hmode⟩ := shown_settleEach (ks := Tbl.keys s.disp.bind) h1 hl
    rw [hshown, if_pos (AspectsTaken.mem_keys_of_find hl), hmode]
  · exact h

theorem work_settleOne (i : Nat) (s : State) : (settleOne i s).work = s.work := by
  obtain he | ⟨k, -, hb⟩ := settleOne_cases i s
  · rw [he]
  · exact (work_of_body hb).trans rfl

theorem work_settleLamps (s : State) : (settleLamps s).work = { s.work with lamps := false } := by
  unfold settleLamps
  split
  · have hloop (ks : List Nat) (u : State) : (eachDo ks settleOne u).work = u.work := by
      unfold Machine.eachDo
      induction ks generalizing u with
      | nil => rfl
      | cons k ks ih => exact (ih _).trans (work_settleOne k u)
    exact hloop _ _
  · next hl =>
    have hl : s.work.lamps = false := by simpa using hl
    rw [← hl]

end Lamps

/-! ### The button lamps (R170) -/

section Buttons
variable {d : Item → Prop} {V : Nat → Nat} {s : State}

/-- Each button lamp shows its mode. -/
def ButtonsRight (s : State) : Prop := ∀ b, b < 18 → Tbl.getD s.vis.lamps b .off = buttonLampMode s b

/-- The button lamps after some of them are worked out afresh. -/
def lampsSet (ks : List Nat) (s : State) : Tbl Mode := ks.foldl (fun t b => Tbl.put .off t b (buttonLampMode s b)) s.vis.lamps

theorem settleEach_eq (ks : List Nat) (s : State) : eachDo ks settleButton s = { s with vis := { s.vis with lamps := lampsSet ks s } } := by
  unfold Machine.eachDo lampsSet
  induction ks generalizing s with
  | nil => rfl
  | cons k ks ih => exact ih (settleButton k s)

theorem settleButtons_eq (s : State) : settleButtons s = { s with vis := { s.vis with lamps := lampsSet (List.range 18) s } } :=
  settleEach_eq _ s

theorem foldl_put {f : Nat → Mode} {ks : List Nat} {t : Tbl Mode} (hs : Tbl.sorted t = true) :
    Tbl.sorted (ks.foldl (fun t b => Tbl.put .off t b (f b)) t) = true ∧
      ∀ b, Tbl.getD (ks.foldl (fun t b => Tbl.put .off t b (f b)) t) b .off = if b ∈ ks then f b else Tbl.getD t b .off := by
  induction ks generalizing t with
  | nil => exact ⟨hs, fun _ => rfl⟩
  | cons k ks ih =>
    obtain ⟨h1, h2⟩ := ih (RouteRelease.sorted_put Mode.off k (f k) hs)
    refine ⟨h1, fun b => (h2 b).trans ?_⟩
    by_cases hb : b = k
    · subst hb
      rw [if_pos List.mem_cons_self, TrackDetection.getD_put_self _ _ _ hs, ite_self]
    · rw [TrackDetection.getD_put_other _ _ _ hb]
      exact if_congr ⟨List.mem_cons_of_mem _, fun hm => (List.mem_cons.1 hm).resolve_left hb⟩ rfl rfl

theorem getD_settleButtons (hs : Tbl.sorted s.vis.lamps = true) {b : Nat} (hb : b < 18) :
    Tbl.getD (settleButtons s).vis.lamps b .off = buttonLampMode s b := by
  rw [settleButtons_eq]
  exact ((foldl_put hs).2 b).trans (if_pos (List.mem_range.2 hb))

theorem buttonsRight_settleButtons (hs : Tbl.sorted s.vis.lamps = true) : ButtonsRight (settleButtons s) := fun b hb => by
  rw [getD_settleButtons hs hb, settleButtons_eq]
  rfl

protected theorem Mid.settleButtons (h : Mid d V s) : Mid d V (settleButtons s) := by
  rw [settleButtons_eq]
  exact h.visitors (w := s.work) ⟨h.base.vis.filters, (foldl_put h.base.vis.lamps).1⟩ (fun _ => id) id fun _ hf => ⟨hf, rfl⟩

/-! ### The visitor mirror (R172) -/

/-- The visitor words read anew: those that differ are set aside. -/
protected theorem Mid.withWords (h : Mid d V s) {W : Nat → Nat} {d' : Item → Prop} (hd : ∀ i, d i → d' i)
    (hW : ∀ k, ¬ d' (.visitor k) → W k = V k) : Mid d' W s where
  words := fun i v hi hstands hv => by
    refine h.words i v (fun hdi => hi (hd i hdi)) hstands (Eq.trans ?_ hv)
    cases i with
    | visitor k =>
      have form (U : Nat → Nat) : Item.word U s (.visitor k) = if s.running then some (U k) else none := rfl
      rw [form, form, hW k hi]
    | _ => rfl
  aspects := fun hr hi => h.aspects hr fun hdi => hi (hd _ hdi)
  modes := fun hr hi => h.modes hr fun hdi => hi (hd _ hdi)
  base := h.base

protected theorem Mid.mirrorVisitorWord {k : Nat} (h : Mid (also d (.visitor k)) V s) (hV : visitorWord s k = V k) :
    Mid d V (mirrorVisitorWord k s) := by
  refine h.writeWord (i := .visitor k) nofun nofun (visitorWord_lt s k) ?_
  rw [hV]
  exact word_of_ite

/-- The visitor mirror settled word by word: those that are set aside are the ones that are written. -/
protected theorem Mid.settleEach {before : State} {ks : List Nat}
    (h : Mid (alsoAll d fun j => ∃ k ∈ ks, j = .visitor k ∧ visitorWord before k ≠ V k) V s) (hV : ∀ k, visitorWord s k = V k) :
    Mid d V (eachDo ks (settleVisitorWord before) s) := by
  unfold Machine.eachDo
  induction ks generalizing s with
  | nil => exact h.mono fun i hi => hi.elim id fun ⟨_, hk, _⟩ => absurd hk List.not_mem_nil
  | cons k ks ih =>
    have hkeep : ∀ j, visitorWord (settleVisitorWord before k s) j = V j := fun j =>
      (RouteRelease.read_of_body (fun u => visitorWord u j) (fun _ => rfl) (body_settleVisitorWord before k s)).trans (hV j)
    refine ih (show Mid _ V (settleVisitorWord before k s) from ?_) hkeep
    unfold Machine.settleVisitorWord
    split
    · next he =>
      refine h.mono fun i hi => hi.imp id fun ⟨j, hj, hij, hne⟩ => ⟨j, ?_, hij, hne⟩
      refine (List.mem_cons.1 hj).resolve_left fun hjk => hne ?_
      rw [hjk, he, hV]
    · refine Mid.mirrorVisitorWord (h.mono fun i hi => ?_) (hV k)
      obtain hi | ⟨j, hj, hij, hne⟩ := hi
      · exact .inl (.inl hi)
      · rcases List.mem_cons.1 hj with rfl | hj
        · exact .inr hij
        · exact .inl (.inr ⟨j, hj, hij, hne⟩)

theorem visitorWord_congr {t : State} (hv : t.vis = s.vis) (hj : t.tt.jogPermitted = s.tt.jogPermitted) (k : Nat) :
    visitorWord t k = visitorWord s k := by
  unfold visitorWord queuePlace buttonMode
  rw [hv, hj]

theorem visitorWord_beyond (s : State) {k : Nat} (hk : 10 ≤ k) : visitorWord s k = 0 := by
  obtain ⟨n, rfl⟩ := Nat.exists_eq_add_of_le' hk
  rfl

/-- The visitor unit settled: the mirror shows its words. -/
protected theorem Mid.settleVisitors (h : Mid d V s) {before : State}
    (hV : ∀ k, visitorWord before k = visitorWord (settleButtons s) k → V k = visitorWord (settleButtons s) k) :
    Mid d (visitorWord (settleButtons s)) (settleVisitors before s) := by
  have h1 := h.settleButtons
  refine Mid.settleEach (h1.withWords (fun _ => .inl) fun k hk => ?_) fun _ => rfl
  by_cases he : visitorWord before k = visitorWord (Machine.settleButtons s) k
  · exact (hV k he).symm
  · refine absurd (.inr ⟨k, List.mem_range.2 ?_, rfl, he⟩) hk
    by_contra hk10
    exact he (by rw [visitorWord_beyond before (by omega), visitorWord_beyond _ (by omega)])

theorem body_settleVisitors (before s : State) : body (settleVisitors before s) = body (settleButtons s) := by
  unfold settleVisitors
  generalize Machine.settleButtons s = u
  unfold Machine.eachDo
  generalize List.range 10 = ks
  induction ks generalizing u with
  | nil => rfl
  | cons k ks ih => exact (ih _).trans (body_settleVisitorWord ..)

end Buttons

/-! ### The end of a handling -/

/-- Nothing is set aside. -/
def nothing : Item → Prop := fun _ => False

/-- What is shown agrees with the tables; dispatcher passes and re-examinations may still be asked for. -/
structure Done (s : State) : Prop where
  mid : Mid nothing (visitorWord s) s
  aspects : s.work.aspects = false
  lamps : s.work.lamps = false
  buttons : s.exch.runState = .running → ButtonsRight s
  levels : s.exch.runState = .running → s.disp.levels = (refreshLevels s).disp.levels

section Ends
variable {V : Nat → Nat} {s before : State}

protected theorem Mid.refreshLevels {d : Item → Prop} (h : Mid d V s) : Mid d V (refreshLevels s) := h.display rfl rfl

/-- A handling's end, once the runner has had its turn. -/
def settled (before s : State) : State := evalStop (refreshLevels (settleVisitors before (settleLamps (recomputeAspects s))))

/-- The visitor words that a settled visitor unit shows. -/
theorem word_settled {u w : State} (hb : body w = body (settleButtons u)) (k : Nat) :
    visitorWord (evalStop (refreshLevels w)) k = visitorWord (settleButtons u) k :=
  visitorWord_congr (s := settleButtons u) (RouteRelease.read_of_body (fun x => x.vis) (fun _ => rfl) hb)
    (RouteRelease.read_of_body (fun x => x.tt.jogPermitted) (fun _ => rfl) hb) k

/-- The levels and the STOP cause, last, settle a machine whose visitor unit is settled. -/
theorem done_of_visitors {u w : State} (h : Mid nothing (visitorWord (settleButtons u)) w) (hb : body w = body (settleButtons u))
    (hs : Tbl.sorted u.vis.lamps = true) (ha : u.work.aspects = false) (hl : u.work.lamps = false) :
    Done (evalStop (refreshLevels w)) := by
  have hwork : w.work = u.work := (work_of_body hb).trans (by rw [settleButtons_eq])
  refine ⟨?_, by rw [show (evalStop (refreshLevels w)).work = w.work from rfl, hwork, ha],
    by rw [show (evalStop (refreshLevels w)).work = w.work from rfl, hwork, hl], fun _ b hlt => ?_, fun _ => rfl⟩
  · rw [show visitorWord (evalStop (refreshLevels w)) = visitorWord (settleButtons u) from funext (word_settled hb)]
    exact h.refreshLevels.evalStop
  · have h1 := RouteRelease.read_of_body (fun x => Tbl.getD x.vis.lamps b Mode.off) (fun _ => rfl) hb
    have h2 := RouteRelease.read_of_body (fun x => buttonLampMode x b) (fun _ => rfl) hb
    exact h1.trans ((buttonsRight_settleButtons hs b hlt).trans h2.symm)

theorem done_settled (h : Mid nothing V s) (hV : ∀ k, visitorWord before k = visitorWord (settled before s) k →
    V k = visitorWord (settled before s) k) : Done (settled before s) := by
  have h1 := h.recomputeAspects.settleLamps
  have hwork : (settleLamps (recomputeAspects s)).work.aspects = false := by rw [work_settleLamps]; exact aspects_recomputeAspects s
  have hlamps : (settleLamps (recomputeAspects s)).work.lamps = false := by rw [work_settleLamps]
  unfold settled at hV ⊢
  generalize settleLamps (recomputeAspects s) = u at h1 hwork hlamps hV ⊢
  have hbody := body_settleVisitors before u
  refine done_of_visitors (h1.settleVisitors fun k he => ?_) hbody h1.base.vis.lamps hwork hlamps
  rw [← word_settled hbody k] at he ⊢
  exact hV k he

theorem done_endHandling (h : Mid nothing (visitorWord before) s) : Done (endHandling before s) := by
  have h1 := h.runVisitor.testHeads (n := 16)
  rw [show endHandling before s = settled before (testHeads 16 (runVisitor s)) from rfl]
  generalize testHeads 16 (runVisitor s) = u at h1
  exact done_settled h1 fun _ => id

theorem Done.work (h : Done s) {w : Work} (ha : w.aspects = false) (hl : w.lamps = false) : Done { s with work := w } :=
  ⟨h.mid.work (fun _ => h.aspects) fun _ => h.lamps, ha, hl, h.buttons, h.levels⟩

theorem done_afterWork (h : Done s) (n : Nat) : Done (afterWork n s) := by
  induction n generalizing s with
  | zero => exact h
  | succ n ih =>
    unfold afterWork
    split
    · exact ih (done_endHandling (h.work (w := { s.work with pass := false }) h.aspects h.lamps).mid.dispatcherPass)
    · split
      · exact ih (done_endHandling h.mid.reexamine)
      · exact h

/-- A handling that ends leaves what is shown in agreement, and no work in hand. -/
theorem done_finish (h : Done (endHandling before s)) : Done (finish before s) := (done_afterWork h 4096).work rfl rfl

end Ends

/-! ### The invariant between steps -/

section Settled
variable {s : State}

theorem settled_of_done (h : Done s) (hw : s.work = Work.none) : Settled s := by
  obtain ⟨hwords, haspects, hmodes, hbase⟩ := h.mid
  have hword {i : Item} {v : Nat} (hi : i.stands) (hv : i.word (visitorWord s) s = some v) : s.read32 i.place = v := hwords i v id hi hv
  have hheads (k : Nat) (x : Head) (hx : Tbl.find s.occ.heads k = some x) : k < 32 ∧
      s.read32 (Config.headMirror + 4 * k) = halves x.totalAB x.totalBA := by
    have hk := hbase.occ.heads k x hx
    exact ⟨hk, hword (i := .head k) hk (by unfold Item.word; dsimp only; rw [hx]; rfl)⟩
  refine ⟨hw, ⟨hbase.occ.recs, hbase.occ.filters, hbase.occ.secs⟩, hheads, ⟨hbase.pts.recs, hbase.pts.contacts, hbase.pts.state⟩,
    hbase.asp, hbase.active, ⟨hbase.vis.filters, hbase.vis.lamps, hbase.disp.shown, hbase.disp.bind⟩, hbase.tags, fun hr => ?_⟩
  have hrun : s.running = true := beq_iff_eq.2 hr
  refine ⟨⟨haspects hr id h.aspects, hmodes hr id h.lamps, h.buttons hr, h.levels hr, fun n r hn => ?_, fun k x hx => (hheads k x hx).2,
    fun g hg => ?_, fun e he => ?_, fun k hk => ?_, fun p r hp => ?_, fun x r st hx hst => ?_, fun k hk => ?_, fun k hk => ?_,
    fun w hw => ?_⟩, hbase.config hr, hbase.loads hr⟩
  · exact hword (i := .sec n) (hbase.occ.secs n r hn).1 (by simp only [Item.word, if_pos hrun, hn, Option.map_some])
  · exact hword (i := .tag g) hg (by simp only [Item.word, if_pos hrun])
  · exact hword (i := .active e) he (by simp only [Item.word, if_pos hrun])
  · exact hword (i := .stack k) hk (by simp only [Item.word, if_pos hrun])
  · exact hword (i := .point p) (hbase.pts.state p r hp).1 (by simp only [Item.word, if_pos hrun, hp, Option.map_some])
  · exact hword (i := .signal x) (hbase.asp x r hx).1 (by
      simp only [Item.word, if_pos hrun, hx, hst, Option.map_some, Option.bind_some])
  · exact hword (i := .table k) hk (by simp only [Item.word, if_pos hrun])
  · exact hword (i := .visitor k) hk (by simp only [Item.word, if_pos hrun])
  · exact hword (i := .lamp w) hw (by simp only [Item.word, if_pos hrun])

/-- A head's word, where the mirror holds each head's. -/
theorem head_of {V : Nat → Nat} {k v : Nat} (hheads : ∀ k x, Tbl.find s.occ.heads k = some x → k < 32 ∧
    s.read32 (Config.headMirror + 4 * k) = halves x.totalAB x.totalBA) (hv : Item.word V s (.head k) = some v) :
    s.read32 (Item.place (.head k)) = v := by
  simp only [Item.word] at hv
  obtain ⟨x, hx, rfl⟩ := Option.map_eq_some_iff.1 hv
  exact (hheads k x hx).2

/-- Outside RUNNING only heads show a word. -/
theorem idle_word {V : Nat → Nat} {i : Item} {v : Nat} (hheads : ∀ k x, Tbl.find s.occ.heads k = some x → k < 32 ∧
    s.read32 (Config.headMirror + 4 * k) = halves x.totalAB x.totalBA) (hr : s.exch.runState ≠ .running)
    (hv : i.word V s = some v) : s.read32 i.place = v := by
  have hrun : ¬ s.running = true := fun h => hr (eq_of_beq h)
  cases i with
  | head k => exact head_of hheads hv
  | aspects => cases hv
  | modes => cases hv
  | _ => cases (if_neg hrun).symm.trans hv

theorem done_of_settled (h : Settled s) (hm : s.memOk) : Done s := by
  obtain ⟨hwork, ⟨hrecs, hfilters, hsecs⟩, hheads, ⟨hprecs, hcontacts, hpoints⟩, hsignals, hroutes, ⟨hbf, hbl, hshown, hbind⟩, htags,
    hrunning⟩ := h
  have hbase : Base s := ⟨hm, ⟨hrecs, hfilters, hsecs, fun k x hx => (hheads k x hx).1⟩, ⟨hprecs, hcontacts, hpoints⟩, hsignals, hroutes,
    ⟨hbf, hbl⟩, ⟨hshown, hbind⟩, htags, fun hr => (hrunning hr).2.1, fun hr => (hrunning hr).2.2⟩
  refine ⟨⟨fun i v _ hi hv => ?_, fun hr _ _ => (hrunning hr).1.aspects, fun hr _ _ => (hrunning hr).1.lamps, hbase⟩, by rw [hwork]; rfl,
    by rw [hwork]; rfl, fun hr => (hrunning hr).1.buttons, fun hr => (hrunning hr).1.levels⟩
  by_cases hr : s.exch.runState = .running
  · obtain ⟨hs, -⟩ := hrunning hr
    have hrun : s.running = true := beq_iff_eq.2 hr
    cases i with
    | head k => exact head_of hheads hv
    | sec n =>
      simp only [Item.word, if_pos hrun] at hv
      obtain ⟨r, hn, rfl⟩ := Option.map_eq_some_iff.1 hv
      exact hs.sections n r hn
    | point p =>
      simp only [Item.word, if_pos hrun] at hv
      obtain ⟨r, hp, rfl⟩ := Option.map_eq_some_iff.1 hv
      exact hs.points p r hp
    | signal x =>
      simp only [Item.word, if_pos hrun] at hv
      obtain ⟨r, hx, hv⟩ := Option.bind_eq_some_iff.1 hv
      obtain ⟨st, hst, rfl⟩ := Option.map_eq_some_iff.1 hv
      exact hs.signals x r st hx hst
    | tag g => cases (if_pos hrun).symm.trans hv; exact hs.tags g hi
    | active e => cases (if_pos hrun).symm.trans hv; exact hs.active e hi
    | stack k => cases (if_pos hrun).symm.trans hv; exact hs.stack k hi
    | table k => cases (if_pos hrun).symm.trans hv; exact hs.table k hi
    | visitor k => cases (if_pos hrun).symm.trans hv; exact hs.visitors k hi
    | lamp w => cases (if_pos hrun).symm.trans hv; exact hs.lampWords w hi
    | aspects => cases hv
    | modes => cases hv
  · exact idle_word hheads hr hv

end Settled

end Sys2Proof.ShownMeanwhile
end

