-- ==== Sys2Proof/Proofs/LoadingShown.lean ====
section
/-! Loading and parameters (R191, R192), with what is shown (O44). -/

namespace Sys2Proof.ShownMeanwhile

open Sys2Proof.Machine Sys2Proof.MirrorItems

/-! ### The records that a load takes -/

/-- A record taken, by its kind. -/
inductive Taken (a len : Nat) (s : State) : LoadKind → State → Prop where
  | section_ {n : Nat} {r : SectionRec} : readSection s a len = some (n, r) → Taken a len s .sections (takeSection n r s)
  | head {n : Nat} {x : Head} : readHead s a len = some (n, x) → Taken a len s .sections (takeHead n x s)
  | point {n : Nat} {r : PointRec} : readPoint s a len = some (n, r) → Taken a len s .points (takePoint n r s)
  | signal {n : Nat} {r : SignalRec} : readSignal s a len = some (n, r) → Taken a len s .signals (takeSignal n r s)
  | route {n : Nat} {r : RouteRec} {t : State} : takeRoute n r s = some t → Taken a len s .routes t
  | deck {x : DeckRec} : Taken a len s .table (takeDeck x s)
  | road {n : Nat} {r : Road} : Taken a len s .table (takeRoad n r s)
  | show_ {n : Nat} {w : ShowRec} {t : State} : takeShowRecord n w s = some t → Taken a len s .shows t
  | lamp {n : Nat} {l : Lamp} : readLamp s a len = some (n, l) → Taken a len s .lamps (takeLamp n l s)

theorem taken_of_takeRecord {k : LoadKind} {a len : Nat} {s t : State} (h : takeRecord k a len s = .ok t) : Taken a len s k t := by
  have whole (x : Option State) (hx : ∀ u, x = some u → Taken a len s k u) :
      (match x with | some t => Except.ok t | none => Except.error Result.invalidRecord) = .ok t → Taken a len s k t := by
    intro hh
    cases x with
    | none => cases hh
    | some u => cases hh; exact hx _ rfl
  have mapped {α : Type} (x : Option α) (f : α → State) (hf : ∀ y, x = some y → Taken a len s k (f y)) :
      ∀ u, x.map f = some u → Taken a len s k u := by
    rintro u hu
    obtain ⟨y, hy, rfl⟩ := Option.map_eq_some_iff.1 hu
    exact hf y hy
  unfold takeRecord at h
  dsimp only at h
  split at h
  · split at h
    · exact whole _ (mapped _ (fun y : Nat × SectionRec => takeSection y.1 y.2 s) fun y hy => .section_ hy) h
    · exact whole _ (mapped _ (fun y : Nat × Head => takeHead y.1 y.2 s) fun y hy => .head hy) h
    · cases h
  · exact whole _ (mapped _ (fun y : Nat × PointRec => takePoint y.1 y.2 s) fun y hy => .point hy) h
  · exact whole _ (mapped _ (fun y : Nat × SignalRec => takeSignal y.1 y.2 s) fun y hy => .signal hy) h
  · refine whole _ (fun u hu => ?_) h
    obtain ⟨y, -, hy⟩ := Option.bind_eq_some_iff.1 hu
    exact .route hy
  · split at h
    · exact whole _ (mapped _ (fun d => takeDeck d s) fun _ _ => .deck) h
    · exact whole _ (mapped _ (fun y : Nat × Road => takeRoad y.1 y.2 s) fun _ _ => .road) h
    · cases h
  · split at h
    · cases h
    · split at h
      · next u hu => cases h; exact .show_ hu
      · cases h
  · exact whole _ (mapped _ (fun y : Nat × Lamp => takeLamp y.1 y.2 s) fun y hy => .lamp hy) h

/-! ### The numbers of records -/

section Numbers
variable {s : State} {a len n : Nat}

theorem read8_lt (s : State) (a : Nat) : s.read8 a < 256 := (Mem.read8 s.exch.mem a).isLt

theorem upTo_le {b m : Nat} (h : upTo b m = some n) : n ≤ b := by
  unfold upTo at h
  split at h
  · cases h; assumption
  · cases h

theorem section_number {r : SectionRec} (h : readSection s a len = some (n, r)) : n < 256 := by
  simp only [readSection, Option.bind_eq_bind, Option.bind_eq_some_iff, ite_eq_iff, Option.some.injEq, Prod.mk.injEq, reduceCtorEq,
    and_false, or_false, false_and, exists_const] at h
  have hn : s.read8 (a + 4) = n := by
    obtain ⟨d, -, ⟨-, pub, -, count, -, -, l, -, -, hn, -⟩ | ⟨-, pub, -, count, -, -, l, -, -, hn, -⟩⟩ := h
    · exact hn
    · exact hn
  exact hn ▸ read8_lt ..

theorem head_number {x : Head} (h : readHead s a len = some (n, x)) : n < 32 := by
  simp only [readHead, Option.bind_eq_bind, Option.bind_eq_some_iff] at h
  obtain ⟨m, hm, invert, -, h⟩ := h
  split at h
  · cases h; exact Nat.lt_succ_of_le (upTo_le hm)
  · cases h

theorem point_number {r : PointRec} (h : readPoint s a len = some (n, r)) : n < 128 := by
  simp only [readPoint, Option.bind_eq_bind, Option.bind_eq_some_iff] at h
  obtain ⟨m, hm, motor, -, f, -, t, -, h⟩ := h
  split at h
  · cases h; exact Nat.lt_succ_of_le (upTo_le hm)
  · cases h

theorem signal_number {r : SignalRec} (h : readSignal s a len = some (n, r)) : n < 192 := by
  simp only [readSignal, Option.bind_eq_bind, Option.bind_eq_some_iff, ite_eq_iff, Option.some.injEq, Prod.mk.injEq, reduceCtorEq,
    and_false, or_false] at h
  obtain ⟨m, hm, h⟩ := h
  have hn : m = n := by
    obtain ⟨k, -, ⟨-, home, -, -, hn, -⟩ | ⟨-, home, -, -, hn, -⟩⟩ := h
    · exact hn
    · exact hn
  exact hn ▸ Nat.lt_succ_of_le (upTo_le hm)

theorem lamp_number {l : Lamp} (h : readLamp s a len = some (n, l)) : n < 384 := by
  simp only [readLamp, Option.bind_eq_bind, Option.bind_eq_some_iff] at h
  obtain ⟨m, hm, src, -, on, -, offM, -, h⟩ := h
  split at h
  · cases h; exact Nat.lt_succ_of_le (upTo_le hm)
  · cases h

end Numbers

/-! ### Records taken outside RUNNING -/

section Take
variable {d d' : Item → Prop} {V : Nat → Nat} {s t : State}

/-- Outside RUNNING only the heads show a word. -/
protected theorem Mid.outside (h : Mid d V s) (hr : t.exch.runState ≠ .running) (hd : ∀ i, d i → d' i) (hm : SameMirrors s t)
    (hheads : ∀ k, ¬ d' (.head k) → Tbl.find t.occ.heads k = Tbl.find s.occ.heads k) (hb : Base t) : Mid d' V t where
  words := fun i v hi hstands hv => by
    have hrun : ¬ t.running = true := fun he => hr (eq_of_beq he)
    obtain ⟨hlow, hhigh⟩ := place_bounds hstands
    cases i with
    | head k =>
      rw [read32_of_read8 fun j hj => hm _ (by omega) (by omega)]
      refine h.words (.head k) v (fun hdi => hi (hd _ hdi)) hstands ?_
      rw [← hv]
      simp only [Item.word]
      rw [hheads k hi]
    | aspects => cases hv
    | modes => cases hv
    | _ => cases (if_neg hrun).symm.trans hv
  aspects := fun he => absurd he hr
  modes := fun he => absurd he hr
  base := hb

/-- An entry of a table set to one of its own: what every entry has, it has. -/
theorem forall_insert {α : Type} {t : Tbl α} {n : Nat} {v : α} {P : Nat → α → Prop} (hn : P n v) (h : ∀ m x, m ≠ n → Tbl.find t m = some x → P m x) :
    ∀ m x, Tbl.find (Tbl.insert t n v) m = some x → P m x := by
  intro m x hm
  by_cases he : m = n
  · subst he
    rw [Tbl.find_insert_self] at hm
    cases hm
    exact hn
  · rw [Tbl.find_insert_other _ _ _ _ he] at hm
    exact h m x he hm

theorem exists_insert {α : Type} {t : Tbl α} {n m : Nat} {v : α} (h : ∃ x, Tbl.find t m = some x) :
    ∃ x, Tbl.find (Tbl.insert t n v) m = some x := by
  by_cases he : m = n
  · exact ⟨v, by rw [he]; exact Tbl.find_insert_self _ _ _⟩
  · rw [Tbl.find_insert_other _ _ _ _ he]
    exact h

/-- The tables of a machine outside RUNNING. -/
theorem Base.outside (hb : Base s) (hr : t.exch.runState ≠ .running) (hm : t.memOk) (ho : OccFit t.occ) (hp : PtsFit t.pts) (ha : AspFit t.asp)
    (hactive : Tbl.sorted t.ilk.active = true) (hv : VisFit t.vis) (hd : DispFit t.disp)
    (ht : s.tags.fields = [] → t.tags.fields = []) (hs : s.exch.runState ≠ .running) : Base t :=
  ⟨hm, ho, hp, ha, hactive, hv, hd, fun _ => ht (hb.tags hs), fun he => absurd he hr, fun he => absurd he hr⟩

protected theorem Mid.takeSection (h : Mid d V s) {n : Nat} {r : SectionRec} (hn : n < 256) (hr : s.exch.runState ≠ .running) :
    Mid d V (takeSection n r s) := by
  have hfit : OccFit (takeSection n r s).occ :=
    ⟨Tbl.sorted_insert _ _ _ h.base.occ.recs, h.base.occ.filters,
      forall_insert ⟨hn, _, Tbl.find_insert_self _ _ _⟩ fun m x _ hm => ⟨(h.base.occ.secs m x hm).1, exists_insert (h.base.occ.secs m x hm).2⟩,
      h.base.occ.heads⟩
  exact h.outside hr (fun _ => id) (.of_mem rfl) (fun _ _ => rfl)
    (h.base.outside hr h.base.mem hfit h.base.pts h.base.asp h.base.active h.base.vis h.base.disp id hr)

protected theorem Mid.takeHead (h : Mid d V s) {n : Nat} {x : Head} (hn : n < 32) (hr : s.exch.runState ≠ .running) :
    Mid d V (takeHead n x s) := by
  have set (y : Head) : Mid (also d (.head n)) V (setHead n y s) := by
    have hfit : OccFit (setHead n y s).occ :=
      ⟨h.base.occ.recs, h.base.occ.filters, h.base.occ.secs, forall_insert hn fun m z _ => h.base.occ.heads m z⟩
    exact h.outside hr (fun _ => .inl) (.of_mem rfl)
      (fun k hk => Tbl.find_insert_other _ _ _ _ fun he => hk (.inr (congrArg Item.head he)))
      (h.base.outside hr h.base.mem hfit h.base.pts h.base.asp h.base.active h.base.vis h.base.disp id hr)
  exact (set _).mirrorHead

protected theorem Mid.takePoint (h : Mid d V s) {n : Nat} {r : PointRec} (hn : n < 128) (hr : s.exch.runState ≠ .running) :
    Mid d V (takePoint n r s) := by
  have hfit (st : PointState) : PtsFit { s.pts with recs := Tbl.insert s.pts.recs n r, state := Tbl.insert s.pts.state n st } :=
    ⟨Tbl.sorted_insert _ _ _ h.base.pts.recs, h.base.pts.contacts,
      forall_insert ⟨hn, st, Tbl.find_insert_self _ _ _⟩ fun m x _ hm => ⟨(h.base.pts.state m x hm).1, exists_insert (h.base.pts.state m x hm).2⟩⟩
  have hset (st : PointState) : Mid d V { s with pts := { s.pts with
      recs := Tbl.insert s.pts.recs n r, state := Tbl.insert s.pts.state n st } } :=
    h.outside hr (fun _ => id) (.of_mem rfl) (fun _ _ => rfl)
      (h.base.outside hr h.base.mem h.base.occ (hfit st) h.base.asp h.base.active h.base.vis h.base.disp id hr)
  refine Mid.drop ((hset _).setPoint) ?_ nofun nofun
  exact if_neg fun he : s.running = true => hr (eq_of_beq he)

protected theorem Mid.takeSignal (h : Mid d V s) {n : Nat} {r : SignalRec} (hn : n < 192) (hr : s.exch.runState ≠ .running) :
    Mid d V (takeSignal n r s) := by
  have hfit : AspFit (takeSignal n r s).asp :=
    forall_insert ⟨hn, _, Tbl.find_insert_self _ _ _⟩ fun m x _ hm => ⟨(h.base.asp m x hm).1, exists_insert (h.base.asp m x hm).2⟩
  exact h.outside hr (fun _ => id) (.of_mem rfl) (fun _ _ => rfl)
    (h.base.outside hr h.base.mem h.base.occ h.base.pts hfit h.base.active h.base.vis h.base.disp id hr)

protected theorem Mid.takeRoute (h : Mid d V s) {n : Nat} {r : RouteRec} (hr : s.exch.runState ≠ .running) (ht : takeRoute n r s = some t) :
    Mid d V t := by
  unfold Machine.takeRoute at ht
  dsimp only at ht
  split at ht
  · cases ht
  · cases ht
    have hset : Mid d V { s with ilk := { s.ilk with routes := Tbl.insert s.ilk.routes n r } } :=
      h.outside hr (fun _ => id) (.of_mem rfl) (fun _ _ => rfl)
        (h.base.outside hr h.base.mem h.base.occ h.base.pts h.base.asp h.base.active h.base.vis h.base.disp id hr)
    exact hset.write16 0x22 _ (by omega)

protected theorem Mid.unreference (h : Mid d V s) : Mid d V (unreference s) := by
  have h1 := h.turn (f := fun t => { t.quiet with pos := none, align := none, target := none, fault := none, boltOut := false, requester := .none })
    rfl rfl
  unfold Machine.unreference
  dsimp only
  split
  · exact h1
  · exact h1.enterDeck

protected theorem Mid.takeDeck (h : Mid d V s) {x : DeckRec} (hr : s.exch.runState ≠ .running) : Mid d V (takeDeck x s) :=
  (h.setDeck fun he => absurd he hr).unreference

protected theorem Mid.takeRoad (h : Mid d V s) {n : Nat} {r : Road} (hr : s.exch.runState ≠ .running) : Mid d V (takeRoad n r s) :=
  (h.setDeck fun he => absurd he hr).unreference

protected theorem Mid.takeShowRecord (h : Mid d V s) {n : Nat} {w : ShowRec} (ht : takeShowRecord n w s = some t) : Mid d V t := by
  unfold Machine.takeShowRecord at ht
  split at ht
  · cases ht
  · cases ht; exact h.visitorRest rfl rfl rfl

protected theorem Mid.takeLamp (h : Mid d V s) {n : Nat} {l : Lamp} (hn : n < 384) : Mid d V (takeLamp n l s) := by
  have hset : Mid d V { s with disp := { s.disp with bind := Tbl.insert s.disp.bind n l }, work := { s.work with lamps := true } } :=
    h.change (t := { s with disp := { s.disp with bind := Tbl.insert s.disp.bind n l }, work := { s.work with lamps := true } }) (fun _ => id)
      (.of_mem rfl) rfl (fun i _ => by cases i <;> rfl) (fun _ hf => ⟨hf, fun hx => hx.same rfl rfl rfl⟩) (fun _ hf => nomatch hf)
      (h.base.disp' ⟨h.base.disp.shown, forall_insert hn fun m x _ => h.base.disp.bind m x⟩)
  unfold Machine.takeLamp
  dsimp only
  split
  · exact Mid.mirrorLampWord hset.also
  · exact hset

/-- A record taken: in RUNNING only shows and lamps load. -/
theorem mid_takeRecord {k : LoadKind} {a len : Nat} (h : Mid d V s) (hk : s.exch.runState = .running → k = .shows ∨ k = .lamps)
    (ht : takeRecord k a len s = .ok t) : Mid d V t ∧ SameLoads s t := by
  have hidle (hk : ¬ (k = .shows ∨ k = .lamps)) (hk' : s.exch.runState = .running → k = .shows ∨ k = .lamps) :
      s.exch.runState ≠ .running := fun hr => hk (hk' hr)
  cases taken_of_takeRecord ht with
  | section_ hn => exact ⟨h.takeSection (section_number hn) (hidle (by decide) hk), rfl, rfl, rfl⟩
  | head hn => exact ⟨h.takeHead (head_number hn) (hidle (by decide) hk), by simp [SameLoads, takeHead]⟩
  | point hn => exact ⟨h.takePoint (point_number hn) (hidle (by decide) hk), rfl, rfl, rfl⟩
  | signal hn => exact ⟨h.takeSignal (signal_number hn) (hidle (by decide) hk), rfl, rfl, rfl⟩
  | route hn =>
    refine ⟨h.takeRoute (hidle (by decide) hk) hn, ?_⟩
    unfold takeRoute at hn
    dsimp only at hn
    split at hn
    · cases hn
    · cases hn; simp [SameLoads, writePool]
  | deck => exact ⟨h.takeDeck (hidle (by decide) hk), (sameLoads_setDeck _ _).trans (sameLoads_unreference _)⟩
  | road => exact ⟨h.takeRoad (hidle (by decide) hk), (sameLoads_setDeck _ _).trans (sameLoads_unreference _)⟩
  | show_ hn =>
    refine ⟨h.takeShowRecord hn, ?_⟩
    unfold takeShowRecord at hn
    split at hn
    · cases hn
    · cases hn; exact ⟨rfl, rfl, rfl⟩
  | lamp hn => exact ⟨h.takeLamp (lamp_number hn), by unfold SameLoads takeLamp; dsimp only; split <;> simp⟩

/-! ### The load list (R191) -/

protected theorem Mid.setLoads (h : Mid d V s) {r : Option Load} {l : List Load}
    (hl : s.exch.runState = .running → ∀ m, r = some m ∨ m ∈ l → m.kind = .shows ∨ m.kind = .lamps) : Mid d V (setLoads r l s) := by
  have hb : Base (setLoads r l s) := by
    have hsame : SameRecords s (Machine.setLoads r l s) := ⟨rfl, rfl, rfl, rfl, rfl, rfl, rfl⟩
    obtain ⟨h1, h2, h3, h4, h5, h6, h7, h8, h9, -⟩ := h.base
    exact ⟨h1, h2, h3, h4, h5, h6, h7, h8, fun hr => hsame.configFault.trans (h9 hr), hl⟩
  exact h.change (t := Machine.setLoads r l s) (fun _ => id) (.of_mem rfl) rfl (fun i _ => by cases i <;> rfl)
    (fun _ hf => ⟨hf, fun hx => hx.same rfl rfl rfl⟩) (fun _ hf => ⟨hf, fun hm => hm.same rfl rfl rfl fun c => by cases c <;> rfl⟩) hb

protected theorem Mid.beginLoads {l : List Load} (h : Mid d V s)
    (hl : s.exch.runState = .running → ∀ m ∈ l, m.kind = .shows ∨ m.kind = .lamps) : Mid d V (beginLoads l s) := by
  induction l generalizing s with
  | nil => exact h.setLoads fun _ m hm => hm.elim nofun fun hm => absurd hm List.not_mem_nil
  | cons x l ih =>
    unfold Machine.beginLoads
    split
    · exact ih h.complete fun hr m hm => hl ((complete_runState ..).symm.trans hr) m (List.mem_cons_of_mem _ hm)
    · refine h.setLoads fun hr m hm => hl hr m ?_
      rcases hm with hm | hm
      · cases hm; exact List.mem_cons_self
      · exact List.mem_cons_of_mem _ hm

protected theorem Mid.loadNext (h : Mid d V s) : Mid d V (loadNext s) := by
  unfold Machine.loadNext
  split
  · exact h
  · next l hl =>
    have hw (hr : s.exch.runState = .running) (m : Load) (hm : m ∈ s.exch.loads) : m.kind = .shows ∨ m.kind = .lamps :=
      h.base.loads hr m (.inr hm)
    split
    · exact h.complete.beginLoads fun hr => hw ((complete_runState ..).symm.trans hr)
    · next t ht =>
      have htaken : Mid d V t ∧ SameLoads s t := by
        unfold readRecord at ht
        dsimp only at ht
        split at ht
        · cases ht
        · exact mid_takeRecord h (fun hr => h.base.loads hr l (.inl hl)) ht
      obtain ⟨hmid, hrun, -, -⟩ := htaken
      dsimp only
      split
      · exact hmid.complete.beginLoads fun hr => hw (hrun.symm.trans ((complete_runState ..).symm.trans hr))
      · refine hmid.setLoads fun hr m hm => ?_
        rcases hm with hm | hm
        · cases hm; exact h.base.loads (hrun.symm.trans hr) l (.inl hl)
        · exact hw (hrun.symm.trans hr) m hm

protected theorem Mid.loadRequest (h : Mid d V s) {k : LoadKind} {n o l c : Nat}
    (hk : s.exch.runState = .running → k = .shows ∨ k = .lamps) : Mid d V (loadRequest k n o l c s) := by
  unfold Machine.loadRequest
  split
  · exact h.complete
  · dsimp only
    split
    · refine h.setLoads fun hr m hm => ?_
      rcases hm with hm | hm
      · exact h.base.loads hr m (.inl hm)
      · rcases List.mem_append.1 hm with hm | hm
        · exact h.base.loads hr m (.inr hm)
        · cases List.mem_singleton.1 hm; exact hk hr
    · exact h.beginLoads fun hr m hm => by cases List.mem_singleton.1 hm; exact hk hr

/-! ### Parameters (R192) -/

/-- The turntable's jog permission, which its mirror does not show. -/
protected theorem Mid.jogPermission (h : Mid d V s) {b : Bool} : Mid d V { s with tt := { s.tt with jogPermitted := b } } := by
  refine h.change (t := { s with tt := { s.tt with jogPermitted := b } }) (fun _ => id) (.of_mem rfl) rfl (fun i _ => ?_)
    (fun _ hf => ⟨hf, fun hx => hx.same rfl rfl rfl⟩) (fun _ hf => ⟨hf, fun hm => hm.same rfl rfl rfl fun c => by cases c <;> rfl⟩)
    (h.base.tt (w := s.work) fun _ => ⟨rfl, rfl⟩)
  cases i with
  | table k =>
    have form (u : State) : Item.word V u (.table k) = if u.running then some (tableMirrorWord u k) else none := rfl
    rw [form, form]
    refine if_congr Iff.rfl (congrArg some ?_) rfl
    unfold tableMirrorWord tableWord
    rfl
  | _ => rfl

theorem mid_setTrack {code v : Nat} {x : State × Bool} (h : Mid d V s) (hx : setTrack code v s = some x) : Mid d V x.1 := by
  unfold setTrack at hx
  split at hx
  · cases hx
    exact h.change (t := { s with tags := { s.tags with lostHold := 100 * clamp 0 255 v } }) (fun _ => id) (.of_mem rfl) rfl
      (fun i _ => by cases i <;> rfl) (fun _ hf => ⟨hf, fun hx => hx.same rfl rfl rfl⟩)
      (fun _ hf => ⟨hf, fun hm => hm.same rfl rfl rfl fun c => by cases c <;> rfl⟩) (h.base.tags' (w := s.work) fun _ => id)
  · cases hx
    exact h.change (t := { s with ilk := { s.ilk with stackTimeout := clamp 0 600 v } }) (fun _ => id) (.of_mem rfl) rfl
      (fun i _ => by cases i <;> rfl) (fun _ hf => ⟨hf, fun hx => hx.same rfl rfl rfl⟩)
      (fun _ hf => ⟨hf, fun hm => hm.same rfl rfl rfl fun c => by cases c <;> rfl⟩) (h.base.ilk (w := s.work) rfl h.base.active)
  · cases hx; exact h.pointsRest rfl rfl rfl rfl rfl
  · cases hx; exact h.pointsRest rfl rfl rfl rfl rfl
  · cases hx; exact h.pointsRest rfl rfl rfl rfl rfl
  · cases hx; exact h.pointsRest rfl rfl rfl rfl rfl
  · cases hx; exact h.aspectRest rfl rfl rfl
  · cases hx

theorem mid_setVisitorParameter {code v : Nat} {x : State × Bool} (h : Mid d V s) (hx : setVisitorParameter code v s = some x) :
    Mid d V x.1 := by
  unfold setVisitorParameter at hx
  split at hx
  · cases hx
    exact h.change (t := { s with ilk := { s.ilk with quota := clamp 0 8 v } }) (fun _ => id) (.of_mem rfl) rfl
      (fun i _ => by cases i <;> rfl) (fun _ hf => ⟨hf, fun hx => hx.same rfl rfl rfl⟩)
      (fun _ hf => ⟨hf, fun hm => hm.same rfl rfl rfl fun c => by cases c <;> rfl⟩) (h.base.ilk (w := s.work) rfl h.base.active)
  · cases hx; exact h.jogPermission
  · cases hx; exact h.visitorRest rfl rfl rfl
  · cases hx; exact h.display rfl rfl
  · cases hx; exact h.display rfl rfl
  · cases hx; exact h.display rfl rfl
  · cases hx

theorem mid_setParameter {g : Group} {code v : Nat} {x : State × Bool} (h : Mid d V s) (hx : setParameter g code v s = some x) :
    Mid d V x.1 := by
  cases g with
  | track => exact mid_setTrack h hx
  | visitor => exact mid_setVisitorParameter h hx

protected theorem Mid.applyEntries (h : Mid d V s) {g : Group} {n left a done clamped : Nat} : Mid d V (applyEntries g n left a done clamped s) := by
  induction left generalizing a done clamped s with
  | zero => exact h.complete
  | succ left ih =>
    unfold Machine.applyEntries
    split
    · exact h.complete
    · next hx => exact ih (mid_setParameter h hx)

protected theorem Mid.setParameters (h : Mid d V s) {n group offset count : Nat} : Mid d V (setParameters n group offset count s) := by
  unfold Machine.setParameters
  split
  · exact h.complete
  · split_ifs
    · exact h.complete
    · exact h.complete
    · exact h.applyEntries

end Take

end Sys2Proof.ShownMeanwhile
end

