-- ==== Sys2Proof/Proofs/StartShown.lean ====
section
/-! START takes everything that is shown up afresh, one block after the other (R193, O44). -/

namespace Sys2Proof.ShownMeanwhile

open Sys2Proof.Machine Sys2Proof.MirrorItems

/-! ### The order of START's blocks -/

/-- The block of START that takes an item up; heads stand whatever the run state. -/
def stage : Item → Nat
  | .head _ => 0
  | .sec _ => 1
  | .tag _ => 2
  | .point _ => 3
  | .active _ | .stack _ => 4
  | .signal _ | .aspects => 5
  | .table _ => 6
  | .lamp _ | .visitor _ | .modes => 7

/-- The items that a later block than the n-th takes up. -/
def later (n : Nat) : Item → Prop := fun i => n < stage i

section Stages
variable {d : Item → Prop} {V : Nat → Nat} {s t : State}

/-- All but the heads may be out of date: the mirrors and the heads are as they were. -/
protected theorem Mid.hidden {W : Nat → Nat} (h : Mid (later 0) V s) (hm : SameMirrors s t)
    (hh : ∀ k, Tbl.find t.occ.heads k = Tbl.find s.occ.heads k) (hb : Base t) : Mid (later 0) W t where
  words := fun i v hi hstands hv => by
    obtain ⟨hlow, hhigh⟩ := place_bounds hstands
    cases i with
    | head k =>
      rw [read32_of_read8 fun j hj => hm _ (by omega) (by omega)]
      refine h.words (.head k) v hi hstands ?_
      rw [← hv]
      simp only [Item.word]
      rw [hh k]
    | _ => exact absurd (Nat.succ_pos _) hi
  aspects := fun _ hi => absurd (Nat.succ_pos 4) hi
  modes := fun _ hi => absurd (Nat.succ_pos 6) hi
  base := hb

/-- The items of a block, each of a list or with nothing to show. -/
theorem mid_stage {n : Nat} {l : List Nat} {place : Nat → Item} (h : Mid (later n) V s)
    (hl : ∀ i, stage i = n + 1 → (∃ k ∈ l, i = place k) ∨ (i.stands → i.word V s = none) ∧ i ≠ .aspects ∧ i ≠ .modes) :
    Mid (alsoAll (later (n + 1)) fun i => ∃ k ∈ l, i = place k) V s := by
  refine h.shrink fun i hi => ?_
  rcases Nat.eq_or_lt_of_le (show n + 1 ≤ stage i from hi) with he | hlt
  · exact (hl i he.symm).imp .inr id
  · exact .inl (.inl hlt)

theorem not_mem_keys {α : Type} {l : Tbl α} {n : Nat} (h : n ∉ Tbl.keys l) : Tbl.find l n = none := by
  cases hf : Tbl.find l n with
  | none => rfl
  | some v => exact absurd (AspectsTaken.mem_keys_of_find hf) h

/-! ### Sections and tags (R21, R37) -/

theorem sorted_filter {α : Type} (p : Nat × α → Bool) {l : Tbl α} (h : Tbl.sorted l = true) : Tbl.sorted (l.filter p) = true := by
  induction l with
  | nil => rfl
  | cons x l ih =>
    obtain ⟨k, v⟩ := x
    obtain ⟨hk, hl⟩ := (Tbl.sorted_cons_iff k v l).1 h
    rw [List.filter_cons]
    split
    · exact (Tbl.sorted_cons_iff k v _).2 ⟨fun y hy => hk y (List.mem_filter.1 hy).1, ih hl⟩
    · exact ih hl

theorem occFit_started (h : OccFit s.occ) :
    OccFit { s.occ with filters := filtersAtStart s.occ.filters, secs := LayoutStart.startedSecs s } where
  recs := h.recs
  filters := sorted_filter _ (LayoutStart.sorted_map (fun _ => Filter.atStart) h.filters)
  secs := fun n r hr => ⟨(h.secs n r hr).1, _, (LayoutStart.find_map _ _ _).trans (by rw [hr]; rfl)⟩
  heads := h.heads

theorem mid_startSections (h : Mid (later 0) V s) : Mid (later 1) V (startSections s) := by
  have h1 : Mid (later 0) V { s with occ := { s.occ with
      filters := filtersAtStart s.occ.filters, secs := LayoutStart.startedSecs s } } :=
    h.detection rfl (fun _ => configFault_occ rfl rfl) (occFit_started h.base.occ) (fun _ => id)
      (fun n hn => absurd Nat.one_pos hn) (fun _ _ => rfl) fun hi => absurd (Nat.succ_pos 6) hi
  refine Mid.eachWritten (place := .sec) (P := fun _ => True) (mid_stage h1 fun i hi => ?_) trivial (fun _ _ => id)
    fun _ _ _ _ ht => ht.mirrorSection
  cases i with
  | sec n =>
    by_cases hn : n ∈ Tbl.keys s.occ.recs
    · exact .inl ⟨n, hn, rfl⟩
    · refine .inr ⟨fun _ => ?_, nofun, nofun⟩
      simp only [Item.word]
      rw [not_mem_keys hn, Option.map_none, ite_self]
  | _ => cases hi

theorem mid_mirrorTags (h : Mid (alsoAll d fun i => ∃ g, i = .tag g) V s) : Mid d V (mirrorTags s) := by
  refine Mid.eachWritten (place := .tag) (P := fun _ => True) (h.shrink fun i hi => ?_) trivial (fun _ _ => id)
    fun _ _ _ _ ht => ht.mirrorTag
  obtain hi | ⟨g, rfl⟩ := hi
  · exact .inl (.inl hi)
  · by_cases hg : g < Config.numTags
    · exact .inl (.inr ⟨g, List.mem_range.2 hg, rfl⟩)
    · exact .inr ⟨fun hstands => absurd hstands hg, nofun, nofun⟩

/-- No tag stands in a section, and each is FREE: the tags' words, and lamps, are out of date. -/
protected theorem Mid.noTags (h : Mid d V s) {d' : Item → Prop} (hd : ∀ i, d i → d' i) (ht : ∀ g, d' (.tag g)) (hm : d' .modes)
    (hf : s.tags.fields = []) : Mid d' V { s with tags := { s.tags with table := [], fields := [] } } := by
  refine h.change (t := { s with tags := { s.tags with table := [], fields := [] } }) hd (.of_mem rfl) rfl (fun i hi => ?_)
    (fun _ hw => ⟨hw, fun hx => hx.same rfl rfl rfl⟩) (fun hi => absurd hm hi) (h.base.tags' (w := s.work) fun _ _ => rfl)
  cases i with
  | tag g => exact absurd (ht g) hi
  | sec n =>
    refine word_sec rfl rfl fun r _ => sectionWord_congr rfl rfl ?_ rfl
    exact (congrArg (fun l => Tbl.find l n) hf).symm
  | _ => rfl

theorem running_arrive (n : Nat) (s : State) : (arrive n s).1.running = s.running :=
  congrArg (fun k => k.runState == .running) (LayoutStands.standing_arrive n s)

theorem running_mirrorTags (s : State) : (mirrorTags s).running = s.running :=
  congrArg (fun k => k.runState == .running) (LayoutStands.standing_mirrorTags s)

theorem mid_arrivals {l : List Nat} (h : Mid d V s) (hr : s.running = true) :
    Mid d V (eachDo l (fun n t => (arrive n t).1) s) := by
  unfold Machine.eachDo
  induction l generalizing s with
  | nil => exact h
  | cons n l ih => exact ih (mid_arrive h hr) ((running_arrive n s).trans hr)

theorem mid_startTags (h : Mid (later 1) V s) (hf : s.tags.fields = []) (hr : s.running = true) : Mid (later 2) V (startTags s) := by
  have h1 : Mid (alsoAll (later 2) fun i => ∃ g, i = .tag g) V { s with tags := { s.tags with table := [], fields := [] } } := by
    refine h.noTags (fun i hi => ?_) (fun g => .inr ⟨g, rfl⟩) (.inl (by decide : 2 < 7)) hf
    rcases Nat.eq_or_lt_of_le (show 2 ≤ stage i from hi) with he | hlt
    · cases i with
      | tag g => exact .inr ⟨g, rfl⟩
      | _ => cases he
    · exact .inl hlt
  exact mid_arrivals (mid_mirrorTags h1) ((running_mirrorTags _).trans hr)

/-! ### Points and routes (R61, R87, R106) -/

theorem mid_freshPoint {p : Nat} (h : Mid (also d (.point p)) V s) : Mid d V (freshPoint p s) := by
  unfold Machine.freshPoint
  split
  · next hf => exact h.drop (by simp only [Item.word, hf, Option.map_none, ite_self]) nofun nofun
  · exact (h.setPoint.mono fun i hi => hi.elim id .inr : Mid (also d (.point p)) V _).mirrorPointNow

theorem mid_startPoints (h : Mid (later 2) V s) : Mid (later 3) V (startPoints s) := by
  have h1 : Mid (later 2) V (setOrders [] [] s) := h.setOrders (fun _ => id) fun p hp => absurd (Nat.lt_succ_self 2) hp
  refine Mid.eachWritten (place := .point) (P := fun _ => True) (mid_stage h1 fun i hi => ?_) trivial (fun _ _ => id)
    fun _ _ _ _ ht => mid_freshPoint ht
  cases i with
  | point n =>
    by_cases hn : n ∈ Tbl.keys s.pts.recs
    · exact .inl ⟨n, hn, rfl⟩
    · refine .inr ⟨fun _ => ?_, nofun, nofun⟩
      simp only [Item.word]
      rw [show (setOrders [] [] s).pts.recs = s.pts.recs from rfl, not_mem_keys hn, Option.map_none, ite_self]
  | _ => cases hi

theorem mid_mirrorActives (h : Mid (alsoAll d fun i => ∃ e, i = .active e) V s) : Mid d V (mirrorActives s) := by
  refine Mid.eachWritten (place := .active) (P := fun _ => True) (h.shrink fun i hi => ?_) trivial (fun _ _ => id)
    fun _ _ _ _ ht => ht.mirrorActive
  obtain hi | ⟨e, rfl⟩ := hi
  · exact .inl (.inl hi)
  · by_cases he : e < Config.numActive
    · exact .inl (.inr ⟨e, List.mem_range.2 he, rfl⟩)
    · exact .inr ⟨fun hstands => absurd hstands he, nofun, nofun⟩

theorem mid_startRoutes (h : Mid (later 3) V s) : Mid (later 4) V (startRoutes s) := by
  have h1 : Mid (later 3) V { s with ilk := { s.ilk with active := [] } } :=
    h.active rfl (fun _ => id) (fun e hi => absurd (Nat.lt_succ_self 3) hi) (fun x hi => absurd (by decide : 3 < 5) hi)
      fun hi => absurd (by decide : 3 < 5) hi
  have h2 : Mid (alsoAll (later 4) fun i => ∃ e, i = .active e) V (setStack [] { s with ilk := { s.ilk with active := [] } }) := by
    refine Mid.mirrorStack (h1.change (t := { s with ilk := { s.ilk with active := [], stack := [] } }) (fun i hi => ?_) (.of_mem rfl) rfl
      (fun i hi => ?_) (fun _ hf => ⟨hf, fun hx => hx.same rfl rfl rfl⟩)
      (fun _ hf => ⟨hf, fun hx => hx.same rfl rfl rfl fun c => by cases c <;> rfl⟩) (h1.base.ilk (w := s.work) rfl rfl))
    · rcases Nat.eq_or_lt_of_le (show 4 ≤ stage i from hi) with he | hlt
      · cases i with
        | active e => exact .inl (.inr ⟨e, rfl⟩)
        | stack k => exact .inr ⟨k, rfl⟩
        | _ => cases he
      · exact .inl (.inl hlt)
    · cases i with
      | stack k => exact absurd (.inr ⟨k, rfl⟩) hi
      | _ => rfl
  exact mid_mirrorActives h2

theorem active_startRoutes (s : State) : (startRoutes s).ilk.active = [] :=
  FreshBlocks.read_of_stem (fun y => y.ilk.active) (fun _ => rfl) (LayoutStart.stem_startRoutes s)

/-! ### Signals (R120) -/

theorem aspectOf_rest (ha : s.ilk.active = []) (x : Nat) (r : SignalRec) : aspectOf s x r = restAspect r := by
  have hroute (y : Nat) : setRouteAt s y = none := by unfold setRouteAt entryAt; rw [ha]; rfl
  have hmain (y : Nat) (k : SignalKind) : mainAspect s y k = .danger := by
    unfold mainAspect
    rw [hroute, ite_self]
  unfold aspectOf restAspect
  split
  · split
    · rfl
    · split
      · rfl
      · rw [hmain, if_neg (by simp)]
  · exact hmain x r.kind

/-- A signal at rest: its aspect, and the others' as they were. -/
theorem aspect_restSignal {x : Nat} {r : SignalRec} (y : Nat) (hx : Tbl.find s.asp.recs x = some r) :
    (Tbl.find (restSignal y s).asp.state x).map SignalState.aspect
      = if x = y then (Tbl.find s.asp.state x).map fun _ => restAspect r else (Tbl.find s.asp.state x).map SignalState.aspect := by
  have set (q : SignalRec) : (Tbl.find (mirrorSignalNow y (setSignal y (fun st => { st with aspect := restAspect q }) s)).asp.state x)
      = if x = y then (Tbl.find s.asp.state y).map (fun st => { st with aspect := restAspect q }) else Tbl.find s.asp.state x :=
    (RouteRelease.read_of_body (fun u => Tbl.find u.asp.state x) (fun _ => rfl) (body_mirrorSignalNow ..)).trans
      (RouteRelease.find_modify ..)
  by_cases hxy : x = y
  · subst hxy
    unfold restSignal
    rw [hx, if_pos rfl]
    dsimp only
    rw [set, if_pos rfl, Option.map_map]
    rfl
  · rw [if_neg hxy]
    unfold restSignal
    split
    · rfl
    · rw [set, if_neg hxy]

theorem recs_restSignal (y : Nat) (s : State) : (restSignal y s).asp.recs = s.asp.recs :=
  FreshBlocks.read_of_stem (fun u => u.asp.recs) (fun _ => rfl) (FreshBlocks.stem_restSignal ..)

/-- The signals brought to rest one after the other are at rest. -/
theorem aspect_restEach {ks : List Nat} {x : Nat} {r : SignalRec} (hx : Tbl.find s.asp.recs x = some r) :
    (Tbl.find (eachDo ks restSignal s).asp.state x).map SignalState.aspect
      = if x ∈ ks then (Tbl.find s.asp.state x).map fun _ => restAspect r else (Tbl.find s.asp.state x).map SignalState.aspect := by
  unfold Machine.eachDo
  induction ks generalizing s with
  | nil => rfl
  | cons k ks ih =>
    have hk := aspect_restSignal k hx
    refine (ih ((recs_restSignal k s).symm ▸ hx)).trans ?_
    have hsome : (Tbl.find (restSignal k s).asp.state x).map (fun _ => restAspect r) = (Tbl.find s.asp.state x).map fun _ => restAspect r := by
      have g := congrArg (Option.map fun _ => restAspect r) hk
      rw [Option.map_map] at g
      refine Eq.trans ?_ (g.trans ?_)
      · rfl
      · split <;> rw [Option.map_map] <;> rfl
    rw [hsome, hk]
    by_cases hm : x ∈ ks
    · rw [if_pos hm, if_pos (List.mem_cons_of_mem _ hm)]
    · rw [if_neg hm]
      exact if_congr ⟨fun e => e ▸ List.mem_cons_self, fun h => (List.mem_cons.1 h).resolve_right hm⟩ rfl rfl

theorem mid_restSignal {x : Nat} (hd : d .aspects) (h : Mid (also d (.signal x)) V s) : Mid d V (restSignal x s) := by
  unfold Machine.restSignal
  split
  · next hf => exact h.drop (by simp only [Item.word, hf, Option.bind_none, ite_self]) nofun nofun
  · exact ((h.setSignal (.inl (.inl hd))).mono fun i hi => hi.elim id .inr : Mid (also d (.signal x)) V _).mirrorSignalNow

/-- Every signal at rest, with its mirror word: the aspects are right where no route is active. -/
theorem mid_restSignals (h : Mid (alsoAll (also d .aspects) fun i => ∃ x, i = .signal x) V s) (ha : s.ilk.active = []) :
    Mid d V (eachDo (Tbl.keys s.asp.recs) restSignal s) := by
  have h1 : Mid (also d .aspects) V (eachDo (Tbl.keys s.asp.recs) restSignal s) := by
    have hd : ∀ i, also d .aspects i → (alsoAll (also d .aspects) fun i => ∃ x ∈ Tbl.keys s.asp.recs, i = .signal x) i := fun _ => .inl
    refine mid_restEach (d := also d .aspects) (.inr rfl) (h.shrink fun i hi => ?_)
    obtain hi | ⟨x, rfl⟩ := hi
    · exact .inl (.inl hi)
    · by_cases hx : x ∈ Tbl.keys s.asp.recs
      · exact .inl (.inr ⟨x, hx, rfl⟩)
      · refine .inr ⟨fun _ => ?_, nofun, nofun⟩
        simp only [Item.word]
        rw [not_mem_keys hx, Option.bind_none, ite_self]
  refine h1.aspectsRight fun _ _ _ x r hr => ?_
  have hrecs : (eachDo (Tbl.keys s.asp.recs) restSignal s).asp.recs = s.asp.recs :=
    FreshBlocks.read_eachDo (fun u => u.asp.recs) _ _ (fun n t => recs_restSignal n t) s
  have hactive : (eachDo (Tbl.keys s.asp.recs) restSignal s).ilk.active = [] :=
    (FreshBlocks.read_eachDo (fun u => u.ilk.active) _ _
      (fun n t => FreshBlocks.read_of_stem (fun u => u.ilk.active) (fun _ => rfl) (FreshBlocks.stem_restSignal ..)) s).trans ha
  rw [hrecs] at hr
  obtain ⟨-, st, hst⟩ := h.base.asp x r hr
  rw [aspect_restEach hr, if_pos (AspectsTaken.mem_keys_of_find hr), hst, aspectOf_rest hactive]
  rfl
where
  mid_restEach {d : Item → Prop} {l : List Nat} {s : State} (hd : d .aspects) (h : Mid (alsoAll d fun i => ∃ x ∈ l, i = .signal x) V s) :
      Mid d V (eachDo l restSignal s) := by
    unfold Machine.eachDo
    induction l generalizing s with
    | nil => exact h.mono fun i hi => hi.elim id fun ⟨_, hn, _⟩ => absurd hn List.not_mem_nil
    | cons n l ih =>
      refine ih (mid_restSignal (.inl hd) (h.mono fun i hi => ?_))
      obtain hi | ⟨m, hm, e⟩ := hi
      · exact .inl (.inl hi)
      · rcases List.mem_cons.1 hm with rfl | hm
        · exact .inr e
        · exact .inl (.inr ⟨m, hm, e⟩)

theorem keys_zeroed (l : List Nat) (s : State) : (eachDo l zeroOverruns s).asp.recs = s.asp.recs :=
  FreshBlocks.read_eachDo (fun u => u.asp.recs) l zeroOverruns (fun _ _ => rfl) s

theorem mid_startSignals (h : Mid (later 4) V s) (ha : s.ilk.active = []) : Mid (later 5) V (startSignals s) := by
  have h1 : Mid (later 4) V (eachDo (Tbl.keys s.asp.recs) zeroOverruns s) :=
    h.eachDo fun y t ht => (ht.setSignal (.inl (by decide : 4 < 5))).mono fun i hi => hi.elim id fun e => e ▸ (by decide : 4 < 5)
  have h2 : Mid (later 5) V (eachDo (Tbl.keys s.asp.recs) restSignal (eachDo (Tbl.keys s.asp.recs) zeroOverruns s)) := by
    have hactive : (eachDo (Tbl.keys s.asp.recs) zeroOverruns s).ilk.active = [] :=
      (FreshBlocks.read_eachDo (fun u => u.ilk.active) _ zeroOverruns (fun _ _ => rfl) s).trans ha
    have hkeys : Tbl.keys (eachDo (Tbl.keys s.asp.recs) zeroOverruns s).asp.recs = Tbl.keys s.asp.recs := by rw [keys_zeroed]
    have h3 := mid_restSignals (d := later 5) (h1.mono fun i hi => ?_) hactive
    · rw [hkeys] at h3
      exact h3
    · rcases Nat.eq_or_lt_of_le (show 5 ≤ stage i from hi) with he | hlt
      · cases i with
        | signal x => exact .inr ⟨x, rfl⟩
        | aspects => exact .inl (.inr rfl)
        | _ => cases he
      · exact .inl (.inl hlt)
  unfold Machine.startSignals
  dsimp only
  split
  · exact h2.enterAllStop
  · exact h2.setPower

/-! ### The turntable and the panel (R141, R173, R183) -/

/-- The feed worked out afresh: the deck's mirror is written whole. -/
theorem mid_fed (h : Mid (also (alsoAll d tables) .modes) V s) : Mid d V (updateFeed s) := by
  have h1 : Mid (also (alsoAll d tables) .modes) V { s with tt := { s.tt with feed := feedOn s } } :=
    h.deck (w := s.work) (fun i hi => hi.elim id fun x => .inl (.inr x)) (fun _ => ⟨rfl, rfl⟩) id fun hi => absurd (.inr rfl) hi
  exact (h1.wantLamps (w := { s.work with lamps := true }) id rfl).mirrorTable

theorem mid_startTable (h : Mid (later 5) V s) : Mid (later 6) V (startTable s) := by
  have fed {t : State} (ht : Mid (later 5) V t) : Mid (later 6) V (updateFeed t) := by
    refine mid_fed (ht.mono fun i hi => .inl ?_)
    rcases Nat.eq_or_lt_of_le (show 6 ≤ stage i from hi) with he | hlt
    · cases i with
      | table k => exact .inr ⟨k, rfl⟩
      | _ => cases he
    · exact .inl hlt
  unfold Machine.startTable
  dsimp only
  split
  · exact fed (h.turn rfl rfl)
  · exact fed h

theorem mid_mirrorLamps {n : Nat} (h : Mid (alsoAll d fun i => ∃ w, w < n ∧ i = .lamp w) V s) : Mid d V (mirrorLamps n s) := by
  induction n generalizing d with
  | zero => exact h.mono fun i hi => hi.elim id fun ⟨_, hw, _⟩ => absurd hw (Nat.not_lt_zero _)
  | succ n ih =>
    refine Mid.mirrorLampWord (ih (h.mono fun i hi => ?_))
    obtain hi | ⟨w, hw, e⟩ := hi
    · exact .inl (.inl hi)
    · rcases Nat.eq_or_lt_of_le (Nat.le_of_lt_succ hw) with rfl | hlt
      · exact .inl (.inr e)
      · exact .inr ⟨w, hlt, e⟩

/-- The visitor mirror written whole shows the visitor unit's words. -/
theorem mid_mirrorVisitor (h : Mid (alsoAll d fun i => ∃ k, i = .visitor k) V s) : Mid d (visitorWord s) (mirrorVisitor s) := by
  have h1 := h.withWords (W := visitorWord s) (fun _ => id) fun k hk => absurd (.inr ⟨k, rfl⟩) hk
  refine Mid.eachWritten (place := .visitor) (P := fun t => body t = body s) (h1.shrink fun i hi => ?_) rfl
    (fun n t ht => (body_mirrorVisitorWord n t).trans ht) fun _ n t ht hd =>
      hd.mirrorVisitorWord (RouteRelease.read_of_body (fun u => visitorWord u n) (fun _ => rfl) ht)
  obtain hi | ⟨k, rfl⟩ := hi
  · exact .inl (.inl hi)
  · by_cases hk : k < 16
    · exact .inl (.inr ⟨k, List.mem_range.2 hk, rfl⟩)
    · exact .inr ⟨fun hstands => absurd hstands hk, nofun, nofun⟩

theorem visitorWord_mirrorVisitor (s : State) : visitorWord (mirrorVisitor s) = visitorWord s :=
  funext fun k => RouteRelease.read_of_body (fun u => visitorWord u k) (fun _ => rfl) (body_eachDo _ _ s body_mirrorVisitorWord)

/-- What the panel's items are while START has not come to them. -/
def panelItems : Item → Prop := fun i => (∃ w, i = .lamp w) ∨ ∃ k, i = .visitor k

/-- The panel at START: lamps, button lamps and the visitor mirror. -/
theorem mid_startPanel (h : Mid (later 6) V s) : Mid nothing (visitorWord (startPanel s)) (startPanel s) := by
  have h1 : Mid (also panelItems .modes) V (setVisitors (fun v => { v with queue := [], runner := none }) s) := by
    refine h.visitors (w := s.work) ⟨h.base.vis.filters, h.base.vis.lamps⟩ (fun i hi => ?_) id fun hi => absurd (.inr rfl) hi
    cases i with
    | lamp w => exact .inl (.inl ⟨w, rfl⟩)
    | visitor k => exact .inl (.inr ⟨k, rfl⟩)
    | modes => exact .inr rfl
    | _ => simp [later, stage] at hi
  have h2 := (h1.wantLamps (w := { s.work with lamps := true }) id rfl).settleLamps
  unfold Machine.startPanel
  dsimp only
  rw [visitorWord_mirrorVisitor]
  refine mid_mirrorVisitor (mid_mirrorLamps (h2.shrink fun i hi => ?_)).settleButtons
  obtain ⟨w, rfl⟩ | ⟨k, rfl⟩ := hi
  · by_cases hw : w < 24
    · exact .inl (.inr ⟨w, hw, rfl⟩)
    · exact .inr ⟨fun hstands => absurd hstands hw, nofun, nofun⟩
  · exact .inl (.inl (.inr ⟨k, rfl⟩))

end Stages

end Sys2Proof.ShownMeanwhile
end

