-- ==== Sys2Proof/Proofs/StartEnds.lean ====
section
/-! The START request and the end of its handling, with what is shown (R193, O44). -/

namespace Sys2Proof.ShownMeanwhile

open Sys2Proof.Machine Sys2Proof.MirrorItems

section Start
variable {d : Item → Prop} {V : Nat → Nat} {s t before : State}

/-! ### START passes -/

/-- The run state RUNNING, everything else still to be taken up. -/
theorem mid_asRunning (h : Mid nothing V s) (hc : configFault s = none) (hread : s.exch.reading = none) (hloads : s.exch.loads = []) :
    Mid (later 0) V (setRunState .running { s with clock := 0, disp := { s.disp with flash := 0 } }) := by
  have hsame : SameRecords s (setRunState .running { s with clock := 0, disp := { s.disp with flash := 0 } }) := by
    constructor <;> simp [setRunState]
  refine (h.mono fun _ hi => hi.elim).hidden (sameMirrors_write16 0x16 _ _ (by omega)) (fun k => by simp [setRunState]) ?_
  refine ⟨memOk_write16 _ _ _ h.base.mem, ?_, ?_, ?_, ?_, ?_, ?_, fun hne => absurd ?_ hne, fun _ => hsame.configFault.trans hc,
    fun _ l hl => ?_⟩
  · simpa [setRunState] using h.base.occ
  · simpa [setRunState] using h.base.pts
  · simpa [setRunState] using h.base.asp
  · simpa [setRunState] using h.base.active
  · simpa [setRunState] using h.base.vis
  · simpa [setRunState] using (⟨h.base.disp.shown, h.base.disp.bind⟩ : DispFit { s.disp with flash := 0 })
  · simp [setRunState]
  · simp [setRunState, hread, hloads] at hl

/-- START up to its panel. -/
theorem mid_beforePanel (h : Mid nothing V s) (hr : s.exch.runState ≠ .running) (hc : configFault s = none)
    (hread : s.exch.reading = none) (hloads : s.exch.loads = []) : ∃ u, startLayout s = startPanel u ∧ Mid (later 6) V u := by
  have h1 := (mid_asRunning h hc hread hloads).reportLayout (cause := 4) (item := 0)
  have htags : (reportLayout 4 0 (setRunState .running { s with clock := 0, disp := { s.disp with flash := 0 } })).tags.fields = [] :=
    (FreshBlocks.read_of_stem (fun u => u.tags.fields) (fun _ => rfl) (LayoutStart.stem_reported s)).trans (h.base.tags hr)
  have hrun : (reportLayout 4 0 (setRunState .running { s with clock := 0, disp := { s.disp with flash := 0 } })).running = true :=
    (FreshBlocks.read_of_stem (fun u => u.running) (fun _ => rfl) (LayoutStart.stem_reported s)).trans rfl
  unfold Machine.startLayout
  dsimp only
  generalize reportLayout 4 0 (setRunState .running { s with clock := 0, disp := { s.disp with flash := 0 } }) = u at h1 htags hrun ⊢
  have h2 := mid_startSections h1
  have htags2 : (startSections u).tags.fields = [] :=
    (FreshBlocks.read_of_stem (fun u => u.tags.fields) (fun _ => rfl) (LayoutStart.stem_startSections u)).trans htags
  have hrun2 : (startSections u).running = true :=
    (congrArg (fun k => k.runState == .running) (LayoutStands.standing_startSections u)).trans hrun
  have h3 := mid_startRoutes (mid_startPoints (mid_startTags h2 htags2 hrun2))
  exact ⟨_, rfl, mid_startTable (mid_startSignals h3 (active_startRoutes _))⟩

/-! ### The visitor unit at rest -/

/-- No show runs or waits, and the button lamps show their modes. -/
structure PanelAtRest (s : State) : Prop where
  runner : s.vis.runner = none
  queue : s.vis.queue = []
  buttons : ButtonsRight s

theorem PanelAtRest.of_body (h : PanelAtRest s) (hb : body t = body s) : PanelAtRest t where
  runner := (RouteRelease.read_of_body (fun u => u.vis.runner) (fun _ => rfl) hb).trans h.runner
  queue := (RouteRelease.read_of_body (fun u => u.vis.queue) (fun _ => rfl) hb).trans h.queue
  buttons := fun b hlt => (RouteRelease.read_of_body (fun u => Tbl.getD u.vis.lamps b Mode.off) (fun _ => rfl) hb).trans
    ((h.buttons b hlt).trans (RouteRelease.read_of_body (fun u => buttonLampMode u b) (fun _ => rfl) hb).symm)

/-- The panel at rest after START, whatever lamps there were. -/
theorem atRest_startPanel (s : State) (hs : Tbl.sorted s.vis.lamps = true) : PanelAtRest (startPanel s) := by
  unfold startPanel
  dsimp only
  generalize hu : settleLamps { setVisitors (fun v => { v with queue := [], runner := none }) s with
    work := { (setVisitors (fun v => { v with queue := [], runner := none }) s).work with lamps := true } } = u
  have hbody : body (mirrorLamps 24 u) = body u := by
    have loop (n : Nat) : body (mirrorLamps n u) = body u := by
      induction n with
      | zero => rfl
      | succ n ih => exact (body_mirrorLampWord ..).trans ih
    exact loop 24
  have hvis : u.vis = { s.vis with queue := [], runner := none } := by
    rw [← hu]
    unfold Machine.settleLamps
    rw [if_pos rfl]
    exact FreshBlocks.read_eachDo (fun u => u.vis) _ settleOne (fun i t => by
      obtain he | ⟨k, -, hb⟩ := settleOne_cases i t
      · rw [he]
      · exact (RouteRelease.read_of_body (fun u => u.vis) (fun _ => rfl) hb).trans rfl) _
  have hvis2 : (mirrorLamps 24 u).vis = { s.vis with queue := [], runner := none } :=
    (RouteRelease.read_of_body (fun u => u.vis) (fun _ => rfl) hbody).trans hvis
  generalize mirrorLamps 24 u = w at hvis2
  refine PanelAtRest.of_body (s := settleButtons w) ?_ (body_eachDo _ _ _ body_mirrorVisitorWord)
  refine ⟨?_, ?_, buttonsRight_settleButtons (by rw [hvis2]; exact hs)⟩
  · rw [settleButtons_eq]; exact congrArg VisitorUnit.runner hvis2
  · rw [settleButtons_eq]; exact congrArg VisitorUnit.queue hvis2

/-- The visitor words read the button lamps by their modes. -/
theorem visitorWord_lamps {l : Tbl Mode} (hv : t.vis = { s.vis with lamps := l }) (hj : t.tt.jogPermitted = s.tt.jogPermitted)
    (hl : ∀ b, b < 18 → Tbl.getD t.vis.lamps b .off = Tbl.getD s.vis.lamps b .off) (k : Nat) : visitorWord t k = visitorWord s k := by
  have h7 : modesOf (fun n => buttonMode t n) 16 = modesOf (fun n => buttonMode s n) 16 :=
    modesOf_congr fun b hb => hl b (by omega)
  have h8 : modesOf (fun n => buttonMode t (16 + n)) 2 = modesOf (fun n => buttonMode s (16 + n)) 2 :=
    modesOf_congr fun b hb => hl (16 + b) (by omega)
  unfold visitorWord
  rw [h7, h8]
  unfold queuePlace
  rw [hv, hj]

/-- With the panel at rest a handling's end leaves the visitor words. -/
theorem word_atRest (h : PanelAtRest s) (hmid : Mid d V s) (k : Nat) : visitorWord (settled before s) k = visitorWord s k := by
  have hcalm : calm (settleLamps (recomputeAspects s)) = calm s := (calm_settleLamps _).trans (calm_recomputeAspects s)
  have hvis : (settleLamps (recomputeAspects s)).vis = { s.vis with lamps := (settleLamps (recomputeAspects s)).vis.lamps } := by
    have g := congrArg (fun u => ({ u.vis with lamps := (settleLamps (recomputeAspects s)).vis.lamps } : VisitorUnit)) hcalm
    exact (rfl : _ = ({ (calm (settleLamps (recomputeAspects s))).vis with lamps := (settleLamps (recomputeAspects s)).vis.lamps }
      : VisitorUnit)).trans g
  have hs : Tbl.sorted (settleLamps (recomputeAspects s)).vis.lamps = true := hmid.recomputeAspects.settleLamps.base.vis.lamps
  have hword := word_settled (body_settleVisitors before (settleLamps (recomputeAspects s))) k
  refine hword.trans ?_
  generalize settleLamps (recomputeAspects s) = u at hcalm hvis hs
  refine visitorWord_lamps (l := (settleButtons u).vis.lamps) ?_ ?_ (fun b hb => ?_) k
  · rw [settleButtons_eq]
    exact congrArg (fun v : VisitorUnit => { v with lamps := lampsSet (List.range 18) u }) hvis
  · rw [settleButtons_eq]
    exact AspectsTaken.read_of_calm (fun y => y.tt.jogPermitted) (fun _ => rfl) hcalm
  · rw [getD_settleButtons hs hb, h.buttons b hb]
    exact AspectsTaken.read_of_calm (fun y => buttonLampMode y b) (fun _ => rfl) hcalm

/-- The runner's turn with no show: a step that ended is forgotten. -/
theorem runVisitor_none (h : s.vis.runner = none) : ∃ w, runVisitor s = { s with work := w } ∧
    w.aspects = s.work.aspects ∧ w.lamps = s.work.lamps := by
  cases hstep : s.work.step with
  | none => exact ⟨s.work, runVisitor_idle s hstep, rfl, rfl⟩
  | some e =>
    have hafter : afterStep e s = { s with work := { s.work with step := none } } := by
      unfold afterStep
      dsimp only
      rw [h]
    refine ⟨{ s.work with step := none }, ?_, rfl, rfl⟩
    rw [ShowRunner.runVisitor_once hstep (by rw [hafter]), hafter]

/-- The end of a handling that left the panel at rest and its mirror written. -/
theorem done_atRest (h : Mid nothing (visitorWord s) s) (hp : PanelAtRest s) : Done (endHandling before s) := by
  obtain ⟨w, hw, ha, hl⟩ := runVisitor_none hp.runner
  have h1 : Mid nothing (visitorWord s) { s with work := w } := h.work (fun e => ha.symm.trans e) fun e => hl.symm.trans e
  have hp1 : PanelAtRest { s with work := w } := ⟨hp.runner, hp.queue, hp.buttons⟩
  have hhead : testHeads 16 { s with work := w } = { s with work := w } :=
    testHeads_idle 16 _ (by unfold noHead; rw [show ({ s with work := w } : State).vis.queue = [] from hp.queue]; rfl)
  have hend : endHandling before s = settled before { s with work := w } := by
    unfold endHandling settled
    rw [hw]
    dsimp only
    rw [hhead]
  rw [hend]
  refine done_settled h1 fun k _ => ?_
  exact (word_atRest hp1 h1 k).symm

/-! ### The START request -/

theorem SameTables.buttonLampMode (h : SameTables s t) (b : Nat) : buttonLampMode t b = buttonLampMode s b := by
  have hstate := h.state
  have hrun := h.running
  unfold Machine.buttonLampMode showLampMode jogLampMode
  rw [hrun, hstate]
  rfl

theorem SameTables.atRest (h : SameTables s t) (hp : PanelAtRest s) : PanelAtRest t :=
  ⟨by rw [h.vis]; exact hp.runner, by rw [h.vis]; exact hp.queue, fun b hb => by rw [h.vis, h.buttonLampMode]; exact hp.buttons b hb⟩

theorem SameTables.visitorWord (h : SameTables s t) : visitorWord t = visitorWord s :=
  funext fun k => visitorWord_congr h.vis (by rw [h.tt]) k

theorem done_startRequest (h : Mid nothing (visitorWord before) s) (hr : s.exch.runState ≠ .running) {n : Nat} :
    Done (endHandling before (startRequest n s)) := by
  unfold Machine.startRequest
  split
  · exact done_endHandling h.complete
  · next hl =>
    obtain ⟨hread, hloads⟩ : s.exch.reading = none ∧ s.exch.loads = [] := by simpa using hl
    split
    · exact done_endHandling h.complete
    · next hc =>
      obtain ⟨u, hu, hbefore⟩ := mid_beforePanel h hr hc hread hloads
      have hsame := sameTables_complete n .ok 0 0 (startPanel u)
      rw [hu]
      refine done_atRest ?_ (hsame.atRest (atRest_startPanel u hbefore.base.vis.lamps))
      rw [hsame.visitorWord]
      exact (mid_startPanel hbefore).complete

end Start

end Sys2Proof.ShownMeanwhile
end

