-- ==== Sys2Proof/Proofs/ResetShown.lean ====
section
/-! The layout reset and the full resets, with what is shown: outside RUNNING only the heads' words stand (R20, R194, R198, O44). -/

namespace Sys2Proof.ShownMeanwhile

open Sys2Proof.Machine Sys2Proof.MirrorItems

section Reset
variable {d : Item → Prop} {V W : Nat → Nat} {s t before : State}

/-- Outside RUNNING nothing but the heads is shown. -/
theorem mid_idle (h : Mid (later 0) V s) (hr : s.exch.runState ≠ .running) : Mid nothing W s where
  words := fun i v _ hstands hv => by
    have hrun : ¬ s.running = true := fun he => hr (eq_of_beq he)
    cases i with
    | head k => exact h.words (.head k) v (Nat.lt_irrefl 0) hstands hv
    | aspects => cases hv
    | modes => cases hv
    | _ => cases (if_neg hrun).symm.trans hv
  aspects := fun he => absurd he hr
  modes := fun he => absurd he hr
  base := h.base

/-! ### The blocks given up -/

theorem mid_resetSections (h : Mid (later 0) V s) : Mid (later 0) V (resetSections s) := by
  refine h.detection rfl (fun _ => configFault_occ rfl rfl) ⟨h.base.occ.recs, h.base.occ.filters, fun n r hr => ?_, h.base.occ.heads⟩
    (fun _ => id) (fun n hn => absurd Nat.one_pos hn) (fun _ _ => rfl) fun hi => absurd (Nat.succ_pos 6) hi
  obtain ⟨hn, o, ho⟩ := h.base.occ.secs n r hr
  exact ⟨hn, _, LayoutResets.find_restedTrack ho⟩

theorem mid_resetTags (h : Mid (later 0) V s) : Mid (later 0) V (resetTags s) := by
  have h1 : Mid (later 0) V { s with tags := { s.tags with table := [], fields := [] } } :=
    h.hidden (.of_mem rfl) (fun _ => rfl) (h.base.tags' (w := s.work) fun _ _ => rfl)
  exact mid_mirrorTags (h1.mono fun _ => .inl)

theorem mid_resetRoutes (h : Mid (later 0) V s) : Mid (later 0) V (resetRoutes s) := by
  have h1 : Mid (later 0) V { s with ilk := { s.ilk with active := [], locks := [], holders := [] } } :=
    h.hidden (.of_mem rfl) (fun _ => rfl) (h.base.ilk (w := s.work) rfl rfl)
  exact mid_mirrorActives (h1.setStack.mono fun _ => .inl)

/-- A point's item is one of those set aside. -/
theorem also_point {i : Item} {p : Nat} (hi : also (later 0) (.point p) i) : later 0 i :=
  hi.elim id fun e => e ▸ (by decide : 0 < 3)

theorem mid_resetPoints (h : Mid (later 0) V s) : Mid (later 0) V (resetPoints s) := by
  have rest {u : State} (hu : Mid (later 0) V u) (cut : List Nat) : Mid (later 0) V (eachDo (Tbl.keys u.pts.recs) freshPoint
      (eachDo (Tbl.keys u.pts.recs) (unfailPoint cut) (setOrders [] [] { u with pts := { u.pts with drives := [] } }))) := by
    have h1 : Mid (later 0) V (setOrders [] [] { u with pts := { u.pts with drives := [] } }) :=
      (hu.pointsRest (x := { u.pts with drives := [] }) rfl rfl rfl rfl rfl).setOrders (fun _ => id)
        fun p hp => absurd (by decide : 0 < 3) hp
    have h2 := h1.eachDo (l := Tbl.keys u.pts.recs) (f := unfailPoint cut) fun _ _ ht => ht.setPoint.mono fun _ => also_point
    exact h2.eachDo fun _ _ ht => mid_freshPoint ht.also
  unfold Machine.resetPoints
  dsimp only
  split
  · exact rest h.startRecharge _
  · exact rest h _

theorem mid_resetSignals (h : Mid (later 0) V s) : Mid (later 0) V (resetSignals s) := by
  have hd : later 0 .aspects := (by decide : 0 < 5)
  have h1 : Mid (also (later 0) .aspects) V (setRunCondition .running none s) := Mid.setRunCondition h.also
  have h2 : Mid (later 0) V (setPower false (setRunCondition .running none s)) :=
    (h1.mono fun i hi => hi.elim id fun e => e ▸ hd).setPower
  exact h2.eachDo fun _ _ ht => mid_restSignal hd ht.also

theorem mid_resetTable (h : Mid d V s) : Mid d V (resetTable s) := by
  unfold Machine.resetTable
  split
  · exact h.turn rfl rfl
  · exact h.turn rfl rfl

theorem mid_resetVisitors (h : Mid d V s) : Mid d V (resetVisitors s) := h.abortShow.visitorRest rfl rfl rfl

theorem mid_resetDisplay (h : Mid (later 0) V s) : Mid (later 0) V (resetDisplay s) := by
  have h1 : Mid (later 0) V (loadIdle s.disp.idle1 (setPanelState .awake s)) := h.setPanelState.loadIdle
  unfold Machine.resetDisplay
  dsimp only
  generalize loadIdle s.disp.idle1 (setPanelState .awake s) = u at h1
  have h2 : Mid (later 0) V { u with disp := { u.disp with shown := [] } } :=
    h1.hidden (.of_mem rfl) (fun _ => rfl) (h1.base.disp' (w := u.work) ⟨rfl, h1.base.disp.bind⟩)
  exact mid_mirrorLamps (h2.mono fun _ => .inl)

/-! ### No tag stands in a section -/

/-- The blocks of a layout reset, and its loads. -/
def givenUp (s : State) : State := setLoads none [] (resetDisplay (resetVisitors (resetTable (resetSignals (resetPoints (resetRoutes
  (resetTags (resetSections s))))))))

theorem fields_of_stem (h : FreshBlocks.stem s = FreshBlocks.stem t) : s.tags.fields = t.tags.fields :=
  FreshBlocks.read_of_stem (fun u => u.tags.fields) (fun _ => rfl) h

theorem fields_resetTags (s : State) : (resetTags s).tags.fields = [] := (fields_of_stem (LayoutResets.stem_resetTags s)).trans rfl

theorem fields_resetRoutes (s : State) : (resetRoutes s).tags.fields = s.tags.fields :=
  (fields_of_stem (LayoutResets.stem_resetRoutes s)).trans rfl

theorem fields_resetPoints (s : State) : (resetPoints s).tags.fields = s.tags.fields := by
  obtain ⟨p, -, hp⟩ := LayoutResets.stem_resetPoints s
  exact (fields_of_stem hp).trans rfl

theorem fields_resetSignals (s : State) : (resetSignals s).tags.fields = s.tags.fields :=
  (fields_of_stem (LayoutResets.stem_resetSignals s)).trans rfl

theorem fields_resetTable (s : State) : (resetTable s).tags.fields = s.tags.fields :=
  (fields_of_stem (LayoutResets.stem_resetTable s)).trans rfl

theorem fields_resetVisitors (s : State) : (resetVisitors s).tags.fields = s.tags.fields := by
  cases hrun : s.vis.runner with
  | none =>
    unfold resetVisitors abortShow
    rw [hrun]
    rfl
  | some r => rw [LayoutResets.resetVisitors_eq s hrun]

theorem fields_resetDisplay (s : State) : (resetDisplay s).tags.fields = s.tags.fields := by
  obtain ⟨x, -, -, hx⟩ := LayoutResets.stem_resetDisplay s
  exact (fields_of_stem hx).trans rfl

theorem fields_givenUp (s : State) : (givenUp s).tags.fields = [] := by
  unfold givenUp
  have hl (u : State) : (setLoads none [] u).tags.fields = u.tags.fields := rfl
  rw [hl, fields_resetDisplay, fields_resetVisitors, fields_resetTable, fields_resetSignals, fields_resetPoints, fields_resetRoutes,
    fields_resetTags]

/-! ### The reset whole (R194) -/

/-- The run state CONFIGURING with no tag in a section. -/
theorem mid_configuring (h : Mid (later 0) V s) (hf : s.tags.fields = []) : Mid (later 0) V (setRunState .configuring s) := by
  refine h.hidden (sameMirrors_write16 0x16 _ _ (by omega)) (fun k => by simp [setRunState]) ?_
  have hr : (setRunState .configuring s).exch.runState = .configuring := by simp [setRunState]
  refine ⟨memOk_write16 _ _ _ h.base.mem, ?_, ?_, ?_, ?_, ?_, ?_, fun _ => ?_, fun he => ?_, fun he => ?_⟩
  · simpa [setRunState] using h.base.occ
  · simpa [setRunState] using h.base.pts
  · simpa [setRunState] using h.base.asp
  · simpa [setRunState] using h.base.active
  · simpa [setRunState] using h.base.vis
  · simpa [setRunState] using h.base.disp
  · simpa [setRunState] using hf
  · rw [hr] at he; cases he
  · rw [hr] at he; cases he

theorem mid_givenUp (h : Mid nothing V s) : Mid (later 0) V (givenUp s) := by
  have h0 : Mid (later 0) V s := h.mono fun _ => False.elim
  have h1 := mid_resetDisplay (mid_resetVisitors (mid_resetTable (mid_resetSignals (mid_resetPoints (mid_resetRoutes
    (mid_resetTags (mid_resetSections h0)))))))
  exact h1.setLoads fun _ _ hm => by simp at hm

/-- A layout reset up to the slots in hand. -/
def cleared (s : State) : State := mirrorVisitor (settleButtons (updateFeed (setRunState .configuring (givenUp s))))

/-- The visitor mirror written while it is set aside. -/
theorem mid_visitorsAside (h : Mid (later 0) V s) : Mid (later 0) V (mirrorVisitor s) :=
  h.eachDo fun k u hu => by
    have g : Mid (later 0) (visitorWord u) u := hu.withWords (fun _ => id) fun k hk => absurd (by decide : 0 < 7) hk
    exact (g.also.mirrorVisitorWord rfl).withWords (fun _ => id) fun k hk => absurd (by decide : 0 < 7) hk

theorem mid_cleared (h : Mid nothing V s) : Mid (later 0) V (cleared s) :=
  mid_visitorsAside (mid_configuring (mid_givenUp h) (fields_givenUp s)).updateFeed.settleButtons

theorem runState_cleared (s : State) : (cleared s).exch.runState = .configuring := by
  unfold cleared
  generalize givenUp s = u
  have h1 : (setRunState .configuring u).exch.runState = .configuring := by simp [setRunState]
  generalize setRunState .configuring u = v at h1 ⊢
  have h2 : (updateFeed v).exch.runState = .configuring := by
    unfold updateFeed
    exact (FreshBlocks.read_of_stem (fun y => y.exch.runState) (fun _ => rfl) (FreshBlocks.stem_setDeck v _)).trans h1
  generalize updateFeed v = w at h2 ⊢
  refine (FreshBlocks.read_of_stem (fun y => y.exch.runState) (fun _ => rfl) (FreshBlocks.stem_mirrorVisitor _)).trans ?_
  rw [settleButtons_eq]
  exact h2

theorem mid_abortSlots (h : Mid d V s) {own : Option Nat} : Mid d V (abortSlots own s).1 := h.eachDo fun _ _ ht => ht.complete

theorem runState_abortSlots (own : Option Nat) (s : State) : (abortSlots own s).1.exch.runState = s.exch.runState :=
  FreshBlocks.read_eachDo (fun y => y.exch.runState) _ (fun n t => complete n .aborted 0 0 t) (fun _ _ => complete_runState ..) s

/-- The answer to a layout reset. -/
def resetAnswered (own : Option Nat) (n : Nat) (s : State) : State :=
  match own with
  | some k => complete k .ok n 0 (reportLayout 1 k s)
  | none => reportLayout 6 0 s

theorem layoutReset_eq (own : Option Nat) (s : State) :
    layoutReset own s = resetAnswered own (abortSlots own (cleared s)).2 (abortSlots own (cleared s)).1 := by
  unfold Machine.layoutReset cleared givenUp
  dsimp only
  generalize Machine.mirrorVisitor _ = u
  cases own with
  | some k => rfl
  | none => rfl

theorem mid_resetAnswered (h : Mid d V s) {own : Option Nat} {n : Nat} : Mid d V (resetAnswered own n s) := by
  cases own with
  | some k => exact h.reportLayout.complete
  | none => exact h.reportLayout

theorem runState_resetAnswered (own : Option Nat) (n : Nat) (s : State) : (resetAnswered own n s).exch.runState = s.exch.runState := by
  have hreport (c i : Nat) : (reportLayout c i s).exch.runState = s.exch.runState :=
    FreshBlocks.read_of_stem (fun y => y.exch.runState) (fun _ => rfl) (FreshBlocks.stem_reportLayout s c i)
  cases own with
  | some k => exact (complete_runState ..).trans (hreport 1 k)
  | none => exact hreport 6 0

theorem runState_layoutReset (own : Option Nat) (s : State) : (layoutReset own s).exch.runState = .configuring := by
  rw [layoutReset_eq, runState_resetAnswered, runState_abortSlots, runState_cleared]

/-- A layout reset leaves nothing shown but the heads. -/
theorem mid_layoutReset (h : Mid nothing V s) {own : Option Nat} : Mid nothing W (layoutReset own s) := by
  refine mid_idle (V := V) ?_ (by rw [runState_layoutReset]; nofun)
  rw [layoutReset_eq]
  exact mid_resetAnswered (mid_abortSlots (mid_cleared h))

end Reset

end Sys2Proof.ShownMeanwhile
end

