-- ==== Sys2Proof/Proofs/IntakeShown.lean ====
section
/-! Handlings, requests, the examination and the host port, with what is shown (R185 to R189, O44). -/

namespace Sys2Proof.ShownMeanwhile

open Sys2Proof.Machine Sys2Proof.MirrorItems Sys2Proof.CommandShapes

section Intake
variable {d : Item → Prop} {V : Nat → Nat} {s t before : State}

/-! ### What leaves everything shown as it was -/

/-- A change outside the tables and the mirrors keeps what is shown. -/
theorem Done.same (h : Done s) (ht : SameTables s t) (hm : SameMirrors s t) (hmem : t.memOk) (hw : t.work = s.work) : Done t where
  mid := by
    rw [ht.visitorWord]
    exact h.mid.same ht hm hmem (fun e => hw ▸ e) fun e => hw ▸ e
  aspects := by rw [hw]; exact h.aspects
  lamps := by rw [hw]; exact h.lamps
  buttons := fun hr b hb => by
    rw [ht.vis, ht.buttonLampMode]
    exact h.buttons (ht.runState ▸ hr) b hb
  levels := fun hr => by
    have hl : (refreshLevels t).disp.levels = (refreshLevels s).disp.levels := by
      unfold refreshLevels lampLevel
      rw [ht.disp, ht.vis]
    rw [hl, ht.disp]
    exact h.levels (ht.runState ▸ hr)

theorem Done.of_body (h : Done s) (hb : body t = body s) (hm : SameMirrors s t) (hmem : t.memOk) : Done t :=
  h.same (.of_body hb) hm hmem (work_of_body hb)

/-- A handling that keeps what is shown meanwhile ends with everything in agreement. -/
theorem settled_finish (h : Done (endHandling before s)) : Settled (finish before s) := settled_of_done (done_finish h) rfl

/-! ### Commands that are one handling -/

theorem mid_handling {c : Instr} {f : State → State} (hc : handlingOf c = some f) (h : Mid d V s) : Mid d V (f s) := by
  have bounded {p : Bool} {i : Bool} : Mid d V (if p = true then boundary i s else s) := by
    split
    · exact h.boundary
    · exact h
  cases c with
  | detectorSample => cases hc; exact h.detectorSampled
  | axleHeadSample => cases hc; exact h.headSampled
  | discrepancyTimerExpiry => cases hc; exact h.discrepancyExpires
  | lostHoldExpiry => cases hc; exact h.lostHoldExpires
  | loadRecord => cases hc; exact h.loadNext
  | stackEntryExpiry => cases hc; exact h.stackExpires
  | overlapTimerExpiry => cases hc; exact h.overlapExpires
  | approachTimerExpiry => cases hc; exact h.approachExpires
  | pointContactSample => cases hc; exact h.contactSample
  | lossTimerExpiry => cases hc; exact h.lossExpires
  | pulseTimerExpiry => cases hc; exact h.pulseExpires
  | windowTimerExpiry => cases hc; exact h.windowExpires
  | rechargeTimerExpiry => cases hc; exact h.rechargeExpires
  | travelTimerExpiry => cases hc; exact h.travelExpires
  | stopPinSample => cases hc; exact h.stopPinSampled
  | boltContactSample => cases hc; exact h.boltSample
  | boltTimerExpiry => cases hc; exact h.boltExpires
  | settleTimerExpiry => cases hc; exact h.settleExpires
  | stepBoundary => cases hc; exact h.boundary
  | homingSearchLimit => cases hc; exact bounded
  | legEnd => cases hc; exact bounded
  | stopComplete => cases hc; exact bounded
  | jogHoldTimerExpiry => cases hc; exact h.jogHoldExpires
  | buttonSample => cases hc; exact h.buttonSampled
  | stepTimerExpiry => cases hc; exact h.stepTimerExpires
  | durationTimerExpiry => cases hc; exact h.durationExpires
  | coolDownExpiry => cases hc; exact h.coolDownExpires
  | idleTimerExpiry => cases hc; exact h.idleExpires
  | _ => cases hc

/-! ### Requests (R187 to R190) -/

/-- A block other than START and LAYOUT_RESET, in a run state that allows it. -/
theorem mid_block {q : Request} {al : Allowed} {f : Nat → State → State} (hf : blockOf q = some (al, f)) (h9 : q.kind ≠ 9)
    (h10 : q.kind ≠ 10) (hok : al.ok s.exch.runState = true) (h : Mid d V s) {n : Nat} : Mid d V (f n s) := by
  have idle (hr : s.exch.runState = .running) (hok : Allowed.configuring.ok s.exch.runState = true) : False := by
    rw [hr] at hok
    cases hok
  unfold blockOf at hf
  dsimp only at hf
  split at hf
  case h_1 => cases hf; exact h.loadRequest fun hr => (idle hr hok).elim
  case h_2 => cases hf; exact h.loadRequest fun hr => (idle hr hok).elim
  case h_3 => cases hf; exact h.loadRequest fun hr => (idle hr hok).elim
  case h_4 => cases hf; exact h.loadRequest fun hr => (idle hr hok).elim
  case h_5 => cases hf; exact h.loadRequest fun hr => (idle hr hok).elim
  case h_6 => cases hf; exact h.loadRequest fun _ => .inl rfl
  case h_7 => cases hf; exact h.loadRequest fun _ => .inr rfl
  case h_8 => cases hf; exact h.setParameters
  case h_9 heq => exact absurd heq h9
  case h_10 heq => exact absurd heq h10
  case h_11 => cases hf; exact h.disableSection hok
  case h_12 => cases hf; exact h.enableSection hok
  case h_13 => cases hf; exact h.resetSection hok
  case h_14 => cases hf; exact h.labelTag
  case h_15 => cases hf; exact h.setRoute
  case h_16 => cases hf; exact h.cancelRequest
  case h_17 => cases hf; exact h.movePoint
  case h_18 => cases hf; exact h.restorePoint
  case h_19 => cases hf; exact h.allStopRequest
  case h_20 => cases hf; exact h.resumeRequest
  case h_21 => cases hf; exact h.turnTable
  case h_22 => cases hf; exact h.homeTable
  case h_23 => cases hf; exact h.stopTable
  case h_24 => cases hf; exact h.runShow
  case h_25 => cases hf; exact h.suspendVisitors
  case h_26 => cases hf; exact h.resumeVisitors
  case h_27 => cases hf

/-- A request checked and carried out, brought to its end. -/
theorem done_serve {q : Request} {al : Allowed} {f : Nat → State → State} (hf : blockOf q = some (al, f))
    (h : Mid nothing (visitorWord before) s) {n : Nat} : Done (endHandling before (serve al f n s)) := by
  unfold serve
  split
  · next hok =>
    by_cases h9 : q.kind = 9
    · unfold blockOf at hf
      rw [h9] at hf
      cases hf
      refine done_startRequest h fun hr => ?_
      rw [hr] at hok
      cases hok
    · by_cases h10 : q.kind = 10
      · unfold blockOf at hf
        rw [h10] at hf
        cases hf
        exact done_endHandling (mid_layoutReset h)
      · exact done_endHandling (mid_block hf h9 h10 hok h)
  · exact done_endHandling h.complete

theorem slot_bound (n : Nat) : 0xD60 ≤ slotAt n := by unfold slotAt Config.slotBase; omega

theorem sameMirrors_postSlot (n : Nat) (r : Request) (s : State) : SameMirrors s (postSlot n r s) :=
  fun a _ hh => read8_postSlot n a r s (by unfold inSlot; have := slot_bound n; omega)

/-- A change of the controller's own registers. -/
theorem sameTables_port {e : Exchange} (h1 : e.runState = s.exch.runState) (h2 : e.reading = s.exch.reading) (h3 : e.loads = s.exch.loads) :
    SameTables s { s with exch := e } := ⟨rfl, rfl, rfl, rfl, rfl, rfl, rfl, rfl, h1, h2, h3⟩

theorem SameTables.trans {u : State} (h1 : SameTables s t) (h2 : SameTables t u) : SameTables s u :=
  ⟨h2.occ.trans h1.occ, h2.tags.trans h1.tags, h2.ilk.trans h1.ilk, h2.pts.trans h1.pts, h2.asp.trans h1.asp, h2.tt.trans h1.tt,
    h2.vis.trans h1.vis, h2.disp.trans h1.disp, h2.runState.trans h1.runState, h2.reading.trans h1.reading, h2.loads.trans h1.loads⟩

theorem sameTables_postSlot (n : Nat) (r : Request) (s : State) : SameTables s (postSlot n r s) := by
  unfold postSlot
  dsimp only
  refine SameTables.trans (t := ((((((s.write16 (slotAt n + 2) r.kind).write16 (slotAt n + 4) r.tag.toNat).write32 (slotAt n + 8)
    r.w0.toNat).write32 (slotAt n + 12) r.w1.toNat).write32 (slotAt n + 16) r.w2.toNat).write16 (slotAt n) 1)) (.of_body (by simp)) ?_
  exact sameTables_port rfl rfl rfl

theorem work_postSlot (n : Nat) (r : Request) (s : State) : (postSlot n r s).work = s.work := by simp [postSlot]

theorem done_postSlot (h : Done s) (n : Nat) (r : Request) : Done (postSlot n r s) :=
  h.same (sameTables_postSlot n r s) (sameMirrors_postSlot n r s) (memOk_postSlot n r s h.mid.base.mem) (work_postSlot n r s)

protected theorem Mid.takeSlot (h : Mid d V s) {n : Nat} {g : HostTag} : Mid d V (takeSlot n g s) := by
  have hb := slot_bound n
  have h1 := h.write16 (slotAt n) 2 (by omega)
  unfold Machine.takeSlot
  dsimp only
  generalize s.write16 (slotAt n) 2 = u at h1
  have h2 : Mid d V { u with exch := { u.exch with inHand := Tbl.insert u.exch.inHand n g, takePos := (n + 1) % Config.numSlots } } :=
    h1.same (sameTables_port rfl rfl rfl) (.of_mem rfl) h1.base.mem id id
  exact h2.write16 0x14 _ (by omega)

theorem settled_requestCommand {q r : Request} {al : Allowed} {f : Nat → State → State} (hf : blockOf q = some (al, f)) (h : Done s)
    (hw : s.work = Work.none) : Settled (requestCommand al f r s) := by
  have hpost := done_postSlot h s.exch.takePos r
  unfold requestCommand
  dsimp only
  split
  · have hmid := hpost.mid
    rw [(sameTables_postSlot s.exch.takePos r s).visitorWord] at hmid
    exact settled_finish (done_serve hf hmid.takeSlot)
  · exact settled_of_done hpost ((work_postSlot ..).trans hw)

/-! ### The examination (R188) -/

theorem done_serveSlot (h : Mid nothing (visitorWord before) s) (n : Nat) (r : Request) : Done (endHandling before (serveSlot n r s)) := by
  unfold serveSlot
  split
  · exact done_endHandling h.complete
  · next hf => exact done_serve hf h

theorem done_takeSlots (h : Done s) (hw : s.work = Work.none) (k : Nat) : Done (takeSlots k s) ∧ (takeSlots k s).work = Work.none := by
  induction k generalizing s with
  | zero => exact ⟨h, hw⟩
  | succ k ih =>
    unfold takeSlots
    dsimp only
    split
    · exact ih (done_finish (done_serveSlot h.mid.takeSlot _ _)) rfl
    · exact ⟨h, hw⟩

/-- The poll interval written back and the levels read. -/
theorem done_headerRead (h : Done s) (v : Nat) : Done (readLevels (s.write16 0x10 v)) := by
  have h1 := h.of_body (body_write16 0x10 v s) (sameMirrors_write16 0x10 v s (by omega)) (memOk_write16 0x10 v s h.mid.base.mem)
  exact h1.of_body (body_readLevels _) (sameMirrors_readLevels _) (ReportLog.memOk_readLevels h1.mid.base.mem)

theorem settled_examine (h : Done s) (hw : s.work = Work.none) : Settled (examine s) := by
  have h1 := done_headerRead h (min (s.read16 0x10) 255)
  have hw1 : (readLevels (s.write16 0x10 (min (s.read16 0x10) 255))).work = Work.none :=
    (work_of_body ((body_readLevels _).trans (body_write16 ..))).trans hw
  obtain ⟨h2, hw2⟩ := done_takeSlots h1 hw1 Config.numSlots
  unfold examine
  dsimp only
  generalize takeSlots Config.numSlots (readLevels (s.write16 0x10 (min (s.read16 0x10) 255))) = u at h2 hw2
  exact settled_of_done (h2.same (sameTables_port rfl rfl rfl) (.of_mem rfl) h2.mid.base.mem rfl) hw2

/-! ### The host port (R185, R186, R197) -/

theorem done_port (h : Done s) {e : Exchange} (h1 : e.runState = s.exch.runState) (h2 : e.reading = s.exch.reading)
    (h3 : e.loads = s.exch.loads) (hm : e.mem = s.exch.mem) : Done { s with exch := e } :=
  have hmem : ({ s with exch := e } : State).memOk := by
    have g := h.mid.base.mem
    unfold State.memOk at g ⊢
    exact (congrArg Mem.wf hm).trans g
  h.same (sameTables_port h1 h2 h3) (.of_mem hm) hmem rfl

theorem done_breakPairing (h : Done s) : Done (breakPairing s) := done_port h rfl rfl rfl rfl

theorem done_memoryAccess (h : Done s) {m : MemAccess} (hm : ∀ hw v, m = .write hw v → 2 * hw.val < 0x0100 ∨ 0x0D60 ≤ 2 * hw.val) :
    Done (memoryAccess m s) := by
  cases m with
  | write hw v =>
    have hout := hm hw v rfl
    have h1 := done_breakPairing h
    exact h1.of_body (body_write16 ..) (sameMirrors_write16 _ _ _ (by omega)) (memOk_write16 _ _ _ h1.mid.base.mem)
  | readUpper w => exact done_port h rfl rfl rfl rfl

theorem done_registerIgnored (h : Done s) (a : RegisterAccess) : Done (registerIgnored a s) := by
  cases a <;> exact done_port h rfl rfl rfl rfl

theorem settled_nudged (h : Done s) (hw : s.work = Work.none) : Settled (nudged s) := by
  have h1 := done_breakPairing h
  unfold nudged
  dsimp only
  split
  · exact settled_of_done h1 hw
  · exact settled_examine h1 hw

theorem settled_pollExpires (h : Done s) (hw : s.work = Work.none) : Settled (pollExpires s) := by
  unfold pollExpires
  split
  · exact settled_of_done h hw
  · exact settled_examine h hw

end Intake

end Sys2Proof.ShownMeanwhile
end

