-- ==== Sys2Proof/Proofs/ClockShown.lean ====
section
/-! The passing of time, with what is shown: no timer is shown but the jog hold timer and the runner's (R140, R172, R190, O44). -/

namespace Sys2Proof.ShownMeanwhile

open Sys2Proof.Machine Sys2Proof.MirrorItems

/-! ### The blocks' timers -/

section Timers
variable {d : Item → Prop} {V : Nat → Nat} {s t : State}

theorem find_timed {α : Type} (f : α → α) (l : Tbl α) (n : Nat) : Tbl.find (l.map fun x => (x.1, f x.2)) n = (Tbl.find l n).map f :=
  LayoutStart.find_map (fun _ => f) l n

theorem sorted_timed {α : Type} (f : α → α) {l : Tbl α} (h : Tbl.sorted l = true) : Tbl.sorted (l.map fun x => (x.1, f x.2)) = true :=
  LayoutStart.sorted_map (fun _ => f) h

theorem occOf_tick (s : State) (n : Nat) :
    occOf { s with occ := tickOcc s.occ } n = { occOf s n with discTimer := less (occOf s n).discTimer } := by
  unfold occOf tickOcc Tbl.getD
  rw [find_timed fun o : Occupancy => { o with discTimer := less o.discTimer }]
  cases Tbl.find s.occ.secs n <;> rfl

protected theorem Mid.tickOcc (h : Mid d V s) : Mid d V { s with occ := tickOcc s.occ } := by
  have hfit : OccFit (tickOcc s.occ) :=
    ⟨h.base.occ.recs, h.base.occ.filters, fun n r hr => by
      obtain ⟨hn, o, ho⟩ := h.base.occ.secs n r hr
      refine ⟨hn, { o with discTimer := less o.discTimer }, ?_⟩
      exact (find_timed (fun o : Occupancy => { o with discTimer := less o.discTimer }) s.occ.secs n).trans (congrArg _ ho), h.base.occ.heads⟩
  refine h.change (t := { s with occ := Machine.tickOcc s.occ }) (fun _ => id) (.of_mem rfl) rfl (fun i _ => ?_)
    (fun _ hf => ⟨hf, fun hx => hx.same rfl rfl rfl⟩) (fun _ hf => ⟨hf, fun hm => hm.same rfl rfl rfl fun c => ?_⟩)
    (h.base.occ' rfl rfl hfit)
  · cases i with
    | sec n =>
      refine word_sec rfl rfl fun r _ => ?_
      unfold sectionWord
      rw [occOf_tick]
      rfl
    | _ => rfl
  · cases c with
    | sectionOccupied n =>
      have hst : secState { s with occ := Machine.tickOcc s.occ } n = secState s n := (congrArg Occupancy.state (occOf_tick s n)).trans rfl
      unfold lampCondition
      dsimp only
      rw [hst]
      rfl
    | _ => rfl

protected theorem Mid.tickTags (h : Mid d V s) : Mid d V { s with tags := tickTags s.tags } := by
  refine h.change (t := { s with tags := Machine.tickTags s.tags }) (fun _ => id) (.of_mem rfl) rfl (fun i _ => ?_)
    (fun _ hf => ⟨hf, fun hx => hx.same rfl rfl rfl⟩) (fun _ hf => ⟨hf, fun hm => hm.same rfl rfl rfl fun c => by cases c <;> rfl⟩)
    (h.base.tags' (w := s.work) fun _ => id)
  cases i with
  | tag g =>
    have hword : tagWord (tagRec { s with tags := Machine.tickTags s.tags } g) = tagWord (tagRec s g) := by
      unfold tagRec Machine.tickTags Tbl.getD
      rw [find_timed fun x : Tag => { x with timer := less x.timer }]
      cases Tbl.find s.tags.table g <;> rfl
    have form (u : State) : Item.word V u (.tag g) = if u.running then some (tagWord (tagRec u g)) else none := rfl
    rw [form, form, hword]
    rfl
  | _ => rfl

/-- A table entry with its timer one millisecond less. -/
def timed (a : Active) : Active := { a with timer := less a.timer }

theorem find?_timed (l : Tbl Active) {P : Nat × Active → Bool} (hP : ∀ e a, P (e, timed a) = P (e, a)) :
    (l.map fun x => (x.1, timed x.2)).find? P = (l.find? P).map fun x => (x.1, timed x.2) := by
  rw [List.find?_map]
  congr 2
  funext x
  exact hP x.1 x.2

theorem entryAt_timed (s : State) (x : Nat) : (s.ilk.active.map fun y => (y.1, timed y.2)).find? (beginsAt s.ilk.routes x)
    = (entryAt s x).map fun y => (y.1, timed y.2) := find?_timed _ fun _ _ => rfl

protected theorem Mid.tickIlk (h : Mid d V s) : Mid d V { s with ilk := tickIlk s.ilk } := by
  have h1 : Mid d V { s with ilk := { s.ilk with active := s.ilk.active.map fun x => (x.1, timed x.2) } } := by
    refine h.active (sorted_timed timed h.base.active) (fun _ => id) (fun e _ => ?_) (fun x _ => ?_) fun _ _ x => ?_
    · rw [find_timed timed]
      cases Tbl.find s.ilk.active e <;> rfl
    · rw [entryAt_timed, Option.map_map]
      rfl
    · unfold setRouteAt
      rw [show entryAt { s with ilk := { s.ilk with active := s.ilk.active.map fun x => (x.1, timed x.2) } } x
        = (entryAt s x).map fun y => (y.1, timed y.2) from entryAt_timed s x]
      cases entryAt s x <;> rfl
  refine h1.change (t := { s with ilk := Machine.tickIlk s.ilk }) (fun _ => id) (.of_mem rfl) rfl (fun i _ => ?_)
    (fun _ hf => ⟨hf, fun hx => hx.same rfl rfl rfl⟩) (fun _ hf => ⟨hf, fun hm => hm.same rfl rfl rfl fun c => by cases c <;> rfl⟩)
    (h1.base.ilk (w := s.work) rfl h1.base.active)
  cases i with
  | stack k =>
    have hword : stackWord (Machine.tickIlk s.ilk).stack[k]? = stackWord s.ilk.stack[k]? := by
      unfold Machine.tickIlk
      dsimp only
      rw [List.getElem?_map]
      cases s.ilk.stack[k]? <;> rfl
    exact if_congr Iff.rfl (congrArg some hword) rfl
  | _ => rfl

/-- An order with its timer one millisecond less. -/
def timedOrder (o : Order) : Order := { o with timer := less o.timer }

theorem orderOf_tick (s : State) (p : Nat) : Machine.orderOf { s with pts := tickPts s.pts } p
    = (Machine.orderOf s p).map fun x => (if x.2 then x.1 else timedOrder x.1, x.2) := by
  have hq : (s.pts.queue.map timedOrder).find? (fun o => o.point == p) = (s.pts.queue.find? fun o => o.point == p).map timedOrder := by
    rw [List.find?_map]
    rfl
  have hstart : Machine.orderOf { s with pts := tickPts s.pts } p = Machine.orderOf { s with pts := { s.pts with
      queue := s.pts.queue.map timedOrder } } p := rfl
  rw [hstart]
  unfold Machine.orderOf
  dsimp only
  rw [hq]
  cases s.pts.queue.find? fun o => o.point == p with
  | some o => rfl
  | none => cases s.pts.overflow.find? fun o => o.point == p <;> rfl

protected theorem Mid.tickPts (h : Mid d V s) : Mid d V { s with pts := tickPts s.pts } := by
  have hfind (p : Nat) : Tbl.find (Machine.tickPts s.pts).state p = (Tbl.find s.pts.state p).map fun st => { st with loss := less st.loss } :=
    find_timed (fun st : PointState => { st with loss := less st.loss }) s.pts.state p
  have hlie (p : Nat) : (Tbl.find (Machine.tickPts s.pts).state p).map PointState.lie = (Tbl.find s.pts.state p).map PointState.lie := by
    rw [hfind, Option.map_map]
    rfl
  refine h.points (w := s.work) rfl ⟨h.base.pts.recs, h.base.pts.contacts, fun p r hr => ?_⟩ (fun _ => id) (fun p _ r => ?_) id
    fun _ hf => ⟨hf, hlie⟩
  · obtain ⟨hp, st, hst⟩ := h.base.pts.state p r hr
    exact ⟨hp, _, (hfind p).trans (congrArg _ hst)⟩
  · have hdet : detLie { s with pts := Machine.tickPts s.pts } p = detLie s p := detLie_of_map (hlie p)
    have horder := orderOf_tick s p
    unfold pointWord
    dsimp only
    rw [horder, hdet]
    cases Machine.orderOf s p with
    | none => rfl
    | some x =>
      obtain ⟨o, overflowed⟩ := x
      cases overflowed <;> rfl

/-- The deck's timers: turntable word 6 alone shows one. -/
theorem mid_deckTimers (h : Mid d V s) {j b w : Option Nat} :
    Mid (also d (.table 6)) V { s with tt := { s.tt with jogHold := j, boltTimer := b, settleTimer := w } } := by
  refine h.change (t := { s with tt := { s.tt with jogHold := j, boltTimer := b, settleTimer := w } }) (fun _ => .inl) (.of_mem rfl) rfl
    (fun i hi => ?_) (fun _ hf => ⟨hf, fun hx => hx.same rfl rfl rfl⟩)
    (fun _ hf => ⟨hf, fun hm => hm.same rfl rfl rfl fun c => by cases c <;> rfl⟩) (h.base.tt (w := s.work) fun _ => ⟨rfl, rfl⟩)
  cases i with
  | table k =>
    have hk : k ≠ 6 := fun he => hi (.inr (congrArg Item.table he))
    have hword : tableMirrorWord { s with tt := { s.tt with jogHold := j, boltTimer := b, settleTimer := w } } k = tableMirrorWord s k := by
      unfold tableMirrorWord
      dsimp only
      cases s.tt.deck with
      | none => rfl
      | some x =>
        unfold tableWord
        dsimp only
        split
        case h_7 => exact absurd rfl hk
        all_goals rfl
    exact if_congr Iff.rfl (congrArg some hword) rfl
  | _ => rfl

protected theorem Mid.mirrorJogHold (h : Mid (also d (.table 6)) V s) : Mid d V (mirrorJogHold s) :=
  h.writeWord (i := .table 6) nofun nofun (tableMirrorWord_lt s 6) word_of_ite

/-- A runner with its timers one millisecond less. -/
def timedRunner (r : Runner) : Runner := { r with stepTimer := less r.stepTimer, durTimer := less r.durTimer }

protected theorem Mid.tickVisitors (h : Mid d V s) : Mid d V { s with vis := tickVisitors s.vis } := by
  refine h.visitors (w := s.work) ⟨h.base.vis.filters, h.base.vis.lamps⟩ (fun _ => id) id fun _ hf => ⟨hf, ?_⟩
  unfold Machine.tickVisitors
  dsimp only
  rw [Option.map_map]
  rfl

end Timers

end Sys2Proof.ShownMeanwhile
end

