-- ==== Sys2Proof/Proofs/TimeShown.lean ====
section
/-! The commands that pass time keep what is shown (R140, R172, R178, R179, R190, O44). -/

namespace Sys2Proof.ShownMeanwhile

open Sys2Proof.Machine Sys2Proof.MirrorItems

section Time
variable {d : Item → Prop} {V : Nat → Nat} {s t : State}

/-! ### Levels (R178, R179) -/

theorem levels_congr (hs : t.disp.shown = s.disp.shown) (hp : t.disp.panel = s.disp.panel) (hf : ∀ m, lit t.disp.flash m = lit s.disp.flash m)
    (hl : t.vis.lamps = s.vis.lamps) : (refreshLevels t).disp.levels = (refreshLevels s).disp.levels := by
  have hlevel : lampLevel t = lampLevel s := by
    funext m
    unfold lampLevel
    rw [hf, hp]
  unfold refreshLevels
  dsimp only
  rw [hlevel, hs, hl]

/-- Between two multiples of 125 ms each mode keeps its half. -/
theorem lit_next {n : Nat} (hn : n < 1000) (h : (n + 1) % 1000 % 125 ≠ 0) (m : Mode) : lit ((n + 1) % 1000) m = lit n m := by
  cases m with
  | slowFlash => exact decide_eq_decide.2 (by omega)
  | fastFlash => exact decide_eq_decide.2 (by omega)
  | _ => rfl

theorem levels_tickFlash (hf : s.disp.flash < 1000) (h : s.disp.levels = (refreshLevels s).disp.levels) :
    (tickFlash s).disp.levels = (refreshLevels (tickFlash s)).disp.levels := by
  unfold tickFlash
  dsimp only
  split
  · rfl
  · next hn => exact h.trans (levels_congr (s := s) (t := { s with disp := { s.disp with flash := (s.disp.flash + 1) % 1000 } }) rfl rfl
      (lit_next hf hn) rfl).symm

/-! ### What keeps the button lamps -/

/-- A change that keeps the button lamps and their modes. -/
theorem Done.moved (h : Done s) (hm : Mid nothing (visitorWord t) t) (hw : t.work = s.work) (hr : t.exch.runState = s.exch.runState)
    (hl : t.vis.lamps = s.vis.lamps) (hb : ∀ b, buttonLampMode t b = buttonLampMode s b)
    (hlev : t.exch.runState = .running → t.disp.levels = (refreshLevels t).disp.levels) : Done t where
  mid := hm
  aspects := by rw [hw]; exact h.aspects
  lamps := by rw [hw]; exact h.lamps
  buttons := fun hrun b hlt => by
    rw [hl, hb]
    exact h.buttons (hr ▸ hrun) b hlt
  levels := hlev

theorem done_flashPasses (h : Done s) : Done (flashPasses s) := by
  have hword : visitorWord (flashPasses s) = visitorWord s := funext fun k => visitorWord_congr rfl rfl k
  refine h.moved ?_ rfl rfl rfl (fun _ => rfl) fun _ => rfl
  rw [hword]
  exact Mid.refreshLevels (h.mid.display rfl rfl)

/-- A change of the deck that no lamp shows. -/
theorem Done.deck {x : Turntable} (h : Done s) (hm : Mid nothing (visitorWord s) t) (hb : body t = body { s with tt := x })
    (hj : x.jogPermitted = s.tt.jogPermitted) (hst : x.state = s.tt.state) (hq : x.requester = s.tt.requester) : Done t := by
  have hvis : t.vis = s.vis := (RouteRelease.read_of_body (fun u => u.vis) (fun _ => rfl) hb).trans rfl
  have hdisp : t.disp = s.disp := (RouteRelease.read_of_body (fun u => u.disp) (fun _ => rfl) hb).trans rfl
  have htt : t.tt = x := (RouteRelease.read_of_body (fun u => u.tt) (fun _ => rfl) hb).trans rfl
  have hr : t.exch.runState = s.exch.runState := (RouteRelease.read_of_body (fun u => u.exch.runState) (fun _ => rfl) hb).trans rfl
  have hword : visitorWord t = visitorWord s := funext fun k => visitorWord_congr hvis (by rw [htt, hj]) k
  refine h.moved (hword ▸ hm) ((work_of_body hb).trans rfl) hr (by rw [hvis]) (fun b => ?_) fun hrun => ?_
  · refine (RouteRelease.read_of_body (fun u => buttonLampMode u b) (fun _ => rfl) hb).trans ?_
    unfold buttonLampMode jogLampMode
    dsimp only
    rw [hj, hst, hq]
    rfl
  · rw [hdisp, h.levels (hr ▸ hrun)]
    exact (levels_congr (by rw [hdisp]) (by rw [hdisp]) (fun _ => by rw [hdisp]) (by rw [hvis])).symm

theorem done_stepActive (h : Done s) : Done (stepActive s) := by
  have hm := h.mid.stepActive
  unfold Machine.stepActive at hm ⊢
  split
  · exact h
  · split
    · exact h
    · next g hg hs =>
      rw [hg] at hm
      dsimp only at hm
      rw [if_neg hs] at hm
      exact h.deck hm (body_mirrorTable _) rfl rfl rfl

theorem done_jogHoldPasses (h : Done s) : Done (jogHoldPasses s) := by
  unfold Machine.jogHoldPasses
  split
  · exact h
  · next n _ =>
    have hm := (mid_deckTimers h.mid (j := some (n - 1)) (b := s.tt.boltTimer) (w := s.tt.settleTimer)).mirrorJogHold
    exact h.deck hm (RequestIntake.body_mirrorJogHold _) rfl rfl rfl

/-! ### The runner's timers (R172) -/

/-- A visitor unit whose timers alone have moved. -/
structure TimersPass (v w : VisitorUnit) : Prop where
  filters : w.filters = v.filters
  shows : w.shows = v.shows
  queue : w.queue = v.queue
  suspended : w.suspended = v.suspended
  busy : w.busy = v.busy
  last : w.last = v.last
  lamps : w.lamps = v.lamps
  cool : ∀ n, Tbl.has w.cool n = Tbl.has v.cool n
  runner : ∃ f : Runner → Runner, w.runner = v.runner.map f ∧
    ∀ r, (f r).show_ = r.show_ ∧ (f r).step = r.step ∧ (f r).phase = r.phase ∧ (f r).routes = r.routes

/-- The visitor words but word 4 read no timer of the runner. -/
theorem visitorWord_timers (h : TimersPass s.vis t.vis) (hj : t.tt.jogPermitted = s.tt.jogPermitted) {k : Nat} (hk : k ≠ 4) :
    visitorWord t k = visitorWord s k := by
  obtain ⟨h1, -, h2, h3, h4, h5, h6, h7, f, hr, hf⟩ := h
  have hcool : (fun n => Tbl.has t.vis.cool n) = fun n => Tbl.has s.vis.cool n := funext h7
  unfold visitorWord queuePlace buttonMode
  rw [h1, h2, h3, h4, h5, h6, hj, hcool, hr]
  cases s.vis.runner with
  | none => rfl
  | some r =>
    obtain ⟨e1, e2, e3, e4⟩ := hf r
    simp only [Option.map_some, e1, e2, e3, e4]
    split
    case h_5 => exact absurd rfl hk
    all_goals rfl

/-- The button lamps read no timer. -/
theorem buttonLampMode_timers (h : TimersPass s.vis t.vis) (hr : t.running = s.running) (hp : t.disp.panel = s.disp.panel)
    (hc : t.asp.cond = s.asp.cond) (hq : t.tt.requester = s.tt.requester) (hj : t.tt.jogPermitted = s.tt.jogPermitted)
    (hst : t.tt.state = s.tt.state) (b : Nat) : buttonLampMode t b = buttonLampMode s b := by
  obtain ⟨-, h1, h2, h3, h4, -, -, h7, f, hrun, hf⟩ := h
  have hbound : boundShow t b = boundShow s b := by unfold boundShow; rw [h1]
  have hqueued (n : Nat) : isQueued t n = isQueued s n := by unfold isQueued; rw [h2]
  have hrunning (n : Nat) : isRunning t n = isRunning s n := by
    unfold isRunning
    rw [hrun]
    cases s.vis.runner with
    | none => rfl
    | some r => exact congrArg (· == n) (hf r).1
  have hnone : t.vis.runner.isNone = s.vis.runner.isNone := by rw [hrun]; cases s.vis.runner <;> rfl
  unfold buttonLampMode showLampMode jogLampMode
  simp only [hr, hp, hc, hq, hj, hst, hbound, hqueued, hrunning, hnone, h2, h3, h4, h7]

/-- Visitor word 4 settled after a change of the runner's timers. -/
theorem mid_wordFour (h : Mid nothing (visitorWord s) t) (hk : ∀ k, k ≠ 4 → visitorWord t k = visitorWord s k) :
    Mid nothing (visitorWord (settleVisitorWord s 4 t)) (settleVisitorWord s 4 t) := by
  have hword : visitorWord (settleVisitorWord s 4 t) = visitorWord t :=
    funext fun k => RouteRelease.read_of_body (fun u => visitorWord u k) (fun _ => rfl) (body_settleVisitorWord s 4 t)
  rw [hword]
  refine Mid.settleEach (ks := [4]) (h.withWords (fun _ => .inl) fun k hn => ?_) fun _ => rfl
  by_cases h4 : k = 4
  · subst h4
    by_contra hne
    exact hn (.inr ⟨4, List.mem_singleton.2 rfl, rfl, fun e => hne e.symm⟩)
  · exact hk k h4

/-- A change of timers keeps what is shown. -/
theorem Done.timers (h : Done s) (hm : Mid nothing (visitorWord t) t) (ht : TimersPass s.vis t.vis) (hw : t.work = s.work)
    (hr : t.exch.runState = s.exch.runState) (hp : t.disp.panel = s.disp.panel) (hc : t.asp.cond = s.asp.cond)
    (hq : t.tt.requester = s.tt.requester) (hj : t.tt.jogPermitted = s.tt.jogPermitted) (hst : t.tt.state = s.tt.state)
    (hlev : t.exch.runState = .running → t.disp.levels = (refreshLevels t).disp.levels) : Done t :=
  h.moved hm hw hr ht.lamps (buttonLampMode_timers ht (by unfold State.running; rw [hr]) hp hc hq hj hst) hlev

theorem timerPasses_rest (x : ShowTimer) (r : Runner) : (timerPasses x r).show_ = r.show_ ∧ (timerPasses x r).step = r.step ∧
    (timerPasses x r).phase = r.phase ∧ (timerPasses x r).routes = r.routes := by cases x <;> exact ⟨rfl, rfl, rfl, rfl⟩

theorem done_secondPasses (h : Done s) (x : ShowTimer) : Done (secondPasses x s) := by
  cases hr : s.vis.runner with
  | none =>
    unfold Machine.secondPasses
    rw [hr]
    exact h
  | some r =>
    have hpass : TimersPass s.vis { s.vis with runner := some (timerPasses x r) } :=
      ⟨rfl, rfl, rfl, rfl, rfl, rfl, rfl, fun _ => rfl, timerPasses x, by rw [hr, Option.map_some], timerPasses_rest x⟩
    have hmid : Mid nothing (visitorWord s) { s with vis := { s.vis with runner := some (timerPasses x r) } } :=
      h.mid.visitorRest rfl rfl (by rw [hr]; exact congrArg some (timerPasses_rest x r).1)
    have hform : secondPasses x s = mirrorVisitorWord 4 { s with vis := { s.vis with runner := some (timerPasses x r) } } := by
      unfold secondPasses
      rw [hr]
    have hbody := body_mirrorVisitorWord 4 { s with vis := { s.vis with runner := some (timerPasses x r) } }
    rw [← hform] at hbody
    have hread {α : Type} (g : State → α) (hg : ∀ u, g u = g (body u)) : g (secondPasses x s)
        = g { s with vis := { s.vis with runner := some (timerPasses x r) } } := RouteRelease.read_of_body g hg hbody
    have hvis := hread (fun u => u.vis) fun _ => rfl
    have hdisp : (secondPasses x s).disp = s.disp := hread (fun u => u.disp) fun _ => rfl
    have hword (k : Nat) := hread (fun u => visitorWord u k) fun _ => rfl
    have hrun : (secondPasses x s).exch.runState = s.exch.runState := hread (fun u => u.exch.runState) fun _ => rfl
    refine h.timers ?_ (hvis ▸ hpass) ((work_of_body hbody).trans rfl) hrun (by rw [hdisp]) (hread (fun u => u.asp.cond) fun _ => rfl)
      (hread (fun u => u.tt.requester) fun _ => rfl) (hread (fun u => u.tt.jogPermitted) fun _ => rfl)
      (hread (fun u => u.tt.state) fun _ => rfl) fun he => ?_
    · rw [show visitorWord (secondPasses x s) = _ from funext hword, hform]
      refine Mid.mirrorVisitorWord (hmid.withWords (fun _ => .inl) fun k hk => ?_) rfl
      exact visitorWord_timers (s := s) (t := { s with vis := { s.vis with runner := some (timerPasses x r) } }) hpass rfl fun e => hk (.inr (congrArg Item.visitor e))
    · rw [hdisp, h.levels (hrun ▸ he)]
      exact (levels_congr (by rw [hdisp]) (by rw [hdisp]) (fun _ => by rw [hdisp]) (by rw [hvis])).symm

/-! ### One millisecond (R190) -/

/-- Every timer one millisecond less, and the clock. -/
def ticked (s : State) : State := { s with
  occ := tickOcc s.occ, tags := tickTags s.tags, ilk := tickIlk s.ilk, pts := tickPts s.pts, tt := tickTable s.tt
  vis := tickVisitors s.vis, disp := { s.disp with idleTimer := less s.disp.idleTimer }
  exch := { s.exch with pollTimer := less s.exch.pollTimer }, clock := (s.clock + 1) % Config.clockMod }

/-- The jog hold timer's word after it. -/
def jogTicked (s : State) : State := if s.tt.jogHold.isSome then mirrorJogHold (ticked s) else ticked s

theorem tick_eq (s : State) : tick s = settleVisitorWord s 4 (tickFlash (jogTicked s)) := rfl

theorem mid_ticked (h : Mid d V s) : Mid (also d (.table 6)) V (ticked s) := by
  have h1 := mid_deckTimers h.tickOcc.tickTags.tickIlk.tickPts (j := less s.tt.jogHold) (b := less s.tt.boltTimer)
    (w := less s.tt.settleTimer)
  have h2 := (h1.tickVisitors.display (x := { s.disp with idleTimer := less s.disp.idleTimer }) rfl rfl)
  exact h2.same (t := ticked s) ⟨rfl, rfl, rfl, rfl, rfl, rfl, rfl, rfl, rfl, rfl, rfl⟩ (.of_mem rfl) h.base.mem id id

/-- With the jog hold timer stopped turntable word 6 stays. -/
theorem word_noJogHold (hj : s.tt.jogHold = none) : Item.word V (ticked s) (.table 6) = Item.word V s (.table 6) := by
  have hword : tableMirrorWord (ticked s) 6 = tableMirrorWord s 6 := by
    unfold tableMirrorWord ticked tickTable tableWord
    dsimp only
    rw [hj]
    rfl
  exact if_congr Iff.rfl (congrArg some hword) rfl

theorem mid_jogTicked (h : Mid nothing V s) : Mid nothing V (jogTicked s) := by
  have h1 := mid_ticked h
  unfold jogTicked
  split
  · exact h1.mirrorJogHold
  · next hj =>
    have hj : s.tt.jogHold = none := Option.not_isSome_iff_eq_none.1 hj
    refine ⟨fun i v hi hstands hv => ?_, fun hr hi => h1.aspects hr fun hx => hx.elim id nofun,
      fun hr hi => h1.modes hr fun hx => hx.elim id nofun, h1.base⟩
    by_cases he : i = .table 6
    · subst he
      rw [word_noJogHold hj] at hv
      exact h.words _ v id hstands hv
    · exact h1.words i v (fun hx => hx.elim id he) hstands hv

theorem body_jogTicked (s : State) : body (jogTicked s) = body (ticked s) := by
  unfold jogTicked
  split
  · exact RequestIntake.body_mirrorJogHold _
  · rfl

theorem timersPass_tick (v : VisitorUnit) : TimersPass v (tickVisitors v) where
  filters := rfl
  shows := rfl
  queue := rfl
  suspended := rfl
  busy := rfl
  last := rfl
  lamps := rfl
  cool := fun n => by
    have hfind : Tbl.find (tickVisitors v).cool n = (Tbl.find v.cool n).map fun x => x - 1 := find_timed (fun x => x - 1) v.cool n
    unfold Tbl.has
    rw [hfind, Option.isSome_map]
  runner := ⟨timedRunner, rfl, fun _ => ⟨rfl, rfl, rfl, rfl⟩⟩

/-- The flash count moved on: the bindings, the shown modes and the panel stay. -/
theorem tickFlash_display (s : State) : ∃ x : Display, x.bind = s.disp.bind ∧ x.shown = s.disp.shown ∧ x.panel = s.disp.panel ∧
    tickFlash s = { s with disp := x } := by
  unfold tickFlash
  dsimp only
  split
  · exact ⟨(refreshLevels { s with disp := { s.disp with flash := (s.disp.flash + 1) % 1000 } }).disp, rfl, rfl, rfl, rfl⟩
  · exact ⟨{ s.disp with flash := (s.disp.flash + 1) % 1000 }, rfl, rfl, rfl, rfl⟩

theorem levels_jogTicked (h : s.disp.levels = (refreshLevels s).disp.levels) :
    (jogTicked s).disp.levels = (refreshLevels (jogTicked s)).disp.levels := by
  have hdisp := RouteRelease.read_of_body (fun u => u.disp) (fun _ => rfl) (body_jogTicked s)
  have hlevels := RouteRelease.read_of_body (fun u => (refreshLevels u).disp.levels) (fun _ => rfl) (body_jogTicked s)
  exact ((congrArg Display.levels hdisp).trans h).trans hlevels.symm

theorem done_tick (h : Done s) (hf : s.disp.flash < 1000) : Done (tick s) := by
  obtain ⟨x, hbind, hshown, hpanel, hx⟩ := tickFlash_display (jogTicked s)
  have hdisp := RouteRelease.read_of_body (fun u => u.disp) (fun _ => rfl) (body_jogTicked s)
  have hflash : (jogTicked s).disp.flash < 1000 := (congrArg Display.flash hdisp).symm ▸ hf
  have hend := body_settleVisitorWord s 4 (tickFlash (jogTicked s))
  have hbody : body (tickFlash (jogTicked s)) = body { ticked s with disp := x } := by
    rw [hx]
    exact congrArg (fun u : State => ({ u with disp := x } : State)) (body_jogTicked s)
  have hread {α : Type} (g : State → α) (hg : ∀ u, g u = g (body u)) : g (tickFlash (jogTicked s)) = g { ticked s with disp := x } :=
    RouteRelease.read_of_body g hg hbody
  have hlast {α : Type} (g : State → α) (hg : ∀ u, g u = g (body u)) : g (tick s) = g (tickFlash (jogTicked s)) :=
    RouteRelease.read_of_body g hg hend
  have hpass : TimersPass s.vis (tickFlash (jogTicked s)).vis := (hread (fun u => u.vis) fun _ => rfl) ▸ timersPass_tick s.vis
  have hpermitted : (tickFlash (jogTicked s)).tt.jogPermitted = s.tt.jogPermitted := hread (fun u => u.tt.jogPermitted) fun _ => rfl
  have hmid : Mid nothing (visitorWord s) (tickFlash (jogTicked s)) := by
    rw [hx]
    exact (mid_jogTicked h.mid).display hbind hshown
  have hall {α : Type} (g : State → α) (hg : ∀ u, g u = g (body u)) : g (tick s) = g { ticked s with disp := x } :=
    (hlast g hg).trans (hread g hg)
  have hrun : (tick s).exch.runState = s.exch.runState := hall (fun u => u.exch.runState) fun _ => rfl
  have hpanel : (tick s).disp.panel = s.disp.panel :=
    (hall (fun u => u.disp.panel) fun _ => rfl).trans (hpanel.trans ((congrArg Display.panel hdisp).trans rfl))
  refine h.timers (mid_wordFour hmid fun k hk => visitorWord_timers hpass hpermitted hk)
    ((hlast (fun u => u.vis) fun _ => rfl) ▸ hpass) (hall (fun u => u.work) fun _ => rfl) hrun hpanel
    (hall (fun u => u.asp.cond) fun _ => rfl) (hall (fun u => u.tt.requester) fun _ => rfl) (hall (fun u => u.tt.jogPermitted) fun _ => rfl)
    (hall (fun u => u.tt.state) fun _ => rfl) fun hr => ?_
  have hlevels := levels_tickFlash hflash (levels_jogTicked (h.levels (hrun ▸ hr)))
  exact (hlast (fun u => u.disp.levels) fun _ => rfl).trans (hlevels.trans (hlast (fun u => (refreshLevels u).disp.levels) fun _ => rfl).symm)

end Time

end Sys2Proof.ShownMeanwhile
end

