-- ==== Sys2Proof/Proofs/AspectTable.lean ====
section
/-! The aspect table, and what is shown after every step (O44). -/

namespace Sys2Proof.ShownMeanwhile

open Sys2Proof.Machine Sys2Proof.MirrorItems Sys2Proof.CommandShapes

/-! ### The aspect table (R109, R110) -/

section Aspects
variable (s : State) (x : Nat) (k : SignalKind)

theorem mainAspect_allStop (h : s.asp.cond = .allStop) : mainAspect s x k = .danger := by unfold mainAspect; rw [if_pos h]

theorem mainAspect_noSetRoute (h : setRouteAt s x = none) : mainAspect s x k = .danger := by
  unfold mainAspect
  rw [h, ite_self]

theorem setRouteAt_none {x : Nat} (h : entryAt s x = none) : setRouteAt s x = none := by unfold setRouteAt; rw [h]

theorem setRouteAt_some {x e : Nat} {a : Active} (h : entryAt s x = some (e, a)) :
    setRouteAt s x = if a.state = .set then Tbl.find s.ilk.routes a.route else none := by unfold setRouteAt; rw [h]

variable {s x k}
variable (hc : s.asp.cond = .running) {r : RouteRec} (hr : setRouteAt s x = some r)
include hc hr

theorem mainAspect_shunt (h : r.cls = .shunt) : mainAspect s x k = .shuntOff := by
  unfold mainAspect
  rw [hc, hr, if_neg (by decide)]
  dsimp only
  rw [h]

theorem mainAspect_callOn (h : r.cls = .callOn) : mainAspect s x k = .callOn := by
  unfold mainAspect
  rw [hc, hr, if_neg (by decide)]
  dsimp only
  rw [h]

theorem mainAspect_two (h : r.cls = .main) : mainAspect s x .twoAspect = .proceed := by
  unfold mainAspect
  rw [hc, hr, if_neg (by decide)]
  dsimp only
  rw [h]
  rfl

theorem mainAspect_three (h : r.cls = .main) :
    mainAspect s x .threeAspect = if (r.exit.bind (setRouteAt s)).any (fun q => q.cls == .main) then .proceed else .caution := by
  unfold mainAspect
  rw [hc, hr, if_neg (by decide)]
  dsimp only
  rw [h]
  dsimp only
  rw [if_neg (by decide)]
  cases r.exit.bind (setRouteAt s) with
  | none => rfl
  | some q =>
    dsimp only [Option.any_some]
    exact if_congr beq_iff_eq.symm rfl rfl

end Aspects

section Table
variable {s : State} {x e : Nat} {k : SignalKind} {a : Active} {r : RouteRec}

theorem mainAspect_notSet (he : entryAt s x = some (e, a)) (ha : a.state ≠ .set) : mainAspect s x k = .danger :=
  mainAspect_noSetRoute s x k ((setRouteAt_some s he).trans (if_neg ha))

theorem setRouteAt_of_set (he : entryAt s x = some (e, a)) (hr : Tbl.find s.ilk.routes a.route = some r) (ha : a.state = .set) :
    setRouteAt s x = some r := (setRouteAt_some s he).trans ((if_pos ha).trans hr)

/-- The exit signal of a three-aspect signal's MAIN route (R109). -/
theorem mainAspect_exit (hc : s.asp.cond = .running) (hr : setRouteAt s x = some r) (hcls : r.cls = .main) :
    (r.exit = none → mainAspect s x .threeAspect = .caution) ∧
      ∀ y, r.exit = some y →
        (entryAt s y = none → mainAspect s x .threeAspect = .caution) ∧
        ∀ e2 b q, entryAt s y = some (e2, b) → Tbl.find s.ilk.routes b.route = some q →
          mainAspect s x .threeAspect = if b.state = .set ∧ q.cls = .main then .proceed else .caution := by
  have hthree := mainAspect_three hc hr hcls
  refine ⟨fun he => ?_, fun y he => ⟨fun hy => ?_, fun e2 b q hy hq => ?_⟩⟩
  · rw [hthree, he]
    rfl
  · rw [hthree, he, Option.bind_some, setRouteAt_none s hy]
    rfl
  · rw [hthree, he, Option.bind_some, setRouteAt_some s hy]
    by_cases hset : b.state = .set
    · rw [if_pos hset, hq]
      exact if_congr (by simp [hset]) rfl rfl
    · rw [if_neg hset]
      exact (if_neg fun h : b.state = .set ∧ q.cls = .main => hset h.1).symm

/-- A DISTANT follows its home (R110). -/
theorem aspectOf_distant {r q : SignalRec} {h : Nat} (hk : r.kind = .distant) (hh : r.home = some h) (hq : Tbl.find s.asp.recs h = some q)
    (hkind : q.kind ≠ .distant) : aspectOf s x r = if mainAspect s h q.kind = .proceed then .proceed else .caution := by
  unfold aspectOf
  rw [if_pos hk, hh]
  dsimp only
  rw [hq]
  exact if_congr (by simp [hkind]) rfl rfl

end Table

/-! ### Every step -/

section Steps
variable {s t : State}

theorem settled_initialReset (p : Profile) (s : State) : Settled (initialReset p s) := by
  rw [ResetState.initialReset_eq]
  cases p with
  | exhibition =>
    rw [ResetState.initialReset_exhibition]
    exact ⟨rfl, ⟨rfl, rfl, fun _ _ h => by cases h⟩, fun _ _ h => (by cases h), ⟨rfl, rfl, fun _ _ h => by cases h⟩,
      fun _ _ h => (by cases h), rfl, ⟨rfl, rfl, rfl, fun _ _ h => by cases h⟩, fun _ => rfl, fun h => (by cases h)⟩
  | club =>
    rw [ResetState.initialReset_club]
    exact ⟨rfl, ⟨rfl, rfl, fun _ _ h => by cases h⟩, fun _ _ h => (by cases h), ⟨rfl, rfl, fun _ _ h => by cases h⟩,
      fun _ _ h => (by cases h), rfl, ⟨rfl, rfl, rfl, fun _ _ h => by cases h⟩, fun _ => rfl, fun h => (by cases h)⟩

theorem done_readState (h : Done s) : Done (readState s) := by
  have h1 : Done { s with exch := { s.exch with paired := false, bus := stateRegister (breakPairing s).exch, done := false } } :=
    done_port h rfl rfl rfl rfl
  exact h1.of_body (body_evalLine _) (.of_mem rfl) h1.mid.base.mem

theorem work_stepActive (s : State) : (stepActive s).work = s.work := by
  unfold Machine.stepActive
  split
  · rfl
  · split
    · rfl
    · exact (work_of_body (body_mirrorTable _)).trans rfl

theorem work_jogHoldPasses (s : State) : (jogHoldPasses s).work = s.work := by
  unfold Machine.jogHoldPasses
  split
  · rfl
  · exact (work_of_body (RequestIntake.body_mirrorJogHold _)).trans rfl

theorem work_secondPasses (x : ShowTimer) (s : State) : (secondPasses x s).work = s.work := by
  unfold Machine.secondPasses
  split
  · rfl
  · exact (work_of_body (body_mirrorVisitorWord _ _)).trans rfl

theorem work_tick (s : State) : (tick s).work = s.work := by
  have hflash : (tickFlash (jogTicked s)).work = (jogTicked s).work := by
    obtain ⟨x, -, -, -, hx⟩ := tickFlash_display (jogTicked s)
    rw [hx]
  rw [tick_eq]
  exact (work_of_body (body_settleVisitorWord s 4 _)).trans (hflash.trans ((work_of_body (body_jogTicked s)).trans rfl))

theorem settled_effect {c : Instr} {f : State → State} (hc : effectOf c = some f) (h : Done s) (hw : s.work = Work.none)
    (hhost : ∀ hw v, c = .hostMemoryAccess (.write hw v) → 2 * hw.val < 0x0100 ∨ 0x0D60 ≤ 2 * hw.val) : Settled (f s) := by
  have rest {u : State} (hu : Done u) (hwork : u.work = s.work) : Settled u := settled_of_done hu (hwork.trans hw)
  cases c with
  | flashPhaseChange => cases hc; exact rest (done_flashPasses h) rfl
  | nudge => cases hc; exact settled_nudged h hw
  | pollTimerExpiry => cases hc; exact settled_pollExpires h hw
  | stateRead => cases hc; exact rest (done_readState h) rfl
  | fullReset => cases hc; exact settled_initialReset _ _
  | initialReset => cases hc; exact settled_initialReset _ _
  | controlLayoutReset =>
    cases hc
    dsimp only
    split
    · exact rest (done_breakPairing h) rfl
    · exact settled_finish (done_endHandling (mid_layoutReset (done_breakPairing h).mid))
  | registerWriteIgnored a => cases hc; exact rest (done_registerIgnored h a) (by cases a <;> rfl)
  | halfWordLatchRead w => cases hc; exact rest (done_port h rfl rfl rfl rfl) rfl
  | hostMemoryAccess m =>
    cases hc
    refine rest (done_memoryAccess h fun hw v he => hhost hw v (by rw [he])) ?_
    cases m with
    | write hw v => exact (work_of_body (body_write16 _ _ (breakPairing s))).trans rfl
    | readUpper w => rfl
  | stepOutputActive => cases hc; exact rest (done_stepActive h) (work_stepActive s)
  | jogHoldRemainingChange => cases hc; exact rest (done_jogHoldPasses h) (work_jogHoldPasses s)
  | wholeSecondRemainingChange x => cases hc; exact rest (done_secondPasses h x) (work_secondPasses x s)
  | _ => cases hc

theorem settled_exec {c : Instr} (h : Done s) (hw : s.work = Work.none)
    (hhost : ∀ hw v, c = .hostMemoryAccess (.write hw v) → 2 * hw.val < 0x0100 ∨ 0x0D60 ≤ 2 * hw.val) (he : exec c s = .next t) :
    Settled t := by
  obtain ⟨al, q, f, -, hf, rfl⟩ | ⟨f, hf, rfl⟩ | ⟨f, hf, rfl⟩ := exec_cases he
  · exact settled_requestCommand hf h hw
  · exact settled_finish (done_endHandling (mid_handling hf h.mid))
  · exact settled_effect hf h hw hhost

theorem settled_step (hs : Sound s) (h : Settled s) (he : step s = .next t)
    (hhost : ∀ hw v rest, s.pending = .hostMemoryAccess (.write hw v) :: rest → 2 * hw.val < 0x0100 ∨ 0x0D60 ≤ 2 * hw.val) :
    Settled t := by
  have hdone := done_of_settled h hs.mem
  unfold step at he
  split at he
  · cases he
    exact settled_of_done (done_tick hdone hs.limits.flash) ((work_tick s).trans h.work)
  · next c rest hp =>
    have h1 : Done { s with pending := rest } :=
      hdone.same ⟨rfl, rfl, rfl, rfl, rfl, rfl, rfl, rfl, rfl, rfl, rfl⟩ (.of_mem rfl) hs.mem rfl
    exact settled_exec h1 h.work (fun hw v hc => hhost hw v rest (by rw [hp, hc])) he

end Steps

/-- Settles O44: the aspect table by the function's branches; what is shown by the end of each handling and by each direct change. -/
theorem aspectsFollowTheSetRoute : Obligations.AspectsFollowTheSetRoute := by
  refine ⟨fun s x k => ⟨mainAspect_allStop s x k, fun h => mainAspect_noSetRoute s x k (setRouteAt_none s h),
    fun e a r hc he hr => ⟨fun ha => mainAspect_notSet he ha, fun ha => mainAspect_shunt hc (setRouteAt_of_set he hr ha),
      fun ha => mainAspect_callOn hc (setRouteAt_of_set he hr ha), fun ha hcls hk => ?_, fun ha hcls hk => ?_⟩⟩,
    fun s x r => ⟨fun hk => if_neg hk, fun h q => aspectOf_distant⟩, fun s t hs h he hhost => settled_step hs h he hhost⟩
  · rw [hk]
    exact mainAspect_two hc (setRouteAt_of_set he hr ha) hcls
  · rw [hk]
    exact mainAspect_exit hc (setRouteAt_of_set he hr ha) hcls

end Sys2Proof.ShownMeanwhile
end
